-- ==== Sys2Proof/Word.lean ====
section
/-! DEFINITION. Words of the machine: bytes, 32-, 64- and 128-bit words, and their plainest arithmetic (R3). -/

namespace Sys2Proof

abbrev Byte := BitVec 8
abbrev W32 := BitVec 32
abbrev Word := BitVec 64
abbrev W128 := BitVec 128

namespace Word

/-- The 64-bit word whose high half is `hi` and low half is `lo` (R158: the low word is at the even number). -/
def pair (lo hi : W32) : Word := hi ++ lo

def lo (w : Word) : W32 := w.setWidth 32

def hi (w : Word) : W32 := (w >>> 32).setWidth 32

end Word

end Sys2Proof
end

