-- ==== Sys2Proof/Syntax.lean ====
section
/-! DEFINITION. Syntax: operands, modifiers and the instructions, one constructor for each row of spec/opcode_table.json.
Rows 0 to 172 and RESERVED_OPCODE_WORD are words that an issue group issues (their fields follow R258 to R275);
the other rows are steps that another agent of the part takes, and their arguments name what they act on. -/

namespace Sys2Proof

/-! ## Operands (R156, R164, R270) -/

/-- The guard pg: predicate number and negate bit (R156). -/
structure Guard where
  neg : Bool
  p : BitVec 3
  deriving DecidableEq, Repr

/-- A source specifier (R270). -/
inductive Opd where
  | v (n : BitVec 8)
  | g (n : BitVec 6)
  | o (n : BitVec 3)
  | lr
  | zero
  | q (n : BitVec 3)
  | int (n : BitVec 4)
  | cst (n : BitVec 4)
  | lit
  deriving DecidableEq, Repr

/-- A source field: specifier, E (trap if empty) and L (last read) (R164). -/
structure Src where
  op : Opd
  e : Bool
  l : Bool
  deriving DecidableEq, Repr

/-- A destination specifier that is not a predicate (R270). -/
inductive Dst where
  | v (n : BitVec 8)
  | g (n : BitVec 6)
  | o (n : BitVec 3)
  | lr
  | zero
  deriving DecidableEq, Repr

/-! ## Modifiers -/

/-- Rounding codes 0 to 4 (R224). -/
inductive Rnd where
  | rn | rz | ru | rd | rs
  deriving DecidableEq, Repr

/-- fmt of the floating mod field (R308). -/
inductive FFmt where
  | f32 | f16 | bf16
  deriving DecidableEq, Repr

/-- Format codes of FCVT, F2I and I2F (R319). -/
inductive CFmt where
  | b32 | b16 | bf16 | b64
  deriving DecidableEq, Repr

/-- The modifiers of a floating word: absolute value and negate of its operands, format, rounding (R308, R309). -/
structure FMod where
  cNeg : Bool
  bNeg : Bool
  bAbs : Bool
  aNeg : Bool
  aAbs : Bool
  fmt : FFmt
  rnd : Rnd
  deriving DecidableEq, Repr

inductive ICond where
  | eq | ne | lt | le | gt | ge
  deriving DecidableEq, Repr

inductive FCond where
  | eq | ne | lt | le | gt | ge | num | nan
  deriving DecidableEq, Repr

/-- Integer widths of CVTI (R296). -/
inductive IWidth where
  | w8 | w16 | w32 | w64
  deriving DecidableEq, Repr

inductive LaneMode where
  | abs | rel | xor | rot
  deriving DecidableEq, Repr

/-- The offset of LANEX: operand b, or WIDTH >> k, negated when `neg` (R327). -/
inductive LaneOff where
  | reg (b : Src)
  | width (k : BitVec 3) (neg : Bool)
  deriving DecidableEq, Repr

/-- Mode and destination of PCENSUS (R328). -/
inductive Census where
  | all (p : BitVec 3)
  | any (p : BitVec 3)
  | same (p : BitVec 3)
  | mask (d : Dst)
  | count (d : Dst)
  deriving DecidableEq, Repr

/-- Operations of REDLS, SCAN and BARP (R330). -/
inductive RedOp where
  | add | min | max | and | or | fadd | fmin | fmax | fminp | fmaxp
  deriving DecidableEq, Repr

/-- Scopes 0 to 6 (R204). -/
inductive Scope where
  | thr | warp | wg | cl | die | dev | sys
  deriving DecidableEq, Repr

/-- Ordering kinds (R205). -/
inductive Ord where
  | plain | rlx | acq | rel | acqrel | sc
  deriving DecidableEq, Repr

/-- Cache policies: .ca (the page's default in a word, R336), .by, .st. -/
inductive Cp where
  | ca | by | st
  deriving DecidableEq, Repr

/-- Access widths of format M. -/
inductive MWidth where
  | w8 | w16 | w32 | w64 | w128
  deriving DecidableEq, Repr

/-- Atomic types (R266). -/
inductive AType where
  | u32 | s32 | u64 | s64 | f32 | f64 | bf16x2
  deriving DecidableEq, Repr

/-- Atomic operations (R267). -/
inductive AOp where
  | add | min | max | and | or | xor | exch | load
  deriving DecidableEq, Repr

inductive BraMode where
  | always | nz | z | nz64 | z64
  deriving DecidableEq, Repr

/-- Directions of the copy family (R366): global, scratch, operand slot. -/
inductive CopyDir where
  | g2g | g2s | s2g | s2s | g2o | s2o
  deriving DecidableEq, Repr

inductive BwOp where
  | min | max | set
  deriving DecidableEq, Repr

inductive TlbForm where
  | page | ctx | all
  deriving DecidableEq, Repr

/-- Pairable operations, in the order of their sop codes (R272). -/
inductive Sop where
  | iadd | isub | and | or | xor | shl | shr | imin | imax | fadd | fsub | fmul | fmac | fmin | fmax
  | hadd2 | hmul2 | hfmac2 | vadd2 | vmin2 | mov
  deriving DecidableEq, Repr

/-- One half of a pair word (R272). -/
structure Half where
  sop : Sop
  d : BitVec 8
  a : BitVec 8
  b : BitVec 8
  deriving DecidableEq, Repr

/-! ## Operand shapes -/

structure A1 where
  pg : Guard
  d : Dst
  a : Src
  deriving DecidableEq, Repr

structure A2 where
  pg : Guard
  d : Dst
  a : Src
  b : Src
  deriving DecidableEq, Repr

structure A3 where
  pg : Guard
  d : Dst
  a : Src
  b : Src
  c : Src
  deriving DecidableEq, Repr

/-- Two sources and a predicate destination. -/
structure P2 where
  pg : Guard
  pd : BitVec 3
  a : Src
  b : Src
  deriving DecidableEq, Repr

/-- A load of format M (R333). -/
structure MLoad where
  pg : Guard
  d : Dst
  base : Src
  scope : Scope
  ord : Ord
  cp : Cp
  w : MWidth
  sx : Bool
  off : BitVec 20
  deriving DecidableEq, Repr

/-- A store of format M; `data.l` is the sx field (R265). -/
structure MStore where
  pg : Guard
  data : Src
  base : Src
  scope : Scope
  ord : Ord
  cp : Cp
  w : MWidth
  off : BitVec 20
  deriving DecidableEq, Repr

/-- An atomic of format T (R266). -/
structure TAtom where
  pg : Guard
  d : Dst
  base : Src
  b : Src
  ty : AType
  off8 : BitVec 8
  scope : Scope
  ord : Ord
  aop : AOp
  deriving DecidableEq, Repr

/-- ATOMCAS: compare value b, swap value c (R352). -/
structure TCas where
  pg : Guard
  d : Dst
  base : Src
  b : Src
  c : Src
  ty : AType
  scope : Scope
  ord : Ord
  deriving DecidableEq, Repr

/-- A word of the copy family (R366). -/
structure CopyOp where
  pg : Guard
  d : Dst
  dst : Src
  src : Src
  len : Src
  hoff : Bool
  hsrc : Bool
  hdst : Bool
  scope : Scope
  dir : CopyDir
  deriving DecidableEq, Repr

/-- ACCLD and ACCST (R386, R389): `c` is none for defrec. -/
structure AccOp where
  pg : Guard
  d : Dst
  a : Src
  tile : Src
  c : Option Src
  s : Bool
  raw : Bool
  scope : Scope
  deriving DecidableEq, Repr

/-- A thread's name: global core, warp slot, lane (R153, R154). -/
structure Tid where
  core : Nat
  slot : Nat
  lane : Nat
  deriving DecidableEq, Repr

/-- What a Vexari Link flit carries, as far as the manual says (R22, R23, R25, R26, R28, R30 to R32). A request names itself, and its response echoes that number. -/
inductive FlitBody where
  | load (id addr len : Nat)
  | store (id addr : Nat) (data : List Byte)
  | atomic (id addr : Nat) (ty : AType) (aop : AOp) (b : Word)
  | cas (id addr : Nat) (ty : AType) (b c : Word)
  /-- `ok` is clear in an unsupported-request error (R36) -/
  | response (id : Nat) (data : List Byte) (ok : Bool)
  | slotReturn (module : Nat)
  | payload (core : Nat) (pasid : Nat) (source : W32) (data : List Byte) (poison : Bool)
  | notice
  /-- VC3 in training: presets, slot counts, a certificate chain with a challenge, and two signatures -/
  | preset (round : Nat)
  | counts (l : List Nat)
  | identity (chain challenge : List Byte)
  | signatures (ed ml : List Byte)
  /-- the number of this module, the modules of its domain, its reservations by destination, and those into it by source (R26) -/
  | domain (self : Nat) (members : List Nat) (out into : List (Nat × Nat))
  | errorReport (code : Byte)
  /-- replay from this sequence number on (R25) -/
  | replay (seq : BitVec 16)
  /-- a part of a payload whose last part is in a later flit of its channel (R22) -/
  | part
  | other
  deriving DecidableEq, Repr

/-- The fields of a flit (R22). -/
structure Flit where
  seq : BitVec 16
  /-- byte 2: the channel in bits [1:0] -/
  chan : Byte
  kind : Byte
  /-- bytes [7:4] -/
  credit : List Byte
  body : FlitBody
  crc : Word
  deriving DecidableEq, Repr

def Flit.vc (f : Flit) : BitVec 2 := f.chan.setWidth 2

/-- A request that the monitor answers over DOE (R19, R37). -/
inductive SpdmKind where
  | measurements | challenge | keyExchange
  deriving DecidableEq, Repr

structure SpdmAsk where
  kind : SpdmKind
  nonce : Nat
  deriving DecidableEq, Repr

/-- What the partner of a port shows in IDENTITY (R30). -/
structure Partner where
  chain : List Byte
  challenge : List Byte
  deriving DecidableEq, Repr

/-- A write of QCTL with reset set: its queue, and the enable bit of the same write (R50). -/
structure QctlWrite where
  q : Nat
  enable : Bool
  deriving DecidableEq, Repr

/-- A write of FWCOMMIT: its value, and whether the monitor makes it (R48). -/
structure FwWrite where
  value : Word
  monitor : Bool
  deriving DecidableEq, Repr

/-- How the steps of bring-up go (R27): for each of the six whether it succeeds and its length in ns, and the width and generation that each PCI Express link negotiates (none where it does not train). -/
structure BringSteps where
  ok : BitVec 6
  ns : List Nat
  pcie : List (Option (Nat × Nat))
  deriving DecidableEq, Repr

/-- With the stacks that fail to train and the bridges that fail calibration. Dies 16 and 17 are the port dies. -/
structure BringUp extends BringSteps where
  stackFail : BitVec 16
  bridgeFail : List (Nat × Nat)
  deriving DecidableEq, Repr

/-- Registers a host or firmware write reaches that have no row of their own (R5, R33, R41, R49, R59, R115, R135). -/
inductive IoReg where
  | qbase (q : Nat)
  | qcfg (q : Nat)
  | fqBase (link : Nat)
  | fqCfg (link : Nat)
  | fqHead (link : Nat)
  | eqBase (link : Nat)
  | eqCfg (link : Nat)
  | eqHead (link : Nat)
  | fsvca (link : Nat)
  | vlctl (port : Nat)
  | fwctl
  | heatctl
  | memerr (die : Nat)
  | readOnly
  deriving DecidableEq, Repr

/-! ## Instructions -/

inductive Instr where
  -- integer, logic, address, packed (R281 to R296)
  | nop (pg : Guard)
  | mov (o : A1) (w64 : Bool)
  | iadd (o : A2) (w64 u sat : Bool)
  | isub (o : A2) (w64 u sat : Bool)
  | iaddc (o : A2) (n : BitVec 3) (w64 : Bool)
  | isubb (o : A2) (n : BitVec 3) (w64 : Bool)
  | ineg (o : A1) (w64 sat : Bool)
  | iabs (o : A1) (w64 sat : Bool)
  | imul (o : A2) (w64 : Bool)
  | imulhi (o : A2) (w64 u : Bool)
  | imad (o : A3) (w64 : Bool)
  | idiv (o : A2) (w64 u : Bool)
  | irem (o : A2) (w64 u : Bool)
  | imin (o : A2) (w64 u : Bool)
  | imax (o : A2) (w64 u : Bool)
  | icmp (o : P2) (c : ICond) (w64 u : Bool)
  | and (o : A2) (w64 : Bool)
  | or (o : A2) (w64 : Bool)
  | xor (o : A2) (w64 : Bool)
  | not (o : A1) (w64 : Bool)
  | andn (o : A2) (w64 : Bool)
  | bool3 (o : A3) (t : BitVec 8) (w64 : Bool)
  | shl (o : A2) (w64 : Bool)
  | shr (o : A2) (w64 : Bool)
  | shra (o : A2) (w64 : Bool)
  | rotl (o : A2) (w64 : Bool)
  | funnel (o : A3) (l w64 : Bool)
  | bfe (o : A2) (w64 u : Bool)
  | bfi (o : A3) (w64 : Bool)
  | popc (o : A1) (w64 : Bool)
  | clz (o : A1) (w64 : Bool)
  | ctz (o : A1) (w64 : Bool)
  | brev (o : A1) (w64 : Bool)
  | bpick (o : A3)
  | lea (o : A2) (s : BitVec 3) (u : Bool)
  | sel (o : A2) (n : BitVec 3) (neg w64 : Bool)
  | vadd2 (o : A2) (u sat : Bool)
  | vsub2 (o : A2) (u sat : Bool)
  | vmin2 (o : A2) (u : Bool)
  | vmax2 (o : A2) (u : Bool)
  | acsel2 (o : A3) (n : BitVec 3)
  | dot4 (o : A3) (u sat : Bool)
  | dot2 (o : A3) (u sat : Bool)
  | cvti (o : A1) (src dst : IWidth) (du su sat : Bool)
  -- floating point and conversion (R308 to R323)
  | fadd (o : A2) (m : FMod)
  | fsub (o : A2) (m : FMod)
  | fmul (o : A2) (m : FMod)
  | ffma (o : A3) (m : FMod)
  | fmin (o : A2) (m : FMod)
  | fmax (o : A2) (m : FMod)
  | fminp (o : A2) (m : FMod)
  | fmaxp (o : A2) (m : FMod)
  | fcmp (o : P2) (c : FCond) (m : FMod)
  | fclass (o : A1) (fmt : FFmt)
  | fcopysgn (o : A2) (fmt : FFmt)
  | frnd (o : A1) (m : FMod)
  | fdiv (o : A2) (m : FMod)
  | fsqrt (o : A1) (m : FMod)
  | frcp (o : A1) (m : FMod)
  | frsq (o : A1) (m : FMod)
  | fexp2 (o : A1) (m : FMod)
  | flog2 (o : A1) (m : FMod)
  | fsinpi (o : A1) (m : FMod)
  | fcospi (o : A1) (m : FMod)
  | ftanh (o : A1) (m : FMod)
  | hadd2 (o : A2) (m : FMod)
  | hmul2 (o : A2) (m : FMod)
  | hfma2 (o : A3) (m : FMod)
  | hmin2 (o : A2) (m : FMod)
  | hmax2 (o : A2) (m : FMod)
  | hdot2 (o : A3) (m : FMod)
  | dadd (o : A2) (m : FMod)
  | dmul (o : A2) (m : FMod)
  | dfma (o : A3) (m : FMod)
  | fcvt (o : A1) (dst src : CFmt) (rnd : Rnd)
  | f2i (o : A1) (src : CFmt) (rnd : Rnd) (d64 du : Bool)
  | i2f (o : A1) (dst : CFmt) (rnd : Rnd) (s64 su : Bool)
  | cvtq (o : A2) (desc : Bool)
  | cvtdq (o : A2) (desc : Bool)
  | amax (o : A2) (fmt : FFmt) (lanes : Bool)
  -- cross-lane and predicate words (R297, R298, R325 to R331)
  | lanex (o : A1) (mode : LaneMode) (off : LaneOff) (w64 : Bool)
  | bcastl (o : A1) (b : Option Src) (w64 : Bool)
  | pcensus (pg : Guard) (c : Census) (n : BitVec 3) (neg : Bool)
  | matchL (o : A1) (f w64 : Bool)
  | redls (o : A1) (op : RedOp) (rnd : Rnd) (u w64 : Bool)
  | redidx (o : A2) (max f u : Bool)
  | scan (o : A1) (op : RedOp) (rnd : Rnd) (u excl w64 : Bool)
  | pbool3 (pg : Guard) (pd pa pb pc : BitVec 3) (t : BitVec 8)
  | ptov (o : A2) (n c : BitVec 3) (w64 : Bool)
  | vtop (o : P2) (c : BitVec 3) (w64 : Bool)
  | actmask (pg : Guard) (d : Dst)
  -- control (R299 to R306)
  | bra (pg : Guard) (mode : BraMode) (a : Src) (off : W32)
  | brx (pg : Guard) (tab : Bool) (a : Src) (off : W32)
  | call (pg : Guard) (off : W32)
  | callx (pg : Guard) (tab : Bool) (a : Src) (off : W32)
  | ret (pg : Guard)
  | retn (pg : Guard) (n : BitVec 8)
  | exit (pg : Guard)
  | yield (pg : Guard)
  | sleep (pg : Guard) (a : Src)
  | bkpt (pg : Guard)
  | trap (pg : Guard) (imm : BitVec 10)
  -- memory, scratch, atomics, fences, barriers (R333 to R360)
  | ld (m : MLoad)
  | st (m : MStore)
  | lds (m : MLoad)
  | sts (m : MStore)
  | ldcl (m : MLoad)
  | stcl (m : MStore)
  | ldbd (m : MLoad)
  | stbd (m : MStore)
  | pref (pg : Guard) (base : Src) (cp : Cp) (off : BitVec 20)
  | cinval (pg : Guard) (base : Option Src) (off : BitVec 20)
  | smap (pg : Guard) (a b c : Src)
  | sunmap (pg : Guard) (a : Src)
  | swb (pg : Guard) (a : Option Src)
  | atom (t : TAtom)
  | atomcas (t : TCas)
  | red (t : TAtom)
  | atoms (t : TAtom)
  | fence (pg : Guard) (ord : Ord) (scope : Scope)
  | bar (pg : Guard)
  | barp (o : A1) (op : RedOp) (rnd : Rnd) (u w64 : Bool)
  | gbar (pg : Guard)
  | ckpt (pg : Guard)
  -- engines and streams (R361 to R379)
  | copy (c : CopyOp)
  | copym (c : CopyOp)
  | gather (c : CopyOp)
  | scatter (c : CopyOp)
  | remq (o : A2) (ack : Bool)
  | rqpop (o : A1) (nb : Bool)
  | xred (o : A3) (s2g : Bool) (ty : AType) (aop : AOp) (scope : Scope)
  | strm (pg : Guard) (a : Src) (cp : Cp) (dims : BitVec 2) (sx : Bool) (ew : IWidth) (q : BitVec 3)
  | strmx (pg : Guard) (q : BitVec 3)
  | tchk (pg : Guard) (pd : BitVec 3) (a : Src)
  -- matrix (R380 to R396)
  | tcfg (pg : Guard) (a : Src)
  | oclaim (o : P2) (nb : Bool)
  | orel (pg : Guard) (a b : Src)
  | mma (o : A3)
  | mmaz (o : A3)
  | mxt (pg : Guard) (d : Dst) (a c : Src)
  | mperm (o : A3)
  | mrred (pg : Guard) (d : Dst) (a c : Src)
  | accld (o : AccOp)
  | accst (o : AccOp)
  | accz (o : A1)
  | mtake (pg : Guard)
  | mpass (pg : Guard)
  | mdrop (pg : Guard)
  | mstat (pg : Guard) (d : Dst)
  -- tasks, broadcast, colours, dual numbers, system (R397 to R423)
  | spawn (pg : Guard) (nb : Option (BitVec 3)) (code args : Src)
  | spawnw (pg : Guard) (nb : Option (BitVec 3)) (k : BitVec 4) (args : Src)
  | spawnr (pg : Guard) (nb : Option (BitVec 3)) (k : BitVec 4) (lo hi chunk : Src)
  | tget (pg : Guard) (d : Dst)
  | launch (pg : Guard) (rec : Src)
  | bwupd (pg : Guard) (w : BitVec 4) (op : BwOp) (die : Bool) (a : Src)
  | bwrd (pg : Guard) (d : Dst) (w : BitVec 4) (n : BitVec 3)
  | cwait (o : P2)
  | cnotify (pg : Guard) (all : Bool) (a : Src)
  | cheld (o : A1)
  | dpfx (mask : BitVec 4)
  | tmov (o : A1) (js jd : BitVec 3) (w64 : Bool)
  | getsr (pg : Guard) (d : Dst) (n : BitVec 8)
  | setsr (pg : Guard) (n : BitVec 8) (a : Src)
  | eret (pg : Guard)
  | fwcall (o : A1) (svc : BitVec 8)
  | moncall (o : A2) (svc : BitVec 8)
  | icinv (pg : Guard) (range : Option (Src × Src))
  | tlbinv (pg : Guard) (form : TlbForm) (a : Src) (b : Option Src)
  | fcxl (pg : Guard) (a b : Src)
  | finj (pg : Guard) (a : Src)
  | halt (pg : Guard)
  | cctl (pg : Guard) (d : Option Dst) (a b : Src)
  | pairWord (h0 h1 : Half)
  -- steps of the memory units, walkers and engines
  | fill (id : Nat)
  | storeAcknowledge (id : Nat)
  | tableWalk (core pasid : Nat) (va : Word) (write : Bool)
  | engineOperationComplete (id : Nat)
  | engineHandleRecheck (id : Nat)
  | streamElementDelivery (id : Nat)
  | monitorGrant (pasid colour : Nat)
  | colourRequestRetry (t : Tid)
  | colourWaitTimeout (t : Tid)
  | cwaitTimeout (t : Tid)
  | watchdog (t : Tid)
  | sleepExpiry (t : Tid)
  | spawnOverflow (t : Tid)
  | binTimeout (core : Nat) (bin : Nat)
  | segmentSaveComplete (core seg : Nat)
  | segmentRestore (core seg wg : Nat)
  | budgetExhausted (pasid : Nat) (rcb : Word)
  | dependencyWatcherPrompt (die : Nat) (addr : Nat)
  | icacheFill (core : Nat) (va : Word)
  | sideLogReplay (core : Nat) (t : Tid)
  -- host service of faults and address translation
  | fsvcbRetry (link pasid : Nat)
  | fsvcbCancelPage (link pasid : Nat)
  | fsvcbCancelPasid (link pasid : Nat)
  | priResponse (link pasid : Nat) (page : Nat) (success : Bool)
  | atsCompletion (link id : Nat) (result : Option Nat)
  | atsCompletionTimeout (link id : Nat)
  -- host queues
  | doorbell (q : Nat) (value : Word) (offset : Nat)
  | qctlReset (w : QctlWrite)
  | qctlEnableSet (q : Nat)
  | qctlEnableClear (q : Nat)
  | nopPacket (q : Nat) (seq : W32)
  | launchPacket (q : Nat) (seq : W32)
  | dmaPacket (q : Nat) (seq : W32)
  | dmaComplete (q : Nat) (seq : W32)
  | waitvPacket (q : Nat) (seq : W32)
  | waitvPoll (q : Nat) (seq : W32)
  | waitvTimeout (q : Nat) (seq : W32)
  | signalPacket (q : Nat) (seq : W32)
  | regionPacket (q : Nat) (seq : W32)
  | regionCommit (q : Nat) (seq : W32)
  | fencePacket (q : Nat) (seq : W32)
  | timestampPacket (q : Nat) (seq : W32)
  | pstopGo (link : Nat) (pasid : Nat)
  -- firmware and monitor
  | fwcommit (w : FwWrite)
  | firmwareUpdateRequest (image : Nat)
  | monitorPatchRequest (image : Nat)
  | patchConfirmation (build : W32) (sigEd sigMl : Bool)
  | spdmRequest (link : Nat) (request : SpdmAsk)
  -- registers, power, links
  | vlctlRetrain (port : Nat) (value : Word)
  | vlctlDisable (port : Nat) (value : Word)
  | registerWrite (r : IoReg) (value : Word)
  | powerGood (steps : BringSteps) (stackFail : BitVec 16) (bridgeFail : List (Nat × Nat))
  | equaliseRound (port : Nat) (good : Bool)
  | slots (port : Nat) (counts : List Nat)
  | identity (port : Nat) (partner : Partner) (ed ml : List Byte)
  | requestFlit (port : Nat) (f : Flit)
  | responseFlit (port : Nat) (f : Flit)
  | enqueueFlit (port : Nat) (f : Flit)
  | managementFlit (port : Nat) (f : Flit)
  | idleFlit (port : Nat) (f : Flit)
  | replayRequest (port : Nat) (seq : BitVec 16)
  | warmReset (cause : Byte) (die : Nat) (lost : BitVec 16) (stuck : List Nat)
  | broadcastWordCopyUpdate (id core : Nat)
  | reservedOpcodeWord (w : Word) (legacy : Bool)
  | unknownKindFlit (port : Nat) (f : Flit)
  | atsInvalidationRequest (link pasid : Nat) (page : Nat)
  | pcieLinkUp
  -- steps without arguments: the unit that acts (a port, a core, a die, a link, an identifier) is State.unit
  | detect
  | detectRepeat
  | rateLock
  | rateTimeout
  | equaliseTimeout
  | deskew
  | deskewTimeout
  | slotsTimeout
  | identityTimeout
  | quarantineNoticeSend
  | quarantineNotice
  | remqPayloadLanding
  | replayLimit
  | linkLoss
  | pcieLinkDown
  | haltWake
  | spillRetry
  | dequeEntryStart
  | stealRequest
  | stealResponse
  | stealBackoffExpiry
  | gangPlacement
  | frozenGangResume
  | heatSweep
  | fetcherTurn
  | fwcallAnswer
  | moncallAnswer
  | gangRetire
  | dependencyRetest
  | reedHoldTimeout
  | budgetWindowBoundary
  | quiescentPoint
  | quiescentTimeout
  | trialWatchdog
  | clockStepDown
  | clockStepUp
  | warmResetWritebackDeadline
  | warmResetComplete
  | powerRemoved
  deriving DecidableEq, Repr

end Sys2Proof
end

