-- ==== Sys2Proof/Config.lean ====
section
/-! DEFINITION. Config: the figures of the VX940 (R1, R2, R10, R15, R16, R83) and the values that the manual leaves open.
Every `opaque` constant below has no body: nothing can be proved about its value (assumption log 2). -/

namespace Sys2Proof.Config

/-! ## Figures of this part -/

/-- Lanes of a warp (R154). -/
def width : Nat := 64
def dies : Nat := 16
def clustersPerDie : Nat := 25
def coresPerCluster : Nat := 4
def coresPerDie : Nat := 100
/-- Global cores (R10). -/
def cores : Nat := 1600
/-- Warp slots of a core (R154, R83). -/
def warpSlots : Nat := 64
/-- Segments of a core store open to workgroups, and their size (R83). -/
def segments : Nat := 24
def segmentBytes : Nat := 131072
/-- Limit of the footprint of a workgroup (R75). -/
def footprintMax : Nat := 3 * 1024 * 1024
/-- Outstanding engine operations of a core (R361). -/
def engineOps : Nat := 64
/-- Bindings of a workgroup (R346). -/
def smapBinds : Nat := 8
/-- Stream contexts of a core (R376). -/
def streamCtx : Nat := 8
/-- Live-range registers of a core (R99). -/
def liveRanges : Nat := 8
def dequeEntries : Nat := 256
def landingEntries : Nat := 256
def sideLogEntries : Nat := 256
/-- Launches started and not completed (R404). -/
def launchMax : Nat := 4096
/-- Race-checked words per region and core (R214). -/
def raceWords : Nat := 4096
def waiterEntries : Nat := 4096
/-- Entries of a cluster's colour lookaside buffer (R184). -/
def clbEntries : Nat := 512
def monitorRecords : Nat := 8192
/-- Pending faults of a die (R118). -/
def pendingFaults : Nat := 256
def binnerBins : Nat := 8
def binCycles : Nat := 2048
/-- Registrations of a die's watcher (R81). -/
def watcherRegs : Nat := 64
def compareEntries : Nat := 64
def loadValues : Nat := 1024
/-- MODCAP and MODCAP2 (R15, R16). -/
def modcap : Word := 0x0320406033444230
def modcap2 : Word := 0x40408888_88CCCD90
/-- Bytes of a home stack, and of the carve-out at its top (R12, R36). -/
def stackBytes : Nat := 64 * 2 ^ 30
def carveOut : Nat := 8 * 2 ^ 20
def queues : Nat := 1024
/-- Enqueue slots of a port die (R26). -/
def enqueueSlots : Nat := 8192
/-- The reset value of the completion timeout of Device Control 2, in ns (R63). -/
def atsTimeoutNs : Nat := 50000000
/-- The most lines of 64 bytes that an L1 region can hold: all of the segments that no workgroup takes (R83). -/
def l1Lines : Nat := 8 * 131072 / 64
/-- Lines of 64 bytes of a die cache and of a cluster's instruction cache (R11). -/
def dieLines : Nat := 96 * 2 ^ 20 / 64
def icacheLines : Nat := 256 * 1024 / 64
/-- IDE streams of a link (R19). -/
def ideStreams : Nat := 4
/-- Flits that a sender keeps for replay (R25). -/
def replayFlits : Nat := 512
/-- Outstanding page requests of a link (R19). -/
def priMax : Nat := 512
def slotMaxBytes : Nat := 131072
/-- The operand store of a core (R11). -/
def operandStore : Nat := 524288
def accTiles : Nat := 8

/-! ## Free values -/

/-- A free value of 64 bits, one for each value of the counter State.freeCtr. -/
opaque freeWord : Nat → Word
/-- The hash of R145 over an earlier hash and a result. -/
opaque hash : Word → Word → Word
/-- AES-XTS-256 of a 512-bit block under the key of a key id, with the block's number as the tweak, its inverse, and the MAC over a ciphertext (R136). The manual gives no value of them. -/
opaque encryptRaw : Nat → Nat → Nat → Nat
opaque decryptRaw : Nat → Nat → Nat → Nat
opaque macRaw : Nat → Nat → Nat → Nat
def encrypt (key blk data : Nat) : Nat := encryptRaw key blk data % 2 ^ 512
def decrypt (key blk ct : Nat) : Nat := decryptRaw key blk ct % 2 ^ 512
def mac (key blk ct : Nat) : Nat := macRaw key blk ct % 2 ^ 32
/-- The key under which PL2 reaches an encrypted page: it reads the ciphertext, with no MAC check (R40). -/
def noKey : Nat := 64
/-- Whether the signatures of an image verify (R38). -/
opaque sigEd : Nat → Bool
opaque sigMl : Nat → Bool
/-- The build identifier, security version, size and hand-off block version of an image (R38, R41, R43). -/
opaque imageBuild : Nat → W32
opaque imageSvn : Nat → BitVec 16
opaque imageSize : Nat → Nat
opaque imageHandoff : Nat → BitVec 16
/-- Whether an image reads a version of the hand-off block (R43). -/
opaque imageReads : Nat → BitVec 16 → Bool
/-- The fused security versions of firmware images and monitor patches (R38). -/
opaque fusedSvn : BitVec 16
opaque fusedPatchSvn : BitVec 16
/-- The size of the monitor's ROM code, which counts toward its 256 KiB (R35), and what a report measures of the ROM and of an image (R37). -/
opaque romSize : Nat
opaque romMeasure : List Byte
opaque imageMeasure : Nat → List Byte
/-- The device identity keys, derived from fused secrets at each boot (R37), the device's certificate chain, and signatures under a key: algorithm false Ed25519, true ML-DSA-65. -/
opaque identityKey : Bool → Word
opaque deviceChain : List Byte
opaque sign : Bool → Word → List Byte → List Byte
/-- Whether a certificate chain verifies to a trusted root, and whether a signature over a message verifies under the key that the chain certifies (R30). -/
opaque chainTrusted : List Byte → Bool
opaque verify : Bool → List Byte → List Byte → List Byte → Bool
/-- Bytes [247:8] of a flit that carries a body, and the CRC-64 over bytes [247:0] (R22): the manual gives neither a payload layout nor the polynomial. -/
opaque payloadBytes : FlitBody → List Byte
opaque crc64 : List Byte → Word
/-- The receive-buffer slots of this part's ports, by channel (R24): from 1 to 1,024. -/
opaque rxSlotsRaw : Nat → Nat
def rxSlots (vc : Nat) : Nat := 1 + rxSlotsRaw vc % 1024
/-- The range of a reserved core's core store that the monitor's range registers guard (R36): base and length. -/
opaque guardBase : Nat
opaque guardBytes : Nat

end Sys2Proof.Config
end

