-- ==== Sys2Proof/Machine/State.lean ====
section
/-! DEFINITION. State: everything the manual gives the machine, as plain data, and its value after reset.
Lists keyed by a number are sparse: what they do not list has the default that its reader names. Fault and Refusal stand here too. -/

namespace Sys2Proof.Machine

/-! ## Registers and threads (R153 to R163, R247) -/

/-- The four states of a v or o register lane (R165). -/
inductive RegState where
  | full | pending | dead | poison
  deriving DecidableEq, Repr

/-- One lane of a v or o register: state, value, shadow components 1, 2, ... (R175); a component not listed is +0. -/
structure Reg where
  st : RegState
  val : W32
  sh : List W32
  deriving DecidableEq, Repr

/-- A queue entry (R162): its value, whether it is POISON (R377), and the clock key of the read that its pop joins (R215, R376). -/
structure QEntry where
  val : Word
  poison : Bool
  join : Option Nat
  deriving DecidableEq, Repr

/-- The trap state registers (R247) and what ERET restores (R246). -/
structure TrapState where
  inh : Bool
  legacy : Bool
  integ : Bool
  shadow : Bool
  cause : Byte
  addr : Word
  mask : Word
  pc : Word
  entryPc : Word
  /-- header of the clause in which the word stood that trapped (R246) -/
  entryHdr : Option Word
  aux : Word
  peer : Word
  depth : Nat
  pl : Nat
  deriving DecidableEq, Repr

def TrapState.clear : TrapState := ⟨false, false, false, false, 0, 0, 0, 0, 0, none, 0, 0, 0, 0⟩

/-- What a thread that does not issue waits for. -/
inductive WaitFor where
  /-- a PENDING register, an empty queue, a token (R166, R162, R363) -/
  | reg
  /-- a wait condition of the clause (R261) -/
  | clause
  /-- a pending fault on a page (R119) -/
  | fault (page : Nat) (write : Bool)
  /-- an ATS translation of host memory (R20): link, bus page, and the address accessed -/
  | ats (link : Nat) (page : Nat) (va : Nat) (write : Bool)
  /-- the acquire FIFO of a colour (R193), for an access at `va` -/
  | colour (c : BitVec 16) (va : Word)
  /-- the retries of R188 -/
  | colourRetry (c : BitVec 16) (va : Word)
  /-- the condition list of a colour (R195) -/
  | cond (c : BitVec 16)
  /-- the barrier instance it has arrived at (R356) -/
  | barrier
  /-- SLEEP (R305): the cycle at which it ends -/
  | sleep (until_ : Nat)
  /-- HALT (R422) -/
  | halt
  /-- held until these lanes have left their handlers (R325) -/
  | xlane (on : List Tid)
  /-- the answer to FWCALL or MONCALL (R416, R417) -/
  | service (id : Nat)
  /-- a push that R97 refuses -/
  | push
  /-- a release that is not complete (R206, R190) -/
  | release
  /-- a full engine, table, log or queue, a segment, a claim or the reed -/
  | resource
  deriving DecidableEq, Repr

inductive Run where
  | ready
  | waiting (w : WaitFor)
  | ended
  | killed
  deriving DecidableEq, Repr

/-- One access remembered for race checking (R213): who, at which code address, in which sync-free region. -/
structure Access where
  tid : Tid
  pc : Word
  engine : Bool
  clock : Nat
  deriving DecidableEq, Repr

structure Thread where
  tid : Tid
  wg : Nat
  pc : Word
  /-- the header of the clause in which pc stands, when it stands inside one (R246, R258) -/
  hdr : Option Word
  /-- the clause was fetched from a LEG page (R276) -/
  legacy : Bool
  depth : Nat
  run : Run
  /-- the unfrozen cycle since which it waits at its word -/
  since : Option Nat
  /-- the cycle since which it has been able to issue (R103 rule 2) -/
  able : Nat
  pl : Nat
  fdepth : Nat
  v : List (Nat × Reg)
  o : List (Nat × Reg)
  lr : Word
  lrPoison : Bool
  lrSh : List Word
  p : BitVec 7
  q : List (Nat × List QEntry)
  /-- link stack, newest first: frame number and return address (R300) -/
  links : List (Nat × Word)
  /-- held-colour stack, newest first: colour and depth (R189) -/
  held : List (BitVec 16 × Nat)
  numerr : Bool
  fstat : BitVec 6
  rng : W32
  tanrng : W32
  trap : TrapState
  armed : Option Word
  injected : Bool
  hash : Word
  /-- CWAIT: the predicate's value once the thread is granted again (R195) -/
  notified : Option Bool
  /-- a grant, a barrier departure, a pushed record or a pop that the word takes when it issues again -/
  passed : Bool
  /-- matrix status 7 that the thread has not consumed (R390) -/
  mpoison : Bool
  /-- it traps with REED_HOLD_TIMEOUT at the next word it issues (R395) -/
  reedDue : Bool
  /-- ERET has put it inside a clause, whose wait conditions are tested again (R246, R261) -/
  resumed : Bool
  /-- the colour request that R188 makes it retry: the colour, the unfrozen cycle of the request, and the cycle of the last try -/
  retrying : Option (BitVec 16 × Nat × Nat)
  /-- atomics reached in this interval: the place in the replay log (R146) -/
  atoms : Nat
  /-- completed engine operations not yet joined (R215): the token's register (n for a v, 256 + n for an o register, 512 for none), and what the join brings -/
  tokens : List (Nat × List (Nat × Nat))
  /-- vector clock of happens-before (R208): thread key and count, ascending -/
  vc : List (Nat × Nat)
  deriving DecidableEq, Repr

structure Warp where
  core : Nat
  slot : Nat
  wg : Nat
  index : Nat
  g : List (Nat × W32)
  gsh : List (Nat × List W32)
  /-- origin masks; a register not listed has all ones (R170) -/
  origin : List (Nat × Word)
  uchk : Bool
  slip : Word
  linkbase : W32
  /-- formed from a range task (R403) -/
  ranged : Bool
  deriving DecidableEq, Repr

/-- The releases that an atomic location carries: address, scope, releasing thread, vector clock. -/
structure SyncLoc where
  addr : Nat
  scope : Scope
  tid : Tid
  vc : List (Nat × Nat)
  deriving DecidableEq, Repr

/-! ## Issue (R102, R258) -/

/-- An issue group: the threads that issue a clause together, and where it stands in the clause. -/
structure Group where
  core : Nat
  tids : List Tid
  depth : Nat
  hdr : Word
  cls : Nat
  yield : Bool
  legacy : Bool
  /-- the words of the clause not yet issued, the one at pc first -/
  words : List Word
  pc : Word
  /-- the address after the word at pc and the literal or follow-on it takes -/
  next : Word
  lit : Option Word
  follow : Option Instr
  /-- mask of a DPFX that governs the word at pc (R410), and that DPFX's address -/
  dual : Option (BitVec 4)
  dualPc : Word
  deriving DecidableEq, Repr

def Group.empty : Group := ⟨0, [], 0, 0, 0, false, false, [], 0, 0, none, none, none, 0⟩

/-! ## Workgroups, gangs, launches, regions, contexts (05) -/

/-- Fields of a region control block that inherit can pass down (R67, R69). -/
structure Rcb where
  parent : Word
  inherit_ : W32
  quota : W32
  maxCores : Nat
  maxOp : Nat
  ringBase : Word
  ringBytes : Nat
  cls : Nat
  weight : Nat
  sev : Byte
  rollback : Bool
  killScope : Nat
  idem : Bool
  race : Bool
  redund : Nat
  inject : Bool
  tanK : Nat
  wd : Nat
  trapVec : Word
  saveBase : Word
  saveBytes : Word
  tanOff : List Word
  colourTable : Word
  bufTable : Word
  bufSlots : Nat
  deriving DecidableEq, Repr

structure Region where
  pasid : Nat
  addr : Word
  rcb : Rcb
  live : Bool
  /-- budgets, class and weight of a commit that wait for the next window (R73) -/
  pending : Option Rcb
  /-- core-time charged in the current window, in core-ns (R71) -/
  charged : Nat
  exhausted : Bool
  deriving DecidableEq, Repr

structure Context where
  pasid : Nat
  root : Option Nat
  /-- home link (R61) -/
  link : Nat
  key : Nat
  confidential : Bool
  /-- teardown generation (R63) -/
  gen : Byte
  /-- links on which a teardown of it is in progress (R62, R63) -/
  teardown : List Nat
  deriving DecidableEq, Repr

structure TaskKind where
  entry : Word
  vregs : Nat
  shadows : Nat
  scratch : Nat
  undo : Nat
  valid : Bool
  deriving DecidableEq, Repr

/-- A launch record (R74). -/
structure LaunchRec where
  entry : Word
  region : Word
  gx : Nat
  gy : Nat
  gz : Nat
  wgs : Nat
  warps : Nat
  vregs : Nat
  shadows : Nat
  pooled : Bool
  uchk : Bool
  scratch : Nat
  opUnits : Nat
  accs : Nat
  undo : Nat
  args : Word
  cmap : Word
  cfirst : Word
  cscope : Nat
  tasks : Word
  dep0 : Option (Word × Nat × Nat)
  dep1 : Option (Word × Nat × Nat)
  deriving DecidableEq, Repr

structure Launch where
  id : Nat
  pasid : Nat
  rcd : LaunchRec
  kinds : List TaskKind
  /-- the LAUNCH packet it came from -/
  packet : Option (Nat × W32)
  /-- gangs below `low` have been taken, and those of `taken` -/
  low : Nat
  taken : List Nat
  retired : Nat
  /-- discarded: no further gang is placed (R79) -/
  cut : Bool
  done : Bool
  skipDone : Bool
  /-- teardown generation of its context as it started (R64) -/
  gen : Byte
  /-- gangs whose dependency bits have been tested as set (R80, R81), with the releases that the tests met -/
  ready : List (Nat × List SyncLoc)
  /-- every bitmap is registered with a watcher (R81) -/
  reg : Bool
  /-- bitmap words whose refusal has been recorded (R81) -/
  barred : List Word
  /-- the clock of a LAUNCH instruction's release (R404) -/
  vc : List (Nat × Nat)
  deriving DecidableEq, Repr

/-- `waiting` is a discarded gang back in the ready list (R89), `retiring` one whose completion OR is outstanding (R79). -/
inductive GangState where
  | placed | waiting | retiring | retired
  deriving DecidableEq, Repr

structure Gang where
  id : Nat
  launch : Nat
  index : Nat
  die : Nat
  cluster : Nat
  state : GangState
  wgs : List Nat
  killed : Bool
  placedAt : Nat
  /-- the completion OR waits for a pending fault (R79) -/
  orFault : Bool
  /-- the store that carries the completion OR to a peer, until it is acknowledged -/
  orSent : Option Nat
  /-- what its completion releases: the clocks of its threads and engine operations at retirement -/
  vc : List (Nat × Nat)
  deriving DecidableEq, Repr

inductive Role where
  | single | chanter | drone
  deriving DecidableEq, Repr

/-- `held` is frozen in place by its budget (R72), `frozen` pre-empted (R85). -/
inductive WgState where
  | resident | held | frozen | ended | killed
  deriving DecidableEq, Repr

inductive BarKind where
  | bar | barp | gbar | ckpt
  deriving DecidableEq, Repr

/-- An arrival and the value it offers. -/
structure Arrival where
  tid : Tid
  val : Word
  deriving DecidableEq, Repr

/-- A barrier instance (R356): what its first arrival fixes, how its word retires (next address, header, destination with its words, marks and pops), and who has arrived. -/
structure BarInst where
  kind : BarKind
  pc : Word
  op : RedOp
  rnd : Rnd
  u : Bool
  w64 : Bool
  next : Word
  hdr : Option Word
  dst : Dst
  words : Nat
  marks : List (Bool × Nat)
  pops : List Nat
  arrived : List Arrival
  deriving DecidableEq, Repr

structure Binding where
  base : Nat
  gaddr : Word
  len : Nat
  deriving DecidableEq, Repr

/-- State of one 256-byte chunk: filled, and the bytes written since (R346). -/
structure Chunk where
  index : Nat
  filled : Bool
  dirty : List Nat
  /-- filled in the current interval (R349) -/
  fresh : Bool
  deriving DecidableEq, Repr

/-- A tile configuration (R380), with the slot size of R381. -/
structure Tcsb where
  m : Nat
  n : Nat
  k : Nat
  afmt : Nat
  bfmt : Nat
  int32 : Bool
  blockScale : Bool
  sat : Bool
  defrec : Word
  slotSize : Nat
  deriving DecidableEq, Repr

structure Reed where
  holder : Option Nat
  last : Nat
  waiting : List Nat
  since : Nat
  deriving DecidableEq, Repr

/-- Matrix state of a workgroup (R380 to R392). Slot bytes are keyed by component * 2^32 + slot * 2^20 + offset, tile words by component * 2^32 + tile * 2^16 + row * N + column. -/
structure Matrix where
  cfg : Option Tcsb
  slots : Nat
  tiles : Nat
  slotMem : List Host.Cell
  slotPoison : List Nat
  acc : List (Nat × W32)
  reed : Reed
  deriving DecidableEq, Repr

/-- A stream context (R376): where it reads, for whom, and how far it has come. -/
structure Stream where
  id : Nat
  core : Nat
  wg : Nat
  tid : Tid
  q : Nat
  lanes : List Tid
  /-- lanes of the stream in ascending order, bound or not: the delivery order -/
  all : List Tid
  base : Word
  laneStride : Word
  counts : List Nat
  strides : List Word
  ew : IWidth
  sx : Bool
  cp : Cp
  held : List (BitVec 16)
  pl : Nat
  pos : Nat
  stop : Option (Word × Nat)
  faulted : Option Nat
  deriving DecidableEq, Repr

/-- What a rollback restores (R138 to R142). -/
structure Epoch where
  threads : List Thread
  warps : List Warp
  pad : List Host.Cell
  padPoison : List Nat
  smap : List Binding
  chunks : List Chunk
  streams : List Stream
  undo : List Nat
  pinned : Bool
  overflow : Bool
  retries : Nat
  /-- epochs started before this one: what an operation or a load was issued in -/
  number : Nat
  /-- the undo log has an uncorrectable error (R142) -/
  bad : Bool
  deriving DecidableEq, Repr

/-- A segment of the core store that a workgroup uses (R83, R85): `victim` is the workgroup whose contents still stand in it. -/
structure Seg where
  index : Nat
  victim : Option Nat
  /-- claimed by a newcomer while this workgroup was frozen: it is in the save area -/
  saved : Bool
  /-- its contents are needed: they are being written to the save area, or read back from it -/
  saving : Bool
  /-- pages of it that the save or the reading back has done -/
  moved : Nat
  deriving DecidableEq, Repr

structure Workgroup where
  id : Nat
  gang : Nat
  launch : Nat
  pasid : Nat
  region : Word
  index : Nat
  core : Nat
  role : Role
  mate : Nat
  state : WgState
  /-- the task kind of a workgroup formed from the deque; `binned` for a binned warp -/
  task : Option Nat
  fromDeque : Bool
  nwarps : Nat
  vregs : Nat
  shadows : Nat
  scratch : Nat
  undoMax : Nat
  opUnits : Nat
  accs : Nat
  pooled : Bool
  /-- region values as placed (R73) -/
  rcb : Rcb
  segs : List Seg
  pad : List Host.Cell
  /-- 64-byte blocks of the scratchpad that hold POISON data (R133, R134) -/
  padPoison : List Nat
  smap : List Binding
  chunks : List Chunk
  bar : Option BarInst
  epoch : Epoch
  mx : Matrix
  /-- teardown generation of its launch (R64) -/
  gen : Byte
  placedAt : Nat
  frozenAt : Nat
  /-- cycles it has been frozen in all: time that no watchdog counts -/
  frozenFor : Nat
  rollbackDue : Bool
  deriving DecidableEq, Repr

/-! ## Device-made work (R90 to R99) -/

structure Rec where
  code : Word
  args : List W32
  depth : Nat
  launch : Nat
  gang : Nat
  vc : List (Nat × Nat)
  deriving DecidableEq, Repr

/-- A bin holds the records of one code address and one gang (R90, R92; assumption log 81). -/
structure Bin where
  code : Word
  gang : Nat
  recs : List Rec
  opened : Nat
  /-- its warp is formed and waits for a push (R97) -/
  held : Bool
  deriving DecidableEq, Repr

/-- A deque or ring entry (R94, R96): kind 0 binned, 1 task, 2 range. -/
structure DEntry where
  seq : Nat
  code : Word
  kind : Nat
  taskKind : Nat
  recs : List Rec
  lo : Word
  hi : Word
  chunk : W32
  launch : Nat
  gang : Nat
  deriving DecidableEq, Repr

/-- A ring that this core spills to: its region, the place that the region gave it as its work was placed (R73), its head and tail, the entries in it, oldest first. -/
structure Ring where
  pasid : Nat
  region : Word
  base : Word
  bytes : Nat
  head : Nat
  tail : Nat
  /-- slot and entry -/
  items : List (Nat × DEntry)
  /-- pages reported unmapped, and when the spill to each is retried (R97) -/
  blocked : List (Nat × Nat)
  deriving DecidableEq, Repr

structure LiveRange where
  slot : Nat
  entry : DEntry
  next : Word
  order : Nat
  deriving DecidableEq, Repr

inductive StealState where
  | idle
  | asking (round : Nat)
  | waiting (victim round : Nat)
  | backoff (until_ : Nat)
  deriving DecidableEq, Repr

structure Landing where
  pasid : Nat
  source : W32
  data : List Byte
  vc : List (Nat × Nat)
  /-- the bytes are POISON data (R134) -/
  poison : Bool
  deriving DecidableEq, Repr

/-- An entry of a core's PC table (R102): context, code address, frame depth, and the clause inside which the address stands. -/
structure PcEntry where
  pasid : Nat
  pc : Word
  depth : Nat
  hdr : Option Word
  deriving DecidableEq, Repr

structure Core where
  bins : List Bin
  deque : List DEntry
  rings : List Ring
  seqNo : Nat
  ranges : List LiveRange
  steal : StealState
  landing : List Landing
  /-- payloads of other modules that wait for room (R26): the port they came by -/
  landingWait : List (Nat × Landing)
  /-- the group that yields for one cycle: code address, depth, cycle (R259) -/
  skip : List (Word × Nat × Nat)
  /-- the PC table (R102) -/
  pcs : List PcEntry
  /-- the core's cycle has had its word for the vector pipes, and its second word is to come: the threads of the first (R103) -/
  turn : Option (List Tid)
  deriving DecidableEq, Repr

def Core.idle : Core := ⟨[], [], [], 0, [], .idle, [], [], [], [], none⟩

/-! ## Memory (R12, R125 to R137, R111, R203) -/

/-- What a 64-byte block carries beside its bytes: the layout, descriptor and key it was last written under, the poison pattern, and the bits in error of its data and metadata. -/
structure Block where
  layout : Nat
  desc : BitVec 16
  key : Nat
  poison : Bool
  flipD : Nat
  flipM : Nat
  /-- the MAC does not match (R137) -/
  badMac : Bool
  deriving DecidableEq, Repr

def Block.plain : Block := ⟨0, 0, 0, false, 0, 0, false⟩

/-- A leaf page-table entry (R108) as the walk found it. -/
structure Leaf where
  level : Nat
  pa : Nat
  stripe : Nat
  colour : BitVec 16
  key : Nat
  cp : Nat
  leg : Bool
  tp : Bool
  nr : Bool
  rc : Bool
  layout : Nat
  pl1 : Bool
  x : Bool
  w : Bool
  r : Bool
  deriving DecidableEq, Repr

/-- A cached translation: level 0 core, 1 cluster, 2 die; `unit_` numbers that core, cluster or die. -/
structure TlbEntry where
  level : Nat
  unit_ : Nat
  pasid : Nat
  page : Nat
  leaf : Leaf
  pte : Nat
  written : Bool
  deriving DecidableEq, Repr

structure L1Line where
  core : Nat
  block : Nat
  data : List Byte
  /-- filled under .st: it is evicted first (R203) -/
  first : Bool
  deriving DecidableEq, Repr

/-- An instruction-cache line of a cluster (R105, R276): 64 bytes at a physical block. -/
structure ILine where
  cluster : Nat
  block : Nat
  leg : Bool
  data : List Byte
  deriving DecidableEq, Repr

/-- A colour-table entry (R184), as a lookaside buffer holds it. -/
structure ColourEntry where
  valid : Bool
  pi : Bool
  dd : Bool
  zeros : Bool
  scope : Nat
  home : Nat
  hashed : Bool
  spin : Nat
  deriving DecidableEq, Repr

structure ClbEntry where
  cluster : Nat
  pasid : Nat
  colour : BitVec 16
  entry : ColourEntry
  deriving DecidableEq, Repr

/-- Where a value goes: a v or o register, or nowhere. -/
inductive Dest where
  | v (n : Nat)
  | o (n : Nat)
  | none
  deriving DecidableEq, Repr

/-- One 32-bit word that a late producer will write: value, poison, shadows. -/
structure FillWord where
  val : W32
  poison : Bool
  sh : List W32
  deriving DecidableEq, Repr

inductive OutKind where
  | global | scratch | cluster | atoms | unit_ | peer | pop
  deriving DecidableEq, Repr

/-- A synchronising access of a peer, whose ordering follows from its answer: its location, order and scope, whether it writes, and of a compare and swap the value compared with. -/
structure PeerSync where
  loc : Nat
  ord : Ord
  scope : Scope
  writes : Bool
  cmp : Option Nat
  deriving DecidableEq, Repr

/-- A late value on its way (R167). `link` names the port of a peer access. -/
structure OutLoad where
  id : Nat
  tid : Tid
  kind : OutKind
  dest : Dest
  words : List FillWord
  numerr : Bool
  /-- discarded by a rollback (R142) -/
  dead : Bool
  port : Option Nat
  /-- the result waits for a payload to arrive (RQPOP, R373): scratch address and context -/
  pop : Option (Nat × Nat)
  /-- the address accessed, for a fault record -/
  addr : Word
  /-- a peer's answer narrower than 32 bits is sign-extended (R337) -/
  sx : Bool
  /-- the interval in which it was issued (R142) -/
  interval : Nat
  /-- of a load that asks a peer for a whole line: the line, the load's place in it, and whether the line is to be evicted first (R14, R203) -/
  line : Option (Nat × Nat × Bool)
  /-- the answer is one tangent of an atomic (R240): the load that delivers it, and the component -/
  tan : Option (Nat × Nat)
  /-- its thread goes no further until it is answered (R207) -/
  sync : Option PeerSync
  deriving DecidableEq, Repr

/-- Who reads the memory of a peer other than by a load of a thread (R32); an element of a stream counts as an operation. -/
inductive PeerUser where
  | engine (id : Nat)
  | packet (q : Nat) (seq : W32)
  /-- a structure access (R432), by the core that makes it -/
  | table (core : Nat)
  /-- a clause, by the thread that fetches it for its entry (R105) -/
  | code (t : Tid)
  /-- a tangent of a thread's dual access, or the primal beside it (R239, R240) -/
  | lane (t : Tid)
  deriving DecidableEq, Repr

/-- A store on its way to its point of coherence (R203, R206). -/
structure OutStore where
  id : Nat
  core : Nat
  tid : Tid
  pasid : Nat
  cells : List Host.Cell
  poison : Bool
  layout : Nat
  key : Nat
  port : Option Nat
  addr : Word
  /-- the engine operation or packet that it belongs to -/
  who : Option PeerUser
  /-- it is an atomic without a result (R32) -/
  red : Bool
  deriving DecidableEq, Repr

/-- What a side-log entry replays (R120). -/
inductive LogOp where
  /-- `tan`: the tangents, by component, of a dual access whose page was not mapped when it entered -/
  | store (bytes : List Byte) (poison : Bool) (tan : List (Nat × List Byte))
  | red (ty : AType) (aop : AOp) (b : Word) (tan : List (Nat × Word))
  | desc (d : BitVec 16) (poison : Bool)
  deriving DecidableEq, Repr

structure LogEntry where
  id : Nat
  core : Nat
  tid : Tid
  wg : Nat
  pasid : Nat
  region : Word
  addr : Word
  op : LogOp
  scope : Scope
  ord : Ord
  pl : Nat
  deriving DecidableEq, Repr

/-- A pending fault: die, context, page, kind (R118). -/
structure PendFault where
  die : Nat
  pasid : Nat
  page : Nat
  write : Bool
  /-- the faulting address -/
  addr : Nat
  /-- the host page whose page request it waits for: link and bus page -/
  host : Option (Nat × Nat)
  deriving DecidableEq, Repr

/-! ## Monitors (R188) -/

structure Waiter where
  tid : Tid
  core : Nat
  since : Nat
  /-- of a CWAIT: the depth at which the colour was held -/
  depth : Option Nat
  /-- end of the timeout of a CWAIT -/
  timeout : Option Nat
  deriving DecidableEq, Repr

structure Monitor where
  die : Nat
  pasid : Nat
  colour : BitVec 16
  holder : Option Tid
  count : W32
  /-- scope and priority inheritance of the colour's entry, as the last request read it (R190, R194) -/
  scope : Scope
  pi : Bool
  fifo : List Waiter
  cond : List Waiter
  /-- threads that have reserved an entry for a CWAIT (R188) -/
  reserved : List Tid
  deriving DecidableEq, Repr

/-! ## Engines (19) -/

/-- One side of a copy. -/
inductive Side where
  | global (addr : Word) (handle : Option (W32 × Nat))
  | scratch (addr : Nat)
  | slot (n off : Nat)
  deriving DecidableEq, Repr

/-- The rows of a copy: count, row length, and the stride of each side (R368, R369). -/
structure Rows where
  n : Nat
  len : Nat
  dstStride : Int
  srcStride : Int
  deriving DecidableEq, Repr

inductive MatOp where
  | mma (z : Bool) (a b c : Nat)
  | mxt (a c : Nat)
  | mperm (a b c : Nat)
  | mrred (a c : Nat)
  | accld (a : Word) (scr : Bool) (tile : Nat) (rec_ : Word) (raw : Bool) (scope : Scope)
  | accst (a : Word) (scr : Bool) (tile : Nat) (rec_ : Word) (raw : Bool) (scope : Scope)
  | accz (tile : Nat)
  deriving DecidableEq, Repr

inductive EngineKind where
  | copy (dst src : Side) (rows : Rows) (scope : Scope) (follow : Option MatOp)
  | xred (dst : Word) (src : Side) (len : Nat) (ty : AType) (aop : AOp) (scope : Scope)
  | remq (module_ core : Nat) (data : List Byte) (source : W32) (poison : Bool)
  | matrix (op : MatOp)
  deriving DecidableEq, Repr

inductive EngineState where
  | running
  | faulted (page : Nat) (write : Bool)
  /-- waits for an ATS translation: link, bus page, and the address accessed -/
  | ats (link page va : Nat) (write : Bool)
  deriving DecidableEq, Repr

structure EngineOp where
  id : Nat
  core : Nat
  wg : Nat
  tid : Tid
  /-- the lanes that take the token, and its register -/
  tids : List Tid
  /-- code address of its word (R213) -/
  pc : Word
  dest : Dest
  kind : EngineKind
  state : EngineState
  held : List (BitVec 16)
  moved : Nat
  /-- the blocks in error that it has read (R134) -/
  affected : List Nat
  /-- the status with which it must end (R364) -/
  stop : Option Nat
  pl : Nat
  dead : Bool
  /-- the interval in which it was issued (R142) -/
  interval : Nat
  vc : List (Nat × Nat)
  deriving DecidableEq, Repr

/-! ## Redundancy (R144 to R149) -/

/-- An effect that waits in the compare buffer. -/
inductive Held where
  | store (pa : Nat) (bytes : List Byte) (layout key : Nat) (poison now : Bool) (va : Word) (sc : Scope) (ord : Ord)
  | log (va : Word) (op : LogOp) (sc : Scope) (ord : Ord)
  | engine (op : EngineOp)
  | stream (x : Stream)
  | bwupd (w : Nat) (op : BwOp) (die : Bool) (val : Word)
  | remq (op : EngineOp)
  | push (e : DEntry)
  | spawn (r : Rec)
  | launch (l : LaunchRec) (kinds : List TaskKind)
  | barp (val : Word)
  deriving DecidableEq, Repr

structure CompareEntry where
  id : Nat
  wg : Nat
  tid : Tid
  sigAddr : Word
  sigWidth : Nat
  sigData : Nat
  sigHash : Word
  colours : List (BitVec 16)
  effect : Held
  deriving DecidableEq, Repr

/-- A value on its way from chanter to drone (R146): none until its place is filled. -/
structure LoadValue where
  wg : Nat
  warp : Nat
  lane : Nat
  seq : Nat
  words : Option (List FillWord)
  numerr : Bool
  atomic : Bool
  /-- the outstanding load whose answer fills the place -/
  load : Nat
  /-- an atomic's result that the drone has taken: it stands in the replay log alone -/
  taken : Bool
  deriving DecidableEq, Repr

/-! ## Race records (R213, R214) -/

structure RaceRecord where
  core : Nat
  pasid : Nat
  region : Word
  word : Nat
  write : Option Access
  reads : List Access
  deriving DecidableEq, Repr

/-! ## Broadcast words (R100) -/

structure BWord where
  core : Nat
  w : Nat
  val : Word
  pasid : Nat
  deriving DecidableEq, Repr

/-- An update in flight to the copies that have not yet taken it. -/
structure BUpdate where
  id : Nat
  w : Nat
  op : BwOp
  val : Word
  pasid : Nat
  /-- the cycle by which every copy has it -/
  due : Nat
  cores : List Nat
  deriving DecidableEq, Repr

/-! ## Host side (04) -/

inductive PktState where
  | taken | running
  deriving DecidableEq, Repr

/-- A packet the fetcher has taken. -/
structure Packet where
  seq : W32
  bytes : List Byte
  state : PktState
  started : Nat
  /-- of a WAITV: the cycle of its last read; of a REGION: handed to firmware -/
  mark : Nat
  /-- fails at completion: a packet error was found -/
  launch : Option Nat
  moved : Nat
  /-- its effect is made: it completes once every write of it is acknowledged -/
  sent : Bool
  deriving DecidableEq, Repr

inductive QState where
  | disabled | running | error | stopping
  deriving DecidableEq, Repr

structure Queue where
  base : Word
  cfg : Word
  head : W32
  tail : W32
  badDb : BitVec 16
  err : Byte
  /-- QCTL.enable as last written (R5, R49) -/
  enable : Bool
  state : QState
  epoch : BitVec 16
  /-- the last firmware-bound packet that has completed (R47) -/
  lastFw : Option W32
  /-- what the queue's acquires and completed launches bring, and its releases publish (R56, R58, R208) -/
  vc : List (Nat × Nat)
  packets : List Packet
  deriving DecidableEq, Repr

def Queue.off : Queue := ⟨0, 0, 0, 0, 0, 0, false, .disabled, 0, none, [], []⟩

/-- Registers of a fault or event queue (R59). -/
structure HostRing where
  base : Word
  enable : Bool
  log2 : Nat
  head : W32
  lost : W32
  tail : W32
  deriving DecidableEq, Repr

/-- A record that a ring takes once its address is translated. -/
structure HostRecord where
  link : Nat
  event : Bool
  bytes : List Byte
  deriving DecidableEq, Repr

/-- An ATS translation or request: pasid 2^20 stands for the function's own space (R20). -/
structure AtsEntry where
  pasid : Nat
  page : Nat
  result : Nat
  deriving DecidableEq, Repr

structure AtsRequest where
  id : Nat
  pasid : Nat
  page : Nat
  gen : Byte
  deadline : Nat
  /-- a page request is outstanding (PRI) -/
  pri : Bool
  deriving DecidableEq, Repr

/-- States of the standard LTSSM in which a link that carries traffic, or trains, stands (R19). -/
inductive Ltssm where
  | detect | polling | configuration | recovery | l0
  deriving DecidableEq, Repr

/-- An uncorrectable error that AER reports (R19, R36): the requester's bus address. -/
structure AerError where
  code : Nat
  addr : Nat
  deriving DecidableEq, Repr

structure Link where
  up : Bool
  ltssm : Ltssm
  /-- lanes and generation negotiated (R19) -/
  width : Nat
  gen : Nat
  fq : HostRing
  eq : HostRing
  msix : List Nat
  fsvca : Word
  pstat : Word
  /-- completion timeout of Device Control 2, in ns (R63) -/
  ctoNs : Nat
  atsCache : List AtsEntry
  atsReqs : List AtsRequest
  /-- invalidation completions returned: PASID and page (R19) -/
  invDone : List (Nat × Nat)
  /-- IDE streams and the keys set over DOE (R19) -/
  ide : List (Nat × Word)
  /-- confidential contexts assigned over TDISP (R19) -/
  assigned : List Nat
  aer : List AerError
  /-- class and the queue served last in it (R53) -/
  lastServed : List (Nat × Nat)
  deriving DecidableEq, Repr

/-! ## Vexari Link (02) -/

inductive Train where
  | detect | rate | equalise | deskew | slots | identity | active | quarantine
  deriving DecidableEq, Repr

/-- A request sent to a peer that has not completed (R32). -/
inductive PeerReq where
  | load (id : Nat)
  | store (id : Nat)
  | remq (id : Nat)
  | read (id : Nat)
  deriving DecidableEq, Repr

structure Port where
  state : Train
  rate112 : Bool
  stuck : Bool
  fails : Nat
  eqRounds : Nat
  why : Nat
  peerQ : Bool
  dropped : W32
  replays : Byte
  disable : Bool
  force112 : Bool
  /-- time in ns at which the state was entered, or the round or notice began -/
  entered : Nat
  /-- the partner's declared slots, by channel (R24), and what is left of them -/
  declared : List Nat
  credits : List Nat
  /-- slots to return, by channel -/
  owed : List Nat
  txSeq : BitVec 16
  rxSeq : BitVec 16
  /-- what has been put on the lanes and not yet left them, oldest first -/
  tx : List Flit
  /-- sent and not yet acknowledged, newest first, at most 512 -/
  replay : List Flit
  replayFails : Nat
  replaySeq : BitVec 16
  /-- the number from which a replay has been asked for (R25) -/
  nak : Option (BitVec 16)
  /-- answers, slot returns and management flits that wait for a slot: channel, kind, body; oldest first (R23, R24) -/
  outq : List (Nat × Nat × FlitBody)
  /-- this end's challenge (R30) -/
  challenge : List Byte
  outstanding : List PeerReq
  deriving DecidableEq, Repr

def Port.reset : Port :=
  { state := .detect, rate112 := false, stuck := false, fails := 0, eqRounds := 0, why := 0, peerQ := false, dropped := 0, replays := 0,
    disable := false, force112 := false, entered := 0, declared := [0, 0, 0, 0], credits := [0, 0, 0, 0], owed := [0, 0, 0, 0], txSeq := 0,
    rxSeq := 0, tx := [], replay := [], replayFails := 0, replaySeq := 0, nak := none, outq := [], challenge := [],
    outstanding := [] }

/-- A read of a peer's memory: `data` is none while it is outstanding, and holds none where the request failed. -/
structure PeerRead where
  id : Nat
  who : PeerUser
  module_ : Nat
  off : Nat
  len : Nat
  data : Option (Option (List Byte))
  deriving DecidableEq, Repr

/-! ## Firmware (03) -/

/-- An image in a slot. -/
structure Image where
  image : Nat
  build : W32
  svn : BitVec 16
  handoff : BitVec 16
  valid : Bool
  deriving DecidableEq, Repr

inductive Trial where
  | none | inTrial | committed | reverted
  deriving DecidableEq, Repr

structure Firmware where
  slotA : Image
  slotB : Image
  /-- active slot: false A, true B -/
  active : Bool
  trial : Trial
  trialS : Nat
  /-- ns at which the window of a firmware trial or of a patch trial ends -/
  trialEnd : Option Nat
  /-- an update or a revert waits for a quiescent point until this time -/
  quiesce : Option Nat
  reverting : Bool
  /-- command processing is stopped (R45) -/
  stopped : Bool
  patch : Option Image
  /-- the patch before the one on trial -/
  patchOld : Option Image
  patchNew : Option Image
  patchEnd : Option Nat
  patchWritten : Bool
  patchConfirmed : Bool
  stepFail : BitVec 6
  diesOk : BitVec 16
  /-- port dies in service (R9, R27) -/
  portDiesOk : BitVec 2
  /-- the device identity keys have been derived (R37): Config.identityKey names them -/
  identity : Bool
  /-- the dies whose reserved core's range registers are set, over Config.guardBase and guardBytes, and locked (R36) -/
  ranges : BitVec 16
  /-- hand-off block version being written (R41, R46) -/
  hoVer : BitVec 16
  /-- the bytes of the hand-off block (R46), by offset, in the firmware's area of die 0's HBM -/
  handoff : List Host.Cell
  /-- kept commit triples: queue, reset epoch, sequence number (R39) -/
  triples : List (Nat × BitVec 16 × W32)
  /-- REGION packets handed to firmware, and those abandoned at a switch (R45) -/
  hands : List (Nat × W32)
  abandoned : List (Nat × W32)
  deriving DecidableEq, Repr

/-- A FWCALL or MONCALL that waits for its answer (R416, R417). -/
structure Service where
  id : Nat
  monitor : Bool
  svc : Byte
  a : Word
  b : Word
  tids : List Tid
  answer : Option Word
  deriving DecidableEq, Repr

/-- An answer of the monitor over DOE (R19, R37): the request, what a report measures, and its signatures. -/
structure Report where
  link : Nat
  kind : SpdmKind
  nonce : Nat
  rom : List Byte
  patch : Option (List Byte)
  slotA : List Byte
  slotB : List Byte
  active : Bool
  handoff : BitVec 16
  sigEd : List Byte
  sigMl : List Byte
  deriving DecidableEq, Repr

structure MemErr where
  corrected : W32
  sev0 : Byte
  sev1 : Byte
  sev2 : Byte
  sev3 : Byte
  deriving DecidableEq, Repr

/-- WRSTAT and the reset in progress (R150 to R152). -/
structure WarmReset where
  count : W32
  cause : Byte
  die : Nat
  lost : BitVec 16
  /-- ns of the decision, while a reset is in progress -/
  began : Option Nat
  /-- blocks whose dirty lines cannot be written back, until the deadline has poisoned them -/
  stuck : List Nat
  interrupted : List Nat
  deriving DecidableEq, Repr

/-- A claim that waits on a core (R385): the workgroup, its lanes, and the counts. -/
structure Claim where
  core : Nat
  wg : Nat
  tids : List Tid
  slots : Nat
  tiles : Nat
  deriving DecidableEq, Repr

/-! ## The machine -/

/-- What happens next, when the agenda says: another agent's row with the unit it acts for, an issue of a core, the passing of time, a write by the host into its memory, an error in a block, an eviction, an early write-back (R347). -/
inductive Item where
  | event (i : Instr) (unit : Nat)
  | issue (core : Nat)
  | advance (cycles : Nat)
  | hostWrite (addr : Nat) (data : List Byte)
  | media (block flipD flipM : Nat) (badMac : Bool)
  | regEcc (t : Tid) (n : Nat)
  /-- the undo log of a workgroup fails its check (R142) -/
  | undoEcc (wg : Nat)
  | evictL1 (core block : Nat)
  | evictTlb (n : Nat)
  | evictClb (cluster pasid : Nat) (colour : BitVec 16)
  | evictIcache (cluster block : Nat)
  | writeBack (wg chunk : Nat)
  /-- a line of a die cache goes back to its stack (R11, R14) -/
  | evictDie (block : Nat)
  /-- the host reads a register: link, BAR, offset (R5) -/
  | hostRead (link bar off : Nat)
  /-- the partner of a port has taken the flits up to a number; or takes the oldest flit off the lanes; or the port returns slots by an idle flit (R24, R25) -/
  | linkAck (port : Nat) (seq : BitVec 16)
  | linkTake (port : Nat)
  | linkIdle (port : Nat)
  /-- the LTSSM of a PCI Express link, IDE key management, and TDISP (R19) -/
  | ltssm (link : Nat) (st : Ltssm) (width gen : Nat)
  | ideKey (link stream : Nat) (key : Option Word)
  | tdisp (link pasid : Nat) (on : Bool)
  /-- the host sets the completion timeout of Device Control 2 (R63) -/
  | devCtl2 (link ns : Nat)
  /-- a byte of the hand-off block is damaged (R47) -/
  | handoffByte (off : Nat) (b : Byte)
  /-- the firmware of a die starts a thread on its reserved core: level, context and code address (R35) -/
  | firmwareThread (die pl pasid : Nat) (pc : Word)
  deriving DecidableEq, Repr

structure State where
  /-- arithmetic cycles since power-good (R412 CLOCK) and module time in ns (R56) -/
  now : Nat
  ns : Nat
  clkMhz : Nat
  powered : Bool
  /-- the model's own fields: the next free value, the unit an event acts for, what happens next -/
  freeCtr : Nat
  unit_ : Nat
  agenda : List Item
  /-- the last identifier given to an access, an operation, a gang or a launch -/
  ids : Nat
  cur : Group
  groups : List Group
  threads : List Thread
  warps : List Warp
  wgs : List Workgroup
  gangs : List Gang
  launches : List Launch
  regions : List Region
  contexts : List Context
  keys : List (Nat × Nat)
  cores : List (Nat × Core)
  mem : List Host.Cell
  blocks : List (Nat × Block)
  /-- blocks whose line is dirty in its home die's cache, the oldest first (R11, R14) -/
  dirty : List Nat
  l1 : List L1Line
  tlb : List TlbEntry
  icache : List ILine
  clb : List ClbEntry
  loads : List OutLoad
  stores : List OutStore
  sideLog : List LogEntry
  faults : List PendFault
  monitors : List Monitor
  engines : List EngineOp
  streams : List Stream
  claims : List Claim
  compare : List CompareEntry
  values : List LoadValue
  races : List RaceRecord
  syncs : List SyncLoc
  fenceVc : List SyncLoc
  bwords : List BWord
  bupdates : List BUpdate
  /-- watcher registrations: die, 4 KiB piece of HBM that holds the bitmap, launch (R81) -/
  watchers : List (Nat × Nat × Nat)
  queues : List (Nat × Queue)
  links : List Link
  records : List HostRecord
  /-- what reads of a link's BAR have returned (R5): link, BAR, offset, value; newest last -/
  hostReads : List (Nat × Nat × Nat × Word)
  fw : Firmware
  services : List Service
  /-- attestation reports sent over DOE, newest last -/
  reports : List Report
  ports : List Port
  peerReads : List PeerRead
  /-- number of this module in its domain, the domain's modules, and for each destination its reservation and outstanding count (R26) -/
  module_ : Nat
  domain : List Nat
  reserve : List (Nat × Nat)
  outstanding : List (Nat × Nat)
  /-- slots that other modules hold into this one, by source (R26) -/
  granted : List (Nat × Nat)
  heatMs : Nat
  heatSwept : List (Nat × Nat)
  memerr : List (Nat × MemErr)
  warm : WarmReset
  /-- the start of the current budget window, in ns (R71) -/
  window : Nat
  deriving DecidableEq, Repr

def Link.reset : Link :=
  { up := true, ltssm := .l0, width := 16, gen := 7, fq := ⟨0, false, 0, 0, 0, 0⟩, eq := ⟨0, false, 0, 0, 0, 0⟩, msix := [], fsvca := 0,
    pstat := 0, ctoNs := Config.atsTimeoutNs, atsCache := [], atsReqs := [], invDone := [], ide := [], assigned := [], aer := [], lastServed := [] }

/-- Slots, build and versions of the image: assumption log 8. -/
def Firmware.reset : Firmware :=
  { slotA := ⟨0, 0, 0, 0, true⟩, slotB := ⟨0, 0, 0, 0, false⟩, active := false, trial := .none, trialS := 30, trialEnd := none,
    quiesce := none, reverting := false, stopped := false, patch := none, patchOld := none, patchNew := none, patchEnd := none,
    patchWritten := false, patchConfirmed := false, stepFail := 0, diesOk := 0xFFFF, portDiesOk := 3,
    identity := true, ranges := 0xFFFF,
    hoVer := 0, handoff := [], triples := [], hands := [], abandoned := [] }

/-- The machine right after power-good: every register at its reset value (R5), nothing resident, memory with nothing listed. -/
def State.reset : State :=
  { now := 0, ns := 0, clkMhz := 800, powered := true, freeCtr := 0, unit_ := 0, agenda := [], ids := 0, cur := Group.empty,
    groups := [], threads := [], warps := [], wgs := [], gangs := [], launches := [], regions := [], contexts := [], keys := [],
    cores := [], mem := [], blocks := [], dirty := [], l1 := [], tlb := [], icache := [], clb := [], loads := [], stores := [], sideLog := [],
    faults := [], monitors := [], engines := [], streams := [], claims := [], compare := [], values := [], races := [], syncs := [],
    fenceVc := [], bwords := [], bupdates := [], watchers := [], queues := [], links := [Link.reset, Link.reset], records := [],
    hostReads := [], fw := Firmware.reset, services := [], reports := [], ports := List.replicate 16 Port.reset, peerReads := [], module_ := 0, domain := [], reserve := [],
    outstanding := [], granted := [], heatMs := 10, heatSwept := [], memerr := [], warm := ⟨0, 0, 0, 0, none, [], []⟩, window := 0 }

/-- Why a step can stop the machine. -/
inductive Fault where
  /-- raised by step alone, when the module has no power and the agenda does not restore it (R27): nothing executes. Safe. -/
  | noPower
  deriving DecidableEq, Repr

/-- Why a step has no meaning. -/
inductive Refusal where
  /-- raised by an arm of exec whose instruction has no meaning yet, by its mnemonic. Safe. -/
  | notModelled (mnemonic : String)
  deriving DecidableEq, Repr

end Sys2Proof.Machine
end

