-- ==== Sys2Proof/Machine/Lists.lean ====
section
/-! DEFINITION. Lists keyed by a number and kept in ascending order, and small list functions.
Every later file reads and writes sparse state through these. -/

namespace Sys2Proof.Machine

/-- The entry of key `k`, if listed. -/
def kfind {α : Type} (k : Nat) : List (Nat × α) → Option α
  | [] => none
  | (j, x) :: r => if j = k then some x else kfind k r

def kget {α : Type} (d : α) (k : Nat) (l : List (Nat × α)) : α := (kfind k l).getD d

/-- Sets the entry of key `k`, keeping ascending order. -/
def kset {α : Type} (k : Nat) (x : α) : List (Nat × α) → List (Nat × α)
  | [] => [(k, x)]
  | (j, y) :: r => if k < j then (k, x) :: (j, y) :: r else if k = j then (k, x) :: r else (j, y) :: kset k x r

def kdel {α : Type} (k : Nat) (l : List (Nat × α)) : List (Nat × α) := l.filter fun e => e.1 != k

/-- Inserts before the first element with a greater key. -/
def insertBy {α : Type} (f : α → Nat) (x : α) : List α → List α
  | [] => [x]
  | y :: r => if f x < f y then x :: y :: r else y :: insertBy f x r

def sortBy {α : Type} (f : α → Nat) (l : List α) : List α := l.foldr (insertBy f) []

/-- The first element with the least key. -/
def minBy {α : Type} (f : α → Nat) : List α → Option α
  | [] => none
  | x :: r => match minBy f r with
    | none => some x
    | some y => if f x ≤ f y then some x else some y

/-- Replaces the elements that satisfy `p`. -/
def updIf {α : Type} (p : α → Bool) (f : α → α) (l : List α) : List α := l.map fun x => if p x then f x else x

/-- The value of a little-endian byte list (R3). -/
def leNat : List Byte → Nat
  | [] => 0
  | b :: r => b.toNat + 256 * leNat r

/-- The `n` bytes of a number, least first. -/
def leBytes : Nat → Nat → List Byte
  | 0, _ => []
  | n + 1, x => BitVec.ofNat 8 x :: leBytes n (x / 256)

def leWord (l : List Byte) : Word := BitVec.ofNat 64 (leNat l)

/-- Bytes `i` to `i + n - 1` of a list, zero past its end. -/
def slice (i n : Nat) (l : List Byte) : List Byte := (List.range n).map fun j => l.getD (i + j) 0

def field (l : List Byte) (i n : Nat) : Nat := leNat (slice i n l)

/-- Bits [h:l] of a number. -/
def bits (x h l : Nat) : Nat := (x / 2 ^ l) % 2 ^ (h + 1 - l)

def bitAt (x i : Nat) : Bool := (x / 2 ^ i) % 2 == 1

/-- The signed value of a word. -/
def sword (w : Word) : Int := w.toInt

/-- Adds a signed amount to an address, wrapping. -/
def addInt (a : Word) (i : Int) : Word := a + BitVec.ofInt 64 i

/-- A byte counter that stops at 255. -/
def satByte (b : Byte) : Byte := if b == 0xFF then b else b + 1
def satW32 (b : W32) : W32 := if b == 0xFFFFFFFF then b else b + 1

/-! ## Vector clocks (R208) -/

/-- The join of two vector clocks. -/
def vcJoin (a b : List (Nat × Nat)) : List (Nat × Nat) :=
  b.foldl (fun acc e => if kget 0 e.1 acc < e.2 then kset e.1 e.2 acc else acc) a

/-- A thread's name as a number: core, slot, lane. -/
def Tid.key (t : Tid) : Nat := t.core * 2 ^ 20 + t.slot * 64 + t.lane

end Sys2Proof.Machine
end

