-- ==== Sys2Proof/Machine/Flags.lean ====
section
/-! DEFINITION. Flags: the integer arithmetic of R281 to R298 on patterns of `w` bits, with its wrapping, saturation, carries, borrows and comparisons.
A pattern is a natural number below 2^w; S and U of R281 are `sval` and the number itself. -/

namespace Sys2Proof.Machine

/-! ## Wrap and saturation (R281) -/

def wBits (w64 : Bool) : Nat := if w64 then 64 else 32

/-- S(x). -/
def sval (w x : Nat) : Int := if 2 ^ (w - 1) ≤ x then (x : Int) - 2 ^ w else x

/-- Wrap(v). -/
def wrap (w : Nat) (v : Int) : Nat := (v % 2 ^ w).toNat

/-- The value of a pattern, unsigned or signed. -/
def ival (u : Bool) (w x : Nat) : Int := if u then x else sval w x

/-- SatU(v) or SatS(v). -/
def satv (u : Bool) (w : Nat) (v : Int) : Int :=
  if u then max 0 (min v (2 ^ w - 1)) else max (-(2 ^ (w - 1))) (min v (2 ^ (w - 1) - 1))

/-- The exact value `v` as a pattern, saturated or wrapped. -/
def narrow (u sat : Bool) (w : Nat) (v : Int) : Nat := wrap w (if sat then satv u w v else v)

/-! ## Arithmetic (R283, R284, R228) -/

def addW (u sat : Bool) (w a b : Nat) : Nat := narrow u sat w (ival u w a + ival u w b)
def subW (u sat : Bool) (w a b : Nat) : Nat := narrow u sat w (ival u w a - ival u w b)
def negW (sat : Bool) (w a : Nat) : Nat := narrow false sat w (-(sval w a))
def absW (sat : Bool) (w a : Nat) : Nat := narrow false sat w (sval w a).natAbs
def mulW (w a b : Nat) : Nat := (a * b) % 2 ^ w
def mulHiW (u : Bool) (w a b : Nat) : Nat := wrap w ((ival u w a * ival u w b) / 2 ^ w)
def madW (w a b c : Nat) : Nat := (a * b + c) % 2 ^ w

/-- Sum and carry out of R284. -/
def addCarry (w a b c : Nat) : Nat × Bool := ((a + b + c) % 2 ^ w, decide (2 ^ w ≤ a + b + c))

/-- Difference and borrow out of R284. -/
def subBorrow (w a b c : Nat) : Nat × Bool := (wrap w ((a : Int) - b - c), decide (a < b + c))

/-- Quotient of R228. -/
def divW (u : Bool) (w a b : Nat) : Nat := if b = 0 then 2 ^ w - 1 else wrap w ((ival u w a).tdiv (ival u w b))

/-- Remainder of R228. -/
def remW (u : Bool) (w a b : Nat) : Nat := if b = 0 then a else wrap w ((ival u w a).tmod (ival u w b))

def minW (u : Bool) (w a b : Nat) : Nat := if ival u w b < ival u w a then b else a
def maxW (u : Bool) (w a b : Nat) : Nat := if ival u w a < ival u w b then b else a

/-- ICMP (R285). -/
def icmpW (c : ICond) (u : Bool) (w a b : Nat) : Bool :=
  match c with
  | .eq => a == b
  | .ne => a != b
  | .lt => decide (ival u w a < ival u w b)
  | .le => decide (ival u w a ≤ ival u w b)
  | .gt => decide (ival u w b < ival u w a)
  | .ge => decide (ival u w b ≤ ival u w a)

/-! ## Bits (R283, R286 to R289) -/

/-- The pattern whose bit i is `f i`. -/
def fromBitsFn (f : Nat → Bool) : Nat → Nat
  | 0 => 0
  | n + 1 => fromBitsFn f n + (f n).toNat * 2 ^ n

def popcW (w a : Nat) : Nat := ((List.range w).filter (bitAt a)).length
def clzW (w a : Nat) : Nat := if a = 0 then w else w - 1 - Nat.log2 a
def ctzW (w a : Nat) : Nat := ((List.range w).find? (bitAt a)).getD w
def brevW (w a : Nat) : Nat := fromBitsFn (fun i => bitAt a (w - 1 - i)) w
def notW (w a : Nat) : Nat := 2 ^ w - 1 - a
def andnW (w a b : Nat) : Nat := a &&& notW w b
def bool3W (t w a b c : Nat) : Nat :=
  fromBitsFn (fun i => bitAt t ((bitAt a i).toNat + 2 * (bitAt b i).toNat + 4 * (bitAt c i).toNat)) w

def shlW (w a k : Nat) : Nat := if w ≤ k then 0 else (a * 2 ^ k) % 2 ^ w
def shrW (w a k : Nat) : Nat := if w ≤ k then 0 else a / 2 ^ k
def shraW (w a k : Nat) : Nat := wrap w (sval w a / 2 ^ (if w ≤ k then w else k))
def rotlW (w a k : Nat) : Nat := (a * 2 ^ (k % w)) % 2 ^ w + a / 2 ^ (w - k % w)

/-- FUNNEL for k at most w. -/
def funnelW (l : Bool) (w a b k : Nat) : Nat :=
  let x := b * 2 ^ w + a
  (x / 2 ^ (if l then w - k else k)) % 2 ^ w

/-- BFE for pos + len at most w. -/
def bfeW (u : Bool) (w a pos len : Nat) : Nat :=
  if len = 0 then 0
  else
    let x := (a / 2 ^ pos) % 2 ^ len
    if u then x else wrap w (sval len x)

/-- BFI for pos + len at most w. -/
def bfiW (a b pos len : Nat) : Nat :=
  b - ((b / 2 ^ pos) % 2 ^ len) * 2 ^ pos + (a % 2 ^ len) * 2 ^ pos

/-- One result byte of BPICK. -/
def bpickByte (x sel : Nat) : Nat :=
  let y := (x / 256 ^ (sel % 8)) % 256
  if bitAt sel 3 then 0 else if bitAt sel 4 then (if bitAt y 7 then 255 else 0) else y

def bpickW (a b c : Nat) : Nat :=
  let x := b * 2 ^ 32 + a
  ((List.range 4).map fun i => bpickByte x ((c / 256 ^ i) % 256) * 256 ^ i).foldl (· + ·) 0

/-- LEA (R291). -/
def leaW (u : Bool) (s a b : Nat) : Nat := wrap 64 ((a : Int) + ival u 32 b * 2 ^ s)

/-! ## Packed halves and dot products (R293 to R295) -/

def half (x h : Nat) : Nat := (x / 2 ^ (16 * h)) % 2 ^ 16

/-- Both halves of a packed word, each computed on its own. -/
def packed (f : Nat → Nat → Nat) (a b : Nat) : Nat := f (half a 0) (half b 0) + 2 ^ 16 * f (half a 1) (half b 1)

/-- One half of ACSEL2: the result and the decision. -/
def acselHalf (a b cx cy : Nat) : Nat × Bool :=
  let x := min (a + cx) 0xFFFF
  let y := min (b + cy) 0xFFFF
  if y < x then (y, true) else (x, false)

/-- ACSEL2: the result and the two decisions, the low half's first. -/
def acsel2W (a b c : Nat) : Nat × Bool × Bool :=
  let l := acselHalf (half a 0) (half b 0) (half c 0) (half c 1)
  let h := acselHalf (half a 1) (half b 1) (half c 0) (half c 1)
  (l.1 + 2 ^ 16 * h.1, l.2, h.2)

/-- DOT4 (eb = 8, n = 4) and DOT2 (eb = 16, n = 2). -/
def dotW (u sat : Bool) (eb n a b c : Nat) : Nat :=
  let e := fun (x i : Nat) => ival u eb ((x / 2 ^ (eb * i)) % 2 ^ eb)
  narrow u sat 32 ((List.range n).foldl (fun t i => t + e a i * e b i) (ival u 32 c))

/-! ## Conversions and predicates (R296 to R298) -/

def IWidth.bits : IWidth → Nat
  | .w8 => 8
  | .w16 => 16
  | .w32 => 32
  | .w64 => 64

/-- CVTI: the pattern of the destination, extended to 32 bits or 64. -/
def cvtiW (src dst : IWidth) (du su sat : Bool) (a : Nat) : Nat :=
  let v := ival su (IWidth.bits src) (a % 2 ^ IWidth.bits src)
  let x := narrow du sat (IWidth.bits dst) v
  let wide := if dst = .w64 then 64 else 32
  if du then x else wrap wide (sval (IWidth.bits dst) x)

/-- PTOV: `a` with bits k to k + c − 1 below w replaced by predicates. -/
def ptovW (w a k c : Nat) (p : Nat → Bool) : Nat :=
  fromBitsFn (fun i => if k ≤ i ∧ i < k + c then p (i - k) else bitAt a i) w

/-- VTOP: bit k + i of `a`, and 0 from w on. -/
def vtopBit (w a k i : Nat) : Bool := decide (k + i < w) && bitAt a (k + i)

end Sys2Proof.Machine
end

