-- ==== Sys2Proof/Machine/Numbers.lean ====
section
/-! DEFINITION. Numbers: formats (R217 to R222), exact values, RoundTo (R224 to R226), the elementary functions of R315 and conversion under a record (R229 to R231).
An exact value is a sign and a rational; an irrational result is represented by a rational so close that no value to which a result can round, and no midpoint, lies between (assumption log 9). -/

namespace Sys2Proof.Machine

/-! ## Exact values -/

/-- A decoded value: NaN (signalling or not), an infinity, or a sign and a magnitude n / d with d > 0. -/
inductive Num where
  | nan (sig : Bool)
  | inf (neg : Bool)
  | fin (neg : Bool) (n d : Nat)
  deriving DecidableEq, Repr

def Num.zero : Num := .fin false 0 1
def Num.one : Num := .fin false 1 1

def Num.isNan : Num → Bool
  | .nan _ => true
  | _ => false

def Num.sig : Num → Bool
  | .nan s => s
  | _ => false

def Num.neg : Num → Num
  | .nan s => .nan s
  | .inf b => .inf (!b)
  | .fin b n d => .fin (!b) n d

def Num.abs : Num → Num
  | .nan s => .nan s
  | .inf _ => .inf false
  | .fin _ n d => .fin false n d

def Num.sign : Num → Bool
  | .nan _ => false
  | .inf b => b
  | .fin b _ _ => b

def Num.isZero : Num → Bool
  | .fin _ n _ => n == 0
  | _ => false

/-- The signed numerator of a finite value. -/
def sgn (neg : Bool) (n : Nat) : Int := if neg then -(n : Int) else n

/-- A finite value from a signed numerator; zero takes the sign `z`. -/
def Num.ofInt (x : Int) (d : Nat) (z : Bool) : Num :=
  if x = 0 then .fin z 0 1 else .fin (decide (x < 0)) x.natAbs d

/-- 2^e for an integer exponent, as numerator and denominator. -/
def pow2 (e : Int) : Nat × Nat := if 0 ≤ e then (2 ^ e.toNat, 1) else (1, 2 ^ (-e).toNat)

def Num.scale (x : Num) (e : Int) : Num :=
  match x with
  | .fin b n d => .fin b (n * (pow2 e).1) (d * (pow2 e).2)
  | y => y

/-- IEEE addition with an exact result; an exact zero is −0 under .rd, except of two equal zeros (R224). -/
def Num.add (rd : Bool) (a b : Num) : Num :=
  match a, b with
  | .nan s, .nan t => .nan (s || t)
  | .nan s, _ => .nan s
  | _, .nan t => .nan t
  | .inf s, .inf t => if s = t then .inf s else .nan true
  | .inf s, _ => .inf s
  | _, .inf t => .inf t
  | .fin s n d, .fin t m e => Num.ofInt (sgn s n * e + sgn t m * d) (d * e) (if n = 0 ∧ m = 0 ∧ s = t then s else rd)

/-- IEEE multiplication with an exact result; 0 × ∞ is an invalid NaN. -/
def Num.mul (a b : Num) : Num :=
  match a, b with
  | .nan s, .nan t => .nan (s || t)
  | .nan s, _ => .nan s
  | _, .nan t => .nan t
  | .inf s, .inf t => .inf (s != t)
  | .inf s, .fin t m _ => if m = 0 then .nan true else .inf (s != t)
  | .fin s n _, .inf t => if n = 0 then .nan true else .inf (s != t)
  | .fin s n d, .fin t m e => .fin (s != t) (n * m) (d * e)

/-- IEEE division with an exact result; the flag says that a finite non-zero value was divided by zero. -/
def Num.div (a b : Num) : Num × Bool :=
  match a, b with
  | .nan s, .nan t => (.nan (s || t), false)
  | .nan s, _ => (.nan s, false)
  | _, .nan t => (.nan t, false)
  | .inf _, .inf _ => (.nan true, false)
  | .inf s, .fin t _ _ => (.inf (s != t), false)
  | .fin s _ _, .inf t => (.fin (s != t) 0 1, false)
  | .fin s n d, .fin t m e =>
    if m = 0 then (if n = 0 then (.nan true, false) else (.inf (s != t), true)) else (.fin (s != t) (n * e) (d * m), false)

/-- Order of two values that are not NaN, −0 and +0 equal: a < b. -/
def Num.lt (a b : Num) : Bool :=
  match a, b with
  | .inf s, .inf t => s && !t
  | .inf s, _ => s
  | _, .inf t => !t
  | .fin s n d, .fin t m e => decide (sgn s n * e < sgn t m * d)
  | _, _ => false

def Num.eq (a b : Num) : Bool := !a.isNan && !b.isNan && !a.lt b && !b.lt a

/-! ## Formats (R217, R218) -/

/-- How a format uses its top patterns. -/
inductive Top where
  /-- infinities and NaNs in the all-ones exponent -/
  | ieee
  /-- NaN in the one top pattern (E4M3) -/
  | oneNan
  /-- finite throughout -/
  | finite
  deriving DecidableEq, Repr

structure Fmt where
  ebits : Nat
  mbits : Nat
  top : Top
  deriving DecidableEq, Repr

def Fmt.b64 : Fmt := ⟨11, 52, .ieee⟩
def Fmt.b32 : Fmt := ⟨8, 23, .ieee⟩
def Fmt.b16 : Fmt := ⟨5, 10, .ieee⟩
def Fmt.bf16 : Fmt := ⟨8, 7, .ieee⟩
def Fmt.e4m3 : Fmt := ⟨4, 3, .oneNan⟩
def Fmt.e5m2 : Fmt := ⟨5, 2, .ieee⟩
def Fmt.e3m2 : Fmt := ⟨3, 2, .finite⟩
def Fmt.e2m3 : Fmt := ⟨2, 3, .finite⟩
def Fmt.e2m1 : Fmt := ⟨2, 1, .finite⟩

def Fmt.width (f : Fmt) : Nat := 1 + f.ebits + f.mbits
def Fmt.bias (f : Fmt) : Nat := 2 ^ (f.ebits - 1) - 1
def Fmt.emin (f : Fmt) : Int := 1 - f.bias

/-- The largest finite magnitude pattern. -/
def Fmt.maxBits (f : Fmt) : Nat :=
  match f.top with
  | .ieee => (2 ^ f.ebits - 1) * 2 ^ f.mbits - 1
  | .oneNan => 2 ^ (f.ebits + f.mbits) - 2
  | .finite => 2 ^ (f.ebits + f.mbits) - 1

/-- The magnitude of a finite pattern. -/
def Fmt.magnitude (f : Fmt) (b : Nat) : Nat × Nat :=
  let e := b / 2 ^ f.mbits
  let m := b % 2 ^ f.mbits
  let s : Int := (if e = 0 then f.emin else (e : Int) - f.bias) - f.mbits
  let k := if e = 0 then m else m + 2 ^ f.mbits
  (k * (pow2 s).1, (pow2 s).2)

def Fmt.decode (f : Fmt) (x : Nat) : Num :=
  let neg := bitAt x (f.ebits + f.mbits)
  let b := x % 2 ^ (f.ebits + f.mbits)
  if f.maxBits < b then
    (if f.top = .ieee ∧ b % 2 ^ f.mbits = 0 then .inf neg else .nan (f.top = .ieee && !bitAt b (f.mbits - 1)))
  else .fin neg (f.magnitude b).1 (f.magnitude b).2

/-- The canonical NaN (R217, R218); a format without NaN has none. -/
def Fmt.nan (f : Fmt) : Nat :=
  match f.top with
  | .ieee => (2 ^ f.ebits - 1) * 2 ^ f.mbits + 2 ^ (f.mbits - 1)
  | _ => 2 ^ (f.ebits + f.mbits) - 1

def Fmt.inf (f : Fmt) (neg : Bool) : Nat := (2 ^ f.ebits - 1) * 2 ^ f.mbits + neg.toNat * 2 ^ (f.ebits + f.mbits)

/-! ## Rounding (R224, R225) -/

/-- A rounding mode, with the low 16 bits of the state for .rs. -/
structure RMode where
  rnd : Rnd
  k : Nat

def RMode.rn : RMode := ⟨.rn, 0⟩
def RMode.rz : RMode := ⟨.rz, 0⟩
def RMode.isRd (m : RMode) : Bool := m.rnd == .rd

/-- Whether a magnitude with quotient `q` (even or odd code) and remainder r / den rounds up. -/
def RMode.up (m : RMode) (neg odd : Bool) (r den : Nat) : Bool :=
  match m.rnd with
  | .rn => decide (den < 2 * r) || (decide (2 * r = den) && odd)
  | .rz => false
  | .ru => !neg && decide (0 < r)
  | .rd => neg && decide (0 < r)
  | .rs => decide (65536 * den ≤ 65536 * r + m.k * den)

/-- floor(log2 (n / d)) for n > 0. -/
def floorLog2 (n d : Nat) : Int :=
  let e : Int := (Nat.log2 n : Int) - Nat.log2 d
  let (p, q) := pow2 e
  if n * q < d * p then e - 1 else e

/-- Rounds a magnitude to a multiple of 2^s: the multiple and whether it is exact. -/
def roundUnit (m : RMode) (neg : Bool) (n d : Nat) (s : Int) : Nat × Bool :=
  let (p, q) := pow2 s
  let num := n * q
  let den := d * p
  let k := num / den
  let r := num % den
  (if m.up neg (k % 2 == 1) r den then k + 1 else k, r == 0)

/-- The exponent unit at which a magnitude rounds in a format, with its subnormals. -/
def Fmt.unit (f : Fmt) (n d : Nat) : Int :=
  let e := floorLog2 n d
  (if e < f.emin then f.emin else e) - f.mbits

/-- FSTAT flags (R226): 1 invalid, 2 divzero, 4 overflow, 8 underflow, 16 inexact, 32 clamp. -/
abbrev Flags := BitVec 6

structure FRes where
  bits : Nat
  flags : Flags
  deriving DecidableEq, Repr

/-- Whether a non-zero magnitude is tiny after rounding with no lower bound on the exponent. -/
def Fmt.tiny (f : Fmt) (m : RMode) (neg : Bool) (n d : Nat) : Bool :=
  let s := floorLog2 n d - f.mbits
  let k := (roundUnit m neg n d s).1
  let (p, q) := pow2 s
  let (a, b) := pow2 f.emin
  decide (k * p * b < a * q)

/-- The magnitude pattern of k × 2^s, for k at most 2^(mbits + 1). -/
def Fmt.encodeMag (f : Fmt) (k : Nat) (s : Int) : Nat :=
  if k < 2 ^ f.mbits then k
  else ((s + f.mbits + f.bias - 1).toNat) * 2 ^ f.mbits + k

/-- RoundTo for the formats with infinities (R224), with the flags of the rounding. -/
def Fmt.round (f : Fmt) (m : RMode) (x : Num) : FRes :=
  let sb := fun (b : Bool) => b.toNat * 2 ^ (f.ebits + f.mbits)
  match x with
  | .nan s => ⟨f.nan, if s then 1 else 0⟩
  | .inf b => ⟨f.inf b, 0⟩
  | .fin b 0 _ => ⟨sb b, 0⟩
  | .fin b n d =>
    let s := f.unit n d
    let (k, exact) := roundUnit m b n d s
    let mag := f.encodeMag k s
    let m := if m.rnd == .rs then { m with rnd := .rn } else m
    if f.maxBits < mag then
      (let toMax := m.rnd == .rz || (m.rnd == .ru && b) || (m.rnd == .rd && !b)
       ⟨if toMax then f.maxBits + sb b else f.inf b, 20⟩)
    else
      let inex := if exact then 0 else 16
      ⟨mag + sb b, if !exact && f.tiny m b n d then inex ||| 8 else inex⟩

/-- One xorshift32 step (R225). -/
def xorshift (s : W32) : W32 :=
  let s := s ^^^ (s <<< 13)
  let s := s ^^^ (s >>> 17)
  s ^^^ (s <<< 5)

/-- The mode of one rounding, and the state after it: .rs draws. -/
def draw (r : Rnd) (st : W32) : RMode × W32 :=
  if r == .rs then (⟨.rs, (xorshift st).toNat % 65536⟩, xorshift st) else (⟨r, 0⟩, st)

/-- Rounds to an integer: the signed integer and whether it is exact. -/
def roundInt (m : RMode) (neg : Bool) (n d : Nat) : Int × Bool :=
  let (k, e) := roundUnit m neg n d 0
  (sgn neg k, e)

/-! ## Square roots and elementary functions (R315) -/

/-- floor of the square root, by pairs of bits. -/
def isqrtFrom : Nat → Nat → Nat
  | 0, _ => 0
  | fuel + 1, x =>
    if x = 0 then 0 else
      let r := 2 * isqrtFrom fuel (x / 4)
      if (r + 1) * (r + 1) ≤ x then r + 1 else r

def isqrt (x : Nat) : Nat := isqrtFrom (Nat.log2 x / 2 + 1) x

/-- The square root of n / d: exact, or a value strictly between the neighbours on a grid of 2^-p relative to the result. -/
def sqrtNum (n d : Nat) : Num :=
  let t := n * d
  let p := 200
  let x := t * 2 ^ (2 * p)
  let r := isqrt x
  if r * r = x then .fin false r (d * 2 ^ p) else .fin false (2 * r + 1) (d * 2 ^ (p + 1))

/-- Fixed point with 480 fractional bits. -/
def fxBits : Nat := 480
def fxOne : Nat := 2 ^ 480

/-- pi, ln 2 to 512 fractional bits. -/
def piFx : Nat := 0x3243f6a8885a308d313198a2e03707344a4093822299f31d0082efa98ec4e6c89452821e638d01377be5466cf34e90c6cc0ac29b7c97c50dd3f84d5b5b5470917
def ln2Fx : Nat := 0xb17217f7d1cf79abc9e3b39803f2f6af40f343267298b62d8a0d175b8baafa2be7b876206debac98559552fb4afa1b10ed2eae35c138214427573b291169b825
def piNum : Num := .fin false piFx (2 ^ 512)
def ln2Num : Num := .fin false ln2Fx (2 ^ 512)
def invPiNum : Num := .fin false (2 ^ 512) piFx
def log2eNum : Num := .fin false (2 ^ 512) ln2Fx

/-- Terms of the exponential series: `t` is the current term. -/
def expSeries (r : Nat) : Nat → Nat → Nat → Nat
  | 0, _, _ => 0
  | fuel + 1, i, t => t + expSeries r fuel (i + 1) (t * r / fxOne / (i + 1))

/-- e^r for 0 ≤ r < 1 in fixed point. -/
def expFx (r : Nat) : Nat := expSeries r 120 0 fxOne

/-- 2^x for a rational x with |x| at most 400. -/
def exp2Num (neg : Bool) (n d : Nat) : Num :=
  let x := sgn neg n
  let i := x / (d : Int)
  let f := (x % (d : Int)).toNat
  if f = 0 then .fin false (pow2 i).1 (pow2 i).2
  else
    let r := f * fxOne / d * ln2Fx / 2 ^ 512
    Num.scale (.fin false (2 * expFx r + 1) (2 * fxOne)) i

/-- Terms z^(2i+1) / (2i+1). -/
def atanhSeries (z2 : Nat) : Nat → Nat → Nat → Nat
  | 0, _, _ => 0
  | fuel + 1, i, t => t / (2 * i + 1) + atanhSeries z2 fuel (i + 1) (t * z2 / fxOne)

/-- ln(n / d) for 1 ≤ n / d < 2 in fixed point. -/
def lnFx (n d : Nat) : Nat :=
  let z := (n - d) * fxOne / (n + d)
  2 * atanhSeries (z * z / fxOne) 160 0 z

/-- log2 of a positive rational: exact at powers of two. -/
def log2Num (n d : Nat) : Num :=
  let e := floorLog2 n d
  let (p, q) := pow2 e
  let a := n * q
  let b := d * p
  if a = b then Num.ofInt e 1 false
  else
    let l : Nat := lnFx a b * 2 ^ 512 / ln2Fx
    Num.ofInt (2 * (e * fxOne + (l : Int)) + 1) (2 * fxOne) false

/-- Alternating series of the sine (start i = 1) or cosine (start i = 0): t is the current term. -/
def trigSeries (x2 : Nat) : Nat → Nat → Int → Int
  | 0, _, _ => 0
  | fuel + 1, i, t => t + trigSeries x2 fuel (i + 2) (-(t * (x2 : Int) / (fxOne : Int) / (((i + 1) * (i + 2) : Nat) : Int)))

/-- sin(pi r) for 0 < r < 1/2, r = n / d. -/
def sinPiFx (n d : Nat) : Int :=
  let x : Nat := n * fxOne / d * piFx / 2 ^ 512
  trigSeries (x * x / fxOne) 80 1 (x : Int)

/-- cos(pi r) for 0 < r < 1/2. -/
def cosPiFx (n d : Nat) : Int :=
  let x : Nat := n * fxOne / d * piFx / 2 ^ 512
  trigSeries (x * x / fxOne) 80 0 (fxOne : Int)

/-- sin(pi x) of a rational: exact at multiples of 1/2. -/
def sinPiNum (neg : Bool) (n d : Nat) : Num :=
  let r := n % (2 * d)
  if r = 0 ∨ r = d then .fin neg 0 1
  else if 2 * r = d then .fin neg 1 1
  else if 2 * r = 3 * d then .fin (!neg) 1 1
  else
    let s := decide (d < r)
    let r := if d < r then r - d else r
    let v := if 2 * r < d then (if 4 * r ≤ d then sinPiFx r d else cosPiFx (d - 2 * r) (2 * d))
             else (if 4 * (d - r) ≤ d then sinPiFx (d - r) d else cosPiFx (2 * r - d) (2 * d))
    .fin (neg != s) (2 * v.toNat + 1) (2 * fxOne)

/-- cos(pi x) of a rational: exact at multiples of 1/2. -/
def cosPiNum (n d : Nat) : Num :=
  let r := n % (2 * d)
  let r := if d < r then 2 * d - r else r
  if 2 * r = d then .fin false 0 1
  else if r = 0 then .fin false 1 1
  else if r = d then .fin true 1 1
  else
    let s := decide (d < 2 * r)
    let r := if d < 2 * r then d - r else r
    let v := if 4 * r ≤ d then cosPiFx r d else sinPiFx (d - 2 * r) (2 * d)
    .fin s (2 * v.toNat + 1) (2 * fxOne)

/-- tanh of a rational other than 0. -/
def tanhNum (neg : Bool) (n d : Nat) : Num :=
  if n * 2 ^ 40 ≤ d then .fin neg (n * (3 * d * d - n * n)) (3 * d * d * d)
  else if 100 * d ≤ n then .fin neg (2 ^ 280 - 1) (2 ^ 280)
  else
    let y := 2 * n * fxOne / d
    let l := ln2Fx / 2 ^ 32
    let k := y / l
    let e := expFx (y % l) * 2 ^ k
    .fin neg (2 * (e - fxOne) + 1) (2 * (e + fxOne))

/-! ## Tapered formats and integers (R219, R220) -/

/-- The length of the run of equal bits from the top of an n-bit field. -/
def runLen (x : Nat) (b : Bool) : Nat → Nat
  | 0 => 0
  | n + 1 => if bitAt x n == b then 1 + runLen x b n else 0

/-- The magnitude of a TP code of `n` bits below the sign: 2^(2k + e) × 1.f. -/
def tpMagnitude (n x : Nat) : Nat × Nat :=
  if x = 0 then (0, 1)
  else
    let b := bitAt x (n - 1)
    let r := runLen x b n
    let k : Int := if b then (r : Int) - 1 else -(r : Int)
    let left := n - r - 1
    let rest := x % 2 ^ left
    if n ≤ r then (pow2 (2 * k))
    else if left = 0 then (pow2 (2 * k))
    else
      let e : Int := ((rest / 2 ^ (left - 1) : Nat) : Int)
      let f := rest % 2 ^ (left - 1)
      let p := pow2 (2 * k + e)
      ((2 ^ (left - 1) + f) * p.1, 2 ^ (left - 1) * p.2)

/-- The formats of R222. -/
inductive EFmt where
  | fl (f : Fmt)
  | int (w : Nat)
  | tp (n : Nat)
  deriving DecidableEq, Repr

def efmtOf (code : Nat) : Option EFmt :=
  match code with
  | 1 => some (.fl .bf16)
  | 2 => some (.fl .b16)
  | 3 => some (.fl .b32)
  | 4 => some (.fl .e4m3)
  | 5 => some (.fl .e5m2)
  | 6 => some (.fl .e3m2)
  | 7 => some (.fl .e2m3)
  | 8 => some (.fl .e2m1)
  | 9 => some (.int 8)
  | 10 => some (.int 4)
  | 11 => some (.tp 7)
  | 12 => some (.tp 5)
  | _ => none

def EFmt.width : EFmt → Nat
  | .fl f => f.width
  | .int w => w
  | .tp n => n + 1

/-- Block scaling is allowed for codes 4 to 12 (R222). -/
def blockScaled (code : Nat) : Bool := 4 ≤ code && code ≤ 12

def EFmt.decode (f : EFmt) (x : Nat) : Num :=
  match f with
  | .fl g => g.decode (x % 2 ^ g.width)
  | .int w =>
    let v := x % 2 ^ w
    if 2 ^ (w - 1) ≤ v then .fin true (2 ^ w - v) 1 else .fin false v 1
  | .tp n =>
    let m := x % 2 ^ n
    let s := bitAt x n
    if m = 0 then (if s then .nan false else .fin false 0 1) else .fin s (tpMagnitude n m).1 (tpMagnitude n m).2

/-! ## Conversion under a record (R229 to R231) -/

structure TRec where
  fmt : Nat
  scale : Nat
  bound : Nat
  rnd : Rnd
  infPass : Bool
  deriving DecidableEq, Repr

def rndOfCode (n : Nat) : Option Rnd :=
  match n with
  | 0 => some .rn
  | 1 => some .rz
  | 2 => some .ru
  | 3 => some .rd
  | 4 => some .rs
  | _ => none

/-- The largest finite magnitude of a format (R231). -/
def EFmt.maxFinite : EFmt → Nat × Nat
  | .fl g => g.magnitude g.maxBits
  | .int w => (2 ^ (w - 1) - 1, 1)
  | .tp n => tpMagnitude n (2 ^ n - 1)

/-- none where R230 finds the record invalid. -/
def parseTRec (w : Word) : Option TRec :=
  let x := w.toNat
  let code := bits x 7 0
  match efmtOf code, rndOfCode (bits x 34 32) with
  | some f, some r =>
    let scale := bits x 15 8
    let bound := bits x 31 16
    let bnum := Fmt.decode .bf16 bound
    let tooBig : Bool := match bnum with
      | .fin _ n d => decide ((f.maxFinite).1 * d < n * (f.maxFinite).2)
      | _ => true
    if bits x 63 36 ≠ 0 ∨ scale = 0xFF ∨ (scale ≠ 127 ∧ !blockScaled code) ∨ bitAt bound 15 ∨ tooBig then none
    else some ⟨code, scale, bound, r, bitAt x 35⟩
  | _, _ => none

/-- Rounds a magnitude to a TP format with its upward extension: numerator, denominator of the result and exactness. -/
def tpRound (nb : Nat) (m : RMode) (neg : Bool) (n d : Nat) : (Nat × Nat) × Bool :=
  let codes := (List.range (2 ^ nb)).map fun c => (c, tpMagnitude nb c)
  let ext := (List.range 200).map fun (i : Nat) => (2 ^ nb + i, (2 ^ (2 * (nb - 1) + 2 * (i + 1)), 1))
  let all := codes ++ ext
  let below := all.filter fun e => decide (e.2.1 * d ≤ n * e.2.2)
  let lo := below.getLastD (0, (0, 1))
  match all.find? fun e => e.1 == lo.1 + 1 with
  | none => (lo.2, false)
  | some hi =>
    let lon := lo.2.1 * d * hi.2.2
    let x := n * lo.2.2 * hi.2.2
    let hin := hi.2.1 * d * lo.2.2
    if m.up neg (lo.1 % 2 == 1) (x - lon) (hin - lon) then (hi.2, false) else (lo.2, x == lon)

/-- Rounds a magnitude to a format with its upper end unbounded: the value and exactness. -/
def EFmt.roundUp (f : EFmt) (m : RMode) (neg : Bool) (n d : Nat) : (Nat × Nat) × Bool :=
  if n = 0 then ((0, 1), true)
  else match f with
  | .fl g =>
    let s := g.unit n d
    let (k, e) := roundUnit m neg n d s
    ((k * (pow2 s).1, (pow2 s).2), e)
  | .int _ =>
    let (k, e) := roundUnit m neg n d 0
    ((k, 1), e)
  | .tp nb => tpRound nb m neg n d

/-- The code of a magnitude that a TP format holds. -/
def tpCode (nb n d : Nat) : Nat :=
  ((List.range (2 ^ nb)).find? fun c => (tpMagnitude nb c).1 * d == n * (tpMagnitude nb c).2).getD 0

/-- The pattern of a value that a format holds; zeros of TP and INT are +0. -/
def EFmt.encode (f : EFmt) (neg : Bool) (n d : Nat) : Nat :=
  match f with
  | .fl g =>
    if n = 0 then neg.toNat * 2 ^ (g.width - 1)
    else
      let s := g.unit n d
      g.encodeMag (roundUnit .rz false n d s).1 s + neg.toNat * 2 ^ (g.width - 1)
  | .int w => if neg then (2 ^ w - n / d) % 2 ^ w else n / d
  | .tp nb => if n = 0 then 0 else tpCode nb n d + neg.toNat * 2 ^ nb

def EFmt.hasNan : EFmt → Bool
  | .fl g => g.top != .finite
  | .int _ => false
  | .tp _ => true

def EFmt.nanBits : EFmt → Nat
  | .fl g => g.nan
  | .int _ => 0
  | .tp n => 2 ^ n

/-- The smallest non-zero magnitude that is not tiny in a format (R226). -/
def EFmt.tinyBelow (f : EFmt) (m : RMode) (neg : Bool) (n d : Nat) : Bool :=
  match f with
  | .fl g => g.tiny m neg n d
  | .int _ => false
  | .tp nb => decide (n * (tpMagnitude nb 1).2 < (tpMagnitude nb 1).1 * d)

/-- R231: one element under a record. -/
def convertRec (f : EFmt) (t : TRec) (m : RMode) (x : Num) : FRes :=
  match x with
  | .nan s => if f.hasNan then ⟨f.nanBits, if s then 1 else 0⟩ else ⟨0, 1⟩
  | x =>
    let hiR := if t.bound = 0 then f.maxFinite else
      (match Fmt.decode .bf16 t.bound with
       | .fin _ n d => (f.roundUp .rz false n d).1
       | _ => f.maxFinite)
    let lo := if t.bound = 0 then (match f with
      | .int w => (2 ^ (w - 1), 1)
      | _ => hiR) else hiR
    match x with
    | .inf b =>
      if t.infPass && (match f with | .fl g => g.top == .ieee | _ => false) then
        (match f with | .fl g => ⟨g.inf b, 0⟩ | _ => ⟨0, 0⟩)
      else
        let v := if b then lo else hiR
        ⟨f.encode b v.1 v.2, 32⟩
    | .fin b n d =>
      let e := pow2 (127 - (t.scale : Int))
      let n := n * e.1
      let d := d * e.2
      let (y, exact) := f.roundUp m b n d
      let lim := if b then lo else hiR
      let fl : Flags := if exact then 0 else 16
      let fl := if !exact && n != 0 && f.tinyBelow (if m.rnd == .rs then .rn else m) b n d then fl ||| 8 else fl
      if lim.1 * y.2 < y.1 * lim.2 then ⟨f.encode b lim.1 lim.2, fl ||| 32⟩
      else ⟨f.encode b y.1 y.2, fl⟩
    | .nan _ => ⟨0, 0⟩

/-- A decoded element with its E8M0 scale (R221, R322): a scale of 0xFF gives NaN. -/
def decodeScaled (f : EFmt) (scale x : Nat) : Num :=
  if scale = 0xFF then .nan false else Num.scale (f.decode x) ((scale : Int) - 127)

end Sys2Proof.Machine
end

