-- ==== Sys2Proof/Machine/Memory.lean ====
section
/-! DEFINITION. Memory as a canonical list of cells, the physical address classes, and the check bits of a block.
Covers R12, R13, R125 to R131, R136 and R137; what memory holds after power-on is assumption log 1. -/

namespace Sys2Proof.Machine

/-! ## Cells -/

/-- What an address that is not listed reads as (assumption log 1). -/
def unlisted : Byte := 0

/-- Addresses strictly rising from `lo`, and no entry equal to what an unlisted address reads as. -/
def memWfFrom (lo : Nat) : List Host.Cell → Bool
  | [] => true
  | (a, b) :: r => decide (lo ≤ a) && b != unlisted && memWfFrom (a + 1) r

/-- The canonical form of a memory. -/
def Memory.wf (m : List Host.Cell) : Bool := memWfFrom 0 m

/-- The byte at an address. -/
def getCell (a : Nat) : List Host.Cell → Byte
  | [] => unlisted
  | (j, x) :: r => if a = j then x else if a < j then unlisted else getCell a r

/-- Writes one byte, keeping the canonical form. -/
def setCell (a : Nat) (b : Byte) : List Host.Cell → List Host.Cell
  | [] => if b = unlisted then [] else [(a, b)]
  | (j, x) :: r =>
    if a < j then (if b = unlisted then (j, x) :: r else (a, b) :: (j, x) :: r)
    else if a = j then (if b = unlisted then r else (a, b) :: r)
    else (j, x) :: setCell a b r

def setCells (cs : List Host.Cell) (m : List Host.Cell) : List Host.Cell := cs.foldl (fun m c => setCell c.1 c.2 m) m

/-- `n` bytes from an address on. -/
def getCells (a : Nat) : Nat → List Host.Cell → List Byte
  | 0, _ => []
  | n + 1, m => getCell a m :: getCells (a + 1) n m

/-- The cells that bytes from an address on make. -/
def cellsAt (a : Nat) : List Byte → List Host.Cell
  | [] => []
  | b :: r => (a, b) :: cellsAt (a + 1) r

/-! ## Physical addresses (R12, R13) -/

/-- Where a physical address leads. -/
inductive Home where
  /-- HBM of this module: the die-local name of the byte -/
  | hbm (a : Nat)
  | reg (off : Nat)
  /-- host memory of link 0 or 1: bus address -/
  | host (link bus : Nat)
  /-- another module: module and striped offset -/
  | peer (m off : Nat)
  | bad
  deriving DecidableEq, Repr

/-- The die-local name of a striped offset: PA[15:12] is the die, PA[39:16] and PA[11:0] the stack offset. -/
def stripedHome (off : Nat) : Nat :=
  bits off 15 12 * 2 ^ 40 + bits off 39 16 * 4096 + bits off 11 0

/-- R12: the class of a 52-bit physical address, with the domain's modules and this module's number. -/
def homeOf (self : Nat) (domain : List Nat) (pa : Nat) : Home :=
  let cls := pa / 2 ^ 44
  if cls = 0 then (if bits pa 39 0 < Config.stackBytes then .hbm pa else .bad)
  else if cls = 1 then (if bits pa 43 40 = 0 then .hbm (stripedHome (bits pa 39 0)) else .bad)
  else if cls = 0x10 then .reg (bits pa 43 0)
  else if 0xA0 ≤ cls ∧ cls < 0xC0 then .host 0 (bits pa 48 0)
  else if 0xC0 ≤ cls ∧ cls < 0xE0 then .host 1 (bits pa 48 0)
  else if 0xE0 ≤ cls ∧ cls ≤ 0xFF then
    (let m := bits pa 48 40
     if m = self then .hbm (stripedHome (bits pa 39 0)) else if domain.contains m then .peer m (bits pa 39 0) else .bad)
  else .bad

/-- The compute die of a die-local name, and the offset within its stack. -/
def dieOf (a : Nat) : Nat := bits a 43 40
def stackOff (a : Nat) : Nat := bits a 39 0

/-- R36: the top 8 MiB of a stack. -/
def inCarveOut (a : Nat) : Bool := Config.stackBytes - Config.carveOut ≤ stackOff a && stackOff a < Config.stackBytes

/-- The key under which a byte of host memory stands: its link and translated address. -/
def hostKey (link addr : Nat) : Nat := (0xA0 + 0x20 * link) * 2 ^ 44 + addr % 2 ^ 49

/-! ## GF(2^8) and Reed-Solomon codes (R127) -/

/-- Product in GF(2^8) modulo x^8 + x^4 + x^3 + x^2 + 1, by the bits of `b` from the highest of `n`. -/
def gfMulFrom (a b : Nat) : Nat → Nat
  | 0 => 0
  | n + 1 =>
    let r := gfMulFrom a b n
    let d := r * 2
    let d := if 256 ≤ d then d ^^^ 0x11D else d
    if bitAt b (7 - n) then d ^^^ a else d

def gfMul (a b : Nat) : Nat := if a = 0 ∨ b = 0 then 0 else gfMulFrom a b 8

def gfPow (a : Nat) : Nat → Nat
  | 0 => 1
  | n + 1 => gfMul a (gfPow a n)

/-- a^254. -/
def gfInv (a : Nat) : Nat :=
  let a2 := gfMul a a
  let a3 := gfMul a2 a
  let a6 := gfMul a3 a3
  let a12 := gfMul a6 a6
  let a14 := gfMul a12 a2
  let a15 := gfMul a12 a3
  let a30 := gfMul a15 a15
  let a60 := gfMul a30 a30
  let a120 := gfMul a60 a60
  let a240 := gfMul a120 a120
  gfMul a240 a14

/-- The value at `x` of a polynomial given from its highest coefficient down. -/
def gfEval (p : List Nat) (x : Nat) : Nat := p.foldl (fun acc c => gfMul acc x ^^^ c) 0

/-- The value at `x` of a polynomial given from its lowest coefficient up. -/
def gfEvalUp (p : List Nat) (x : Nat) : Nat := p.foldr (fun c acc => gfMul acc x ^^^ c) 0

/-- Generator with roots alpha^0 to alpha^(c-1), highest coefficient first. -/
def rsGen : Nat → List Nat
  | 0 => [1]
  | c + 1 =>
    let g := rsGen c
    List.zipWith (fun a b => a ^^^ b) (g ++ [0]) (0 :: g.map (gfMul (gfPow 2 c)))

/-- One step of the division by the generator: `r` is the remainder, highest coefficient first. -/
def rsStep (g r : List Nat) (d : Nat) : List Nat :=
  let f := (r.headD 0) ^^^ d
  List.zipWith (fun a b => a ^^^ b) (r.tail ++ [0]) (g.tail.map (gfMul f))

/-- The `c` check symbols of data symbols. -/
def rsChecks (c : Nat) (data : List Nat) : List Nat := data.foldl (rsStep (rsGen c)) (List.replicate c 0)

def rsSyndromes (c : Nat) (cw : List Nat) : List Nat := (List.range c).map fun j => gfEval cw (gfPow 2 j)

structure RsSt where
  cp : List Nat
  bp : List Nat
  l : Nat
  m : Nat
  b : Nat

def xorUp (a b : List Nat) : List Nat := (List.range (Nat.max a.length b.length)).map fun i => a.getD i 0 ^^^ b.getD i 0

/-- One round of the shortest-register search. -/
def rsRound (syn : List Nat) (st : RsSt) (n : Nat) : RsSt :=
  let d := (List.range (st.l + 1)).foldl (fun acc i => acc ^^^ gfMul (st.cp.getD i 0) (syn.getD (n - i) 0)) 0
  if d = 0 then { st with m := st.m + 1 }
  else
    let cp := xorUp st.cp (List.replicate st.m 0 ++ st.bp.map (gfMul (gfMul d (gfInv st.b))))
    if 2 * st.l ≤ n then { cp := cp, bp := st.cp, l := n + 1 - st.l, m := 1, b := d }
    else { st with cp := cp, m := st.m + 1 }

/-- Decodes a word of data and check symbols with `c` checks: the corrected symbols, or none where the code fails. -/
def rsDecode (c : Nat) (cw : List Nat) : Option (List Nat) :=
  let syn := rsSyndromes c cw
  if syn.all (· == 0) then some cw
  else
    let st := (List.range c).foldl (rsRound syn) { cp := [1], bp := [1], l := 0, m := 1, b := 1 }
    if c / 2 < st.l then none
    else
      let n := cw.length
      let om := (List.range c).map fun k =>
        (List.range (k + 1)).foldl (fun acc i => acc ^^^ gfMul (st.cp.getD i 0) (syn.getD (k - i) 0)) 0
      let dp := (List.range st.cp.length).map fun i => if i % 2 = 0 then st.cp.getD (i + 1) 0 else 0
      let fix := (List.range n).map fun i =>
        let x := gfPow 2 (n - 1 - i)
        let xi := gfInv x
        if gfEvalUp st.cp xi = 0 then some (gfMul x (gfMul (gfEvalUp om xi) (gfInv (gfEvalUp dp xi)))) else none
      if (fix.filter Option.isSome).length ≠ st.l then none
      else some (List.zipWith (fun s e => s ^^^ e.getD 0) cw fix)

/-! ## SEC-DED words (R127) -/

def isPow2 (n : Nat) : Bool := [1, 2, 4, 8, 16, 32, 64].contains n

/-- Positions of `n` data bits: 1, 2, 3, ... without the powers of two. -/
def hamPositions (n : Nat) : List Nat := ((List.range 129).filter fun p => p != 0 && !isPow2 p).take n

/-- The 7 check bits of data bits, as a number, and the parity of the whole word as bit 7. -/
def hamCode (data : List Bool) : Nat :=
  let syn := (List.zip (hamPositions data.length) data).foldl (fun acc e => if e.2 then acc ^^^ e.1 else acc) 0
  let ones := (data.filter id).length + ((List.range 7).filter (bitAt syn)).length
  syn + 128 * (ones % 2)

/-- The corrected data bits, or none where two bits fail. -/
def hamDecode (data : List Bool) (code : Nat) : Option (List Bool) :=
  let pos := hamPositions data.length
  let syn := (List.zip pos data).foldl (fun acc e => if e.2 then acc ^^^ e.1 else acc) 0 ^^^ (code % 128)
  let par := ((data.filter id).length + ((List.range 8).filter (bitAt code)).length) % 2
  if par = 0 then (if syn = 0 then some data else none)
  else if syn = 0 ∨ isPow2 syn then some data
  else if pos.contains syn then some (List.zipWith (fun p b => if p = syn then !b else b) pos data)
  else none

/-- A read of the word corrects a bit, of its data or of its check bits. -/
def hamFixes (data : List Bool) (code : Nat) : Bool := (hamDecode data code).isSome && hamCode data != code

/-! ## Layouts (R126, R128) -/

/-- Element width and count, S, M and L ranges as (high, low) bits, Reed-Solomon checks, number of SEC-DED words. -/
structure Layout where
  w : Nat
  n : Nat
  s : Nat × Nat
  m : Nat × Nat
  l : Option (Nat × Nat)
  c : Nat
  sec : Nat

/-- none for RAW and SELF. -/
def layoutOf (code : Nat) : Option Layout :=
  match code with
  | 1 => some ⟨32, 16, (31, 23), (22, 12), some (11, 0), 4, 2⟩
  | 2 => some ⟨16, 32, (15, 10), (9, 5), some (4, 0), 4, 2⟩
  | 3 => some ⟨16, 32, (15, 7), (6, 3), some (2, 0), 4, 2⟩
  | 4 => some ⟨8, 64, (7, 3), (2, 1), some (0, 0), 4, 2⟩
  | 5 => some ⟨8, 64, (7, 2), (1, 1), some (0, 0), 5, 1⟩
  | 6 => some ⟨6, 85, (5, 2), (1, 1), some (0, 0), 5, 1⟩
  | 7 => some ⟨6, 85, (5, 3), (2, 1), some (0, 0), 4, 2⟩
  | 8 => some ⟨4, 128, (3, 1), (0, 0), none, 6, 2⟩
  | 9 => some ⟨8, 64, (7, 5), (4, 2), some (1, 0), 4, 2⟩
  | 10 => some ⟨8, 64, (7, 3), (2, 1), some (0, 0), 4, 2⟩
  | 11 => some ⟨6, 85, (5, 2), (1, 1), some (0, 0), 5, 1⟩
  | _ => none

/-- Element i of a block. -/
def Layout.elem (y : Layout) (data i : Nat) : Nat := (data / 2 ^ (y.w * i)) % 2 ^ y.w

/-- The bits of a range of an element from its highest bit downwards. -/
def bitsDown (x : Nat) (r : Nat × Nat) : List Bool := (List.range (r.1 + 1 - r.2)).map fun j => bitAt x (r.1 - j)

/-- Symbols of a bit string, bit 0 of symbol 0 first, the last padded with zeros. -/
def symbols : Nat → List Bool → List Nat
  | 0, _ => []
  | n + 1, l => (l.take 8).foldr (fun b acc => b.toNat + 2 * acc) 0 :: symbols n (l.drop 8)

def unsymbols (l : List Nat) : List Bool := l.flatMap fun s => (List.range 8).map (bitAt s)

def Layout.sString (y : Layout) (data : Nat) : List Bool := (List.range y.n).flatMap fun i => bitsDown (y.elem data i) y.s

def Layout.sSymbols (y : Layout) (data : Nat) : List Nat :=
  let b := y.sString data
  symbols ((b.length + 7) / 8) b

/-- The elements that SEC-DED word `k` covers (R128: 0 to 42 first for E2M3). -/
def Layout.secElems (y : Layout) (k : Nat) : List Nat :=
  if y.sec = 1 then List.range y.n
  else
    let h := (y.n + 1) / 2
    if k = 0 then List.range h else (List.range (y.n - h)).map (· + h)

def Layout.mBits (y : Layout) (data k : Nat) : List Bool := (y.secElems k).flatMap fun i => bitsDown (y.elem data i) y.m

/-- Bit j of the L parity. -/
def Layout.lParity (y : Layout) (data j : Nat) : Bool :=
  match y.l with
  | none => false
  | some r => ((List.range y.n).filter (fun i => i % 16 == j)).foldl
      (fun acc i => (bitsDown (y.elem data i) r).foldl Bool.xor acc) false

def fromBytes (l : List Nat) : Nat := l.foldr (fun b acc => b + 256 * acc) 0

/-- The 64 data bytes of a block as symbols. -/
def blockBytes (data : Nat) : List Nat := (List.range 64).map fun i => (data / 256 ^ i) % 256

/-- The metadata of correct data under a layout code (0 to 12), with a descriptor for SELF. -/
def encodeMeta (code data : Nat) (desc : BitVec 16) : Nat :=
  match layoutOf code with
  | none =>
    if code = 12 then
      fromBytes (rsChecks 6 (blockBytes data ++ [desc.toNat % 256, desc.toNat / 256])) + 2 ^ 48 * desc.toNat
    else fromBytes (rsChecks 8 (blockBytes data))
  | some y =>
    let rs := fromBytes (rsChecks y.c (y.sSymbols data))
    let sec := (List.range y.sec).foldl (fun acc k => acc + 256 ^ k * hamCode (y.mBits data k)) 0
    let lp := match y.l with
      | none => 0
      | some _ => (List.range 16).foldl (fun acc j => acc + (y.lParity data j).toNat * 2 ^ j) 0
    rs + 2 ^ (8 * y.c) * sec + 2 ^ (8 * y.c + 8 * y.sec) * lp

/-- What a read of a block gives: the data, the descriptor, and for each severity class the bits of the affected elements. -/
structure BlockRead where
  data : Nat
  desc : BitVec 16
  sev : List Nat
  corrected : Bool
  integ : Bool
  badMac : Bool

def allBits : Nat := 2 ^ 512 - 1

def setElem (w data i x : Nat) : Nat := data - ((data / 2 ^ (w * i)) % 2 ^ w) * 2 ^ (w * i) + x * 2 ^ (w * i)

/-- Puts back a range of bits (from the highest down) of an element. -/
def putBits (x : Nat) (r : Nat × Nat) (b : List Bool) : Nat :=
  let v := b.foldl (fun acc t => 2 * acc + t.toNat) 0
  x - bits x r.1 r.2 * 2 ^ r.2 + v * 2 ^ r.2

def putElems (y : Layout) (r : Nat × Nat) (data : Nat) : List Nat → List Bool → Nat
  | [], _ => data
  | i :: is, b =>
    let k := r.1 + 1 - r.2
    putElems y r (setElem y.w data i (putBits (y.elem data i) r (b.take k))) is (b.drop k)

def elemMask (y : Layout) (is : List Nat) : Nat := is.foldl (fun acc i => acc + (2 ^ y.w - 1) * 2 ^ (y.w * i)) 0

/-- R131: bits whose all being equal puts an element's exponent bit outside S, in TP8 and TP6. -/
def tpUniform (code x : Nat) : Bool :=
  if code = 10 then (bits x 6 4 == 0 || bits x 6 4 == 7) else if code = 11 then (bits x 4 3 == 0 || bits x 4 3 == 3) else false

/-- Decodes stored data and metadata under an element layout (R127, R131). -/
def decodeElems (code : Nat) (y : Layout) (data mt : Nat) : BlockRead :=
  let sy := y.sSymbols data
  let ck := (List.range y.c).map fun i => (mt / 256 ^ i) % 256
  let rs := rsDecode y.c (sy ++ ck)
  let d1 := match rs with
    | none => data
    | some cw => putElems y y.s data (List.range y.n) (unsymbols (cw.take sy.length))
  let secs := (List.range y.sec).map fun k => (k, hamDecode (y.mBits data k) ((mt / 2 ^ (8 * y.c + 8 * k)) % 256))
  let d2 := secs.foldl (fun d e => match e.2 with
    | none => d
    | some b => putElems y y.m d (y.secElems e.1) b) d1
  let lFail := (List.range 16).filter fun j =>
    y.l.isSome && (y.lParity data j != bitAt mt (8 * y.c + 8 * y.sec + j))
  let sMask := if rs.isNone then elemMask y (List.range y.n) else 0
  let mWords := (secs.filter fun e => e.2.isNone).map fun e => y.secElems e.1
  let lWords := lFail.map fun j => (List.range y.n).filter fun i => i % 16 == j
  let raised := (mWords ++ lWords).filter fun is => is.any fun i => tpUniform code (y.elem d2 i)
  let m1 := mWords.foldl (fun acc is => acc ||| elemMask y is) 0
  let m0 := lWords.foldl (fun acc is => acc ||| elemMask y is) 0
  let m2 := raised.foldl (fun acc is => acc ||| elemMask y is) sMask
  let pad := 2 ^ (y.w * y.n)
  let fixes := (sy ++ ck) != rs.getD (sy ++ ck)
    || (List.range y.sec).any fun k => hamFixes (y.mBits data k) ((mt / 2 ^ (8 * y.c + 8 * k)) % 256)
  { data := d2 % pad, desc := 0, sev := [m0, m1, m2, 0], corrected := fixes, integ := false, badMac := false }

/-- Decodes stored data and metadata under a layout code. -/
def decodeBlock (code data mt : Nat) : BlockRead :=
  match layoutOf code with
  | some y => decodeElems code y data mt
  | none =>
    let c := if code = 12 then 6 else 8
    let sy := blockBytes data ++ (if code = 12 then [(mt / 2 ^ 48) % 256, (mt / 2 ^ 56) % 256] else [])
    let ck := (List.range c).map fun i => (mt / 256 ^ i) % 256
    match rsDecode c (sy ++ ck) with
    | none => { data := data, desc := BitVec.ofNat 16 (mt / 2 ^ 48), sev := [0, 0, 0, allBits], corrected := false, integ := false, badMac := false }
    | some cw => { data := fromBytes (cw.take 64), desc := BitVec.ofNat 16 (fromBytes ((cw.drop 64).take 2)), sev := [0, 0, 0, 0],
                   corrected := cw != sy ++ ck, integ := false, badMac := false }

/-! ## Stored bits (R125, R136) -/

/-- The data bits that stand in HBM: ciphertext under a key. -/
def storedData (b : Block) (blk data : Nat) : Nat := (if b.key = 0 then data else Config.encrypt b.key blk data) ^^^ b.flipD

/-- The MAC and its Reed-Solomon checks of an encrypted block. -/
def encMeta (mac ct : Nat) : Nat :=
  let m := (List.range 4).map fun i => (mac / 256 ^ i) % 256
  fromBytes (rsChecks 4 (blockBytes ct ++ m)) + 2 ^ 32 * mac

/-- The metadata bits that stand in HBM. A MAC that does not match has its bit 0 changed (assumption log 75). -/
def storedMeta (b : Block) (blk data : Nat) : Nat :=
  (if b.key = 0 then encodeMeta b.layout data b.desc
   else
    let ct := Config.encrypt b.key blk data
    encMeta (Config.mac b.key blk ct ^^^ b.badMac.toNat) ct) ^^^ b.flipM

/-- R137: what a reader under `key` makes of a decoded ciphertext and MAC; under no key it gets the ciphertext itself (R40). -/
def openEnc (key blk ct mac : Nat) (fixed : Bool) : BlockRead :=
  { data := if key = Config.noKey then ct else Config.decrypt key blk ct, desc := 0, sev := [0, 0, 0, 0], corrected := fixed, integ := false,
    badMac := key != Config.noKey && mac != Config.mac key blk ct }

/-- A block whose Reed-Solomon code fails: nothing is known of its integrity (R137). -/
def encFailed (data : Nat) : BlockRead :=
  { data := data, desc := 0, sev := [0, 0, 0, allBits], corrected := false, integ := true, badMac := false }

/-- An encrypted block under the key that wrote it: the code is linear, so the error pattern alone decides, and a pattern that is corrected leaves the data as written. -/
def decodeEnc (b : Block) (blk data : Nat) : BlockRead :=
  let sy := blockBytes b.flipD ++ (List.range 4).map fun i => (b.flipM / 256 ^ (4 + i)) % 256
  let ck := (List.range 4).map fun i => (b.flipM / 256 ^ i) % 256
  match rsDecode 4 (sy ++ ck) with
  | none => encFailed data
  | some cw =>
    let fixed := cw != sy ++ ck
    if (cw.take 68).all (· == 0) then { data := data, desc := 0, sev := [0, 0, 0, 0], corrected := fixed, integ := false, badMac := b.badMac }
    else
      let ct := Config.encrypt b.key blk data
      openEnc b.key blk (ct ^^^ fromBytes (cw.take 64)) (Config.mac b.key blk ct ^^^ b.badMac.toNat ^^^ fromBytes ((cw.drop 64).take 4)) fixed

/-- A block read through an entry with a key, whatever it was written under. -/
def decodeKeyed (key blk ct mt : Nat) : BlockRead :=
  let sy := blockBytes ct ++ (List.range 4).map fun i => (mt / 256 ^ (4 + i)) % 256
  let ck := (List.range 4).map fun i => (mt / 256 ^ i) % 256
  match rsDecode 4 (sy ++ ck) with
  | none => encFailed ct
  | some cw => openEnc key blk (fromBytes (cw.take 64)) (fromBytes ((cw.drop 64).take 4)) (cw != sy ++ ck)

/-- R126: the layouts of six-bit elements, whose two highest bits are pad. -/
def sixBit (code : Nat) : Bool := code == 6 || code == 7 || code == 11

/-- R126: pad bits are written as zero. -/
def trimPad (layout blk : Nat) (m : List Host.Cell) : List Host.Cell :=
  if sixBit layout then setCell (64 * blk + 63) (getCell (64 * blk + 63) m &&& 0x3F) m else m

/-- R126: pad bits are read as zero. -/
def BlockRead.trim (code : Nat) (r : BlockRead) : BlockRead :=
  if sixBit code then { r with data := r.data % 2 ^ 510 } else r

/-- A read of block `blk` under a layout and key, before the pad bits are cleared. -/
def readBlockRaw (b : Block) (blk code key data : Nat) : BlockRead :=
  if b.poison then { data := storedData b blk data, desc := b.desc, sev := [0, 0, 0, allBits], corrected := false, integ := false, badMac := false }
  else if key ≠ 0 then (if b.key = key then decodeEnc b blk data else decodeKeyed key blk (storedData b blk data) (storedMeta b blk data))
  else if b.layout = code ∧ b.key = 0 ∧ b.flipD = 0 ∧ b.flipM = 0 then
    { data := data, desc := b.desc, sev := [0, 0, 0, 0], corrected := false, integ := false, badMac := false }
  else if b = Block.plain ∧ data = 0 then
    { data := 0, desc := 0, sev := [0, 0, 0, 0], corrected := false, integ := false, badMac := false }
  else decodeBlock code (storedData b blk data) (storedMeta b blk data)

/-- R126, R130, R131: a read of block `blk` under a layout and key. `data` is the block as written. -/
def readBlock (b : Block) (blk code key data : Nat) : BlockRead := (readBlockRaw b blk code key data).trim code

/-- The highest class that a read of the bits of `mask` sees (R131), if any. -/
def seenClass (r : BlockRead) (mask : Nat) : Option Nat :=
  if r.sev.getD 3 0 &&& mask ≠ 0 then some 3
  else if r.sev.getD 2 0 &&& mask ≠ 0 then some 2
  else if r.sev.getD 1 0 &&& mask ≠ 0 then some 1
  else if r.sev.getD 0 0 &&& mask ≠ 0 then some 0
  else none

/-- The bits of every affected element. -/
def affectedMask (r : BlockRead) : Nat := r.sev.foldl (fun a b => a ||| b) 0

/-- The block data as a number. -/
def blockData (m : List Host.Cell) (blk : Nat) : Nat := leNat (getCells (64 * blk) 64 m)

end Sys2Proof.Machine
end

