-- ==== Sys2Proof/Machine/Ops.lean ====
section
/-! DEFINITION. Named operations over the state: reading and changing threads, warps, workgroups, gangs, regions and contexts;
records to the host (R59 to R61); monitors (R186 to R198); rollback (R138 to R143); killing (R242) and TAKING A TRAP (R243 to R245) with the return from one (R246). -/

namespace Sys2Proof.Machine

/-! ## Finding and changing -/

def getT (s : State) (t : Tid) : Option Thread := s.threads.find? fun x => x.tid == t

/-- Changes one thread. -/
def modT (s : State) (t : Tid) (f : Thread → Thread) : State :=
  { s with threads := updIf (fun x => x.tid == t) f s.threads }

def getWarp (s : State) (core slot : Nat) : Option Warp := s.warps.find? fun w => w.core == core && w.slot == slot

def modWarp (s : State) (core slot : Nat) (f : Warp → Warp) : State :=
  { s with warps := updIf (fun w => w.core == core && w.slot == slot) f s.warps }

def getWg (s : State) (id : Nat) : Option Workgroup := s.wgs.find? fun w => w.id == id

def modWg (s : State) (id : Nat) (f : Workgroup → Workgroup) : State := { s with wgs := updIf (fun w => w.id == id) f s.wgs }

def getGang (s : State) (id : Nat) : Option Gang := s.gangs.find? fun g => g.id == id

def modGang (s : State) (id : Nat) (f : Gang → Gang) : State := { s with gangs := updIf (fun g => g.id == id) f s.gangs }

def getLaunch (s : State) (id : Nat) : Option Launch := s.launches.find? fun l => l.id == id

def modLaunch (s : State) (id : Nat) (f : Launch → Launch) : State :=
  { s with launches := updIf (fun l => l.id == id) f s.launches }

def getCtx (s : State) (pasid : Nat) : Option Context := s.contexts.find? fun c => c.pasid == pasid

def modCtx (s : State) (pasid : Nat) (f : Context → Context) : State :=
  { s with contexts := updIf (fun c => c.pasid == pasid) f s.contexts }

def getCore (s : State) (n : Nat) : Core := kget Core.idle n s.cores

def modCore (s : State) (n : Nat) (f : Core → Core) : State := { s with cores := kset n (f (getCore s n)) s.cores }

def getQueue (s : State) (q : Nat) : Queue := kget Queue.off q s.queues

def modQueue (s : State) (q : Nat) (f : Queue → Queue) : State := { s with queues := kset q (f (getQueue s q)) s.queues }

def getLink (s : State) (l : Nat) : Link := s.links.getD l Link.reset

def modLink (s : State) (l : Nat) (f : Link → Link) : State := { s with links := s.links.set l (f (getLink s l)) }

def getPort (s : State) (p : Nat) : Port := s.ports.getD p Port.reset

def modPort (s : State) (p : Nat) (f : Port → Port) : State := { s with ports := s.ports.set p (f (getPort s p)) }

/-- A fresh identifier. -/
def newId (s : State) : State × Nat := ({ s with ids := s.ids + 1 }, s.ids + 1)

/-- The next free value (assumption log 2). -/
def freeValue (s : State) : State × Word := ({ s with freeCtr := s.freeCtr + 1 }, Config.freeWord s.freeCtr)

/-- `n` free bytes, eight to a free value. -/
def freeBytes (s : State) (n : Nat) : State × List Byte :=
  ({ s with freeCtr := s.freeCtr + (n + 7) / 8 },
   (List.range n).map fun i => BitVec.ofNat 8 ((Config.freeWord (s.freeCtr + i / 8)).toNat / 256 ^ (i % 8)))

/-! ## Cores, clusters and dies (R10) -/

def coreDie (core : Nat) : Nat := core / 100
def coreCluster (core : Nat) : Nat := (core % 100) / 4
/-- A cluster's number in the module: die * 25 + cluster. -/
def clusterId (core : Nat) : Nat := core / 4
def reservedCore (core : Nat) : Bool := core % 100 == 0
def dieIn (s : State) (d : Nat) : Bool := d < 16 && s.fw.diesOk.getLsbD d

/-- R9: dies that a bridge joins: neighbours in the 4 by 4 mesh, and each port die (16 north, 17 south) with the row of dies beside it. -/
def bridged (a b : Nat) : Bool :=
  let mesh := fun (x y : Nat) => decide (x < 16) && decide (y < 16) && ((x / 4 == y / 4 && x + 1 == y) || x + 4 == y)
  let port := fun (d k : Nat) => (k == 16 && decide (d < 4)) || (k == 17 && decide (12 ≤ d) && decide (d < 16))
  mesh a b || mesh b a || port a b || port b a

/-- R9: the port die of a Vexari Link port; PCI Express link `k` and its fetcher are on port die `k`. -/
def portDie (p : Nat) : Nat := p / 8
def portDieIn (s : State) (k : Nat) : Bool := k < 2 && s.fw.portDiesOk.getLsbD k

/-- R30: the die whose monitor signs for the ports of a port die. -/
def signerDie (s : State) (k : Nat) : Option Nat := (if k = 0 then [1, 0, 2, 3] else [13, 12, 14, 15]).find? (dieIn s)

/-- The next die in service from `d`, in ascending order, wrapping (R186). -/
def nextDie (s : State) (d : Nat) : Nat := (((List.range 16).map fun i => (d + i) % 16).find? (dieIn s)).getD d

/-! ## Regions (R67 to R73) -/

def Rcb.zero : Rcb :=
  { parent := 0, inherit_ := 0, quota := 0xFFFFFFFF, maxCores := 1600, maxOp := 0xFFFF, ringBase := 0, ringBytes := 0, cls := 0, weight := 1,
    sev := 0, rollback := false, killScope := 0, idem := false, race := false, redund := 0, inject := false, tanK := 0, wd := 0,
    trapVec := 0, saveBase := 0, saveBytes := 0, tanOff := [], colourTable := 0, bufTable := 0, bufSlots := 0 }

def getRegion (s : State) (pasid : Nat) (addr : Word) : Option Region :=
  s.regions.find? fun r => r.pasid == pasid && r.addr == addr && r.live

/-- A node's own fields over the effective values of its parent (R69). -/
def inheritFrom (p r : Rcb) : Rcb :=
  let b := fun i => r.inherit_.getLsbD i
  { r with
    quota := if b 0 then r.quota else p.quota
    maxCores := if b 1 then r.maxCores else p.maxCores
    maxOp := if b 2 then r.maxOp else p.maxOp
    ringBase := if b 3 then r.ringBase else p.ringBase
    ringBytes := if b 3 then r.ringBytes else p.ringBytes
    cls := if b 4 then r.cls else p.cls
    weight := if b 5 then r.weight else p.weight
    sev := if b 6 then r.sev else p.sev
    rollback := if b 7 then r.rollback else p.rollback
    killScope := if b 8 then r.killScope else p.killScope
    wd := if b 9 then r.wd else p.wd
    trapVec := if b 10 then r.trapVec else p.trapVec
    saveBase := if b 10 then r.saveBase else p.saveBase
    saveBytes := if b 10 then r.saveBytes else p.saveBytes
    tanK := if b 11 then r.tanK else p.tanK
    tanOff := if b 11 then r.tanOff else p.tanOff
    race := if b 12 then r.race else p.race
    idem := if b 13 then r.idem else p.idem
    redund := if b 14 then r.redund else p.redund
    inject := if b 15 then r.inject else p.inject
    colourTable := if b 16 then r.colourTable else p.colourTable
    bufTable := if b 17 then r.bufTable else p.bufTable
    bufSlots := if b 17 then r.bufSlots else p.bufSlots }

/-- The effective values of a region, through at most `fuel` ancestors. -/
def effectiveFrom (s : State) (pasid : Nat) : Nat → Word → Rcb
  | 0, _ => Rcb.zero
  | fuel + 1, addr =>
    match getRegion s pasid addr with
    | none => Rcb.zero
    | some r => if r.rcb.parent == 0 then r.rcb else inheritFrom (effectiveFrom s pasid fuel r.rcb.parent) r.rcb

def effective (s : State) (pasid : Nat) (addr : Word) : Rcb := effectiveFrom s pasid (s.regions.length + 1) addr

/-- The chain of a region and its ancestors. -/
def ancestorsFrom (s : State) (pasid : Nat) : Nat → Word → List Word
  | 0, _ => []
  | fuel + 1, addr =>
    match getRegion s pasid addr with
    | none => []
    | some r => addr :: (if r.rcb.parent == 0 then [] else ancestorsFrom s pasid fuel r.rcb.parent)

def ancestors (s : State) (pasid : Nat) (addr : Word) : List Word := ancestorsFrom s pasid (s.regions.length + 1) addr

/-- `addr` lies in the subtree of `top`. -/
def inSubtree (s : State) (pasid : Nat) (top addr : Word) : Bool := (ancestors s pasid addr).contains top

def rootRegion (s : State) (pasid : Nat) : Option Region :=
  s.regions.find? fun r => r.pasid == pasid && r.live && r.rcb.parent == 0

/-- Watchdog of a region: 2^wd_log2 cycles, 0 meaning 24 (R67). -/
def wdLog2 (r : Rcb) : Nat := if r.wd = 0 then 24 else r.wd

/-- Policy of a severity class: 0 DELIVER, 1 ZERO, 2 POISON, 3 KILL (R67). -/
def sevPolicy (sev : Byte) (c : Nat) : Nat := (sev.toNat / 4 ^ c) % 4

/-- Severity policy, kill scope and watchdog follow the committed region at once (R73). -/
def wgNow (s : State) (w : Workgroup) : Rcb := effective s w.pasid w.region

/-! ## Records to the host (R59 to R61) -/

/-- The PASID value that stands for the function's own address space (R20). -/
def ownSpace : Nat := 2 ^ 20

def atsFind (s : State) (link pasid page : Nat) : Option Nat :=
  ((getLink s link).atsCache.find? fun e => e.pasid == pasid && e.page == page).map (·.result)

/-- The translated key of a byte of host memory, if the port die holds its translation. -/
def hostAddr (s : State) (link pasid bus : Nat) : Option Nat :=
  (atsFind s link pasid (bus / 4096)).map fun p => hostKey link (p * 4096 + bus % 4096)

def pasidGen (s : State) (pasid : Nat) : Byte := ((getCtx s pasid).map (·.gen)).getD 0

/-- Asks for a translation, unless the same request is outstanding. -/
def atsAsk (s : State) (link pasid page : Nat) : State :=
  if (getLink s link).atsReqs.any fun r => r.pasid == pasid && r.page == page && r.gen == pasidGen s pasid then s
  else
    let (s, id) := newId s
    modLink s link fun l =>
      { l with atsReqs := l.atsReqs ++ [⟨id, pasid, page, pasidGen s pasid, s.ns + l.ctoNs, false⟩] }

/-- A cause code of a media error with integrity unknown: 256 more than its own (R137); of a second trap: 512 times its own more (R245). -/
def integCode (integ : Bool) (code : Nat) : Nat := code + 256 * integ.toNat

/-- The bytes of a record (R59). R137 puts integrity unknown in the record and R59 gives it no bit: it is bit 31 of bytes [7:4]; R245 puts the second trap's cause in the record: it is bits [27:20] of these bytes (assumption log 78). -/
def recordBytes (type_ code queue pasid : Nat) (addr : Word) (seq : W32) (ns : Nat) : List Byte :=
  [BitVec.ofNat 8 type_, BitVec.ofNat 8 code] ++ leBytes 2 queue ++ leBytes 4 (pasid % 2 ^ 20 + code / 512 % 256 * 2 ^ 20 + code / 256 % 2 * 2 ^ 31) ++ leBytes 8 addr.toNat
    ++ leBytes 4 seq.toNat ++ leBytes 4 0 ++ leBytes 8 ns

def ringOf (l : Link) (event : Bool) : HostRing := if event then l.eq else l.fq

def setRing (l : Link) (event : Bool) (r : HostRing) : Link := if event then { l with eq := r } else { l with fq := r }

/-- Writes one record to a ring, or asks for the ring's translation; the record then waits in its order (R60). R60 does not say what becomes of a record whose translation fails: it waits on, and the ring asks again (assumption log 47). -/
def putRecord (s : State) (x : HostRecord) : State × Bool :=
  let l := getLink s x.link
  let r := ringOf l x.event
  if !r.enable then (s, true)
  else if (r.tail - r.head).toNat = 2 ^ r.log2 then
    (modLink s x.link fun l => setRing l x.event { r with lost := satW32 r.lost }, true)
  else
    let bus := r.base.toNat + (r.tail.toNat % 2 ^ r.log2) * 32
    match hostAddr s x.link ownSpace bus with
    | none => (atsAsk s x.link ownSpace (bus / 4096), false)
    | some a =>
      let s := { s with mem := setCells (cellsAt a x.bytes) s.mem }
      (modLink s x.link fun l =>
        let l := setRing l x.event { r with tail := r.tail + 1 }
        if r.tail == r.head then { l with msix := l.msix ++ [if x.event then 1 else 0] } else l, true)

/-- Emits a record behind those that wait for the same ring. -/
def emit (s : State) (link : Nat) (event : Bool) (bytes : List Byte) : State :=
  let x : HostRecord := ⟨link, event, bytes⟩
  if !(ringOf (getLink s link) event).enable then s
  else if s.records.any fun y => y.link == link && y.event == event then { s with records := s.records ++ [x] }
  else
    let (s, ok) := putRecord s x
    if ok then s else { s with records := s.records ++ [x] }

/-- Writes the waiting records that can be written. -/
def flushRecords (s : State) : State :=
  let old := s.records
  old.foldl (fun s x => if s.records.any fun y => y.link == x.link && y.event == x.event then { s with records := s.records ++ [x] }
    else
      let (s, ok) := putRecord s x
      if ok then s else { s with records := s.records ++ [x] }) { s with records := [] }

def homeLink (s : State) (pasid : Nat) : Nat := ((getCtx s pasid).map (·.link)).getD 0

/-- A type-2 record about a context (R61). -/
def faultRecord (s : State) (pasid code : Nat) (addr : Word) : State :=
  emit s (homeLink s pasid) false (recordBytes 2 code 0xFFFF pasid addr 0 s.ns)

/-- A record about the whole module goes to both links (R61). -/
def moduleEvent (s : State) (type_ code : Nat) : State :=
  emit (emit s 0 true (recordBytes type_ code 0xFFFF 0 0 0 s.ns)) 1 true (recordBytes type_ code 0xFFFF 0 0 0 s.ns)

/-- Cycles in which a workgroup was not frozen. -/
def wgClock (s : State) (w : Workgroup) : Nat :=
  if w.state == .frozen || w.state == .held then w.frozenAt - w.frozenFor else s.now - w.frozenFor

/-- The unfrozen cycles of a thread's workgroup. -/
def tidClock (s : State) (t : Tid) : Nat := match (getT s t).bind fun x => getWg s x.wg with
  | some w => wgClock s w
  | none => s.now

/-! ## Waking -/

/-- A wait that is tested again whenever something on the core has changed. -/
def WaitFor.retest : WaitFor → Bool
  | .reg => true
  | .clause => true
  | .push => true
  | .release => true
  | .resource => true
  | _ => false

/-- Threads of a core that wait for something that may have come issue their word again (R166). -/
def wakeCore (s : State) (core : Nat) : State :=
  { s with threads := updIf (fun t => t.tid.core == core && (match t.run with
      | .waiting w => w.retest
      | _ => false)) (fun t => { t with run := .ready, able := s.now }) s.threads }

def wakeAll (s : State) : State :=
  { s with threads := updIf (fun t => match t.run with
      | .waiting w => w.retest
      | _ => false) (fun t => { t with run := .ready, able := s.now }) s.threads }

/-- A request that R188 turns away keeps the cycle at which it was made; every other wait ends it. -/
def retried (old : Option (BitVec 16 × Nat × Nat)) (clock now : Nat) : WaitFor → Option (BitVec 16 × Nat × Nat)
  | .colourRetry c _ => match old with
    | some (d, since, _) => some (c, if d = c then since else clock, now)
    | none => some (c, clock, now)
  | _ => none

/-- A thread leaves its group and waits at its word (R166). -/
def waitFor (s : State) (t : Tid) (w : WaitFor) : State :=
  modT s t fun x => { x with run := .waiting w, since := some (x.since.getD (tidClock s t)), retrying := retried x.retrying (tidClock s t) s.now w }

/-! ## Acquire, release and happens-before (R206 to R208) -/

def Scope.wide : Scope → Bool
  | .thr => false
  | .warp => false
  | .wg => false
  | _ => true

/-- R207: at cluster scope and wider an acquire invalidates the L1 lines of its core. -/
def acquire (s : State) (core : Nat) (sc : Scope) : State :=
  if Scope.wide sc then { s with l1 := s.l1.filter fun l => l.core != core } else s

/-- A thread joins a vector clock. -/
def joinVc (s : State) (t : Tid) (vc : List (Nat × Nat)) : State := modT s t fun x => { x with vc := vcJoin x.vc vc }

/-- A new sync-free region begins. -/
def bumpVc (s : State) (t : Tid) : State :=
  modT s t fun x => { x with vc := kset (Tid.key t) (kget 0 (Tid.key t) x.vc + 1) x.vc }

def vcOf (s : State) (t : Tid) : List (Nat × Nat) := ((getT s t).map (·.vc)).getD []

/-- `b` lies in the set that scope `sc` includes for `a` (R204). -/
def inScope (s : State) (sc : Scope) (a b : Tid) : Bool :=
  match sc with
  | .thr => a == b
  | .warp => a.core == b.core && a.slot == b.slot
  | .wg => ((getT s a).map (·.wg)) == ((getT s b).map (·.wg))
  | .cl => clusterId a.core == clusterId b.core
  | .die => coreDie a.core == coreDie b.core
  | .dev => true
  | .sys => true

/-- What of a thread's earlier accesses a release at scope `sc` still waits for (R206). -/
def releasePending (s : State) (t : Tid) (sc : Scope) : Bool :=
  s.loads.any (fun l => l.tid == t && l.kind != .unit_ && l.kind != .pop)
    || (Scope.wide sc && s.stores.any (fun x => x.tid == t && x.who.isNone))
    || s.sideLog.any (fun x => x.tid == t && (getT s t).all fun y => y.wg == x.wg)
    || s.compare.any (fun c => c.tid == t && (match c.effect with | .store .. => true | .log .. => true | _ => false))

/-! ## Monitors (R186 to R198) -/

/-- The home die of a colour (R186). -/
def colourHome (s : State) (e : ColourEntry) (c : BitVec 16) : Nat :=
  let d := if e.hashed then (c.toNat % 16) ^^^ (c.toNat / 16 % 16) ^^^ (c.toNat / 256 % 16) ^^^ (c.toNat / 4096) else e.home
  nextDie s d

def getMon (s : State) (pasid : Nat) (c : BitVec 16) : Option Monitor :=
  s.monitors.find? fun m => m.pasid == pasid && m.colour == c

def modMon (s : State) (pasid : Nat) (c : BitVec 16) (f : Monitor → Monitor) : State :=
  { s with monitors := updIf (fun m => m.pasid == pasid && m.colour == c) f s.monitors }

/-- Records of free monitors with nobody waiting go away (R188). -/
def sweepMonitors (s : State) : State :=
  { s with monitors := s.monitors.filter fun m => m.holder.isSome || !m.fifo.isEmpty || !m.cond.isEmpty || !m.reserved.isEmpty }

/-- Where the release of a colour stands among the synchronisation records: beyond every location. -/
def colourLoc (pasid : Nat) (c : BitVec 16) : Nat := 2 ^ 80 + pasid * 2 ^ 16 + c.toNat

/-- Two parties are each within the scope of the other (R208). -/
def mutualScope (s : State) (a : Tid) (sa : Scope) (b : Tid) (sb : Scope) : Bool := inScope s sa a b && inScope s sb b a

/-- A grant is ordered after the release that ended the previous hold, where both lie within the colour's scope (R192). -/
def joinColour (s : State) (t : Tid) (pasid : Nat) (c : BitVec 16) (sc : Scope) : State :=
  (s.syncs.filter fun e => e.addr == colourLoc pasid c).foldl (fun s e => if mutualScope s e.tid e.scope t sc then joinVc s t e.vc else s) s

/-- Grants a monitor to a waiter (R189, R195): the held-colour entry is pushed, Acquire performed, and the lane may issue its word again. -/
def grantTo (s : State) (m : Monitor) (w : Waiter) : State :=
  let s := modMon s m.pasid m.colour fun m =>
    { m with holder := some w.tid, count := m.count + 1, fifo := m.fifo.filter fun x => x.tid != w.tid }
  let s := joinColour (acquire s w.core m.scope) w.tid m.pasid m.colour m.scope
  modT s w.tid fun t =>
    { t with held := (m.colour, w.depth.getD t.depth) :: t.held, run := .ready, able := s.now, since := none, retrying := none, passed := w.depth.isSome }

/-- Frees a monitor, or grants it to the head of its FIFO (R190, R193 rule 5). -/
def freeMonitor (s : State) (pasid : Nat) (c : BitVec 16) : State :=
  match getMon s pasid c with
  | none => s
  | some m =>
    match m.fifo with
    | [] => sweepMonitors (modMon s pasid c fun m => { m with holder := none })
    | w :: _ => grantTo s m w

/-- A monitor freed with no release ordering (R191, R200): what its last release published orders nothing after it. -/
def dropMonitor (s : State) (pasid : Nat) (c : BitVec 16) : State :=
  freeMonitor { s with syncs := s.syncs.filter fun e => e.addr != colourLoc pasid c } pasid c

/-- Release of one held colour with its ordering: it publishes the releaser's clock at the colour's scope (R190, R192). -/
def releaseColour (s : State) (pasid : Nat) (t : Tid) (c : BitVec 16) : State :=
  let sc := ((getMon s pasid c).map (·.scope)).getD .dev
  let s := { s with syncs := (s.syncs.filter fun e => e.addr != colourLoc pasid c) ++ [⟨colourLoc pasid c, sc, t, vcOf s t⟩] }
  let s := modT s t fun x => { x with held := x.held.filter fun h => h.1 != c }
  freeMonitor (bumpVc s t) pasid c

/-- Whether the waits of R190 hold for the colours `cs` of a thread, and those of a release at a colour's scope (R206). -/
def colourReleaseReady (s : State) (t : Tid) (cs : List (BitVec 16)) : Bool :=
  cs.isEmpty ||
    (!(s.engines.any fun e => e.tid == t && e.held.any fun c => cs.contains c)
      && !(s.streams.any fun e => e.tid == t && e.held.any fun c => cs.contains c)
      && !releasePending s t .dev
      && !(s.compare.any fun e => e.tid == t && e.colours.any fun c => cs.contains c))

/-- Effective class of a thread: its region's, raised by the waiters of the colours it holds under priority inheritance (R87, R194). A chain of waits holds each thread once, so as many rounds as there are threads follow it to its end. -/
def threadClassFrom (s : State) : Nat → Tid → Nat
  | 0, _ => 0
  | fuel + 1, t =>
    match getT s t with
    | none => 0
    | some x =>
      match getWg s x.wg with
      | none => 0
      | some w =>
        x.held.foldl (fun a h =>
          match getMon s w.pasid h.1 with
          | none => a
          | some m => if m.pi then m.fifo.foldl (fun a y => Nat.max a (threadClassFrom s fuel y.tid)) a else a) (wgNow s w).cls

def threadClass (s : State) (t : Tid) : Nat := threadClassFrom s (s.threads.length + 1) t

def wgClass (s : State) (w : Workgroup) : Nat :=
  (s.threads.filter fun t => t.wg == w.id).foldl (fun a t => Nat.max a (threadClass s t.tid)) (wgNow s w).cls

/-- The thread leaves every acquire FIFO and condition list. -/
def leaveLists (s : State) (t : Tid) : State :=
  sweepMonitors { s with monitors := s.monitors.map fun m =>
    { m with fifo := m.fifo.filter fun w => w.tid != t, cond := m.cond.filter fun w => w.tid != t, reserved := m.reserved.filter fun x => x != t } }

/-- A lane that is held for lane `t` no longer waits for it; held for it alone, it issues its word again (R325). -/
def notHeldFor (t : Tid) (now : Nat) (x : Thread) : Thread :=
  match x.run with
  | .waiting (.xlane l) =>
    let rest := l.filter fun y => y != t
    if rest.isEmpty then { x with run := .ready, able := now } else { x with run := .waiting (.xlane rest) }
  | _ => x

/-- A lane has left its handler by ERET or EXIT, or is killed: lanes held for it go on (R325). -/
def releaseHeld (s : State) (t : Tid) : State := { s with threads := s.threads.map (notHeldFor t s.now) }

/-! ## Rollback (R138 to R143) -/

def wgThreads (s : State) (id : Nat) : List Thread := s.threads.filter fun t => t.wg == id

def wgWarps (s : State) (id : Nat) : List Warp := s.warps.filter fun w => w.wg == id

def Epoch.empty : Epoch := ⟨[], [], [], [], [], [], [], [], false, false, 0, 0, false⟩

/-- Starts an epoch: saves the small state, empties the undo log, clears the pin and the retries (R138). -/
def startEpoch (s : State) (id : Nat) : State :=
  let s := { s with threads := updIf (fun t => t.wg == id) (fun t => { t with injected := false, atoms := 0 }) s.threads,
                    values := s.values.filter fun v => !(v.wg == id && v.atomic) }
  modWg s id fun w =>
    { w with
      chunks := w.chunks.map fun c => { c with fresh := false }
      epoch := { threads := wgThreads s id, warps := wgWarps s id, pad := w.pad, padPoison := w.padPoison, smap := w.smap,
                 chunks := w.chunks.map fun c => { c with fresh := false },
                 streams := s.streams.filter fun x => x.wg == id,
                 undo := [], pinned := false, overflow := false, retries := 0, number := w.epoch.number + 1, bad := false } }

/-- The interval is pinned (R141). -/
def pin (s : State) (id : Nat) : State := modWg s id fun w => { w with epoch := { w.epoch with pinned := true } }

/-- A write to an undo granule: the first in an interval takes a place in the log, or pins the interval (R139). -/
def touchGranule (s : State) (id g : Nat) : State :=
  match getWg s id with
  | none => s
  | some w =>
    if !w.rcb.rollback && w.rcb.redund == 0 then s
    else if w.epoch.undo.contains g || w.epoch.overflow then s
    else if w.epoch.undo.length < w.undoMax then modWg s id fun w => { w with epoch := { w.epoch with undo := g :: w.epoch.undo } }
    else modWg s id fun w => { w with epoch := { w.epoch with pinned := true, overflow := true } }

/-- Granules of a register of a warp and of its shadows (R139, R178): 2^20 on for windows, by component, warp and register. -/
def regGranules (shadows warp n : Nat) : List Nat := (List.range (shadows + 1)).map fun j => 2 ^ 20 + (j * 16 + warp) * 256 + n

/-- Restores one thread to the image of the epoch start: everything but the held colours, the injection flag and the clock. -/
def restoreThread (img t : Thread) : Thread :=
  { img with held := t.held, injected := t.injected, armed := none, vc := t.vc, notified := none, passed := false, since := none,
             able := t.able, mpoison := false, reedDue := t.reedDue, retrying := none, run := if t.run == .ended then .ready else if t.run == .killed then .killed else .ready }

/-! ## Killing (R242, R79, R179, R191) -/

/-- The reed of a workgroup: to the first waiting warp after the holder in cyclic order, or parked (R394). -/
def passReed (s : State) (id : Nat) : State :=
  match getWg s id with
  | none => s
  | some w =>
    let r := w.mx.reed
    let from_ := (r.holder.getD r.last)
    let order := (List.range w.nwarps).map fun i => (from_ + 1 + i) % w.nwarps
    let next := order.find? fun i => r.waiting.contains i
    let s := modWg s id fun w => { w with mx := { w.mx with reed :=
      { holder := next, last := from_, waiting := r.waiting.filter fun i => some i != next, since := wgClock s w } } }
    wakeCore s w.core

/-- Discards one workgroup: its threads, colours, lists, loads and buffers, and but for a pre-emption (`keepLog`) its log entries (R191, R179, R120). -/
def dropWg (s : State) (id : Nat) (keepLog : Bool := false) : State :=
  match getWg s id with
  | none => s
  | some w =>
    let ts := (wgThreads s id).filter fun t => t.run != .ended
    let s := ts.foldl (fun s t => leaveLists s t.tid) s
    let s := ts.foldl (fun s t =>
      let s := t.held.foldl (fun s h => dropMonitor (modT s t.tid fun x => { x with held := x.held.filter fun y => y.1 != h.1 }) w.pasid h.1) s
      releaseHeld (modT s t.tid fun x => { x with run := .killed, v := [], o := [], q := [], since := none }) t.tid) s
    let s := { s with
      loads := s.loads.filter fun l => !((getT s l.tid).any fun x => x.wg == id)
      sideLog := s.sideLog.filter fun l => keepLog || l.wg != id
      streams := s.streams.filter fun x => x.wg != id
      claims := s.claims.filter fun c => c.wg != id
      compare := s.compare.filter fun c => c.wg != id
      values := s.values.filter fun c => c.wg != id
      services := s.services.filter fun v => !(v.tids.any fun t => (getT s t).any fun x => x.wg == id)
      engines := (s.engines.filter fun e => !(e.wg == id && e.state != .running)).map fun e => if e.wg == id then { e with dead := true } else e
      cores := s.cores.map fun c => (c.1, { c.2 with ranges := c.2.ranges.filter fun r => !(s.warps.any fun x => x.core == c.1 && x.slot == r.slot && x.wg == id) }) }
    let s := modWg s id fun w => { w with
      state := .killed, pad := [], padPoison := [], smap := [], chunks := [], bar := none, segs := [], rollbackDue := false,
      mx := { w.mx with slots := 0, tiles := 0, slotMem := [], acc := [], reed := ⟨none, 0, [], 0⟩ } }
    wakeAll s

/-- Kills one workgroup: its gang will set no completion bit (R79). -/
def endWg (s : State) (id : Nat) : State :=
  match getWg s id with
  | none => s
  | some w => modGang (dropWg s id) w.gang fun g => { g with killed := true }

/-- The workgroups that a kill at a scope ends: 0 workgroup, 1 launch, 2 region subtree, 3 context (R67). -/
def killSet (s : State) (w : Workgroup) (scope : Nat) : List Nat :=
  (s.wgs.filter fun x => x.state != .killed && x.state != .ended &&
    (x.id == w.id || (w.role != .single && x.id == w.mate)
      || (scope == 1 && x.launch == w.launch)
      || (scope == 2 && x.pasid == w.pasid && inSubtree s w.pasid w.region x.region)
      || (scope == 3 && x.pasid == w.pasid))).map (·.id)

/-- Kills under a kill scope; at launch scope and wider the unplaced gangs and the deque entries go too (R79). -/
def killScoped (s : State) (w : Workgroup) (scope : Nat) : State :=
  let s := (killSet s w scope).foldl endWg s
  if scope = 0 then s
  else
    let ls := (s.launches.filter fun l => (scope == 1 && l.id == w.launch)
      || (scope == 2 && l.pasid == w.pasid && inSubtree s w.pasid w.region l.rcd.region)
      || (scope == 3 && l.pasid == w.pasid)).map (·.id)
    { s with launches := updIf (fun l => ls.contains l.id) (fun l => { l with cut := true }) s.launches,
             cores := s.cores.map fun c => (c.1, { c.2 with
               deque := c.2.deque.filter fun e => !ls.contains e.launch,
               bins := (c.2.bins.map fun b => { b with recs := b.recs.filter fun r => !ls.contains r.launch }).filter fun b => !b.recs.isEmpty,
               rings := c.2.rings.map fun r => { r with items := r.items.filter fun e => !ls.contains e.2.launch } }) }

/-- Delivery kind K (R242): the kill and its type-2 record. -/
def kill (s : State) (id : Nat) (cause : Nat) (addr : Word) : State :=
  match getWg s id with
  | none => s
  | some w => killScoped (faultRecord s w.pasid cause addr) w (wgNow s w).killScope

/-! ## Rolling back (R142, R143, R148) -/

/-- The workgroup and, under redundancy, its mate: they roll back together. -/
def rollIds (w : Workgroup) : List Nat := if w.role == .single then [w.id] else [w.id, w.mate]

/-- Neither the workgroup nor its mate is pinned in its interval or has made two rollbacks in it. -/
def unpinned (s : State) (w : Workgroup) : Bool :=
  (rollIds w).all fun i => (getWg s i).all fun x => !x.epoch.pinned && decide (x.epoch.retries < 2)

/-- Whether a rollback applies (R142). -/
def canRollback (s : State) (w : Workgroup) : Bool := w.rcb.rollback && unpinned s w

/-- Whether a mismatch can be replayed (R148). -/
def canReplay (s : State) (w : Workgroup) : Bool := unpinned s w

/-- An outstanding load of a rolled-back workgroup: one of an earlier interval runs on, one that fills an atomic's place fills it and nothing else (R146), the others are gone. -/
def rolledLoad (s : State) (w : Workgroup) (l : OutLoad) : Option OutLoad :=
  if !((getT s l.tid).any fun x => x.wg == w.id) || decide (l.interval < w.epoch.number) then some l
  else if s.values.any fun v => v.atomic && (v.load == l.id || some v.load == l.tan.map (·.1)) then some { l with dead := true }
  else none

/-- Rollback proper (R142), once the engine operations of the interval are drained; an undo log that cannot be read loses the workgroup. -/
def doRollback (s : State) (id : Nat) : State :=
  match getWg s id with
  | none => s
  | some w =>
    let e := w.epoch
    if e.bad && !e.undo.isEmpty then kill s id 0x5A 0
    else
    let s := { s with
      threads := s.threads.map fun t => if t.wg == id then
          (match e.threads.find? fun x => x.tid == t.tid with
           | some img => restoreThread img t
           | none => t) else t
      warps := s.warps.map fun x => if x.wg == id then
          (match e.warps.find? fun y => y.core == x.core && y.slot == x.slot with
           | some img => { img with slip := x.slip }
           | none => x) else x
      groups := s.groups.filter fun g => !(g.tids.any fun t => (getT s t).any fun x => x.wg == id)
      loads := s.loads.filterMap (rolledLoad s w)
      compare := s.compare.filter fun c => c.wg != id
      claims := s.claims.filter fun c => c.wg != id
      values := s.values.filter fun v => v.wg != id || v.atomic
      streams := (s.streams.filter fun x => x.wg != id) ++ e.streams }
    modWg s id fun w => { w with
      pad := e.pad
      padPoison := e.padPoison
      smap := e.smap
      chunks := e.chunks
      bar := none
      rollbackDue := false
      epoch := { e with undo := [], overflow := false, retries := e.retries + 1 } }

/-- A rollback waits until no operation of the interval runs, in the workgroup or its mate, and neither is frozen (R142, R143). -/
def rollbackReady (s : State) (w : Workgroup) : Bool :=
  (rollIds w).all fun i => (getWg s i).all fun x =>
    x.state == .resident && !(s.engines.any fun e => e.wg == i && e.interval == x.epoch.number)

/-- Makes a rollback that is due, once it can be made. -/
def settleRollback (s : State) (id : Nat) : State :=
  match getWg s id with
  | none => s
  | some w => if w.rollbackDue && rollbackReady s w then wakeAll ((rollIds w).foldl doRollback s) else s

/-- A rollback becomes due in one workgroup: the results of its operations of this interval are discarded, and its threads stop. -/
def dueRollback (s : State) (id : Nat) : State :=
  match getWg s id with
  | none => s
  | some w =>
    { modWg s id (fun w => { w with rollbackDue := true }) with
      engines := updIf (fun e => e.wg == id && e.interval == w.epoch.number) (fun e => { e with dead := true }) s.engines
      threads := updIf (fun t => t.wg == id && t.run == .ready) (fun t => { t with run := .waiting .resource }) s.threads }

/-- Rollback of a workgroup, and of its mate under redundancy. -/
def startRollback (s : State) (id : Nat) : State :=
  match getWg s id with
  | none => s
  | some w => settleRollback ((rollIds w).foldl dueRollback s) id

/-! ## Taking a trap (R243 to R245) -/

/-- A cause for one lane: code, address, detail, the other party, and the flags of TRAPCAUSE. -/
structure Cause where
  code : Nat
  addr : Word := 0
  detail : W32 := 0
  other : Option (Tid × Bool) := none
  peer : Word := 0
  shadow : Bool := false
  integ : Bool := false
  deriving DecidableEq, Repr

/-- TRAPAUX (R247). -/
def auxWord (c : Cause) : Word :=
  let hi := match c.other with
    | none => 0
    | some (t, e) => (if e then 2 ^ 63 else 0) + (t.core % 2048) * 2 ^ 49 + (t.slot % 64) * 2 ^ 43 + (t.lane % 128) * 2 ^ 36
  BitVec.ofNat 64 (hi + c.detail.toNat)

/-- The mask of the lanes of a list of threads. -/
def laneMask (l : List Tid) : Word := l.foldl (fun m t => m ||| ((1 : Word) <<< (t.lane % 64))) 0

/-- R244: one thread of a trap group enters its handler. `pc` is the resumption address and `mask` the lanes of the group. -/
def enterHandler (s : State) (t : Tid) (c : Cause) (pc : Word) (legacy : Bool) (mask vec : Word) : State :=
  modT s t fun x =>
    { x with
      trap := { inh := true, legacy := legacy, integ := c.integ, shadow := c.shadow, cause := BitVec.ofNat 8 c.code, addr := c.addr,
                mask := mask, pc := pc, entryPc := pc, entryHdr := if x.pc == pc then x.hdr else none, aux := auxWord c, peer := c.peer, depth := x.depth, pl := x.pl }
      pl := 1
      depth := x.depth + 1
      pc := vec
      hdr := none
      legacy := false
      run := .ready
      since := none
      retrying := none
      able := s.now }

/-- A thread that a trap takes away from its CWAIT gives up the entry that it has reserved (R188). -/
def unreserve (s : State) (t : Tid) : State :=
  if s.monitors.any fun m => m.reserved.contains t then
    sweepMonitors { s with monitors := s.monitors.map fun m => { m with reserved := m.reserved.filter fun x => x != t } }
  else s

/-- The address of the trapping word: TRAP and BKPT retire before they trap (R246). -/
def trappingWord (c : Cause) (pc : Word) : Word := if c.code = 0xB0 ∨ c.code = 0xB1 then pc - 8 else pc

/-- A double trap (R245): the cause of the second trap goes into the detail of TRAPAUX and into the record. -/
def doubleTrap (s : State) (t : Tid) (wg : Nat) (c : Cause) : State :=
  kill (modT s t fun x => { x with trap := { x.trap with aux := BitVec.ofNat 64 c.code } }) wg (0xBB + 512 * c.code) c.addr

/-- R244, R245: a trap of kind H in one thread: the handler, or a kill. -/
def trapThread (s : State) (t : Tid) (c : Cause) (pc : Word) (legacy : Bool) (mask : Word) : State :=
  match getT s t with
  | none => s
  | some x =>
    if x.run == .killed || x.run == .ended then s
    else match getWg s x.wg with
    | none => s
    | some w =>
      if w.rcb.trapVec == 0 then kill s w.id c.code c.addr
      else if x.trap.inh then doubleTrap s t w.id c
      else if 255 ≤ x.depth then kill s w.id 0xB4 (trappingWord c pc)
      else enterHandler (unreserve s t) t c pc legacy mask w.rcb.trapVec

/-- TAKING AN EXCEPTION: every lane with its cause. The lanes of one cause form a trap group, the lower code enters first (R243). -/
def deliverTraps (s : State) (pc : Word) (legacy : Bool) (l : List (Tid × Cause)) : State :=
  let codes := sortBy id ((l.map fun e => e.2.code).eraseDups)
  codes.foldl (fun s k =>
    let grp := l.filter fun e => e.2.code == k
    let mask := laneMask (grp.map (·.1))
    grp.foldl (fun s e => trapThread s e.1 e.2 pc legacy mask) s) s

/-- A trap of threads that wait, outside any group: each at its own word (R243). -/
def trapWaiting (s : State) (t : Tid) (c : Cause) : State :=
  match getT s t with
  | none => s
  | some x =>
    let s := match x.run with
      | .waiting .barrier => modWg s x.wg fun w => { w with bar := w.bar.map fun b => { b with arrived := b.arrived.filter fun a => a.tid != t } }
      | _ => { s with claims := s.claims.filter fun y => !y.tids.contains t }
    trapThread s t c x.pc x.legacy (laneMask [t])

/-! ## Returning (R246) -/

/-- The colours that a return to depth `d` releases: those of greater depth. -/
def coloursAbove (x : Thread) (d : Nat) : List (BitVec 16) := (x.held.filter fun h => d < h.2).map (·.1)

/-- ERET's effect on one thread, once the waits of R190 hold: colours, depth, privilege, inh and the resumption address. -/
def returnFromTrap (s : State) (pasid : Nat) (t : Tid) : State :=
  match getT s t with
  | none => s
  | some x =>
    let s := (coloursAbove x x.trap.depth).foldl (fun s c => releaseColour s pasid t c) s
    releaseHeld (modT s t fun y =>
      { y with depth := y.trap.depth, links := y.links.filter fun l => decide (l.1 ≤ y.trap.depth), pl := y.trap.pl, trap := { y.trap with inh := false }, pc := y.trap.pc,
               hdr := if y.trap.pc == y.trap.entryPc then y.trap.entryHdr else none,
               resumed := true, run := .ready, since := none, able := s.now }) t

end Sys2Proof.Machine
end

