-- ==== Sys2Proof/Machine/Translate.lean ====
section
/-! DEFINITION. Address translation: entries and the walk (R106 to R109), checks (R110), TLBs (R111 to R113), heat (R114), host pages (R20),
pending faults (R118), and reading and writing the bytes of a block under its check bits (R129 to R132). -/

namespace Sys2Proof.Machine

/-! ## Blocks and error counts -/

def getBlock (s : State) (blk : Nat) : Block := kget Block.plain blk s.blocks

def setBlock (s : State) (blk : Nat) (b : Block) : State :=
  if getBlock s blk = b then s else { s with blocks := if b = Block.plain then kdel blk s.blocks else kset blk b s.blocks }

/-- Counts a read of a class in MEMERR of the die (R135): 0 to 3 a severity class, 4 corrected. -/
def countErr (s : State) (die c : Nat) : State :=
  let m := kget ⟨0, 0, 0, 0, 0⟩ die s.memerr
  let m := if c = 0 then { m with sev0 := satByte m.sev0 } else if c = 1 then { m with sev1 := satByte m.sev1 }
    else if c = 2 then { m with sev2 := satByte m.sev2 } else if c = 3 then { m with sev3 := satByte m.sev3 }
    else { m with corrected := satW32 m.corrected }
  { s with memerr := kset die m s.memerr }

/-- A block as a reader under a layout and key finds it. -/
def readBlk (s : State) (blk layout key : Nat) : BlockRead := readBlock (getBlock s blk) blk layout key (blockData s.mem blk)

/-- The line of a block becomes dirty in its home die's cache; a full cache writes back the line that has been dirty longest (R11, R14; assumption log 76). -/
def markDirty (s : State) (blk : Nat) : State :=
  if s.dirty.contains blk then s
  else
    let mine := s.dirty.filter fun b => dieOf (64 * b) == dieOf (64 * blk)
    let kept := if Config.dieLines ≤ mine.length then s.dirty.erase (mine.headD blk) else s.dirty
    { s with dirty := kept ++ [blk] }

/-- R129: the descriptor that a write through an entry of a layout leaves. -/
def keptDesc (b : Block) (blk layout data : Nat) : BitVec 16 :=
  if layout ≠ 12 then 0
  else if b.layout = 12 ∧ b.flipD = 0 ∧ b.flipM = 0 then b.desc
  else (readBlock b blk 12 0 data).desc

/-- A block's bytes and what it carries beside them, as a write leaves them; one that gets the poison pattern counts as SEV3 (R130, R135). -/
def putBlock (s : State) (blk : Nat) (cells : List Host.Cell) (b : Block) : State :=
  let s := setBlock (markDirty { s with mem := trimPad b.layout blk (setCells cells s.mem) } blk) blk b
  if b.poison then countErr s (dieOf (64 * blk)) 3 else s

/-- A write of bytes to HBM under a layout and key (R125, R129, R130). `poisoned` marks the block (R133). A write of less than a block whose own read fails, or whose MAC does not match, leaves the poison pattern (assumption log 75). -/
def writeHbm (s : State) (a : Nat) (bytes : List Byte) (layout key : Nat) (poisoned : Bool) : State :=
  let blk := a / 64
  let b := getBlock s blk
  let key := if key = Config.noKey then 0 else key
  let new : BitVec 16 → Bool → Block := fun d p => { layout := layout, desc := d, key := key, poison := p, flipD := 0, flipM := 0, badMac := false }
  if bytes.length = 64 ∧ a % 64 = 0 then putBlock s blk (cellsAt a bytes) (new (keptDesc b blk layout (blockData s.mem blk)) poisoned)
  else if b.layout = layout ∧ b.key = key ∧ b.flipD = 0 ∧ b.flipM = 0 ∧ b.poison = false ∧ b.badMac = false then
    putBlock s blk (cellsAt a bytes) { b with poison := poisoned }
  else
    let r := readBlk s blk layout key
    putBlock s blk (cellsAt (64 * blk) (leBytes 64 r.data) ++ cellsAt a bytes)
      (new (if layout = 12 then r.desc else 0) (poisoned || (seenClass r allBits).isSome || r.badMac))

/-- Splits an access into the pieces that lie in one block each: address and length. -/
def blockPieces : Nat → Nat → Nat → List (Nat × Nat)
  | 0, _, _ => []
  | fuel + 1, a, n =>
    if n = 0 then [] else
      let k := Nat.min n (64 - a % 64)
      (a, k) :: blockPieces fuel (a + k) (n - k)

/-- Writes bytes to HBM that may span blocks. -/
def writeHbmRange (s : State) (a : Nat) (bytes : List Byte) (layout key : Nat) (poisoned : Bool) : State :=
  ((blockPieces (bytes.length / 64 + 2) a bytes.length).foldl (fun (acc : State × List Byte) p =>
    (writeHbm acc.1 p.1 (acc.2.take p.2) layout key poisoned, acc.2.drop p.2)) (s, bytes)).1

/-- What a read of bytes gives: the bytes as stored (corrected where possible), the class it sees, for each byte the bits affected, the blocks in error, and the flags of an encrypted page. -/
structure ByteRead where
  bytes : List Byte
  sev : Option Nat
  affected : List Byte
  blocks : List Nat
  integ : Bool
  badMac : Bool
  deriving Repr

def maxClass (a b : Option Nat) : Option Nat :=
  match a, b with
  | none, y => y
  | x, none => x
  | some x, some y => some (Nat.max x y)

/-- Reads bytes of HBM within one block. -/
def readHbm (s : State) (a n layout key : Nat) : State × ByteRead :=
  let blk := a / 64
  let b := getBlock s blk
  if b = Block.plain ∧ layout = 0 ∧ key = 0 then (s, ⟨getCells a n s.mem, none, [], [], false, false⟩)
  else
    let r := readBlk s blk layout key
    let off := a % 64
    let rng := (2 ^ (8 * n) - 1) * 2 ^ (8 * off)
    let cls := seenClass r rng
    let am := (affectedMask r &&& rng) / 2 ^ (8 * off)
    let s := match cls with
      | some c => countErr s (dieOf a) c
      | none => if r.corrected then countErr s (dieOf a) 4 else s
    (s, ⟨leBytes n (r.data / 2 ^ (8 * off)), cls, leBytes n am, if cls.isSome then [blk] else [], r.integ && cls.isSome, r.badMac⟩)

/-- Reads bytes of HBM that may span blocks. -/
def readHbmRange (s : State) (a n layout key : Nat) : State × ByteRead :=
  (blockPieces (n / 64 + 2) a n).foldl (fun (acc : State × ByteRead) p =>
    let (s, r) := readHbm acc.1 p.1 p.2 layout key
    let r0 := acc.2
    (s, ⟨r0.bytes ++ r.bytes, maxClass r0.sev r.sev, r0.affected ++ (if r.affected.isEmpty then List.replicate p.2 0 else r.affected),
      r0.blocks ++ r.blocks, r0.integ || r.integ, r0.badMac || r.badMac⟩)) (s, ⟨[], none, [], [], false, false⟩)

/-! ## Entries and the walk (R107 to R109) -/

/-- Page size of a leaf at a level, as a power of two (R107). -/
def levelShift (level : Nat) : Nat := 12 + 8 * level

/-- A physical address that a walk accepts (R12), on a die in service. -/
def paOk (s : State) (pa : Nat) : Bool :=
  match homeOf s.module_ s.domain pa with
  | .bad => false
  | .hbm a => dieIn s (dieOf a)
  | _ => true

/-- none where R109 refuses the leaf. -/
def parseLeaf (s : State) (level x : Nat) : Option Leaf :=
  let pa := bits x 71 32 * 4096
  let l : Leaf := {
    level := level, pa := pa, stripe := bits x 90 88, colour := BitVec.ofNat 16 (bits x 87 72), key := bits x 27 22, cp := bits x 21 20,
    leg := bitAt x 15, tp := bitAt x 14, nr := bitAt x 13, rc := bitAt x 12, layout := bits x 11 8, pl1 := bitAt x 7, x := bitAt x 6,
    w := bitAt x 5, r := bitAt x 4 }
  if bits x 3 2 ≠ 0 ∨ bits x 31 28 ≠ 0 ∨ bits x 95 91 ≠ 0 ∨ pa % 2 ^ levelShift level ≠ 0 ∨ 3 < level ∨ 12 < l.layout ∨ l.cp = 3
      ∨ (l.w && !l.r) ∨ (l.key ≠ 0 ∧ l.layout ≠ 0) ∨ (l.stripe ≠ 0 ∧ l.colour = 0) ∨ !paOk s pa then none
  else some l

/-- Where a table pointer leads, or none where R109 refuses it. -/
def parsePointer (s : State) (level x : Nat) : Option Nat :=
  let pa := bits x 71 32 * 4096
  if level = 0 ∨ x ≠ 1 + bits x 71 32 * 2 ^ 32 ∨ 2 ≤ pa / 2 ^ 44 ∨ !paOk s pa then none else some pa

inductive Walk where
  | leaf (l : Leaf) (pte : Nat)
  | unmapped
  | refused
  /-- an uncorrectable error in an entry (R131) -/
  | uncorr
  deriving DecidableEq, Repr

/-- The die-local name of HBM at a physical address. -/
def hbmOf (s : State) (pa : Nat) : Option Nat :=
  match homeOf s.module_ s.domain pa with
  | .hbm a => if dieIn s (dieOf a) then some a else none
  | _ => none

def levelIndex (level va : Nat) : Nat := if level = 5 then bits va 56 52 else bits va (19 + 8 * level) (12 + 8 * level)

/-- The walk from a level and table on, down to level 0; each entry read counts its errors (R135). -/
def walkFrom (s : State) (va : Nat) : Nat → Nat → State × Walk
  | level, table =>
    match hbmOf s (table + 16 * levelIndex level va) with
    | none => (s, .refused)
    | some a =>
      let (s, r) := readHbm s a 16 0 0
      if r.sev.isSome then (s, .uncorr)
      else
        let x := leNat r.bytes
        if !bitAt x 0 then (s, .unmapped)
        else if bitAt x 1 then (s, match parseLeaf s level x with
          | some l => .leaf l a
          | none => .refused)
        else match parsePointer s level x with
          | none => (s, .refused)
          | some t => match level with
            | 0 => (s, .refused)
            | n + 1 => walkFrom s va n t

/-- The root table of a context (R39, R107). -/
def walk (s : State) (pasid va : Nat) : State × Walk :=
  if 2 ^ 57 ≤ va then (s, .refused)
  else match (getCtx s pasid).bind (·.root) with
  | none => (s, .unmapped)
  | some root => walkFrom s va 5 root

/-! ## Checks (R110) -/

structure Need where
  r : Bool
  w : Bool
  x : Bool
  pl : Nat

def leafAllows (l : Leaf) (n : Need) : Bool :=
  (!n.r || l.r) && (!n.w || l.w) && (!n.x || l.x) && (n.pl != 0 || !l.pl1)

/-- Beyond the leaf: the carve-out and the on-module registers (R36, R12). -/
def paAllows (s : State) (pa pl : Nat) : Bool :=
  match homeOf s.module_ s.domain pa with
  | .hbm a => 3 ≤ pl || !inCarveOut a
  | .reg _ => 2 ≤ pl
  | .bad => false
  | _ => true

/-! ## TLBs and heat (R111 to R114) -/

def pageBase (level va : Nat) : Nat := va - va % 2 ^ levelShift level

/-- The micro TLB of the core, its cluster's TLB, or its die's. -/
def TlbEntry.serves (e : TlbEntry) (core : Nat) : Bool :=
  (e.level == 0 && e.unit_ == core) || (e.level == 1 && e.unit_ == clusterId core) || (e.level == 2 && e.unit_ == coreDie core)

def TlbEntry.covers (e : TlbEntry) (pasid va : Nat) : Bool := e.pasid == pasid && e.page == pageBase e.leaf.level va

def tlbFind (s : State) (core pasid va : Nat) : Option TlbEntry := s.tlb.find? fun e => e.covers pasid va && e.serves core

/-- Increments rheat or wheat of the leaf, stopping at 3: a read-modify-write of the entry's bytes (R114). -/
def heatUp (s : State) (pte : Nat) (write : Bool) : State :=
  let a := pte + 2
  let b := (getCell a s.mem).toNat
  let h := if write then bits b 3 2 else bits b 1 0
  if h = 3 then s else writeHbm s a [BitVec.ofNat 8 (b + if write then 4 else 1)] 0 0 false

/-- The first `n` elements that satisfy `p`, and every other element. -/
def keepFirst {α : Type} (p : α → Bool) : Nat → List α → List α
  | _, [] => []
  | n, x :: r => if p x then (match n with
      | 0 => keepFirst p 0 r
      | n + 1 => x :: keepFirst p n r) else x :: keepFirst p n r

/-- Entries of a core's, a cluster's and a die's TLB (R111). -/
def tlbSize (level : Nat) : Nat := if level = 0 then 64 else if level = 1 then 2048 else 16384

/-- A fill of every level after a walk (R111, R112); a full TLB drops the entry filled first (assumption log 76). -/
def tlbFill (s : State) (core pasid va : Nat) (l : Leaf) (pte : Nat) (write : Bool) : State :=
  let mk := fun lvl u => ({ level := lvl, unit_ := u, pasid := pasid, page := pageBase l.level va, leaf := l, pte := pte, written := write } : TlbEntry)
  let keep := s.tlb.filter fun e => !(e.covers pasid va && e.serves core)
  let all := mk 0 core :: mk 1 (clusterId core) :: mk 2 (coreDie core) :: keep
  let fit := [(0, core), (1, clusterId core), (2, coreDie core)].foldl
    (fun l x => keepFirst (fun e => e.level == x.1 && e.unit_ == x.2) (tlbSize x.1) l) all
  heatUp { s with tlb := fit } pte write

/-- What a translation gives. -/
inductive Xlate where
  | ok (l : Leaf) (pa : Nat)
  | unmapped
  | denied
  | uncorr
  deriving DecidableEq, Repr

def leafPa (l : Leaf) (va : Nat) : Nat := l.pa + va % 2 ^ levelShift l.level

/-- R40: PL2 reaches an encrypted page without its key. -/
def Leaf.seenBy (l : Leaf) (pl : Nat) : Leaf := if pl = 2 ∧ l.key ≠ 0 then { l with key := Config.noKey } else l

/-- The check of a leaf, and what the access gets. -/
def checked (s : State) (va : Nat) (n : Need) (l : Leaf) : Option Xlate :=
  if leafAllows l n && paAllows s (leafPa l va) n.pl then some (.ok (l.seenBy n.pl) (leafPa l va)) else none

/-- A walk for an access, with its fill. -/
def walkFill (s : State) (core pasid va : Nat) (n : Need) : State × Xlate :=
  match walk s pasid va with
  | (s, .leaf l pte) => (match checked s va n l with
    | some x => (tlbFill s core pasid va l pte n.w, x)
    | none => (s, .denied))
  | (s, .unmapped) => (s, .unmapped)
  | (s, .refused) => (s, .denied)
  | (s, .uncorr) => (s, .uncorr)

/-- Translates one address for a core's access (R106 to R114): a hit, or a walk with its fill; the first write through an entry walks again. -/
def translate (s : State) (core pasid va : Nat) (n : Need) : State × Xlate :=
  if 2 ^ 57 ≤ va then (s, .denied)
  else match tlbFind s core pasid va with
  | some e => if n.w && !e.written && leafAllows e.leaf n then walkFill s core pasid va n else (s, (checked s va n e.leaf).getD .denied)
  | none => walkFill s core pasid va n

/-! ## Host pages (R20) -/

inductive HostX where
  /-- the translated key -/
  | ok (a : Nat)
  /-- ATS is under way: the access waits -/
  | wait
  /-- the translation has failed and its page request is outstanding (R118) -/
  | fault

/-- The host page behind a virtual address. -/
def pageHost (s : State) (core pasid va : Nat) : Option (Nat × Nat) :=
  let pa := match tlbFind s core pasid va with
    | some e => some (leafPa e.leaf va)
    | none => match (walk s pasid va).2 with
      | .leaf l _ => some (leafPa l va)
      | _ => none
  pa.bind fun pa => match homeOf s.module_ s.domain pa with
    | .host k bus => some (k, bus / 4096)
    | _ => none

/-- The translation of a byte of host memory: found, asked for, or failed. -/
def hostXlate (s : State) (link pasid bus : Nat) : State × HostX :=
  match hostAddr s link pasid bus with
  | some a => (s, .ok a)
  | none =>
    if (getLink s link).atsReqs.any fun r => r.pri && r.pasid == pasid && r.page == bus / 4096 && r.gen == pasidGen s pasid then (s, .fault)
    else (atsAsk s link pasid (bus / 4096), .wait)

/-- Whether host memory of a link can be reached by work of a launch of teardown generation `gen` (R21, R64). -/
def hostUpGen (s : State) (link pasid : Nat) (gen : Byte) : Bool := (getLink s link).up && gen == pasidGen s pasid

/-! ## Pending faults (R118) -/

/-- Enters or joins a pending fault. The flag is false where the die's table is full. -/
def raiseFault (s : State) (core pasid va : Nat) (write : Bool) : State × Bool :=
  let d := coreDie core
  let page := va / 4096
  if s.faults.any fun f => f.die == d && f.pasid == pasid && f.page == page && f.write == write then (s, true)
  else if Config.pendingFaults ≤ (s.faults.filter fun f => f.die == d).length then (s, false)
  else
    (faultRecord { s with faults := s.faults ++ [⟨d, pasid, page, write, va, pageHost s core pasid va⟩] } pasid (if write then 0x41 else 0x40) (BitVec.ofNat 64 va), true)

/-! ## Colours of bytes (R180) -/

def colourAt (l : Leaf) (va : Nat) : BitVec 16 :=
  if l.stripe = 0 then l.colour
  else
    let i := (va % 2 ^ levelShift l.level) / (64 * 2 ^ (l.stripe - 1))
    BitVec.ofNat 16 ((l.colour.toNat - 1 + i) % 65535 + 1)

/-- The distinct colours of `n` bytes, ascending (R183). -/
def coloursOf (l : Leaf) (va n : Nat) : List (BitVec 16) :=
  let cs := ((List.range (n / 64 + 2)).map fun i => colourAt l (Nat.min (va + 64 * i) (va + n - 1))).eraseDups.filter (· != 0)
  sortBy (fun c => c.toNat) cs

end Sys2Proof.Machine
end

