-- ==== Sys2Proof/Machine/Operands.lean ====
section
/-! DEFINITION. Operands: every operand form (R156 to R176, R270, R271), the reading of sources with their states and causes (R164 to R169),
the writing of destinations, and the three ways a word acts: lane by lane, across lanes (R325), and once for its group (R397). -/

namespace Sys2Proof.Machine

/-! ## What is issuing -/

/-- Bytes of the word at pc with its literal or follow-on. -/
def curSpan (g : Group) : Nat := (g.next - g.pc).toNat

/-- The word at pc is the clause's last. -/
def curLast (g : Group) : Bool := g.words.length * 8 ≤ curSpan g

/-- The address that TRAPPC takes: of the DPFX when one governs the word (R410). -/
def trapPc (g : Group) : Word := if g.dual.isSome then g.dualPc else g.pc

def predBit (t : Thread) (n : Nat) : Bool := if n = 7 then true else t.p.getLsbD n

/-- R156. -/
def passes (t : Thread) (g : Guard) : Bool := predBit t g.p.toNat != g.neg

/-- Sets p[n]; a write of p7 is discarded (R161). -/
def setPred (t : Thread) (n : Nat) (b : Bool) : Thread :=
  if n < 7 then { t with p := (t.p &&& ~~~((1 : BitVec 7) <<< n)) ||| ((BitVec.ofNat 7 b.toNat) <<< n) } else t

/-! ## Operand values -/

/-- An operand as read: its 32-bit words, low first, the same words of each shadow component, and which words are POISON (R165: word by word). -/
structure Opv where
  words : List W32
  sh : List (List W32)
  bad : List Bool

def Opv.poison (o : Opv) : Bool := o.bad.any id

def Opv.word (o : Opv) : Word := Word.pair (o.words.getD 0 0) (o.words.getD 1 0)
def Opv.w32 (o : Opv) : W32 := o.words.getD 0 0
def Opv.zero : Opv := ⟨[0, 0, 0, 0], [], []⟩
def opv (l : List Opv) (i : Nat) : Opv := l.getD i Opv.zero

/-- Component `j` (1 to 4) of an operand, as a word. -/
def Opv.tan (o : Opv) (j : Nat) : Word :=
  let l := o.sh.getD (j - 1) []
  Word.pair (l.getD 0 0) (l.getD 1 0)

/-- How special specifiers are read (R271). -/
inductive OpK where
  | int
  /-- two halves -/
  | pk
  /-- four bytes (DOT4) -/
  | pk8
  | fl (f : Fmt)
  | pkf (f : Fmt)

def wordsOf (k : Nat) (x : Nat) : List W32 := (List.range k).map fun i => BitVec.ofNat 32 (x / 2 ^ (32 * i))

/-- The constant table (R271). -/
def constNum (n : Nat) : Num :=
  match n with
  | 0 => .fin false 1 2
  | 1 => .fin false 1 1
  | 2 => .fin false 2 1
  | 3 => .fin false 4 1
  | 4 => .fin false 8 1
  | 5 => .fin false 1 4
  | 6 => .fin true 1 2
  | 7 => .fin true 1 1
  | 8 => .fin true 2 1
  | 9 => .fin true 4 1
  | 10 => .fin false 1 8
  | 11 => .inf false
  | 12 => ln2Num
  | 13 => log2eNum
  | 14 => piNum
  | _ => invPiNum

def constVal (k : OpK) (x : Num) : Nat :=
  match k with
  | .fl f => (f.round .rn x).bits
  | .pkf f => (f.round .rn x).bits * 65537
  | _ => (Fmt.b32.round .rn x).bits

def intVal (k : OpK) (n : Nat) : Nat :=
  match k with
  | .int => n
  | .pk => n * 65537
  | .pk8 => n * 0x1010101
  | .fl f => (f.round .rn (.fin false n 1)).bits
  | .pkf f => (f.round .rn (.fin false n 1)).bits * 65537

def regDead : Reg := ⟨.dead, 0, []⟩
def vReg (t : Thread) (n : Nat) : Reg := kget regDead n t.v
def oReg (t : Thread) (n : Nat) : Reg := kget regDead n t.o

/-- What reading one source gives. -/
structure SrcRead where
  val : Opv
  causes : List Cause
  wait : Bool

/-- Reads `k` consecutive register lanes by state (R166). -/
def readRegs (regs : List Reg) (e : Bool) (comps : Nat) : SrcRead :=
  let causes := regs.flatMap fun r => match r.st with
    | .pending => if e then [{ code := 0x10 }] else []
    | .dead => [{ code := 0x11 }]
    | _ => []
  { val := ⟨regs.map (·.val), (List.range comps).map fun j => regs.map fun r => r.sh.getD j 0, regs.map fun r => r.st == .poison⟩,
    causes := causes, wait := !e && regs.any fun r => r.st == .pending }

/-- A stream or engine operation is bound to queue `q` in the lane (R162, R375). -/
def qBound (s : State) (t : Tid) (q : Nat) : Option Stream := s.streams.find? fun x => x.q == q && x.lanes.contains t

/-- Reads one source of `k` words. `pops` counts, by queue, the entries that earlier fields of the word take. -/
def readSrc (s : State) (w : Workgroup) (t : Thread) (pops : List Nat) (src : Src) (k : Nat) (kind : OpK) : SrcRead :=
  let comps := w.shadows
  match src.op with
  | .v n =>
    let ns := (List.range k).map (n.toNat + ·)
    let r := readRegs (ns.map (vReg t)) src.e comps
    if ns.any fun i => w.vregs ≤ i then
      let r' := readRegs ((ns.filter fun i => i < w.vregs).map (vReg t)) src.e comps
      { r with causes := { code := 0x13 } :: r'.causes, wait := false }
    else r
  | .o n => readRegs ((List.range k).map fun i => oReg t (n.toNat + i)) src.e comps
  | .g n =>
    match getWarp s t.tid.core t.tid.slot with
    | none => ⟨Opv.zero, [], false⟩
    | some wp =>
      let ns := (List.range k).map (n.toNat + ·)
      let stale := wp.uchk && ns.any fun i => !((kget (~~~(0 : Word)) i wp.origin).getLsbD t.tid.lane)
      ⟨⟨ns.map fun i => kget 0 i wp.g, (List.range comps).map fun j => ns.map fun i => (kget [] i wp.gsh).getD j 0, []⟩,
        if stale then [{ code := 0x15 }] else [], false⟩
  | .lr => ⟨⟨wordsOf k t.lr.toNat, (List.range comps).map fun j => wordsOf k (t.lrSh.getD j 0).toNat, List.replicate k t.lrPoison⟩, [], false⟩
  | .zero => ⟨⟨List.replicate k 0, [], []⟩, [], false⟩
  | .int n => ⟨⟨wordsOf k (intVal kind n.toNat), [], []⟩, [], false⟩
  | .cst n => ⟨⟨wordsOf k (constVal kind (constNum n.toNat)), [], []⟩, [], false⟩
  | .lit => ⟨⟨wordsOf k (s.cur.lit.getD 0).toNat, [], []⟩, [], false⟩
  | .q n =>
    let skip := (pops.filter (· == n.toNat)).length
    match ((kget [] n.toNat t.q).drop skip).head? with
    | some e => ⟨⟨wordsOf k e.val.toNat, [], List.replicate k e.poison⟩, [], false⟩
    | none =>
      if src.e then ⟨Opv.zero, [{ code := 0x10, detail := BitVec.ofNat 32 n.toNat }], false⟩
      else match qBound s t.tid n.toNat with
      | some st =>
        (match st.stop with
         | some (a, c) => ⟨Opv.zero, [{ code := 0x84, addr := a, detail := BitVec.ofNat 32 c }], false⟩
         | none => ⟨Opv.zero, [], true⟩)
      | none => ⟨Opv.zero, [{ code := 0x17, detail := BitVec.ofNat 32 n.toNat }], false⟩

/-- A source with the number of its words and its kind. -/
structure SrcSpec where
  src : Src
  k : Nat
  kind : OpK

structure SrcsRead where
  vals : List Opv
  causes : List Cause
  wait : Bool
  pops : List Nat

/-- Reads the sources of a word in field order. -/
def readSrcs (s : State) (w : Workgroup) (t : Thread) : List SrcSpec → List Nat → SrcsRead
  | [], pops => ⟨[], [], false, pops⟩
  | x :: r, pops =>
    let a := readSrc s w t pops x.src x.k x.kind
    let pops := match x.src.op with
      | .q n => pops ++ [n.toNat]
      | _ => pops
    let b := readSrcs s w t r pops
    ⟨a.val :: b.vals, a.causes ++ b.causes, a.wait || b.wait, b.pops⟩

/-- The registers that L marks name: (is an o register, number). -/
def markedRegs (l : List SrcSpec) : List (Bool × Nat) :=
  l.flatMap fun x => if x.src.l then (match x.src.op with
    | .v n => (List.range x.k).map fun i => (false, n.toNat + i)
    | .o n => (List.range x.k).map fun i => (true, n.toNat + i)
    | _ => []) else []

def setV (t : Thread) (n : Nat) (r : Reg) : Thread := { t with v := kset n r t.v }
def setO (t : Thread) (n : Nat) (r : Reg) : Thread := { t with o := kset n r t.o }

/-- Marks a register DEAD, keeping nothing of its value (R168). -/
def killReg (t : Thread) (r : Bool × Nat) : Thread := if r.1 then { t with o := kdel r.2 t.o } else { t with v := kdel r.2 t.v }

/-- Pops the queue entries a word took; each pop joins the read of its element (R376). -/
def popQueues (t : Thread) (pops : List Nat) : Thread :=
  pops.foldl (fun t q => { t with
    q := kset q ((kget [] q t.q).drop 1) t.q
    vc := (((kget [] q t.q).head?).bind (·.join)).elim t.vc fun k => kset k 1 t.vc }) t

/-- The registers that source fields name, as token keys. -/
def namedTokens (l : List SrcSpec) : List Nat :=
  l.flatMap fun x => match x.src.op with
    | .v n => (List.range x.k).map fun i => (n.toNat + i) / 2 * 2
    | .o n => (List.range x.k).map fun i => 256 + (n.toNat + i) / 2 * 2
    | _ => []

/-- Joins the completed operations whose tokens have these keys (R215). -/
def joinTokens (t : Thread) (ks : List Nat) : Thread :=
  if t.tokens.any fun e => ks.contains e.1 then
    { t with vc := (t.tokens.filter fun e => ks.contains e.1).foldl (fun v e => vcJoin v e.2) t.vc,
             tokens := t.tokens.filter fun e => !ks.contains e.1 }
  else t

/-- Joins every completed operation (wait bit 3, R215). -/
def joinAll (t : Thread) : Thread :=
  if t.tokens.isEmpty then t else { t with vc := t.tokens.foldl (fun v e => vcJoin v e.2) t.vc, tokens := [] }

/-- What happens at retirement before the destination is written: joins of tokens read, pops and marks (R162, R168). -/
def takeSources (t : Thread) (l : List SrcSpec) (pops : List Nat) : Thread :=
  (markedRegs l).foldl killReg (popQueues (joinTokens t (namedTokens l)) pops)

/-! ## Destinations -/

/-- Causes and wait of a destination of `k` words (R158, R167). -/
def dstCheck (w : Workgroup) (t : Thread) (d : Dst) (k : Nat) : List Cause × Bool :=
  match d with
  | .v n =>
    let ns := (List.range k).map (n.toNat + ·)
    if ns.any fun i => w.vregs ≤ i then ([{ code := 0x13 }], false) else ([], ns.any fun i => (vReg t i).st == .pending)
  | .o n => ([], ((List.range k).map (n.toNat + ·)).any fun i => (oReg t i).st == .pending)
  | _ => ([], false)

/-- A write of a g register by one lane: register, value, shadows. -/
structure GWrite where
  n : Nat
  val : W32
  sh : List W32

/-- The shadows of word `i` of a result whose components are lists of words. -/
def shOf (sh : List (List W32)) (i : Nat) : List W32 := sh.map fun l => l.getD i 0

/-- Writes a result to a v or o register or lr; a g register is left to the group (R170). -/
def writeDst (t : Thread) (d : Dst) (words : List W32) (bad : List Bool) (sh : List (List W32)) : Thread :=
  let reg := fun (i : Nat) => (⟨if bad.getD i false then .poison else .full, words.getD i 0, shOf sh i⟩ : Reg)
  match d with
  | .v n => (List.range words.length).foldl (fun t i => setV t (n.toNat + i) (reg i)) t
  | .o n => (List.range words.length).foldl (fun t i => setO t (n.toNat + i) (reg i)) t
  | _ => t

def gWrites (d : Dst) (words : List W32) (sh : List (List W32)) : List GWrite :=
  match d with
  | .g n => (List.range words.length).map fun i => ⟨n.toNat + i, words.getD i 0, shOf sh i⟩
  | _ => []

/-- lr takes the result of a word of the vector pipes (R160). -/
def writeLr (t : Thread) (words : List W32) (poison : Bool) (sh : List (List W32)) : Thread :=
  { t with lr := Word.pair (words.getD 0 0) (words.getD 1 0), lrPoison := poison,
           lrSh := sh.map fun l => Word.pair (l.getD 0 0) (l.getD 1 0) }

def dstRegs (d : Dst) (k : Nat) : List (Bool × Nat) :=
  match d with
  | .v n => (List.range k).map fun i => (false, n.toNat + i)
  | .o n => (List.range k).map fun i => (true, n.toNat + i)
  | _ => []

/-- Registers written or marked enter the undo log (R139, R178). -/
def touchRegs (s : State) (w : Workgroup) (t : Tid) (regs : List (Bool × Nat)) : State :=
  if !w.rcb.rollback && w.rcb.redund == 0 then s
  else
    let wi := ((getWarp s t.core t.slot).map (·.index)).getD 0
    regs.foldl (fun s r => if r.1 then s else (regGranules w.shadows wi r.2).foldl (fun s g => touchGranule s w.id g) s) s

/-- Sets a destination PENDING (R167). -/
def pendDst (t : Thread) (d : Dst) (k : Nat) : Thread :=
  match d with
  | .v n => (List.range k).foldl (fun t i => setV t (n.toNat + i) ⟨.pending, 0, []⟩) t
  | .o n => (List.range k).foldl (fun t i => setO t (n.toNat + i) ⟨.pending, 0, []⟩) t
  | _ => t

def destOf (d : Dst) : Dest :=
  match d with
  | .v n => .v n.toNat
  | .o n => .o n.toNat
  | _ => .none

/-- The interval in which a thread issues (R138). -/
def intervalOf (s : State) (t : Tid) : Nat := (((getT s t).bind fun x => getWg s x.wg).map (·.epoch.number)).getD 0

/-- Puts a late value on its way to `d` (R167). -/
def sendLate (s : State) (t : Tid) (d : Dst) (kind : OutKind) (words : List FillWord) : State :=
  let (s, id) := newId s
  { s with loads := s.loads ++ [{ id := id, tid := t, kind := kind, dest := destOf d, words := words, numerr := false, dead := false, port := none, pop := none, addr := 0, sx := false, interval := intervalOf s t, line := none, tan := none, sync := none }] }

/-! ## Lane by lane -/

inductive LaneRes where
  | retire (gw : List GWrite)
  | trap (c : Cause)
  /-- rollback where it applies, else the trap (R131, R133) -/
  | consume (c : Cause)
  /-- a KILL policy (R132) or a mismatch (R148): rollback where it applies, else a kill with this cause and address -/
  | kill (code : Nat) (addr : Word)
  | wait (w : WaitFor)
  /-- the word retires and control goes to this address (R299) -/
  | jump (pc : Word)
  /-- the thread has been settled by the action: it has ended, or waits for an event that retires the word -/
  | gone
  /-- the word retires and then traps (R306) -/
  | after (c : Cause)

/-- The thread has retired the word at pc. -/
def advance (g : Group) (now : Nat) (t : Thread) : Thread :=
  { t with pc := g.next, hdr := if curLast g then none else some g.hdr, legacy := g.legacy, since := none, able := now, run := .ready, passed := false, resumed := false }

/-- The thread has retired a control word and goes on at a target. -/
def jumpTo (pc : Word) (now : Nat) (t : Thread) : Thread :=
  { t with pc := pc, hdr := none, legacy := false, since := none, able := now, run := .ready, passed := false, resumed := false }

/-- A lane retires the word; one that the word's own action has killed stays so. -/
def retire (s : State) (t : Tid) : State := modT s t fun x => if x.run == .killed then x else advance s.cur s.now x

structure LaneAcc where
  s : State
  traps : List (Tid × Cause)
  eaten : List (Tid × Cause)
  kills : List (Tid × Cause)
  after : List (Tid × Cause)
  retired : List Tid
  gw : List (Tid × GWrite)

/-- Applies the writes of g registers: of each warp the lowest lane that retired gives the value, and the lanes that retired are the origin (R170). -/
def applyG (s : State) (retired : List Tid) (gw : List (Tid × GWrite)) : State :=
  gw.foldl (fun s e =>
    let first := gw.find? fun x => x.1.core == e.1.core && x.1.slot == e.1.slot && x.2.n == e.2.n
    if (first.map (·.1)) == some e.1 then
      let mine := retired.filter fun t => t.core == e.1.core && t.slot == e.1.slot
      let live := s.threads.filter fun t => t.tid.core == e.1.core && t.tid.slot == e.1.slot && t.run != .ended && t.run != .killed
      let mask := if live.all fun t => mine.contains t.tid then ~~~(0 : Word) else laneMask mine
      modWarp s e.1.core e.1.slot fun w =>
        { w with g := kset e.2.n e.2.val w.g, gsh := kset e.2.n e.2.sh w.gsh, origin := kset e.2.n mask w.origin }
    else s) s

/-- REG_POISON and MEM_UNCORR are raised by a register that is consumed, and by nothing else that traps: rollback comes first (R133). -/
def Cause.eaten (c : Cause) : Bool := c.code == 0x12 || c.code == 0x50

/-- Rolls back the workgroups of the lanes that consumed POISON or met a KILL policy, where that applies; otherwise the lanes take their cause, or their workgroup is killed (R132, R133, R142). -/
def settleTraps (s : State) (pc : Word) (legacy : Bool) (traps eaten kills : List (Tid × Cause)) : State :=
  let rolls := ((traps.filter (·.2.eaten) ++ eaten ++ kills).filterMap fun e => (getT s e.1).bind fun t => (getWg s t.wg).bind fun w =>
    if (if e.2.code = 0xB8 then canReplay s w else canRollback s w) then some w.id else none).eraseDups
  let s1 := rolls.foldl startRollback s
  let free := fun (e : Tid × Cause) => !((getT s e.1).any fun t => rolls.contains t.wg)
  let s2 := (kills.filter free).foldl (fun s e => match getT s e.1 with
    | none => s
    | some t => if t.run == .killed then s else kill s t.wg e.2.code e.2.addr) s1
  deliverTraps s2 pc legacy ((traps ++ eaten).filter free)

/-- A word that acts lane by lane, in ascending lane order. A lane that fails the guard passes the word with no effect (R156). -/
def perLane (s : State) (pg : Guard) (f : State → Workgroup → Thread → State × LaneRes) : State :=
  let a := s.cur.tids.foldl (fun (a : LaneAcc) tid =>
    match getT a.s tid with
    | none => a
    | some t =>
      if t.run != .ready then a
      else if !passes t pg then { a with s := retire a.s tid }
      else match getWg a.s t.wg with
      | none => { a with s := retire a.s tid }
      | some w =>
        let (s', r) := f a.s w t
        match r with
        | .retire gw => { a with s := retire s' tid, retired := a.retired ++ [tid], gw := a.gw ++ gw.map fun x => (tid, x) }
        | .trap c => { a with s := s', traps := a.traps ++ [(tid, c)] }
        | .consume c => { a with s := s', eaten := a.eaten ++ [(tid, c)] }
        | .kill c d => { a with s := s', kills := a.kills ++ [(tid, { code := c, addr := d })] }
        | .wait x => { a with s := waitFor s' tid x }
        | .jump pc => { a with s := modT s' tid (jumpTo pc s.now) }
        | .gone => { a with s := s' }
        | .after c => { a with s := retire s' tid, after := a.after ++ [(tid, c)] }) ⟨s, [], [], [], [], [], []⟩
  let s1 := settleTraps (applyG a.s a.retired a.gw) (trapPc s.cur) s.cur.legacy a.traps a.eaten a.kills
  deliverTraps s1 s.cur.next s.cur.legacy a.after

/-- The cause with the lowest code (R8). Where two sources of one word raise the same code in a lane (two queues of stopped streams), R8 does not say whose address and detail are delivered: the model takes the first source field (assumption log 77). -/
def lowest (l : List Cause) : Option Cause := minBy (fun c => c.code) l

/-- TANGENT_NOSHADOW of a prefixed word (R410). -/
def dualCause (s : State) (w : Workgroup) : List Cause :=
  match s.cur.dual with
  | some m => if w.shadows = 0 ∨ 2 ^ w.shadows ≤ m.toNat then [{ code := 0x16 }] else []
  | none => []

/-- The POISON causes of operands: REG_POISON where one of those at the places `ad` is an address, target or predicate, else MEM_UNCORR (R133). -/
def poisonCauses (ad : List Nat) (vals : List Opv) : List Cause :=
  if ad.any fun i => (vals.getD i Opv.zero).poison then [{ code := 0x12 }]
  else if vals.any (·.poison) then [{ code := 0x50 }] else []

/-- REG_POISON of an access whose address is its first operand; its other operands propagate POISON. -/
def addrPoison (vals : List Opv) : List Cause := poisonCauses [0] (vals.take 1)

def noCauses (_ : List Opv) : List Cause := []

/-- The common start of a lane: reads the sources, checks the prefix and the destination; goes on with the values. `extra` gives the word's further causes of this stage, POISON operands among them (R8, R169). -/
def withSrcs (s : State) (w : Workgroup) (t : Thread) (l : List SrcSpec) (d : Dst) (kd : Nat) (extra : List Opv → List Cause)
    (go : List Opv → List Nat → State × LaneRes) : State × LaneRes :=
  let r := readSrcs s w t l []
  let (dc, dw) := dstCheck w t d kd
  match lowest (dualCause s w ++ extra r.vals ++ r.causes ++ dc) with
  | some c => (s, .trap c)
  | none => if r.wait || dw then (s, .wait .reg) else go r.vals r.pops

/-! ## Dual words (R237, R410) -/

/-- The components that a dual-capable word computes in this thread. -/
def dualComps (s : State) (w : Workgroup) (t : Thread) : List Nat :=
  match s.cur.dual with
  | some m => (List.range 4).filterMap fun j => if m.getLsbD j then some (j + 1) else none
  | none => if 0 < w.rcb.tanK ∧ t.pl = 0 then (List.range w.rcb.tanK).map (· + 1) else []

/-- Shadow lists from the tangents of the active components: words of each component 1 to the highest, +0 outside. -/
def compsToSh (k shadows : Nat) (l : List (Nat × Nat)) : List (List W32) :=
  if l.isEmpty then [] else (List.range shadows).map fun j => wordsOf k (kget 0 (j + 1) l)

/-! ## ALU words (R282, R311) -/

/-- What the value function of an ALU word gives for one lane. -/
structure AluOut where
  words : List W32
  sh : List (List W32) := []
  flags : Flags := 0
  rng : Option W32 := none
  tanrng : Option W32 := none
  preds : List (Nat × Bool) := []
  cause : Option Cause := none
  bad : List Bool := []

/-- The hash of R145 takes each ALU result of a thread under redundancy; an armed injection disturbs it (R421). -/
def disturb (w : Workgroup) (t : Thread) (words : List W32) (writes : Bool) : List W32 × Thread :=
  match t.armed with
  | some m =>
    if writes then
      let x := Word.pair (words.getD 0 0) (words.getD 1 0) ^^^ (if words.length = 1 then m &&& 0xFFFFFFFF else m)
      let ws := wordsOf words.length x.toNat
      (ws, { t with armed := none, injected := true, hash := if w.role == .single then t.hash else Config.hash t.hash x })
    else (words, t)
  | none => (words, if w.role == .single || !writes then t else { t with hash := Config.hash t.hash (Word.pair (words.getD 0 0) (words.getD 1 0)) })

/-- The thread after an ALU word, and the words it wrote: sources taken, result, lr, predicates and flags. -/
def aluThread (w : Workgroup) (t : Thread) (l : List SrcSpec) (pops : List Nat) (d : Option Dst) (o : AluOut) : List W32 × Thread :=
  let r := disturb w (takeSources t l pops) o.words d.isSome
  let t3 := match d with
    | none => r.2
    | some d => writeLr (writeDst r.2 d r.1 o.bad o.sh) r.1 (o.bad.any id) o.sh
  let t4 := o.preds.foldl (fun t p => setPred t p.1 p.2) t3
  (r.1, { t4 with fstat := t4.fstat ||| o.flags, rng := o.rng.getD t4.rng, tanrng := o.tanrng.getD t4.tanrng })

/-- Writes of one retired lane of an ALU word. -/
def aluRetire (s : State) (w : Workgroup) (t : Thread) (l : List SrcSpec) (pops : List Nat) (d : Option Dst) (o : AluOut) : State × LaneRes :=
  let r := aluThread w t l pops d o
  let regs := markedRegs l ++ (match d with | none => [] | some d => dstRegs d o.words.length)
  (touchRegs (modT s t.tid fun _ => r.2) w t.tid regs, .retire (match d with | none => [] | some d => gWrites d r.1 o.sh))

/-- The number of words of an optional destination. -/
def dstOr (d : Option Dst) : Dst := d.getD .zero

/-- POISON operands of an ALU word, beside the cause that the word itself would raise: the lower code is delivered (R8). -/
def aluEat (f : List Opv → AluOut) (vals : List Opv) : List Cause := if vals.any (·.poison) then poisonCauses [] vals ++ (f vals).cause.toList else []

/-- An ALU word: `d` none for words whose only destinations are predicates. POISON sources are consumed (R133). -/
def aluWord (s : State) (pg : Guard) (l : List SrcSpec) (d : Option Dst) (kd : Nat)
    (f : State → Workgroup → Thread → List Opv → AluOut) : State :=
  perLane s pg fun s w t =>
    withSrcs s w t l (dstOr d) kd (aluEat (f s w t)) fun vals pops =>
      let o := f s w t vals
      match o.cause with
      | some c => (s, .trap c)
      | none => aluRetire s w t l pops d o

/-- Whether the value that a word would write to a g register is POISON, and whose it is: the lowest lane that can retire the word gives it (R163, R170). -/
def gPoison (s : State) (pg : Guard) (l : List SrcSpec) (d : Dst) (extra : State → Workgroup → Thread → List Cause) : Option Tid :=
  match d with
  | .g _ =>
    let can := s.cur.tids.filterMap fun tid => (getT s tid).bind fun t => (getWg s t.wg).bind fun w =>
      let r := readSrcs s w t l []
      if t.run == .ready && passes t pg && (extra s w t ++ r.causes).isEmpty && !r.wait then some (tid, r.vals.any (·.poison)) else none
    (can.head?).bind fun e => if e.2 then some e.1 else none
  | _ => none

/-- A lane's result that propagates POISON. Where the g register's value would be POISON, its lane consumes it and nothing is written (R163). -/
def propRetire (s : State) (w : Workgroup) (t : Thread) (l : List SrcSpec) (pops : List Nat) (d : Dst) (bad : Option Tid) (o : AluOut) : State × LaneRes :=
  if bad = some t.tid then (s, .consume { code := 0x50 })
  else
    let r := aluRetire s w t l pops (some d) o
    if bad.isSome then (r.1, .retire []) else r

/-- An ALU word that propagates POISON (MOV, R133). -/
def aluProp (s : State) (pg : Guard) (l : List SrcSpec) (d : Dst) (kd : Nat)
    (f : State → Workgroup → Thread → List Opv → AluOut) : State :=
  let bad := gPoison s pg l d fun s w _ => dualCause s w
  perLane s pg fun s w t =>
    withSrcs s w t l d kd noCauses fun vals pops =>
      let o := f s w t vals
      match o.cause with
      | some c => (s, .trap c)
      | none => propRetire s w t l pops d bad { o with bad := (opv vals 0).bad }

/-- The thread after a late ALU word, and the words on their way: sources taken, destination PENDING, flags. -/
def lateThread (w : Workgroup) (t : Thread) (l : List SrcSpec) (pops : List Nat) (d : Dst) (kd : Nat) (o : AluOut) : List W32 × Thread :=
  let r := disturb w (pendDst (takeSources t l pops) d kd) o.words true
  (r.1, { r.2 with fstat := r.2.fstat ||| o.flags, rng := o.rng.getD r.2.rng, tanrng := o.tanrng.getD r.2.tanrng })

/-- An ALU word whose result is late (R167): the destination goes PENDING, lr keeps its value. -/
def aluLate (s : State) (pg : Guard) (l : List SrcSpec) (d : Dst) (kd : Nat)
    (f : State → Workgroup → Thread → List Opv → AluOut) : State :=
  perLane s pg fun s w t =>
    withSrcs s w t l d kd (aluEat (f s w t)) fun vals pops =>
      let o := f s w t vals
      match o.cause with
      | some c => (s, .trap c)
      | none =>
        let r := lateThread w t l pops d kd o
        let s := touchRegs (modT s t.tid fun _ => r.2) w t.tid (markedRegs l ++ dstRegs d kd)
        (sendLate s t.tid d .unit_ ((List.range kd).map fun i => ⟨r.1.getD i 0, false, shOf o.sh i⟩), .retire [])

/-! ## Across lanes (R325) -/

/-- The active lanes of the group with what they read. -/
structure XLane where
  t : Thread
  w : Workgroup
  vals : List Opv
  pops : List Nat

/-- Retires every lane of the group that fails the guard. -/
def retireIdle (s : State) (pg : Guard) : State :=
  s.cur.tids.foldl (fun s tid => match getT s tid with
    | none => s
    | some t => if passes t pg then s else retire s tid) s

def activeLanes (s : State) (pg : Guard) : List (Thread × Workgroup) :=
  s.cur.tids.filterMap fun tid => (getT s tid).bind fun t => if passes t pg then (getWg s t.wg).map fun w => (t, w) else none

/-- Traps of a word that is all or nothing: the lanes with causes form trap groups, the other active lanes are held. -/
def trapAll (s : State) (all : List Tid) (traps eaten : List (Tid × Cause)) : State :=
  let hit := (traps ++ eaten).map (·.1)
  let s := (all.filter fun t => !hit.contains t).foldl (fun s t => waitFor s t (.xlane hit)) s
  settleTraps s (trapPc s.cur) s.cur.legacy traps eaten []

/-- A word over the active lanes together. The first `prop` operands propagate POISON, the others consume it (R325). `check` gives a lane's further causes from its operands; `act` acts once every active lane is sound. -/
def crossLane (s : State) (pg : Guard) (l : List SrcSpec) (d : Dst) (kd : Nat) (prop : Nat)
    (check : State → XLane → Option Cause) (act : State → List XLane → State) : State :=
  let idle := retireIdle s pg
  let act_ := activeLanes s pg
  if act_.isEmpty then idle
  else
    let reads := act_.map fun e => (e.1, e.2, readSrcs s e.2 e.1 l [], dstCheck e.2 e.1 d kd)
    let lanes : List XLane := reads.map fun e => ⟨e.1, e.2.1, e.2.2.1.vals, e.2.2.1.pops⟩
    let eat := fun (vals : List Opv) => poisonCauses [] (vals.drop prop)
    let early := reads.filterMap fun e =>
      let l := dualCause s e.2.1 ++ e.2.2.1.causes ++ e.2.2.2.1
      (lowest (if l.isEmpty then [] else l ++ eat e.2.2.1.vals)).map fun c => (e.1.tid, c)
    let tids := act_.map fun e => e.1.tid
    if !early.isEmpty then trapAll idle tids early []
    else if reads.any fun e => e.2.2.1.wait || e.2.2.2.2 then tids.foldl (fun s t => waitFor s t .reg) idle
    else
      let late := lanes.filterMap fun x => (lowest ((check s x).toList ++ eat x.vals)).map fun c => (x.t.tid, c)
      if !late.isEmpty then trapAll idle tids late []
      else act idle lanes

/-- Writes of one lane of a cross-lane word: destination, lr and flags; g writes are gathered. -/
structure XOut where
  tid : Tid
  out : AluOut

/-- Retires the lanes of a cross-lane word with their results (R326). -/
def crossWrite (s : State) (l : List SrcSpec) (d : Option Dst) (lanes : List XLane) (f : XLane → AluOut) : State :=
  let a := lanes.foldl (fun (a : LaneAcc) x =>
    match getT a.s x.t.tid with
    | none => a
    | some t =>
      let (s', r) := aluRetire a.s x.w t l x.pops d (f x)
      match r with
      | .retire gw => { a with s := retire s' x.t.tid, retired := a.retired ++ [x.t.tid], gw := a.gw ++ gw.map fun y => (x.t.tid, y) }
      | _ => a) ⟨s, [], [], [], [], [], []⟩
  applyG a.s a.retired a.gw

/-! ## Once for the group (R397, R361) -/

/-- How a word that acts once for its group goes on. -/
inductive GroupRes where
  | retire
  | trap (c : Cause)
  | wait (w : WaitFor)
  /-- a KILL policy, by the lowest active lane -/
  | killAll (code : Nat) (addr : Word)
  /-- the lowest active lane consumes POISON -/
  | eat (c : Cause)
  /-- the action has settled every lane itself -/
  | settled

/-- The sources of a word are taken after its destination `keep` was written: a marked register that is written is not DEAD (R168). -/
def takeKeeping (keep : List (Bool × Nat)) (t : Thread) (l : List SrcSpec) (pops : List Nat) : Thread :=
  ((markedRegs l).filter fun r => !keep.contains r).foldl killReg (popQueues (joinTokens t (namedTokens l)) pops)

/-- A word that acts once for its group (R397, R361): every active lane reads its sources, a cause in any of them stops the word for all (R325), and the
word acts with the values of the lowest. `ad` gives the places of the operands that are addresses, `extra` a lane's own causes. -/
def perGroupWith (s : State) (pg : Guard) (extra : Thread → List Cause) (l : List SrcSpec) (d : Dst) (kd : Nat) (ad : List Nat)
    (act : State → Workgroup → Thread → List Opv → List Tid → State × GroupRes) : State :=
  let idle := retireIdle s pg
  let lanes := activeLanes s pg
  match lanes.head? with
  | none => idle
  | some (t0, w0) =>
    let tids := lanes.map fun e => e.1.tid
    let reads := lanes.map fun e => (e.1, e.2, readSrcs s e.2 e.1 l [])
    let own := fun (e : Thread × Workgroup × SrcsRead) =>
      let l := dualCause s e.2.1 ++ extra e.1 ++ e.2.2.causes ++ (dstCheck e.2.1 e.1 d kd).1
      if l.isEmpty then [] else l ++ poisonCauses ad e.2.2.vals
    let early := reads.filterMap fun e => (lowest (own e)).map fun c => (e.1.tid, c)
    let eaten := reads.filterMap fun e => (lowest (poisonCauses ad e.2.2.vals)).map fun c => (e.1.tid, c)
    if !early.isEmpty then trapAll idle tids early []
    else if reads.any fun e => e.2.2.wait || (dstCheck e.2.1 e.1 d kd).2 then tids.foldl (fun s t => waitFor s t .reg) idle
    else
      let (s', g) := act idle w0 t0 (readSrcs s w0 t0 l []).vals tids
      if !eaten.isEmpty then
        let c := match g with
          | .trap c => [c]
          | _ => []
        trapAll idle tids (tids.filterMap fun t => (lowest (c ++ (eaten.filter fun e => e.1 == t).map (·.2))).map fun c => (t, c)) []
      else match g with
      | .retire => reads.foldl (fun s e =>
          retire (touchRegs (modT s e.1.tid fun t => takeKeeping (dstRegs d kd) t l e.2.2.pops) e.2.1 e.1.tid (markedRegs l)) e.1.tid) s'
      | .trap c => trapAll s' tids (tids.map fun t => (t, c)) []
      | .wait x => tids.foldl (fun s t => waitFor s t x) s'
      | .eat c => trapAll s' tids [(t0.tid, c)] []
      | .killAll k a => settleTraps s' (trapPc s.cur) s.cur.legacy [] [] [(t0.tid, { code := k, addr := a })]
      | .settled => s'

/-- A word that acts once for its group, open to every level. -/
def perGroup (s : State) (pg : Guard) (l : List SrcSpec) (d : Dst) (kd : Nat) (ad : List Nat)
    (act : State → Workgroup → Thread → List Opv → List Tid → State × GroupRes) : State :=
  perGroupWith s pg (fun _ => []) l d kd ad act

/-- PRIVILEGE for a thread below a level. -/
def privCause (need : Nat) (t : Thread) : List Cause := if t.pl < need then [{ code := 0x05 }] else []

/-- Writes a result that is no ALU result: without dual semantics and without lr, unless lr is named (R397). -/
def writePlain (t : Thread) (d : Dst) (words : List W32) : Thread :=
  if d == .lr then writeLr t words false [] else writeDst t d words [] []

/-- Writes a value in every active lane without dual semantics (R397). -/
def writeAll (s : State) (w : Workgroup) (tids : List Tid) (d : Dst) (words : List W32) : State :=
  let s := tids.foldl (fun s t => touchRegs (modT s t fun x => writePlain x d words) w t (dstRegs d words.length)) s
  applyG s tids (tids.flatMap fun t => (gWrites d words []).map fun g => (t, g))

end Sys2Proof.Machine
end

