-- ==== Sys2Proof/WellFormed.lean ====
section
/-! DEFINITION. Well-formed operands and instructions: the decode rules of R158, R163, R164, R228 to R270 that a field can break on its own.
A word that breaks one raises its decode cause (R274); Decode.lean checks the same predicates, so what it reads is well formed. -/

namespace Sys2Proof

/-- The operand fits `k` 32-bit registers: 1, an aligned pair or an aligned quad (R158). -/
def Opd.fits (k : Nat) : Opd → Bool
  | .v n => n.toNat % k == 0
  | .g n => n.toNat % k == 0
  | .o n => n.toNat % k == 0 && n.toNat + k ≤ 6
  | _ => true

/-- L only with v or o, E only with v, o or q (R164). -/
def Src.flagsOk (s : Src) : Bool :=
  match s.op with
  | .v _ => true
  | .o _ => true
  | .q _ => !s.l
  | _ => !s.l && !s.e

def Src.wf (k : Nat) (s : Src) : Bool := s.flagsOk && s.op.fits k

def Dst.fits (k : Nat) : Dst → Bool
  | .v n => n.toNat % k == 0
  | .g n => n.toNat % k == 0
  | .o n => n.toNat % k == 0 && n.toNat + k ≤ 6
  | _ => true

/-- A destination of a late producer: v, o or discarded (R163, R167, R270, R334). -/
def Dst.late (k : Nat) : Dst → Bool
  | .v n => n.toNat % k == 0
  | .o n => n.toNat % k == 0 && n.toNat + k ≤ 6
  | .zero => true
  | _ => false

/-- A v, o or g destination, or discarded. -/
def Dst.vog (k : Nat) : Dst → Bool
  | .lr => false
  | d => d.fits k

/-- A v, o or g register and nothing else (R413). -/
def Dst.strict (k : Nat) : Dst → Bool
  | .lr => false
  | .zero => false
  | d => d.fits k

/-- A base register: v, o, g, lr or zero (R265). -/
def Src.base (k : Nat) (s : Src) : Bool :=
  s.wf k && match s.op with
    | .v _ => true
    | .g _ => true
    | .o _ => true
    | .lr => true
    | .zero => true
    | _ => false

def Opd.isLit : Opd → Bool
  | .lit => true
  | _ => false

/-- A token pair: an even v or o register (R363, R379). -/
def Src.token (s : Src) : Bool :=
  s.wf 2 && match s.op with
    | .v _ => true
    | .o _ => true
    | _ => false

/-- Integer specifiers: the operands a follow-on word may name (R370). -/
def Opd.isInt : Opd → Bool
  | .int _ => true
  | _ => false

/-- At most one field names the literal (R269). -/
def oneLit (l : List Src) : Bool := (l.filter fun s => s.op.isLit).length ≤ 1

def noLit (l : List Src) : Bool := l.all fun s => !s.op.isLit

/-- Registers per operand: 2 with .64, else 1. -/
def k64 (w64 : Bool) : Nat := if w64 then 2 else 1

def A1.wf (kd ka : Nat) (o : A1) : Bool := o.d.fits kd && o.a.wf ka
def A2.wf (kd ka kb : Nat) (o : A2) : Bool := o.d.fits kd && o.a.wf ka && o.b.wf kb && oneLit [o.a, o.b]
def A3.wf (kd ka kb kc : Nat) (o : A3) : Bool :=
  o.d.fits kd && o.a.wf ka && o.b.wf kb && o.c.wf kc && oneLit [o.a, o.b, o.c]
def P2.wf (ka kb : Nat) (o : P2) : Bool := o.a.wf ka && o.b.wf kb && oneLit [o.a, o.b]

/-- A modifier record that uses only what `a`, `b`, `c` (operands with modifiers) and `r` (rounds) allow (R308, R312). -/
def FMod.wf (a b c r : Bool) (m : FMod) : Bool :=
  (a || (!m.aNeg && !m.aAbs)) && (b || (!m.bNeg && !m.bAbs)) && (c || !m.cNeg) && (r || m.rnd == .rn)

def FMod.isH (m : FMod) : Bool := m.fmt != .f32
def FMod.is32 (m : FMod) : Bool := m.fmt == .f32

def CFmt.k : CFmt → Nat
  | .b64 => 2
  | _ => 1

def IWidth.k : IWidth → Nat
  | .w64 => 2
  | _ => 1

def MWidth.k : MWidth → Nat
  | .w64 => 2
  | .w128 => 4
  | _ => 1

def MWidth.narrow : MWidth → Bool
  | .w8 => true
  | .w16 => true
  | _ => false

def AType.k : AType → Nat
  | .u64 => 2
  | .s64 => 2
  | .f64 => 2
  | _ => 1

def AType.isFloat : AType → Bool
  | .f32 => true
  | .f64 => true
  | .bf16x2 => true
  | _ => false

/-- and, or and xor take integer types only (R267). -/
def AOp.allows (op : AOp) (ty : AType) : Bool :=
  match op with
  | .and => !ty.isFloat
  | .or => !ty.isFloat
  | .xor => !ty.isFloat
  | _ => true

/-- R330: .u with min and max only; the rounding field serves .fadd only and .rs is refused. -/
def RedOp.wf (op : RedOp) (rnd : Rnd) (u : Bool) : Bool :=
  (!u || op == .min || op == .max) && (if op == .fadd then rnd != .rs else rnd == .rn)

def MLoad.wf (kbase : Nat) (cpZero : Bool) (m : MLoad) : Bool :=
  m.d.late m.w.k && m.base.base kbase && (m.ord == .plain || m.ord == .rlx || m.ord == .acq || m.ord == .sc)
    && (!m.sx || m.w.narrow) && (!cpZero || m.cp == .ca)

def MStore.wf (kbase : Nat) (cpZero : Bool) (m : MStore) : Bool :=
  m.data.wf m.w.k && !m.data.e && !m.data.op.isLit && m.base.base kbase
    && (m.ord == .plain || m.ord == .rlx || m.ord == .rel || m.ord == .sc) && (!cpZero || m.cp == .ca)

/-- LDBD and STBD: plain, 16 bits, scope 0, cp 0 (R333). -/
def MLoad.isDesc (m : MLoad) : Bool :=
  m.ord == .plain && m.w == .w16 && m.scope == .thr && m.cp == .ca && !m.sx

def MStore.isDesc (m : MStore) : Bool :=
  m.ord == .plain && m.w == .w16 && m.scope == .thr && m.cp == .ca

/-- A slot is named by dir on the destination side (R366). -/
def CopyDir.dstGlobal : CopyDir → Bool
  | .g2g => true
  | .s2g => true
  | _ => false

def CopyDir.srcGlobal : CopyDir → Bool
  | .g2g => true
  | .g2s => true
  | .g2o => true
  | _ => false

def CopyDir.dstSlot : CopyDir → Bool
  | .g2o => true
  | .s2o => true
  | _ => false

/-- Registers a side of a copy takes: a pair when it is a global address, else one (R367). -/
def sideK (isGlobal handle : Bool) : Nat := if isGlobal && !handle then 2 else 1

def CopyOp.wf (rows : Bool) (c : CopyOp) : Bool :=
  c.d.late 2 && c.dst.wf (sideK c.dir.dstGlobal c.hdst) && c.src.wf (sideK c.dir.srcGlobal c.hsrc)
    && c.len.wf (if rows then 4 else 1) && oneLit [c.dst, c.src, c.len]
    && (!c.hdst || c.dir.dstGlobal) && (!c.hsrc || c.dir.srcGlobal)

def AccOp.wf (o : AccOp) : Bool :=
  o.d.late 2 && o.a.wf (if o.s then 1 else 2) && o.tile.wf 1
    && (match o.c with | none => true | some c => c.wf 2 && c.op != .zero)
    && oneLit (o.a :: o.tile :: o.c.toList)

/-- GETSR and SETSR: registers of 64 bits (R412). -/
def sr64 (n : BitVec 8) : Bool :=
  n == 0x04 || n == 0x08 || n == 0x0F || n == 0x14 || n == 0x15 || (0x20 ≤ n.toNat && n.toNat ≤ 0x26)

def Sop.mult : Sop → Bool
  | .fmul => true
  | .fmac => true
  | .hmul2 => true
  | .hfmac2 => true
  | _ => false

/-- The registers a half reads (R272, R273): MOV reads no b, FMAC and HFMAC2 read d. -/
def Half.reads (h : Half) : List Nat :=
  match h.sop with
  | .mov => [h.a.toNat]
  | .fmac => [h.a.toNat, h.b.toNat, h.d.toNat]
  | .hfmac2 => [h.a.toNat, h.b.toNat, h.d.toNat]
  | _ => [h.a.toNat, h.b.toNat]

/-- The bank of register n is n mod 4 (R273). -/
def bank (n : Nat) : Nat := n % 4

/-- Some pair restriction of R273 is broken, for halves that write `d0` and `d1` and read `r0` and `r1`; `m` where both are of the multiplier class. -/
def pairBad (m : Bool) (d0 d1 : Nat) (r0 r1 : List Nat) : Bool :=
  let rs := (r0 ++ r1).eraseDups
  m || bank d0 == bank d1
    || 3 < rs.length
    || [0, 1, 2, 3].any (fun b => 2 < (rs.filter fun r => bank r == b).length)
    || r0.contains d1 || r1.contains d0

def pairBroken (h0 h1 : Half) : Bool := pairBad (h0.sop.mult && h1.sop.mult) h0.d.toNat h1.d.toNat h0.reads h1.reads

def Half.wf (h : Half) : Bool := h.sop != .mov || h.b == 0

/-- The reserved opcodes (R275). -/
def reservedOp (n : Nat) : Bool :=
  (0x2C ≤ n && n ≤ 0x2F) || (0x54 ≤ n && n ≤ 0x5F) || (0x6B ≤ n && n ≤ 0x6F) || (0x7B ≤ n && n ≤ 0x7F) || (0x96 ≤ n && n ≤ 0x9F)
    || (0xAA ≤ n && n ≤ 0xAF) || n == 0xBF || (0xCC ≤ n && n ≤ 0xCF) || (0xDB ≤ n && n ≤ 0xEF)

/-- The Flilith-2 opcodes without a counterpart (R279). -/
def reservedF2 (n : Nat) : Bool := reservedOp n || n == 0x8E || 0xE0 ≤ n

/-- Well-formed instructions. The steps of other agents carry no encoded field and are always well formed. -/
def WellFormed : Instr → Bool
  | .nop _ => true
  | .mov o w64 => o.wf (k64 w64) (k64 w64)
  | .iadd o w64 _ _ => o.wf (k64 w64) (k64 w64) (k64 w64)
  | .isub o w64 _ _ => o.wf (k64 w64) (k64 w64) (k64 w64)
  | .iaddc o _ w64 => o.wf (k64 w64) (k64 w64) (k64 w64)
  | .isubb o _ w64 => o.wf (k64 w64) (k64 w64) (k64 w64)
  | .ineg o w64 _ => o.wf (k64 w64) (k64 w64)
  | .iabs o w64 _ => o.wf (k64 w64) (k64 w64)
  | .imul o w64 => o.wf (k64 w64) (k64 w64) (k64 w64)
  | .imulhi o w64 _ => o.wf (k64 w64) (k64 w64) (k64 w64)
  | .imad o w64 => o.wf (k64 w64) (k64 w64) (k64 w64) (k64 w64)
  | .idiv o w64 _ => o.wf (k64 w64) (k64 w64) (k64 w64) && o.d.late (k64 w64)
  | .irem o w64 _ => o.wf (k64 w64) (k64 w64) (k64 w64) && o.d.late (k64 w64)
  | .imin o w64 _ => o.wf (k64 w64) (k64 w64) (k64 w64)
  | .imax o w64 _ => o.wf (k64 w64) (k64 w64) (k64 w64)
  | .icmp o _ w64 _ => o.wf (k64 w64) (k64 w64)
  | .and o w64 => o.wf (k64 w64) (k64 w64) (k64 w64)
  | .or o w64 => o.wf (k64 w64) (k64 w64) (k64 w64)
  | .xor o w64 => o.wf (k64 w64) (k64 w64) (k64 w64)
  | .not o w64 => o.wf (k64 w64) (k64 w64)
  | .andn o w64 => o.wf (k64 w64) (k64 w64) (k64 w64)
  | .bool3 o _ w64 => o.wf (k64 w64) (k64 w64) (k64 w64) (k64 w64)
  | .shl o w64 => o.wf (k64 w64) (k64 w64) 1
  | .shr o w64 => o.wf (k64 w64) (k64 w64) 1
  | .shra o w64 => o.wf (k64 w64) (k64 w64) 1
  | .rotl o w64 => o.wf (k64 w64) (k64 w64) 1
  | .funnel o _ w64 => o.wf (k64 w64) (k64 w64) (k64 w64) 1
  | .bfe o w64 _ => o.wf (k64 w64) (k64 w64) 1
  | .bfi o w64 => o.wf (k64 w64) (k64 w64) (k64 w64) 1
  | .popc o w64 => o.wf (k64 w64) (k64 w64)
  | .clz o w64 => o.wf (k64 w64) (k64 w64)
  | .ctz o w64 => o.wf (k64 w64) (k64 w64)
  | .brev o w64 => o.wf (k64 w64) (k64 w64)
  | .bpick o => o.wf 1 1 1 1
  | .lea o _ _ => o.wf 2 2 1
  | .sel o _ _ w64 => o.wf (k64 w64) (k64 w64) (k64 w64)
  | .vadd2 o _ _ => o.wf 1 1 1
  | .vsub2 o _ _ => o.wf 1 1 1
  | .vmin2 o _ => o.wf 1 1 1
  | .vmax2 o _ => o.wf 1 1 1
  | .acsel2 o n => o.wf 1 1 1 1 && n.toNat ≤ 5
  | .dot4 o _ _ => o.wf 1 1 1 1
  | .dot2 o _ _ => o.wf 1 1 1 1
  | .cvti o src dst _ _ _ => o.wf dst.k src.k
  | .fadd o m => o.wf 1 1 1 && m.wf true true false true
  | .fsub o m => o.wf 1 1 1 && m.wf true true false true
  | .fmul o m => o.wf 1 1 1 && m.wf true true false true
  | .ffma o m => o.wf 1 1 1 1 && m.wf true true true true
  | .fmin o m => o.wf 1 1 1 && m.wf true true false false
  | .fmax o m => o.wf 1 1 1 && m.wf true true false false
  | .fminp o m => o.wf 1 1 1 && m.wf true true false false
  | .fmaxp o m => o.wf 1 1 1 && m.wf true true false false
  | .fcmp o _ m => o.wf 1 1 && m.wf true true false false
  | .fclass o _ => o.wf 1 1
  | .fcopysgn o _ => o.wf 1 1 1
  | .frnd o m => o.wf 1 1 && m.wf true false false true
  | .fdiv o m => o.wf 1 1 1 && o.d.late 1 && m.wf true true false true && m.is32
  | .fsqrt o m => o.wf 1 1 && o.d.late 1 && m.wf true false false true && m.is32
  | .frcp o m => o.wf 1 1 && o.d.late 1 && m.wf true false false true && m.is32
  | .frsq o m => o.wf 1 1 && o.d.late 1 && m.wf true false false true && m.is32
  | .fexp2 o m => o.wf 1 1 && o.d.late 1 && m.wf true false false true && m.is32
  | .flog2 o m => o.wf 1 1 && o.d.late 1 && m.wf true false false true && m.is32
  | .fsinpi o m => o.wf 1 1 && o.d.late 1 && m.wf true false false true && m.is32
  | .fcospi o m => o.wf 1 1 && o.d.late 1 && m.wf true false false true && m.is32
  | .ftanh o m => o.wf 1 1 && o.d.late 1 && m.wf true false false true && m.is32
  | .hadd2 o m => o.wf 1 1 1 && m.wf true true false true && m.isH
  | .hmul2 o m => o.wf 1 1 1 && m.wf true true false true && m.isH
  | .hfma2 o m => o.wf 1 1 1 1 && m.wf true true true true && m.isH
  | .hmin2 o m => o.wf 1 1 1 && m.wf true true false false && m.isH
  | .hmax2 o m => o.wf 1 1 1 && m.wf true true false false && m.isH
  | .hdot2 o m => o.wf 1 1 1 1 && m.wf true true true true && m.isH
  | .dadd o m => o.wf 2 2 2 && o.d.late 2 && m.wf true true false true && m.is32
  | .dmul o m => o.wf 2 2 2 && o.d.late 2 && m.wf true true false true && m.is32
  | .dfma o m => o.wf 2 2 2 2 && o.d.late 2 && m.wf true true true true && m.is32
  | .fcvt o dst src _ => o.wf dst.k src.k
  | .f2i o src _ d64 _ => o.wf (k64 d64) src.k
  | .i2f o dst _ s64 _ => o.wf dst.k (k64 s64)
  | .cvtq o desc => if desc then o.wf 1 1 1 else
      o.wf 1 1 2 && (match o.b.op with | .g _ => true | _ => false)
  | .cvtdq o desc => if desc then o.wf 1 1 1 else
      o.wf 1 1 2 && (match o.b.op with | .g _ => true | _ => false)
  | .amax o _ _ => o.wf 1 1 1
  | .lanex o mode off w64 => o.wf (k64 w64) (k64 w64) && (match off with
      | .reg b => b.wf 1 && oneLit [o.a, b]
      | .width _ neg => !neg || mode == .rel || mode == .rot)
  | .bcastl o b w64 => o.wf (k64 w64) (k64 w64) && (match b with
      | none => true
      | some b => b.wf 1 && oneLit [o.a, b])
  | .pcensus _ c _ _ => (match c with
      | .mask d => d.vog 2
      | .count d => d.vog 1
      | _ => true)
  | .matchL o _ w64 => o.d.vog 2 && o.a.wf (k64 w64)
  | .redls o op rnd u w64 => o.wf (k64 w64) (k64 w64) && op.wf rnd u
  | .redidx o _ f u => o.d.vog 2 && o.a.wf 1 && o.b.wf 1 && oneLit [o.a, o.b] && !(f && u)
  | .scan o op rnd u _ w64 => o.wf (k64 w64) (k64 w64) && op.wf rnd u
  | .pbool3 _ _ _ _ _ _ => true
  | .ptov o n c w64 => o.wf (k64 w64) (k64 w64) 1 && n.toNat + c.toNat ≤ 7
  | .vtop o c w64 => o.wf (k64 w64) 1 && o.pd.toNat + c.toNat ≤ 7
  | .actmask _ d => d.vog 2
  | .bra _ mode a off => a.wf (if mode == .nz64 || mode == .z64 then 2 else 1) && noLit [a]
      && (mode != .always || a == ⟨.zero, false, false⟩) && off.toNat % 8 == 0
  | .brx _ tab a off => a.wf (if tab then 1 else 2) && noLit [a] && off.toNat % 8 == 0
  | .call _ off => off.toNat % 8 == 0
  | .callx _ tab a off => a.wf (if tab then 1 else 2) && noLit [a] && off.toNat % 8 == 0
  | .ret _ => true
  | .retn _ n => n != 0
  | .exit _ => true
  | .yield _ => true
  | .sleep _ a => a.wf 1 && noLit [a]
  | .bkpt _ => true
  | .trap _ _ => true
  | .ld m => m.wf 2 false
  | .st m => m.wf 2 false
  | .lds m => m.wf 1 true
  | .sts m => m.wf 1 true
  | .ldcl m => m.wf 1 true
  | .stcl m => m.wf 1 true
  | .ldbd m => m.wf 2 true && m.isDesc
  | .stbd m => m.wf 2 true && m.isDesc
  | .pref _ base _ _ => base.base 2
  | .cinval _ base off => (match base with
      | some b => b.base 2
      | none => off == 0)
  | .smap _ a b c => a.wf 1 && b.wf 2 && c.wf 1 && oneLit [a, b, c]
  | .sunmap _ a => a.wf 1
  | .swb _ a => (match a with
      | none => true
      | some a => a.wf 1 && a.op != .zero)
  | .atom t => t.d.late t.ty.k && t.base.base 2 && t.b.wf t.ty.k && t.ord != .plain && t.aop.allows t.ty
      && (t.aop != .load || t.ord == .rlx || t.ord == .acq || t.ord == .sc)
  | .atomcas t => t.d.late t.ty.k && t.base.base 2 && t.b.wf t.ty.k && t.c.wf t.ty.k && t.ord != .plain && oneLit [t.b, t.c]
  | .red t => t.d == .zero && t.base.base 2 && t.b.wf t.ty.k && t.aop.allows t.ty && t.aop != .exch && t.aop != .load
      && (t.ord == .rlx || t.ord == .rel || t.ord == .sc)
  | .atoms t => t.d.late t.ty.k && t.base.base 1 && t.b.wf t.ty.k && t.ord != .plain && t.aop.allows t.ty
      && (t.aop != .load || t.ord == .rlx || t.ord == .acq || t.ord == .sc)
  | .fence _ ord _ => ord == .acq || ord == .rel || ord == .acqrel || ord == .sc
  | .bar _ => true
  | .barp o op rnd u w64 => o.wf (k64 w64) (k64 w64) && op.wf rnd u
  | .gbar _ => true
  | .ckpt _ => true
  | .copy c => c.wf false
  | .copym c => c.wf false && c.dir.dstSlot
  | .gather c => c.wf true
  | .scatter c => c.wf true && !c.dir.dstSlot
  | .remq o ack => o.d.late 2 && (ack || o.d == .zero) && o.a.wf 1 && o.b.wf 1 && oneLit [o.a, o.b]
  | .rqpop o _ => o.d.late 1 && o.a.wf 1
  | .xred o s2g ty aop _ => o.d.late 2 && o.a.wf 2 && o.b.wf (if s2g then 1 else 2) && o.c.wf 1
      && oneLit [o.a, o.b, o.c] && aop.allows ty && aop != .exch && aop != .load
  | .strm _ a _ _ _ _ _ => a.wf 2
  | .strmx _ _ => true
  | .tchk _ _ a => a.token
  | .tcfg _ a => a.wf 2
  | .oclaim o _ => o.wf 1 1
  | .orel _ a b => a.wf 1 && b.wf 1 && oneLit [a, b]
  | .mma o => o.d.late 2 && o.wf 2 1 1 1
  | .mmaz o => o.d.late 2 && o.wf 2 1 1 1
  | .mxt _ d a c => d.late 2 && a.wf 1 && c.wf 1 && oneLit [a, c]
  | .mperm o => o.d.late 2 && o.wf 2 1 1 1
  | .mrred _ d a c => d.late 2 && a.wf 1 && c.wf 1 && oneLit [a, c]
  | .accld o => o.wf
  | .accst o => o.wf
  | .accz o => o.d.late 2 && o.a.wf 1
  | .mtake _ => true
  | .mpass _ => true
  | .mdrop _ => true
  | .mstat _ d => d.vog 1
  | .spawn _ _ code args => code.wf 2 && args.wf 4 && oneLit [code, args]
  | .spawnw _ _ _ args => args.wf 4
  | .spawnr _ _ _ lo hi chunk => lo.wf 2 && hi.wf 2 && chunk.wf 1 && oneLit [lo, hi, chunk]
  | .tget _ d => d.late 4 && d != .zero
  | .launch _ r => r.wf 2
  | .bwupd _ _ _ _ a => a.wf 2
  | .bwrd _ d _ _ => d.vog 2
  | .cwait o => o.wf 1 1
  | .cnotify _ _ a => a.wf 1
  | .cheld o => o.d.vog 1 && o.a.wf 1
  | .dpfx _ => true
  | .tmov o js jd w64 => o.wf (k64 w64) (k64 w64) && js.toNat ≤ 4 && jd.toNat ≤ 4
      && (js == 0 || (match o.a.op with | .v _ => true | .o _ => true | _ => false))
      && (jd == 0 || (match o.d with | .v _ => true | .o _ => true | _ => false))
  | .getsr _ d n => d.strict (k64 (sr64 n))
  | .setsr _ n a => a.wf (k64 (sr64 n))
  | .eret _ => true
  | .fwcall o _ => o.d.late 2 && o.a.wf 2
  | .moncall o _ => o.d.late 2 && o.a.wf 2 && o.b.wf 2 && oneLit [o.a, o.b]
  | .icinv _ range => (match range with
      | none => true
      | some (a, len) => a.wf 2 && len.wf 1 && oneLit [a, len])
  | .tlbinv _ form a b => (if form == .page then a.wf 2 else a == ⟨.zero, false, false⟩)
      && (match b with | none => true | some b => b.wf 1 && b.op != .zero && oneLit [a, b])
  | .fcxl _ a b => a.wf 1 && b.wf 2 && oneLit [a, b]
  | .finj _ a => a.wf 2
  | .halt _ => true
  | .cctl _ d a b => (match d with | some d => d.vog 2 | none => true) && a.wf 1 && b.wf 1 && oneLit [a, b]
  | .pairWord h0 h1 => h0.wf && h1.wf && !pairBroken h0 h1
  | .reservedOpcodeWord w l => if l then reservedF2 (w.extractLsb' 51 8).toNat else reservedOp (w.extractLsb' 56 8).toNat
  | .fill .. | .storeAcknowledge .. | .tableWalk .. | .engineOperationComplete .. | .engineHandleRecheck .. | .streamElementDelivery ..
  | .monitorGrant .. | .colourRequestRetry .. | .colourWaitTimeout .. | .cwaitTimeout .. | .watchdog .. | .sleepExpiry ..
  | .spawnOverflow .. | .binTimeout .. | .segmentSaveComplete .. | .segmentRestore .. | .budgetExhausted .. | .dependencyWatcherPrompt ..
  | .icacheFill .. | .sideLogReplay .. | .fsvcbRetry .. | .fsvcbCancelPage .. | .fsvcbCancelPasid .. | .priResponse .. | .atsCompletion ..
  | .atsCompletionTimeout .. | .doorbell .. | .qctlReset .. | .qctlEnableSet .. | .qctlEnableClear .. | .nopPacket .. | .launchPacket ..
  | .dmaPacket .. | .dmaComplete .. | .waitvPacket .. | .waitvPoll .. | .waitvTimeout .. | .signalPacket .. | .regionPacket ..
  | .regionCommit .. | .fencePacket .. | .timestampPacket .. | .pstopGo .. | .fwcommit .. | .firmwareUpdateRequest ..
  | .monitorPatchRequest .. | .patchConfirmation .. | .spdmRequest .. | .vlctlRetrain .. | .vlctlDisable .. | .registerWrite ..
  | .powerGood .. | .equaliseRound .. | .slots .. | .identity .. | .requestFlit .. | .responseFlit .. | .enqueueFlit ..
  | .managementFlit .. | .idleFlit .. | .replayRequest .. | .warmReset .. | .broadcastWordCopyUpdate .. | .unknownKindFlit ..
  | .atsInvalidationRequest .. | .detect | .detectRepeat | .rateLock | .rateTimeout | .equaliseTimeout | .deskew | .deskewTimeout
  | .slotsTimeout | .identityTimeout | .quarantineNoticeSend | .quarantineNotice | .remqPayloadLanding | .replayLimit | .linkLoss
  | .pcieLinkDown | .pcieLinkUp .. | .haltWake | .spillRetry | .dequeEntryStart | .stealRequest | .stealResponse | .stealBackoffExpiry
  | .gangPlacement | .frozenGangResume | .heatSweep | .fetcherTurn | .fwcallAnswer | .moncallAnswer | .gangRetire | .dependencyRetest
  | .reedHoldTimeout | .budgetWindowBoundary | .quiescentPoint | .quiescentTimeout | .trialWatchdog | .clockStepDown | .clockStepUp
  | .warmResetWritebackDeadline | .warmResetComplete | .powerRemoved => true

/-- A step of another agent than the cores' issue. -/
def Instr.isEvent : Instr → Bool
  | .fill .. | .storeAcknowledge .. | .tableWalk .. | .engineOperationComplete .. | .engineHandleRecheck .. | .streamElementDelivery ..
  | .monitorGrant .. | .colourRequestRetry .. | .colourWaitTimeout .. | .cwaitTimeout .. | .watchdog .. | .sleepExpiry ..
  | .spawnOverflow .. | .binTimeout .. | .segmentSaveComplete .. | .segmentRestore .. | .budgetExhausted .. | .dependencyWatcherPrompt ..
  | .icacheFill .. | .sideLogReplay .. | .fsvcbRetry .. | .fsvcbCancelPage .. | .fsvcbCancelPasid .. | .priResponse .. | .atsCompletion ..
  | .atsCompletionTimeout .. | .doorbell .. | .qctlReset .. | .qctlEnableSet .. | .qctlEnableClear .. | .nopPacket .. | .launchPacket ..
  | .dmaPacket .. | .dmaComplete .. | .waitvPacket .. | .waitvPoll .. | .waitvTimeout .. | .signalPacket .. | .regionPacket ..
  | .regionCommit .. | .fencePacket .. | .timestampPacket .. | .pstopGo .. | .fwcommit .. | .firmwareUpdateRequest ..
  | .monitorPatchRequest .. | .patchConfirmation .. | .spdmRequest .. | .vlctlRetrain .. | .vlctlDisable .. | .registerWrite ..
  | .powerGood .. | .equaliseRound .. | .slots .. | .identity .. | .requestFlit .. | .responseFlit .. | .enqueueFlit ..
  | .managementFlit .. | .idleFlit .. | .replayRequest .. | .warmReset .. | .broadcastWordCopyUpdate .. | .unknownKindFlit ..
  | .atsInvalidationRequest .. | .detect | .detectRepeat | .rateLock | .rateTimeout | .equaliseTimeout | .deskew | .deskewTimeout
  | .slotsTimeout | .identityTimeout | .quarantineNoticeSend | .quarantineNotice | .remqPayloadLanding | .replayLimit | .linkLoss
  | .pcieLinkDown | .pcieLinkUp .. | .haltWake | .spillRetry | .dequeEntryStart | .stealRequest | .stealResponse | .stealBackoffExpiry
  | .gangPlacement | .frozenGangResume | .heatSweep | .fetcherTurn | .fwcallAnswer | .moncallAnswer | .gangRetire | .dependencyRetest
  | .reedHoldTimeout | .budgetWindowBoundary | .quiescentPoint | .quiescentTimeout | .trialWatchdog | .clockStepDown | .clockStepUp
  | .warmResetWritebackDeadline | .warmResetComplete | .powerRemoved => true
  | _ => false

end Sys2Proof
end

