-- ==== Sys2Proof/Machine/Integer.lean ====
section
/-! DEFINITION. Integer, logic, address, packed and predicate words: R281 to R298. -/

namespace Sys2Proof.Machine

/-- Words of an operand: a register pair with .64 (R158). -/
def wWords (w64 : Bool) : Nat := if w64 then 2 else 1

/-- The U value of an operand as read. -/
def Opv.nat (o : Opv) (w64 : Bool) : Nat := if w64 then o.word.toNat else o.w32.toNat


/-- One integer operand of one width. -/
def intSrc (w64 : Bool) (x : Src) : SrcSpec := ⟨x, wWords w64, .int⟩

def alu1 (s : State) (o : A1) (w64 : Bool) (f : Nat → Nat → Nat) : State :=
  aluWord s o.pg [intSrc w64 o.a] (some o.d) (wWords w64) fun _ _ _ v =>
    { words := wordsOf (wWords w64) (f (wBits w64) ((opv v 0).nat w64)) }

def alu2 (s : State) (o : A2) (w64 : Bool) (f : Nat → Nat → Nat → Nat) : State :=
  aluWord s o.pg [intSrc w64 o.a, intSrc w64 o.b] (some o.d) (wWords w64) fun _ _ _ v =>
    { words := wordsOf (wWords w64) (f (wBits w64) ((opv v 0).nat w64) ((opv v 1).nat w64)) }

def alu3 (s : State) (o : A3) (w64 : Bool) (f : Nat → Nat → Nat → Nat → Nat) : State :=
  aluWord s o.pg [intSrc w64 o.a, intSrc w64 o.b, intSrc w64 o.c] (some o.d) (wWords w64) fun _ _ _ v =>
    { words := wordsOf (wWords w64) (f (wBits w64) ((opv v 0).nat w64) ((opv v 1).nat w64) ((opv v 2).nat w64)) }

/-- A shift: the amount is a 32-bit operand (R287). -/
def aluShift (s : State) (o : A2) (w64 : Bool) (f : Nat → Nat → Nat → Nat) : State :=
  aluWord s o.pg [intSrc w64 o.a, intSrc false o.b] (some o.d) (wWords w64) fun _ _ _ v =>
    { words := wordsOf (wWords w64) (f (wBits w64) ((opv v 0).nat w64) ((opv v 1).nat false)) }

/-- Packed operands: special specifiers read as halves (R271). -/
def packSrc (x : Src) : SrcSpec := ⟨x, 1, .pk⟩

def aluPacked (s : State) (o : A2) (f : Nat → Nat → Nat) : State :=
  aluWord s o.pg [packSrc o.a, packSrc o.b] (some o.d) 1 fun _ _ _ v =>
    { words := wordsOf 1 (packed f ((opv v 0).nat false) ((opv v 1).nat false)) }

/-! ## Moves and arithmetic -/

def execNop (pg : Guard) (s : State) : Host.Outcome State Fault Refusal := .next (perLane s pg fun s w t => withSrcs s w t [] .zero 0 noCauses fun _ _ => (s, .retire []))

/-- Shadows of a dual move: the source's components that are active, +0 in the others (R238). -/
def moveSh (s : State) (w : Workgroup) (t : Thread) (k : Nat) (v : Opv) : List (List W32) :=
  let cs := dualComps s w t
  if cs.isEmpty then []
  else (List.range w.shadows).map fun j => if cs.contains (j + 1) then (List.range k).map fun i => (v.sh.getD j []).getD i 0 else []

def execMov (o : A1) (w64 : Bool) (s : State) : Host.Outcome State Fault Refusal :=
  .next (aluProp s o.pg [intSrc w64 o.a] o.d (wWords w64) fun s w t v =>
    { words := (opv v 0).words.take (wWords w64), sh := moveSh s w t (wWords w64) (opv v 0) })

def execIadd (o : A2) (w64 u sat : Bool) (s : State) : Host.Outcome State Fault Refusal := .next (alu2 s o w64 (addW u sat))
def execIsub (o : A2) (w64 u sat : Bool) (s : State) : Host.Outcome State Fault Refusal := .next (alu2 s o w64 (subW u sat))

def carryWord (s : State) (o : A2) (n : BitVec 3) (w64 : Bool) (f : Nat → Nat → Nat → Nat → Nat × Bool) : State :=
  aluWord s o.pg [intSrc w64 o.a, intSrc w64 o.b] (some o.d) (wWords w64) fun _ _ t v =>
    let r := f (wBits w64) ((opv v 0).nat w64) ((opv v 1).nat w64) (predBit t n.toNat).toNat
    { words := wordsOf (wWords w64) r.1, preds := [(n.toNat, r.2)] }

def execIaddc (o : A2) (n : BitVec 3) (w64 : Bool) (s : State) : Host.Outcome State Fault Refusal := .next (carryWord s o n w64 addCarry)
def execIsubb (o : A2) (n : BitVec 3) (w64 : Bool) (s : State) : Host.Outcome State Fault Refusal := .next (carryWord s o n w64 subBorrow)
def execIneg (o : A1) (w64 sat : Bool) (s : State) : Host.Outcome State Fault Refusal := .next (alu1 s o w64 (negW sat))
def execIabs (o : A1) (w64 sat : Bool) (s : State) : Host.Outcome State Fault Refusal := .next (alu1 s o w64 (absW sat))
def execImul (o : A2) (w64 : Bool) (s : State) : Host.Outcome State Fault Refusal := .next (alu2 s o w64 mulW)
def execImulhi (o : A2) (w64 u : Bool) (s : State) : Host.Outcome State Fault Refusal := .next (alu2 s o w64 (mulHiW u))
def execImad (o : A3) (w64 : Bool) (s : State) : Host.Outcome State Fault Refusal := .next (alu3 s o w64 madW)

/-- IDIV and IREM are late (R282). -/
def divWord (s : State) (o : A2) (w64 : Bool) (f : Nat → Nat → Nat → Nat) : State :=
  aluLate s o.pg [intSrc w64 o.a, intSrc w64 o.b] o.d (wWords w64) fun _ _ _ v =>
    { words := wordsOf (wWords w64) (f (wBits w64) ((opv v 0).nat w64) ((opv v 1).nat w64)) }

def execIdiv (o : A2) (w64 u : Bool) (s : State) : Host.Outcome State Fault Refusal := .next (divWord s o w64 (divW u))
def execIrem (o : A2) (w64 u : Bool) (s : State) : Host.Outcome State Fault Refusal := .next (divWord s o w64 (remW u))
def execImin (o : A2) (w64 u : Bool) (s : State) : Host.Outcome State Fault Refusal := .next (alu2 s o w64 (minW u))
def execImax (o : A2) (w64 u : Bool) (s : State) : Host.Outcome State Fault Refusal := .next (alu2 s o w64 (maxW u))

def execIcmp (o : P2) (c : ICond) (w64 u : Bool) (s : State) : Host.Outcome State Fault Refusal :=
  .next (aluWord s o.pg [intSrc w64 o.a, intSrc w64 o.b] none 0 fun _ _ _ v =>
    { words := [], preds := [(o.pd.toNat, icmpW c u (wBits w64) ((opv v 0).nat w64) ((opv v 1).nat w64))] })

/-! ## Logic, shifts and bit fields -/

def execAnd (o : A2) (w64 : Bool) (s : State) : Host.Outcome State Fault Refusal := .next (alu2 s o w64 fun _ a b => a &&& b)
def execOr (o : A2) (w64 : Bool) (s : State) : Host.Outcome State Fault Refusal := .next (alu2 s o w64 fun _ a b => a ||| b)
def execXor (o : A2) (w64 : Bool) (s : State) : Host.Outcome State Fault Refusal := .next (alu2 s o w64 fun _ a b => a ^^^ b)
def execNot (o : A1) (w64 : Bool) (s : State) : Host.Outcome State Fault Refusal := .next (alu1 s o w64 notW)
def execAndn (o : A2) (w64 : Bool) (s : State) : Host.Outcome State Fault Refusal := .next (alu2 s o w64 andnW)
def execBool3 (o : A3) (t : BitVec 8) (w64 : Bool) (s : State) : Host.Outcome State Fault Refusal :=
  .next (alu3 s o w64 (bool3W t.toNat))
def execShl (o : A2) (w64 : Bool) (s : State) : Host.Outcome State Fault Refusal := .next (aluShift s o w64 shlW)
def execShr (o : A2) (w64 : Bool) (s : State) : Host.Outcome State Fault Refusal := .next (aluShift s o w64 shrW)
def execShra (o : A2) (w64 : Bool) (s : State) : Host.Outcome State Fault Refusal := .next (aluShift s o w64 shraW)
def execRotl (o : A2) (w64 : Bool) (s : State) : Host.Outcome State Fault Refusal := .next (aluShift s o w64 rotlW)

/-- FIELD_RANGE with the amount in TRAPAUX.detail (R288). -/
def fieldRange (k : Nat) : AluOut := { words := [], cause := some { code := 0x24, detail := BitVec.ofNat 32 k } }

def execFunnel (o : A3) (l w64 : Bool) (s : State) : Host.Outcome State Fault Refusal :=
  .next (aluWord s o.pg [intSrc w64 o.a, intSrc w64 o.b, intSrc false o.c] (some o.d) (wWords w64) fun _ _ _ v =>
    let k := (opv v 2).nat false
    if wBits w64 < k then fieldRange k
    else { words := wordsOf (wWords w64) (funnelW l (wBits w64) ((opv v 0).nat w64) ((opv v 1).nat w64) k) })

def execBfe (o : A2) (w64 u : Bool) (s : State) : Host.Outcome State Fault Refusal :=
  .next (aluWord s o.pg [intSrc w64 o.a, intSrc false o.b] (some o.d) (wWords w64) fun _ _ _ v =>
    let c := (opv v 1).nat false
    let pos := bits c 7 0
    let len := bits c 15 8
    if wBits w64 < pos + len then fieldRange (pos + len)
    else { words := wordsOf (wWords w64) (bfeW u (wBits w64) ((opv v 0).nat w64) pos len) })

def execBfi (o : A3) (w64 : Bool) (s : State) : Host.Outcome State Fault Refusal :=
  .next (aluWord s o.pg [intSrc w64 o.a, intSrc w64 o.b, intSrc false o.c] (some o.d) (wWords w64) fun _ _ _ v =>
    let c := (opv v 2).nat false
    let pos := bits c 7 0
    let len := bits c 15 8
    if wBits w64 < pos + len then fieldRange (pos + len)
    else { words := wordsOf (wWords w64) (bfiW ((opv v 0).nat w64) ((opv v 1).nat w64) pos len) })

def execPopc (o : A1) (w64 : Bool) (s : State) : Host.Outcome State Fault Refusal := .next (alu1 s o w64 popcW)
def execClz (o : A1) (w64 : Bool) (s : State) : Host.Outcome State Fault Refusal := .next (alu1 s o w64 clzW)
def execCtz (o : A1) (w64 : Bool) (s : State) : Host.Outcome State Fault Refusal := .next (alu1 s o w64 ctzW)
def execBrev (o : A1) (w64 : Bool) (s : State) : Host.Outcome State Fault Refusal := .next (alu1 s o w64 brevW)
def execBpick (o : A3) (s : State) : Host.Outcome State Fault Refusal := .next (alu3 s o false fun _ a b c => bpickW a b c)

def execLea (o : A2) (k : BitVec 3) (u : Bool) (s : State) : Host.Outcome State Fault Refusal :=
  .next (aluWord s o.pg [intSrc true o.a, intSrc false o.b] (some o.d) 2 fun _ _ _ v =>
    { words := wordsOf 2 (leaW u k.toNat ((opv v 0).nat true) ((opv v 1).nat false)) })

/-- SEL takes the chosen operand's tangent under dual semantics (R292, R238). -/
def execSel (o : A2) (n : BitVec 3) (neg w64 : Bool) (s : State) : Host.Outcome State Fault Refusal :=
  .next (aluWord s o.pg [intSrc w64 o.a, intSrc w64 o.b] (some o.d) (wWords w64) fun s w t v =>
    let x := if predBit t n.toNat != neg then opv v 0 else opv v 1
    { words := x.words.take (wWords w64), sh := moveSh s w t (wWords w64) x })

/-! ## Packed words -/

def execVadd2 (o : A2) (u sat : Bool) (s : State) : Host.Outcome State Fault Refusal := .next (aluPacked s o (addW u sat 16))
def execVsub2 (o : A2) (u sat : Bool) (s : State) : Host.Outcome State Fault Refusal := .next (aluPacked s o (subW u sat 16))
def execVmin2 (o : A2) (u : Bool) (s : State) : Host.Outcome State Fault Refusal := .next (aluPacked s o (minW u 16))
def execVmax2 (o : A2) (u : Bool) (s : State) : Host.Outcome State Fault Refusal := .next (aluPacked s o (maxW u 16))

def execAcsel2 (o : A3) (n : BitVec 3) (s : State) : Host.Outcome State Fault Refusal :=
  .next (aluWord s o.pg [packSrc o.a, packSrc o.b, packSrc o.c] (some o.d) 1 fun _ _ _ v =>
    let r := acsel2W ((opv v 0).nat false) ((opv v 1).nat false) ((opv v 2).nat false)
    { words := wordsOf 1 r.1, preds := [(n.toNat, r.2.1), (n.toNat + 1, r.2.2)] })

/-- A dot product; `k` says how special specifiers fill the elements of a and b. -/
def dotWord (s : State) (o : A3) (u sat : Bool) (k : OpK) (eb n : Nat) : State :=
  aluWord s o.pg [⟨o.a, 1, k⟩, ⟨o.b, 1, k⟩, intSrc false o.c] (some o.d) 1 fun _ _ _ v =>
    { words := wordsOf 1 (dotW u sat eb n ((opv v 0).nat false) ((opv v 1).nat false) ((opv v 2).nat false)) }

def execDot4 (o : A3) (u sat : Bool) (s : State) : Host.Outcome State Fault Refusal := .next (dotWord s o u sat .pk8 8 4)
def execDot2 (o : A3) (u sat : Bool) (s : State) : Host.Outcome State Fault Refusal := .next (dotWord s o u sat .pk 16 2)

def execCvti (o : A1) (src dst : IWidth) (du su sat : Bool) (s : State) : Host.Outcome State Fault Refusal :=
  .next (aluWord s o.pg [⟨o.a, src.k, .int⟩] (some o.d) dst.k fun _ _ _ v =>
    { words := wordsOf dst.k (cvtiW src dst du su sat ((opv v 0).nat (src = .w64))) })

/-! ## Predicate words -/

def execPbool3 (pg : Guard) (pd pa pb pc : BitVec 3) (t : BitVec 8) (s : State) : Host.Outcome State Fault Refusal :=
  .next (aluWord s pg [] none 0 fun _ _ x _ =>
    { words := [], preds := [(pd.toNat, bitAt t.toNat ((predBit x pa.toNat).toNat + 2 * (predBit x pb.toNat).toNat + 4 * (predBit x pc.toNat).toNat))] })

def execPtov (o : A2) (n c : BitVec 3) (w64 : Bool) (s : State) : Host.Outcome State Fault Refusal :=
  .next (aluWord s o.pg [intSrc w64 o.a, intSrc false o.b] (some o.d) (wWords w64) fun _ _ t v =>
    let k := (opv v 1).nat false % wBits w64
    { words := wordsOf (wWords w64) (ptovW (wBits w64) ((opv v 0).nat w64) k (c.toNat + 1) fun i => predBit t (n.toNat + i)) })

def execVtop (o : P2) (c : BitVec 3) (w64 : Bool) (s : State) : Host.Outcome State Fault Refusal :=
  .next (aluWord s o.pg [intSrc w64 o.a, intSrc false o.b] none 0 fun _ _ _ v =>
    let k := (opv v 1).nat false % wBits w64
    { words := [], preds := (List.range (c.toNat + 1)).map fun i => (o.pd.toNat + i, vtopBit (wBits w64) ((opv v 0).nat w64) k i) })

end Sys2Proof.Machine
end

