-- ==== Sys2Proof/Machine/Float.lean ====
section
/-! DEFINITION. Floating-point and conversion words (R308 to R324), their tangents (R237, R238, R332) and pair words (R272, R273). -/

namespace Sys2Proof.Machine

/-! ## Patterns and modifiers (R308 to R310) -/

def ffmt : FFmt → Fmt
  | .f32 => .b32
  | .f16 => .b16
  | .bf16 => .bf16

def cfmt : CFmt → Fmt
  | .b32 => .b32
  | .b16 => .b16
  | .bf16 => .bf16
  | .b64 => .b64

/-- Words of a value of a format. -/
def fWords (f : Fmt) : Nat := if f.width = 64 then 2 else 1

def signBit (f : Fmt) : Nat := 2 ^ (f.width - 1)
def signOf (f : Fmt) (x : Nat) : Bool := bitAt x (f.width - 1)

/-- Absolute value and negate act on bits (R309). -/
def applyMod (f : Fmt) (m : Bool × Bool) (x : Nat) : Nat :=
  let x := if m.1 then x % signBit f else x
  if m.2 then x ^^^ signBit f else x

/-- The same modifiers on the tangent of `x` (R238). -/
def tanMod (f : Fmt) (m : Bool × Bool) (x t : Nat) : Nat :=
  if (m.1 && signOf f x) != m.2 then t ^^^ signBit f else t

/-! ## Operations -/

/-- A tangent: an exact value to be rounded once (R237), or a pattern that is moved (R238). -/
inductive TanRes where
  | real (x : Num)
  | pat (x : Nat)

/-- An operation on the patterns of one value or half. -/
structure FOp where
  op : RMode → List Nat → FRes
  /-- from the rounding direction, the operands, the result and the operands' tangents; none: zero tangents -/
  tan : Option (Bool → List Nat → Nat → List Nat → TanRes)

/-- The format of a word and the bit offsets of the values in it. -/
structure FShape where
  fmt : Fmt
  offs : List Nat

def FShape.scalar (f : Fmt) : FShape := ⟨f, [0]⟩
def FShape.halves (f : Fmt) : FShape := ⟨f, [0, 16]⟩

def FShape.kind (h : FShape) : OpK := if h.offs.length = 1 then .fl h.fmt else .pkf h.fmt

/-- The value at an offset of a word. -/
def part (f : Fmt) (x off : Nat) : Nat := (x / 2 ^ off) % 2 ^ f.width

def nth (l : List Nat) (i : Nat) : Nat := l.getD i 0

/-- Patterns, flags and the rounding state so far. -/
structure FAcc where
  y : Nat
  flags : Flags
  st : W32

/-- The primal result, the low half first. -/
def primal (h : FShape) (rnd : Rnd) (o : FOp) (ops : List Nat) (st : W32) : FAcc :=
  h.offs.foldl (fun a off =>
    let (m, st) := draw rnd a.st
    let r := o.op m (ops.map fun x => part h.fmt x off)
    ⟨a.y + r.bits * 2 ^ off, a.flags ||| r.flags, st⟩) ⟨0, 0, st⟩

/-- One tangent component. -/
def tangent (h : FShape) (rnd : Rnd) (tan : Bool → List Nat → Nat → List Nat → TanRes) (ops : List Nat) (y : Nat) (ts : List Nat) (st : W32) :
    Nat × W32 :=
  h.offs.foldl (fun a off =>
    let p := fun x => part h.fmt x off
    match tan (rnd == .rd) (ops.map p) (p y) (ts.map p) with
    | .pat z => (a.1 + z * 2 ^ off, a.2)
    | .real z =>
      let (m, st) := draw rnd a.2
      (a.1 + (h.fmt.round m z).bits * 2 ^ off, st)) (0, st)

/-- Applies the modifiers of one operand to every value of a word. -/
def modWord (h : FShape) (m : Bool × Bool) (x : Nat) : Nat :=
  h.offs.foldl (fun acc off => acc + applyMod h.fmt m (part h.fmt x off) * 2 ^ off) 0

def tanWord (h : FShape) (m : Bool × Bool) (x t : Nat) : Nat :=
  h.offs.foldl (fun acc off => acc + tanMod h.fmt m (part h.fmt x off) (part h.fmt t off) * 2 ^ off) 0

def wordsNat (l : List W32) : Nat := l.foldr (fun w acc => w.toNat + 2 ^ 32 * acc) 0

/-- One lane of a floating word (R311, R237). -/
def floatLane (h : FShape) (rnd : Rnd) (mods : List (Bool × Bool)) (o : FOp) (s : State) (w : Workgroup) (t : Thread) (v : List Opv) : AluOut :=
  let k := fWords h.fmt
  let raw := v.map fun x => wordsNat (x.words.take k)
  let ops := List.zipWith (modWord h) mods raw
  let a := primal h rnd o ops t.rng
  let comps := dualComps s w t
  match o.tan with
  | none => { words := wordsOf k a.y, flags := a.flags, rng := some a.st }
  | some tan =>
    let r := comps.foldl (fun (acc : List (Nat × Nat) × W32) j =>
      let ts := List.zipWith (fun (m : (Bool × Bool) × Nat) (x : Opv) => tanWord h m.1 m.2 (wordsNat ((x.sh.getD (j - 1) []).take k))) (List.zip mods raw) v
      let z := tangent h rnd tan ops a.y ts acc.2
      (acc.1 ++ [(j, z.1)], z.2)) ([], t.tanrng)
    { words := wordsOf k a.y, sh := compsToSh k w.shadows r.1, flags := a.flags, rng := some a.st, tanrng := some r.2 }

def fSrc (h : FShape) (x : Src) : SrcSpec := ⟨x, fWords h.fmt, h.kind⟩

/-- A floating word whose result is written at once. -/
def floatWord (s : State) (pg : Guard) (d : Dst) (srcs : List Src) (h : FShape) (rnd : Rnd) (mods : List (Bool × Bool)) (o : FOp) : State :=
  aluWord s pg (srcs.map (fSrc h)) (some d) (fWords h.fmt) (floatLane h rnd mods o)

/-- A floating word whose destination goes PENDING (R167). -/
def floatLate (s : State) (pg : Guard) (d : Dst) (srcs : List Src) (h : FShape) (rnd : Rnd) (mods : List (Bool × Bool)) (o : FOp) : State :=
  aluLate s pg (srcs.map (fSrc h)) d (fWords h.fmt) (floatLane h rnd mods o)

def modsOf (m : FMod) : List (Bool × Bool) := [(m.aAbs, m.aNeg), (m.bAbs, m.bNeg), (false, m.cNeg)]

/-! ## Arithmetic (R312, R237) -/

/-- An arithmetic operation from its exact value and the exact value of its tangent. -/
def arith (f : Fmt) (val : Bool → List Num → Num) (tan : Bool → List Num → Num → List Num → Num) : FOp :=
  { op := fun m l => f.round m (val m.isRd (l.map f.decode)),
    tan := some fun rd l y ts => .real (tan rd (l.map f.decode) (f.decode y) (ts.map f.decode)) }

def num (l : List Num) (i : Nat) : Num := l.getD i Num.zero

def fAdd (f : Fmt) : FOp := arith f (fun rd l => Num.add rd (num l 0) (num l 1)) fun rd _ _ t => Num.add rd (num t 0) (num t 1)
def fSub (f : Fmt) : FOp :=
  arith f (fun rd l => Num.add rd (num l 0) (num l 1).neg) fun rd _ _ t => Num.add rd (num t 0) (num t 1).neg
def fMul (f : Fmt) : FOp :=
  arith f (fun _ l => Num.mul (num l 0) (num l 1)) fun rd l _ t => Num.add rd (Num.mul (num l 0) (num t 1)) (Num.mul (num t 0) (num l 1))
def fFma (f : Fmt) : FOp :=
  arith f (fun rd l => Num.add rd (Num.mul (num l 0) (num l 1)) (num l 2)) fun rd l _ t =>
    Num.add rd (Num.add rd (Num.mul (num l 0) (num t 1)) (Num.mul (num t 0) (num l 1))) (num t 2)

/-- Which operand a minimum or maximum takes: false the first, none a NaN (R227). -/
def pick (f : Fmt) (max prop : Bool) (a b : Nat) : Option Bool :=
  let x := f.decode a
  let y := f.decode b
  if x.isNan && y.isNan then none
  else if x.isNan || y.isNan then (if prop then none else some x.isNan)
  else
    let lt := y.lt x || (x.isZero && y.isZero && !x.sign && y.sign)
    let gt := x.lt y || (x.isZero && y.isZero && x.sign && !y.sign)
    some (if max then gt else lt)

def fMinMax (f : Fmt) (max prop : Bool) : FOp :=
  { op := fun _ l => ⟨match pick f max prop (nth l 0) (nth l 1) with
      | none => f.nan
      | some false => nth l 0
      | some true => nth l 1,
      if (f.decode (nth l 0)).sig || (f.decode (nth l 1)).sig then 1 else 0⟩,
    tan := some fun _ l _ t => .pat (match pick f max prop (nth l 0) (nth l 1) with
      | none => f.nan
      | some false => nth t 0
      | some true => if (f.decode (nth l 0)).eq (f.decode (nth l 1)) then nth t 0 else nth t 1) }

/-- The bits of a with the sign of b. -/
def fCopysgn (f : Fmt) : FOp :=
  { op := fun _ l => ⟨nth l 0 % signBit f + (signOf f (nth l 1)).toNat * signBit f, 0⟩,
    tan := some fun _ l _ t => .pat (if signOf f (nth l 0) != signOf f (nth l 1) then nth t 0 ^^^ signBit f else nth t 0) }

/-- FRND never sets inexact and keeps the sign. -/
def fRnd (f : Fmt) : FOp :=
  { op := fun m l => match f.decode (nth l 0) with
      | .fin b n d => ⟨(f.round .rz (.fin b (roundUnit m b n d 0).1 1)).bits, 0⟩
      | x => f.round m x,
    tan := none }

def fDiv (f : Fmt) : FOp :=
  { op := fun m l =>
      let q := Num.div (f.decode (nth l 0)) (f.decode (nth l 1))
      let r := f.round m q.1
      ⟨r.bits, r.flags ||| (if q.2 then 2 else 0)⟩,
    tan := some fun rd l y t => .real (Num.div (Num.add rd (f.decode (nth t 0)) (Num.mul (f.decode y) (f.decode (nth t 1))).neg) (f.decode (nth l 1))).1 }

/-! ## Special functions (R315) -/

def special (val : Num → Num × Flags) (tan : Bool → Num → Num → Num → Num) : FOp :=
  { op := fun m l =>
      let v := val (Fmt.b32.decode (nth l 0))
      let r := Fmt.b32.round m v.1
      ⟨r.bits, r.flags ||| v.2⟩,
    tan := some fun rd l y t => .real (tan rd (Fmt.b32.decode (nth l 0)) (Fmt.b32.decode y) (Fmt.b32.decode (nth t 0))) }

def sqrtVal : Num → Num × Flags
  | .nan s => (.nan s, 0)
  | .inf b => (if b then .nan true else .inf false, 0)
  | .fin b 0 _ => (.fin b 0 1, 0)
  | .fin true _ _ => (.nan true, 0)
  | .fin false n d => (sqrtNum n d, 0)

def rcpVal (x : Num) : Num × Flags :=
  let q := Num.div Num.one x
  (q.1, if q.2 then 2 else 0)

def rsqVal : Num → Num × Flags
  | .nan s => (.nan s, 0)
  | .inf b => (if b then .nan true else Num.zero, 0)
  | .fin b 0 _ => (.inf b, 2)
  | .fin true _ _ => (.nan true, 0)
  | .fin false n d => (sqrtNum d n, 0)

/-- Arguments beyond 400 leave the range of the format. -/
def exp2Val : Num → Num × Flags
  | .nan s => (.nan s, 0)
  | .inf b => (if b then Num.zero else .inf false, 0)
  | .fin b n d =>
    if n = 0 then (Num.one, 0)
    else if 400 * d < n then (Num.scale Num.one (if b then -400 else 400), 0)
    else (exp2Num b n d, 0)

def log2Val : Num → Num × Flags
  | .nan s => (.nan s, 0)
  | .inf b => (if b then .nan true else .inf false, 0)
  | .fin _ 0 _ => (.inf true, 2)
  | .fin true _ _ => (.nan true, 0)
  | .fin false n d => (log2Num n d, 0)

def sinPiVal : Num → Num
  | .nan s => .nan s
  | .inf _ => .nan true
  | .fin b n d => sinPiNum b n d

def cosPiVal : Num → Num
  | .nan s => .nan s
  | .inf _ => .nan true
  | .fin _ n d => cosPiNum n d

def tanhVal : Num → Num × Flags
  | .nan s => (.nan s, 0)
  | .inf b => (.fin b 1 1, 0)
  | .fin b n d => (if n = 0 then .fin b 0 1 else tanhNum b n d, 0)

def two : Num := .fin false 2 1
def oneHalf : Num := .fin false 1 2

def fSqrt : FOp := special sqrtVal fun _ _ y t => (Num.div t (Num.mul two y)).1
def fRcp : FOp := special rcpVal fun _ _ y t => (Num.mul t (Num.mul y y)).neg
def fRsq : FOp := special rsqVal fun _ _ y t => (Num.mul (Num.mul t (Num.mul y (Num.mul y y))) oneHalf).neg
def fExp2 : FOp := special exp2Val fun _ _ y t => Num.mul (Num.mul t y) ln2Num
def fLog2 : FOp := special log2Val fun _ a _ t => (Num.div t (Num.mul a ln2Num)).1
def fSinpi : FOp := special (fun x => (sinPiVal x, 0)) fun _ a _ t => Num.mul (Num.mul piNum (cosPiVal a)) t
def fCospi : FOp := special (fun x => (cosPiVal x, 0)) fun _ a _ t => (Num.mul (Num.mul piNum (sinPiVal a)) t).neg
def fTanh : FOp := special tanhVal fun rd _ y t => Num.mul (Num.add rd Num.one (Num.mul y y).neg) t

/-! ## The arithmetic words -/

def scalar2 (s : State) (o : A2) (m : FMod) (f : Fmt → FOp) : State :=
  floatWord s o.pg o.d [o.a, o.b] (.scalar (ffmt m.fmt)) m.rnd (modsOf m) (f (ffmt m.fmt))

def execFadd (o : A2) (m : FMod) (s : State) : Host.Outcome State Fault Refusal := .next (scalar2 s o m fAdd)
def execFsub (o : A2) (m : FMod) (s : State) : Host.Outcome State Fault Refusal := .next (scalar2 s o m fSub)
def execFmul (o : A2) (m : FMod) (s : State) : Host.Outcome State Fault Refusal := .next (scalar2 s o m fMul)
def execFfma (o : A3) (m : FMod) (s : State) : Host.Outcome State Fault Refusal :=
  .next (floatWord s o.pg o.d [o.a, o.b, o.c] (.scalar (ffmt m.fmt)) m.rnd (modsOf m) (fFma (ffmt m.fmt)))
def execFmin (o : A2) (m : FMod) (s : State) : Host.Outcome State Fault Refusal := .next (scalar2 s o m fun f => fMinMax f false false)
def execFmax (o : A2) (m : FMod) (s : State) : Host.Outcome State Fault Refusal := .next (scalar2 s o m fun f => fMinMax f true false)
def execFminp (o : A2) (m : FMod) (s : State) : Host.Outcome State Fault Refusal := .next (scalar2 s o m fun f => fMinMax f false true)
def execFmaxp (o : A2) (m : FMod) (s : State) : Host.Outcome State Fault Refusal := .next (scalar2 s o m fun f => fMinMax f true true)

/-- FCMP (R313). -/
def fcmpVal (c : FCond) (x y : Num) : Bool :=
  let un := x.isNan || y.isNan
  match c with
  | .eq => x.eq y
  | .ne => !(x.eq y)
  | .lt => !un && x.lt y
  | .le => !un && !y.lt x
  | .gt => !un && y.lt x
  | .ge => !un && !x.lt y
  | .num => !un
  | .nan => un

def execFcmp (o : P2) (c : FCond) (m : FMod) (s : State) : Host.Outcome State Fault Refusal :=
  let f := ffmt m.fmt
  let h := FShape.scalar f
  .next (aluWord s o.pg [fSrc h o.a, fSrc h o.b] none 0 fun _ _ _ v =>
    let x := f.decode (applyMod f (m.aAbs, m.aNeg) (part f ((opv v 0).nat false) 0))
    let y := f.decode (applyMod f (m.bAbs, m.bNeg) (part f ((opv v 1).nat false) 0))
    { words := [], preds := [(o.pd.toNat, fcmpVal c x y)], flags := if x.sig || y.sig then 1 else 0 })

/-- The class bit of a pattern (R314). -/
def fclassBit (f : Fmt) (x : Nat) : Nat :=
  let e := (x / 2 ^ f.mbits) % 2 ^ f.ebits
  match f.decode x with
  | .nan s => if s then 8 else 9
  | .inf b => if b then 0 else 7
  | .fin b n _ => if n = 0 then (if b then 3 else 4) else if e = 0 then (if b then 2 else 5) else (if b then 1 else 6)

def execFclass (o : A1) (fmt : FFmt) (s : State) : Host.Outcome State Fault Refusal :=
  let f := ffmt fmt
  .next (aluWord s o.pg [fSrc (.scalar f) o.a] (some o.d) 1 fun _ _ _ v =>
    { words := wordsOf 1 (2 ^ fclassBit f (part f ((opv v 0).nat false) 0)) })

def noMods : List (Bool × Bool) := [(false, false), (false, false), (false, false)]

def execFcopysgn (o : A2) (fmt : FFmt) (s : State) : Host.Outcome State Fault Refusal :=
  .next (floatWord s o.pg o.d [o.a, o.b] (.scalar (ffmt fmt)) .rn noMods (fCopysgn (ffmt fmt)))

def execFrnd (o : A1) (m : FMod) (s : State) : Host.Outcome State Fault Refusal :=
  .next (floatWord s o.pg o.d [o.a] (.scalar (ffmt m.fmt)) m.rnd (modsOf m) (fRnd (ffmt m.fmt)))

def execFdiv (o : A2) (m : FMod) (s : State) : Host.Outcome State Fault Refusal :=
  .next (floatLate s o.pg o.d [o.a, o.b] (.scalar .b32) m.rnd (modsOf m) (fDiv .b32))

def specialWord (s : State) (o : A1) (m : FMod) (f : FOp) : State :=
  floatLate s o.pg o.d [o.a] (.scalar .b32) m.rnd (modsOf m) f

def execFsqrt (o : A1) (m : FMod) (s : State) : Host.Outcome State Fault Refusal := .next (specialWord s o m fSqrt)
def execFrcp (o : A1) (m : FMod) (s : State) : Host.Outcome State Fault Refusal := .next (specialWord s o m fRcp)
def execFrsq (o : A1) (m : FMod) (s : State) : Host.Outcome State Fault Refusal := .next (specialWord s o m fRsq)
def execFexp2 (o : A1) (m : FMod) (s : State) : Host.Outcome State Fault Refusal := .next (specialWord s o m fExp2)
def execFlog2 (o : A1) (m : FMod) (s : State) : Host.Outcome State Fault Refusal := .next (specialWord s o m fLog2)
def execFsinpi (o : A1) (m : FMod) (s : State) : Host.Outcome State Fault Refusal := .next (specialWord s o m fSinpi)
def execFcospi (o : A1) (m : FMod) (s : State) : Host.Outcome State Fault Refusal := .next (specialWord s o m fCospi)
def execFtanh (o : A1) (m : FMod) (s : State) : Host.Outcome State Fault Refusal := .next (specialWord s o m fTanh)

/-! ## Packed halves and binary64 (R316 to R318) -/

def halves2 (s : State) (o : A2) (m : FMod) (f : Fmt → FOp) : State :=
  floatWord s o.pg o.d [o.a, o.b] (.halves (ffmt m.fmt)) m.rnd (modsOf m) (f (ffmt m.fmt))

def execHadd2 (o : A2) (m : FMod) (s : State) : Host.Outcome State Fault Refusal := .next (halves2 s o m fAdd)
def execHmul2 (o : A2) (m : FMod) (s : State) : Host.Outcome State Fault Refusal := .next (halves2 s o m fMul)
def execHfma2 (o : A3) (m : FMod) (s : State) : Host.Outcome State Fault Refusal :=
  .next (floatWord s o.pg o.d [o.a, o.b, o.c] (.halves (ffmt m.fmt)) m.rnd (modsOf m) (fFma (ffmt m.fmt)))
def execHmin2 (o : A2) (m : FMod) (s : State) : Host.Outcome State Fault Refusal := .next (halves2 s o m fun f => fMinMax f false false)
def execHmax2 (o : A2) (m : FMod) (s : State) : Host.Outcome State Fault Refusal := .next (halves2 s o m fun f => fMinMax f true false)

/-- The sum of HDOT2 and whether it is invalid (R317). -/
def hdotSum (rd : Bool) (l : List Num) : Num :=
  let bad := l.any (·.sig) || (l.contains (.inf false) && l.contains (.inf true))
  if bad || l.any (·.isNan) then .nan bad else l.foldl (Num.add rd) (if l.all fun x => x.isZero && x.sign then .fin true 0 1 else Num.zero)

/-- HDOT2 over c and the halves of a and b. -/
def hdotTerms (f : Fmt) (a b : Nat) (c : Num) : List Num :=
  let p := fun off => Num.mul (f.decode (part f a off)) (f.decode (part f b off))
  [c, p 0, p 16]

/-- The exact sum, with the sign of an exact zero as R224: −0 only when every term is −0, or under .rd unless every term is +0. -/
def hdotExact (rd : Bool) (l : List Num) : Num :=
  match hdotSum false l with
  | .fin b 0 d => if rd && !(l.all fun x => x.isZero && !x.sign) then .fin true 0 d else .fin b 0 d
  | x => x

def execHdot2 (o : A3) (m : FMod) (s : State) : Host.Outcome State Fault Refusal :=
  let f := ffmt m.fmt
  let h := FShape.halves f
  .next (aluWord s o.pg [fSrc h o.a, fSrc h o.b, ⟨o.c, 1, .fl .b32⟩] (some o.d) 1 fun s w t v =>
    let ra := (opv v 0).nat false
    let rb := (opv v 1).nat false
    let rc := (opv v 2).nat false
    let a := modWord h (m.aAbs, m.aNeg) ra
    let b := modWord h (m.bAbs, m.bNeg) rb
    let c := applyMod .b32 (false, m.cNeg) rc
    let (rm, st) := draw m.rnd t.rng
    let r := Fmt.b32.round rm (hdotExact rm.isRd (hdotTerms f a b (Fmt.b32.decode c)))
    let tans := (dualComps s w t).foldl (fun (acc : List (Nat × Nat) × W32) j =>
      let tv := fun i => wordsNat ((((opv v i).sh).getD (j - 1) []).take 1)
      let ta := tanWord h (m.aAbs, m.aNeg) ra (tv 0)
      let tb := tanWord h (m.bAbs, m.bNeg) rb (tv 1)
      let tc := tanMod .b32 (false, m.cNeg) rc (tv 2)
      let p := fun (x y off : Nat) => Num.mul (f.decode (part f x off)) (f.decode (part f y off))
      let (rt, st) := draw m.rnd acc.2
      let z := Fmt.b32.round rt (hdotExact rt.isRd [p ta b 0, p a tb 0, p ta b 16, p a tb 16, Fmt.b32.decode tc])
      (acc.1 ++ [(j, z.bits)], st)) ([], t.tanrng)
    { words := wordsOf 1 r.bits, sh := compsToSh 1 w.shadows tans.1, flags := r.flags, rng := some st, tanrng := some tans.2 })

def execDadd (o : A2) (m : FMod) (s : State) : Host.Outcome State Fault Refusal :=
  .next (floatLate s o.pg o.d [o.a, o.b] (.scalar .b64) m.rnd (modsOf m) (fAdd .b64))
def execDmul (o : A2) (m : FMod) (s : State) : Host.Outcome State Fault Refusal :=
  .next (floatLate s o.pg o.d [o.a, o.b] (.scalar .b64) m.rnd (modsOf m) (fMul .b64))
def execDfma (o : A3) (m : FMod) (s : State) : Host.Outcome State Fault Refusal :=
  .next (floatLate s o.pg o.d [o.a, o.b, o.c] (.scalar .b64) m.rnd (modsOf m) (fFma .b64))

/-! ## Conversions (R319 to R322) -/

/-- A word with causes that do not depend on its operands' values: R8 orders them among all its causes. -/
def aluWordPre (s : State) (pg : Guard) (l : List SrcSpec) (d : Dst) (kd : Nat) (pre : Thread → List Cause)
    (f : State → Workgroup → Thread → List Opv → AluOut) : State :=
  perLane s pg fun s w t =>
    withSrcs s w t l d kd (fun vals => pre t ++ aluEat (f s w t) vals) fun vals pops =>
      let o := f s w t vals
      match o.cause with
      | some c => (s, .trap c)
      | none => aluRetire s w t l pops (some d) o

def execFcvt (o : A1) (dst src : CFmt) (rnd : Rnd) (s : State) : Host.Outcome State Fault Refusal :=
  let fd := cfmt dst
  let fs := cfmt src
  let ks := fWords fs
  let kd := fWords fd
  .next (aluWordPre s o.pg [⟨o.a, ks, .fl fs⟩] o.d kd (fun _ => if dst = src then [{ code := 0x22 }] else []) fun s w t v =>
    let a := wordsNat ((opv v 0).words.take ks)
    let (m, st) := draw rnd t.rng
    let r := fd.round m (fs.decode (a % 2 ^ fs.width))
    let tans := (dualComps s w t).foldl (fun (acc : List (Nat × Nat) × W32) j =>
      let x := wordsNat ((((opv v 0).sh).getD (j - 1) []).take ks)
      let (m, st) := draw rnd acc.2
      (acc.1 ++ [(j, (fd.round m (fs.decode (x % 2 ^ fs.width))).bits)], st)) ([], t.tanrng)
    { words := wordsOf kd r.bits, sh := compsToSh kd w.shadows tans.1, flags := r.flags, rng := some st, tanrng := some tans.2 })

/-- F2I of a value: the pattern and its flags (R320). -/
def f2iVal (m : RMode) (u : Bool) (w : Nat) (x : Num) : Nat × Flags :=
  let hi : Int := if u then 2 ^ w - 1 else 2 ^ (w - 1) - 1
  let lo : Int := if u then 0 else -(2 ^ (w - 1))
  match x with
  | .nan _ => (0, 1)
  | .inf b => (wrap w (if b then lo else hi), 1)
  | .fin b n d =>
    let (k, exact) := roundInt m b n d
    if k < lo then (wrap w lo, 1)
    else if hi < k then (wrap w hi, 1)
    else (wrap w k, if exact then 0 else 16)

def execF2i (o : A1) (src : CFmt) (rnd : Rnd) (d64 du : Bool) (s : State) : Host.Outcome State Fault Refusal :=
  let fs := cfmt src
  .next (aluWord s o.pg [⟨o.a, fWords fs, .fl fs⟩] (some o.d) (wWords d64) fun _ _ t v =>
    let a := wordsNat ((opv v 0).words.take (fWords fs))
    let x := fs.decode (a % 2 ^ fs.width)
    let (m, st) := draw rnd t.rng
    let r := f2iVal m du (wBits d64) x
    { words := wordsOf (wWords d64) r.1, flags := r.2, rng := if x.isNan then none else some st })

def execI2f (o : A1) (dst : CFmt) (rnd : Rnd) (s64 su : Bool) (s : State) : Host.Outcome State Fault Refusal :=
  let fd := cfmt dst
  .next (aluWord s o.pg [intSrc s64 o.a] (some o.d) (fWords fd) fun _ _ t v =>
    let (m, st) := draw rnd t.rng
    let r := fd.round m (Num.ofInt (ival su (wBits s64) ((opv v 0).nat s64)) 1 false)
    { words := wordsOf (fWords fd) r.bits, flags := r.flags, rng := some st })

/-- The record that a SELF descriptor stands for (R322). -/
def descRec (quant : Bool) (x : Nat) : Option TRec :=
  let code := bits x 7 0
  let scale := bits x 15 8
  if (efmtOf code).isNone || (quant && (scale == 0xFF || (scale != 127 && !blockScaled code))) then none
  else some ⟨code, scale, 0, .rn, false⟩

/-- Whether the active lanes cover whole blocks of 32 (R322). -/
def wholeBlocks (l : List Nat) : Bool :=
  [0, 1].all fun b =>
    let n := (l.filter fun x => x / 32 == b).length
    n == 0 || n == 32

/-- CVTQ and CVTDQ: the record comes from an even g register, or from a descriptor in a register. -/
def convWord (s : State) (o : A2) (desc quant : Bool) (f : TRec → EFmt → Thread → Nat → FRes × W32) : State :=
  let whole := wholeBlocks ((activeLanes s o.pg).map fun e => e.1.tid.lane)
  let rec_ := fun (t : Thread) => match o.b.op with
    | .g n => ((getWarp s t.tid.core t.tid.slot).map fun w => Word.pair (kget 0 n.toNat w.g) (kget 0 (n.toNat + 1) w.g)).getD 0
    | _ => 0
  let part_ := fun (r : TRec) => if r.scale != 127 && !whole then [{ code := 0x23 : Cause }] else []
  let pre := fun t => if desc then [] else match parseTRec (rec_ t) with
    | none => [{ code := 0x20 }]
    | some r => part_ r
  aluWordPre s o.pg [⟨o.a, 1, if quant then .fl .b32 else .int⟩, ⟨o.b, if desc then 1 else 2, .int⟩] o.d 1 pre fun _ _ t v =>
    match if desc then descRec quant ((opv v 1).nat false % 65536) else parseTRec (rec_ t) with
    | none => { words := [], cause := some { code := 0x21 } }
    | some r =>
      match (if desc then part_ r else []), efmtOf r.fmt with
      | c :: _, _ => { words := [], cause := some c }
      | [], none => { words := [], cause := some { code := 0x21 } }
      | [], some e =>
        let (x, st) := f r e t ((opv v 0).nat false)
        { words := wordsOf 1 x.bits, flags := x.flags, rng := some st }

/-- Whether R231 rounds the value: not a NaN, and not an infinity that passes. -/
def roundsRec (e : EFmt) (r : TRec) (x : Num) : Bool :=
  match x with
  | .nan _ => false
  | .inf _ => !(r.infPass && (match e with | .fl g => g.top == .ieee | _ => false))
  | .fin .. => true

def execCvtq (o : A2) (desc : Bool) (s : State) : Host.Outcome State Fault Refusal :=
  .next (convWord s o desc true fun r e t a =>
    let (m, st) := draw r.rnd t.rng
    let x := Fmt.b32.decode a
    (convertRec e r m x, if roundsRec e r x then st else t.rng))

def execCvtdq (o : A2) (desc : Bool) (s : State) : Host.Outcome State Fault Refusal :=
  .next (convWord s o desc false fun r e t a =>
    let x := decodeScaled e r.scale (a % 2 ^ e.width)
    let (m, st) := draw r.rnd t.rng
    (Fmt.b32.round m x, if x.isNan then t.rng else st))

/-! ## Pair words (R272, R273, R324) -/

/-- Words that a pairable operation reads beside a and b. -/
def sopReads (h : Half) : List (BitVec 8) :=
  match h.sop with
  | .fmac => [h.a, h.b, h.d]
  | .hfmac2 => [h.a, h.b, h.d]
  | .mov => [h.a]
  | _ => [h.a, h.b]

/-- The integer value of a pairable operation, if it is one. -/
def sopInt (p : Sop) (a b : Nat) : Option Nat :=
  match p with
  | .iadd => some (addW false false 32 a b)
  | .isub => some (subW false false 32 a b)
  | .and => some (a &&& b)
  | .or => some (a ||| b)
  | .xor => some (a ^^^ b)
  | .shl => some (shlW 32 a b)
  | .shr => some (shrW 32 a b)
  | .imin => some (minW false 32 a b)
  | .imax => some (maxW false 32 a b)
  | .vadd2 => some (packed (addW false false 16) a b)
  | .vmin2 => some (packed (minW false 16) a b)
  | _ => none

/-- The floating operation of a pairable operation. -/
def sopFloat (p : Sop) : FShape × FOp :=
  match p with
  | .fsub => (.scalar .b32, fSub .b32)
  | .fmul => (.scalar .b32, fMul .b32)
  | .fmac => (.scalar .b32, fFma .b32)
  | .fmin => (.scalar .b32, fMinMax .b32 false false)
  | .fmax => (.scalar .b32, fMinMax .b32 true false)
  | .hadd2 => (.halves .b16, fAdd .b16)
  | .hmul2 => (.halves .b16, fMul .b16)
  | .hfmac2 => (.halves .b16, fFma .b16)
  | _ => (.scalar .b32, fAdd .b32)

def halfOut (h : Half) (s : State) (w : Workgroup) (t : Thread) (v : List Opv) : AluOut :=
  match h.sop with
  | .mov => { words := (opv v 0).words.take 1, sh := moveSh s w t 1 (opv v 0), bad := (opv v 0).bad }
  | p =>
    match sopInt p ((opv v 0).nat false) ((opv v 1).nat false) with
    | some x => { words := wordsOf 1 x }
    | none => floatLane (sopFloat p).1 .rn noMods (sopFloat p).2 s w t v

def halfSrcs (h : Half) : List SrcSpec := (sopReads h).map fun n => ⟨⟨.v n, false, false⟩, 1, .int⟩

/-- Both halves read before either writes; lr takes half 1's result (R273). -/
def execPairWord (h0 h1 : Half) (s : State) : Host.Outcome State Fault Refusal :=
  .next (perLane s ⟨false, 7⟩ fun s w t =>
    let c1 := dstCheck w t (.v h1.d) 1
    let l := halfSrcs h0 ++ halfSrcs h1
    let first := fun (v : List Opv) => v.take (halfSrcs h0).length
    let second := fun (v : List Opv) => v.drop (halfSrcs h0).length
    let eat := fun (h : Half) (v : List Opv) => if h.sop == .mov then [] else poisonCauses [] v
    withSrcs s w t l (.v h0.d) 1 (fun vals => c1.1 ++ eat h0 (first vals) ++ eat h1 (second vals)) fun vals _ =>
      let v0 := first vals
      let v1 := second vals
      if c1.2 then (s, .wait .reg)
      else
        let o0 := halfOut h0 s w t v0
        let o1 := halfOut h1 s w { t with tanrng := o0.tanrng.getD t.tanrng } v1
        let (w0, t1) := disturb w t o0.words true
        let (w1, t2) := disturb w t1 o1.words true
        let t3 := writeDst (writeDst t2 (.v h0.d) w0 o0.bad o0.sh) (.v h1.d) w1 o1.bad o1.sh
        let t4 := writeLr t3 w1 (o1.bad.any id) o1.sh
        let t5 := { t4 with fstat := t4.fstat ||| o0.flags ||| o1.flags }
        (touchRegs (modT s t.tid fun _ => t5) w t.tid [(false, h0.d.toNat), (false, h1.d.toNat)], .retire []))

end Sys2Proof.Machine
end

