-- ==== Sys2Proof/Machine/CrossLane.lean ====
section
/-! DEFINITION. Cross-lane words (R323, R325 to R332), their reduction trees (R234, R235), and TMOV (R411). -/

namespace Sys2Proof.Machine

def XLane.lane (x : XLane) : Nat := x.t.tid.lane

/-- The active lane with a number. -/
def laneOf (l : List XLane) (n : Nat) : Option XLane := l.find? fun x => x.lane == n

/-- A word whose lanes receive values of other lanes: POISON that a g register would receive is consumed (R163). -/
def crossMove (s : State) (l : List SrcSpec) (d : Dst) (lanes : List XLane) (f : XLane → AluOut) : State :=
  let bad := match d, lanes.head? with
    | .g _, some x => if (f x).bad.any id then some x else none
    | _, _ => none
  match bad with
  | some x => trapAll s (lanes.map fun x => x.t.tid) [(x.t.tid, { code := 0x50 })] []
  | none => crossWrite s l (some d) lanes f

/-- The value of lane `j` if it is active, else the lane's own (R327). -/
def fromLane (s : State) (k : Nat) (lanes : List XLane) (x : XLane) (j : Int) : AluOut :=
  let y := if 0 ≤ j ∧ j < 64 then (laneOf lanes j.toNat).getD x else x
  let v := opv y.vals 0
  { words := v.words.take k, sh := moveSh s x.w x.t k v, bad := v.bad.take k }

/-- The source lane of LANEX for lane `l` and the 32-bit pattern of its offset, or a signed amount (R327). -/
def lanexFrom (mode : LaneMode) (l : Nat) (o : Int) : Int :=
  match mode with
  | .abs => o
  | .rel => l + o
  | .xor => ((l ^^^ o.toNat : Nat) : Int)
  | .rot => (l + o) % 64

def execLanex (o : A1) (mode : LaneMode) (off : LaneOff) (w64 : Bool) (s : State) : Host.Outcome State Fault Refusal :=
  let k := wWords w64
  let signed := mode == .rel || mode == .rot
  let l := match off with
    | .reg b => [intSrc w64 o.a, intSrc false b]
    | .width .. => [intSrc w64 o.a]
  .next (crossLane s o.pg l o.d k 1 (fun _ _ => none) fun s lanes =>
    crossMove s l o.d lanes fun x =>
      let amount : Int := match off with
        | .reg _ => ival (!signed) 32 ((opv x.vals 1).nat false)
        | .width n neg => if neg then -((64 / 2 ^ n.toNat : Nat) : Int) else ((64 / 2 ^ n.toNat : Nat) : Int)
      fromLane s k lanes x (lanexFrom mode x.lane amount))

def execBcastl (o : A1) (b : Option Src) (w64 : Bool) (s : State) : Host.Outcome State Fault Refusal :=
  let k := wWords w64
  let l := match b with
    | some b => [intSrc w64 o.a, intSrc false b]
    | none => [intSrc w64 o.a]
  .next (crossLane s o.pg l o.d k 1 (fun _ _ => none) fun s lanes =>
    let j : Int := match b, lanes.head? with
      | some _, some m => (opv m.vals 1).nat false
      | none, some m => m.lane
      | _, none => 0
    crossMove s l o.d lanes fun x => fromLane s k lanes x j)

/-! ## Censuses (R328, R329) -/

def maskOf (lanes : List XLane) (p : XLane → Bool) : Word := laneMask ((lanes.filter p).map fun x => x.t.tid)

def execPcensus (pg : Guard) (c : Census) (n : BitVec 3) (neg : Bool) (s : State) : Host.Outcome State Fault Refusal :=
  let d := match c with
    | .mask d => d
    | .count d => d
    | _ => .zero
  let kd := match c with
    | .mask _ => 2
    | .count _ => 1
    | _ => 0
  .next (crossLane s pg [] d kd 0 (fun _ _ => none) fun s lanes =>
    let q := fun (x : XLane) => predBit x.t n.toNat != neg
    let pred := fun (p : BitVec 3) (b : Bool) => crossWrite s [] none lanes fun _ => { words := [], preds := [(p.toNat, b)] }
    match c with
    | .all p => pred p (lanes.all q)
    | .any p => pred p (lanes.any q)
    | .same p => pred p (lanes.all q || !lanes.any q)
    | .mask d => crossWrite s [] (some d) lanes fun _ => { words := wordsOf 2 (maskOf lanes q).toNat }
    | .count d => crossWrite s [] (some d) lanes fun _ => { words := wordsOf 1 (lanes.filter q).length })

def execActmask (pg : Guard) (d : Dst) (s : State) : Host.Outcome State Fault Refusal :=
  .next (crossLane s pg [] d 2 0 (fun _ _ => none) fun s lanes =>
    crossWrite s [] (some d) lanes fun _ => { words := wordsOf 2 (maskOf lanes fun _ => true).toNat })

/-- R236. -/
def keyMatch (f w64 : Bool) (a b : Nat) : Bool :=
  if f then (if w64 then (Fmt.b64.decode a).eq (Fmt.b64.decode b) else (Fmt.b32.decode a).eq (Fmt.b32.decode b)) else a == b

def execMatchL (o : A1) (f w64 : Bool) (s : State) : Host.Outcome State Fault Refusal :=
  let l : List SrcSpec := [⟨o.a, wWords w64, if f then .fl (if w64 then .b64 else .b32) else .int⟩]
  .next (crossLane s o.pg l o.d 2 0 (fun _ _ => none) fun s lanes =>
    crossWrite s l (some o.d) lanes fun x =>
      { words := wordsOf 2 (maskOf lanes fun y => keyMatch f w64 ((opv y.vals 0).nat w64) ((opv x.vals 0).nat w64)).toNat })

/-! ## Reductions (R234, R330) -/

/-- A node of the tree: pattern and the tangents of the active components, in their order. -/
structure RNode where
  val : Nat
  tan : List Nat

def redFmt (w64 : Bool) : Fmt := if w64 then .b64 else .b32

/-- The floating operation of a Combine. -/
def redFloat (op : RedOp) (f : Fmt) : Option FOp :=
  match op with
  | .fadd => some (fAdd f)
  | .fmin => some (fMinMax f false false)
  | .fmax => some (fMinMax f true false)
  | .fminp => some (fMinMax f false true)
  | .fmaxp => some (fMinMax f true true)
  | _ => none

def redInt (op : RedOp) (u : Bool) (w a b : Nat) : Nat :=
  match op with
  | .min => minW u w a b
  | .max => maxW u w a b
  | .and => a &&& b
  | .or => a ||| b
  | _ => addW false false w a b

/-- Combine (R234): one rounding, in rnd. -/
def combine (op : RedOp) (rnd : Rnd) (u w64 : Bool) (x y : RNode) : RNode × Flags :=
  let f := redFmt w64
  match redFloat op f with
  | none => (⟨redInt op u (wBits w64) x.val y.val, []⟩, 0)
  | some o =>
    let m : RMode := ⟨rnd, 0⟩
    let r := o.op m [x.val, y.val]
    let ts := match o.tan with
      | none => []
      | some tan => (List.zip x.tan y.tan).map fun t => match tan (rnd == .rd) [x.val, y.val] r.bits [t.1, t.2] with
        | .pat z => z
        | .real z => (f.round m z).bits
    (⟨r.bits, ts⟩, r.flags)

/-- Identity(op) (R234). -/
def identity (op : RedOp) (u w64 : Bool) : Nat :=
  let w := wBits w64
  let f := redFmt w64
  match op with
  | .add => 0
  | .min => if u then 2 ^ w - 1 else 2 ^ (w - 1) - 1
  | .max => if u then 0 else 2 ^ (w - 1)
  | .and => 2 ^ w - 1
  | .or => 0
  | .fadd => signBit f
  | .fmin => f.inf false
  | .fminp => f.inf false
  | .fmax => f.inf true
  | .fmaxp => f.inf true

/-- The positional tree: `n` levels, over 2^n nodes. -/
def redTree (f : RNode → RNode → RNode × Flags) : Nat → List RNode → Flags → RNode × Flags
  | 0, l, fl => (l.headD ⟨0, []⟩, fl)
  | n + 1, l, fl =>
    let r := List.zipWith f (l.take (2 ^ n)) (l.drop (2 ^ n))
    redTree f n (r.map (·.1)) (r.foldl (fun a x => a ||| x.2) fl)

/-- The scan: after a step of distance `d`, each position from `d` on combines with the one `d` below it. -/
def scanTree (f : RNode → RNode → RNode × Flags) : Nat → Nat → List RNode → Flags → List RNode × Flags
  | 0, _, l, fl => (l, fl)
  | n + 1, d, l, fl =>
    let r := List.zipWith f l (l.drop d)
    scanTree f n (2 * d) (l.take d ++ r.map (·.1)) (r.foldl (fun a x => a ||| x.2) fl)

/-- The 64 leaves: the active lanes' operands, and identities. -/
def leaves (id : Nat) (comps : List Nat) (k : Nat) (lanes : List XLane) : List RNode :=
  (List.range 64).map fun i => match laneOf lanes i with
    | none => ⟨id, comps.map fun _ => 0⟩
    | some x =>
      let v := opv x.vals 0
      ⟨wordsNat (v.words.take k), comps.map fun j => wordsNat ((v.sh.getD (j - 1) []).take k)⟩

def redComps (s : State) (op : RedOp) (lanes : List XLane) : List Nat :=
  if (redFloat op .b32).isNone then [] else (lanes.head?.map fun x => dualComps s x.w x.t).getD []

def nodeOut (k : Nat) (comps : List Nat) (x : XLane) (n : RNode) (fl : Flags) : AluOut :=
  { words := wordsOf k n.val, sh := compsToSh k x.w.shadows (List.zip comps n.tan), flags := fl }

def redKind (op : RedOp) (w64 : Bool) : OpK := if (redFloat op .b32).isNone then .int else .fl (redFmt w64)

def execRedls (o : A1) (op : RedOp) (rnd : Rnd) (u w64 : Bool) (s : State) : Host.Outcome State Fault Refusal :=
  let k := wWords w64
  let l : List SrcSpec := [⟨o.a, k, redKind op w64⟩]
  .next (crossLane s o.pg l o.d k 0 (fun _ _ => none) fun s lanes =>
    let comps := redComps s op lanes
    let r := redTree (combine op rnd u w64) 6 (leaves (identity op u w64) comps k lanes) 0
    crossWrite s l (some o.d) lanes fun x => nodeOut k comps x r.1 r.2)

def execScan (o : A1) (op : RedOp) (rnd : Rnd) (u excl w64 : Bool) (s : State) : Host.Outcome State Fault Refusal :=
  let k := wWords w64
  let l : List SrcSpec := [⟨o.a, k, redKind op w64⟩]
  .next (crossLane s o.pg l o.d k 0 (fun _ _ => none) fun s lanes =>
    let comps := redComps s op lanes
    let id : RNode := ⟨identity op u w64, comps.map fun _ => 0⟩
    let r := scanTree (combine op rnd u w64) 6 1 (leaves id.val comps k lanes) 0
    crossWrite s l (some o.d) lanes fun x =>
      nodeOut k comps x (if excl then (if x.lane = 0 then id else r.1.getD (x.lane - 1) id) else r.1.getD x.lane id) r.2)

/-- REDIDX: `a` ranks before `b` (R235); a pair is value and index. -/
def idxBefore (max f u : Bool) (a b : Nat × Nat) : Bool :=
  let x := Fmt.b32.decode a.1
  let y := Fmt.b32.decode b.1
  let better := fun (p q : Nat × Nat) =>
    if f then
      (let x := Fmt.b32.decode p.1
       let y := Fmt.b32.decode q.1
       if x.isNan then false else if y.isNan then true else if max then y.lt x else x.lt y)
    else if max then decide (ival u 32 q.1 < ival u 32 p.1) else decide (ival u 32 p.1 < ival u 32 q.1)
  if f && x.isNan && y.isNan then decide (a.2 < b.2)
  else better a b || (!better b a && decide (a.2 < b.2))

def execRedidx (o : A2) (max f u : Bool) (s : State) : Host.Outcome State Fault Refusal :=
  let l : List SrcSpec := [⟨o.a, 1, if f then .fl .b32 else .int⟩, ⟨o.b, 1, .int⟩]
  .next (crossLane s o.pg l o.d 2 0 (fun _ _ => none) fun s lanes =>
    let pair := fun (x : XLane) => ((opv x.vals 0).nat false, (opv x.vals 1).nat false)
    match lanes with
    | [] => s
    | x0 :: rest =>
      let best := rest.foldl (fun b x => if idxBefore max f u (pair x) (pair b) then x else b) x0
      let inv : Flags := if f && lanes.any fun x => (Fmt.b32.decode (pair x).1).sig then 1 else 0
      crossWrite s l (some o.d) lanes fun x =>
        { words := [BitVec.ofNat 32 (pair best).1, BitVec.ofNat 32 (pair best).2],
          sh := if f then (moveSh s x.w x.t 1 (opv best.vals 0)).map fun c => c ++ [0] else [], flags := inv })

/-! ## AMAX (R323) -/

def fmaxB32 : List Nat → FRes := fun l => (fMinMax .b32 true false).op .rn l

/-- The running maximum of one lane. -/
def amaxVal (fmt : FFmt) (a b : Nat) : FRes :=
  let f := ffmt fmt
  let wide := fun off => Fmt.b32.round .rn ((f.decode (part f a off % signBit f)))
  match fmt with
  | .f32 => fmaxB32 [a % 2 ^ 31, b]
  | _ =>
    let x := wide 0
    let y := wide 16
    let m := fmaxB32 [x.bits, y.bits]
    let r := fmaxB32 [m.bits, b]
    ⟨r.bits, (x.flags ||| y.flags ||| r.flags) &&& 1⟩

def execAmax (o : A2) (fmt : FFmt) (lanes_ : Bool) (s : State) : Host.Outcome State Fault Refusal :=
  let l : List SrcSpec := [⟨o.a, 1, if fmt = .f32 then .fl .b32 else .pkf (ffmt fmt)⟩, ⟨o.b, 1, .fl .b32⟩]
  let own := fun (v : List Opv) => amaxVal fmt ((opv v 0).nat false) ((opv v 1).nat false)
  if lanes_ then
    .next (crossLane s o.pg l o.d 1 0 (fun _ _ => none) fun s lanes =>
      let ls := (List.range 64).map fun i => (⟨((laneOf lanes i).map fun x => (own x.vals).bits).getD 0, []⟩ : RNode)
      let r := redTree (combine .fmax .rn false false) 6 ls 0
      crossWrite s l (some o.d) lanes fun x => { words := wordsOf 1 r.1.val, flags := (own x.vals).flags ||| (r.2 &&& 1) })
  else
    .next (aluWord s o.pg l (some o.d) 1 fun _ _ _ v => { words := wordsOf 1 (own v).bits, flags := (own v).flags })

/-! ## TMOV (R411) -/

/-- Component `js` of an operand as read: words of the primal or a tangent. -/
def compWords (v : Opv) (j k : Nat) : List W32 :=
  if j = 0 then v.words.take k else (List.range k).map fun i => (v.sh.getD (j - 1) []).getD i 0

/-- Writes one component of a register and leaves the others. -/
def setComp (r : Reg) (shadows j : Nat) (x : W32) (poison : Bool) : Reg :=
  { r with st := if poison then .poison else r.st,
           sh := (List.range shadows).map fun i => if i + 1 = j then x else r.sh.getD i 0 }

def execTmov (o : A1) (js jd : BitVec 3) (w64 : Bool) (s : State) : Host.Outcome State Fault Refusal :=
  let k := wWords w64
  let l := [intSrc w64 o.a]
  let none_ : Workgroup → List Cause := fun w => if w.shadows < js.toNat ∨ w.shadows < jd.toNat then [{ code := 0x16 }] else []
  let bad := gPoison s o.pg l o.d fun _ w _ => none_ w
  .next (perLane s o.pg fun s w t =>
    let regs := dstRegs o.d k
    let get := fun (r : Bool × Nat) => if r.1 then oReg t r.2 else vReg t r.2
    let dead : List Cause := if jd ≠ 0 ∧ regs.any fun r => (get r).st == .dead then [{ code := 0x11 }] else []
    withSrcs s w t l o.d k (fun _ => none_ w ++ dead) fun vals pops =>
      let v := opv vals 0
      let words := compWords v js.toNat k
      if jd = 0 then propRetire s w t l pops o.d bad { words := words, bad := v.bad }
      else
        let t1 := takeSources t l pops
        let (words, t2) := disturb w t1 words true
        let t3 := (List.range k).foldl (fun (t : Thread) i => match regs[i]? with
          | none => t
          | some (isO, n) =>
            if isO then setO t n (setComp (get (isO, n)) w.shadows jd.toNat (words.getD i 0) (v.bad.getD i false))
            else setV t n (setComp (get (isO, n)) w.shadows jd.toNat (words.getD i 0) (v.bad.getD i false))) t2
        let t4 := writeLr t3 words v.poison []
        (touchRegs (modT s t.tid fun _ => t4) w t.tid (markedRegs l ++ regs), .retire []))

end Sys2Proof.Machine
end

