-- ==== Sys2Proof/Machine/Fabric.lean ====
section
/-! DEFINITION. Vexari Link as the rest of the machine uses it: routes, sending, credits (R22 to R26), loss of a link (R32) and the port registers (R33, R34). -/

namespace Sys2Proof.Machine

/-! ## Flits (R22) -/

/-- Bytes [247:0] of a flit. -/
def flitHead (f : Flit) : List Byte :=
  leBytes 2 f.seq.toNat ++ [f.chan, f.kind] ++ (List.range 4).map (fun i => f.credit.getD i 0)
    ++ (List.range 240).map fun i => (Config.payloadBytes f.body).getD i 0

/-- The 256 bytes of a flit. -/
def flitBytes (f : Flit) : List Byte := flitHead f ++ leBytes 8 f.crc.toNat

def Flit.crcOk (f : Flit) : Bool := f.crc == Config.crc64 (flitHead f)

/-- The flit that a sender makes: its check covers what stands before it. -/
def makeFlit (seq : BitVec 16) (vc kind : Nat) (credit : List Nat) (body : FlitBody) : Flit :=
  let f : Flit := { seq := seq, chan := BitVec.ofNat 8 (vc % 4), kind := BitVec.ofNat 8 kind, credit := credit.map (BitVec.ofNat 8), body := body, crc := 0 }
  { f with crc := Config.crc64 (flitHead f) }

/-- Bytes of a body that carries data. -/
def bodySize : FlitBody → Nat
  | .store _ _ d => d.length
  | .response _ d _ => d.length
  | .payload _ _ _ d _ => d.length
  | .identity c x => c.length + x.length
  | .signatures e m => e.length + m.length
  | _ => 0

/-- The flits of a payload: one for each 240 bytes, the body with the last (R22). -/
def flitParts (b : FlitBody) : List FlitBody := List.replicate ((bodySize b - 1) / 240) .part ++ [b]

/-! ## Routes and sending -/

/-- A port that carries VC0 to VC2 traffic (R31). -/
def Port.carries (p : Port) : Bool := p.state == .active && !p.peerQ

/-- A port sends on VC3 in ACTIVE and QUARANTINE, on the other channels where it carries them; elsewhere its transmitters send no flit of theirs (R28, R31, R34). -/
def Port.sends (p : Port) (vc : Nat) : Bool := if vc = 3 then p.state == .active || p.state == .quarantine else p.carries

/-- The port that peer traffic takes: the lowest-numbered one that carries it. -/
def route (s : State) : Option Nat := (List.range 16).find? fun p => (getPort s p).carries

/-- What a sender may send on a channel (R24): nothing where its replay buffer is full (R25). -/
def Port.credit (x : Port) (vc : Nat) : Nat := if x.sends vc && decide (x.replay.length < Config.replayFlits) then x.credits.getD vc 0 else 0

def credit (s : State) (p vc : Nat) : Nat := (getPort s p).credit vc

/-- Puts one flit on the lanes: it takes a slot (idle flits take none), returns up to 255 of the slots owed on each channel, and is kept for replay (R22, R24, R25). -/
def Port.send (x : Port) (vc kind : Nat) (body : FlitBody) : Port :=
  let give := (List.range 4).map fun i => Nat.min 255 (x.owed.getD i 0)
  let f := makeFlit x.txSeq vc kind give body
  { x with
    credits := if kind = 4 then x.credits else x.credits.set vc (x.credits.getD vc 0 - 1)
    owed := (List.range 4).map fun i => x.owed.getD i 0 - give.getD i 0
    txSeq := x.txSeq + 1
    tx := x.tx ++ [f]
    replay := f :: x.replay }

def sendFlit (s : State) (p vc kind : Nat) (body : FlitBody) : State := modPort s p fun x => x.send vc kind body

/-- Sends what waits, in order on each channel, as far as slots go. -/
def Port.pump (x : Port) : Port :=
  (x.outq.foldl (fun (a : Port × List Nat) m =>
    if a.2.contains m.1 || a.1.credit m.1 == 0 then ({ a.1 with outq := a.1.outq ++ [m] }, m.1 :: a.2) else (a.1.send m.1 m.2.1 m.2.2, a.2))
    ({ x with outq := [] }, [])).1

/-- Sends a payload once its channel has slots (R23, R24); a port that may not send on the channel drops it. -/
def sendLater (s : State) (p vc kind : Nat) (body : FlitBody) : State :=
  modPort s p fun x => if x.sends vc then ({ x with outq := x.outq ++ (flitParts body).map fun b => (vc, kind, b) }).pump else x

/-- What a port in training puts on VC3: no flow control runs yet (R28, R30). -/
def sendTraining (s : State) (p : Nat) (body : FlitBody) : State :=
  modPort s p fun x => { x with tx := x.tx ++ (flitParts body).map fun b => makeFlit 0 3 3 [0, 0, 0, 0] b }

/-- Sends a request of a thread to a peer module and remembers it until it completes. -/
def sendRequest (s : State) (p vc kind : Nat) (body : FlitBody) (r : PeerReq) : State :=
  modPort (sendFlit s p vc kind body) p fun x => { x with outstanding := x.outstanding ++ [r] }

/-! ## Reads of a peer's memory by other units than threads -/

inductive PeerGot where
  | data (l : List Byte)
  | failed
  | wait

/-- Reads `n` bytes at an offset of a peer: asks once, and takes the answer when it has come (R32: without a route it fails). With `keep` the answer stands until `dropReads`. -/
def readPeer (s : State) (who : PeerUser) (m off n : Nat) (keep : Bool := false) : State × PeerGot :=
  let mine := fun (r : PeerRead) => r.who == who && r.module_ == m && r.off == off && r.len == n
  match s.peerReads.find? mine with
  | some r =>
    let gone := if keep then s else { s with peerReads := s.peerReads.filter fun x => x.id != r.id }
    (match r.data with
     | none => (s, .wait)
     | some none => (gone, .failed)
     | some (some l) => (gone, .data l))
  | none =>
    match route s with
    | none => (s, .failed)
    | some p =>
      if credit s p 0 = 0 then (s, .wait)
      else
        let (s, id) := newId s
        let s := { s with peerReads := s.peerReads ++ [{ id := id, who := who, module_ := m, off := off, len := n, data := none }] }
        (sendRequest s p 0 0 (.load id off n) (.read id), .wait)

/-- The answers that a user has kept go; those still on their way are taken when they come. -/
def dropReads (s : State) (who : PeerUser) : State := { s with peerReads := s.peerReads.filter fun r => r.who != who || r.data.isNone }

/-- The answer to such a read; none where the request has failed. -/
def answerRead (s : State) (id : Nat) (data : Option (List Byte)) : State :=
  { s with peerReads := updIf (fun r => r.id == id) (fun r => { r with data := some data }) s.peerReads }

/-! ## Media errors that carry no data (R21, R32, R64) -/

/-- The words of an access whose data never came: under DELIVER free values, under ZERO zeros. -/
def noData (s : State) (pol : Nat) (n : Nat) : State × List W32 :=
  if pol = 0 then
    (List.range n).foldl (fun (a : State × List W32) _ =>
      let (s, w) := freeValue a.1
      (s, a.2 ++ [w.setWidth 32])) (s, [])
  else (s, List.replicate n 0)

/-- The cause that a class carries (R132). -/
def sevCause (c : Nat) : Nat := if c = 3 then 0x53 else if c = 2 then 0x52 else 0x50

/-- A SEV3 media error of an access under the region's policy: the words and whether they are POISON, or none under KILL. -/
def sev3Words (s : State) (w : Workgroup) (n : Nat) : State × Option (List W32 × Bool) :=
  let pol := sevPolicy (wgNow s w).sev 3
  if pol = 3 then (s, none)
  else
    let (s, l) := noData s pol n
    (s, some (l, pol == 2))

/-! ## Structure accesses (R432) -/

/-- For whom a structure access is made: the core, the context, the teardown generation of its launch, and the severity policies of its region. -/
structure Asker where
  core : Nat
  pasid : Nat
  gen : Byte
  sev : Byte

/-- What a structure read gives: its bytes, whether they count in numerr, and the location read; or why it gives none. -/
inductive SRead where
  | bytes (l : List Byte) (numerr : Bool) (loc : Nat)
  | unmapped
  | ats (link page : Nat)
  /-- a peer's answer is under way -/
  | wait
  | denied
  /-- an uncorrectable entry of the walk (R131), or POISON data: rollback where it applies, else as if the walk had refused -/
  | uncorr
  /-- a KILL policy, with the cause of its record (R132) -/
  | killed (code : Nat)
  /-- INTEGRITY (R137) -/
  | badMac
  deriving DecidableEq, Repr

/-- A table on a lost link: SEV3 without data (R21, R32). -/
def structLost (s : State) (k : Asker) (n loc : Nat) : State × SRead :=
  let pol := sevPolicy k.sev 3
  if pol = 3 then (s, .killed 0x53)
  else if pol = 2 then (s, .uncorr)
  else
    let (s, ws) := noData s pol ((n + 3) / 4)
    (s, .bytes ((ws.flatMap fun x => leBytes 4 x.toNat).take n) true loc)

/-- The data of a table under the policy for its error (R132). -/
def structData (s : State) (k : Asker) (key loc : Nat) (r : ByteRead) : State × SRead :=
  if r.badMac then (faultRecord s k.pasid 0x58 (BitVec.ofNat 64 loc), .badMac)
  else match r.sev with
  | none => (s, .bytes r.bytes false loc)
  | some c =>
    let pol := sevPolicy k.sev c
    if pol = 3 then (s, .killed (sevCause c))
    else if pol = 2 then (s, .uncorr)
    else if pol = 0 ∧ key = 0 then (s, .bytes r.bytes true loc)
    else (s, .bytes (List.zipWith (fun b m => b &&& ~~~m) r.bytes r.affected) true loc)

/-- Reads a table of a context in its virtual address space; the PL1 bit is not checked. -/
def structRead (s : State) (k : Asker) (va n : Nat) : State × SRead :=
  match translate s k.core k.pasid va { r := true, w := false, x := false, pl := 1 } with
  | (s, .unmapped) => (s, .unmapped)
  | (s, .denied) => (s, .denied)
  | (s, .uncorr) => (s, if sevPolicy k.sev 3 = 3 then .killed 0x53 else .uncorr)
  | (s, .ok l pa) =>
    match homeOf s.module_ s.domain pa with
    | .hbm a =>
      let (s, r) := readHbmRange s a n l.layout l.key
      structData s k l.key a r
    | .host j bus =>
      if !hostUpGen s j k.pasid k.gen then structLost s k n pa
      else match hostXlate s j k.pasid bus with
      | (s, .ok a) => (s, .bytes (getCells a n s.mem) false a)
      | (s, .wait) => (s, .ats j (bus / 4096))
      | (s, .fault) => (s, .unmapped)
    | .peer m off => (match readPeer s (.table k.core) m off n with
      | (s, .data l) => (s, .bytes l false pa)
      | (s, .failed) => structLost s k n pa
      | (s, .wait) => (s, .wait))
    | _ => (s, .denied)

/-- The place that a chanter's load or atomic has reserved takes what it brings (R146). -/
def fillPlace (s : State) (id : Nat) (ws : List FillWord) (numerr : Bool) : State :=
  { s with values := updIf (fun v => v.load == id && v.words.isNone) (fun v => { v with words := some ws, numerr := numerr }) s.values }

/-- Adds component `j` to words that are on their way; POISON in it is POISON of the register (R175). -/
def addShadow (shadows j : Nat) (ws sh : List FillWord) : List FillWord :=
  (List.range ws.length).map fun i =>
    let x := ws.getD i ⟨0, false, []⟩
    let y := sh.getD i ⟨0, false, []⟩
    { x with poison := x.poison || y.poison, sh := (List.range shadows).map fun k => if k + 1 = j then y.val else x.sh.getD k 0 }

/-- Every part of a late value has come: no answer is awaited, for it or for a tangent of it. -/
def loadHere (s : State) (l : OutLoad) : Bool := l.port.isNone && !(s.loads.any fun x => x.tan.map (·.1) == some l.id)

/-- What has come for a late value, once it is whole, fills the place reserved for it. -/
def settlePlace (s : State) (id : Nat) : State :=
  match s.loads.find? fun l => l.id == id with
  | none => s
  | some l => if loadHere s l then fillPlace s id l.words l.numerr else s

/-- The answer of a peer has come into load `id`: one of a tangent joins the load that delivers it. -/
def loadCame (s : State) (id : Nat) : State :=
  match s.loads.find? fun l => l.id == id with
  | none => s
  | some l =>
    match l.tan with
    | none => settlePlace s id
    | some (m, j) =>
      let k := (((getT s l.tid).bind fun t => getWg s t.wg).map (·.shadows)).getD 0
      settlePlace { s with loads := updIf (fun x => x.id == m) (fun x => { x with words := addShadow k j x.words l.words, numerr := x.numerr || l.numerr })
                                      (s.loads.filter fun x => x.id != id) } m

/-- R132 under KILL: rollback where it applies, else a kill. -/
def killOrRoll (s : State) (w : Workgroup) (cause : Nat) (addr : Word) : State :=
  if canRollback s w then startRollback s w.id else kill s w.id cause addr

/-- A late value that ends as a SEV3 media error. -/
def failLoad (s : State) (id : Nat) : State :=
  match s.loads.find? fun l => l.id == id with
  | none => s
  | some l =>
    match (getT s l.tid).bind fun t => getWg s t.wg with
    | none => { s with loads := s.loads.filter fun x => x.id != id }
    | some w =>
      match sev3Words s w l.words.length with
      | (s, none) => killOrRoll { s with loads := s.loads.filter fun x => x.id != id } w 0x53 l.addr
      | (s, some (ws, p)) =>
        let ws := ws.map fun v => (⟨v, p, []⟩ : FillWord)
        loadCame { s with loads := updIf (fun x => x.id == id) (fun x => { x with words := ws, numerr := x.numerr || !p, port := none, sync := none }) s.loads } id

/-- A condition reported to the fault domain of a thread's region (R68); when its workgroup has retired, only the record is written. -/
def reportDomain (s : State) (pasid : Nat) (t : Tid) (wg : Option Nat) (code : Nat) (addr : Word) : State :=
  let id := (wg.orElse fun _ => (getT s t).map (·.wg))
  match id.bind (getWg s) with
  | none => faultRecord s pasid code addr
  | some w => if w.state == .ended || w.state == .killed then faultRecord s pasid code addr else kill s w.id code addr

/-- An atomic without a result that ends as a SEV3 media error under its region's policy (R32). -/
def failRed (s : State) (t : Tid) (addr : Word) : State :=
  match (getT s t).bind fun x => getWg s x.wg with
  | none => s
  | some w =>
    let pol := sevPolicy (wgNow s w).sev 3
    if pol = 3 then killOrRoll s w 0x53 addr
    else if pol = 2 then s
    else modT s t fun x => { x with numerr := true }

/-- An element of an XRED that ends as a SEV3 media error: it counts as affected, and a KILL policy stops the operation (R32, R134). -/
def failXred (s : State) (id : Nat) (addr : Word) : State :=
  { s with engines := updIf (fun e => e.id == id) (fun e =>
      { e with affected := if e.affected.contains (addr.toNat / 64) then e.affected else e.affected ++ [addr.toNat / 64]
               stop := if (getWg s e.wg).any fun w => sevPolicy (wgNow s w).sev 3 == 3 then some 3 else e.stop }) s.engines }

/-- A store that its peer can no longer accept (R32); of one of a packet, or of an overflow ring, only the record is written. -/
def failStore (s : State) (id : Nat) : State :=
  match s.stores.find? fun x => x.id == id with
  | none => s
  | some x =>
    let s := { s with stores := s.stores.filter fun y => y.id != id }
    if x.red then (match x.who with
      | some (.engine id) => failXred s id x.addr
      | _ => failRed s x.tid x.addr)
    else match x.who with
    | some (.packet ..) => faultRecord s x.pasid 0x53 x.addr
    | some (.table _) => faultRecord s x.pasid 0x53 x.addr
    | _ => reportDomain s x.pasid x.tid none 0x53 x.addr

/-- Token status: destination unreachable (R362). -/
def remqFailStatus : Nat := 6

/-- Completes one outstanding request of a lost port (R32). -/
def failPeer (s : State) (r : PeerReq) : State :=
  match r with
  | .load id => failLoad s id
  | .store id => failStore s id
  | .read id => answerRead s id none
  | .remq id =>
    match s.engines.find? fun e => e.id == id with
    | none => s
    | some e =>
      let s := { s with engines := updIf (fun x => x.id == id) (fun x => { x with stop := some remqFailStatus }) s.engines }
      match e.kind with
      | .remq m .. => { s with outstanding := kset m 0 s.outstanding }
      | _ => s

/-- Completes every outstanding request of a port. -/
def failPort (s : State) (p : Nat) : State :=
  let l := (getPort s p).outstanding
  wakeAll (l.foldl failPeer (modPort s p fun x => { x with outstanding := [] }))

/-! ## DETECT (R28, R29) -/

/-- A return to DETECT from a later state, which counts toward stuck. -/
def toDetect (s : State) (p : Nat) : State :=
  modPort s p fun x =>
    let f := Nat.min 7 (x.fails + 1)
    { x with state := .detect, fails := f, stuck := x.stuck || decide (4 ≤ f), rate112 := false, peerQ := false, entered := s.ns, replayFails := 0,
             nak := none, outq := [] }

/-- Loss of link of an ACTIVE port (R32). -/
def loseLink (s : State) (p : Nat) : State := toDetect (failPort s p) p

/-- VLCTL.retrain (R29, R31, R34). -/
def retrain (s : State) (p : Nat) : State :=
  let s := if (getPort s p).state == .active then failPort s p else s
  modPort s p fun x =>
    { x with state := .detect, stuck := false, fails := 0, why := 0, peerQ := false, rate112 := false, entered := s.ns, replayFails := 0,
             nak := none, outq := [] }

/-! ## Port registers (R33) -/

def Train.code : Train → Nat
  | .detect => 0
  | .rate => 1
  | .equalise => 2
  | .deskew => 3
  | .slots => 4
  | .identity => 5
  | .active => 6
  | .quarantine => 7

def vlstat (p : Port) : Word :=
  BitVec.ofNat 64 (p.dropped.toNat * 2 ^ 32 + p.replays.toNat * 2 ^ 24 + (p.why % 8) * 2 ^ 16 + p.stuck.toNat * 2 ^ 15
    + (p.fails % 8) * 2 ^ 12 + (p.eqRounds % 16) * 2 ^ 8 + p.peerQ.toNat * 2 ^ 7 + p.rate112.toNat * 2 ^ 6 + Train.code p.state)

def vlctl (p : Port) : Word := BitVec.ofNat 64 (p.force112.toNat * 4 + p.disable.toNat * 2)

/-- The RW fields of VLCTL; a port that becomes disabled leaves its state for DETECT, with its requests completed. R29 does not say whether that return counts in VLSTAT.fails: it does not (assumption log 36). -/
def writeVlctlFields (s : State) (p : Nat) (v : Word) : State :=
  let dis := v.getLsbD 1
  let s := modPort s p fun x => { x with disable := dis, force112 := v.getLsbD 2 }
  if dis && (getPort s p).state != .detect then
    let s := if (getPort s p).state == .active then failPort s p else s
    modPort s p fun x => { x with state := .detect, rate112 := false, peerQ := false, entered := s.ns, nak := none, outq := [] }
  else s

/-- A write of VLCTL. -/
def writeVlctl (s : State) (p : Nat) (v : Word) : State :=
  let s := writeVlctlFields s p v
  if v.getLsbD 0 then retrain s p else s

end Sys2Proof.Machine
end

