-- ==== Sys2Proof/Machine/Firmware.lean ====
section
/-! DEFINITION. Firmware and monitor: images and their checks (R38), the update trial (R42 to R48), and the firmware registers (R41). -/

namespace Sys2Proof.Machine

/-! ## Images (R38) -/

/-- An image as the monitor finds it; `patch` for a monitor patch. -/
def imageOk (image : Nat) (patch : Bool) : Bool :=
  Config.sigEd image && Config.sigMl image
    && decide (if patch then Config.romSize + Config.imageSize image ≤ 256 * 1024 else Config.imageSize image ≤ 16 * 1024 * 1024)
    && decide ((if patch then Config.fusedPatchSvn else Config.fusedSvn).toNat ≤ (Config.imageSvn image).toNat)

def imageOf (image : Nat) (valid : Bool) : Image :=
  { image := image, build := Config.imageBuild image, svn := Config.imageSvn image, handoff := Config.imageHandoff image, valid := valid }

def activeImage (f : Firmware) : Image := if f.active then f.slotB else f.slotA
def otherImage (f : Firmware) : Image := if f.active then f.slotA else f.slotB

/-- Writes the inactive slot. -/
def setOther (f : Firmware) (i : Image) : Firmware := if f.active then { f with slotA := i } else { f with slotB := i }

def Trial.code : Trial → Nat
  | .none => 0
  | .inTrial => 1
  | .committed => 2
  | .reverted => 3

/-- FWSTAT.trial changes, with its event record (R59 type 5). -/
def setTrial (s : State) (t : Trial) : State := moduleEvent { s with fw := { s.fw with trial := t } } 5 (Trial.code t)

/-- A trial of either kind is open, or its switch is awaited. R44 refuses a request while trial is 1; that one made while an earlier request still waits for its quiescent point is refused too is assumption log 73. -/
def trialBusy (f : Firmware) : Bool := f.trial == .inTrial || f.quiesce.isSome

/-- 10 ms (R43). -/
def quiesceNs : Nat := 10000000

/-! ## The hand-off block (R46) -/

def hoField (f : Firmware) (off n : Nat) : Nat := leNat (getCells off n f.handoff)

/-- Writes fields of the block, by offset and width, as one write: it sets magic and the version being written, and counts in generation. -/
def hoWrite (f : Firmware) (l : List (Nat × Nat × Nat)) : Firmware :=
  let put := fun (m : List Host.Cell) (x : Nat × Nat × Nat) => setCells (cellsAt x.1 (leBytes x.2.1 x.2.2)) m
  { f with handoff := (l ++ [(0, 4, 0x48464F42), (4, 2, f.hoVer.toNat), (8, 8, hoField f 8 8 + 1)]).foldl put f.handoff }

/-- Packets taken and completed of a queue. -/
def hoTaken (q : Nat) : Nat := 16 + 16 * q
def hoDone (q : Nat) : Nat := 24 + 16 * q

/-- The entry of an abandoned packet. -/
def hoEntry (x : Nat × W32) : Nat := x.2.toNat + x.1 % 1024 * 2 ^ 32 + 2 ^ 63

/-- The abandoned packets that the block names. -/
def hoPending (f : Firmware) : List (Nat × W32) :=
  (List.range 8).filterMap fun i =>
    let x := hoField f (16400 + 8 * i) 8
    if bitAt x 63 then some (bits x 41 32, BitVec.ofNat 32 (bits x 31 0)) else none

/-- The eight pending entries as a write of the block. -/
def hoPendingWrite (l : List (Nat × W32)) : List (Nat × Nat × Nat) :=
  (List.range 8).map fun i => (16400 + 8 * i, 8, ((l[i]?).map hoEntry).getD 0)

/-- R47: the magic and the version are right for the active image. -/
def hoOk (f : Firmware) : Bool :=
  hoField f 0 4 == 0x48464F42 && Config.imageReads (activeImage f).image (BitVec.ofNat 16 (hoField f 4 2))

/-! ## Registers (R41) -/

def fwstat (f : Firmware) : Word :=
  BitVec.ofNat 64 ((activeImage f).svn.toNat * 2 ^ 48 + f.hoVer.toNat * 2 ^ 32 + Trial.code f.trial * 2 ^ 24
    + f.patch.isSome.toNat * 2 ^ 23 + f.active.toNat * 2 ^ 22 + f.stepFail.toNat * 2 ^ 16 + f.diesOk.toNat)

def writeFwctl (s : State) (v : Word) : State :=
  let x := bits v.toNat 15 0
  if 1 ≤ x ∧ x ≤ 600 then { s with fw := { s.fw with trialS := x } } else s

/-- A monitor patch commits once both its conditions are met (R48). -/
def settlePatch (s : State) : State :=
  if s.fw.patchNew.isSome && s.fw.patchWritten && s.fw.patchConfirmed then
    setTrial { s with fw := { s.fw with patchNew := none, patchEnd := none, patchWritten := false, patchConfirmed := false } } .committed
  else s

/-- FWCOMMIT (R41, R44, R46, R48): `monitor` says that the monitor writes it, as a patch on trial must. -/
def writeFwcommit (s : State) (v : Word) (monitor : Bool) : State :=
  let b := v.setWidth 32
  let f := s.fw
  if f.trial != .inTrial then s
  else match f.patchNew with
  | some p =>
    (match f.patchEnd with
     | some e => if s.ns < e ∧ monitor ∧ p.build = b then settlePatch { s with fw := { f with patchWritten := true } } else s
     | none => s)
  | none =>
    match f.trialEnd with
    | some e =>
      if s.ns < e ∧ (activeImage f).build = b then
        setTrial { s with fw := hoWrite { f with trialEnd := none, hoVer := (activeImage f).handoff } [] } .committed
      else s
    | none => s

def execFwcommit (w : FwWrite) (s : State) : Host.Outcome State Fault Refusal := .next (writeFwcommit s w.value w.monitor)

/-! ## The update trial (R43 to R47) -/

/-- R43 steps 1 and 2. While command processing is stopped (R45), a verified image restarts it. -/
def execFirmwareUpdateRequest (image : Nat) (s : State) : Host.Outcome State Fault Refusal :=
  if trialBusy s.fw then .next s
  else
    let ok := imageOk image false && Config.imageReads image s.fw.hoVer
    let s := if s.fw.trial == .none then s else setTrial s .none
    let s := { s with fw := setOther s.fw (imageOf image ok) }
    .next (if ok then { s with fw := { s.fw with quiesce := some (s.ns + quiesceNs), reverting := false, stopped := false } } else s)

/-- R47: every queue restarts after its last completed firmware-bound packet. One that has completed none restarts at the first that firmware holds. -/
def restartQueues (s : State) (held : List (Nat × W32)) : State :=
  (s.queues.map (·.1)).foldl (fun s q => modQueue s q fun x =>
    if x.state != .running then x
    else match x.lastFw, held.find? (fun h => h.1 == q) with
    | some n, _ => { x with head := n + 1, packets := [] }
    | none, some h => { x with head := h.2, packets := x.packets.takeWhile fun p => p.seq != h.2 }
    | none, none => x) s

/-- The old image replays the block: what was abandoned or taken and not completed is delivered again (R45), or every queue restarts (R47). -/
def replayHandoff (s : State) : State :=
  let f := s.fw
  let held := f.hands ++ f.abandoned.filter fun p => !f.hands.contains p
  if hoOk f then { s with fw := hoWrite { f with hands := held, abandoned := [] } (hoPendingWrite []) }
  else
    let s := restartQueues s held
    { s with fw := hoWrite { s.fw with hands := [], abandoned := [] } (hoPendingWrite []) }

/-- The switch back to the old image, or to the old patch (R45, R48). -/
def switchBack (s : State) : State :=
  let f := s.fw
  let back := { f with quiesce := none, reverting := false }
  let f := match f.patchNew with
    | some _ => { back with patch := f.patchOld, patchNew := none, patchEnd := none, patchWritten := false, patchConfirmed := false }
    | none => { back with active := !f.active, trialEnd := none }
  setTrial (replayHandoff { s with fw := f }) .reverted

/-- The switch at a quiescent point (R43 steps 3 and 4): to the new image, to a new patch, or back. -/
def switchImages (s : State) : State :=
  let f := s.fw
  if f.reverting then switchBack s
  else match f.patchNew with
  | some p =>
    setTrial { s with fw := { f with quiesce := none, patchEnd := some (s.ns + f.trialS * 1000000000),
                                     patchWritten := false, patchConfirmed := false,
                                     patch := some p } } .inTrial
  | none =>
    setTrial { s with fw := { f with quiesce := none, active := !f.active, trialEnd := some (s.ns + f.trialS * 1000000000) } } .inTrial

/-- Due within 10 ms of a request or a revert, when no firmware-bound packet is part processed. -/
def execQuiescentPoint (s : State) : Host.Outcome State Fault Refusal :=
  .next (if (s.fw.quiesce.any fun t => decide (s.ns < t)) && s.fw.hands.isEmpty then switchImages s else s)

/-- At 10 ms: the update is refused, or the packets in hand are abandoned and the revert goes on. -/
def execQuiescentTimeout (s : State) : Host.Outcome State Fault Refusal :=
  match s.fw.quiesce with
  | none => .next s
  | some t =>
    if s.ns < t then .next s
    else if s.fw.reverting then
      let f := s.fw
      .next (switchImages { s with fw := hoWrite { f with hands := [], abandoned := f.abandoned ++ f.hands } (hoPendingWrite (f.abandoned ++ f.hands)) })
    else .next { s with fw := { s.fw with quiesce := none, patchNew := none } }

/-- The image, or patch, that a revert returns to still verifies (R45, R48); the ROM alone needs no check. -/
def oldOk (f : Firmware) : Bool :=
  match f.patchNew with
  | some _ => f.patchOld.all fun p => imageOk p.image true
  | none => (otherImage f).valid && imageOk (otherImage f).image false

/-- The old image fails its check: its slot is invalid, and the fetcher stops every queue. -/
def stopCommands (s : State) : State :=
  let f := s.fw
  let g := match f.patchNew with
    | some _ => { f with patch := none, patchNew := none, patchEnd := none }
    | none => setOther { f with trialEnd := none } { otherImage f with valid := false }
  setTrial { s with fw := { g with stopped := true, quiesce := none, reverting := false } } .reverted

/-- The end of the window of a trial that is open. -/
def windowEnd (f : Firmware) : Option Nat := match f.patchNew with
  | some _ => f.patchEnd
  | none => f.trialEnd

/-- R45 and R48 at the end of a window without commit. -/
def execTrialWatchdog (s : State) : Host.Outcome State Fault Refusal :=
  let f := s.fw
  .next (if f.trial == .inTrial && !f.reverting && (windowEnd f).any fun e => decide (e ≤ s.ns) then
      (if oldOk f then { s with fw := { f with quiesce := some (s.ns + quiesceNs), reverting := true } } else stopCommands s)
    else s)

/-- A warm reset during a trial completes it as a revert (R42). -/
def endTrial (s : State) : State :=
  if s.fw.trial != .inTrial then s else if oldOk s.fw then switchBack s else stopCommands s

/-! ## Monitor patches (R48) and attestation (R37) -/

/-- R43 steps 1 and 2 for a patch. -/
def execMonitorPatchRequest (image : Nat) (s : State) : Host.Outcome State Fault Refusal :=
  if trialBusy s.fw then .next s
  else
    let s := if s.fw.trial == .none then s else setTrial s .none
    .next (if imageOk image true && Config.imageReads image s.fw.hoVer then
      { s with fw := { s.fw with patchNew := some (imageOf image true), patchOld := s.fw.patch, quiesce := some (s.ns + quiesceNs), reverting := false } }
    else s)

def execPatchConfirmation (build : W32) (sigEd sigMl : Bool) (s : State) : Host.Outcome State Fault Refusal :=
  match s.fw.patchNew, s.fw.patchEnd with
  | some p, some e =>
    .next (if s.ns < e ∧ p.build = build ∧ sigEd ∧ sigMl then settlePatch { s with fw := { s.fw with patchConfirmed := true } } else s)
  | _, _ => .next s

/-- The text of an answer over DOE: what it measures, and the nonce of the request (R37). -/
def reportText (r : Report) : List Byte :=
  r.rom ++ r.patch.getD [] ++ r.slotA ++ r.slotB ++ [if r.active then 1 else 0] ++ leBytes 2 r.handoff.toNat ++ leBytes 32 r.nonce

/-- What a report measures now, unsigned. -/
def measured (f : Firmware) (link : Nat) (kind : SpdmKind) (nonce : Nat) : Report :=
  { link := link, kind := kind, nonce := nonce, rom := Config.romMeasure, patch := f.patch.map fun p => Config.imageMeasure p.image,
    slotA := Config.imageMeasure f.slotA.image, slotB := Config.imageMeasure f.slotB.image, active := f.active, handoff := f.hoVer, sigEd := [], sigMl := [] }

/-- Signs with both algorithms (R37). -/
def signReport (r : Report) : Report :=
  { r with sigEd := Config.sign false (Config.identityKey false) (reportText r), sigMl := Config.sign true (Config.identityKey true) (reportText r) }

/-- The monitor, once its keys are derived, answers a request for measurements, a challenge, or a key exchange. -/
def execSpdmRequest (link : Nat) (request : SpdmAsk) (s : State) : Host.Outcome State Fault Refusal :=
  .next (if (getLink s link).up && s.fw.identity then { s with reports := s.reports ++ [signReport (measured s.fw link request.kind request.nonce)] } else s)

end Sys2Proof.Machine
end

