-- ==== Sys2Proof/Machine/Registers.lean ====
section
/-! DEFINITION. Registers: the on-module register class (R12, R15, R16, R33, R41, R115, R135, R152), read and written under the access codes of R5. -/

namespace Sys2Proof.Machine

def memerrWord (m : MemErr) : Word :=
  BitVec.ofNat 64 (m.corrected.toNat * 2 ^ 32 + m.sev0.toNat * 2 ^ 24 + m.sev1.toNat * 2 ^ 16 + m.sev2.toNat * 2 ^ 8 + m.sev3.toNat)

def memerrOf (v : Word) : MemErr :=
  ⟨Word.hi v, BitVec.ofNat 8 (bits v.toNat 31 24), BitVec.ofNat 8 (bits v.toNat 23 16), BitVec.ofNat 8 (bits v.toNat 15 8), BitVec.ofNat 8 (bits v.toNat 7 0)⟩

def wrstat (w : WarmReset) : Word :=
  BitVec.ofNat 64 (w.count.toNat * 2 ^ 32 + w.cause.toNat * 2 ^ 24 + (w.die % 16) * 2 ^ 20 + w.lost.toNat)

/-- HEATCTL: a fade period outside 0 to 1,000 is ignored (R115). -/
def writeHeatctl (s : State) (v : Word) : State :=
  let x := bits v.toNat 15 0
  if x ≤ 1000 then { s with heatMs := x } else s

def writeMemerr (s : State) (die : Nat) (v : Word) : State :=
  if die < 16 then { s with memerr := kset die (memerrOf v) s.memerr } else s

/-- The 64-bit register at an offset of the class. -/
def regRead (s : State) (off : Nat) : Word :=
  if off = 0 then Config.modcap
  else if off = 8 then Config.modcap2
  else if 0x1000 ≤ off ∧ off < 0x1400 then
    (let p := getPort s ((off - 0x1000) / 0x40)
     if off % 0x40 = 0 then vlstat p else if off % 0x40 = 8 then vlctl p else 0)
  else if off = 0x2000 then fwstat s.fw
  else if off = 0x2008 then BitVec.ofNat 64 s.fw.trialS
  else if off = 0x3000 then BitVec.ofNat 64 s.heatMs
  else if 0x3100 ≤ off ∧ off < 0x3180 ∧ off % 8 = 0 then memerrWord (kget ⟨0, 0, 0, 0, 0⟩ ((off - 0x3100) / 8) s.memerr)
  else if off = 0x3200 then wrstat s.warm
  else 0

/-- A write of the 64-bit register at an offset: read-only and absent registers ignore it. -/
def regWrite (s : State) (off : Nat) (v : Word) (monitor : Bool) : State :=
  if 0x1000 ≤ off ∧ off < 0x1400 ∧ off % 0x40 = 8 then writeVlctl s ((off - 0x1000) / 0x40) v
  else if off = 0x2008 then writeFwctl s v
  else if off = 0x2010 then writeFwcommit s v monitor
  else if off = 0x3000 then writeHeatctl s v
  else if 0x3100 ≤ off ∧ off < 0x3180 ∧ off % 8 = 0 then writeMemerr s ((off - 0x3100) / 8) v
  else s

/-- Bytes of the class. -/
def regBytes (s : State) (off n : Nat) : List Byte :=
  (List.range n).map fun i => BitVec.ofNat 8 ((regRead s ((off + i) / 8 * 8)).toNat / 256 ^ ((off + i) % 8))

/-- Writes bytes: each register touched keeps its other bytes as read. So a store of fewer than 8 bytes to FWCOMMIT, which reads as 0, is a write of the whole with the other bytes 0 (assumption log 35). `monitor` says that PL3 writes. -/
def regWriteBytes (s : State) (off : Nat) (l : List Byte) (monitor : Bool) : State :=
  let regs := ((List.range l.length).map fun i => (off + i) / 8 * 8).eraseDups
  regs.foldl (fun s r =>
    let old := leBytes 8 (regRead s r).toNat
    let new := (List.range 8).map fun j => if off ≤ r + j ∧ r + j < off + l.length then l.getD (r + j - off) 0 else old.getD j 0
    regWrite s r (leWord new) monitor) s

end Sys2Proof.Machine
end

