-- ==== Sys2Proof/Machine/Access.lean ====
section
/-! DEFINITION. Access: one access of a thread to global memory. Translation outcomes (R110, R118, R131), colours (R184 to R198), race checks (R213, R214),
L1 and stores in flight (R203), severity policies (R132), synchronisation through a location (R206 to R208), the side log (R120) and redundancy (R145, R146). -/

namespace Sys2Proof.Machine

/-! ## Translation for a thread -/

inductive Tr where
  | ok (l : Leaf) (pa : Nat)
  | unmapped
  | stop (r : LaneRes)

/-- An uncorrectable page-table entry (R131). -/
def tableError (s : State) (w : Workgroup) (va : Word) (shadow : Bool) : LaneRes :=
  if sevPolicy (wgNow s w).sev 3 = 3 then .kill 0x53 va else .consume { code := 0x53, addr := va, shadow := shadow }

def accXlate (s : State) (w : Workgroup) (t : Thread) (va : Word) (r wr shadow : Bool) : State × Tr :=
  match translate s t.tid.core w.pasid va.toNat { r := r, w := wr, x := false, pl := t.pl } with
  | (s, .ok l pa) => (s, .ok l pa)
  | (s, .unmapped) => (s, .unmapped)
  | (s, .denied) => (s, .stop (.trap { code := 0x42, addr := va, shadow := shadow }))
  | (s, .uncorr) => (s, .stop (tableError s w va shadow))

/-- For whom a thread's structure accesses are made. -/
def askerOf (s : State) (w : Workgroup) (core : Nat) : Asker := ⟨core, w.pasid, w.gen, (wgNow s w).sev⟩

/-- A held access: the pending fault, or a wait for an entry of the table (R118, R119). -/
def hold (s : State) (w : Workgroup) (t : Thread) (va : Word) (write : Bool) : State × LaneRes :=
  match raiseFault s t.tid.core w.pasid va.toNat write with
  | (s, true) => (s, .wait (.fault (va.toNat / 4096) write))
  | (s, false) => (s, .wait .resource)

/-! ## Synchronisation through a location (R208) -/

/-- Keys, in fenceVc, of a thread's release fences and of the releases that its atomic reads have met. -/
def relKey (t : Tid) : Nat := 2 * Tid.key t
def readKey (t : Tid) : Nat := 2 * Tid.key t + 1

/-- An atomic read of a location: an acquire joins the releases it meets, another read remembers them for a later acquire fence. -/
def syncRead (s : State) (t : Tid) (addr : Nat) (acq : Bool) (sc : Scope) : State :=
  let l := s.syncs.filter fun e => e.addr == addr
  if acq then l.foldl (fun s e => if mutualScope s e.tid e.scope t sc then joinVc s t e.vc else s) s
  else { s with fenceVc := s.fenceVc ++ (l.map fun e => { e with addr := readKey t }).filter fun e => !s.fenceVc.contains e }

/-- An atomic write of a location: a release, or a write after a release fence, leaves its clock there; `rmw` continues the earlier ones. -/
def syncWrite (s : State) (t : Tid) (addr : Nat) (rel rmw : Bool) (sc : Scope) : State :=
  let keep := if rmw then s.syncs else s.syncs.filter fun e => e.addr != addr
  let own := if rel then [(⟨addr, sc, t, vcOf s t⟩ : SyncLoc)]
    else (s.fenceVc.filter fun e => e.addr == relKey t).map fun e => { e with addr := addr }
  let s := { s with syncs := keep ++ own }
  if rel then bumpVc s t else s

/-- A plain write ends the releases carried by the locations it covers. -/
def syncClear (s : State) (a n : Nat) : State := { s with syncs := s.syncs.filter fun e => decide (e.addr < a) || decide (a + n ≤ e.addr) }

def Ord.acq : Ord → Bool
  | .acq => true
  | .acqrel => true
  | .sc => true
  | _ => false

def Ord.rel : Ord → Bool
  | .rel => true
  | .acqrel => true
  | .sc => true
  | _ => false

/-- The ordering effects of a store at its location. -/
def storeOrder (s : State) (t : Tid) (ord : Ord) (sc : Scope) (loc : Nat) : State :=
  if ord == .plain then s else syncWrite s t loc (Ord.rel ord) false sc

/-- A structure read is an acquire at device scope of its location, where its rule says so (R123, R185). -/
def structSync (s : State) (t : Tid) (numerr : Bool) (loc : Nat) : State :=
  modT (acquire (syncRead s t loc true .dev) t.core .dev) t fun x => { x with numerr := x.numerr || numerr }

/-! ## Colours (R184 to R198) -/

/-- none where R185 finds a fault. -/
def parseColour (s : State) (l : List Byte) : Option ColourEntry :=
  let flags := field l 0 1
  let scope := field l 1 1
  let home := field l 2 1
  let spin := field l 4 4
  if !bitAt flags 0 || decide (8 ≤ flags) || decide (scope < 3) || decide (6 < scope) || bits home 6 4 != 0 || field l 3 1 != 0
      || decide (2 ^ 20 < spin) || (!bitAt home 7 && !dieIn s (bits home 3 0)) then none
  else some { valid := true, pi := bitAt flags 1, dd := bitAt flags 2, zeros := true, scope := scope, home := bits home 3 0, hashed := bitAt home 7, spin := spin }

inductive ClbRead where
  | entry (e : ColourEntry)
  | stop (r : LaneRes)

/-- What a structure read that gives no bytes does to the lane that makes it (R432, R131, R132). -/
def structStop (s : State) (w : Workgroup) (t : Thread) (va : Word) : SRead → State × LaneRes
  | .unmapped => hold s w t va false
  | .ats k p => (s, .wait (.ats k p va.toNat false))
  | .wait => (s, .wait .resource)
  | .killed c => (s, .kill c va)
  | .uncorr => (s, if canRollback s w then .consume { code := 0x53, addr := va } else .trap { code := 0x42, addr := va })
  | .badMac => (s, .trap { code := 0x58, addr := va })
  | _ => (s, .trap { code := 0x42, addr := va })

/-- An entry drops the oldest of a full lookaside buffer (R184). -/
def clbFill (s : State) (cl pasid : Nat) (c : BitVec 16) (e : ColourEntry) : State :=
  { s with clb := keepFirst (fun x => x.cluster == cl) Config.clbEntries (⟨cl, pasid, c, e⟩ :: s.clb) }

/-- The colour-table entry through the cluster's lookaside buffer, read with an acquire at device scope (R184, R185). -/
def clbRead (s : State) (w : Workgroup) (t : Thread) (c : BitVec 16) (va : Word) : State × ClbRead :=
  let cl := clusterId t.tid.core
  match s.clb.find? fun e => e.cluster == cl && e.pasid == w.pasid && e.colour == c with
  | some e => (s, .entry e.entry)
  | none =>
    let addr := (((rootRegion s w.pasid).map fun r => r.rcb.colourTable).getD 0) + BitVec.ofNat 64 (16 * c.toNat)
    match structRead s (askerOf s w t.tid.core) addr.toNat 16 with
    | (s, .bytes l ne loc) =>
      let s := structSync s t.tid ne loc
      (match parseColour s l with
       | none => (s, .stop (.trap { code := 0x65, addr := va, detail := c.setWidth 32 }))
       | some e => (clbFill s cl w.pasid c e, .entry e))
    | (s, x) =>
      let (s, r) := structStop s w t addr x
      (s, .stop r)

/-- What a request that `t` waits for `holder` closes: a chain of waits of at most `fuel` more edges that leads back to `t` (R197). -/
def closes (s : State) (t : Tid) : Nat → Tid → Bool
  | 0, _ => false
  | fuel + 1, h =>
    if h == t then true
    else match getT s h with
    | none => false
    | some x =>
      match x.run, getWg s x.wg with
      | .waiting (.colour c _), some w => (match (getMon s w.pasid c).bind (·.holder) with
        | some h' => closes s t fuel h'
        | none => false)
      | _, _ => false

/-- Entries of a die's waiter table in use: FIFOs, condition lists and reservations (R188). -/
def dieWaiters (s : State) (die : Nat) : Nat :=
  (s.monitors.filter fun m => m.die == die).foldl (fun a m => a + m.fifo.length + m.cond.length + m.reserved.length) 0

def entryScope (e : ColourEntry) : Scope := if e.scope = 3 then .cl else if e.scope = 4 then .die else if e.scope = 6 then .sys else .dev

/-- A granted request (R189). -/
def pushHeld (s : State) (t : Thread) (pasid : Nat) (c : BitVec 16) (sc : Scope) : State :=
  modT (joinColour (acquire s t.tid.core sc) t.tid pasid c sc) t.tid fun x => { x with held := (c, t.depth) :: x.held, retrying := none }

/-- The unfrozen cycle at which a request was made: of one that R188 has turned away, its first (R198). -/
def askedAt (w : Nat) (x : Thread) (c : BitVec 16) : Nat :=
  match x.retrying with
  | some (d, since, _) => if d = c then since else w
  | none => w

/-- HoldOrRequest for one colour (R189, R193, R197). -/
def holdOne (s : State) (w : Workgroup) (t : Thread) (c : BitVec 16) (va : Word) : State × Option LaneRes :=
  match getT s t.tid with
  | none => (s, none)
  | some x =>
    if x.held.any fun h => h.1 == c then (pin s w.id, none)
    else if 8 ≤ x.held.length then (s, some (.trap { code := 0x62, addr := va, detail := c.setWidth 32 }))
    else match clbRead s w t c va with
    | (s, .stop r) => (s, some r)
    | (s, .entry e) =>
      let s := pin s w.id
      let die := colourHome s e c
      let sc := entryScope e
      match getMon s w.pasid c with
      | none =>
        if Config.monitorRecords ≤ (s.monitors.filter fun m => m.die == die).length then (s, some (.wait (.colourRetry c va)))
        else
          let m : Monitor := { die := die, pasid := w.pasid, colour := c, holder := some t.tid, count := 1, scope := sc, pi := e.pi, fifo := [], cond := [], reserved := [] }
          (pushHeld { s with monitors := s.monitors ++ [m] } t w.pasid c sc, none)
      | some m =>
        let s := modMon s w.pasid c fun m => { m with scope := sc, pi := e.pi }
        match m.holder with
        | none => (pushHeld (modMon s w.pasid c fun m => { m with holder := some t.tid, count := m.count + 1 }) t w.pasid c sc, none)
        | some h =>
          if e.dd && closes s t.tid 8 h then
            (s, some (.trap { code := 0x60, addr := va, detail := c.setWidth 32, other := some (h, false), peer := ((getT s h).map (·.pc)).getD 0 }))
          else if Config.waiterEntries ≤ dieWaiters s m.die then (s, some (.wait (.colourRetry c va)))
          else
            let y : Waiter := ⟨t.tid, t.tid.core, askedAt (wgClock s w) x c, none, none⟩
            (modMon s w.pasid c fun m => { m with fifo := m.fifo ++ [y] }, some (.wait (.colour c va)))

/-- All the colours of an access, in ascending order (R183). The drone makes no request (R149). -/
def holdAll (s : State) (w : Workgroup) (t : Thread) (va : Word) : List (BitVec 16) → State × Option LaneRes
  | [] => (s, none)
  | c :: r =>
    if w.role == .drone then (s, none)
    else match holdOne s w t c va with
    | (s, none) => holdAll s w t va r
    | x => x

/-! ## Race checking (R213, R214) -/

/-- The vector-clock key of an engine operation. -/
def engineKey (id : Nat) : Nat := 2 ^ 40 + id

/-- The access happens-before whoever has this clock. -/
def accessBefore (vc : List (Nat × Nat)) (me : Tid) (mine : Bool) (a : Access) : Bool :=
  if a.engine then decide (1 ≤ kget 0 (engineKey a.clock) vc)
  else (a.tid == me && !mine) || decide (a.clock ≤ kget 0 (Tid.key a.tid) vc)

def raceOther (a : Access) (va : Word) : Cause := { code := 0x70, addr := va, other := some (a.tid, a.engine), peer := a.pc }

/-- The first earlier access of a word with which this one conflicts. -/
def raceConflict (s : State) (word : Nat) (write : Bool) (me : Access) (vc : List (Nat × Nat)) : Option Access :=
  let ok := accessBefore vc me.tid me.engine
  s.races.findSome? fun r =>
    if r.word != word then none
    else match r.write with
    | some a => if ok a then (if write then r.reads.find? fun b => !ok b else none) else some a
    | none => if write then r.reads.find? fun b => !ok b else none

/-- Frees the records of a context whose accesses happen-before everything its live threads and running engine operations can still do (R214, R215). -/
def purgeRaces (s : State) (pasid : Nat) : State :=
  let live := s.threads.filter fun t => t.run != .ended && t.run != .killed && ((getWg s t.wg).any fun w => w.pasid == pasid)
  let runs := s.engines.filter fun e => (getWg s e.wg).any fun w => w.pasid == pasid
  let old := fun (a : Access) => (live.all fun t => accessBefore t.vc t.tid false a) && runs.all fun e => accessBefore (kset (engineKey e.id) 1 e.vc) e.tid true a
  { s with races := s.races.filter fun r => !(r.pasid == pasid && (r.write.all old) && r.reads.all old) }

/-- Checks and records an access of some words. `racer` names it, `vc` is its clock. -/
def raceWords (s : State) (core pasid : Nat) (region : Word) (va : Word) (write : Bool) (me : Access) (vc : List (Nat × Nat)) :
    List Nat → State × Option Cause
  | [] => (s, none)
  | wd :: rest =>
    match raceConflict s wd write me vc with
    | some a => (s, some (raceOther a va))
    | none =>
      let mine := fun (r : RaceRecord) => r.core == core && r.pasid == pasid && r.region == region
      let has := s.races.any fun r => mine r && r.word == wd
      let s := if !has && decide (Config.raceWords ≤ (s.races.filter mine).length) then purgeRaces s pasid else s
      if !has && decide (Config.raceWords ≤ (s.races.filter mine).length) then (s, some { code := 0x71, addr := va })
      else
        let upd := fun (r : RaceRecord) =>
          if write then { r with write := some me, reads := [] }
          else { r with reads := me :: r.reads.filter fun b => !(b.tid == me.tid && b.engine == me.engine) }
        let s := if has then { s with races := updIf (fun r => mine r && r.word == wd) upd s.races }
          else { s with races := s.races ++ [upd ⟨core, pasid, region, wd, none, []⟩] }
        raceWords s core pasid region va write me vc rest

def wordsOfRange (a n : Nat) : List Nat := (List.range ((a + n - 1) / 8 + 1 - a / 8)).map (a / 8 + ·)

/-- A thread's checked access. -/
def raceThread (s : State) (w : Workgroup) (t : Thread) (va : Word) (a n : Nat) (write : Bool) : State × Option Cause :=
  let vc := vcOf s t.tid
  raceWords s t.tid.core w.pasid w.region va write ⟨t.tid, t.pc, false, kget 0 (Tid.key t.tid) vc⟩ vc (wordsOfRange a n)

/-! ## Stores in flight and L1 (R203, R206) -/

/-- A range of `n` bytes from `a` meets the cells. -/
def cellsTouch (cs : List Host.Cell) (a n : Nat) : Bool := cs.any fun c => decide (a ≤ c.1) && decide (c.1 < a + n)

def isHostKey (a : Nat) : Bool := decide (0xA0 * 2 ^ 44 ≤ a)

/-- Writes contiguous bytes at a canonical address. -/
def writeCanon (s : State) (a : Nat) (bytes : List Byte) (layout key : Nat) (poison : Bool) : State :=
  let s := syncClear s a bytes.length
  if isHostKey a then { s with mem := setCells (cellsAt a bytes) s.mem } else writeHbmRange s a bytes layout key poison

/-- The store reaches its point of coherence. -/
def performStore (s : State) (x : OutStore) : State :=
  let s := { s with stores := s.stores.filter fun y => y.id != x.id }
  match x.cells with
  | [] => s
  | (a, _) :: _ => writeCanon s a (x.cells.map (·.2)) x.layout x.key x.poison

/-- Performs, oldest first, the stores of a core that touch a range. -/
def drainOverlap (s : State) (core a n : Nat) : State :=
  (s.stores.filter fun x => x.core == core && cellsTouch x.cells a n).foldl performStore s

/-- The canonical address of a physical address whose home holds cells. -/
def canon (s : State) (pasid pa : Nat) : Option Nat :=
  match homeOf s.module_ s.domain pa with
  | .hbm a => some a
  | .host k bus => hostAddr s k pasid bus
  | _ => none

/-- The bytes as the core's own stores in flight, and the thread's own unmatched stores, leave them. -/
def overlay (s : State) (t : Tid) (a : Nat) (l : List Byte) : List Byte :=
  let own := (s.stores.filter fun x => x.core == t.core).map (·.cells)
    ++ (s.compare.filterMap fun c => if c.tid == t then (match c.effect with
        | .store pa bytes .. => (canon s (((getWg s c.wg).map (·.pasid)).getD 0) pa).map fun x => cellsAt x bytes
        | _ => none) else none)
  (List.range l.length).map fun i => own.foldl (fun b cs => ((cs.find? fun c => c.1 == a + i).map (·.2)).getD b) (l.getD i 0)

/-- The 64 bytes of a line of HBM where nothing in the block is in error for this key and layout. -/
def cleanLine (s : State) (blk : Nat) (l : Leaf) : Option (List Byte) :=
  let r := readBlk s blk l.layout l.key
  if (seenClass r allBits).isNone && !r.badMac then some (leBytes 64 r.data) else none

/-- A store in flight updates the L1 copy that its core holds; POISON data drops it. -/
def l1Update (s : State) (core a : Nat) (bytes : List Byte) (poison : Bool) : State :=
  { s with l1 := (s.l1.filter fun l => !(poison && l.core == core && l.block == a / 64)).map fun l =>
      if l.core == core && l.block == a / 64 then
        { l with data := (List.range 64).map fun i => if a % 64 ≤ i ∧ i < a % 64 + bytes.length then bytes.getD (i - a % 64) 0 else l.data.getD i 0 }
      else l }

/-- The line of a core's L1 region. -/
def l1Find (s : State) (core blk : Nat) : Option L1Line := s.l1.find? fun x => x.core == core && x.block == blk

/-- Brings a line in; a full region evicts a line filled under .st, the oldest first, else its oldest line (R11, R203; assumption log 76). -/
def l1Fill (s : State) (core blk : Nat) (data : List Byte) (first : Bool) : State :=
  let l := ⟨core, blk, data, first⟩ :: s.l1.filter fun x => !(x.core == core && x.block == blk)
  let mine := l.filter fun x => x.core == core
  if mine.length ≤ Config.l1Lines then { s with l1 := l }
  else match ((mine.drop 1).filter (·.first)).getLast?.or mine.getLast? with
  | none => { s with l1 := l }
  | some v => { s with l1 := l.erase v }

/-! ## Reading -/

/-- What reading at a home gives: data, no data (a SEV3 error of a lost link), a request to a peer, or a wait. -/
inductive Rd where
  | data (r : ByteRead)
  | noData
  | peer (m off : Nat)
  | stop (r : LaneRes)

/-- Whether host memory of a link can be reached by a workgroup (R21, R64). -/
def hostUp (s : State) (link : Nat) (w : Workgroup) : Bool := hostUpGen s link w.pasid w.gen

def goodBytes (l : List Byte) : ByteRead := ⟨l, none, [], [], false, false⟩

/-- A read of `n` bytes at a physical address. `poc` for reads at the point of coherence (R203). -/
def readPa (s : State) (w : Workgroup) (t : Thread) (l : Leaf) (pa n : Nat) (va : Word) (poc : Bool) (cp : Cp) : State × Rd :=
  let cached := !poc && cp != .by
  let hit := fun (a : Nat) => if cached then (l1Find s t.tid.core (a / 64)).map fun x => overlay s t.tid a (slice (a % 64) n x.data) else none
  match homeOf s.module_ s.domain pa with
  | .bad => (s, .noData)
  | .reg off => (s, .data (goodBytes (regBytes s off n)))
  | .peer m off => (match hit pa with
    | some b => (s, .data (goodBytes b))
    | none => (s, .peer m off))
  | .host k bus =>
    if !hostUp s k w then (s, .noData)
    else (match hostXlate s k w.pasid bus with
    | (s, .wait) => (s, .stop (.wait (.ats k (bus / 4096) va.toNat false)))
    | (s, .fault) =>
      let (s, r) := hold s w t va false
      (s, .stop r)
    | (s, .ok a) => (match hit a with
      | some b => (s, .data (goodBytes b))
      | none =>
        let s' := if cached then l1Fill s t.tid.core (a / 64) (overlay s t.tid (a / 64 * 64) (getCells (a / 64 * 64) 64 s.mem)) (cp == .st) else s
        (s', .data (goodBytes (overlay s t.tid a (getCells a n s.mem))))))
  | .hbm a =>
    let plain := cached && t.pl < 2 && decide ((getBlock s (a / 64)).key = l.key)
    match plain, if plain then hit a else none with
    | true, some b => (s, .data (goodBytes b))
    | true, none =>
      let (s, r) := readHbmRange s a n l.layout l.key
      let r := { r with bytes := overlay s t.tid a r.bytes }
      (match cleanLine s (a / 64) l with
       | some d => (l1Fill s t.tid.core (a / 64) (overlay s t.tid (a / 64 * 64) d) (cp == .st), .data r)
       | none => (s, .data r))
    | false, _ =>
      let s := drainOverlap s t.tid.core a n
      let (s, r) := readHbmRange s a n l.layout l.key
      (s, .data { r with bytes := overlay s t.tid a r.bytes })

/-- The data of a load under its region's policy (R132): bytes, the bytes that make a register POISON, numerr. -/
structure LoadData where
  bytes : List Byte
  bad : List Bool
  numerr : Bool

inductive Pol where
  | ok (d : LoadData)
  | stop (r : LaneRes)

/-- Applies the policy of the class seen. A MAC failure also writes a fault record (R137). -/
def applySev (s : State) (w : Workgroup) (key : Nat) (va : Word) (shadow : Bool) (r : ByteRead) : State × Pol :=
  if r.badMac then (faultRecord s w.pasid 0x58 va, .stop (.trap { code := 0x58, addr := va, shadow := shadow }))
  else match r.sev with
  | none => (s, .ok ⟨r.bytes, r.bytes.map fun _ => false, false⟩)
  | some c =>
    let pol := sevPolicy (wgNow s w).sev c
    if pol = 3 then (s, .stop (.kill (integCode r.integ (sevCause c)) va))
    else if pol = 2 then (s, .ok ⟨r.bytes, r.affected.map fun b => b != 0, false⟩)
    else if pol = 0 ∧ key = 0 then (s, .ok ⟨r.bytes, r.bytes.map fun _ => false, true⟩)
    else (s, .ok ⟨List.zipWith (fun b m => b &&& ~~~m) r.bytes r.affected, r.bytes.map fun _ => false, true⟩)

/-- A SEV3 error without data (R21, R32). -/
def applyNoData (s : State) (w : Workgroup) (va : Word) (n : Nat) : State × Pol :=
  match sev3Words s w ((n + 3) / 4) with
  | (s, none) => (s, .stop (.kill 0x53 va))
  | (s, some (ws, p)) => (s, .ok ⟨(ws.flatMap fun x => leBytes 4 x.toNat).take n, List.replicate n p, !p⟩)

/-- Data of a peer that a thread needs before its word can go on: it waits for the answer, and takes it when the word issues again. -/
def peerData (s : State) (w : Workgroup) (t : Thread) (m off n : Nat) (va : Word) : State × Pol :=
  match readPeer s (.lane t.tid) m off n with
  | (s, .data l) => (s, .ok ⟨l, l.map fun _ => false, false⟩)
  | (s, .failed) => applyNoData s w va n
  | (s, .wait) => (s, .stop (.wait .resource))

/-- The 32-bit words of `n` bytes of data, extended under sx where narrower (R337). -/
def dataWords (n : Nat) (sx : Bool) (l : List Byte) : List W32 :=
  if n < 4 then
    (let x := leNat (l.take n)
     [BitVec.ofNat 32 (if sx then wrap 32 (sval (8 * n) x) else x)])
  else (List.range (n / 4)).map fun i => BitVec.ofNat 32 (field l (4 * i) 4)

def dataFill (n : Nat) (sx : Bool) (d : LoadData) : List FillWord :=
  let ws := dataWords n sx d.bytes
  (List.range ws.length).map fun i => ⟨ws.getD i 0, ((d.bad.drop (4 * i)).take 4).any id, []⟩

/-! ## Writing -/

/-- Whether a write can go out now; or why it waits, that its link is gone, or that its host page faults (R118). -/
inductive Reach where
  | ready
  | noData
  | unmapped
  | stop (r : LaneRes)

def reach (s : State) (w : Workgroup) (pa : Nat) (va : Word) (wr : Bool) : State × Reach :=
  match homeOf s.module_ s.domain pa with
  | .host k bus =>
    if !hostUp s k w then (s, .noData)
    else (match hostXlate s k w.pasid bus with
    | (s, .wait) => (s, .stop (.wait (.ats k (bus / 4096) va.toNat wr)))
    | (s, .fault) => (s, .unmapped)
    | (s, .ok _) => (s, .ready))
  | .peer .. => (match route s with
    | none => (s, .noData)
    | some p => if credit s p 0 = 0 then (s, .stop (.wait .resource)) else (s, .ready))
  | _ => (s, .ready)

/-- A store of a thread as it is in flight. -/
def mkStore (id : Nat) (w : Workgroup) (t : Tid) (layout key : Nat) (va : Word) (cells : List Host.Cell) (poison : Bool) (port : Option Nat) : OutStore :=
  { id := id, core := t.core, tid := t, pasid := w.pasid, cells := cells, poison := poison, layout := layout, key := key, port := port, addr := va,
    who := none, red := false }

/-- The privilege level of a thread. -/
def levelOf (s : State) (t : Tid) : Nat := ((getT s t).map (·.pl)).getD 0

/-- Sends a store out: into flight, or performed at once (`now`). -/
def putStore (s : State) (w : Workgroup) (t : Tid) (layout key : Nat) (pa : Nat) (va : Word) (bytes : List Byte) (poison now : Bool) : State :=
  match homeOf s.module_ s.domain pa with
  | .reg off => regWriteBytes s off bytes (levelOf s t == 3)
  | .peer _ off =>
    (match route s with
     | none => s
     | some p =>
       let (s, id) := newId s
       let s := sendRequest s p 0 0 (.store id off bytes) (.store id)
       let s := { s with stores := s.stores ++ [mkStore id w t layout key va [] poison (some p)] }
       if now then s else l1Update s t.core pa bytes poison)
  | .bad => s
  | _ =>
    match canon s w.pasid pa with
    | none => s
    | some a =>
      if now then writeCanon (drainOverlap s t.core a bytes.length) a bytes layout key poison
      else
        let (s, id) := newId s
        l1Update { s with stores := s.stores ++ [mkStore id w t layout key va (cellsAt a bytes) poison none] } t.core a bytes poison

/-- A store or RED whose link is gone: its region's policy for SEV3 (R21), or the report of R32 to the fault domain. -/
def lostStore (s : State) (w : Workgroup) (t : Thread) (pa : Nat) (va : Word) : State × Option LaneRes :=
  match homeOf s.module_ s.domain pa with
  | .peer .. => (reportDomain s w.pasid t.tid (some w.id) 0x53 va, some (.kill 0x53 va))
  | _ =>
    let pol := sevPolicy (wgNow s w).sev 3
    if pol = 3 then (s, some (.kill 0x53 va))
    else (modT s t.tid fun x => { x with numerr := x.numerr || decide (pol < 2) }, none)

/-! ## The side log (R120) -/

/-- The thread has entries for the page in the log. -/
def logged (s : State) (t : Tid) (va : Word) : Bool :=
  s.sideLog.any fun e => e.tid == t && e.addr.toNat / 4096 == va.toNat / 4096 && (getT s t).all fun x => x.wg == e.wg

/-- Enters a store or RED; a full log stalls its thread. `fault` where its page is not mapped. -/
def enterLog (s : State) (w : Workgroup) (t : Thread) (va : Word) (op : LogOp) (sc : Scope) (ord : Ord) (fault : Bool) : State × Option LaneRes :=
  if Config.sideLogEntries ≤ (s.sideLog.filter fun e => e.core == t.tid.core).length then (s, some (.wait .resource))
  else
    let (s, id) := newId s
    let s := { s with sideLog := s.sideLog ++ [⟨id, t.tid.core, t.tid, w.id, w.pasid, w.region, va, op, sc, ord, t.pl⟩] }
    (if fault then (raiseFault s t.tid.core w.pasid va.toNat true).1 else s, none)

/-! ## Redundancy (R144 to R149) -/

/-- The thread of the mate group at the same warp and lane. -/
def counterpart (s : State) (w : Workgroup) (t : Tid) : Option Tid :=
  ((getWarp s t.core t.slot).bind fun a => s.warps.find? fun b => b.wg == w.mate && b.index == a.index).map fun b => ⟨b.core, b.slot, t.lane⟩

/-- The thread's place in its group: warp index and lane. -/
def place (s : State) (t : Tid) : Nat × Nat := (((getWarp s t.core t.slot).map (·.index)).getD 0, t.lane)

/-- A value goes into the load value queue, for a chanter's thread; without words it reserves its place for the answer to load `load` (R146). -/
def queueValue (s : State) (w : Workgroup) (t : Tid) (words : Option (List FillWord)) (numerr atomic : Bool) (load : Nat := 0) : State :=
  if w.role != .chanter then s
  else
    let p := place s t
    let seq := ((getT s t).map (·.atoms)).getD 0
    { s with values := s.values ++ [{ wg := w.id, warp := p.1, lane := p.2, seq := if atomic then seq else 0, words := words, numerr := numerr, atomic := atomic, load := load, taken := false }] }

/-- The chanter stalls while its queue is full (R147): the values that the drone has not taken. -/
def valuesFull (s : State) (w : Workgroup) : Bool :=
  w.role == .chanter && decide (Config.loadValues ≤ (s.values.filter fun v => v.wg == w.id && !v.taken).length)

def isValue (w : Nat) (p : Nat × Nat) (v : LoadValue) : Bool := v.wg == w && v.warp == p.1 && v.lane == p.2

/-- The drone takes its next value that is no atomic's: none while the queue holds none. -/
def takeValue (s : State) (w : Workgroup) (t : Tid) : Option (State × List FillWord × Bool) :=
  let p := place s t
  match s.values.find? fun v => isValue w.mate p v && !v.atomic with
  | none => none
  | some v => v.words.map fun ws => ({ s with values := s.values.erase v }, ws, v.numerr)

/-- The result of an atomic already performed in this interval: for a re-executing chanter, and for the drone (R146, R148). -/
def atomValue (s : State) (w : Workgroup) (t : Thread) : Option LoadValue :=
  let id := if w.role == .drone then w.mate else w.id
  s.values.find? fun v => isValue id (place s t.tid) v && v.atomic && v.seq == t.atoms

/-- The drone has taken an atomic's result, which stays in the replay log. -/
def takeAtom (s : State) (w : Workgroup) (v : LoadValue) : State :=
  if w.role == .drone then { s with values := updIf (fun x => x == v) (fun x => { x with taken := true }) s.values } else s

/-- What a chanter's effect waits under: address, width, data. -/
structure Sig where
  addr : Word
  width : Nat
  data : Nat

/-- An effect enters the compare buffer; none while it is full. -/
def compareEnter (s : State) (w : Workgroup) (t : Thread) (g : Sig) (c : List (BitVec 16)) (e : Held) : Option State :=
  if Config.compareEntries ≤ (s.compare.filter fun x => x.wg == w.id).length then none
  else
    let (s, id) := newId s
    let h := ((getT s t.tid).map (·.hash)).getD 0
    some (modT { s with compare := s.compare ++ [⟨id, w.id, t.tid, g.addr, g.width, g.data, h, c, e⟩] } t.tid fun x => { x with hash := 0 })

inductive Match where
  /-- the chanter's effect, now to be performed for its thread -/
  | hit (t : Tid) (e : Held)
  | stop (r : LaneRes)

/-- The drone's signature against the oldest entry of its counterpart. -/
def compareMatch (s : State) (w : Workgroup) (t : Thread) (g : Sig) : State × Match :=
  match (counterpart s w t.tid).bind fun c => s.compare.find? fun x => x.wg == w.mate && x.tid == c with
  | none => (s, .stop (.wait .resource))
  | some x =>
    if x.sigAddr == g.addr && x.sigWidth == g.width && x.sigData == g.data && x.sigHash == t.hash then
      (wakeAll (modT { s with compare := s.compare.filter fun y => y.id != x.id } t.tid fun y => { y with hash := 0 }), .hit x.tid x.effect)
    else (s, .stop (.kill 0xB8 0))

/-- The workgroup that a held effect belongs to. -/
def mateOf (s : State) (w : Workgroup) : Workgroup := (getWg s w.mate).getD w

/-- Sends out a store that can go, with its ordering effects; or it enters the log, where its host page faults; or says why it waits (R21, R32, R118). -/
def sendStore (s : State) (w : Workgroup) (t : Thread) (layout key pa : Nat) (va : Word) (bytes : List Byte) (poison now : Bool) (sc : Scope) (ord : Ord) :
    State × Option LaneRes :=
  match reach s w pa va true with
  | (s, .stop r) => (s, some r)
  | (s, .noData) => lostStore s w t pa va
  | (s, .unmapped) => enterLog s w t va (.store bytes poison []) sc ord true
  | (s, .ready) => (storeOrder (putStore s w t.tid layout key pa va bytes poison now) t.tid ord sc ((canon s w.pasid pa).getD pa), none)

/-- A store of one thread whose translation, colours and checks are done: sent, held for comparison, or matched (R145). -/
def commitStore (s : State) (w : Workgroup) (t : Thread) (l : Leaf) (pa : Nat) (va : Word) (bytes : List Byte) (poison now : Bool)
    (c : List (BitVec 16)) (sc : Scope) (ord : Ord) : State × Option LaneRes :=
  match w.role with
  | .single => sendStore s w t l.layout l.key pa va bytes poison now sc ord
  | .chanter =>
    (match compareEnter s w t ⟨va, bytes.length, leNat bytes⟩ c (.store pa bytes l.layout l.key poison now va sc ord) with
     | none => (s, some (.wait .resource))
     | some s => (s, none))
  | .drone => (s, none)

/-- A store or RED on an unmapped or logged page: into the log, or held for comparison first. -/
def commitLog (s : State) (w : Workgroup) (t : Thread) (va : Word) (width data : Nat) (op : LogOp) (c : List (BitVec 16)) (sc : Scope) (ord : Ord) (fault : Bool) :
    State × Option LaneRes :=
  match w.role with
  | .chanter =>
    (match compareEnter s w t ⟨va, width, data⟩ c (.log va op sc ord) with
     | none => (s, some (.wait .resource))
     | some s => (s, none))
  | _ => enterLog s w t va op sc ord fault

/-- What a matched store of the chanter `ct` does; its page raises a fault only where it is still not mapped. -/
def performHeldStore (s : State) (w : Workgroup) (ct : Tid) (e : Held) : State × Option LaneRes :=
  match getT s ct, e with
  | some t, .store pa bytes layout key poison now va sc ord => sendStore s w t layout key pa va bytes poison now sc ord
  | some t, .log va op sc ord => enterLog s w t va op sc ord ((walk s w.pasid va.toNat).2 == .unmapped)
  | _, _ => (s, none)

/-- The drone's store: its signature against the chanter's entry, which takes effect; an effect that must wait stays held. -/
def droneStore (s : State) (w : Workgroup) (t : Thread) (va : Word) (width data : Nat) : State × Option LaneRes :=
  match compareMatch s w t ⟨va, width, data⟩ with
  | (s, .stop r) => (s, some r)
  | (s1, .hit ct e) =>
    match performHeldStore s1 (mateOf s1 w) ct e with
    | (s2, some (.wait x)) => ({ s2 with compare := s.compare, threads := s.threads }, some (.wait x))
    | x => x

/-- A read of bytes that may span blocks: the pieces of one page, merged. -/
def readPaRange (s : State) (w : Workgroup) (t : Thread) (l : Leaf) (pa n : Nat) (va : Word) (poc : Bool) (cp : Cp) : State × Rd :=
  (blockPieces (n / 64 + 2) pa n).foldl (fun (acc : State × Rd) p =>
    match acc.2 with
    | .data r0 =>
      (match readPa acc.1 w t l p.1 p.2 va poc cp with
       | (s, .data r) => (s, .data ⟨r0.bytes ++ r.bytes, maxClass r0.sev r.sev,
           (if r0.affected.isEmpty then List.replicate r0.bytes.length 0 else r0.affected) ++ (if r.affected.isEmpty then List.replicate p.2 0 else r.affected),
           r0.blocks ++ r.blocks, r0.integ || r.integ, r0.badMac || r.badMac⟩)
       | (s, .peer m off) => (s, .peer m (off + pa - p.1))
       | x => x)
    | _ => acc) (s, .data ⟨[], none, [], [], false, false⟩)

def cpOf (n : Nat) : Cp := if n = 1 then .by else if n = 2 then .st else .ca

/-- The effective cache policy (R336). -/
def effCp (cp : Cp) (l : Leaf) : Cp := if cp == .ca then cpOf l.cp else cp

end Sys2Proof.Machine
end

