-- ==== Sys2Proof/Machine/Scratch.lean ====
section
/-! DEFINITION. The scratch address space of a workgroup (R172 to R174), the scratch map (R116, R117, R345 to R349), and the link-stack spill (R300). -/

namespace Sys2Proof.Machine

/-! ## Addresses (R172) -/

inductive SAddr where
  | pad (a : Nat)
  /-- component (0 the primal), warp, register, lane -/
  | win (comp warp n lane : Nat)
  | unmapped
  | noReg
  deriving DecidableEq, Repr

def winAddr (w : Workgroup) (comp x : Nat) : SAddr :=
  let warp := x / 0x10000
  let n := x / 256 % 256
  if w.nwarps ≤ warp ∨ w.shadows < comp then .unmapped
  else if w.vregs ≤ n then .noReg
  else .win comp warp n (x % 256 / 4)

def scrAddr (w : Workgroup) (a n : Nat) : SAddr :=
  if a + n ≤ w.scratch then .pad a
  else if 0x400000 ≤ a ∧ a < 0x500000 then winAddr w 0 (a - 0x400000)
  else if 0x800000 ≤ a ∧ a < 0xC00000 then winAddr w ((a - 0x800000) / 0x100000 + 1) ((a - 0x800000) % 0x100000)
  else .unmapped

/-- The window or shadow part of the space, mapped or not. -/
def isWindow (a : Nat) : Bool := decide (0x400000 ≤ a)

/-! ## Alias accesses (R173) -/

def winThread (s : State) (w : Workgroup) (warp lane : Nat) : Option Thread :=
  s.threads.find? fun t => t.wg == w.id && t.tid.lane == lane && ((getWarp s t.tid.core t.tid.slot).any fun x => x.wg == w.id && x.index == warp)

/-- The `k` register lanes of a window access. -/
def winRegs (s : State) (w : Workgroup) (warp n lane k : Nat) : List (Option Thread × Reg) :=
  (List.range k).map fun i => match winThread s w warp (lane + i) with
    | none => (none, regDead)
    | some t => (some t, vReg t n)

def regComp (r : Reg) (comp : Nat) : W32 := if comp = 0 then r.val else r.sh.getD (comp - 1) 0

/-- none where a lane is not FULL. -/
def aliasRead (s : State) (w : Workgroup) (comp warp n lane k : Nat) : Option (List W32) :=
  let l := winRegs s w warp n lane k
  if l.all fun e => e.2.st == .full then some (l.map fun e => regComp e.2 comp) else none

/-- Writes the component and leaves the lanes FULL; POISON data makes them POISON (assumption log 24). A write of the primal writes +0 to every shadow component (R176, R178). -/
def aliasWrite (s : State) (w : Workgroup) (comp warp n lane : Nat) (words : List W32) (poison : Bool) : State :=
  let gs := if comp = 0 then regGranules w.shadows warp n else [2 ^ 20 + (comp * 16 + warp) * 256 + n]
  let s := gs.foldl (fun s g => touchGranule s w.id g) s
  (List.range words.length).foldl (fun s i =>
    match winThread s w warp (lane + i) with
    | none => s
    | some t => modT s t.tid fun t =>
        let r := vReg t n
        let x := words.getD i 0
        let st := if poison then RegState.poison else .full
        setV t n (if comp = 0 then ⟨st, x, []⟩ else { r with st := st, sh := (List.range w.shadows).map fun j => if j + 1 = comp then x else r.sh.getD j 0 })) s

/-! ## The scratchpad -/

/-- Bytes of the scratchpad, and whether they lie in a block of POISON data. -/
def padRead (w : Workgroup) (a n : Nat) : List Byte × Bool :=
  (getCells a n w.pad, (List.range ((a + n - 1) / 64 + 1 - a / 64)).any fun i => w.padPoison.contains (a / 64 + i))

/-- The offsets of a write in the bound chunk `c`. -/
def dirtyIn (c a n : Nat) : List Nat := (List.range n).filterMap fun i => if (a + i) / 256 = c then some ((a + i) % 256) else none

/-- Writes bytes of one 64-byte block or less. `local_` marks bound chunks dirty. -/
def padWrite (s : State) (id a : Nat) (bytes : List Byte) (poison local_ : Bool) : State :=
  let s := touchGranule s id (a / 256)
  modWg s id fun w =>
    let pp := if bytes.length = 64 ∧ a % 64 = 0 then w.padPoison.filter (· != a / 64) else w.padPoison
    { w with
      pad := setCells (cellsAt a bytes) w.pad
      padPoison := if poison && !pp.contains (a / 64) then pp ++ [a / 64] else pp
      chunks := if local_ then updIf (fun c => c.index == a / 256) (fun c => { c with dirty := (c.dirty ++ dirtyIn c.index a bytes.length).eraseDups }) w.chunks else w.chunks }

def padWriteRange (s : State) (id a : Nat) (bytes : List Byte) (poison local_ : Bool) : State :=
  ((blockPieces (bytes.length / 64 + 2) a bytes.length).foldl (fun (acc : State × List Byte) p =>
    (padWrite acc.1 id p.1 (acc.2.take p.2) poison local_, acc.2.drop p.2)) (s, bytes)).1

/-! ## Chunks (R116, R346) -/

def bindingAt (w : Workgroup) (a : Nat) : Option Binding := w.smap.find? fun b => decide (b.base ≤ a) && decide (a < b.base + b.len)

def chunkAt (w : Workgroup) (a : Nat) : Option Chunk := w.chunks.find? fun c => c.index == a / 256

/-- The global address of the chunk that holds scratch address `a`. -/
def chunkGlobal (b : Binding) (a : Nat) : Word := b.gaddr + BitVec.ofNat 64 (a / 256 * 256 - b.base)

/-- An address in a chunk that is bound and not filled (R353). -/
def unfilled (w : Workgroup) (a : Nat) : Bool := (bindingAt w a).isSome && ((chunkAt w a).any fun c => !c.filled)

/-- The bytes of a fill enter the scratchpad. -/
def putChunk (s : State) (id c : Nat) (d : LoadData) : State :=
  let s := (List.range 4).foldl (fun s i => padWrite s id (256 * c + 64 * i) (slice (64 * i) 64 d.bytes) (((d.bad.drop (64 * i)).take 64).any fun x => x) false) s
  modWg s id fun w => { w with chunks := updIf (fun x => x.index == c) (fun x => { x with filled := true, dirty := [], fresh := true }) w.chunks }

/-- The place under which a chunk's fill passes from chanter to drone (R146): beyond the warps. -/
def chunkPlace : Nat := 16

/-- The data that a fill brings. -/
def chunkData (s : State) (w : Workgroup) (t : Thread) (l : Leaf) (pa : Nat) (va : Word) : State × Pol :=
  match readPaRange s w t l pa 256 va false (cpOf l.cp) with
  | (s, .data r) => applySev s w l.key va false r
  | (s, .noData) => applyNoData s w va 256
  | (s, .peer m off) => peerData s w t m off 256 va
  | (s, .stop r) => (s, .stop r)

/-- The first touch of a bound chunk fills it; none when the chunk can be used (R116, R339). -/
def fillChunk (s : State) (w : Workgroup) (t : Thread) (a : Nat) : State × Option LaneRes :=
  match bindingAt w a, chunkAt w a with
  | some b, some c =>
    if c.filled then (s, none)
    else
      let va := chunkGlobal b a
      if w.role == .drone then
        match s.values.find? fun v => isValue w.mate (chunkPlace, c.index) v with
        | none => (s, some (.wait .resource))
        | some v =>
          let ws := v.words.getD []
          let s := modT s t.tid fun x => { x with numerr := x.numerr || v.numerr }
          (putChunk { s with values := s.values.erase v } w.id c.index
            ⟨ws.flatMap fun x => leBytes 4 x.val.toNat, ws.flatMap fun x => List.replicate 4 x.poison, false⟩, none)
      else if valuesFull s w then (s, some (.wait .resource))
      else match accXlate s w t va true false false with
      | (s, .unmapped) =>
        let (s, r) := hold s w t va false
        (s, some r)
      | (s, .stop r) => (s, some r)
      | (s, .ok l pa) =>
        if l.colour ≠ 0 ∨ l.rc then (s, some (.trap { code := 0x42, addr := va }))
        else match chunkData s w t l pa va with
        | (s, .stop r) => (s, some r)
        | (s, .ok d) =>
          let s := putChunk s w.id c.index d
          let s := if d.numerr then modT s t.tid fun x => { x with numerr := true } else s
          let s := if w.role == .chanter then
            { s with values := s.values ++ [{ wg := w.id, warp := chunkPlace, lane := c.index, seq := 0, words := some (dataFill 256 false d), numerr := d.numerr, atomic := false, load := 0, taken := false }] } else s
          (s, none)
  | _, _ => (s, none)

/-- The first local write to a chunk checks W (R116). -/
def chunkWritable (s : State) (w : Workgroup) (t : Thread) (a : Nat) : State × Option LaneRes :=
  match bindingAt w a, chunkAt w a with
  | some b, some c =>
    if !c.dirty.isEmpty || w.role == .drone then (s, none)
    else
      let va := chunkGlobal b a
      (match accXlate s w t va false true false with
       | (s, .ok ..) => (s, none)
       | (s, .unmapped) =>
         let (s, r) := hold s w t va true
         (s, some r)
       | (s, .stop r) => (s, some r))
  | _, _ => (s, none)

/-- Contiguous runs of ascending offsets: first offset and length. -/
def runsOf : List Nat → List (Nat × Nat)
  | [] => []
  | x :: r => match runsOf r with
    | (y, n) :: q => if y = x + 1 then (x, n + 1) :: q else (x, 1) :: (y, n) :: q
    | [] => [(x, 1)]

/-- Writes back one run of a chunk as a plain store of thread `t` (R347, R117). -/
def writeBackRun (s : State) (w : Workgroup) (t : Thread) (va : Word) (bytes : List Byte) (poison : Bool) : State × Option LaneRes :=
  if w.role == .drone then droneStore s w t va bytes.length (leNat bytes)
  else match accXlate s w t va false true false with
  | (s, .unmapped) => commitLog s w t va bytes.length (leNat bytes) (.store bytes poison []) [] .thr .plain true
  | (s, .stop r) => (s, some r)
  | (s, .ok l pa) =>
    let s := if l.nr then pin s w.id else s
    if logged s t.tid va then commitLog s w t va bytes.length (leNat bytes) (.store bytes poison []) [] .thr .plain false
    else commitStore s w t l pa va bytes poison false [] .thr .plain

/-- The bytes of a run are clean. -/
def cleanRun (c : Nat) (r : Nat × Nat) (w : Workgroup) : Workgroup :=
  let keep := fun (o : Nat) => decide (o < r.1) || decide (r.1 + r.2 ≤ o)
  { w with chunks := updIf (fun y => y.index == c) (fun y => { y with dirty := y.dirty.filter keep }) w.chunks }

/-- Writes back a dirty chunk. A chunk filled in this interval pins it (R349). -/
def writeBackChunk (s : State) (id : Nat) (t : Thread) (b : Binding) (c : Nat) : State × Option LaneRes :=
  match (getWg s id).bind fun w => (chunkAt w (256 * c)).map fun x => (w, x) with
  | none => (s, none)
  | some (w, x) =>
    if x.dirty.isEmpty then (s, none)
    else
      let s := if x.fresh then pin s id else s
      (runsOf (sortBy (fun i => i) x.dirty)).foldl (fun (acc : State × Option LaneRes) r =>
        match acc with
        | (s, some z) => (s, some z)
        | (s, none) =>
          let d := padRead w (256 * c + r.1) r.2
          match writeBackRun s w t (chunkGlobal b (256 * c) + BitVec.ofNat 64 r.1) d.1 d.2 with
          | (s, some z) => (s, some z)
          | (s, none) => (modWg s id (cleanRun c r), none)) (s, none)

/-- Writes back every dirty chunk of a binding, in ascending order. -/
def writeBackBinding (s : State) (id : Nat) (t : Thread) (b : Binding) : State × Option LaneRes :=
  (List.range (b.len / 256)).foldl (fun (acc : State × Option LaneRes) i =>
    match acc with
    | (s, some z) => (s, some z)
    | (s, none) => writeBackChunk s id t b (b.base / 256 + i)) (s, none)

/-! ## One scratch access -/

/-- Causes of an address: range, alignment, window width (R172, R173). -/
def scrCauses (w : Workgroup) (a n : Nat) : List Cause :=
  let ad : Word := BitVec.ofNat 64 a
  let x := scrAddr w a n
  let window := match x with
    | .noReg => true
    | .win .. => true
    | _ => false
  (match x with
   | .noReg => [{ code := 0x13, addr := ad }]
   | .unmapped => [{ code := 0x31, addr := ad }]
   | _ => [])
  ++ (if decide (a % n ≠ 0) || (window && decide (n < 4)) then [{ code := 0x30, addr := ad }] else [])

inductive ScrRead where
  | data (bytes : List Byte) (poisoned : Bool)
  | stop (r : LaneRes)

/-- Reads `n` bytes (R339); a block of POISON data is a SEV3 error (R134). -/
def scrRead (s : State) (w : Workgroup) (t : Thread) (a n : Nat) : State × ScrRead :=
  match lowest (scrCauses w a n) with
  | some c => (s, .stop (.trap c))
  | none =>
    match scrAddr w a n with
    | .win comp warp r lane =>
      (match aliasRead s w comp warp r lane (n / 4) with
       | none => (s, .stop (.trap { code := 0x14, addr := BitVec.ofNat 64 a }))
       | some ws => (s, .data (ws.flatMap fun x => leBytes 4 x.toNat) false))
    | _ =>
      match fillChunk s w t a with
      | (s, some r) => (s, .stop r)
      | (s, none) =>
        let d := padRead ((getWg s w.id).getD w) a n
        (s, .data d.1 d.2)

/-- Writes bytes (R339). -/
def scrWrite (s : State) (w : Workgroup) (t : Thread) (a : Nat) (bytes : List Byte) (poison : Bool) : State × Option LaneRes :=
  match lowest (scrCauses w a bytes.length) with
  | some c => (s, some (.trap c))
  | none =>
    match scrAddr w a bytes.length with
    | .win comp warp r lane =>
      if (aliasRead s w comp warp r lane (bytes.length / 4)).isNone then (s, some (.trap { code := 0x14, addr := BitVec.ofNat 64 a }))
      else (aliasWrite s w comp warp r lane ((List.range (bytes.length / 4)).map fun i => BitVec.ofNat 32 (field bytes (4 * i) 4)) poison, none)
    | _ =>
      match fillChunk s w t a with
      | (s, some r) => (s, some r)
      | (s, none) =>
        match chunkWritable s ((getWg s w.id).getD w) t a with
        | (s, some r) => (s, some r)
        | (s, none) => (padWriteRange s w.id a bytes poison true, none)

/-! ## Link-stack spill (R300) -/

def linkBase (s : State) (t : Tid) : Nat := (match getWarp s t.core t.slot with | some x => x.linkbase.toNat | none => 0xFFFFFFF8) / 8 * 8

/-- Where RA(j) is spilled, modulo 2^32. -/
def spillAddr (s : State) (t : Tid) (j : Nat) : Nat := (linkBase s t + ((j - 1) * Config.width + t.lane) * 8) % 2 ^ 32

/-- RA(j): held, or reloaded. -/
def returnAddr (s : State) (w : Workgroup) (t : Thread) (j : Nat) : State × (Word ⊕ LaneRes) :=
  match t.links.find? fun l => l.1 == j with
  | some l => (s, .inl l.2)
  | none => match scrRead s w t (spillAddr s t.tid j) 8 with
    | (s, .data b false) => (s, .inl (leWord b))
    | (s, .data _ true) => (s, .inr (.consume { code := 0x12 }))
    | (s, .stop r) => (s, .inr r)

end Sys2Proof.Machine
end

