-- ==== Sys2Proof/Machine/Barriers.lean ====
section
/-! DEFINITION. Barriers: BAR, BARP, GBAR and CKPT (R356 to R360), with the epoch each completion starts (R138, R147). -/

namespace Sys2Proof.Machine

/-- GBAR is gang-wide but in a workgroup formed from the deque (R358). -/
def gangWide (w : Workgroup) (k : BarKind) : Bool := k == .gbar && !w.fromDeque

def barScope (w : Workgroup) (k : BarKind) : Scope := if gangWide w k then .cl else .wg

/-- The workgroups of a barrier of kind `k` reached by `w`. -/
def barGroups (s : State) (w : Workgroup) (k : BarKind) : List Workgroup :=
  if gangWide w k then s.wgs.filter fun x => x.gang == w.gang && x.role == w.role && x.state != .killed && x.state != .ended
  else [w]

def Thread.alive (t : Thread) : Bool := t.run != .ended && t.run != .killed

/-- Every participant of one workgroup that has not ended has arrived. -/
def wgArrived (s : State) (w : Workgroup) (k : BarKind) : Bool :=
  w.state == .resident && w.bar.any fun b => b.kind == k && !b.arrived.isEmpty
    && (wgThreads s w.id).all fun t => !t.alive || b.arrived.any fun a => a.tid == t.tid

/-- An engine operation with a core-store destination (R138). -/
def Side.coreStore : Side → Bool
  | .scratch _ => true
  | _ => false

def EngineKind.coreStore : EngineKind → Bool
  | .copy d .. => d.coreStore
  | .matrix (.accst _ scr ..) => scr
  | _ => false

/-- An operation that writes the core store runs: RQPOP writes a record into the scratchpad (R373). -/
def coreOpsRunning (s : State) (id : Nat) : Bool :=
  (s.engines.any fun e => e.wg == id && e.kind.coreStore) || s.loads.any fun l => l.kind == .pop && (getT s l.tid).any fun t => t.wg == id

/-- The instance of a workgroup can complete. -/
def barFull (s : State) (w : Workgroup) (k : BarKind) : Bool :=
  (barGroups s w k).all fun x => wgArrived s x k && !coreOpsRunning s x.id

/-- The value of BARP over a workgroup (R360). -/
def barValue (s : State) (w : Workgroup) (b : BarInst) : Nat :=
  let id := identity b.op b.u b.w64
  let f := combine b.op b.rnd b.u b.w64
  let warp := fun (i : Nat) => (redTree f 6 ((List.range 64).map fun l =>
    (⟨(((winThread s w i l).bind fun t => b.arrived.find? fun a => a.tid == t.tid).map fun a => a.val.toNat).getD id, []⟩ : RNode)) 0).1
  ((List.range (w.nwarps - 1)).foldl (fun r i => (f r (warp (i + 1))).1) (warp 0)).val

/-- A thread that departs: it has retired the word, with the result of BARP; but for CKPT it has joined the clocks `vc` of all (R358). -/
def departThread (b : BarInst) (words : List W32) (vc : List (Nat × Nat)) (now : Nat) (t : Thread) : Thread :=
  let t := b.marks.foldl killReg (popQueues t b.pops)
  let t := if b.kind == .barp then writePlain t b.dst words else t
  { t with pc := b.next, hdr := b.hdr, since := none, able := now, run := .ready, passed := false,
           vc := if b.kind == .ckpt then t.vc else kset (Tid.key t.tid) (kget 0 (Tid.key t.tid) (vcJoin t.vc vc) + 1) (vcJoin t.vc vc) }

/-- Every arrived thread of a workgroup retires the word and departs; then the epoch starts. -/
def barDepart (s : State) (id : Nat) (vc : List (Nat × Nat)) : State :=
  match (getWg s id).bind fun w => w.bar.map fun b => (w, b) with
  | none => s
  | some (w, b) =>
    let words := wordsOf b.words (barValue s w b)
    let tids := b.arrived.map (·.tid)
    let s := { s with threads := updIf (fun t => tids.contains t.tid) (departThread b words vc s.now) s.threads }
    let s := if b.kind == .barp then applyG s tids (tids.flatMap fun t => (gWrites b.dst words []).map fun g => (t, g)) else s
    let s := if b.kind == .ckpt then s else acquire s w.core (barScope w b.kind)
    startEpoch (modWg s id fun w => { w with bar := none }) id

/-- A mismatch of the two groups (R148). -/
def redundancyMismatch (s : State) (w : Workgroup) : State :=
  if canReplay s w then startRollback s w.id else kill s w.id 0xB8 0

/-- Completes the instance of a workgroup if it can; with its mate's under redundancy (R147, R359). -/
def barTry (s : State) (id : Nat) : State :=
  match (getWg s id).bind fun w => w.bar.map fun b => (w, b) with
  | none => s
  | some (w, b) =>
    if w.role == .drone || !barFull s w b.kind then s
    else
      let grp := barGroups s w b.kind
      let vcAll := fun (g : List Workgroup) => g.foldl (fun v x => (x.bar.map (·.arrived)).getD [] |>.foldl (fun v a => vcJoin v (vcOf s a.tid)) v) []
      if w.role == .single then grp.foldl (fun s x => barDepart s x.id (vcAll grp)) s
      else
        let m := mateOf s w
        match m.bar with
        | none => s
        | some mb =>
          if mb.kind != b.kind || !barFull s m b.kind || s.compare.any (fun c => grp.any fun x => x.id == c.wg) then s
          else if b.kind == .barp && barValue s w b != barValue s m mb then redundancyMismatch s w
          else
            let mates := barGroups s m b.kind
            let s1 := grp.foldl (fun s x => barDepart s x.id (vcAll grp)) s
            mates.foldl (fun s x => barDepart s x.id (vcAll mates)) s1

/-- Completes what can complete. -/
def barAll (s : State) : State := (s.wgs.filter fun w => w.bar.isSome).foldl (fun s w => barTry s w.id) s

/-- Whether an arrival agrees with the instances already begun (R357). -/
def barAgrees (s : State) (w : Workgroup) (b : BarInst) : Bool :=
  let same := fun (x : BarInst) => x.kind == b.kind && x.pc == b.pc && x.op == b.op && x.rnd == b.rnd && x.u == b.u && x.w64 == b.w64
  (w.bar.all fun x => x.arrived.isEmpty || same x)
    && (barGroups s w b.kind).all fun g => g.id == w.id || g.bar.all fun x => x.kind != .gbar || x.arrived.isEmpty || same x

/-- The instance with one arrival more; without arrivals it begins anew. -/
def withArrival (old : Option BarInst) (b : BarInst) (t : Tid) (val : Word) : BarInst :=
  match old with
  | some y => if y.arrived.isEmpty then { b with arrived := [⟨t, val⟩] } else { y with arrived := y.arrived ++ [⟨t, val⟩] }
  | none => { b with arrived := [⟨t, val⟩] }

/-- One thread arrives with a value. -/
def arrive (s : State) (w : Workgroup) (t : Thread) (b : BarInst) (val : Word) : State × LaneRes :=
  let w := (getWg s w.id).getD w
  if !barAgrees s w b then (s, .trap { code := 0x72 })
  else if b.kind != .ckpt && releasePending s t.tid (barScope w b.kind) then (s, .wait .release)
  else
    let s := modWg s w.id fun w => { w with bar := some (withArrival w.bar b t.tid val) }
    (waitFor s t.tid .barrier, .gone)

/-- The payload of BARP under redundancy: the chanter's waits in the compare buffer for the drone's (R145). -/
def barpCompare (s : State) (w : Workgroup) (t : Thread) (width : Nat) (val : Word) : State × Option LaneRes :=
  let g : Sig := ⟨s.cur.pc, width, val.toNat⟩
  match w.role with
  | .single => (s, none)
  | .chanter => (match compareEnter s w t g [] (.barp val) with
    | none => (s, some (.wait .resource))
    | some s => (s, none))
  | .drone => (match compareMatch s w t g with
    | (s, .stop r) => (s, some r)
    | (s, .hit ..) => (s, none))

/-- The instance that the word at pc would begin. -/
def barInst (s : State) (k : BarKind) : BarInst :=
  { kind := k, pc := s.cur.pc, op := .add, rnd := .rn, u := false, w64 := false, next := s.cur.next,
    hdr := if curLast s.cur then none else some s.cur.hdr, dst := .zero, words := 0, marks := [], pops := [], arrived := [] }

def barWord (s : State) (pg : Guard) (k : BarKind) : State := barAll (perLane s pg fun s w t => withSrcs s w t [] .zero 0 noCauses fun _ _ => arrive s w t (barInst s k) 0)

def execBar (pg : Guard) (s : State) : Host.Outcome State Fault Refusal := .next (barWord s pg .bar)
def execGbar (pg : Guard) (s : State) : Host.Outcome State Fault Refusal := .next (barWord s pg .gbar)
def execCkpt (pg : Guard) (s : State) : Host.Outcome State Fault Refusal := .next (barWord s pg .ckpt)

def execBarp (o : A1) (op : RedOp) (rnd : Rnd) (u w64 : Bool) (s : State) : Host.Outcome State Fault Refusal :=
  let k := wWords w64
  let l : List SrcSpec := [⟨o.a, k, redKind op w64⟩]
  .next (barAll (perLane s o.pg fun s w t =>
    withSrcs s w t l o.d k (poisonCauses []) fun vals pops =>
      let val : Word := BitVec.ofNat 64 ((opv vals 0).nat w64)
      match arrive s w t { barInst s .barp with op := op, rnd := rnd, u := u, w64 := w64, dst := o.d, words := k, marks := markedRegs l, pops := pops } val with
      | (s', .gone) =>
        (match barpCompare s' w t (4 * k) val with
         | (s', none) => (modT s' t.tid fun x => joinTokens x (namedTokens l), .gone)
         | (_, some (.wait x)) => (s, .wait x)
         | (s', some z) => (s', z))
      | z => z))

end Sys2Proof.Machine
end

