-- ==== Sys2Proof/Machine/Control.lean ====
section
/-! DEFINITION. Control words (R299 to R306): branches, calls and returns with the link stack and its spill, EXIT, YIELD, SLEEP, BKPT and TRAP. -/

namespace Sys2Proof.Machine

/-- A control word with at most one register operand: POISON in it traps with REG_POISON (R299). -/
def controlWord (s : State) (pg : Guard) (l : List SrcSpec)
    (f : State → Workgroup → Thread → List Opv → State × LaneRes) : State :=
  perLane s pg fun s w t =>
    withSrcs s w t l .zero 0 (poisonCauses [0]) fun vals pops =>
      match f s w t vals with
      | (s, .wait x) => (s, .wait x)
      | (s, .trap c) => (s, .trap c)
      | (s, .consume c) => (s, .consume c)
      | (s, .kill k a) => (s, .kill k a)
      | (s, r) => (touchRegs (modT s t.tid fun x => takeSources x l pops) w t.tid (markedRegs l), r)

/-- Word address + off (R301). -/
def relTarget (s : State) (off : W32) : Word := s.cur.pc + off.signExtend 64

def braSrc (mode : BraMode) (a : Src) : List SrcSpec :=
  match mode with
  | .always => []
  | .nz64 => [⟨a, 2, .int⟩]
  | .z64 => [⟨a, 2, .int⟩]
  | _ => [⟨a, 1, .int⟩]

def braTaken (mode : BraMode) (v : Opv) : Bool :=
  match mode with
  | .always => true
  | .nz => v.nat false != 0
  | .z => v.nat false == 0
  | .nz64 => v.nat true != 0
  | .z64 => v.nat true == 0

def execBra (pg : Guard) (mode : BraMode) (a : Src) (off : W32) (s : State) : Host.Outcome State Fault Refusal :=
  .next (controlWord s pg (braSrc mode a) fun s _ _ v =>
    if braTaken mode (opv v 0) then (s, .jump (relTarget s off)) else (s, .retire []))

/-- Target of BRX and CALLX (R301). -/
def xTarget (s : State) (tab : Bool) (off : W32) (v : Opv) : Word :=
  if tab then relTarget s off + BitVec.ofNat 64 (v.nat false * 8) else v.word + off.signExtend 64

def xSrc (tab : Bool) (a : Src) : List SrcSpec := [⟨a, if tab then 1 else 2, .int⟩]

def execBrx (pg : Guard) (tab : Bool) (a : Src) (off : W32) (s : State) : Host.Outcome State Fault Refusal :=
  .next (controlWord s pg (xSrc tab a) fun s _ _ v =>
    let x := xTarget s tab off (opv v 0)
    if x.toNat % 8 ≠ 0 then (s, .trap { code := 0x02 }) else (s, .jump x))

/-- R302: the call of one lane. -/
def callTo (s : State) (w : Workgroup) (t : Thread) (target : Word) : State × LaneRes :=
  if 255 ≤ t.depth then (s, .trap { code := 0xB4 })
  else
    let go := fun (s : State) (links : List (Nat × Word)) =>
      (modT s t.tid fun x => { x with depth := x.depth + 1, links := (x.depth + 1, s.cur.pc + 8) :: links }, LaneRes.jump target)
    if t.links.length < 8 then go s t.links
    else if linkBase s t.tid = 0xFFFFFFF8 then (s, .trap { code := 0xB4 })
    else match t.links.getLast? with
    | none => go s t.links
    | some (j, ra) =>
      let a := spillAddr s t.tid j
      match scrAddr w a 8 with
      | .pad _ =>
        (match scrWrite s w t a (leBytes 8 ra.toNat) false with
         | (s, some r) => (s, r)
         | (s, none) => go s t.links.dropLast)
      | _ => (s, .trap { code := 0x31, addr := BitVec.ofNat 64 a })

def execCall (pg : Guard) (off : W32) (s : State) : Host.Outcome State Fault Refusal :=
  .next (controlWord s pg [] fun s w t _ => callTo s w t (relTarget s off))

def execCallx (pg : Guard) (tab : Bool) (a : Src) (off : W32) (s : State) : Host.Outcome State Fault Refusal :=
  .next (controlWord s pg (xSrc tab a) fun s w t v =>
    let x := xTarget s tab off (opv v 0)
    if x.toNat % 8 ≠ 0 then (s, .trap { code := 0x02 }) else callTo s w t x)

/-- Release of colours at a frame end (R190): pins the interval (R201). -/
def releaseAll (s : State) (w : Workgroup) (t : Tid) (cs : List (BitVec 16)) : State :=
  if cs.isEmpty then s else cs.foldl (fun s c => releaseColour s w.pasid t c) (pin s w.id)

/-- R303: the return of one lane over `n` frames. -/
def returnOver (s : State) (w : Workgroup) (t : Thread) (n : Nat) : State × LaneRes :=
  if t.depth < n then (s, .trap { code := 0xB5 })
  else if t.trap.inh && decide (t.depth - n < t.trap.depth + 1) then (s, .trap { code := 0xB5 })
  else
    let j := t.depth - n + 1
    match scrAddr w (spillAddr s t.tid j) 8, t.links.find? fun l => l.1 == j with
    | .pad _, _ => finish s
    | _, some _ => finish s
    | _, none => (s, .trap { code := 0x31, addr := BitVec.ofNat 64 (spillAddr s t.tid j) })
where
  finish (s : State) : State × LaneRes :=
    match returnAddr s w t (t.depth - n + 1) with
    | (s, .inr r) => (s, r)
    | (s, .inl ra) =>
      let cs := coloursAbove t (t.depth - n)
      if !colourReleaseReady s t.tid cs then (s, .wait .release)
      else
        let s := releaseAll s w t.tid cs
        (modT s t.tid fun x => { x with depth := x.depth - n, links := x.links.filter fun l => decide (l.1 ≤ x.depth - n) }, .jump ra)

def execRet (pg : Guard) (s : State) : Host.Outcome State Fault Refusal :=
  .next (controlWord s pg [] fun s w t _ => returnOver s w t 1)

def execRetn (pg : Guard) (n : BitVec 8) (s : State) : Host.Outcome State Fault Refusal :=
  .next (controlWord s pg [] fun s w t _ => returnOver s w t n.toNat)

/-- The thread ends (R304): its colours are released; the last live thread of a warp passes the reed that the warp holds. -/
def endThread (s : State) (w : Workgroup) (t : Thread) : State :=
  let s := releaseAll s w t.tid (t.held.map (·.1))
  let s := releaseHeld (modT s t.tid fun x => { x with run := .ended, pc := s.cur.pc, hdr := none, since := none, passed := false }) t.tid
  let idx := (getWarp s t.tid.core t.tid.slot).map (·.index)
  let live := s.threads.any fun x => x.tid.core == t.tid.core && x.tid.slot == t.tid.slot && x.alive
  if !live && idx.isSome && ((getWg s w.id).bind fun x => x.mx.reed.holder) == idx then passReed s w.id else s

def execExit (pg : Guard) (s : State) : Host.Outcome State Fault Refusal :=
  .next (barAll (controlWord s pg [] fun s w t _ =>
    if !colourReleaseReady s t.tid (t.held.map (·.1)) then (s, .wait .release) else (endThread s w t, .gone)))

/-- YIELD gives the issue slot away for the cycle that follows this one (R305, R259). -/
def yieldAt (s : State) (core : Nat) (pc : Word) (depth : Nat) : State :=
  modCore s core fun c => { c with skip := (pc, depth, s.now + 2) :: c.skip.filter fun e => decide (s.now ≤ e.2.2) }

def execYield (pg : Guard) (s : State) : Host.Outcome State Fault Refusal :=
  let s1 := perLane s pg fun s w t => withSrcs s w t [] .zero 0 noCauses fun _ _ => (s, .retire [])
  .next ((activeLanes s pg).foldl (fun a e => yieldAt a e.1.tid.core s.cur.next e.1.depth) s1)

def execSleep (pg : Guard) (a : Src) (s : State) : Host.Outcome State Fault Refusal :=
  .next (controlWord s pg [⟨a, 1, .int⟩] fun s w t v =>
    let n := Nat.min ((opv v 0).nat false) (2 ^ 20)
    if t.passed ∨ n = 0 then (s, .retire []) else (s, .wait (.sleep (wgClock s w + n))))

def execBkpt (pg : Guard) (s : State) : Host.Outcome State Fault Refusal :=
  .next (controlWord s pg [] fun s _ _ _ => (s, .after { code := 0xB1 }))

def execTrap (pg : Guard) (imm : BitVec 10) (s : State) : Host.Outcome State Fault Refusal :=
  .next (controlWord s pg [] fun s _ _ _ => (s, .after { code := 0xB0, detail := imm.setWidth 32 }))

end Sys2Proof.Machine
end

