-- ==== Sys2Proof/Machine/MemoryWords.lean ====
section
/-! DEFINITION. Memory words: global loads and stores (R337, R338), scratch and cluster memory (R339 to R341), block descriptors (R342),
prefetch and invalidation (R343, R344), the scratch map (R345 to R348), atomics (R350 to R354) and FENCE (R355). -/

namespace Sys2Proof.Machine

def MWidth.bytes : MWidth → Nat
  | .w8 => 1
  | .w16 => 2
  | .w32 => 4
  | .w64 => 8
  | .w128 => 16

/-- R265. -/
def globalEa (v : Opv) (off : BitVec 20) : Word := v.word + off.signExtend 64
def scratchEa (v : Opv) (off : BitVec 20) : Nat := (v.w32 + off.signExtend 32).toNat

/-- The data of a store: its low `n` bytes. -/
def dataBytes (n : Nat) (v : Opv) : List Byte := leBytes n (wordsNat v.words)

def homeClass (s : State) (pa : Nat) : Home := homeOf s.module_ s.domain pa

/-- An ordered 128-bit access to host memory or a register (R211). -/
def atomicWidthBad (s : State) (pa n : Nat) (ord : Ord) : Bool :=
  n == 16 && ord != .plain && (match homeClass s pa with
    | .host .. => true
    | .reg _ => true
    | _ => false)

/-- Checked for races (R213). -/
def isChecked (l : Leaf) (w : Workgroup) (ord : Ord) (cs : List (BitVec 16)) : Bool := l.rc && w.rcb.race && ord == .plain && cs.isEmpty

/-- The name of a location for race and synchronisation records: its canonical address, or its physical one. -/
def locOf (s : State) (pasid pa : Nat) : Nat := (canon s pasid pa).getD pa

/-- Shadow addresses of a dual access (R239). -/
def shadowAddrs (s : State) (w : Workgroup) (t : Thread) (ea : Word) : List (Nat × Word) :=
  (dualComps s w t).map fun j => (j, ea + w.rcb.tanOff.getD (j - 1) 0)

/-- The register goes PENDING and the value is on its way (R167). -/
def deliver (s : State) (w : Workgroup) (t : Tid) (l : List SrcSpec) (pops : List Nat) (d : Dst) (kd : Nat) (kind : OutKind) (port : Option Nat)
    (addr : Word) (words : List FillWord) (numerr : Bool) (pop : Option (Nat × Nat) := none) (sx : Bool := false) (line : Option (Nat × Nat × Bool) := none)
    (sync : Option PeerSync := none) : State :=
  let (s, id) := newId s
  let s := modT s t fun x => pendDst (takeSources x l pops) d kd
  let s := touchRegs s w t (markedRegs l ++ dstRegs d kd)
  { s with loads := s.loads ++ [{ id := id, tid := t, kind := kind, dest := destOf d, words := words, numerr := numerr, dead := false, port := port, pop := pop, addr := addr, sx := sx, interval := intervalOf s t, line := line, tan := none, sync := sync }] }

/-! ## Global loads -/

/-- One access of a load, or of one of its shadows. -/
inductive Piece where
  | data (d : LoadData)
  | peer (m off : Nat)
  | stop (r : LaneRes)

def readPiece (s : State) (w : Workgroup) (t : Thread) (l : Leaf) (pa n : Nat) (va : Word) (poc shadow : Bool) (cp : Cp) : State × Piece :=
  match readPa s w t l pa n va poc cp with
  | (s, .stop r) => (s, .stop r)
  | (s, .peer m off) => (s, .peer m off)
  | (s, .noData) => (match applyNoData s w va n with
    | (s, .ok d) => (s, .data d)
    | (s, .stop r) => (s, .stop r))
  | (s, .data r) => (match applySev s w l.key va shadow r with
    | (s, .ok d) => (s, .data d)
    | (s, .stop r) => (s, .stop r))

/-- Translates the shadows of a dual access before anything is performed. -/
def xlateShadows (s : State) (w : Workgroup) (t : Thread) (wr : Bool) : List (Nat × Word) → State × (List (Nat × Word × Leaf × Nat) ⊕ (Word ⊕ LaneRes))
  | [] => (s, .inl [])
  | (j, va) :: r =>
    match accXlate s w t va (!wr) wr true with
    | (s, .unmapped) => if wr then
        (match xlateShadows s w t wr r with
         | (s, .inl l) => (s, .inl l)
         | x => x)
      else (s, .inr (.inl va))
    | (s, .stop z) => (s, .inr (.inr z))
    | (s, .ok l pa) =>
      match xlateShadows s w t wr r with
      | (s, .inl q) => (s, .inl ((j, va, l, pa) :: q))
      | x => x

/-- Reads the shadows and joins them to the words of the primal. -/
def readShadows (s : State) (w : Workgroup) (t : Thread) (n : Nat) (sx poc : Bool) (cp : Cp) (ws : List FillWord) :
    List (Nat × Word × Leaf × Nat) → State × (List FillWord ⊕ LaneRes)
  | [] => (s, .inl ws)
  | (j, va, l, pa) :: r =>
    match readPiece s w t l pa n va poc true (effCp cp l) with
    | (s, .data d) => readShadows s w t n sx poc cp (addShadow w.shadows j ws (dataFill n sx d)) r
    | (s, .peer m off) => (match peerData s w t m off n va with
      | (s, .ok d) => readShadows s w t n sx poc cp (addShadow w.shadows j ws (dataFill n sx d)) r
      | (s, .stop z) => (s, .inr z))
    | (s, .stop z) => (s, .inr z)

/-- The thread has an unmatched store to bytes of a peer, which a load of them must follow (R145). -/
def heldAt (s : State) (t : Tid) (pa n : Nat) : Bool :=
  s.compare.any fun c => c.tid == t && (match c.effect with
    | .store a b .. => decide (a < pa + n) && decide (pa < a + b.length)
    | _ => false)

/-- A plain load from a peer goes out; one that looks up L1 asks for its whole line (R14, R203). -/
def loadPeer (s : State) (w : Workgroup) (t : Thread) (m : MLoad) (src : List SrcSpec) (pops : List Nat) (ea : Word) (pa off : Nat) (poc : Bool) (cp : Cp) :
    State × LaneRes :=
  let n := MWidth.bytes m.w
  match reach s w pa ea false with
  | (s, .stop z) => (s, z)
  | (s, .unmapped) => hold s w t ea false
  | (s, .noData) =>
    (match applyNoData s w ea n with
     | (s, .stop z) => (s, z)
     | (s, .ok d) =>
       let ws := dataFill n m.sx d
       (deliver (queueValue s w t.tid (some ws) d.numerr false) w t.tid src pops m.d m.w.k .global none ea ws d.numerr, .retire []))
  | (s, .ready) =>
    match route s, heldAt s t.tid pa n with
    | some p, false =>
      let whole := !poc && cp != .by
      let line := if whole then some (pa / 64, pa % 64, cp == .st) else none
      let s := deliver s w t.tid src pops m.d m.w.k .peer (some p) ea ((List.range m.w.k).map fun _ => ⟨0, false, []⟩) false none m.sx line
        (if Ord.acq m.ord then some ⟨locOf s w.pasid pa, m.ord, m.scope, false, none⟩ else none)
      let id := s.ids
      let s := queueValue s w t.tid none false false id
      (sendRequest s p 0 0 (if whole then .load id (off / 64 * 64) 64 else .load id off n) (.load id), .retire [])
    | _, _ => (s, .wait .resource)

/-- The load of one lane once its page, colours and checks are done. -/
def performLoad (s : State) (w : Workgroup) (t : Thread) (m : MLoad) (src : List SrcSpec) (pops : List Nat) (ea : Word) (l : Leaf) (pa : Nat) (checked : Bool) :
    State × LaneRes :=
  let n := MWidth.bytes m.w
  let poc := m.ord != .plain || checked
  let cp := effCp m.cp l
  let sh := if l.tp then shadowAddrs s w t ea else []
  match xlateShadows s w t false sh with
  | (s, .inr (.inl va)) => hold s w t va false
  | (s, .inr (.inr z)) => (s, z)
  | (s, .inl shs) =>
    let fin := fun (s : State) (d : LoadData) =>
      match readShadows s w t n m.sx poc m.cp (dataFill n m.sx d) shs with
      | (s, .inr z) => (s, z)
      | (s, .inl ws) =>
        let s := queueValue s w t.tid (some ws) d.numerr false
        (deliver s w t.tid src pops m.d m.w.k .global none ea ws d.numerr, LaneRes.retire [])
    match readPiece s w t l pa n ea poc false cp with
    | (s, .stop z) => (s, z)
    | (s, .data d) => fin s d
    | (s, .peer k off) =>
      if shs.isEmpty then loadPeer s w t m src pops ea pa off poc cp
      else match peerData s w t k off n ea with
      | (s, .stop z) => (s, z)
      | (s, .ok d) => fin s d

/-- A synchronising access of the thread awaits a peer's answer: no later word of it issues (R207). -/
def awaits (s : State) (t : Tid) : Bool := s.loads.any fun l => l.tid == t && l.sync.isSome

/-- The ordering effects of a load at its location. -/
def loadOrder (s : State) (t : Tid) (ord : Ord) (sc : Scope) (loc : Nat) : State :=
  if ord == .plain then s
  else
    let s := syncRead s t loc (Ord.acq ord) sc
    if Ord.acq ord then acquire s t.core sc else s

/-- R337, one lane. -/
def loadLane (s : State) (w : Workgroup) (t : Thread) (m : MLoad) : State × LaneRes :=
  let src : List SrcSpec := [⟨m.base, 2, .int⟩]
  let n := MWidth.bytes m.w
  withSrcs s w t src m.d m.w.k addrPoison fun vals pops =>
    let ea := globalEa (opv vals 0) m.off
    if ea.toNat % n ≠ 0 then (s, .trap { code := 0x30, addr := ea })
    else if w.role == .drone then
      (match takeValue s w t.tid with
       | none => (s, .wait .resource)
       | some (s, ws, ne) => (deliver s w t.tid src pops m.d m.w.k .global none ea ws ne, .retire []))
    else if valuesFull s w || logged s t.tid ea then (s, .wait .resource)
    else match accXlate s w t ea true false false with
    | (s, .unmapped) => hold s w t ea false
    | (s, .stop z) => (s, z)
    | (s, .ok l pa) =>
      if atomicWidthBad s pa n m.ord then (s, .trap { code := 0x34, addr := ea })
      else
        let cs := coloursOf l ea.toNat n
        match holdAll s w t ea cs with
        | (s, some z) => (s, z)
        | (s, none) =>
          let checked := isChecked l w m.ord cs
          let loc := locOf s w.pasid pa
          match if checked then raceThread s w t ea loc n false else (s, none) with
          | (s, some c) => (s, .trap c)
          | (s, none) =>
            match performLoad s w t m src pops ea l pa checked with
            | (s, .retire g) => (if awaits s t.tid then s else loadOrder s t.tid m.ord m.scope loc, .retire g)
            | x => x

def execLd (m : MLoad) (s : State) : Host.Outcome State Fault Refusal := .next (perLane s m.pg fun s w t => loadLane s w t m)

/-! ## Global stores -/

/-- Stores the tangents of a dual store to a TP page; those whose page is not mapped enter the log. A tangent on an NR page pins the interval (R141). -/
def storeShadows (s : State) (w : Workgroup) (t : Thread) (n : Nat) (v : Opv) (sc : Scope) (ord : Ord) :
    List (Nat × Word) → List (Nat × Word × Leaf × Nat) → State × Option LaneRes
  | [], _ => (s, none)
  | (j, va) :: r, l =>
    let bytes := leBytes n (wordsNat (v.sh.getD (j - 1) []))
    let one := match l.find? fun e => e.1 == j with
      | some (_, _, lf, pa) =>
        let s := if lf.nr then pin s w.id else s
        if logged s t.tid va then commitLog s w t va n (leNat bytes) (.store bytes v.poison []) [] sc ord false
        else commitStore s w t lf pa va bytes v.poison (ord != .plain) [] sc ord
      | none => commitLog s w t va n (leNat bytes) (.store bytes v.poison []) [] sc ord true
    match one with
    | (s, some z) => (s, some z)
    | (s, none) => storeShadows s w t n v sc ord r l

/-- A store whose translation is done. -/
def performSt (s : State) (w : Workgroup) (t : Thread) (m : MStore) (v : Opv) (ea : Word) (l : Leaf) (pa : Nat) (cs : List (BitVec 16)) (checked : Bool) :
    State × Option LaneRes :=
  let n := MWidth.bytes m.w
  let bytes := dataBytes n v
  let sh := if l.tp then shadowAddrs s w t ea else []
  match xlateShadows s w t true sh with
  | (s, .inr (.inl va)) => let (s, z) := hold s w t va true; (s, some z)
  | (s, .inr (.inr z)) => (s, some z)
  | (s, .inl shs) =>
    let s := if l.nr || m.scope == .sys then pin s w.id else s
    match if logged s t.tid ea then commitLog s w t ea n (leNat bytes) (.store bytes v.poison []) cs m.scope m.ord false
      else commitStore s w t l pa ea bytes v.poison (m.ord != .plain || checked) cs m.scope m.ord with
    | (s, some z) => (s, some z)
    | (s, none) => storeShadows s w t n v m.scope m.ord sh shs

/-- The tangents of a dual store, by component. -/
def tanBytes (s : State) (w : Workgroup) (t : Thread) (n : Nat) (v : Opv) : List (Nat × List Byte) :=
  (dualComps s w t).map fun j => (j, leBytes n (wordsNat (v.sh.getD (j - 1) [])))

/-- R338, one lane. -/
def storeLane (s : State) (w : Workgroup) (t : Thread) (m : MStore) : State × LaneRes :=
  let src : List SrcSpec := [⟨m.base, 2, .int⟩, ⟨m.data, m.w.k, .int⟩]
  let n := MWidth.bytes m.w
  withSrcs s w t src .zero 0 addrPoison fun vals pops =>
    let ea := globalEa (opv vals 0) m.off
    let v := opv vals 1
    let done := fun (x : State × Option LaneRes) => match x with
      | (s, some z) => (s, z)
      | (s, none) => (touchRegs (modT s t.tid fun x => takeSources x src pops) w t.tid (markedRegs src), LaneRes.retire [])
    if ea.toNat % n ≠ 0 then (s, .trap { code := 0x30, addr := ea })
    else if w.role == .drone then done (droneStore s w t ea n (leNat (dataBytes n v)))
    else if Ord.rel m.ord && releasePending s t.tid m.scope then (s, .wait .release)
    else match accXlate s w t ea false true false with
    | (s, .unmapped) =>
      let s := if m.scope == .sys then pin s w.id else s
      done (commitLog s w t ea n (leNat (dataBytes n v)) (.store (dataBytes n v) v.poison (tanBytes s w t n v)) [] m.scope m.ord true)
    | (s, .stop z) => (s, z)
    | (s, .ok l pa) =>
      if atomicWidthBad s pa n m.ord then (s, .trap { code := 0x34, addr := ea })
      else
        let cs := coloursOf l ea.toNat n
        match holdAll s w t ea cs with
        | (s, some z) => (s, z)
        | (s, none) =>
          let checked := isChecked l w m.ord cs
          match if checked then raceThread s w t ea (locOf s w.pasid pa) n true else (s, none) with
          | (s, some c) => (s, .trap c)
          | (s, none) => done (performSt s w t m v ea l pa cs checked)

def execSt (m : MStore) (s : State) : Host.Outcome State Fault Refusal := .next (perLane s m.pg fun s w t => storeLane s w t m)

/-! ## Scratch and cluster memory -/

/-- Where a location of a scratchpad stands among the synchronisation records: beyond every physical address, by workgroup. -/
def padLoc (w : Workgroup) (a : Nat) : Nat := 2 ^ 60 + w.id * 2 ^ 32 + a

/-- A scope wider than cluster acts as cluster (R341). -/
def clScope (sc : Scope) : Scope := match sc with
  | .die => .cl
  | .dev => .cl
  | .sys => .cl
  | x => x

/-- The data of a scratch read under the policy for its error (R134). -/
def scrPolicy (s : State) (w : Workgroup) (a : Nat) (bytes : List Byte) (poisoned : Bool) : State × Pol :=
  applySev s w 0 (BitVec.ofNat 64 a) false
    ⟨bytes, if poisoned then some 3 else none, if poisoned then bytes.map fun _ => 0xFF else [], if poisoned then [a / 64] else [], false, false⟩

/-- A load of scratch space of workgroup `tgt` by a thread of `w`. -/
def scrLoadFrom (s : State) (w tgt : Workgroup) (kind : OutKind) (t : Thread) (m : MLoad) (src : List SrcSpec) (pops : List Nat) (a : Nat) : State × LaneRes :=
  let n := MWidth.bytes m.w
  match scrRead s tgt t a n with
  | (s, .stop z) => (s, z)
  | (s, .data b p) =>
    match scrPolicy s w a b p with
    | (s, .stop z) => (s, z)
    | (s, .ok d) =>
      let s := deliver s w t.tid src pops m.d m.w.k kind none (BitVec.ofNat 64 a) (dataFill n m.sx d) d.numerr
      (loadOrder s t.tid m.ord (clScope m.scope) (padLoc tgt a), .retire [])

def execLds (m : MLoad) (s : State) : Host.Outcome State Fault Refusal :=
  let src : List SrcSpec := [⟨m.base, 1, .int⟩]
  .next (perLane s m.pg fun s w t =>
    withSrcs s w t src m.d m.w.k addrPoison fun vals pops =>
      scrLoadFrom s w w .scratch t m src pops (scratchEa (opv vals 0) m.off))

def storeSrcs (m : MStore) : List SrcSpec := [⟨m.base, 1, .int⟩, ⟨m.data, m.w.k, .int⟩]

/-- A store to scratch space of workgroup `tgt`. -/
def scrStoreTo (s : State) (w tgt : Workgroup) (t : Thread) (m : MStore) (pops : List Nat) (v : Opv) (a : Nat) : State × LaneRes :=
  if Ord.rel m.ord && releasePending s t.tid (clScope m.scope) then (s, .wait .release)
  else match scrWrite s tgt t a (dataBytes (MWidth.bytes m.w) v) v.poison with
  | (s, some z) => (s, z)
  | (s, none) =>
    let s := storeOrder (syncClear s (padLoc tgt a) (MWidth.bytes m.w)) t.tid m.ord (clScope m.scope) (padLoc tgt a)
    (touchRegs (modT s t.tid fun x => takeSources x (storeSrcs m) pops) w t.tid (markedRegs (storeSrcs m)), .retire [])

def execSts (m : MStore) (s : State) : Host.Outcome State Fault Refusal :=
  .next (perLane s m.pg fun s w t =>
    withSrcs s w t (storeSrcs m) .zero 0 addrPoison fun vals pops =>
      scrStoreTo s w w t m pops (opv vals 1) (scratchEa (opv vals 0) m.off))

/-- The workgroup that a cluster-memory address names, or the cause (R340). The core field names the chanter's core. -/
def clusterTarget (s : State) (w : Workgroup) (t : Tid) (ea n : Nat) : Workgroup ⊕ Cause :=
  let ad : Word := BitVec.ofNat 64 ea
  let core := t.core / 4 * 4 + ea / 2 ^ 30
  let off := ea % 2 ^ 30
  let owner := s.wgs.find? fun x => x.gang == w.gang && x.core == core && x.role != .drone && x.state != .killed && x.state != .ended
  let tgt := owner.bind fun x => if w.role == .drone then getWg s x.mate else some x
  if ea % n ≠ 0 then .inr { code := 0x30, addr := ad }
  else if isWindow off then .inr { code := 0x31, addr := ad }
  else match tgt with
  | none => .inr { code := 0x33, addr := ad }
  | some x => if x.scratch < off + n ∨ (bindingAt x off).isSome then .inr { code := 0x32, addr := ad } else .inl x

def execLdcl (m : MLoad) (s : State) : Host.Outcome State Fault Refusal :=
  let src : List SrcSpec := [⟨m.base, 1, .int⟩]
  .next (perLane s m.pg fun s w t =>
    withSrcs s w t src m.d m.w.k addrPoison fun vals pops =>
      let ea := scratchEa (opv vals 0) m.off
      match clusterTarget s w t.tid ea (MWidth.bytes m.w) with
      | .inr c => (s, .trap c)
      | .inl x => scrLoadFrom s w x .cluster t m src pops (ea % 2 ^ 30))

def execStcl (m : MStore) (s : State) : Host.Outcome State Fault Refusal :=
  .next (perLane s m.pg fun s w t =>
    withSrcs s w t (storeSrcs m) .zero 0 addrPoison fun vals pops =>
      let ea := scratchEa (opv vals 0) m.off
      match clusterTarget s w t.tid ea (MWidth.bytes m.w) with
      | .inr c => (s, .trap c)
      | .inl x => scrStoreTo s w x t m pops (opv vals 1) (ea % 2 ^ 30))

/-! ## Block descriptors (R342) -/

/-- The descriptor of a block and the error its reader sees. -/
def readDesc (s : State) (a : Nat) (l : Leaf) : State × BitVec 16 × ByteRead :=
  let r := readBlk s (a / 64) l.layout l.key
  let c := seenClass r allBits
  let s := match c with
    | some k => countErr s (dieOf a) k
    | none => if r.corrected then countErr s (dieOf a) 4 else s
  (s, r.desc, ⟨leBytes 2 r.desc.toNat, c, if c.isSome then [0xFF, 0xFF] else [], if c.isSome then [a / 64] else [], r.integ, r.badMac⟩)

/-- A write of the descriptor; the data keeps its value, an error becomes the poison pattern (R130). -/
def writeDesc (s : State) (a : Nat) (l : Leaf) (d : BitVec 16) (poison : Bool) : State :=
  let blk := a / 64
  let r := readBlk s blk l.layout l.key
  putBlock s blk (cellsAt (64 * blk) (leBytes 64 r.data))
    { layout := l.layout, desc := d, key := l.key, poison := poison || (seenClass r allBits).isSome, flipD := 0, flipM := 0, badMac := false }

def ldbdLane (s : State) (w : Workgroup) (t : Thread) (m : MLoad) : State × LaneRes :=
  let src : List SrcSpec := [⟨m.base, 2, .int⟩]
  withSrcs s w t src m.d 1 addrPoison fun vals pops =>
    let ea := globalEa (opv vals 0) m.off
    if ea.toNat % 64 ≠ 0 then (s, .trap { code := 0x30, addr := ea })
    else if w.role == .drone then
      (match takeValue s w t.tid with
       | none => (s, .wait .resource)
       | some (s, ws, ne) => (deliver s w t.tid src pops m.d 1 .global none ea ws ne, .retire []))
    else if valuesFull s w || logged s t.tid ea then (s, .wait .resource)
    else match accXlate s w t ea true false false with
    | (s, .unmapped) => hold s w t ea false
    | (s, .stop z) => (s, z)
    | (s, .ok l pa) =>
      if l.layout ≠ 12 then (s, .trap { code := 0x35, addr := ea })
      else match holdAll s w t ea (coloursOf l ea.toNat 64) with
      | (s, some z) => (s, z)
      | (s, none) =>
        match hbmOf s pa with
        | none =>
          let (s, x) := freeValue s
          let ws : List FillWord := [⟨(x.setWidth 16).setWidth 32, false, []⟩]
          (deliver (queueValue s w t.tid (some ws) false false) w t.tid src pops m.d 1 .global none ea ws false, .retire [])
        | some a =>
          let (s, _, r) := readDesc (drainOverlap s t.tid.core (a / 64 * 64) 64) a l
          match applySev s w l.key ea false r with
          | (s, .stop z) => (s, z)
          | (s, .ok d) =>
            let ws := dataFill 2 false d
            let s := queueValue s w t.tid (some ws) d.numerr false
            (deliver s w t.tid src pops m.d 1 .global none ea ws d.numerr, .retire [])

def execLdbd (m : MLoad) (s : State) : Host.Outcome State Fault Refusal := .next (perLane s m.pg fun s w t => ldbdLane s w t m)

def stbdLane (s : State) (w : Workgroup) (t : Thread) (m : MStore) : State × LaneRes :=
  let src : List SrcSpec := [⟨m.base, 2, .int⟩, ⟨m.data, 1, .int⟩]
  withSrcs s w t src .zero 0 addrPoison fun vals pops =>
    let ea := globalEa (opv vals 0) m.off
    let v := opv vals 1
    let d : BitVec 16 := v.w32.setWidth 16
    let done := fun (x : State × Option LaneRes) => match x with
      | (s, some z) => (s, z)
      | (s, none) => (touchRegs (modT s t.tid fun x => takeSources x src pops) w t.tid (markedRegs src), LaneRes.retire [])
    if ea.toNat % 64 ≠ 0 then (s, .trap { code := 0x30, addr := ea })
    else if w.role == .drone then done (droneStore s w t ea 2 d.toNat)
    else match accXlate s w t ea false true false with
    | (s, .unmapped) => done (commitLog s w t ea 2 d.toNat (.desc d v.poison) [] .thr .plain true)
    | (s, .stop z) => (s, z)
    | (s, .ok l pa) =>
      if l.layout ≠ 12 then (s, .trap { code := 0x35, addr := ea })
      else match holdAll s w t ea (coloursOf l ea.toNat 64) with
      | (s, some z) => (s, z)
      | (s, none) =>
        let s := if l.nr then pin s w.id else s
        if logged s t.tid ea || w.role == .chanter then done (commitLog s w t ea 2 d.toNat (.desc d v.poison) (coloursOf l ea.toNat 64) .thr .plain false)
        else match hbmOf s pa with
        | none => done (s, none)
        | some a => done (writeDesc (drainOverlap s t.tid.core (a / 64 * 64) 64) a l d v.poison, none)

def execStbd (m : MStore) (s : State) : Host.Outcome State Fault Refusal := .next (perLane s m.pg fun s w t => stbdLane s w t m)

/-! ## PREF and CINVAL (R343, R344) -/

/-- A prefetch from a peer asks for the line, and delivers to no register; without a route or a slot it is dropped. -/
def prefPeer (s : State) (t : Tid) (pa off : Nat) (ea : Word) : State :=
  match route s with
  | none => s
  | some p =>
    if credit s p 0 = 0 then s
    else
      let (s, id) := newId s
      let s := { s with loads := s.loads ++ [{ id := id, tid := t, kind := .unit_, dest := .none, words := [], numerr := false, dead := false, port := some p, pop := none, addr := ea, sx := false, interval := intervalOf s t, line := some (pa / 64, 0, false), tan := none, sync := none }] }
      sendRequest s p 0 0 (.load id (off / 64 * 64) 64) (.load id)

/-- The line of a prefetch comes into L1 under .ca (R343); a host page that is not translated is asked for. -/
def prefLine (s : State) (w : Workgroup) (t : Thread) (l : Leaf) (pa : Nat) (ea : Word) : State :=
  let has := fun (s : State) (a : Nat) => (l1Find s t.tid.core (a / 64)).isSome
  let bring := fun (s : State) (a : Nat) (d : List Byte) => l1Fill s t.tid.core (a / 64) (overlay s t.tid (a / 64 * 64) d) false
  match homeOf s.module_ s.domain pa with
  | .hbm a =>
    if has s a || !(decide (t.pl < 2) && decide ((getBlock s (a / 64)).key = l.key)) then s
    else match cleanLine s (a / 64) l with
    | some d => bring s a d
    | none => s
  | .host k bus =>
    if !hostUp s k w then s
    else (match hostXlate s k w.pasid bus with
    | (s, .ok a) => if has s a then s else bring s a (getCells (a / 64 * 64) 64 s.mem)
    | (s, _) => s)
  | .peer _ off => if has s pa then s else prefPeer s t.tid pa off ea
  | _ => s

def prefLane (s : State) (w : Workgroup) (t : Thread) (cp : Cp) (ea : Word) : State × Option LaneRes :=
  if w.role == .drone then (s, none)
  else match translate s t.tid.core w.pasid ea.toNat { r := true, w := false, x := false, pl := t.pl } with
  | (s, .ok l pa) =>
    (match holdAll s w t ea (coloursOf l ea.toNat 1) with
     | (s, some z) => (s, some z)
     | (s, none) => (if effCp cp l == .ca then prefLine s w t l pa ea else s, none))
  | (s, .uncorr) =>
    (s, if sevPolicy (wgNow s w).sev 3 = 3 then some (.kill 0x53 ea) else if canRollback s w then some (.consume { code := 0x53, addr := ea }) else none)
  | (s, _) => (s, none)

/-- A word whose only operand is a base address. -/
def addrWord (s : State) (pg : Guard) (base : Src) (off : BitVec 20) (f : State → Workgroup → Thread → Word → State × Option LaneRes) : State :=
  let src : List SrcSpec := [⟨base, 2, .int⟩]
  perLane s pg fun s w t =>
    withSrcs s w t src .zero 0 addrPoison fun vals pops =>
      match f s w t (globalEa (opv vals 0) off) with
      | (s, some z) => (s, z)
      | (s, none) => (touchRegs (modT s t.tid fun x => takeSources x src pops) w t.tid (markedRegs src), .retire [])

def execPref (pg : Guard) (base : Src) (cp : Cp) (off : BitVec 20) (s : State) : Host.Outcome State Fault Refusal :=
  .next (addrWord s pg base off fun s w t ea => prefLane s w t cp ea)

/-- The line of an address as the TLBs or an unchecked walk find it. -/
def cinvalBlock (s : State) (core pasid : Nat) (ea : Word) : Option Nat :=
  let pa := match tlbFind s core pasid ea.toNat with
    | some e => some (leafPa e.leaf ea.toNat)
    | none => match (walk s pasid ea.toNat).2 with
      | .leaf l _ => some (leafPa l ea.toNat)
      | _ => none
  pa.bind fun pa => match homeOf s.module_ s.domain pa with
    | .peer .. => some (pa / 64)
    | _ => (canon s pasid pa).map (· / 64)

def execCinval (pg : Guard) (base : Option Src) (off : BitVec 20) (s : State) : Host.Outcome State Fault Refusal :=
  match base with
  | none => .next (perLane s pg fun s w t => withSrcs s w t [] .zero 0 noCauses fun _ _ =>
      ({ s with l1 := s.l1.filter fun x => x.core != t.tid.core }, .retire []))
  | some b => .next (addrWord s pg b off fun s w t ea => match cinvalBlock s t.tid.core w.pasid ea with
    | some k => ({ s with l1 := s.l1.filter fun x => x.core != t.tid.core || x.block != k }, none)
    | none => (s, none))

/-! ## The scratch map (R345 to R348) -/

def groupOf (x : State × Option LaneRes) : State × GroupRes :=
  match x with
  | (s, none) => (s, .retire)
  | (s, some (.trap c)) => (s, .trap c)
  | (s, some (.wait w)) => (s, .wait w)
  | (s, some (.consume c)) => (s, .eat c)
  | (s, some (.kill k a)) => (s, .killAll k a)
  | (s, some _) => (s, .retire)

def smapCause (w : Workgroup) (base len : Nat) (g : Word) : Option Cause :=
  let overlap := w.smap.any fun b => decide (b.base < base + len) && decide (base < b.base + b.len)
  lowest (
    (if base % 256 ≠ 0 ∨ g.toNat % 256 ≠ 0 ∨ len % 256 ≠ 0 ∨ len = 0 ∨ overlap then [({ code := 0x36, addr := BitVec.ofNat 64 base } : Cause)] else [])
    ++ (if w.scratch < base + len then [{ code := 0x31, addr := BitVec.ofNat 64 base }] else [])
    ++ (if Config.smapBinds ≤ w.smap.length then [{ code := 0x37, addr := BitVec.ofNat 64 base }] else []))

def execSmap (pg : Guard) (a b c : Src) (s : State) : Host.Outcome State Fault Refusal :=
  .next (perGroup s pg [⟨a, 1, .int⟩, ⟨b, 2, .int⟩, ⟨c, 1, .int⟩] .zero 0 [0, 1] fun s w _ v _ =>
    let base := (opv v 0).nat false
    let g := (opv v 1).word
    let len := (opv v 2).nat false
    match smapCause w base len g with
    | some c => (s, .trap c)
    | none =>
      (modWg s w.id fun w => { w with
        smap := w.smap ++ [⟨base, g, len⟩]
        chunks := w.chunks ++ (List.range (len / 256)).map fun i => ⟨base / 256 + i, false, [], false⟩ }, .retire))

/-- SUNMAP removes a binding; chunks never filled read as zero (R348). -/
def removeBinding (s : State) (id : Nat) (b : Binding) : State :=
  match getWg s id with
  | none => s
  | some w =>
    let mine := fun (c : Chunk) => decide (b.base ≤ c.index * 256) && decide (c.index * 256 < b.base + b.len)
    let zero := w.chunks.filter fun c => mine c && !c.filled
    let s := zero.foldl (fun s c => padWriteRange s id (256 * c.index) (List.replicate 256 0) false false) s
    modWg s id fun w => { w with smap := w.smap.filter (· != b), chunks := w.chunks.filter fun c => !mine c }

def execSunmap (pg : Guard) (a : Src) (s : State) : Host.Outcome State Fault Refusal :=
  .next (perGroup s pg [⟨a, 1, .int⟩] .zero 0 [0] fun s w t v _ =>
    match w.smap.find? fun b => b.base == (opv v 0).nat false with
    | none => (s, .retire)
    | some b => match writeBackBinding s w.id t b with
      | (s, none) => (removeBinding s w.id b, .retire)
      | x => groupOf x)

/-- Bindings in ascending order of scratch address. -/
def bindings (w : Workgroup) : List Binding := sortBy (fun b => b.base) w.smap

/-- The bindings that SWB writes back: all where a is zero (R347). -/
def swbBindings (w : Workgroup) (a : Nat) : List Binding := if a = 0 then bindings w else (w.smap.find? fun b => b.base == a).toList

/-- Write back of the dirty chunks of the bindings that SWB names, in ascending order (R347). -/
def writeBackFrom (s : State) (w : Workgroup) (t : Thread) (a : Nat) : State × Option LaneRes :=
  (swbBindings w a).foldl (fun (acc : State × Option LaneRes) b => match acc with
    | (s, none) => writeBackBinding s w.id t b
    | x => x) (s, none)

def execSwb (pg : Guard) (a : Option Src) (s : State) : Host.Outcome State Fault Refusal :=
  match a with
  | none => .next (perGroup s pg [] .zero 0 [] fun s w t _ _ => groupOf (writeBackFrom s w t 0))
  | some x => .next (perGroup s pg [⟨x, 1, .int⟩] .zero 0 [0] fun s w t v _ => groupOf (writeBackFrom s w t ((opv v 0).nat false)))

end Sys2Proof.Machine
end

