-- ==== Sys2Proof/Machine/Atomics.lean ====
section
/-! DEFINITION. Atomics (R350 to R354), their tangents (R240), their replay under redundancy (R146, R148), and FENCE (R355). -/

namespace Sys2Proof.Machine

def AType.bytes : AType → Nat
  | .u64 => 8
  | .s64 => 8
  | .f64 => 8
  | _ => 4

/-- The floating format of a type. -/
def AType.fmt : AType → Option Fmt
  | .f32 => some .b32
  | .f64 => some .b64
  | .bf16x2 => some .bf16
  | _ => none

def AType.isUnsigned : AType → Bool
  | .u32 => true
  | .u64 => true
  | _ => false

/-- One floating value or one half (R351): a single rounding, to nearest. -/
def atomFloat (f : Fmt) (op : AOp) (old b : Nat) : Nat :=
  match op with
  | .add => ((fAdd f).op .rn [old, b]).bits
  | .min => ((fMinMax f false false).op .rn [old, b]).bits
  | .max => ((fMinMax f true false).op .rn [old, b]).bits
  | .exch => b
  | _ => old

def atomInt (u : Bool) (w : Nat) (op : AOp) (old b : Nat) : Nat :=
  match op with
  | .add => (old + b) % 2 ^ w
  | .min => minW u w old b
  | .max => maxW u w old b
  | .and => old &&& b
  | .or => old ||| b
  | .xor => old ^^^ b
  | .exch => b
  | .load => old

/-- The new value (R351). -/
def atomNew (ty : AType) (op : AOp) (old b : Nat) : Nat :=
  match AType.fmt ty with
  | none => atomInt (AType.isUnsigned ty) (8 * AType.bytes ty) op old b
  | some f =>
    match ty with
    | .bf16x2 => packed (atomFloat f op) old b
    | _ => atomFloat f op old b

/-- What an atomic does to its location: an operation, or a compare and swap (R352). -/
inductive Rmw where
  | op (aop : AOp) (b : Nat)
  | cas (b c : Nat)
  deriving DecidableEq, Repr

/-- The value written, if any. -/
def Rmw.write (ty : AType) (old : Nat) : Rmw → Option Nat
  | .op .load _ => none
  | .op a b => some (atomNew ty a old b)
  | .cas b c => if old = b then some c else none

def Rmw.writes : Rmw → Bool
  | .op .load _ => false
  | _ => true

/-- Types and operations that PCI Express carries (R354). -/
def hostAtomOk (ty : AType) (r : Rmw) : Bool :=
  (AType.fmt ty).isNone && (match r with
    | .op .add _ => true
    | .op .exch _ => true
    | .op .load _ => true
    | .op .. => false
    | .cas .. => true)

def classOk (s : State) (pa : Nat) (ty : AType) (r : Rmw) : Bool :=
  match homeClass s pa with
  | .host .. => hostAtomOk ty r
  | .reg _ => false
  | _ => true

/-- What performing gives: the old value, its POISON and numerr, whether it wrote; or a peer's location, by port and offset; or nothing yet. -/
inductive AtomDone where
  | old (v : Nat) (poison numerr wrote : Bool)
  | peer (port off : Nat)
  | stop (r : LaneRes)

def rmwBody (id off : Nat) (ty : AType) (r : Rmw) : FlitBody :=
  match r with
  | .op a b => .atomic id off ty a (BitVec.ofNat 64 b)
  | .cas b c => .cas id off ty (BitVec.ofNat 64 b) (BitVec.ofNat 64 c)

/-- Reads, computes and writes bytes at a canonical address, at its point of coherence. -/
def rmwAt (s : State) (w : Workgroup) (core : Nat) (l : Leaf) (a : Nat) (va : Word) (ty : AType) (r : Rmw) (shadow : Bool) : State × AtomDone :=
  let n := AType.bytes ty
  let s := drainOverlap s core a n
  let (s, rd) := if isHostKey a then (s, (⟨getCells a n s.mem, none, [], [], false, false⟩ : ByteRead)) else readHbmRange s a n l.layout l.key
  match applySev s w l.key va shadow rd with
  | (s, .stop z) => (s, .stop z)
  | (s, .ok d) =>
    let old := leNat d.bytes
    match Rmw.write ty old r with
    | none => (s, .old old (d.bad.any fun x => x) d.numerr false)
    | some x =>
      let rel := s.syncs
      let s := writeCanon s a (leBytes n x) l.layout l.key false
      ({ s with syncs := rel }, .old old (d.bad.any fun x => x) d.numerr true)

/-- One atomic access of a thread, primal or shadow, whose home can be reached (R350, R351). -/
def performRmw (s : State) (w : Workgroup) (t : Thread) (l : Leaf) (pa : Nat) (va : Word) (ty : AType) (r : Rmw) (shadow : Bool) : State × AtomDone :=
  let lost := match applyNoData s w va (AType.bytes ty) with
    | (s, .stop z) => (s, AtomDone.stop z)
    | (s, .ok d) => (s, AtomDone.old (leNat d.bytes) (d.bad.any id) d.numerr false)
  match homeClass s pa with
  | .peer _ off => (match route s with
    | none => lost
    | some p => (s, .peer p off))
  | .host k _ => if !hostUp s k w then lost
    else (match canon s w.pasid pa with
    | none => (s, .stop (.wait .resource))
    | some a => rmwAt s w t.tid.core l a va ty r shadow)
  | _ => match canon s w.pasid pa with
    | none => lost
    | some a => rmwAt s w t.tid.core l a va ty r shadow

/-- What the tangents of a dual floating add gave (R240): old tangents by component, their POISON and numerr, and those that a peer holds: component, port, offset, address. -/
structure TanDone where
  olds : List (Nat × Nat) := []
  poison : Bool := false
  numerr : Bool := false
  away : List (Nat × Nat × Nat × Word) := []

/-- The tangent that is added at component `j`. -/
def tanRmw (ty : AType) (b : Opv) (j : Nat) : Rmw := .op .add (wordsNat ((b.sh.getD (j - 1) []).take (AType.k ty)))

/-- The tangents of a dual floating add (R240). -/
def rmwShadows (s : State) (w : Workgroup) (t : Thread) (ty : AType) (b : Opv) (d : TanDone) : List (Nat × Word × Leaf × Nat) → State × (TanDone ⊕ LaneRes)
  | [] => (s, .inl d)
  | (j, va, l, pa) :: rest =>
    match performRmw s w t l pa va ty (tanRmw ty b j) true with
    | (s, .old v p ne _) => rmwShadows s w t ty b { d with olds := d.olds ++ [(j, v)], poison := d.poison || p, numerr := d.numerr || ne } rest
    | (s, .peer p off) => rmwShadows s w t ty b { d with away := d.away ++ [(j, p, off, va)] } rest
    | (s, .stop z) => (s, .inr z)

/-- A word of format T as it acts in one lane. -/
structure TForm where
  src : List SrcSpec
  d : Dst
  ty : AType
  scope : Scope
  ord : Ord
  /-- it has a result: ATOM and ATOMCAS -/
  result : Bool
  off8 : BitVec 8

/-- Counts the atomic, and leaves its result in the replay log under redundancy; without words its place waits for load `load` (R146). -/
def noteAtom (s : State) (w : Workgroup) (t : Tid) (words : Option (List FillWord)) (numerr : Bool) (load : Nat := 0) : State :=
  modT (queueValue s w t words numerr true load) t fun x => { x with atoms := x.atoms + 1 }

/-- The end of an atomic in its lane: its result on its way, or nothing but numerr (R132). -/
def endAtom (s : State) (w : Workgroup) (t : Tid) (f : TForm) (pops : List Nat) (addr : Word) (port : Option Nat) (words : List FillWord) (numerr : Bool)
    (sync : Option PeerSync := none) : State × LaneRes :=
  if f.result then (deliver s w t f.src pops f.d (AType.k f.ty) (if port.isSome then .peer else .global) port addr words numerr none false none sync, .retire [])
  else (touchRegs (modT s t fun x => { takeSources x f.src pops with numerr := x.numerr || numerr }) w t (markedRegs f.src), .retire [])

/-- The ordering effects of an atomic that has been performed. -/
def atomOrder (s : State) (t : Tid) (f : TForm) (loc : Nat) (wrote : Bool) : State :=
  let s := syncRead s t loc (Ord.acq f.ord) f.scope
  let s := if wrote then syncWrite s t loc (Ord.rel f.ord) true f.scope else s
  if Ord.acq f.ord then acquire s t.core f.scope else s

/-- Shadows of the result, by component. -/
def tanWords (w : Workgroup) (k : Nat) (old : Nat) (poison : Bool) (ts : List (Nat × Nat)) : List FillWord :=
  (List.range k).map fun i => ⟨(wordsOf k old).getD i 0, poison,
    if ts.isEmpty then [] else (List.range w.shadows).map fun j => (wordsOf k (kget 0 (j + 1) ts)).getD i 0⟩

/-- Tangents of a RED whose shadow pages are not mapped enter the log (R120, R239). -/
def logShadows (s : State) (w : Workgroup) (t : Thread) (f : TForm) (b : Opv) : List (Nat × Word) → State × Option LaneRes
  | [] => (s, none)
  | (j, va) :: r =>
    match enterLog s w t va (.red f.ty .add (b.tan j) []) f.scope f.ord true with
    | (s, some z) => (s, some z)
    | (s, none) => logShadows s w t f b r

/-- An atomic that is dual on a page of this leaf: a floating add on a page with TP set (R240). -/
def dualRmw (ty : AType) (l : Leaf) : Rmw → Bool
  | .op .add _ => l.tp && (AType.fmt ty).isSome
  | _ => false

/-- The home of each mapped tangent can be reached: the components whose host page faults, or why the word waits. -/
def reachShadows (s : State) (w : Workgroup) : List (Nat × Word × Leaf × Nat) → State × (List Nat ⊕ LaneRes)
  | [] => (s, .inl [])
  | (j, va, _, pa) :: rest =>
    let one := match homeClass s pa with
      | .peer .. => (s, Reach.ready)
      | _ => reach s w pa va true
    match one with
    | (s, .stop z) => (s, .inr z)
    | (s, r) =>
      let bad := match r with
        | .unmapped => [j]
        | _ => []
      match reachShadows s w rest with
      | (s, .inl q) => (s, .inl (bad ++ q))
      | x => x

/-- A state with what performing did to memory and to the lanes of a port taken back: a word that stops has performed nothing. -/
def unperformed (s0 s : State) : State :=
  { s with mem := s0.mem, blocks := s0.blocks, dirty := s0.dirty, syncs := s0.syncs, stores := s0.stores, l1 := s0.l1 }

/-- A RED, or a tangent of one, goes to a peer. -/
def sendRed (s : State) (w : Workgroup) (t : Tid) (l : Leaf) (ea : Word) (p off : Nat) (ty : AType) (r : Rmw) : State :=
  let (s, id) := newId s
  let s := { s with stores := s.stores ++ [{ mkStore id w t l.layout l.key ea [] false (some p) with red := true }] }
  modPort (sendLater s p 0 0 (rmwBody id off ty r)) p fun x => { x with outstanding := x.outstanding ++ [.store id] }

/-- A tangent of an ATOM goes to a peer; its answer joins load `main`. -/
def sendTan (s : State) (w : Workgroup) (t : Tid) (main : Nat) (ty : AType) (b : Opv) (x : Nat × Nat × Nat × Word) : State :=
  let (j, p, off, va) := x
  let (s, id) := newId s
  let l : OutLoad := { id := id, tid := t, kind := .peer, dest := .none, words := (List.range (AType.k ty)).map fun _ => ⟨0, false, []⟩, numerr := false,
                       dead := false, port := some p, pop := none, addr := va, sx := false, interval := w.epoch.number, line := none, tan := some (main, j), sync := none }
  modPort (sendLater { s with loads := s.loads ++ [l] } p 0 0 (rmwBody id off ty (tanRmw ty b j))) p fun x => { x with outstanding := x.outstanding ++ [.load id] }

/-- A RED enters the log (R120); `fault` where its page is not mapped. -/
def logRed (s : State) (w : Workgroup) (t : Thread) (f : TForm) (pops : List Nat) (ea : Word) (op : LogOp) (fault : Bool) : State × LaneRes :=
  let s := if w.role == .single then pin s w.id else s
  match enterLog s w t ea op f.scope f.ord fault with
  | (s, some z) => (s, z)
  | (s, none) => endAtom (noteAtom s w t.tid (some []) false) w t.tid f pops ea none [] false

/-- The clock that a synchronising access of a peer brings and leaves waits for its answer: of an acquire, and of a release that a comparison decides. -/
def peerSync (f : TForm) (r : Rmw) (loc : Nat) : Option PeerSync :=
  match r with
  | .cas b _ => if f.ord == .rlx then none else some ⟨loc, f.ord, f.scope, true, some b⟩
  | .op .. => if Ord.acq f.ord then some ⟨loc, f.ord, f.scope, r.writes, none⟩ else none

/-- A global atomic of one lane whose primal and tangents can all be performed: performs them, and sends what peers hold. -/
def atomPerform (s : State) (w : Workgroup) (t : Thread) (f : TForm) (pops : List Nat) (r : Rmw) (b : Opv) (ea : Word) (l : Leaf) (pa : Nat)
    (shs : List (Nat × Word × Leaf × Nat)) (away : List (Nat × Word)) : State × LaneRes :=
  let k := AType.k f.ty
  let loc := locOf s w.pasid pa
  match performRmw s w t l pa ea f.ty r false with
  | (s, .stop z) => (s, z)
  | (s1, first) =>
    match rmwShadows s1 w t f.ty b {} shs with
    | (s2, .inr z) => (unperformed s s2, z)
    | (s2, .inl d) =>
      let s3 := (logShadows s2 w t f b away).1
      let (v, poison, ne, port) := match first with
        | .old v p ne _ => (v, p, ne, (none : Option (Nat × Nat)))
        | .peer p off => (0, false, false, some (p, off))
        | .stop _ => (0, false, false, none)
      let words := tanWords w k v (poison || d.poison) d.olds
      let numerr := ne || d.numerr
      let sync := if port.isSome then peerSync f r loc else none
      let s4 := if sync.isSome then s3 else atomOrder s3 t.tid f loc (match first with
        | .old _ _ _ wrote => wrote
        | _ => r.writes)
      if f.result then
        let x := endAtom s4 w t.tid f pops ea (port.map (·.1)) words numerr sync
        let id := x.1.ids
        let s5 := match port with
          | some (p, off) => sendRequest x.1 p 0 0 (rmwBody id off f.ty r) (.load id)
          | none => x.1
        let s6 := noteAtom s5 w t.tid (if port.isSome || !d.away.isEmpty then none else some words) numerr id
        (d.away.foldl (fun s a => sendTan s w t.tid id f.ty b a) s6, x.2)
      else
        let s5 := match port with
          | some (p, off) => sendRed s4 w t.tid l ea p off f.ty r
          | none => s4
        let s6 := d.away.foldl (fun s a => sendRed s w t.tid l a.2.2.2 a.2.1 a.2.2.1 f.ty (tanRmw f.ty b a.1)) s5
        endAtom (noteAtom s6 w t.tid (some []) numerr) w t.tid f pops ea none [] numerr

/-- A global atomic of one lane after translation, class check and colours. `log` is its entry where it has no result. -/
def atomAt (s : State) (w : Workgroup) (t : Thread) (f : TForm) (pops : List Nat) (r : Rmw) (b : Opv) (ea : Word) (l : Leaf) (pa : Nat) (log : Option LogOp) :
    State × LaneRes :=
  let sh := if dualRmw f.ty l r then shadowAddrs s w t ea else []
  match xlateShadows s w t true sh with
  | (s, .inr (.inl va)) => hold s w t va false
  | (s, .inr (.inr z)) => (s, z)
  | (s, .inl shs) =>
    match reach s w pa ea true with
    | (s, .stop z) => (s, z)
    | (s, .unmapped) => (match log with
      | some op => logRed s w t f pops ea op true
      | none => hold s w t ea false)
    | (s, _) =>
      match reachShadows s w shs with
      | (s, .inr z) => (s, z)
      | (s, .inl bad) =>
        let here := shs.filter fun y => !bad.contains y.1
        let away := sh.filter fun x => !(here.any fun y => y.1 == x.1)
        let full := decide (Config.sideLogEntries < (s.sideLog.filter fun e => e.core == t.tid.core).length + away.length)
        match (if f.result then away.head? else none), !f.result && !away.isEmpty && full with
        | some x, _ => hold s w t x.2 false
        | none, true => (s, .wait .resource)
        | none, false => atomPerform (if w.role == .single then pin s w.id else s) w t f pops r b ea l pa here away

/-- The result of an atomic already performed in this interval ends it in its lane (R146, R148). -/
def atomTaken (s : State) (w : Workgroup) (t : Thread) (f : TForm) (pops : List Nat) (ea : Word) (v : LoadValue) : State × LaneRes :=
  match v.words with
  | none => (s, .wait .resource)
  | some ws => endAtom (modT (takeAtom s w v) t.tid fun x => { x with atoms := x.atoms + 1 }) w t.tid f pops ea none ws v.numerr

/-- One lane of a global word of format T. It needs R and W where it has a result, W alone where it has none (R110). -/
def atomLane (s : State) (w : Workgroup) (t : Thread) (f : TForm) (rmw : List Opv → Rmw) (log : Opv → Option LogOp) : State × LaneRes :=
  withSrcs s w t f.src f.d (if f.result then AType.k f.ty else 0) (poisonCauses [0]) fun vals pops =>
    let b := opv vals 1
    let n := AType.bytes f.ty
    let ea := (opv vals 0).word + f.off8.signExtend 64 * BitVec.ofNat 64 n
    if ea.toNat % n ≠ 0 then (s, .trap { code := 0x30, addr := ea })
    else match if w.role == .single then none else atomValue s w t with
    | some v => atomTaken s w t f pops ea v
    | none =>
      if w.role == .drone || valuesFull s w || (f.result && logged s t.tid ea) then (s, .wait .resource)
      else if Ord.rel f.ord && releasePending s t.tid f.scope then (s, .wait .release)
      else match accXlate s w t ea f.result true false with
      | (s, .unmapped) => (match log b with
        | none => hold s w t ea false
        | some op => logRed s w t f pops ea op true)
      | (s, .stop z) => (s, z)
      | (s, .ok l pa) =>
        if !classOk s pa f.ty (rmw vals) then (s, .trap { code := 0x34, addr := ea })
        else match holdAll s w t ea (coloursOf l ea.toNat n) with
        | (s, some z) => (s, z)
        | (s, none) =>
          match logged s t.tid ea, log b with
          | true, some op => logRed s w t f pops ea op false
          | _, op => atomAt s w t f pops (rmw vals) b ea l pa op

def opVal (ty : AType) (o : Opv) : Nat := o.nat (AType.k ty == 2)

/-- Operand kind: constants and integers read in the type (R271). -/
def atomKind (ty : AType) : OpK :=
  match ty with
  | .f32 => .fl .b32
  | .f64 => .fl .b64
  | .bf16x2 => .pkf .bf16
  | _ => .int

def tForm (o : TAtom) (result : Bool) : TForm :=
  { src := [⟨o.base, 2, .int⟩, ⟨o.b, AType.k o.ty, atomKind o.ty⟩], d := if result then o.d else .zero, ty := o.ty, scope := o.scope, ord := o.ord,
    result := result, off8 := o.off8 }

def execAtom (o : TAtom) (s : State) : Host.Outcome State Fault Refusal :=
  .next (perLane s o.pg fun s w t => atomLane s w t (tForm o true) (fun v => .op o.aop (opVal o.ty (opv v 1))) fun _ => none)

def execRed (o : TAtom) (s : State) : Host.Outcome State Fault Refusal :=
  .next (perLane s o.pg fun s w t => atomLane s w t (tForm o false) (fun v => .op o.aop (opVal o.ty (opv v 1))) fun b =>
    some (.red o.ty o.aop (BitVec.ofNat 64 (opVal o.ty b)) (if o.aop = .add && (AType.fmt o.ty).isSome then (dualComps s w t).map fun j => (j, b.tan j) else [])))

def execAtomcas (o : TCas) (s : State) : Host.Outcome State Fault Refusal :=
  let f : TForm := { src := [⟨o.base, 2, .int⟩, ⟨o.b, AType.k o.ty, atomKind o.ty⟩, ⟨o.c, AType.k o.ty, atomKind o.ty⟩], d := o.d, ty := o.ty,
                     scope := o.scope, ord := o.ord, result := true, off8 := 0 }
  .next (perLane s o.pg fun s w t => atomLane s w t f (fun v => .cas (opVal o.ty (opv v 1)) (opVal o.ty (opv v 2))) fun _ => none)

/-- ATOMS (R353). -/
def execAtoms (o : TAtom) (s : State) : Host.Outcome State Fault Refusal :=
  let src : List SrcSpec := [⟨o.base, 1, .int⟩, ⟨o.b, AType.k o.ty, atomKind o.ty⟩]
  let n := AType.bytes o.ty
  .next (perLane s o.pg fun s w t =>
    withSrcs s w t src o.d (AType.k o.ty) (poisonCauses [0]) fun vals pops =>
      let a := ((opv vals 0).w32 + o.off8.signExtend 32 * BitVec.ofNat 32 n).toNat
      let ad : Word := BitVec.ofNat 64 a
      if a % n ≠ 0 then (s, .trap { code := 0x30, addr := ad })
      else if w.scratch < a + n || unfilled w a then (s, .trap { code := 0x31, addr := ad })
      else if Ord.rel o.ord && releasePending s t.tid (clScope o.scope) then (s, .wait .release)
      else
        let wr := o.aop != .load
        match if wr then chunkWritable s w t a else (s, none) with
        | (s, some z) => (s, z)
        | (s, none) =>
          let d := padRead w a n
          match scrPolicy s w a d.1 d.2 with
          | (s, .stop z) => (s, z)
          | (s, .ok ld) =>
            let old := leNat ld.bytes
            let s := if wr then padWriteRange s w.id a (leBytes n (atomNew o.ty o.aop old (opVal o.ty (opv vals 1)))) false true else s
            let f : TForm := { src := src, d := o.d, ty := o.ty, scope := clScope o.scope, ord := o.ord, result := true, off8 := o.off8 }
            let s := atomOrder s t.tid f (padLoc w a) wr
            (deliver s w t.tid src pops o.d (AType.k o.ty) .atoms none ad (tanWords w (AType.k o.ty) old (ld.bad.any fun x => x) []) ld.numerr, .retire []))

/-! ## FENCE (R355) -/

def fenceRelease (s : State) (t : Tid) (sc : Scope) : State :=
  bumpVc { s with fenceVc := s.fenceVc ++ [⟨relKey t, sc, t, vcOf s t⟩] } t

/-- An acquire fence joins the releases that the thread's atomic reads have met. -/
def fenceAcquire (s : State) (t : Tid) (sc : Scope) : State :=
  let l := s.fenceVc.filter fun e => e.addr == readKey t
  let s := l.foldl (fun s e => if mutualScope s e.tid e.scope t sc then joinVc s t e.vc else s) s
  acquire s t.core sc

def execFence (pg : Guard) (ord : Ord) (scope : Scope) (s : State) : Host.Outcome State Fault Refusal :=
  .next (perLane s pg fun s w t => withSrcs s w t [] .zero 0 noCauses fun _ _ =>
    if Ord.rel ord && releasePending s t.tid scope then (s, .wait .release)
    else
      let s := if Ord.rel ord then fenceRelease s t.tid scope else s
      let s := if Ord.acq ord then fenceAcquire s t.tid scope else s
      (s, .retire []))

end Sys2Proof.Machine
end

