-- ==== Sys2Proof/Machine/Engines.lean ====
section
/-! DEFINITION. The asynchronous engine: issue and transfer of COPY, GATHER, SCATTER and XRED (R361 to R371), buffer handles (R122 to R124),
remote enqueue (R372 to R374, R26), tokens (R362, R363) and TCHK (R379). COPYM stands with the matrix words. -/

namespace Sys2Proof.Machine

/-! ## Tokens -/

/-- Status codes of R362. -/
def stRevoked : Nat := 1
def stColour : Nat := 2
def stKill : Nat := 3
def stPerm : Nat := 4
def stDesc : Nat := 5

def token (status affected moved : Nat) : Word :=
  BitVec.ofNat 64 (status * 2 ^ 56 + Nat.min affected 65535 * 2 ^ 40 + moved % 2 ^ 40)

/-- The key of a token register in Thread.tokens. -/
def destKey (d : Dest) : Nat :=
  match d with
  | .v n => n
  | .o n => 256 + n
  | .none => 512

/-- Fills a pair of registers of a thread (R167), dual components +0. -/
def fillPair (t : Thread) (d : Dest) (x : Word) : Thread :=
  match d with
  | .v n => setV (setV t n ⟨.full, Word.lo x, []⟩) (n + 1) ⟨.full, Word.hi x, []⟩
  | .o n => setO (setO t n ⟨.full, Word.lo x, []⟩) (n + 1) ⟨.full, Word.hi x, []⟩
  | .none => t

/-- Granules that a fill touches (R178). -/
def destRegs (d : Dest) (k : Nat) : List (Bool × Nat) :=
  match d with
  | .v n => (List.range k).map fun i => (false, n + i)
  | .o n => (List.range k).map fun i => (true, n + i)
  | .none => []

/-- What a late producer of an earlier interval does to a thread it also does to the image from which the thread's workgroup would start again (R142). -/
def fillImage (s : State) (t : Tid) (interval : Nat) (f : Thread → Thread) : State :=
  match getT s t with
  | none => s
  | some x => modWg s x.wg fun w =>
      if interval < w.epoch.number then { w with epoch := { w.epoch with threads := updIf (fun y => y.tid == t) f w.epoch.threads } } else w

/-- The operation ends: its token is filled in its lanes, and its join is left for them. A dead operation writes nothing (R142). -/
def finishOp (s : State) (op : EngineOp) (status : Nat) : State :=
  let s := dropReads { s with engines := s.engines.filter fun e => e.id != op.id } (.engine op.id)
  if op.dead then wakeCore s op.core
  else
    let x := token status op.affected.length op.moved
    let j := kset (engineKey op.id) 1 op.vc
    let s := op.tids.foldl (fun s t =>
      let s := match (getT s t).bind fun y => getWg s y.wg with
        | some w => touchRegs s w t (destRegs op.dest 2)
        | none => s
      let f := fun (y : Thread) => { fillPair y op.dest x with tokens := (destKey op.dest, j) :: y.tokens }
      fillImage (modT s t f) t op.interval f) s
    wakeCore s op.core

/-! ## Handles (R122, R123) -/

structure BufEntry where
  base : Word
  length : Nat
  gen : Nat
  flags : Nat
  zero : Bool

def parseBuf (l : List Byte) : BufEntry :=
  let g := field l 16 2
  let f := field l 18 1
  ⟨BitVec.ofNat 64 (field l 0 8), field l 8 8, g % 4096, f % 8, g < 4096 && f < 8 && (l.drop 19).all (· == 0)⟩

def BufEntry.stale (e : BufEntry) (h : W32) : Bool := !bitAt e.flags 0 || !e.zero || e.gen != h.toNat / 2 ^ 20

def bufAddr (w : Workgroup) (h : W32) : Word := w.rcb.bufTable + BitVec.ofNat 64 (32 * (h.toNat % 2 ^ 20))

/-- What an operand of an engine word gives at issue. -/
inductive SideRes where
  | ok (side : Side) (va : Option Word)
  | causes (l : List Cause)
  | stop (r : LaneRes)

/-- Reads and checks the entry of a handle at offset `off` over `lo` to `hi` bytes from there. -/
def handleSide (s : State) (w : Workgroup) (t : Thread) (h : W32) (off : Nat) (lo hi : Int) (write : Bool) : State × SideRes :=
  let ea := bufAddr w h
  if w.rcb.bufSlots ≤ h.toNat % 2 ^ 20 then (s, .causes [{ code := 0x81, detail := h }])
  else match structRead s (askerOf s w t.tid.core) ea.toNat 32 with
  | (s, .bytes l ne loc) =>
    let s := structSync s t.tid ne loc
    let e := parseBuf l
    if e.stale h then (s, .causes [{ code := 0x80, detail := h }])
    else
      let va := e.base + BitVec.ofNat 64 off
      let c1 : List Cause := if bitAt e.flags (if write then 2 else 1) then [] else [{ code := 0x42, addr := va }]
      let c2 : List Cause := if (off : Int) + lo < 0 ∨ (e.length : Int) < (off : Int) + hi then [{ code := 0x81, detail := h }] else []
      (s, if (c1 ++ c2).isEmpty then .ok (.global va (some (h, off))) (some va) else .causes (c1 ++ c2))
  | (s, x) => (match structStop s w t ea x with
    | (s, .trap c) => (s, .causes [c])
    | (s, r) => (s, .stop r))

/-! ## Sides at issue (R367) -/

/-- The lowest and highest byte distance that a side with this stride reaches. -/
def extent (rows : Rows) (stride : Int) : Int × Int :=
  let last := ((rows.n : Int) - 1) * stride
  (if last < 0 then last else 0, (if last < 0 then 0 else last) + rows.len)

/-- A scratch range that leaves the scratchpad or touches a bound chunk. -/
def scratchBad (w : Workgroup) (a : Nat) (rows : Rows) (stride : Int) : Bool :=
  let e := extent rows stride
  decide ((a : Int) + e.1 < 0) || decide ((w.scratch : Int) < (a : Int) + e.2)
    || (!w.smap.isEmpty && (List.range rows.n).any fun i =>
        let x := ((a : Int) + (i : Int) * stride).toNat
        w.smap.any fun b => decide (b.base < x + rows.len) && decide (x < b.base + b.len))

def slotCauses (w : Workgroup) (n off len : Nat) : List Cause :=
  let held := decide (n < w.mx.slots) && w.mx.cfg.isSome
  let size := (w.mx.cfg.map (·.slotSize)).getD 0
  (if held then [] else [{ code := 0x95 }])
    ++ (if off % 64 ≠ 0 then [{ code := 0x30, addr := BitVec.ofNat 64 off }] else [])
    ++ (if w.mx.cfg.isSome ∧ size < off + len then [{ code := 0x82 }] else [])

inductive SideKind where
  | global | handle | scratch | slot
  deriving DecidableEq, Repr

def resolveSide (s : State) (w : Workgroup) (t : Thread) (k : SideKind) (hoff write : Bool) (v : Opv) (rows : Rows) (stride : Int) : State × SideRes :=
  match k with
  | .global => (s, .ok (.global v.word none) (some v.word))
  | .handle =>
    let e := extent rows stride
    handleSide s w t v.w32 (if hoff then (v.words.getD 1 0).toNat else 0) e.1 e.2 write
  | .scratch =>
    let a := v.w32.toNat
    if scratchBad w a rows stride then (s, .causes [{ code := 0x31, addr := BitVec.ofNat 64 a }]) else (s, .ok (.scratch a) none)
  | .slot =>
    let n := v.w32.toNat % 256
    let off := v.w32.toNat / 256
    let c := slotCauses w n off (rows.n * rows.len)
    (s, if c.isEmpty then .ok (.slot n off) none else .causes c)

/-- The first byte of a global range: its check, and its colour against those held (R199). A page with V clear waits after issue. -/
def firstByte (s : State) (w : Workgroup) (t : Thread) (va : Option Word) (write : Bool) : State × List Cause × Option LaneRes :=
  match va with
  | none => (s, [], none)
  | some va =>
    match accXlate s w t va (!write) write false with
    | (s, .unmapped) => (s, [], none)
    | (s, .stop (.trap c)) => (s, [c], none)
    | (s, .stop r) => (s, [], some r)
    | (s, .ok l _) =>
      let c := colourAt l va.toNat
      (s, if c == 0 || t.held.any fun h => h.1 == c then [] else [{ code := 0x64, addr := va, detail := c.setWidth 32 }], none)

/-! ## Issue -/

def opsFull (s : State) (core : Nat) : Bool := decide (Config.engineOps ≤ (s.engines.filter fun e => e.core == core).length)

/-- A new operation of a thread: the fork carries its clock and its held colours (R215, R199). -/
def mkOp (s : State) (w : Workgroup) (t : Thread) (tids : List Tid) (d : Dst) (kind : EngineKind) (id : Nat) : EngineOp :=
  { id := id, core := t.tid.core, wg := w.id, tid := t.tid, tids := tids, pc := s.cur.pc, dest := destOf d, kind := kind, state := .running,
    held := ((getT s t.tid).getD t).held.map (·.1), moved := 0, affected := [], stop := none, pl := t.pl, dead := false, interval := intervalOf s t.tid, vc := vcOf s t.tid }

/-- Puts an operation out: at once, held for comparison (chanter), or after a match (drone), whose lanes take the token too (R365). `aff` and `stop` are what the reading of its operands at issue has met (R134). -/
def startOp (s : State) (w : Workgroup) (t : Thread) (tids : List Tid) (d : Dst) (g : Sig) (kind : EngineKind) (aff : List Nat := []) (stop : Option Nat := none) :
    State × Option LaneRes :=
  let op := fun (s : State) (id : Nat) => { mkOp s w t tids d kind id with affected := aff, stop := stop }
  match w.role with
  | .single =>
    let (s, id) := newId s
    (bumpVc { s with engines := s.engines ++ [op s id] } t.tid, none)
  | .chanter =>
    let (s, id) := newId s
    (match compareEnter s w t g (op s id).held (.engine (op s id)) with
    | none => (s, some (.wait .resource))
    | some s => (bumpVc s t.tid, none))
  | .drone => (match compareMatch s w t g with
    | (s, .stop r) => (s, some r)
    | (s', .hit _ (.engine e)) => if opsFull s e.core then (s, some (.wait .resource)) else ({ s' with engines := s'.engines ++ [{ e with tids := e.tids ++ tids }] }, none)
    | (s', .hit _ (.remq e)) => if opsFull s e.core then (s, some (.wait .resource)) else ({ s' with engines := s'.engines ++ [{ e with tids := e.tids ++ tids }] }, none)
    | (s', .hit _ _) => (s', none))

/-- Retirement of a lane whose operation has started: its token goes PENDING (R363). -/
def tokenRetire (s : State) (w : Workgroup) (t : Tid) (l : List SrcSpec) (pops : List Nat) (d : Dst) : State × LaneRes :=
  let s := modT s t fun x => pendDst (takeSources x l pops) d 2
  (touchRegs s w t (markedRegs l ++ dstRegs d 2), .retire [])

def dirDst (dir : CopyDir) (h : Bool) : SideKind :=
  if dir.dstSlot then .slot else if dir.dstGlobal then (if h then .handle else .global) else .scratch

def dirSrc (dir : CopyDir) (h : Bool) : SideKind := if dir.srcGlobal then (if h then .handle else .global) else .scratch

/-- Words that an operand of a side takes. -/
def sideWords (k : SideKind) (hoff : Bool) : Nat :=
  match k with
  | .global => 2
  | .handle => if hoff then 2 else 1
  | _ => 1

def SideRes.causeList : SideRes → List Cause
  | .causes l => l
  | _ => []

def SideRes.addr : SideRes → Option Word
  | .ok _ va => va
  | _ => none

/-- A word with causes `l` that would also be held by a page fault: the lower code is delivered (R8), a page fault's being 0x40. -/
def stopOr (l : List Cause) (r : LaneRes) : LaneRes :=
  match lowest l with
  | some c => if c.code < 0x40 then .trap c else r
  | none => r

/-- Both sides of a copy, checked together: the sides, or the lowest cause or a hold. -/
def resolveBoth (s : State) (w : Workgroup) (t : Thread) (c : CopyOp) (vd vs : Opv) (rows : Rows) (extra : List Cause) : State × ((Side × Side) ⊕ LaneRes) :=
  match resolveSide s w t (dirDst c.dir c.hdst) c.hoff true vd rows rows.dstStride with
  | (s, .stop r) => (s, .inr (stopOr extra r))
  | (s, rd) =>
    match resolveSide s w t (dirSrc c.dir c.hsrc) c.hoff false vs rows rows.srcStride with
    | (s, .stop r) => (s, .inr (stopOr (extra ++ rd.causeList) r))
    | (s, rs) =>
      let (s, c1, r1) := firstByte s w t rd.addr true
      let (s, c2, r2) := firstByte s w t rs.addr false
      match lowest (extra ++ rd.causeList ++ rs.causeList ++ c1 ++ c2), r1, r2, rd, rs with
      | some c, _, _, _, _ => (s, .inr (.trap c))
      | none, some r, _, _, _ => (s, .inr r)
      | none, none, some r, _, _ => (s, .inr r)
      | none, none, none, .ok a _, .ok b _ => (s, .inl (a, b))
      | none, none, none, _, _ => (s, .inr (.wait .resource))

def lengthCause (bad : Bool) : List Cause := if bad then [{ code := 0x82 }] else []

/-- What a copy takes from its third operand: rows, and whether its limits hold. -/
def copyRows (v : Opv) : Rows × Bool :=
  let n := v.w32.toNat
  (⟨1, n, n, n⟩, n = 0)

/-- A row descriptor (R369). -/
def rowDesc (gather : Bool) (v : Opv) : Rows × Bool :=
  let r := (v.words.getD 0 0).toNat
  let n := (v.words.getD 1 0).toNat
  let t := sword (Word.pair (v.words.getD 2 0) (v.words.getD 3 0))
  (if gather then ⟨n, r, r, t⟩ else ⟨n, r, t, r⟩, r = 0 ∨ 2 ^ 20 < r ∨ n = 0 ∨ 2 ^ 20 < n)

/-- The scope of a fork as a release: it waits for the issuer's earlier accesses (R215). -/
def forkWaits (s : State) (w : Workgroup) (t : Tid) (sc : Scope) : Bool := w.role != .drone && releasePending s t sc

def copySrcs (c : CopyOp) (kl : Nat) : List SrcSpec :=
  [⟨c.dst, sideWords (dirDst c.dir c.hdst) c.hoff, .int⟩, ⟨c.src, sideWords (dirSrc c.dir c.hsrc) c.hoff, .int⟩, ⟨c.len, kl, .int⟩]

/-- COPY, GATHER and SCATTER: each lane issues its own operation. -/
def copyWord (s : State) (c : CopyOp) (kl : Nat) (rows : Opv → Rows × Bool) : State :=
  let src := copySrcs c kl
  perLane s c.pg fun s w t =>
    withSrcs s w t src c.d 2 noCauses fun vals pops =>
      let r := rows (opv vals 2)
      let pc := poisonCauses [0, 1] vals
      let g : Sig := ⟨(opv vals 0).word, wordsNat (opv vals 2).words, (opv vals 1).word.toNat⟩
      let go := fun (s : State) (kind : EngineKind) => match startOp s w t [t.tid] c.d g kind with
        | (s, some z) => (s, z)
        | (s, none) => tokenRetire s w t.tid src pops c.d
      if w.role == .drone && pc.isEmpty then go s (.copy (.scratch 0) (.scratch 0) r.1 c.scope none)
      else match resolveBoth s w t c (opv vals 0) (opv vals 1) r.1 (pc ++ lengthCause r.2) with
      | (s, .inr z) => (s, z)
      | (s, .inl (a, b)) =>
        if opsFull s t.tid.core then (s, .wait .resource)
        else if forkWaits s w t.tid c.scope then (s, .wait .release)
        else go s (.copy a b r.1 c.scope none)

def execCopy (c : CopyOp) (s : State) : Host.Outcome State Fault Refusal := .next (copyWord s c 1 copyRows)
def execGather (c : CopyOp) (s : State) : Host.Outcome State Fault Refusal := .next (copyWord s c 4 (rowDesc true))
def execScatter (c : CopyOp) (s : State) : Host.Outcome State Fault Refusal := .next (copyWord s c 4 (rowDesc false))

/-! ## XRED (R371) -/

def xredCauses (s : State) (w : Workgroup) (t : Thread) (s2g : Bool) (ty : AType) (aop : AOp) (dst : Word) (src : Opv) (len : Nat) :
    State × List Cause × Option LaneRes :=
  let n := AType.bytes ty
  let sa := if s2g then src.w32.toNat else src.word.toNat
  let c0 := lengthCause (len = 0 ∨ len % n ≠ 0)
  let c1 : List Cause := if dst.toNat % n ≠ 0 then [{ code := 0x30, addr := dst }] else if sa % n ≠ 0 then [{ code := 0x30, addr := BitVec.ofNat 64 sa }] else []
  let c2 : List Cause := if s2g && scratchBad w sa ⟨1, len, len, len⟩ len then [{ code := 0x31, addr := BitVec.ofNat 64 sa }] else []
  let (s, c3, r1) := firstByte s w t (some dst) true
  let (s, c4, r2) := firstByte s w t (if s2g then none else some src.word) false
  let c5 : List Cause := match accXlate s w t dst false true false with
    | (_, .ok _ pa) => if classOk s pa ty (.op aop 0) then [] else [{ code := 0x34, addr := dst }]
    | _ => []
  (s, c0 ++ c1 ++ c2 ++ c3 ++ c4 ++ c5, r1.orElse fun _ => r2)

def execXred (o : A3) (s2g : Bool) (ty : AType) (aop : AOp) (scope : Scope) (s : State) : Host.Outcome State Fault Refusal :=
  let src : List SrcSpec := [⟨o.a, 2, .int⟩, ⟨o.b, if s2g then 1 else 2, .int⟩, ⟨o.c, 1, .int⟩]
  .next (perLane s o.pg fun s w t =>
    withSrcs s w t src o.d 2 noCauses fun vals pops =>
      let dst := (opv vals 0).word
      let len := (opv vals 2).nat false
      let pc := poisonCauses [0, 1] vals
      let side : Side := if s2g then .scratch (opv vals 1).w32.toNat else .global (opv vals 1).word none
      let go := fun (s : State) => match startOp s w t [t.tid] o.d ⟨dst, len, (opv vals 1).word.toNat⟩ (.xred dst side len ty aop scope) with
        | (s, some z) => (s, z)
        | (s, none) => tokenRetire (if w.role == .single then pin s w.id else s) w t.tid src pops o.d
      if w.role == .drone && pc.isEmpty then go s
      else match xredCauses s w t s2g ty aop dst (opv vals 1) len with
      | (s, cs, r) =>
        match lowest (pc ++ cs), r with
        | some c, _ => (s, .trap c)
        | none, some z => (s, z)
        | none, none =>
          if opsFull s t.tid.core then (s, .wait .resource)
          else if forkWaits s w t.tid scope then (s, .wait .release)
          else go s)

/-! ## Transfer -/

/-- How far one step of a transfer gets. -/
inductive EStep where
  | moved (n : Nat)
  | done
  | stop (status : Nat)
  /-- a pending fault at an address -/
  | fault (va : Nat) (write : Bool)
  | wait
  /-- an ATS translation: link, bus page, address accessed -/
  | ats (link page va : Nat) (write : Bool)
  /-- a table in error under KILL: a page-table entry (R131) or a structure (R432), with its cause and the address -/
  | kill (code : Nat) (va : Word)
  /-- rollback where it applies, else the operation stops with status 4: a structure in error (R131, R432) -/
  | roll

/-- The 64-byte blocks that `n` bytes from an address lie in. -/
def blocksOf (a n : Nat) : List Nat := (List.range (n / 64 + 2)).filterMap fun i => if 64 * (a / 64 + i) < a + n then some (a / 64 + i) else none

/-- Blocks in error count once each (R362). -/
def addBlocks (old new : List Nat) : List Nat := old ++ (new.filter fun b => !old.contains b).eraseDups

/-- What a piece of the source gives: bytes, POISON under the policy, blocks in error. -/
inductive ERead where
  | data (bytes : List Byte) (poison : Bool) (bad : List Nat) (len : Nat)
  | stop (x : EStep)

/-- The number of leading bytes whose colours the operation holds. -/
def heldBytes (op : EngineOp) (l : Leaf) (va n : Nat) : Nat :=
  ((List.range n).takeWhile fun i => let c := colourAt l (va + i)
    c == 0 || op.held.contains c).length

def engineVc (op : EngineOp) : List (Nat × Nat) := kset (engineKey op.id) 1 op.vc

/-- The race check of an engine's access, as its issuer's (R214); a conflict stops it (assumption log 30). -/
def engineRace (s : State) (w : Workgroup) (op : EngineOp) (l : Leaf) (va : Word) (loc n : Nat) (write : Bool) : State × Bool :=
  if l.rc && w.rcb.race && colourAt l va.toNat == 0 then
    match raceWords s op.core w.pasid w.region va write ⟨op.tid, op.pc, true, op.id⟩ (engineVc op) (wordsOfRange loc n) with
    | (s, none) => (s, true)
    | (s, some _) => (s, false)
  else (s, true)

/-- The policy of a class met by an engine; the blocks in error count in every case (R134). -/
def engineSev (s : State) (w : Workgroup) (op : EngineOp) (key : Nat) (va : Word) (r : ByteRead) : State × ERead :=
  if r.badMac then (faultRecord s w.pasid 0x58 va, .stop (.stop stPerm))
  else match r.sev with
  | none => (s, .data r.bytes false [] r.bytes.length)
  | some c =>
    let pol := sevPolicy (wgNow s w).sev c
    if pol = 3 then
      ({ s with engines := updIf (fun e => e.id == op.id) (fun e => { e with affected := addBlocks e.affected r.blocks }) s.engines }, .stop (.stop stKill))
    else if pol = 2 then (s, .data r.bytes true r.blocks r.bytes.length)
    else if pol = 0 ∧ key = 0 then (s, .data r.bytes false r.blocks r.bytes.length)
    else (s, .data (List.zipWith (fun b m => b &&& ~~~m) r.bytes r.affected) false r.blocks r.bytes.length)

def engineXlate (s : State) (w : Workgroup) (op : EngineOp) (va : Word) (r wr : Bool) : State × ((Leaf × Nat) ⊕ EStep) :=
  match translate s op.core w.pasid va.toNat { r := r, w := wr, x := false, pl := op.pl } with
  | (s, .ok l pa) => (s, .inl (l, pa))
  | (s, .unmapped) => (s, .inr (.fault va.toNat wr))
  | (s, .denied) => (s, .inr (.stop stPerm))
  | (s, .uncorr) => (s, .inr (if sevPolicy (wgNow s w).sev 3 = 3 then .kill 0x53 va else .roll))

/-- An access of an engine that has no data: its link or its route is gone (R21, R32). -/
def engineLost (s : State) (w : Workgroup) (k : Nat) (block : Nat) : State × ERead :=
  match sev3Words s w ((k + 3) / 4) with
  | (s, none) => (s, .stop (.stop stKill))
  | (s, some (ws, p)) => (s, .data ((ws.flatMap fun x => leBytes 4 x.toNat).take k) p [block] k)

/-- Reads at most `n` bytes, within one block and page, of global memory. A tangent (`sh`) is neither coloured nor race-checked (R239). -/
def readGlobal (s : State) (w : Workgroup) (op : EngineOp) (va : Word) (n : Nat) (sh : Bool := false) : State × ERead :=
  match engineXlate s w op va true false with
  | (s, .inr x) => (s, .stop x)
  | (s, .inl (l, pa)) =>
    let k := if sh then n else heldBytes op l va.toNat n
    if k = 0 then (s, .stop (.stop stColour))
    else match if sh then (s, true) else engineRace s w op l va (locOf s w.pasid pa) k false with
    | (s, false) => (s, .stop (.stop stPerm))
    | (s, true) =>
      match homeClass s pa with
      | .bad => (s, .stop (.stop stPerm))
      | .reg off => (s, .data (regBytes s off k) false [] k)
      | .peer m off => (match readPeer s (.engine op.id) m off k true with
        | (s, .data l) => (s, .data l false [] k)
        | (s, .failed) => engineLost s w k (pa / 64)
        | (s, .wait) => (s, .stop .wait))
      | .host link bus =>
        if !hostUp s link w then engineLost s w k (pa / 64)
        else (match hostXlate s link w.pasid bus with
        | (s, .wait) => (s, .stop (.ats link (bus / 4096) va.toNat false))
        | (s, .fault) => (s, .stop (.fault va.toNat false))
        | (s, .ok a) =>
          let s := drainOverlap s op.core a k
          (s, .data (getCells a k s.mem) false [] k))
      | .hbm a =>
        let s := drainOverlap s op.core a k
        let (s, r) := readHbmRange s a k l.layout l.key
        engineSev s w op l.key va r

/-- A store of an engine operation to a peer, on its way until the peer has accepted it. -/
def sendPeerStore (s : State) (w : Workgroup) (op : EngineOp) (p : Nat) (va : Word) (body : Nat → FlitBody) (red : Bool) : State :=
  let (s, id) := newId s
  let s := sendRequest s p 0 0 (body id) (.store id)
  { s with stores := s.stores ++ [{ mkStore id w op.tid 0 0 va [] false (some p) with who := some (.engine op.id), red := red }] }

/-- Writes bytes, within one block and page, to global memory. A write to an NR page pins the interval (R141). -/
def writeGlobal (s : State) (w : Workgroup) (op : EngineOp) (va : Word) (bytes : List Byte) (poison : Bool) (sh : Bool := false) : State × EStep :=
  match engineXlate s w op va false true with
  | (s, .inr x) => (s, x)
  | (s, .inl (l, pa)) =>
    let k := if sh then bytes.length else heldBytes op l va.toNat bytes.length
    if k = 0 then (s, .stop stColour)
    else match if sh then (s, true) else engineRace s w op l va (locOf s w.pasid pa) k true with
    | (s, false) => (s, .stop stPerm)
    | (s, true) =>
      let bytes := bytes.take k
      let s := if l.nr then pin s w.id else s
      match homeClass s pa with
      | .bad => (s, .stop stPerm)
      | .reg off => (regWriteBytes s off bytes (op.pl == 3), .moved k)
      | .peer _ off =>
        (match route s with
         | none => (reportDomain s w.pasid op.tid (some w.id) 0x53 va, .stop remqFailStatus)
         | some p => if credit s p 0 = 0 then (s, .wait) else (sendPeerStore s w op p va (fun id => .store id off bytes) false, .moved k))
      | .host link bus =>
        if !hostUp s link w then (s, if sevPolicy (wgNow s w).sev 3 = 3 then .stop stKill else .moved k)
        else (match hostXlate s link w.pasid bus with
        | (s, .wait) => (s, .ats link (bus / 4096) va.toNat true)
        | (s, .fault) => (s, .fault va.toNat true)
        | (s, .ok a) => (writeCanon (drainOverlap s op.core a k) a bytes l.layout l.key poison, .moved k))
      | .hbm a => (writeCanon (drainOverlap s op.core a k) a bytes l.layout l.key poison, .moved k)

/-- Byte `x` of row `r` of a side. -/
def Side.at (sd : Side) (stride : Int) (r x : Nat) : Word :=
  let d : Int := (r : Int) * stride + x
  match sd with
  | .global a _ => addInt a d
  | .scratch a => BitVec.ofInt 64 ((a : Int) + d)
  | .slot _ off => BitVec.ofInt 64 ((off : Int) + d)

/-- The offset in a handle's buffer, if the side is one. -/
def Side.bufOff (sd : Side) (stride : Int) (r x : Nat) : Option Nat :=
  match sd with
  | .global _ (some (_, off)) => some ((off : Int) + (r : Int) * stride + x).toNat
  | _ => none

def toPage (a : Nat) : Nat := 4096 - a % 4096

/-- An acquire at device scope by an operation: what it meets at a location comes before its later accesses (R124, R215). -/
def opAcquire (s : State) (op : EngineOp) (loc : Nat) : State :=
  let l := s.syncs.filter fun e => e.addr == loc && mutualScope s e.tid e.scope op.tid .dev
  acquire { s with engines := updIf (fun e => e.id == op.id) (fun e => { e with vc := l.foldl (fun v x => vcJoin v x.vc) e.vc }) s.engines } op.core .dev

/-- R124: the entry of a side read again; none where the transfer may go on. -/
def recheck (s : State) (w : Workgroup) (op : EngineOp) (sd : Side) : State × Option EStep :=
  match sd with
  | .global _ (some (h, _)) =>
    let ea := bufAddr w h
    (match structRead s (askerOf s w op.core) ea.toNat 32 with
     | (s, .bytes l ne loc) =>
       let s := opAcquire s op loc
       let s := if ne then { s with engines := updIf (fun e => e.id == op.id) (fun e => { e with affected := addBlocks e.affected [loc / 64] }) s.engines } else s
       (s, if (parseBuf l).stale h then some (.stop stRevoked) else none)
     | (s, .unmapped) => (s, some (.fault ea.toNat false))
     | (s, .ats k p) => (s, some (.ats k p ea.toNat false))
     | (s, .wait) => (s, some .wait)
     | (s, .denied) => (s, some (.stop stPerm))
     | (s, .badMac) => (s, some (.stop stPerm))
     | (s, .uncorr) => (s, some .roll)
     | (s, .killed c) => (s, some (.kill c ea)))
  | _ => (s, none)

/-- Whether the byte at this offset of a buffer is checked before it moves: each at a multiple of 4,096, of a transfer that is as long or has begun (R124). -/
def atBoundary (long : Bool) (o : Option Nat) : Bool := long && (match o with
  | some x => x % 4096 == 0
  | none => false)

/-- A check is due at the next byte of a copy. -/
def dueChecks (op : EngineOp) (dst src : Side) (rows : Rows) : Bool × Bool :=
  let r := op.moved / rows.len
  let x := op.moved % rows.len
  let long := op.moved != 0 || decide (4096 ≤ rows.n * rows.len)
  (atBoundary long (dst.bufOff rows.dstStride r x), atBoundary long (src.bufOff rows.srcStride r x))

/-- Tangent components that copies into slots carry (R392). -/
def slotComps (w : Workgroup) : List Nat := (List.range w.rcb.tanK).map (· + 1)

def slotKey (comp n off : Nat) : Nat := comp * 2 ^ 32 + n * 2 ^ 20 + off

def putSlot (s : State) (id comp n off : Nat) (bytes : List Byte) (poison : Bool) : State :=
  modWg s id fun w => { w with mx := { w.mx with
    slotMem := setCells (cellsAt (slotKey comp n off) bytes) w.mx.slotMem
    slotPoison := if poison && !w.mx.slotPoison.contains n then n :: w.mx.slotPoison else w.mx.slotPoison } }

/-- A copy that covers the whole slot begins (assumption log 31). -/
def cleanSlot (n : Nat) (w : Workgroup) : Workgroup :=
  { w with mx := { w.mx with slotPoison := w.mx.slotPoison.filter fun i => i != n } }

/-- The shadows of a piece that goes into a slot (R392): what stops it, and the blocks in error that were read. -/
def slotShadows (s : State) (w : Workgroup) (op : EngineOp) (src : Side) (va : Word) (n off k : Nat) (bad : List Nat) : List Nat → State × Option EStep × List Nat
  | [] => (s, none, bad)
  | j :: js =>
    let (s, tp) := match src with
      | .global .. => (match engineXlate s w op va true false with
        | (s, .inl (l, _)) => (s, l.tp)
        | (s, .inr _) => (s, false))
      | _ => (s, false)
    if !tp then slotShadows (putSlot s w.id j n off (List.replicate k 0) false) w op src va n off k bad js
    else match readGlobal s w op (va + w.rcb.tanOff.getD (j - 1) 0) k true with
    | (s, .stop x) => (s, some x, bad)
    | (s, .data b p b2 _) => slotShadows (putSlot s w.id j n off b p) w op src va n off k (bad ++ b2) js

/-- Reads a piece of the source. -/
def readSide (s : State) (w : Workgroup) (op : EngineOp) (src : Side) (pos : Word) (k : Nat) : State × ERead :=
  match src with
  | .global .. => readGlobal s w op pos k
  | .scratch _ =>
    let w := (getWg s w.id).getD w
    let d := padRead w pos.toNat k
    engineSev s w op 0 pos ⟨d.1, if d.2 then some 3 else none, if d.2 then d.1.map fun _ => 0xFF else [], if d.2 then blocksOf (2 ^ 60 + pos.toNat) k else [], false, false⟩
  | .slot n _ => (s, .data (getCells (slotKey 0 n pos.toNat) k ((getWg s w.id).getD w).mx.slotMem) false [] k)

/-- One piece of a copy, at linear byte `op.moved`. -/
def copyPiece (s : State) (w : Workgroup) (op : EngineOp) (dst src : Side) (rows : Rows) : State × EStep × List Nat :=
  let r := op.moved / rows.len
  let x := op.moved % rows.len
  if rows.n ≤ r then (s, .done, [])
  else
    let dp := dst.at rows.dstStride r x
    let sp := src.at rows.srcStride r x
    let dO := dst.bufOff rows.dstStride r x
    let sO := src.bufOff rows.srcStride r x
    let lim := fun (o : Option Nat) => match o with
      | some o => toPage o
      | none => 4096
    let k := Nat.min (rows.len - x) (Nat.min (64 - dp.toNat % 64) (Nat.min (64 - sp.toNat % 64) (Nat.min (lim dO) (lim sO))))
    let due := dueChecks op dst src rows
    let (s, c1) := if due.1 then recheck s w op dst else (s, none)
    let (s, c2) := if due.2 then recheck s w op src else (s, none)
    match c1.orElse fun _ => c2 with
    | some e => (s, e, [])
    | none =>
      match readSide s w op src sp k with
      | (s, .stop e) => (s, e, [])
      | (s, .data b p bad k) =>
        match dst with
        | .global .. => (match writeGlobal s w op dp b p with
          | (s, e) => (s, e, bad))
        | .scratch _ => (padWriteRange s w.id dp.toNat b p false, .moved k, bad)
        | .slot n off =>
          let whole := op.moved = 0 ∧ off = 0 ∧ (w.mx.cfg.map (·.slotSize)) = some (rows.n * rows.len)
          let s := if whole then modWg s w.id (cleanSlot n) else s
          let s := putSlot s w.id 0 n dp.toNat b p
          (match slotShadows s w op src sp n dp.toNat k bad (slotComps w) with
           | (s, some e, bad) => (s, e, bad)
           | (s, none, bad) => (s, .moved k, bad))

/-- An element of an XRED at a canonical address: an error of the block that it reads counts, POISON data marks the block (R134). -/
def xredAt (s : State) (w : Workgroup) (op : EngineOp) (l : Leaf) (a : Nat) (dp : Word) (ty : AType) (aop : AOp) (b : List Byte) (p : Bool) (bad : List Nat) :
    State × EStep × List Nat :=
  match rmwAt s w op.core l a dp ty (.op aop (leNat b)) false with
  | (s, .stop (.trap _)) => (s, .stop stPerm, bad)
  | (s, .stop _) => (s, .stop stKill, bad ++ [a / 64])
  | (s, .old _ q ne _) =>
    let bad := if q || ne then bad ++ [a / 64] else bad
    (if p ∧ !isHostKey a then putBlock s (a / 64) [] { getBlock s (a / 64) with poison := true } else s, .moved b.length, bad)
  | (s, .peer ..) => (s, .wait, bad)

/-- One element of an XRED. -/
def xredPiece (s : State) (w : Workgroup) (op : EngineOp) (dst : Word) (src : Side) (len : Nat) (ty : AType) (aop : AOp) : State × EStep × List Nat :=
  let n := AType.bytes ty
  if len ≤ op.moved then (s, .done, [])
  else
    let dp := dst + BitVec.ofNat 64 op.moved
    match readSide s w op src (src.at 0 0 op.moved) n with
    | (s, .stop e) => (s, e, [])
    | (s, .data b p bad k) =>
      if k < n then (s, .stop stColour, bad)
      else match engineXlate s w op dp false true with
      | (s, .inr x) => (s, x, bad)
      | (s, .inl (l, pa)) =>
        let lost := if sevPolicy (wgNow s w).sev 3 = 3 then (s, EStep.stop stKill, bad ++ [pa / 64]) else (s, .moved n, bad ++ [pa / 64])
        if heldBytes op l dp.toNat n < n then (s, .stop stColour, bad)
        else if !classOk s pa ty (.op aop 0) then (s, .stop stPerm, bad)
        else match homeClass s pa with
        | .peer _ off => (match route s with
          | none => lost
          | some q => if credit s q 0 = 0 then (s, .wait, bad)
            else (sendPeerStore s w op q dp (fun id => .atomic id off ty aop (leWord b)) true, .moved n, bad))
        | .host link bus => if !hostUp s link w then lost
          else (match hostXlate s link w.pasid bus with
          | (s, .wait) => (s, .ats link (bus / 4096) dp.toNat true, bad)
          | (s, .fault) => (s, .fault dp.toNat true, bad)
          | (s, .ok a) => xredAt s w op l a dp ty aop b p bad)
        | .hbm a => xredAt s w op l a dp ty aop b p bad
        | _ => (s, .stop stPerm, bad)

def enginePiece (s : State) (w : Workgroup) (op : EngineOp) : State × EStep × List Nat :=
  match op.kind with
  | .copy dst src rows _ _ => copyPiece s w op dst src rows
  | .xred dst src len ty aop _ => xredPiece s w op dst src len ty aop
  | _ => (s, .done, [])

def getOp (s : State) (id : Nat) : Option EngineOp := s.engines.find? fun e => e.id == id
def modOp (s : State) (id : Nat) (f : EngineOp → EngineOp) : State := { s with engines := updIf (fun e => e.id == id) f s.engines }

/-- A check of a handle is due at the next byte of an operation (R124). -/
def EngineOp.dueCheck (op : EngineOp) : Bool :=
  match op.kind with
  | .copy d sr rows _ _ => let x := dueChecks op d sr rows
    x.1 || x.2
  | _ => false

/-- Moves pieces until the operation is done, stops or waits; with `once`, until the next check of a handle has been made. -/
def engineRun (once : Bool) : Nat → State → Nat → State × EStep
  | 0, s, _ => (s, .wait)
  | fuel + 1, s, id =>
    match (getOp s id).bind fun op => (getWg s op.wg).map fun w => (op, w) with
    | none => (s, .wait)
    | some (op, w) =>
      match enginePiece s w op with
      | (s, .moved k, bad) =>
        let s := dropReads (modOp s id fun o => { o with moved := o.moved + k, affected := addBlocks o.affected bad, state := .running }) (.engine id)
        if once && op.dueCheck then (s, .moved k) else engineRun once fuel s id
      | (s, e, bad) => (modOp s id fun o => { o with affected := addBlocks o.affected bad }, e)

/-- Pieces that an operation can take at most. -/
def engineFuel (op : EngineOp) : Nat :=
  match op.kind with
  | .copy _ _ rows _ _ => 2 * rows.n * (rows.len + 1) + 2
  | .xred _ _ len _ _ _ => len + 2
  | _ => 2

/-- L1 copies of lines in the global destination of an operation go (R215); all of the core's are dropped. -/
def dropL1 (s : State) (core : Nat) : State := { s with l1 := s.l1.filter fun l => l.core != core }

/-! ## Remote enqueue (R372 to R374) -/

/-- REMQ's source word: core and module of the issuer. -/
def sourceWord (s : State) (core : Nat) : W32 := BitVec.ofNat 32 (core + s.module_ * 2048)

def landingFull (s : State) (core : Nat) : Bool := decide (Config.landingEntries ≤ (getCore s core).landing.length)

/-- A destination that another REMQ cannot be sent to now (R26). -/
def remqHeld (s : State) (m core : Nat) : Bool :=
  if m = s.module_ then
    landingFull s core || decide (Config.landingEntries ≤ (getCore s core).landing.length + (s.engines.filter fun e => match e.kind with
      | .remq m' c .. => m' == s.module_ && c == core
      | _ => false).length)
  else decide (kget 1 m s.reserve ≤ kget 0 m s.outstanding) || (match route s with
    | some p => credit s p 2 == 0
    | none => false)

def remqCause (s : State) (a : W32) (addr : Nat) (w : Workgroup) : List Cause :=
  let core := bits a.toNat 10 0
  let m := bits a.toNat 19 11
  let here := m == s.module_
  let bad := bits a.toNat 31 20 != 0 || decide (1600 ≤ core) || reservedCore core || (here && !dieIn s (coreDie core))
  (if bad then [({ code := 0x87 } : Cause)] else [])
    ++ (if !here && (!s.domain.contains m || (route s).isNone) then [{ code := 0x86, detail := BitVec.ofNat 32 m }] else [])
    ++ (if addr % 64 ≠ 0 then [{ code := 0x30, addr := BitVec.ofNat 64 addr }] else [])
    ++ (if scratchBad w addr ⟨1, 64, 64, 64⟩ 64 then [{ code := 0x31, addr := BitVec.ofNat 64 addr }] else [])

/-- Sends a started REMQ to another module: its flit, and its outstanding count. -/
def sendRemq (s : State) (op : EngineOp) (pasid : Nat) : State :=
  match op.kind with
  | .remq m core data src p =>
    if m = s.module_ ∨ op.stop.isSome then s
    else match route s with
    | none => s
    | some q =>
      let s := sendRequest s q 2 2 (.payload core pasid src data p) (.remq op.id)
      { s with outstanding := kset m (kget 0 m s.outstanding + 1) s.outstanding }
  | _ => s

/-- The payload as read at issue: its bytes, whether they are POISON data, the blocks in error, and the status under KILL (R134). -/
def remqData (s : State) (w : Workgroup) (addr : Nat) : List Byte × Bool × List Nat × Option Nat :=
  let d := padRead w addr 64
  if !d.2 then (d.1, false, [], none)
  else
    let pol := sevPolicy (wgNow s w).sev 3
    let blk := blocksOf (2 ^ 60 + addr) 64
    if pol = 3 then (d.1, false, blk, some stKill)
    else if pol = 1 then (List.replicate 64 0, false, blk, none)
    else (d.1, pol == 2, blk, none)

def execRemq (o : A2) (ack : Bool) (s : State) : Host.Outcome State Fault Refusal :=
  let src : List SrcSpec := [⟨o.a, 1, .int⟩, ⟨o.b, 1, .int⟩]
  let d : Dst := if ack then o.d else .zero
  .next (perLane s o.pg fun s w t =>
    withSrcs s w t src d 2 noCauses fun vals pops =>
      let a := (opv vals 0).w32
      let addr := (opv vals 1).w32.toNat
      match lowest (poisonCauses [1] vals ++ remqCause s a addr w) with
      | some c => (s, .trap c)
      | none =>
        let x := remqData s w addr
        let m := bits a.toNat 19 11
        let core := bits a.toNat 10 0
        if opsFull s t.tid.core || remqHeld s m core then (s, .wait .resource)
        else if forkWaits s w t.tid .sys then (s, .wait .release)
        else
          match startOp (pin s w.id) w t [t.tid] d ⟨BitVec.ofNat 64 a.toNat, 64, leNat x.1⟩ (.remq m core x.1 (sourceWord s t.tid.core) x.2.1) x.2.2.1 x.2.2.2 with
          | (s, some z) => (s, z)
          | (s, none) =>
            let s := match w.role, s.engines.getLast? with
              | .chanter, _ => s
              | _, some op => sendRemq s op w.pasid
              | _, none => s
            tokenRetire s w t.tid src pops d)

/-- Writes a popped payload to scratch, with its acquire (R373, R374). -/
def takeLanding (s : State) (w : Workgroup) (t : Tid) (addr : Nat) (l : Landing) : State :=
  let s := padWriteRange s w.id addr l.data l.poison false
  acquire (joinVc s t l.vc) t.core .sys

/-- The oldest entry of a context on a core. -/
def landingOf (s : State) (core pasid : Nat) : Option Landing := (getCore s core).landing.find? fun l => l.pasid == pasid

def dropLanding (s : State) (core : Nat) (l : Landing) : State := modCore s core fun c => { c with landing := c.landing.erase l }

def popWords (l : Landing) : List FillWord :=
  ⟨l.source, false, []⟩ :: (List.range 16).map fun i => ⟨BitVec.ofNat 32 (field l.data (4 * i) 4), l.poison, []⟩

/-- Serves the pops that wait on a core, oldest first. -/
def servePops (s : State) (core : Nat) : State :=
  (s.loads.filter fun l => l.tid.core == core && l.pop.isSome).foldl (fun s l =>
    match l.pop, (getT s l.tid).bind fun t => getWg s t.wg with
    | some (addr, pasid), some w =>
      (match landingOf s core pasid with
       | none => s
       | some e =>
         let s := takeLanding (dropLanding s core e) w l.tid addr e
         let s := fillPlace s l.id (popWords e) false
         { s with loads := updIf (fun x => x.id == l.id) (fun x => { x with words := [⟨e.source, false, []⟩], pop := none }) s.loads })
    | _, _ => s) s

/-- An entry of the core's landing store that RQPOP takes: the oldest of the context, if no earlier pop waits for one (R373). -/
def popEntry (s : State) (w : Workgroup) (x : Thread) : Option Landing :=
  if s.loads.any fun l => l.tid.core == x.tid.core && (match l.pop with
      | some (_, p) => p == w.pasid
      | none => false) then none
  else landingOf s x.tid.core w.pasid

def execRqpop (o : A1) (nb : Bool) (s : State) : Host.Outcome State Fault Refusal :=
  let src : List SrcSpec := [⟨o.a, 1, .int⟩]
  .next (perLane s o.pg fun s w t =>
    withSrcs s w t src o.d 1 addrPoison fun vals pops =>
      let addr := (opv vals 0).w32.toNat
      let ad : Word := BitVec.ofNat 64 addr
      if addr % 64 ≠ 0 then (s, .trap { code := 0x30, addr := ad })
      else if scratchBad w addr ⟨1, 64, 64, 64⟩ 64 then (s, .trap { code := 0x31, addr := ad })
      else if w.role == .drone then
        (match takeValue s w t.tid with
         | none => (s, .wait .resource)
         | some (s, ws, ne) =>
           let s := if ws.length = 17 then padWriteRange s w.id addr ((ws.drop 1).flatMap fun x => leBytes 4 x.val.toNat) ((ws.drop 1).any (·.poison)) false else s
           (deliver s w t.tid src pops o.d 1 .pop none ad (ws.take 1) ne, .retire []))
      else if valuesFull s w then (s, .wait .resource)
      else
        let s := pin s w.id
        match popEntry s w t with
        | some e =>
          let s := queueValue (takeLanding (dropLanding s t.tid.core e) w t.tid addr e) w t.tid (some (popWords e)) false false
          (deliver s w t.tid src pops o.d 1 .pop none ad [⟨e.source, false, []⟩] false, .retire [])
        | none =>
          if nb then
            let ws : List FillWord := [⟨0xFFFFFFFF, false, []⟩]
            (deliver (queueValue s w t.tid (some ws) false false) w t.tid src pops o.d 1 .pop none ad ws false, .retire [])
          else
            let s := deliver s w t.tid src pops o.d 1 .pop none ad [⟨0, false, []⟩] false (some (addr, w.pasid))
            (queueValue s w t.tid none false false s.ids, .retire []))

/-! ## TCHK (R379) -/

def execTchk (pg : Guard) (pd : BitVec 3) (a : Src) (s : State) : Host.Outcome State Fault Refusal :=
  let src : List SrcSpec := [⟨a, 2, .int⟩]
  .next (perLane s pg fun s w t =>
    let r := readSrcs s w t src []
    match lowest (dualCause s w ++ r.causes) with
    | some c => (s, .trap c)
    | none =>
      if r.vals.any (·.poison) then (s, .consume { code := 0x12 })
      else if r.wait then (modT s t.tid fun x => setPred x pd.toNat false, .retire [])
      else (touchRegs (modT s t.tid fun x => setPred (takeSources x src r.pops) pd.toNat true) w t.tid (markedRegs src), .retire []))

end Sys2Proof.Machine
end

