-- ==== Sys2Proof/Machine/Streams.lean ====
section
/-! DEFINITION. Streams: STRM, STRMX and the bellows' deliveries (R375 to R378). -/

namespace Sys2Proof.Machine

/-- A plain load of `n` bytes by one thread, for a word that reads a structure as data: the bytes, or what stops it. -/
def plainRead (s : State) (w : Workgroup) (t : Thread) (va : Word) (n align : Nat) : State × (List Byte ⊕ LaneRes) :=
  if va.toNat % align ≠ 0 then (s, .inr (.trap { code := 0x30, addr := va }))
  else match accXlate s w t va true false false with
  | (s, .unmapped) =>
    let (s, r) := hold s w t va false
    (s, .inr r)
  | (s, .stop r) => (s, .inr r)
  | (s, .ok l pa) =>
    let cs := coloursOf l va.toNat n
    match holdAll s w t va cs with
    | (s, some r) => (s, .inr r)
    | (s, none) =>
      match if isChecked l w .plain cs then raceThread s w t va (locOf s w.pasid pa) n false else (s, none) with
      | (s, some c) => (s, .inr (.trap c))
      | (s, none) =>
        let fin := fun (x : State × Pol) => match x with
          | (s, .stop r) => (s, Sum.inr r)
          | (s, .ok d) =>
            if d.bad.any fun b => b then (s, Sum.inr (.consume { code := 0x50 }))
            else (if d.numerr then modT s t.tid fun x => { x with numerr := true } else s, Sum.inl d.bytes)
        match readPaRange s w t l pa n va false (cpOf l.cp) with
        | (s, .stop r) => (s, .inr r)
        | (s, .noData) => fin (applyNoData s w va n)
        | (s, .peer m off) => fin (peerData s w t m off n va)
        | (s, .data r) => fin (applySev s w l.key va false r)

structure StreamDesc where
  base : Word
  laneStride : Word
  counts : List Nat
  strides : List Word

def parseStream (l : List Byte) : StreamDesc :=
  ⟨leWord (slice 0 8 l), leWord (slice 8 8 l), (List.range 4).map fun i => field l (16 + 4 * i) 4, (List.range 4).map fun i => leWord (slice (32 + 8 * i) 8 l)⟩

def IWidth.bytes : IWidth → Nat
  | .w8 => 1
  | .w16 => 2
  | .w32 => 4
  | .w64 => 8

/-- R376. -/
def StreamDesc.bad (d : StreamDesc) (dims ew : Nat) : Bool :=
  let used := d.counts.take dims
  used.any (· == 0) || (d.counts.drop dims).any (· != 0) || (d.strides.drop dims).any (· != 0)
    || decide (2 ^ 32 < used.foldl (fun a n => a * n) 1)
    || d.base.toNat % ew != 0 || d.laneStride.toNat % ew != 0 || (d.strides.take dims).any fun x => x.toNat % ew != 0

def streamBusy (s : State) (core q : Nat) (lanes : List Tid) : Bool :=
  decide (Config.streamCtx ≤ (s.streams.filter fun x => x.core == core).length) || lanes.any fun t => (qBound s t q).isSome

def execStrm (pg : Guard) (a : Src) (cp : Cp) (dims : BitVec 2) (sx : Bool) (ew : IWidth) (q : BitVec 3) (s : State) : Host.Outcome State Fault Refusal :=
  .next (perGroup s pg [⟨a, 2, .int⟩] .zero 0 [0] fun s w t v lanes =>
    let addr := (opv v 0).word
    let g : Sig := ⟨addr, 64, q.toNat⟩
    let n := dims.toNat + 1
    if w.role == .drone then
      match compareMatch s w t g with
      | (s, .stop r) => groupOf (s, some r)
      | (s, .hit _ (.stream x)) => ({ s with streams := s.streams ++ [{ x with lanes := x.lanes ++ lanes }] }, .retire)
      | (s, .hit _ _) => (s, .retire)
    else if releasePending s t.tid .thr then (s, .wait .release)
    else match plainRead s w t addr 64 64 with
    | (s, .inr r) => groupOf (s, some r)
    | (s, .inl b) =>
      let d := parseStream b
      if streamBusy s t.tid.core q.toNat lanes then (s, .trap { code := 0x83 })
      else if d.bad n (IWidth.bytes ew) then (s, .trap { code := 0x85, addr := addr })
      else
        let (s, id) := newId s
        let x : Stream := {
          id := id, core := t.tid.core, wg := w.id, tid := t.tid, q := q.toNat, lanes := lanes, all := lanes, base := d.base, laneStride := d.laneStride,
          counts := d.counts.take n, strides := d.strides.take n, ew := ew, sx := sx, cp := cp, held := ((getT s t.tid).getD t).held.map (·.1), pl := t.pl, pos := 0,
          stop := none, faulted := none }
        if w.role == .chanter then
          (match compareEnter s w t g x.held (.stream x) with
           | none => (s, .wait .resource)
           | some s => (s, .retire))
        else ({ s with streams := s.streams ++ [x] }, .retire))

/-- Unbinds a queue in some lanes; a context without lanes is freed (R378). -/
def unbindLanes (s : State) (q : Nat) (ts : List Tid) : State :=
  let cut := fun (x : Stream) => if x.q = q then { x with lanes := x.lanes.filter fun t => !ts.contains t } else x
  { s with streams := (s.streams.map cut).filter fun x => !x.lanes.isEmpty }

def execStrmx (pg : Guard) (q : BitVec 3) (s : State) : Host.Outcome State Fault Refusal :=
  .next (perGroup s pg [] .zero 0 [] fun s _ _ _ lanes =>
    let mine := lanes.filter fun t => (qBound s t q.toNat).isSome
    let s := mine.foldl (fun s t => modT s t fun x => { x with q := kset q.toNat [] x.q }) s
    (wakeAll (unbindLanes s q.toNat mine), .retire))

/-! ## Deliveries -/

/-- The indices of element `e`, dimension 0 fastest. -/
def elemIndices : List Nat → Nat → List Nat
  | [], _ => []
  | c :: r, e => e % c :: elemIndices r (e / c)

def elemAddr (x : Stream) (e lane : Nat) : Word :=
  let d := List.zipWith (fun i st => BitVec.ofNat 64 i * st) (elemIndices x.counts e) x.strides
  d.foldl (fun a b => a + b) (x.base + BitVec.ofNat 64 lane * x.laneStride)

def Stream.total (x : Stream) : Nat := x.counts.foldl (fun a n => a * n) 1

def modStream (s : State) (id : Nat) (f : Stream → Stream) : State := { s with streams := updIf (fun x => x.id == id) f s.streams }

/-- The stream stops at the element at `a`, whose cause is `c` (R377). -/
def stopStream (s : State) (x : Stream) (a : Word) (c : Nat) : State := wakeAll (modStream s x.id fun y => { y with stop := some (a, c) })

/-- An element of a stream as an operation: a number of its own, beyond every identifier. -/
def Stream.elemId (x : Stream) : Nat := 2 ^ 60 + x.id * 2 ^ 40 + x.pos

/-- The next element of a stream as an engine operation of its issuer, for its read. -/
def streamOp (s : State) (x : Stream) : EngineOp :=
  { id := x.elemId, core := x.core, wg := x.wg, tid := x.tid, tids := [], pc := 0, dest := .none, kind := .matrix (.accz 0), state := .running,
    held := x.held, moved := 0, affected := [], stop := none, pl := x.pl, dead := false, interval := 0, vc := vcOf s x.tid }

/-- The cause that stops a stream's read. -/
def streamCause (s : State) (w : Workgroup) (x : Stream) (a : Word) : Nat :=
  match translate s x.core w.pasid a.toNat { r := true, w := false, x := false, pl := x.pl } with
  | (s, .ok l pa) =>
    let c := colourAt l a.toNat
    if c != 0 && !x.held.contains c then 0x64
    else match hbmOf s pa with
    | none => 0x53
    | some h =>
      let r := (readHbmRange s h (IWidth.bytes x.ew) l.layout l.key).2
      if r.badMac then 0x58 else match r.sev with
      | some c => sevCause c
      | none => 0x70
  | (_, .uncorr) => 0x53
  | _ => 0x42

/-- The lane and its mirror under redundancy. -/
def streamLanes (s : State) (w : Workgroup) (t : Tid) : List Tid := if w.role == .chanter then t :: (counterpart s w t).toList else [t]

/-- One element goes into the queues of its lane. -/
def pushElem (s : State) (w : Workgroup) (x : Stream) (t : Tid) (b : List Byte) (poison numerr : Bool) : State :=
  let n := IWidth.bytes x.ew
  let v := leNat b
  let val := BitVec.ofNat 64 (if x.sx then wrap 64 (sval (8 * n) v) else v)
  let last := decide (x.total ≤ x.pos / x.all.length + 1)
  let ts := streamLanes s w t
  let s := ts.foldl (fun s t => modT s t fun y =>
    { y with q := kset x.q (kget [] x.q y.q ++ [⟨val, poison, if w.rcb.race then some (engineKey x.elemId) else none⟩]) y.q, numerr := y.numerr || numerr }) s
  let s := modStream s x.id fun y => { y with pos := y.pos + 1 }
  wakeCore (if last then unbindLanes s x.q ts else s) x.core

/-- Delivers the next element of a stream, if its lane has room (R376, R377). -/
def deliverElem (s : State) (w : Workgroup) (x : Stream) : State :=
  if x.stop.isSome || x.faulted.isSome || x.all.isEmpty || w.state != .resident then s
  else match x.all[x.pos % x.all.length]? with
  | none => s
  | some t =>
    if !x.lanes.contains t || !((getT s t).any fun y => y.run != .ended) then
      (if x.pos / x.all.length < x.total then modStream s x.id fun y => { y with pos := y.pos + 1 } else unbindLanes s x.q x.lanes)
    else if (streamLanes s w t).any fun t => (getT s t).any fun y => decide (4 ≤ (kget [] x.q y.q).length) then s
    else
      let a := elemAddr x (x.pos / x.all.length) t.lane
      match readGlobal s w (streamOp s x) a (IWidth.bytes x.ew) with
      | (s, .data b p bad _) => pushElem (dropReads s (.engine x.elemId)) w x t b p (!bad.isEmpty && !p)
      | (s, .stop (.fault va wr)) => (match raiseFault s x.core w.pasid va wr with
        | (s, true) => modStream s x.id fun y => { y with faulted := some (va / 4096) }
        | (s, false) => s)
      | (s, .stop (.stop _)) => stopStream (dropReads s (.engine x.elemId)) x a (streamCause s w x a)
      | (s, .stop (.kill c _)) => killOrRoll s w c a
      | (s, .stop .roll) => if canRollback s w then startRollback s w.id else stopStream s x a 0x53
      | (s, .stop _) => s

def execStreamElementDelivery (id : Nat) (s : State) : Host.Outcome State Fault Refusal :=
  .next (match (s.streams.find? fun x => x.id == id).bind fun x => (getWg s x.wg).map fun w => (x, w) with
    | none => s
    | some (x, w) => deliverElem s w x)

end Sys2Proof.Machine
end

