-- ==== Sys2Proof/Machine/Matrix.lean ====
section
/-! DEFINITION. The matrix engine: configuration (R380 to R383), claims (R384, R385), matrix words (R386 to R392), the reed (R393 to R395),
MSTAT (R396), COPYM (R370), and the sums of R232, R233 and R240. -/

namespace Sys2Proof.Machine

/-! ## Configuration -/

def tileDim (c : Nat) : Nat := 16 * 2 ^ c

def Tcsb.wA (c : Tcsb) : Nat := ((efmtOf c.afmt).map EFmt.width).getD 0
def Tcsb.wB (c : Tcsb) : Nat := ((efmtOf c.bfmt).map EFmt.width).getD 0

/-- R381. -/
def tileBytes (rows k w : Nat) (scaled : Bool) : Nat := rows * k * w / 8 + if scaled then rows * k / 32 else 0

def roundUp4K (n : Nat) : Nat := (n + 4095) / 4096 * 4096

/-- none where R381 finds the block invalid. -/
def parseTcsb (l : List Byte) : Option Tcsb :=
  let m := field l 0 1
  let n := field l 1 1
  let k := field l 2 2
  let a := field l 4 1
  let b := field l 5 1
  let acc := field l 6 1
  let fl := field l 7 1
  let rec_ := leWord (slice 8 8 l)
  let scaled := bitAt fl 0
  let isInt := fun c => c == 9 || c == 10
  if 3 < m ∨ 3 < n ∨ 1 < acc ∨ 3 < fl ∨ k % 32 ≠ 0 ∨ k < 32 ∨ 4096 < k ∨ (efmtOf a).isNone ∨ (efmtOf b).isNone
      ∨ (acc = 1 ∧ !(isInt a && isInt b && !scaled)) ∨ (scaled && !(blockScaled a && blockScaled b)) ∨ (bitAt fl 1 ∧ acc = 0)
      ∨ (parseTRec rec_).isNone ∨ (l.drop 16).any (· != 0) then none
  else
    let c : Tcsb := { m := tileDim m, n := tileDim n, k := k, afmt := a, bfmt := b, int32 := acc == 1, blockScale := scaled, sat := bitAt fl 1, defrec := rec_, slotSize := 0 }
    let size := roundUp4K (Nat.max (tileBytes c.m k c.wA scaled) (tileBytes c.n k c.wB scaled))
    if Config.slotMaxBytes < size then none else some { c with slotSize := size }

/-! ## The reed -/

def warpIndex (s : State) (t : Tid) : Nat := ((getWarp s t.core t.slot).map (·.index)).getD 0

def hasReed (s : State) (w : Workgroup) (t : Tid) : Bool := w.mx.reed.holder == some (warpIndex s t)

def modReed (s : State) (id : Nat) (f : Reed → Reed) : State := modWg s id fun w => { w with mx := { w.mx with reed := f w.mx.reed } }

/-- A warp waits for the reed; a parked reed goes to the first waiting warp after its last holder (R393). -/
def askReed (s : State) (id i : Nat) : State :=
  let s := modReed s id fun r => { r with waiting := if r.waiting.contains i then r.waiting else r.waiting ++ [i] }
  match getWg s id with
  | none => s
  | some w => if w.mx.reed.holder.isNone then passReed s id else s

def execMtake (pg : Guard) (s : State) : Host.Outcome State Fault Refusal :=
  .next (perGroup s pg [] .zero 0 [] fun s w t _ _ =>
    if w.role == .drone || hasReed s w t.tid then (s, .retire)
    else
      let s := askReed s w.id (warpIndex s t.tid)
      if (getWg s w.id).any fun w => hasReed s w t.tid then (s, .retire) else (s, .wait .resource))

def execMpass (pg : Guard) (s : State) : Host.Outcome State Fault Refusal :=
  .next (perGroup s pg [] .zero 0 [] fun s w t _ _ =>
    if w.role == .drone then (s, .retire)
    else if !hasReed s w t.tid then (s, .trap { code := 0x93 })
    else (passReed s w.id, .retire))

/-- Parks the reed (R394). -/
def parkReed (s : State) (id : Nat) : State :=
  modReed s id fun r => { r with holder := none, last := r.holder.getD r.last, since := ((getWg s id).map (wgClock s)).getD s.now }

/-- MDROP parks the reed; a parked reed goes to a warp that waits (R393). -/
def dropReed (s : State) (id : Nat) : State :=
  let s := parkReed s id
  if ((getWg s id).any fun w => !w.mx.reed.waiting.isEmpty) then passReed s id else s

def execMdrop (pg : Guard) (s : State) : Host.Outcome State Fault Refusal :=
  .next (perGroup s pg [] .zero 0 [] fun s w t _ _ =>
    if w.role == .drone then (s, .retire)
    else if !hasReed s w t.tid then (s, .trap { code := 0x93 })
    else (dropReed s w.id, .retire))

/-! ## Order and occupancy of matrix operations -/

def EngineKind.isMatrix : EngineKind → Bool
  | .matrix _ => true
  | .copy _ _ _ _ f => f.isSome
  | _ => false

def EngineKind.toSlot : EngineKind → Bool
  | .copy (.slot ..) .. => true
  | _ => false

def matBusy (s : State) (id : Nat) : Bool :=
  s.engines.any (fun e => e.wg == id && e.kind.isMatrix) || s.compare.any fun c => c.wg == id && (match c.effect with
    | .engine e => e.kind.isMatrix
    | _ => false)

def slotBusy (s : State) (id : Nat) : Bool :=
  matBusy s id || s.engines.any (fun e => e.wg == id && e.kind.toSlot) || s.compare.any fun c => c.wg == id && (match c.effect with
    | .engine e => e.kind.toSlot
    | _ => false)

def execTcfg (pg : Guard) (a : Src) (s : State) : Host.Outcome State Fault Refusal :=
  .next (perGroup s pg [⟨a, 2, .int⟩] .zero 0 [0] fun s w t v _ =>
    let addr := (opv v 0).word
    if w.role == .drone then (s, .retire)
    else if !hasReed s w t.tid then (s, .trap { code := 0x93 })
    else match plainRead s w t addr 32 32 with
    | (s, .inr r) => groupOf (s, some r)
    | (s, .inl b) =>
      match parseTcsb b with
      | none => (s, .trap { code := 0x90, addr := addr })
      | some c =>
        if slotBusy s w.id then (s, .wait .resource)
        else
          let s := modWg s w.id fun w => { w with mx := { w.mx with cfg := some c, slots := 0, tiles := 0, slotMem := [], slotPoison := [], acc := [] } }
          (wakeCore s w.core, .retire))

/-! ## Claims (R384, R385) -/

/-- The storage factor 1 + k of a dual region. -/
def dualFactor (w : Workgroup) : Nat := 1 + w.rcb.tanK

def slotStore (w : Workgroup) : Nat := ((w.mx.cfg.map (·.slotSize)).getD 0) * dualFactor w

def declSlots (w : Workgroup) : Nat := if slotStore w = 0 then 0 else w.opUnits * 8192 / slotStore w

/-- Operand bytes and tiles of the pool that a workgroup holds. -/
def pooledBytes (w : Workgroup) : Nat := (w.mx.slots - declSlots w) * slotStore w
def pooledTiles (w : Workgroup) : Nat := w.mx.tiles - w.accs

/-- Workgroups whose operand storage is reserved on a core: every resident one but drones (R75). -/
def storeHolders (s : State) (core : Nat) : List Workgroup :=
  s.wgs.filter fun w => w.core == core && w.role != .drone && w.state != .killed && w.state != .ended

/-- A claim fits the declaration, or the pool in pooled mode. -/
def claimFits (s : State) (w : Workgroup) (a b : Nat) : Bool :=
  let hs := storeHolders s w.core
  let w' := { w with mx := { w.mx with slots := w.mx.slots + a, tiles := w.mx.tiles + b } }
  let sum := fun (f : Workgroup → Nat) => hs.foldl (fun n x => n + f (if x.id == w.id then w' else x)) 0
  if !w.pooled then true
  else decide (sum (fun x => x.opUnits * 8192) + sum pooledBytes ≤ Config.operandStore) && decide (sum (·.accs) + sum pooledTiles ≤ Config.accTiles)

def overDecl (w : Workgroup) (a b : Nat) : Bool := decide (declSlots w < w.mx.slots + a) || decide (w.accs < w.mx.tiles + b)

def grantClaim (s : State) (id a b : Nat) : State := modWg s id fun w => { w with mx := { w.mx with slots := w.mx.slots + a, tiles := w.mx.tiles + b } }

/-- Refuses claims while every holder of pooled storage on the core waits in one: the most recently placed of the waiting workgroups. -/
def refuseClaims : Nat → State → Nat → State
  | 0, s, _ => s
  | fuel + 1, s, core =>
    let cs := s.claims.filter fun c => c.core == core
    let holders := (storeHolders s core).filter fun w => decide (0 < pooledBytes w + pooledTiles w)
    if cs.isEmpty || !(holders.all fun w => cs.any fun c => c.wg == w.id) then s
    else match minBy (fun (c : Claim) => 2 ^ 64 - ((getWg s c.wg).map (·.placedAt)).getD 0) cs with
    | none => s
    | some v =>
      let s := { s with claims := s.claims.filter fun c => c != v }
      let s := deliverTraps s (((v.tids.head?).bind (getT s)).map (·.pc) |>.getD 0) false (v.tids.map fun t => (t, { code := 0x91 }))
      refuseClaims fuel s core

/-- The predicate of a claim in every lane, and for the drone. -/
def claimDone (s : State) (w : Workgroup) (t : Tid) (tids : List Tid) (pd : BitVec 3) (ok : Bool) : State × GroupRes :=
  let s := queueValue s w t (some [⟨BitVec.ofNat 32 ok.toNat, false, []⟩]) false false
  (tids.foldl (fun s t => modT s t fun x => setPred x pd.toNat ok) s, .retire)

def execOclaim (o : P2) (nb : Bool) (s : State) : Host.Outcome State Fault Refusal :=
  .next (perGroup s o.pg [⟨o.a, 1, .int⟩, ⟨o.b, 1, .int⟩] .zero 0 [] fun s w t v tids =>
    let a := (opv v 0).nat false
    let b := (opv v 1).nat false
    if w.role == .drone then
      match takeValue s w t.tid with
      | none => (s, .wait .resource)
      | some (s, ws, _) => (tids.foldl (fun s t => modT s t fun x => setPred x o.pd.toNat (ws.any fun f => f.val != 0)) s, .retire)
    else if valuesFull s w then (s, .wait .resource)
    else if w.mx.cfg.isNone then (s, .trap { code := 0x90 })
    else if !w.pooled && overDecl w a b then (s, .trap { code := 0x92 })
    else
      let mine := fun (c : Claim) => c.wg == w.id && c.tids.contains t.tid
      let ahead := (s.claims.takeWhile fun c => !mine c).any fun c => c.core == w.core
      let pooled := w.pooled && overDecl w a b
      if (a = 0 ∧ b = 0) ∨ !pooled ∨ (!ahead ∧ claimFits s w a b) then
        claimDone (grantClaim { s with claims := s.claims.filter fun c => !mine c } w.id a b) w t.tid tids o.pd true
      else if nb then claimDone s w t.tid tids o.pd false
      else
        let s := tids.foldl (fun s t => waitFor s t .resource) s
        let s := if s.claims.any mine then s else { s with claims := s.claims ++ [⟨w.core, w.id, tids, a, b⟩] }
        (refuseClaims (s.claims.length + 1) s w.core, .settled))

/-- Whether an operation uses a slot from `sl` on or a tile from `ti` on. -/
def opUses (sl ti : Nat) (k : EngineKind) : Bool :=
  let mat := fun (m : MatOp) => match m with
    | .mma _ a b c => decide (sl ≤ a) || decide (sl ≤ b) || decide (ti ≤ c)
    | .mxt a c => decide (sl ≤ a) || decide (ti ≤ c)
    | .mperm a _ c => decide (sl ≤ a) || decide (ti ≤ c)
    | .mrred a c => decide (sl ≤ a) || decide (ti ≤ c)
    | .accld _ _ t .. => decide (ti ≤ t)
    | .accst _ _ t .. => decide (ti ≤ t)
    | .accz t => decide (ti ≤ t)
  match k with
  | .copy (.slot n _) _ _ _ f => decide (sl ≤ n) || f.any mat
  | .copy _ _ _ _ f => f.any mat
  | .matrix m => mat m
  | _ => false

def usesPending (s : State) (id sl ti : Nat) : Bool :=
  s.engines.any (fun e => e.wg == id && opUses sl ti e.kind) || s.compare.any fun c => c.wg == id && (match c.effect with
    | .engine e => opUses sl ti e.kind
    | _ => false)

/-- Slots and tiles from these numbers on are free; a new claim of them starts zeroed. -/
def releaseSlots (s : State) (id sl ti : Nat) : State :=
  let keepS := fun (e : Host.Cell) => decide (e.1 / 2 ^ 20 % 2 ^ 12 < sl)
  let keepT := fun (e : Nat × W32) => decide (e.1 / 2 ^ 16 % 2 ^ 16 < ti)
  let cut := fun (m : Matrix) =>
    { m with slots := sl, tiles := ti, slotMem := m.slotMem.filter keepS, slotPoison := m.slotPoison.filter fun n => decide (n < sl), acc := m.acc.filter keepT }
  modWg s id fun w => { w with mx := cut w.mx }

def execOrel (pg : Guard) (a b : Src) (s : State) : Host.Outcome State Fault Refusal :=
  .next (perGroup s pg [⟨a, 1, .int⟩, ⟨b, 1, .int⟩] .zero 0 [] fun s w _ v _ =>
    let a := (opv v 0).nat false
    let b := (opv v 1).nat false
    if w.role == .drone then (s, .retire)
    else if w.mx.cfg.isNone then (s, .trap { code := 0x90 })
    else if w.mx.slots < a ∨ w.mx.tiles < b then (s, .trap { code := 0x95 })
    else if usesPending s w.id (w.mx.slots - a) (w.mx.tiles - b) then (s, .wait .resource)
    else (wakeCore (releaseSlots s w.id (w.mx.slots - a) (w.mx.tiles - b)) w.core, .retire))

/-! ## Issue of matrix words -/

/-- Causes of an operation's slots, tiles and shape. -/
def matCauses (w : Workgroup) (m : MatOp) : List Cause :=
  match w.mx.cfg with
  | none => [{ code := 0x90 }]
  | some c =>
    let slot := fun (n : Nat) => if n < w.mx.slots then [] else [({ code := 0x95 } : Cause)]
    let tile := fun (n : Nat) => if n < w.mx.tiles then [] else [({ code := 0x95 } : Cause)]
    let shape := fun (ok : Bool) => if ok then [] else [({ code := 0x90 } : Cause)]
    match m with
    | .mma _ a b t => slot a ++ slot b ++ tile t
    | .mxt a t => slot a ++ tile t ++ shape (c.m == c.n && c.n == c.k)
    | .mperm a v t => slot a ++ tile t ++ shape (c.k == c.n) ++ (if scratchBad w v ⟨1, c.m, c.m, c.m⟩ c.m then [{ code := 0x31, addr := BitVec.ofNat 64 v }] else [])
    | .mrred a t => slot a ++ tile t
    | .accld _ _ t .. => tile t
    | .accst _ _ t .. => tile t
    | .accz t => tile t

def reedCause (s : State) (w : Workgroup) (t : Tid) : List Cause := if hasReed s w t then [] else [{ code := 0x93 }]

/-- The token of a per-group word goes PENDING in every active lane. -/
def pendAll (s : State) (w : Workgroup) (tids : List Tid) (d : Dst) : State :=
  tids.foldl (fun s t => touchRegs (modT s t fun x => pendDst x d 2) w t (dstRegs d 2)) s

/-- Starts a matrix operation for the group, after its causes and waits. -/
def startMatrix (s : State) (w : Workgroup) (t : Thread) (tids : List Tid) (d : Dst) (m : MatOp) (extra : List Cause) (sc : Option Scope) (g : Sig) :
    State × GroupRes :=
  let go := fun (s : State) => match startOp s w t tids d g (.matrix m) with
    | (s, some z) => groupOf (s, some z)
    | (s, none) => (pendAll s w tids d, .retire)
  if w.role == .drone then go s
  else match lowest (reedCause s w t.tid ++ matCauses w m ++ extra) with
  | some c => (s, .trap c)
  | none =>
    if opsFull s t.tid.core then (s, .wait .resource)
    else if sc.any fun x => releasePending s t.tid x then (s, .wait .release)
    else go s

def sig3 (v : List Opv) (code : Nat) : Sig := ⟨BitVec.ofNat 64 ((opv v 0).nat false), code, (opv v 1).nat false + 2 ^ 32 * (opv v 2).nat false⟩

def slotSrcs (l : List Src) : List SrcSpec := l.map fun x => ⟨x, 1, .int⟩

def execMma (o : A3) (s : State) : Host.Outcome State Fault Refusal :=
  .next (perGroup s o.pg (slotSrcs [o.a, o.b, o.c]) o.d 2 [] fun s w t v tids =>
    startMatrix s w t tids o.d (.mma false ((opv v 0).nat false) ((opv v 1).nat false) ((opv v 2).nat false)) [] none (sig3 v 0xB3))

def execMmaz (o : A3) (s : State) : Host.Outcome State Fault Refusal :=
  .next (perGroup s o.pg (slotSrcs [o.a, o.b, o.c]) o.d 2 [] fun s w t v tids =>
    startMatrix s w t tids o.d (.mma true ((opv v 0).nat false) ((opv v 1).nat false) ((opv v 2).nat false)) [] none (sig3 v 0xB4))

def execMxt (pg : Guard) (d : Dst) (a c : Src) (s : State) : Host.Outcome State Fault Refusal :=
  .next (perGroup s pg (slotSrcs [a, c]) d 2 [] fun s w t v tids =>
    startMatrix s w t tids d (.mxt ((opv v 0).nat false) ((opv v 1).nat false)) [] none (sig3 v 0xB5))

def execMperm (o : A3) (s : State) : Host.Outcome State Fault Refusal :=
  .next (perGroup s o.pg (slotSrcs [o.a, o.b, o.c]) o.d 2 [1] fun s w t v tids =>
    startMatrix s w t tids o.d (.mperm ((opv v 0).nat false) ((opv v 1).nat false) ((opv v 2).nat false)) [] none (sig3 v 0xB6))

def execMrred (pg : Guard) (d : Dst) (a c : Src) (s : State) : Host.Outcome State Fault Refusal :=
  .next (perGroup s pg (slotSrcs [a, c]) d 2 [] fun s w t v tids =>
    startMatrix s w t tids d (.mrred ((opv v 0).nat false) ((opv v 1).nat false)) [] none (sig3 v 0xB7))

def execAccz (o : A1) (s : State) : Host.Outcome State Fault Refusal :=
  .next (perGroup s o.pg (slotSrcs [o.a]) o.d 2 [] fun s w t v tids =>
    startMatrix s w t tids o.d (.accz ((opv v 0).nat false)) [] none (sig3 v 0xBA))

/-- Bits of an element of ACCLD or ACCST. -/
def accWidth (raw : Bool) (r : Word) : Nat := if raw then 32 else (((parseTRec r).bind fun t => efmtOf t.fmt).map EFmt.width).getD 0

/-- Causes of ACCLD and ACCST beyond the tile (R389). -/
def accCauses (s : State) (w : Workgroup) (t : Thread) (load scr raw : Bool) (addr rec_ : Word) : State × List Cause × Option LaneRes :=
  match w.mx.cfg with
  | none => (s, [], none)
  | some c =>
    let align : List Cause := if addr.toNat % 64 ≠ 0 then [{ code := 0x30, addr := addr }] else []
    let recC : List Cause := if raw then [] else match parseTRec rec_ with
      | none => [{ code := 0x20 }]
      | some r => if load && c.int32 && !(r.fmt == 9 || r.fmt == 10) then [{ code := 0x22 }] else []
    let bytes := (c.m * c.n * accWidth raw rec_ + 7) / 8
    if scr then
      (s, align ++ recC ++ (if scratchBad w addr.toNat ⟨1, bytes, bytes, bytes⟩ bytes then [{ code := 0x31, addr := addr }] else []), none)
    else
      let (s, c1, r1) := firstByte s w t (some addr) (!load)
      (s, align ++ recC ++ c1, r1)

/-- The operands of ACCLD and ACCST: address, tile, and the record unless it is the configuration's (R389). -/
def accSrcs (o : AccOp) : List SrcSpec := [⟨o.a, if o.s then 1 else 2, .int⟩, ⟨o.tile, 1, .int⟩] ++ (match o.c with
  | some c => [⟨c, 2, .int⟩]
  | none => [])

/-- Its first operand: a scratch address, or a global one. -/
def accAddr (o : AccOp) (v : List Opv) : Word := if o.s then BitVec.ofNat 64 ((opv v 0).nat false) else (opv v 0).word

/-- The tile record: the third operand, or that of the configuration (R389). -/
def accRec (o : AccOp) (w : Workgroup) (v : List Opv) : Word := match o.c with
  | some _ => (opv v 2).word
  | none => (w.mx.cfg.map (·.defrec)).getD 0

/-- The operation that the word starts. -/
def accKind (o : AccOp) (load : Bool) (w : Workgroup) (v : List Opv) : MatOp :=
  if load then .accld (accAddr o v) o.s ((opv v 1).nat false) (accRec o w v) o.raw o.scope
  else .accst (accAddr o v) o.s ((opv v 1).nat false) (accRec o w v) o.raw o.scope

def accWord (o : AccOp) (load : Bool) (s : State) : State :=
  perGroup s o.pg (accSrcs o) o.d 2 [0] fun s w t v tids =>
    let m := accKind o load w v
    let g : Sig := ⟨accAddr o v, if load then 0xB8 else 0xB9, (opv v 1).nat false + 2 ^ 32 * (match o.c with | some _ => (accRec o w v).toNat | none => 0)⟩
    if w.role == .drone then startMatrix s w t tids o.d m [] none g
    else match accCauses s w t load o.s o.raw (accAddr o v) (accRec o w v) with
    | (s, cs, r) =>
      match r, lowest (reedCause s w t.tid ++ matCauses w m ++ cs) with
      | some z, none => groupOf (s, some z)
      | _, _ => startMatrix s w t tids o.d m cs (some o.scope) g

def execAccld (o : AccOp) (s : State) : Host.Outcome State Fault Refusal := .next (accWord o true s)
def execAccst (o : AccOp) (s : State) : Host.Outcome State Fault Refusal := .next (accWord o false s)

/-! ## COPYM (R370) -/

def intOf (x : Src) : Option Nat :=
  match x.op with
  | .int n => some n.toNat
  | _ => none

def alwaysGuard (g : Guard) : Bool := !g.neg && g.p == 7

/-- The matrix operation of a follow-on word; none where R370 refuses it. -/
def followOp (i : Instr) : Option MatOp :=
  match i with
  | .mma o => if alwaysGuard o.pg then (match intOf o.a, intOf o.b, intOf o.c with | some a, some b, some c => some (.mma false a b c) | _, _, _ => none) else none
  | .mmaz o => if alwaysGuard o.pg then (match intOf o.a, intOf o.b, intOf o.c with | some a, some b, some c => some (.mma true a b c) | _, _, _ => none) else none
  | .mxt pg _ a c => if alwaysGuard pg then (match intOf a, intOf c with | some a, some c => some (.mxt a c) | _, _ => none) else none
  | .mperm o => if alwaysGuard o.pg then (match intOf o.a, intOf o.b, intOf o.c with | some a, some b, some c => some (.mperm a b c) | _, _, _ => none) else none
  | .mrred pg _ a c => if alwaysGuard pg then (match intOf a, intOf c with | some a, some c => some (.mrred a c) | _, _ => none) else none
  | .accz o => if alwaysGuard o.pg then (intOf o.a).map .accz else none
  | _ => none

def execCopym (c : CopyOp) (s : State) : Host.Outcome State Fault Refusal :=
  .next (perGroup s c.pg (copySrcs c 1) c.d 2 [0, 1] fun s w t v tids =>
    match s.cur.follow.bind followOp with
    | none => (s, .trap { code := 0x01 })
    | some f =>
      let r := copyRows (opv v 2)
      let g : Sig := ⟨(opv v 0).word, wordsNat (opv v 2).words, (opv v 1).word.toNat⟩
      let go := fun (s : State) (kind : EngineKind) => match startOp s w t tids c.d g kind with
        | (s, some z) => groupOf (s, some z)
        | (s, none) => (pendAll s w tids c.d, .retire)
      if w.role == .drone then go s (.copy (.scratch 0) (.scratch 0) r.1 c.scope (some f))
      else match resolveBoth s w t c (opv v 0) (opv v 1) r.1 (lengthCause r.2 ++ reedCause s w t.tid ++ matCauses w f) with
      | (s, .inr z) => groupOf (s, some z)
      | (s, .inl (a, b)) =>
        if opsFull s t.tid.core then (s, .wait .resource)
        else if releasePending s t.tid c.scope then (s, .wait .release)
        else go s (.copy a b r.1 c.scope (some f)))

/-! ## MSTAT (R396) -/

def mstatWord (s : State) (w : Workgroup) (t : Tid) : W32 :=
  let parked := w.mx.reed.holder.isNone
  BitVec.ofNat 32 (((w.mx.cfg.map (·.slotSize)).getD 0) / 4096 * 2 ^ 24 + w.mx.slots % 256 * 2 ^ 16 + w.mx.tiles % 16 * 2 ^ 12
    + w.mx.reed.holder.getD 0 % 16 * 2 ^ 8 + (hasReed s w t).toNat * 128 + (matBusy s w.id).toNat * 64 + parked.toNat * 32)

def execMstat (pg : Guard) (d : Dst) (s : State) : Host.Outcome State Fault Refusal :=
  .next (perGroup s pg [] d 1 [] fun s w t _ tids =>
    if w.role == .drone then
      match takeValue s w t.tid with
      | none => (s, .wait .resource)
      | some (s, ws, _) => (writeAll s w tids d (ws.map (·.val)), .retire)
    else if valuesFull s w then (s, .wait .resource)
    else
      let x := mstatWord s w t.tid
      (writeAll (queueValue s w t.tid (some [⟨x, false, []⟩]) false false) w tids d [x], .retire))

/-! ## Performing matrix operations -/

/-- Element `e` of `w` bits in bytes that start at `key`. -/
def packedElem (mem : List Host.Cell) (key w e : Nat) : Nat :=
  let b := e * w
  leNat (getCells (key + b / 8) ((b % 8 + w + 7) / 8) mem) / 2 ^ (b % 8) % 2 ^ w

/-- Element (row, k) of a slot, with its block scale (R383). -/
def slotElem (c : Tcsb) (mem : List Host.Cell) (comp slot fmt rows row k : Nat) : Num :=
  match efmtOf fmt with
  | none => .nan false
  | some f =>
    let x := packedElem mem (slotKey comp slot 0) f.width (row * c.k + k)
    if c.blockScale then
      decodeScaled f (getCell (slotKey comp slot (rows * c.k * f.width / 8 + row * (c.k / 32) + k / 32)) mem).toNat x
    else f.decode x

def intElem (c : Tcsb) (mem : List Host.Cell) (comp slot fmt row k : Nat) : Int :=
  match efmtOf fmt with
  | some (.int w) => sval w (packedElem mem (slotKey comp slot 0) w (row * c.k + k))
  | _ => 0

/-- The sum of one chunk of products (R232). -/
def chunkSum (ps : List Num) : Num :=
  let infP := ps.any fun p => match p with | .inf false => true | _ => false
  let infN := ps.any fun p => match p with | .inf true => true | _ => false
  if ps.any Num.isNan || (infP && infN) then .nan false
  else if infP then .inf false
  else if infN then .inf true
  else if ps.all Num.isZero then .fin (ps.all Num.sign) 0 1
  else
    let logs := ps.filterMap fun p => match p with
      | .fin _ n d => if n = 0 then none else some (floorLog2 n d)
      | _ => none
    let e := logs.foldl (fun a b => if a < b then b else a) (logs.headD 0) - 48
    let q := pow2 e
    let total : Int := ps.foldl (fun acc p => match p with
      | .fin b n d => acc + sgn b (n * q.2 / (d * q.1))
      | _ => acc) 0
    Fmt.b32.decode (Fmt.b32.round .rn (Num.scale (Num.ofInt total 1 false) e)).bits

/-- acc + s, rounded to FP32; a NaN is canonical. -/
def addAcc (acc : W32) (s : Num) : W32 := BitVec.ofNat 32 (Fmt.b32.round .rn (Num.add false (Fmt.b32.decode acc.toNat) s)).bits

/-- Adds the products of one output element, chunk by chunk. -/
def mmaFloat (k : Nat) (prod : Nat → Num) (acc : W32) : W32 :=
  (List.range ((k + 31) / 32)).foldl (fun a c => addAcc a (chunkSum ((List.range (Nat.min 32 (k - 32 * c))).map fun i => prod (32 * c + i)))) acc

def satInt32 (x : Int) : Int := if x < -2147483648 then -2147483648 else if 2147483647 < x then 2147483647 else x

/-- R233. -/
def mmaInt (sat : Bool) (k : Nat) (prod : Nat → Int) (acc : W32) : W32 :=
  (List.range ((k + 31) / 32)).foldl (fun (a : W32) c =>
    let t := a.toInt + (List.range (Nat.min 32 (k - 32 * c))).foldl (fun x i => x + prod (32 * c + i)) 0
    BitVec.ofInt 32 (if sat then satInt32 t else t)) acc

def accKey (comp tile : Nat) (n i j : Nat) : Nat := comp * 2 ^ 32 + tile * 2 ^ 16 + i * n + j

/-- A matrix operand: its element at (row, k), as a number and as an integer, of a component. -/
structure MatOperand where
  num : Nat → Nat → Nat → Num
  int : Nat → Nat → Nat → Int

def slotOperand (c : Tcsb) (mem : List Host.Cell) (slot fmt rows : Nat) : MatOperand :=
  ⟨fun comp r k => slotElem c mem comp slot fmt rows r k, fun comp r k => intElem c mem comp slot fmt r k⟩

def constOperand (f : Nat → Nat → Bool) : MatOperand :=
  ⟨fun comp r k => if comp = 0 ∧ f r k then .fin false 1 1 else .fin false 0 1, fun comp r k => if comp = 0 ∧ f r k then 1 else 0⟩

/-- A and B (B by column) of an operation, and its depth; `perm` is the vector of an MPERM. -/
def matOperands (w : Workgroup) (c : Tcsb) (m : MatOp) (perm : List Byte) : Option (MatOperand × MatOperand × Nat × Bool × Bool × Nat) :=
  let mem := w.mx.slotMem
  match m with
  | .mma z a b t => some (slotOperand c mem a c.afmt c.m, slotOperand c mem b c.bfmt c.n, c.k, z, false, t)
  | .mxt a t =>
    let x := slotOperand c mem a c.afmt c.m
    some (constOperand (fun r k => r == k), ⟨fun p j k => x.num p j k, fun p j k => x.int p j k⟩, c.k, false, true, t)
  | .mperm a _ t =>
    let x := slotOperand c mem a c.afmt c.m
    some (constOperand (fun i k => ((perm.getD i 0).toNat == k)), ⟨fun p j k => x.num p k j, fun p j k => x.int p k j⟩, c.m, false, true, t)
  | .mrred a t => some (slotOperand c mem a c.afmt c.m, constOperand (fun _ _ => true), c.k, false, false, t)
  | _ => none

/-- The accumulators after an operation: the primal, then each tangent component (R240, R392). -/
def mmaAcc (w : Workgroup) (c : Tcsb) (m : MatOp) (perm : List Byte) : List (Nat × W32) :=
  match matOperands w c m perm with
  | none => w.mx.acc
  | some (a, b, k, z, _, t) =>
    let cells := (List.range c.m).flatMap fun i => (List.range c.n).map fun j => (i, j)
    let old := fun comp i j => if z then 0 else kget (0 : W32) (accKey comp t c.n i j) w.mx.acc
    let zero := fun (acc : List (Nat × W32)) key (v : W32) => if v = 0 then kdel key acc else kset key v acc
    let prim := cells.foldl (fun acc e =>
      zero acc (accKey 0 t c.n e.1 e.2) (if c.int32 then mmaInt c.sat k (fun x => a.int 0 e.1 x * b.int 0 e.2 x) (old 0 e.1 e.2)
        else mmaFloat k (fun x => Num.mul (a.num 0 e.1 x) (b.num 0 e.2 x)) (old 0 e.1 e.2))) w.mx.acc
    (slotComps w).foldl (fun acc comp => cells.foldl (fun acc e =>
      let o := old comp e.1 e.2
      let r := if c.int32 then mmaInt c.sat k (fun x => a.int 0 e.1 x * b.int comp e.2 x) (mmaInt c.sat k (fun x => a.int comp e.1 x * b.int 0 e.2 x) o)
        else mmaFloat k (fun x => Num.mul (a.num 0 e.1 x) (b.num comp e.2 x)) (mmaFloat k (fun x => Num.mul (a.num comp e.1 x) (b.num 0 e.2 x)) o)
      zero acc (accKey comp t c.n e.1 e.2) r) acc) prim

/-- The slots an operation reads. -/
def MatOp.reads : MatOp → List Nat
  | .mma _ a b _ => [a, b]
  | .mxt a _ => [a]
  | .mperm a _ _ => [a]
  | .mrred a _ => [a]
  | _ => []

def setAcc (s : State) (id : Nat) (acc : List (Nat × W32)) : State := modWg s id fun w => { w with mx := { w.mx with acc := acc } }

/-- The block at an address is a SELF block whose descriptor names no format (R129, R222). -/
def selfBad (s : State) (w : Workgroup) (op : EngineOp) (va : Word) : Bool :=
  match (engineXlate s w op va true false).2 with
  | .inl (l, pa) => l.layout == 12 && (match hbmOf s pa with
    | some a => (efmtOf ((readBlk s (a / 64) 12 l.key).desc.toNat % 256)).isNone
    | none => false)
  | .inr _ => false

/-- Reads all bytes of a tile's image; the flag says that POISON reached it. A conversion (`conv`) consumes the descriptor of each SELF block that it reads (R129; assumption log 79). -/
def readTile (conv sh : Bool) : Nat → State → Workgroup → EngineOp → Bool → Word → Nat → State × (List Byte × Bool ⊕ EStep)
  | 0, s, _, _, _, _, _ => (s, .inl ([], false))
  | fuel + 1, s, w, op, scr, a, n =>
    if n = 0 then (s, .inl ([], false))
    else
      let k := Nat.min n (64 - a.toNat % 64)
      match if scr then readSide s w op (.scratch 0) a k else readGlobal s w op a k sh with
      | (s, .stop e) => (s, .inr e)
      | (s, .data b p bad k) =>
        let s := modOp s op.id fun o => { o with affected := addBlocks o.affected bad }
        if conv && !scr && selfBad s w op a then (s, .inr (.stop stDesc))
        else match readTile conv sh fuel s w op scr (a + BitVec.ofNat 64 k) (n - k) with
        | (s, .inl (r, q)) => (s, .inl (b ++ r, p || q))
        | x => x

/-- Writes the bytes of a tile's image: how many, and what stops it. -/
def writeTile (sh : Bool) : Nat → State → Workgroup → EngineOp → Bool → Word → List Byte → State × Nat × Option EStep
  | 0, s, _, _, _, _, _ => (s, 0, none)
  | fuel + 1, s, w, op, scr, a, b =>
    if b.isEmpty then (s, 0, none)
    else
      let k := Nat.min b.length (64 - a.toNat % 64)
      let one := if scr then (padWriteRange s w.id a.toNat (b.take k) false false, EStep.moved k) else writeGlobal s w op a (b.take k) false sh
      match one with
      | (s, .moved k) => (match writeTile sh fuel s w op scr (a + BitVec.ofNat 64 k) (b.drop k) with
        | (s, n, e) => (s, n + k, e))
      | (s, e) => (s, 0, some e)

/-- An element that ACCLD brings into the accumulator. -/
def accIn (c : Tcsb) (raw : Bool) (r : Word) (x : Nat) : W32 :=
  if raw then BitVec.ofNat 32 x
  else match parseTRec r with
  | none => 0
  | some t => match efmtOf t.fmt with
    | none => 0
    | some f =>
      if c.int32 then (match f with
        | .int w => BitVec.ofInt 32 (sval w x)
        | _ => 0)
      else BitVec.ofNat 32 (Fmt.b32.round .rn (decodeScaled f t.scale x)).bits

/-- An element that ACCST writes; stochastic rounding takes a free value (R225 names the thread's state only). -/
def accOut (s : State) (c : Tcsb) (raw : Bool) (r : Word) (x : W32) : State × Nat :=
  if raw then (s, x.toNat)
  else match parseTRec r with
  | none => (s, 0)
  | some t => match efmtOf t.fmt with
    | none => (s, 0)
    | some f =>
      let v := if c.int32 then Num.ofInt x.toInt 1 false else Fmt.b32.decode x.toNat
      if t.rnd == .rs then
        let (s, z) := freeValue s
        (s, (convertRec f t ⟨.rs, z.toNat % 65536⟩ v).bits)
      else (s, (convertRec f t ⟨t.rnd, 0⟩ v).bits)

/-- Whether ACCLD or ACCST moves tangents too: on a global page with TP set (R392, R239). -/
def tileShadow (s : State) (w : Workgroup) (op : EngineOp) (scr : Bool) (a : Word) (wr : Bool) : State × Bool :=
  if scr then (s, false)
  else match engineXlate s w op a (!wr) wr with
  | (s, .inl (l, _)) => (s, l.tp)
  | (s, .inr _) => (s, false)

/-- Loads one component of a tile; the flag says that POISON reached it, and nothing is written (R390). -/
def accldComp (s : State) (w : Workgroup) (op : EngineOp) (c : Tcsb) (comp : Nat) (a : Word) (scr : Bool) (tile : Nat) (r : Word) (raw : Bool) :
    State × (Bool ⊕ EStep) :=
  let wd := accWidth raw r
  let bytes := (c.m * c.n * wd + 7) / 8
  match readTile (!raw) (comp != 0) (bytes + 1) s w op scr a bytes with
  | (s, .inr e) => (s, .inr e)
  | (s, .inl (_, true)) => (s, .inl true)
  | (s, .inl (b, false)) =>
    let mem := cellsAt 0 b
    let acc := ((getWg s w.id).getD w).mx.acc
    let acc := (List.range (c.m * c.n)).foldl (fun acc e =>
      let v := accIn c raw r (packedElem mem 0 wd e)
      if v = 0 then kdel (accKey comp tile c.n 0 e) acc else kset (accKey comp tile c.n 0 e) v acc) acc
    (setAcc s w.id acc, .inl false)

/-- The bytes of an element list of `w` bits each, packed. -/
def packBytes (w : Nat) (l : List Nat) : List Byte :=
  let x := l.foldr (fun v acc => v % 2 ^ w + 2 ^ w * acc) 0
  leBytes ((l.length * w + 7) / 8) x

def accstComp (s : State) (w : Workgroup) (op : EngineOp) (c : Tcsb) (comp : Nat) (a : Word) (scr : Bool) (tile : Nat) (r : Word) (raw : Bool) :
    State × Nat × Option EStep :=
  let acc := w.mx.acc
  let (s, vs) := (List.range (c.m * c.n)).foldl (fun (p : State × List Nat) e =>
    let (s, v) := accOut p.1 c raw r (kget 0 (accKey comp tile c.n 0 e) acc)
    (s, p.2 ++ [v])) (s, [])
  let b := packBytes (accWidth raw r) vs
  writeTile (comp != 0) (b.length + 1) s w op scr a b

/-- How an operation ends: a status, the bytes moved, and POISON consumed; or what it waits for or stops on, with the bytes moved. -/
inductive MatEnd where
  | ended (status moved : Nat) (poison : Bool)
  | step (e : EStep) (moved : Nat)

/-- ACCLD: the tile, then its tangents (R389, R392). -/
def accldRun (s : State) (w : Workgroup) (op : EngineOp) (c : Tcsb) (a : Word) (scr : Bool) (t : Nat) (r : Word) (raw : Bool) : State × MatEnd :=
  match accldComp s w op c 0 a scr t r raw with
  | (s, .inr e) => (s, .step e 0)
  | (s, .inl true) => (s, .ended 7 0 true)
  | (s, .inl false) =>
    let (s, tp) := tileShadow s w op scr a false
    let keep := fun (e : Nat × W32) => !(e.1 / 2 ^ 16 % 2 ^ 16 == t && e.1 / 2 ^ 32 != 0)
    let s := setAcc s w.id (((getWg s w.id).getD w).mx.acc.filter keep)
    (if tp then slotComps w else []).foldl (fun (p : State × MatEnd) j => match p with
      | (s, .ended 0 mv _) => (match accldComp s ((getWg s w.id).getD w) op c j (a + w.rcb.tanOff.getD (j - 1) 0) false t r raw with
        | (s, .inr e) => (s, .step e mv)
        | (s, .inl true) => (s, .ended 7 0 true)
        | (s, .inl false) => (s, .ended 0 mv false))
      | x => x) (s, .ended 0 (c.m * c.n * 4) false)

/-- ACCST: the tile, then its tangents (R389, R392). -/
def accstRun (s : State) (w : Workgroup) (op : EngineOp) (c : Tcsb) (a : Word) (scr : Bool) (t : Nat) (r : Word) (raw : Bool) : State × MatEnd :=
  match accstComp s w op c 0 a scr t r raw with
  | (s, n, some e) => (s, .step e n)
  | (s, n, none) =>
    let (s, tp) := tileShadow s w op scr a true
    (if tp then slotComps w else []).foldl (fun (p : State × MatEnd) j => match p with
      | (s, .ended 0 mv _) => (match accstComp s w op c j (a + w.rcb.tanOff.getD (j - 1) 0) false t r raw with
        | (s, _, some e) => (s, .step e mv)
        | (s, _, none) => (s, .ended 0 mv false))
      | x => x) (s, .ended 0 n false)

/-- The permutation vector that MPERM reads, under the policy for its blocks (R134); other operations read none. -/
def permVector (s : State) (w : Workgroup) (op : EngineOp) (c : Tcsb) (m : MatOp) : State × (List Byte × Bool ⊕ EStep) :=
  match m with
  | .mperm _ v _ => readTile false false (c.m + 1) s w op true (BitVec.ofNat 64 v) c.m
  | _ => (s, .inl ([], false))

/-- Performs a matrix operation. -/
def matrixRun (s : State) (w : Workgroup) (op : EngineOp) (m : MatOp) : State × MatEnd :=
  match w.mx.cfg with
  | none => (s, .ended 0 0 false)
  | some c =>
    let full := c.m * c.n * 4
    match m with
    | .accz t =>
      let keep := fun (e : Nat × W32) => e.1 / 2 ^ 16 % 2 ^ 16 != t
      (setAcc s w.id (w.mx.acc.filter keep), .ended 0 full false)
    | .accld a scr t r raw _ => accldRun s w op c a scr t r raw
    | .accst a scr t r raw _ => accstRun s w op c a scr t r raw
    | m =>
      match permVector s w op c m with
      | (s, .inr e) => (s, .step e 0)
      | (s, .inl (v, p)) =>
        if p || m.reads.any fun n => w.mx.slotPoison.contains n then (s, .ended 7 0 true)
        else (setAcc s w.id (mmaAcc w c m v), .ended 0 full false)

end Sys2Proof.Machine
end

