-- ==== Sys2Proof/Machine/Launches.lean ====
section
/-! DEFINITION. Regions and launches: control blocks and their commits (R39, R65 to R73), launch records and task kinds (R74 to R76, R93), dependencies (R80, R81). -/

namespace Sys2Proof.Machine

/-! ## Region control blocks (R67, R69) -/

/-- The fields of an image, and whether it is live. -/
def rcbOf (l : List Byte) : Rcb × Bool :=
  let f := field l 39 1
  ({ parent := leWord (slice 0 8 l), inherit_ := BitVec.ofNat 32 (field l 8 4), quota := BitVec.ofNat 32 (field l 16 4), maxCores := field l 20 2,
     maxOp := field l 22 2, ringBase := leWord (slice 24 8 l), ringBytes := field l 32 4, cls := field l 36 1, weight := field l 37 1,
     sev := BitVec.ofNat 8 (field l 38 1), rollback := bitAt f 0, killScope := bits f 2 1, idem := bitAt f 3, race := bitAt f 4, redund := bits f 6 5,
     inject := bitAt f 7, tanK := field l 40 1, wd := field l 41 1, trapVec := leWord (slice 48 8 l), saveBase := leWord (slice 56 8 l),
     saveBytes := leWord (slice 64 8 l), tanOff := (List.range 4).map fun i => leWord (slice (72 + 8 * i) 8 l), colourTable := leWord (slice 104 8 l),
     bufTable := leWord (slice 112 8 l), bufSlots := field l 120 4 }, field l 12 1 == 1)

/-- The layout's zeros and ranges. -/
def rcbLayoutOk (l : List Byte) : Bool :=
  let r := (rcbOf l).1
  l.length == 256 && field l 12 1 ≤ 1 && field l 13 3 == 0 && field l 42 6 == 0 && (l.drop 124).all (· == 0)
    && r.inherit_.toNat < 2 ^ 18 && r.maxCores ≤ 1600 && r.cls ≤ 3 && r.weight != 0 && r.redund != 3 && r.tanK ≤ 4
    && (r.wd == 0 || (decide (16 ≤ r.wd) && decide (r.wd ≤ 32))) && r.trapVec.toNat % 8 == 0
    && r.saveBase.toNat % 4096 == 0 && r.saveBytes.toNat % 4096 == 0 && r.ringBase.toNat % 4096 == 0 && r.ringBytes % 4096 == 0
    && r.colourTable.toNat % 4096 == 0 && r.bufTable.toNat % 4096 == 0 && decide (r.bufSlots ≤ 2 ^ 20)
    && r.tanOff.all fun x => x.toNat % 64 == 0

/-- R69's rules of the inheritance mask. -/
def rcbMaskOk (r : Rcb) : Bool :=
  if r.parent == 0 then r.inherit_.toNat == 2 ^ 18 - 1 else bits r.inherit_.toNat 17 16 == 0

/-- The page of an address is PL1-only. -/
def pl1Only (s : State) (pasid : Nat) (va : Word) : Bool :=
  match (walk s pasid va.toNat).2 with
  | .leaf l _ => l.pl1
  | _ => false

/-- R70, against the effective values of the parent. -/
def rcbChecks (s : State) (pasid : Nat) (r : Rcb) : Bool :=
  let own := fun i => r.inherit_.getLsbD i
  let p := effective s pasid r.parent
  (r.parent == 0 || ((!own 4 || decide (r.cls ≤ p.cls)) && (!own 0 || decide (r.quota.toNat ≤ p.quota.toNat))
      && (!own 1 || decide (r.maxCores ≤ p.maxCores)) && (!own 2 || decide (r.maxOp ≤ p.maxOp))))
    && (!own 10 || ((r.trapVec == 0 || pl1Only s pasid r.trapVec)
      && (List.range (r.saveBytes.toNat / 4096)).all fun i => pl1Only s pasid (r.saveBase + BitVec.ofNat 64 (4096 * i))))
    && (!own 11 || (r.tanOff.take r.tanK).all fun x => x != 0)

/-- Every leaf that the tables below a table map, from a level down. -/
def leavesFrom (s : State) : Nat → Nat → List Leaf
  | level, table =>
    (List.range (if level = 5 then 32 else 256)).flatMap fun i =>
      match hbmOf s (table + 16 * i) with
      | none => []
      | some a =>
        let r := (readHbm s a 16 0 0).2
        let x := leNat r.bytes
        if r.sev.isSome || !bitAt x 0 then []
        else if bitAt x 1 then (parseLeaf s level x).toList
        else match level with
          | 0 => []
          | n + 1 => (match parsePointer s (n + 1) x with
            | none => []
            | some t => leavesFrom s n t)

/-- The ranges of die-local names that a leaf maps: 4 KiB pieces of a striped page have names of their own. -/
def leafNames (s : State) (l : Leaf) : List Nat :=
  (List.range (2 ^ levelShift l.level / 4096)).filterMap fun i => hbmOf s (l.pa + 4096 * i)

def ctxLeaves (s : State) (root : Option Nat) : List Leaf := match root with
  | none => []
  | some r => leavesFrom s 5 r

/-- R39's checks of the pages that a context maps through `root`. -/
def pagesOk (s : State) (pasid : Nat) (root : Option Nat) : Bool :=
  let ls := ctxLeaves s root
  let conf := (getCtx s pasid).any (·.confidential)
  let key := ((getCtx s pasid).map (·.key)).getD 0
  ls.all (fun l => (leafNames s l).all fun a => !inCarveOut a)
    && (!conf || ls.all fun l => l.key == key)
    && s.contexts.all fun c => c.pasid == pasid || !(conf || c.confidential)
      || (ctxLeaves s c.root).all fun l => (leafNames s l).all fun a => !(ls.any fun m => (leafNames s m).contains a)

/-- The fields whose changes wait for the next window (R73). -/
def keepBudget (old new : Rcb) : Rcb :=
  let m : W32 := 0x37
  { new with quota := old.quota, maxCores := old.maxCores, maxOp := old.maxOp, cls := old.cls, weight := old.weight,
             inherit_ := (new.inherit_ &&& ~~~m) ||| (old.inherit_ &&& m) }

/-- A node can be retired (R66). -/
def retirable (s : State) (pasid : Nat) (addr : Word) : Bool :=
  !(s.regions.any fun r => r.pasid == pasid && r.live && r.rcb.parent == addr && r.addr != addr)
    && !(s.launches.any fun l => l.pasid == pasid && l.rcd.region == addr && !l.done)

/-- The leaf of a target address, where R65 allows the target. -/
def targetLeaf (s : State) (pasid : Nat) (target : Word) : Option Leaf :=
  match target.toNat % 256, (walk s pasid target.toNat).2 with
  | 0, .leaf l _ => if l.r && l.pl1 && !l.w then some l else none
  | _, _ => none

/-- Whether the monitor accepts an image for a target address (R39, R65, R66, R69, R70). R66 does not say what a commit with state 0 does at an address that holds no live node: it is refused (assumption log 80). -/
def commitOk (s : State) (pasid : Nat) (image : List Byte) (target : Word) : Bool :=
  let (r, live) := rcbOf image
  let tree := match getRegion s pasid target with
    | some n => r.parent == n.rcb.parent && (live || retirable s pasid target)
    | none => live && (if r.parent == 0 then (rootRegion s pasid).isNone else (getRegion s pasid r.parent).isSome)
  rcbLayoutOk image && (targetLeaf s pasid target).isSome && tree && rcbMaskOk r && rcbChecks s pasid r
    && pagesOk s pasid ((getCtx s pasid).bind (·.root))

/-- The tree after the commit of an accepted image (R66, R73). A root that is committed again keeps the home link it got when it was created: R61 names the link of the root's REGION packet and says nothing of a later one (assumption log 80). -/
def commitTree (s : State) (pasid : Nat) (image : List Byte) (target : Word) (link : Nat) : State :=
  let (r, live) := rcbOf image
  let mine := fun (x : Region) => x.pasid == pasid && x.addr == target && x.live
  if !live then { s with regions := updIf mine (fun x => { x with live := false }) s.regions }
  else if s.regions.any mine then
    { s with regions := updIf mine (fun x => { x with rcb := keepBudget x.rcb r, pending := some r }) s.regions }
  else
    let s := if r.parent == 0 then modCtx s pasid (fun c => { c with link := link }) else s
    { s with regions := s.regions ++ [⟨pasid, target, r, true, none, 0, false⟩] }

/-! ## Launch records (R74 to R76) -/

def depOf (l : List Byte) (i : Nat) : Option (Word × Nat × Nat) :=
  let m := leWord (slice i 8 l)
  if m == 0 then none else some (m, field l (i + 8) 4, field l (i + 12) 4)

def launchOf (l : List Byte) : LaunchRec :=
  let sh := field l 28 1
  { entry := leWord (slice 0 8 l), region := leWord (slice 8 8 l), gx := field l 16 4, gy := field l 20 4, gz := field l 24 4, wgs := bits sh 1 0 + 1,
    warps := bits sh 5 2 + 1, vregs := field l 29 1 + 1, shadows := field l 30 1, pooled := bitAt (field l 31 1) 0, uchk := bitAt (field l 31 1) 1,
    scratch := field l 32 4, opUnits := field l 36 1, accs := field l 37 1, undo := field l 38 2, args := leWord (slice 40 8 l),
    cmap := leWord (slice 48 8 l), cfirst := leWord (slice 56 8 l), cscope := field l 64 1, tasks := leWord (slice 72 8 l), dep0 := depOf l 80, dep1 := depOf l 96 }

/-- R75, for one workgroup. -/
def footprint (warps vregs shadows scratch undo : Nat) : Nat := warps * vregs * 256 * (1 + shadows) + scratch + undo * 256

/-- The footprint on a core: counted twice in near redundancy. -/
def coreFootprint (redund f : Nat) : Nat := if redund = 1 then 2 * f else f

/-- An entry address that validation accepts (R76). -/
def codeOk (s : State) (pasid : Nat) (va : Word) : Bool :=
  va.toNat % 8 == 0 && (match (walk s pasid va.toNat).2 with
    | .leaf l _ => l.x
    | .refused => false
    | _ => true)

/-- Reserved fields, alignment and ranges of a record. -/
def launchFormOk (l : List Byte) : Bool :=
  let r := launchOf l
  bits (field l 28 1) 7 6 == 0 && decide (r.shadows ≤ 4) && field l 31 1 < 4 && decide (r.cscope < 8) && field l 65 7 == 0 && (l.drop 112).all (· == 0)
    && r.scratch % 256 == 0 && r.cmap.toNat % 8 == 0 && r.tasks.toNat % 256 == 0 && field l 80 1 % 8 == 0 && field l 96 1 % 8 == 0
    && r.gx != 0 && r.gy != 0 && r.gz != 0 && decide (r.gx * r.gy * r.gz ≤ 2 ^ 32) && decide (r.opUnits ≤ 64) && decide (r.accs ≤ 8)
    && (r.cmap == 0 || (decide (4 ≤ r.cscope) && decide (r.cscope ≤ 6)))
    && r.dep0.all (fun d => d.2.2 != 0) && r.dep1.all fun d => d.2.2 != 0

/-- R76; `issuer` is the region of a LAUNCH instruction. -/
def launchOk (s : State) (pasid : Nat) (issuer : Option Word) (l : List Byte) : Bool :=
  let r := launchOf l
  let e := effective s pasid r.region
  launchFormOk l && (getRegion s pasid r.region).isSome && issuer.all (fun t => inSubtree s pasid t r.region) && codeOk s pasid r.entry
    && decide (coreFootprint e.redund (footprint r.warps r.vregs r.shadows r.scratch r.undo) ≤ Config.footprintMax)
    && decide (e.tanK ≤ r.shadows) && (e.redund != 2 || decide (r.wgs ≤ 2))
    && decide (r.wgs * (if e.redund = 2 then 2 else 1) ≤ e.maxCores)

/-! ## Task kinds (R93) -/

def kindOf (l : List Byte) : TaskKind :=
  ⟨leWord (slice 0 8 l), field l 8 1 + 1, field l 9 1, field l 10 2 * 256, field l 12 2, bitAt (field l 14 1) 0⟩

def kindOk (s : State) (pasid : Nat) (e : Rcb) (l : List Byte) : Bool :=
  let k := kindOf l
  !k.valid || (decide (k.shadows ≤ 4) && decide (e.tanK ≤ k.shadows) && field l 14 1 < 2 && field l 15 1 == 0 && codeOk s pasid k.entry
    && decide (coreFootprint e.redund (footprint 1 k.vregs k.shadows k.scratch k.undo) ≤ Config.footprintMax))

/-- The entries of a table. -/
def kindEntries (l : List Byte) : List (List Byte) := (List.range 16).map fun i => slice (16 * i) 16 l

def kindsOk (s : State) (pasid : Nat) (region : Word) (l : List Byte) : Bool := (kindEntries l).all (kindOk s pasid (effective s pasid region))

/-- The task kinds of a launch, from the table that its record names. -/
def kindsOf (r : LaunchRec) (l : List Byte) : List TaskKind := if r.tasks = 0 then [] else (kindEntries l).map kindOf

/-! ## Dependencies (R80, R81) -/

def deps (r : LaunchRec) : List (Word × Nat × Nat) := r.dep0.toList ++ r.dep1.toList

/-- The bitmap words that gang `g` needs, with the bits of each. -/
def depWords (g : Nat) (d : Word × Nat × Nat) : List (Word × Nat) :=
  let lo := g * d.2.1
  let hi := lo + d.2.2
  (List.range ((hi - 1) / 64 + 1 - lo / 64)).map fun i =>
    let w := lo / 64 + i
    let a := Nat.max lo (64 * w) - 64 * w
    let b := Nat.min hi (64 * w + 64) - 64 * w
    (d.1 + BitVec.ofNat 64 (8 * w), 2 ^ b - 2 ^ a)

/-- A refused bitmap word reads as clear; its first refusal is recorded (R81). -/
def refuseWord (s : State) (id pasid code : Nat) (va : Word) : State :=
  if (getLaunch s id).any fun l => l.barred.contains va then s
  else faultRecord (modLaunch s id fun l => { l with barred := va :: l.barred }) pasid code va

/-- The releases that an acquire at device scope meets at a location: a release at die scope orders gangs of its die alone (R81). -/
def releasesAt (s : State) (loc : Nat) : List SyncLoc := s.syncs.filter fun e => e.addr == loc && (e.scope == .die || e.scope == .dev || e.scope == .sys)

/-- Reads one word of a bitmap for a launch, with an acquire at device scope: none reads as clear. -/
def readBitmap (s : State) (x : Launch) (core : Nat) (va : Word) : State × Option (Nat × Nat) :=
  match structRead s ⟨core, x.pasid, x.gen, (effective s x.pasid x.rcd.region).sev⟩ va.toNat 8 with
  | (s, .bytes l _ loc) => (s, some (leNat l, loc))
  | (s, .unmapped) => ((raiseFault s core x.pasid va.toNat false).1, none)
  | (s, .ats ..) => (s, none)
  | (s, .wait) => (s, none)
  | (s, .badMac) => (s, none)
  | (s, .killed c) => (refuseWord s x.id x.pasid c va, none)
  | (s, .denied) => (refuseWord s x.id x.pasid 0x42 va, none)
  | (s, .uncorr) => (refuseWord s x.id x.pasid 0x42 va, none)

/-- Tests one gang, by the walker of a die. -/
def testGang (s : State) (x : Launch) (core g : Nat) : State :=
  let r := ((deps x.rcd).flatMap (depWords g)).foldl (fun (acc : State × Option (List SyncLoc)) w =>
    match acc.2 with
    | none => acc
    | some met => match readBitmap acc.1 x core w.1 with
      | (s, some (b, loc)) => (s, if b &&& w.2 == w.2 then some (met ++ releasesAt s loc) else none)
      | (s, none) => (s, none)) (s, some [])
  match r with
  | (s, some met) => modLaunch s x.id fun l => { l with ready := l.ready ++ [(g, met)] }
  | (s, none) => s

def gangCount (r : LaunchRec) : Nat := r.gx * r.gy * r.gz

/-- A gang that no placer has taken yet. -/
def unplaced (x : Launch) (g : Nat) : Bool := decide (x.low ≤ g) && !x.taken.contains g && !x.cut && !x.done

/-- Tests the pending gangs of a launch. -/
def testLaunch (s : State) (id core : Nat) : State :=
  match getLaunch s id with
  | none => s
  | some x =>
    if (deps x.rcd).isEmpty || x.cut || x.done then s
    else ((List.range (gangCount x.rcd)).filter fun g => unplaced x g && (kfind g x.ready).isNone).foldl (fun s g => testGang s x core g) s

/-- R80. -/
def gangReady (x : Launch) (g : Nat) : Bool := unplaced x g && ((deps x.rcd).isEmpty || (kfind g x.ready).isSome)

/-- The walker that a placer uses: that of the die's first core. -/
def dieCore (d : Nat) : Nat := d * 100

/-- Registers the bitmaps of a launch, where each lies in one page, with the watchers of their home dies. -/
def registerDeps (s : State) (x : Launch) : State × Bool :=
  (deps x.rcd).foldl (fun (acc : State × Bool) d =>
    match walk acc.1 x.pasid d.1.toNat with
    | (s, .leaf l _) => let acc := (s, acc.2)
      (match hbmOf acc.1 (leafPa l d.1.toNat) with
      | none => (acc.1, false)
      | some a =>
        if 4096 < a % 4096 + (((gangCount x.rcd - 1) * d.2.1 + d.2.2) + 7) / 8 then (acc.1, false)
        else if Config.watcherRegs ≤ (acc.1.watchers.filter fun w => w.1 == dieOf a).length then (acc.1, false)
        else ({ acc.1 with watchers := acc.1.watchers ++ [(dieOf a, a / 4096, x.id)] }, acc.2))
    | (s, _) => (s, false)) (s, true)

/-! ## Starting a launch -/

/-- The walks of a validation count the errors that they meet (R135). -/
def countWalks (s : State) (pasid : Nat) (vas : List Word) : State := vas.foldl (fun s v => (walk s pasid v.toNat).1) s

/-- Room for another launch (R404). -/
def launchRoom (s : State) : Bool := decide ((s.launches.filter fun l => !l.done).length < Config.launchMax)

/-- Hands a launch to the placers; bits already set count as set (R81). -/
def startLaunch (s : State) (pasid : Nat) (r : LaunchRec) (kinds : List TaskKind) (packet : Option (Nat × W32)) (vc : List (Nat × Nat)) : State × Nat :=
  let (s, id) := newId s
  let x : Launch := { id := id, pasid := pasid, rcd := r, kinds := kinds, packet := packet, low := 0, taken := [], retired := 0, cut := false, done := false,
                      skipDone := false, gen := pasidGen s pasid, ready := [], reg := true, barred := [], vc := vc }
  let (s, ok) := registerDeps s x
  (testLaunch { s with launches := s.launches ++ [{ x with reg := ok }] } id (dieCore (nextDie s 0)), id)

end Sys2Proof.Machine
end

