-- ==== Sys2Proof/Machine/Queues.lean ====
section
/-! DEFINITION. Host queues: registers and doorbells (R49 to R51), the fetchers (R52, R53), packets (R54 to R58), and REGION commits (R39). -/

namespace Sys2Proof.Machine

/-! ## Queue registers (R49 to R51) -/

def queueLink (q : Nat) : Nat := q / 512
def Queue.pasid (q : Queue) : Nat := bits q.cfg.toNat 31 12
def Queue.cls (q : Queue) : Nat := bits q.cfg.toNat 11 10
def Queue.log2 (q : Queue) : Nat := bits q.cfg.toNat 4 0
/-- The host virtual address of a packet. -/
def Queue.slotAddr (q : Queue) (seq : W32) : Nat := q.base.toNat + seq.toNat % 2 ^ q.log2 * 64

/-- Writes of QBASE and QCFG act while the queue is disabled. -/
def writeQbase (s : State) (q : Nat) (v : Word) : State :=
  if q < Config.queues ∧ (getQueue s q).state = .disabled then modQueue s q fun x => { x with base := v &&& ~~~0xFFF } else s

def writeQcfg (s : State) (q : Nat) (v : Word) : State :=
  if q < Config.queues ∧ (getQueue s q).state = .disabled then modQueue s q fun x => { x with cfg := v &&& 0xFFFFFC1F } else s

/-- A stopping queue with nothing in flight is disabled. -/
def settleQueue (s : State) (q : Nat) : State :=
  modQueue s q fun x => if x.state = .stopping ∧ x.packets = [] then { x with state := .disabled } else x

/-- QCTL.reset, where it takes effect (R50). -/
def resetQueue (s : State) (q : Nat) : State :=
  modQueue s q fun x =>
    if x.state = .disabled ∨ (x.state = .error ∧ x.packets = []) then
      { x with head := 0, tail := 0, err := 0, epoch := x.epoch + 1, state := .disabled }
    else x

/-- A teardown of the queue's PASID is in progress (R50, R63). -/
def underTeardown (s : State) (x : Queue) : Bool := (getCtx s x.pasid).any fun c => !c.teardown.isEmpty

/-- A write of enable = 1. -/
def enableQueue (s : State) (q : Nat) : State :=
  modQueue s q fun x =>
    let x := { x with enable := true }
    if x.state ≠ .disabled then x
    else if x.log2 < 6 ∨ 16 < x.log2 ∨ x.base = 0 ∨ underTeardown s x then { x with err := 0x0A }
    else { x with state := .running }

/-- The queue stops: its fetcher takes no further packet. -/
def stopQueue (s : State) (q : Nat) : State :=
  settleQueue (modQueue s q fun x => if x.state = .running ∨ x.state = .error then { x with state := .stopping } else x) q

/-- A write of enable = 0. -/
def disableQueue (s : State) (q : Nat) : State := stopQueue (modQueue s q fun x => { x with enable := false }) q

def onQueue (s : State) (q : Nat) (f : State → Nat → State) : State := if q < Config.queues then f s q else s

/-- A write of QCTL with reset set: reset first, then enable. -/
def execQctlReset (w : QctlWrite) (s : State) : Host.Outcome State Fault Refusal :=
  .next (onQueue s w.q fun s q => if w.enable then enableQueue (resetQueue s q) q else disableQueue (resetQueue s q) q)

def execQctlEnableSet (q : Nat) (s : State) : Host.Outcome State Fault Refusal := .next (onQueue s q enableQueue)
def execQctlEnableClear (q : Nat) (s : State) : Host.Outcome State Fault Refusal := .next (onQueue s q disableQueue)

/-- A write to a doorbell page (R51, R63). -/
def ringDoorbell (s : State) (q : Nat) (t : W32) : State :=
  modQueue s q fun x =>
    if x.state ≠ .disabled ∧ (t - x.tail).toNat ≤ (BitVec.ofNat 32 (2 ^ x.log2) - (x.tail - x.head)).toNat
        ∧ !(getCtx s x.pasid).any (fun c => c.teardown.contains (queueLink q)) then { x with tail := t }
    else { x with badDb := if x.badDb == 0xFFFF then x.badDb else x.badDb + 1 }

def execDoorbell (q : Nat) (value : Word) (offset : Nat) (s : State) : Host.Outcome State Fault Refusal :=
  .next (if offset = 0 then onQueue s q fun s q => ringDoorbell s q (Word.lo value) else s)

/-! ## What the host reads (R5, R16, R49, R51, R59, R62) -/

def QState.code : QState → Nat
  | .disabled => 0
  | .running => 1
  | .error => 2
  | .stopping => 3

def qctl (x : Queue) : Word := BitVec.ofNat 64 x.enable.toNat
def qstat (x : Queue) : Word := BitVec.ofNat 64 (x.head.toNat * 2 ^ 32 + x.badDb.toNat * 2 ^ 16 + QState.code x.state * 2 ^ 8 + x.err.toNat)
def qtail (x : Queue) : Word := BitVec.ofNat 64 x.tail.toNat

def ringCfg (r : HostRing) : Word := BitVec.ofNat 64 (r.enable.toNat * 32 + r.log2 % 32)
def ringCount (r : HostRing) : Word := BitVec.ofNat 64 (r.lost.toNat * 2 ^ 32 + r.tail.toNat)

/-- A register of a fault or event queue, by offset. -/
def ringRead (r : HostRing) (off : Nat) : Word :=
  if off = 0 then r.base else if off = 8 then ringCfg r else if off = 0x10 then BitVec.ofNat 64 r.head.toNat else if off = 0x18 then ringCount r else 0

/-- The 64-bit register at an offset of a link's BAR0; what is WO, FSVCA and FSVCB among it, or absent reads as zero. -/
def bar0Read (s : State) (link off : Nat) : Word :=
  let l := getLink s link
  if off = 0 then Config.modcap
  else if off = 8 then Config.modcap2
  else if off = 0x108 then l.pstat
  else if 0x200 ≤ off ∧ off < 0x220 then ringRead l.fq (off - 0x200)
  else if 0x300 ≤ off ∧ off < 0x320 then ringRead l.eq (off - 0x300)
  else if 0x100000 ≤ off ∧ off < 0x108000 then
    let x := getQueue s (512 * link + (off - 0x100000) / 0x40)
    let o := off % 0x40
    if o = 0 then x.base else if o = 8 then x.cfg else if o = 0x10 then qctl x else if o = 0x18 then qstat x else if o = 0x20 then qtail x else 0
  else 0

/-- What the host reads from a BAR: the doorbell pages of BAR2 read as zero (R51). -/
def hostRead (s : State) (link bar off : Nat) : State :=
  { s with hostReads := s.hostReads ++ [(link, bar, off, if bar = 0 then bar0Read s link (off / 8 * 8) else 0)] }

/-! ## Completion and errors (R56, R57) -/

def getPacket (s : State) (q : Nat) (seq : W32) : Option Packet := (getQueue s q).packets.find? fun p => p.seq == seq

def modPacket (s : State) (q : Nat) (seq : W32) (f : Packet → Packet) : State :=
  modQueue s q fun x => { x with packets := updIf (fun p => p.seq == seq) f x.packets }

def Packet.kind (p : Packet) : Nat := field p.bytes 0 1
def Packet.flag (p : Packet) (i : Nat) : Bool := bitAt (field p.bytes 1 1) i
def Packet.scope (p : Packet) : Nat := field p.bytes 2 1 % 8
def Packet.addr (p : Packet) (i : Nat) : Word := leWord (slice i 8 p.bytes)

/-- The packet address that a record carries (R57, R59): that which the body names first, or zero. -/
def Packet.named (p : Packet) : Word := if [1, 2, 3, 4, 5, 7].contains p.kind then p.addr 8 else 0

/-- A packet completes; with the event flag it writes an event record. -/
def completePacket (s : State) (q : Nat) (seq : W32) : State :=
  match getPacket s q seq with
  | none => s
  | some p =>
    let x := getQueue s q
    let s := modQueue s q fun x => { x with packets := x.packets.filter fun y => y.seq != seq, lastFw := if p.kind = 5 then some seq else x.lastFw }
    let s := if p.flag 1 then emit s (queueLink q) true (recordBytes 4 0 q x.pasid p.named seq s.ns) else s
    settleQueue s q

/-- A packet error: the queue enters error with head at the packet, and the packets that it has taken run on (R50, R57). -/
def failPacket (s : State) (q : Nat) (seq : W32) (err : Nat) (addr : Word) : State :=
  let x := getQueue s q
  let s := modQueue s q fun x =>
    { x with packets := x.packets.filter fun y => y.seq != seq, err := BitVec.ofNat 8 err, head := seq,
             state := if x.state = .disabled then .disabled else .error }
  settleQueue (emit s (queueLink q) false (recordBytes 1 err q x.pasid addr seq s.ns)) q

/-- A queue whose ring or launch is lost enters error without a packet (R52, R151). -/
def failQueue (s : State) (q err : Nat) (addr : Word) : State :=
  let x := getQueue s q
  if x.state = .running then
    emit (modQueue s q fun x => { x with err := BitVec.ofNat 8 err, state := .error }) (queueLink q) false
      (recordBytes 1 err q x.pasid addr x.head s.ns)
  else s

/-- Writes of a packet that are not acknowledged yet. -/
def packetPending (s : State) (q : Nat) (seq : W32) : Bool := s.stores.any fun x => x.who == some (.packet q seq)

/-- A packet whose effect is made: it completes now, or once its writes are acknowledged (R56, R58). -/
def finishPacket (s : State) (q : Nat) (seq : W32) : State :=
  if packetPending s q seq then modQueue s q fun x => { x with packets := updIf (fun p => p.seq == seq) (fun p => { p with sent := true, state := .running }) x.packets }
  else completePacket s q seq

/-! ## The fetcher (R52 to R55, R57) -/

/-- Bytes of a packet that its kind uses (R54). -/
def usedBytes (kind : Nat) : Nat :=
  match kind with
  | 1 => 16
  | 2 => 32
  | 3 => 28
  | 4 => 25
  | 5 => 24
  | 7 => 16
  | _ => 8

def namesScope (kind : Nat) : Bool := kind == 3 || kind == 4 || kind == 6

def packetMisaligned (b : List Byte) : Bool :=
  let k := field b 0 1
  let a := field b 8 8
  if k = 1 then a % 128 != 0
  else if k = 3 ∨ k = 4 ∨ k = 7 then a % 8 != 0
  else if k = 5 then a % 256 != 0 || field b 16 8 % 256 != 0
  else if k = 2 then field b 24 8 == 0 || decide (2 ^ 40 < field b 24 8)
  else false

/-- A non-zero bit where R54 or the body table asks for zero. A SIGNAL op other than 0 and 1, for which no rule names an error, is taken as one (assumption log 47). -/
def packetReserved (b : List Byte) : Bool :=
  let k := field b 0 1
  decide (4 ≤ field b 1 1) || field b 3 5 != 0 || (if namesScope k then decide (8 ≤ field b 2 1) else field b 2 1 != 0)
    || (b.drop (usedBytes k)).any (· != 0) || (k == 4 && decide (1 < field b 24 1))

def dmaOverlap (b : List Byte) : Bool :=
  field b 0 1 == 2 && decide (field b 8 8 < field b 16 8 + field b 24 8) && decide (field b 16 8 < field b 8 8 + field b 24 8)

/-- Where a packet address leads for an access of R110; none is a translation failure (R57). -/
def pktXlate (s : State) (pasid : Nat) (va : Word) (r w : Bool) : State × Option (Leaf × Nat) :=
  match walk s pasid va.toNat with
  | (s, .leaf l _) =>
    let n : Need := { r := r, w := w, x := false, pl := 1 }
    let pa := leafPa l va.toNat
    (s, if leafAllows l n && paAllows s pa 1 then some (l, pa) else none)
  | (s, _) => (s, none)

/-- The address that a packet's body names and that fails translation, the lower byte of the body first. -/
def failedAddr (s : State) (pasid : Nat) (b : List Byte) : Option Word :=
  let k := field b 0 1
  let a := leWord (slice 8 8 b)
  let c := leWord (slice 16 8 b)
  let bad := fun (v : Word) (r w : Bool) => if (pktXlate s pasid v r w).2.isNone then some v else none
  if k = 0 ∨ k = 6 then none
  else if k = 2 then (bad a true false).orElse fun _ => bad c false true
  else if k = 4 then bad a (field b 24 1 == 1) true
  else if k = 5 then (bad a true false).orElse fun _ => match (walk s pasid c.toNat).2 with
    | .leaf .. => none
    | _ => some c
  else if k = 7 then bad a false true
  else bad a true false

/-- The lowest code of a packet's errors as it is taken (R57). -/
def packetError (s : State) (pasid : Nat) (b : List Byte) : Option Nat :=
  let k := field b 0 1
  if 8 ≤ k then some 1
  else if packetReserved b then some 2
  else if namesScope k && (field b 2 1 < 4 || decide (6 < field b 2 1)) then some 3
  else if packetMisaligned b then some 4
  else if (failedAddr s pasid b).isSome then some 5
  else if dmaOverlap b then some 9
  else none

/-- Kinds that hold back every later packet, and kinds that always behave as barriers (R55). -/
def holdsBack (k : Nat) : Bool := decide (3 ≤ k) && decide (k ≤ 7)
def isBarrier (k : Nat) : Bool := decide (4 ≤ k) && decide (k ≤ 7)

/-- REGION packets go to firmware, which takes none while an image switch is awaited or command processing is stopped (R43, R45). -/
def fwTakes (s : State) : Bool := s.fw.quiesce.isNone && !s.fw.stopped

/-- The head packet of a queue, if it may start now (R53, R55): every packet before it has started, and none holds it back. -/
def fetchable (s : State) (q : Nat) : Option (List Byte) :=
  let x := getQueue s q
  if x.state ≠ .running ∨ x.head = x.tail ∨ s.fw.stopped ∨ x.packets.any (fun p => holdsBack p.kind || p.state == .taken) then none
  else match hostAddr s (queueLink q) x.pasid (x.slotAddr x.head) with
  | none => none
  | some a =>
    let b := getCells a 64 s.mem
    let k := field b 0 1
    if !x.packets.isEmpty && (bitAt (field b 1 1) 0 || isBarrier k) then none
    else if k = 5 && !fwTakes s then none
    else some b

/-- Asks for the translations of the ring slots that the fetcher wants to read (R52). -/
def askRings (s : State) (link : Nat) : State :=
  s.queues.foldl (fun s e =>
    let x := e.2
    if queueLink e.1 = link ∧ x.state = .running ∧ x.head ≠ x.tail ∧ (hostAddr s link x.pasid (x.slotAddr x.head)).isNone then
      atsAsk s link x.pasid (x.slotAddr x.head / 4096)
    else s) s

/-- The queue that a turn serves: highest class, then round robin (R53). -/
def chooseQueue (s : State) (link : Nat) : Option Nat :=
  let c := (s.queues.map (·.1)).filter fun q => queueLink q == link && (fetchable s q).isSome
  let top := c.foldl (fun m q => Nat.max m (getQueue s q).cls) 0
  let c := c.filter fun q => (getQueue s q).cls == top
  match kfind top (getLink s link).lastServed with
  | none => c.head?
  | some last => (c.find? fun q => decide (last < q)).orElse fun _ => c.head?

/-- Takes the head packet of a queue. -/
def takePacket (s : State) (q : Nat) (b : List Byte) : State :=
  let x := getQueue s q
  let p : Packet := { seq := x.head, bytes := b, state := .taken, started := s.ns, mark := s.ns, launch := none, moved := 0, sent := false }
  let s := modQueue s q fun x => { x with head := x.head + 1, packets := x.packets ++ [p] }
  let s := modLink s (queueLink q) fun l => { l with lastServed := kset x.cls q l.lastServed }
  let s := countWalks s x.pasid ((if usedBytes p.kind < 16 then [] else [p.addr 8]) ++ (if p.kind == 2 || p.kind == 5 then [p.addr 16] else []))
  match packetError s x.pasid b with
  | some e => failPacket s q x.head e (if e = 5 then (failedAddr s x.pasid b).getD 0 else p.named)
  | none => s

/-- A fetcher works while its port die and its link do (R9). -/
def fetcherUp (s : State) (link : Nat) : Bool := portDieIn s link && (getLink s link).up

/-- One turn of the fetcher of link `unit_`. -/
def execFetcherTurn (s : State) : Host.Outcome State Fault Refusal :=
  let link := s.unit_
  let s := if fetcherUp s link then askRings s link else s
  .next (match chooseQueue s link with
    | none => s
    | some q => match fetchable s q with
      | none => s
      | some b => if fetcherUp s link then takePacket s q b else s)

/-! ## Packets (R56, R58) -/

/-- The packets before one in its queue. -/
def earlier (s : State) (q : Nat) (seq : W32) : List Packet := (getQueue s q).packets.takeWhile fun p => p.seq != seq

/-- R55: an in-order packet starts once those before it have started and none of them holds it back; a barrier once they have completed. -/
def mayStart (s : State) (q : Nat) (p : Packet) : Bool :=
  let e := earlier s q p.seq
  if p.flag 0 || isBarrier p.kind then e.isEmpty else e.all fun x => x.state == .running && !holdsBack x.kind

/-- A packet of a kind that is in a given state; one that is taken, only where it may start. -/
def packetAt (s : State) (q : Nat) (seq : W32) (kind : Nat) (st : PktState) : Option Packet :=
  (getPacket s q seq).bind fun p => if p.kind = kind ∧ p.state = st ∧ (st = .running ∨ mayStart s q p = true) then some p else none

def startPacket (s : State) (q : Nat) (seq : W32) : State :=
  modPacket s q seq fun p => { p with state := .running, started := s.ns, mark := s.ns }

/-- Every store in flight of a context reaches its point of coherence: the release of R58. -/
def drainContext (s : State) (pasid : Nat) : State :=
  (s.stores.filter fun x => x.pasid == pasid && x.port.isNone).foldl performStore s

/-- Stores of a context to peers that are not acknowledged: a release waits for them (R58, R206). -/
def peersPending (s : State) (pasid : Nat) : Bool := s.stores.any fun x => x.pasid == pasid && x.port.isSome

/-- The fetcher as a party to synchronisation (R56, R208): a name on the die that its port die is bridged to first. -/
def fetcherTid (q : Nat) : Tid := ⟨if queueLink q = 0 then 0 else 1200, 64, 0⟩

def scopeOf (n : Nat) : Scope := if n = 4 then .die else if n = 5 then .dev else .sys

/-- What reading or writing a packet address gives. -/
inductive PktAccess where
  | data (l : List Byte) (poison : Bool)
  | fail
  | wait

/-- A media error of class `c` of an access that a packet makes, under its context's root region (R21, R132; assumption log 74): `lost` where no byte came. Under KILL the record alone is written, and zeros stand for the data. -/
def pktPolicy (s : State) (pasid c : Nat) (va : Word) (l : List Byte) (lost : Bool) : State × PktAccess :=
  let pol := sevPolicy (((rootRegion s pasid).map (·.rcb.sev)).getD 0) c
  let zeros : List Byte := List.replicate l.length 0
  if pol = 0 then
    if lost then
      let (s, b) := freeBytes s l.length
      (s, .data b false)
    else (s, .data l false)
  else if pol = 1 then (s, .data zeros false)
  else if pol = 2 then (s, .data (if lost then zeros else l) true)
  else (faultRecord s pasid (0x50 + c) va, .data zeros false)

/-- Reads `n` bytes for a packet. A host address whose ATS translation fails is asked for again (assumption log 47). -/
def pktRead (s : State) (q : Nat) (seq : W32) (va : Word) (n : Nat) : State × PktAccess :=
  let pasid := (getQueue s q).pasid
  let lost := fun (s : State) => pktPolicy s pasid 3 va (List.replicate n 0) true
  match pktXlate s pasid va true false with
  | (s, none) => (s, .fail)
  | (s, some (l, pa)) =>
    match homeOf s.module_ s.domain pa with
    | .hbm a =>
      let (s, r) := readHbmRange s a n l.layout l.key
      (match r.sev with
       | some c => pktPolicy s pasid c va r.bytes false
       | none => (s, .data r.bytes false))
    | .host k bus =>
      if !(getLink s k).up then lost s
      else match hostAddr s k pasid bus with
      | some a => (s, .data (getCells a n s.mem) false)
      | none => (atsAsk s k pasid (bus / 4096), .wait)
    | .peer m off => (match readPeer s (.packet q seq) m off n with
      | (s, .data l) => (s, .data l false)
      | (s, .failed) => lost s
      | (s, .wait) => (s, .wait))
    | .reg off => (s, .data (regBytes s off n) false)
    | .bad => (s, .fail)

/-- Sends a request of a packet that a peer acknowledges. -/
def pktSend (s : State) (q : Nat) (seq : W32) (pasid p : Nat) (va : Word) (body : Nat → FlitBody) : State :=
  let (s, id) := newId s
  let s := sendRequest s p 0 0 (body id) (.store id)
  { s with stores := s.stores ++ [{ id := id, core := (fetcherTid q).core, tid := fetcherTid q, pasid := pasid, cells := [], poison := false, layout := 0,
                                    key := 0, port := some p, addr := va, who := some (.packet q seq), red := false }] }

/-- Stores a piece that lies in one page, once it is translated. -/
def pktStore (s : State) (q : Nat) (seq : W32) (va : Word) (l : Leaf) (pa : Nat) (b : List Byte) (poison monitor : Bool) : State × PktAccess :=
  let pasid := (getQueue s q).pasid
  match homeOf s.module_ s.domain pa with
  | .reg off => (regWriteBytes s off b monitor, .data b false)
  | .peer _ off => (match route s with
    | none => (faultRecord s pasid 0x53 va, .data b false)
    | some p => if credit s p 0 = 0 then (s, .wait) else (pktSend s q seq pasid p va fun id => .store id off b, .data b false))
  | .host k bus =>
    if !(getLink s k).up then (faultRecord s pasid 0x53 va, .data b false)
    else (match hostAddr s k pasid bus with
    | some a => (writeCanon s a b l.layout l.key poison, .data b false)
    | none => (atsAsk s k pasid (bus / 4096), .wait))
  | .hbm a => (writeCanon s a b l.layout l.key poison, .data b false)
  | .bad => (s, .fail)

/-- Writes a piece that lies in one page. -/
def pktWrite (s : State) (q : Nat) (seq : W32) (va : Word) (b : List Byte) (poison : Bool) : State × PktAccess :=
  match pktXlate s (getQueue s q).pasid va false true with
  | (s, none) => (s, .fail)
  | (s, some (l, pa)) => pktStore s q seq va l pa b poison false

/-- A canonical place of a packet address, where it has one. -/
def pktPlace (s : State) (pasid : Nat) (va : Word) : Option Nat := (pktXlate s pasid va true false).2.bind fun x => canon s pasid x.2

def execNopPacket (q : Nat) (seq : W32) (s : State) : Host.Outcome State Fault Refusal :=
  .next (match packetAt s q seq 0 .taken with
    | none => s
    | some _ => completePacket s q seq)

def execLaunchPacket (q : Nat) (seq : W32) (s : State) : Host.Outcome State Fault Refusal :=
  .next (match packetAt s q seq 1 .taken with
    | none => s
    | some p =>
      let pasid := (getQueue s q).pasid
      let a := p.addr 8
      if !launchRoom s then s
      else match pktRead s q seq a 128 with
      | (s, .wait) => s
      | (s, .fail) => failPacket s q seq 5 a
      | (s, .data b bad) =>
        let r := launchOf b
        match if r.tasks == 0 || r.tasks.toNat % 256 != 0 then (s, PktAccess.data [] false) else pktRead s q seq r.tasks 256 with
        | (s, .wait) => s
        | (s, .fail) => failPacket s q seq 5 r.tasks
        | (s, .data kb kbad) =>
          if bad || kbad || !launchOk s pasid none b || (r.tasks != 0 && !kindsOk s pasid r.region kb) then failPacket s q seq 8 a
          else
            let s := countWalks s pasid (r.entry :: (kindsOf r kb).map (·.entry))
            let (s, id) := startLaunch s pasid r (kindsOf r kb) (some (q, seq)) (getQueue s q).vc
            modPacket (startPacket s q seq) q seq fun p => { p with launch := some id })

def execDmaPacket (q : Nat) (seq : W32) (s : State) : Host.Outcome State Fault Refusal :=
  .next (match packetAt s q seq 2 .taken with
    | none => s
    | some _ => startPacket s q seq)

/-- Moves the bytes of a DMA piece by piece, each within one page of both ranges; it completes once every byte is acknowledged. -/
def dmaRun : Nat → State → Nat → W32 → Packet → State
  | 0, s, _, _, _ => s
  | fuel + 1, s, q, seq, p =>
    let n := field p.bytes 24 8
    if n ≤ p.moved then finishPacket s q seq
    else
      let src := p.addr 8 + BitVec.ofNat 64 p.moved
      let dst := p.addr 16 + BitVec.ofNat 64 p.moved
      let k := Nat.min (n - p.moved) (Nat.min (4096 - src.toNat % 4096) (4096 - dst.toNat % 4096))
      match pktRead s q seq src k with
      | (s, .wait) => s
      | (s, .fail) => failPacket s q seq 5 src
      | (s, .data b poison) =>
        match pktWrite s q seq dst b poison with
        | (s, .wait) => s
        | (s, .fail) => failPacket s q seq 5 dst
        | (s, .data ..) =>
          let p := { p with moved := p.moved + k }
          dmaRun fuel (modPacket s q seq fun _ => p) q seq p

def execDmaComplete (q : Nat) (seq : W32) (s : State) : Host.Outcome State Fault Refusal :=
  .next (match packetAt s q seq 2 .running with
    | none => s
    | some p => dmaRun (field p.bytes 24 8 + 1) s q seq p)

/-- The releases at the location of a WAITV, as translated in `s`, that its acquire meets in `S` (R56, R208). -/
def metBy (s S : State) (q : Nat) (p : Packet) : List (List (Nat × Nat)) :=
  match pktPlace s (getQueue s q).pasid (p.addr 8) with
  | none => []
  | some a => (S.syncs.filter fun e => e.addr == a && inScope S e.scope e.tid (fetcherTid q)).map (·.vc)

/-- One read of a WAITV packet: an acquire at its scope, which joins the releases that the location carries (R56, R208). -/
def pollWaitv (s : State) (q : Nat) (seq : W32) (p : Packet) : State :=
  match pktRead s q seq (p.addr 8) 8 with
  | (s, .wait) => s
  | (s, .fail) => failPacket s q seq 5 (p.addr 8)
  | (S, .data b bad) =>
    let S := modQueue S q fun x => { x with vc := (metBy s S q p).foldl vcJoin x.vc }
    if !bad && field p.bytes 16 8 ≤ leNat b then completePacket S q seq else modPacket S q seq fun x => { x with mark := S.ns }

def execWaitvPacket (q : Nat) (seq : W32) (s : State) : Host.Outcome State Fault Refusal :=
  .next (match packetAt s q seq 3 .taken with
    | none => s
    | some p => pollWaitv (startPacket s q seq) q seq p)

def execWaitvPoll (q : Nat) (seq : W32) (s : State) : Host.Outcome State Fault Refusal :=
  .next (match packetAt s q seq 3 .running with
    | none => s
    | some p => pollWaitv s q seq p)

/-- The timeout of a WAITV packet has passed. -/
def waitvExpired (s : State) (p : Packet) : Bool := field p.bytes 24 4 != 0 && decide (p.started + field p.bytes 24 4 * 1000 ≤ s.ns)

def execWaitvTimeout (q : Nat) (seq : W32) (s : State) : Host.Outcome State Fault Refusal :=
  .next (match packetAt s q seq 3 .running with
    | none => s
    | some p => if waitvExpired s p then failPacket s q seq 6 (p.addr 8) else s)

/-- A packet that releases: taken, once the stores of its context to peers are acknowledged, or with its effect made (R58). -/
def releaseAt (s : State) (q : Nat) (seq : W32) (kind : Nat) : Option Packet :=
  match packetAt s q seq kind .running with
  | some p => if p.sent then some p else none
  | none => if peersPending s (getQueue s q).pasid then none else packetAt s q seq kind .taken

/-- The location carries the release of a packet at a scope. -/
def publish (s : State) (q : Nat) (va : Word) (sc : Scope) : State :=
  match pktPlace s (getQueue s q).pasid va with
  | none => s
  | some a => { s with syncs := s.syncs ++ [⟨a, sc, fetcherTid q, (getQueue s q).vc⟩] }

/-- The write, or the atomic add, of a SIGNAL. -/
def signalEffect (s : State) (q : Nat) (seq : W32) (p : Packet) : State × PktAccess :=
  let a := p.addr 8
  let v := field p.bytes 16 8
  let pasid := (getQueue s q).pasid
  if field p.bytes 24 1 = 1 then
    match (pktXlate s pasid a true true).2.map fun x => homeOf s.module_ s.domain x.2 with
    | some (.peer _ off) =>
      (match route s with
       | none => (faultRecord s pasid 0x53 a, .data [] false)
       | some r => if credit s r 0 = 0 then (s, .wait) else
          (pktSend s q seq pasid r a fun id => .atomic id off .u64 .add (BitVec.ofNat 64 v), .data [] false))
    | _ => match pktRead s q seq a 8 with
      | (s, .data b bad) => pktWrite s q seq a (leBytes 8 (v + leNat b)) bad
      | r => r
  else pktWrite s q seq a (leBytes 8 v) false

def execSignalPacket (q : Nat) (seq : W32) (s : State) : Host.Outcome State Fault Refusal :=
  .next (match releaseAt s q seq 4 with
    | none => s
    | some p =>
      if p.sent then finishPacket s q seq
      else match signalEffect (drainContext s (getQueue s q).pasid) q seq p with
      | (s, .wait) => s
      | (s, .fail) => failPacket s q seq 5 (p.addr 8)
      | (s, .data ..) => finishPacket (publish s q (p.addr 8) (scopeOf p.scope)) q seq)

def execFencePacket (q : Nat) (seq : W32) (s : State) : Host.Outcome State Fault Refusal :=
  .next (match releaseAt s q seq 6 with
    | none => s
    | some _ => completePacket (drainContext s (getQueue s q).pasid) q seq)

def execTimestampPacket (q : Nat) (seq : W32) (s : State) : Host.Outcome State Fault Refusal :=
  .next (match releaseAt s q seq 7 with
    | none => s
    | some p =>
      if p.sent then finishPacket s q seq
      else match pktWrite (drainContext s (getQueue s q).pasid) q seq (p.addr 8) (leBytes 8 s.ns) false with
      | (s, .wait) => s
      | (s, .fail) => failPacket s q seq 5 (p.addr 8)
      | (s, .data ..) => finishPacket (publish s q (p.addr 8) .dev) q seq)

/-! ## REGION packets (R39, R46, R56) -/

/-- The firmware takes the packet; writing the hand-off block records the completions before it, whose triples the monitor forgets (R39). -/
def execRegionPacket (q : Nat) (seq : W32) (s : State) : Host.Outcome State Fault Refusal :=
  .next (match packetAt s q seq 5 .taken with
    | none => s
    | some _ =>
      if !fwTakes s then s
      else
        let f := { s.fw with hands := s.fw.hands ++ [(q, seq)], triples := s.fw.triples.filter fun t => (getPacket s t.1 t.2.2).isSome }
        startPacket { s with fw := hoWrite f [(hoTaken q, 8, hoField f (hoTaken q) 8 + 1)] } q seq)

/-- The 256 bytes of an image in a context. -/
def readImage (s : State) (q : Nat) (seq : W32) (va : Word) : State × PktAccess := pktRead s q seq va 256

/-- The packet is done with: firmware records its completion in the block. -/
def handDone (s : State) (q : Nat) (seq : W32) : State :=
  { s with fw := hoWrite { s.fw with hands := s.fw.hands.filter (· != (q, seq)) } [(hoDone q, 8, hoField s.fw (hoDone q) 8 + 1)] }

/-- The monitor validates the image and writes it to the target, which may take a translation or a peer's acknowledgement; then the tree changes (R39, R65). -/
def execRegionCommit (q : Nat) (seq : W32) (s : State) : Host.Outcome State Fault Refusal :=
  .next (match packetAt s q seq 5 .running with
    | none => s
    | some p =>
      if !s.fw.hands.contains (q, seq) then s
      else
        let x := getQueue s q
        let triple := (q, x.epoch, seq)
        if s.fw.triples.contains triple then (if packetPending s q seq then s else completePacket (handDone s q seq) q seq)
        else match readImage s q seq (p.addr 8) with
        | (s, .wait) => s
        | (s, .fail) => failPacket (handDone s q seq) q seq 5 (p.addr 8)
        | (s, .data b bad) =>
          let va := p.addr 16
          match targetLeaf s x.pasid va, !bad && commitOk s x.pasid b va with
          | some l, true => (match pktStore s q seq va l (leafPa l va.toNat) b false true with
            | (s, .wait) => s
            | (s, .fail) => failPacket (handDone s q seq) q seq 7 va
            | (s, .data ..) =>
              let s := commitTree s x.pasid b va (queueLink q)
              let s := { s with fw := { s.fw with triples := s.fw.triples ++ [triple] } }
              if packetPending s q seq then s else completePacket (handDone s q seq) q seq)
          | _, _ => failPacket (handDone s q seq) q seq 7 va)

end Sys2Proof.Machine
end

