-- ==== Sys2Proof/Machine/Tasks.lean ====
section
/-! DEFINITION. Work made on the device: the binner (R90, R91), the deque and its rings (R94 to R97), and SPAWN, SPAWNW, SPAWNR, TGET and LAUNCH (R398 to R404). -/

namespace Sys2Proof.Machine

/-! ## Ring entries (R96) -/

/-- The 2,048 bytes of an entry. -/
def entryBytes (e : DEntry) : List Byte :=
  leBytes 8 e.code.toNat ++ [BitVec.ofNat 8 e.kind, BitVec.ofNat 8 e.recs.length, BitVec.ofNat 8 e.taskKind] ++ leBytes 5 0 ++ leBytes 8 e.seq
    ++ leBytes 8 e.lo.toNat ++ leBytes 8 e.hi.toNat ++ leBytes 4 e.chunk.toNat ++ List.replicate 84 0
    ++ ((List.range 64).map fun i => BitVec.ofNat 8 (((e.recs.drop i).head?.map (·.depth)).getD 0))
    ++ ((List.range 64).flatMap fun i => (List.range 4).flatMap fun j => leBytes 4 (((e.recs.drop i).head?.bind fun r => (r.args.drop j).head?).getD 0).toNat)
    ++ List.replicate 832 0

/-- An entry as its ring slot holds it; what the layout has no field for, its core has kept. -/
def entryOf (l : List Byte) (kept : DEntry) : DEntry :=
  let n := Nat.min 64 (field l 9 1)
  let old := fun i => (kept.recs.drop i).head?
  { kept with
    code := leWord (slice 0 8 l), kind := field l 8 1, taskKind := field l 10 1 % 16, lo := leWord (slice 24 8 l), hi := leWord (slice 32 8 l),
    chunk := BitVec.ofNat 32 (field l 40 4)
    recs := (List.range n).map fun i =>
      ⟨leWord (slice 0 8 l), (List.range 4).map fun j => BitVec.ofNat 32 (field l (192 + 16 * i + 4 * j) 4), field l (128 + i) 1,
        kept.launch, kept.gang, ((old i).map (·.vc)).getD []⟩ }

/-! ## Spilling (R94, R97) -/

/-- Region values that work descending from a gang runs under: those its workgroups were placed with (R73). -/
def gangRcb (s : State) (gang pasid : Nat) (region : Word) : Rcb :=
  match s.wgs.find? fun w => w.gang == gang with
  | some w => w.rcb
  | none => effective s pasid region

/-- The launch of an entry and the region values it was placed under. -/
def entryHome (s : State) (e : DEntry) : Option (Launch × Rcb) :=
  (getLaunch s e.launch).map fun l => (l, gangRcb s e.gang l.pasid l.rcd.region)

/-- The ring that takes the entries of a launch under region values `b`. -/
def Ring.isOf (l : Launch) (b : Rcb) (r : Ring) : Bool :=
  r.pasid == l.pasid && r.region == l.rcd.region && r.base == b.ringBase && r.bytes == b.ringBytes

def Ring.same (r x : Ring) : Bool := r.pasid == x.pasid && r.region == x.region && r.base == x.base && r.bytes == x.bytes

/-- The ring that core `core` has used, or an empty one. -/
def ringAt (s : State) (core : Nat) (l : Launch) (b : Rcb) : Ring :=
  ((getCore s core).rings.find? (Ring.isOf l b)).getD ⟨l.pasid, l.rcd.region, b.ringBase, b.ringBytes, 0, 0, [], []⟩

def putRing (s : State) (core : Nat) (r : Ring) : State :=
  modCore s core fun c => { c with rings := r :: c.rings.filter fun x => !r.same x }

/-- The virtual address of a slot of a core's ring. -/
def slotVa (r : Ring) (core i : Nat) : Word :=
  r.base + BitVec.ofNat 64 (core * r.bytes + (if r.bytes / 2048 = 0 then 0 else i % (r.bytes / 2048)) * 2048)

/-- Where an address that hardware writes for a context leads: a slot of a ring, a page of a save area. -/
inductive SlotAt where
  | mem (l : Leaf) (a : Nat)
  | peer (off port : Nat)
  /-- a translation of host memory or a slot of a link is awaited -/
  | wait
  /-- no valid writable mapping -/
  | absent

def slotAt (s : State) (core pasid : Nat) (gen : Byte) (va : Word) : State × SlotAt :=
  match translate s core pasid va.toNat { r := false, w := true, x := false, pl := 1 } with
  | (s, .ok l pa) =>
    (match homeOf s.module_ s.domain pa with
     | .hbm a => (s, .mem l a)
     | .host k bus =>
       if !hostUpGen s k pasid gen then (s, .absent)
       else (match hostXlate s k pasid bus with
         | (s, .ok a) => (s, .mem l a)
         | (s, .wait) => (s, .wait)
         | (s, .fault) => (s, .absent))
     | .peer _ off => (s, match route s with
       | none => .absent
       | some p => if credit s p 0 = 0 then .wait else .peer off p)
     | _ => (s, .absent))
  | (s, _) => (s, .absent)

/-- Sends bytes that hardware writes for a context to a peer. -/
def sendTable (s : State) (core pasid p off : Nat) (va : Word) (bytes : List Byte) : State :=
  let (s, id) := newId s
  let s := sendRequest s p 0 0 (.store id off bytes) (.store id)
  { s with stores := s.stores ++ [{ id := id, core := core, tid := ⟨core, 0, 0⟩, pasid := pasid, cells := [], poison := false, layout := 0, key := 0, port := some p,
                                    addr := va, who := some (.table core), red := false }] }

/-- An entry leaves the old end of the deque for a ring. -/
def spilled (s : State) (core : Nat) (r : Ring) (e : DEntry) (page : Nat) : State :=
  let s := putRing s core { r with tail := r.tail + 1, items := r.items ++ [(r.tail, e)], blocked := r.blocked.filter fun p => p.1 != page }
  modCore s core fun c => { c with deque := c.deque.drop 1 }

/-- A page without a mapping: it is reported once, and the spill is retried 2^16 cycles on (R97). -/
def blockPage (s : State) (core : Nat) (r : Ring) (page : Nat) : State :=
  let s := if (kfind page r.blocked).isSome then s else faultRecord s r.pasid 0xA2 (BitVec.ofNat 64 (page * 4096))
  putRing s core { r with blocked := kset page (s.now + 2 ^ 16) r.blocked }

/-- Spills the oldest entry of a deque; false where it cannot go. `retry` tries a page that has been reported (R97). -/
def spillOldest (s : State) (core : Nat) (retry : Bool) : State × Bool :=
  match (getCore s core).deque with
  | [] => (s, true)
  | e :: rest =>
    match entryHome s e with
    | none => (modCore s core fun c => { c with deque := rest }, true)
    | some (x, b) =>
      let r := ringAt s core x b
      let va := slotVa r core r.tail
      let page := va.toNat / 4096
      if r.bytes = 0 ∨ r.bytes / 2048 ≤ r.tail - r.head then (s, false)
      else if (kfind page r.blocked).isSome && !retry then (s, false)
      else match slotAt s core x.pasid x.gen va with
      | (s, .absent) => (blockPage s core r page, false)
      | (s, .wait) => (s, false)
      | (s, .mem l a) => (spilled (writeCanon s a (entryBytes e) l.layout l.key false) core r e page, true)
      | (s, .peer off p) =>
        (spilled (sendTable s core x.pasid p off va (entryBytes e)) core r e page, true)

/-- A push of a new entry (R94); false where it is refused (R97). -/
def pushEntry (s : State) (core : Nat) (e : DEntry) : State × Bool :=
  let put := fun (s : State) => modCore s core fun c => { c with deque := c.deque ++ [{ e with seq := c.seqNo }], seqNo := c.seqNo + 1 }
  if (getCore s core).deque.length < Config.dequeEntries then (put s, true)
  else match spillOldest s core false with
  | (s, true) => (put s, true)
  | (s, false) => (s, false)

/-- A spilled entry: its ring, its slot, and what its core has kept of it. -/
structure Spilled where
  ring : Ring
  slot : Nat
  entry : DEntry

/-- The entries in the rings of a core. -/
def spilledOf (s : State) (core : Nat) : List Spilled := (getCore s core).rings.flatMap fun r => r.items.map fun e => ⟨r, e.1, e.2⟩

/-- The spilled entry of highest sequence number. -/
def newestSpilled (s : State) (core : Nat) : Option Spilled := minBy (fun x => 2 ^ 64 - x.entry.seq) (spilledOf s core)

/-- An entry leaves its ring: the head and the tail close up to the entries that are left. -/
def Ring.without (r : Ring) (slot : Nat) : Ring :=
  let l := r.items.filter fun x => x.1 != slot
  { r with items := l, head := ((l.head?).map (·.1)).getD r.tail, tail := ((l.getLast?).map (·.1 + 1)).getD r.tail }

/-- Takes an entry back from a ring, as the ring's memory holds it: none while a translation or a peer's answer is awaited. Where the memory gives no bytes any more (its page is unmapped or refused, or its data is in error under POISON or KILL), for which no rule says what the core takes back, it is the core's own copy (assumption log 82). -/
def unspill (s : State) (core : Nat) (x : Spilled) : State × Option DEntry :=
  let e := x.entry
  let gone := fun (s : State) => putRing s core (x.ring.without x.slot)
  match getLaunch s e.launch with
  | none => (gone s, some e)
  | some l =>
    match structRead s ⟨core, l.pasid, l.gen, (effective s l.pasid l.rcd.region).sev⟩ (slotVa x.ring core x.slot).toNat 2048 with
    | (s, .ats ..) => (s, none)
    | (s, .wait) => (s, none)
    | (s, .bytes b ..) => (gone s, some (entryOf b e))
    | (s, _) => (gone s, some e)

/-! ## The binner (R90, R91) -/

def binEntry (b : Bin) : DEntry :=
  let r := b.recs.head?
  { seq := 0, code := b.code, kind := 0, taskKind := 0, recs := b.recs, lo := 0, hi := 0, chunk := 0, launch := (r.map (·.launch)).getD 0, gang := b.gang }

/-- The bin of a code address and a gang. -/
def Bin.isOf (code : Word) (gang : Nat) (b : Bin) : Bool := b.code == code && b.gang == gang

def setBin (s : State) (core : Nat) (code : Word) (gang : Nat) (f : Bin → Bin) : State :=
  modCore s core fun c => { c with bins := updIf (Bin.isOf code gang) f c.bins }

/-- A bin becomes a warp and is pushed; refused, it waits in its bin (R97). -/
def flushBin (s : State) (core : Nat) (code : Word) (gang : Nat) : State × Bool :=
  match (getCore s core).bins.find? (Bin.isOf code gang) with
  | none => (s, true)
  | some b =>
    match pushEntry s core (binEntry b) with
    | (s, true) => (modCore s core fun c => { c with bins := c.bins.filter fun x => !x.isOf code gang }, true)
    | (s, false) => (setBin s core code gang fun b => { b with held := true }, false)

/-- Bins whose warps wait are pushed, the oldest first. -/
def flushHeld (s : State) (core : Nat) : State :=
  (sortBy (fun b => b.opened) ((getCore s core).bins.filter (·.held))).foldl (fun s b => (flushBin s core b.code b.gang).1) s

/-- Deposits one record (R90); false where its bin is held. -/
def deposit (s : State) (core : Nat) (r : Rec) : State × Bool :=
  let s := flushHeld s core
  match (getCore s core).bins.find? (Bin.isOf r.code r.gang) with
  | some b =>
    if b.held then (s, false)
    else
      let s := setBin s core r.code r.gang fun b => { b with recs := b.recs ++ [r] }
      (if b.recs.length + 1 < Config.width then s else (flushBin s core r.code r.gang).1, true)
  | none =>
    let openBin := fun (s : State) => modCore s core fun c => { c with bins := c.bins ++ [⟨r.code, r.gang, [r], s.now, false⟩] }
    if (getCore s core).bins.length < Config.binnerBins then (openBin s, true)
    else match minBy (fun b => b.opened) (getCore s core).bins with
    | none => (s, false)
    | some b => match flushBin s core b.code b.gang with
      | (s, true) => (openBin s, true)
      | (s, false) => (s, false)

/-! ## SPAWN (R399) -/

/-- A group's lanes that all carry the spawner's gang; the record's clock is the spawner's. -/
def recOf (w : Workgroup) (t : Thread) (code : Word) (args : List W32) (vc : List (Nat × Nat)) : Rec :=
  ⟨code, args, t.fdepth + 1, w.launch, w.gang, vc⟩

/-- The word retires with a predicate where the form names one. -/
def spawnRetire (s : State) (w : Workgroup) (t : Tid) (l : List SrcSpec) (pops : List Nat) (nb : Option (BitVec 3)) (ok : Bool) : State × LaneRes :=
  let fin := fun (x : Thread) => match nb with
    | some n => setPred (takeSources x l pops) n.toNat ok
    | none => takeSources x l pops
  (touchRegs (modT s t fin) w t (markedRegs l), .retire [])

def okWord (ok : Bool) : List FillWord := [⟨if ok then 1 else 0, false, []⟩]

/-- What a push of a spawn word comes to: whether it was made, or why the word stops. -/
inductive Pushed where
  | done (ok : Bool)
  | stop (r : LaneRes)

/-- One push: made at once, held for comparison by a chanter, or made for the chanter after a match (R401). A chanter's .nb result passes to the drone. -/
def spawnPush (s : State) (w : Workgroup) (t : Thread) (nb : Bool) (g : Sig) (h : Held) (push : State → Nat → State × Bool) : State × Pushed :=
  match w.role with
  | .single =>
    (match push (pin s w.id) t.tid.core with
     | (s, true) => (bumpVc s t.tid, .done true)
     | (s, false) => if nb then (s, .done false) else (s, .stop (.wait .push)))
  | .chanter =>
    if valuesFull s w then (s, .stop (.wait .resource))
    else
      let s := pin s w.id
      let ok := !nb || (push s t.tid.core).2
      if !ok then (queueValue s w t.tid (some (okWord false)) false false, .done false)
      else match compareEnter s w t g [] h with
      | none => (s, .stop (.wait .resource))
      | some s => (bumpVc (if nb then queueValue s w t.tid (some (okWord true)) false false else s) t.tid, .done true)
  | .drone =>
    match if nb then takeValue s w t.tid else some (s, okWord true, false) with
    | none => (s, .stop (.wait .resource))
    | some (s1, ws, _) =>
      if (ws.headD ⟨0, false, []⟩).val == 0 then (s1, .done false)
      else match compareMatch s1 w t g with
      | (s2, .stop r) => (s2, .stop r)
      | (s2, .hit ct _) => (match push s2 ct.core with
        | (s3, true) => (s3, .done true)
        | (_, false) => (s, .stop (.wait .push)))

def execSpawn (pg : Guard) (nb : Option (BitVec 3)) (code args : Src) (s : State) : Host.Outcome State Fault Refusal :=
  let src : List SrcSpec := [⟨code, 2, .int⟩, ⟨args, 4, .int⟩]
  .next (perLane s pg fun s w t =>
    let bad := fun (vals : List Opv) =>
      (if (opv vals 0).word.toNat % 8 ≠ 0 then [({ code := 0x02 } : Cause)] else []) ++ (if 15 ≤ t.fdepth then [{ code := 0xA0 }] else [])
        ++ poisonCauses [0] vals
    withSrcs s w t src .zero 0 bad fun vals pops =>
      let a := (opv vals 0).word
      if w.role != .drone && releasePending s t.tid .die then (s, .wait .release)
      else
        let r := recOf w t a (opv vals 1).words (vcOf s t.tid)
        match spawnPush s w t nb.isSome ⟨a, 24, wordsNat r.args⟩ (.spawn r) fun s core => deposit s core (match w.role with
            | .drone => { r with launch := (mateOf s w).launch, gang := (mateOf s w).gang }
            | _ => r) with
        | (s, .stop z) => (s, z)
        | (s, .done ok) => spawnRetire s w t.tid src pops nb ok)

/-! ## SPAWNW and SPAWNR (R400) -/

def taskKind (s : State) (w : Workgroup) (k : Nat) : Option TaskKind :=
  match getLaunch s w.launch with
  | none => none
  | some l => (l.kinds.drop k).head?.bind fun e => if e.valid then some e else none

def kindCauses (s : State) (w : Workgroup) (k : Nat) (ts : List Thread) : List Cause :=
  (if (taskKind s w k).isNone then [({ code := 0xA3 } : Cause)] else []) ++ (if ts.any fun t => decide (15 ≤ t.fdepth) then [{ code := 0xA0 }] else [])

/-- The clocks of all the lanes, which every thread of the entry joins (R402). -/
def lanesVc (s : State) (ts : List Tid) : List (Nat × Nat) := ts.foldl (fun v t => vcJoin v (vcOf s t)) []

def lanesPending (s : State) (w : Workgroup) (ts : List Tid) (sc : Scope) : Bool := w.role != .drone && ts.any fun t => releasePending s t sc

def execSpawnw (pg : Guard) (nb : Option (BitVec 3)) (k : BitVec 4) (args : Src) (s : State) : Host.Outcome State Fault Refusal :=
  let src : List SrcSpec := [⟨args, 4, .int⟩]
  .next (crossLane s pg src .zero 0 0 (fun s x => lowest (kindCauses s x.w k.toNat ((activeLanes s pg).map (·.1)))) fun s lanes =>
    let tids := lanes.map fun x => x.t.tid
    match lanes.head? with
    | none => s
    | some x0 =>
      if lanesPending s x0.w tids .die then tids.foldl (fun s t => waitFor s t .release) s
      else
        let vc := lanesVc s tids
        let code := ((taskKind s x0.w k.toNat).map (·.entry)).getD 0
        let recs := lanes.map fun x => recOf x0.w x.t code (opv x.vals 0).words vc
        let e : DEntry := { seq := 0, code := code, kind := 1, taskKind := k.toNat, recs := recs, lo := 0, hi := 0, chunk := 0, launch := x0.w.launch, gang := x0.w.gang }
        let g : Sig := ⟨code, 16 * recs.length, leNat (recs.flatMap fun r => leBytes 16 (wordsNat r.args))⟩
        match spawnPush s x0.w x0.t nb.isSome g (.push e) fun s core => pushEntry s core e with
        | (s, .stop (.wait z)) => tids.foldl (fun s t => waitFor s t z) s
        | (s, .stop (.kill c a)) => settleTraps s (trapPc s.cur) s.cur.legacy [] [] [(x0.t.tid, { code := c, addr := a })]
        | (s, .stop _) => s
        | (s, .done ok) =>
          crossWrite s src none lanes fun _ => { words := [], preds := match nb with
            | some n => [(n.toNat, ok)]
            | none => [] })

def execSpawnr (pg : Guard) (nb : Option (BitVec 3)) (k : BitVec 4) (lo hi chunk : Src) (s : State) : Host.Outcome State Fault Refusal :=
  .next (perGroup s pg [⟨lo, 2, .int⟩, ⟨hi, 2, .int⟩, ⟨chunk, 1, .int⟩] .zero 0 [] fun s w t v tids =>
    let ts := tids.filterMap (getT s)
    let pred := fun (s : State) (ok : Bool) => match nb with
      | some n => tids.foldl (fun s t => modT s t fun x => setPred x n.toNat ok) s
      | none => s
    match lowest (kindCauses s w k.toNat ts) with
    | some c => (s, .trap c)
    | none =>
      if lanesPending s w tids .die then (s, .wait .release)
      else
        let l := (opv v 0).word
        let h := (opv v 1).word
        if h.toNat ≤ l.toNat then (pred (pin s w.id) true, .retire)
        else
          let vc := lanesVc s tids
          let code := ((taskKind s w k.toNat).map (·.entry)).getD 0
          let c := (opv v 2).w32
          let e : DEntry := { seq := 0, code := code, kind := 2, taskKind := k.toNat, recs := ts.map fun t => recOf w t code [0, 0, 0, 0] vc, lo := l, hi := h,
                              chunk := if c == 0 then 1 else c, launch := w.launch, gang := w.gang }
          match spawnPush s w t nb.isSome ⟨code, 20, l.toNat + h.toNat * 2 ^ 64⟩ (.push e) fun s core => pushEntry s core e with
          | (s, .stop z) => groupOf (s, some z)
          | (s, .done ok) => (pred s ok, .retire))

/-! ## TGET (R403) -/

def rangeOf (s : State) (t : Tid) : Option LiveRange := (getCore s t.core).ranges.find? fun r => r.slot == t.slot

/-- The next chunk: its bounds. -/
def nextChunk (r : LiveRange) : Word × Word :=
  (r.next, BitVec.ofNat 64 (Nat.min (r.next.toNat + r.entry.chunk.toNat) r.entry.hi.toNat))

def execTget (pg : Guard) (d : Dst) (s : State) : Host.Outcome State Fault Refusal :=
  .next (perLane s pg fun s w t =>
    let extra : List Cause := if (getWarp s t.tid.core t.tid.slot).any (·.ranged) then [] else [{ code := 0xA4 }]
    withSrcs s w t [] d 4 (fun _ => extra) fun _ pops =>
      if w.role == .drone then
        match takeValue s w t.tid with
        | none => (s, .wait .resource)
        | some (s, ws, _) => (deliver s w t.tid [] pops d 4 .unit_ none 0 ws false, .retire [])
      else if valuesFull s w then (s, .wait .resource)
      else match rangeOf s t.tid with
      | none => (s, .trap { code := 0xA4 })
      | some r =>
        let c := nextChunk r
        let s := modCore (pin s w.id) t.tid.core fun x => { x with ranges := updIf (fun y => y.slot == t.tid.slot) (fun y => { y with next := c.2 }) x.ranges }
        let ws : List FillWord := (wordsOf 2 c.1.toNat ++ wordsOf 2 c.2.toNat).map fun x => ⟨x, false, []⟩
        (deliver (queueValue s w t.tid (some ws) false false) w t.tid [] pops d 4 .unit_ none 0 ws false, .retire []))

/-! ## LAUNCH (R404) -/

def execLaunch (pg : Guard) (rec : Src) (s : State) : Host.Outcome State Fault Refusal :=
  .next (perGroup s pg [⟨rec, 2, .int⟩] .zero 0 [0] fun s w t v tids =>
    let a := (opv v 0).word
    let g : Sig := ⟨a, 128, 0⟩
    let start := fun (s : State) (r : LaunchRec) (ks : List TaskKind) => (startLaunch s w.pasid r ks none (lanesVc s tids)).1
    if w.role == .drone then
      match compareMatch s w t g with
      | (s, .stop r) => groupOf (s, some r)
      | (s, .hit _ (.launch r ks)) => (start s r ks, .retire)
      | (s, .hit _ _) => (s, .retire)
    else if lanesPending s w tids .dev then (s, .wait .release)
    else if a.toNat % 128 ≠ 0 then (s, .trap { code := 0xA3 })
    else match plainRead s w t a 128 128 with
    | (s, .inr r) => groupOf (s, some r)
    | (s, .inl b) =>
      let r := launchOf b
      if !launchOk s w.pasid (some w.region) b then (s, .trap { code := 0xA3 })
      else match (if r.tasks == 0 then (s, Sum.inl []) else plainRead s w t r.tasks 256 256) with
      | (s, .inr z) => groupOf (s, some z)
      | (s, .inl kb) =>
        if r.tasks != 0 && !kindsOk s w.pasid r.region kb then (s, .trap { code := 0xA3 })
        else if !launchRoom s then (s, .wait .resource)
        else
          let ks := kindsOf r kb
          let s := countWalks (pin s w.id) w.pasid (r.entry :: ks.map (·.entry))
          if w.role == .chanter then
            (match compareEnter s w t g [] (.launch r ks) with
             | none => (s, .wait .resource)
             | some s => (tids.foldl bumpVc s, .retire))
          else (tids.foldl bumpVc (start s r ks), .retire))

end Sys2Proof.Machine
end

