-- ==== Sys2Proof/Machine/Placing.lean ====
section
/-! DEFINITION. Placing: room on cores (R83), forming workgroups, warps and threads (R77, R91, R92, R157), the order of placement (R82),
pre-emption and resumption (R84 to R89), budgets (R71 to R73), retirement with its completion OR (R79), and dependency tests (R81). -/

namespace Sys2Proof.Machine

/-! ## Room on a core (R75, R83) -/

/-- A workgroup that takes segments and warp slots, when those in `out` do not count. -/
def occupies (out : List Nat) (w : Workgroup) : Bool := !out.contains w.id && (w.state == .resident || w.state == .held)

def onCore (s : State) (core : Nat) (out : List Nat) : List Workgroup := s.wgs.filter fun w => w.core == core && occupies out w

def segsUsed (s : State) (core : Nat) (out : List Nat) : List Nat := (onCore s core out).flatMap fun w => w.segs.map (·.index)

def slotsUsed (s : State) (core : Nat) (out : List Nat) : Nat := (onCore s core out).foldl (fun n w => n + w.nwarps) 0

/-- Operand units and tiles in use, with what pooled claims hold beyond them; frozen workgroups keep theirs (R86). -/
def opUsed (s : State) (core : Nat) (gone : List Nat) : Nat :=
  ((storeHolders s core).filter fun w => !gone.contains w.id).foldl (fun n w => n + w.opUnits + (pooledBytes w + 8191) / 8192) 0

def accsUsed (s : State) (core : Nat) (gone : List Nat) : Nat :=
  ((storeHolders s core).filter fun w => !gone.contains w.id).foldl (fun n w => n + w.accs + pooledTiles w) 0

def segsFor (bytes : Nat) : Nat := (bytes + Config.segmentBytes - 1) / Config.segmentBytes

/-- What each core of a gang needs; in far mode the paired core takes the drone. -/
structure CoreNeed where
  n : Nat
  segs : Nat
  slots : Nat
  opUnits : Nat
  accs : Nat
  far : Bool

/-- `redund` 1 near, 2 far. -/
def needOf (redund n warps bytes opUnits accs : Nat) : CoreNeed :=
  { n := n, segs := segsFor (coreFootprint redund bytes), slots := if redund = 1 then 2 * warps else warps, opUnits := opUnits, accs := accs, far := redund == 2 }

def launchNeed (r : LaunchRec) (redund : Nat) : CoreNeed :=
  needOf redund r.wgs r.warps (footprint r.warps r.vregs r.shadows r.scratch r.undo) r.opUnits r.accs

/-- Segments and slots fit; `gone` are those of `out` that are discarded. -/
def roomFits (s : State) (core : Nat) (out : List Nat) (segs slots : Nat) : Bool :=
  dieIn s (coreDie core) && !reservedCore core && decide ((segsUsed s core out).length + segs ≤ Config.segments)
    && decide (slotsUsed s core out + slots ≤ Config.warpSlots)

def coreFits (s : State) (core : Nat) (out gone : List Nat) (d : CoreNeed) : Bool :=
  roomFits s core out d.segs d.slots && decide (opUsed s core gone + d.opUnits ≤ 64) && decide (accsUsed s core gone + d.accs ≤ Config.accTiles)
    && (!d.far || roomFits s (core ^^^ 1) out d.segs d.slots)

/-- The cores of a cluster that a gang takes, in ascending order, or none. -/
def chooseCores (s : State) (cl : Nat) (out gone : List Nat) (d : CoreNeed) : Option (List Nat) :=
  let r := (List.range 4).foldl (fun (a : List Nat × List Nat) i =>
    let c := 4 * cl + i
    if a.1.length < d.n ∧ !a.2.contains c ∧ (!d.far || !a.2.contains (c ^^^ 1)) ∧ coreFits s c out gone d then
      (a.1 ++ [c], a.2 ++ (if d.far then [c, c ^^^ 1] else [c])) else a) ([], [])
  if r.1.length = d.n then some r.1 else none

/-! ## Budgets (R70 to R72) -/

def ownsField (r : Region) (i : Nat) : Bool := r.rcb.parent == 0 || r.rcb.inherit_.getLsbD i

/-- The window's quota of a region in core-nanoseconds; none where it owns none or is unlimited. -/
def quotaNs (r : Region) : Option Nat := if ownsField r 0 && r.rcb.quota != 0xFFFFFFFF then some (r.rcb.quota.toNat * 1000) else none

/-- A region has spent its own quota in this window. -/
def spent (r : Region) : Bool := r.live && (quotaNs r).any fun q => decide (q ≤ r.charged)

/-- A pool on the chain of a region is exhausted. -/
def poolSpent (s : State) (pasid : Nat) (addr : Word) : Bool :=
  (ancestors s pasid addr).any fun a => (getRegion s pasid a).any fun r => ownsField r 0 && (r.exhausted || spent r)

def subtreeWgs (s : State) (pasid : Nat) (top : Word) : List Workgroup :=
  s.wgs.filter fun w => w.pasid == pasid && w.state != .killed && w.state != .ended && inSubtree s pasid top w.region

/-- max_cores and max_op_units of every node on the chain admit work on more cores, beside what its subtree holds, pooled claims among it (R72). -/
def limitOk (s : State) (pasid : Nat) (addr : Word) (cores : List Nat) (opUnits : Nat) : Bool :=
  (ancestors s pasid addr).all fun a => (getRegion s pasid a).all fun r =>
    let ws := subtreeWgs s pasid a
    let held := ((ws.filter (occupies [])).map (·.core) ++ cores).eraseDups
    (!ownsField r 1 || decide (held.length ≤ r.rcb.maxCores))
      && (!ownsField r 2 || decide (ws.foldl (fun n w => n + w.opUnits + (pooledBytes w + 8191) / 8192) opUnits ≤ r.rcb.maxOp))

/-- Core-time: one core-nanosecond for each core on which a workgroup of the subtree is resident and not frozen (R71). -/
def chargeTime (s : State) (dt : Nat) : State :=
  { s with regions := s.regions.map fun r =>
      if r.live then { r with charged := r.charged + dt * (((subtreeWgs s r.pasid r.addr).filter fun w => w.state == .resident).map (·.core)).eraseDups.length }
      else r }

def execBudgetExhausted (pasid : Nat) (rcb : Word) (s : State) : Host.Outcome State Fault Refusal :=
  .next (match getRegion s pasid rcb with
    | none => s
    | some r =>
      if r.exhausted || !spent r then s
      else
        let s := { s with regions := updIf (fun x => x.pasid == pasid && x.addr == rcb && x.live) (fun x => { x with exhausted := true }) s.regions }
        let hit := fun (w : Workgroup) => w.pasid == pasid && w.state == .resident && inSubtree s pasid rcb w.region
        { s with wgs := updIf hit (fun w => { w with state := .held, frozenAt := s.now }) s.wgs })

/-- A frozen or held workgroup runs again; a rollback that was due is made now (R143). -/
def thaw (s : State) (id : Nat) : State :=
  let s := modWg s id fun w => { w with state := .resident, frozenFor := w.frozenFor + (s.now - w.frozenAt) }
  settleRollback { s with threads := updIf (fun t => t.wg == id && t.run == .ready) (fun t => { t with able := s.now }) s.threads } id

/-- The next window: pools refill, commits that waited take effect, workgroups frozen by a budget resume (R71 to R73). -/
def execBudgetWindowBoundary (s : State) : Host.Outcome State Fault Refusal :=
  if s.ns < s.window + 10000000 then .next s
  else
    let s : State := { s with
      window := s.ns / 10000000 * 10000000
      regions := s.regions.map fun r => { r with rcb := r.pending.getD r.rcb, pending := none, charged := 0, exhausted := false } }
    .next (((s.wgs.filter fun w => w.state == .held).map (·.id)).foldl thaw s)

/-! ## Segments (R85) -/

/-- The frozen workgroup whose contents stand in a segment. -/
def contentOf (s : State) (core i except : Nat) : Option Nat :=
  (s.wgs.find? fun w => w.core == core && w.state == .frozen && w.id != except && w.segs.any fun g => g.index == i && g.victim.isNone && !g.saved).map (·.id)

/-- Segments for a newcomer: free ones first, then those of frozen workgroups from the highest-numbered down. -/
def takeSegs (s : State) (core n : Nat) : List Seg :=
  let used := segsUsed s core []
  let open_ := (List.range Config.segments).filter fun i => !used.contains i
  let order := (open_.filter fun i => (contentOf s core i 0).isNone) ++ (open_.filter fun i => (contentOf s core i 0).isSome).reverse
  (order.take n).map fun i => ⟨i, contentOf s core i 0, false, false, 0⟩

/-! ## Forming workgroups -/

/-- A thread to be: lane, arguments for v0 to v3, depth, and the clock it starts from. -/
structure Seed where
  lane : Nat
  args : List W32
  fdepth : Nat
  vc : List (Nat × Nat)

/-- RNGSTATE and TANRNG at thread start (R225). -/
def seedRng (lane mul : Nat) : W32 := BitVec.ofNat 32 ((lane + 1) * mul)

/-- A thread at its start (R157, R300). Its own clock starts above that of any earlier thread of its name. -/
def newThread (t : Tid) (wg vregs : Nat) (pc : Word) (d : Seed) (now : Nat) : Thread :=
  { tid := t, wg := wg, pc := pc, hdr := none, legacy := false, depth := 0, run := .ready, since := none, able := now, pl := 0, fdepth := d.fdepth,
    v := ((List.range d.args.length).filter fun i => decide (i < vregs)).map fun i => (i, ⟨.full, d.args.getD i 0, []⟩)
    o := [], lr := 0, lrPoison := false, lrSh := [], p := 0, q := [], links := [], held := [], numerr := false, fstat := 0,
    rng := seedRng t.lane 0x9E3779B9, tanrng := seedRng t.lane 0x85EBCA6B, trap := TrapState.clear, armed := none, injected := false, hash := 0,
    notified := none, passed := false, mpoison := false, reedDue := false, resumed := false, retrying := none, atoms := 0, tokens := [], vc := kset (Tid.key t) (wg * 2 ^ 32) d.vc }

/-- What a workgroup is made from. `warps` gives the threads of each. -/
structure WgSpec where
  gang : Nat
  launch : Nat
  pasid : Nat
  region : Word
  gen : Byte
  rcb : Rcb
  index : Nat
  entry : Word
  args : Word
  warps : List (List Seed)
  vregs : Nat
  shadows : Nat
  scratch : Nat
  undo : Nat
  opUnits : Nat
  accs : Nat
  pooled : Bool
  uchk : Bool
  task : Option Nat
  fromDeque : Bool
  ranged : Bool

/-- The lowest `n` slot numbers of a core that no warp has. -/
def freshSlots (s : State) (core n : Nat) : List Nat :=
  let used := (s.warps.filter fun w => w.core == core).map (·.slot)
  ((List.range (used.length + n)).filter fun i => !used.contains i).take n

/-- Forms one workgroup on a core; answers its number. -/
def formWg (s : State) (x : WgSpec) (core : Nat) (role : Role) (mate : Nat) (segs : List Seg) : State × Nat :=
  let (s, id) := newId s
  let slots := freshSlots s core x.warps.length
  let at_ := fun (i : Nat) => slots.getD i 0
  let idx := List.range x.warps.length
  let warps : List Warp := idx.map fun i =>
    { core := core, slot := at_ i, wg := id, index := i, g := [(0, Word.lo x.args), (1, Word.hi x.args)], gsh := [], origin := [], uchk := x.uchk, slip := 0,
      linkbase := 0xFFFFFFFF, ranged := x.ranged }
  let threads : List Thread := idx.flatMap fun i => (x.warps.getD i []).map fun d => newThread ⟨core, at_ i, d.lane⟩ id x.vregs x.entry d s.now
  let keys := threads.flatMap fun t => [relKey t.tid, readKey t.tid]
  let wg : Workgroup :=
    { id := id, gang := x.gang, launch := x.launch, pasid := x.pasid, region := x.region, index := x.index, core := core, role := role, mate := mate,
      state := .resident, task := x.task, fromDeque := x.fromDeque, nwarps := x.warps.length, vregs := x.vregs, shadows := x.shadows, scratch := x.scratch,
      undoMax := x.undo, opUnits := if role == .drone then 0 else x.opUnits, accs := if role == .drone then 0 else x.accs, pooled := x.pooled, rcb := x.rcb,
      gen := x.gen, segs := segs, pad := [], padPoison := [], smap := [], chunks := [], bar := none, epoch := Epoch.empty,
      mx := { cfg := none, slots := 0, tiles := 0, slotMem := [], slotPoison := [], acc := [], reed := ⟨none, x.warps.length - 1, [], 0⟩ }
      placedAt := s.now, frozenAt := 0, frozenFor := 0, rollbackDue := false }
  let s := { s with warps := s.warps ++ warps, threads := s.threads ++ threads, wgs := s.wgs ++ [wg], fenceVc := s.fenceVc.filter fun e => !keys.contains e.addr }
  (modGang (startEpoch s id) x.gang fun g => { g with wgs := g.wgs ++ [id] }, id)

/-- Bytes of core store of one copy of a workgroup. -/
def WgSpec.bytes (x : WgSpec) : Nat := footprint x.warps.length x.vregs x.shadows x.scratch x.undo

/-- Forms a workgroup, or under redundancy the chanter with its drone (R144, R78). -/
def formPair (s : State) (x : WgSpec) (core : Nat) : State × Nat :=
  let segs := fun (s : State) (c : Nat) (near : Bool) => takeSegs s c (segsFor (if near then 2 * x.bytes else x.bytes))
  match x.rcb.redund with
  | 0 => formWg s x core .single 0 (segs s core false)
  | m =>
    let near := m == 1
    let (s, a) := formWg s x core .chanter 0 (segs s core near)
    let c := if near then core else core ^^^ 1
    let (s, b) := formWg s x c .drone a (if near then [] else segs s c false)
    (modWg s a fun w => { w with mate := b }, a)

/-! ## The order of placement (R82) -/

/-- The lowest gang of a launch that is ready and not taken. -/
def nextGang (x : Launch) : Option Nat :=
  if x.cut || x.done then none
  else if (deps x.rcd).isEmpty then
    ((List.range (x.taken.length + 1)).map (x.low + ·)).find? fun g => decide (g < gangCount x.rcd) && !x.taken.contains g
  else minBy id ((x.ready.map (·.1)).filter (unplaced x))

def takeGang (g : Nat) (x : Launch) : Launch :=
  let taken := if x.taken.contains g then x.taken else x.taken ++ [g]
  let low := ((List.range (taken.length + 1)).map (x.low + ·)).find? fun i => !taken.contains i
  let low := low.getD x.low
  { x with low := low, taken := taken.filter fun i => decide (low ≤ i) }

/-- A discarded gang goes back to the ready list (R89). -/
def returnGang (g : Nat) (x : Launch) : Launch :=
  let old := (List.range (x.low - g)).map (g + ·)
  { x with low := Nat.min x.low g, taken := (old ++ x.taken).filter (· != g) }

/-- Class of a launch's region. -/
def launchClass (s : State) (x : Launch) : Nat := (effective s x.pasid x.rcd.region).cls

/-- Core-time charged over weight, exact enough to order any two quotients. -/
def launchQuotient (s : State) (x : Launch) : Nat :=
  ((getRegion s x.pasid x.rcd.region).map (·.charged)).getD 0 * 2 ^ 32 / Nat.max 1 (effective s x.pasid x.rcd.region).weight

/-- The order of R82 as one number. -/
def launchKey (s : State) (x : Launch) : Nat :=
  (((3 - launchClass s x) * 2 ^ 160 + launchQuotient s x) * 2 ^ 64 + x.rcd.region.toNat) * 2 ^ 64 + x.id

def candidates (s : State) : List (Launch × Nat) :=
  (sortBy (launchKey s) s.launches).filterMap fun x => (nextGang x).map fun g => (x, g)

/-- A workgroup gives back its core store and its warps. -/
def closeWg (s : State) (id : Nat) : State :=
  let gone := fun (core slot : Nat) => s.warps.any fun w => w.wg == id && w.core == core && w.slot == slot
  let s := { s with
    threads := s.threads.filter fun t => t.wg != id
    warps := s.warps.filter fun w => w.wg != id
    groups := s.groups.filter fun g => !(g.tids.all fun t => gone t.core t.slot)
    loads := s.loads.filter fun l => !gone l.tid.core l.tid.slot
    streams := s.streams.filter fun x => x.wg != id
    values := s.values.filter fun v => v.wg != id
    cores := s.cores.map fun c => (c.1, { c.2 with ranges := c.2.ranges.filter fun r => !gone c.1 r.slot }) }
  modWg s id fun w => { w with state := if w.state == .killed then .killed else .ended, segs := [], pad := [], padPoison := [], smap := [], chunks := [], bar := none }

/-! ## Pre-emption (R84, R85, R89) -/

/-- The workgroups placed, pre-empted and resumed with `w`. -/
def unitOf (s : State) (w : Workgroup) : List Workgroup :=
  let g := fun (x : Workgroup) => if w.fromDeque then x.id == w.id || (w.role != .single && x.id == w.mate) else x.gang == w.gang && !x.fromDeque
  s.wgs.filter fun x => g x && x.state != .killed && x.state != .ended

def unitClass (s : State) (u : List Workgroup) : Nat := u.foldl (fun n w => Nat.max n (wgClass s w)) 0

/-- An idempotent gang that holds no colour is discarded and not saved (R89). -/
def discards (s : State) (u : List Workgroup) : Bool :=
  u.all fun w => w.rcb.idem && !w.fromDeque && (wgThreads s w.id).all fun t => t.held.isEmpty

/-- A thread of a workgroup that can issue stands inside a clause: it goes on to the clause's end before it freezes (R85; assumption log 83). -/
def inClause (s : State) (w : Workgroup) : Bool :=
  (wgThreads s w.id).any fun t => t.run == .ready && (t.hdr.isSome || s.groups.any fun g => g.tids.contains t.tid)

/-- Nothing of a unit runs any more on its core store. -/
def quiet (s : State) (u : List Workgroup) : Bool := u.all fun w => !inClause s w && !coreOpsRunning s w.id

/-- Discards a unit: its gang goes back to the ready list, its entries of the side log go on replaying (R89, R120). -/
def discardUnit (s : State) (u : List Workgroup) : State :=
  let ids := u.map (·.id)
  let s := u.foldl (fun s w => closeWg (dropWg s w.id true) w.id) s
  let free := fun (g : Seg) => { g with victim := g.victim.filter fun v => !ids.contains v }
  let s := { s with wgs := s.wgs.map fun w => { w with segs := w.segs.map free } }
  match u.head? with
  | none => s
  | some w =>
    let g := ((getGang s w.gang).map (·.index)).getD 0
    wakeAll (modLaunch (modGang s w.gang fun x => { x with state := .waiting, wgs := [] }) w.launch (returnGang g))

/-- The dirty chunks of a frozen workgroup go back to memory as stores of its lowest-numbered thread, as far as they can (R116, R117). Those of a pair under redundancy stay, since its two groups freeze at different points and no comparison is possible (assumption log 83). -/
def writeBackAll (s : State) (w : Workgroup) : State :=
  match (wgThreads s w.id).head? with
  | none => s
  | some t => if w.role != .single then s else w.smap.foldl (fun s b => (writeBackBinding s w.id t b).1) s

/-- What follows the freeze of a unit, once its threads have come to their clause ends: it is discarded, or its dirty chunks are written back. -/
def settleUnit (s : State) (u : List Workgroup) : State :=
  let u := u.filterMap fun w => (getWg s w.id).filter fun x => x.state == .frozen
  if u.any (inClause s) then s
  else if discards s u then (if quiet s u then discardUnit s u else s)
  else u.foldl writeBackAll s

/-- The frozen units of a core. -/
def frozenOn (s : State) (core : Nat) : List (List Workgroup) :=
  ((s.wgs.filter fun w => w.state == .frozen && w.core == core).map (unitOf s)).eraseDups

/-- Frozen units of a core whose threads have stopped (R85, R89, R116). -/
def settleFrozen (s : State) (core : Nat) : State := (frozenOn s core).foldl settleUnit s

/-- Freezes a unit. -/
def freezeUnit (s : State) (u : List Workgroup) : State :=
  let ids := u.map (·.id)
  let freeze := fun (w : Workgroup) =>
    { w with state := .frozen, frozenAt := if w.state == .held then w.frozenAt else s.now, segs := w.segs.map fun g => { g with saving := false, moved := 0 } }
  settleUnit { s with wgs := updIf (fun w => ids.contains w.id && occupies [] w) freeze s.wgs } u

/-- The units of a cluster that a newcomer of class `cls` may pre-empt: lowest class first, then the most recently placed. -/
def victims (s : State) (cl cls : Nat) : List (List Workgroup) :=
  let ws := s.wgs.filter fun w => clusterId w.core == cl && occupies [] w
  let us := (ws.map (unitOf s)).eraseDups
  let ok := us.filter fun u => decide (unitClass s u < cls) || u.all fun w => w.state == .held
  sortBy (fun u => unitClass s u * 2 ^ 64 + (2 ^ 64 - 1 - ((u.head?).map (·.placedAt)).getD 0)) ok

/-- The shortest run of victims that makes `fits` hold. -/
def enoughVictims (s : State) (fits : List Nat → List Nat → Bool) : List (List Workgroup) → List (List Workgroup) → Option (List (List Workgroup))
  | [], _ => none
  | u :: r, acc =>
    let acc := acc ++ [u]
    let out := acc.flatten.map (·.id)
    let gone := (acc.filter fun u => discards s u && quiet s u).flatten.map (·.id)
    if fits out gone then some acc else enoughVictims s fits r acc

/-- The cluster of a die that needs the fewest victim workgroups. -/
def preemptChoice (s : State) (die cls : Nat) (d : CoreNeed) : Option (Nat × List (List Workgroup)) :=
  let all := (List.range Config.clustersPerDie).filterMap fun i =>
    let cl := die * Config.clustersPerDie + i
    (enoughVictims s (fun out gone => (chooseCores s cl out gone d).isSome) (victims s cl cls) []).map fun v => (cl, v)
  minBy (fun e => e.2.flatten.length) all

/-! ## Placing a gang (R77, R83) -/

def dieClusters (die : Nat) : List Nat := (List.range Config.clustersPerDie).map (die * Config.clustersPerDie + ·)

/-- The clocks that the ready test of a gang has acquired (R81): a release at die scope orders only gangs of its die. -/
def depVc (x : Launch) (die g : Nat) : List (Nat × Nat) :=
  (((kfind g x.ready).getD []).filter fun e => e.scope != .die || coreDie e.tid.core == die).foldl (fun v e => vcJoin v e.vc) []

def gangSpec (s : State) (x : Launch) (gang i : Nat) (vc : List (Nat × Nat)) : WgSpec :=
  let r := x.rcd
  { gang := gang, launch := x.id, pasid := x.pasid, region := r.region, gen := x.gen, rcb := effective s x.pasid r.region, index := i, entry := r.entry, args := r.args,
    warps := List.replicate r.warps ((List.range Config.width).map fun l => ⟨l, [], 0, vc⟩)
    vregs := r.vregs, shadows := r.shadows, scratch := r.scratch, undo := r.undo, opUnits := r.opUnits, accs := r.accs, pooled := r.pooled, uchk := r.uchk,
    task := none, fromDeque := false, ranged := false }

/-- Places gang `g` on chosen cores. -/
def placeOn (s : State) (x : Launch) (g : Nat) (cores : List Nat) : State :=
  let die := ((cores.head?).map coreDie).getD 0
  let cl := ((cores.head?).map coreCluster).getD 0
  let vc := vcJoin x.vc (depVc x die g)
  let (s, id) := match s.gangs.find? fun y => y.launch == x.id && y.index == g && y.state == .waiting with
    | some y => (modGang s y.id fun y => { y with state := .placed, die := die, cluster := cl, placedAt := s.now, wgs := [] }, y.id)
    | none =>
      let (s, id) := newId s
      ({ s with gangs := s.gangs ++ [⟨id, x.id, g, die, cl, .placed, [], false, s.now, false, none, []⟩] }, id)
  let s := (List.range cores.length).foldl (fun s i => (formPair s (gangSpec s x id i vc) (cores.getD i 0)).1) s
  modLaunch s x.id (takeGang g)

/-- The completion bit of a gang: address of its word, and place in it. -/
def completionBit (r : LaunchRec) (g : Nat) : Word × Nat :=
  let b := r.cfirst + BitVec.ofNat 64 g
  (r.cmap + BitVec.ofNat 64 (b.toNat / 64 * 8), b.toNat % 64)

def completionSet (s : State) (x : Launch) (g : Nat) : Bool :=
  let b := completionBit x.rcd g
  x.rcd.cmap != 0 && (match (walk s x.pasid b.1.toNat).2 with
    | .leaf l _ => (match canon s x.pasid (leafPa l b.1.toNat) with
      | some a => bitAt (leNat (readHbmRange s a 8 l.layout l.key).2.bytes) b.2
      | none => false)
    | _ => false)

/-- Places one gang on a die, or none where nothing fits. -/
def tryPlace (s : State) (die : Nat) (x : Launch) (g : Nat) : Option State :=
  if x.skipDone && completionSet s x g then
    some (modLaunch s x.id fun y => { takeGang g y with retired := y.retired + 1 })
  else if poolSpent s x.pasid x.rcd.region then none
  else
    let b := effective s x.pasid x.rcd.region
    let d := launchNeed x.rcd b.redund
    let all := fun (cores : List Nat) => cores ++ (if d.far then cores.map (· ^^^ 1) else [])
    let place := fun (s : State) (cl : Nat) => (chooseCores s cl [] [] d).bind fun cores =>
      if limitOk s x.pasid x.rcd.region (all cores) (d.n * d.opUnits) then some (placeOn s x g cores) else none
    match (dieClusters die).find? fun cl => (chooseCores s cl [] [] d).isSome with
    | some cl => place s cl
    | none =>
      match preemptChoice s die b.cls d with
      | none => none
      | some (cl, v) => place (v.foldl freezeUnit s) cl

/-- The first gang in the order that the placer of a die can place. -/
def firstPlaced (s : State) (die : Nat) : List (Launch × Nat) → Option (State × Nat)
  | [] => none
  | (x, g) :: r => match tryPlace s die x g with
    | some s' => some (s', launchClass s x)
    | none => firstPlaced s die r

/-! ## Starting deque entries (R92, R95) -/

/-- The entry that a core starts next: the newest of its deque, else the newest it has spilled. -/
def newestEntry (s : State) (core : Nat) : Option DEntry :=
  match (getCore s core).deque.getLast? with
  | some e => some e
  | none => (newestSpilled s core).map (·.entry)

def entrySeeds (e : DEntry) : List Seed :=
  (List.range e.recs.length).filterMap fun i => (e.recs.drop i).head?.map fun r =>
    ⟨i, if e.kind = 2 then wordsOf 2 e.lo.toNat ++ wordsOf 2 e.hi.toNat else r.args, r.depth, r.vc⟩

def entrySpec (s : State) (e : DEntry) : Option WgSpec :=
  (getLaunch s e.launch).map fun x =>
    let r := x.rcd
    let k := (x.kinds.drop e.taskKind).head?
    let bin := e.kind == 0
    { gang := e.gang, launch := x.id, pasid := x.pasid, region := r.region, gen := x.gen, rcb := gangRcb s e.gang x.pasid r.region, index := 0, entry := e.code, args := r.args,
      warps := [entrySeeds e], vregs := if bin then r.vregs else (k.map (·.vregs)).getD 1, shadows := if bin then r.shadows else (k.map (·.shadows)).getD 0,
      scratch := if bin then 0 else (k.map (·.scratch)).getD 0, undo := if bin then 0 else (k.map (·.undo)).getD 0, opUnits := 0, accs := 0,
      pooled := r.pooled, uchk := r.uchk, task := if bin then none else some e.taskKind, fromDeque := true, ranged := e.kind == 2 }

/-- Segments and slots that an entry needs on a core. -/
def specNeed (x : WgSpec) : CoreNeed := needOf x.rcb.redund 1 1 x.bytes 0 0

/-- A core can start an entry now. -/
def entryFits (s : State) (core : Nat) (e : DEntry) : Bool :=
  match entrySpec s e with
  | none => false
  | some x => coreFits s core [] [] (specNeed x) && !poolSpent s x.pasid x.region
      && limitOk s x.pasid x.region (core :: (if x.rcb.redund = 2 then [core ^^^ 1] else [])) 0
      && (e.kind != 2 || decide ((getCore s core).ranges.length < Config.liveRanges))

def entryClass (s : State) (e : DEntry) : Nat := ((getLaunch s e.launch).map (launchClass s)).getD 0

/-- The newest entry of a core, if it can start now. -/
def startable (s : State) (core : Nat) : Option DEntry := (newestEntry s core).filter (entryFits s core)

/-- Removes the newest entry; from a ring it comes back as the ring holds it, once its memory has answered. -/
def popNewest (s : State) (core : Nat) : State × Option DEntry :=
  match (getCore s core).deque.getLast? with
  | some e => (modCore s core fun c => { c with deque := c.deque.dropLast }, some e)
  | none => match newestSpilled s core with
    | none => (s, none)
    | some x => unspill s core x

/-- An entry starts on a core: its workgroup, its live range, and its threads' acquire (R402). -/
def startEntry (s : State) (core : Nat) (e : DEntry) : State :=
  match entrySpec s e with
  | none => s
  | some x =>
    let (s, id) := formPair s x core
    let s := acquire s core .die
    if e.kind = 2 then
      match s.warps.find? fun w => w.wg == id with
      | none => s
      | some w => modCore s core fun c => { c with ranges := c.ranges ++ [⟨w.slot, e, e.lo, id⟩] }
    else s

/-- A core has room in its deque again: warps that wait in bins, and stalled pushes. -/
def dequeRoom (s : State) (core : Nat) : State := wakeCore (flushHeld s core) core

/-- The gang that the placer of a die would take next, with its class. -/
def nextPlaced (s : State) (die : Nat) : Option (State × Nat) := if s.warm.began.isSome then none else firstPlaced s die (candidates s)

/-- Due where the next gang of the die has no equal or higher class (R95). -/
def execDequeEntryStart (s : State) : Host.Outcome State Fault Refusal :=
  let core := s.unit_
  .next (if s.warm.began.isSome then s
    else match startable s core with
    | none => s
    | some e =>
      if (nextPlaced s (coreDie core)).any fun p => decide (entryClass s e ≤ p.2) then s
      else match popNewest s core with
      | (s, some e) => dequeRoom (startEntry s core e) core
      | (s, none) => s)

/-- The placer of a die takes the next gang, unless a core of the die starts work of a strictly higher class first. -/
def execGangPlacement (s : State) : Host.Outcome State Fault Refusal :=
  let die := s.unit_
  .next (if !(dieIn s die) then s
    else match nextPlaced s die with
    | none => s
    | some (s', cls) =>
      if (s.cores.filter fun c => coreDie c.1 == die).any fun c => (startable s c.1).any fun e => decide (cls < entryClass s e) then s else s')

/-! ## Resuming (R87, R88) -/

/-- A frozen unit's cores again hold its own segments and slots. -/
def canResume (s : State) (u : List Workgroup) (out : List Nat) : Bool :=
  u.all fun w =>
    let used := segsUsed s w.core out
    w.segs.all (fun g => !used.contains g.index)
      && decide (slotsUsed s w.core out + (u.filter fun x => x.core == w.core).foldl (fun n x => n + x.nwarps) 0 ≤ Config.warpSlots)
      && !poolSpent s w.pasid w.region

def resumeUnit (s : State) (u : List Workgroup) : State :=
  let s := u.foldl (fun s w => modWg s w.id fun w => { w with segs := w.segs.map fun g => { g with victim := contentOf s w.core g.index w.id, moved := 0 } }) s
  (u.map (·.id)).foldl thaw s

/-- Frozen units of a die in the order in which they resume. -/
def frozenUnits (s : State) (die : Nat) : List (List Workgroup) :=
  let us := ((s.wgs.filter fun w => w.state == .frozen && coreDie w.core == die).map fun w => (unitOf s w).filter fun x => x.state == .frozen).eraseDups
  sortBy (fun u => (3 - unitClass s u) * 2 ^ 64 + u.foldl (fun n w => Nat.max n w.frozenAt) 0) us

/-- Resumes a unit, pre-empting units of lower class on its cluster where that is what it takes. -/
def tryResume (s : State) (u : List Workgroup) : Option State :=
  if canResume s u [] then some (resumeUnit s u)
  else match u.head? with
  | none => none
  | some w =>
    let vs := (victims s (clusterId w.core) (unitClass s u)).filter fun v => v.all fun y => decide (wgClass s y < unitClass s u)
    (enoughVictims s (fun out _ => canResume s u out) vs []).map fun v => resumeUnit (v.foldl freezeUnit s) (u.filterMap fun w => getWg s w.id)

def execFrozenGangResume (s : State) : Host.Outcome State Fault Refusal :=
  .next (if s.warm.began.isSome then s else ((frozenUnits s s.unit_).findSome? (tryResume s)).getD s)

/-! ## Retirement and the completion OR (R79, R58) -/

/-- Work of a workgroup that is still to end or to be joined: of one that was killed or discarded, its engine operations and what it left in a side log (R79, R120). -/
def wgBusy (s : State) (w : Workgroup) : Bool :=
  s.engines.any (fun e => e.wg == w.id) || s.sideLog.any (fun l => l.wg == w.id)
    || (w.state != .killed && w.state != .ended
      && ((wgThreads s w.id).any Thread.alive || s.compare.any (fun c => c.wg == w.id)
        || s.stores.any (fun x => x.who.isNone && (getT s x.tid).any fun t => t.wg == w.id)))

/-- Work that descends from a gang and has not started (R92). -/
def gangQueued (s : State) (gang : Nat) : Bool :=
  s.cores.any fun c => c.2.deque.any (fun e => e.gang == gang) || c.2.bins.any (fun b => b.recs.any fun r => r.gang == gang)
    || c.2.rings.any fun r => r.items.any fun e => e.2.gang == gang

/-- A launch whose gangs have all retired completes; its packet with it. -/
def settleLaunch (s : State) (x : Launch) : State :=
  let open_ := s.gangs.any fun g => g.launch == x.id && (g.state == .placed || g.state == .retiring || (g.state == .waiting && !x.cut))
  if x.done || open_ || !(x.cut || decide (gangCount x.rcd ≤ x.retired)) then s
  else
    let s := modLaunch { s with watchers := s.watchers.filter fun w => w.2.2 != x.id } x.id fun y => { y with done := true }
    match x.packet with
    | none => wakeAll s
    | some (q, seq) => wakeAll (completePacket s q seq)

def settleLaunches (s : State) : State := s.launches.foldl (fun s x => settleLaunch s x) s

def gangRetired (s : State) (g : Gang) : State :=
  let s := modGang s g.id fun y => { y with state := .retired, orFault := false }
  settleLaunches (modLaunch s g.launch fun y => { y with retired := y.retired + 1 })

/-- The word of a completion bitmap with an error in it, under the region's policy (R132): its bytes and whether they are POISON, or the cause that gives the OR up. -/
def orData (s : State) (x : Launch) (key : Nat) (r : ByteRead) : Except Nat (List Byte × Bool) :=
  let pol := fun (c : Nat) => sevPolicy (effective s x.pasid x.rcd.region).sev c
  if r.badMac then .error 0x58
  else match r.sev with
  | none => .ok (r.bytes, false)
  | some c =>
    if pol c = 3 then .error (sevCause c)
    else if pol c = 2 then .ok (r.bytes, true)
    else if pol c = 0 ∧ key = 0 then .ok (r.bytes, false)
    else .ok (List.zipWith (fun b m => b &&& ~~~m) r.bytes r.affected, false)

/-- The OR at a canonical address: a release at cscope. -/
def orAt (s : State) (g : Gang) (x : Launch) (l : Leaf) (a bit : Nat) : State × Option Nat :=
  let sc := scopeOf x.rcd.cscope
  let (s, old) : State × Except Nat (List Byte × Bool) :=
    if isHostKey a then (s, .ok (getCells a 8 s.mem, false))
    else
      let (s, r) := readHbmRange s a 8 l.layout l.key
      (s, orData s x l.key r)
  match old with
  | .error c => (s, some c)
  | .ok (b, poison) =>
    let keep := s.syncs
    let s := writeCanon s a (leBytes 8 (leNat b ||| 2 ^ bit)) l.layout l.key poison
    ({ s with syncs := keep ++ [⟨a, sc, ⟨dieCore g.die, 0, 0⟩, g.vc⟩] }, none)

/-- The completion OR of a gang: done, given up, or waiting for a fault, a translation, a slot of a link or a peer's acknowledgement (R79, R432). -/
def completionOr (s : State) (g : Gang) (x : Launch) : State :=
  let (va, bit) := completionBit x.rcd g.index
  let giveUp := fun (s : State) (code : Nat) => gangRetired (faultRecord s x.pasid code va) g
  let put := fun (s : State) (l : Leaf) (a : Nat) => match orAt s g x l a bit with
    | (s, none) => gangRetired s g
    | (s, some c) => giveUp s c
  let hold := fun (s : State) =>
    let (s, ok) := raiseFault s (dieCore g.die) x.pasid va.toNat true
    modGang s g.id fun y => { y with orFault := ok }
  match translate s (dieCore g.die) x.pasid va.toNat { r := true, w := true, x := false, pl := 1 } with
  | (s, .unmapped) => hold s
  | (s, .denied) => giveUp s 0x42
  | (s, .uncorr) => giveUp s (if sevPolicy (effective s x.pasid x.rcd.region).sev 3 = 3 then 0x53 else 0x42)
  | (s, .ok l pa) =>
    match homeOf s.module_ s.domain pa with
    | .hbm a => put s l a
    | .host k bus =>
      if !hostUpGen s k x.pasid x.gen then giveUp s 0x53
      else (match hostXlate s k x.pasid bus with
        | (s, .ok a) => put s l a
        | (s, .wait) => s
        | (s, .fault) => hold s)
    | .peer _ off => (match route s with
      | none => giveUp s 0x53
      | some p =>
        if credit s p 0 = 0 then s
        else
          let (s, id) := newId s
          let s := sendRequest s p 0 0 (.atomic id off .u64 .or (BitVec.ofNat 64 (2 ^ bit))) (.store id)
          let y : OutStore := { id := id, core := dieCore g.die, tid := ⟨dieCore g.die, 0, 0⟩, pasid := x.pasid, cells := [], poison := false, layout := 0, key := 0,
                                port := some p, addr := va, who := some (.table (dieCore g.die)), red := false }
          modGang { s with stores := s.stores ++ [y] } g.id fun y => { y with orSent := some id })
    | _ => giveUp s 0x42

/-- Clocks of all that a gang did. -/
def gangVc (s : State) (gang : Nat) : List (Nat × Nat) :=
  let ids := (s.wgs.filter fun w => w.gang == gang).map (·.id)
  (s.threads.filter fun t => ids.contains t.wg).foldl (fun v t => vcJoin v (joinAll t).vc) []

/-- Retires what can retire of gang `State.unit`: its task warps one by one, then the gang, then its completion OR. -/
def execGangRetire (s : State) : Host.Outcome State Fault Refusal :=
  .next (match getGang s s.unit_ with
    | none => s
    | some g =>
      match getLaunch s g.launch with
      | none => s
      | some x =>
        if g.state == .retiring then
          (match g.orSent with
           | some id => if s.stores.any fun y => y.id == id then s else gangRetired s g
           | none => if g.orFault then s else completionOr s g x)
        else if g.state != .placed then s
        else
          let ws := s.wgs.filter fun w => w.gang == g.id
          let tasks := (ws.filter fun w => w.fromDeque && (s.warps.any fun y => y.wg == w.id) && !wgBusy s w
            && (w.role == .single || !(wgBusy s (mateOf s w)))).map (·.id)
          let s := modGang s g.id fun y => { y with vc := vcJoin y.vc (if tasks.isEmpty then [] else gangVc s g.id) }
          let s := tasks.foldl closeWg s
          let ws := s.wgs.filter fun w => w.gang == g.id
          if ws.any (wgBusy s) || gangQueued s g.id then (if tasks.isEmpty then s else wakeAll s)
          else
            let vc := vcJoin g.vc (gangVc s g.id)
            let s := modGang s g.id fun y => { y with state := .retiring, vc := vc }
            let s := wakeAll (ws.foldl (fun s w => closeWg s w.id) s)
            match getGang s g.id with
            | none => s
            | some g => if g.killed || x.rcd.cmap == 0 then gangRetired s g else completionOr s g x)

/-! ## Dependencies (R81) -/

/-- The watcher of a die sees a write in a registered page. -/
def execDependencyWatcherPrompt (die : Nat) (addr : Nat) (s : State) : Host.Outcome State Fault Refusal :=
  .next ((s.watchers.filter fun w => w.1 == die && w.2.1 == addr / 4096).foldl (fun s w => testLaunch s w.2.2 (dieCore die)) s)

/-- The placer's test of every launch without registration. -/
def execDependencyRetest (s : State) : Host.Outcome State Fault Refusal :=
  .next ((s.launches.filter fun x => !x.reg).foldl (fun s x => testLaunch s x.id (dieCore (nextDie s 0))) s)

end Sys2Proof.Machine
end

