-- ==== Sys2Proof/Machine/Stealing.lean ====
section
/-! DEFINITION. Stealing: the deque's clocks and thieves: bins that time out (R91), spills that are retried and pushes that overflow (R97),
steal requests, answers and splits of live ranges (R98, R99). -/

namespace Sys2Proof.Machine

/-! ## Bins, spills and stalled pushes -/

/-- 2,048 cycles after its first record (R91); `bin` counts a core's bins from 0. -/
def execBinTimeout (core : Nat) (bin : Nat) (s : State) : Host.Outcome State Fault Refusal :=
  .next (match ((getCore s core).bins.drop bin).head? with
    | none => s
    | some b => if b.held || decide (s.now < b.opened + Config.binCycles) then s else (flushBin s core b.code b.gang).1)

/-- The deque is full, the page that its oldest entry needs has been reported, and its retry is due (R97). -/
def spillDue (s : State) (core : Nat) : Bool :=
  match (getCore s core).deque with
  | [] => false
  | e :: rest => decide (Config.dequeEntries ≤ rest.length + 1) && (match entryHome s e with
    | none => false
    | some (x, b) =>
      let r := ringAt s core x b
      (kfind ((slotVa r core r.tail).toNat / 4096) r.blocked).any fun at_ => decide (at_ ≤ s.now))

def execSpillRetry (s : State) : Host.Outcome State Fault Refusal :=
  let core := s.unit_
  .next (if !spillDue s core then s
    else match spillOldest s core true with
    | (s, true) => dequeRoom s core
    | (s, false) => s)

/-- 2^20 cycles stalled on a refused push (R97). -/
def execSpawnOverflow (t : Tid) (s : State) : Host.Outcome State Fault Refusal :=
  .next (match getT s t with
    | none => s
    | some x => match x.run, x.since with
      | .waiting .push, some c => if tidClock s t < c + 2 ^ 20 then s else trapWaiting s t { code := 0xA1 }
      | _, _ => s)

/-! ## Steal requests (R98) -/

/-- Mesh distance of two clusters of a die, 5 by 5 in row-major order (R10). -/
def meshDist (a b : Nat) : Nat := (a / 5 - b / 5) + (b / 5 - a / 5) + (a % 5 - b % 5) + (b % 5 - a % 5)

/-- The cores that a thief asks, in order: its cluster's, then the other clusters of its die. R98 orders the clusters; that the four cores of another cluster are asked from 0 to 3 is the model's choice (assumption log 84). -/
def stealOrder (core : Nat) : List Nat :=
  let cl := coreCluster core
  let near := [1, 2, 3].map fun i => core / 4 * 4 + (core + i) % 4
  let far := (sortBy (fun c => meshDist cl c * 25 + c) ((List.range 25).filter (· != cl))).flatMap fun c => (List.range 4).map fun i => coreDie core * 100 + 4 * c + i
  (near ++ far).filter fun c => !reservedCore c

/-- R98. -/
def coreIdle (s : State) (core : Nat) : Bool :=
  let c := getCore s core
  c.deque.isEmpty && c.rings.all (fun r => r.items.isEmpty) && decide (slotsUsed s core [] < Config.warpSlots) && !reservedCore core && dieIn s (coreDie core)

def setSteal (s : State) (core : Nat) (x : StealState) : State := modCore s core fun c => { c with steal := x }

def execStealRequest (s : State) : Host.Outcome State Fault Refusal :=
  let core := s.unit_
  .next (if !coreIdle s core || s.warm.began.isSome then s
    else
      let go := fun (n : Nat) => match ((stealOrder core).drop n).head? with
        | some v => setSteal s core (.waiting v n)
        | none => setSteal s core (.backoff (s.now + 1024))
      match (getCore s core).steal with
      | .idle => go 0
      | .asking n => go n
      | _ => s)

def execStealBackoffExpiry (s : State) : Host.Outcome State Fault Refusal :=
  .next (match (getCore s s.unit_).steal with
    | .backoff e => if e ≤ s.now then setSteal s s.unit_ .idle else s
    | _ => s)

/-! ## Steal answers (R98, R99) -/

/-- What a request carries: an entry can run on the thief, and its region permits one more core. -/
def stealFits (s : State) (thief : Nat) (e : DEntry) : Bool :=
  match entrySpec s e with
  | none => false
  | some x =>
    let d := specNeed x
    roomFits s thief [] d.segs d.slots && (!d.far || roomFits s (thief ^^^ 1) [] d.segs d.slots)
      && limitOk s x.pasid x.region (thief :: (if d.far then [thief ^^^ 1] else [])) 0

/-- An entry of a core that a thief can take: in a ring, or in the deque. -/
inductive Loot where
  | spilled (x : Spilled)
  | queued (e : DEntry)

def Loot.entry : Loot → DEntry
  | .spilled x => x.entry
  | .queued e => e

/-- The oldest entry of a core that fits the thief, wherever it stands. -/
def stealable (s : State) (victim thief : Nat) : Option Loot :=
  minBy (fun x => x.entry.seq) (((spilledOf s victim).map Loot.spilled ++ (getCore s victim).deque.map Loot.queued).filter fun x => stealFits s thief x.entry)

/-- Takes an entry away from its core; none while the ring's memory has not answered. -/
def takeEntry (s : State) (victim : Nat) (x : Loot) : State × Option DEntry :=
  match x with
  | .spilled x => unspill s victim x
  | .queued x => (modCore s victim fun c => { c with deque := c.deque.filter fun e => e.seq != x.seq }, some x)

/-- Chunks left in the unissued part of a live range. -/
def chunksLeft (r : LiveRange) : Nat :=
  let n := r.entry.hi.toNat - r.next.toNat
  let c := Nat.max 1 r.entry.chunk.toNat
  (n + c - 1) / c

/-- Splits a live range: what the owner keeps, and the thief's range task. -/
def splitRange (r : LiveRange) : LiveRange × DEntry :=
  let at_ := BitVec.ofNat 64 (r.next.toNat + (chunksLeft r + 1) / 2 * Nat.max 1 r.entry.chunk.toNat)
  ({ r with entry := { r.entry with hi := at_ } }, { r.entry with lo := at_ })

/-- The oldest live range with at least two chunks left. -/
def splittable (s : State) (victim thief : Nat) : Option LiveRange :=
  minBy (fun r => r.order) ((getCore s victim).ranges.filter fun r => decide (2 ≤ chunksLeft r) && stealFits s thief (splitRange r).2)

/-- The victim's answer. One that the thief's deque cannot take any more waits at the victim, which keeps what it would give. -/
def execStealResponse (s : State) : Host.Outcome State Fault Refusal :=
  let thief := s.unit_
  .next (match (getCore s thief).steal with
    | .waiting v n =>
      (match stealable s v thief with
       | some x =>
         (match takeEntry s v x with
          | (s1, none) => s1
          | (s1, some e) => match pushEntry s1 thief e with
            | (s2, true) => setSteal (dequeRoom s2 v) thief .idle
            | (_, false) => s)
       | none => match splittable s v thief with
         | some r =>
           let (keep, e) := splitRange r
           (match pushEntry s thief e with
            | (s1, true) => setSteal (modCore s1 v fun c => { c with ranges := updIf (fun y => y.slot == r.slot) (fun _ => keep) c.ranges }) thief .idle
            | (_, false) => s)
         | none => setSteal s thief (.asking (n + 1)))
    | _ => s)

end Sys2Proof.Machine
end

