-- ==== Sys2Proof/Machine/Faults.lean ====
section
/-! DEFINITION. Faults: pending faults retried and cancelled (R118, R119, R121), the side log's replay (R120), walks (R111),
ATS and PRI (R19, R20), invalidation requests, and PASID teardown (R62 to R64). -/

namespace Sys2Proof.Machine

/-! ## Who waits for a page -/

/-- A workgroup of a context. -/
def wgIn (s : State) (pasid wg : Nat) : Bool := (getWg s wg).any fun w => w.pasid == pasid

/-- A thread held by a fault on page `page` of its context, and the kind of the fault. -/
def heldBy (s : State) (pasid page : Nat) (t : Thread) : Option Bool :=
  match t.run with
  | .waiting (.fault p w) => if p = page && wgIn s pasid t.wg then some w else none
  | _ => none

def opHeldBy (s : State) (pasid page : Nat) (e : EngineOp) : Option Bool :=
  match e.state with
  | .faulted p w => if p = page && wgIn s pasid e.wg then some w else none
  | _ => none

/-- The gangs whose completion OR waits for a page (R79). -/
def orHeldBy (s : State) (pasid page : Nat) : List Gang :=
  s.gangs.filter fun g => g.state == .retiring && g.orFault && (getLaunch s g.launch).any fun x =>
    x.pasid == pasid && (completionBit x.rcd g.index).1.toNat / 4096 == page

/-! ## Retry (R121) -/

/-- Entries of the side log whose page is not mapped register their faults, where their die's table had no room (R118). -/
def registerLog (s : State) : State :=
  s.sideLog.foldl (fun s e => match walk s e.pasid e.addr.toNat with
    | (s, .unmapped) => (raiseFault s e.core e.pasid e.addr.toNat true).1
    | (s, _) => s) s

/-- Everything that waits for a page goes on: threads reissue, operations and streams run, the completion OR and the placers' tests are made again. -/
def releasePage (s : State) (pasid page : Nat) : State :=
  let ls := (s.launches.filter fun x => x.pasid == pasid).map (·.id)
  let s := { s with
    threads := updIf (fun t => (heldBy s pasid page t).isSome) (fun t => { t with run := .ready, able := s.now }) s.threads
    engines := updIf (fun e => (opHeldBy s pasid page e).isSome) (fun e => { e with state := .running }) s.engines
    streams := updIf (fun (x : Stream) => x.faulted == some page && wgIn s pasid x.wg) (fun x => { x with faulted := none }) s.streams
    gangs := updIf (fun g => (orHeldBy s pasid page).any fun y => y.id == g.id) (fun g => { g with orFault := false }) s.gangs }
  let s := ls.foldl (fun s x => testLaunch s x (dieCore (nextDie s 0))) s
  wakeAll s

def pageFault (pasid page : Nat) (f : PendFault) : Bool := f.pasid == pasid && f.page == page

def faultCode (write : Bool) : Nat := if write then 0x41 else 0x40

/-- A retry walks again: a page that still is not mapped stays pending, with one new record. -/
def retryPage (s : State) (pasid page : Nat) : State :=
  match s.faults.find? (pageFault pasid page) with
  | none => s
  | some f =>
    match walk s pasid (page * 4096) with
    | (s, .unmapped) => faultRecord s pasid (faultCode f.write) (BitVec.ofNat 64 f.addr)
    | (s, _) => registerLog (releasePage { s with faults := s.faults.filter fun f => !pageFault pasid page f } pasid page)

/-! ## Cancel (R121, R420) -/

/-- The address of a fault of a page, of one kind where there is one. -/
def faultAddr (s : State) (pasid page : Nat) (write : Bool) : Word :=
  let mine := s.faults.filter (pageFault pasid page)
  BitVec.ofNat 64 (((mine.find? fun f => f.write == write).map (·.addr)).getD (page * 4096))

/-- The workgroups that hold a fault of a page, with the cause and the address of the record. -/
def pageHolders (s : State) (pasid page : Nat) : List (Nat × Nat × Word) :=
  let one := fun (wg : Nat) (w : Bool) => (wg, faultCode w, faultAddr s pasid page w)
  (s.threads.filterMap fun t => (heldBy s pasid page t).map (one t.wg))
    ++ (s.engines.filterMap fun e => (opHeldBy s pasid page e).map (one e.wg))
    ++ (s.streams.filterMap fun x => if x.faulted == some page && wgIn s pasid x.wg then some (one x.wg false) else none)
    ++ (s.sideLog.filterMap fun e => if e.pasid == pasid && e.addr.toNat / 4096 == page then some (e.wg, 0x41, e.addr) else none)

/-- Kills each workgroup once; of one that has retired or was discarded, only the record is written (R120). -/
def killEach (s : State) : List (Nat × Nat × Word) → List Nat → State
  | [], _ => s
  | (id, c, a) :: r, done =>
    if done.contains id then killEach s r done
    else killEach (match getWg s id with
      | none => s
      | some w => if w.state == .ended then faultRecord s w.pasid c a else if w.state == .killed then s else kill s id c a) r (id :: done)

/-- A cancel: every fault of the page is fatal, its log entries are discarded, a completion OR that waits is given up. -/
def cancelPage (s : State) (pasid page : Nat) : State :=
  if !s.faults.any (pageFault pasid page) then s
  else
    let hs := pageHolders s pasid page
    let gs := orHeldBy s pasid page
    let s := { s with
      faults := s.faults.filter fun f => !pageFault pasid page f
      sideLog := s.sideLog.filter fun e => !(e.pasid == pasid && e.addr.toNat / 4096 == page) }
    let s := killEach s hs []
    let s := gs.foldl (fun s g => match getLaunch s g.launch with
      | none => s
      | some x => gangRetired (faultRecord s pasid 0x41 (completionBit x.rcd g.index).1) g) s
    registerLog (wakeAll s)

def cancelPasid (s : State) (pasid : Nat) : State :=
  (((s.faults.filter fun f => f.pasid == pasid).map (·.page)).eraseDups).foldl (fun s p => cancelPage s pasid p) s

/-- The page that FSVCA of a link holds. -/
def fsvcPage (s : State) (link : Nat) : Nat := (getLink s link).fsvca.toNat / 4096 % 2 ^ 45

def execFsvcbRetry (link pasid : Nat) (s : State) : Host.Outcome State Fault Refusal := .next (retryPage s (pasid % 2 ^ 20) (fsvcPage s link))
def execFsvcbCancelPage (link pasid : Nat) (s : State) : Host.Outcome State Fault Refusal := .next (cancelPage s (pasid % 2 ^ 20) (fsvcPage s link))
def execFsvcbCancelPasid (_link pasid : Nat) (s : State) : Host.Outcome State Fault Refusal := .next (cancelPasid s (pasid % 2 ^ 20))

/-! ## Walks (R111) -/

/-- A walker ends a walk for an access at PL0: the TLBs are filled where the access passes the check (R114). -/
def execTableWalk (core pasid : Nat) (va : Word) (write : Bool) (s : State) : Host.Outcome State Fault Refusal :=
  .next (translate s core pasid va.toNat { r := !write, w := write, x := false, pl := 0 }).1

/-! ## The side log (R120) -/

/-- What came of an entry's replay: it has left the log; it stays; its page is still not mapped; or it is reported to the fault domain with a cause. -/
inductive Replayed where
  | done
  | stay
  | unmapped
  | report (code : Nat)

/-- One store of the log reaches memory. A store to an NR page pins the interval (R141). -/
def replayStore (s : State) (w : Workgroup) (t : Thread) (e : LogEntry) (l : Leaf) (pa : Nat) (va : Word) (bytes : List Byte) (poison : Bool) : State × Replayed :=
  match reach s w pa va true with
  | (s, .stop _) => (s, .stay)
  | (s, .unmapped) => (s, .unmapped)
  | (s, .noData) => ((lostStore s w t pa va).1, .done)
  | (s, .ready) =>
    let s := if l.nr then pin s w.id else s
    (storeOrder (putStore s w t.tid l.layout l.key pa va bytes poison true) t.tid e.ord e.scope (locOf s w.pasid pa), .done)

/-- A tangent of a replayed dual store or RED is an entry of its own (R239). -/
def replayTangent (s : State) (w : Workgroup) (t : Thread) (e : LogEntry) (va : Word) (op : LogOp) : State :=
  let (s, id) := newId s
  { s with sideLog := s.sideLog ++ [{ e with id := id, tid := t.tid, wg := w.id, addr := va, op := op }] }

/-- What stops a RED's replay: it waits, or the condition is reported. -/
def replayStop : LaneRes → Replayed
  | .wait _ => .stay
  | .kill c _ => .report c
  | .trap c => .report c.code
  | .consume c => .report c.code
  | _ => .done

/-- A RED of the log. -/
def replayRed (s : State) (w : Workgroup) (t : Thread) (e : LogEntry) (l : Leaf) (pa : Nat) (ty : AType) (r : Rmw) : State × Replayed :=
  match reach s w pa e.addr true with
  | (s, .stop _) => (s, .stay)
  | (s, .unmapped) => (s, .unmapped)
  | (s, _) =>
    if !classOk s pa ty r then (s, .report 0x34)
    else
      let s := if l.nr then pin s w.id else s
      match performRmw s w t l pa e.addr ty r false with
      | (s, .stop z) => (s, replayStop z)
      | (s, .peer p off) => (sendRed s w t.tid l e.addr p off ty r, .done)
      | (s, .old _ _ ne wrote) =>
        let s := modT s t.tid fun x => if x.wg == w.id then { x with numerr := x.numerr || ne } else x
        (if wrote then syncWrite s t.tid (locOf s w.pasid pa) (Ord.rel e.ord) true e.scope else s, .done)

/-- The entry on its page: stores, REDs and descriptors. -/
def replayOn (s : State) (w : Workgroup) (t : Thread) (e : LogEntry) (l : Leaf) (pa : Nat) : State × Replayed :=
  let off := fun (j : Nat) => e.addr + w.rcb.tanOff.getD (j - 1) 0
  match e.op with
  | .store bytes p tan =>
    (match replayStore s w t e l pa e.addr bytes p with
     | (s, .done) => (if l.tp then tan.foldl (fun s x => replayTangent s w t e (off x.1) (.store x.2 p [])) s else s, .done)
     | x => x)
  | .red ty aop b tan =>
    (match replayRed s w t e l pa ty (.op aop b.toNat) with
     | (s, .done) => (if l.tp then tan.foldl (fun s x => replayTangent s w t e (off x.1) (.red ty .add x.2 [])) s else s, .done)
     | x => x)
  | .desc d p =>
    if l.layout ≠ 12 then (s, .report 0x35)
    else match hbmOf s pa with
    | none => (s, .done)
    | some a => (writeDesc (if l.nr then pin s w.id else s) a l d p, .done)

/-- Replays the oldest entry of a thread (R120). -/
def replayEntry (s : State) (w : Workgroup) (t : Thread) (e : LogEntry) : State :=
  let drop := fun (s : State) => wakeCore { s with sideLog := s.sideLog.filter fun x => x.id != e.id } e.core
  match translate s e.core e.pasid e.addr.toNat { r := false, w := true, x := false, pl := e.pl } with
  | (s, .unmapped) => (raiseFault s e.core e.pasid e.addr.toNat true).1
  | (s, .denied) => reportDomain (drop s) e.pasid e.tid (some e.wg) 0x42 e.addr
  | (s, .uncorr) => reportDomain (drop s) e.pasid e.tid (some e.wg) 0x53 e.addr
  | (s, .ok l pa) => match replayOn s w t e l pa with
    | (s, .done) => drop s
    | (s, .stay) => s
    | (s, .unmapped) => (raiseFault s e.core e.pasid e.addr.toNat true).1
    | (s, .report c) => reportDomain (drop s) e.pasid e.tid (some e.wg) c e.addr

/-- The issuer of an entry, or, once its workgroup has been discarded and its thread is gone, its name alone. -/
def logThread (s : State) (e : LogEntry) : Thread :=
  match getT s e.tid with
  | some x => if x.wg == e.wg then x else { newThread e.tid e.wg 0 0 ⟨e.tid.lane, [], 0, []⟩ s.now with pl := e.pl }
  | none => { newThread e.tid e.wg 0 0 ⟨e.tid.lane, [], 0, []⟩ s.now with pl := e.pl }

def execSideLogReplay (core : Nat) (t : Tid) (s : State) : Host.Outcome State Fault Refusal :=
  .next (match s.sideLog.find? fun e => e.core == core && e.tid == t with
    | none => s
    | some e => match getWg s e.wg with
      | some w => replayEntry s w (logThread s e) e
      | none => { s with sideLog := s.sideLog.filter fun y => y.id != e.id })

/-! ## ATS and PRI (R19, R20, R52, R63) -/

/-- Accesses that wait for a host page issue again. -/
def wakeAts (s : State) (link pasid page : Nat) : State :=
  flushRecords (wakeAll { s with
    threads := updIf (fun t => wgIn s pasid t.wg && (match t.run with
        | .waiting (.ats k p _ _) => k == link && p == page
        | _ => false)) (fun t => { t with run := .ready, able := s.now }) s.threads
    engines := updIf (fun e => wgIn s pasid e.wg && (match e.state with
        | .ats k p _ _ => k == link && p == page
        | _ => false)) (fun e => { e with state := .running }) s.engines })

def dropReq (s : State) (link id : Nat) : State := modLink s link fun l => { l with atsReqs := l.atsReqs.filter fun r => r.id != id }

/-- A teardown on a link is complete once no request of the link is outstanding and the link's queues of the PASID are disabled (R63). -/
def settleTeardown (s : State) (link : Nat) : State :=
  let p := (getLink s link).pstat.toNat
  if bits p 21 20 ≠ 1 then s
  else
    let pasid := bits p 19 0
    let n := ((getLink s link).atsReqs.filter fun r => r.pasid == pasid && !r.pri).length
    let off := s.queues.all fun q => queueLink q.1 != link || Queue.pasid q.2 != pasid || q.2.state == .disabled
    let word := fun (st : Nat) => BitVec.ofNat 64 (pasid + st * 2 ^ 20 + (pasidGen s pasid).toNat * 2 ^ 24 + n % 2 ^ 16 * 2 ^ 32)
    if n = 0 && off then
      let s := modCtx (modLink s link fun l => { l with pstat := word 2 }) pasid fun c => { c with teardown := c.teardown.filter (· != link) }
      emit s link true (recordBytes 3 0 0xFFFF pasid 0 0 s.ns)
    else modLink s link fun l => { l with pstat := word 1 }

def settleTeardowns (s : State) : State := settleTeardown (settleTeardown s 0) 1

/-- A translation returns; with an old generation it is discarded. A failure raises PRI, and the accesses that waited raise their pending faults as they issue again (R20, R118). -/
def execAtsCompletion (link id : Nat) (result : Option Nat) (s : State) : Host.Outcome State Fault Refusal :=
  .next (match (getLink s link).atsReqs.find? fun r => r.id == id && !r.pri with
    | none => s
    | some r =>
      if r.gen != pasidGen s r.pasid then settleTeardowns (wakeAts (dropReq s link id) link r.pasid r.page)
      else match result with
      | some p =>
        let s := modLink (dropReq s link id) link fun l => { l with atsCache := ⟨r.pasid, r.page, p⟩ :: l.atsCache }
        settleTeardowns (wakeAts s link r.pasid r.page)
      | none =>
        let s := if Config.priMax ≤ ((getLink s link).atsReqs.filter (·.pri)).length then dropReq s link id
          else modLink s link fun l => { l with atsReqs := updIf (fun y => y.id == id) (fun y => { y with pri := true }) l.atsReqs }
        settleTeardowns (wakeAts s link r.pasid r.page))

def execAtsCompletionTimeout (link id : Nat) (s : State) : Host.Outcome State Fault Refusal :=
  .next (match (getLink s link).atsReqs.find? fun r => r.id == id && !r.pri && decide (r.deadline ≤ s.ns) with
    | none => s
    | some r => settleTeardowns (wakeAts (dropReq s link id) link r.pasid r.page))

/-- Queues whose next packet stands on a host page: a ring read whose translation fails puts them in error (R52). -/
def failRings (s : State) (link pasid page : Nat) : State :=
  (s.queues.filter fun q => queueLink q.1 == link && Queue.pasid q.2 == pasid && q.2.state == .running && q.2.head != q.2.tail
    && q.2.slotAddr q.2.head / 4096 == page).foldl (fun s q => failQueue s q.1 5 (BitVec.ofNat 64 (q.2.slotAddr q.2.head))) s

/-- Success retries and failure cancels the faults that the request stands for (R121). -/
def execPriResponse (link pasid : Nat) (page : Nat) (success : Bool) (s : State) : Host.Outcome State Fault Refusal :=
  .next (match (getLink s link).atsReqs.find? fun r => r.pri && r.pasid == pasid && r.page == page with
    | none => s
    | some r =>
      let vs := ((s.faults.filter fun f => f.pasid == pasid && f.host == some (link, page)).map (·.page)).eraseDups
      let s := dropReq s link r.id
      let s := if success then vs.foldl (fun s v => retryPage s pasid v) s
        else failRings (vs.foldl (fun s v => cancelPage s pasid v) s) link pasid page
      settleTeardowns (wakeAts s link pasid page))

/-- The port die discards a cached translation and returns the invalidation completion (R19); the next access asks again. -/
def execAtsInvalidationRequest (link pasid : Nat) (page : Nat) (s : State) : Host.Outcome State Fault Refusal :=
  .next (modLink s link fun l => { l with atsCache := l.atsCache.filter fun e => !(e.pasid == pasid && e.page == page), invDone := l.invDone ++ [(pasid, page)] })

/-- PSTOP with go set (R62, R63): on its link the queues of the PASID stop and the port die forgets the PASID's translations; the module's TLBs forget them too. -/
def execPstopGo (link : Nat) (pasid : Nat) (s : State) : Host.Outcome State Fault Refusal :=
  let p := pasid % 2 ^ 20
  .next (if bits (getLink s link).pstat.toNat 21 20 = 1 then s
    else
      let s := if (getCtx s p).isSome then s else { s with contexts := s.contexts ++ [⟨p, none, link, 0, false, 0, []⟩] }
      let s := modCtx s p fun c => { c with teardown := c.teardown ++ [link], gen := c.gen + 1 }
      let s := (s.queues.filter fun q => queueLink q.1 == link && Queue.pasid q.2 == p).foldl (fun s q => stopQueue s q.1) s
      let s := { modLink s link (fun l => { l with atsCache := l.atsCache.filter fun e => e.pasid != p, pstat := BitVec.ofNat 64 (p + 2 ^ 20) }) with
                 tlb := s.tlb.filter fun e => e.pasid != p }
      wakeAll (settleTeardowns s))

end Sys2Proof.Machine
end

