-- ==== Sys2Proof/Machine/System.lean ====
section
/-! DEFINITION. Broadcast words (R100, R101, R405, R406), colour words (R195, R196, R407 to R409), DPFX (R410), special registers (R412 to R414),
ERET (R415), services (R416, R417), invalidations (R418, R419), FCXL, FINJ, HALT and CCTL (R420 to R423). -/

namespace Sys2Proof.Machine

/-! ## Broadcast words -/

def combineWord (op : BwOp) (old new : Word) : Word :=
  match op with
  | .min => if sword new < sword old then new else old
  | .max => if sword old < sword new then new else old
  | .set => new

/-- A core's copy of a word, where it is valid. -/
def bwordAt (s : State) (core w : Nat) : Option BWord := s.bwords.find? fun x => x.core == core && x.w == w

/-- One copy takes one update; a copy that is invalid or of another context takes the value (R100). -/
def takeUpdate (s : State) (core : Nat) (u : BUpdate) : State :=
  let v := match bwordAt s core u.w with
    | some x => if x.pasid = u.pasid then combineWord u.op x.val u.val else u.val
    | none => u.val
  { s with bwords := ⟨core, u.w, v, u.pasid⟩ :: (s.bwords.filter fun x => !(x.core == core && x.w == u.w)),
           bupdates := (updIf (fun x => x.id == u.id) (fun x => { x with cores := x.cores.filter (· != core) }) s.bupdates).filter fun x => !x.cores.isEmpty }

/-- The updates of a word that a core's copy has not taken, in the combining order. -/
def pendingUpdates (s : State) (core w : Nat) : List BUpdate := s.bupdates.filter fun u => u.w == w && u.cores.contains core

/-- The copy takes an update, after those that come before it in the combining order. -/
def execBroadcastWordCopyUpdate (id core : Nat) (s : State) : Host.Outcome State Fault Refusal :=
  .next (match s.bupdates.find? fun u => u.id == id && u.cores.contains core with
    | none => s
    | some u => ((pendingUpdates s core u.w).filter fun x => decide (x.id ≤ id)).foldl (fun s x => takeUpdate s core x) s)

/-- The copies that scope reaches, and the cycles within which it does (R100). -/
def updateCores (core : Nat) (die : Bool) : List Nat :=
  if die then (List.range 100).map (coreDie core * 100 + ·) else (List.range 4).map (clusterId core * 4 + ·)

def updateCycles (s : State) (die : Bool) : Nat := if die then s.clkMhz * 200 / 1000 else 24

def startUpdate (s : State) (core pasid w : Nat) (op : BwOp) (die : Bool) (v : Word) : State :=
  let (s, id) := newId s
  { s with bupdates := s.bupdates ++ [⟨id, w, op, v, pasid, s.now + updateCycles s die, updateCores core die⟩] }

def execBwupd (pg : Guard) (w : BitVec 4) (op : BwOp) (die : Bool) (a : Src) (s : State) : Host.Outcome State Fault Refusal :=
  let l : List SrcSpec := [⟨a, 2, .int⟩]
  .next (perLane s pg fun s g t =>
    withSrcs s g t l .zero 0 (poisonCauses []) fun vals pops =>
        let v := (opv vals 0).word
        let sig : Sig := ⟨BitVec.ofNat 64 w.toNat, 8, v.toNat⟩
        let done := fun (s : State) => (touchRegs (modT s t.tid fun x => takeSources x l pops) g t.tid (markedRegs l), LaneRes.retire [])
        match g.role with
        | .single => done (startUpdate (pin s g.id) t.tid.core g.pasid w.toNat op die v)
        | .chanter => (match compareEnter (pin s g.id) g t sig [] (.bwupd w.toNat op die v) with
          | none => (s, .wait .resource)
          | some s => done s)
        | .drone => match compareMatch (pin s g.id) g t sig with
          | (s, .stop r) => (s, r)
          | (s, .hit ct (.bwupd n o d x)) => done (startUpdate s ct.core g.pasid n o d x)
          | (s, .hit _ _) => done s)

/-- Updates that have reached every copy are in the local one. -/
def settleCopy (s : State) (core w : Nat) : State :=
  ((pendingUpdates s core w).filter fun u => decide (u.due ≤ s.now)).foldl (fun s u => match execBroadcastWordCopyUpdate u.id core s with
    | .next s => s
    | _ => s) s

/-- A lane retires with a plain result. -/
def plainRetire (s : State) (w : Workgroup) (t : Tid) (l : List SrcSpec) (pops : List Nat) (d : Dst) (words : List W32) (f : Thread → Thread) :
    State × LaneRes :=
  (touchRegs (modT s t fun x => f (writePlain (takeSources x l pops) d words)) w t (markedRegs l ++ dstRegs d words.length), .retire (gWrites d words []))

def fillsOf (l : List W32) : List FillWord := l.map fun x => ⟨x, false, []⟩

def execBwrd (pg : Guard) (d : Dst) (w : BitVec 4) (n : BitVec 3) (s : State) : Host.Outcome State Fault Refusal :=
  .next (perLane s pg fun s g t =>
    withSrcs s g t [] d 2 noCauses fun _ pops =>
      let fin := fun (s : State) (ws : List W32) => plainRetire s g t.tid [] pops d (ws.take 2) fun x => setPred x n.toNat (ws.getD 2 0 != 0)
      if g.role == .drone then
        match takeValue s g t.tid with
        | none => (s, .wait .resource)
        | some (s, ws, _) => fin s (ws.map (·.val))
      else if valuesFull s g then (s, .wait .resource)
      else
        let s := settleCopy s t.tid.core w.toNat
        let ws : List W32 := match bwordAt s t.tid.core w.toNat with
          | some x => if x.pasid = g.pasid then wordsOf 2 x.val.toNat ++ [1] else [0, 0, 0]
          | none => [0, 0, 0]
        fin (queueValue s g t.tid (some (fillsOf ws)) false false) ws)

/-! ## Colour words -/

/-- A CWAIT reserves its entry in the waiter table before it releases the colour (R188). -/
def reserveEntry (s : State) (pasid : Nat) (c : BitVec 16) (t : Tid) : State :=
  modMon s pasid c fun m => if m.reserved.contains t then m else { m with reserved := m.reserved ++ [t] }

/-- The thread gives up a colour and joins its condition list, in the entry that it has reserved (R195). -/
def joinCond (s : State) (w : Workgroup) (t : Thread) (c : BitVec 16) (timeout : Nat) : State :=
  let depth := ((t.held.find? fun h => h.1 == c).map (·.2)).getD t.depth
  let y : Waiter := ⟨t.tid, t.tid.core, wgClock s w, some depth, if timeout = 0 then none else some (wgClock s w + timeout)⟩
  releaseColour (modMon s w.pasid c fun m => { m with cond := m.cond ++ [y], reserved := m.reserved.filter fun x => x != t.tid }) w.pasid t.tid c

def colourOf (v : Opv) : BitVec 16 := v.w32.setWidth 16

def execCwait (o : P2) (s : State) : Host.Outcome State Fault Refusal :=
  let l : List SrcSpec := [⟨o.a, 1, .int⟩, ⟨o.b, 1, .int⟩]
  .next (perLane s o.pg fun s w t =>
    withSrcs s w t l .zero 0 (poisonCauses []) fun vals pops =>
      let fin := fun (s : State) (b : Bool) =>
        plainRetire s w t.tid l pops .zero [] fun x => { setPred x o.pd.toNat b with notified := none }
      let c := colourOf (opv vals 0)
      if w.role == .drone then
        match takeValue s w t.tid with
        | none => (s, .wait .resource)
        | some (s, ws, _) => fin s ((ws.headD ⟨0, false, []⟩).val != 0)
      else if t.passed then
        let b := t.notified.getD true
        fin (queueValue s w t.tid (some (okWord b)) false false) b
      else if valuesFull s w then (s, .wait .resource)
      else if c == 0 || !(t.held.any fun h => h.1 == c) then (s, .trap { code := 0x63, detail := c.setWidth 32 })
      else match getMon s w.pasid c with
      | none => (s, .trap { code := 0x63, detail := c.setWidth 32 })
      | some m =>
        let s := pin s w.id
        if !m.reserved.contains t.tid && decide (Config.waiterEntries ≤ dieWaiters s m.die) then (s, .wait (.colourRetry c 0))
        else if !colourReleaseReady s t.tid [c] then (reserveEntry s w.pasid c t.tid, .wait .release)
        else (joinCond s w t c ((opv vals 1).nat false), .wait (.cond c)))

/-- A waiter goes from the condition list to the tail of the FIFO with its result (R195, R196). -/
def moveWaiter (s : State) (pasid : Nat) (c : BitVec 16) (y : Waiter) (notified : Bool) : State :=
  let s := modMon s pasid c fun m =>
    { m with cond := m.cond.filter (fun x => x.tid != y.tid), fifo := m.fifo ++ [{ y with since := tidClock s y.tid, timeout := none }] }
  modT s y.tid fun x => { x with notified := some notified, run := .waiting (.colour c 0) }

def notify (s : State) (pasid : Nat) (c : BitVec 16) (all : Bool) : State :=
  match getMon s pasid c with
  | none => s
  | some m => (if all then m.cond else m.cond.take 1).foldl (fun s y => moveWaiter s pasid c y true) s

def execCnotify (pg : Guard) (all : Bool) (a : Src) (s : State) : Host.Outcome State Fault Refusal :=
  let l : List SrcSpec := [⟨a, 1, .int⟩]
  .next (perLane s pg fun s w t =>
    withSrcs s w t l .zero 0 (poisonCauses []) fun vals pops =>
      let c := colourOf (opv vals 0)
      if w.role == .drone then plainRetire s w t.tid l pops .zero [] id
      else if c == 0 || !(t.held.any fun h => h.1 == c) then (s, .trap { code := 0x63, detail := c.setWidth 32 })
      else plainRetire (notify (pin s w.id) w.pasid c all) w t.tid l pops .zero [] id)

/-- What CHELD reads (R409). -/
def heldWord (t : Thread) (c : BitVec 16) : W32 :=
  if c == 0 then BitVec.ofNat 32 t.held.length
  else match t.held.find? fun h => h.1 == c with
    | some h => BitVec.ofNat 32 (2 ^ 31 + h.2 % 256)
    | none => 0

def execCheld (o : A1) (s : State) : Host.Outcome State Fault Refusal :=
  let l : List SrcSpec := [⟨o.a, 1, .int⟩]
  .next (perLane s o.pg fun s w t =>
    withSrcs s w t l o.d 1 (poisonCauses []) fun vals pops =>
      if w.role == .drone then
        match takeValue s w t.tid with
        | none => (s, .wait .resource)
        | some (s, ws, _) => plainRetire s w t.tid l pops o.d (ws.map (·.val)) id
      else if valuesFull s w then (s, .wait .resource)
      else
        let v := heldWord t (colourOf (opv vals 0))
        plainRetire (queueValue s w t.tid (some (fillsOf [v])) false false) w t.tid l pops o.d [v] id)

/-! ## DPFX -/

/-- The word after the one at pc is a DPFX. -/
def nextIsDpfx (g : Group) : Bool := ((g.words.drop (curSpan g / 8)).head?).any fun w => w.toNat / 2 ^ 56 == 0xCA

/-- DPFX makes the next word dual; the two issue and retire together. -/
def execDpfx (mask : BitVec 4) (s : State) : Host.Outcome State Fault Refusal :=
  .next (if curLast s.cur || nextIsDpfx s.cur then
      deliverTraps s s.cur.pc s.cur.legacy (s.cur.tids.map fun t => (t, { code := 0x0B }))
    else { s with cur := { s.cur with dual := some mask, dualPc := s.cur.pc } })

/-! ## Special registers -/

def trapcause (t : TrapState) : Word :=
  BitVec.ofNat 64 (t.inh.toNat * 2 ^ 15 + t.legacy.toNat * 2 ^ 14 + t.integ.toNat * 2 ^ 13 + t.shadow.toNat * 2 ^ 12 + t.cause.toNat)

/-- R414. -/
def tstat (w : Workgroup) (t : Thread) : Word := BitVec.ofNat 64 (w.epoch.retries % 4 * 4 + t.numerr.toNat)

def ofW32 (x : W32) : Word := x.setWidth 64

/-- The value of a register; none for an unlisted number (R412). -/
def srRead (s : State) (w : Workgroup) (t : Thread) (n : Nat) : Option Word :=
  let nat := fun (x : Nat) => some (BitVec.ofNat 64 x)
  let wp := getWarp s t.tid.core t.tid.slot
  match n with
  | 0x00 => nat t.tid.lane
  | 0x01 => nat Config.width
  | 0x02 => nat ((wp.map (·.index)).getD 0)
  | 0x03 => nat w.index
  | 0x04 => nat (((getGang s w.gang).map (·.index)).getD 0)
  | 0x05 => nat t.tid.core
  | 0x06 => nat (coreCluster t.tid.core)
  | 0x07 => nat (coreDie t.tid.core)
  | 0x08 => nat s.now
  | 0x09 => nat t.fdepth
  | 0x0A => some (tstat w t)
  | 0x0B => some (t.fstat.setWidth 64)
  | 0x0C => some (ofW32 t.rng)
  | 0x0D => nat (w.rcb.tanK + 16 * w.shadows)
  | 0x0E => nat ((wp.map (·.uchk.toNat)).getD 0)
  | 0x0F => some ((wp.map (·.slip)).getD 0)
  | 0x10 => nat t.depth
  | 0x11 => nat t.pl
  | 0x12 => some (ofW32 (((wp.map (·.linkbase)).getD 0xFFFFFFF8) &&& 0xFFFFFFF8))
  | 0x13 => nat w.nwarps
  | 0x14 => nat s.ns
  | 0x15 => some w.region
  | 0x16 => nat s.module_
  | 0x17 => some (ofW32 t.tanrng)
  | 0x20 => some (trapcause t.trap)
  | 0x21 => some t.trap.addr
  | 0x22 => some t.trap.mask
  | 0x23 => some t.trap.pc
  | 0x24 => some t.trap.aux
  | 0x25 => some t.trap.peer
  | 0x26 => some 0
  | _ => none

/-- A register of the trap state needs PL1. -/
def srPriv (n : Nat) (t : Thread) : List Cause := if 0x20 ≤ n ∧ n ≤ 0x26 ∧ t.pl = 0 then [{ code := 0x05 }] else []

def srWritable (n : Nat) : Bool := [0x0A, 0x0B, 0x0C, 0x0E, 0x12, 0x17, 0x23].contains n

def srWarp (n : Nat) : Bool := n == 0x0E || n == 0x12

def oneIfZero (x : W32) : W32 := if x == 0 then 1 else x

/-- A write of a per-thread register. -/
def srWriteThread (t : Thread) (n : Nat) (v : Word) : Thread :=
  match n with
  | 0x0A => { t with numerr := v.getLsbD 0 }
  | 0x0B => { t with fstat := v.setWidth 6 }
  | 0x0C => { t with rng := oneIfZero (v.setWidth 32) }
  | 0x17 => { t with tanrng := oneIfZero (v.setWidth 32) }
  | 0x23 => { t with trap := { t.trap with pc := v &&& 0xFFFFFFFFFFFFFFF8 } }
  | _ => t

def srWriteWarp (x : Warp) (n : Nat) (v : Word) : Warp :=
  if n = 0x0E then { x with uchk := v.getLsbD 0 } else if n = 0x12 then { x with linkbase := v.setWidth 32 &&& 0xFFFFFFF8 } else x

def execGetsr (pg : Guard) (d : Dst) (n : BitVec 8) (s : State) : Host.Outcome State Fault Refusal :=
  let k := k64 (sr64 n)
  .next (perLane s pg fun s w t =>
    let v := srRead s w t n.toNat
    withSrcs s w t [] d k (fun _ => srPriv n.toNat t ++ if v.isNone then [{ code := 0xB3 }] else []) fun _ pops =>
      plainRetire s w t.tid [] pops d (wordsOf k (v.getD 0).toNat) id)

/-- No lower lane of the thread's warp has retired the word with its effect. -/
def firstOfWarp (s : State) (pg : Guard) (t : Tid) : Bool :=
  !(s.cur.tids.any fun u => u.core == t.core && u.slot == t.slot && decide (u.lane < t.lane) && (getT s u).any fun x =>
    x.pc == s.cur.next && x.run == .ready && passes x pg)

def execSetsr (pg : Guard) (n : BitVec 8) (a : Src) (s : State) : Host.Outcome State Fault Refusal :=
  let l : List SrcSpec := [⟨a, k64 (sr64 n), .int⟩]
  .next (perLane s pg fun s w t =>
    withSrcs s w t l .zero 0 (fun vals => srPriv n.toNat t ++ (if srWritable n.toNat then [] else [{ code := 0xB3 }]) ++ poisonCauses [] vals) fun vals pops =>
        let v := (opv vals 0).word
        let s1 := if srWarp n.toNat && firstOfWarp s pg t.tid then modWarp s t.tid.core t.tid.slot fun x => srWriteWarp x n.toNat v else s
        plainRetire s1 w t.tid l pops .zero [] fun x => srWriteThread x n.toNat v)

/-! ## ERET -/

def execEret (pg : Guard) (s : State) : Host.Outcome State Fault Refusal :=
  .next (perLane s pg fun s w t =>
    withSrcs s w t [] .zero 0 (fun _ => privCause 1 t ++ if t.trap.inh then [] else [{ code := 0xBA }]) fun _ _ =>
      let cs := coloursAbove t t.trap.depth
      if !colourReleaseReady s t.tid cs then (s, .wait .release)
      else (returnFromTrap (if cs.isEmpty then s else pin s w.id) w.pasid t.tid, .gone))

/-! ## Services -/

def fwServices : List Nat := [0x00, 0x01, 0x02, 0x03, 0x04]
def monServices : List Nat := [0x01, 0x02, 0x10, 0x11, 0x12, 0x13]

/-- The operands of a lane of a service are taken. -/
def serviceTake (s : State) (w : Workgroup) (l : List SrcSpec) (t : Tid) : State :=
  match getT s t with
  | none => s
  | some x =>
    let r := readSrcs s w x l []
    touchRegs (modT s t fun y => takeSources y l r.pops) w t (markedRegs l)

/-- Every lane's value from the load value queue, if all are there. -/
def takeAll (s : State) (w : Workgroup) : List Tid → Option (State × List W32)
  | [] => some (s, [])
  | t :: r => match takeValue s w t with
    | none => none
    | some (s, ws, _) => (takeAll s w r).map fun x => (x.1, ws.map (·.val))

/-- The lanes `ts` of an answered service go on: Acquire, the result, retirement (R416 steps 4 and 5). -/
def finishService (s : State) (w : Workgroup) (l : List SrcSpec) (d : Dst) (v : Service) (ts : List Tid) (ans : Word) : State :=
  let rest := { v with tids := v.tids.filter fun t => !ts.contains t }
  let s := { s with services := (updIf (fun x => x.id == v.id) (fun _ => rest) s.services).filter fun x => !x.tids.isEmpty }
  let s := ts.foldl (fun s t => acquire s t.core .dev) s
  let s := ts.foldl (fun s t => serviceTake s w l t) s
  let ws := wordsOf 2 ans.toNat
  let s := ts.foldl (fun s t => queueValue s w t (some (fillsOf ws)) false false) s
  ts.foldl retire (writeAll s w ts d ws)

def serviceWord (s : State) (pg : Guard) (monitor : Bool) (svc : BitVec 8) (extra : Thread → List Cause) (l : List SrcSpec) (d : Dst) : State :=
  perGroupWith s pg extra l d 2 [] fun s w _ v tids =>
    if w.role == .drone then
      match takeAll s w tids with
      | none => (s, .wait .resource)
      | some (s, ws) => (writeAll s w tids d ws, .retire)
    else match s.services.find? fun x => x.answer.isSome && x.tids.any fun t => tids.contains t with
    | some x => (finishService s w l d x (x.tids.filter fun t => tids.contains t) (x.answer.getD 0), .settled)
    | none =>
      if lanesPending s w tids .dev then (s, .wait .release)
      else if valuesFull s w then (s, .wait .resource)
      else
        let (s, id) := newId (pin s w.id)
        ({ s with services := s.services ++ [⟨id, monitor, svc, (opv v 0).word, (opv v 1).word, tids, none⟩] }, .wait (.service id))

def execFwcall (o : A1) (svc : BitVec 8) (s : State) : Host.Outcome State Fault Refusal :=
  .next (serviceWord s o.pg false svc (fun t => if fwServices.contains svc.toNat && decide (t.pl < 2) then [] else [{ code := 0xB2 }])
    [⟨o.a, 2, .int⟩] o.d)

def execMoncall (o : A2) (svc : BitVec 8) (s : State) : Host.Outcome State Fault Refusal :=
  .next (serviceWord s o.pg true svc
    (fun t => privCause (if 0x10 ≤ svc.toNat then 2 else 1) t ++ if monServices.contains svc.toNat then [] else [{ code := 0xB2 }])
    [⟨o.a, 2, .int⟩, ⟨o.b, 2, .int⟩] o.d)

/-- The answer reaches the waiting lanes. -/
def answer (s : State) (v : Service) (x : Word) : State :=
  { s with services := updIf (fun y => y.id == v.id) (fun y => { y with answer := some x }) s.services
           threads := updIf (fun t => t.run == .waiting (.service v.id)) (fun t => { t with run := .ready, able := s.now }) s.threads }

/-- FWCALL's results (R416). -/
def fwResult (s : State) (svc : Nat) : Word :=
  match svc with
  | 0x00 => BitVec.ofNat 64 ((activeImage s.fw).svn.toNat * 2 ^ 48 + (activeImage s.fw).build.toNat)
  | 0x01 => Config.modcap
  | 0x02 => BitVec.ofNat 64 s.fw.diesOk.toNat
  | 0x03 => BitVec.ofNat 64 (s.module_ % 512 + (s.domain.length + 1) % 1024 * 2 ^ 16)
  | _ => Config.modcap2

def execFwcallAnswer (s : State) : Host.Outcome State Fault Refusal :=
  .next (match s.services.find? fun v => v.id == s.unit_ && !v.monitor && v.answer.isNone with
    | none => s
    | some v => answer s v (fwResult s v.svc.toNat))

/-- The context of a service's caller. -/
def servicePasid (s : State) (v : Service) : Nat :=
  ((v.tids.head?.bind (getT s)).bind fun t => (getWg s t.wg).map (·.pasid)).getD 0

def ensureCtx (s : State) (pasid : Nat) : State :=
  if (getCtx s pasid).isSome then s else { s with contexts := s.contexts ++ [⟨pasid, none, 0, 0, false, 0, []⟩] }

/-- A root commit (R39). -/
def commitRoot (s : State) (pasid : Nat) (root : Word) : State × Word :=
  if root.toNat % 4096 = 0 ∧ (hbmOf s root.toNat).isSome ∧ pagesOk (ensureCtx s pasid) pasid (some root.toNat) then
    (modCtx (ensureCtx s pasid) pasid fun c => { c with root := some root.toNat }, 0)
  else (s, 7)

/-- Image verification of a slot (R38). -/
def verifySlot (s : State) (slot : Nat) : State × Word :=
  if 2 ≤ slot then (s, 0x0C)
  else
    let i := if slot = 0 then s.fw.slotA else s.fw.slotB
    let ok := imageOk i.image false
    let i := { i with valid := ok }
    ({ s with fw := if slot = 0 then { s.fw with slotA := i } else { s.fw with slotB := i } }, if ok then 0 else 0x0C)

/-- A key is programmed for a context (R37). -/
def programKey (s : State) (key pasid : Nat) : State × Word :=
  if 1 ≤ key ∧ key ≤ 63 then
    (modCtx { ensureCtx s pasid with keys := kset key pasid s.keys } pasid fun c => { c with key := key, confidential := true }, 0)
  else (s, 0x0C)

def serviceCore (v : Service) : Nat := ((v.tids.head?).map (·.core)).getD 0

/-- For whom the monitor reads an image. -/
def serviceAsker (s : State) (v : Service) : Asker :=
  match (v.tids.head?.bind (getT s)).bind fun t => getWg s t.wg with
  | some w => ⟨serviceCore v, w.pasid, w.gen, (wgNow s w).sev⟩
  | none => ⟨serviceCore v, 0, 0, 0⟩

/-- A commit that MONCALL asks for: the image is written to the target, the tree changes, and the answer goes when a peer has acknowledged the image (0xFF stands for that wait). -/
def commitImage (s : State) (v : Service) (pasid : Nat) (b : List Byte) : State × Option Word :=
  match targetLeaf s pasid v.b, commitOk s pasid b v.b with
  | some l, true =>
    let commit := fun (s : State) => commitTree s pasid b v.b (homeLink s pasid)
    let pa := leafPa l v.b.toNat
    (match homeOf s.module_ s.domain pa with
     | .hbm a => (commit (writeCanon s a b l.layout l.key false), some 0)
     | .reg off => (commit (regWriteBytes s off b true), some 0)
     | .host k bus =>
       if !(getLink s k).up then (commit (faultRecord s pasid 0x53 v.b), some 0)
       else (match hostXlate s k pasid bus with
         | (s, .ok a) => (commit (writeCanon s a b l.layout l.key false), some 0)
         | (s, .wait) => (s, none)
         | (s, .fault) => (s, some 7))
     | .peer _ off => (match route s with
       | none => (commit (faultRecord s pasid 0x53 v.b), some 0)
       | some q =>
         if credit s q 0 = 0 then (s, none)
         else
           let s := commit (sendTable s (serviceCore v) pasid q off v.b b)
           ({ s with services := updIf (fun x => x.id == v.id) (fun x => { x with svc := 0xFF }) s.services }, none))
     | .bad => (s, some 7))
  | _, _ => (s, some 7)

/-- What the monitor does (R417); none while a page of the argument is being translated. -/
def monService (s : State) (v : Service) : State × Option Word :=
  let p := servicePasid s v
  match v.svc.toNat with
  | 0x01 => (s, some ((s.fw.patch.elim (0 : BitVec 16) fun (i : Image) => i.svn).setWidth 64))
  | 0x02 =>
    let (s, x) := freeValue s
    (s, some x)
  | 0x10 =>
    (match structRead s (serviceAsker s v) v.a.toNat 256 with
     | (s, .bytes b _ _) => commitImage s v p b
     | (s, .wait) => (s, none)
     | (s, .ats _ _) => (s, none)
     | (s, _) => (s, some 0x0C))
  | 0xFF => (s, if s.stores.any fun x => x.who == some (.table (serviceCore v)) && x.addr == v.b then none else some 0)
  | 0x11 =>
    let (s, x) := commitRoot s (v.a.toNat % 2 ^ 20) v.b
    (s, some x)
  | 0x12 =>
    let (s, x) := verifySlot s v.a.toNat
    (s, some x)
  | 0x13 =>
    let (s, x) := programKey s v.a.toNat (v.b.toNat % 2 ^ 20)
    (s, some x)
  | _ => (s, some 0x0C)

def execMoncallAnswer (s : State) : Host.Outcome State Fault Refusal :=
  .next (match s.services.find? fun v => v.id == s.unit_ && v.monitor && v.answer.isNone with
    | none => s
    | some v => match monService s v with
      | (s, none) => s
      | (s, some x) => answer s v x)

/-! ## Invalidations -/

/-- The physical blocks that a range maps, as instruction-cache lines name them, are removed from every cluster (R418). -/
def dropCode (s : State) (pasid : Nat) (a : Word) (len : Nat) : State :=
  { s with icache := s.icache.filter fun x =>
      !((List.range ((a.toNat % 64 + len + 63) / 64)).any fun i => match (walk s pasid (a.toNat / 64 * 64 + 64 * i)).2 with
        | .leaf l _ => (canon s pasid (leafPa l (a.toNat / 64 * 64 + 64 * i))).any fun c => c / 64 == x.block
        | _ => false) }

def execIcinv (pg : Guard) (range : Option (Src × Src)) (s : State) : Host.Outcome State Fault Refusal :=
  .next (perGroupWith s pg (privCause 1) (match range with
      | none => []
      | some (a, n) => [⟨a, 2, .int⟩, ⟨n, 1, .int⟩]) .zero 0 [0] fun s w _ v tids =>
    if range.isSome && (opv v 1).w32 == 0 then (s, .trap { code := 0x82 })
    else if lanesPending s w tids .dev then (s, .wait .release)
    else if range.isNone then ({ s with icache := [] }, .retire)
    else (dropCode s w.pasid (opv v 0).word ((opv v 1).nat false), .retire))

/-- Accesses that used a translation of a context are complete, but for those that `translationsInUse` tells (R112). -/
def drainFor (s : State) (form : TlbForm) (pasid : Nat) : State :=
  match form with
  | .all => (s.contexts.map (·.pasid)).foldl drainContext s
  | _ => drainContext s pasid

/-- Accesses of contexts `p` that have used a translation and are neither complete nor in a side log: those of peers that are not answered, and stores that wait in a compare buffer (R112, R145). A drone's buffer entries are its chanter's, who waits for them. -/
def translationsInUse (s : State) (role : Role) (p : Nat → Bool) : Bool :=
  let mine := fun (wg : Nat) => (getWg s wg).any fun x => p x.pasid
  s.stores.any (fun x => x.port.isSome && p x.pasid)
    || s.loads.any (fun l => l.kind == .peer && (getT s l.tid).any fun x => mine x.wg)
    || s.peerReads.any (fun r => r.data.isNone && (match r.who with
        | .engine id => s.engines.any fun e => e.id == id && mine e.wg
        | .packet q _ => p (getQueue s q).pasid
        | .table _ => false
        | .code t => (getT s t).any fun x => mine x.wg
        | .lane t => (getT s t).any fun x => mine x.wg))
    || (role != .drone && s.compare.any fun c => mine c.wg && (match c.effect with
        | .store .. => true
        | _ => false))

def invalidate (s : State) (form : TlbForm) (pasid : Nat) (va : Word) : State :=
  match form with
  | .page => { s with tlb := s.tlb.filter fun e => !(e.pasid == pasid && e.page == pageBase e.leaf.level va.toNat) }
  | .ctx => { s with tlb := s.tlb.filter (fun e => e.pasid != pasid), clb := s.clb.filter fun e => e.pasid != pasid }
  | .all => { s with tlb := [], clb := [] }

def execTlbinv (pg : Guard) (form : TlbForm) (a : Src) (b : Option Src) (s : State) : Host.Outcome State Fault Refusal :=
  let page := form == .page
  .next (perGroupWith s pg (privCause (if form == .all || b.isSome then 2 else 1))
      ((if page then [⟨a, 2, .int⟩] else []) ++ (match b with
        | none => []
        | some x => [⟨x, 1, .int⟩])) .zero 0 (if page then [0] else []) fun s w _ v tids =>
    let p := match b with
      | none => w.pasid
      | some _ => (opv v (if page then 1 else 0)).nat false % 2 ^ 20
    if lanesPending s w tids .dev then (s, .wait .release)
    else if translationsInUse s w.role fun x => form == .all || x == p then (s, .wait .release)
    else
      (invalidate (drainFor s form p) form p (opv v 0).word, .retire))

/-! ## FCXL, FINJ, HALT and CCTL -/

def execFcxl (pg : Guard) (a b : Src) (s : State) : Host.Outcome State Fault Refusal :=
  .next (perGroupWith s pg (privCause 2) [⟨a, 1, .int⟩, ⟨b, 2, .int⟩] .zero 0 [1] fun s _ _ v _ =>
    (cancelPage s ((opv v 0).nat false % 2 ^ 20) ((opv v 1).word.toNat / 4096), .retire))

def execFinj (pg : Guard) (a : Src) (s : State) : Host.Outcome State Fault Refusal :=
  let l : List SrcSpec := [⟨a, 2, .int⟩]
  .next (perLane s pg fun s w t =>
    withSrcs s w t l .zero 0 (fun vals => (if w.rcb.inject then [] else [{ code := 0xB6 }]) ++ poisonCauses [] vals) fun vals pops =>
      plainRetire s w t.tid l pops .zero [] fun x =>
        if w.role == .drone && !x.injected then { x with armed := some (opv vals 0).word } else x)

def execHalt (pg : Guard) (s : State) : Host.Outcome State Fault Refusal :=
  .next (perGroupWith s pg (privCause 2) [] .zero 0 [] fun s _ _ _ tids =>
    (tids.foldl (fun s t => if (getT s t).any (·.passed) then retire s t else waitFor s t .halt) s, .settled))

/-- A firmware event reaches a core. -/
def execHaltWake (s : State) : Host.Outcome State Fault Refusal :=
  .next { s with threads := updIf (fun t => t.tid.core == s.unit_ && t.run == .waiting .halt) (fun t => { t with run := .ready, able := s.now, passed := true }) s.threads }

/-- The value of CCTL.read (R423). -/
def monWord (s : State) (m : Monitor) : Word :=
  let h := match m.holder with
    | none => 0
    | some t => 2 ^ 62 + coreDie t.core % 16 * 2 ^ 52 + t.core % 100 * 2 ^ 45 + t.slot % 64 * 2 ^ 39 + t.lane % 128 * 2 ^ 32
  let cls := m.fifo.foldl (fun a y => Nat.max a (threadClass s y.tid)) 0
  BitVec.ofNat 64 (2 ^ 63 + h + Nat.min m.fifo.length 0xFFFF * 2 ^ 16 + Nat.min m.cond.length 0x3FFF * 4 + cls % 4)

/-- A forced release, with no ordering (R200). -/
def forceRelease (s : State) (pasid : Nat) (c : BitVec 16) : State :=
  match (getMon s pasid c).bind (·.holder) with
  | none => s
  | some t => dropMonitor (modT s t fun x => { x with held := x.held.filter fun h => h.1 != c }) pasid c

def execCctl (pg : Guard) (d : Option Dst) (a b : Src) (s : State) : Host.Outcome State Fault Refusal :=
  .next (perGroupWith s pg (privCause 2) [⟨a, 1, .int⟩, ⟨b, 1, .int⟩] (dstOr d) (if d.isSome then 2 else 0) [] fun s w _ v tids =>
    let p := (opv v 0).nat false % 2 ^ 20
    let c := colourOf (opv v 1)
    match d with
    | none => (forceRelease s p c, .retire)
    | some d =>
      let x := ((getMon s p c).map (monWord s)).getD 0
      (writeAll s w tids d (wordsOf 2 x.toNat), .retire))

end Sys2Proof.Machine
end

