-- ==== Sys2Proof/Machine/Events.lean ====
section
/-! DEFINITION. Steps of the memory units, the engines, the directories and the timers: fills (R167), stores acknowledged (R203, R206), engine operations
(R364, R386, R390), monitors (R188, R193, R195, R198), watchdogs, segments (R85, R88), the reed's timeout (R395) and the heat sweeper (R115). -/

namespace Sys2Proof.Machine

/-! ## Fills (R167) -/

def fillReg (f : FillWord) : Reg := ⟨if f.poison then .poison else .full, f.val, f.sh⟩

/-- Fills the registers of a late value. -/
def fillRegs (t : Thread) (d : Dest) (ws : List FillWord) : Thread :=
  let at_ := fun (i : Nat) => fillReg (ws.getD i ⟨0, false, []⟩)
  match d with
  | .v n => (List.range ws.length).foldl (fun t i => setV t (n + i) (at_ i)) t
  | .o n => (List.range ws.length).foldl (fun t i => setO t (n + i) (at_ i)) t
  | .none => t

/-- A late value arrives (R167), in a thread that has ended too (R304); one that a rollback has discarded writes nothing, and one of an earlier interval is kept over a rollback (R142). -/
def fillLoad (s : State) (l : OutLoad) : State :=
  let s := { s with loads := s.loads.filter fun x => x.id != l.id }
  let s := match getT s l.tid with
    | none => s
    | some t =>
      if l.dead || t.run == .killed then s
      else
        let s := match getWg s t.wg with
          | some w => touchRegs s w l.tid (destRegs l.dest l.words.length)
          | none => s
        let f := fun (x : Thread) => { fillRegs x l.dest l.words with numerr := x.numerr || l.numerr }
        fillImage (modT s l.tid f) l.tid l.interval f
  wakeCore s l.tid.core

def execFill (id : Nat) (s : State) : Host.Outcome State Fault Refusal :=
  .next (match s.loads.find? fun l => l.id == id && loadHere s l && l.pop.isNone with
    | none => s
    | some l => fillLoad s l)

/-! ## Stores (R203, R206) -/

/-- A store reaches its point of coherence, after the older ones of its core to the same bytes. -/
def ackStore (s : State) (x : OutStore) : State :=
  let a := ((x.cells.head?).map (·.1)).getD 0
  let older := s.stores.filter fun y => y.core == x.core && decide (y.id ≤ x.id) && (y.id == x.id || cellsTouch y.cells a x.cells.length)
  wakeAll (older.foldl performStore s)

def execStoreAcknowledge (id : Nat) (s : State) : Host.Outcome State Fault Refusal :=
  .next (match s.stores.find? fun x => x.id == id && x.port.isNone with
    | none => s
    | some x => ackStore s x)

/-! ## Engine operations -/

/-- A place in the matrix order of its workgroup (R386, R370). -/
def EngineKind.inOrder : EngineKind → Bool
  | .matrix _ => true
  | .copy _ _ _ _ f => f.isSome
  | _ => false

/-- The first outstanding matrix operation of its workgroup. -/
def firstInOrder (s : State) (op : EngineOp) : Bool :=
  (s.engines.find? fun e => e.wg == op.wg && e.kind.inOrder).any fun e => e.id == op.id

/-- A side in global memory. -/
def Side.isGlobal : Side → Bool
  | .global .. => true
  | _ => false

def EngineKind.globalDst : EngineKind → Bool
  | .copy d .. => d.isGlobal
  | .xred .. => true
  | .matrix (.accst _ scr ..) => !scr
  | _ => false

/-- Stores of an operation that a peer has not acknowledged. -/
def opStores (s : State) (op : EngineOp) : Bool := s.stores.any fun x => x.who == some (.engine op.id)

/-- An operation ends with a status, once its stores to peers are acknowledged: L1 lines of its core go (R215), its token is filled, and what waited for it goes on: barriers, a rollback that is due, a freeze. -/
def endOp (s : State) (op : EngineOp) (status : Nat) : State :=
  let op := (getOp s op.id).getD op
  if opStores s op then modOp s op.id fun o => { o with stop := some (op.stop.getD status) }
  else
    let s := if op.kind.globalDst then dropL1 s op.core else s
    barAll (settleFrozen (settleRollback (finishOp s op (op.stop.getD status)) op.wg) op.core)

/-- Status 7: the lanes of the issuing group consume POISON at their next word (R390). -/
def markPoison (s : State) (op : EngineOp) : State :=
  if op.dead then s else op.tids.foldl (fun s t => modT s t fun x => { x with mpoison := true }) s

/-- An operation that cannot go on now: a pending fault, a translation, a table in error, or its end with a status (R131, R364). -/
def haltOp (s : State) (op : EngineOp) (w : Workgroup) (e : EStep) : State :=
  match e with
  | .fault va wr =>
    (match raiseFault s op.core w.pasid va wr with
     | (s, true) => modOp s op.id fun o => { o with state := .faulted (va / 4096) wr }
     | (s, false) => s)
  | .ats link page va wr => modOp s op.id fun o => { o with state := .ats link page va wr }
  | .kill code va => killOrRoll s w code va
  | .roll => if canRollback s w then startRollback s w.id else endOp s op stPerm
  | .stop st => endOp s op st
  | .done => endOp s op 0
  | .moved _ => s
  | .wait => s

/-- Performs a matrix operation and ends `op`, whose own it is or whose follow-on; `own` says that its bytes count. -/
def runMatrix (s : State) (w : Workgroup) (op : EngineOp) (m : MatOp) (own : Bool) : State :=
  let count := fun (s : State) (n : Nat) => if own then modOp s op.id fun o => { o with moved := n } else s
  match matrixRun s w op m with
  | (s, .step e n) => haltOp (count s n) op w e
  | (s, .ended st n p) => endOp (if p then markPoison (count s n) op else count s n) op st

/-- A payload for a core of this module enters its landing queue (R372, R374). -/
def landHere (s : State) (op : EngineOp) (pasid core : Nat) (src : W32) (data : List Byte) (poison : Bool) : State :=
  if landingFull s core then s
  else
    let s := modCore s core fun c => { c with landing := c.landing ++ [⟨pasid, src, data, op.vc, poison⟩] }
    let s := modOp s op.id fun o => { o with moved := 64 }
    wakeCore (servePops (endOp s op 0) core) core

/-- Payloads of one thread for one core keep their order (R374). -/
def firstPayload (s : State) (op : EngineOp) (core : Nat) : Bool :=
  (s.engines.find? fun e => e.tid == op.tid && (match e.kind with
    | .remq m c .. => m == s.module_ && c == core
    | _ => false)).any fun e => e.id == op.id

/-- One turn of an operation: `once` until the next check of its handle, else as far as it gets. -/
def runOp (s : State) (w : Workgroup) (op : EngineOp) (once : Bool) : State :=
  match op.stop with
  | some st => endOp s op st
  | none =>
    match op.kind with
    | .remq m core data src p => if m = s.module_ ∧ firstPayload s op core then landHere s op w.pasid core src data p else s
    | .matrix m => if firstInOrder s op then runMatrix s w op m true else s
    | .copy _ _ _ _ f =>
      (match engineRun once (engineFuel op) s op.id, f with
       | (s, .done), some m => if firstInOrder s op then runMatrix s ((getWg s w.id).getD w) op m false else s
       | (s, e), _ => haltOp s op w e)
    | .xred .. =>
      match engineRun once (engineFuel op) s op.id with
      | (s, e) => haltOp s op w e

/-- An operation runs; those of a killed workgroup end where they stand. -/
def engineTurn (s : State) (id : Nat) (once : Bool) : State :=
  match getOp s id with
  | none => s
  | some op =>
    if op.state != .running then s
    else match getWg s op.wg with
    | none => endOp s op 0
    | some w => if w.state == .killed || w.state == .ended && op.dead then endOp s op 0 else runOp s w op once

def execEngineOperationComplete (id : Nat) (s : State) : Host.Outcome State Fault Refusal := .next (engineTurn s id false)

/-- R124: the operation moves up to its next check and makes it. -/
def execEngineHandleRecheck (id : Nat) (s : State) : Host.Outcome State Fault Refusal := .next (engineTurn s id true)

/-! ## Monitors -/

/-- A free monitor with waiters goes to the head of its FIFO (R193). -/
def execMonitorGrant (pasid colour : Nat) (s : State) : Host.Outcome State Fault Refusal :=
  let c : BitVec 16 := BitVec.ofNat 16 colour
  .next (match getMon s pasid c with
    | none => s
    | some m => if m.holder.isNone then freeMonitor s pasid c else s)

/-- R188: a request or a CWAIT is tried again after 64 cycles. -/
def execColourRequestRetry (t : Tid) (s : State) : Host.Outcome State Fault Refusal :=
  .next (modT s t fun x => match x.run with
    | .waiting (.colourRetry ..) => if x.retrying.all fun r => decide (r.2.2 + 64 ≤ s.now) then { x with run := .ready, able := s.now } else x
    | _ => x)

/-- A trap of a waiting thread, which leaves every list. -/
def trapOut (s : State) (t : Tid) (c : Cause) : State := trapWaiting (modT (leaveLists s t) t fun x => { x with notified := none }) t c

/-- The wait of a thread has lasted `n` unfrozen cycles. -/
def waited (s : State) (x : Thread) (n : Nat) : Bool := x.since.any fun a => decide (a + n ≤ tidClock s x.tid)

/-- The watchdog exponent of a thread's region now (R67, R73). -/
def threadWd (s : State) (x : Thread) : Nat := ((getWg s x.wg).map fun w => wdLog2 (wgNow s w)).getD 24

/-- The cycle at which a lane joined the FIFO in which it waits. -/
def fifoSince (s : State) (t : Tid) : Option Nat :=
  s.monitors.findSome? fun m => (m.fifo.find? fun y => y.tid == t).map (·.since)

def execColourWaitTimeout (t : Tid) (s : State) : Host.Outcome State Fault Refusal :=
  .next (match getT s t with
    | none => s
    | some x =>
      let n := 2 ^ threadWd s x
      match x.run with
      | .waiting (.colour c va) =>
        if (fifoSince s t).any fun a => decide (a + n ≤ tidClock s t) then trapOut s t { code := 0x61, addr := va, detail := c.setWidth 32 } else s
      | .waiting (.colourRetry c va) => if x.retrying.any fun r => decide (r.2.1 + n ≤ tidClock s t) then trapOut s t { code := 0x61, addr := va, detail := c.setWidth 32 } else s
      | _ => s)

/-- The timeout of a CWAIT ends: the thread goes to the tail of the FIFO with its predicate cleared (R195). -/
def execCwaitTimeout (t : Tid) (s : State) : Host.Outcome State Fault Refusal :=
  .next (match s.monitors.findSome? fun m => (m.cond.find? fun y => y.tid == t).map fun y => (m, y) with
    | none => s
    | some (m, y) =>
      if y.timeout.any fun e => decide (e ≤ tidClock s t) then
        let s := moveWaiter s m.pasid m.colour y false
        if m.holder.isNone then freeMonitor s m.pasid m.colour else s
      else s)

/-! ## Timers of threads -/

/-- The waits that count toward WATCHDOG. -/
def WaitFor.watched : WaitFor → Bool
  | .reg => true
  | .clause => true
  | .barrier => true
  | .resource => true
  | .colourRetry .. => true
  | _ => false

def execWatchdog (t : Tid) (s : State) : Host.Outcome State Fault Refusal :=
  .next (match getT s t with
    | none => s
    | some x => match x.run with
      | .waiting w => if w.watched && waited s x (2 ^ (threadWd s x + 4)) then barAll (trapOut s t { code := 0xBE }) else s
      | _ => s)

/-- SLEEP ends (R305). -/
def execSleepExpiry (t : Tid) (s : State) : Host.Outcome State Fault Refusal :=
  .next (match getT s t with
    | none => s
    | some x => match x.run with
      | .waiting (.sleep e) => if e ≤ tidClock s t then modT s t fun x => { x with run := .ready, able := s.now, passed := true, since := none } else s
      | _ => s)

/-- R395: the warp that has held the reed for 2^22 unfrozen cycles; those of its threads that run trap at their next word. -/
def reedTimeout (s : State) (w : Workgroup) (warp : Nat) : State :=
  let mine := fun (t : Thread) => t.wg == w.id && t.alive && !t.trap.inh && (getWarp s t.tid.core t.tid.slot).any fun x => x.index == warp
  let ts := s.threads.filter mine
  let s := modWg s w.id fun w => { w with mx := { w.mx with reed := { w.mx.reed with since := wgClock s w } } }
  ts.foldl (fun s t => match t.run with
    | .ready => modT s t.tid fun x => { x with reedDue := true }
    | _ => trapOut s t.tid { code := 0x94 }) s

def execReedHoldTimeout (s : State) : Host.Outcome State Fault Refusal :=
  .next (match getWg s s.unit_ with
    | none => s
    | some w => match w.mx.reed.holder with
      | none => s
      | some i => if w.state == .resident && decide (w.mx.reed.since + 2 ^ 22 ≤ wgClock s w) then barAll (reedTimeout s w i) else s)

/-! ## Segments (R85, R88, R177) -/

/-- The segments in which a workgroup's footprint lies, and the byte at which it begins there. -/
def wgSegs (s : State) (w : Workgroup) : List Seg × Nat :=
  if w.segs.isEmpty && w.role == .drone then
    (((getWg s w.mate).map (·.segs)).getD [], footprint w.nwarps w.vregs w.shadows w.scratch w.undoMax)
  else (w.segs, 0)

/-- Bytes of one warp's register windows (R75, R172). -/
def warpBytes (w : Workgroup) : Nat := w.vregs * 256 * (1 + w.shadows)

/-- The segments, by place, that hold bytes `a` to `a + n - 1` of a footprint. -/
def segsAt (s : State) (w : Workgroup) (a n : Nat) : List Seg :=
  let x := wgSegs s w
  let lo := (x.2 + a) / Config.segmentBytes
  let hi := (x.2 + a + n - 1) / Config.segmentBytes
  (x.1.drop lo).take (hi + 1 - lo)

/-- Where component `j` of register `n` of a warp lies in a footprint: the windows of a warp after those of the one before, each component's registers together (assumption log 48). -/
def regAt (w : Workgroup) (warp j n : Nat) : Nat := warp * warpBytes w + (j * w.vregs + n) * 256

/-- The small state lies in the first segment (R177; assumption log 48). -/
def smallSegs (s : State) (w : Workgroup) : List Seg := segsAt s w 0 1

/-- The workgroups whose footprints share the segments of `v`: itself, and a near drone. -/
def sharing (s : State) (v : Workgroup) : List Workgroup := s.wgs.filter fun x => x.id == v.id || (x.role == .drone && x.mate == v.id && x.segs.isEmpty)

/-- A register lane in the segment is PENDING: of a v register or one of its shadows, or an o register of the small state (R175, R177). -/
def segPending (s : State) (w : Workgroup) (seg : Nat) : Bool :=
  let is := fun (l : List Seg) => l.any fun g => g.index == seg
  (wgThreads s w.id).any fun t =>
    let warp := ((getWarp s t.tid.core t.tid.slot).map (·.index)).getD 0
    (t.v.any fun r => r.2.st == .pending && (List.range (w.shadows + 1)).any fun j => is (segsAt s w (regAt w warp j r.1) 256))
      || (is (smallSegs s w) && t.o.any fun r => r.2.st == .pending)

/-- Work of a victim that a claim waits for (R85, R86, R177). -/
def segBusy (s : State) (v : Workgroup) (seg : Nat) : Bool :=
  (sharing s v).any fun x => inClause s x || coreOpsRunning s x.id || segPending s x seg

/-- The address of page `i` of a segment in the save area, where the area has it. -/
def savePage (w : Workgroup) (seg i : Nat) : Option Word :=
  let o := seg * Config.segmentBytes + 4096 * i
  if o + 4096 ≤ w.rcb.saveBytes.toNat then some (w.rcb.saveBase + BitVec.ofNat 64 o) else none

def segPages : Nat := Config.segmentBytes / 4096

/-- Writes the pages of a segment from number `i` on, as far as it can: the image, whose layout the manual does not give, as free bytes. Answers how many are done; a page that is not mapped is passed over. -/
def writeSave (s : State) (w : Workgroup) (seg : Nat) : Nat → Nat → State × Nat
  | 0, i => (s, i)
  | n + 1, i =>
    match savePage w seg i with
    | none => writeSave s w seg n (i + 1)
    | some va =>
      let (s, b) := freeBytes s 4096
      match slotAt s w.core w.pasid w.gen va with
      | (s, .mem l a) => writeSave (writeCanon s a b l.layout l.key false) w seg n (i + 1)
      | (s, .peer off p) => writeSave (sendTable s w.core w.pasid p off va b) w seg n (i + 1)
      | (s, .absent) => writeSave s w seg n (i + 1)
      | (s, .wait) => (s, i)

/-- What reading a page of the save area gives. -/
inductive SaveRead where
  | good | lost | wait

def readSave (s : State) (w : Workgroup) (va : Word) : State × SaveRead :=
  match translate s w.core w.pasid va.toNat { r := true, w := false, x := false, pl := 1 } with
  | (s, .uncorr) => (s, .lost)
  | (s, .ok l pa) =>
    (match homeOf s.module_ s.domain pa with
     | .hbm a =>
       let (s, r) := readHbmRange s a 4096 l.layout l.key
       (s, if r.badMac || r.sev.isSome then .lost else .good)
     | .host k bus =>
       if !hostUpGen s k w.pasid w.gen then (s, .lost)
       else (match hostXlate s k w.pasid bus with
         | (s, .ok _) => (s, .good)
         | (s, .wait) => (s, .wait)
         | (s, .fault) => (s, .good))
     | .peer m off => (match readPeer s (.table w.core) m off 4096 with
       | (s, .data _) => (s, .good)
       | (s, .failed) => (s, .lost)
       | (s, .wait) => (s, .wait))
     | _ => (s, .good))
  | (s, _) => (s, .good)

/-- Reads the pages of a segment back, from number `i` on (R88). -/
def readSaves (s : State) (w : Workgroup) (seg : Nat) : Nat → Nat → State × Nat × SaveRead
  | 0, i => (s, i, .good)
  | n + 1, i =>
    match savePage w seg i with
    | none => readSaves s w seg n (i + 1)
    | some va => match readSave s w va with
      | (s, .good) => readSaves s w seg n (i + 1)
      | (s, x) => (s, i, x)

def setSeg (i : Nat) (f : Seg → Seg) (w : Workgroup) : Workgroup := { w with segs := updIf (fun g => g.index == i) f w.segs }

def segOf (w : Workgroup) (seg : Nat) : Option Seg := w.segs.find? fun g => g.index == seg

/-- The claim of a segment goes on: the victim's part is written to its save area and the segment is the newcomer's (R85, R86, R177). A victim that is to be discarded is discarded instead (R89). -/
def execSegmentSaveComplete (core seg : Nat) (s : State) : Host.Outcome State Fault Refusal :=
  .next (match s.wgs.find? fun w => w.core == core && (segOf w seg).any fun g => g.saving && g.victim.isSome with
    | none => s
    | some w =>
      let free := setSeg seg fun g => { g with victim := none, saving := false }
      match ((segOf w seg).bind (·.victim)).bind (getWg s) with
      | none => wakeAll (modWg s w.id free)
      | some v =>
        if v.state != .frozen then wakeAll (modWg s w.id free)
        else if segBusy s v seg then s
        else if discards s (unitOf s v) then settleUnit s (unitOf s v)
        else
          let s := writeBackAll s v
          let n := ((segOf v seg).map (·.moved)).getD 0
          let (s, n) := writeSave s v seg (segPages - n) n
          if n < segPages then modWg s v.id (setSeg seg fun g => { g with moved := n })
          else
            let s := modWg s v.id (setSeg seg fun g => { g with saved := true, moved := 0 })
            let hit := fun (x : Workgroup) => x.core == core && (segOf x seg).any fun g => g.victim == some v.id
            wakeAll { s with wgs := updIf hit free s.wgs })

/-- A claimed segment that its workgroup has touched again is read back; an uncorrectable error there loses the context (R88). -/
def execSegmentRestore (core seg wg : Nat) (s : State) : Host.Outcome State Fault Refusal :=
  .next (match s.wgs.find? fun w => w.id == wg && w.core == core && w.state == .resident && (segOf w seg).any fun g => g.saved && g.saving && g.victim.isNone with
    | none => s
    | some w =>
      let n := ((segOf w seg).map (·.moved)).getD 0
      match readSaves s w seg (segPages - n) n with
      | (s, n, .wait) => modWg s w.id (setSeg seg fun g => { g with moved := n })
      | (s, n, .lost) => wakeAll (kill s w.id 0x5A (w.rcb.saveBase + BitVec.ofNat 64 (seg * Config.segmentBytes + 4096 * n)))
      | (s, _, .good) => wakeAll (modWg s w.id (setSeg seg fun g => { g with saved := false, saving := false, moved := 0 })))

/-! ## The heat sweeper (R115) -/

/-- The entries of the leaves below a table. -/
def leafPtes (s : State) : Nat → Nat → List Nat
  | level, table =>
    (List.range (if level = 5 then 32 else 256)).flatMap fun i =>
      match hbmOf s (table + 16 * i) with
      | none => []
      | some a =>
        let x := leNat (readHbm s a 16 0 0).2.bytes
        if !bitAt x 0 then []
        else if bitAt x 1 then [a]
        else match level with
          | 0 => []
          | n + 1 => (match parsePointer s (n + 1) x with
            | none => []
            | some t => leafPtes s n t)

/-- Each non-zero heat field goes down by one. -/
def fadeHeat (s : State) (pte : Nat) : State :=
  let b := (getCell (pte + 2) s.mem).toNat
  let r := if bits b 1 0 = 0 then 0 else 1
  let w := if bits b 3 2 = 0 then 0 else 4
  { s with mem := setCell (pte + 2) (BitVec.ofNat 8 (b - r - w)) s.mem }

def execHeatSweep (s : State) : Host.Outcome State Fault Refusal :=
  let d := s.unit_
  .next (if s.heatMs = 0 ∨ s.ns < kget 0 d s.heatSwept + s.heatMs * 1000000 ∨ 16 ≤ d then s
    else
      let ptes := (s.contexts.flatMap fun c => match c.root with
        | some r => leafPtes s 5 r
        | none => []).eraseDups.filter fun a => dieOf a == d
      ptes.foldl fadeHeat { s with heatSwept := kset d s.ns s.heatSwept })

end Sys2Proof.Machine
end

