-- ==== Sys2Proof/Decode.lean ====
section
/-! DEFINITION. Decoding a word of a clause (R258 to R275), the Flilith-2 translation (R276 to R279) and the encoder.
`decodeWord w rest` reads word `w` with the clause's remaining words `rest` (a literal, a prefixed word or a follow-on stands there)
and answers the instruction, or the lowest decode cause (R8, R274) the word raises. -/

namespace Sys2Proof

/-! ## Fields -/

def fOp (w : Word) : Nat := (w >>> 56).toNat
def fPg (w : Word) : BitVec 4 := w.extractLsb' 52 4
def fD (w : Word) : BitVec 9 := w.extractLsb' 43 9
def fSa (w : Word) : BitVec 11 := w.extractLsb' 32 11
def fSb (w : Word) : BitVec 11 := w.extractLsb' 21 11
def fSc (w : Word) : BitVec 11 := w.extractLsb' 10 11
def fMod (w : Word) : BitVec 10 := w.extractLsb' 0 10

def guardOf (b : BitVec 4) : Guard := ⟨b.getLsbD 3, b.setWidth 3⟩
def guardCode (g : Guard) : BitVec 4 := (BitVec.ofBool g.neg) ++ g.p

/-- R270. -/
def opdOf (s : BitVec 9) : Option Opd :=
  let n := s.toNat
  if n < 0x100 then some (.v (s.setWidth 8))
  else if n < 0x140 then some (.g (s.setWidth 6))
  else if n < 0x146 then some (.o (s.setWidth 3))
  else if n == 0x146 then some .lr
  else if n == 0x147 then some .zero
  else if n < 0x150 then some (.q (s.setWidth 3))
  else if n < 0x160 then some (.int (s.setWidth 4))
  else if n < 0x170 then some (.cst (s.setWidth 4))
  else if n == 0x1FF then some .lit
  else none

def opdCode : Opd → BitVec 9
  | .v n => n.setWidth 9
  | .g n => 0x100 + n.setWidth 9
  | .o n => 0x140 + n.setWidth 9
  | .lr => 0x146
  | .zero => 0x147
  | .q n => 0x148 + n.setWidth 9
  | .int n => 0x150 + n.setWidth 9
  | .cst n => 0x160 + n.setWidth 9
  | .lit => 0x1FF

/-- A source field: specifier in [10:2], E in [1], L in [0] (R164). -/
def srcOf (f : BitVec 11) : Option Src :=
  (opdOf (f.extractLsb' 2 9)).map fun op => ⟨op, f.getLsbD 1, f.getLsbD 0⟩

def srcCode (s : Src) : BitVec 11 := opdCode s.op ++ BitVec.ofBool s.e ++ BitVec.ofBool s.l

def dstOf (s : BitVec 9) : Option Dst :=
  match opdOf s with
  | some (.v n) => some (.v n)
  | some (.g n) => some (.g n)
  | some (.o n) => some (.o n)
  | some .lr => some .lr
  | some .zero => some .zero
  | _ => none

def dstCode : Dst → BitVec 9
  | .v n => n.setWidth 9
  | .g n => 0x100 + n.setWidth 9
  | .o n => 0x140 + n.setWidth 9
  | .lr => 0x146
  | .zero => 0x147

/-- A predicate destination 0x180 + n (R270). -/
def predOf (s : BitVec 9) : Option (BitVec 3) := if s.extractLsb' 3 6 == 0x30 then some (s.setWidth 3) else none
def predCode (p : BitVec 3) : BitVec 9 := 0x180 + p.setWidth 9

def zSrc : Src := ⟨.zero, false, false⟩
def unusedSrc : BitVec 11 := 0x51C
def unusedDst : BitVec 9 := 0x147

def srcAt (f : BitVec 11) : Src := (srcOf f).getD zSrc
def dstAt (f : BitVec 9) : Dst := (dstOf f).getD .zero
def predAt (f : BitVec 9) : BitVec 3 := (predOf f).getD 0

/-- The field names no operand, a flag is not allowed, or the operand is not aligned for `k` registers (R158, R164). -/
def badSrc (k : Nat) (f : BitVec 11) : Bool :=
  match srcOf f with
  | none => true
  | some s => !s.wf k

def badBase (k : Nat) (f : BitVec 11) : Bool :=
  match srcOf f with
  | none => true
  | some s => !s.base k

def badDst (ok : Dst → Bool) (f : BitVec 9) : Bool :=
  match dstOf f with
  | none => true
  | some d => !ok d

def badToken (f : BitVec 11) : Bool :=
  match srcOf f with
  | none => true
  | some s => !s.token

def badPred (f : BitVec 9) : Bool := (predOf f).isNone

/-- A field names the literal word. -/
def isLitField (f : BitVec 11) : Bool := f.extractLsb' 2 9 == 0x1FF

/-! ## Causes -/

def cOperand : Nat := 0x01
def cClause : Nat := 0x02
def cPair : Nat := 0x03
def cScope : Nat := 0x04
def cLitMissing : Nat := 0x06
def cOrder : Nat := 0x07
def cWidth : Nat := 0x08
def cCache : Nat := 0x09
def cClass : Nat := 0x0A
def cDpfx : Nat := 0x0B
def cMode : Nat := 0x0C
def cAop : Nat := 0x0D
def cType : Nat := 0x0E
def cSop : Nat := 0x0F

/-- The lowest cause whose condition holds (R8). -/
def lowest (l : List (Bool × Nat)) : Option Nat :=
  l.foldl (fun m c => if c.1 then (match m with | none => some c.2 | some x => some (Nat.min x c.2)) else m) none

/-- The instruction, or the lowest cause. -/
def chk (l : List (Bool × Nat)) (i : Instr) : Except Nat Instr :=
  match lowest l with
  | none => .ok i
  | some c => .error c

/-- The checks every word with source fields `fs` makes about its literal: one field at most, and a literal word present (R269). -/
def litChk (rest : List Word) (fs : List (BitVec 11)) : List (Bool × Nat) :=
  let n := (fs.filter isLitField).length
  [(1 < n, cOperand), (0 < n && rest.isEmpty, cLitMissing)]

/-! ## Modifier fields -/

def rndOf (n : BitVec 3) : Option Rnd :=
  if n == 0 then some .rn else if n == 1 then some .rz else if n == 2 then some .ru
  else if n == 3 then some .rd else if n == 4 then some .rs else none

def rndCode : Rnd → BitVec 3
  | .rn => 0
  | .rz => 1
  | .ru => 2
  | .rd => 3
  | .rs => 4

def ffmtOf (n : BitVec 2) : Option FFmt :=
  if n == 0 then some .f32 else if n == 1 then some .f16 else if n == 2 then some .bf16 else none

def ffmtCode : FFmt → BitVec 2
  | .f32 => 0
  | .f16 => 1
  | .bf16 => 2

def cfmtOf (n : BitVec 2) : CFmt :=
  if n == 0 then .b32 else if n == 1 then .b16 else if n == 2 then .bf16 else .b64

def cfmtCode : CFmt → BitVec 2
  | .b32 => 0
  | .b16 => 1
  | .bf16 => 2
  | .b64 => 3

def iwOf (n : BitVec 2) : IWidth :=
  if n == 0 then .w8 else if n == 1 then .w16 else if n == 2 then .w32 else .w64

def iwCode : IWidth → BitVec 2
  | .w8 => 0
  | .w16 => 1
  | .w32 => 2
  | .w64 => 3

/-- The floating mod field (R308); a refused fmt or rnd reads as none. -/
def fmodOf (m : BitVec 10) : Option FMod :=
  match ffmtOf (m.extractLsb' 3 2), rndOf (m.setWidth 3) with
  | some f, some r => some ⟨m.getLsbD 9, m.getLsbD 8, m.getLsbD 7, m.getLsbD 6, m.getLsbD 5, f, r⟩
  | _, _ => none

def fmod0 : FMod := ⟨false, false, false, false, false, .f32, .rn⟩

def fmodCode (m : FMod) : BitVec 10 :=
  BitVec.ofBool m.cNeg ++ BitVec.ofBool m.bNeg ++ BitVec.ofBool m.bAbs ++ BitVec.ofBool m.aNeg ++ BitVec.ofBool m.aAbs
    ++ ffmtCode m.fmt ++ rndCode m.rnd

/-- A floating mod field the word does not accept. -/
def badFMod (ok : FMod → Bool) (m : BitVec 10) : Bool :=
  match fmodOf m with
  | none => true
  | some f => !ok f

def fmodAt (m : BitVec 10) : FMod := (fmodOf m).getD fmod0

def icondOf (n : BitVec 3) : Option ICond :=
  if n == 0 then some .eq else if n == 1 then some .ne else if n == 2 then some .lt else if n == 3 then some .le
  else if n == 4 then some .gt else if n == 5 then some .ge else none

def icondCode : ICond → BitVec 3
  | .eq => 0
  | .ne => 1
  | .lt => 2
  | .le => 3
  | .gt => 4
  | .ge => 5

def fcondOf (n : BitVec 3) : FCond :=
  if n == 0 then .eq else if n == 1 then .ne else if n == 2 then .lt else if n == 3 then .le
  else if n == 4 then .gt else if n == 5 then .ge else if n == 6 then .num else .nan

def fcondCode : FCond → BitVec 3
  | .eq => 0
  | .ne => 1
  | .lt => 2
  | .le => 3
  | .gt => 4
  | .ge => 5
  | .num => 6
  | .nan => 7

def redOpOf (n : BitVec 4) : Option RedOp :=
  if n == 0 then some .add else if n == 1 then some .min else if n == 2 then some .max else if n == 3 then some .and
  else if n == 4 then some .or else if n == 8 then some .fadd else if n == 9 then some .fmin else if n == 10 then some .fmax
  else if n == 11 then some .fminp else if n == 12 then some .fmaxp else none

def redOpCode : RedOp → BitVec 4
  | .add => 0
  | .min => 1
  | .max => 2
  | .and => 3
  | .or => 4
  | .fadd => 8
  | .fmin => 9
  | .fmax => 10
  | .fminp => 11
  | .fmaxp => 12

def laneModeOf (n : BitVec 2) : LaneMode :=
  if n == 0 then .abs else if n == 1 then .rel else if n == 2 then .xor else .rot

def laneModeCode : LaneMode → BitVec 2
  | .abs => 0
  | .rel => 1
  | .xor => 2
  | .rot => 3

def scopeOf (n : BitVec 3) : Option Scope :=
  if n == 0 then some .thr else if n == 1 then some .warp else if n == 2 then some .wg else if n == 3 then some .cl
  else if n == 4 then some .die else if n == 5 then some .dev else if n == 6 then some .sys else none

def scopeCode : Scope → BitVec 3
  | .thr => 0
  | .warp => 1
  | .wg => 2
  | .cl => 3
  | .die => 4
  | .dev => 5
  | .sys => 6

def scopeAt (n : BitVec 3) : Scope := (scopeOf n).getD .thr

def ordOf (n : BitVec 3) : Option Ord :=
  if n == 0 then some .plain else if n == 1 then some .rlx else if n == 2 then some .acq else if n == 3 then some .rel
  else if n == 4 then some .acqrel else if n == 5 then some .sc else none

def ordCode : Ord → BitVec 3
  | .plain => 0
  | .rlx => 1
  | .acq => 2
  | .rel => 3
  | .acqrel => 4
  | .sc => 5

def ordAt (n : BitVec 3) : Ord := (ordOf n).getD .plain

def cpOf (n : BitVec 2) : Option Cp :=
  if n == 0 then some .ca else if n == 1 then some .by else if n == 2 then some .st else none

def cpCode : Cp → BitVec 2
  | .ca => 0
  | .by => 1
  | .st => 2

def cpAt (n : BitVec 2) : Cp := (cpOf n).getD .ca

def mwOf (n : BitVec 3) : Option MWidth :=
  if n == 0 then some .w8 else if n == 1 then some .w16 else if n == 2 then some .w32 else if n == 3 then some .w64
  else if n == 4 then some .w128 else none

def mwCode : MWidth → BitVec 3
  | .w8 => 0
  | .w16 => 1
  | .w32 => 2
  | .w64 => 3
  | .w128 => 4

def mwAt (n : BitVec 3) : MWidth := (mwOf n).getD .w32

def atypeOf (n : BitVec 4) : Option AType :=
  if n == 0 then some .u32 else if n == 1 then some .s32 else if n == 2 then some .u64 else if n == 3 then some .s64
  else if n == 4 then some .f32 else if n == 5 then some .f64 else if n == 6 then some .bf16x2 else none

def atypeCode : AType → BitVec 3
  | .u32 => 0
  | .s32 => 1
  | .u64 => 2
  | .s64 => 3
  | .f32 => 4
  | .f64 => 5
  | .bf16x2 => 6

def aopOf (n : BitVec 4) : Option AOp :=
  if n == 0 then some .add else if n == 1 then some .min else if n == 2 then some .max else if n == 3 then some .and
  else if n == 4 then some .or else if n == 5 then some .xor else if n == 6 then some .exch else if n == 7 then some .load else none

def aopCode : AOp → BitVec 3
  | .add => 0
  | .min => 1
  | .max => 2
  | .and => 3
  | .or => 4
  | .xor => 5
  | .exch => 6
  | .load => 7

def dirOf (n : BitVec 3) : Option CopyDir :=
  if n == 0 then some .g2g else if n == 1 then some .g2s else if n == 2 then some .s2g else if n == 3 then some .s2s
  else if n == 4 then some .g2o else if n == 5 then some .s2o else none

def dirCode : CopyDir → BitVec 3
  | .g2g => 0
  | .g2s => 1
  | .s2g => 2
  | .s2s => 3
  | .g2o => 4
  | .s2o => 5

def bwOf (n : BitVec 2) : Option BwOp :=
  if n == 0 then some .min else if n == 1 then some .max else if n == 2 then some .set else none

def bwCode : BwOp → BitVec 2
  | .min => 0
  | .max => 1
  | .set => 2

def tlbFormOf (n : BitVec 2) : Option TlbForm :=
  if n == 0 then some .page else if n == 1 then some .ctx else if n == 2 then some .all else none

def tlbFormCode : TlbForm → BitVec 2
  | .page => 0
  | .ctx => 1
  | .all => 2

def sopOf (n : BitVec 6) : Option Sop :=
  [Sop.iadd, .isub, .and, .or, .xor, .shl, .shr, .imin, .imax, .fadd, .fsub, .fmul, .fmac, .fmin, .fmax,
    .hadd2, .hmul2, .hfmac2, .vadd2, .vmin2, .mov][n.toNat]?

def sopCode : Sop → BitVec 6
  | .iadd => 0x00
  | .isub => 0x01
  | .and => 0x02
  | .or => 0x03
  | .xor => 0x04
  | .shl => 0x05
  | .shr => 0x06
  | .imin => 0x07
  | .imax => 0x08
  | .fadd => 0x09
  | .fsub => 0x0A
  | .fmul => 0x0B
  | .fmac => 0x0C
  | .fmin => 0x0D
  | .fmax => 0x0E
  | .hadd2 => 0x0F
  | .hmul2 => 0x10
  | .hfmac2 => 0x11
  | .vadd2 => 0x12
  | .vmin2 => 0x13
  | .mov => 0x14

/-! ## Operand shapes of format A -/

/-- A mod bit the word does not accept is set; `mask` holds the accepted bits. -/
def badMod (w : Word) (mask : BitVec 10) : Bool := (fMod w &&& ~~~mask) != 0

def m9 (w : Word) : Bool := (fMod w).getLsbD 9
def m8 (w : Word) : Bool := (fMod w).getLsbD 8
def m7 (w : Word) : Bool := (fMod w).getLsbD 7

def pgOf (w : Word) : Guard := guardOf (fPg w)

def a1Of (w : Word) : A1 := ⟨pgOf w, dstAt (fD w), srcAt (fSa w)⟩
def a2Of (w : Word) : A2 := ⟨pgOf w, dstAt (fD w), srcAt (fSa w), srcAt (fSb w)⟩
def a3Of (w : Word) : A3 := ⟨pgOf w, dstAt (fD w), srcAt (fSa w), srcAt (fSb w), srcAt (fSc w)⟩
def p2Of (w : Word) : P2 := ⟨pgOf w, predAt (fD w), srcAt (fSa w), srcAt (fSb w)⟩

/-- Sources of `ka`, `kb`, `kc` registers; 0 means unused, and the field must hold 0x51C (R264). -/
def badSrcs (w : Word) (ka kb kc : Nat) : Bool :=
  let one := fun (k : Nat) (f : BitVec 11) => if k == 0 then f != unusedSrc else badSrc k f
  one ka (fSa w) || one kb (fSb w) || one kc (fSc w)

/-- The checks of a format-A word: literal, destination, sources, mod bits. -/
def aChk (w : Word) (rest : List Word) (badD : Bool) (ka kb kc : Nat) (badM : Bool) : List (Bool × Nat) :=
  litChk rest [fSa w, fSb w, fSc w] ++ [(badD || badSrcs w ka kb kc || badM, cOperand)]

def noD (w : Word) : Bool := fD w != unusedDst
def badD (w : Word) (k : Nat) : Bool := badDst (Dst.fits k) (fD w)
def badLate (w : Word) (k : Nat) : Bool := badDst (Dst.late k) (fD w)
def badVog (w : Word) (k : Nat) : Bool := badDst (Dst.vog k) (fD w)
def badP (w : Word) : Bool := badPred (fD w)


/-- A CVTQ record operand is a g register (R322). -/
def isG (f : BitVec 11) : Bool :=
  match srcOf f with
  | some ⟨.g _, _, _⟩ => true
  | _ => false

/-- A predicate named as a source by the integer specifiers 0 to 7 with clear flags (R297). -/
def badPSrc (f : BitVec 11) : Bool := f.extractLsb' 5 6 != 0x2A || f.extractLsb' 0 2 != 0
def pSrcAt (f : BitVec 11) : BitVec 3 := f.extractLsb' 2 3
def pSrcCode (p : BitVec 3) : BitVec 11 := (0x2A#6 ++ p) ++ (0 : BitVec 2)

def censusPred (w : Word) : Bool := ((fMod w).extractLsb' 4 3).toNat < 3

def censusOf (w : Word) : Census :=
  let m := (fMod w).extractLsb' 4 3
  if m == 0 then .all (predAt (fD w)) else if m == 1 then .any (predAt (fD w)) else if m == 2 then .same (predAt (fD w))
  else if m == 3 then .mask (dstAt (fD w)) else .count (dstAt (fD w))

def censusDst : Census → BitVec 9
  | .all p => predCode p
  | .any p => predCode p
  | .same p => predCode p
  | .mask d => dstCode d
  | .count d => dstCode d

def censusMode : Census → BitVec 3
  | .all _ => 0
  | .any _ => 1
  | .same _ => 2
  | .mask _ => 3
  | .count _ => 4

/-- TMOV: components 0 to 4, and a component above 0 on a v or o register only (R411). -/
def badTmov (w : Word) : Bool :=
  let js : BitVec 3 := (fMod w).setWidth 3
  let jd := (fMod w).extractLsb' 3 3
  4 < js.toNat || 4 < jd.toNat
    || (js != 0 && !(match srcOf (fSa w) with | some ⟨.v _, _, _⟩ => true | some ⟨.o _, _, _⟩ => true | _ => false))
    || (jd != 0 && !(match dstOf (fD w) with | some (.v _) => true | some (.o _) => true | _ => false))

/-! ## Format B (R268) -/

def fMode (w : Word) : BitVec 4 := w.extractLsb' 48 4
def fOff (w : Word) : W32 := w.setWidth 32

/-- Zero field, offset alignment and last place of a B word. -/
def bChk (w : Word) (rest : List Word) : List (Bool × Nat) :=
  [(w.extractLsb' 43 5 != 0 || (fOff w).toNat % 8 != 0, cOperand), (!rest.isEmpty, cClause)]

def braModeOf (n : BitVec 4) : Option BraMode :=
  if n == 0 then some .always else if n == 1 then some .nz else if n == 2 then some .z
  else if n == 5 then some .nz64 else if n == 6 then some .z64 else none

def braModeCode : BraMode → BitVec 4
  | .always => 0
  | .nz => 1
  | .z => 2
  | .nz64 => 5
  | .z64 => 6

def braK (n : BitVec 4) : Nat := if n == 5 || n == 6 then 2 else 1

/-! ## Format M -/

def fScope (w : Word) : BitVec 3 := w.extractLsb' 29 3
def fOrd (w : Word) : BitVec 3 := w.extractLsb' 26 3
def fCp (w : Word) : BitVec 2 := w.extractLsb' 24 2
def fW (w : Word) : BitVec 3 := w.extractLsb' 21 3
def fSx (w : Word) : Bool := w.getLsbD 20
def fOff20 (w : Word) : BitVec 20 := w.setWidth 20

def badOrd (w : Word) (l : List Nat) : Bool := !l.contains (fOrd w).toNat
def badWidth (w : Word) (l : List Nat) : Bool := !l.contains (fW w).toNat

def mLoadOf (w : Word) : MLoad :=
  ⟨pgOf w, dstAt (fD w), srcAt (fSa w), scopeAt (fScope w), ordAt (fOrd w), cpAt (fCp w), mwAt (fW w), fSx w, fOff20 w⟩

/-- The data field of a store as a source: its L flag is sx (R265). -/
def stData (w : Word) : Option Src := (opdOf (fD w)).map fun op => ⟨op, false, fSx w⟩

def mStoreOf (w : Word) : MStore :=
  ⟨pgOf w, (stData w).getD zSrc, srcAt (fSa w), scopeAt (fScope w), ordAt (fOrd w), cpAt (fCp w), mwAt (fW w), fOff20 w⟩

def badStData (w : Word) : Bool :=
  match stData w with
  | none => true
  | some s => !s.wf (mwAt (fW w)).k || s.op.isLit

/-! ## Format T -/

def tTy (w : Word) : BitVec 3 := w.extractLsb' 18 3
def tOff8 (w : Word) : BitVec 8 := w.extractLsb' 10 8
def tScope (w : Word) : BitVec 3 := w.extractLsb' 7 3
def tOrd (w : Word) : BitVec 3 := w.extractLsb' 4 3
def tAop (w : Word) : BitVec 4 := w.setWidth 4
def tType (w : Word) : AType := (atypeOf ((tTy w).setWidth 4)).getD .u32
def casType (w : Word) : AType := (atypeOf (tAop w)).getD .u32

def badAop (w : Word) : Bool :=
  match aopOf (tAop w) with
  | none => true
  | some a => !a.allows (tType w)

def tAtomOf (w : Word) : TAtom :=
  ⟨pgOf w, dstAt (fD w), srcAt (fSa w), srcAt (fSb w), tType w, tOff8 w, scopeAt (tScope w), ordAt (tOrd w),
    (aopOf (tAop w)).getD .add⟩

def tCasOf (w : Word) : TCas :=
  ⟨pgOf w, dstAt (fD w), srcAt (fSa w), srcAt (fSb w), srcAt (fSc w), casType w, scopeAt (tScope w), ordAt (tOrd w)⟩

/-! ## Engine words -/

def copyOf (w : Word) : CopyOp :=
  let m := fMod w
  ⟨pgOf w, dstAt (fD w), srcAt (fSa w), srcAt (fSb w), srcAt (fSc w), m.getLsbD 8, m.getLsbD 7, m.getLsbD 6,
    scopeAt (m.extractLsb' 3 3), (dirOf (m.setWidth 3)).getD .g2g⟩

/-- Operands of the copy family (R366, R367, R369). -/
def badCopy (rows : Bool) (w : Word) : Bool :=
  let c := copyOf w
  badDst (Dst.late 2) (fD w) || badSrc (sideK c.dir.dstGlobal c.hdst) (fSa w) || badSrc (sideK c.dir.srcGlobal c.hsrc) (fSb w)
    || badSrc (if rows then 4 else 1) (fSc w) || (c.hdst && !c.dir.dstGlobal) || (c.hsrc && !c.dir.srcGlobal)

/-- The follow-on of a COPYM: the word after it, or after its literal (R370). -/
def followOn (w : Word) (rest : List Word) : Option Word :=
  if isLitField (fSa w) || isLitField (fSb w) || isLitField (fSc w) then rest.tail.head? else rest.head?

/-- A follow-on is an MMA, MMAZ, MXT, MPERM, MRRED or ACCZ word with pg 0x7 and integer operands (R370). -/
def followWordOk (x : Word) : Bool :=
  let int := fun f => match srcOf f with | some s => s.op.isInt && s.flagsOk | none => false
  let tok := !badDst (Dst.late 2) (fD x) && fMod x == 0 && fPg x == 0x7
  if fOp x == 0xB3 || fOp x == 0xB4 || fOp x == 0xB6 then tok && int (fSa x) && int (fSb x) && int (fSc x)
  else if fOp x == 0xB5 || fOp x == 0xB7 then tok && int (fSa x) && fSb x == unusedSrc && int (fSc x)
  else if fOp x == 0xBA then tok && int (fSa x) && fSb x == unusedSrc && fSc x == unusedSrc
  else false

def followOk (w : Word) (rest : List Word) : Bool :=
  match followOn w rest with
  | none => false
  | some x => followWordOk x

def accOf (w : Word) : AccOp :=
  let m := fMod w
  ⟨pgOf w, dstAt (fD w), srcAt (fSa w), srcAt (fSb w), if fSc w == unusedSrc then none else some (srcAt (fSc w)),
    m.getLsbD 0, m.getLsbD 1, scopeAt (m.extractLsb' 2 3)⟩

/-! ## Pair words (R272, R273) -/

def halfOf (h : BitVec 30) : Half :=
  ⟨(sopOf (h.extractLsb' 24 6)).getD .mov, h.extractLsb' 16 8, h.extractLsb' 8 8, h.extractLsb' 0 8⟩

def halfCode (h : Half) : BitVec 30 := sopCode h.sop ++ h.d ++ h.a ++ h.b

/-- The sop of a half is reserved (R272). -/
def sopBad (b : BitVec 30) : Bool := (sopOf (b.extractLsb' 24 6)).isNone

/-- The registers that a half reads; one with a reserved sop names no operation and reads none. -/
def halfReads (b : BitVec 30) : List Nat := if sopBad b then [] else (halfOf b).reads

/-- A pair word: the restrictions of R273 that two halves break are found beside a reserved sop, and the lower code is delivered (R8, R274). -/
def decodePair (w : Word) : Except Nat Instr :=
  let b0 : BitVec 30 := w.extractLsb' 30 30
  let b1 : BitVec 30 := w.extractLsb' 0 30
  let h0 := halfOf b0
  let h1 := halfOf b1
  let bad := sopBad b0 || sopBad b1
  chk [(bad, cSop), (!sopBad b0 && !h0.wf || !sopBad b1 && !h1.wf, cOperand),
      (pairBad (!bad && h0.sop.mult && h1.sop.mult) h0.d.toNat h1.d.toNat (halfReads b0) (halfReads b1), cPair)]
    (.pairWord h0 h1)

/-! ## The opcode map (R275) -/

def decodeMap0 (w : Word) (rest : List Word) : Except Nat Instr :=
  match fOp w with
  | 0x00 => chk (aChk w rest (noD w) 0 0 0 (badMod w 0)) (.nop (pgOf w))
  | 0x01 => chk (aChk w rest (badD w (k64 (m9 w))) (k64 (m9 w)) 0 0 (badMod w 0x200)) (.mov (a1Of w) (m9 w))
  | 0x02 => chk (aChk w rest (badD w (k64 (m9 w))) (k64 (m9 w)) (k64 (m9 w)) 0 (badMod w 0x380)) (.iadd (a2Of w) (m9 w) (m8 w) (m7 w))
  | 0x03 => chk (aChk w rest (badD w (k64 (m9 w))) (k64 (m9 w)) (k64 (m9 w)) 0 (badMod w 0x380)) (.isub (a2Of w) (m9 w) (m8 w) (m7 w))
  | 0x04 => chk (aChk w rest (badD w (k64 (m9 w))) (k64 (m9 w)) (k64 (m9 w)) 0 (badMod w 0x207)) (.iaddc (a2Of w) ((fMod w).setWidth 3) (m9 w))
  | 0x05 => chk (aChk w rest (badD w (k64 (m9 w))) (k64 (m9 w)) (k64 (m9 w)) 0 (badMod w 0x207)) (.isubb (a2Of w) ((fMod w).setWidth 3) (m9 w))
  | 0x06 => chk (aChk w rest (badD w (k64 (m9 w))) (k64 (m9 w)) 0 0 (badMod w 0x280)) (.ineg (a1Of w) (m9 w) (m7 w))
  | 0x07 => chk (aChk w rest (badD w (k64 (m9 w))) (k64 (m9 w)) 0 0 (badMod w 0x280)) (.iabs (a1Of w) (m9 w) (m7 w))
  | 0x08 => chk (aChk w rest (badD w (k64 (m9 w))) (k64 (m9 w)) (k64 (m9 w)) 0 (badMod w 0x200)) (.imul (a2Of w) (m9 w))
  | 0x09 => chk (aChk w rest (badD w (k64 (m9 w))) (k64 (m9 w)) (k64 (m9 w)) 0 (badMod w 0x300)) (.imulhi (a2Of w) (m9 w) (m8 w))
  | 0x0A => chk (aChk w rest (badD w (k64 (m9 w))) (k64 (m9 w)) (k64 (m9 w)) (k64 (m9 w)) (badMod w 0x200)) (.imad (a3Of w) (m9 w))
  | 0x0B => chk (aChk w rest (badLate w (k64 (m9 w))) (k64 (m9 w)) (k64 (m9 w)) 0 (badMod w 0x300)) (.idiv (a2Of w) (m9 w) (m8 w))
  | 0x0C => chk (aChk w rest (badLate w (k64 (m9 w))) (k64 (m9 w)) (k64 (m9 w)) 0 (badMod w 0x300)) (.irem (a2Of w) (m9 w) (m8 w))
  | 0x0D => chk (aChk w rest (badD w (k64 (m9 w))) (k64 (m9 w)) (k64 (m9 w)) 0 (badMod w 0x300)) (.imin (a2Of w) (m9 w) (m8 w))
  | 0x0E => chk (aChk w rest (badD w (k64 (m9 w))) (k64 (m9 w)) (k64 (m9 w)) 0 (badMod w 0x300)) (.imax (a2Of w) (m9 w) (m8 w))
  | 0x0F => chk (aChk w rest (badP w) (k64 (m9 w)) (k64 (m9 w)) 0 (badMod w 0x307 || (icondOf ((fMod w).setWidth 3)).isNone)) (.icmp (p2Of w) ((icondOf ((fMod w).setWidth 3)).getD .eq) (m9 w) (m8 w))
  | _ => .ok (.reservedOpcodeWord w false)

def decodeMap1 (w : Word) (rest : List Word) : Except Nat Instr :=
  match fOp w with
  | 0x10 => chk (aChk w rest (badD w (k64 (m9 w))) (k64 (m9 w)) (k64 (m9 w)) 0 (badMod w 0x200)) (.and (a2Of w) (m9 w))
  | 0x11 => chk (aChk w rest (badD w (k64 (m9 w))) (k64 (m9 w)) (k64 (m9 w)) 0 (badMod w 0x200)) (.or (a2Of w) (m9 w))
  | 0x12 => chk (aChk w rest (badD w (k64 (m9 w))) (k64 (m9 w)) (k64 (m9 w)) 0 (badMod w 0x200)) (.xor (a2Of w) (m9 w))
  | 0x13 => chk (aChk w rest (badD w (k64 (m9 w))) (k64 (m9 w)) 0 0 (badMod w 0x200)) (.not (a1Of w) (m9 w))
  | 0x14 => chk (aChk w rest (badD w (k64 (m9 w))) (k64 (m9 w)) (k64 (m9 w)) 0 (badMod w 0x200)) (.andn (a2Of w) (m9 w))
  | 0x15 => chk (aChk w rest (badD w (k64 (m9 w))) (k64 (m9 w)) (k64 (m9 w)) (k64 (m9 w)) (badMod w 0x2FF)) (.bool3 (a3Of w) ((fMod w).setWidth 8) (m9 w))
  | 0x16 => chk (aChk w rest (badD w (k64 (m9 w))) (k64 (m9 w)) 1 0 (badMod w 0x200)) (.shl (a2Of w) (m9 w))
  | 0x17 => chk (aChk w rest (badD w (k64 (m9 w))) (k64 (m9 w)) 1 0 (badMod w 0x200)) (.shr (a2Of w) (m9 w))
  | 0x18 => chk (aChk w rest (badD w (k64 (m9 w))) (k64 (m9 w)) 1 0 (badMod w 0x200)) (.shra (a2Of w) (m9 w))
  | 0x19 => chk (aChk w rest (badD w (k64 (m9 w))) (k64 (m9 w)) 1 0 (badMod w 0x200)) (.rotl (a2Of w) (m9 w))
  | 0x1A => chk (aChk w rest (badD w (k64 (m9 w))) (k64 (m9 w)) (k64 (m9 w)) 1 (badMod w 0x201)) (.funnel (a3Of w) ((fMod w).getLsbD 0) (m9 w))
  | 0x1B => chk (aChk w rest (badD w (k64 (m9 w))) (k64 (m9 w)) 1 0 (badMod w 0x300)) (.bfe (a2Of w) (m9 w) (m8 w))
  | 0x1C => chk (aChk w rest (badD w (k64 (m9 w))) (k64 (m9 w)) (k64 (m9 w)) 1 (badMod w 0x200)) (.bfi (a3Of w) (m9 w))
  | 0x1D => chk (aChk w rest (badD w (k64 (m9 w))) (k64 (m9 w)) 0 0 (badMod w 0x200)) (.popc (a1Of w) (m9 w))
  | 0x1E => chk (aChk w rest (badD w (k64 (m9 w))) (k64 (m9 w)) 0 0 (badMod w 0x200)) (.clz (a1Of w) (m9 w))
  | 0x1F => chk (aChk w rest (badD w (k64 (m9 w))) (k64 (m9 w)) 0 0 (badMod w 0x200)) (.ctz (a1Of w) (m9 w))
  | _ => .ok (.reservedOpcodeWord w false)

def decodeMap2 (w : Word) (rest : List Word) : Except Nat Instr :=
  match fOp w with
  | 0x20 => chk (aChk w rest (badD w (k64 (m9 w))) (k64 (m9 w)) 0 0 (badMod w 0x200)) (.brev (a1Of w) (m9 w))
  | 0x21 => chk (aChk w rest (badD w 1) 1 1 1 (badMod w 0x000)) (.bpick (a3Of w))
  | 0x22 => chk (aChk w rest (badD w 2) 2 1 0 (badMod w 0x107)) (.lea (a2Of w) ((fMod w).setWidth 3) (m8 w))
  | 0x23 => chk (aChk w rest (badD w (k64 (m9 w))) (k64 (m9 w)) (k64 (m9 w)) 0 (badMod w 0x20F)) (.sel (a2Of w) ((fMod w).setWidth 3) ((fMod w).getLsbD 3) (m9 w))
  | 0x24 => chk (aChk w rest (badD w 1) 1 1 0 (badMod w 0x180)) (.vadd2 (a2Of w) (m8 w) (m7 w))
  | 0x25 => chk (aChk w rest (badD w 1) 1 1 0 (badMod w 0x180)) (.vsub2 (a2Of w) (m8 w) (m7 w))
  | 0x26 => chk (aChk w rest (badD w 1) 1 1 0 (badMod w 0x100)) (.vmin2 (a2Of w) (m8 w))
  | 0x27 => chk (aChk w rest (badD w 1) 1 1 0 (badMod w 0x100)) (.vmax2 (a2Of w) (m8 w))
  | 0x28 => chk (aChk w rest (badD w 1) 1 1 1 (badMod w 0x007 || 5 < ((fMod w).setWidth 3 : BitVec 3).toNat)) (.acsel2 (a3Of w) ((fMod w).setWidth 3))
  | 0x29 => chk (aChk w rest (badD w 1) 1 1 1 (badMod w 0x180)) (.dot4 (a3Of w) (m8 w) (m7 w))
  | 0x2A => chk (aChk w rest (badD w 1) 1 1 1 (badMod w 0x180)) (.dot2 (a3Of w) (m8 w) (m7 w))
  | 0x2B => chk (aChk w rest (badD w (iwOf ((fMod w).extractLsb' 2 2)).k) (iwOf ((fMod w).setWidth 2)).k 0 0 (badMod w 0x19F)) (.cvti (a1Of w) (iwOf ((fMod w).setWidth 2)) (iwOf ((fMod w).extractLsb' 2 2)) ((fMod w).getLsbD 4) (m8 w) (m7 w))
  | _ => .ok (.reservedOpcodeWord w false)

def decodeMap3 (w : Word) (rest : List Word) : Except Nat Instr :=
  match fOp w with
  | 0x30 => chk (aChk w rest (badD w 1) 1 1 0 (badFMod (fun m => m.wf true true false true && true) (fMod w))) (.fadd (a2Of w) (fmodAt (fMod w)))
  | 0x31 => chk (aChk w rest (badD w 1) 1 1 0 (badFMod (fun m => m.wf true true false true && true) (fMod w))) (.fsub (a2Of w) (fmodAt (fMod w)))
  | 0x32 => chk (aChk w rest (badD w 1) 1 1 0 (badFMod (fun m => m.wf true true false true && true) (fMod w))) (.fmul (a2Of w) (fmodAt (fMod w)))
  | 0x33 => chk (aChk w rest (badD w 1) 1 1 1 (badFMod (fun m => m.wf true true true true && true) (fMod w))) (.ffma (a3Of w) (fmodAt (fMod w)))
  | 0x34 => chk (aChk w rest (badD w 1) 1 1 0 (badFMod (fun m => m.wf true true false false && true) (fMod w))) (.fmin (a2Of w) (fmodAt (fMod w)))
  | 0x35 => chk (aChk w rest (badD w 1) 1 1 0 (badFMod (fun m => m.wf true true false false && true) (fMod w))) (.fmax (a2Of w) (fmodAt (fMod w)))
  | 0x36 => chk (aChk w rest (badD w 1) 1 1 0 (badFMod (fun m => m.wf true true false false && true) (fMod w))) (.fminp (a2Of w) (fmodAt (fMod w)))
  | 0x37 => chk (aChk w rest (badD w 1) 1 1 0 (badFMod (fun m => m.wf true true false false && true) (fMod w))) (.fmaxp (a2Of w) (fmodAt (fMod w)))
  | 0x38 => chk (aChk w rest (badP w) 1 1 0 (badFMod (fun m => m.wf true true false false) (fMod w &&& 0x3F8))) (.fcmp (p2Of w) (fcondOf ((fMod w).setWidth 3)) (fmodAt (fMod w &&& 0x3F8)))
  | 0x39 => chk (aChk w rest (badD w 1) 1 0 0 (badMod w 0x018 || (ffmtOf ((fMod w).extractLsb' 3 2)).isNone)) (.fclass (a1Of w) ((ffmtOf ((fMod w).extractLsb' 3 2)).getD .f32))
  | 0x3A => chk (aChk w rest (badD w 1) 1 1 0 (badMod w 0x018 || (ffmtOf ((fMod w).extractLsb' 3 2)).isNone)) (.fcopysgn (a2Of w) ((ffmtOf ((fMod w).extractLsb' 3 2)).getD .f32))
  | 0x3B => chk (aChk w rest (badD w 1) 1 0 0 (badFMod (fun m => m.wf true false false true && true) (fMod w))) (.frnd (a1Of w) (fmodAt (fMod w)))
  | 0x3C => chk (aChk w rest (badLate w 1) 1 1 0 (badFMod (fun m => m.wf true true false true && m.is32) (fMod w))) (.fdiv (a2Of w) (fmodAt (fMod w)))
  | 0x3D => chk (aChk w rest (badLate w 1) 1 0 0 (badFMod (fun m => m.wf true false false true && m.is32) (fMod w))) (.fsqrt (a1Of w) (fmodAt (fMod w)))
  | 0x3E => chk (aChk w rest (badLate w 1) 1 0 0 (badFMod (fun m => m.wf true false false true && m.is32) (fMod w))) (.frcp (a1Of w) (fmodAt (fMod w)))
  | 0x3F => chk (aChk w rest (badLate w 1) 1 0 0 (badFMod (fun m => m.wf true false false true && m.is32) (fMod w))) (.frsq (a1Of w) (fmodAt (fMod w)))
  | _ => .ok (.reservedOpcodeWord w false)

def decodeMap4 (w : Word) (rest : List Word) : Except Nat Instr :=
  match fOp w with
  | 0x40 => chk (aChk w rest (badLate w 1) 1 0 0 (badFMod (fun m => m.wf true false false true && m.is32) (fMod w))) (.fexp2 (a1Of w) (fmodAt (fMod w)))
  | 0x41 => chk (aChk w rest (badLate w 1) 1 0 0 (badFMod (fun m => m.wf true false false true && m.is32) (fMod w))) (.flog2 (a1Of w) (fmodAt (fMod w)))
  | 0x42 => chk (aChk w rest (badLate w 1) 1 0 0 (badFMod (fun m => m.wf true false false true && m.is32) (fMod w))) (.fsinpi (a1Of w) (fmodAt (fMod w)))
  | 0x43 => chk (aChk w rest (badLate w 1) 1 0 0 (badFMod (fun m => m.wf true false false true && m.is32) (fMod w))) (.fcospi (a1Of w) (fmodAt (fMod w)))
  | 0x44 => chk (aChk w rest (badLate w 1) 1 0 0 (badFMod (fun m => m.wf true false false true && m.is32) (fMod w))) (.ftanh (a1Of w) (fmodAt (fMod w)))
  | 0x45 => chk (aChk w rest (badD w 1) 1 1 0 (badFMod (fun m => m.wf true true false true && m.isH) (fMod w))) (.hadd2 (a2Of w) (fmodAt (fMod w)))
  | 0x46 => chk (aChk w rest (badD w 1) 1 1 0 (badFMod (fun m => m.wf true true false true && m.isH) (fMod w))) (.hmul2 (a2Of w) (fmodAt (fMod w)))
  | 0x47 => chk (aChk w rest (badD w 1) 1 1 1 (badFMod (fun m => m.wf true true true true && m.isH) (fMod w))) (.hfma2 (a3Of w) (fmodAt (fMod w)))
  | 0x48 => chk (aChk w rest (badD w 1) 1 1 0 (badFMod (fun m => m.wf true true false false && m.isH) (fMod w))) (.hmin2 (a2Of w) (fmodAt (fMod w)))
  | 0x49 => chk (aChk w rest (badD w 1) 1 1 0 (badFMod (fun m => m.wf true true false false && m.isH) (fMod w))) (.hmax2 (a2Of w) (fmodAt (fMod w)))
  | 0x4A => chk (aChk w rest (badD w 1) 1 1 1 (badFMod (fun m => m.wf true true true true && m.isH) (fMod w))) (.hdot2 (a3Of w) (fmodAt (fMod w)))
  | 0x4B => chk (aChk w rest (badLate w 2) 2 2 0 (badFMod (fun m => m.wf true true false true && m.is32) (fMod w))) (.dadd (a2Of w) (fmodAt (fMod w)))
  | 0x4C => chk (aChk w rest (badLate w 2) 2 2 0 (badFMod (fun m => m.wf true true false true && m.is32) (fMod w))) (.dmul (a2Of w) (fmodAt (fMod w)))
  | 0x4D => chk (aChk w rest (badLate w 2) 2 2 2 (badFMod (fun m => m.wf true true true true && m.is32) (fMod w))) (.dfma (a3Of w) (fmodAt (fMod w)))
  | 0x4E => chk (aChk w rest (badD w (cfmtOf ((fMod w).extractLsb' 3 2)).k) (cfmtOf ((fMod w).extractLsb' 5 2)).k 0 0 (badMod w 0x07F || (rndOf ((fMod w).setWidth 3)).isNone)) (.fcvt (a1Of w) (cfmtOf ((fMod w).extractLsb' 3 2)) (cfmtOf ((fMod w).extractLsb' 5 2)) ((rndOf ((fMod w).setWidth 3)).getD .rn))
  | 0x4F => chk (aChk w rest (badD w (k64 ((fMod w).getLsbD 5))) (cfmtOf ((fMod w).extractLsb' 3 2)).k 0 0 (badMod w 0x07F || (rndOf ((fMod w).setWidth 3)).isNone)) (.f2i (a1Of w) (cfmtOf ((fMod w).extractLsb' 3 2)) ((rndOf ((fMod w).setWidth 3)).getD .rn) ((fMod w).getLsbD 5) ((fMod w).getLsbD 6))
  | _ => .ok (.reservedOpcodeWord w false)

def decodeMap5 (w : Word) (rest : List Word) : Except Nat Instr :=
  match fOp w with
  | 0x50 => chk (aChk w rest (badD w (cfmtOf ((fMod w).extractLsb' 3 2)).k) (k64 ((fMod w).getLsbD 5)) 0 0 (badMod w 0x07F || (rndOf ((fMod w).setWidth 3)).isNone)) (.i2f (a1Of w) (cfmtOf ((fMod w).extractLsb' 3 2)) ((rndOf ((fMod w).setWidth 3)).getD .rn) ((fMod w).getLsbD 5) ((fMod w).getLsbD 6))
  | 0x51 => chk (aChk w rest (badD w 1) 1 (if (fMod w).getLsbD 0 then 1 else 2) 0 (badMod w 0x001 || (!(fMod w).getLsbD 0 && !isG (fSb w)))) (.cvtq (a2Of w) ((fMod w).getLsbD 0))
  | 0x52 => chk (aChk w rest (badD w 1) 1 (if (fMod w).getLsbD 0 then 1 else 2) 0 (badMod w 0x001 || (!(fMod w).getLsbD 0 && !isG (fSb w)))) (.cvtdq (a2Of w) ((fMod w).getLsbD 0))
  | 0x53 => chk (aChk w rest (badD w 1) 1 1 0 (badMod w 0x038 || (ffmtOf ((fMod w).extractLsb' 3 2)).isNone)) (.amax (a2Of w) ((ffmtOf ((fMod w).extractLsb' 3 2)).getD .f32) ((fMod w).getLsbD 5))
  | _ => .ok (.reservedOpcodeWord w false)

def decodeMap6 (w : Word) (rest : List Word) : Except Nat Instr :=
  match fOp w with
  | 0x60 => chk (aChk w rest (badD w (k64 (m9 w))) (k64 (m9 w)) (if (fMod w).getLsbD 2 then 0 else 1) 0 (badMod w 0x27F || (!((fMod w).getLsbD 2) && (fMod w &&& 0x078) != 0) || ((fMod w).getLsbD 6 && !((fMod w).getLsbD 0)))) (.lanex (a1Of w) (laneModeOf ((fMod w).setWidth 2)) (if (fMod w).getLsbD 2 then .width ((fMod w).extractLsb' 3 3) ((fMod w).getLsbD 6) else .reg (srcAt (fSb w))) (m9 w))
  | 0x61 => chk (aChk w rest (badD w (k64 (m9 w))) (k64 (m9 w)) (if (fMod w).getLsbD 0 then 0 else 1) 0 (badMod w 0x201)) (.bcastl (a1Of w) (if (fMod w).getLsbD 0 then none else some (srcAt (fSb w))) (m9 w))
  | 0x62 => chk (aChk w rest (if censusPred w then badP w else badVog w (if ((fMod w).extractLsb' 4 3) == 3 then 2 else 1)) 0 0 0 (badMod w 0x07F || 4 < ((fMod w).extractLsb' 4 3).toNat)) (.pcensus (pgOf w) (censusOf w) ((fMod w).setWidth 3) ((fMod w).getLsbD 3))
  | 0x63 => chk (aChk w rest (badVog w 2) (k64 (m9 w)) 0 0 (badMod w 0x201)) (.matchL (a1Of w) ((fMod w).getLsbD 0) (m9 w))
  | 0x64 => chk (aChk w rest (badD w (k64 (m9 w))) (k64 (m9 w)) 0 0 (badMod w 0x37F || (redOpOf ((fMod w).extractLsb' 3 4)).isNone || (rndOf ((fMod w).setWidth 3)).isNone || !((redOpOf ((fMod w).extractLsb' 3 4)).getD .add).wf ((rndOf ((fMod w).setWidth 3)).getD .rn) (m8 w))) (.redls (a1Of w) ((redOpOf ((fMod w).extractLsb' 3 4)).getD .add) ((rndOf ((fMod w).setWidth 3)).getD .rn) (m8 w) (m9 w))
  | 0x65 => chk (aChk w rest (badVog w 2) 1 1 0 (badMod w 0x107 || ((fMod w).getLsbD 0 == (fMod w).getLsbD 1) || ((fMod w).getLsbD 2 && m8 w))) (.redidx (a2Of w) ((fMod w).getLsbD 1) ((fMod w).getLsbD 2) (m8 w))
  | 0x66 => chk (aChk w rest (badD w (k64 (m9 w))) (k64 (m9 w)) 0 0 ((redOpOf ((fMod w).extractLsb' 3 4)).isNone || (rndOf ((fMod w).setWidth 3)).isNone || !((redOpOf ((fMod w).extractLsb' 3 4)).getD .add).wf ((rndOf ((fMod w).setWidth 3)).getD .rn) (m8 w))) (.scan (a1Of w) ((redOpOf ((fMod w).extractLsb' 3 4)).getD .add) ((rndOf ((fMod w).setWidth 3)).getD .rn) (m8 w) (m7 w) (m9 w))
  | 0x67 => chk (aChk w rest (badP w || badPSrc (fSa w) || badPSrc (fSb w) || badPSrc (fSc w)) 1 1 1 (badMod w 0x0FF)) (.pbool3 (pgOf w) (predAt (fD w)) (pSrcAt (fSa w)) (pSrcAt (fSb w)) (pSrcAt (fSc w)) ((fMod w).setWidth 8))
  | 0x68 => chk (aChk w rest (badD w (k64 (m9 w))) (k64 (m9 w)) 1 0 (badMod w 0x23F || 7 < ((fMod w).setWidth 3 : BitVec 3).toNat + ((fMod w).extractLsb' 3 3).toNat)) (.ptov (a2Of w) ((fMod w).setWidth 3) ((fMod w).extractLsb' 3 3) (m9 w))
  | 0x69 => chk (aChk w rest (badP w) (k64 (m9 w)) 1 0 (badMod w 0x238 || 7 < (predAt (fD w)).toNat + ((fMod w).extractLsb' 3 3).toNat)) (.vtop (p2Of w) ((fMod w).extractLsb' 3 3) (m9 w))
  | 0x6A => chk (aChk w rest (badVog w 2) 0 0 0 (badMod w 0)) (.actmask (pgOf w) (dstAt (fD w)))
  | _ => .ok (.reservedOpcodeWord w false)

def decodeMap7 (w : Word) (rest : List Word) : Except Nat Instr :=
  match fOp w with
  | 0x70 => chk (bChk w rest ++ [((braModeOf (fMode w)).isNone, cMode),
      (badSrc (braK (fMode w)) (fSa w) || isLitField (fSa w) || (fMode w == 0 && fSa w != unusedSrc), cOperand)])
      (.bra (pgOf w) ((braModeOf (fMode w)).getD .always) (srcAt (fSa w)) (fOff w))
  | 0x71 => chk (bChk w rest ++ [(decide (1 < (fMode w).toNat), cMode),
      (badSrc (if fMode w == 1 then 1 else 2) (fSa w) || isLitField (fSa w), cOperand)])
      (.brx (pgOf w) (fMode w == 1) (srcAt (fSa w)) (fOff w))
  | 0x73 => chk (bChk w rest ++ [(decide (1 < (fMode w).toNat), cMode),
      (badSrc (if fMode w == 1 then 1 else 2) (fSa w) || isLitField (fSa w), cOperand)])
      (.callx (pgOf w) (fMode w == 1) (srcAt (fSa w)) (fOff w))
  | 0x72 => chk (bChk w rest ++ [(fMode w != 0, cMode), (fSa w != unusedSrc, cOperand)]) (.call (pgOf w) (fOff w))
  | 0x74 => chk (aChk w rest (noD w) 0 0 0 (badMod w 0x000 || false) ++ [(!rest.isEmpty, cClause)]) (.ret (pgOf w))
  | 0x75 => chk (aChk w rest (noD w) 0 0 0 (badMod w 0x0FF || fMod w == 0) ++ [(!rest.isEmpty, cClause)]) (.retn (pgOf w) ((fMod w).setWidth 8))
  | 0x76 => chk (aChk w rest (noD w) 0 0 0 (badMod w 0x000 || false) ++ [(!rest.isEmpty, cClause)]) (.exit (pgOf w))
  | 0x77 => chk (aChk w rest (noD w) 0 0 0 (badMod w 0x000 || false)) (.yield (pgOf w))
  | 0x78 => chk (aChk w rest (noD w) 1 0 0 (badMod w 0x000 || false || isLitField (fSa w))) (.sleep (pgOf w) (srcAt (fSa w)))
  | 0x79 => chk (aChk w rest (noD w) 0 0 0 (badMod w 0x000 || false)) (.bkpt (pgOf w))
  | 0x7A => chk (aChk w rest (noD w) 0 0 0 (badMod w 0x3FF || false)) (.trap (pgOf w) (fMod w))
  | _ => .ok (.reservedOpcodeWord w false)

def decodeMap8 (w : Word) (rest : List Word) : Except Nat Instr :=
  match fOp w with
  | 0x80 => chk [(badOrd w [0, 1, 2, 5], cOrder), (badWidth w [0, 1, 2, 3, 4], cWidth), (fCp w == 3, cCache), (fScope w == 7, cScope), (badBase 2 (fSa w) || badDst (Dst.late (mwAt (fW w)).k) (fD w) || ((fSx w) && !(mwAt (fW w)).narrow), cOperand)] (.ld (mLoadOf w))
  | 0x81 => chk [(badOrd w [0, 1, 3, 5], cOrder), (badWidth w [0, 1, 2, 3, 4], cWidth), (fCp w == 3, cCache), (fScope w == 7, cScope), (badBase 2 (fSa w) || badStData w, cOperand)] (.st (mStoreOf w))
  | 0x82 => chk [(badOrd w [0, 1, 2, 5], cOrder), (badWidth w [0, 1, 2, 3, 4], cWidth), (fCp w == 3, cCache), (fScope w == 7, cScope), (badBase 1 (fSa w) || badDst (Dst.late (mwAt (fW w)).k) (fD w) || ((fSx w) && !(mwAt (fW w)).narrow) || fCp w != 0, cOperand)] (.lds (mLoadOf w))
  | 0x83 => chk [(badOrd w [0, 1, 3, 5], cOrder), (badWidth w [0, 1, 2, 3, 4], cWidth), (fCp w == 3, cCache), (fScope w == 7, cScope), (badBase 1 (fSa w) || badStData w || fCp w != 0, cOperand)] (.sts (mStoreOf w))
  | 0x84 => chk [(badOrd w [0, 1, 2, 5], cOrder), (badWidth w [0, 1, 2, 3, 4], cWidth), (fCp w == 3, cCache), (fScope w == 7, cScope), (badBase 1 (fSa w) || badDst (Dst.late (mwAt (fW w)).k) (fD w) || ((fSx w) && !(mwAt (fW w)).narrow) || fCp w != 0, cOperand)] (.ldcl (mLoadOf w))
  | 0x85 => chk [(badOrd w [0, 1, 3, 5], cOrder), (badWidth w [0, 1, 2, 3, 4], cWidth), (fCp w == 3, cCache), (fScope w == 7, cScope), (badBase 1 (fSa w) || badStData w || fCp w != 0, cOperand)] (.stcl (mStoreOf w))
  | 0x86 => chk [(badOrd w [0], cOrder), (badWidth w [1], cWidth), (fCp w == 3, cCache), (fScope w == 7, cScope), (badBase 2 (fSa w) || badDst (Dst.late (mwAt (fW w)).k) (fD w) || fSx w || fCp w != 0 || fScope w != 0, cOperand)] (.ldbd (mLoadOf w))
  | 0x87 => chk [(badOrd w [0], cOrder), (badWidth w [1], cWidth), (fCp w == 3, cCache), (fScope w == 7, cScope), (badBase 2 (fSa w) || badStData w || fCp w != 0 || fScope w != 0, cOperand)] (.stbd (mStoreOf w))
  | 0x88 => chk [(badOrd w [0], cOrder), (badWidth w [0], cWidth), (fCp w == 3, cCache), (fScope w == 7, cScope), (badBase 2 (fSa w) || noD w || fScope w != 0 || fSx w, cOperand)]
      (.pref (pgOf w) (srcAt (fSa w)) (cpAt (fCp w)) (fOff20 w))
  | 0x89 => chk [(badOrd w [0], cOrder), (badWidth w [0, 1], cWidth), (fCp w == 3, cCache), (fScope w == 7, cScope),
      ((if fW w == 1 then fSa w != unusedSrc || fOff20 w != 0 else badBase 2 (fSa w)) || noD w || fScope w != 0 || fSx w || fCp w != 0, cOperand)]
      (.cinval (pgOf w) (if fW w == 1 then none else some (srcAt (fSa w))) (fOff20 w))
  | 0x8A => chk (aChk w rest (noD w) 1 2 1 (badMod w 0)) (.smap (pgOf w) (srcAt (fSa w)) (srcAt (fSb w)) (srcAt (fSc w)))
  | 0x8B => chk (aChk w rest (noD w) 1 0 0 (badMod w 0)) (.sunmap (pgOf w) (srcAt (fSa w)))
  | 0x8C => chk (aChk w rest (noD w) 1 0 0 (badMod w 0)) (.swb (pgOf w) (if fSa w == unusedSrc then none else some (srcAt (fSa w))))
  | 0x8D => chk (litChk rest [fSb w] ++ [((atypeOf ((tTy w).setWidth 4)).isNone, cType), (badAop w, cAop),
      (!([1, 2, 3, 4, 5].contains (tOrd w).toNat), cOrder), (tAop w == 7 && (tOrd w == 3 || tOrd w == 4), cOrder), (tScope w == 7, cScope),
      (badDst (Dst.late (tType w).k) (fD w) || badBase 2 (fSa w) || badSrc (tType w).k (fSb w), cOperand)]) (.atom (tAtomOf w))
  | 0x8E => chk (litChk rest [fSb w, fSc w] ++ [((atypeOf (tAop w)).isNone, cType), (!([1, 2, 3, 4, 5].contains (tOrd w).toNat), cOrder),
      (tScope w == 7, cScope), (badDst (Dst.late (casType w).k) (fD w) || badBase 2 (fSa w) || badSrc (casType w).k (fSb w)
        || badSrc (casType w).k (fSc w), cOperand)]) (.atomcas (tCasOf w))
  | 0x8F => chk (litChk rest [fSb w] ++ [((atypeOf ((tTy w).setWidth 4)).isNone, cType), (badAop w || tAop w == 6 || tAop w == 7, cAop),
      (!([1, 3, 5].contains (tOrd w).toNat), cOrder), (tScope w == 7, cScope),
      (noD w || badBase 2 (fSa w) || badSrc (tType w).k (fSb w), cOperand)]) (.red (tAtomOf w))
  | _ => .ok (.reservedOpcodeWord w false)

def decodeMap9 (w : Word) (rest : List Word) : Except Nat Instr :=
  match fOp w with
  | 0x90 => chk (litChk rest [fSb w] ++ [((atypeOf ((tTy w).setWidth 4)).isNone, cType), (badAop w, cAop),
      (!([1, 2, 3, 4, 5].contains (tOrd w).toNat), cOrder), (tAop w == 7 && (tOrd w == 3 || tOrd w == 4), cOrder), (tScope w == 7, cScope),
      (badDst (Dst.late (tType w).k) (fD w) || badBase 1 (fSa w) || badSrc (tType w).k (fSb w), cOperand)]) (.atoms (tAtomOf w))
  | 0x91 => chk [(badOrd w [2, 3, 4, 5], cOrder), (badWidth w [0], cWidth), (fCp w == 3, cCache), (fScope w == 7, cScope),
      (noD w || fSa w != unusedSrc || fCp w != 0 || fSx w || fOff20 w != 0, cOperand)] (.fence (pgOf w) (ordAt (fOrd w)) (scopeAt (fScope w)))
  | 0x92 => chk (aChk w rest (noD w) 0 0 0 (badMod w 0)) (.bar (pgOf w))
  | 0x93 => chk (aChk w rest (badD w (k64 (m9 w))) (k64 (m9 w)) 0 0 (badMod w 0x37F || (redOpOf ((fMod w).extractLsb' 3 4)).isNone || (rndOf ((fMod w).setWidth 3)).isNone || !((redOpOf ((fMod w).extractLsb' 3 4)).getD .add).wf ((rndOf ((fMod w).setWidth 3)).getD .rn) (m8 w))) (.barp (a1Of w) ((redOpOf ((fMod w).extractLsb' 3 4)).getD .add) ((rndOf ((fMod w).setWidth 3)).getD .rn) (m8 w) (m9 w))
  | 0x94 => chk (aChk w rest (noD w) 0 0 0 (badMod w 0)) (.gbar (pgOf w))
  | 0x95 => chk (aChk w rest (noD w) 0 0 0 (badMod w 0)) (.ckpt (pgOf w))
  | _ => .ok (.reservedOpcodeWord w false)

def decodeMapA (w : Word) (rest : List Word) : Except Nat Instr :=
  match fOp w with
  | 0xA0 => chk (litChk rest [fSa w, fSb w, fSc w] ++ [((scopeOf ((fMod w).extractLsb' 3 3)).isNone, cScope),
      ((dirOf ((fMod w).setWidth 3)).isNone || badMod w 0x1FF || badCopy false w, cOperand)]) (.copy (copyOf w))
  | 0xA1 => chk (litChk rest [fSa w, fSb w, fSc w] ++ [((scopeOf ((fMod w).extractLsb' 3 3)).isNone, cScope),
      ((dirOf ((fMod w).setWidth 3)).isNone || badMod w 0x1FF || badCopy false w || !(copyOf w).dir.dstSlot, cOperand), (!followOk w rest, cOperand)]) (.copym (copyOf w))
  | 0xA2 => chk (litChk rest [fSa w, fSb w, fSc w] ++ [((scopeOf ((fMod w).extractLsb' 3 3)).isNone, cScope),
      ((dirOf ((fMod w).setWidth 3)).isNone || badMod w 0x1FF || badCopy true w, cOperand)]) (.gather (copyOf w))
  | 0xA3 => chk (litChk rest [fSa w, fSb w, fSc w] ++ [((scopeOf ((fMod w).extractLsb' 3 3)).isNone, cScope),
      ((dirOf ((fMod w).setWidth 3)).isNone || badMod w 0x1FF || badCopy true w || (copyOf w).dir.dstSlot, cOperand)]) (.scatter (copyOf w))
  | 0xA4 => chk (aChk w rest (if (fMod w).getLsbD 0 then badLate w 2 else noD w) 1 1 0 (badMod w 0x001)) (.remq (a2Of w) ((fMod w).getLsbD 0))
  | 0xA5 => chk (aChk w rest (badLate w 1) 1 0 0 (badMod w 0x001)) (.rqpop (a1Of w) ((fMod w).getLsbD 0))
  | 0xA6 => chk (aChk w rest (badLate w 2) 2 (if (fMod w).getLsbD 0 then 1 else 2) 1 (false) ++ [((atypeOf (((fMod w).extractLsb' 1 3).setWidth 4)).isNone, cType),
      (5 < ((fMod w).extractLsb' 4 3).toNat || !((aopOf (((fMod w).extractLsb' 4 3).setWidth 4)).getD .add).allows ((atypeOf (((fMod w).extractLsb' 1 3).setWidth 4)).getD .u32), cAop), ((scopeOf ((fMod w).extractLsb' 7 3)).isNone, cScope)]) (.xred (a3Of w) ((fMod w).getLsbD 0) ((atypeOf (((fMod w).extractLsb' 1 3).setWidth 4)).getD .u32) ((aopOf (((fMod w).extractLsb' 4 3).setWidth 4)).getD .add) (scopeAt ((fMod w).extractLsb' 7 3)))
  | 0xA7 => chk (aChk w rest (noD w) 2 0 0 (false) ++ [((cpOf ((fMod w).extractLsb' 8 2)).isNone, cCache)]) (.strm (pgOf w) (srcAt (fSa w)) (cpAt ((fMod w).extractLsb' 8 2)) ((fMod w).extractLsb' 6 2) ((fMod w).getLsbD 5) (iwOf ((fMod w).extractLsb' 3 2)) ((fMod w).setWidth 3))
  | 0xA8 => chk (aChk w rest (noD w) 0 0 0 (badMod w 0x007)) (.strmx (pgOf w) ((fMod w).setWidth 3))
  | 0xA9 => chk (aChk w rest (badP w || badToken (fSa w)) 2 0 0 (badMod w 0)) (.tchk (pgOf w) (predAt (fD w)) (srcAt (fSa w)))
  | _ => .ok (.reservedOpcodeWord w false)

def decodeMapB (w : Word) (rest : List Word) : Except Nat Instr :=
  match fOp w with
  | 0xB0 => chk (aChk w rest (noD w) 2 0 0 (badMod w 0)) (.tcfg (pgOf w) (srcAt (fSa w)))
  | 0xB1 => chk (aChk w rest (badP w) 1 1 0 (badMod w 0x001)) (.oclaim (p2Of w) ((fMod w).getLsbD 0))
  | 0xB2 => chk (aChk w rest (noD w) 1 1 0 (badMod w 0)) (.orel (pgOf w) (srcAt (fSa w)) (srcAt (fSb w)))
  | 0xB3 => chk (aChk w rest (badLate w 2) 1 1 1 (badMod w 0)) (.mma (a3Of w))
  | 0xB4 => chk (aChk w rest (badLate w 2) 1 1 1 (badMod w 0)) (.mmaz (a3Of w))
  | 0xB6 => chk (aChk w rest (badLate w 2) 1 1 1 (badMod w 0)) (.mperm (a3Of w))
  | 0xB5 => chk (aChk w rest (badLate w 2) 1 0 1 (badMod w 0)) (.mxt (pgOf w) (dstAt (fD w)) (srcAt (fSa w)) (srcAt (fSc w)))
  | 0xB7 => chk (aChk w rest (badLate w 2) 1 0 1 (badMod w 0)) (.mrred (pgOf w) (dstAt (fD w)) (srcAt (fSa w)) (srcAt (fSc w)))
  | 0xB8 => chk (aChk w rest (badLate w 2) (if (fMod w).getLsbD 0 then 1 else 2) 1 (if fSc w == unusedSrc then 0 else 2) (badMod w 0x01F) ++ [((scopeOf ((fMod w).extractLsb' 2 3)).isNone, cScope)]) (.accld (accOf w))
  | 0xB9 => chk (aChk w rest (badLate w 2) (if (fMod w).getLsbD 0 then 1 else 2) 1 (if fSc w == unusedSrc then 0 else 2) (badMod w 0x01F) ++ [((scopeOf ((fMod w).extractLsb' 2 3)).isNone, cScope)]) (.accst (accOf w))
  | 0xBA => chk (aChk w rest (badLate w 2) 1 0 0 (badMod w 0)) (.accz (a1Of w))
  | 0xBB => chk (aChk w rest (noD w) 0 0 0 (badMod w 0)) (.mtake (pgOf w))
  | 0xBC => chk (aChk w rest (noD w) 0 0 0 (badMod w 0)) (.mpass (pgOf w))
  | 0xBD => chk (aChk w rest (noD w) 0 0 0 (badMod w 0)) (.mdrop (pgOf w))
  | 0xBE => chk (aChk w rest (badVog w 1) 0 0 0 (badMod w 0)) (.mstat (pgOf w) (dstAt (fD w)))
  | _ => .ok (.reservedOpcodeWord w false)

def decodeMapC (w : Word) (rest : List Word) : Except Nat Instr :=
  match fOp w with
  | 0xC0 => chk (aChk w rest (if (fMod w).getLsbD 0 then badP w else noD w) 2 4 0 (badMod w 0x001)) (.spawn (pgOf w) (if (fMod w).getLsbD 0 then some (predAt (fD w)) else none) (srcAt (fSa w)) (srcAt (fSb w)))
  | 0xC1 => chk (aChk w rest (if (fMod w).getLsbD 4 then badP w else noD w) 0 4 0 (badMod w 0x01F)) (.spawnw (pgOf w) (if (fMod w).getLsbD 4 then some (predAt (fD w)) else none) ((fMod w).setWidth 4) (srcAt (fSb w)))
  | 0xC2 => chk (aChk w rest (if (fMod w).getLsbD 4 then badP w else noD w) 2 2 1 (badMod w 0x01F)) (.spawnr (pgOf w) (if (fMod w).getLsbD 4 then some (predAt (fD w)) else none) ((fMod w).setWidth 4) (srcAt (fSa w)) (srcAt (fSb w)) (srcAt (fSc w)))
  | 0xC3 => chk (aChk w rest (badDst (fun d => d.late 4 && d != .zero) (fD w)) 0 0 0 (badMod w 0)) (.tget (pgOf w) (dstAt (fD w)))
  | 0xC4 => chk (aChk w rest (noD w) 2 0 0 (badMod w 0)) (.launch (pgOf w) (srcAt (fSa w)))
  | 0xC5 => chk (aChk w rest (noD w) 2 0 0 (badMod w 0x07F || (bwOf ((fMod w).extractLsb' 4 2)).isNone)) (.bwupd (pgOf w) ((fMod w).setWidth 4) ((bwOf ((fMod w).extractLsb' 4 2)).getD .min) ((fMod w).getLsbD 6) (srcAt (fSa w)))
  | 0xC6 => chk (aChk w rest (badVog w 2) 0 0 0 (badMod w 0x07F)) (.bwrd (pgOf w) (dstAt (fD w)) ((fMod w).extractLsb' 3 4) ((fMod w).setWidth 3))
  | 0xC7 => chk (aChk w rest (badP w) 1 1 0 (badMod w 0)) (.cwait (p2Of w))
  | 0xC8 => chk (aChk w rest (noD w) 1 0 0 (badMod w 0x001)) (.cnotify (pgOf w) ((fMod w).getLsbD 0) (srcAt (fSa w)))
  | 0xC9 => chk (aChk w rest (badVog w 1) 1 0 0 (badMod w 0)) (.cheld (a1Of w))
  | 0xCA => chk (aChk w rest (noD w) 0 0 0 (badMod w 0x00F || fPg w != 0x7)
      ++ [((match rest with | [] => true | x :: _ => fOp x == 0xCA), cDpfx)]) (.dpfx ((fMod w).setWidth 4))
  | 0xCB => chk (aChk w rest (badD w (k64 (m9 w))) (k64 (m9 w)) 0 0 (badMod w 0x23F || badTmov w)) (.tmov (a1Of w) ((fMod w).setWidth 3) ((fMod w).extractLsb' 3 3) (m9 w))
  | _ => .ok (.reservedOpcodeWord w false)

def decodeMapD (w : Word) (rest : List Word) : Except Nat Instr :=
  match fOp w with
  | 0xD0 => chk (aChk w rest (badDst (Dst.strict (k64 (sr64 ((fMod w).setWidth 8)))) (fD w)) 0 0 0 (badMod w 0x0FF)) (.getsr (pgOf w) (dstAt (fD w)) ((fMod w).setWidth 8))
  | 0xD1 => chk (aChk w rest (noD w) (k64 (sr64 ((fMod w).setWidth 8))) 0 0 (badMod w 0x0FF)) (.setsr (pgOf w) ((fMod w).setWidth 8) (srcAt (fSa w)))
  | 0xD2 => chk (aChk w rest (noD w) 0 0 0 (badMod w 0) ++ [(!rest.isEmpty, cClause)]) (.eret (pgOf w))
  | 0xD3 => chk (aChk w rest (badLate w 2) 2 0 0 (badMod w 0x0FF)) (.fwcall (a1Of w) ((fMod w).setWidth 8))
  | 0xD4 => chk (aChk w rest (badLate w 2) 2 2 0 (badMod w 0x0FF)) (.moncall (a2Of w) ((fMod w).setWidth 8))
  | 0xD5 => chk (aChk w rest (noD w) (if (fMod w).getLsbD 0 then 0 else 2) (if (fMod w).getLsbD 0 then 0 else 1) 0 (badMod w 0x001)) (.icinv (pgOf w) (if (fMod w).getLsbD 0 then none else some (srcAt (fSa w), srcAt (fSb w))))
  | 0xD6 => chk (aChk w rest (noD w) (if (tlbFormOf ((fMod w).setWidth 2)) == some .page then 2 else 0) (if fSb w == unusedSrc then 0 else 1) 0 (badMod w 0x003 || (tlbFormOf ((fMod w).setWidth 2)).isNone)) (.tlbinv (pgOf w) ((tlbFormOf ((fMod w).setWidth 2)).getD .page) (srcAt (fSa w)) (if fSb w == unusedSrc then none else some (srcAt (fSb w))))
  | 0xD7 => chk (aChk w rest (noD w) 1 2 0 (badMod w 0)) (.fcxl (pgOf w) (srcAt (fSa w)) (srcAt (fSb w)))
  | 0xD8 => chk (aChk w rest (noD w) 2 0 0 (badMod w 0)) (.finj (pgOf w) (srcAt (fSa w)))
  | 0xD9 => chk (aChk w rest (noD w) 0 0 0 (badMod w 0)) (.halt (pgOf w))
  | 0xDA => chk (aChk w rest (if (fMod w).getLsbD 0 then noD w else badVog w 2) 1 1 0 (badMod w 0x001)) (.cctl (pgOf w) (if (fMod w).getLsbD 0 then none else some (dstAt (fD w))) (srcAt (fSa w)) (srcAt (fSb w)))
  | _ => .ok (.reservedOpcodeWord w false)

/-- The instruction a word of a clause stands for, or its lowest decode cause. -/
def decodeWord (w : Word) (rest : List Word) : Except Nat Instr :=
  match fOp w / 16 with
  | 0x0 => decodeMap0 w rest
  | 0x1 => decodeMap1 w rest
  | 0x2 => decodeMap2 w rest
  | 0x3 => decodeMap3 w rest
  | 0x4 => decodeMap4 w rest
  | 0x5 => decodeMap5 w rest
  | 0x6 => decodeMap6 w rest
  | 0x7 => decodeMap7 w rest
  | 0x8 => decodeMap8 w rest
  | 0x9 => decodeMap9 w rest
  | 0xA => decodeMapA w rest
  | 0xB => decodeMapB w rest
  | 0xC => decodeMapC w rest
  | 0xD => decodeMapD w rest
  | 0xF => decodePair w
  | _ => .ok (.reservedOpcodeWord w false)

/-! ## Clauses (R258 to R262) -/

/-- A clause header (R259). -/
structure Header where
  count : Nat
  cls : Nat
  wait : BitVec 8
  hot : Bool
  cold : Bool
  low : Bool
  yield : Bool
  pf : BitVec 16
  deriving DecidableEq, Repr

/-- none where R260 raises BAD_CLAUSE. -/
def headerOf (w : Word) : Option Header :=
  let cls := (w.extractLsb' 52 4).toNat
  if w.extractLsb' 60 4 == 0xA && cls < 6 && w.extractLsb' 0 24 == 0 && !(w.getLsbD 43 && w.getLsbD 42) then
    some ⟨(w.extractLsb' 56 4).toNat + 1, cls, w.extractLsb' 44 8, w.getLsbD 43, w.getLsbD 42, w.getLsbD 41, w.getLsbD 40,
      w.extractLsb' 24 16⟩
  else none

def headerCode (h : Header) : Word :=
  0xA#4 ++ BitVec.ofNat 4 (h.count - 1) ++ BitVec.ofNat 4 h.cls ++ h.wait ++ BitVec.ofBool h.hot ++ BitVec.ofBool h.cold
    ++ BitVec.ofBool h.low ++ BitVec.ofBool h.yield ++ h.pf ++ (0 : BitVec 24)

/-- An ALU word: opcode 0x00 to 0x6A, DPFX, TMOV or a pair word (R262). -/
def isAluOp (op : Nat) : Bool := op ≤ 0x6A || op == 0xCA || op == 0xCB || 0xF0 ≤ op
def isControlOp (op : Nat) : Bool := 0x70 ≤ op && op ≤ 0x7A

/-- The words a clause of class `cls` admits (R262). -/
def classAdmits (cls op : Nat) : Bool :=
  if cls == 4 then op == 0x00 || isControlOp op
  else isAluOp op || isControlOp op || (match cls with
    | 1 => (0x80 ≤ op && op ≤ 0x95) || (0xC0 ≤ op && op ≤ 0xC9)
    | 2 => 0xB0 ≤ op && op ≤ 0xBE
    | 3 => 0xA0 ≤ op && op ≤ 0xA9
    | 5 => 0xD0 ≤ op && op ≤ 0xDA
    | _ => false)

/-- The lowest class that admits the word (R275). -/
def lowestClass (op : Nat) : Nat := ([0, 1, 2, 3, 5].find? fun c => classAdmits c op).getD 0

/-- Opcodes the map assigns (R275). -/
def opAssigned (op : Nat) : Bool :=
  op ≤ 0x2B || (0x30 ≤ op && op ≤ 0x53) || (0x60 ≤ op && op ≤ 0x6A) || isControlOp op || (0x80 ≤ op && op ≤ 0x95)
    || (0xA0 ≤ op && op ≤ 0xA9) || (0xB0 ≤ op && op ≤ 0xBE) || (0xC0 ≤ op && op ≤ 0xCB) || (0xD0 ≤ op && op ≤ 0xDA) || 0xF0 ≤ op

/-- Decoding within a clause of class `cls`: CLASS_MISMATCH joins the word's causes (R8, R262); a reserved opcode raises no other cause (R274). -/
def decodeInClause (cls : Nat) (w : Word) (rest : List Word) : Except Nat Instr :=
  let bad := opAssigned (fOp w) && !classAdmits cls (fOp w)
  match decodeWord w rest with
  | .ok i => if bad then .error cClass else .ok i
  | .error c => .error (if bad then Nat.min c cClass else c)

/-! ## Flilith-2 words (R276 to R279) -/

def f2Op (w : Word) : Nat := (w.extractLsb' 51 8).toNat
def f2Yield (w : Word) : Bool := w.getLsbD 59

/-- Formats by opcode (R275): 0 A, 1 M, 2 T, 3 B. -/
def opFormat (op : Nat) : Nat :=
  if 0x70 ≤ op && op ≤ 0x73 then 3
  else if (0x80 ≤ op && op ≤ 0x89) || op == 0x91 then 1
  else if 0x8D ≤ op && op ≤ 0x90 then 2
  else 0

/-- A Flilith-2 opcode without a counterpart (R279). -/
def f2Illegal (op : Nat) : Bool := !opAssigned op || op == 0x8E || 0xE0 ≤ op

/-- Non-zero bits in a T layout's [2:0] (R279). -/
def f2BadT (w : Word) : Bool := opFormat (f2Op w) == 2 && w.extractLsb' 0 3 != 0

/-- The Flilith-3 word a Flilith-2 word translates to (R278). -/
def f2Word (w : Word) : Word :=
  let op : BitVec 8 := w.extractLsb' 51 8
  let pg : BitVec 4 := w.extractLsb' 47 4
  let d : BitVec 9 := w.extractLsb' 38 9
  let sa : BitVec 11 := w.extractLsb' 27 11
  let sb : BitVec 11 := w.extractLsb' 16 11
  match opFormat (f2Op w) with
  | 1 => op ++ pg ++ d ++ sa ++ (w.extractLsb' 24 3 : BitVec 3) ++ (w.extractLsb' 21 3 : BitVec 3) ++ (w.extractLsb' 19 2 : BitVec 2)
      ++ (w.extractLsb' 16 3 : BitVec 3) ++ (w.extractLsb' 15 1 : BitVec 1) ++ ((w.extractLsb' 0 15 : BitVec 15).signExtend 20)
  | 2 => op ++ pg ++ d ++ sa ++ sb ++ (w.extractLsb' 13 3 : BitVec 3) ++ (0 : BitVec 8) ++ (w.extractLsb' 10 3 : BitVec 3)
      ++ (w.extractLsb' 7 3 : BitVec 3) ++ (w.extractLsb' 3 4 : BitVec 4)
  | 3 => op ++ pg ++ (w.extractLsb' 43 4 : BitVec 4) ++ (0 : BitVec 5) ++ (w.extractLsb' 32 11 : BitVec 11) ++ (w.setWidth 32 : BitVec 32)
  | _ => op ++ pg ++ d ++ sa ++ sb ++ (w.extractLsb' 5 11 : BitVec 11) ++ (0 : BitVec 5) ++ (w.extractLsb' 0 5 : BitVec 5)

/-- A word fetched from a LEG page, in the translated clause's class. -/
def decodeLegacy (cls : Nat) (w : Word) (rest : List Word) : Except Nat Instr :=
  if f2Illegal (f2Op w) then .ok (.reservedOpcodeWord w true)
  else if f2BadT w then .error cOperand
  else decodeInClause cls (f2Word w) (rest.map f2Word)

/-! ## The encoder -/

/-- The mod field of the integer words (R281). -/
def modI (w64 u sat : Bool) (k : BitVec 7) : BitVec 10 := BitVec.ofBool w64 ++ BitVec.ofBool u ++ BitVec.ofBool sat ++ k

def encA (op : BitVec 8) (pg : Guard) (d : BitVec 9) (sa sb sc : BitVec 11) (m : BitVec 10) : Word :=
  op ++ guardCode pg ++ d ++ sa ++ sb ++ sc ++ m

def encB (op : BitVec 8) (pg : Guard) (mode : BitVec 4) (sa : BitVec 11) (off : W32) : Word :=
  op ++ guardCode pg ++ mode ++ (0 : BitVec 5) ++ sa ++ off

def encM (op : BitVec 8) (pg : Guard) (d : BitVec 9) (sa : BitVec 11) (scope ord : BitVec 3) (cp : BitVec 2) (w : BitVec 3)
    (sx : BitVec 1) (off : BitVec 20) : Word :=
  op ++ guardCode pg ++ d ++ sa ++ scope ++ ord ++ cp ++ w ++ sx ++ off

def encLd (op : BitVec 8) (m : MLoad) : Word :=
  encM op m.pg (dstCode m.d) (srcCode m.base) (scopeCode m.scope) (ordCode m.ord) (cpCode m.cp) (mwCode m.w) (BitVec.ofBool m.sx) m.off

def encSt (op : BitVec 8) (m : MStore) : Word :=
  encM op m.pg (opdCode m.data.op) (srcCode m.base) (scopeCode m.scope) (ordCode m.ord) (cpCode m.cp) (mwCode m.w)
    (BitVec.ofBool m.data.l) m.off

def encT (op : BitVec 8) (t : TAtom) : Word :=
  op ++ guardCode t.pg ++ dstCode t.d ++ srcCode t.base ++ srcCode t.b ++ atypeCode t.ty ++ t.off8 ++ scopeCode t.scope
    ++ ordCode t.ord ++ ((aopCode t.aop).setWidth 4 : BitVec 4)

def encCopy (op : BitVec 8) (c : CopyOp) : Word :=
  encA op c.pg (dstCode c.d) (srcCode c.dst) (srcCode c.src) (srcCode c.len)
    ((0 : BitVec 1) ++ BitVec.ofBool c.hoff ++ BitVec.ofBool c.hsrc ++ BitVec.ofBool c.hdst ++ scopeCode c.scope ++ dirCode c.dir)

/-- The word of an instruction that has one; the steps of other agents have none. -/
def encode : Instr → Option Word
  | .nop pg => some (encA 0x00 pg unusedDst unusedSrc unusedSrc unusedSrc 0)
  | .mov o w64 => some (encA 0x01 o.pg (dstCode o.d) (srcCode o.a) unusedSrc unusedSrc (modI w64 false false 0))
  | .iadd o w64 u sat => some (encA 0x02 o.pg (dstCode o.d) (srcCode o.a) (srcCode o.b) unusedSrc (modI w64 u sat 0))
  | .isub o w64 u sat => some (encA 0x03 o.pg (dstCode o.d) (srcCode o.a) (srcCode o.b) unusedSrc (modI w64 u sat 0))
  | .iaddc o n w64 => some (encA 0x04 o.pg (dstCode o.d) (srcCode o.a) (srcCode o.b) unusedSrc (modI w64 false false (n.setWidth 7)))
  | .isubb o n w64 => some (encA 0x05 o.pg (dstCode o.d) (srcCode o.a) (srcCode o.b) unusedSrc (modI w64 false false (n.setWidth 7)))
  | .ineg o w64 sat => some (encA 0x06 o.pg (dstCode o.d) (srcCode o.a) unusedSrc unusedSrc (modI w64 false sat 0))
  | .iabs o w64 sat => some (encA 0x07 o.pg (dstCode o.d) (srcCode o.a) unusedSrc unusedSrc (modI w64 false sat 0))
  | .imul o w64 => some (encA 0x08 o.pg (dstCode o.d) (srcCode o.a) (srcCode o.b) unusedSrc (modI w64 false false 0))
  | .imulhi o w64 u => some (encA 0x09 o.pg (dstCode o.d) (srcCode o.a) (srcCode o.b) unusedSrc (modI w64 u false 0))
  | .imad o w64 => some (encA 0x0A o.pg (dstCode o.d) (srcCode o.a) (srcCode o.b) (srcCode o.c) (modI w64 false false 0))
  | .idiv o w64 u => some (encA 0x0B o.pg (dstCode o.d) (srcCode o.a) (srcCode o.b) unusedSrc (modI w64 u false 0))
  | .irem o w64 u => some (encA 0x0C o.pg (dstCode o.d) (srcCode o.a) (srcCode o.b) unusedSrc (modI w64 u false 0))
  | .imin o w64 u => some (encA 0x0D o.pg (dstCode o.d) (srcCode o.a) (srcCode o.b) unusedSrc (modI w64 u false 0))
  | .imax o w64 u => some (encA 0x0E o.pg (dstCode o.d) (srcCode o.a) (srcCode o.b) unusedSrc (modI w64 u false 0))
  | .icmp o c w64 u => some (encA 0x0F o.pg (predCode o.pd) (srcCode o.a) (srcCode o.b) unusedSrc (modI w64 u false ((icondCode c).setWidth 7)))
  | .and o w64 => some (encA 0x10 o.pg (dstCode o.d) (srcCode o.a) (srcCode o.b) unusedSrc (modI w64 false false 0))
  | .or o w64 => some (encA 0x11 o.pg (dstCode o.d) (srcCode o.a) (srcCode o.b) unusedSrc (modI w64 false false 0))
  | .xor o w64 => some (encA 0x12 o.pg (dstCode o.d) (srcCode o.a) (srcCode o.b) unusedSrc (modI w64 false false 0))
  | .not o w64 => some (encA 0x13 o.pg (dstCode o.d) (srcCode o.a) unusedSrc unusedSrc (modI w64 false false 0))
  | .andn o w64 => some (encA 0x14 o.pg (dstCode o.d) (srcCode o.a) (srcCode o.b) unusedSrc (modI w64 false false 0))
  | .bool3 o t w64 => some (encA 0x15 o.pg (dstCode o.d) (srcCode o.a) (srcCode o.b) (srcCode o.c) (BitVec.ofBool w64 ++ (0 : BitVec 1) ++ t))
  | .shl o w64 => some (encA 0x16 o.pg (dstCode o.d) (srcCode o.a) (srcCode o.b) unusedSrc (modI w64 false false 0))
  | .shr o w64 => some (encA 0x17 o.pg (dstCode o.d) (srcCode o.a) (srcCode o.b) unusedSrc (modI w64 false false 0))
  | .shra o w64 => some (encA 0x18 o.pg (dstCode o.d) (srcCode o.a) (srcCode o.b) unusedSrc (modI w64 false false 0))
  | .rotl o w64 => some (encA 0x19 o.pg (dstCode o.d) (srcCode o.a) (srcCode o.b) unusedSrc (modI w64 false false 0))
  | .funnel o l w64 => some (encA 0x1A o.pg (dstCode o.d) (srcCode o.a) (srcCode o.b) (srcCode o.c) (modI w64 false false ((BitVec.ofBool l).setWidth 7)))
  | .bfe o w64 u => some (encA 0x1B o.pg (dstCode o.d) (srcCode o.a) (srcCode o.b) unusedSrc (modI w64 u false 0))
  | .bfi o w64 => some (encA 0x1C o.pg (dstCode o.d) (srcCode o.a) (srcCode o.b) (srcCode o.c) (modI w64 false false 0))
  | .popc o w64 => some (encA 0x1D o.pg (dstCode o.d) (srcCode o.a) unusedSrc unusedSrc (modI w64 false false 0))
  | .clz o w64 => some (encA 0x1E o.pg (dstCode o.d) (srcCode o.a) unusedSrc unusedSrc (modI w64 false false 0))
  | .ctz o w64 => some (encA 0x1F o.pg (dstCode o.d) (srcCode o.a) unusedSrc unusedSrc (modI w64 false false 0))
  | .brev o w64 => some (encA 0x20 o.pg (dstCode o.d) (srcCode o.a) unusedSrc unusedSrc (modI w64 false false 0))
  | .bpick o  => some (encA 0x21 o.pg (dstCode o.d) (srcCode o.a) (srcCode o.b) (srcCode o.c) (modI false false false 0))
  | .lea o s u => some (encA 0x22 o.pg (dstCode o.d) (srcCode o.a) (srcCode o.b) unusedSrc (modI false u false (s.setWidth 7)))
  | .sel o n neg w64 => some (encA 0x23 o.pg (dstCode o.d) (srcCode o.a) (srcCode o.b) unusedSrc (modI w64 false false ((BitVec.ofBool neg ++ n).setWidth 7)))
  | .vadd2 o u sat => some (encA 0x24 o.pg (dstCode o.d) (srcCode o.a) (srcCode o.b) unusedSrc (modI false u sat 0))
  | .vsub2 o u sat => some (encA 0x25 o.pg (dstCode o.d) (srcCode o.a) (srcCode o.b) unusedSrc (modI false u sat 0))
  | .vmin2 o u => some (encA 0x26 o.pg (dstCode o.d) (srcCode o.a) (srcCode o.b) unusedSrc (modI false u false 0))
  | .vmax2 o u => some (encA 0x27 o.pg (dstCode o.d) (srcCode o.a) (srcCode o.b) unusedSrc (modI false u false 0))
  | .acsel2 o n => some (encA 0x28 o.pg (dstCode o.d) (srcCode o.a) (srcCode o.b) (srcCode o.c) (n.setWidth 10))
  | .dot4 o u sat => some (encA 0x29 o.pg (dstCode o.d) (srcCode o.a) (srcCode o.b) (srcCode o.c) (modI false u sat 0))
  | .dot2 o u sat => some (encA 0x2A o.pg (dstCode o.d) (srcCode o.a) (srcCode o.b) (srcCode o.c) (modI false u sat 0))
  | .cvti o src dst du su sat => some (encA 0x2B o.pg (dstCode o.d) (srcCode o.a) unusedSrc unusedSrc (modI false su sat ((BitVec.ofBool du ++ iwCode dst ++ iwCode src).setWidth 7)))
  | .fadd o m => some (encA 0x30 o.pg (dstCode o.d) (srcCode o.a) (srcCode o.b) unusedSrc (fmodCode m))
  | .fsub o m => some (encA 0x31 o.pg (dstCode o.d) (srcCode o.a) (srcCode o.b) unusedSrc (fmodCode m))
  | .fmul o m => some (encA 0x32 o.pg (dstCode o.d) (srcCode o.a) (srcCode o.b) unusedSrc (fmodCode m))
  | .ffma o m => some (encA 0x33 o.pg (dstCode o.d) (srcCode o.a) (srcCode o.b) (srcCode o.c) (fmodCode m))
  | .fmin o m => some (encA 0x34 o.pg (dstCode o.d) (srcCode o.a) (srcCode o.b) unusedSrc (fmodCode m))
  | .fmax o m => some (encA 0x35 o.pg (dstCode o.d) (srcCode o.a) (srcCode o.b) unusedSrc (fmodCode m))
  | .fminp o m => some (encA 0x36 o.pg (dstCode o.d) (srcCode o.a) (srcCode o.b) unusedSrc (fmodCode m))
  | .fmaxp o m => some (encA 0x37 o.pg (dstCode o.d) (srcCode o.a) (srcCode o.b) unusedSrc (fmodCode m))
  | .fcmp o c m => some (encA 0x38 o.pg (predCode o.pd) (srcCode o.a) (srcCode o.b) unusedSrc (fmodCode m ||| (fcondCode c).setWidth 10))
  | .fclass o fmt => some (encA 0x39 o.pg (dstCode o.d) (srcCode o.a) unusedSrc unusedSrc ((ffmtCode fmt).setWidth 10 <<< 3))
  | .fcopysgn o fmt => some (encA 0x3A o.pg (dstCode o.d) (srcCode o.a) (srcCode o.b) unusedSrc ((ffmtCode fmt).setWidth 10 <<< 3))
  | .frnd o m => some (encA 0x3B o.pg (dstCode o.d) (srcCode o.a) unusedSrc unusedSrc (fmodCode m))
  | .fdiv o m => some (encA 0x3C o.pg (dstCode o.d) (srcCode o.a) (srcCode o.b) unusedSrc (fmodCode m))
  | .fsqrt o m => some (encA 0x3D o.pg (dstCode o.d) (srcCode o.a) unusedSrc unusedSrc (fmodCode m))
  | .frcp o m => some (encA 0x3E o.pg (dstCode o.d) (srcCode o.a) unusedSrc unusedSrc (fmodCode m))
  | .frsq o m => some (encA 0x3F o.pg (dstCode o.d) (srcCode o.a) unusedSrc unusedSrc (fmodCode m))
  | .fexp2 o m => some (encA 0x40 o.pg (dstCode o.d) (srcCode o.a) unusedSrc unusedSrc (fmodCode m))
  | .flog2 o m => some (encA 0x41 o.pg (dstCode o.d) (srcCode o.a) unusedSrc unusedSrc (fmodCode m))
  | .fsinpi o m => some (encA 0x42 o.pg (dstCode o.d) (srcCode o.a) unusedSrc unusedSrc (fmodCode m))
  | .fcospi o m => some (encA 0x43 o.pg (dstCode o.d) (srcCode o.a) unusedSrc unusedSrc (fmodCode m))
  | .ftanh o m => some (encA 0x44 o.pg (dstCode o.d) (srcCode o.a) unusedSrc unusedSrc (fmodCode m))
  | .hadd2 o m => some (encA 0x45 o.pg (dstCode o.d) (srcCode o.a) (srcCode o.b) unusedSrc (fmodCode m))
  | .hmul2 o m => some (encA 0x46 o.pg (dstCode o.d) (srcCode o.a) (srcCode o.b) unusedSrc (fmodCode m))
  | .hfma2 o m => some (encA 0x47 o.pg (dstCode o.d) (srcCode o.a) (srcCode o.b) (srcCode o.c) (fmodCode m))
  | .hmin2 o m => some (encA 0x48 o.pg (dstCode o.d) (srcCode o.a) (srcCode o.b) unusedSrc (fmodCode m))
  | .hmax2 o m => some (encA 0x49 o.pg (dstCode o.d) (srcCode o.a) (srcCode o.b) unusedSrc (fmodCode m))
  | .hdot2 o m => some (encA 0x4A o.pg (dstCode o.d) (srcCode o.a) (srcCode o.b) (srcCode o.c) (fmodCode m))
  | .dadd o m => some (encA 0x4B o.pg (dstCode o.d) (srcCode o.a) (srcCode o.b) unusedSrc (fmodCode m))
  | .dmul o m => some (encA 0x4C o.pg (dstCode o.d) (srcCode o.a) (srcCode o.b) unusedSrc (fmodCode m))
  | .dfma o m => some (encA 0x4D o.pg (dstCode o.d) (srcCode o.a) (srcCode o.b) (srcCode o.c) (fmodCode m))
  | .fcvt o dst src rnd => some (encA 0x4E o.pg (dstCode o.d) (srcCode o.a) unusedSrc unusedSrc ((cfmtCode src ++ cfmtCode dst ++ rndCode rnd).setWidth 10))
  | .f2i o src rnd d64 du => some (encA 0x4F o.pg (dstCode o.d) (srcCode o.a) unusedSrc unusedSrc ((BitVec.ofBool du ++ BitVec.ofBool d64 ++ cfmtCode src ++ rndCode rnd).setWidth 10))
  | .i2f o dst rnd s64 su => some (encA 0x50 o.pg (dstCode o.d) (srcCode o.a) unusedSrc unusedSrc ((BitVec.ofBool su ++ BitVec.ofBool s64 ++ cfmtCode dst ++ rndCode rnd).setWidth 10))
  | .cvtq o desc => some (encA 0x51 o.pg (dstCode o.d) (srcCode o.a) (srcCode o.b) unusedSrc ((BitVec.ofBool desc).setWidth 10))
  | .cvtdq o desc => some (encA 0x52 o.pg (dstCode o.d) (srcCode o.a) (srcCode o.b) unusedSrc ((BitVec.ofBool desc).setWidth 10))
  | .amax o fmt lanes => some (encA 0x53 o.pg (dstCode o.d) (srcCode o.a) (srcCode o.b) unusedSrc ((BitVec.ofBool lanes ++ ffmtCode fmt ++ (0 : BitVec 3)).setWidth 10))
  | .lanex o mode (.reg b) w64 => some (encA 0x60 o.pg (dstCode o.d) (srcCode o.a) (srcCode b) unusedSrc (modI w64 false false ((laneModeCode mode).setWidth 7)))
  | .lanex o mode (.width k neg) w64 => some (encA 0x60 o.pg (dstCode o.d) (srcCode o.a) unusedSrc unusedSrc (modI w64 false false ((BitVec.ofBool neg ++ k ++ (1 : BitVec 1) ++ laneModeCode mode).setWidth 7)))
  | .bcastl o b w64 => some (encA 0x61 o.pg (dstCode o.d) (srcCode o.a) (b.elim unusedSrc srcCode) unusedSrc (modI w64 false false (if b.isNone then 1 else 0)))
  | .pcensus pg c n neg => some (encA 0x62 pg (censusDst c) unusedSrc unusedSrc unusedSrc ((censusMode c ++ BitVec.ofBool neg ++ n).setWidth 10))
  | .matchL o f w64 => some (encA 0x63 o.pg (dstCode o.d) (srcCode o.a) unusedSrc unusedSrc (modI w64 false false ((BitVec.ofBool f).setWidth 7)))
  | .redls o op rnd u w64 => some (encA 0x64 o.pg (dstCode o.d) (srcCode o.a) unusedSrc unusedSrc (modI w64 u false ((redOpCode op ++ rndCode rnd).setWidth 7)))
  | .redidx o max f u => some (encA 0x65 o.pg (dstCode o.d) (srcCode o.a) (srcCode o.b) unusedSrc (modI false u false ((BitVec.ofBool f ++ BitVec.ofBool max ++ BitVec.ofBool (!max)).setWidth 7)))
  | .scan o op rnd u excl w64 => some (encA 0x66 o.pg (dstCode o.d) (srcCode o.a) unusedSrc unusedSrc (modI w64 u excl ((redOpCode op ++ rndCode rnd).setWidth 7)))
  | .pbool3 pg pd pa pb pc t => some (encA 0x67 pg (predCode pd) (pSrcCode pa) (pSrcCode pb) (pSrcCode pc) (t.setWidth 10))
  | .ptov o n c w64 => some (encA 0x68 o.pg (dstCode o.d) (srcCode o.a) (srcCode o.b) unusedSrc (modI w64 false false ((c ++ n).setWidth 7)))
  | .vtop o c w64 => some (encA 0x69 o.pg (predCode o.pd) (srcCode o.a) (srcCode o.b) unusedSrc (modI w64 false false ((c ++ (0 : BitVec 3)).setWidth 7)))
  | .actmask pg d => some (encA 0x6A pg (dstCode d) unusedSrc unusedSrc unusedSrc 0)
  | .bra pg mode a off => some (encB 0x70 pg (braModeCode mode) (srcCode a) off)
  | .brx pg tab a off => some (encB 0x71 pg (if tab then 1 else 0) (srcCode a) off)
  | .callx pg tab a off => some (encB 0x73 pg (if tab then 1 else 0) (srcCode a) off)
  | .call pg off => some (encB 0x72 pg 0 unusedSrc off)
  | .ret pg => some (encA 0x74 pg unusedDst unusedSrc unusedSrc unusedSrc 0)
  | .retn pg n => some (encA 0x75 pg unusedDst unusedSrc unusedSrc unusedSrc (n.setWidth 10))
  | .exit pg => some (encA 0x76 pg unusedDst unusedSrc unusedSrc unusedSrc 0)
  | .yield pg => some (encA 0x77 pg unusedDst unusedSrc unusedSrc unusedSrc 0)
  | .sleep pg a => some (encA 0x78 pg unusedDst (srcCode a) unusedSrc unusedSrc 0)
  | .bkpt pg => some (encA 0x79 pg unusedDst unusedSrc unusedSrc unusedSrc 0)
  | .trap pg imm => some (encA 0x7A pg unusedDst unusedSrc unusedSrc unusedSrc imm)
  | .ld m => some (encLd 0x80 m)
  | .st m => some (encSt 0x81 m)
  | .lds m => some (encLd 0x82 m)
  | .sts m => some (encSt 0x83 m)
  | .ldcl m => some (encLd 0x84 m)
  | .stcl m => some (encSt 0x85 m)
  | .ldbd m => some (encLd 0x86 m)
  | .stbd m => some (encSt 0x87 m)
  | .pref pg base cp off => some (encM 0x88 pg unusedDst (srcCode base) 0 0 (cpCode cp) 0 0 off)
  | .cinval pg base off => some (encM 0x89 pg unusedDst (base.elim unusedSrc srcCode) 0 0 0 (if base.isNone then 1 else 0) 0 off)
  | .smap pg a b c => some (encA 0x8A pg unusedDst (srcCode a) (srcCode b) (srcCode c) 0)
  | .sunmap pg a => some (encA 0x8B pg unusedDst (srcCode a) unusedSrc unusedSrc 0)
  | .swb pg a => some (encA 0x8C pg unusedDst (a.elim unusedSrc srcCode) unusedSrc unusedSrc 0)
  | .atom t => some (encT 0x8D t)
  | .atomcas t => some ((0x8E#8 ++ guardCode t.pg ++ dstCode t.d ++ srcCode t.base ++ srcCode t.b ++ srcCode t.c ++ scopeCode t.scope ++ ordCode t.ord ++ ((atypeCode t.ty).setWidth 4 : BitVec 4)))
  | .red t => some (encT 0x8F t)
  | .atoms t => some (encT 0x90 t)
  | .fence pg ord scope => some (encM 0x91 pg unusedDst unusedSrc (scopeCode scope) (ordCode ord) 0 0 0 0)
  | .bar pg => some (encA 0x92 pg unusedDst unusedSrc unusedSrc unusedSrc 0)
  | .barp o op rnd u w64 => some (encA 0x93 o.pg (dstCode o.d) (srcCode o.a) unusedSrc unusedSrc (modI w64 u false ((redOpCode op ++ rndCode rnd).setWidth 7)))
  | .gbar pg => some (encA 0x94 pg unusedDst unusedSrc unusedSrc unusedSrc 0)
  | .ckpt pg => some (encA 0x95 pg unusedDst unusedSrc unusedSrc unusedSrc 0)
  | .copy c => some (encCopy 0xA0 c)
  | .copym c => some (encCopy 0xA1 c)
  | .gather c => some (encCopy 0xA2 c)
  | .scatter c => some (encCopy 0xA3 c)
  | .remq o ack => some (encA 0xA4 o.pg (dstCode o.d) (srcCode o.a) (srcCode o.b) unusedSrc ((BitVec.ofBool ack).setWidth 10))
  | .rqpop o nb => some (encA 0xA5 o.pg (dstCode o.d) (srcCode o.a) unusedSrc unusedSrc ((BitVec.ofBool nb).setWidth 10))
  | .xred o s2g ty aop scope => some (encA 0xA6 o.pg (dstCode o.d) (srcCode o.a) (srcCode o.b) (srcCode o.c) (scopeCode scope ++ aopCode aop ++ atypeCode ty ++ BitVec.ofBool s2g))
  | .strm pg a cp dims sx ew q => some (encA 0xA7 pg unusedDst (srcCode a) unusedSrc unusedSrc (cpCode cp ++ dims ++ BitVec.ofBool sx ++ iwCode ew ++ q))
  | .strmx pg q => some (encA 0xA8 pg unusedDst unusedSrc unusedSrc unusedSrc (q.setWidth 10))
  | .tchk pg pd a => some (encA 0xA9 pg (predCode pd) (srcCode a) unusedSrc unusedSrc 0)
  | .tcfg pg a => some (encA 0xB0 pg unusedDst (srcCode a) unusedSrc unusedSrc 0)
  | .oclaim o nb => some (encA 0xB1 o.pg (predCode o.pd) (srcCode o.a) (srcCode o.b) unusedSrc ((BitVec.ofBool nb).setWidth 10))
  | .orel pg a b => some (encA 0xB2 pg unusedDst (srcCode a) (srcCode b) unusedSrc 0)
  | .mma o => some (encA 0xB3 o.pg (dstCode o.d) (srcCode o.a) (srcCode o.b) (srcCode o.c) 0)
  | .mmaz o => some (encA 0xB4 o.pg (dstCode o.d) (srcCode o.a) (srcCode o.b) (srcCode o.c) 0)
  | .mperm o => some (encA 0xB6 o.pg (dstCode o.d) (srcCode o.a) (srcCode o.b) (srcCode o.c) 0)
  | .mxt pg d a c => some (encA 0xB5 pg (dstCode d) (srcCode a) unusedSrc (srcCode c) 0)
  | .mrred pg d a c => some (encA 0xB7 pg (dstCode d) (srcCode a) unusedSrc (srcCode c) 0)
  | .accld o => some (encA 0xB8 o.pg (dstCode o.d) (srcCode o.a) (srcCode o.tile) (o.c.elim unusedSrc srcCode) ((scopeCode o.scope ++ BitVec.ofBool o.raw ++ BitVec.ofBool o.s).setWidth 10))
  | .accst o => some (encA 0xB9 o.pg (dstCode o.d) (srcCode o.a) (srcCode o.tile) (o.c.elim unusedSrc srcCode) ((scopeCode o.scope ++ BitVec.ofBool o.raw ++ BitVec.ofBool o.s).setWidth 10))
  | .accz o => some (encA 0xBA o.pg (dstCode o.d) (srcCode o.a) unusedSrc unusedSrc 0)
  | .mtake pg => some (encA 0xBB pg unusedDst unusedSrc unusedSrc unusedSrc 0)
  | .mpass pg => some (encA 0xBC pg unusedDst unusedSrc unusedSrc unusedSrc 0)
  | .mdrop pg => some (encA 0xBD pg unusedDst unusedSrc unusedSrc unusedSrc 0)
  | .mstat pg d => some (encA 0xBE pg (dstCode d) unusedSrc unusedSrc unusedSrc 0)
  | .spawn pg nb code args => some (encA 0xC0 pg (nb.elim unusedDst predCode) (srcCode code) (srcCode args) unusedSrc (if nb.isSome then 1 else 0))
  | .spawnw pg nb k args => some (encA 0xC1 pg (nb.elim unusedDst predCode) unusedSrc (srcCode args) unusedSrc ((BitVec.ofBool nb.isSome ++ k).setWidth 10))
  | .spawnr pg nb k lo hi chunk => some (encA 0xC2 pg (nb.elim unusedDst predCode) (srcCode lo) (srcCode hi) (srcCode chunk) ((BitVec.ofBool nb.isSome ++ k).setWidth 10))
  | .tget pg d => some (encA 0xC3 pg (dstCode d) unusedSrc unusedSrc unusedSrc 0)
  | .launch pg r => some (encA 0xC4 pg unusedDst (srcCode r) unusedSrc unusedSrc 0)
  | .bwupd pg w op die a => some (encA 0xC5 pg unusedDst (srcCode a) unusedSrc unusedSrc ((BitVec.ofBool die ++ bwCode op ++ w).setWidth 10))
  | .bwrd pg d w n => some (encA 0xC6 pg (dstCode d) unusedSrc unusedSrc unusedSrc ((w ++ n).setWidth 10))
  | .cwait o => some (encA 0xC7 o.pg (predCode o.pd) (srcCode o.a) (srcCode o.b) unusedSrc 0)
  | .cnotify pg all a => some (encA 0xC8 pg unusedDst (srcCode a) unusedSrc unusedSrc (if all then 1 else 0))
  | .cheld o => some (encA 0xC9 o.pg (dstCode o.d) (srcCode o.a) unusedSrc unusedSrc 0)
  | .dpfx mask => some (encA 0xCA ⟨false, 7⟩ unusedDst unusedSrc unusedSrc unusedSrc (mask.setWidth 10))
  | .tmov o js jd w64 => some (encA 0xCB o.pg (dstCode o.d) (srcCode o.a) unusedSrc unusedSrc (modI w64 false false ((jd ++ js).setWidth 7)))
  | .getsr pg d n => some (encA 0xD0 pg (dstCode d) unusedSrc unusedSrc unusedSrc (n.setWidth 10))
  | .setsr pg n a => some (encA 0xD1 pg unusedDst (srcCode a) unusedSrc unusedSrc (n.setWidth 10))
  | .eret pg => some (encA 0xD2 pg unusedDst unusedSrc unusedSrc unusedSrc 0)
  | .fwcall o svc => some (encA 0xD3 o.pg (dstCode o.d) (srcCode o.a) unusedSrc unusedSrc (svc.setWidth 10))
  | .moncall o svc => some (encA 0xD4 o.pg (dstCode o.d) (srcCode o.a) (srcCode o.b) unusedSrc (svc.setWidth 10))
  | .icinv pg r => some (encA 0xD5 pg unusedDst (r.elim unusedSrc fun x => srcCode x.1) (r.elim unusedSrc fun x => srcCode x.2) unusedSrc (if r.isNone then 1 else 0))
  | .tlbinv pg form a b => some (encA 0xD6 pg unusedDst (srcCode a) (b.elim unusedSrc srcCode) unusedSrc ((tlbFormCode form).setWidth 10))
  | .fcxl pg a b => some (encA 0xD7 pg unusedDst (srcCode a) (srcCode b) unusedSrc 0)
  | .finj pg a => some (encA 0xD8 pg unusedDst (srcCode a) unusedSrc unusedSrc 0)
  | .halt pg => some (encA 0xD9 pg unusedDst unusedSrc unusedSrc unusedSrc 0)
  | .cctl pg d a b => some (encA 0xDA pg (d.elim unusedDst dstCode) (srcCode a) (srcCode b) unusedSrc (if d.isNone then 1 else 0))
  | .pairWord h0 h1 => some (0xF#4 ++ halfCode h0 ++ halfCode h1)
  | .reservedOpcodeWord w _ => some w
  | _ => none

/-! ## Table words -/

/-- The follow-on that stands after a COPYM as a table word, for without one the COPYM is illegal (R370): ACCZ 0. -/
def tableFollow : Word := 0xBA7A3D40A3947000

/-- The words after a table word: a literal or prefixed word of zeros stands there where the word wants one, and a COPYM's follow-on. -/
def tableRest (w : Word) : List Word :=
  let op := fOp w
  if (0x70 ≤ op && op ≤ 0x76) || op == 0xD2 then []
  else if op == 0xA1 then (if isLitField (fSa w) || isLitField (fSb w) || isLitField (fSc w) then [0, tableFollow] else [tableFollow])
  else [0]

/-- The instruction read from a word numbered as the opcode table numbers it: one 64-bit word, bits above `nbits` zero.
The clause is of the lowest class that admits the word. -/
def decodeTableWord (nbits w : Nat) : Option Instr :=
  let x : Word := BitVec.ofNat 64 (w % 2 ^ nbits)
  match decodeInClause (lowestClass (fOp x)) x (tableRest x) with
  | .ok i => some i
  | .error _ => none

end Sys2Proof
end

