-- ==== Sys2Proof/Machine/Links.lean ====
section
/-! DEFINITION. The outside of the module: register writes (R5, R33, R34, R59), PCI Express links (R19, R21), Vexari Link training (R28 to R31),
flits (R22 to R26), loss of link (R32), the clock (R17), power (R27, R36) and warm reset (R150 to R152). -/

namespace Sys2Proof.Machine

/-! ## Register writes -/

def modRing (s : State) (link : Nat) (event : Bool) (f : HostRing → HostRing) : State := modLink s link fun l => setRing l event (f (ringOf l event))

/-- R59, R61: enable stays clear with a size outside 6 to 16. -/
def writeRingCfg (s : State) (link : Nat) (event : Bool) (v : Word) : State :=
  let n := bits v.toNat 4 0
  flushRecords (modRing s link event fun r => { r with log2 := n, enable := v.getLsbD 5 && decide (6 ≤ n) && decide (n ≤ 16) })

def writeRingBase (s : State) (link : Nat) (event : Bool) (v : Word) : State := modRing s link event fun r => { r with base := v &&& ~~~0xFFF }

def writeRingHead (s : State) (link : Nat) (event : Bool) (v : Word) : State := modRing s link event fun r => { r with head := v.setWidth 32 }

def execRegisterWrite (r : IoReg) (value : Word) (s : State) : Host.Outcome State Fault Refusal :=
  .next (match r with
    | .qbase q => writeQbase s q value
    | .qcfg q => writeQcfg s q value
    | .fqBase l => writeRingBase s l false value
    | .fqCfg l => writeRingCfg s l false value
    | .fqHead l => writeRingHead s l false value
    | .eqBase l => writeRingBase s l true value
    | .eqCfg l => writeRingCfg s l true value
    | .eqHead l => writeRingHead s l true value
    | .fsvca l => modLink s l fun x => { x with fsvca := value }
    | .vlctl p => if p < 16 then writeVlctlFields s p value else s
    | .fwctl => writeFwctl s value
    | .heatctl => writeHeatctl s value
    | .memerr d => writeMemerr s d value
    | .readOnly => s)

/-- A write of VLCTL with retrain set. -/
def execVlctlRetrain (port : Nat) (value : Word) (s : State) : Host.Outcome State Fault Refusal :=
  .next (if port < 16 ∧ value.getLsbD 0 then writeVlctl s port value else s)

/-- A write of VLCTL with disable set. -/
def execVlctlDisable (port : Nat) (value : Word) (s : State) : Host.Outcome State Fault Refusal :=
  .next (if port < 16 ∧ value.getLsbD 1 then writeVlctl s port value else s)

/-! ## PCI Express links (R19, R21) -/

/-- Accesses that wait for a translation through a link issue again. -/
def wakeLink (s : State) (link : Nat) : State :=
  { s with
    threads := updIf (fun t => match t.run with
      | .waiting (.ats k _ _ _) => k == link
      | _ => false) (fun t => { t with run := .ready, able := s.now }) s.threads
    engines := updIf (fun e => match e.state with
      | .ats k _ _ _ => k == link
      | _ => false) (fun e => { e with state := .running }) s.engines }

def execPcieLinkDown (s : State) : Host.Outcome State Fault Refusal :=
  .next (wakeLink (modLink s s.unit_ fun l => { l with up := false, ltssm := .detect }) s.unit_)

/-- Widths and generations that the LTSSM may negotiate (R19). -/
def pcieOk (width gen : Nat) : Bool := [1, 2, 4, 8, 16].contains width && decide (1 ≤ gen) && decide (gen ≤ 7)

/-- The link has trained to the width and generation that its LTSSM has negotiated, on a port die in service. -/
def execPcieLinkUp (s : State) : Host.Outcome State Fault Refusal :=
  .next (if pcieOk (getLink s s.unit_).width (getLink s s.unit_).gen && portDieIn s s.unit_ then
      wakeLink (flushRecords (modLink s s.unit_ fun l => { l with up := true, ltssm := .l0 })) s.unit_
    else s)

/-- The LTSSM of a link that is down moves, and has negotiated a width and a generation; L0 is entered by PCIE_LINK_UP. -/
def ltssmTo (s : State) (link : Nat) (st : Ltssm) (width gen : Nat) : State :=
  modLink s link fun l => if l.up || st == .l0 || !pcieOk width gen then l else { l with ltssm := st, width := width, gen := gen }

/-- IDE key management over DOE: sets or clears the key of one of four streams. -/
def setIde (s : State) (link stream : Nat) (key : Option Word) : State :=
  modLink s link fun l =>
    if !l.up || Config.ideStreams ≤ stream then l
    else match key with
    | some k => { l with ide := kset stream k l.ide }
    | none => { l with ide := kdel stream l.ide }

/-- TDISP assigns a confidential context to the link's host, or takes it back. -/
def setTdisp (s : State) (link pasid : Nat) (on : Bool) : State :=
  modLink s link fun l =>
    if !l.up then l
    else if on then (if (getCtx s pasid).any (·.confidential) && !l.assigned.contains pasid then { l with assigned := l.assigned ++ [pasid] } else l)
    else { l with assigned := l.assigned.filter (· != pasid) }

/-! ## Training (R28 to R31) -/

/-- Port `p`, of a port die in service, in state `st`, entered at least `ns` ago. -/
def portIn (s : State) (p : Nat) (st : Train) (ns : Nat) : Bool :=
  decide (p < 16) && portDieIn s (portDie p) && (getPort s p).state == st && decide ((getPort s p).entered + ns ≤ s.ns)

/-- Port `p` in state `st`, whose time-out of `ns` has not yet come. -/
def portWithin (s : State) (p : Nat) (st : Train) (ns : Nat) : Bool := portIn s p st 0 && decide (s.ns < (getPort s p).entered + ns)

def enter (s : State) (p : Nat) (st : Train) : State := modPort s p fun x => { x with state := st, entered := s.ns }

/-- A failure at 224 Gb/s is retried at 112; one at 112 returns to DETECT. -/
def slower (s : State) (p : Nat) : State :=
  if (getPort s p).rate112 then toDetect s p else enter (modPort s p fun x => { x with rate112 := true }) p .rate

def execDetect (s : State) : Host.Outcome State Fault Refusal :=
  let p := s.unit_
  let x := getPort s p
  .next (if portIn s p .detect 0 && !x.stuck && !x.disable then enter (modPort s p fun x => { x with rate112 := x.force112 }) p .rate else s)

/-- Receiver detection begins again each millisecond. -/
def execDetectRepeat (s : State) : Host.Outcome State Fault Refusal :=
  .next (if portIn s s.unit_ .detect 1000000 && !(getPort s s.unit_).disable then enter s s.unit_ .detect else s)

/-- The first transmit preset goes out with EQUALISE. -/
def execRateLock (s : State) : Host.Outcome State Fault Refusal :=
  .next (if portWithin s s.unit_ .rate 2000000 then
      sendTraining (enter (modPort s s.unit_ fun x => { x with eqRounds := 0 }) s.unit_ .equalise) s.unit_ (.preset 1)
    else s)

def execRateTimeout (s : State) : Host.Outcome State Fault Refusal :=
  .next (if portIn s s.unit_ .rate 2000000 then slower s s.unit_ else s)

/-- One round ends: DESKEW, a further preset, or after eight rounds the lower rate. -/
def endRound (s : State) (p : Nat) (good : Bool) : State :=
  let n := (getPort s p).eqRounds + 1
  let s := modPort s p fun x => { x with eqRounds := n }
  if good then enter s p .deskew else if 8 ≤ n then slower s p else sendTraining (enter s p .equalise) p (.preset (n + 1))

def execEqualiseRound (port : Nat) (good : Bool) (s : State) : Host.Outcome State Fault Refusal :=
  .next (if portWithin s port .equalise 500000 then endRound s port good else s)

def execEqualiseTimeout (s : State) : Host.Outcome State Fault Refusal :=
  .next (if portIn s s.unit_ .equalise 500000 then endRound s s.unit_ false else s)

/-- This end's receive-buffer slots (R24). -/
def ownSlots : List Nat := (List.range 4).map Config.rxSlots

/-- SLOTS begins with this end's counts. -/
def execDeskew (s : State) : Host.Outcome State Fault Refusal :=
  .next (if portWithin s s.unit_ .deskew 100000 then sendTraining (enter s s.unit_ .slots) s.unit_ (.counts ownSlots) else s)

def execDeskewTimeout (s : State) : Host.Outcome State Fault Refusal :=
  .next (if portIn s s.unit_ .deskew 100000 then toDetect s s.unit_ else s)

/-- Counts that SLOTS accepts (R24, R29). -/
def countsOk (l : List Nat) : Bool := l.length == 4 && l.all fun n => decide (1 ≤ n) && decide (n ≤ 1024)

/-- 32 fresh random bytes. -/
def freshChallenge (s : State) : State × List Byte :=
  (List.range 4).foldl (fun (a : State × List Byte) _ =>
    let (s, w) := freeValue a.1
    (s, a.2 ++ leBytes 8 w.toNat)) (s, [])

/-- IDENTITY begins with the device's certificate chain and a challenge, where a monitor is in service to make them (R30). -/
def beginIdentity (s : State) (p : Nat) : State :=
  if (signerDie s (portDie p)).isNone then enter s p .identity
  else
    let (s, c) := freshChallenge s
    sendTraining (enter (modPort s p fun x => { x with challenge := c }) p .identity) p (.identity Config.deviceChain c)

def execSlots (port : Nat) (counts : List Nat) (s : State) : Host.Outcome State Fault Refusal :=
  .next (if portWithin s port .slots 50000 then
      (if countsOk counts && countsOk ownSlots then
        beginIdentity (modPort s port fun x => { x with declared := counts, credits := counts, owed := [0, 0, 0, 0] }) port
      else toDetect s port)
    else s)

def execSlotsTimeout (s : State) : Host.Outcome State Fault Refusal :=
  .next (if portIn s s.unit_ .slots 50000 then toDetect s s.unit_ else s)

/-- The link begins with empty buffers and its first sequence numbers. -/
def openLink (x : Port) : Port :=
  { x with txSeq := 0, rxSeq := 0, tx := [], replay := [], replayFails := 0, nak := none, outq := [], outstanding := [], peerQ := false }

/-- The notice of R31, when VC3 has a slot. -/
def sendNotice (s : State) (p : Nat) : State := if credit s p 3 = 0 then s else sendFlit s p 3 3 .notice

def quarantine (s : State) (p why : Nat) : State :=
  sendNotice (enter (modPort s p fun x => { openLink x with why := why }) p .quarantine) p

def activate (s : State) (p : Nat) : State :=
  enter (modPort s p fun x => { openLink x with fails := 0, why := 0, replays := 0 }) p .active

/-- What an end signs (R30): its partner's challenge with its own, the agreed rate, and both ends' slot counts. -/
def signedText (theirs own : List Byte) (rate112 : Bool) (theirCounts ownCounts : List Nat) : List Byte :=
  theirs ++ own ++ [if rate112 then 1 else 0] ++ (theirCounts ++ ownCounts).flatMap (leBytes 2)

/-- The signatures of this end, with both identity keys (R30, R37). -/
def ownSignatures (text : List Byte) : FlitBody := .signatures (Config.sign false (Config.identityKey false) text) (Config.sign true (Config.identityKey true) text)

/-- The chain, challenge and signatures of the partner have come: they are checked, and this end's signatures go out. -/
def execIdentity (port : Nat) (partner : Partner) (ed ml : List Byte) (s : State) : Host.Outcome State Fault Refusal :=
  .next (if portWithin s port .identity 200000000 && (signerDie s (portDie port)).isSome then
      let x := getPort s port
      let theirText := signedText x.challenge partner.challenge x.rate112 ownSlots x.declared
      let s := sendTraining s port (ownSignatures (signedText partner.challenge x.challenge x.rate112 x.declared ownSlots))
      if !Config.chainTrusted partner.chain then quarantine s port 1
      else if !Config.verify false partner.chain theirText ed then quarantine s port 2
      else if !Config.verify true partner.chain theirText ml then quarantine s port 3
      else activate s port
    else s)

def execIdentityTimeout (s : State) : Host.Outcome State Fault Refusal :=
  .next (if portIn s s.unit_ .identity 200000000 then quarantine s s.unit_ 4 else s)

def execQuarantineNoticeSend (s : State) : Host.Outcome State Fault Refusal :=
  .next (if portIn s s.unit_ .quarantine 1000000 then sendNotice (enter s s.unit_ .quarantine) s.unit_ else s)

/-- An ACTIVE end learns that its partner is in QUARANTINE. -/
def takeNotice (s : State) (p : Nat) : State :=
  if (getPort s p).state == .active && !(getPort s p).peerQ then
    failPort (modPort s p fun x => { x with peerQ := true, outq := x.outq.filter fun m => m.1 == 3 }) p
  else s

def execQuarantineNotice (s : State) : Host.Outcome State Fault Refusal := .next (if s.unit_ < 16 then takeNotice s s.unit_ else s)

/-! ## Receiving flits (R22 to R25) -/

/-- What a port does with an arriving flit. -/
inductive Rx where
  /-- it is a flit that has come before, or the port does not take flits -/
  | discard
  /-- its CRC fails, or flits before it are missing: discarded, and a replay is asked for -/
  | missing
  /-- dropped and counted: VC0 to VC2 in QUARANTINE, or an unknown kind; `next` where it is the next in sequence -/
  | drop (next : Bool)
  | accept
  deriving DecidableEq, Repr

def rxOf (s : State) (p : Nat) (f : Flit) : Rx :=
  let x := getPort s p
  let next := f.seq == x.rxSeq
  let quiet := x.state == .quarantine && f.vc != 3
  if 16 ≤ p || (x.state != .active && x.state != .quarantine) then .discard
  else if !Flit.crcOk f then .missing
  else if quiet then .drop next
  else if !next then (if (f.seq - x.rxSeq).toNat < 2 ^ 15 then .missing else .discard)
  else if 5 ≤ f.kind.toNat then .drop true
  else .accept

/-- The counters of an arriving flit: slots returned, the next number, and the slot that its own buffer frees. -/
def rxCount (s : State) (p : Nat) (f : Flit) : State :=
  modPort s p fun x =>
    Port.pump { x with
      rxSeq := x.rxSeq + 1
      nak := none
      credits := (List.range 4).map fun i => x.credits.getD i 0 + (f.credit.getD i 0).toNat
      owed := if f.kind == 4 then x.owed else x.owed.set f.vc.toNat (x.owed.getD f.vc.toNat 0 + 1) }

/-- Asks for a replay from the first missing number (R25): once for flits that come too early, and for every flit whose CRC fails. -/
def askReplay (s : State) (p : Nat) (f : Flit) : State :=
  let x := getPort s p
  if Flit.crcOk f && x.nak == some x.rxSeq then s
  else sendLater (modPort s p fun x => { x with nak := some x.rxSeq }) p 3 3 (.replay x.rxSeq)

/-- A flit that is not taken. -/
def rxLost (s : State) (p : Nat) (f : Flit) (r : Rx) : State :=
  match r with
  | .missing => askReplay s p f
  | .drop next => modPort (if next then rxCount s p f else s) p fun x => { x with dropped := satW32 x.dropped }
  | _ => s

/-- An arriving flit of one kind and channel; `take` acts on its body. -/
def rx (s : State) (p : Nat) (f : Flit) (kind vc : Nat) (take : State → FlitBody → State) : State :=
  match rxOf s p f with
  | .accept => if f.kind.toNat = kind ∧ f.vc.toNat = vc then take (rxCount s p f) f.body else rxCount s p f
  | r => rxLost s p f r

/-- Bytes of this module's HBM for a peer: under the layout and key that their block carries; none in the carve-out (R36) or off the map. -/
def peerHome (s : State) (off : Nat) : Option Nat :=
  let a := stripedHome off
  if off < 2 ^ 40 ∧ dieIn s (dieOf a) ∧ stackOff a < Config.stackBytes ∧ !inCarveOut a then some a else none

/-- A request of a peer, served: the answer's number, its bytes, and whether it is an unsupported request, which moves no data (R36; its form is assumption log 69). -/
def peerAnswer (s : State) (b : FlitBody) : State × Option (Nat × List Byte × Bool) :=
  let at_ := fun (id off n : Nat) (write : Nat → Option Nat) (result : Bool) => match peerHome s off with
    | none => (s, some (id, [], false))
    | some a =>
      let k := getBlock s (a / 64)
      let (s, r) := readHbmRange s a n k.layout k.key
      let back := some (id, if result then r.bytes else [], true)
      (match write (leNat r.bytes) with
       | some x => (writeCanon s a (leBytes n x) k.layout k.key false, back)
       | none => (s, back))
  match b with
  | .load id off n => at_ id off n (fun _ => none) true
  | .store id off data => at_ id off data.length (fun _ => some (leNat data)) false
  | .atomic id off ty aop v => at_ id off (AType.bytes ty) (fun old => Rmw.write ty old (.op aop (v.toNat % 2 ^ (8 * AType.bytes ty)))) true
  | .cas id off ty v c =>
    at_ id off (AType.bytes ty) (fun old => Rmw.write ty old (.cas (v.toNat % 2 ^ (8 * AType.bytes ty)) (c.toNat % 2 ^ (8 * AType.bytes ty)))) true
  | _ => (s, none)

/-- VC0: the request is served, and its answer goes out on VC1 as that channel has slots. -/
def execRequestFlit (port : Nat) (f : Flit) (s : State) : Host.Outcome State Fault Refusal :=
  .next (rx s port f 0 0 fun s b => match peerAnswer s b with
    | (s, some (id, data, ok)) => sendLater s port 1 1 (.response id data ok)
    | (s, none) => s)

/-- The words of a peer's answer to a load; shadows that have come stay. -/
def answerWords (l : OutLoad) (data : List Byte) : List FillWord :=
  let ws := dataWords data.length l.sx data
  (List.range ws.length).map fun i => ⟨ws.getD i 0, (l.words[i]?).any (·.poison), ((l.words[i]?).map (·.sh)).getD []⟩

def dropOutstanding (s : State) (p : Nat) (r : PeerReq) : State := modPort s p fun x => { x with outstanding := x.outstanding.filter (· != r) }

/-- The ordering of a synchronising access that a peer has answered (R207, R208). -/
def answerSync (s : State) (t : Tid) (y : PeerSync) (old : Nat) : State :=
  let s := syncRead s t y.loc (Ord.acq y.ord) y.scope
  let s := if y.writes && y.cmp.all (· == old) then syncWrite s t y.loc (Ord.rel y.ord) true y.scope else s
  wakeCore (if Ord.acq y.ord then acquire s t.core y.scope else s) t.core

/-- The answer to a load: a whole line comes into L1, and what the load asked for is a part of it (R14). -/
def answerLoad (s : State) (id : Nat) (data : List Byte) : State :=
  match s.loads.find? fun l => l.id == id with
  | none => s
  | some l =>
    let (s, part) := match l.line with
      | some (b, off, first) => (l1Fill s l.tid.core b (overlay s l.tid (b * 64) data) first, (data.drop off).take (4 * l.words.length))
      | none => (s, data)
    let s := { s with loads := updIf (fun x => x.id == id) (fun x => { x with words := answerWords l part, port := none, sync := none }) s.loads }
    let s := match l.sync with
      | some y => answerSync s l.tid y (leNat data)
      | none => s
    loadCame s id

/-- A response to request `id`; one that the peer did not support moves no data, and ends as a request that a lost link ends (assumption log 69). -/
def takeResponse (s : State) (p id : Nat) (data : List Byte) (ok : Bool) : State :=
  let has := fun (r : PeerReq) => (getPort s p).outstanding.contains r
  if has (.load id) then
    let s := dropOutstanding s p (.load id)
    if ok then answerLoad s id data else wakeAll (failLoad s id)
  else if has (.store id) then
    let s := dropOutstanding s p (.store id)
    wakeAll (if ok then { s with stores := s.stores.filter fun x => x.id != id } else failStore s id)
  else if has (.read id) then
    wakeAll (answerRead (dropOutstanding s p (.read id)) id (if ok then some data else none))
  else s

/-- An enqueue slot comes back from module `m` (R26): the oldest payload sent there has landed. -/
def takeSlot (s : State) (p m : Nat) : State :=
  let s := { s with outstanding := kset m (kget 0 m s.outstanding - 1) s.outstanding }
  match s.engines.find? fun e => (match e.kind with
      | .remq d .. => d == m
      | _ => false) && (getPort s p).outstanding.contains (.remq e.id) with
  | none => wakeAll s
  | some e =>
    let s := dropOutstanding s p (.remq e.id)
    wakeAll (endOp (modOp s e.id fun o => { o with moved := 64 }) { e with moved := 64 } 0)

def execResponseFlit (port : Nat) (f : Flit) (s : State) : Host.Outcome State Fault Refusal :=
  .next (rx s port f 1 1 fun s b => match b with
    | .response id data ok => takeResponse s port id data ok
    | .slotReturn m => takeSlot s port m
    | _ => s)

/-- A payload enters its landing queue, where that has room, and its slot goes back. -/
def landPayload (s : State) (port core : Nat) (l : Landing) : Option State :=
  if landingFull s core then none
  else
    let s := modCore s core fun c => { c with landing := c.landing ++ [l] }
    some (wakeCore (servePops (sendLater s port 1 1 (.slotReturn s.module_)) core) core)

/-- VC2: the payload lands, or waits in the destination buffer behind those that came before (R26). -/
def execEnqueueFlit (port : Nat) (f : Flit) (s : State) : Host.Outcome State Fault Refusal :=
  .next (rx s port f 2 2 fun s b => match b with
    | .payload core pasid source data poison =>
      if Config.cores ≤ core then s
      else
        let l : Landing := ⟨pasid % 2 ^ 20, source, (List.range 64).map fun i => data.getD i 0, [], poison⟩
        let wait := modCore s core fun c => { c with landingWait := c.landingWait ++ [(port, l)] }
        if (getCore s core).landingWait.isEmpty then (landPayload s port core l).getD wait else wait
    | _ => s)

def execRemqPayloadLanding (s : State) : Host.Outcome State Fault Refusal :=
  let core := s.unit_
  .next (match (getCore s core).landingWait with
    | [] => s
    | (p, l) :: r => ((landPayload s p core l).map fun s => modCore s core fun c => { c with landingWait := r }).getD s)

/-- Domain configuration (R26): each reservation is at least one slot, and those into this module fit its port dies' slots. -/
def configureDomain (s : State) (self : Nat) (members : List Nat) (out into : List (Nat × Nat)) : State :=
  let ok := self < 512 && members.all (fun m => decide (m < 512)) && (out ++ into).all (fun x => decide (1 ≤ x.2))
    && decide (((into.map (·.2)).foldl (· + ·) 0) ≤ 2 * Config.enqueueSlots)
  if ok then wakeAll { s with module_ := self, domain := members.filter (· != self), reserve := out, granted := into } else s

/-- The partner asks for the flits from `seq` on; those before it have arrived, and the others go out again (R25). -/
def replayFrom (s : State) (port : Nat) (seq : BitVec 16) : State :=
  modPort s port fun x =>
    let again := x.replay.filter fun f => decide ((f.seq - seq).toNat < 2 ^ 15)
    Port.pump { x with
      replay := again
      tx := x.tx ++ again.reverse
      replays := satByte x.replays
      replayFails := if x.replaySeq = seq ∧ 0 < x.replayFails then x.replayFails + 1 else 1
      replaySeq := seq }

def execManagementFlit (port : Nat) (f : Flit) (s : State) : Host.Outcome State Fault Refusal :=
  .next (rx s port f 3 3 fun s b => match b with
    | .notice => takeNotice s port
    | .domain self members out into => if (getPort s port).state == .active then configureDomain s self members out into else s
    | .replay seq => replayFrom s port seq
    | _ => s)

/-- Idle flits return slots and take none. -/
def execIdleFlit (port : Nat) (f : Flit) (s : State) : Host.Outcome State Fault Refusal :=
  .next (match rxOf s port f with
    | .accept => rxCount s port f
    | r => rxLost s port f r)

def execUnknownKindFlit (port : Nat) (f : Flit) (s : State) : Host.Outcome State Fault Refusal :=
  .next (match rxOf s port f with
    | .accept => s
    | r => rxLost s port f r)

/-- This end returns the slots that it owes by an idle flit (R24). -/
def sendIdle (s : State) (p : Nat) : State :=
  let x := getPort s p
  if x.sends 3 && x.owed.any (· != 0) && decide (x.replay.length < Config.replayFlits) then sendFlit s p 3 4 .other else s

/-- The partner has taken the flits up to `seq`: the replay buffer keeps those after it. -/
def linkAck (s : State) (p : Nat) (seq : BitVec 16) : State :=
  wakeAll (modPort s p fun x => Port.pump { x with replay := x.replay.filter fun f => decide (f.seq != seq ∧ (f.seq - seq).toNat < 2 ^ 15) })

/-- The oldest flit leaves the lanes. -/
def linkTake (s : State) (p : Nat) : State := modPort s p fun x => { x with tx := x.tx.tail }

/-! ## Replay and loss (R25, R32) -/

def execReplayRequest (port : Nat) (seq : BitVec 16) (s : State) : Host.Outcome State Fault Refusal :=
  .next (if port < 16 ∧ ((getPort s port).state = .active ∨ (getPort s port).state = .quarantine) then replayFrom s port seq else s)

/-- Sixteen replays of one number that failed: a seventeenth request for it shows the last failure. -/
def execReplayLimit (s : State) : Host.Outcome State Fault Refusal :=
  .next (if s.unit_ < 16 ∧ (getPort s s.unit_).state = .active ∧ 16 < (getPort s s.unit_).replayFails then loseLink s s.unit_ else s)

def execLinkLoss (s : State) : Host.Outcome State Fault Refusal :=
  .next (if s.unit_ < 16 ∧ (getPort s s.unit_).state = .active then loseLink s s.unit_ else s)

/-! ## Clock and power -/

def execClockStepDown (s : State) : Host.Outcome State Fault Refusal := .next (if 425 ≤ s.clkMhz then { s with clkMhz := s.clkMhz - 25 } else s)
def execClockStepUp (s : State) : Host.Outcome State Fault Refusal := .next (if s.clkMhz + 25 ≤ 800 then { s with clkMhz := s.clkMhz + 25 } else s)

/-- What outlives a loss of power: the firmware slots, the fields of the model itself, and what the host has written into its own memory. -/
def unpowered (s : State) (on : Bool) : State :=
  { State.reset with powered := on, freeCtr := s.freeCtr, unit_ := s.unit_, agenda := s.agenda,
                     mem := s.mem.filter fun c => isHostKey c.1,
                     fw := { Firmware.reset with slotA := s.fw.slotA, slotB := s.fw.slotB, active := s.fw.active,
                                                 hoVer := (activeImage s.fw).handoff, identity := on, ranges := if on then 0xFFFF else 0 } }

/-- The ns that a step of bring-up may take; PCI Express and Vexari Link training have limits of their own. -/
def bringLimit : Nat → Option Nat
  | 0 => some 50000000
  | 1 => some 400000000
  | 2 => some 20000000
  | 3 => some 150000000
  | _ => none

/-- Bridges that fail calibration: the pairs that are bridges of the module (R9). -/
def badBridges (b : BringUp) : List (Nat × Nat) := b.bridgeFail.filter fun x => bridged x.1 x.2

/-- Dies named in bridges, from a first number on, as bits. -/
def dieBits (n from_ : Nat) (l : List (Nat × Nat)) : BitVec n :=
  (l.flatMap fun x => [x.1, x.2]).foldl (fun m d => if from_ ≤ d ∧ d < from_ + n then m ||| (1 : BitVec n) <<< (d - from_) else m) 0

/-- A step of bring-up that fails: it does not succeed, or not within its limit. -/
def stepFails (b : BringUp) (i : Nat) : Bool :=
  !b.ok.getLsbD i || (bringLimit i).any fun n => decide (n < b.ns.getD i 0)

/-- The boot status (R27, R41): without rails no later step runs; a bridge, a stack or a link that fails is its step's failure. -/
def bringStatus (b : BringUp) : BitVec 6 :=
  let bit := fun (i : Nat) (x : Bool) => if x then (1 : BitVec 6) <<< i else 0
  if stepFails b 0 then 1
  else bit 1 (stepFails b 1) ||| bit 2 (stepFails b 2 || !(badBridges b).isEmpty) ||| bit 3 (stepFails b 3 || b.stackFail != 0)
    ||| bit 4 (stepFails b 4 || (List.range 2).any fun k => (b.pcie.getD k none).isNone) ||| bit 5 (stepFails b 5)

/-- The dies that bring-up leaves in service: none without rails, calibrated bridges or trained stacks at all, else those that no failure takes out. -/
def diesAfter (b : BringUp) : BitVec 16 :=
  if stepFails b 0 || stepFails b 2 || stepFails b 3 then 0 else ~~~(b.stackFail ||| dieBits 16 0 (badBridges b))

def portDiesAfter (b : BringUp) : BitVec 2 := if stepFails b 0 || stepFails b 2 then 0 else ~~~(dieBits 2 16 (badBridges b))

/-- A PCI Express link as its training leaves it. -/
def linkAfter (b : BringUp) (dies : BitVec 2) (k : Nat) : Link :=
  match b.pcie.getD k none with
  | some (w, g) =>
    if !stepFails b 4 && pcieOk w g && dies.getLsbD k then { Link.reset with width := w, gen := g } else { Link.reset with up := false, ltssm := .detect }
  | none => { Link.reset with up := false, ltssm := .detect }

/-- R27: bring-up from power-good, its steps in order. The monitor derives the identity keys and locks its range registers in step 2 (R36, R37); without it no firmware runs. The ports begin to train in step 6, which does not run without rails. -/
def execPowerGood (steps : BringSteps) (stackFail : BitVec 16) (bridgeFail : List (Nat × Nat)) (s : State) : Host.Outcome State Fault Refusal :=
  .next (if s.powered then s
    else
      let b : BringUp := ⟨steps, stackFail, bridgeFail⟩
      let s := unpowered s true
      let boot := !stepFails b 0 && !stepFails b 1
      let ports := portDiesAfter b
      let total := ((List.range 6).map fun i => b.ns.getD i 0).foldl (· + ·) 0
      { s with
        ns := total
        now := total * s.clkMhz / 1000
        fw := { s.fw with stepFail := bringStatus b, diesOk := diesAfter b, portDiesOk := ports, identity := boot, stopped := !boot,
                          ranges := if boot then diesAfter b else 0 }
        links := (List.range 2).map (linkAfter b ports)
        ports := s.ports.map fun x => { x with entered := total } })

def execPowerRemoved (s : State) : Host.Outcome State Fault Refusal := .next (unpowered s false)

/-! ## Warm reset (R150 to R152) -/

/-- A context with a resident thread, an engine operation or a packet in flight. -/
def inFlight (s : State) (pasid : Nat) : Bool :=
  s.wgs.any (fun w => w.pasid == pasid && (w.state == .resident || w.state == .held || w.state == .frozen) && (wgThreads s w.id).any Thread.alive)
    || s.engines.any (fun e => wgIn s pasid e.wg) || s.queues.any fun q => Queue.pasid q.2 == pasid && !q.2.packets.isEmpty

/-- Time 0: issue, engines and fetchers stop, dirty lines are written back, and the reset is recorded. `lost` names the dies whose stacks cannot be reached, `stuck` the dirty lines that cannot be written. -/
def execWarmReset (cause : Byte) (die : Nat) (lost : BitVec 16) (stuck : List Nat) (s : State) : Host.Outcome State Fault Refusal :=
  .next (if s.warm.began.isSome then s
    else
      let hit := (s.contexts.map (·.pasid)).filter (inFlight s)
      let s := (s.stores.filter fun x => x.port.isNone).foldl performStore s
      let left := stuck.filter s.dirty.contains
      let w : WarmReset := ⟨satW32 s.warm.count, cause, die % 16, lost, some s.ns, left, hit⟩
      moduleEvent { s with groups := [], dirty := left, warm := w } 6 cause.toNat)

/-- Lines not written by 15 ms: their blocks are poisoned, and dies that cannot be reached leave service. -/
def abandonLines (s : State) : State :=
  let s := s.warm.stuck.foldl (fun s b => countErr (setBlock s b { getBlock s b with poison := true }) (dieOf (64 * b)) 3) s
  { s with warm := { s.warm with stuck := [] }, dirty := [], fw := { s.fw with diesOk := s.fw.diesOk &&& ~~~s.warm.lost } }

def resetAge (s : State) (ns : Nat) : Bool := s.warm.began.any fun b => decide (b + ns ≤ s.ns)

def execWarmResetWritebackDeadline (s : State) : Host.Outcome State Fault Refusal := .next (if resetAge s 15000000 then abandonLines s else s)

/-- A launch of an interrupted context: placed again, or ended with its queue in error (R151). -/
def restartLaunch (s : State) (x : Launch) : State :=
  let s := { s with gangs := s.gangs.filter fun g => g.launch != x.id }
  if x.done then s
  else if (effective s x.pasid x.rcd.region).idem then
    modLaunch s x.id fun y => { y with low := 0, taken := [], retired := 0, skipDone := true, cut := false, ready := [] }
  else
    let s := { modLaunch s x.id (fun y => { y with done := true, cut := true }) with watchers := s.watchers.filter fun w => w.2.2 != x.id }
    match x.packet with
    | none => s
    | some (q, seq) =>
      let a := ((getPacket s q seq).map Packet.named).getD 0
      failQueue (modQueue s q fun y => { y with packets := y.packets.filter fun p => p.seq != seq }) q 0x0B a

/-- A core without the queued work of launches `ls` and the rings and payloads of a context. -/
def coreWithout (pasid : Nat) (ls : List Nat) (c : Core) : Core :=
  let bins := (c.bins.map fun b => { b with recs := b.recs.filter fun r => !ls.contains r.launch }).filter fun b => !b.recs.isEmpty
  { c with
    bins := bins
    deque := c.deque.filter fun e => !ls.contains e.launch
    rings := c.rings.filter fun r => r.pasid != pasid
    landing := c.landing.filter fun l => l.pasid != pasid }

/-- The machine without what workgroups `ws` and launches `ls` of a context hold. -/
def dropCtx (pasid : Nat) (ls ws : List Nat) (s : State) : State :=
  let gone := fun (t : Tid) => (getT s t).any fun x => ws.contains x.wg
  { s with
    sideLog := s.sideLog.filter fun e => e.pasid != pasid
    monitors := s.monitors.filter fun m => m.pasid != pasid
    faults := s.faults.filter fun f => f.pasid != pasid
    engines := s.engines.filter fun e => !ws.contains e.wg
    loads := s.loads.filter fun l => !gone l.tid
    threads := s.threads.filter fun t => !ws.contains t.wg
    warps := s.warps.filter fun w => !ws.contains w.wg
    wgs := s.wgs.filter fun w => w.pasid != pasid
    cores := s.cores.map fun c => (c.1, coreWithout pasid ls c.2) }

/-- The resident work, the log, the monitors and the queued work of an interrupted context are discarded. -/
def interruptCtx (s : State) (pasid : Nat) : State :=
  let ls := (s.launches.filter fun x => x.pasid == pasid).map (·.id)
  let ws := (s.wgs.filter fun w => w.pasid == pasid).map (·.id)
  let s := dropCtx pasid ls ws (ws.foldl (fun s w => dropWg s w) s)
  let s := (s.launches.filter fun x => x.pasid == pasid).foldl restartLaunch s
  -- the other packets in flight are lost with their context
  let held := fun (s : State) (p : Packet) => s.launches.any fun x => !x.done && x.id == p.launch.getD 0
  let lost := fun (q : Nat × Queue) => Queue.pasid q.2 == pasid && q.2.state == .running && q.2.packets.any fun p => !held s p
  (s.queues.filter lost).foldl (fun s q =>
    let a := ((q.2.packets.find? fun p => !held s p).map Packet.named).getD 0
    failQueue (modQueue s q.1 fun y => { y with packets := y.packets.filter (held s) }) q.1 0x0B a) s

/-- Caches, translation buffers and broadcast words are empty after the reset. -/
def resetCaches (s : State) : State :=
  { s with l1 := [], tlb := [], icache := [], clb := [], bwords := [], bupdates := [], groups := [], cur := Group.empty }

/-- By 40 ms: interrupted contexts are restarted or ended, and placers and fetchers resume. -/
def execWarmResetComplete (s : State) : Host.Outcome State Fault Refusal :=
  .next (if resetAge s 38000000 then
      let s := endTrial (abandonLines s)
      let s := s.warm.interrupted.foldl interruptCtx s
      wakeAll (settleLaunches (resetCaches { s with warm := { s.warm with began := none, interrupted := [] } }))
    else s)

/-- Steps that go on while a warm reset runs: those of the host side, the links and the reset itself. -/
def runsInReset : Instr → Bool
  | .warmResetWritebackDeadline => true
  | .warmResetComplete => true
  | .powerRemoved => true
  | .registerWrite .. => true
  | .doorbell .. => true
  | .qctlReset .. => true
  | .qctlEnableSet .. => true
  | .qctlEnableClear .. => true
  | .pstopGo .. => true
  | .atsCompletion .. => true
  | .atsCompletionTimeout .. => true
  | .atsInvalidationRequest .. => true
  | .pcieLinkDown => true
  | .pcieLinkUp .. => true
  | .vlctlRetrain .. => true
  | .vlctlDisable .. => true
  | .detect => true
  | .detectRepeat => true
  | .rateLock => true
  | .rateTimeout => true
  | .equaliseRound .. => true
  | .equaliseTimeout => true
  | .deskew => true
  | .deskewTimeout => true
  | .slots .. => true
  | .slotsTimeout => true
  | .identity .. => true
  | .spdmRequest .. => true
  | .identityTimeout => true
  | .quarantineNoticeSend => true
  | .quarantineNotice => true
  | .managementFlit .. => true
  | .idleFlit .. => true
  | .unknownKindFlit .. => true
  | .replayRequest .. => true
  | .replayLimit => true
  | .linkLoss => true
  | _ => false

end Sys2Proof.Machine
end

