-- ==== Sys2Proof/Machine/Segments.lean ====
section
/-! DEFINITION. What a word touches of the core store, and the claims for which it waits (R85, R88, R139, R177): register windows and their shadows,
scratch ranges, the small state, and the undo log. -/

namespace Sys2Proof.Machine

/-! ## The register fields of a word -/

/-- The destinations and sources of a word, each with the number of its 32-bit registers. -/
structure Fields where
  dst : List (Dst × Nat)
  src : List (Src × Nat)

def noFields : Fields := ⟨[], []⟩
def dstOnly (d : Dst) (k : Nat) : Fields := ⟨[(d, k)], []⟩
def srcOnly (l : List (Src × Nat)) : Fields := ⟨[], l⟩

def fields1 (kd ka : Nat) (o : A1) : Fields := ⟨[(o.d, kd)], [(o.a, ka)]⟩
def fields2 (kd ka kb : Nat) (o : A2) : Fields := ⟨[(o.d, kd)], [(o.a, ka), (o.b, kb)]⟩
def fields3 (kd ka kb kc : Nat) (o : A3) : Fields := ⟨[(o.d, kd)], [(o.a, ka), (o.b, kb), (o.c, kc)]⟩
def fieldsP (ka kb : Nat) (o : P2) : Fields := ⟨[], [(o.a, ka), (o.b, kb)]⟩

/-- Registers of the sides of a copy: as copySrcs reads them. -/
def fieldsCopy (c : CopyOp) (kl : Nat) : Fields := ⟨[(c.d, 2)], (copySrcs c kl).map fun x => (x.src, x.k)⟩

def fieldsAcc (o : AccOp) : Fields := ⟨[(o.d, 2)], (accSrcs o).map fun x => (x.src, x.k)⟩

/-- The register fields of each word, with the widths of its encoding (R158). -/
def fieldsOf (i : Instr) : Fields :=
  match i with
  | .mov o w64 => fields1 (k64 w64) (k64 w64) o
  | .iadd o w64 _ _ => fields2 (k64 w64) (k64 w64) (k64 w64) o
  | .isub o w64 _ _ => fields2 (k64 w64) (k64 w64) (k64 w64) o
  | .iaddc o _ w64 => fields2 (k64 w64) (k64 w64) (k64 w64) o
  | .isubb o _ w64 => fields2 (k64 w64) (k64 w64) (k64 w64) o
  | .ineg o w64 _ => fields1 (k64 w64) (k64 w64) o
  | .iabs o w64 _ => fields1 (k64 w64) (k64 w64) o
  | .imul o w64 => fields2 (k64 w64) (k64 w64) (k64 w64) o
  | .imulhi o w64 _ => fields2 (k64 w64) (k64 w64) (k64 w64) o
  | .imad o w64 => fields3 (k64 w64) (k64 w64) (k64 w64) (k64 w64) o
  | .idiv o w64 _ => fields2 (k64 w64) (k64 w64) (k64 w64) o
  | .irem o w64 _ => fields2 (k64 w64) (k64 w64) (k64 w64) o
  | .imin o w64 _ => fields2 (k64 w64) (k64 w64) (k64 w64) o
  | .imax o w64 _ => fields2 (k64 w64) (k64 w64) (k64 w64) o
  | .icmp o _ w64 _ => fieldsP (k64 w64) (k64 w64) o
  | .and o w64 => fields2 (k64 w64) (k64 w64) (k64 w64) o
  | .or o w64 => fields2 (k64 w64) (k64 w64) (k64 w64) o
  | .xor o w64 => fields2 (k64 w64) (k64 w64) (k64 w64) o
  | .not o w64 => fields1 (k64 w64) (k64 w64) o
  | .andn o w64 => fields2 (k64 w64) (k64 w64) (k64 w64) o
  | .bool3 o _ w64 => fields3 (k64 w64) (k64 w64) (k64 w64) (k64 w64) o
  | .shl o w64 => fields2 (k64 w64) (k64 w64) 1 o
  | .shr o w64 => fields2 (k64 w64) (k64 w64) 1 o
  | .shra o w64 => fields2 (k64 w64) (k64 w64) 1 o
  | .rotl o w64 => fields2 (k64 w64) (k64 w64) 1 o
  | .funnel o _ w64 => fields3 (k64 w64) (k64 w64) (k64 w64) 1 o
  | .bfe o w64 _ => fields2 (k64 w64) (k64 w64) 1 o
  | .bfi o w64 => fields3 (k64 w64) (k64 w64) (k64 w64) 1 o
  | .popc o w64 => fields1 (k64 w64) (k64 w64) o
  | .clz o w64 => fields1 (k64 w64) (k64 w64) o
  | .ctz o w64 => fields1 (k64 w64) (k64 w64) o
  | .brev o w64 => fields1 (k64 w64) (k64 w64) o
  | .bpick o => fields3 1 1 1 1 o
  | .lea o _ _ => fields2 2 2 1 o
  | .sel o _ _ w64 => fields2 (k64 w64) (k64 w64) (k64 w64) o
  | .vadd2 o _ _ => fields2 1 1 1 o
  | .vsub2 o _ _ => fields2 1 1 1 o
  | .vmin2 o _ => fields2 1 1 1 o
  | .vmax2 o _ => fields2 1 1 1 o
  | .acsel2 o _ => fields3 1 1 1 1 o
  | .dot4 o _ _ => fields3 1 1 1 1 o
  | .dot2 o _ _ => fields3 1 1 1 1 o
  | .cvti o src dst _ _ _ => fields1 dst.k src.k o
  | .fadd o _ => fields2 1 1 1 o
  | .fsub o _ => fields2 1 1 1 o
  | .fmul o _ => fields2 1 1 1 o
  | .ffma o _ => fields3 1 1 1 1 o
  | .fmin o _ => fields2 1 1 1 o
  | .fmax o _ => fields2 1 1 1 o
  | .fminp o _ => fields2 1 1 1 o
  | .fmaxp o _ => fields2 1 1 1 o
  | .fcmp o _ _ => fieldsP 1 1 o
  | .fclass o _ => fields1 1 1 o
  | .fcopysgn o _ => fields2 1 1 1 o
  | .frnd o _ => fields1 1 1 o
  | .fdiv o _ => fields2 1 1 1 o
  | .fsqrt o _ => fields1 1 1 o
  | .frcp o _ => fields1 1 1 o
  | .frsq o _ => fields1 1 1 o
  | .fexp2 o _ => fields1 1 1 o
  | .flog2 o _ => fields1 1 1 o
  | .fsinpi o _ => fields1 1 1 o
  | .fcospi o _ => fields1 1 1 o
  | .ftanh o _ => fields1 1 1 o
  | .hadd2 o _ => fields2 1 1 1 o
  | .hmul2 o _ => fields2 1 1 1 o
  | .hfma2 o _ => fields3 1 1 1 1 o
  | .hmin2 o _ => fields2 1 1 1 o
  | .hmax2 o _ => fields2 1 1 1 o
  | .hdot2 o _ => fields3 1 1 1 1 o
  | .dadd o _ => fields2 2 2 2 o
  | .dmul o _ => fields2 2 2 2 o
  | .dfma o _ => fields3 2 2 2 2 o
  | .fcvt o dst src _ => fields1 dst.k src.k o
  | .f2i o src _ d64 _ => fields1 (k64 d64) src.k o
  | .i2f o dst _ s64 _ => fields1 dst.k (k64 s64) o
  | .cvtq o desc => ⟨[(o.d, 1)], [(o.a, 1), (o.b, if desc then 1 else 2)]⟩
  | .cvtdq o desc => ⟨[(o.d, 1)], [(o.a, 1), (o.b, if desc then 1 else 2)]⟩
  | .amax o _ _ => fields2 1 1 1 o
  | .lanex o _ off w64 => ⟨[(o.d, k64 w64)], (o.a, k64 w64) :: (match off with | .reg b => [(b, 1)] | .width .. => [])⟩
  | .bcastl o b w64 => ⟨[(o.d, k64 w64)], (o.a, k64 w64) :: (match b with | some b => [(b, 1)] | none => [])⟩
  | .pcensus _ c _ _ => match c with | .mask d => dstOnly d 2 | .count d => dstOnly d 1 | _ => noFields
  | .matchL o _ w64 => ⟨[(o.d, 2)], [(o.a, k64 w64)]⟩
  | .redls o _ _ _ w64 => fields1 (k64 w64) (k64 w64) o
  | .redidx o _ _ _ => ⟨[(o.d, 2)], [(o.a, 1), (o.b, 1)]⟩
  | .scan o _ _ _ _ w64 => fields1 (k64 w64) (k64 w64) o
  | .ptov o _ _ w64 => fields2 (k64 w64) (k64 w64) 1 o
  | .vtop o _ w64 => fieldsP (k64 w64) 1 o
  | .actmask _ d => dstOnly d 2
  | .bra _ mode a _ => srcOnly [(a, if mode == .nz64 || mode == .z64 then 2 else 1)]
  | .brx _ tab a _ => srcOnly [(a, if tab then 1 else 2)]
  | .callx _ tab a _ => srcOnly [(a, if tab then 1 else 2)]
  | .sleep _ a => srcOnly [(a, 1)]
  | .ld m => ⟨[(m.d, m.w.k)], [(m.base, 2)]⟩
  | .st m => srcOnly [(m.base, 2), (m.data, m.w.k)]
  | .lds m => ⟨[(m.d, m.w.k)], [(m.base, 1)]⟩
  | .sts m => srcOnly [(m.base, 1), (m.data, m.w.k)]
  | .ldcl m => ⟨[(m.d, m.w.k)], [(m.base, 1)]⟩
  | .stcl m => srcOnly [(m.base, 1), (m.data, m.w.k)]
  | .ldbd m => ⟨[(m.d, 1)], [(m.base, 2)]⟩
  | .stbd m => srcOnly [(m.base, 2), (m.data, 1)]
  | .pref _ base _ _ => srcOnly [(base, 2)]
  | .cinval _ base _ => srcOnly (match base with | some b => [(b, 2)] | none => [])
  | .smap _ a b c => srcOnly [(a, 1), (b, 2), (c, 1)]
  | .sunmap _ a => srcOnly [(a, 1)]
  | .swb _ a => srcOnly (match a with | some a => [(a, 1)] | none => [])
  | .atom t => ⟨[(t.d, t.ty.k)], [(t.base, 2), (t.b, t.ty.k)]⟩
  | .atomcas t => ⟨[(t.d, t.ty.k)], [(t.base, 2), (t.b, t.ty.k), (t.c, t.ty.k)]⟩
  | .red t => srcOnly [(t.base, 2), (t.b, t.ty.k)]
  | .atoms t => ⟨[(t.d, t.ty.k)], [(t.base, 1), (t.b, t.ty.k)]⟩
  | .barp o _ _ _ w64 => fields1 (k64 w64) (k64 w64) o
  | .copy c => fieldsCopy c 1
  | .copym c => fieldsCopy c 1
  | .gather c => fieldsCopy c 4
  | .scatter c => fieldsCopy c 4
  | .remq o _ => ⟨[(o.d, 2)], [(o.a, 1), (o.b, 1)]⟩
  | .rqpop o _ => ⟨[(o.d, 1)], [(o.a, 1)]⟩
  | .xred o s2g _ _ _ => ⟨[(o.d, 2)], [(o.a, 2), (o.b, if s2g then 1 else 2), (o.c, 1)]⟩
  | .strm _ a _ _ _ _ _ => srcOnly [(a, 2)]
  | .tchk _ _ a => srcOnly [(a, 2)]
  | .tcfg _ a => srcOnly [(a, 2)]
  | .oclaim o _ => fieldsP 1 1 o
  | .orel _ a b => srcOnly [(a, 1), (b, 1)]
  | .mma o => fields3 2 1 1 1 o
  | .mmaz o => fields3 2 1 1 1 o
  | .mxt _ d a c => ⟨[(d, 2)], [(a, 1), (c, 1)]⟩
  | .mperm o => fields3 2 1 1 1 o
  | .mrred _ d a c => ⟨[(d, 2)], [(a, 1), (c, 1)]⟩
  | .accld o => fieldsAcc o
  | .accst o => fieldsAcc o
  | .accz o => ⟨[(o.d, 2)], [(o.a, 1)]⟩
  | .mstat _ d => dstOnly d 1
  | .spawn _ _ code args => srcOnly [(code, 2), (args, 4)]
  | .spawnw _ _ _ args => srcOnly [(args, 4)]
  | .spawnr _ _ _ lo hi chunk => srcOnly [(lo, 2), (hi, 2), (chunk, 1)]
  | .tget _ d => dstOnly d 4
  | .launch _ r => srcOnly [(r, 2)]
  | .bwupd _ _ _ _ a => srcOnly [(a, 2)]
  | .bwrd _ d _ _ => dstOnly d 2
  | .cwait o => fieldsP 1 1 o
  | .cnotify _ _ a => srcOnly [(a, 1)]
  | .cheld o => ⟨[(o.d, 1)], [(o.a, 1)]⟩
  | .tmov o _ _ w64 => fields1 (k64 w64) (k64 w64) o
  | .getsr _ d n => dstOnly d (k64 (sr64 n))
  | .setsr _ n a => srcOnly [(a, k64 (sr64 n))]
  | .fwcall o _ => ⟨[(o.d, 2)], [(o.a, 2)]⟩
  | .moncall o _ => ⟨[(o.d, 2)], [(o.a, 2), (o.b, 2)]⟩
  | .icinv _ range => srcOnly (match range with | some (a, len) => [(a, 2), (len, 1)] | none => [])
  | .tlbinv _ form a b => srcOnly ((a, if form == .page then 2 else 1) :: (match b with | some b => [(b, 1)] | none => []))
  | .fcxl _ a b => srcOnly [(a, 1), (b, 2)]
  | .finj _ a => srcOnly [(a, 2)]
  | .cctl _ d a b => ⟨(match d with | some d => [(d, 2)] | none => []), [(a, 1), (b, 1)]⟩
  | .pairWord h0 h1 => ⟨[(.v h0.d, 1), (.v h1.d, 1)], (h0.reads ++ h1.reads).map fun n => (⟨.v (BitVec.ofNat 8 n), false, false⟩, 1)⟩
  | _ => noFields

/-- Words that take the tangents of their sources under dual semantics (R237 to R240, R332). -/
def takesTangents (i : Instr) : Bool :=
  match i with
  | .mov .. | .sel .. | .fadd .. | .fsub .. | .fmul .. | .ffma .. | .fmin .. | .fmax .. | .fminp .. | .fmaxp .. | .fcopysgn .. | .fdiv .. | .fsqrt .. | .frcp .. |
  .frsq .. | .fexp2 .. | .flog2 .. | .fsinpi .. | .fcospi .. | .ftanh .. | .hadd2 .. | .hmul2 .. | .hfma2 .. | .hmin2 .. | .hmax2 .. | .hdot2 .. | .dadd .. | .dmul .. |
  .dfma .. | .fcvt .. | .lanex .. | .bcastl .. | .redls .. | .redidx .. | .scan .. | .st .. | .atom .. | .red .. | .pairWord .. => true
  | _ => false

/-- Words whose active lanes act together: where one of them waits, all wait (R325, R397). -/
def actsTogether (i : Instr) : Bool :=
  match i with
  | .lanex .. | .bcastl .. | .pcensus .. | .matchL .. | .redls .. | .redidx .. | .scan .. | .actmask .. | .smap .. | .sunmap .. | .swb .. | .copym .. | .strm .. |
  .strmx .. | .tcfg .. | .oclaim .. | .orel .. | .mma .. | .mmaz .. | .mxt .. | .mperm .. | .mrred .. | .accld .. | .accst .. | .accz .. | .mtake .. | .mpass .. |
  .mdrop .. | .mstat .. | .spawnw .. | .spawnr .. | .launch .. | .fwcall .. | .moncall .. | .icinv .. | .tlbinv .. | .fcxl .. | .halt .. | .cctl .. => true
  | .amax _ _ lanes => lanes
  | _ => false

/-! ## Bytes of a footprint -/

/-- Bytes of a workgroup's footprint that a word touches. -/
structure Span where
  wg : Nat
  at_ : Nat
  len : Nat

def warpOf (s : State) (t : Tid) : Nat := ((getWarp s t.core t.slot).map (·.index)).getD 0

/-- The windows of `k` registers from number `n`, in the components `js`. -/
def regSpans (w : Workgroup) (warp n k : Nat) (js : List Nat) : List Span :=
  (List.range k).flatMap fun i => if n + i < w.vregs then js.map fun j => ⟨w.id, regAt w warp j (n + i), 256⟩ else []

/-- Every component of a register: a write of the primal writes them all (R176, R178). -/
def allComps (w : Workgroup) : List Nat := List.range (w.shadows + 1)

def padBase (w : Workgroup) : Nat := w.nwarps * warpBytes w

def padSpan (w : Workgroup) (a n : Nat) : List Span := if n = 0 then [] else [⟨w.id, padBase w + a, n⟩]

/-- A scratch access: the bytes, the whole chunk where it is bound (R116), or the register that a window shows (R172). -/
def scrSpans (w : Workgroup) (write : Bool) (a n : Nat) : List Span :=
  if !(scrCauses w a n).isEmpty then []
  else match scrAddr w a n with
    | .pad _ => if (bindingAt w a).isSome then padSpan w (a / 256 * 256) 256 else padSpan w a n
    | .win j warp r _ => regSpans w warp r 1 (if write && j == 0 then allComps w else [j])
    | _ => []

/-- The rows of one scratch side of a copy. -/
def rowSpans (w : Workgroup) (a : Nat) (rows : Rows) (stride : Int) : List Span :=
  if scratchBad w a rows stride then [] else (List.range rows.n).flatMap fun (i : Nat) => padSpan w ((a : Int) + (i : Int) * stride).toNat rows.len

/-- The chunks of a binding that a write-back reads. -/
def dirtySpans (w : Workgroup) (l : List Binding) : List Span :=
  (w.chunks.filter fun c => !c.dirty.isEmpty && l.any fun b => b.base / 256 ≤ c.index && c.index < (b.base + b.len) / 256).flatMap fun c => padSpan w (256 * c.index) 256

def copySpans (w : Workgroup) (c : CopyOp) (v : List Opv) (rows : Rows) : List Span :=
  (if dirDst c.dir c.hdst == .scratch then rowSpans w (opv v 0).w32.toNat rows rows.dstStride else [])
    ++ (if dirSrc c.dir c.hsrc == .scratch then rowSpans w (opv v 1).w32.toNat rows rows.srcStride else [])

def clusterSpans (s : State) (w : Workgroup) (t : Tid) (ea n : Nat) : List Span :=
  match clusterTarget s w t ea n with
  | .inl x => padSpan x (ea % 2 ^ 30) n
  | .inr _ => []

/-- The oldest held link, which a call at a full link stack spills; or the slot that a return over `n` frames reloads (R300, R302, R303). -/
def linkSpans (s : State) (w : Workgroup) (t : Thread) (i : Instr) : List Span :=
  let back := fun (n : Nat) =>
    let j := t.depth - n + 1
    if decide (n ≤ t.depth) && !(t.links.any fun l => l.1 == j) then scrSpans w false (spillAddr s t.tid j) 8 else []
  let out := if t.links.length < 8 || decide (255 ≤ t.depth) then [] else (t.links.getLast?).elim [] fun l => scrSpans w true (spillAddr s t.tid l.1) 8
  match i with
  | .call .. => out
  | .callx .. => out
  | .ret _ => back 1
  | .retn _ n => back n.toNat
  | _ => []

/-- The scratch ranges that a word touches, from the values of its operands. -/
def scratchOf (s : State) (w : Workgroup) (t : Thread) (i : Instr) (v : List Opv) : List Span :=
  let pad := fun (k : Nat) (n : Nat) => rowSpans w (opv v k).w32.toNat ⟨1, n, n, n⟩ n
  match i with
  | .lds m => scrSpans w false (scratchEa (opv v 0) m.off) (MWidth.bytes m.w)
  | .sts m => scrSpans w true (scratchEa (opv v 0) m.off) (MWidth.bytes m.w)
  | .atoms o => scrSpans w true ((opv v 0).w32 + o.off8.signExtend 32 * BitVec.ofNat 32 (AType.bytes o.ty)).toNat (AType.bytes o.ty)
  | .ldcl m => clusterSpans s w t.tid (scratchEa (opv v 0) m.off) (MWidth.bytes m.w)
  | .stcl m => clusterSpans s w t.tid (scratchEa (opv v 0) m.off) (MWidth.bytes m.w)
  | .copy c => copySpans w c v (copyRows (opv v 2)).1
  | .copym c => copySpans w c v (copyRows (opv v 2)).1
  | .gather c => copySpans w c v (rowDesc true (opv v 2)).1
  | .scatter c => copySpans w c v (rowDesc false (opv v 2)).1
  | .xred _ s2g .. => if s2g then pad 1 ((opv v 2).nat false) else []
  | .remq .. => pad 1 64
  | .rqpop .. => pad 0 64
  | .accld o => if o.s then pad 0 (accBytes o) else []
  | .accst o => if o.s then pad 0 (accBytes o) else []
  | .sunmap .. => dirtySpans w ((bindingAt w (opv v 0).w32.toNat).toList)
  | .swb _ a => dirtySpans w (if a.isSome then (bindingAt w (opv v 0).w32.toNat).toList else w.smap)
  | _ => []
where
  accBytes (o : AccOp) : Nat := (w.mx.cfg.map fun c => (c.m * c.n * accWidth o.raw (accRec o w v) + 7) / 8).getD 0

/-- The registers that a word writes or marks, by number (R139, R178). -/
def writtenRegs (f : Fields) : List Nat :=
  (f.dst.flatMap fun x => match x.1 with | .v n => (List.range x.2).map (n.toNat + ·) | _ => [])
    ++ (f.src.flatMap fun x => match x.1.op with | .v n => if x.1.l then (List.range x.2).map (n.toNat + ·) else [] | _ => [])

/-- The register windows that a word touches in a thread: primal and active tangents of its sources, every component of what it writes or marks; of a TMOV the components that it names (R411). -/
def regsOf (s : State) (w : Workgroup) (t : Thread) (i : Instr) : List Span :=
  let warp := warpOf s t.tid
  let f := fieldsOf i
  let read := fun (js : List Nat) => f.src.flatMap fun x => match x.1.op with
    | .v n => regSpans w warp n.toNat x.2 js
    | _ => []
  let put := (writtenRegs f).flatMap fun n => regSpans w warp n 1 (allComps w)
  match i with
  | .tmov o js jd w64 => read [js.toNat] ++ (if jd == 0 || o.a.l then put else (match o.d with
      | .v n => regSpans w warp n.toNat (k64 w64) [jd.toNat]
      | _ => []))
  | _ => read (0 :: (if takesTangents i then dualComps s w t else [])) ++ put

/-- The granules that a thread's word is to enter in the undo log: those of the registers and of the scratch bytes that it writes, as far as they are not there (R139). -/
def newGranules (s : State) (w : Workgroup) (t : Thread) (i : Instr) (scr : List Span) : List Nat :=
  if !w.rcb.rollback && w.rcb.redund == 0 || w.epoch.overflow then []
  else
    let regs := (writtenRegs (fieldsOf i)).flatMap fun n => regGranules w.shadows (warpOf s t.tid) n
    let pads := scr.flatMap fun x => if x.wg == w.id && decide (padBase w ≤ x.at_) then (List.range ((x.at_ - padBase w + x.len - 1) / 256 + 1 - (x.at_ - padBase w) / 256)).map ((x.at_ - padBase w) / 256 + ·) else []
    ((regs ++ pads).filter fun g => !w.epoch.undo.contains g).eraseDups

/-- The places that new granules take in the undo log, which follows the scratchpad (assumption log 48). -/
def undoSpans (w : Workgroup) (gs : List Nat) : List Span :=
  let n := Nat.min gs.length (w.undoMax - w.epoch.undo.length)
  if n = 0 then [] else [⟨w.id, padBase w + w.scratch + 256 * w.epoch.undo.length, 256 * n⟩]

/-- The values of a word's sources, where none traps, waits or is POISON. -/
def sourceVals (s : State) (w : Workgroup) (t : Thread) (f : Fields) : Option (List Opv) :=
  let r := readSrcs s w t (f.src.map fun x => ⟨x.1, x.2, .int⟩) []
  if r.causes.isEmpty && !r.wait && !(r.vals.any (·.poison)) then some r.vals else none

/-- What a word touches in one thread; the small state goes with the thread itself. -/
def spansOf (s : State) (w : Workgroup) (t : Thread) (i : Instr) : List Span :=
  let scr := linkSpans s w t i ++ ((sourceVals s w t (fieldsOf i)).elim [] fun v => scratchOf s w t i v)
  ⟨w.id, 0, 1⟩ :: regsOf s w t i ++ scr ++ undoSpans w (newGranules s w t i scr)

/-! ## Claims -/

/-- The segments that a span lies in and that the word must wait for, with the workgroup that lists them: a victim's contents stand there, or they are in the save area. -/
def neededSegs (s : State) (x : Span) : List (Nat × Nat) :=
  match getWg s x.wg with
  | none => []
  | some w => ((segsAt s w x.at_ x.len).filter fun g => g.victim.isSome || g.saved).map fun g => (if w.segs.isEmpty then w.mate else w.id, g.index)

/-- The segments for which a thread's word must wait. -/
def claimsOf (s : State) (t : Thread) (i : Instr) : List (Nat × Nat) :=
  match getWg s t.wg with
  | none => []
  | some w => if s.wgs.any fun x => x.core / 4 == w.core / 4 && x.segs.any fun g => g.victim.isSome || g.saved then (spansOf s w t i).flatMap (neededSegs s) else []

/-- A segment is claimed, or its reading back begins. -/
def claimSeg (s : State) (x : Nat × Nat) : State := modWg s x.1 (setSeg x.2 fun g => { g with saving := true })

/-- The threads `ts`, which pass the word's guard, claim what they touch; those with a claim wait, and with them all where the lanes act together (R85, R88). -/
def claimAll (s : State) (ts : List Thread) (i : Instr) : State :=
  let l := ts.map fun t => (t, claimsOf s t i)
  if l.all fun x => x.2.isEmpty then s
  else
    let s := l.foldl (fun s x => x.2.foldl claimSeg s) s
    l.foldl (fun s x => if x.2.isEmpty && !actsTogether i then s else waitFor s x.1.tid .resource) s

end Sys2Proof.Machine
end

