-- ==== Sys2Proof/Machine/Fetch.lean ====
section
/-! DEFINITION. Fetching (R105, R258 to R262, R276 to R280), the PC table and issue groups (R102 to R104), the arbiter (R103), and issuing one word of a group. -/

namespace Sys2Proof.Machine

/-! ## Lines of the cluster instruction cache -/

inductive FLine where
  | line (l : ILine)
  | stop (r : LaneRes)

/-- A line read under its region's policy (R132); a word that would be POISON is a trap of its class at the clause (R131); a SEV2 error affects every element of the block, which is its detail (R131, R248). -/
def codeBytes (s : State) (w : Workgroup) (t : Thread) (layout key : Nat) (va : Word) (r : ByteRead) : State × Except LaneRes (List Byte) :=
  match applySev s w key va false r with
  | (s, .stop x) => (s, .error x)
  | (s, .ok d) =>
    if d.bad.any (fun x => x) then
      (let hit := if r.sev == some 2 then ((layoutOf layout).map (·.n)).getD 0 else 0
       (s, .error (.consume { code := sevCause (r.sev.getD 3), addr := va, detail := BitVec.ofNat 32 hit, integ := r.integ })))
    else (if d.numerr then modT s t.tid fun x => { x with numerr := true } else s, .ok d.bytes)

/-- Code that no memory delivers: a SEV3 error without data (R21, R32). -/
def codeLost (s : State) (w : Workgroup) (va : Word) : State × Except LaneRes (Option Nat × List Byte) :=
  match applyNoData s w va 64 with
  | (s, .stop r) => (s, .error r)
  | (s, .ok d) => if d.bad.any (fun x => x) then (s, .error (.consume { code := 0x53, addr := va })) else (s, .ok (none, d.bytes))

/-- The bytes of the line at a physical address, and the block under which the cache keeps them; none for code that is not kept: that of a register, a peer, or a page that the thread sees without its key (R40). -/
def readLine (s : State) (w : Workgroup) (t : Thread) (l : Leaf) (pa : Nat) (va : Word) : State × Except LaneRes (Option Nat × List Byte) :=
  match homeOf s.module_ s.domain (pa / 64 * 64) with
  | .bad => (s, .error (.trap { code := 0x42, addr := va }))
  | .reg off => (s, .ok (none, regBytes s off 64))
  | .peer m off =>
    (match readPeer s (.code t.tid) m off 64 true with
     | (s, .data b) => (s, .ok (none, b))
     | (s, .failed) => codeLost s w va
     | (s, .wait) => (s, .error (.wait .resource)))
  | .host k bus =>
    if !hostUp s k w then codeLost s w va
    else (match hostXlate s k w.pasid bus with
    | (s, .wait) => (s, .error (.wait (.ats k (bus / 4096) va.toNat false)))
    | (s, .fault) =>
      let (s, r) := hold s w t va false
      (s, .error r)
    | (s, .ok a) => (s, .ok (some (a / 64), getCells a 64 s.mem)))
  | .hbm a =>
    let (s, r) := readHbmRange s a 64 l.layout l.key
    match codeBytes s w t l.layout l.key va r with
    | (s, .error x) => (s, .error x)
    | (s, .ok b) => (s, .ok (if l.key = Config.noKey then none else some (a / 64), b))

/-- The name a line has in the cache. -/
def lineBlock (s : State) (pasid pa : Nat) : Option Nat := (canon s pasid (pa / 64 * 64)).map (· / 64)

/-- A line enters its cluster's cache, which holds 256 KiB (R11): the line that came in first goes (assumption log 76). -/
def keepLine (s : State) (x : ILine) : State :=
  { s with icache := (x :: s.icache.filter fun y => y.cluster == x.cluster && y.block != x.block).take Config.icacheLines ++ s.icache.filter fun y => y.cluster != x.cluster }

/-- The line of an address: from the cluster cache, or by a fill, which is a miss. -/
def fetchLine (s : State) (w : Workgroup) (t : Thread) (va : Word) : State × Nat × FLine :=
  match translate s t.tid.core w.pasid va.toNat { r := false, w := false, x := true, pl := t.pl } with
  | (s, .unmapped) =>
    let (s, r) := hold s w t va false
    (s, 0, .stop r)
  | (s, .denied) => (s, 0, .stop (.trap { code := 0x42, addr := va }))
  | (s, .uncorr) => (s, 0, .stop (tableError s w va false))
  | (s, .ok l pa) =>
    let cl := clusterId t.tid.core
    let hit := s.icache.find? fun x => x.cluster == cl && some x.block == lineBlock s w.pasid pa
    match (if l.key = Config.noKey then none else hit) with
    | some x => (s, 0, .line x)
    | none =>
      match readLine s w t l pa va with
      | (s, .error r) => (s, 0, .stop r)
      | (s, .ok (some b, d)) =>
        let x : ILine := ⟨cl, b, l.leg, d⟩
        (keepLine s x, 1, .line x)
      | (s, .ok (none, d)) => (s, 1, .line ⟨cl, 0, l.leg, d⟩)

/-- A reserved opcode, or a Flilith-2 word without a counterpart, in every lane that passes its guard (R274, R275, R279). -/
def execReservedOpcodeWord (w : Word) (legacy : Bool) (s : State) : Host.Outcome State Fault Refusal :=
  let pg := if legacy then guardOf (w.extractLsb' 47 4) else pgOf w
  .next (perLane { s with cur := { s.cur with legacy := legacy } } pg fun s _ _ => (s, .trap { code := 0x00 }))

/-! ## Clauses -/

/-- A fetch under way: misses, the words read, the lines they came from, and why it stopped. -/
structure Fetching where
  s : State
  miss : Nat
  words : List Word
  lines : List ILine
  stop : Option LaneRes

def fetchWord (w : Workgroup) (t : Thread) (a : Fetching) (va : Word) : Fetching :=
  if a.stop.isSome then a
  else match fetchLine a.s w t va with
  | (s, m, .line l) =>
    { s := s, miss := a.miss + m, words := a.words ++ [BitVec.ofNat 64 (field l.data (va.toNat % 64) 8)],
      lines := if a.lines.contains l then a.lines else a.lines ++ [l], stop := none }
  | (s, m, .stop r) => { a with s := s, miss := a.miss + m, stop := some r }

/-- A clause as fetched: its words after the header. -/
structure Clause where
  words : List Word
  cls : Nat
  wait : BitVec 8
  yield : Bool
  legacy : Bool
  /-- lines ahead of the header that its first issue prefetches (R105) -/
  pf : Nat
  deriving DecidableEq

/-- The fields of a word that can name the literal. -/
def litFields (w : Word) : List (BitVec 11) :=
  if 0xF0 ≤ fOp w then []
  else if fOp w == 0x8E then [fSb w, fSc w]
  else match opFormat (fOp w) with
    | 0 => [fSa w, fSb w, fSc w]
    | 2 => [fSb w]
    | _ => []

def namesLit (w : Word) : Bool := opAssigned (fOp w) && (litFields w).any isLitField

/-- Reads a Flilith-2 clause on from `va`: `n` words are taken, admitted by the classes `cs` (R277). -/
def legacyWords (w : Workgroup) (t : Thread) : Nat → Fetching → Word → List Nat → Fetching × List Nat
  | 0, a, _, cs => (a, cs)
  | fuel + 1, a, va, cs =>
    let b := fetchWord w t a va
    if b.stop.isSome then (b, cs)
    else
      let x := b.words.getLastD 0
      let op := f2Op x
      let cs' := if f2Illegal op then cs else cs.filter fun c => classAdmits c op
      if cs'.isEmpty then ({ b with words := a.words }, cs)
      else
        let edge := va.toNat % 4096 == 4088
        let lit := !f2Illegal op && namesLit (f2Word x) && !edge && decide (b.words.length < 16)
        let c := if lit then fetchWord w t b (va + 8) else b
        let next := if lit then va + 16 else va + 8
        if c.stop.isSome || f2Yield x || (!f2Illegal op && isControlOp op) || next.toNat % 4096 == 0 || decide (16 ≤ c.words.length) then (c, cs')
        else legacyWords w t fuel c next cs'

inductive FClause where
  | clause (c : Clause)
  | bad
  | stop (r : LaneRes)

/-- The clause at an address, from whatever lines the cache has or fills. -/
def fetchClauseOnce (s : State) (w : Workgroup) (t : Thread) (hdr : Word) : Fetching × FClause :=
  let a := fetchWord w t ⟨s, 0, [], [], none⟩ hdr
  match a.stop with
  | some r => (a, .stop r)
  | none =>
    if a.lines.any (·.leg) then
      let (b, cs) := legacyWords w t 16 ⟨a.s, a.miss, [], a.lines, none⟩ hdr [0, 1, 2, 3, 5]
      match b.stop with
      | some r => (b, .stop r)
      | none => (b, .clause ⟨b.words, cs.headD 0, 0, (b.words.getLastD 0 |> f2Yield), true, 0⟩)
    else match headerOf (a.words.headD 0) with
    | none => (a, .bad)
    | some h =>
      let b := (List.range h.count).foldl (fun a i => fetchWord w t a (hdr + BitVec.ofNat 64 (8 * (i + 1)))) a
      match b.stop with
      | some r => (b, .stop r)
      | none => (b, .clause ⟨b.words.tail, h.cls, h.wait, h.yield, false, h.pf.toNat⟩)

/-- The line is what memory gives now. -/
def lineFresh (s : State) (w : Workgroup) (t : Thread) (hdr : Word) (n : Nat) (l : ILine) : Bool :=
  (List.range (n / 8 + 2)).all fun i =>
    let va := hdr + BitVec.ofNat 64 (64 * i)
    match translate s t.tid.core w.pasid va.toNat { r := false, w := false, x := true, pl := t.pl } with
    | (_, .ok lf pa) => lineBlock s w.pasid pa != some l.block || (l.leg == lf.leg && (match readLine s w t lf pa va with
        | (_, .ok (_, d)) => d == l.data
        | _ => true))
    | _ => true

/-- The clause at an address. One that spans lines of which some are stale is fetched anew, so that it never mixes (R280). -/
def fetchClause (s : State) (w : Workgroup) (t : Thread) (hdr : Word) : Fetching × FClause :=
  let (a, c) := fetchClauseOnce s w t hdr
  if a.lines.length < 2 || a.lines.all (lineFresh a.s w t hdr a.words.length) then (a, c)
  else
    let cl := clusterId t.tid.core
    let keep := a.s.icache.filter fun x => !(x.cluster == cl && a.lines.any fun l => l.block == x.block)
    let (b, c) := fetchClauseOnce { a.s with icache := keep } w t hdr
    ({ b with miss := a.miss }, c)

/-! ## Wait conditions (R261) -/

def streamStarted (s : State) (t : Tid) : Bool :=
  s.streams.all fun x => !x.all.contains t || x.pos != 0 || x.stop.isSome

/-- Wait condition `i` holds for a thread. -/
def waitHolds (s : State) (w : Workgroup) (t : Thread) (i : Nat) : Bool :=
  match i with
  | 0 => !s.loads.any fun l => l.tid == t.tid && (l.kind == .global || l.kind == .peer || l.kind == .cluster || l.kind == .atoms)
  | 1 => !s.loads.any fun l => l.tid == t.tid && l.kind == .scratch
  | 2 => !(s.stores.any fun x => x.tid == t.tid) && !(s.sideLog.any fun x => x.tid == t.tid)
      && !(s.compare.any fun c => c.tid == t.tid && (match c.effect with | .store .. => true | .log .. => true | _ => false))
  | 3 => !(s.engines.any fun e => e.tids.contains t.tid || e.tid == t.tid) && !s.loads.any fun l => l.tid == t.tid && l.kind == .pop
  | 4 => !s.engines.any fun e => e.wg == w.id && e.kind.inOrder
  | 5 => w.role == .drone || hasReed s w t.tid
  | 6 => !s.claims.any fun c => c.wg == w.id
  | 7 => streamStarted s t.tid
  | _ => true

def waitsHold (s : State) (t : Thread) (m : BitVec 8) : Bool :=
  match getWg s t.wg with
  | none => true
  | some w => (List.range 8).all fun i => !m.getLsbD i || waitHolds s w t i

/-! ## The PC table (R102) -/

def threadPasid (s : State) (t : Thread) : Nat := ((getWg s t.wg).map (·.pasid)).getD 0

/-- The entry of a thread. A clause of Flilith-2 code may start at any word, so that there the address alone tells the entry (R104, R276). -/
def pcEntry (s : State) (t : Thread) : PcEntry := ⟨threadPasid s t, t.pc, t.depth, if t.legacy || t.hdr == some t.pc then none else t.hdr⟩

def inGroup (s : State) (t : Tid) : Bool := s.groups.any fun g => g.tids.contains t

/-- Threads of a core that wait to issue, the stalled among them. -/
def waitingThreads (s : State) (core : Nat) : List Thread := s.threads.filter fun t => t.tid.core == core && t.alive && !inGroup s t.tid

/-- A workgroup's thread may issue: the workgroup is resident, or it is freezing and the thread stands inside a clause that was not yet saved (R72, R85; assumption log 83). -/
def mayIssue (w : Workgroup) (t : Thread) : Bool :=
  !w.rollbackDue && (w.state == .resident || ((w.state == .frozen || w.state == .held) && t.hdr.isSome && !(w.segs.any (·.saved))))

/-- Threads of a core that a group could take. -/
def freeThreads (s : State) (core : Nat) : List Thread :=
  (waitingThreads s core).filter fun t => t.run == .ready && (getWg s t.wg).any fun w => mayIssue w t

/-- The first entry that no ready thread needs gives its place to `e`; where every entry is needed, `e` waits. -/
def giveUp (busy : PcEntry → Bool) (e : PcEntry) : List PcEntry → List PcEntry
  | [] => []
  | x :: r => if busy x then x :: giveUp busy e r else r ++ [e]

/-- The PC table now: entries that still have a waiting thread keep their places, then pairs of ready threads come in, the oldest first (R102). -/
def pcTable (s : State) (core : Nat) : List PcEntry :=
  let live := ((waitingThreads s core).map (pcEntry s)).eraseDups
  let ready := ((sortBy (fun (t : Thread) => t.able) (freeThreads s core)).map (pcEntry s)).eraseDups
  let old := (getCore s core).pcs.filter fun e => live.contains e
  (ready.filter fun e => !old.contains e).foldl (fun l e => if l.length < 128 then l ++ [e] else giveUp (fun x => ready.contains x) e l) old

/-- The entries that can issue. -/
def entriesOf (s : State) (core : Nat) : List PcEntry :=
  let ready := (freeThreads s core).map (pcEntry s)
  (pcTable s core).filter fun e => ready.contains e

/-! ## Forming a group (R102) -/

/-- Warps in ascending slot; one joins with all of its threads, unless a lane of theirs is taken. -/
def joinWarps (ts : List Thread) : List Thread :=
  let slots := sortBy id (ts.map (·.tid.slot)).eraseDups
  slots.foldl (fun g k =>
    let mine := ts.filter fun t => t.tid.slot == k
    if mine.any fun t => g.any fun x => x.tid.lane == t.tid.lane then g else g ++ mine) []

/-- A fetch that fails, for every thread of the entry; TRAPPC holds the header's address (R260). -/
def fetchStop (s : State) (hdr : Word) (ts : List Tid) (r : LaneRes) : State :=
  match r with
  | .wait x => ts.foldl (fun s t => waitFor s t x) s
  | .trap c => deliverTraps s hdr false (ts.map fun t => (t, c))
  | .consume c => settleTraps s hdr false [] (ts.map fun t => (t, c)) []
  | .kill k a => settleTraps s hdr false [] [] (ts.map fun t => (t, { code := k, addr := a }))
  | _ => s

/-- Each miss counts for every warp with a thread in the entry, ready or stalled (R105). -/
def countSlips (s : State) (core : Nat) (e : PcEntry) (n : Nat) : State :=
  if n = 0 then s
  else
    let ts := (waitingThreads s core).filter fun t => pcEntry s t == e
    let hit := fun (w : Warp) => ts.any fun t => t.tid.core == w.core && t.tid.slot == w.slot
    { s with warps := updIf hit (fun w => { w with slip := w.slip + BitVec.ofNat 64 n }) s.warps }

/-- ICACHE_FILL: the line at an address, for the lowest thread of the core that stands in it (R105). -/
def execIcacheFill (core : Nat) (va : Word) (s : State) : Host.Outcome State Fault Refusal :=
  .next (match s.threads.find? fun t => t.tid.core == core && t.alive && t.pc.toNat / 64 == va.toNat / 64 with
    | none => s
    | some t => match getWg s t.wg with
      | none => s
      | some w => match fetchLine s w t (BitVec.ofNat 64 (va.toNat / 64 * 64)) with
        | (s, n, .line _) => countSlips s core (pcEntry s t) n
        | (s, _, .stop (.wait x)) => if t.run == .ready then waitFor s t.tid x else s
        | _ => s)

/-- The prefetch of a clause header (R105): what cannot be had at once is dropped, and no thread sees it. -/
def prefetchCode (s : State) (w : Workgroup) (t : Thread) (va : Word) : State :=
  match fetchLine s w t va with
  | (s', _, .line _) => { s' with threads := s.threads }
  | _ => s

/-- A thread of lower privilege than the one that fetched is checked for itself. -/
def mayFetch (s : State) (hdr : Word) (n : Nat) (t : Thread) : Bool :=
  (List.range (n * 8 / 4096 + 2)).all fun i =>
    let va := if i = 0 then hdr else if i = n * 8 / 4096 + 1 then hdr + BitVec.ofNat 64 (8 * n) else hdr + BitVec.ofNat 64 (4096 * i)
    match (translate s t.tid.core (threadPasid s t) va.toNat { r := false, w := false, x := true, pl := t.pl }).2 with
    | .denied => false
    | _ => true

/-- A thread takes its place in a group at word address `pc` of the clause at `hdr`. -/
def enterGroup (hdr pc : Word) (legacy : Bool) (m : BitVec 8) (x : Thread) : Thread :=
  let y := { x with hdr := some hdr, pc := pc, legacy := legacy, resumed := false, since := if x.hdr.isNone then none else x.since }
  if m.getLsbD 3 && (x.hdr.isNone || x.resumed) then joinAll y else y

/-- Forms a group for an entry, or shows each of its threads why it cannot issue. -/
def formGroup (s : State) (core : Nat) (e : PcEntry) : State :=
  let ts := (freeThreads s core).filter fun t => pcEntry s t == e
  let hdr := e.hdr.getD e.pc
  match minBy (fun (t : Thread) => 3 - t.pl) ts with
  | none => s
  | some t0 =>
    match getWg s t0.wg with
    | none => s
    | some w =>
      let (a, c) := fetchClause s w t0 hdr
      let s := countSlips a.s core e a.miss
      match c with
      | .stop r => fetchStop s hdr (ts.map (·.tid)) r
      | .bad => fetchStop s hdr (ts.map (·.tid)) (.trap { code := 0x02 })
      | .clause c =>
        let start := if c.legacy then hdr else hdr + 8
        let pc := if e.hdr.isSome then e.pc else start
        let k := (pc - start).toNat / 8
        let words := c.words.drop k
        let n := c.words.length + 1
        let out := ts.filter fun t => decide (t.pl < t0.pl) && !mayFetch s hdr n t
        let s := fetchStop s hdr (out.map (·.tid)) (.trap { code := 0x42, addr := hdr })
        let ts := ts.filter fun t => !(out.any fun x => x.tid == t.tid)
        if words.isEmpty then fetchStop s hdr (ts.map (·.tid)) (.trap { code := 0x02 })
        else
          let tested := fun (t : Thread) => t.hdr.isNone || t.resumed
          let late := ts.filter fun t => tested t && !waitsHold s t c.wait
          let s := late.foldl (fun s t => waitFor s t.tid .clause) s
          let go := joinWarps (ts.filter fun t => !(late.any fun x => x.tid == t.tid))
          if go.isEmpty then s
          else
            let s := dropReads (if e.hdr.isNone && c.pf != 0 then prefetchCode s w t0 (hdr + BitVec.ofNat 64 (64 * c.pf)) else s) (.code t0.tid)
            let s := go.foldl (fun s t => modT s t.tid (enterGroup hdr pc c.legacy c.wait)) s
            let g : Group := ⟨core, sortBy (fun (t : Tid) => t.lane) (go.map (·.tid)), e.depth, hdr, c.cls, c.yield, c.legacy, words, pc, pc, none, none, none, 0⟩
            { s with groups := s.groups ++ [g] }

/-! ## The arbiter (R103) -/

/-- What can issue on a core: a group in its clause, or an entry that a group can form for. -/
inductive Cand where
  | group (g : Group)
  | entry (e : PcEntry)
  deriving DecidableEq

/-- The threads whose group issued to the vector pipes in this cycle: the cycle's second word is another group's. -/
def turnTids (s : State) (core : Nat) : List Tid := (getCore s core).turn.getD []

/-- The cycle has had its vector word. -/
def halfDone (s : State) (core : Nat) : Bool := (getCore s core).turn.isSome

def candThreads (s : State) (core : Nat) : Cand → List Thread
  | .group g => g.tids.filterMap (getT s)
  | .entry e => (freeThreads s core).filter fun t => pcEntry s t == e

/-- R103's order as one list of keys, the least first: class, long wait, depth, code address, warp slot. -/
def candKeys (s : State) (core : Nat) (c : Cand) : List Nat :=
  let ts := candThreads s core c
  let cls := ts.foldl (fun a t => Nat.max a (threadClass s t.tid)) 0
  let old := ts.any fun t => decide (t.able + 4096 < s.now)
  let depth := (ts.head?.map (·.depth)).getD 0
  let pc := match c with
    | .group g => g.pc.toNat
    | .entry e => e.pc.toNat
  let slot := ts.foldl (fun a t => Nat.min a t.tid.slot) (2 ^ 32)
  [2 ^ 16 - cls, if old then 0 else 1, 2 ^ 16 - depth, pc, slot]

def listLt : List Nat → List Nat → Bool
  | x :: a, y :: b => decide (x < y) || (x == y && listLt a b)
  | _, _ => false

def bestCand (s : State) (core : Nat) (l : List Cand) : Option Cand :=
  (l.map fun c => (c, candKeys s core c)).foldl (fun m x => match m with
    | none => some x
    | some y => if listLt x.2 y.2 then some x else some y) none |>.map (·.1)

/-- The entry gives the issue slot away for this cycle (R259, R305). -/
def skipped (s : State) (core : Nat) (pc : Word) (depth : Nat) : Bool :=
  (getCore s core).skip.any fun x => x.1 == pc && x.2.1 == depth && decide (s.now < x.2.2)

/-- The candidates of a core in this half of the cycle. -/
def cands (s : State) (core : Nat) : List Cand :=
  let gone := turnTids s core
  (((s.groups.filter fun g => g.core == core && !skipped s core g.pc g.depth).map Cand.group)
    ++ ((entriesOf s core).filter fun e => !skipped s core e.pc e.depth).map Cand.entry).filter fun c => !((candThreads s core c).any fun t => gone.contains t.tid)

/-- The group that a candidate is, or forms. -/
def groupOfCand (s : State) (core : Nat) (c : Cand) : State × Option Group :=
  match c with
  | .group g => (s, some g)
  | .entry e =>
    let t := formGroup s core e
    (t, if s.groups.length < t.groups.length then t.groups.getLast? else none)

def isDpfxWord (legacy : Bool) (w : Word) : Bool := fOp (if legacy then f2Word w else w) == 0xCA

/-- The word of a group goes to the vector pipes: ALU words do, and a DPFX goes with the word that it governs (R103, R263, R410). -/
def vectorWord (g : Group) : Bool :=
  let x := if isDpfxWord g.legacy (g.words.headD 0) then g.words.tail.headD 0 else g.words.headD 0
  isAluOp (fOp (if g.legacy then f2Word x else x))

/-- How a candidate stands to the two slots: a word for the vector pipes, one for the other slot, or none, where its fetch stops or waits. -/
def candSlot (s : State) (core : Nat) (c : Cand) : Option Bool := (groupOfCand s core c).2.map vectorWord

/-- The candidate that issues next, and whether the other slot of the cycle is still to be served: a word whose DPFX has issued, a fetch that does not give a word, the best word for the vector pipes, the best for the other slot (R103). -/
def arbitrate (s : State) (core : Nat) : Option (Cand × Bool) :=
  let cs := (cands s core).map fun c => (c, candSlot s core c)
  let only := fun (p : Cand × Option Bool → Bool) => (cs.filter p).map (·.1)
  let half := halfDone s core
  let more := fun (c : Cand) => !half && candSlot s core c == some true && cs.any fun x => x.1 != c && x.2 == some false
  let led := only fun x => match x.1 with
    | .group g => g.dual.isSome
    | _ => false
  let first := fun (l : List (List Cand)) => (l.findSome? fun l => bestCand s core l).map fun c => (c, more c)
  if half then first [led, only fun x => x.2 == some false] else first [led, only fun x => x.2.isNone, only fun x => x.2 == some true, only fun x => x.2 == some false]

/-! ## One word -/

/-- What a word takes beside itself: its literal and, for a COPYM, its follow-on (R269, R370). -/
structure Parts where
  ins : Except Nat Instr
  lit : Option Word
  follow : Option Instr
  span : Nat

def plainWord (legacy : Bool) (w : Word) : Word := if legacy then f2Word w else w

def partsOf (legacy : Bool) (cls : Nat) (w : Word) (rest : List Word) : Parts :=
  let x := plainWord legacy w
  let lit := if namesLit x && !(legacy && f2Illegal (f2Op w)) then rest.head? else none
  let more := if lit.isSome then rest.tail else rest
  let fol := if fOp x == 0xA1 && !(legacy && f2Illegal (f2Op w)) then more.head? else none
  { ins := if legacy then decodeLegacy cls w rest else decodeInClause cls w rest
    lit := lit
    follow := fol.bind fun y => (decodeWord (plainWord legacy y) []).toOption
    span := 8 + (if lit.isSome then 8 else 0) + (if fol.isSome then 8 else 0) }

/-- The guard of a word that raises a decode cause (R274); a pair word has none. -/
def wordGuard (w : Word) : Guard := if 0xF0 ≤ fOp w then ⟨false, 7⟩ else pgOf w

/-- The privilege level a word needs, read from its opcode and mod alone (R413, R415, R417 to R423). -/
def privNeed (w : Word) : Nat :=
  match fOp w with
  | 0xD0 => if 0x20 ≤ (fMod w).toNat % 256 ∧ (fMod w).toNat % 256 ≤ 0x26 then 1 else 0
  | 0xD1 => if 0x20 ≤ (fMod w).toNat % 256 ∧ (fMod w).toNat % 256 ≤ 0x26 then 1 else 0
  | 0xD2 => 1
  | 0xD4 => if 0x10 ≤ (fMod w).toNat % 256 then 2 else 1
  | 0xD5 => 1
  | 0xD6 => if (fMod w).toNat % 4 = 2 ∨ fSb w ≠ unusedSrc then 2 else 1
  | 0xD7 => 2
  | 0xD9 => 2
  | 0xDA => 2
  | _ => 0

/-- A decode cause in every lane that passes the guard (R243); PRIVILEGE wins over a higher one (R8). -/
def decodeTrap (s : State) (w : Word) (c : Nat) : State :=
  perLane s (wordGuard w) fun s _ t => (s, .trap { code := if 5 < c ∧ t.pl < privNeed w then 5 else c })

/-- Threads that must trap before the word: a poisoned slot was read (R390), or the reed was held too long (R395). -/
def beforeWord (s : State) : State :=
  let ts := s.cur.tids.filterMap (getT s)
  let pois := ts.filter (·.mpoison)
  let reed := ts.filter fun t => t.reedDue && !t.trap.inh && !t.mpoison
  if pois.isEmpty && reed.isEmpty then s
  else
    let clr := { s with threads := updIf (fun t => s.cur.tids.contains t.tid) (fun t => { t with mpoison := false, reedDue := t.reedDue && t.trap.inh }) s.threads }
    settleTraps clr (trapPc s.cur) s.cur.legacy (reed.map fun t => (t.tid, { code := 0x94 })) (pois.map fun t => (t.tid, { code := 0x50 })) []

/-- The threads of the group that stand at its word and can issue it; one whose synchronising access a peer has not answered goes no further (R207). -/
def standing (s : State) (g : Group) : List Tid :=
  let at_ := if g.dual.isSome then g.dualPc else g.pc
  g.tids.filter fun t => (getT s t).any fun x => x.run == .ready && x.pc == at_ && x.hdr == some g.hdr && x.depth == g.depth
    && ((getWg s x.wg).any fun w => !w.rollbackDue)

/-- Threads that a synchronising access still holds wait (R207). -/
def holdSync (s : State) (ts : List Tid) : State := ts.foldl (fun s t => if awaits s t then waitFor s t .release else s) s

/-- The threads that pass the guard of the word claim what it touches (R85, R156). -/
def enterClaims (s : State) (w : Word) (ins : Except Nat Instr) : State :=
  match ins with
  | .error _ => s
  | .ok i => claimAll s ((s.cur.tids.filterMap (getT s)).filter fun t => t.run == .ready && passes t (wordGuard w)) i

/-- Takes group `g` out of the list and makes it the current one, at its word. -/
def enterWord (s : State) (g : Group) : State × Except Nat Instr :=
  let p := partsOf g.legacy g.cls (g.words.headD 0) g.words.tail
  let x := plainWord g.legacy (g.words.headD 0)
  let cur := { g with next := g.pc + BitVec.ofNat 64 p.span, lit := p.lit, follow := p.follow }
  let s := { s with groups := s.groups.erase g, cur := cur }
  let s := holdSync s (standing s s.cur)
  let s := { s with cur := { s.cur with tids := standing s s.cur } }
  let s := enterClaims s x p.ins
  let s := { s with cur := { s.cur with tids := standing s s.cur } }
  let s := beforeWord s
  ({ s with cur := { s.cur with tids := standing s s.cur } }, p.ins)

/-- The group goes on to its next word with the threads that retired this one, or the clause has ended: a workgroup that was to freeze there freezes (R85), and a yield hint gives the slot away (R259). -/
def leaveWord (s : State) (g : Group) (dpfx : Bool) : State :=
  let c := s.cur
  let rest := c.words.drop (curSpan c / 8)
  let go := fun (s : State) (n : Group) =>
    let n := { n with tids := standing s n }
    if n.tids.isEmpty then s else { s with groups := s.groups ++ [n] }
  if dpfx && c.dual.isSome && !rest.isEmpty then go s { c with words := rest, pc := c.next }
  else if rest.isEmpty then
    let s := settleFrozen s g.core
    if g.yield then (g.tids.filterMap (getT s)).foldl (fun s t => if t.alive then yieldAt s g.core t.pc t.depth else s) s else s
  else settleFrozen (go s { c with words := rest, pc := c.next, dual := none }) g.core

/-- After a word: a DPFX passes no time, and the cycle is over unless its second word is still to come (R103). -/
def endSlot (s : State) (core : Nat) (more : Bool) (g : Group) (dpfx : Bool) : State × Nat :=
  if dpfx && s.groups.any fun x => x.core == core && x.dual.isSome then (s, 0)
  else if more then (modCore s core fun c => { c with turn := some g.tids }, 0)
  else (modCore s core fun c => { c with turn := none }, 1)

end Sys2Proof.Machine
end

