-- ==== Sys2Proof/Machine/Dispatch.lean ====
section
/-! DEFINITION. exec: the meaning of each instruction and step, one arm for each constructor of Instr. -/

namespace Sys2Proof.Machine

def exec (i : Instr) (s : State) : Host.Outcome State Fault Refusal :=
  match i with
  | .nop pg => Sys2Proof.Machine.execNop pg s
  | .mov o w64 => Sys2Proof.Machine.execMov o w64 s
  | .iadd o w64 u sat => Sys2Proof.Machine.execIadd o w64 u sat s
  | .isub o w64 u sat => Sys2Proof.Machine.execIsub o w64 u sat s
  | .iaddc o n w64 => Sys2Proof.Machine.execIaddc o n w64 s
  | .isubb o n w64 => Sys2Proof.Machine.execIsubb o n w64 s
  | .ineg o w64 sat => Sys2Proof.Machine.execIneg o w64 sat s
  | .iabs o w64 sat => Sys2Proof.Machine.execIabs o w64 sat s
  | .imul o w64 => Sys2Proof.Machine.execImul o w64 s
  | .imulhi o w64 u => Sys2Proof.Machine.execImulhi o w64 u s
  | .imad o w64 => Sys2Proof.Machine.execImad o w64 s
  | .idiv o w64 u => Sys2Proof.Machine.execIdiv o w64 u s
  | .irem o w64 u => Sys2Proof.Machine.execIrem o w64 u s
  | .imin o w64 u => Sys2Proof.Machine.execImin o w64 u s
  | .imax o w64 u => Sys2Proof.Machine.execImax o w64 u s
  | .icmp o c w64 u => Sys2Proof.Machine.execIcmp o c w64 u s
  | .and o w64 => Sys2Proof.Machine.execAnd o w64 s
  | .or o w64 => Sys2Proof.Machine.execOr o w64 s
  | .xor o w64 => Sys2Proof.Machine.execXor o w64 s
  | .not o w64 => Sys2Proof.Machine.execNot o w64 s
  | .andn o w64 => Sys2Proof.Machine.execAndn o w64 s
  | .bool3 o t w64 => Sys2Proof.Machine.execBool3 o t w64 s
  | .shl o w64 => Sys2Proof.Machine.execShl o w64 s
  | .shr o w64 => Sys2Proof.Machine.execShr o w64 s
  | .shra o w64 => Sys2Proof.Machine.execShra o w64 s
  | .rotl o w64 => Sys2Proof.Machine.execRotl o w64 s
  | .funnel o l w64 => Sys2Proof.Machine.execFunnel o l w64 s
  | .bfe o w64 u => Sys2Proof.Machine.execBfe o w64 u s
  | .bfi o w64 => Sys2Proof.Machine.execBfi o w64 s
  | .popc o w64 => Sys2Proof.Machine.execPopc o w64 s
  | .clz o w64 => Sys2Proof.Machine.execClz o w64 s
  | .ctz o w64 => Sys2Proof.Machine.execCtz o w64 s
  | .brev o w64 => Sys2Proof.Machine.execBrev o w64 s
  | .bpick o => Sys2Proof.Machine.execBpick o s
  | .lea o k u => Sys2Proof.Machine.execLea o k u s
  | .sel o n neg w64 => Sys2Proof.Machine.execSel o n neg w64 s
  | .vadd2 o u sat => Sys2Proof.Machine.execVadd2 o u sat s
  | .vsub2 o u sat => Sys2Proof.Machine.execVsub2 o u sat s
  | .vmin2 o u => Sys2Proof.Machine.execVmin2 o u s
  | .vmax2 o u => Sys2Proof.Machine.execVmax2 o u s
  | .acsel2 o n => Sys2Proof.Machine.execAcsel2 o n s
  | .dot4 o u sat => Sys2Proof.Machine.execDot4 o u sat s
  | .dot2 o u sat => Sys2Proof.Machine.execDot2 o u sat s
  | .cvti o src dst du su sat => Sys2Proof.Machine.execCvti o src dst du su sat s
  | .fadd o m => Sys2Proof.Machine.execFadd o m s
  | .fsub o m => Sys2Proof.Machine.execFsub o m s
  | .fmul o m => Sys2Proof.Machine.execFmul o m s
  | .ffma o m => Sys2Proof.Machine.execFfma o m s
  | .fmin o m => Sys2Proof.Machine.execFmin o m s
  | .fmax o m => Sys2Proof.Machine.execFmax o m s
  | .fminp o m => Sys2Proof.Machine.execFminp o m s
  | .fmaxp o m => Sys2Proof.Machine.execFmaxp o m s
  | .fcmp o c m => Sys2Proof.Machine.execFcmp o c m s
  | .fclass o fmt => Sys2Proof.Machine.execFclass o fmt s
  | .fcopysgn o fmt => Sys2Proof.Machine.execFcopysgn o fmt s
  | .frnd o m => Sys2Proof.Machine.execFrnd o m s
  | .fdiv o m => Sys2Proof.Machine.execFdiv o m s
  | .fsqrt o m => Sys2Proof.Machine.execFsqrt o m s
  | .frcp o m => Sys2Proof.Machine.execFrcp o m s
  | .frsq o m => Sys2Proof.Machine.execFrsq o m s
  | .fexp2 o m => Sys2Proof.Machine.execFexp2 o m s
  | .flog2 o m => Sys2Proof.Machine.execFlog2 o m s
  | .fsinpi o m => Sys2Proof.Machine.execFsinpi o m s
  | .fcospi o m => Sys2Proof.Machine.execFcospi o m s
  | .ftanh o m => Sys2Proof.Machine.execFtanh o m s
  | .hadd2 o m => Sys2Proof.Machine.execHadd2 o m s
  | .hmul2 o m => Sys2Proof.Machine.execHmul2 o m s
  | .hfma2 o m => Sys2Proof.Machine.execHfma2 o m s
  | .hmin2 o m => Sys2Proof.Machine.execHmin2 o m s
  | .hmax2 o m => Sys2Proof.Machine.execHmax2 o m s
  | .hdot2 o m => Sys2Proof.Machine.execHdot2 o m s
  | .dadd o m => Sys2Proof.Machine.execDadd o m s
  | .dmul o m => Sys2Proof.Machine.execDmul o m s
  | .dfma o m => Sys2Proof.Machine.execDfma o m s
  | .fcvt o dst src rnd => Sys2Proof.Machine.execFcvt o dst src rnd s
  | .f2i o src rnd d64 du => Sys2Proof.Machine.execF2i o src rnd d64 du s
  | .i2f o dst rnd s64 su => Sys2Proof.Machine.execI2f o dst rnd s64 su s
  | .cvtq o desc => Sys2Proof.Machine.execCvtq o desc s
  | .cvtdq o desc => Sys2Proof.Machine.execCvtdq o desc s
  | .amax o fmt lanes => Sys2Proof.Machine.execAmax o fmt lanes s
  | .lanex o mode off w64 => Sys2Proof.Machine.execLanex o mode off w64 s
  | .bcastl o b w64 => Sys2Proof.Machine.execBcastl o b w64 s
  | .pcensus pg c n neg => Sys2Proof.Machine.execPcensus pg c n neg s
  | .matchL o f w64 => Sys2Proof.Machine.execMatchL o f w64 s
  | .redls o op rnd u w64 => Sys2Proof.Machine.execRedls o op rnd u w64 s
  | .redidx o max f u => Sys2Proof.Machine.execRedidx o max f u s
  | .scan o op rnd u excl w64 => Sys2Proof.Machine.execScan o op rnd u excl w64 s
  | .pbool3 pg pd pa pb pc t => Sys2Proof.Machine.execPbool3 pg pd pa pb pc t s
  | .ptov o n c w64 => Sys2Proof.Machine.execPtov o n c w64 s
  | .vtop o c w64 => Sys2Proof.Machine.execVtop o c w64 s
  | .actmask pg d => Sys2Proof.Machine.execActmask pg d s
  | .bra pg mode a off => Sys2Proof.Machine.execBra pg mode a off s
  | .brx pg tab a off => Sys2Proof.Machine.execBrx pg tab a off s
  | .call pg off => Sys2Proof.Machine.execCall pg off s
  | .callx pg tab a off => Sys2Proof.Machine.execCallx pg tab a off s
  | .ret pg => Sys2Proof.Machine.execRet pg s
  | .retn pg n => Sys2Proof.Machine.execRetn pg n s
  | .exit pg => Sys2Proof.Machine.execExit pg s
  | .yield pg => Sys2Proof.Machine.execYield pg s
  | .sleep pg a => Sys2Proof.Machine.execSleep pg a s
  | .bkpt pg => Sys2Proof.Machine.execBkpt pg s
  | .trap pg imm => Sys2Proof.Machine.execTrap pg imm s
  | .ld m => Sys2Proof.Machine.execLd m s
  | .st m => Sys2Proof.Machine.execSt m s
  | .lds m => Sys2Proof.Machine.execLds m s
  | .sts m => Sys2Proof.Machine.execSts m s
  | .ldcl m => Sys2Proof.Machine.execLdcl m s
  | .stcl m => Sys2Proof.Machine.execStcl m s
  | .ldbd m => Sys2Proof.Machine.execLdbd m s
  | .stbd m => Sys2Proof.Machine.execStbd m s
  | .pref pg base cp off => Sys2Proof.Machine.execPref pg base cp off s
  | .cinval pg base off => Sys2Proof.Machine.execCinval pg base off s
  | .smap pg a b c => Sys2Proof.Machine.execSmap pg a b c s
  | .sunmap pg a => Sys2Proof.Machine.execSunmap pg a s
  | .swb pg a => Sys2Proof.Machine.execSwb pg a s
  | .atom t => Sys2Proof.Machine.execAtom t s
  | .atomcas t => Sys2Proof.Machine.execAtomcas t s
  | .red t => Sys2Proof.Machine.execRed t s
  | .atoms t => Sys2Proof.Machine.execAtoms t s
  | .fence pg ord scope => Sys2Proof.Machine.execFence pg ord scope s
  | .bar pg => Sys2Proof.Machine.execBar pg s
  | .barp o op rnd u w64 => Sys2Proof.Machine.execBarp o op rnd u w64 s
  | .gbar pg => Sys2Proof.Machine.execGbar pg s
  | .ckpt pg => Sys2Proof.Machine.execCkpt pg s
  | .copy c => Sys2Proof.Machine.execCopy c s
  | .copym c => Sys2Proof.Machine.execCopym c s
  | .gather c => Sys2Proof.Machine.execGather c s
  | .scatter c => Sys2Proof.Machine.execScatter c s
  | .remq o ack => Sys2Proof.Machine.execRemq o ack s
  | .rqpop o nb => Sys2Proof.Machine.execRqpop o nb s
  | .xred o s2g ty aop scope => Sys2Proof.Machine.execXred o s2g ty aop scope s
  | .strm pg a cp dims sx ew q => Sys2Proof.Machine.execStrm pg a cp dims sx ew q s
  | .strmx pg q => Sys2Proof.Machine.execStrmx pg q s
  | .tchk pg pd a => Sys2Proof.Machine.execTchk pg pd a s
  | .tcfg pg a => Sys2Proof.Machine.execTcfg pg a s
  | .oclaim o nb => Sys2Proof.Machine.execOclaim o nb s
  | .orel pg a b => Sys2Proof.Machine.execOrel pg a b s
  | .mma o => Sys2Proof.Machine.execMma o s
  | .mmaz o => Sys2Proof.Machine.execMmaz o s
  | .mxt pg d a c => Sys2Proof.Machine.execMxt pg d a c s
  | .mperm o => Sys2Proof.Machine.execMperm o s
  | .mrred pg d a c => Sys2Proof.Machine.execMrred pg d a c s
  | .accld o => Sys2Proof.Machine.execAccld o s
  | .accst o => Sys2Proof.Machine.execAccst o s
  | .accz o => Sys2Proof.Machine.execAccz o s
  | .mtake pg => Sys2Proof.Machine.execMtake pg s
  | .mpass pg => Sys2Proof.Machine.execMpass pg s
  | .mdrop pg => Sys2Proof.Machine.execMdrop pg s
  | .mstat pg d => Sys2Proof.Machine.execMstat pg d s
  | .spawn pg nb code args => Sys2Proof.Machine.execSpawn pg nb code args s
  | .spawnw pg nb k args => Sys2Proof.Machine.execSpawnw pg nb k args s
  | .spawnr pg nb k lo hi chunk => Sys2Proof.Machine.execSpawnr pg nb k lo hi chunk s
  | .tget pg d => Sys2Proof.Machine.execTget pg d s
  | .launch pg rec => Sys2Proof.Machine.execLaunch pg rec s
  | .bwupd pg w op die a => Sys2Proof.Machine.execBwupd pg w op die a s
  | .bwrd pg d w n => Sys2Proof.Machine.execBwrd pg d w n s
  | .cwait o => Sys2Proof.Machine.execCwait o s
  | .cnotify pg all a => Sys2Proof.Machine.execCnotify pg all a s
  | .cheld o => Sys2Proof.Machine.execCheld o s
  | .dpfx mask => Sys2Proof.Machine.execDpfx mask s
  | .tmov o js jd w64 => Sys2Proof.Machine.execTmov o js jd w64 s
  | .getsr pg d n => Sys2Proof.Machine.execGetsr pg d n s
  | .setsr pg n a => Sys2Proof.Machine.execSetsr pg n a s
  | .eret pg => Sys2Proof.Machine.execEret pg s
  | .fwcall o svc => Sys2Proof.Machine.execFwcall o svc s
  | .moncall o svc => Sys2Proof.Machine.execMoncall o svc s
  | .icinv pg range => Sys2Proof.Machine.execIcinv pg range s
  | .tlbinv pg form a b => Sys2Proof.Machine.execTlbinv pg form a b s
  | .fcxl pg a b => Sys2Proof.Machine.execFcxl pg a b s
  | .finj pg a => Sys2Proof.Machine.execFinj pg a s
  | .halt pg => Sys2Proof.Machine.execHalt pg s
  | .cctl pg d a b => Sys2Proof.Machine.execCctl pg d a b s
  | .pairWord h0 h1 => Sys2Proof.Machine.execPairWord h0 h1 s
  | .fill id => Sys2Proof.Machine.execFill id s
  | .storeAcknowledge id => Sys2Proof.Machine.execStoreAcknowledge id s
  | .tableWalk core pasid va write => Sys2Proof.Machine.execTableWalk core pasid va write s
  | .engineOperationComplete id => Sys2Proof.Machine.execEngineOperationComplete id s
  | .engineHandleRecheck id => Sys2Proof.Machine.execEngineHandleRecheck id s
  | .streamElementDelivery id => Sys2Proof.Machine.execStreamElementDelivery id s
  | .monitorGrant pasid colour => Sys2Proof.Machine.execMonitorGrant pasid colour s
  | .colourRequestRetry t => Sys2Proof.Machine.execColourRequestRetry t s
  | .colourWaitTimeout t => Sys2Proof.Machine.execColourWaitTimeout t s
  | .cwaitTimeout t => Sys2Proof.Machine.execCwaitTimeout t s
  | .watchdog t => Sys2Proof.Machine.execWatchdog t s
  | .sleepExpiry t => Sys2Proof.Machine.execSleepExpiry t s
  | .spawnOverflow t => Sys2Proof.Machine.execSpawnOverflow t s
  | .binTimeout core bin => Sys2Proof.Machine.execBinTimeout core bin s
  | .segmentSaveComplete core seg => Sys2Proof.Machine.execSegmentSaveComplete core seg s
  | .segmentRestore core seg wg => Sys2Proof.Machine.execSegmentRestore core seg wg s
  | .budgetExhausted pasid rcb => Sys2Proof.Machine.execBudgetExhausted pasid rcb s
  | .dependencyWatcherPrompt die addr => Sys2Proof.Machine.execDependencyWatcherPrompt die addr s
  | .icacheFill core va => Sys2Proof.Machine.execIcacheFill core va s
  | .sideLogReplay core t => Sys2Proof.Machine.execSideLogReplay core t s
  | .fsvcbRetry link pasid => Sys2Proof.Machine.execFsvcbRetry link pasid s
  | .fsvcbCancelPage link pasid => Sys2Proof.Machine.execFsvcbCancelPage link pasid s
  | .fsvcbCancelPasid link pasid => Sys2Proof.Machine.execFsvcbCancelPasid link pasid s
  | .priResponse link pasid page success => Sys2Proof.Machine.execPriResponse link pasid page success s
  | .atsCompletion link id result => Sys2Proof.Machine.execAtsCompletion link id result s
  | .atsCompletionTimeout link id => Sys2Proof.Machine.execAtsCompletionTimeout link id s
  | .doorbell q value offset => Sys2Proof.Machine.execDoorbell q value offset s
  | .qctlReset w => Sys2Proof.Machine.execQctlReset w s
  | .qctlEnableSet q => Sys2Proof.Machine.execQctlEnableSet q s
  | .qctlEnableClear q => Sys2Proof.Machine.execQctlEnableClear q s
  | .nopPacket q seq => Sys2Proof.Machine.execNopPacket q seq s
  | .launchPacket q seq => Sys2Proof.Machine.execLaunchPacket q seq s
  | .dmaPacket q seq => Sys2Proof.Machine.execDmaPacket q seq s
  | .dmaComplete q seq => Sys2Proof.Machine.execDmaComplete q seq s
  | .waitvPacket q seq => Sys2Proof.Machine.execWaitvPacket q seq s
  | .waitvPoll q seq => Sys2Proof.Machine.execWaitvPoll q seq s
  | .waitvTimeout q seq => Sys2Proof.Machine.execWaitvTimeout q seq s
  | .signalPacket q seq => Sys2Proof.Machine.execSignalPacket q seq s
  | .regionPacket q seq => Sys2Proof.Machine.execRegionPacket q seq s
  | .regionCommit q seq => Sys2Proof.Machine.execRegionCommit q seq s
  | .fencePacket q seq => Sys2Proof.Machine.execFencePacket q seq s
  | .timestampPacket q seq => Sys2Proof.Machine.execTimestampPacket q seq s
  | .pstopGo link pasid => Sys2Proof.Machine.execPstopGo link pasid s
  | .fwcommit w => Sys2Proof.Machine.execFwcommit w s
  | .firmwareUpdateRequest image => Sys2Proof.Machine.execFirmwareUpdateRequest image s
  | .monitorPatchRequest image => Sys2Proof.Machine.execMonitorPatchRequest image s
  | .patchConfirmation build sigEd sigMl => Sys2Proof.Machine.execPatchConfirmation build sigEd sigMl s
  | .spdmRequest link request => Sys2Proof.Machine.execSpdmRequest link request s
  | .vlctlRetrain port value => Sys2Proof.Machine.execVlctlRetrain port value s
  | .vlctlDisable port value => Sys2Proof.Machine.execVlctlDisable port value s
  | .registerWrite r value => Sys2Proof.Machine.execRegisterWrite r value s
  | .powerGood steps stackFail bridgeFail => Sys2Proof.Machine.execPowerGood steps stackFail bridgeFail s
  | .equaliseRound port good => Sys2Proof.Machine.execEqualiseRound port good s
  | .slots port counts => Sys2Proof.Machine.execSlots port counts s
  | .identity port partner ed ml => Sys2Proof.Machine.execIdentity port partner ed ml s
  | .requestFlit port f => Sys2Proof.Machine.execRequestFlit port f s
  | .responseFlit port f => Sys2Proof.Machine.execResponseFlit port f s
  | .enqueueFlit port f => Sys2Proof.Machine.execEnqueueFlit port f s
  | .managementFlit port f => Sys2Proof.Machine.execManagementFlit port f s
  | .idleFlit port f => Sys2Proof.Machine.execIdleFlit port f s
  | .replayRequest port seq => Sys2Proof.Machine.execReplayRequest port seq s
  | .warmReset cause die lost stuck => Sys2Proof.Machine.execWarmReset cause die lost stuck s
  | .broadcastWordCopyUpdate id core => Sys2Proof.Machine.execBroadcastWordCopyUpdate id core s
  | .reservedOpcodeWord w legacy => Sys2Proof.Machine.execReservedOpcodeWord w legacy s
  | .unknownKindFlit port f => Sys2Proof.Machine.execUnknownKindFlit port f s
  | .atsInvalidationRequest link pasid page => Sys2Proof.Machine.execAtsInvalidationRequest link pasid page s
  | .pcieLinkUp => Sys2Proof.Machine.execPcieLinkUp s
  | .detect => Sys2Proof.Machine.execDetect s
  | .detectRepeat => Sys2Proof.Machine.execDetectRepeat s
  | .rateLock => Sys2Proof.Machine.execRateLock s
  | .rateTimeout => Sys2Proof.Machine.execRateTimeout s
  | .equaliseTimeout => Sys2Proof.Machine.execEqualiseTimeout s
  | .deskew => Sys2Proof.Machine.execDeskew s
  | .deskewTimeout => Sys2Proof.Machine.execDeskewTimeout s
  | .slotsTimeout => Sys2Proof.Machine.execSlotsTimeout s
  | .identityTimeout => Sys2Proof.Machine.execIdentityTimeout s
  | .quarantineNoticeSend => Sys2Proof.Machine.execQuarantineNoticeSend s
  | .quarantineNotice => Sys2Proof.Machine.execQuarantineNotice s
  | .remqPayloadLanding => Sys2Proof.Machine.execRemqPayloadLanding s
  | .replayLimit => Sys2Proof.Machine.execReplayLimit s
  | .linkLoss => Sys2Proof.Machine.execLinkLoss s
  | .pcieLinkDown => Sys2Proof.Machine.execPcieLinkDown s
  | .haltWake => Sys2Proof.Machine.execHaltWake s
  | .spillRetry => Sys2Proof.Machine.execSpillRetry s
  | .dequeEntryStart => Sys2Proof.Machine.execDequeEntryStart s
  | .stealRequest => Sys2Proof.Machine.execStealRequest s
  | .stealResponse => Sys2Proof.Machine.execStealResponse s
  | .stealBackoffExpiry => Sys2Proof.Machine.execStealBackoffExpiry s
  | .gangPlacement => Sys2Proof.Machine.execGangPlacement s
  | .frozenGangResume => Sys2Proof.Machine.execFrozenGangResume s
  | .heatSweep => Sys2Proof.Machine.execHeatSweep s
  | .fetcherTurn => Sys2Proof.Machine.execFetcherTurn s
  | .fwcallAnswer => Sys2Proof.Machine.execFwcallAnswer s
  | .moncallAnswer => Sys2Proof.Machine.execMoncallAnswer s
  | .gangRetire => Sys2Proof.Machine.execGangRetire s
  | .dependencyRetest => Sys2Proof.Machine.execDependencyRetest s
  | .reedHoldTimeout => Sys2Proof.Machine.execReedHoldTimeout s
  | .budgetWindowBoundary => Sys2Proof.Machine.execBudgetWindowBoundary s
  | .quiescentPoint => Sys2Proof.Machine.execQuiescentPoint s
  | .quiescentTimeout => Sys2Proof.Machine.execQuiescentTimeout s
  | .trialWatchdog => Sys2Proof.Machine.execTrialWatchdog s
  | .clockStepDown => Sys2Proof.Machine.execClockStepDown s
  | .clockStepUp => Sys2Proof.Machine.execClockStepUp s
  | .warmResetWritebackDeadline => Sys2Proof.Machine.execWarmResetWritebackDeadline s
  | .warmResetComplete => Sys2Proof.Machine.execWarmResetComplete s
  | .powerRemoved => Sys2Proof.Machine.execPowerRemoved s

end Sys2Proof.Machine
end

