-- ==== Sys2Proof/Machine/Run.lean ====
section
/-! DEFINITION. One step of the machine: the issue of one word by a core, the turns of the other agents, the passing of time, and what happens when the agenda does not say (assumption log 11). -/

namespace Sys2Proof.Machine

/-! ## What follows every step -/

/-- Barriers whose last participant has come, launches that have ended, teardowns that have finished, records whose address has become known. -/
def settle (s : State) : State := flushRecords (settleTeardowns (settleLaunches (barAll s)))

/-- `n` arithmetic cycles pass (R56, R71, R412). -/
def passTime (s : State) (n : Nat) : State :=
  let dt := (s.now + n) * 1000 / s.clkMhz - s.now * 1000 / s.clkMhz
  chargeTime { s with now := s.now + n, ns := s.ns + dt } dt

/-- The next state of an outcome, through `f`. -/
def thenState (o : Host.Outcome State Fault Refusal) (f : State → State) : Host.Outcome State Fault Refusal :=
  match o with
  | .next s => .next (f s)
  | .fault x => .fault x
  | .refused x => .refused x

/-! ## Issue -/

def isDpfx : Instr → Bool
  | .dpfx _ => true
  | _ => false

/-- The current group issues its word: the decoded instruction acts, and the group goes on. -/
def issueWord (s : State) (g : Group) : Host.Outcome State Fault Refusal :=
  let (s, ins) := enterWord s g
  if s.cur.tids.isEmpty then .next s
  else match ins with
  | .error c => .next (leaveWord (decodeTrap s (plainWord g.legacy (g.words.headD 0)) c) g false)
  | .ok i => thenState (exec i s) fun s => leaveWord s g (isDpfx i)

/-- The core's PC table as it stands now (R102). -/
def holdTable (s : State) (core : Nat) : State := modCore s core fun c => { c with pcs := pcTable s core }

/-- The cycle of a core is over without a second word. -/
def endCycle (s : State) (core : Nat) : State := settle (passTime (modCore s core fun c => { c with turn := none }) 1)

/-- What follows a word that has issued. -/
def afterWord (core : Nat) (more : Bool) (g : Group) (s : State) : State :=
  let e := endSlot s core more g (isDpfxWord g.legacy (g.words.headD 0))
  settle (passTime e.1 e.2)

/-- The next word of a core: at most two go in a cycle, of two groups, the one for the vector pipes first (R103, R170). -/
def issueOn (s0 : State) (core : Nat) : Host.Outcome State Fault Refusal :=
  let s := holdTable s0 core
  match arbitrate s core with
  | none => .next (if halfDone s core then endCycle s core else s)
  | some (c, more) =>
    match groupOfCand s core c with
    | (s, none) => .next (settle (passTime s 1))
    | (s, some g) => thenState (issueWord s g) (afterWord core more g)

/-! ## Items of the agenda -/

/-- A step of another agent; the cores' words are issued, never taken from the agenda, and a warm reset stops most agents (R150). -/
def runEvent (s : State) (i : Instr) (u : Nat) : Host.Outcome State Fault Refusal :=
  if !i.isEvent || (s.warm.began.isSome && !runsInReset i) then .next s
  else thenState (exec i { s with unit_ := u }) settle

/-- An uncorrectable error in a register of a core store is treated as SEV3 (R134); data as stored is a free value. -/
def regError (s : State) (t : Tid) (n : Nat) : State :=
  match getT s t with
  | none => s
  | some x =>
    let r := vReg x n
    if r.st != .full || !x.alive then s
    else match getWg s x.wg with
    | none => s
    | some w =>
      let pol := sevPolicy (wgNow s w).sev 3
      if pol = 3 then settleTraps s x.pc x.legacy [] [] [(t, { code := 0x53 })]
      else if pol = 2 then modT s t fun x => setV x n { r with st := .poison }
      else
        let (s, v) := if pol = 0 then freeValue s else (s, 0)
        modT s t fun x => { setV x n { r with val := v.setWidth 32 } with numerr := true }

/-- A bound chunk is written back early (R347). -/
def earlyWriteBack (s : State) (wg chunk : Nat) : State :=
  match getWg s wg, (wgThreads s wg).find? Thread.alive with
  | some w, some t => match bindingAt w (256 * chunk) with
    | some b => if w.segs.any (·.saved) then s else (writeBackChunk s wg t b chunk).1
    | none => s
  | _, _ => s

/-- Firmware or the monitor starts a thread on the reserved core of a die in service (R35): one warp of one lane, at code address `pc`, without a launch. What has ended there leaves. -/
def firmwareThread (s : State) (die pl pasid : Nat) (pc : Word) : State :=
  let core := 100 * die
  if !dieIn s die || !(pl == 2 || pl == 3) then s
  else
    let past := (s.wgs.filter fun w => w.core == core && !((wgThreads s w.id).any Thread.alive)).map (·.id)
    let s := { s with threads := s.threads.filter fun t => !past.contains t.wg, warps := s.warps.filter fun w => !past.contains w.wg, wgs := s.wgs.filter fun w => !past.contains w.id }
    let x : WgSpec := { gang := 0, launch := 0, pasid := pasid, region := 0, gen := pasidGen s pasid, rcb := Rcb.zero, index := 0, task := none, fromDeque := false,
                        vregs := 256, shadows := 0, scratch := 0, undo := 0, opUnits := 0, accs := 0, pooled := false, entry := pc, args := 0, uchk := false, ranged := false,
                        warps := [[⟨0, [], 0, []⟩]] }
    let r := formWg s x core .single 0 []
    { r.1 with threads := updIf (fun t => t.wg == r.2) (fun t => { t with pl := pl }) r.1.threads }

def runItem (s : State) (x : Item) : Host.Outcome State Fault Refusal :=
  match x with
  | .event i u => runEvent s i u
  | .issue core => if s.warm.began.isSome then .next s else issueOn s core
  | .advance n => .next (settle (passTime s n))
  | .hostWrite a d => .next (if isHostKey a then { syncClear s a d.length with mem := setCells (cellsAt a d) s.mem } else s)
  | .media b fd fm bad => .next (let k := getBlock s b; setBlock s b { k with flipD := fd, flipM := fm, badMac := bad })
  | .regEcc t n => .next (settle (regError s t n))
  | .evictL1 core b => .next { s with l1 := s.l1.filter fun x => !(x.core == core && x.block == b) }
  | .evictTlb n => .next { s with tlb := s.tlb.eraseIdx n }
  | .evictClb cl p c => .next { s with clb := s.clb.filter fun x => !(x.cluster == cl && x.pasid == p && x.colour == c) }
  | .evictIcache cl b => .next { s with icache := s.icache.filter fun x => !(x.cluster == cl && x.block == b) }
  | .writeBack w c => .next (settle (earlyWriteBack s w c))
  | .undoEcc w => .next (modWg s w fun w => { w with epoch := { w.epoch with bad := true } })
  | .evictDie b => .next { s with dirty := s.dirty.erase b }
  | .hostRead k bar off => .next (hostRead s k bar off)
  | .linkAck p n => .next (linkAck s p n)
  | .linkTake p => .next (linkTake s p)
  | .linkIdle p => .next (sendIdle s p)
  | .ltssm k st width gen => .next (ltssmTo s k st width gen)
  | .ideKey k i key => .next (setIde s k i key)
  | .tdisp k p on => .next (setTdisp s k p on)
  | .devCtl2 k n => .next (modLink s k fun l => { l with ctoNs := n })
  | .handoffByte off b => .next { s with fw := { s.fw with handoff := setCell off b s.fw.handoff } }
  | .firmwareThread die pl p pc => .next (if s.warm.began.isSome then s else firmwareThread s die pl p pc)

/-- The one item that acts on a module without power. -/
def restoresPower : Item → Bool
  | .event (.powerGood ..) _ => true
  | _ => false

/-! ## Turns when the agenda is empty (assumption log 11) -/

def packetSteps (q : Nat) (p : Packet) : List (Instr × Nat) :=
  [.nopPacket q p.seq, .launchPacket q p.seq, .dmaPacket q p.seq, .dmaComplete q p.seq, .waitvPacket q p.seq, .waitvPoll q p.seq,
   .waitvTimeout q p.seq, .signalPacket q p.seq, .regionPacket q p.seq, .regionCommit q p.seq, .fencePacket q p.seq,
   .timestampPacket q p.seq].map fun i => (i, 0)

def threadSteps (t : Thread) : List (Instr × Nat) :=
  match t.run with
  | .waiting w =>
    let l : List Instr := [.colourRequestRetry t.tid, .colourWaitTimeout t.tid, .cwaitTimeout t.tid, .sleepExpiry t.tid, .spawnOverflow t.tid]
    (l ++ if w.watched then [Instr.watchdog t.tid] else []).map fun i => (i, 0)
  | _ => []

def coreSteps (c : Nat × Core) : List (Instr × Nat) :=
  ((List.range c.2.bins.length).map fun i => (.binTimeout c.1 i, 0))
    ++ [(.remqPayloadLanding, c.1), (.spillRetry, c.1), (.dequeEntryStart, c.1)]

/-- A core whose die has queued work may steal. -/
def stealSteps (s : State) : List (Instr × Nat) :=
  s.cores.flatMap fun c => match c.2.steal with
    | .idle => if s.cores.any fun x => !x.2.deque.isEmpty || !x.2.rings.isEmpty || !x.2.ranges.isEmpty then [(.stealRequest, c.1)] else []
    | .asking _ => [(.stealRequest, c.1)]
    | .waiting .. => [(.stealResponse, c.1)]
    | .backoff _ => [(.stealBackoffExpiry, c.1)]

def wgSteps (w : Workgroup) : List (Instr × Nat) :=
  (w.segs.flatMap fun g => [(.segmentSaveComplete w.core g.index, 0), (.segmentRestore w.core g.index w.id, 0)]) ++ [(.reedHoldTimeout, w.id)]

/-- The steps that other agents could make now, in the order in which they are tried. -/
def agentSteps (s : State) : List (Instr × Nat) :=
  (s.loads.map fun l => (.fill l.id, 0)) ++ (s.stores.map fun x => (.storeAcknowledge x.id, 0))
    ++ (s.engines.flatMap fun e => [(.engineOperationComplete e.id, 0), (.engineHandleRecheck e.id, 0)])
    ++ (s.streams.map fun x => (.streamElementDelivery x.id, 0))
    ++ (s.monitors.map fun m => (.monitorGrant m.pasid m.colour.toNat, 0))
    ++ (s.sideLog.map fun e => (.sideLogReplay e.core e.tid, 0))
    ++ (s.bupdates.flatMap fun u => u.cores.map fun c => (.broadcastWordCopyUpdate u.id c, 0))
    ++ (s.services.map fun v => (if v.monitor then .moncallAnswer else .fwcallAnswer, v.id))
    ++ s.threads.flatMap threadSteps ++ s.wgs.flatMap wgSteps
    ++ (s.gangs.map fun g => (.gangRetire, g.id))
    ++ (s.queues.flatMap fun q => q.2.packets.flatMap (packetSteps q.1))
    ++ [(.fetcherTurn, 0), (.fetcherTurn, 1)]
    ++ (s.watchers.map fun w => (.dependencyWatcherPrompt w.1 (w.2.1 * 4096), 0)) ++ [(.dependencyRetest, 0)]
    ++ s.cores.flatMap coreSteps
    ++ ((List.range 16).flatMap fun d => [(.frozenGangResume, d), (.gangPlacement, d)])
    ++ (s.regions.map fun r => (.budgetExhausted r.pasid r.addr, 0)) ++ [(.budgetWindowBoundary, 0)]
    ++ ((List.range 16).map fun d => (.heatSweep, d))
    ++ [(.quiescentPoint, 0), (.quiescentTimeout, 0), (.trialWatchdog, 0)]
    ++ ((List.range 2).flatMap fun k => (getLink s k).atsReqs.map fun r => (.atsCompletionTimeout k r.id, 0))
    ++ stealSteps s

/-- The first of the steps that changes the machine. -/
def firstTurn (s : State) : List (Instr × Nat) → Option State
  | [] => none
  | (i, u) :: l =>
    match runEvent s i u with
    | .next t => if { t with unit_ := s.unit_ } = s then firstTurn s l else some t
    | _ => firstTurn s l

/-- The core whose turn it is: one whose cycle still has its second word, else the first after the one that issued last that has something to issue. -/
def nextCore (s : State) : Option Nat :=
  let cs := ((s.threads.filter fun t => t.run == .ready).map (·.tid.core)).eraseDups
  let able := cs.filter fun c => !(cands s c).isEmpty
  minBy (fun c => if halfDone s c then 0 else 1 + (c + 2048 - (s.cur.core + 1)) % 2048) able

/-- Cores and other agents take turns; when none can act, a cycle passes. -/
def defaultTurn (s : State) : Host.Outcome State Fault Refusal :=
  if s.warm.began.isSome then
    match firstTurn s [(.warmResetComplete, 0), (.warmResetWritebackDeadline, 0)] with
    | some t => .next t
    | none => .next (settle (passTime s 1))
  else
    let agents := fun (_ : Unit) => firstTurn s (agentSteps s)
    let idle := Host.Outcome.next (settle (passTime s 1))
    if s.now % 2 = 0 then
      match agents () with
      | some t => .next t
      | none => match nextCore s with
        | some c => issueOn s c
        | none => idle
    else match nextCore s with
      | some c => issueOn s c
      | none => match agents () with
        | some t => .next t
        | none => idle

end Sys2Proof.Machine
end

