-- ==== Sys2Proof/Machine/Step.lean ====
section
/-! DEFINITION. step: the next item of the agenda, or the turn of whoever acts next; and a state about to fetch a given word. -/

namespace Sys2Proof.Machine

/-- One step. A module without power does nothing until the agenda restores it (R27). -/
def step (s : State) : Host.Outcome State Fault Refusal :=
  match s.agenda with
  | [] => if s.powered then defaultTurn s else .fault .noPower
  | x :: r => if s.powered || restoresPower x then runItem { s with agenda := r } x else .fault .noPower

/-! ## A word about to issue (assumption log 10) -/

/-- Table pages, one per level 5 to 0, from 1 MiB on; the code page is at 2 MiB. -/
def fetchTable (level : Nat) : Nat := 0x100000 + 0x1000 * (5 - level)
def fetchPage : Nat := 0x200000

/-- The virtual address of the code page: at its entry 0 of every table. -/
def fetchVa : Nat := 0

/-- A pointer entry (R108). -/
def pointerEntry (pa : Nat) : List Byte := leBytes 16 (1 + pa / 4096 * 2 ^ 32)

/-- A leaf entry with V, L, R, W and X. -/
def leafEntry (pa : Nat) : List Byte := leBytes 16 (3 + 16 + 32 + 64 + pa / 4096 * 2 ^ 32)

/-- The clause: a header of the lowest class that admits the word, the word, and the words after it. -/
def fetchClauseBytes (w : Word) : List Byte :=
  let ws := w :: tableRest w
  leBytes 8 (headerCode ⟨ws.length, lowestClass (fOp w), 0, false, false, false, false, 0⟩).toNat ++ ws.flatMap fun x => leBytes 8 x.toNat

def State.withFetchWord (s : State) (nbits w : Nat) : State :=
  let x : Word := BitVec.ofNat 64 (w % 2 ^ nbits)
  let tables := [5, 4, 3, 2, 1].flatMap fun l => cellsAt (fetchTable l) (pointerEntry (fetchTable (l - 1)))
  let cells := tables ++ cellsAt (fetchTable 0) (leafEntry fetchPage) ++ cellsAt fetchPage (fetchClauseBytes x)
  let t : Tid := ⟨1, 0, 0⟩
  let wg := s.ids + 1
  let clk : List (Nat × Nat) := []
  let warp : Warp := { core := 1, slot := 0, wg := wg, index := 0, g := [], gsh := [], origin := [], uchk := false, slip := 0, linkbase := 0xFFFFFFF8, ranged := false }
  let group : Workgroup := {
    id := wg, gang := 0, launch := 0, pasid := 1, region := 0x1000, index := 0, core := 1, role := .single, mate := 0, state := .resident,
    task := none, fromDeque := false, nwarps := 1, vregs := 64, shadows := 4, scratch := 4096, undoMax := 0, opUnits := 0, accs := 0,
    pooled := false, rcb := Rcb.zero, segs := [⟨0, none, false, false, 0⟩, ⟨1, none, false, false, 0⟩], pad := [], padPoison := [], smap := [], chunks := [], bar := none, epoch := Epoch.empty,
    mx := ⟨none, 0, 0, [], [], [], ⟨none, 0, [], 0⟩⟩, gen := 0, placedAt := s.now, frozenAt := 0, frozenFor := 0, rollbackDue := false }
  { s with
    agenda := .issue 1 :: s.agenda
    ids := wg
    contexts := [⟨1, some (fetchTable 5), 0, 0, false, 0, []⟩]
    mem := setCells cells s.mem
    regions := [⟨1, 0x1000, Rcb.zero, true, none, 0, false⟩]
    wgs := [group]
    warps := [warp]
    threads := [newThread t wg 64 (BitVec.ofNat 64 fetchVa) ⟨0, [], 0, clk⟩ s.now] }

end Sys2Proof.Machine
end

