-- ==== Sys2Proof/Safety.lean ====
section
/-! DEFINITION. Safety: the terms in which the statements speak of a run: what holds of every state a run reaches, when a word is at issue,
when a lane of it is sound, and what a lane holds after it. -/

namespace Sys2Proof.Machine

/-! ## What every step keeps -/

/-- Memory is in its canonical form (assumption log 1). -/
def MemForm (s : State) : Prop := Memory.wf s.mem = true

/-! ## A word at issue -/

/-- Lane `tid` of the group at issue: its thread and its workgroup. -/
structure Lane (s : State) (tid : Tid) (x : Thread) (w : Workgroup) : Prop where
  member : tid ∈ s.cur.tids
  thread : getT s tid = some x
  ready : x.run = .ready
  group : getWg s x.wg = some w

/-- A word is at issue: the lanes of the current group are distinct, and each is a ready thread of a workgroup (R102). -/
structure Issuing (s : State) : Prop where
  distinct : s.cur.tids.Nodup
  lanes : ∀ tid ∈ s.cur.tids, ∃ x w, Lane s tid x w

/-- The current group is this one lane, which passes the word's guard. -/
structure Solo (s : State) (pg : Guard) (x : Thread) (w : Workgroup) : Prop where
  alone : s.cur.tids = [x.tid]
  thread : getT s x.tid = some x
  ready : x.run = .ready
  group : getWg s x.wg = some w
  passes : passes x pg = true

/-- A workgroup whose writes enter no undo log and whose effects wait in no compare buffer: no rollback, no redundancy (R139, R144). -/
structure Workgroup.Plain (w : Workgroup) : Prop where
  rollback : w.rcb.rollback = false
  redund : w.rcb.redund = 0
  single : w.role = .single

/-- The word's operands in one lane: every source can be read and the destination can be written (R158, R166, R167);
the word is not prefixed beyond the shadows (R410), and no injection is armed (R421). -/
structure Sound (s : State) (w : Workgroup) (x : Thread) (l : List SrcSpec) (d : Dst) (kd : Nat) : Prop where
  plain : w.Plain
  armed : x.armed = none
  dual : dualCause s w = []
  causes : (readSrcs s w x l []).causes = []
  full : (readSrcs s w x l []).wait = false
  dst : dstCheck w x d kd = ([], false)

/-- No operand of the word is POISON (R133). -/
def Clean (s : State) (w : Workgroup) (x : Thread) (l : List SrcSpec) : Prop := (readSrcs s w x l []).vals.any (·.poison) = false

/-! ## What a lane holds after a word -/

/-- Which word of a destination of `k` words register `n` of the v file (or the o file) takes. -/
def dstWord (d : Dst) (isO : Bool) (k n : Nat) : Option Nat :=
  match d, isO with
  | .v m, false => if m.toNat ≤ n ∧ n < m.toNat + k then some (n - m.toNat) else none
  | .o m, true => if m.toNat ≤ n ∧ n < m.toNat + k then some (n - m.toNat) else none
  | _, _ => none

/-- A register after a word: the result where it is the destination, else DEAD where a source field marked it, else as before (R168). -/
def regAfter (l : List SrcSpec) (d : Option Dst) (o : AluOut) (isO : Bool) (n : Nat) (old : Reg) : Reg :=
  match d.bind fun d => dstWord d isO o.words.length n with
  | some i => ⟨if o.bad.getD i false then .poison else .full, o.words.getD i 0, shOf o.sh i⟩
  | none => if (markedRegs l).contains (isO, n) then regDead else old

/-- A register after a word whose destination goes PENDING (R167, R168). -/
def regPending (l : List SrcSpec) (d : Dst) (kd : Nat) (isO : Bool) (n : Nat) (old : Reg) : Reg :=
  match dstWord d isO kd n with
  | some _ => ⟨.pending, 0, []⟩
  | none => if (markedRegs l).contains (isO, n) then regDead else old

/-- A predicate after a word: the last value the word writes to it, else as before (R161). -/
def predAfter (ps : List (Nat × Bool)) (n : Nat) (old : Bool) : Bool :=
  if n < 7 then ((ps.reverse.find? fun p => p.1 == n).map (·.2)).getD old else true

/-- What a word that only computes may change in its thread: registers, lr, predicates, queues, flags, rounding states, its clock with the tokens
it joins (R215), and its place. Everything else is as before: depth, privilege, links, held colours, trap state, error flags. -/
def Keeps (x y : Thread) : Prop :=
  y = { x with v := y.v, o := y.o, lr := y.lr, lrPoison := y.lrPoison, lrSh := y.lrSh, p := y.p, q := y.q, fstat := y.fstat, rng := y.rng,
               tanrng := y.tanrng, vc := y.vc, tokens := y.tokens, pc := y.pc, hdr := y.hdr, legacy := y.legacy, run := y.run, since := y.since,
               able := y.able, passed := y.passed, resumed := y.resumed }

/-- The thread stands past the word and is ready (R102). -/
structure PastWord (s : State) (y : Thread) : Prop where
  pc : y.pc = s.cur.next
  ready : y.run = .ready
  inside : y.hdr = if curLast s.cur then none else some s.cur.hdr

/-- A lane whose guard failed: it is past the word, and nothing else of it has changed (R156). -/
def Skipped (s : State) (x y : Thread) : Prop := y = advance s.cur s.now x

/-- A lane after an ALU word with result `o`: registers, lr, predicates, flags, queues and rounding states (R160, R161, R168, R282). -/
structure AluDone (s : State) (l : List SrcSpec) (pops : List Nat) (d : Option Dst) (o : AluOut) (x y : Thread) : Prop where
  past : PastWord s y
  keeps : Keeps x y
  vRegs : ∀ n, vReg y n = regAfter l d o false n (vReg x n)
  oRegs : ∀ n, oReg y n = regAfter l d o true n (oReg x n)
  lr : y.lr = if d.isSome then Word.pair (o.words.getD 0 0) (o.words.getD 1 0) else x.lr
  lrPoison : y.lrPoison = if d.isSome then o.bad.any id else x.lrPoison
  preds : ∀ n, n < 8 → predBit y n = predAfter o.preds n (predBit x n)
  q : ∀ n, kget [] n y.q = (kget [] n x.q).drop (pops.count n)
  fstat : y.fstat = x.fstat ||| o.flags
  rng : y.rng = o.rng.getD x.rng
  tanrng : y.tanrng = o.tanrng.getD x.tanrng

/-- A lane after a word whose result comes later: the destination PENDING, lr untouched (R160, R167). -/
structure LateDone (s : State) (l : List SrcSpec) (pops : List Nat) (d : Dst) (kd : Nat) (o : AluOut) (x y : Thread) : Prop where
  past : PastWord s y
  keeps : Keeps x y
  vRegs : ∀ n, vReg y n = regPending l d kd false n (vReg x n)
  oRegs : ∀ n, oReg y n = regPending l d kd true n (oReg x n)
  lr : y.lr = x.lr
  lrPoison : y.lrPoison = x.lrPoison
  preds : y.p = x.p
  q : ∀ n, kget [] n y.q = (kget [] n x.q).drop (pops.count n)
  fstat : y.fstat = x.fstat ||| o.flags
  rng : y.rng = o.rng.getD x.rng
  tanrng : y.tanrng = o.tanrng.getD x.tanrng

/-! ## What the group holds after a word -/

/-- The write of g register `k` of a warp that counts: that of the lowest lane of the warp which the word retires (R170). -/
def gFirst (gw : List (Tid × GWrite)) (core slot k : Nat) : Option (Tid × GWrite) :=
  gw.find? fun e => e.1.core == core && e.1.slot == slot && e.2.n == k

/-- The origin mask of a write that the lanes `retired` retire: all ones where every live thread of the warp is among them (R170). -/
def originMask (t : State) (retired : List Tid) (core slot : Nat) : Word :=
  let mine := retired.filter fun u => u.core == core && u.slot == slot
  if (t.threads.filter fun x => x.tid.core == core && x.tid.slot == slot && x.run != .ended && x.run != .killed).all fun x => mine.contains x.tid
  then ~~~(0 : Word) else laneMask mine

/-- The uniform registers after a word whose lanes `retired` make the writes `gw`: each register that is written takes the lowest lane's value,
every other register and everything else of every warp is as before (R170). -/
def UniformDone (s t : State) (retired : List Tid) (gw : List (Tid × GWrite)) : Prop :=
  ∀ core slot wp, getWarp s core slot = some wp → ∃ wp', getWarp t core slot = some wp' ∧
    wp' = { wp with g := wp'.g, gsh := wp'.gsh, origin := wp'.origin } ∧
    ∀ k, match gFirst gw core slot k with
      | some e => kget 0 k wp'.g = e.2.val ∧ kget [] k wp'.gsh = e.2.sh ∧ kget (~~~(0 : Word)) k wp'.origin = originMask t retired core slot
      | none => kget 0 k wp'.g = kget 0 k wp.g ∧ kget [] k wp'.gsh = kget [] k wp.gsh ∧
          kget (~~~(0 : Word)) k wp'.origin = kget (~~~(0 : Word)) k wp.origin

/-- The lanes of the group that pass a guard. -/
def activeTids (s : State) (pg : Guard) : List Tid := (activeLanes s pg).map fun e => e.1.tid

/-- The writes of g registers that a word with result `out` makes. -/
def gOf (s : State) (pg : Guard) (d : Option Dst) (out : Workgroup → Thread → AluOut) : List (Tid × GWrite) :=
  (activeLanes s pg).flatMap fun e => (match d with
    | none => []
    | some d => gWrites d (out e.2 e.1).words (out e.2 e.1).sh).map fun y => (e.1.tid, y)

/-- The machine after a word that computes `out` in each lane that passes the guard: those lanes hold the result, the other lanes of the group
have passed the word, the uniform registers follow R170, and nothing else of the machine has changed, memory least of all. -/
structure WordDone (s t : State) (pg : Guard) (l : List SrcSpec) (d : Option Dst) (out : Workgroup → Thread → AluOut) : Prop where
  frame : t = { s with threads := t.threads, warps := t.warps }
  lanes : ∀ tid x w, Lane s tid x w → ∃ y, getT t tid = some y ∧
    if passes x pg then AluDone s l (readSrcs s w x l []).pops d (out w x) x y else Skipped s x y
  others : ∀ u, u ∉ s.cur.tids → getT t u = getT s u
  uniform : UniformDone s t (activeTids s pg) (gOf s pg d out)

/-- The active lanes of a word over them together, with what they read (R325). -/
def xLanes (s : State) (pg : Guard) (l : List SrcSpec) : List XLane :=
  (activeLanes s pg).map fun e => ⟨e.1, e.2, (readSrcs s e.2 e.1 l []).vals, (readSrcs s e.2 e.1 l []).pops⟩

/-- The late value of a lane on its way: `kd` words to the destination (R167). -/
def lateLoad (s : State) (d : Dst) (kd : Nat) (id : Nat) (x : Thread) (o : AluOut) : OutLoad :=
  { id := id, tid := x.tid, kind := .unit_, dest := destOf d, words := (List.range kd).map fun i => ⟨o.words.getD i 0, false, shOf o.sh i⟩,
    numerr := false, dead := false, port := none, pop := none, addr := 0, sx := false, interval := intervalOf s x.tid, line := none, tan := none, sync := none }

/-- The machine after a word whose result `out` comes later: the lanes that pass the guard have their destination PENDING, one value is on its way
for each of them in lane order, and nothing else has changed (R167). -/
structure WordLate (s t : State) (pg : Guard) (l : List SrcSpec) (d : Dst) (kd : Nat) (out : Workgroup → Thread → AluOut) : Prop where
  frame : t = { s with threads := t.threads, loads := t.loads, ids := t.ids }
  ids : t.ids = s.ids + (activeLanes s pg).length
  loads : t.loads = s.loads ++ (activeLanes s pg).mapIdx fun i e => lateLoad s d kd (s.ids + 1 + i) e.1 (out e.2 e.1)
  lanes : ∀ tid x w, Lane s tid x w → ∃ y, getT t tid = some y ∧
    if passes x pg then LateDone s l (readSrcs s w x l []).pops d kd (out w x) x y else Skipped s x y
  others : ∀ u, u ∉ s.cur.tids → getT t u = getT s u

/-! ## What each computing word computes -/

/-- A computing word: guard, sources in field order, destination and its words, causes beside the operands' own, and the result of a lane from its operands. -/
structure WordSpec where
  pg : Guard
  srcs : List SrcSpec
  d : Option Dst
  kd : Nat
  pre : State → Thread → List Cause := fun _ _ => []
  out : State → Workgroup → Thread → List Opv → AluOut

/-- The result of one lane. -/
def WordSpec.lane (a : WordSpec) (s : State) (w : Workgroup) (x : Thread) : AluOut := a.out s w x (readSrcs s w x a.srcs []).vals

/-- In every lane that passes the guard the operands are sound and not POISON, and the word raises no cause of its own. -/
def WordSpec.sound (a : WordSpec) (s : State) : Prop :=
  ∀ tid x w, Lane s tid x w → passes x a.pg = true →
    Sound s w x a.srcs (dstOr a.d) a.kd ∧ Clean s w x a.srcs ∧ a.pre s x = [] ∧ (a.lane s w x).cause = none

/-- A result of `k` words that is a number. -/
def natOut (k : Nat) (x : Nat) : AluOut := { words := wordsOf k x }

/-- One, two or three integer operands of one width (R281). -/
def int1 (o : A1) (w64 : Bool) (f : Nat → Nat → Nat) : WordSpec :=
  ⟨o.pg, [intSrc w64 o.a], some o.d, wWords w64, fun _ _ => [], fun _ _ _ v => natOut (wWords w64) (f (wBits w64) ((opv v 0).nat w64))⟩

def int2 (o : A2) (w64 : Bool) (f : Nat → Nat → Nat → Nat) : WordSpec :=
  ⟨o.pg, [intSrc w64 o.a, intSrc w64 o.b], some o.d, wWords w64, fun _ _ => [],
    fun _ _ _ v => natOut (wWords w64) (f (wBits w64) ((opv v 0).nat w64) ((opv v 1).nat w64))⟩

def int3 (o : A3) (w64 : Bool) (f : Nat → Nat → Nat → Nat → Nat) : WordSpec :=
  ⟨o.pg, [intSrc w64 o.a, intSrc w64 o.b, intSrc w64 o.c], some o.d, wWords w64, fun _ _ => [],
    fun _ _ _ v => natOut (wWords w64) (f (wBits w64) ((opv v 0).nat w64) ((opv v 1).nat w64) ((opv v 2).nat w64))⟩

/-- A shift: its amount is a 32-bit operand (R287). -/
def shift2 (o : A2) (w64 : Bool) (f : Nat → Nat → Nat → Nat) : WordSpec :=
  ⟨o.pg, [intSrc w64 o.a, intSrc false o.b], some o.d, wWords w64, fun _ _ => [],
    fun _ _ _ v => natOut (wWords w64) (f (wBits w64) ((opv v 0).nat w64) ((opv v 1).nat false))⟩

/-- Two packed operands (R293). -/
def packed2 (o : A2) (f : Nat → Nat → Nat) : WordSpec :=
  ⟨o.pg, [packSrc o.a, packSrc o.b], some o.d, 1, fun _ _ => [],
    fun _ _ _ v => natOut 1 (packed f ((opv v 0).nat false) ((opv v 1).nat false))⟩

/-- Carry or borrow in and out of predicate `n` (R284). -/
def carry2 (o : A2) (n : BitVec 3) (w64 : Bool) (f : Nat → Nat → Nat → Nat → Nat × Bool) : WordSpec :=
  ⟨o.pg, [intSrc w64 o.a, intSrc w64 o.b], some o.d, wWords w64, fun _ _ => [], fun _ _ x v =>
    let r := f (wBits w64) ((opv v 0).nat w64) ((opv v 1).nat w64) (predBit x n.toNat).toNat
    { words := wordsOf (wWords w64) r.1, preds := [(n.toNat, r.2)] }⟩

/-- A word whose only result is predicates. -/
def predWord (pg : Guard) (srcs : List SrcSpec) (f : Thread → List Opv → List (Nat × Bool)) (fl : List Opv → Flags := fun _ => 0) : WordSpec :=
  ⟨pg, srcs, none, 0, fun _ _ => [], fun _ _ x v => { words := [], preds := f x v, flags := fl v }⟩

/-- Position and length in a control value, or FIELD_RANGE (R288). -/
def fieldOut (w64 : Bool) (n : Nat) (x : Nat) : AluOut := if wBits w64 < n then fieldRange n else natOut (wWords w64) x

/-- A floating word over its operands' formats (R308 to R312). -/
def floatSpec (pg : Guard) (d : Dst) (srcs : List Src) (h : FShape) (rnd : Rnd) (mods : List (Bool × Bool)) (o : FOp) : WordSpec :=
  ⟨pg, srcs.map (fSrc h), some d, fWords h.fmt, fun _ _ => [], floatLane h rnd mods o⟩

def float2 (o : A2) (m : FMod) (f : Fmt → FOp) : WordSpec :=
  floatSpec o.pg o.d [o.a, o.b] (.scalar (ffmt m.fmt)) m.rnd (modsOf m) (f (ffmt m.fmt))

def packedFloat2 (o : A2) (m : FMod) (f : Fmt → FOp) : WordSpec :=
  floatSpec o.pg o.d [o.a, o.b] (.halves (ffmt m.fmt)) m.rnd (modsOf m) (f (ffmt m.fmt))

/-- Integer, logic, address, packed and predicate words whose result is written at once (R283 to R298). -/
def intSpec : Instr → Option WordSpec
  | .iadd o w64 u sat => some (int2 o w64 (addW u sat))
  | .isub o w64 u sat => some (int2 o w64 (subW u sat))
  | .iaddc o n w64 => some (carry2 o n w64 addCarry)
  | .isubb o n w64 => some (carry2 o n w64 subBorrow)
  | .ineg o w64 sat => some (int1 o w64 (negW sat))
  | .iabs o w64 sat => some (int1 o w64 (absW sat))
  | .imul o w64 => some (int2 o w64 mulW)
  | .imulhi o w64 u => some (int2 o w64 (mulHiW u))
  | .imad o w64 => some (int3 o w64 madW)
  | .imin o w64 u => some (int2 o w64 (minW u))
  | .imax o w64 u => some (int2 o w64 (maxW u))
  | .icmp o c w64 u => some (predWord o.pg [intSrc w64 o.a, intSrc w64 o.b] fun _ v =>
      [(o.pd.toNat, icmpW c u (wBits w64) ((opv v 0).nat w64) ((opv v 1).nat w64))])
  | .and o w64 => some (int2 o w64 fun _ a b => a &&& b)
  | .or o w64 => some (int2 o w64 fun _ a b => a ||| b)
  | .xor o w64 => some (int2 o w64 fun _ a b => a ^^^ b)
  | .not o w64 => some (int1 o w64 notW)
  | .andn o w64 => some (int2 o w64 andnW)
  | .bool3 o t w64 => some (int3 o w64 (bool3W t.toNat))
  | .shl o w64 => some (shift2 o w64 shlW)
  | .shr o w64 => some (shift2 o w64 shrW)
  | .shra o w64 => some (shift2 o w64 shraW)
  | .rotl o w64 => some (shift2 o w64 rotlW)
  | .funnel o l w64 => some ⟨o.pg, [intSrc w64 o.a, intSrc w64 o.b, intSrc false o.c], some o.d, wWords w64, fun _ _ => [], fun _ _ _ v =>
      fieldOut w64 ((opv v 2).nat false) (funnelW l (wBits w64) ((opv v 0).nat w64) ((opv v 1).nat w64) ((opv v 2).nat false))⟩
  | .bfe o w64 u => some ⟨o.pg, [intSrc w64 o.a, intSrc false o.b], some o.d, wWords w64, fun _ _ => [], fun _ _ _ v =>
      let c := (opv v 1).nat false
      fieldOut w64 (bits c 7 0 + bits c 15 8) (bfeW u (wBits w64) ((opv v 0).nat w64) (bits c 7 0) (bits c 15 8))⟩
  | .bfi o w64 => some ⟨o.pg, [intSrc w64 o.a, intSrc w64 o.b, intSrc false o.c], some o.d, wWords w64, fun _ _ => [], fun _ _ _ v =>
      let c := (opv v 2).nat false
      fieldOut w64 (bits c 7 0 + bits c 15 8) (bfiW ((opv v 0).nat w64) ((opv v 1).nat w64) (bits c 7 0) (bits c 15 8))⟩
  | .popc o w64 => some (int1 o w64 popcW)
  | .clz o w64 => some (int1 o w64 clzW)
  | .ctz o w64 => some (int1 o w64 ctzW)
  | .brev o w64 => some (int1 o w64 brevW)
  | .bpick o => some (int3 o false fun _ a b c => bpickW a b c)
  | .lea o k u => some ⟨o.pg, [intSrc true o.a, intSrc false o.b], some o.d, 2, fun _ _ => [],
      fun _ _ _ v => natOut 2 (leaW u k.toNat ((opv v 0).nat true) ((opv v 1).nat false))⟩
  | .sel o n neg w64 => some ⟨o.pg, [intSrc w64 o.a, intSrc w64 o.b], some o.d, wWords w64, fun _ _ => [], fun s w x v =>
      let y := if predBit x n.toNat != neg then opv v 0 else opv v 1
      { words := y.words.take (wWords w64), sh := moveSh s w x (wWords w64) y }⟩
  | .vadd2 o u sat => some (packed2 o (addW u sat 16))
  | .vsub2 o u sat => some (packed2 o (subW u sat 16))
  | .vmin2 o u => some (packed2 o (minW u 16))
  | .vmax2 o u => some (packed2 o (maxW u 16))
  | .acsel2 o n => some ⟨o.pg, [packSrc o.a, packSrc o.b, packSrc o.c], some o.d, 1, fun _ _ => [], fun _ _ _ v =>
      let r := acsel2W ((opv v 0).nat false) ((opv v 1).nat false) ((opv v 2).nat false)
      { words := wordsOf 1 r.1, preds := [(n.toNat, r.2.1), (n.toNat + 1, r.2.2)] }⟩
  | .dot4 o u sat => some ⟨o.pg, [⟨o.a, 1, .pk8⟩, ⟨o.b, 1, .pk8⟩, intSrc false o.c], some o.d, 1, fun _ _ => [],
      fun _ _ _ v => natOut 1 (dotW u sat 8 4 ((opv v 0).nat false) ((opv v 1).nat false) ((opv v 2).nat false))⟩
  | .dot2 o u sat => some ⟨o.pg, [⟨o.a, 1, .pk⟩, ⟨o.b, 1, .pk⟩, intSrc false o.c], some o.d, 1, fun _ _ => [],
      fun _ _ _ v => natOut 1 (dotW u sat 16 2 ((opv v 0).nat false) ((opv v 1).nat false) ((opv v 2).nat false))⟩
  | .cvti o src dst du su sat => some ⟨o.pg, [⟨o.a, src.k, .int⟩], some o.d, dst.k, fun _ _ => [],
      fun _ _ _ v => natOut dst.k (cvtiW src dst du su sat ((opv v 0).nat (src = .w64)))⟩
  | .pbool3 pg pd pa pb pc t => some (predWord pg [] fun x _ =>
      [(pd.toNat, bitAt t.toNat ((predBit x pa.toNat).toNat + 2 * (predBit x pb.toNat).toNat + 4 * (predBit x pc.toNat).toNat))])
  | .ptov o n c w64 => some ⟨o.pg, [intSrc w64 o.a, intSrc false o.b], some o.d, wWords w64, fun _ _ => [], fun _ _ x v =>
      natOut (wWords w64) (ptovW (wBits w64) ((opv v 0).nat w64) ((opv v 1).nat false % wBits w64) (c.toNat + 1) fun i => predBit x (n.toNat + i))⟩
  | .vtop o c w64 => some (predWord o.pg [intSrc w64 o.a, intSrc false o.b] fun _ v =>
      (List.range (c.toNat + 1)).map fun i => (o.pd.toNat + i, vtopBit (wBits w64) ((opv v 0).nat w64) ((opv v 1).nat false % wBits w64) i))
  | _ => none

/-- The running maximum and the floating compare read their operands in these kinds (R271). -/
def amaxSrcs (o : A2) (fmt : FFmt) : List SrcSpec := [⟨o.a, 1, if fmt = .f32 then .fl .b32 else .pkf (ffmt fmt)⟩, ⟨o.b, 1, .fl .b32⟩]

/-- A floating operand of FCMP after its modifiers. -/
def fcmpArg (m : FMod) (ab : Bool × Bool) (v : List Opv) (i : Nat) : Num :=
  (ffmt m.fmt).decode (applyMod (ffmt m.fmt) ab (part (ffmt m.fmt) ((opv v i).nat false) 0))

/-- Tangents of the active components, each rounded once in `rnd` (R237). -/
def roundTans (fd : Fmt) (rnd : Rnd) (x : Thread) (comps : List Nat) (f : RMode → Nat → Num) : List (Nat × Nat) × W32 :=
  comps.foldl (fun acc j => (acc.1 ++ [(j, (fd.round (draw rnd acc.2).1 (f (draw rnd acc.2).1 j)).bits)], (draw rnd acc.2).2)) ([], x.tanrng)

/-- The record of a conversion: in an even g register, or a descriptor in a register (R322). -/
def convRec (s : State) (b : Src) (desc quant : Bool) (x : Thread) (v : List Opv) : Option TRec :=
  if desc then descRec quant ((opv v 1).nat false % 65536)
  else parseTRec (match b.op with
    | .g n => ((getWarp s x.tid.core x.tid.slot).map fun w => Word.pair (kget 0 n.toNat w.g) (kget 0 (n.toNat + 1) w.g)).getD 0
    | _ => 0)

/-- BLOCK_PARTIAL where block scaling is in use and the active lanes do not cover whole blocks (R322). -/
def convPart (s : State) (pg : Guard) (r : TRec) : List Cause :=
  if r.scale != 127 && !wholeBlocks ((activeLanes s pg).map fun e => e.1.tid.lane) then [{ code := 0x23 }] else []

/-- CVTQ and CVTDQ (R322). -/
def convSpec (o : A2) (desc quant : Bool) (f : TRec → EFmt → Thread → Nat → FRes × W32) : WordSpec :=
  ⟨o.pg, [⟨o.a, 1, if quant then .fl .b32 else .int⟩, ⟨o.b, if desc then 1 else 2, .int⟩], some o.d, 1,
    fun s x => if desc then [] else match convRec s o.b false quant x [] with
      | none => [{ code := 0x20 }]
      | some r => convPart s o.pg r,
    fun s _ x v => match convRec s o.b desc quant x v with
      | none => { words := [], cause := some { code := 0x21 } }
      | some r => match if desc then convPart s o.pg r else [], efmtOf r.fmt with
        | c :: _, _ => { words := [], cause := some c }
        | [], none => { words := [], cause := some { code := 0x21 } }
        | [], some e =>
          let y := f r e x ((opv v 0).nat false)
          { words := wordsOf 1 y.1.bits, flags := y.1.flags, rng := some y.2 }⟩

/-- Floating and conversion words whose result is written at once (R312 to R323). -/
def floatNow : Instr → Option WordSpec
  | .fadd o m => some (float2 o m fAdd)
  | .fsub o m => some (float2 o m fSub)
  | .fmul o m => some (float2 o m fMul)
  | .ffma o m => some (floatSpec o.pg o.d [o.a, o.b, o.c] (.scalar (ffmt m.fmt)) m.rnd (modsOf m) (fFma (ffmt m.fmt)))
  | .fmin o m => some (float2 o m fun f => fMinMax f false false)
  | .fmax o m => some (float2 o m fun f => fMinMax f true false)
  | .fminp o m => some (float2 o m fun f => fMinMax f false true)
  | .fmaxp o m => some (float2 o m fun f => fMinMax f true true)
  | .fcmp o c m => some (predWord o.pg [fSrc (.scalar (ffmt m.fmt)) o.a, fSrc (.scalar (ffmt m.fmt)) o.b]
      (fun _ v => [(o.pd.toNat, fcmpVal c (fcmpArg m (m.aAbs, m.aNeg) v 0) (fcmpArg m (m.bAbs, m.bNeg) v 1))])
      (fun v => if (fcmpArg m (m.aAbs, m.aNeg) v 0).sig || (fcmpArg m (m.bAbs, m.bNeg) v 1).sig then 1 else 0))
  | .fclass o fmt => some ⟨o.pg, [fSrc (.scalar (ffmt fmt)) o.a], some o.d, 1, fun _ _ => [],
      fun _ _ _ v => natOut 1 (2 ^ fclassBit (ffmt fmt) (part (ffmt fmt) ((opv v 0).nat false) 0))⟩
  | .fcopysgn o fmt => some (floatSpec o.pg o.d [o.a, o.b] (.scalar (ffmt fmt)) .rn noMods (fCopysgn (ffmt fmt)))
  | .frnd o m => some (floatSpec o.pg o.d [o.a] (.scalar (ffmt m.fmt)) m.rnd (modsOf m) (fRnd (ffmt m.fmt)))
  | .hadd2 o m => some (packedFloat2 o m fAdd)
  | .hmul2 o m => some (packedFloat2 o m fMul)
  | .hfma2 o m => some (floatSpec o.pg o.d [o.a, o.b, o.c] (.halves (ffmt m.fmt)) m.rnd (modsOf m) (fFma (ffmt m.fmt)))
  | .hmin2 o m => some (packedFloat2 o m fun f => fMinMax f false false)
  | .hmax2 o m => some (packedFloat2 o m fun f => fMinMax f true false)
  | .hdot2 o m => some ⟨o.pg, [fSrc (.halves (ffmt m.fmt)) o.a, fSrc (.halves (ffmt m.fmt)) o.b, ⟨o.c, 1, .fl .b32⟩], some o.d, 1, fun _ _ => [],
      fun s w x v =>
        let f := ffmt m.fmt
        let h := FShape.halves f
        let ra := (opv v 0).nat false
        let rb := (opv v 1).nat false
        let rc := (opv v 2).nat false
        let a := modWord h (m.aAbs, m.aNeg) ra
        let b := modWord h (m.bAbs, m.bNeg) rb
        let c := applyMod .b32 (false, m.cNeg) rc
        let rm := (draw m.rnd x.rng).1
        let r := Fmt.b32.round rm (hdotExact rm.isRd (hdotTerms f a b (Fmt.b32.decode c)))
        let tv := fun i j => wordsNat ((((opv v i).sh).getD (j - 1) []).take 1)
        let p := fun (x y off : Nat) => Num.mul (f.decode (part f x off)) (f.decode (part f y off))
        let tans := roundTans .b32 m.rnd x (dualComps s w x) fun rt j =>
          let ta := tanWord h (m.aAbs, m.aNeg) ra (tv 0 j)
          let tb := tanWord h (m.bAbs, m.bNeg) rb (tv 1 j)
          hdotExact rt.isRd [p ta b 0, p a tb 0, p ta b 16, p a tb 16, Fmt.b32.decode (tanMod .b32 (false, m.cNeg) rc (tv 2 j))]
        { words := wordsOf 1 r.bits, sh := compsToSh 1 w.shadows tans.1, flags := r.flags, rng := some (draw m.rnd x.rng).2, tanrng := some tans.2 }⟩
  | .fcvt o dst src rnd => some ⟨o.pg, [⟨o.a, fWords (cfmt src), .fl (cfmt src)⟩], some o.d, fWords (cfmt dst),
      fun _ _ => if dst = src then [{ code := 0x22 }] else [], fun s w x v =>
        let fs := cfmt src
        let fd := cfmt dst
        let a := wordsNat ((opv v 0).words.take (fWords fs))
        let r := fd.round (draw rnd x.rng).1 (fs.decode (a % 2 ^ fs.width))
        let tans := roundTans fd rnd x (dualComps s w x) fun _ j =>
          fs.decode (wordsNat ((((opv v 0).sh).getD (j - 1) []).take (fWords fs)) % 2 ^ fs.width)
        { words := wordsOf (fWords fd) r.bits, sh := compsToSh (fWords fd) w.shadows tans.1, flags := r.flags, rng := some (draw rnd x.rng).2,
          tanrng := some tans.2 }⟩
  | .f2i o src rnd d64 du => some ⟨o.pg, [⟨o.a, fWords (cfmt src), .fl (cfmt src)⟩], some o.d, wWords d64, fun _ _ => [], fun _ _ x v =>
      let fs := cfmt src
      let y := fs.decode (wordsNat ((opv v 0).words.take (fWords fs)) % 2 ^ fs.width)
      let r := f2iVal (draw rnd x.rng).1 du (wBits d64) y
      { words := wordsOf (wWords d64) r.1, flags := r.2, rng := if y.isNan then none else some (draw rnd x.rng).2 }⟩
  | .i2f o dst rnd s64 su => some ⟨o.pg, [intSrc s64 o.a], some o.d, fWords (cfmt dst), fun _ _ => [], fun _ _ x v =>
      let r := (cfmt dst).round (draw rnd x.rng).1 (Num.ofInt (ival su (wBits s64) ((opv v 0).nat s64)) 1 false)
      { words := wordsOf (fWords (cfmt dst)) r.bits, flags := r.flags, rng := some (draw rnd x.rng).2 }⟩
  | .cvtq o desc => some (convSpec o desc true fun r e x a =>
      (convertRec e r (draw r.rnd x.rng).1 (Fmt.b32.decode a), if roundsRec e r (Fmt.b32.decode a) then (draw r.rnd x.rng).2 else x.rng))
  | .cvtdq o desc => some (convSpec o desc false fun r e x a =>
      let y := decodeScaled e r.scale (a % 2 ^ e.width)
      (Fmt.b32.round (draw r.rnd x.rng).1 y, if y.isNan then x.rng else (draw r.rnd x.rng).2))
  | .amax o fmt false => some ⟨o.pg, amaxSrcs o fmt, some o.d, 1, fun _ _ => [], fun _ _ _ v =>
      let r := amaxVal fmt ((opv v 0).nat false) ((opv v 1).nat false)
      { words := wordsOf 1 r.bits, flags := r.flags }⟩
  | _ => none

/-- Words whose destination goes PENDING and whose result a unit delivers later (R167, R282, R315, R318). -/
def lateSpec : Instr → Option WordSpec
  | .idiv o w64 u => some (int2 o w64 (divW u))
  | .irem o w64 u => some (int2 o w64 (remW u))
  | .fdiv o m => some (floatSpec o.pg o.d [o.a, o.b] (.scalar .b32) m.rnd (modsOf m) (fDiv .b32))
  | .fsqrt o m => some (floatSpec o.pg o.d [o.a] (.scalar .b32) m.rnd (modsOf m) fSqrt)
  | .frcp o m => some (floatSpec o.pg o.d [o.a] (.scalar .b32) m.rnd (modsOf m) fRcp)
  | .frsq o m => some (floatSpec o.pg o.d [o.a] (.scalar .b32) m.rnd (modsOf m) fRsq)
  | .fexp2 o m => some (floatSpec o.pg o.d [o.a] (.scalar .b32) m.rnd (modsOf m) fExp2)
  | .flog2 o m => some (floatSpec o.pg o.d [o.a] (.scalar .b32) m.rnd (modsOf m) fLog2)
  | .fsinpi o m => some (floatSpec o.pg o.d [o.a] (.scalar .b32) m.rnd (modsOf m) fSinpi)
  | .fcospi o m => some (floatSpec o.pg o.d [o.a] (.scalar .b32) m.rnd (modsOf m) fCospi)
  | .ftanh o m => some (floatSpec o.pg o.d [o.a] (.scalar .b32) m.rnd (modsOf m) fTanh)
  | .dadd o m => some (floatSpec o.pg o.d [o.a, o.b] (.scalar .b64) m.rnd (modsOf m) (fAdd .b64))
  | .dmul o m => some (floatSpec o.pg o.d [o.a, o.b] (.scalar .b64) m.rnd (modsOf m) (fMul .b64))
  | .dfma o m => some (floatSpec o.pg o.d [o.a, o.b, o.c] (.scalar .b64) m.rnd (modsOf m) (fFma .b64))
  | _ => none

/-! ## What each cross-lane word computes -/

/-- A word over the active lanes: the first `prop` operands pass POISON on, the others consume it (R325); the result of a lane from all of them. -/
structure CrossSpec where
  pg : Guard
  srcs : List SrcSpec
  d : Option Dst
  kd : Nat
  prop : Nat := 0
  out : State → List XLane → XLane → AluOut

def CrossSpec.lane (a : CrossSpec) (s : State) (w : Workgroup) (x : Thread) : AluOut :=
  a.out s (xLanes s a.pg a.srcs) ⟨x, w, (readSrcs s w x a.srcs []).vals, (readSrcs s w x a.srcs []).pops⟩

/-- Some lane is active, every active lane is sound and offers no POISON that the word consumes; POISON never goes to a uniform register (R163). -/
def CrossSpec.sound (a : CrossSpec) (s : State) : Prop :=
  activeLanes s a.pg ≠ [] ∧ ∀ tid x w, Lane s tid x w → passes x a.pg = true →
    Sound s w x a.srcs (dstOr a.d) a.kd ∧ ((readSrcs s w x a.srcs []).vals.drop a.prop).any (·.poison) = false ∧
    ((∃ n, a.d = some (.g n)) → Clean s w x a.srcs)

/-- The offset of LANEX in a lane (R327). -/
def lanexAmount (mode : LaneMode) (off : LaneOff) (x : XLane) : Int :=
  match off with
  | .reg _ => ival (!(mode == .rel || mode == .rot)) 32 ((opv x.vals 1).nat false)
  | .width n neg => if neg then -((64 / 2 ^ n.toNat : Nat) : Int) else ((64 / 2 ^ n.toNat : Nat) : Int)

/-- The source lane of BCASTL: named by the lowest active lane, or that lane (R327). -/
def bcastFrom (b : Option Src) (lanes : List XLane) : Int :=
  match b, lanes.head? with
  | some _, some m => (opv m.vals 1).nat false
  | none, some m => m.lane
  | _, none => 0

/-- Value and index that a lane offers to REDIDX. -/
def idxPair (x : XLane) : Nat × Nat := ((opv x.vals 0).nat false, (opv x.vals 1).nat false)

/-- The winning lane of REDIDX (R235). -/
def idxBest (max f u : Bool) (lanes : List XLane) (x : XLane) : XLane :=
  match lanes with
  | [] => x
  | x0 :: rest => rest.foldl (fun b y => if idxBefore max f u (idxPair y) (idxPair b) then y else b) x0

/-- A predicate for every lane of a census (R328). -/
def censusOut (p : BitVec 3) (b : Bool) : AluOut := { words := [], preds := [(p.toNat, b)] }

def crossSpec : Instr → Option CrossSpec
  | .lanex o mode off w64 => some ⟨o.pg, intSrc w64 o.a :: (match off with | .reg b => [intSrc false b] | .width .. => []), some o.d, wWords w64, 1,
      fun s lanes x => fromLane s (wWords w64) lanes x (lanexFrom mode x.lane (lanexAmount mode off x))⟩
  | .bcastl o b w64 => some ⟨o.pg, intSrc w64 o.a :: (match b with | some b => [intSrc false b] | none => []), some o.d, wWords w64, 1,
      fun s lanes x => fromLane s (wWords w64) lanes x (bcastFrom b lanes)⟩
  | .pcensus pg c n neg =>
      let q := fun (x : XLane) => predBit x.t n.toNat != neg
      some (match c with
        | .all p => ⟨pg, [], none, 0, 0, fun _ lanes _ => censusOut p (lanes.all q)⟩
        | .any p => ⟨pg, [], none, 0, 0, fun _ lanes _ => censusOut p (lanes.any q)⟩
        | .same p => ⟨pg, [], none, 0, 0, fun _ lanes _ => censusOut p (lanes.all q || !lanes.any q)⟩
        | .mask d => ⟨pg, [], some d, 2, 0, fun _ lanes _ => natOut 2 (maskOf lanes q).toNat⟩
        | .count d => ⟨pg, [], some d, 1, 0, fun _ lanes _ => natOut 1 (lanes.filter q).length⟩)
  | .actmask pg d => some ⟨pg, [], some d, 2, 0, fun _ lanes _ => natOut 2 (maskOf lanes fun _ => true).toNat⟩
  | .matchL o f w64 => some ⟨o.pg, [⟨o.a, wWords w64, if f then .fl (if w64 then .b64 else .b32) else .int⟩], some o.d, 2, 0, fun _ lanes x =>
      natOut 2 (maskOf lanes fun y => keyMatch f w64 ((opv y.vals 0).nat w64) ((opv x.vals 0).nat w64)).toNat⟩
  | .redls o op rnd u w64 => some ⟨o.pg, [⟨o.a, wWords w64, redKind op w64⟩], some o.d, wWords w64, 0, fun s lanes x =>
      let r := redTree (combine op rnd u w64) 6 (leaves (identity op u w64) (redComps s op lanes) (wWords w64) lanes) 0
      nodeOut (wWords w64) (redComps s op lanes) x r.1 r.2⟩
  | .scan o op rnd u excl w64 => some ⟨o.pg, [⟨o.a, wWords w64, redKind op w64⟩], some o.d, wWords w64, 0, fun s lanes x =>
      let id : RNode := ⟨identity op u w64, (redComps s op lanes).map fun _ => 0⟩
      let r := scanTree (combine op rnd u w64) 6 1 (leaves (identity op u w64) (redComps s op lanes) (wWords w64) lanes) 0
      nodeOut (wWords w64) (redComps s op lanes) x
        (if excl then (if x.lane = 0 then id else r.1.getD (x.lane - 1) id) else r.1.getD x.lane id) r.2⟩
  | .redidx o max f u => some ⟨o.pg, [⟨o.a, 1, if f then .fl .b32 else .int⟩, ⟨o.b, 1, .int⟩], some o.d, 2, 0, fun s lanes x =>
      let best := idxBest max f u lanes x
      { words := [BitVec.ofNat 32 (idxPair best).1, BitVec.ofNat 32 (idxPair best).2],
        sh := if f then (moveSh s x.w x.t 1 (opv best.vals 0)).map fun c => c ++ [0] else [],
        flags := if f && lanes.any fun y => (Fmt.b32.decode (idxPair y).1).sig then 1 else 0 }⟩
  | .amax o fmt true => some ⟨o.pg, amaxSrcs o fmt, some o.d, 1, 0, fun _ lanes x =>
      let own := fun (v : List Opv) => amaxVal fmt ((opv v 0).nat false) ((opv v 1).nat false)
      let ls := (List.range 64).map fun i => (⟨((laneOf lanes i).map fun y => (own y.vals).bits).getD 0, []⟩ : RNode)
      let r := redTree (combine .fmax .rn false false) 6 ls 0
      { words := wordsOf 1 r.1.val, flags := (own x.vals).flags ||| (r.2 &&& 1) }⟩
  | _ => none

end Sys2Proof.Machine
end

