-- ==== Sys2Proof/Safety/Control.lean ====
section
/-! DEFINITION. Safety/Control: what a lane holds after a word that moves values or control: MOV, TMOV, pair words, branches, calls, returns, SLEEP and EXIT,
and what a thread holds once it has taken a trap or returned from one. -/

namespace Sys2Proof.Machine

/-! ## A group whose lanes change only their own threads -/

/-- The lanes that pass the guard are changed as `R` says, the other lanes of the group have passed the word, and nothing else has changed. -/
structure LanesDone (s t : State) (pg : Guard) (R : Workgroup → Thread → Thread → Prop) : Prop where
  frame : t = { s with threads := t.threads }
  lanes : ∀ tid x w, Lane s tid x w → ∃ y, getT t tid = some y ∧ if passes x pg then R w x y else Skipped s x y
  others : ∀ u, u ∉ s.cur.tids → getT t u = getT s u

/-- Registers and queues after a word that only reads: L marks and pops (R162, R168). -/
structure ReadDone (l : List SrcSpec) (pops : List Nat) (x y : Thread) : Prop where
  vRegs : ∀ n, vReg y n = if (markedRegs l).contains (false, n) then regDead else vReg x n
  oRegs : ∀ n, oReg y n = if (markedRegs l).contains (true, n) then regDead else oReg x n
  q : ∀ n, kget [] n y.q = (kget [] n x.q).drop (pops.count n)

/-! ## MOV and TMOV (R285, R411) -/

/-- What MOV writes in a lane: the operand with its tangents, POISON where the operand is. -/
def movOut (o : A1) (w64 : Bool) (s : State) (w : Workgroup) (x : Thread) : AluOut :=
  let v := (readSrcs s w x [intSrc w64 o.a] []).vals
  { words := (opv v 0).words.take (wWords w64), sh := moveSh s w x (wWords w64) (opv v 0), bad := (opv v 0).bad }

/-- What TMOV to the primal writes in a lane: component js of the operand, and tangents +0. -/
def tmovOut (o : A1) (js : BitVec 3) (w64 : Bool) (s : State) (w : Workgroup) (x : Thread) : AluOut :=
  let v := opv (readSrcs s w x [intSrc w64 o.a] []).vals 0
  { words := compWords v js.toNat (wWords w64), bad := v.bad }

/-- A register after TMOV to tangent `j`: that component alone is written; a POISON word makes its register POISON. -/
def regTangent (l : List SrcSpec) (d : Dst) (k shadows j : Nat) (words : List W32) (bad : List Bool) (isO : Bool) (n : Nat) (old : Reg) : Reg :=
  match dstWord d isO k n with
  | some i => ⟨if bad.getD i false then .poison else old.st, old.val, (List.range shadows).map fun c => if c + 1 = j then words.getD i 0 else old.sh.getD c 0⟩
  | none => if (markedRegs l).contains (isO, n) then regDead else old

/-- A lane after TMOV to tangent `jd` (R411). -/
structure TangentDone (s : State) (o : A1) (js jd : BitVec 3) (w64 : Bool) (w : Workgroup) (x y : Thread) : Prop where
  past : PastWord s y
  keeps : Keeps x y
  vRegs : ∀ n, vReg y n = regTangent [intSrc w64 o.a] o.d (wWords w64) w.shadows jd.toNat (tmovOut o js w64 s w x).words (tmovOut o js w64 s w x).bad false n (vReg x n)
  oRegs : ∀ n, oReg y n = regTangent [intSrc w64 o.a] o.d (wWords w64) w.shadows jd.toNat (tmovOut o js w64 s w x).words (tmovOut o js w64 s w x).bad true n (oReg x n)
  lr : y.lr = Word.pair ((tmovOut o js w64 s w x).words.getD 0 0) ((tmovOut o js w64 s w x).words.getD 1 0)
  lrPoison : y.lrPoison = (tmovOut o js w64 s w x).bad.any id
  rest : y.p = x.p ∧ y.fstat = x.fstat ∧ y.rng = x.rng ∧ y.tanrng = x.tanrng

/-- The operands of TMOV in a lane: sound, within the declared shadows, and a tangent's register not DEAD (R411). -/
structure TmovSound (s : State) (o : A1) (js jd : BitVec 3) (w64 : Bool) (w : Workgroup) (x : Thread) : Prop where
  plain : w.Plain
  armed : x.armed = none
  dual : dualCause s w = []
  causes : (readSrcs s w x [intSrc w64 o.a] []).causes = []
  full : (readSrcs s w x [intSrc w64 o.a] []).wait = false
  dst : dstCheck w x o.d (wWords w64) = ([], false)
  shadows : js.toNat ≤ w.shadows ∧ jd.toNat ≤ w.shadows
  live : jd ≠ 0 → ∀ r ∈ dstRegs o.d (wWords w64), (if r.1 then oReg x r.2 else vReg x r.2).st ≠ .dead

/-! ## Pair words (R273) -/

/-- The result of half 0 in a lane, and of half 1, which draws tangent roundings after it. -/
def pairOut0 (h0 h1 : Half) (s : State) (w : Workgroup) (x : Thread) : AluOut :=
  halfOut h0 s w x ((readSrcs s w x (halfSrcs h0 ++ halfSrcs h1) []).vals.take (halfSrcs h0).length)

def pairOut1 (h0 h1 : Half) (s : State) (w : Workgroup) (x : Thread) : AluOut :=
  halfOut h1 s w { x with tanrng := (pairOut0 h0 h1 s w x).tanrng.getD x.tanrng } ((readSrcs s w x (halfSrcs h0 ++ halfSrcs h1) []).vals.drop (halfSrcs h0).length)

/-- The operands of a pair word in a lane: both halves' sources FULL, both destinations writable, POISON only in a MOV half (R273, R133). -/
structure PairSound (s : State) (h0 h1 : Half) (w : Workgroup) (x : Thread) : Prop where
  plain : w.Plain
  armed : x.armed = none
  dual : dualCause s w = []
  causes : (readSrcs s w x (halfSrcs h0 ++ halfSrcs h1) []).causes = []
  full : (readSrcs s w x (halfSrcs h0 ++ halfSrcs h1) []).wait = false
  dst0 : dstCheck w x (.v h0.d) 1 = ([], false)
  dst1 : dstCheck w x (.v h1.d) 1 = ([], false)
  clean0 : h0.sop = .mov ∨ ((readSrcs s w x (halfSrcs h0 ++ halfSrcs h1) []).vals.take (halfSrcs h0).length).any (·.poison) = false
  clean1 : h1.sop = .mov ∨ ((readSrcs s w x (halfSrcs h0 ++ halfSrcs h1) []).vals.drop (halfSrcs h0).length).any (·.poison) = false

/-- A register that holds the first word of a result. -/
def regHalf (o : AluOut) : Reg := ⟨if o.bad.getD 0 false then .poison else .full, o.words.getD 0 0, shOf o.sh 0⟩

/-- A lane after a pair word: both halves read before either wrote; lr holds half 1's result (R273). -/
structure PairDone (s : State) (h0 h1 : Half) (w : Workgroup) (x y : Thread) : Prop where
  past : PastWord s y
  keeps : Keeps x y
  vRegs : ∀ n, vReg y n = if n = h1.d.toNat then regHalf (pairOut1 h0 h1 s w x) else if n = h0.d.toNat then regHalf (pairOut0 h0 h1 s w x) else vReg x n
  oRegs : ∀ n, oReg y n = oReg x n
  lr : y.lr = Word.pair ((pairOut1 h0 h1 s w x).words.getD 0 0) ((pairOut1 h0 h1 s w x).words.getD 1 0)
  fstat : y.fstat = x.fstat ||| (pairOut0 h0 h1 s w x).flags ||| (pairOut1 h0 h1 s w x).flags
  rest : y.p = x.p ∧ y.q = x.q ∧ y.rng = x.rng ∧ y.tanrng = x.tanrng

/-! ## Control words (R299 to R305) -/

/-- Where a control word leaves its lane. -/
inductive Goes where
  /-- past the word -/
  | next
  /-- at an address, where a new clause begins -/
  | jump (pc : Word)
  /-- at the word until its workgroup's clock has this value -/
  | sleep (until_ : Nat)

/-- A control word: guard, sources, when it has its own effect, where control goes, and the frame depth and link stack after it. -/
structure ControlSpec where
  pg : Guard
  srcs : List SrcSpec := []
  ok : State → Thread → List Opv → Prop := fun _ _ _ => True
  goes : State → Workgroup → Thread → List Opv → Goes := fun _ _ _ _ => .next
  depth : Thread → Nat := fun x => x.depth
  links : State → Thread → List (Nat × Word) := fun _ x => x.links

/-- In every lane that passes the guard the operands are sound and not POISON, and the word has its own effect. -/
def ControlSpec.sound (a : ControlSpec) (s : State) : Prop :=
  ∀ tid x w, Lane s tid x w → passes x a.pg = true →
    w.Plain ∧ dualCause s w = [] ∧ (readSrcs s w x a.srcs []).causes = [] ∧ (readSrcs s w x a.srcs []).wait = false ∧ Clean s w x a.srcs ∧ a.ok s x (readSrcs s w x a.srcs []).vals

/-- A lane after a control word: sources taken, depth and links, and its new place; a lane that sleeps has only begun to wait. -/
def ControlSpec.done (a : ControlSpec) (s : State) (w : Workgroup) (x y : Thread) : Prop :=
  let r := readSrcs s w x a.srcs []
  match a.goes s w x r.vals with
  | .sleep u => y = { x with run := .waiting (.sleep u), since := some (x.since.getD (wgClock s w)), retrying := none }
  | g => ReadDone a.srcs r.pops x y ∧
    y = { x with v := y.v, o := y.o, q := y.q, vc := y.vc, tokens := y.tokens, depth := a.depth x, links := a.links s x,
                 pc := (match g with | .jump pc => pc | _ => s.cur.next), hdr := (match g with | .next => if curLast s.cur then none else some s.cur.hdr | _ => none),
                 legacy := (match g with | .next => s.cur.legacy | _ => false), run := .ready, since := none, able := s.now, passed := false, resumed := false }

/-- R302: the frame that a call opens. -/
def callLinks (s : State) (x : Thread) : List (Nat × Word) := (x.depth + 1, s.cur.pc + 8) :: x.links

/-- R302: a frame is free, and the link stack has room on the chip. -/
def callOk (x : Thread) : Prop := x.depth < 255 ∧ x.links.length < 8

/-- R303: `n` frames are open and above the handler's, the return address is held on the chip, and no colour is held above the frame returned to. -/
def retOk (n : Nat) (x : Thread) : Prop :=
  n ≤ x.depth ∧ (x.trap.inh = true → x.trap.depth < x.depth - n) ∧ (x.links.find? fun l => l.1 == x.depth - n + 1).isSome = true ∧ coloursAbove x (x.depth - n) = []

/-- The return address of frame `x.depth - n + 1` (R300). -/
def retAddr (n : Nat) (x : Thread) : Word := ((x.links.find? fun l => l.1 == x.depth - n + 1).map (·.2)).getD 0

def retSpec (pg : Guard) (n : Nat) : ControlSpec :=
  { pg := pg, ok := fun _ x _ => retOk n x, goes := fun _ _ x _ => .jump (retAddr n x), depth := fun x => x.depth - n,
    links := fun _ x => x.links.filter fun l => decide (l.1 ≤ x.depth - n) }

def controlSpec : Instr → Option ControlSpec
  | .nop pg => some { pg := pg }
  | .bra pg mode a off => some { pg := pg, srcs := braSrc mode a, goes := fun s _ _ v => if braTaken mode (opv v 0) then .jump (relTarget s off) else .next }
  | .brx pg tab a off => some { pg := pg, srcs := xSrc tab a, ok := fun s _ v => (xTarget s tab off (opv v 0)).toNat % 8 = 0,
                                goes := fun s _ _ v => .jump (xTarget s tab off (opv v 0)) }
  | .call pg off => some { pg := pg, ok := fun _ x _ => callOk x, goes := fun s _ _ _ => .jump (relTarget s off), depth := fun x => x.depth + 1, links := callLinks }
  | .callx pg tab a off => some { pg := pg, srcs := xSrc tab a, ok := fun s x v => callOk x ∧ (xTarget s tab off (opv v 0)).toNat % 8 = 0,
                                  goes := fun s _ _ v => .jump (xTarget s tab off (opv v 0)), depth := fun x => x.depth + 1, links := callLinks }
  | .ret pg => some (retSpec pg 1)
  | .retn pg n => some (retSpec pg n.toNat)
  | .sleep pg a => some { pg := pg, srcs := [⟨a, 1, .int⟩], goes := fun s w x v =>
      if x.passed ∨ (opv v 0).nat false = 0 then .next else .sleep (wgClock s w + Nat.min ((opv v 0).nat false) (2 ^ 20)) }
  | _ => none

end Sys2Proof.Machine
end

