-- ==== Sys2Proof/Safety/Memory.lean ====
section
/-! DEFINITION. Safety/Memory: one thread that accesses memory: which bytes it reaches, what its registers hold after the word, and what the
memory words, the scratch words, the atomics and the barriers leave. -/

namespace Sys2Proof.Machine

/-! ## One thread -/

/-- The thread `x` is changed as `R` says, and every other thread is as before. -/
structure OneDone (s t : State) (x : Thread) (R : Thread → Prop) : Prop where
  mine : ∃ y, getT t x.tid = some y ∧ R y
  others : ∀ u, u ≠ x.tid → getT t u = getT s u

/-- A thread past a word that only reads registers (R156, R162, R168). -/
structure Took (s : State) (l : List SrcSpec) (pops : List Nat) (x y : Thread) : Prop where
  past : PastWord s y
  read : ReadDone l pops x y
  rest : y = { x with v := y.v, o := y.o, q := y.q, vc := y.vc, tokens := y.tokens, pc := y.pc, hdr := y.hdr, legacy := y.legacy, run := y.run,
                      since := y.since, able := y.able, passed := y.passed, resumed := y.resumed }

/-- A thread past a word whose result is on its way to `d`: the destination PENDING, lr untouched (R160, R167). -/
def Awaits (s : State) (l : List SrcSpec) (pops : List Nat) (d : Dst) (kd : Nat) (x y : Thread) : Prop :=
  LateDone s l pops d kd { words := [] } x y

/-- A value on its way to the registers `d` of the thread. -/
def onItsWay (s : State) (id : Nat) (x : Thread) (kind : OutKind) (d : Dst) (addr : Word) (words : List W32) : OutLoad :=
  { id := id, tid := x.tid, kind := kind, dest := destOf d, words := words.map fun v => ⟨v, false, []⟩, numerr := false, dead := false, port := none,
    pop := none, addr := addr, sx := false, interval := intervalOf s x.tid, line := none, tan := none, sync := none }

/-! ## The bytes that an access reaches -/

/-- The TLBs hold a leaf for the address that allows the access at this level (R110, R111). -/
structure PageHit (s : State) (core pasid pl : Nat) (va : Word) (r wr : Bool) (lf : Leaf) : Prop where
  canonical : va.toNat < 2 ^ 57
  entry : ∃ e, tlbFind s core pasid va.toNat = some e ∧ e.leaf = lf ∧ (wr = true → e.written = true)
  allows : leafAllows lf ⟨r, wr, false, pl⟩ = true
  reachable : paAllows s (leafPa lf va.toNat) pl = true

/-- A leaf without colour, tangents, race checking, rollback exclusion, layout or key. -/
structure PlainLeaf (lf : Leaf) : Prop where
  stripe : lf.stripe = 0
  colour : lf.colour = 0
  tp : lf.tp = false
  rc : lf.rc = false
  nr : lf.nr = false
  layout : lf.layout = 0
  key : lf.key = 0

/-- `n` bytes at `va` are bytes `a` on of the module's own HBM, in one block without error, poison, layout or key; nothing of the thread's core is in
flight to memory, nothing of the thread is in the side log for that page, and its workgroup has no mate. -/
structure PlainBytes (s : State) (x : Thread) (w : Workgroup) (va : Word) (n : Nat) (r wr : Bool) (lf : Leaf) (a : Nat) : Prop where
  hit : PageHit s x.tid.core w.pasid x.pl va r wr lf
  leaf : PlainLeaf lf
  home : homeOf s.module_ s.domain (leafPa lf va.toNat) = .hbm a
  fits : a % 64 + n ≤ 64
  block : getBlock s (a / 64) = Block.plain
  stores : ∀ y ∈ s.stores, y.core ≠ x.tid.core
  log : logged s x.tid va = false
  compare : ∀ c ∈ s.compare, c.tid ≠ x.tid

/-- L1 lines may have gone or have been filled for the block of `a`; no other line is new (R203, R207). -/
def LinesOf (s t : State) (core a : Nat) : Prop := ∀ y ∈ t.l1, y ∈ s.l1 ∨ (y.core = core ∧ y.block = a / 64)

/-! ## Global loads and stores (R337, R338) -/

def loadSrcs (m : MLoad) : List SrcSpec := [⟨m.base, 2, .int⟩]

/-- The effective address of a global load in a thread (R265). -/
def loadEa (m : MLoad) (s : State) (w : Workgroup) (x : Thread) : Word := globalEa (opv (readSrcs s w x (loadSrcs m) []).vals 0) m.off

def gstoreSrcs (m : MStore) : List SrcSpec := [⟨m.base, 2, .int⟩, ⟨m.data, m.w.k, .int⟩]

/-- The effective address and the data operand of a global store in a thread (R265). -/
def storeEa (m : MStore) (s : State) (w : Workgroup) (x : Thread) : Word := globalEa (opv (readSrcs s w x (gstoreSrcs m) []).vals 0) m.off
def storeData (m : MStore) (s : State) (w : Workgroup) (x : Thread) : Opv := opv (readSrcs s w x (gstoreSrcs m) []).vals 1

/-- Bytes `a` on hold `bytes`, and every other byte of memory is as before. -/
def Stored (s t : State) (a : Nat) (bytes : List Byte) : Prop :=
  ∀ c, getCell c t.mem = if a ≤ c ∧ c < a + bytes.length then bytes.getD (c - a) 0 else getCell c s.mem

/-- A store in flight. -/
def storeOut (id : Nat) (x : Thread) (w : Workgroup) (a : Nat) (bytes : List Byte) (poison : Bool) (ea : Word) : OutStore :=
  ⟨id, x.tid.core, x.tid, w.pasid, cellsAt a bytes, poison, 0, 0, none, ea, none, false⟩

/-! ## Scratch and cluster memory (R339 to R341) -/

/-- The workgroup and scratch address that an address names: the thread's own (LDS, STS), or a workgroup of its gang in the cluster (LDCL, STCL). -/
def padOf (cluster : Bool) (s : State) (w : Workgroup) (x : Thread) (ea n : Nat) : Option (Workgroup × Nat) :=
  if cluster then (match clusterTarget s w x.tid ea n with
    | .inl g => some (g, ea % 2 ^ 30)
    | .inr _ => none)
  else some (w, ea)

/-- `n` aligned bytes from `a` lie in the scratchpad of `g`, outside every binding. -/
structure PadBytes (s : State) (g : Workgroup) (a n : Nat) : Prop where
  known : getWg s g.id = some g
  plain : g.Plain
  aligned : a % n = 0
  inside : a + n ≤ g.scratch
  low : a + n ≤ 0x400000
  unbound : bindingAt g a = none
  unchunked : ∀ c ∈ g.chunks, c.index ≠ a / 256
  form : Memory.wf g.pad = true

def padLoadSrcs (m : MLoad) : List SrcSpec := [⟨m.base, 1, .int⟩]
def padLoadEa (m : MLoad) (s : State) (w : Workgroup) (x : Thread) : Nat := scratchEa (opv (readSrcs s w x (padLoadSrcs m) []).vals 0) m.off
def padStoreEa (m : MStore) (s : State) (w : Workgroup) (x : Thread) : Nat := scratchEa (opv (readSrcs s w x (storeSrcs m) []).vals 0) m.off
def padStoreData (m : MStore) (s : State) (w : Workgroup) (x : Thread) : Opv := opv (readSrcs s w x (storeSrcs m) []).vals 1

/-- Bytes `a` on of the scratchpad of `g` hold `bytes`; every other byte of it, every other field of `g` and every other workgroup is as before.
POISON data marks its block (R134). -/
structure PadStored (s t : State) (g : Workgroup) (a : Nat) (bytes : List Byte) (poison : Bool) : Prop where
  mine : ∃ g', getWg t g.id = some g' ∧ g' = { g with pad := g'.pad, padPoison := g'.padPoison } ∧
    g'.padPoison = (if poison && !g.padPoison.contains (a / 64) then g.padPoison ++ [a / 64] else g.padPoison) ∧
    ∀ c, getCell c g'.pad = if a ≤ c ∧ c < a + bytes.length then bytes.getD (c - a) 0 else getCell c g.pad
  others : ∀ k, k ≠ g.id → getWg t k = getWg s k

/-- The machine after a scratch or cluster load: the value from the scratchpad of `g` is on its way to the destination, and nothing else has changed. -/
def ScratchLoadDone (kind : OutKind) (m : MLoad) (s t : State) (x : Thread) (w g : Workgroup) (a : Nat) : Prop :=
  t = { s with
        threads := t.threads, l1 := t.l1, ids := s.ids + 1,
        loads := s.loads ++ [onItsWay s (s.ids + 1) x kind m.d (BitVec.ofNat 64 a)
          (dataWords (MWidth.bytes m.w) m.sx (getCells a (MWidth.bytes m.w) g.pad))] } ∧
  (∀ y ∈ t.l1, y ∈ s.l1) ∧ OneDone s t x (Awaits s (padLoadSrcs m) (readSrcs s w x (padLoadSrcs m) []).pops m.d m.w.k x)

/-- The machine after a scratch or cluster store: the bytes stand in the scratchpad of `g`, and nothing else has changed. -/
def ScratchStoreDone (m : MStore) (s t : State) (x : Thread) (w g : Workgroup) (a : Nat) : Prop :=
  t = { s with threads := t.threads, wgs := t.wgs, syncs := t.syncs } ∧
  PadStored s t g a (dataBytes (MWidth.bytes m.w) (padStoreData m s w x)) (padStoreData m s w x).poison ∧
  OneDone s t x (Took s (storeSrcs m) (readSrcs s w x (storeSrcs m) []).pops x)

/-! ## Caches and fences (R343, R344, R355) -/

def cinvalSrcs (base : Option Src) : List SrcSpec := match base with
  | some b => [⟨b, 2, .int⟩]
  | none => []

/-- The effective address of a word whose only operand is a base. -/
def baseEa (b : Src) (off : BitVec 20) (s : State) (w : Workgroup) (x : Thread) : Word := globalEa (opv (readSrcs s w x [⟨b, 2, .int⟩] []).vals 0) off

/-- Bytes of a page of layout 12: the leaf, the block and its descriptor `d`; nothing of the thread's core is in flight to memory, nothing of the thread
is in the side log for that page, and its workgroup has no mate (R342). -/
structure DescBytes (s : State) (x : Thread) (w : Workgroup) (va : Word) (r wr : Bool) (lf : Leaf) (a : Nat) (d : BitVec 16) : Prop where
  hit : PageHit s x.tid.core w.pasid x.pl va r wr lf
  layout : lf.layout = 12
  stripe : lf.stripe = 0
  colour : lf.colour = 0
  nr : lf.nr = false
  key : lf.key = 0
  home : homeOf s.module_ s.domain (leafPa lf va.toNat) = .hbm a
  die : dieIn s (dieOf a) = true
  block : getBlock s (a / 64) = ⟨12, d, 0, false, 0, 0, false⟩
  stores : ∀ y ∈ s.stores, y.core ≠ x.tid.core
  log : logged s x.tid va = false

def descSrcs (m : MStore) : List SrcSpec := [⟨m.base, 2, .int⟩, ⟨m.data, 1, .int⟩]

end Sys2Proof.Machine
end

