-- ==== Sys2Proof/Safety/OneThread.lean ====
section
/-! DEFINITION. Safety/OneThread: words that act on more than their thread, in a group of one lane: when such a word completes, what the machine
beside the thread is then, and what the thread holds. -/

namespace Sys2Proof.Machine

/-- What a word leaves in its destination: a value on its way, or words at once. -/
inductive Ending where
  | pending
  | wrote (words : List W32)

/-- A register after such a word (R167, R168). -/
def regEnd (l : List SrcSpec) (d : Dst) (kd : Nat) (e : Ending) (isO : Bool) (n : Nat) (old : Reg) : Reg :=
  match e with
  | .pending => regPending l d kd isO n old
  | .wrote ws => regAfter l (some d) { words := ws } isO n old

/-- lr after such a word: it changes only where it is named (R397). -/
def lrEnd (d : Dst) (e : Ending) (old : Word) : Word :=
  match d, e with
  | .lr, .wrote ws => Word.pair (ws.getD 0 0) (ws.getD 1 0)
  | _, _ => old

/-- A thread after a word that ends so; `f` says what else of the thread the word changes. -/
structure OneAfter (s : State) (l : List SrcSpec) (pops : List Nat) (d : Dst) (kd : Nat) (e : Ending) (f : Thread → Thread) (x y : Thread) : Prop where
  past : PastWord s y
  vRegs : ∀ n, vReg y n = regEnd l d kd e false n (vReg x n)
  oRegs : ∀ n, oReg y n = regEnd l d kd e true n (oReg x n)
  lr : y.lr = lrEnd d e x.lr
  q : ∀ n, kget [] n y.q = (kget [] n (f x).q).drop (pops.count n)
  rest : y = { f x with v := y.v, o := y.o, lr := y.lr, lrPoison := y.lrPoison, lrSh := y.lrSh, q := y.q, vc := y.vc, tokens := y.tokens, pc := y.pc,
                        hdr := y.hdr, legacy := y.legacy, run := y.run, since := y.since, able := y.able, passed := y.passed, resumed := y.resumed }

/-- A word of one thread: guard, sources, destination, privilege; when it completes beyond its operands, from their values; what the machine beside the
thread is then; what the destination holds, and what else of the thread changes. -/
structure OneWord where
  pg : Guard
  srcs : List SrcSpec := []
  d : Dst := .zero
  kd : Nat := 0
  need : Nat := 0
  ok : State → Workgroup → Thread → List Opv → Prop := fun _ _ _ _ => True
  effect : State → Workgroup → Thread → List Opv → State := fun s _ _ _ => s
  ending : State → Workgroup → Thread → List Opv → Ending := fun _ _ _ _ => .wrote []
  also : State → Workgroup → Thread → List Opv → Thread → Thread := fun _ _ _ _ => id

/-- The operands are sound and not POISON, the privilege suffices, and the word's own conditions hold. -/
structure OneWord.Sound (a : OneWord) (s : State) (w : Workgroup) (x : Thread) : Prop where
  operands : Machine.Sound s w x a.srcs a.d a.kd
  clean : Clean s w x a.srcs
  level : a.need ≤ x.pl
  own : a.ok s w x (readSrcs s w x a.srcs []).vals

/-- The machine after the word. Uniform registers change only where one is the destination (R170). -/
structure OneWord.Done (a : OneWord) (s t : State) (w : Workgroup) (x : Thread) : Prop where
  machine : t = { a.effect s w x (readSrcs s w x a.srcs []).vals with threads := t.threads, warps := t.warps }
  uniform : match a.ending s w x (readSrcs s w x a.srcs []).vals with
    | .pending => t.warps = (a.effect s w x (readSrcs s w x a.srcs []).vals).warps
    | .wrote ws => UniformDone (a.effect s w x (readSrcs s w x a.srcs []).vals) t [x.tid] ((gWrites a.d ws []).map fun y => (x.tid, y))
  threads : OneDone (a.effect s w x (readSrcs s w x a.srcs []).vals) t x
    (OneAfter s a.srcs (readSrcs s w x a.srcs []).pops a.d a.kd (a.ending s w x (readSrcs s w x a.srcs []).vals)
      (a.also s w x (readSrcs s w x a.srcs []).vals) x)

end Sys2Proof.Machine
end

