-- ==== Sys2Proof/Safety/Engines.lean ====
section
/-! DEFINITION. Safety/Engines: the scratch map, the asynchronous engine, streams and the matrix engine: when each word of one thread completes, and what
the machine is then. -/

namespace Sys2Proof.Machine

/-- A part of a word left the threads, the group at issue and the clock alone. -/
structure Quiet (s t : State) : Prop where
  threads : t.threads = s.threads
  cur : t.cur = s.cur
  now : t.now = s.now

/-- A part of a word left the ready thread `x`, the group at issue and the clock alone; it may have woken or changed other threads. -/
def Spares (s t : State) (x : Thread) : Prop := getT t x.tid = some x ∧ t.cur = s.cur ∧ t.now = s.now

/-! ## The scratch map (R345 to R348) -/

/-- The binding at the scratch address in the first operand. -/
def namedBinding (w : Workgroup) (v : List Opv) : Option Binding := w.smap.find? fun b => b.base == (opv v 0).nat false

/-- Write back of the binding that a word names. -/
def writeBackNamed (s : State) (w : Workgroup) (x : Thread) (v : List Opv) : State × Option LaneRes :=
  match namedBinding w v with
  | none => (s, none)
  | some b => writeBackBinding s w.id x b

def scratchMapWord : Instr → Option OneWord
  | .smap pg a b c => some {
      pg := pg, srcs := [⟨a, 1, .int⟩, ⟨b, 2, .int⟩, ⟨c, 1, .int⟩]
      ok := fun _ w _ v => smapCause w ((opv v 0).nat false) ((opv v 2).nat false) (opv v 1).word = none
      effect := fun s w _ v => modWg s w.id fun g => { g with
        smap := g.smap ++ [⟨(opv v 0).nat false, (opv v 1).word, (opv v 2).nat false⟩]
        chunks := g.chunks ++ (List.range ((opv v 2).nat false / 256)).map fun i => ⟨(opv v 0).nat false / 256 + i, false, [], false⟩ } }
  | .sunmap pg a => some {
      pg := pg, srcs := [⟨a, 1, .int⟩]
      ok := fun s w x v => (writeBackNamed s w x v).2 = none ∧ Quiet s (writeBackNamed s w x v).1
      effect := fun s w x v => match namedBinding w v with
        | none => s
        | some b => removeBinding (writeBackNamed s w x v).1 w.id b }
  | .swb pg none => some {
      pg := pg
      ok := fun s w x _ => (writeBackFrom s w x 0).2 = none ∧ Quiet s (writeBackFrom s w x 0).1
      effect := fun s w x _ => (writeBackFrom s w x 0).1 }
  | .swb pg (some a) => some {
      pg := pg, srcs := [⟨a, 1, .int⟩]
      ok := fun s w x v => (writeBackFrom s w x ((opv v 0).nat false)).2 = none ∧ Quiet s (writeBackFrom s w x ((opv v 0).nat false)).1
      effect := fun s w x v => (writeBackFrom s w x ((opv v 0).nat false)).1 }
  | _ => none

/-! ## The asynchronous engine (R361 to R379) -/

/-- One operation more is outstanding: its issuer's clock and held colours go with it (R199, R215, R361). -/
def forked (s : State) (w : Workgroup) (x : Thread) (d : Dst) (k : EngineKind) : State :=
  { s with ids := s.ids + 1, engines := s.engines ++ [mkOp s w x [x.tid] d k (s.ids + 1)] }

/-- The operation of a REMQ whose payload has been read: the blocks in error that were met, and the status under KILL (R134, R372). -/
def remqOp (s : State) (w : Workgroup) (x : Thread) (d : Dst) (a : W32) (addr : Nat) : EngineOp :=
  let p := remqData s w addr
  { mkOp s w x [x.tid] d (.remq (bits a.toNat 19 11) (bits a.toNat 10 0) p.1 (sourceWord s x.tid.core) p.2.1) (s.ids + 1) with
    affected := p.2.2.1, stop := p.2.2.2 }

/-- COPY, GATHER and SCATTER: the limits of the rows hold, both sides resolve, and the engine has room. -/
def copySpec (c : CopyOp) (kl : Nat) (rows : Opv → Rows × Bool) : OneWord where
  pg := c.pg
  srcs := copySrcs c kl
  d := c.d
  kd := 2
  ok := fun s w x v => (rows (opv v 2)).2 = false ∧
    ∃ S sd, resolveBoth s w x c (opv v 0) (opv v 1) (rows (opv v 2)).1 [] = (S, .inl sd) ∧ Quiet s S ∧
      opsFull S x.tid.core = false ∧ releasePending S x.tid c.scope = false
  effect := fun s w x v => match resolveBoth s w x c (opv v 0) (opv v 1) (rows (opv v 2)).1 [] with
    | (S, .inl (a, b)) => forked S w x c.d (.copy a b (rows (opv v 2)).1 c.scope none)
    | (S, .inr _) => S
  ending := fun _ _ _ _ => .pending

/-- One value more is on its way. -/
def sentValue (s : State) (l : OutLoad) : State := { s with ids := s.ids + 1, loads := s.loads ++ [l] }

def popSpec (o : A1) (nb : Bool) : OneWord where
  pg := o.pg
  srcs := [⟨o.a, 1, .int⟩]
  d := o.d
  kd := 1
  ok := fun _ w _ v => (opv v 0).w32.toNat % 64 = 0 ∧ scratchBad w (opv v 0).w32.toNat ⟨1, 64, 64, 64⟩ 64 = false
  effect := fun s w x v =>
    let S := pin s w.id
    let addr := (opv v 0).w32.toNat
    match popEntry S w x with
    | some e => sentValue (takeLanding (dropLanding S x.tid.core e) w x.tid addr e) (onItsWay s (s.ids + 1) x .pop o.d (BitVec.ofNat 64 addr) [e.source])
    | none =>
      if nb then sentValue S (onItsWay s (s.ids + 1) x .pop o.d (BitVec.ofNat 64 addr) [0xFFFFFFFF])
      else sentValue S { onItsWay s (s.ids + 1) x .pop o.d (BitVec.ofNat 64 addr) [0] with pop := some (addr, w.pasid) }
  ending := fun _ _ _ _ => .pending

/-- The stream that a descriptor gives (R375, R376). -/
def streamFrom (s : State) (w : Workgroup) (x : Thread) (d : StreamDesc) (n q : Nat) (ew : IWidth) (sx : Bool) (cp : Cp) : Stream :=
  { id := s.ids + 1, core := x.tid.core, wg := w.id, tid := x.tid, q := q, lanes := [x.tid], all := [x.tid], base := d.base, laneStride := d.laneStride,
    counts := d.counts.take n, strides := d.strides.take n, ew := ew, sx := sx, cp := cp, held := x.held.map (·.1), pl := x.pl, pos := 0, stop := none,
    faulted := none }

def engineWord : Instr → Option OneWord
  | .copy c => some (copySpec c 1 copyRows)
  | .gather c => some (copySpec c 4 (rowDesc true))
  | .scatter c => some (copySpec c 4 (rowDesc false))
  | .xred o s2g ty aop scope => some {
      pg := o.pg, srcs := [⟨o.a, 2, .int⟩, ⟨o.b, if s2g then 1 else 2, .int⟩, ⟨o.c, 1, .int⟩], d := o.d, kd := 2
      ok := fun s w x v => ∃ S cs, xredCauses s w x s2g ty aop (opv v 0).word (opv v 1) ((opv v 2).nat false) = (S, cs, none) ∧ lowest cs = none ∧ Quiet s S ∧
        opsFull S x.tid.core = false ∧ releasePending S x.tid scope = false
      effect := fun s w x v =>
        let S := (xredCauses s w x s2g ty aop (opv v 0).word (opv v 1) ((opv v 2).nat false)).1
        pin (forked S w x o.d (.xred (opv v 0).word (if s2g then .scratch (opv v 1).w32.toNat else .global (opv v 1).word none) ((opv v 2).nat false) ty aop scope)) w.id
      ending := fun _ _ _ _ => .pending }
  | .remq o ack => some {
      pg := o.pg, srcs := [⟨o.a, 1, .int⟩, ⟨o.b, 1, .int⟩], d := if ack then o.d else .zero, kd := 2
      ok := fun s w x v => lowest (remqCause s (opv v 0).w32 (opv v 1).w32.toNat w) = none ∧ opsFull s x.tid.core = false ∧
        remqHeld s (bits (opv v 0).w32.toNat 19 11) (bits (opv v 0).w32.toNat 10 0) = false ∧ releasePending s x.tid .sys = false
      effect := fun s w x v =>
        let S := pin s w.id
        let op := remqOp S w x (if ack then o.d else .zero) (opv v 0).w32 (opv v 1).w32.toNat
        sendRemq { S with ids := S.ids + 1, engines := S.engines ++ [op] } op w.pasid
      ending := fun _ _ _ _ => .pending }
  | .rqpop o nb => some (popSpec o nb)
  | .strm pg a cp dims sx ew q => some {
      pg := pg, srcs := [⟨a, 2, .int⟩]
      ok := fun s w x v => releasePending s x.tid .thr = false ∧ ∃ S b, plainRead s w x (opv v 0).word 64 64 = (S, .inl b) ∧ Quiet s S ∧
        streamBusy S x.tid.core q.toNat [x.tid] = false ∧ (parseStream b).bad (dims.toNat + 1) (IWidth.bytes ew) = false
      effect := fun s w x v => match plainRead s w x (opv v 0).word 64 64 with
        | (S, .inl b) => { S with ids := S.ids + 1, streams := S.streams ++ [streamFrom S w x (parseStream b) (dims.toNat + 1) q.toNat ew sx cp] }
        | (S, .inr _) => S }
  | .strmx pg q => some {
      pg := pg
      effect := fun s _ x _ => wakeAll (unbindLanes s q.toNat (if (qBound s x.tid q.toNat).isSome then [x.tid] else []))
      also := fun s _ x _ y => if (qBound s x.tid q.toNat).isSome then { y with q := kset q.toNat [] y.q } else y }
  | .tchk pg pd a => some {
      pg := pg, srcs := [⟨a, 2, .int⟩]
      also := fun _ _ _ _ y => setPred y pd.toNat true }
  | _ => none

/-! ## The matrix engine (R380 to R396) -/

/-- A matrix operation of one thread (R386): the warp holds the reed, the engine is configured, the slots and tiles are held, the engine has room. -/
def matrixSpec (pg : Guard) (l : List Src) (d : Dst) (m : List Opv → MatOp) : OneWord where
  pg := pg
  srcs := slotSrcs l
  d := d
  kd := 2
  ok := fun s w x v => hasReed s w x.tid = true ∧ matCauses w (m v) = [] ∧ opsFull s x.tid.core = false
  effect := fun s w x v => forked s w x d (.matrix (m v))
  ending := fun _ _ _ _ => .pending

/-- ACCLD and ACCST: beyond the reed and the tile, the address is aligned, in range and accessible, and the record fits (R389). -/
def accSpec (o : AccOp) (load : Bool) : OneWord where
  pg := o.pg
  srcs := accSrcs o
  d := o.d
  kd := 2
  ok := fun s w x v => hasReed s w x.tid = true ∧ matCauses w (accKind o load w v) = [] ∧
    ∃ S, accCauses s w x load o.s o.raw (accAddr o v) (accRec o w v) = (S, [], none) ∧ Quiet s S ∧ S.warps = s.warps ∧
      opsFull S x.tid.core = false ∧ releasePending S x.tid o.scope = false
  effect := fun s w x v => forked (accCauses s w x load o.s o.raw (accAddr o v) (accRec o w v)).1 w x o.d (.matrix (accKind o load w v))
  ending := fun _ _ _ _ => .pending

/-- A claim that is granted at once: within the declaration or the pool, and behind no earlier claim of the core (R384). -/
def claimNow (s : State) (w : Workgroup) (x : Thread) (a b : Nat) : Bool :=
  (a == 0 && b == 0) || !(w.pooled && overDecl w a b) ||
    (!((s.claims.takeWhile fun c => !(c.wg == w.id && c.tids.contains x.tid)).any fun c => c.core == w.core) && claimFits s w a b)

def matrixWord : Instr → Option OneWord
  | .tcfg pg a => some {
      pg := pg, srcs := [⟨a, 2, .int⟩]
      ok := fun s w x v => hasReed s w x.tid = true ∧ ∃ S b c, plainRead s w x (opv v 0).word 32 32 = (S, .inl b) ∧ Quiet s S ∧ parseTcsb b = some c ∧
        slotBusy S w.id = false
      effect := fun s w x v => match plainRead s w x (opv v 0).word 32 32 with
        | (S, .inl b) => wakeCore (modWg S w.id fun w =>
            { w with mx := { w.mx with cfg := parseTcsb b, slots := 0, tiles := 0, slotMem := [], slotPoison := [], acc := [] } }) w.core
        | (S, .inr _) => S }
  | .mtake pg => some {
      pg := pg
      ok := fun s w x _ => hasReed s w x.tid = true ∨ ((getWg (askReed s w.id (warpIndex s x.tid)) w.id).any fun g => hasReed (askReed s w.id (warpIndex s x.tid)) g x.tid) = true
      effect := fun s w x _ => if hasReed s w x.tid then s else askReed s w.id (warpIndex s x.tid) }
  | .mpass pg => some {
      pg := pg
      ok := fun s w x _ => hasReed s w x.tid = true
      effect := fun s w _ _ => passReed s w.id }
  | .mdrop pg => some {
      pg := pg
      ok := fun s w x _ => hasReed s w x.tid = true
      effect := fun s w _ _ => dropReed s w.id }
  | .oclaim o nb => some {
      pg := o.pg, srcs := [⟨o.a, 1, .int⟩, ⟨o.b, 1, .int⟩]
      ok := fun s w x v => w.mx.cfg.isSome = true ∧ (w.pooled = false → overDecl w ((opv v 0).nat false) ((opv v 1).nat false) = false) ∧
        (nb = true ∨ claimNow s w x ((opv v 0).nat false) ((opv v 1).nat false) = true)
      effect := fun s w x v => if claimNow s w x ((opv v 0).nat false) ((opv v 1).nat false) then
          grantClaim { s with claims := s.claims.filter fun c => !(c.wg == w.id && c.tids.contains x.tid) } w.id ((opv v 0).nat false) ((opv v 1).nat false)
        else s
      also := fun s w x v y => setPred y o.pd.toNat (claimNow s w x ((opv v 0).nat false) ((opv v 1).nat false)) }
  | .orel pg a b => some {
      pg := pg, srcs := [⟨a, 1, .int⟩, ⟨b, 1, .int⟩]
      ok := fun s w _ v => w.mx.cfg.isSome = true ∧ (opv v 0).nat false ≤ w.mx.slots ∧ (opv v 1).nat false ≤ w.mx.tiles ∧
        usesPending s w.id (w.mx.slots - (opv v 0).nat false) (w.mx.tiles - (opv v 1).nat false) = false
      effect := fun s w _ v => wakeCore (releaseSlots s w.id (w.mx.slots - (opv v 0).nat false) (w.mx.tiles - (opv v 1).nat false)) w.core }
  | .mma o => some (matrixSpec o.pg [o.a, o.b, o.c] o.d fun v => .mma false ((opv v 0).nat false) ((opv v 1).nat false) ((opv v 2).nat false))
  | .mmaz o => some (matrixSpec o.pg [o.a, o.b, o.c] o.d fun v => .mma true ((opv v 0).nat false) ((opv v 1).nat false) ((opv v 2).nat false))
  | .mxt pg d a c => some (matrixSpec pg [a, c] d fun v => .mxt ((opv v 0).nat false) ((opv v 1).nat false))
  | .mperm o => some (matrixSpec o.pg [o.a, o.b, o.c] o.d fun v => .mperm ((opv v 0).nat false) ((opv v 1).nat false) ((opv v 2).nat false))
  | .mrred pg d a c => some (matrixSpec pg [a, c] d fun v => .mrred ((opv v 0).nat false) ((opv v 1).nat false))
  | .accz o => some (matrixSpec o.pg [o.a] o.d fun v => .accz ((opv v 0).nat false))
  | .accld o => some (accSpec o true)
  | .accst o => some (accSpec o false)
  | .copym c => some {
      pg := c.pg, srcs := copySrcs c 1, d := c.d, kd := 2
      ok := fun s w x v => hasReed s w x.tid = true ∧ (copyRows (opv v 2)).2 = false ∧ ∃ m, s.cur.follow.bind followOp = some m ∧ matCauses w m = [] ∧
        ∃ S sd, resolveBoth s w x c (opv v 0) (opv v 1) (copyRows (opv v 2)).1 [] = (S, .inl sd) ∧ Quiet s S ∧ S.warps = s.warps ∧
          opsFull S x.tid.core = false ∧ releasePending S x.tid c.scope = false
      effect := fun s w x v => match resolveBoth s w x c (opv v 0) (opv v 1) (copyRows (opv v 2)).1 [] with
        | (S, .inl (a, b)) => forked S w x c.d (.copy a b (copyRows (opv v 2)).1 c.scope (s.cur.follow.bind followOp))
        | (S, .inr _) => S
      ending := fun _ _ _ _ => .pending }
  | .mstat pg d => some {
      pg := pg, d := d, kd := 1
      ending := fun s w x _ => .wrote [mstatWord s w x.tid] }
  | _ => none

end Sys2Proof.Machine
end

