-- ==== Sys2Proof/Safety/System.lean ====
section
/-! DEFINITION. Safety/System: spawns, broadcast words, colour words, special registers, services, invalidations and the firmware's words: when each word
of one thread completes, and what the machine is then. -/

namespace Sys2Proof.Machine

/-! ## Spawns and launches (R398 to R404) -/

def spawnSrcs (code args : Src) : List SrcSpec := [⟨code, 2, .int⟩, ⟨args, 4, .int⟩]

/-- The record that SPAWN deposits: its clock is the spawner's, one deeper (R399). -/
def spawnRec (s : State) (w : Workgroup) (x : Thread) (v : List Opv) : Rec := recOf w x (opv v 0).word (opv v 1).words (vcOf s x.tid)

/-- The deposit of SPAWN: the machine after it, and whether it was made. -/
def spawned (s : State) (w : Workgroup) (x : Thread) (v : List Opv) : State × Bool := deposit (pin s w.id) x.tid.core (spawnRec s w x v)

/-- The entry that SPAWNW pushes for one thread, of task kind `k` (R400). -/
def warpEntry (s : State) (w : Workgroup) (x : Thread) (k : Nat) (v : List Opv) : DEntry :=
  let code := ((taskKind s w k).map (·.entry)).getD 0
  { seq := 0, code := code, kind := 1, taskKind := k, recs := [recOf w x code (opv v 0).words (lanesVc s [x.tid])], lo := 0, hi := 0, chunk := 0,
    launch := w.launch, gang := w.gang }

/-- The entry that SPAWNR pushes for one thread: the range, and its chunk, which is at least 1 (R400). -/
def rangeEntry (s : State) (w : Workgroup) (x : Thread) (k : Nat) (v : List Opv) : DEntry :=
  let code := ((taskKind s w k).map (·.entry)).getD 0
  { seq := 0, code := code, kind := 2, taskKind := k, recs := [recOf w x code [0, 0, 0, 0] (lanesVc s [x.tid])], lo := (opv v 0).word, hi := (opv v 1).word,
    chunk := if (opv v 2).w32 == 0 then 1 else (opv v 2).w32, launch := w.launch, gang := w.gang }

/-- A spawn's predicate, where the form names one: whether the push was made (R398). -/
def spawnPred (nb : Option (BitVec 3)) (ok : Bool) (y : Thread) : Thread :=
  match nb with
  | some n => setPred y n.toNat ok
  | none => y

/-- The task kinds of a launch, as the record that it names gives them (R404). -/
def launchKinds (s : State) (w : Workgroup) (x : Thread) (r : LaunchRec) : State × (List Byte ⊕ LaneRes) :=
  if r.tasks == 0 then (s, .inl []) else plainRead s w x r.tasks 256 256

def launched (S : State) (w : Workgroup) (x : Thread) (b kb : List Byte) : State :=
  let r := launchOf b
  let T := countWalks (pin S w.id) w.pasid (r.entry :: (kindsOf r kb).map (·.entry))
  (startLaunch T w.pasid r (kindsOf r kb) none (lanesVc T [x.tid])).1

def taskWord : Instr → Option OneWord
  | .spawn pg nb code args => some {
      pg := pg, srcs := spawnSrcs code args
      ok := fun s w x v => x.fdepth < 15 ∧ (opv v 0).word.toNat % 8 = 0 ∧ releasePending s x.tid .die = false ∧
        (nb.isSome = true ∨ (spawned s w x v).2 = true) ∧ Spares s (spawned s w x v).1 x
      effect := fun s w x v => (spawned s w x v).1
      also := fun s w x v => spawnPred nb (spawned s w x v).2 }
  | .spawnw pg nb k args => some {
      pg := pg, srcs := [⟨args, 4, .int⟩]
      ok := fun s w x v => (taskKind s w k.toNat).isSome = true ∧ x.fdepth < 15 ∧ releasePending s x.tid .die = false ∧
        (nb.isSome = true ∨ (pushEntry (pin s w.id) x.tid.core (warpEntry s w x k.toNat v)).2 = true) ∧
        Spares s (pushEntry (pin s w.id) x.tid.core (warpEntry s w x k.toNat v)).1 x
      effect := fun s w x v => (pushEntry (pin s w.id) x.tid.core (warpEntry s w x k.toNat v)).1
      also := fun s w x v => spawnPred nb (pushEntry (pin s w.id) x.tid.core (warpEntry s w x k.toNat v)).2 }
  | .spawnr pg nb k lo hi chunk => some {
      pg := pg, srcs := [⟨lo, 2, .int⟩, ⟨hi, 2, .int⟩, ⟨chunk, 1, .int⟩]
      ok := fun s w x v => (taskKind s w k.toNat).isSome = true ∧ x.fdepth < 15 ∧ releasePending s x.tid .die = false ∧
        ((opv v 0).word.toNat < (opv v 1).word.toNat →
          (nb.isSome = true ∨ (pushEntry (pin s w.id) x.tid.core (rangeEntry s w x k.toNat v)).2 = true) ∧
          Spares s (pushEntry (pin s w.id) x.tid.core (rangeEntry s w x k.toNat v)).1 x)
      effect := fun s w x v => if (opv v 0).word.toNat < (opv v 1).word.toNat then
        (pushEntry (pin s w.id) x.tid.core (rangeEntry s w x k.toNat v)).1 else pin s w.id
      also := fun s w x v => spawnPred nb (if (opv v 0).word.toNat < (opv v 1).word.toNat then
        (pushEntry (pin s w.id) x.tid.core (rangeEntry s w x k.toNat v)).2 else true) }
  | .tget pg d => some {
      pg := pg, d := d, kd := 4
      ok := fun s _ x _ => (getWarp s x.tid.core x.tid.slot).any (·.ranged) = true ∧ (rangeOf s x.tid).isSome = true
      effect := fun s w x _ => match rangeOf s x.tid with
        | none => s
        | some r =>
          let S := modCore (pin s w.id) x.tid.core fun c => { c with ranges := updIf (fun y => y.slot == x.tid.slot) (fun y => { y with next := (nextChunk r).2 }) c.ranges }
          sentValue S (onItsWay s (s.ids + 1) x .unit_ d 0 (wordsOf 2 (nextChunk r).1.toNat ++ wordsOf 2 (nextChunk r).2.toNat))
      ending := fun _ _ _ _ => .pending }
  | .launch pg rec => some {
      pg := pg, srcs := [⟨rec, 2, .int⟩]
      ok := fun s w x v => releasePending s x.tid .dev = false ∧ (opv v 0).word.toNat % 128 = 0 ∧
        ∃ S b, plainRead s w x (opv v 0).word 128 128 = (S, .inl b) ∧ launchOk S w.pasid (some w.region) b = true ∧
        ∃ S' kb, launchKinds S w x (launchOf b) = (S', .inl kb) ∧ ((launchOf b).tasks = 0 ∨ kindsOk S' w.pasid (launchOf b).region kb = true) ∧
          launchRoom S' = true ∧ Spares s (launched S' w x b kb) x
      effect := fun s w x v => match plainRead s w x (opv v 0).word 128 128 with
        | (S, .inl b) => (match launchKinds S w x (launchOf b) with
          | (S', .inl kb) => launched S' w x b kb
          | (S', .inr _) => S')
        | (S, .inr _) => S }
  | _ => none

/-! ## Broadcast words, colours, special registers (R405 to R414) -/

/-- What BWRD reads: the core's copy and 1, or zeros where the copy is not of the context (R101). -/
def bwWords (s : State) (core pasid w : Nat) : List W32 :=
  match bwordAt (settleCopy s core w) core w with
  | some c => if c.pasid = pasid then wordsOf 2 c.val.toNat ++ [1] else [0, 0, 0]
  | none => [0, 0, 0]

/-- Privilege that a special register needs (R412). -/
def srNeed (n : Nat) : Nat := if 0x20 ≤ n ∧ n ≤ 0x26 then 1 else 0

def getsrWords (s : State) (w : Workgroup) (x : Thread) (n : BitVec 8) : List W32 := wordsOf (k64 (sr64 n)) ((srRead s w x n.toNat).getD 0).toNat

def stateWord : Instr → Option OneWord
  | .bwupd pg n op die a => some {
      pg := pg, srcs := [⟨a, 2, .int⟩]
      effect := fun s w x v => startUpdate (pin s w.id) x.tid.core w.pasid n.toNat op die (opv v 0).word }
  | .bwrd pg d n p => some {
      pg := pg, d := d, kd := 2
      effect := fun s _ x _ => settleCopy s x.tid.core n.toNat
      ending := fun s w x _ => .wrote ((bwWords s x.tid.core w.pasid n.toNat).take 2)
      also := fun s w x _ y => setPred y p.toNat ((bwWords s x.tid.core w.pasid n.toNat).getD 2 0 != 0) }
  | .cwait o => some {
      pg := o.pg, srcs := [⟨o.a, 1, .int⟩, ⟨o.b, 1, .int⟩]
      ok := fun _ _ x _ => x.passed = true
      also := fun _ _ x _ y => { setPred y o.pd.toNat (x.notified.getD true) with notified := none } }
  | .cnotify pg all a => some {
      pg := pg, srcs := [⟨a, 1, .int⟩]
      ok := fun s w x v => colourOf (opv v 0) ≠ 0 ∧ (x.held.any fun h => h.1 == colourOf (opv v 0)) = true ∧
        ∀ m, getMon s w.pasid (colourOf (opv v 0)) = some m → ∀ y ∈ m.cond, y.tid ≠ x.tid
      effect := fun s w _ v => notify (pin s w.id) w.pasid (colourOf (opv v 0)) all }
  | .cheld o => some {
      pg := o.pg, srcs := [⟨o.a, 1, .int⟩], d := o.d, kd := 1
      ending := fun _ _ x v => .wrote [heldWord x (colourOf (opv v 0))] }
  | .getsr pg d n => some {
      pg := pg, d := d, kd := k64 (sr64 n), need := srNeed n.toNat
      ok := fun s w x _ => (srRead s w x n.toNat).isSome = true
      ending := fun s w x _ => .wrote (getsrWords s w x n) }
  | .setsr pg n a => some {
      pg := pg, srcs := [⟨a, k64 (sr64 n), .int⟩], need := srNeed n.toNat
      ok := fun _ _ _ _ => srWritable n.toNat = true
      effect := fun s _ x v => if srWarp n.toNat then modWarp s x.tid.core x.tid.slot fun y => srWriteWarp y n.toNat (opv v 0).word else s
      also := fun _ _ _ v y => srWriteThread y n.toNat (opv v 0).word }
  | _ => none

/-! ## Services, invalidations and the firmware's words (R416 to R423) -/

/-- The answered request that the thread waits for (R416). -/
def answered (s : State) (x : Thread) : Option Service := s.services.find? fun v => v.answer.isSome && v.tids.any fun t => [x.tid].contains t

/-- The thread leaves the request; its L1 lines go, for the result is acquired. -/
def serviceDone (s : State) (x : Thread) : State :=
  match answered s x with
  | none => s
  | some v =>
    let r := { v with tids := v.tids.filter fun t => !(v.tids.filter fun t => [x.tid].contains t).contains t }
    (v.tids.filter fun t => [x.tid].contains t).foldl (fun s t => acquire s t.core .dev)
      { s with services := (updIf (fun y => y.id == v.id) (fun _ => r) s.services).filter fun y => !y.tids.isEmpty }

def serviceSpec (pg : Guard) (l : List SrcSpec) (d : Dst) (need : Nat) (known : Thread → Bool) : OneWord where
  pg := pg
  srcs := l
  d := d
  kd := 2
  need := need
  ok := fun s _ x _ => known x = true ∧ ∃ v, answered s x = some v ∧ v.tids.count x.tid = 1
  effect := fun s _ x _ => serviceDone s x
  ending := fun s _ x _ => .wrote (wordsOf 2 (((answered s x).bind (·.answer)).getD 0).toNat)

def tlbSrcs (form : TlbForm) (a : Src) (b : Option Src) : List SrcSpec :=
  (if form == .page then [⟨a, 2, .int⟩] else []) ++ (match b with
    | none => []
    | some x => [⟨x, 1, .int⟩])

/-- The context that TLBINV names: its second operand, or the thread's own (R419). -/
def tlbPasid (form : TlbForm) (b : Option Src) (w : Workgroup) (v : List Opv) : Nat :=
  match b with
  | none => w.pasid
  | some _ => (opv v (if form == .page then 1 else 0)).nat false % 2 ^ 20

/-- A thread that holds the colour which CCTL frees holds it no longer (R423). -/
def unheld (s : State) (pasid : Nat) (c : BitVec 16) (x y : Thread) : Thread :=
  if (getMon s pasid c).bind (·.holder) = some x.tid then { y with held := y.held.filter fun h => h.1 != c } else y

def rootWord : Instr → Option OneWord
  | .fwcall o svc => some (serviceSpec o.pg [⟨o.a, 2, .int⟩] o.d 0 fun x => fwServices.contains svc.toNat && decide (x.pl < 2))
  | .moncall o svc => some (serviceSpec o.pg [⟨o.a, 2, .int⟩, ⟨o.b, 2, .int⟩] o.d (if 0x10 ≤ svc.toNat then 2 else 1) fun _ => monServices.contains svc.toNat)
  | .icinv pg none => some {
      pg := pg, need := 1
      ok := fun s _ x _ => releasePending s x.tid .dev = false
      effect := fun s _ _ _ => { s with icache := [] } }
  | .icinv pg (some (a, n)) => some {
      pg := pg, srcs := [⟨a, 2, .int⟩, ⟨n, 1, .int⟩], need := 1
      ok := fun s _ x v => (opv v 1).w32 ≠ 0 ∧ releasePending s x.tid .dev = false
      effect := fun s w _ v => dropCode s w.pasid (opv v 0).word ((opv v 1).nat false) }
  | .tlbinv pg form a b => some {
      pg := pg, srcs := tlbSrcs form a b, need := if form == .all || b.isSome then 2 else 1
      ok := fun s w x v => releasePending s x.tid .dev = false ∧ (translationsInUse s w.role fun p => form == .all || p == tlbPasid form b w v) = false ∧
        Spares s (drainFor s form (tlbPasid form b w v)) x
      effect := fun s w _ v => invalidate (drainFor s form (tlbPasid form b w v)) form (tlbPasid form b w v) (opv v 0).word }
  | .fcxl pg a b => some {
      pg := pg, srcs := [⟨a, 1, .int⟩, ⟨b, 2, .int⟩], need := 2
      ok := fun s _ x v => Spares s (cancelPage s ((opv v 0).nat false % 2 ^ 20) ((opv v 1).word.toNat / 4096)) x
      effect := fun s _ _ v => cancelPage s ((opv v 0).nat false % 2 ^ 20) ((opv v 1).word.toNat / 4096) }
  | .finj pg a => some {
      pg := pg, srcs := [⟨a, 2, .int⟩]
      ok := fun _ w _ _ => w.rcb.inject = true }
  | .halt pg => some {
      pg := pg, need := 2
      ok := fun _ _ x _ => x.passed = true }
  | .cctl pg none a b => some {
      pg := pg, srcs := [⟨a, 1, .int⟩, ⟨b, 1, .int⟩], need := 2
      ok := fun s _ x v => Spares s (forceRelease s ((opv v 0).nat false % 2 ^ 20) (colourOf (opv v 1)))
        (unheld s ((opv v 0).nat false % 2 ^ 20) (colourOf (opv v 1)) x x)
      effect := fun s _ _ v => forceRelease s ((opv v 0).nat false % 2 ^ 20) (colourOf (opv v 1))
      also := fun s _ x v => unheld s ((opv v 0).nat false % 2 ^ 20) (colourOf (opv v 1)) x }
  | .cctl pg (some d) a b => some {
      pg := pg, srcs := [⟨a, 1, .int⟩, ⟨b, 1, .int⟩], d := d, kd := 2, need := 2
      ending := fun s _ _ v => .wrote (wordsOf 2 (((getMon s ((opv v 0).nat false % 2 ^ 20) (colourOf (opv v 1))).map (monWord s)).getD 0).toNat) }
  | _ => none

end Sys2Proof.Machine
end

