-- ==== Sys2Proof/Safety/Sync.lean ====
section
/-! DEFINITION. Safety/Sync: atomics, barriers, thread ends, software traps and returns from traps: when each word completes, and what the machine is then. -/

namespace Sys2Proof.Machine

/-! ## Atomics (R350 to R353) -/

/-- A global word of format T: its form, and what it does to its location. -/
structure AtomSpec where
  pg : Guard
  form : TForm
  rmw : List Opv → Rmw

def atomSpec : Instr → Option AtomSpec
  | .atom o => some ⟨o.pg, tForm o true, fun v => .op o.aop (opVal o.ty (opv v 1))⟩
  | .red o => some ⟨o.pg, tForm o false, fun v => .op o.aop (opVal o.ty (opv v 1))⟩
  | .atomcas o => some ⟨o.pg,
      { src := [⟨o.base, 2, .int⟩, ⟨o.b, AType.k o.ty, atomKind o.ty⟩, ⟨o.c, AType.k o.ty, atomKind o.ty⟩], d := o.d, ty := o.ty,
        scope := o.scope, ord := o.ord, result := true, off8 := 0 }, fun v => .cas (opVal o.ty (opv v 1)) (opVal o.ty (opv v 2))⟩
  | _ => none

/-- The effective address: the offset counts in operands' sizes (R350). -/
def atomEa (f : TForm) (v : List Opv) : Word := (opv v 0).word + f.off8.signExtend 64 * BitVec.ofNat 64 (AType.bytes f.ty)

/-- The value that the location held. -/
def atomOld (s : State) (f : TForm) (a : Nat) : Nat := leNat (getCells a (AType.bytes f.ty) s.mem)

/-- The location after the atomic: the new value, where the atomic writes (R351, R352). -/
def atomWritten (s : State) (f : TForm) (a : Nat) (r : Rmw) : State :=
  match Rmw.write f.ty (atomOld s f a) r with
  | none => s
  | some x => { s with mem := setCells (cellsAt a (leBytes (AType.bytes f.ty) x)) s.mem, dirty := (markDirty s (a / 64)).dirty }

/-- An atomic of one thread on the plain bytes `a` on of the module's own HBM: its effects happen at once, at its point of coherence; the value that the
location held is on its way to the destination of ATOM and ATOMCAS. -/
def AtomSpec.word (z : AtomSpec) (a : Nat) : OneWord where
  pg := z.pg
  srcs := z.form.src
  d := z.form.d
  kd := if z.form.result then AType.k z.form.ty else 0
  ok := fun s w x v => (atomEa z.form v).toNat % AType.bytes z.form.ty = 0 ∧ (Ord.rel z.form.ord = true → releasePending s x.tid z.form.scope = false) ∧
    ∃ lf, PlainBytes s x w (atomEa z.form v) (AType.bytes z.form.ty) z.form.result true lf a
  effect := fun s w x v =>
    let f := z.form
    let S := atomOrder (atomWritten (pin s w.id) f a (z.rmw v)) x.tid f a (Rmw.write f.ty (atomOld s f a) (z.rmw v)).isSome
    if f.result then sentValue S (onItsWay s (s.ids + 1) x .global f.d (atomEa f v) (wordsOf (AType.k f.ty) (atomOld s f a))) else S
  ending := fun _ _ _ _ => if z.form.result then .pending else .wrote []
  also := fun _ _ _ _ y => { y with atoms := y.atoms + 1 }

def atomWord (i : Instr) (a : Nat) : Option OneWord := (atomSpec i).map fun z => z.word a

/-- The scratch address of ATOMS (R353). -/
def atomsEa (o : TAtom) (v : List Opv) : Nat := ((opv v 0).w32 + o.off8.signExtend 32 * BitVec.ofNat 32 (AType.bytes o.ty)).toNat

def padAtomOld (w : Workgroup) (o : TAtom) (a : Nat) : Nat := leNat (padRead w a (AType.bytes o.ty)).1

/-- ATOMS on the thread's own scratchpad: device scope and wider act as cluster scope (R353). -/
def atomsWord (o : TAtom) : OneWord where
  pg := o.pg
  srcs := [⟨o.base, 1, .int⟩, ⟨o.b, AType.k o.ty, atomKind o.ty⟩]
  d := o.d
  kd := AType.k o.ty
  ok := fun s w x v => PadBytes s w (atomsEa o v) (AType.bytes o.ty) ∧ w.padPoison.contains (atomsEa o v / 64) = false ∧
    (Ord.rel o.ord = true → releasePending s x.tid (clScope o.scope) = false)
  effect := fun s w x v =>
    let a := atomsEa o v
    let old := padAtomOld w o a
    let f : TForm := { src := [⟨o.base, 1, .int⟩, ⟨o.b, AType.k o.ty, atomKind o.ty⟩], d := o.d, ty := o.ty, scope := clScope o.scope, ord := o.ord,
                       result := true, off8 := o.off8 }
    let S := if o.aop = .load then s else padWriteRange s w.id a (leBytes (AType.bytes o.ty) (atomNew o.ty o.aop old (opVal o.ty (opv v 1)))) false true
    sentValue (atomOrder S x.tid f (padLoc w a) (o.aop != .load)) (onItsWay s (s.ids + 1) x .atoms o.d (BitVec.ofNat 64 a) (wordsOf (AType.k o.ty) old))
  ending := fun _ _ _ _ => .pending

/-! ## Barriers (R356 to R360) -/

/-- A barrier word: its operand, the instance that it would begin, and the value that it offers. -/
structure BarSpec where
  pg : Guard
  kind : BarKind
  srcs : List SrcSpec := []
  d : Dst := .zero
  kd : Nat := 0
  inst : State → List Nat → BarInst
  val : List Opv → Word := fun _ => 0

def barSpec : Instr → Option BarSpec
  | .bar pg => some { pg := pg, kind := .bar, inst := fun s _ => barInst s .bar }
  | .gbar pg => some { pg := pg, kind := .gbar, inst := fun s _ => barInst s .gbar }
  | .ckpt pg => some { pg := pg, kind := .ckpt, inst := fun s _ => barInst s .ckpt }
  | .barp o op rnd u w64 => some {
      pg := o.pg, kind := .barp, srcs := [⟨o.a, wWords w64, redKind op w64⟩], d := o.d, kd := wWords w64
      inst := fun s pops => { barInst s .barp with op := op, rnd := rnd, u := u, w64 := w64, dst := o.d, words := wWords w64,
                                                   marks := markedRegs [⟨o.a, wWords w64, redKind op w64⟩], pops := pops }
      val := fun v => BitVec.ofNat 64 ((opv v 0).nat w64) }
  | _ => none

/-- The thread arrives: what it reads is sound, the instance begun is of the same word, and the release of its arrival is complete (R356 to R358). -/
structure BarSpec.Sound (a : BarSpec) (s : State) (w : Workgroup) (x : Thread) : Prop where
  operands : Machine.Sound s w x a.srcs a.d a.kd
  clean : Clean s w x a.srcs
  agrees : barAgrees s w (a.inst s (readSrcs s w x a.srcs []).pops) = true
  released : a.kind ≠ .ckpt → releasePending s x.tid (barScope w a.kind) = false

/-- The machine after the arrival: one arrival more in the workgroup, and the thread waits at its word. -/
structure Arrived (a : BarSpec) (s S : State) (w : Workgroup) (x : Thread) : Prop where
  machine : S = { s with wgs := S.wgs, threads := S.threads }
  group : getWg S w.id = some { w with bar := some (withArrival w.bar (a.inst s (readSrcs s w x a.srcs []).pops) x.tid (a.val (readSrcs s w x a.srcs []).vals)) }
  groups : ∀ k, k ≠ w.id → getWg S k = getWg s k
  thread : OneDone s S x fun y => y = { x with run := .waiting .barrier, since := y.since, retrying := y.retrying, vc := y.vc, tokens := y.tokens }

/-- The instance of `w` is full, and of no other workgroup: the participants are the threads of `w` alone. -/
structure BarReady (S : State) (w : Workgroup) (b : BarInst) : Prop where
  group : getWg S w.id = some w
  begun : w.bar = some b
  single : w.role = .single
  alone : barGroups S w b.kind = [w]
  full : barFull S w b.kind = true
  others : ∀ g ∈ S.wgs, g.id ≠ w.id → g.bar = none
  distinct : (b.arrived.map (·.tid)).Nodup
  own : ∀ a ∈ b.arrived, ∀ y, getT S a.tid = some y → y.wg = w.id

/-- A register of a thread that departs. -/
def regDepart (b : BarInst) (value : Nat) (isO : Bool) (n : Nat) (old : Reg) : Reg :=
  match if b.kind = .barp then dstWord b.dst isO b.words n else none with
  | some i => ⟨.full, (wordsOf b.words value).getD i 0, []⟩
  | none => if b.marks.contains (isO, n) then regDead else old

/-- A thread that departs: past the word, with the combination in its destination under BARP; a new interval has begun (R138, R356, R360). -/
structure Departs (b : BarInst) (value : Nat) (y z : Thread) : Prop where
  place : z.pc = b.next ∧ z.hdr = b.hdr ∧ z.run = .ready
  vRegs : ∀ n, vReg z n = regDepart b value false n (vReg y n)
  oRegs : ∀ n, oReg z n = regDepart b value true n (oReg y n)
  lr : z.lr = if b.kind = .barp ∧ b.dst = .lr then Word.pair ((wordsOf b.words value).getD 0 0) ((wordsOf b.words value).getD 1 0) else y.lr
  q : ∀ n, kget [] n z.q = (kget [] n y.q).drop (b.pops.count n)
  fresh : z.injected = false ∧ z.atoms = 0
  rest : z.p = y.p ∧ z.depth = y.depth ∧ z.pl = y.pl ∧ z.held = y.held ∧ z.fstat = y.fstat ∧ z.trap = y.trap

/-- The machine after the completion. -/
structure Completed (S t : State) (w : Workgroup) (b : BarInst) : Prop where
  machine : t = { S with threads := t.threads, wgs := t.wgs, warps := t.warps, l1 := t.l1, values := t.values }
  group : ∃ g, getWg t w.id = some g ∧ g.bar = none ∧ g.epoch.undo = [] ∧ g.epoch.pinned = false ∧ g.epoch.retries = 0
  arrived : ∀ a ∈ b.arrived, ∀ y, getT S a.tid = some y → ∃ z, getT t a.tid = some z ∧ Departs b (barValue S w b) y z
  others : ∀ u, u ∉ b.arrived.map (·.tid) → ∀ y, getT S u = some y → ∃ z, getT t u = some z ∧ z = { y with injected := z.injected, atoms := z.atoms }
  uniform : if b.kind = .barp then UniformDone S t (b.arrived.map (·.tid))
      ((b.arrived.map (·.tid)).flatMap fun u => (gWrites b.dst (wordsOf b.words (barValue S w b)) []).map fun g => (u, g))
    else t.warps = S.warps

/-! ## Thread ends, issue slots, software traps and returns (R243 to R246, R304 to R306, R415) -/

/-- Every other thread is as before, but that it may have been woken. -/
def OthersWoken (s t : State) (x : Tid) : Prop := ∀ u, u ≠ x → ∀ y, getT s u = some y → ∃ z, getT t u = some z ∧ z = { y with run := z.run, able := z.able }

/-- The machine `E` after the end of a thread: its colours released in `S`, the thread ended at its word, the reed passed where R304 says so. -/
structure Ended (s S E : State) (x : Thread) : Prop where
  machine : E = { S with threads := E.threads, wgs := E.wgs }
  thread : ∀ y, getT S x.tid = some y → getT E x.tid = some { y with run := .ended, pc := s.cur.pc, hdr := none, since := none, passed := false }
  others : OthersWoken S E x.tid

/-- No monitor is held by the thread. -/
def HoldsNone (s : State) (t : Tid) : Prop := ∀ m ∈ s.monitors, m.holder ≠ some t

/-- The monitors that the thread holds are those of its held colours, and it waits in no FIFO (R189). -/
structure HeldKnown (s : State) (w : Workgroup) (x : Thread) : Prop where
  held : ∀ m ∈ s.monitors, m.holder = some x.tid → m.pasid = w.pasid ∧ m.colour ∈ x.held.map (·.1)
  fifo : ∀ m ∈ s.monitors, ∀ y ∈ m.fifo, y.tid ≠ x.tid

/-- The machine `E` after a thread has released the colours `cs`. -/
structure Released (s E : State) (x : Thread) (cs : List (BitVec 16)) : Prop where
  machine : E = { s with threads := E.threads, monitors := E.monitors, l1 := E.l1, wgs := E.wgs, syncs := E.syncs }
  none : cs = [] → E = s
  thread : (∀ m ∈ s.monitors, ∀ y ∈ m.fifo, y.tid ≠ x.tid) → ∃ vc, getT E x.tid = some { x with held := x.held.filter fun h => !cs.contains h.1, vc := vc }

/-- The cause that a software trap raises: its immediate stands in the detail (R306). -/
def softCause : Instr → Option (Guard × Cause)
  | .bkpt pg => some (pg, { code := 0xB1 })
  | .trap pg imm => some (pg, { code := 0xB0, detail := imm.setWidth 32 })
  | _ => none

/-- A handler can be entered: the region has one, the thread is in none, and its depth leaves room (R244, R245). -/
def HandlerFree (w : Workgroup) (x : Thread) : Prop := w.rcb.trapVec ≠ 0 ∧ x.trap.inh = false ∧ x.depth < 255

/-- The trap state that an entry saves (R244, R247): `pc` is the resumption address, `back` the thread as it stands there. -/
def trapSaved (c : Cause) (pc : Word) (legacy : Bool) (mask : Word) (back : Thread) : TrapState :=
  { inh := true, legacy := legacy, integ := c.integ, shadow := c.shadow, cause := BitVec.ofNat 8 c.code, addr := c.addr, mask := mask, pc := pc, entryPc := pc,
    entryHdr := if back.pc = pc then back.hdr else none, aux := auxWord c, peer := c.peer, depth := back.depth, pl := back.pl }

/-- The thread in its handler: PL1, one frame deeper, at the vector, ready; registers, predicates, lr and held colours as before (R244). -/
def inHandler (now : Nat) (vec : Word) (t : TrapState) (x : Thread) : Thread :=
  { x with trap := t, pl := 1, depth := x.depth + 1, pc := vec, hdr := none, legacy := false, run := .ready, since := none, retrying := none,
           able := now }

/-- The thread after ERET (R246). -/
def returned (now : Nat) (x : Thread) : Thread :=
  { x with depth := x.trap.depth, links := x.links.filter fun l => decide (l.1 ≤ x.trap.depth), pl := x.trap.pl, trap := { x.trap with inh := false }, pc := x.trap.pc,
           hdr := if x.trap.pc = x.trap.entryPc then x.trap.entryHdr else none, resumed := true, run := .ready, since := none, able := now }

end Sys2Proof.Machine
end

