-- ==== Sys2Proof/Safety/Links.lean ====
section
/-! DEFINITION. Safety/Links: when the steps of the ports and the links are due, and what they leave: training (R28 to R31), flits (R22 to R26),
loss of link (R32), port registers (R34), PCI Express links (R19), the clock (R17), power (R27) and warm reset (R150 to R152). -/

namespace Sys2Proof.Machine

/-- A step of an agent other than a core's word: when it is due, and what it leaves. -/
structure Turn where
  due : State → Prop
  after : State → State → Prop

/-! ## Training (R28 to R31) -/

/-- A step of one port: the port, when it is due, the machine in which the port then changes, and the port after the step (from the machine before
and that machine). -/
structure PortTurn where
  port : State → Nat
  due : State → Port → Prop
  base : State → State := id
  after : State → State → Port → Port

/-- Port `x` is in `st`, entered at least `ns` ago. -/
def Port.within (x : Port) (s : State) (st : Train) (ns : Nat) : Prop := x.state = st ∧ x.entered + ns ≤ s.ns

/-- Port `x` is in `st`, and its time-out of `ns` has not come (R28). -/
def Port.inTime (x : Port) (s : State) (st : Train) (ns : Nat) : Prop := x.within s st 0 ∧ s.ns < x.entered + ns

def Port.entering (x : Port) (s : State) (st : Train) : Port := { x with state := st, entered := s.ns }

/-- A payload has gone out on VC3 in training (R28, R30). -/
def Port.told (x : Port) (body : FlitBody) : Port := { x with tx := x.tx ++ (flitParts body).map fun b => makeFlit 0 3 3 [0, 0, 0, 0] b }

/-- Back in DETECT from a later state; after four such returns the port is stuck (R29). -/
def Port.failed (x : Port) (s : State) : Port :=
  { x with state := .detect, fails := Nat.min 7 (x.fails + 1), stuck := x.stuck || decide (4 ≤ Nat.min 7 (x.fails + 1)), rate112 := false, peerQ := false,
           entered := s.ns, replayFails := 0, nak := none, outq := [] }

/-- A failure at 224 Gb/s is retried at 112; one at 112 returns to DETECT (R28). -/
def Port.slowed (x : Port) (s : State) : Port := if x.rate112 then x.failed s else { x with rate112 := true }.entering s .rate

/-- A round of EQUALISE has ended: DESKEW, the next preset, or after eight rounds the lower rate (R28). -/
def Port.round (x : Port) (s : State) (good : Bool) : Port :=
  let y := { x with eqRounds := x.eqRounds + 1 }
  if good then y.entering s .deskew else if 8 ≤ x.eqRounds + 1 then y.slowed s else (y.entering s .equalise).told (.preset (x.eqRounds + 2))

/-- The quarantine notice, where VC3 has a slot (R31). -/
def Port.noticed (x : Port) : Port := if x.credit 3 = 0 then x else x.send 3 3 .notice

/-- A link that has trained: empty buffers and the first sequence numbers. -/
def Port.opened (x : Port) : Port :=
  { x with txSeq := 0, rxSeq := 0, tx := [], replay := [], replayFails := 0, nak := none, outq := [], outstanding := [], peerQ := false }

def Port.quarantined (x : Port) (s : State) (why : Nat) : Port := ({ x.opened with why := why }.entering s .quarantine).noticed

def Port.active (x : Port) (s : State) : Port := { x.opened with fails := 0, why := 0, replays := 0 }.entering s .active

/-- R34: the port after a retrain. -/
def Port.retrained (x : Port) (s : State) : Port :=
  { x with state := .detect, stuck := false, fails := 0, why := 0, peerQ := false, rate112 := false, entered := s.ns, replayFails := 0, nak := none, outq := [] }

/-- IDENTITY ends: this end has signed, and the partner is verified, or why it is not (R30, R31). -/
def Port.identified (x : Port) (s : State) (partner : Partner) (ed ml : List Byte) : Port :=
  let y := x.told (ownSignatures (signedText partner.challenge x.challenge x.rate112 x.declared ownSlots))
  let text := signedText x.challenge partner.challenge x.rate112 ownSlots x.declared
  if Config.chainTrusted partner.chain = false then y.quarantined s 1
  else if Config.verify false partner.chain text ed = false then y.quarantined s 2
  else if Config.verify true partner.chain text ml = false then y.quarantined s 3
  else y.active s

/-- SLOTS ends in IDENTITY: both ends' counts are each from 1 to 1,024, and a monitor is in service that can identify the module (R24, R29, R30). -/
def slotsGood (s : State) (p : Nat) (counts : List Nat) : Bool := countsOk counts && countsOk ownSlots && (signerDie s (portDie p)).isSome

/-- The partner's counts become the credits, and this end's chain and a fresh challenge go out; or the port returns to DETECT (R24, R30). -/
def Port.slotted (x : Port) (s : State) (p : Nat) (counts : List Nat) : Port :=
  let y := { x with declared := counts, credits := counts, owed := [0, 0, 0, 0] }
  let c := (freshChallenge s).2
  if slotsGood s p counts then ({ y with challenge := c }.entering s .identity).told (.identity Config.deviceChain c)
  else if countsOk counts && countsOk ownSlots then y.entering s .identity
  else x.failed s

/-- The partner asks for the flits from `seq` on: those before it have come, and the others go out again in order (R25). -/
def Port.asked (x : Port) (seq : BitVec 16) : Port :=
  let again := x.replay.filter fun f => decide ((f.seq - seq).toNat < 2 ^ 15)
  Port.pump { x with replay := again, tx := x.tx ++ again.reverse, replays := satByte x.replays,
                     replayFails := if x.replaySeq = seq ∧ 0 < x.replayFails then x.replayFails + 1 else 1, replaySeq := seq }

/-- A write of VLCTL has set the port's fields; an ACTIVE port's requests have completed (R34). -/
def controlled (s : State) (p : Nat) (v : Word) : State :=
  let S := modPort s p fun x => { x with disable := v.getLsbD 1, force112 := v.getLsbD 2 }
  if (getPort s p).state = Train.active then failPort S p else S

/-- The die of the port is in service (R27). -/
def PortServes (s : State) (p : Nat) : Prop := portDieIn s (portDie p) = true

/-- A time-out: `ns` after the state was entered. -/
def onTimeout (st : Train) (ns : Nat) (f : Port → State → Port) : PortTurn :=
  { port := fun s => s.unit_, due := fun s x => PortServes s s.unit_ ∧ x.within s st ns, after := fun s _ x => f x s }

/-- A success within the time-out of its state. -/
def onSuccess (p : State → Nat) (st : Train) (ns : Nat) (f : Port → State → Port) : PortTurn :=
  { port := p, due := fun s x => PortServes s (p s) ∧ x.inTime s st ns, after := fun s _ x => f x s }

def portTurn : Instr → Option PortTurn
  | .detect => some { port := fun s => s.unit_, due := fun s x => PortServes s s.unit_ ∧ x.within s .detect 0 ∧ x.stuck = false ∧ x.disable = false, after := fun s _ x => { x with rate112 := x.force112 }.entering s .rate }
  | .detectRepeat => some { port := fun s => s.unit_, due := fun s x => PortServes s s.unit_ ∧ x.within s .detect 1000000 ∧ x.disable = false, after := fun s _ x => x.entering s .detect }
  | .rateLock => some (onSuccess (fun s => s.unit_) .rate 2000000 fun x s => ({ x with eqRounds := 0 }.entering s .equalise).told (.preset 1))
  | .rateTimeout => some (onTimeout .rate 2000000 Port.slowed)
  | .equaliseRound p good => some (onSuccess (fun _ => p) .equalise 500000 fun x s => x.round s good)
  | .equaliseTimeout => some (onTimeout .equalise 500000 fun x s => x.round s false)
  | .deskew => some (onSuccess (fun s => s.unit_) .deskew 100000 fun x s => (x.entering s .slots).told (.counts ownSlots))
  | .deskewTimeout => some (onTimeout .deskew 100000 Port.failed)
  | .slots p counts => some { onSuccess (fun _ => p) .slots 50000 fun x s => x.slotted s p counts with
      base := fun s => if slotsGood s p counts then (freshChallenge s).1 else s }
  | .slotsTimeout => some (onTimeout .slots 50000 Port.failed)
  | .identity p partner ed ml => some { port := fun _ => p, due := fun s x => PortServes s p ∧ (signerDie s (portDie p)).isSome = true ∧ x.inTime s .identity 200000000,
                                                after := fun s _ x => x.identified s partner ed ml }
  | .identityTimeout => some (onTimeout .identity 200000000 fun x s => x.quarantined s 4)
  | .quarantineNoticeSend => some (onTimeout .quarantine 1000000 fun x s => (x.entering s .quarantine).noticed)
  | .quarantineNotice => some { port := fun s => s.unit_, due := fun _ x => x.state = .active ∧ x.peerQ = false, after := fun _ _ x => x,
                                base := fun s => failPort (modPort s s.unit_ fun x => { x with peerQ := true, outq := x.outq.filter fun m => m.1 == 3 }) s.unit_ }
  | .replayRequest p seq => some { port := fun _ => p, due := fun _ x => x.state = .active ∨ x.state = .quarantine, after := fun _ _ x => x.asked seq }
  | .replayLimit => some { port := fun s => s.unit_, due := fun _ x => x.state = .active ∧ 16 < x.replayFails, base := fun s => failPort s s.unit_, after := fun _ s x => x.failed s }
  | .linkLoss => some { port := fun s => s.unit_, due := fun _ x => x.state = .active, base := fun s => failPort s s.unit_, after := fun _ s x => x.failed s }
  | .vlctlRetrain p v => some { port := fun _ => p, due := fun _ _ => v.getLsbD 0 = true, base := fun s => controlled s p v, after := fun _ s x => x.retrained s }
  | .vlctlDisable p v => some { port := fun _ => p, due := fun _ x => v.getLsbD 1 = true ∧ v.getLsbD 0 = false ∧ x.state ≠ .detect, base := fun s => controlled s p v,
                                after := fun _ s x => { x with state := .detect, rate112 := false, peerQ := false, entered := s.ns, nak := none, outq := [] } }
  | _ => none

/-! ## Flits (R22 to R26) -/

/-- The port takes flits (R28). -/
def Listens (s : State) (p : Nat) : Prop := p < 16 ∧ ((getPort s p).state = .active ∨ (getPort s p).state = .quarantine)

/-- VC0 to VC2 in QUARANTINE (R31). -/
def Quiet31 (s : State) (p : Nat) (f : Flit) : Prop := (getPort s p).state = .quarantine ∧ f.vc ≠ 3

/-- How far the flit is ahead of the number expected, modulo 2^16. -/
def ahead (s : State) (p : Nat) (f : Flit) : Nat := (f.seq - (getPort s p).rxSeq).toNat

/-- The next flit in sequence, intact, on a channel that the port takes (R25). -/
def Arrives (s : State) (p : Nat) (f : Flit) : Prop := Listens s p ∧ Flit.crcOk f = true ∧ ¬ Quiet31 s p f ∧ f.seq = (getPort s p).rxSeq

/-- A flit has been received: the next number is expected, slots have come back and what waited for them goes out, and its own is owed (R23 to R25). -/
def Port.counted (f : Flit) (x : Port) : Port :=
  Port.pump { x with rxSeq := x.rxSeq + 1, nak := none, credits := (List.range 4).map fun i => x.credits.getD i 0 + (f.credit.getD i 0).toNat,
                     owed := if f.kind = 4 then x.owed else x.owed.set f.vc.toNat (x.owed.getD f.vc.toNat 0 + 1) }

/-- The port asks for a replay from the number that it expects (R25). -/
def Port.asks (x : Port) : Port :=
  let y := { x with nak := some x.rxSeq }
  if y.sends 3 then ({ y with outq := y.outq ++ (flitParts (.replay x.rxSeq)).map fun b => (3, 3, b) }).pump else y

/-- A flit of one kind and channel (none: any of a known kind; 5 names no known kind); `take` is the machine once its body has acted. -/
structure FlitTurn where
  port : Nat
  flit : Flit
  lane : Option (Nat × Nat)
  take : State → FlitBody → State

/-- A request is served and its answer goes out on VC1 as that channel has slots; an unsupported request moves no data (R36). -/
def served (p : Nat) (s : State) (b : FlitBody) : State :=
  match peerAnswer s b with
  | (s, some (id, data, ok)) => sendLater s p 1 1 (.response id data ok)
  | (s, none) => s

def responded (p : Nat) (s : State) (b : FlitBody) : State :=
  match b with
  | .response id data ok => takeResponse s p id data ok
  | .slotReturn m => takeSlot s p m
  | _ => s

/-- A payload lands, or waits in the destination buffer behind those that came before (R26). -/
def enqueued (p : Nat) (s : State) (b : FlitBody) : State :=
  match b with
  | .payload core pasid source data poison =>
    let l : Landing := ⟨pasid % 2 ^ 20, source, (List.range 64).map fun i => data.getD i 0, [], poison⟩
    let wait := modCore s core fun c => { c with landingWait := c.landingWait ++ [(p, l)] }
    if Config.cores ≤ core then s else if (getCore s core).landingWait = [] then (landPayload s p core l).getD wait else wait
  | _ => s

def managed (p : Nat) (s : State) (b : FlitBody) : State :=
  match b with
  | .notice => takeNotice s p
  | .domain self members out into => if (getPort s p).state = .active then configureDomain s self members out into else s
  | .replay seq => modPort s p fun x => x.asked seq
  | _ => s

def flitTurn : Instr → Option FlitTurn
  | .requestFlit p f => some ⟨p, f, some (0, 0), served p⟩
  | .responseFlit p f => some ⟨p, f, some (1, 1), responded p⟩
  | .enqueueFlit p f => some ⟨p, f, some (2, 2), enqueued p⟩
  | .managementFlit p f => some ⟨p, f, some (3, 3), managed p⟩
  | .idleFlit p f => some ⟨p, f, none, fun s _ => s⟩
  | .unknownKindFlit p f => some ⟨p, f, some (5, 0), fun s _ => s⟩
  | _ => none

/-- What an arriving flit leaves. -/
structure FlitDone (a : FlitTurn) (s t : State) : Prop where
  /-- a port that takes no flits, or a flit that has come before -/
  refused : ¬ Listens s a.port ∨ (Flit.crcOk a.flit = true ∧ ¬ Quiet31 s a.port a.flit ∧ 2 ^ 15 ≤ ahead s a.port a.flit) → t = s
  /-- a damaged flit, or one beyond a gap: discarded, and a replay asked for; of a gap once -/
  missing : Listens s a.port → Flit.crcOk a.flit = false ∨ (¬ Quiet31 s a.port a.flit ∧ 0 < ahead s a.port a.flit ∧ ahead s a.port a.flit < 2 ^ 15) →
    t = if Flit.crcOk a.flit = true ∧ (getPort s a.port).nak = some (getPort s a.port).rxSeq then s else modPort s a.port Port.asks
  /-- VC0 to VC2 in QUARANTINE: dropped and counted; the number of the next in sequence is passed -/
  quiet : Listens s a.port → Flit.crcOk a.flit = true → Quiet31 s a.port a.flit → t = modPort s a.port fun x =>
    let y := if a.flit.seq = (getPort s a.port).rxSeq then x.counted a.flit else x
    { y with dropped := satW32 y.dropped }
  /-- an unknown kind: dropped and counted -/
  unknown : Arrives s a.port a.flit → 5 ≤ a.flit.kind.toNat → t = modPort s a.port fun x => { x.counted a.flit with dropped := satW32 (x.counted a.flit).dropped }
  taken : Arrives s a.port a.flit → a.flit.kind.toNat < 5 → (∀ k, a.lane = some k → a.flit.kind.toNat = k.1 ∧ a.flit.vc.toNat = k.2) →
    t = a.take (modPort s a.port (Port.counted a.flit)) a.flit.body

/-! ## The rest of the outside (R17, R19, R26, R27, R150 to R152) -/

/-- Accesses that wait for a translation through a link issue again. -/
def LinkWoken (s t : State) (k : Nat) : Prop :=
  (∀ u x, getT s u = some x → getT t u = some (match x.run with
    | .waiting (.ats l _ _ _) => if l = k then { x with run := .ready, able := s.now } else x
    | _ => x)) ∧
  t = { s with threads := t.threads, engines := t.engines, links := t.links }

/-- The machine once the stores of its own cores that are in flight have been performed. -/
def storesDone (s : State) : State := (s.stores.filter fun x => x.port.isNone).foldl performStore s

def outsideTurn : Instr → Option Turn
  | .pcieLinkDown => some ⟨fun _ => True, fun s t =>
      LinkWoken s t s.unit_ ∧ t.links = s.links.set s.unit_ { getLink s s.unit_ with up := false, ltssm := .detect }⟩
  | .pcieLinkUp => some ⟨fun s => s.records = [] ∧ pcieOk (getLink s s.unit_).width (getLink s s.unit_).gen = true ∧ portDieIn s s.unit_ = true, fun s t =>
      LinkWoken s t s.unit_ ∧ t.links = s.links.set s.unit_ { getLink s s.unit_ with up := true, ltssm := .l0 }⟩
  | .clockStepDown => some ⟨fun s => 425 ≤ s.clkMhz, fun s t => t = { s with clkMhz := s.clkMhz - 25 }⟩
  | .clockStepUp => some ⟨fun s => s.clkMhz ≤ 775, fun s t => t = { s with clkMhz := s.clkMhz + 25 }⟩
  | .remqPayloadLanding => some ⟨fun s => ∃ p l r, (getCore s s.unit_).landingWait = (p, l) :: r ∧ landingFull s s.unit_ = false, fun s t =>
      ∀ p l r, (getCore s s.unit_).landingWait = (p, l) :: r →
        t = modCore (wakeCore (servePops (sendLater (modCore s s.unit_ fun c => { c with landing := c.landing ++ [l] }) p 1 1 (.slotReturn s.module_)) s.unit_) s.unit_)
          s.unit_ fun c => { c with landingWait := r }⟩
  | .powerGood steps stackFail bridgeFail => some ⟨fun s => s.powered = false, fun s t =>
      let b : BringUp := ⟨steps, stackFail, bridgeFail⟩
      let total := ((List.range 6).map fun i => b.ns.getD i 0).foldl (· + ·) 0
      let boot := !stepFails b 0 && !stepFails b 1
      t = { State.reset with
        powered := true, freeCtr := s.freeCtr, unit_ := s.unit_, agenda := s.agenda, mem := s.mem.filter fun c => isHostKey c.1,
        ns := total, now := total * 800 / 1000,
        links := (List.range 2).map (linkAfter b (portDiesAfter b)),
        ports := State.reset.ports.map fun x => { x with entered := total },
        fw := { Firmware.reset with
          slotA := s.fw.slotA, slotB := s.fw.slotB, active := s.fw.active, hoVer := (activeImage s.fw).handoff, stepFail := bringStatus b, diesOk := diesAfter b,
          portDiesOk := portDiesAfter b, identity := boot, stopped := !boot, ranges := if boot then diesAfter b else 0 } }⟩
  | .powerRemoved => some ⟨fun _ => True, fun s t =>
      t = { State.reset with
        powered := false, freeCtr := s.freeCtr, unit_ := s.unit_, agenda := s.agenda, mem := s.mem.filter fun c => isHostKey c.1,
        fw := { Firmware.reset with slotA := s.fw.slotA, slotB := s.fw.slotB, active := s.fw.active, hoVer := (activeImage s.fw).handoff, identity := false, ranges := 0 } }⟩
  | .warmReset cause die lost stuck => some ⟨fun s => s.warm.began = none, fun s t =>
      t.warm = ⟨satW32 s.warm.count, cause, die % 16, lost, some s.ns, stuck.filter (storesDone s).dirty.contains, (s.contexts.map (·.pasid)).filter (inFlight s)⟩ ∧
      t.dirty = stuck.filter (storesDone s).dirty.contains ∧ t.groups = [] ∧ ∀ x ∈ t.stores, x.port ≠ none⟩
  | .warmResetWritebackDeadline => some ⟨fun s => ∃ b, s.warm.began = some b ∧ b + 15000000 ≤ s.ns, fun s t =>
      t.warm = { s.warm with stuck := [] } ∧ t.dirty = [] ∧ t.fw = { s.fw with diesOk := s.fw.diesOk &&& ~~~s.warm.lost } ∧
      ∀ b ∈ s.warm.stuck, (getBlock t b).poison = true⟩
  | .warmResetComplete => some ⟨fun s => ∃ b, s.warm.began = some b ∧ b + 38000000 ≤ s.ns, fun s t =>
      ∃ S, S = s.warm.interrupted.foldl interruptCtx (endTrial (abandonLines s)) ∧
        t = wakeAll (settleLaunches (resetCaches { S with warm := { S.warm with began := none, interrupted := [] } }))⟩
  | _ => none

end Sys2Proof.Machine
end

