-- ==== Sys2Proof/Safety/Host.lean ====
section
/-! DEFINITION. Safety/Host: when the steps of the host's side are due, and what they leave: queue registers and doorbells (R49 to R51), the register
writes (R5, R33, R41, R59, R115, R135), the fetcher and the packets (R52 to R58), REGION commits (R39), firmware and monitor (R37 to R48). -/

namespace Sys2Proof.Machine

/-! ## Queue registers (R49 to R51, R63) -/

/-- A stopping queue with nothing in flight is disabled (R50). -/
def Queue.settled (x : Queue) : Queue := if x.state = .stopping ∧ x.packets = [] then { x with state := .disabled } else x

/-- The queue after a reset, a write of enable, or a write of its registers. -/
def Queue.wasReset (x : Queue) : Queue :=
  if x.state = .disabled ∨ (x.state = .error ∧ x.packets = []) then { x with head := 0, tail := 0, err := 0, epoch := x.epoch + 1, state := .disabled } else x

/-- A teardown of the context is in progress on a link that `on` names (R50, R63). -/
def tearing (s : State) (pasid : Nat) (on : Nat → Bool) : Bool := (getCtx s pasid).any fun c => c.teardown.any on

/-- A write of enable = 1 (R50). -/
def Queue.enabled (s : State) (x : Queue) : Queue :=
  if x.state ≠ .disabled then { x with enable := true }
  else if bits x.cfg.toNat 4 0 < 6 ∨ 16 < bits x.cfg.toNat 4 0 ∨ x.base = 0 ∨ tearing s (bits x.cfg.toNat 31 12) (fun _ => true) = true then { x with enable := true, err := 0x0A }
  else { x with enable := true, state := .running }

/-- A write of enable = 0 (R50). -/
def Queue.stopped (x : Queue) : Queue :=
  (if x.state = QState.running ∨ x.state = QState.error then { x with enable := false, state := QState.stopping } else { x with enable := false }).settled

/-- A tail within the ring is taken; any other value, and any write to a queue that is disabled or torn down, is counted (R51, R63). The room is reckoned
modulo 2^32. -/
def Queue.rung (s : State) (q : Nat) (tail : W32) (x : Queue) : Queue :=
  if x.state ≠ .disabled ∧ (tail - x.tail).toNat ≤ (BitVec.ofNat 32 (2 ^ bits x.cfg.toNat 4 0) - (x.tail - x.head)).toNat
      ∧ tearing s (bits x.cfg.toNat 31 12) (fun k => k == q / 512) = false then { x with tail := tail }
  else { x with badDb := if x.badDb = 0xFFFF then 0xFFFF else x.badDb + 1 }

/-- The write's queue, and the queue after it. -/
def queueTurn : Instr → Option (Nat × (State → Queue → Queue))
  | .qctlReset w => some (w.q, fun s x => if w.enable then x.wasReset.enabled s else x.wasReset.stopped)
  | .qctlEnableSet q => some (q, fun s x => x.enabled s)
  | .qctlEnableClear q => some (q, fun _ x => x.stopped)
  | .doorbell q v off => if off = 0 then some (q, fun s x => x.rung s q (v.setWidth 32)) else none
  | .registerWrite (.qbase q) v => some (q, fun _ x => if x.state = .disabled then { x with base := v &&& ~~~0xFFF } else x)
  | .registerWrite (.qcfg q) v => some (q, fun _ x => if x.state = .disabled then { x with cfg := v &&& 0xFFFFFC1F } else x)
  | _ => none

/-- Queue `q` is `y`, and nothing else has changed. -/
structure QueueDone (s t : State) (q : Nat) (y : Queue) : Prop where
  mine : getQueue t q = y
  others : ∀ k, k ≠ q → getQueue t k = getQueue s k
  machine : t = { s with queues := t.queues }

/-! ## The other registers (R5, R33, R41, R59, R115, R135) -/

def fqOf (x : Link) (r : HostRing) : Link := { x with fq := r }
def eqOf (x : Link) (r : HostRing) : Link := { x with eq := r }

/-- A ring's size and enable: enable stays clear with a size outside 6 to 16 (R59). -/
def HostRing.configured (r : HostRing) (v : Word) : HostRing :=
  { r with log2 := bits v.toNat 4 0, enable := v.getLsbD 5 && decide (6 ≤ bits v.toNat 4 0 ∧ bits v.toNat 4 0 ≤ 16) }

/-- What a write leaves; `s.records = []` where a ring's configuration is written, so that no record waited for it. -/
def registerWritten (r : IoReg) (v : Word) (s t : State) : Prop :=
  match r with
  | .fqBase l => t = modLink s l fun x => fqOf x { x.fq with base := v &&& ~~~0xFFF }
  | .eqBase l => t = modLink s l fun x => eqOf x { x.eq with base := v &&& ~~~0xFFF }
  | .fqHead l => t = modLink s l fun x => fqOf x { x.fq with head := v.setWidth 32 }
  | .eqHead l => t = modLink s l fun x => eqOf x { x.eq with head := v.setWidth 32 }
  | .fqCfg l => s.records = [] → t = modLink s l fun x => fqOf x (x.fq.configured v)
  | .eqCfg l => s.records = [] → t = modLink s l fun x => eqOf x (x.eq.configured v)
  | .fsvca l => t = modLink s l fun x => { x with fsvca := v }
  | .vlctl p => p < 16 → s.ports.length = 16 → (v.getLsbD 1 = true → (getPort s p).state = .detect) →
      t = modPort s p fun x => { x with disable := v.getLsbD 1, force112 := v.getLsbD 2 }
  | .fwctl => t = if 1 ≤ bits v.toNat 15 0 ∧ bits v.toNat 15 0 ≤ 600 then { s with fw := { s.fw with trialS := bits v.toNat 15 0 } } else s
  | .heatctl => t = if bits v.toNat 15 0 ≤ 1000 then { s with heatMs := bits v.toNat 15 0 } else s
  | .memerr d => d < 16 → ∃ m : MemErr, m.corrected = v.extractLsb' 32 32 ∧ m.sev0 = v.extractLsb' 24 8 ∧ m.sev1 = v.extractLsb' 16 8 ∧ m.sev2 = v.extractLsb' 8 8 ∧
      m.sev3 = v.extractLsb' 0 8 ∧ t = { s with memerr := kset d m s.memerr }
  | .readOnly => t = s
  | .qbase _ => True
  | .qcfg _ => True

/-! ## Packets (R54 to R58) -/

/-- Records that a step writes: memory, the links, the records that wait. -/
def RecordsOnly (S t : State) : Prop := t = { S with queues := t.queues, mem := t.mem, links := t.links, records := t.records, ids := t.ids }

/-- A packet has completed (R56): its queue's last firmware-bound one, where it is a REGION packet (R47). -/
structure Completes (S t : State) (q : Nat) (p : Packet) : Prop where
  queue : getQueue t q = { getQueue S q with
    packets := (getQueue S q).packets.filter fun y => y.seq != p.seq, lastFw := if p.kind = 5 then some p.seq else (getQueue S q).lastFw }.settled
  queues : ∀ k, k ≠ q → getQueue t k = getQueue S k
  machine : RecordsOnly S t
  quiet : p.flag 1 = false → t = { S with queues := t.queues }

/-- A packet's effect is made: it completes, or waits for its writes to be acknowledged (R56, R58). -/
def Finishes (S t : State) (q : Nat) (p : Packet) : Prop :=
  (packetPending S q p.seq = false → Completes S t q p) ∧
  (packetPending S q p.seq = true → t = modPacket S q p.seq fun p => { p with sent := true, state := .running })

/-- A packet has failed with a code: the queue is in error with head at the packet; those that it has taken run on (R50, R57). -/
structure Fails (S t : State) (q : Nat) (seq : W32) (err : Nat) : Prop where
  queue : getQueue t q = { getQueue S q with
    packets := (getQueue S q).packets.filter fun y => y.seq != seq, err := BitVec.ofNat 8 err, head := seq,
    state := if (getQueue S q).state = QState.disabled then QState.disabled else QState.error }.settled
  queues : ∀ k, k ≠ q → getQueue t k = getQueue S k
  machine : RecordsOnly S t

/-- The packet has started. -/
def Packet.begun (s : State) (p : Packet) : Packet := { p with state := .running, started := s.ns, mark := s.ns }

def begin_ (s : State) (q : Nat) (seq : W32) : State := modPacket s q seq (Packet.begun s)

/-- The task table of a launch record, where it names one that is aligned (R93). -/
def kindsRead (s : State) (q : Nat) (seq : W32) (r : LaunchRec) : State × PktAccess :=
  if r.tasks = 0 ∨ r.tasks.toNat % 256 ≠ 0 then (s, .data [] false) else pktRead s q seq r.tasks 256

def launchGood (s : State) (pasid : Nat) (b kb : List Byte) (bad kbad : Bool) : Prop :=
  bad = false ∧ kbad = false ∧ launchOk s pasid none b = true ∧ ((launchOf b).tasks = 0 ∨ kindsOk s pasid (launchOf b).region kb = true)

/-- One read of a WAITV packet, an acquire (R56). -/
def Polled (s t : State) (q : Nat) (seq : W32) (p : Packet) : Prop :=
  ∀ S b bad J, pktRead s q seq (p.addr 8) 8 = (S, .data b bad) →
    J = modQueue S q (fun x => { x with vc := (metBy s S q p).foldl vcJoin x.vc }) →
    (bad = false → field p.bytes 16 8 ≤ leNat b → Completes J t q p) ∧
    (bad = true ∨ leNat b < field p.bytes 16 8 → t = modPacket J q seq fun x => { x with mark := S.ns })

/-- A SIGNAL has written its value, or added it: on a peer by an atomic there (R56). -/
def Signalled (s S : State) (q : Nat) (seq : W32) (p : Packet) : Prop :=
  let pasid := (getQueue s q).pasid
  let a := p.addr 8
  let v := field p.bytes 16 8
  let home := (pktXlate s pasid a true true).2.map fun x => homeOf s.module_ s.domain x.2
  (field p.bytes 24 1 ≠ 1 ∧ ∃ d k, pktWrite s q seq a (leBytes 8 v) false = (S, .data d k)) ∨
  (field p.bytes 24 1 = 1 ∧ (∀ m off, home ≠ some (.peer m off)) ∧ ∃ R b bad d k, pktRead s q seq a 8 = (R, .data b bad) ∧
    pktWrite R q seq a (leBytes 8 (v + leNat b)) bad = (S, .data d k)) ∨
  (field p.bytes 24 1 = 1 ∧ ∃ m off r, home = some (.peer m off) ∧ route s = some r ∧ credit s r 0 ≠ 0 ∧
    S = pktSend s q seq pasid r a fun id => .atomic id off .u64 .add (BitVec.ofNat 64 v))

/-- The step of a releasing packet, once its effect `write` is made from the machine whose stores have been performed (R58). -/
def Released_ (s t : State) (q : Nat) (seq : W32) (k : Nat) (sc : Packet → Scope) (write : State → Packet → State → Prop) : Prop :=
  ∀ p, releaseAt s q seq k = some p →
    (p.sent = true → Finishes s t q p) ∧
    (p.sent = false → ∀ S, write (drainContext s (getQueue s q).pasid) p S → getPacket S q seq = some p → Finishes (publish S q (p.addr 8) (sc p)) t q p)

/-- The commit of an image that the monitor has read (R39, R65). -/
def Committed (S t : State) (q : Nat) (seq : W32) (p : Packet) (pasid : Nat) (triple : Nat × BitVec 16 × W32) (b : List Byte) (bad : Bool) : Prop :=
  (targetLeaf S pasid (p.addr 16) = none ∨ bad = true ∨ commitOk S pasid b (p.addr 16) = false → Fails (handDone S q seq) t q seq 7) ∧
  ∀ l, targetLeaf S pasid (p.addr 16) = some l → bad = false → commitOk S pasid b (p.addr 16) = true →
    ∀ S' d k T, pktStore S q seq (p.addr 16) l (leafPa l (p.addr 16).toNat) b false true = (S', .data d k) →
      T = { commitTree S' pasid b (p.addr 16) (queueLink q) with fw := { (commitTree S' pasid b (p.addr 16) (queueLink q)).fw with
        triples := (commitTree S' pasid b (p.addr 16) (queueLink q)).fw.triples ++ [triple] } } →
      (packetPending T q seq = true → t = T) ∧ (packetPending T q seq = false → getPacket T q seq = some p → Completes (handDone T q seq) t q p)

/-- Each step of a packet: when its packet is at it, and what it leaves. -/
def packetTurn : Instr → Option Turn
  | .nopPacket q seq => some ⟨fun s => ∃ p, packetAt s q seq 0 .taken = some p, fun s t => ∀ p, packetAt s q seq 0 .taken = some p → Completes s t q p⟩
  | .launchPacket q seq => some ⟨fun s => (∃ p, packetAt s q seq 1 .taken = some p) ∧ launchRoom s = true, fun s t =>
      ∀ p S b bad S' kb kbad, packetAt s q seq 1 .taken = some p → pktRead s q seq (p.addr 8) 128 = (S, .data b bad) →
        kindsRead S q seq (launchOf b) = (S', .data kb kbad) →
          (launchGood S' (getQueue s q).pasid b kb bad kbad → ∃ L id, startLaunch
              (countWalks S' (getQueue s q).pasid ((launchOf b).entry :: (kindsOf (launchOf b) kb).map (·.entry))) (getQueue s q).pasid (launchOf b)
              (kindsOf (launchOf b) kb) (some (q, seq))
              (getQueue (countWalks S' (getQueue s q).pasid ((launchOf b).entry :: (kindsOf (launchOf b) kb).map (·.entry))) q).vc = (L, id) ∧
            t = modPacket (begin_ L q seq) q seq fun p => { p with launch := some id }) ∧
          (¬ launchGood S' (getQueue s q).pasid b kb bad kbad → Fails S' t q seq 8)⟩
  | .dmaPacket q seq => some ⟨fun s => ∃ p, packetAt s q seq 2 .taken = some p, fun s t => t = begin_ s q seq⟩
  | .dmaComplete q seq => some ⟨fun s => ∃ p, packetAt s q seq 2 .running = some p,
      fun s t => ∀ p, packetAt s q seq 2 .running = some p → t = dmaRun (field p.bytes 24 8 + 1) s q seq p ∧ (field p.bytes 24 8 ≤ p.moved → Finishes s t q p)⟩
  | .waitvPacket q seq => some ⟨fun s => ∃ p, packetAt s q seq 3 .taken = some p, fun s t => ∀ p, packetAt s q seq 3 .taken = some p → Polled (begin_ s q seq) t q seq p⟩
  | .waitvPoll q seq => some ⟨fun s => ∃ p, packetAt s q seq 3 .running = some p, fun s t => ∀ p, packetAt s q seq 3 .running = some p → Polled s t q seq p⟩
  | .waitvTimeout q seq => some ⟨fun s => ∃ p, packetAt s q seq 3 .running = some p ∧ field p.bytes 24 4 ≠ 0 ∧ p.started + field p.bytes 24 4 * 1000 ≤ s.ns,
      fun s t => Fails s t q seq 6⟩
  | .signalPacket q seq => some ⟨fun s => ∃ p, releaseAt s q seq 4 = some p, fun s t =>
      Released_ s t q seq 4 (fun p => scopeOf p.scope) fun s p S => Signalled s S q seq p⟩
  | .fencePacket q seq => some ⟨fun s => ∃ p, releaseAt s q seq 6 = some p, fun s t => ∀ p, releaseAt s q seq 6 = some p →
      Completes (drainContext s (getQueue s q).pasid) t q p⟩
  | .timestampPacket q seq => some ⟨fun s => ∃ p, releaseAt s q seq 7 = some p, fun s t =>
      Released_ s t q seq 7 (fun _ => .dev) fun S p T => ∃ d k, pktWrite S q seq (p.addr 8) (leBytes 8 s.ns) false = (T, .data d k)⟩
  | .regionPacket q seq => some ⟨fun s => (∃ p, packetAt s q seq 5 .taken = some p) ∧ fwTakes s = true, fun s t =>
      t = begin_ { s with fw := hoWrite { s.fw with
        hands := s.fw.hands ++ [(q, seq)], triples := s.fw.triples.filter fun x => (getPacket s x.1 x.2.2).isSome } [(16 + 16 * q, 8, hoField s.fw (16 + 16 * q) 8 + 1)] } q seq⟩
  | .regionCommit q seq => some ⟨fun s => ∃ p, packetAt s q seq 5 .running = some p ∧ (q, seq) ∈ s.fw.hands, fun s t =>
      ∀ p, packetAt s q seq 5 .running = some p →
        ((q, (getQueue s q).epoch, seq) ∈ s.fw.triples → if packetPending s q seq then t = s else Completes (handDone s q seq) t q p) ∧
        ((q, (getQueue s q).epoch, seq) ∉ s.fw.triples → ∀ S b bad, pktRead s q seq (p.addr 8) 256 = (S, .data b bad) →
          Committed S t q seq p (getQueue s q).pasid (q, (getQueue s q).epoch, seq) b bad)⟩
  | _ => none

/-- The packet that the fetcher takes. -/
def takenPacket (s : State) (q : Nat) (b : List Byte) : Packet := ⟨(getQueue s q).head, b, .taken, s.ns, s.ns, none, 0, false⟩

/-- The addresses of a packet's body, whose translations its checks walk. -/
def bodyWalks (p : Packet) : List Word := (if usedBytes p.kind < 16 then [] else [p.addr 8]) ++ if p.kind = 2 ∨ p.kind = 5 then [p.addr 16] else []

/-- The fetcher's turn: the link's next queue by class and round robin gives up its head packet, and a packet in error fails (R53 to R57). -/
def Fetched (S t : State) (q : Nat) (b : List Byte) : Prop :=
  ∃ T, T = countWalks (modLink (modQueue S q fun x => { x with head := x.head + 1, packets := x.packets ++ [takenPacket S q b] }) (queueLink q)
      (fun l => { l with lastServed := kset (getQueue S q).cls q l.lastServed })) (getQueue S q).pasid (bodyWalks (takenPacket S q b)) ∧
    match packetError T (getQueue S q).pasid b with
    | none => t = T
    | some e => Fails T t q (getQueue S q).head e

/-! ## Firmware and monitor (R37 to R48) -/

/-- A step of the firmware or the monitor: when it is due, and the firmware's state and the queues after it. -/
structure FwTurn where
  due : State → Firmware → Prop
  after : State → Firmware → Firmware
  queues : State → List (Nat × Queue)

/-- A window has not ended. -/
def before (s : State) (e : Option Nat) : Prop := ∃ n, e = some n ∧ s.ns < n

def isOver (s : State) (e : Option Nat) : Prop := ∃ n, e = some n ∧ n ≤ s.ns

def imageReady (f : Firmware) (image : Nat) (patch : Bool) : Bool := imageOk image patch && Config.imageReads image f.hoVer

/-- A patch commits once the monitor has written FWCOMMIT and the firmware has confirmed (R48). -/
def Firmware.patched (f : Firmware) : Firmware :=
  if f.patchWritten ∧ f.patchConfirmed then { f with trial := .committed, patchNew := none, patchEnd := none, patchWritten := false, patchConfirmed := false } else f

/-- The packets to deliver again: those in hand and those abandoned (R45). -/
def Firmware.held (f : Firmware) : List (Nat × W32) := f.hands ++ f.abandoned.filter fun p => !f.hands.contains p

/-- The old image, or the old patch, runs again (R45, R48). -/
def Firmware.returned (f : Firmware) : Firmware :=
  match f.patchNew with
  | some _ => { f with quiesce := none, reverting := false, patch := f.patchOld, patchNew := none, patchEnd := none, patchWritten := false, patchConfirmed := false }
  | none => { f with quiesce := none, reverting := false, active := !f.active, trialEnd := none }

/-- It replays the block where that is whole (R45, R47). -/
def Firmware.wentBack (f : Firmware) : Firmware :=
  { hoWrite { f.returned with hands := if hoOk f.returned then f.held else [], abandoned := [] } (hoPendingWrite []) with trial := .reverted }

/-- The queues restart where the block is not whole (R47). -/
def wentBackQueues (s : State) (f : Firmware) : List (Nat × Queue) := if hoOk f.returned then s.queues else (restartQueues s f.held).queues

/-- Ten milliseconds after a revert began: what firmware holds is abandoned, and told in the block (R45). -/
def Firmware.gaveUp (f : Firmware) : Firmware := hoWrite { f with hands := [], abandoned := f.abandoned ++ f.hands } (hoPendingWrite (f.abandoned ++ f.hands))

def fwTurn : Instr → Option FwTurn
  | .firmwareUpdateRequest image => some ⟨fun _ f => trialBusy f = false, fun s f =>
      let g := setOther { f with trial := .none } (imageOf image (imageReady f image false))
      if imageReady f image false then { g with quiesce := some (s.ns + quiesceNs), reverting := false, stopped := false } else g, fun s => s.queues⟩
  | .monitorPatchRequest image => some ⟨fun _ f => trialBusy f = false, fun s f =>
      if imageReady f image true then { f with trial := .none, patchNew := some (imageOf image true), patchOld := f.patch, quiesce := some (s.ns + quiesceNs), reverting := false }
      else { f with trial := .none }, fun s => s.queues⟩
  | .fwcommit w => some ⟨fun s f => f.trial = .inTrial ∧
        ((f.patchNew = none ∧ before s f.trialEnd ∧ (activeImage f).build = w.value.setWidth 32) ∨
         (∃ p, f.patchNew = some p ∧ before s f.patchEnd ∧ w.monitor = true ∧ p.build = w.value.setWidth 32)), fun _ f =>
      if f.patchNew = none then { hoWrite { f with trialEnd := none, hoVer := (activeImage f).handoff } [] with trial := .committed }
      else { f with patchWritten := true }.patched, fun s => s.queues⟩
  | .patchConfirmation build sigEd sigMl => some ⟨fun s f => ∃ p, f.patchNew = some p ∧ before s f.patchEnd ∧ p.build = build ∧ sigEd = true ∧ sigMl = true,
      fun _ f => { f with patchConfirmed := true }.patched, fun s => s.queues⟩
  | .quiescentPoint => some ⟨fun s f => before s f.quiesce ∧ f.hands = [], fun s f =>
      if f.reverting then f.wentBack
      else match f.patchNew with
      | some p => { f with trial := .inTrial, quiesce := none, patchEnd := some (s.ns + f.trialS * 1000000000), patchWritten := false, patchConfirmed := false, patch := some p }
      | none => { f with trial := .inTrial, quiesce := none, active := !f.active, trialEnd := some (s.ns + f.trialS * 1000000000) },
      fun s => if s.fw.reverting then wentBackQueues s s.fw else s.queues⟩
  | .quiescentTimeout => some ⟨fun s f => isOver s f.quiesce, fun _ f =>
      if f.reverting then f.gaveUp.wentBack else { f with quiesce := none, patchNew := none },
      fun s => if s.fw.reverting then wentBackQueues s s.fw.gaveUp else s.queues⟩
  | .trialWatchdog => some ⟨fun s f => f.trial = .inTrial ∧ f.reverting = false ∧ ((f.patchNew = none ∧ isOver s f.trialEnd) ∨ (f.patchNew ≠ none ∧ isOver s f.patchEnd)),
      fun s f =>
        if oldOk f then { f with quiesce := some (s.ns + quiesceNs), reverting := true }
        else { (match f.patchNew with
          | some _ => { f with patch := none, patchNew := none, patchEnd := none }
          | none => setOther { f with trialEnd := none } { otherImage f with valid := false }) with stopped := true, quiesce := none, reverting := false, trial := .reverted }, fun s => s.queues⟩
  | _ => none

/-- The firmware's state and the queues, and the event records that tell of it. -/
structure FwDone (s t : State) (f : Firmware) (queues : List (Nat × Queue)) : Prop where
  state : t.fw = f
  queued : t.queues = queues
  machine : t = { s with fw := t.fw, queues := t.queues, mem := t.mem, links := t.links, records := t.records, ids := t.ids }

/-- The monitor's signed answer to a request over DOE (R37): measurements of the ROM code, of the patch and of both slots, and the nonce. -/
def Attested (s t : State) (link : Nat) (request : SpdmAsk) : Prop :=
  ∃ r : Report, t = { s with reports := s.reports ++ [r] } ∧ r.link = link ∧ r.kind = request.kind ∧ r.nonce = request.nonce ∧ r.rom = Config.romMeasure ∧
    r.patch = s.fw.patch.map (fun p => Config.imageMeasure p.image) ∧ r.slotA = Config.imageMeasure s.fw.slotA.image ∧
    r.slotB = Config.imageMeasure s.fw.slotB.image ∧ r.active = s.fw.active ∧ r.handoff = s.fw.hoVer ∧
    r.sigEd = Config.sign false (Config.identityKey false) (reportText r) ∧ r.sigMl = Config.sign true (Config.identityKey true) (reportText r)

end Sys2Proof.Machine
end

