-- ==== Sys2Proof/Safety/Agents.lean ====
section
/-! DEFINITION. Safety/Agents: when the steps of the timers, the memory units, the placers, the thieves and the services are due, and what they leave. -/

namespace Sys2Proof.Machine

/-! ## Timers -/

/-- The machine `t` after the waiting thread `x` of `w` has trapped, where it stands (R243, R244): `y` is the thread as the entry finds it. -/
structure TrapsWaiting (s t : State) (w : Workgroup) (x y : Thread) (c : Cause) : Prop where
  thread : getT t x.tid = some (inHandler s.now w.rcb.trapVec (trapSaved c x.pc x.legacy (laneMask [x.tid]) y) y)
  others : ∀ u, u ≠ x.tid → getT t u = getT s u
  machine : t = { s with threads := t.threads, monitors := t.monitors, claims := t.claims, wgs := t.wgs }

/-- Thread `u` of `w` waits for what `f` names, and its region has a handler that it can enter. -/
def WaitsFree (s : State) (u : Tid) (x : Thread) (w : Workgroup) (f : WaitFor) : Prop :=
  getT s u = some x ∧ x.run = .waiting f ∧ getWg s x.wg = some w ∧ HandlerFree w x

/-- The clock of a lane that is granted monitor `m`: it joins what the release before it published, where each of the two lies within the colour's scope of the other (R192). -/
def grantVc (s : State) (m : Monitor) (u : Tid) (v : List (Nat × Nat)) : List (Nat × Nat) :=
  (s.syncs.filter fun e => e.addr == colourLoc m.pasid m.colour).foldl (fun v e => if mutualScope s e.tid e.scope u m.scope then vcJoin v e.vc else v) v

/-- A grant to the head `y` of a FIFO: the monitor is held, and the lane holds the colour and issues its word again (R189, R193, R195). -/
structure Granted (s t : State) (m : Monitor) (y : Waiter) : Prop where
  monitor : getMon t m.pasid m.colour = some { m with holder := some y.tid, count := m.count + 1, fifo := m.fifo.filter fun z => z.tid != y.tid }
  thread : ∀ x, getT s y.tid = some x → getT t y.tid = some { x with
    held := (m.colour, y.depth.getD x.depth) :: x.held, run := .ready, able := s.now, since := none, retrying := none, vc := grantVc s m y.tid x.vc, passed := y.depth.isSome }
  others : ∀ u, u ≠ y.tid → getT t u = getT s u
  machine : t = { s with threads := t.threads, monitors := t.monitors, l1 := t.l1 }

def timerTurn : Instr → Option Turn
  | .monitorGrant p c => some ⟨fun s => ∃ m y r, getMon s p (BitVec.ofNat 16 c) = some m ∧ m.holder = none ∧ m.fifo = y :: r,
      fun s t => ∀ m y r, getMon s p (BitVec.ofNat 16 c) = some m → m.fifo = y :: r → Granted s t m y⟩
  | .colourRequestRetry u => some ⟨fun s => ∃ x c va, getT s u = some x ∧ x.run = .waiting (.colourRetry c va) ∧ ∀ r, x.retrying = some r → r.2.2 + 64 ≤ s.now,
      fun s t => t = { s with threads := t.threads } ∧ ∀ x, getT s u = some x → OneDone s t x fun y => y = { x with run := .ready, able := s.now }⟩
  | .colourWaitTimeout u => some ⟨fun s => ∃ x w c va a, a + 2 ^ threadWd s x ≤ tidClock s u ∧
        ((WaitsFree s u x w (.colour c va) ∧ fifoSince s u = some a) ∨ (WaitsFree s u x w (.colourRetry c va) ∧ ∃ c' n, x.retrying = some (c', a, n))),
      fun s t => ∀ x w c va, WaitsFree s u x w (.colour c va) ∨ WaitsFree s u x w (.colourRetry c va) →
        TrapsWaiting s t w x { x with notified := none } { code := 0x61, addr := va, detail := c.setWidth 32 }⟩
  | .cwaitTimeout u => some ⟨fun s => ∃ m y e, (s.monitors.findSome? fun m => (m.cond.find? fun y => y.tid == u).map fun y => (m, y)) = some (m, y) ∧
        y.timeout = some e ∧ e ≤ tidClock s u,
      fun s t => ∀ m y, (s.monitors.findSome? fun m => (m.cond.find? fun y => y.tid == u).map fun y => (m, y)) = some (m, y) →
        (m.holder ≠ none → t = moveWaiter s m.pasid m.colour y false) ∧
        (m.holder = none → t = freeMonitor (moveWaiter s m.pasid m.colour y false) m.pasid m.colour)⟩
  | .watchdog u => some ⟨fun s => ∃ x w f a, WaitsFree s u x w f ∧ f.watched = true ∧ x.since = some a ∧ a + 2 ^ (threadWd s x + 4) ≤ tidClock s x.tid,
      fun s t => ∃ S, t = barAll S ∧ ∀ x w f, WaitsFree s u x w f → TrapsWaiting s S w x { x with notified := none } { code := 0xBE }⟩
  | .sleepExpiry u => some ⟨fun s => ∃ x e, getT s u = some x ∧ x.run = .waiting (.sleep e) ∧ e ≤ tidClock s u,
      fun s t => t = modT s u fun x => { x with run := .ready, able := s.now, passed := true, since := none }⟩
  | .spawnOverflow u => some ⟨fun s => ∃ x w c, WaitsFree s u x w .push ∧ x.since = some c ∧ c + 2 ^ 20 ≤ tidClock s u,
      fun s t => ∀ x w, WaitsFree s u x w .push → TrapsWaiting s t w x x { code := 0xA1 }⟩
  | .haltWake => some ⟨fun _ => True, fun s t => t = { s with threads := t.threads } ∧
      ∀ u x, getT s u = some x → getT t u = some (if u.core = s.unit_ ∧ x.run = .waiting .halt then { x with run := .ready, able := s.now, passed := true } else x)⟩
  | .reedHoldTimeout => some ⟨fun s => ∃ w i, getWg s s.unit_ = some w ∧ w.mx.reed.holder = some i ∧ w.state = .resident ∧ w.mx.reed.since + 2 ^ 22 ≤ wgClock s w,
      fun s t => ∀ w i, getWg s s.unit_ = some w → w.mx.reed.holder = some i → t = barAll (reedTimeout s w i)⟩
  | _ => none

/-! ## Memory units, engines and copies -/

/-- A register after a late value: word `i` in register `k + i` of the destination (R167). -/
def filledReg (d : Dest) (l : List FillWord) (isO : Bool) (n : Nat) (old : Reg) : Reg :=
  match d with
  | .v k => if isO = false ∧ k ≤ n ∧ n < k + l.length then fillReg (l.getD (n - k) ⟨0, false, []⟩) else old
  | .o k => if isO = true ∧ k ≤ n ∧ n < k + l.length then fillReg (l.getD (n - k) ⟨0, false, []⟩) else old
  | .none => old

/-- The load that a fill answers. -/
def fillOf (s : State) (id : Nat) : Option OutLoad := s.loads.find? fun l => l.id == id && loadHere s l && l.pop.isNone

/-- The value of a load of thread `x` has arrived, which may have ended (R167, R304). -/
structure Filled (s t : State) (l : OutLoad) (x y : Thread) : Prop where
  vRegs : ∀ n, vReg y n = filledReg l.dest l.words false n (vReg x n)
  oRegs : ∀ n, oReg y n = filledReg l.dest l.words true n (oReg x n)
  rest : y = { x with v := y.v, o := y.o, numerr := x.numerr || l.numerr, run := y.run, able := y.able }
  loads : t.loads = s.loads.filter fun z => z.id != l.id
  machine : t = { s with threads := t.threads, loads := t.loads, wgs := t.wgs }

/-- The lane, thread and element that a stream delivers next (R376). -/
structure Delivers (s : State) (x : Stream) (w : Workgroup) (u : Tid) : Prop where
  runs : x.stop = none ∧ x.faulted = none ∧ w.state = .resident
  lane : x.all[x.pos % x.all.length]? = some u ∧ x.lanes.contains u = true
  alive : ∃ y, getT s u = some y ∧ y.run ≠ .ended
  room : ((streamLanes s w u).any fun t => (getT s t).any fun y => decide (4 ≤ (kget [] x.q y.q).length)) = false

/-- The element of a stream as it is read: the machine, its bytes, POISON, and blocks in error. -/
def nextElem (s : State) (x : Stream) (w : Workgroup) (u : Tid) : State × ERead :=
  readGlobal s w (streamOp s x) (elemAddr x (x.pos / x.all.length) u.lane) (IWidth.bytes x.ew)

def unitTurn : Instr → Option Turn
  | .fill id => some ⟨fun s => ∃ l x w, fillOf s id = some l ∧ l.dead = false ∧ getT s l.tid = some x ∧ x.run ≠ .killed ∧ getWg s x.wg = some w,
      fun s t => ∀ l x, fillOf s id = some l → getT s l.tid = some x → ∃ y, getT t l.tid = some y ∧ Filled s t l x y⟩
  | .storeAcknowledge id => some ⟨fun s => ∃ x, s.stores.find? (fun x => x.id == id && x.port.isNone) = some x,
      fun s t => ∀ x, s.stores.find? (fun x => x.id == id && x.port.isNone) = some x →
        t = wakeAll ((s.stores.filter fun y => y.core == x.core && decide (y.id ≤ x.id) &&
          (y.id == x.id || cellsTouch y.cells (((x.cells.head?).map (·.1)).getD 0) x.cells.length)).foldl performStore s)⟩
  | .tableWalk core pasid va write => some ⟨fun s => va.toNat < 2 ^ 57 ∧ tlbFind s core pasid va.toNat = none ∧ ∃ S l pte, walk s pasid va.toNat = (S, .leaf l pte) ∧
        leafAllows l ⟨!write, write, false, 0⟩ = true ∧ paAllows S (leafPa l va.toNat) 0 = true,
      fun s t => ∀ S l pte, walk s pasid va.toNat = (S, .leaf l pte) → t = tlbFill S core pasid va.toNat l pte write⟩
  | .icacheFill core va => some ⟨fun s => ∃ x w S n l, s.threads.find? (fun t => t.tid.core == core && t.alive && t.pc.toNat / 64 == va.toNat / 64) = some x ∧
        getWg s x.wg = some w ∧ fetchLine s w x (BitVec.ofNat 64 (va.toNat / 64 * 64)) = (S, n, .line l),
      fun s t => ∀ x w S n l, s.threads.find? (fun t => t.tid.core == core && t.alive && t.pc.toNat / 64 == va.toNat / 64) = some x → getWg s x.wg = some w →
        fetchLine s w x (BitVec.ofNat 64 (va.toNat / 64 * 64)) = (S, n, .line l) → t = countSlips S core (pcEntry S x) n⟩
  | .streamElementDelivery id => some ⟨fun s => ∃ x w u S b p bad z, s.streams.find? (fun x => x.id == id) = some x ∧ getWg s x.wg = some w ∧ Delivers s x w u ∧
        nextElem s x w u = (S, .data b p bad z),
      fun s t => ∀ x w u S b p bad z, s.streams.find? (fun x => x.id == id) = some x → getWg s x.wg = some w → Delivers s x w u →
        nextElem s x w u = (S, .data b p bad z) → t = pushElem (dropReads S (.engine x.elemId)) w x u b p (!bad.isEmpty && !p)⟩
  | .broadcastWordCopyUpdate id core => some ⟨fun s => ∃ u, s.bupdates.find? (fun u => u.id == id && u.cores.contains core) = some u,
      fun s t => ∀ u, s.bupdates.find? (fun u => u.id == id && u.cores.contains core) = some u →
        t = ((s.bupdates.filter fun x => x.w == u.w && x.cores.contains core).filter fun x => decide (x.id ≤ id)).foldl (fun s x => takeUpdate s core x) s⟩
  | .engineOperationComplete id => some ⟨fun s => ∃ op w, getOp s id = some op ∧ op.state = .running ∧ getWg s op.wg = some w ∧ w.state ≠ .killed ∧ w.state ≠ .ended,
      fun s t => ∀ op w, getOp s id = some op → getWg s op.wg = some w → t = runOp s w op false⟩
  | .engineHandleRecheck id => some ⟨fun s => ∃ op w, getOp s id = some op ∧ op.state = .running ∧ getWg s op.wg = some w ∧ w.state ≠ .killed ∧ w.state ≠ .ended,
      fun s t => ∀ op w, getOp s id = some op → getWg s op.wg = some w → t = runOp s w op true⟩
  | .sideLogReplay core u => some ⟨fun s => ∃ e w S l pa R, s.sideLog.find? (fun e => e.core == core && e.tid == u) = some e ∧ getWg s e.wg = some w ∧
        translate s e.core e.pasid e.addr.toNat ⟨false, true, false, e.pl⟩ = (S, .ok l pa) ∧ replayOn S w (logThread s e) e l pa = (R, .done),
      fun s t => ∀ e w S l pa R, s.sideLog.find? (fun e => e.core == core && e.tid == u) = some e → getWg s e.wg = some w →
        translate s e.core e.pasid e.addr.toNat ⟨false, true, false, e.pl⟩ = (S, .ok l pa) → replayOn S w (logThread s e) e l pa = (R, .done) →
        t = wakeCore { R with sideLog := R.sideLog.filter fun y => y.id != e.id } e.core⟩
  | .heatSweep => some ⟨fun s => s.heatMs ≠ 0 ∧ kget 0 s.unit_ s.heatSwept + s.heatMs * 1000000 ≤ s.ns ∧ s.unit_ < 16,
      fun s t => t = ((s.contexts.flatMap fun c => match c.root with
        | some r => leafPtes s 5 r
        | none => []).eraseDups.filter fun a => dieOf a == s.unit_).foldl fadeHeat { s with heatSwept := kset s.unit_ s.ns s.heatSwept }⟩
  | _ => none

/-! ## Placing, stealing, segments and budgets -/

/-- A gang that ran has nothing left to end, and no work that descends from it waits (R79, R92). -/
structure GangIdle (s : State) (g : Gang) : Prop where
  placed : g.state = .placed
  none : ∀ w ∈ s.wgs, w.gang = g.id → w.fromDeque = false ∧ wgBusy s w = false
  queued : gangQueued s g.id = false

/-- The machine once an idle gang's workgroups are closed, and the gang retires. -/
def gangClosed (s : State) (g : Gang) : State :=
  let S := modGang (modGang s g.id fun y => { y with vc := vcJoin y.vc [] }) g.id fun y => { y with state := .retiring, vc := vcJoin g.vc (gangVc s g.id) }
  wakeAll ((s.wgs.filter fun w => w.gang == g.id).foldl (fun s w => closeWg s w.id) S)

/-- Where a thief asks after `n` victims (R98). -/
def askNext (s : State) (core n : Nat) : StealState :=
  match (stealOrder core)[n]? with
  | some v => .waiting v n
  | none => .backoff (s.now + 1024)

/-- The victim of the workgroup of a core that claims segment `seg`, in which another's contents stand. -/
def victimOf (s : State) (core seg : Nat) : Option Workgroup :=
  ((s.wgs.find? fun w => w.core == core && (segOf w seg).any fun g => g.saving && g.victim.isSome).bind fun w => (segOf w seg).bind (·.victim)).bind (getWg s)

/-- The workgroup of a core that has touched a segment whose contents are in its save area, and whose reading back goes on. -/
def restoring (s : State) (core seg wg : Nat) : Option Workgroup :=
  s.wgs.find? fun w => w.id == wg && w.core == core && w.state == .resident && (segOf w seg).any fun g => g.saved && g.saving && g.victim.isNone

/-- Pages of a segment already moved. -/
def movedOf (w : Workgroup) (seg : Nat) : Nat := ((segOf w seg).map (·.moved)).getD 0

/-- `x` claims segment `seg` of `core` from workgroup `v`. -/
def claims (core seg v : Nat) (x : Workgroup) : Bool := x.core == core && (segOf x seg).any fun g => g.victim == some v

def placeTurn : Instr → Option Turn
  | .gangPlacement => some ⟨fun s => dieIn s s.unit_ = true ∧ s.warm.began = none ∧ ∃ S c, firstPlaced s s.unit_ (candidates s) = some (S, c) ∧
        ∀ x ∈ s.cores, coreDie x.1 = s.unit_ → ∀ e, startable s x.1 = some e → entryClass s e ≤ c,
      fun s t => ∀ S c, firstPlaced s s.unit_ (candidates s) = some (S, c) → t = S⟩
  | .frozenGangResume => some ⟨fun s => s.warm.began = none ∧ ∃ S, (frozenUnits s s.unit_).findSome? (tryResume s) = some S,
      fun s t => (frozenUnits s s.unit_).findSome? (tryResume s) = some t ∧ ∀ u r, frozenUnits s s.unit_ = u :: r → canResume s u [] = true → t = resumeUnit s u⟩
  | .dequeEntryStart => some ⟨fun s => s.warm.began = none ∧ ∃ e, startable s s.unit_ = some e ∧
        (firstPlaced s (coreDie s.unit_) (candidates s) = none ∨ ∃ S c, firstPlaced s (coreDie s.unit_) (candidates s) = some (S, c) ∧ c < entryClass s e) ∧
        ∃ S f, popNewest s s.unit_ = (S, some f),
      fun s t => ∀ S f, popNewest s s.unit_ = (S, some f) → t = dequeRoom (startEntry S s.unit_ f) s.unit_⟩
  | .gangRetire => some ⟨fun s => ∃ g x, getGang s s.unit_ = some g ∧ getLaunch s g.launch = some x ∧
        ((g.state = .retiring ∧ g.orSent = none ∧ g.orFault = false) ∨ (∃ id, g.state = .retiring ∧ g.orSent = some id ∧ ∀ y ∈ s.stores, y.id ≠ id) ∨ GangIdle s g),
      fun s t => ∀ g x, getGang s s.unit_ = some g → getLaunch s g.launch = some x →
        (g.state = .retiring → g.orSent = none → t = completionOr s g x) ∧
        (g.state = .retiring → g.orSent ≠ none → t = gangRetired s g) ∧
        (GangIdle s g → ∃ G, getGang (gangClosed s g) g.id = some G ∧ G.state = .retiring ∧
          t = if G.killed || x.rcd.cmap == 0 then gangRetired (gangClosed s g) G else completionOr (gangClosed s g) G x)⟩
  | .dependencyWatcherPrompt die addr => some ⟨fun s => ∃ w ∈ s.watchers, w.1 = die ∧ w.2.1 = addr / 4096,
      fun s t => t = (s.watchers.filter fun w => w.1 == die && w.2.1 == addr / 4096).foldl (fun s w => testLaunch s w.2.2 (dieCore die)) s⟩
  | .dependencyRetest => some ⟨fun s => ∃ x ∈ s.launches, x.reg = false,
      fun s t => t = (s.launches.filter fun x => !x.reg).foldl (fun s x => testLaunch s x.id (dieCore (nextDie s 0))) s⟩
  | .binTimeout core bin => some ⟨fun s => ∃ b, (getCore s core).bins[bin]? = some b ∧ b.held = false ∧ b.opened + 2048 ≤ s.now,
      fun s t => ∀ b, (getCore s core).bins[bin]? = some b → t = (flushBin s core b.code b.gang).1⟩
  | .spillRetry => some ⟨fun s => spillDue s s.unit_ = true ∧ ∃ S, spillOldest s s.unit_ true = (S, true),
      fun s t => ∀ S, spillOldest s s.unit_ true = (S, true) → t = dequeRoom S s.unit_⟩
  | .stealRequest => some ⟨fun s => coreIdle s s.unit_ = true ∧ s.warm.began = none ∧ ((getCore s s.unit_).steal = .idle ∨ ∃ n, (getCore s s.unit_).steal = .asking n),
      fun s t => ((getCore s s.unit_).steal = .idle → t = setSteal s s.unit_ (askNext s s.unit_ 0)) ∧
        ∀ n, (getCore s s.unit_).steal = .asking n → t = setSteal s s.unit_ (askNext s s.unit_ n)⟩
  | .stealResponse => some ⟨fun s => ∃ v n, (getCore s s.unit_).steal = .waiting v n ∧
        ((∃ x S e T, stealable s v s.unit_ = some x ∧ takeEntry s v x = (S, some e) ∧ pushEntry S s.unit_ e = (T, true)) ∨
         (∃ r S, stealable s v s.unit_ = none ∧ splittable s v s.unit_ = some r ∧ pushEntry s s.unit_ (splitRange r).2 = (S, true)) ∨
         (stealable s v s.unit_ = none ∧ splittable s v s.unit_ = none)),
      fun s t => ∀ v n, (getCore s s.unit_).steal = .waiting v n →
        (∀ x S e T, stealable s v s.unit_ = some x → takeEntry s v x = (S, some e) → pushEntry S s.unit_ e = (T, true) → t = setSteal (dequeRoom T v) s.unit_ .idle) ∧
        (∀ r S, stealable s v s.unit_ = none → splittable s v s.unit_ = some r → pushEntry s s.unit_ (splitRange r).2 = (S, true) →
          t = setSteal (modCore S v fun c => { c with ranges := updIf (fun y => y.slot == r.slot) (fun _ => (splitRange r).1) c.ranges }) s.unit_ .idle) ∧
        (stealable s v s.unit_ = none → splittable s v s.unit_ = none → t = setSteal s s.unit_ (.asking (n + 1)))⟩
  | .stealBackoffExpiry => some ⟨fun s => ∃ e, (getCore s s.unit_).steal = .backoff e ∧ e ≤ s.now, fun s t => t = setSteal s s.unit_ .idle⟩
  | .segmentSaveComplete core seg => some ⟨fun s => ∃ v S, victimOf s core seg = some v ∧ v.state = .frozen ∧ segBusy s v seg = false ∧ discards s (unitOf s v) = false ∧
        writeSave (writeBackAll s v) v seg (segPages - movedOf v seg) (movedOf v seg) = (S, segPages),
      fun s t => ∀ v S, victimOf s core seg = some v → writeSave (writeBackAll s v) v seg (segPages - movedOf v seg) (movedOf v seg) = (S, segPages) →
        ∃ T, T = modWg S v.id (setSeg seg fun g => { g with saved := true, moved := 0 }) ∧
          t = wakeAll { T with wgs := updIf (claims core seg v.id) (setSeg seg fun g => { g with victim := none, saving := false }) T.wgs }⟩
  | .segmentRestore core seg wg => some ⟨fun s => ∃ w S n r, restoring s core seg wg = some w ∧ readSaves s w seg (segPages - movedOf w seg) (movedOf w seg) = (S, n, r) ∧ r ≠ .wait,
      fun s t => ∀ w S n r, restoring s core seg wg = some w → readSaves s w seg (segPages - movedOf w seg) (movedOf w seg) = (S, n, r) →
        (r = .good → t = wakeAll (modWg S w.id (setSeg seg fun g => { g with saved := false, saving := false, moved := 0 }))) ∧
        (r = .lost → t = wakeAll (kill S w.id 0x5A (w.rcb.saveBase + BitVec.ofNat 64 (seg * Config.segmentBytes + 4096 * n))))⟩
  | .budgetExhausted p a => some ⟨fun s => ∃ r q, getRegion s p a = some r ∧ r.exhausted = false ∧ r.live = true ∧ quotaNs r = some q ∧ q ≤ r.charged,
      fun s t => ∃ S, S = { s with regions := updIf (fun x => x.pasid == p && x.addr == a && x.live) (fun x => { x with exhausted := true }) s.regions } ∧
        t = { S with wgs := updIf (fun w => w.pasid == p && w.state == .resident && inSubtree S p a w.region) (fun w => { w with state := .held, frozenAt := s.now }) s.wgs }⟩
  | .budgetWindowBoundary => some ⟨fun s => s.window + 10000000 ≤ s.ns,
      fun s t => ∃ S, S = { s with window := s.ns / 10000000 * 10000000, regions := s.regions.map fun r => { r with rcb := r.pending.getD r.rcb, pending := none, charged := 0, exhausted := false } } ∧
        t = ((s.wgs.filter fun w => w.state == .held).map (·.id)).foldl thaw S⟩
  | _ => none

/-! ## Faults and services -/

/-- The pages of a context whose pending faults a PRI request for a bus page stands for. -/
def waitedPages (s : State) (link pasid page : Nat) : List Nat := ((s.faults.filter fun f => f.pasid == pasid && f.host == some (link, page)).map PendFault.page).eraseDups

def answerOf (s : State) (monitor : Bool) : Option Service := s.services.find? fun v => v.id == s.unit_ && v.monitor == monitor && v.answer.isNone

/-- A service is answered: its lanes issue their word again (R416, R417). -/
structure Answered (s t : State) (v : Service) (x : Word) : Prop where
  services : t.services = updIf (fun y => y.id == v.id) (fun y => { y with answer := some x }) s.services
  threads : ∀ u y, getT s u = some y → getT t u = some (if y.run = .waiting (.service v.id) then { y with run := .ready, able := s.now } else y)
  machine : t = { s with services := t.services, threads := t.threads }

def faultTurn : Instr → Option Turn
  | .fsvcbRetry link p => some ⟨fun s => ∃ f, s.faults.find? (pageFault (p % 2 ^ 20) (fsvcPage s link)) = some f,
      fun s t => ∀ f S x, s.faults.find? (pageFault (p % 2 ^ 20) (fsvcPage s link)) = some f → walk s (p % 2 ^ 20) (fsvcPage s link * 4096) = (S, x) →
        (x = .unmapped → t = faultRecord S (p % 2 ^ 20) (if f.write then 0x41 else 0x40) (BitVec.ofNat 64 f.addr)) ∧
        (x ≠ .unmapped →
          t = registerLog (releasePage { S with faults := S.faults.filter fun f => !pageFault (p % 2 ^ 20) (fsvcPage s link) f } (p % 2 ^ 20) (fsvcPage s link)))⟩
  | .fsvcbCancelPage link p => some ⟨fun s => ∃ f ∈ s.faults, f.pasid = p % 2 ^ 20 ∧ f.page = fsvcPage s link,
      fun s t => t = cancelPage s (p % 2 ^ 20) (fsvcPage s link)⟩
  | .fsvcbCancelPasid _ p => some ⟨fun s => ∃ f ∈ s.faults, f.pasid = p % 2 ^ 20,
      fun s t => t = ((s.faults.filter fun f => f.pasid == p % 2 ^ 20).map PendFault.page).eraseDups.foldl (fun s n => cancelPage s (p % 2 ^ 20) n) s⟩
  | .priResponse link p page good => some ⟨fun s => ∃ r, (getLink s link).atsReqs.find? (fun r => r.pri && r.pasid == p && r.page == page) = some r,
      fun s t => ∀ r, (getLink s link).atsReqs.find? (fun r => r.pri && r.pasid == p && r.page == page) = some r →
        (good = true → t = settleTeardowns (wakeAts ((waitedPages s link p page).foldl (fun s v => retryPage s p v) (dropReq s link r.id)) link p page)) ∧
        (good = false →
          t = settleTeardowns (wakeAts (failRings ((waitedPages s link p page).foldl (fun s v => cancelPage s p v) (dropReq s link r.id)) link p page) link p page))⟩
  | .atsCompletion link id res => some ⟨fun s => ∃ r, (getLink s link).atsReqs.find? (fun r => r.id == id && !r.pri) = some r,
      fun s t => ∀ r, (getLink s link).atsReqs.find? (fun r => r.id == id && !r.pri) = some r →
        (r.gen ≠ pasidGen s r.pasid → t = settleTeardowns (wakeAts (dropReq s link id) link r.pasid r.page)) ∧
        (r.gen = pasidGen s r.pasid → ∀ q, res = some q →
          t = settleTeardowns (wakeAts (modLink (dropReq s link id) link fun l => { l with atsCache := ⟨r.pasid, r.page, q⟩ :: l.atsCache }) link r.pasid r.page)) ∧
        (r.gen = pasidGen s r.pasid → res = none → Config.priMax ≤ ((getLink s link).atsReqs.filter (·.pri)).length →
          t = settleTeardowns (wakeAts (dropReq s link id) link r.pasid r.page)) ∧
        (r.gen = pasidGen s r.pasid → res = none → ((getLink s link).atsReqs.filter (·.pri)).length < Config.priMax →
          t = settleTeardowns (wakeAts (modLink s link fun l => { l with atsReqs := updIf (fun y => y.id == id) (fun y => { y with pri := true }) l.atsReqs }) link r.pasid r.page))⟩
  | .atsCompletionTimeout link id => some ⟨fun s => ∃ r, (getLink s link).atsReqs.find? (fun r => r.id == id && !r.pri && decide (r.deadline ≤ s.ns)) = some r,
      fun s t => ∀ r, (getLink s link).atsReqs.find? (fun r => r.id == id && !r.pri && decide (r.deadline ≤ s.ns)) = some r →
        t = settleTeardowns (wakeAts (dropReq s link id) link r.pasid r.page)⟩
  | .atsInvalidationRequest link p page => some ⟨fun _ => True,
      fun s t => t = modLink s link fun l => { l with atsCache := l.atsCache.filter fun e => !(e.pasid == p && e.page == page), invDone := l.invDone ++ [(p, page)] }⟩
  | .pstopGo link p => some ⟨fun s => bits (getLink s link).pstat.toNat 21 20 ≠ 1 ∧ ∃ c, getCtx s (p % 2 ^ 20) = some c,
      fun s t => ∃ S T, S = (modCtx s (p % 2 ^ 20) fun c => { c with teardown := c.teardown ++ [link], gen := c.gen + 1 }) ∧
        T = (S.queues.filter fun q => queueLink q.1 == link && Queue.pasid q.2 == p % 2 ^ 20).foldl (fun s q => stopQueue s q.1) S ∧
        t = wakeAll (settleTeardowns { modLink T link (fun l => { l with
              atsCache := l.atsCache.filter fun e => e.pasid != p % 2 ^ 20, pstat := BitVec.ofNat 64 (p % 2 ^ 20 + 2 ^ 20) }) with
            tlb := T.tlb.filter fun e => e.pasid != p % 2 ^ 20 })⟩
  | .fwcallAnswer => some ⟨fun s => ∃ v, answerOf s false = some v, fun s t => ∀ v, answerOf s false = some v → Answered s t v (fwResult s v.svc.toNat)⟩
  | .moncallAnswer => some ⟨fun s => ∃ v S x, answerOf s true = some v ∧ monService s v = (S, some x),
      fun s t => ∀ v S x, answerOf s true = some v → monService s v = (S, some x) → Answered S t v x⟩
  | _ => none

/-- A step of one of these agents. -/
def agentTurn (i : Instr) : Option Turn := (timerTurn i).or ((unitTurn i).or ((placeTurn i).or (faultTurn i)))

end Sys2Proof.Machine
end

