-- ==== Sys2Proof/Safety/Rules.lean ====
section
/-! DEFINITION. Safety/Rules: the properties by which single rules describe a result, written without the functions the machine computes it with. -/

namespace Sys2Proof.Machine

/-! ## Division (R228) -/

/-- The one signed division whose quotient has no pattern: the least number by −1. -/
def Overflows (u : Bool) (w a b : Nat) : Prop := u = false ∧ ival u w a = -(2 ^ (w - 1)) ∧ ival u w b = -1

/-- R228 of a quotient, on patterns of `w` bits. -/
structure IsQuotient (u : Bool) (w a b q : Nat) : Prop where
  pattern : q < 2 ^ w
  zero : b = 0 → q = 2 ^ w - 1
  overflow : Overflows u w a b → ival u w q = -(2 ^ (w - 1))
  trunc : b ≠ 0 → ¬ Overflows u w a b → ival u w q = (ival u w a).tdiv (ival u w b)

/-- R228 of a remainder: it has the sign of the dividend. -/
structure IsRemainder (u : Bool) (w a b r : Nat) : Prop where
  pattern : r < 2 ^ w
  zero : b = 0 → r = a
  overflow : Overflows u w a b → r = 0
  trunc : b ≠ 0 → ival u w r = (ival u w a).tmod (ival u w b)
  sign : b ≠ 0 → ival u w r ≠ 0 → (ival u w r < 0 ↔ ival u w a < 0)

/-- The sources of a word of two operands of one width. -/
def pairSrcs (o : A2) (w64 : Bool) : List SrcSpec := [intSrc w64 o.a, intSrc w64 o.b]

/-- In every lane that passes the guard the operands are sound and not POISON. -/
def Ready (s : State) (pg : Guard) (l : List SrcSpec) (d : Dst) (kd : Nat) : Prop :=
  ∀ tid x w, Lane s tid x w → passes x pg = true → Sound s w x l d kd ∧ Clean s w x l

/-- The two operands as patterns. -/
def patA (s : State) (l : List SrcSpec) (w64 : Bool) (w : Workgroup) (x : Thread) : Nat := (opv (readSrcs s w x l []).vals 0).nat w64
def patB (s : State) (l : List SrcSpec) (w64 : Bool) (w : Workgroup) (x : Thread) : Nat := (opv (readSrcs s w x l []).vals 1).nat w64

/-! ## Shifts (R287) -/

/-- The sources of a shift: the amount has 32 bits. -/
def shiftSrcs (o : A2) (w64 : Bool) : List SrcSpec := [intSrc w64 o.a, intSrc false o.b]

/-- Bit `i` of each shift of `a` by `k` in a word of `w` bits. -/
def shlBit (_w a k i : Nat) : Bool := decide (k ≤ i) && bitAt a (i - k)
def shrBit (w a k i : Nat) : Bool := decide (i + k < w) && bitAt a (i + k)
def shraBit (w a k i : Nat) : Bool := if i + k < w then bitAt a (i + k) else bitAt a (w - 1)
def rotlBit (w a k i : Nat) : Bool := bitAt a ((i + (w - k % w)) % w)

/-- `r` is a pattern of `w` bits that has these bits. -/
def HasBits (w r : Nat) (f : Nat → Bool) : Prop := r < 2 ^ w ∧ ∀ i, i < w → bitAt r i = f i

/-! ## Minimum and maximum (R227) -/

/-- `r` is the lesser (or, of `max`, the greater) of the patterns `a` and `b`, where −0 is below +0; a NaN gives way, or wins where `prop`. -/
structure IsExtremum (f : Fmt) (max prop : Bool) (a b r : Nat) : Prop where
  bothNan : (f.decode a).isNan = true → (f.decode b).isNan = true → r = f.nan
  aNan : (f.decode a).isNan = true → (f.decode b).isNan = false → r = if prop then f.nan else b
  bNan : (f.decode a).isNan = false → (f.decode b).isNan = true → r = if prop then f.nan else a
  chosen : (f.decode a).isNan = false → (f.decode b).isNan = false → r = a ∨ r = b
  extreme : (f.decode a).isNan = false → (f.decode b).isNan = false → ∀ c, c = a ∨ c = b →
    (if max then (f.decode r).lt (f.decode c) else (f.decode c).lt (f.decode r)) = false
  zeros : (f.decode a).isZero = true → (f.decode b).isZero = true →
    (f.decode r).sign = if max then (f.decode a).sign && (f.decode b).sign else (f.decode a).sign || (f.decode b).sign

/-- An operand of a scalar floating word after its modifiers (R309). -/
def fArg (s : State) (l : List SrcSpec) (m : FMod) (ab : Bool × Bool) (i : Nat) (w : Workgroup) (x : Thread) : Nat :=
  applyMod (ffmt m.fmt) ab (part (ffmt m.fmt) ((opv (readSrcs s w x l []).vals i).nat false) 0)

/-! ## Traps of one lane (R244) -/

/-- The thread is in its handler with cause `c` of the word at issue; an entry of a waiter table that it had reserved is given up (R188), and nothing else has changed. -/
def Trapped (s t : State) (x : Thread) (w : Workgroup) (c : Cause) : Prop :=
  t = { s with threads := t.threads, monitors := (unreserve s x.tid).monitors } ∧
  OneDone s t x fun y => y = inHandler s.now w.rcb.trapVec (trapSaved c (trapPc s.cur) s.cur.legacy (laneMask [x.tid]) x) x

/-- The thread waits at its word for `f`, and nothing else has changed of it. -/
def Waits (s : State) (f : WaitFor) (x y : Thread) : Prop :=
  y = { x with run := .waiting f, since := some (x.since.getD (tidClock s x.tid)), retrying := retried x.retrying (tidClock s x.tid) s.now f }

/-! ## Sources by state (R166) -/

/-- The `k` registers from `n` on of the v file or the o file. -/
def regRun (isO : Bool) (x : Thread) (n k : Nat) : List Reg := (List.range k).map fun i => if isO then oReg x (n + i) else vReg x (n + i)

/-- The operand names the `k` registers from `n` on, all of them in the thread's window. -/
def Names (w : Workgroup) (p : Opd) (isO : Bool) (n k : Nat) : Prop :=
  (∃ m, p = .v m ∧ isO = false ∧ n = m.toNat ∧ n + k ≤ w.vregs) ∨ ∃ m, p = .o m ∧ isO = true ∧ n = m.toNat

/-- Some of the registers is in this state. -/
def SomeIn (l : List Reg) (st : RegState) : Prop := ∃ r ∈ l, r.st = st

/-! ## Tangents of an operand (R237, R238) -/

/-- Component `j` of the tangent of an operand of `k` words, as a floating word reads it. -/
def tanOf (v : Opv) (j k : Nat) : Nat := wordsNat ((v.sh.getD (j - 1) []).take k)

/-- The operand is a constant: an integer specifier, a constant-table specifier, zero, or the literal word (R270). -/
def IsConstant (o : Opd) : Prop := o = .zero ∨ o = .lit ∨ (∃ n, o = .int n) ∨ ∃ n, o = .cst n

/-! ## Code (R105, R258 to R260, R280) -/

/-- The 64-byte line of the address `va` is mapped for the thread by a leaf without FE, layout and key that lets it execute; it is the block at `a` of the
module's own HBM, without error, and the cluster's instruction cache holds no line. -/
structure CodeLine (s : State) (x : Thread) (w : Workgroup) (va : Word) (lf : Leaf) (a : Nat) : Prop where
  mapped : ∀ v : Word, v.toNat / 64 = va.toNat / 64 → v.toNat < 2 ^ 57 ∧ (∃ e, tlbFind s x.tid.core w.pasid v.toNat = some e ∧ e.leaf = lf) ∧
    paAllows s (leafPa lf v.toNat) x.pl = true ∧ homeOf s.module_ s.domain (leafPa lf v.toNat / 64 * 64) = .hbm a
  allows : leafAllows lf ⟨false, false, true, x.pl⟩ = true
  plain : lf.leg = false ∧ lf.layout = 0 ∧ lf.key = 0
  block : getBlock s (a / 64) = Block.plain
  aligned : a % 64 = 0
  cold : ∀ y ∈ s.icache, y.cluster ≠ clusterId x.tid.core

/-- The word at byte `o` of the line at `a` in memory. -/
def codeWord (s : State) (a o : Nat) : Word := BitVec.ofNat 64 (leNat (getCells (a + o) 8 s.mem))

end Sys2Proof.Machine
end

