-- ==== Sys2Proof/Certificates/Slice0/Obligations.lean ====
section
/-! DEFINITION. Obligations: the statements for the provers. Every Done, After and Spec they name is defined in Safety. -/

open Sys2Proof Sys2Proof.Machine

/-- R102, R103, R259, R269: one word of one group in one step. -/
def Obligations.StepRunsDecoded : Prop :=
  ∀ (s A S E : State) (core : Nat) (r : List Item) (c : Cand) (more : Bool) (g : Group) (i : Instr),
    s.powered = true → s.warm.began = none → s.agenda = .issue core :: r → A = holdTable { s with agenda := r } core →
    arbitrate A core = some (c, more) → groupOfCand A core c = (S, some g) →
    (partsOf g.legacy g.cls (g.words.headD 0) g.words.tail).ins = .ok i → (enterWord S g).1 = E →
    (E.cur.tids ≠ [] → step s = thenState (exec i E) fun t => afterWord core more g (leaveWord t g (isDpfx i))) ∧
    (E.cur.tids = [] → step s = .next (afterWord core more g E))

/-- R105, R258, R259: the words of a clause come from memory. -/
def Obligations.ClauseIsMemoryBytes : Prop :=
  ∀ (s : State) (x : Thread) (w : Workgroup) (hdr : Word) (lf : Leaf) (a : Nat) (h : Header), CodeLine s x w hdr lf a → hdr.toNat % 8 = 0 →
    headerOf (codeWord s a (hdr.toNat % 64)) = some h → hdr.toNat % 64 + 8 * h.count < 64 →
    ∃ b, fetchClause s w x hdr = (b, .clause ⟨(List.range h.count).map fun i => codeWord s a (hdr.toNat % 64 + 8 * (i + 1)), h.cls, h.wait, h.yield, false, h.pf.toNat⟩) ∧
      b.s = { s with icache := b.s.icache }

/-- Worked encodings of the spec. -/
def Obligations.DecodeKnownWords : Prop :=
  decodeWord 0x0270402106B47000 [] = .ok (.iadd ⟨⟨false, 7⟩, .v 8, ⟨.v 8, false, true⟩, ⟨.v 13, false, true⟩⟩ false false false) ∧
  decodeWord 0x01781853A3947000 [] = .ok (.mov ⟨⟨false, 7⟩, .g 3, ⟨.v 20, true, true⟩⟩ false) ∧
  decodeWord 0x0F7C0814A8147000 [] = .ok (.icmp ⟨⟨false, 7⟩, 1, ⟨.v 5, false, false⟩, ⟨.int 0, false, false⟩⟩ .eq false false) ∧
  decodeWord 0x3370200401003101 [] = .ok (.ffma ⟨⟨false, 7⟩, .v 4, ⟨.v 1, false, false⟩, ⟨.v 2, false, false⟩, ⟨.v 3, false, false⟩⟩
    ⟨false, true, false, false, false, .f32, .rz⟩) ∧
  decodeWord 0x8110802800500000 [] = .ok (.st ⟨⟨false, 1⟩, ⟨.v 16, false, true⟩, ⟨.v 10, false, false⟩, .thr, .plain, .ca, .w32, 0⟩) ∧
  decodeWord 0x8D10B028A8800690 [] = .ok (.atom ⟨⟨false, 1⟩, .v 22, ⟨.v 10, false, false⟩, ⟨.int 1, false, false⟩, .u32, 1, .dev, .rlx, .add⟩) ∧
  decodeWord 0x917A3D1C68000000 [] = .ok (.fence ⟨false, 7⟩ .acq .cl) ∧
  decodeWord 0xA070C40CA39FF06A [0x100] = .ok (.copy ⟨⟨false, 7⟩, .v 24, ⟨.g 3, false, false⟩, ⟨.zero, false, false⟩, ⟨.lit, false, false⟩,
    false, false, true, .dev, .s2g⟩) ∧
  decodeWord 0xB3714550AA951000 [] = .ok (.mma ⟨⟨false, 7⟩, .v 40, ⟨.int 4, false, false⟩, ⟨.int 5, false, false⟩, ⟨.int 1, false, false⟩⟩) ∧
  decodeWord 0xC57A3820A3947000 [] = .ok (.bwupd ⟨false, 7⟩ 0 .min false ⟨.v 8, false, false⟩) ∧
  decodeWord 0xD0702D1CA3947000 [] = .ok (.getsr ⟨false, 7⟩ (.v 5) 0) ∧
  decodeWord 0x767A3D1CA3947000 [] = .ok (.exit ⟨false, 7⟩) ∧
  decodeWord 0x7071000CFFFFFFE8 [] = .ok (.bra ⟨false, 7⟩ .nz ⟨.v 3, false, false⟩ 0xFFFFFFE8) ∧
  decodeWord 0x7270051C00000018 [] = .ok (.call ⟨false, 7⟩ 0x18) ∧
  decodeWord 0x747A3D1CA3947000 [] = .ok (.ret ⟨false, 7⟩)

/-- R263 to R275, R279. -/
def Obligations.EncodeDecode : Prop :=
  (∀ i w, WellFormed i = true → encode i = some w → (∀ b, i ≠ .reservedOpcodeWord b true) → decodeWord w (tableRest w) = .ok i) ∧
  (∀ b, WellFormed (.reservedOpcodeWord b true) = true → decodeLegacy 0 b [] = .ok (.reservedOpcodeWord b true)) ∧
  ∀ i, WellFormed i = true → i.isEvent = false → ∃ w, encode i = some w

/-- R263 to R275. -/
def Obligations.DecodeWellFormed : Prop :=
  ∀ w rest i, decodeWord w rest = .ok i → WellFormed i = true ∧ i.isEvent = false

/-- R17, R41, R49 to R51, R56, R115, R135, R152, R412. -/
def Obligations.ResetState : Prop :=
  State.reset.now = 0 ∧ State.reset.ns = 0 ∧ State.reset.clkMhz = 800 ∧ State.reset.powered = true ∧ State.reset.heatMs = 10 ∧
  State.reset.fw.trialS = 30 ∧ State.reset.fw.diesOk = 0xFFFF ∧ State.reset.fw.trial = .none ∧ State.reset.memerr = [] ∧
  State.reset.warm.count = 0 ∧ State.reset.warm.began = none ∧
  (∀ q, (getQueue State.reset q).state = .disabled ∧ (getQueue State.reset q).base = 0 ∧ (getQueue State.reset q).cfg = 0 ∧
    (getQueue State.reset q).head = 0 ∧ (getQueue State.reset q).tail = 0 ∧ (getQueue State.reset q).packets = []) ∧
  (∀ k, (getLink State.reset k).fq.enable = false ∧ (getLink State.reset k).eq.enable = false) ∧
  (∀ p, p < 16 → (getPort State.reset p).state = .detect) ∧
  State.reset.threads = [] ∧ State.reset.gangs = [] ∧ State.reset.launches = [] ∧ State.reset.regions = [] ∧ State.reset.contexts = [] ∧ State.reset.mem = []

/-- The invariant of StepKeeps at reset (log 1; R22). -/
def Obligations.KeptAtReset : Prop :=
  MemForm State.reset ∧ State.reset.ports.length = 16

/-- The invariant of the machine (log 1; R22). -/
def Obligations.StepKeeps : Prop :=
  ∀ s t, MemForm s → s.ports.length = 16 → step s = .next t → MemForm t ∧ t.ports.length = 16

/-- R27: nothing executes before power is good. -/
def Obligations.NoPower : Prop :=
  (∀ s, s.powered = false → (∀ x r, s.agenda = x :: r → restoresPower x = false) → step s = .fault .noPower) ∧
  ∀ s r steps stackFail bridgeFail n, s.powered = false → s.agenda = .event (.powerGood steps stackFail bridgeFail) n :: r → ∃ t, step s = .next t

/-- R156, R160, R161, R168, R170, R281 to R298; the result of each word is in intSpec. -/
def Obligations.IntegerWords : Prop :=
  ∀ i a s, intSpec i = some a → Issuing s → a.sound s → ∃ t, exec i s = .next t ∧ WordDone s t a.pg a.srcs a.d (a.lane s)

/-- R217 to R241, R308 to R324. -/
def Obligations.FloatWords : Prop :=
  ∀ i a s, floatNow i = some a → Issuing s → a.sound s → ∃ t, exec i s = .next t ∧ WordDone s t a.pg a.srcs a.d (a.lane s)

/-- R167, R228, R282, R314 to R318. -/
def Obligations.LateWords : Prop :=
  ∀ i a s, lateSpec i = some a → Issuing s → a.sound s → ∃ t, exec i s = .next t ∧ WordLate s t a.pg a.srcs (dstOr a.d) a.kd (a.lane s)

/-- R229, R235, R325 to R332. -/
def Obligations.CrossLaneWords : Prop :=
  ∀ i a s, crossSpec i = some a → Issuing s → a.sound s → ∃ t, exec i s = .next t ∧ WordDone s t a.pg a.srcs a.d (a.lane s)

/-- R299 to R305. -/
def Obligations.ControlWords : Prop :=
  ∀ i a s, controlSpec i = some a → Issuing s → a.sound s → ∃ t, exec i s = .next t ∧ LanesDone s t a.pg (a.done s)

/-- R133, R285, R411. -/
def Obligations.MoveWords : Prop :=
  (∀ (o : A1) (w64 : Bool) (s : State), Issuing s →
    ((∀ n, o.d ≠ .g n) ∨ ∀ tid x w, Lane s tid x w → passes x o.pg = true → Clean s w x [intSrc w64 o.a]) →
    (∀ tid x w, Lane s tid x w → passes x o.pg = true → Sound s w x [intSrc w64 o.a] o.d (wWords w64)) →
    ∃ t, exec (.mov o w64) s = .next t ∧ WordDone s t o.pg [intSrc w64 o.a] (some o.d) (movOut o w64 s)) ∧
  (∀ (o : A1) (js : BitVec 3) (w64 : Bool) (s : State), Issuing s →
    ((∀ n, o.d ≠ .g n) ∨ ∀ tid x w, Lane s tid x w → passes x o.pg = true → Clean s w x [intSrc w64 o.a]) →
    (∀ tid x w, Lane s tid x w → passes x o.pg = true → TmovSound s o js 0 w64 w x) →
    ∃ t, exec (.tmov o js 0 w64) s = .next t ∧ WordDone s t o.pg [intSrc w64 o.a] (some o.d) (tmovOut o js w64 s)) ∧
  ∀ (o : A1) (js jd : BitVec 3) (w64 : Bool) (s : State), Issuing s → jd ≠ 0 →
    (∀ tid x w, Lane s tid x w → passes x o.pg = true → TmovSound s o js jd w64 w x) →
    ∃ t, exec (.tmov o js jd w64) s = .next t ∧ LanesDone s t o.pg (TangentDone s o js jd w64)

/-- R272, R273. -/
def Obligations.PairWords : Prop :=
  ∀ (h0 h1 : Half) (s : State), Issuing s → (∀ tid x w, Lane s tid x w → PairSound s h0 h1 w x) →
    ∃ t, exec (.pairWord h0 h1) s = .next t ∧ LanesDone s t ⟨false, 7⟩ (PairDone s h0 h1)

/-- R203, R265, R335, R337. -/
def Obligations.Loads : Prop :=
  ∀ (m : MLoad) (s : State) (x : Thread) (w : Workgroup) (lf : Leaf) (a : Nat), Solo s m.pg x w →
    Sound s w x (loadSrcs m) m.d m.w.k → Clean s w x (loadSrcs m) → (loadEa m s w x).toNat % (MWidth.bytes m.w) = 0 →
    PlainBytes s x w (loadEa m s w x) (MWidth.bytes m.w) true false lf a → (∀ y ∈ s.l1, y.core = x.tid.core → y.block ≠ a / 64) →
    (∀ e ∈ s.syncs, e.addr ≠ a) →
    ∃ t, exec (.ld m) s = .next t ∧
      t = { s with threads := t.threads, l1 := t.l1, ids := s.ids + 1,
                   loads := s.loads ++ [onItsWay s (s.ids + 1) x .global m.d (loadEa m s w x)
                     (dataWords (MWidth.bytes m.w) m.sx (getCells a (MWidth.bytes m.w) s.mem))] } ∧
      LinesOf s t x.tid.core a ∧ OneDone s t x (Awaits s (loadSrcs m) (readSrcs s w x (loadSrcs m) []).pops m.d m.w.k x)

/-- R203, R265, R335, R338. -/
def Obligations.Stores : Prop :=
  ∀ (m : MStore) (s : State) (x : Thread) (w : Workgroup) (lf : Leaf) (a : Nat), MemForm s → Solo s m.pg x w →
    Sound s w x (gstoreSrcs m) .zero 0 → (opv (readSrcs s w x (gstoreSrcs m) []).vals 0).poison = false →
    (m.ord = .plain ∨ (storeData m s w x).poison = false) → (storeEa m s w x).toNat % (MWidth.bytes m.w) = 0 →
    (Ord.rel m.ord = true → releasePending s x.tid m.scope = false) →
    PlainBytes s x w (storeEa m s w x) (MWidth.bytes m.w) false true lf a →
    ∃ t, exec (.st m) s = .next t ∧ OneDone s t x (Took s (gstoreSrcs m) (readSrcs s w x (gstoreSrcs m) []).pops x) ∧
      t.wgs = (if m.scope = .sys then (pin s w.id).wgs else s.wgs) ∧
      (m.ord = .plain → t = { s with
           threads := t.threads, wgs := t.wgs, ids := s.ids + 1,
           l1 := (l1Update s x.tid.core a (dataBytes (MWidth.bytes m.w) (storeData m s w x)) (storeData m s w x).poison).l1,
           stores := s.stores ++ [storeOut (s.ids + 1) x w a (dataBytes (MWidth.bytes m.w) (storeData m s w x)) (storeData m s w x).poison
             (storeEa m s w x)] }) ∧
      (m.ord ≠ .plain → t = { s with threads := t.threads, wgs := t.wgs, mem := t.mem, syncs := t.syncs, dirty := (markDirty s (a / 64)).dirty } ∧
          Stored s t a (dataBytes (MWidth.bytes m.w) (storeData m s w x)))

/-- R339 to R341. -/
def Obligations.ScratchLoads : Prop :=
  ∀ (cl : Bool) (m : MLoad) (s : State) (x : Thread) (w g : Workgroup) (a : Nat), Solo s m.pg x w →
    Sound s w x (padLoadSrcs m) m.d m.w.k → Clean s w x (padLoadSrcs m) →
    padOf cl s w x (padLoadEa m s w x) (MWidth.bytes m.w) = some (g, a) →
    PadBytes s g a (MWidth.bytes m.w) → g.padPoison = [] → (∀ e ∈ s.syncs, e.addr ≠ padLoc g a) →
    ∃ t, exec (if cl then .ldcl m else .lds m) s = .next t ∧ ScratchLoadDone (if cl then .cluster else .scratch) m s t x w g a

/-- R339 to R341. -/
def Obligations.ScratchStores : Prop :=
  ∀ (cl : Bool) (m : MStore) (s : State) (x : Thread) (w g : Workgroup) (a : Nat), Solo s m.pg x w →
    Sound s w x (storeSrcs m) .zero 0 → (opv (readSrcs s w x (storeSrcs m) []).vals 0).poison = false →
    padOf cl s w x (padStoreEa m s w x) (MWidth.bytes m.w) = some (g, a) →
    PadBytes s g a (MWidth.bytes m.w) → (Ord.rel m.ord = true → releasePending s x.tid (clScope m.scope) = false) →
    ∃ t, exec (if cl then .stcl m else .sts m) s = .next t ∧ ScratchStoreDone m s t x w g a

/-- R343, R344. -/
def Obligations.CacheWords : Prop :=
  (∀ (pg : Guard) (base : Option Src) (off : BitVec 20) (s : State) (x : Thread) (w : Workgroup) (blk : Nat), Solo s pg x w →
    Sound s w x (cinvalSrcs base) .zero 0 → Clean s w x (cinvalSrcs base) →
    (∀ b, base = some b → ∃ e a, tlbFind s x.tid.core w.pasid (baseEa b off s w x).toNat = some e ∧
      hbmOf s (leafPa e.leaf (baseEa b off s w x).toNat) = some a ∧ blk = a / 64) →
    ∃ t, exec (.cinval pg base off) s = .next t ∧
      t = { s with threads := t.threads, l1 := s.l1.filter fun y => y.core != x.tid.core || (base.isSome && y.block != blk) } ∧
      OneDone s t x (Took s (cinvalSrcs base) (readSrcs s w x (cinvalSrcs base) []).pops x)) ∧
  ∀ (pg : Guard) (base : Src) (cp : Cp) (off : BitVec 20) (s : State) (x : Thread) (w : Workgroup) (lf : Leaf) (a : Nat), Solo s pg x w →
    Sound s w x (cinvalSrcs (some base)) .zero 0 → Clean s w x (cinvalSrcs (some base)) →
    PageHit s x.tid.core w.pasid x.pl (baseEa base off s w x) true false lf → PlainLeaf lf →
    homeOf s.module_ s.domain (leafPa lf (baseEa base off s w x).toNat) = .hbm a →
    ∃ t, exec (.pref pg base cp off) s = .next t ∧ t = { s with threads := t.threads, l1 := t.l1 } ∧ LinesOf s t x.tid.core a ∧
      ((s.l1.filter fun y => y.core == x.tid.core).length < Config.l1Lines → ∀ y ∈ s.l1, y ∈ t.l1) ∧
      OneDone s t x (Took s (cinvalSrcs (some base)) (readSrcs s w x (cinvalSrcs (some base)) []).pops x)

/-- R206, R207, R355. -/
def Obligations.Fence : Prop :=
  ∀ (pg : Guard) (ord : Ord) (scope : Scope) (s : State) (x : Thread) (w : Workgroup), Solo s pg x w →
    Sound s w x [] .zero 0 → (Ord.rel ord = true → releasePending s x.tid scope = false) →
    ∃ t, exec (.fence pg ord scope) s = .next t ∧
      t = { s with
            threads := t.threads
            fenceVc := if Ord.rel ord then s.fenceVc ++ [⟨relKey x.tid, scope, x.tid, x.vc⟩] else s.fenceVc
            l1 := if Ord.acq ord && Scope.wide scope then s.l1.filter fun l => l.core != x.tid.core else s.l1 } ∧
      OneDone s t x (Took s [] [] x)

/-- R125, R342. -/
def Obligations.BlockDescriptors : Prop :=
  (∀ (m : MLoad) (s : State) (x : Thread) (w : Workgroup) (lf : Leaf) (a : Nat) (d : BitVec 16), Solo s m.pg x w →
    Sound s w x (loadSrcs m) m.d 1 → Clean s w x (loadSrcs m) → (loadEa m s w x).toNat % 64 = 0 →
    DescBytes s x w (loadEa m s w x) true false lf a d →
    ∃ t, exec (.ldbd m) s = .next t ∧
      t = { s with threads := t.threads, ids := s.ids + 1,
                   loads := s.loads ++ [onItsWay s (s.ids + 1) x .global m.d (loadEa m s w x) [d.setWidth 32]] } ∧
      OneDone s t x (Awaits s (loadSrcs m) (readSrcs s w x (loadSrcs m) []).pops m.d 1 x)) ∧
  ∀ (m : MStore) (s : State) (x : Thread) (w : Workgroup) (lf : Leaf) (a : Nat) (d : BitVec 16), MemForm s → Solo s m.pg x w →
    Sound s w x (descSrcs m) .zero 0 → Clean s w x (descSrcs m) → (storeEa { m with w := .w32 } s w x).toNat % 64 = 0 →
    DescBytes s x w (storeEa { m with w := .w32 } s w x) false true lf a d →
    ∃ t, exec (.stbd m) s = .next t ∧
      t = { s with threads := t.threads, mem := t.mem, dirty := (markDirty s (a / 64)).dirty,
                   blocks := (setBlock s (a / 64) ⟨12, (storeData { m with w := .w32 } s w x).w32.setWidth 16, 0, false, 0, 0, false⟩).blocks } ∧
      (∀ c, getCell c t.mem = getCell c s.mem) ∧
      OneDone s t x (Took s (descSrcs m) (readSrcs s w x (descSrcs m) []).pops x)

/-- R345 to R348. -/
def Obligations.ScratchMaps : Prop :=
  ∀ i a s x w, scratchMapWord i = some a → Solo s a.pg x w → a.Sound s w x → ∃ t, exec i s = .next t ∧ a.Done s t w x

/-- R361 to R369. -/
def Obligations.CopyWords : Prop :=
  ∀ (i : Instr) (c : CopyOp) (kl : Nat) (rows : Opv → Rows × Bool),
    (i = .copy c ∧ kl = 1 ∧ rows = copyRows) ∨ (i = .gather c ∧ kl = 4 ∧ rows = rowDesc true) ∨ (i = .scatter c ∧ kl = 4 ∧ rows = rowDesc false) →
    ∀ (s : State) (x : Thread) (w : Workgroup), Solo s c.pg x w → (copySpec c kl rows).Sound s w x →
    ∃ t, exec i s = .next t ∧ (copySpec c kl rows).Done s t w x

/-- R371 to R380. -/
def Obligations.EngineWords : Prop :=
  ∀ i a s x w, engineWord i = some a → Solo s a.pg x w → a.Sound s w x → ∃ t, exec i s = .next t ∧ a.Done s t w x

/-- R370, R381 to R396. -/
def Obligations.MatrixWords : Prop :=
  ∀ i a s x w, matrixWord i = some a → Solo s a.pg x w → a.Sound s w x → ∃ t, exec i s = .next t ∧ a.Done s t w x

/-- R397 to R404, R82 to R98. -/
def Obligations.TaskWords : Prop :=
  ∀ i a s x w, taskWord i = some a → Solo s a.pg x w → a.Sound s w x → ∃ t, exec i s = .next t ∧ a.Done s t w x

/-- R405 to R414. -/
def Obligations.StateWords : Prop :=
  ∀ i a s x w, stateWord i = some a → Solo s a.pg x w → a.Sound s w x → ∃ t, exec i s = .next t ∧ a.Done s t w x

/-- R416 to R423. -/
def Obligations.RootWords : Prop :=
  ∀ i a s x w, rootWord i = some a → Solo s a.pg x w → a.Sound s w x → ∃ t, exec i s = .next t ∧ a.Done s t w x

/-- R350 to R353. -/
def Obligations.Atomics : Prop :=
  (∀ (i : Instr) (a : Nat) (b : OneWord) (s : State) (x : Thread) (w : Workgroup), atomWord i a = some b → Solo s b.pg x w → b.Sound s w x →
    ∃ t, exec i s = .next t ∧ b.Done s t w x) ∧
  ∀ (o : TAtom) (s : State) (x : Thread) (w : Workgroup), Solo s o.pg x w → (atomsWord o).Sound s w x →
    ∃ t, exec (.atoms o) s = .next t ∧ (atomsWord o).Done s t w x

/-- R138, R356 to R360. -/
def Obligations.Barriers : Prop :=
  ∀ (i : Instr) (a : BarSpec) (s : State) (x : Thread) (w : Workgroup), barSpec i = some a → Solo s a.pg x w → a.Sound s w x →
    ∃ S t, exec i s = .next t ∧ Arrived a s S w x ∧ ((∀ g ∈ S.wgs, ∀ b, g.bar = some b → barFull S g b.kind = false) → t = S) ∧
      ∀ g b, BarReady S g b → Completed S t g b

/-- R304. -/
def Obligations.ThreadEnds : Prop :=
  ∀ (pg : Guard) (s : State) (x : Thread) (w : Workgroup), Solo s pg x w → dualCause s w = [] →
    colourReleaseReady s x.tid (x.held.map (·.1)) = true →
    ∃ S E t, exec (.exit pg) s = .next t ∧ (x.held = [] → S = s) ∧ (HeldKnown s w x → HoldsNone S x.tid) ∧ Ended s S E x ∧
      ((∀ g ∈ E.wgs, ∀ b, g.bar = some b → barFull E g b.kind = false) → t = E) ∧ ∀ g b, BarReady E g b → Completed E t g b

/-- R243, R244, R247, R274, R306. -/
def Obligations.SoftTraps : Prop :=
  (∀ (i : Instr) (pg : Guard) (c : Cause) (s : State) (x : Thread) (w : Workgroup), softCause i = some (pg, c) → Solo s pg x w →
    dualCause s w = [] → HandlerFree w x →
    ∃ t, exec i s = .next t ∧ t = { s with threads := t.threads, monitors := (unreserve s x.tid).monitors } ∧
      OneDone s t x fun y => y = inHandler s.now w.rcb.trapVec
        (trapSaved c s.cur.next s.cur.legacy (laneMask [x.tid]) (advance s.cur s.now x)) (advance s.cur s.now x)) ∧
  ∀ (b : Word) (legacy : Bool) (s : State) (x : Thread) (w : Workgroup), Solo s (if legacy then guardOf (b.extractLsb' 47 4) else pgOf b) x w →
    HandlerFree w x →
    ∃ t, exec (.reservedOpcodeWord b legacy) s = .next t ∧ t = { s with cur := { s.cur with legacy := legacy }, threads := t.threads, monitors := (unreserve s x.tid).monitors } ∧
      OneDone s t x fun y => y = inHandler s.now w.rcb.trapVec (trapSaved { code := 0 } (trapPc s.cur) legacy (laneMask [x.tid]) x) x

/-- R259, R305, R410. -/
def Obligations.YieldAndPrefix : Prop :=
  (∀ (pg : Guard) (s : State) (x : Thread) (w : Workgroup), Solo s pg x w → dualCause s w = [] →
    ∃ t, exec (.yield pg) s = .next t ∧ t = { s with threads := t.threads, cores := (yieldAt s x.tid.core s.cur.next x.depth).cores } ∧
      OneDone s t x fun y => y = advance s.cur s.now x) ∧
  ∀ (mask : BitVec 4) (s : State), ∃ t, exec (.dpfx mask) s = .next t ∧
    (curLast s.cur = false → nextIsDpfx s.cur = false → t = { s with cur := { s.cur with dual := some mask, dualPc := s.cur.pc } }) ∧
    (curLast s.cur = true ∨ nextIsDpfx s.cur = true → ∀ x w, Solo s { p := 7, neg := false } x w → HandlerFree w x →
      t = { s with threads := t.threads, monitors := (unreserve s x.tid).monitors } ∧
      OneDone s t x fun y => y = inHandler s.now w.rcb.trapVec (trapSaved { code := 0x0B } s.cur.pc s.cur.legacy (laneMask [x.tid]) x) x)

/-- R246, R415. -/
def Obligations.TrapReturns : Prop :=
  ∀ (pg : Guard) (s : State) (x : Thread) (w : Workgroup), Solo s pg x w → dualCause s w = [] → 1 ≤ x.pl → x.trap.inh = true →
    colourReleaseReady s x.tid (coloursAbove x x.trap.depth) = true →
    ∃ E t, exec (.eret pg) s = .next t ∧ Released s E x (coloursAbove x x.trap.depth) ∧ t = { E with threads := t.threads } ∧
      (∀ x', getT E x.tid = some x' → getT t x.tid = some (returned s.now x')) ∧ OthersWoken E t x.tid ∧
      (HeldKnown s w x → ∀ m ∈ E.monitors, m.holder = some x.tid → m.colour ∈ (x.held.filter fun h => decide (h.2 ≤ x.trap.depth)).map (·.1))

/-- R28 to R34. -/
def Obligations.PortTraining : Prop :=
  ∀ (i : Instr) (a : PortTurn) (s : State), portTurn i = some a → a.port s < 16 → s.ports.length = 16 → a.due s (getPort s (a.port s)) →
    ∃ t, exec i s = .next t ∧ t = modPort (a.base s) (a.port s) (a.after s (a.base s))

/-- R22 to R26. -/
def Obligations.Flits : Prop :=
  ∀ (i : Instr) (a : FlitTurn) (s : State), flitTurn i = some a → ∃ t, exec i s = .next t ∧ FlitDone a s t

/-- R17, R19, R26, R27, R150 to R152. -/
def Obligations.OutsideEvents : Prop :=
  ∀ (i : Instr) (a : Turn) (s : State), outsideTurn i = some a → a.due s → ∃ t, exec i s = .next t ∧ a.after s t

/-- R5, R33, R41, R49 to R51, R59, R63, R115, R135. -/
def Obligations.HostRegisters : Prop :=
  (∀ (i : Instr) (q : Nat) (f : State → Queue → Queue) (s : State), queueTurn i = some (q, f) → q < 1024 →
    ∃ t, exec i s = .next t ∧ QueueDone s t q (f s (getQueue s q))) ∧
  (∀ (q : Nat) (v : Word) (off : Nat) (s : State), off ≠ 0 → exec (.doorbell q v off) s = .next s) ∧
  ∀ (r : IoReg) (v : Word) (s : State), ∃ t, exec (.registerWrite r v) s = .next t ∧ registerWritten r v s t

/-- R39, R53 to R58. -/
def Obligations.Packets : Prop :=
  ∀ (i : Instr) (a : Turn) (s : State), packetTurn i = some a → a.due s → ∃ t, exec i s = .next t ∧ a.after s t

/-- R37, R52, R53. -/
def Obligations.FetcherAndReports : Prop :=
  (∀ (s : State) (q : Nat) (b : List Byte), portDieIn s s.unit_ = true → (getLink (askRings s s.unit_) s.unit_).up = true → (getLink s s.unit_).up = true →
    chooseQueue (askRings s s.unit_) s.unit_ = some q → fetchable (askRings s s.unit_) q = some b →
    ∃ t, exec .fetcherTurn s = .next t ∧ Fetched (askRings s s.unit_) t q b) ∧
  ∀ (l : Nat) (r : SpdmAsk) (s : State), (getLink s l).up = true → s.fw.identity = true → ∃ t, exec (.spdmRequest l r) s = .next t ∧ Attested s t l r

/-- R42 to R48. -/
def Obligations.FirmwareSteps : Prop :=
  ∀ (i : Instr) (a : FwTurn) (s : State), fwTurn i = some a → a.due s s.fw → ∃ t, exec i s = .next t ∧ FwDone s t (a.after s s.fw) (a.queues s)

/-- R179, R186 to R195, R305, R395. -/
def Obligations.Timers : Prop :=
  ∀ (i : Instr) (a : Turn) (s : State), timerTurn i = some a → a.due s → ∃ t, exec i s = .next t ∧ a.after s t

/-- R105, R111, R115, R120, R167, R203, R363, R375, R405. -/
def Obligations.Units : Prop :=
  ∀ (i : Instr) (a : Turn) (s : State), unitTurn i = some a → a.due s → ∃ t, exec i s = .next t ∧ a.after s t

/-- R70 to R78, R82 to R104. -/
def Obligations.Placement : Prop :=
  ∀ (i : Instr) (a : Turn) (s : State), placeTurn i = some a → a.due s → ∃ t, exec i s = .next t ∧ a.after s t

/-- R19, R20, R112, R118 to R124, R416, R417. -/
def Obligations.FaultAnswers : Prop :=
  ∀ (i : Instr) (a : Turn) (s : State), faultTurn i = some a → a.due s → ∃ t, exec i s = .next t ∧ a.after s t

/-- R97, R179, R186 to R195, R246, R304, R305, R395: each of these completes. -/
def Obligations.ThreadAgentsComplete : Prop :=
  (∀ (pg : Guard) (s : State) (x : Thread) (w : Workgroup), Solo s pg x w → dualCause s w = [] → x.held = [] →
    ∃ E, exec (.exit pg) s = .next (barAll E) ∧ E = { s with threads := E.threads, wgs := E.wgs } ∧ OthersWoken s E x.tid ∧
      getT E x.tid = some { x with run := .ended, pc := s.cur.pc, hdr := none, since := none, passed := false }) ∧
  (∀ (pg : Guard) (s : State) (x : Thread) (w : Workgroup), Solo s pg x w → dualCause s w = [] → 1 ≤ x.pl → x.trap.inh = true →
    coloursAbove x x.trap.depth = [] →
    ∃ t, exec (.eret pg) s = .next t ∧ t = { s with threads := t.threads } ∧ getT t x.tid = some (returned s.now x) ∧ OthersWoken s t x.tid) ∧
  (∀ (p c : Nat) (s : State) (m : Monitor) (y : Waiter) (r : List Waiter), getMon s p (BitVec.ofNat 16 c) = some m → m.holder = none → m.fifo = y :: r →
    ∃ t, exec (.monitorGrant p c) s = .next t ∧ Granted s t m y) ∧
  (∀ (u : Tid) (s : State) (x : Thread) (c : BitVec 16) (va : Word), getT s u = some x → x.run = .waiting (.colourRetry c va) →
    (∀ r, x.retrying = some r → r.2.2 + 64 ≤ s.now) →
    ∃ t, exec (.colourRequestRetry u) s = .next t ∧ t = { s with threads := t.threads } ∧ OneDone s t x fun y => y = { x with run := .ready, able := s.now }) ∧
  (∀ (u : Tid) (s : State) (x : Thread) (w : Workgroup) (c : BitVec 16) (va : Word) (a : Nat), WaitsFree s u x w (.colour c va) →
    fifoSince s u = some a → a + 2 ^ threadWd s x ≤ tidClock s u →
    ∃ t, exec (.colourWaitTimeout u) s = .next t ∧ TrapsWaiting s t w x { x with notified := none } { code := 0x61, addr := va, detail := c.setWidth 32 }) ∧
  (∀ (u : Tid) (s : State) (m : Monitor) (y : Waiter) (e : Nat),
    (s.monitors.findSome? fun m => (m.cond.find? fun y => y.tid == u).map fun y => (m, y)) = some (m, y) → y.timeout = some e → e ≤ tidClock s u →
    exec (.cwaitTimeout u) s = .next (if m.holder.isNone then freeMonitor (moveWaiter s m.pasid m.colour y false) m.pasid m.colour
      else moveWaiter s m.pasid m.colour y false)) ∧
  (∀ (u : Tid) (s : State) (x : Thread) (w : Workgroup) (f : WaitFor) (a : Nat), WaitsFree s u x w f → f.watched = true → x.since = some a →
    a + 2 ^ (threadWd s x + 4) ≤ tidClock s x.tid →
    ∃ S, exec (.watchdog u) s = .next (barAll S) ∧ TrapsWaiting s S w x { x with notified := none } { code := 0xBE }) ∧
  (∀ (u : Tid) (s : State) (x : Thread) (e : Nat), getT s u = some x → x.run = .waiting (.sleep e) → e ≤ tidClock s u →
    exec (.sleepExpiry u) s = .next (modT s u fun x => { x with run := .ready, able := s.now, passed := true, since := none })) ∧
  (∀ (u : Tid) (s : State) (x : Thread) (w : Workgroup) (c : Nat), WaitsFree s u x w .push → x.since = some c → c + 2 ^ 20 ≤ tidClock s u →
    ∃ t, exec (.spawnOverflow u) s = .next t ∧ TrapsWaiting s t w x x { code := 0xA1 }) ∧
  (∀ s : State, ∃ t, exec .haltWake s = .next t ∧ t = { s with threads := t.threads } ∧
    ∀ u x, getT s u = some x → getT t u = some (if u.core = s.unit_ ∧ x.run = .waiting .halt then { x with run := .ready, able := s.now, passed := true } else x)) ∧
  ∀ (s : State) (w : Workgroup) (i : Nat), getWg s s.unit_ = some w → w.mx.reed.holder = some i → w.state = .resident → w.mx.reed.since + 2 ^ 22 ≤ wgClock s w →
    exec .reedHoldTimeout s = .next (barAll (reedTimeout s w i))

/-- R19, R20, R62, R63, R105, R111 to R124, R167, R203, R363, R376, R405, R416, R417: each of these completes. -/
def Obligations.UnitAgentsComplete : Prop :=
  (∀ (id : Nat) (s : State) (l : OutLoad) (x : Thread) (w : Workgroup), fillOf s id = some l → l.dead = false → getT s l.tid = some x → x.run ≠ .killed →
    getWg s x.wg = some w → ∃ t y, exec (.fill id) s = .next t ∧ getT t l.tid = some y ∧ Filled s t l x y) ∧
  (∀ (id : Nat) (s : State) (x : OutStore), s.stores.find? (fun x => x.id == id && x.port.isNone) = some x →
    exec (.storeAcknowledge id) s = .next (wakeAll ((s.stores.filter fun y => y.core == x.core && decide (y.id ≤ x.id) &&
      (y.id == x.id || cellsTouch y.cells (((x.cells.head?).map (·.1)).getD 0) x.cells.length)).foldl performStore s))) ∧
  (∀ (core pasid : Nat) (va : Word) (write : Bool) (s S : State) (l : Leaf) (pte : Nat), va.toNat < 2 ^ 57 → tlbFind s core pasid va.toNat = none →
    walk s pasid va.toNat = (S, .leaf l pte) → leafAllows l ⟨!write, write, false, 0⟩ = true → paAllows S (leafPa l va.toNat) 0 = true →
    exec (.tableWalk core pasid va write) s = .next (tlbFill S core pasid va.toNat l pte write)) ∧
  (∀ (core : Nat) (va : Word) (s S : State) (x : Thread) (w : Workgroup) (n : Nat) (l : ILine),
    s.threads.find? (fun t => t.tid.core == core && t.alive && t.pc.toNat / 64 == va.toNat / 64) = some x → getWg s x.wg = some w →
    fetchLine s w x (BitVec.ofNat 64 (va.toNat / 64 * 64)) = (S, n, .line l) → exec (.icacheFill core va) s = .next (countSlips S core (pcEntry S x) n)) ∧
  (∀ (id : Nat) (s S : State) (x : Stream) (w : Workgroup) (u : Tid) (b : List Byte) (p : Bool) (bad : List Nat) (z : Nat),
    s.streams.find? (fun x => x.id == id) = some x → getWg s x.wg = some w → Delivers s x w u → nextElem s x w u = (S, .data b p bad z) →
    exec (.streamElementDelivery id) s = .next (pushElem (dropReads S (.engine x.elemId)) w x u b p (!bad.isEmpty && !p))) ∧
  (∀ (id core : Nat) (s : State) (u : BUpdate), s.bupdates.find? (fun u => u.id == id && u.cores.contains core) = some u →
    exec (.broadcastWordCopyUpdate id core) s = .next (((s.bupdates.filter fun x => x.w == u.w && x.cores.contains core).filter
      fun x => decide (x.id ≤ id)).foldl (fun s x => takeUpdate s core x) s)) ∧
  (∀ (id : Nat) (s : State) (op : EngineOp) (w : Workgroup), getOp s id = some op → op.state = .running → getWg s op.wg = some w → w.state ≠ .killed →
    w.state ≠ .ended → exec (.engineOperationComplete id) s = .next (runOp s w op false) ∧ exec (.engineHandleRecheck id) s = .next (runOp s w op true)) ∧
  (∀ (core : Nat) (u : Tid) (s S R : State) (e : LogEntry) (w : Workgroup) (l : Leaf) (pa : Nat),
    s.sideLog.find? (fun e => e.core == core && e.tid == u) = some e → getWg s e.wg = some w →
    translate s e.core e.pasid e.addr.toNat ⟨false, true, false, e.pl⟩ = (S, .ok l pa) → replayOn S w (logThread s e) e l pa = (R, .done) →
    exec (.sideLogReplay core u) s = .next (wakeCore { R with sideLog := R.sideLog.filter fun y => y.id != e.id } e.core)) ∧
  (∀ s : State, s.heatMs ≠ 0 → kget 0 s.unit_ s.heatSwept + s.heatMs * 1000000 ≤ s.ns → s.unit_ < 16 →
    exec .heatSweep s = .next (((s.contexts.flatMap fun c => match c.root with
      | some r => leafPtes s 5 r
      | none => []).eraseDups.filter fun a => dieOf a == s.unit_).foldl fadeHeat { s with heatSwept := kset s.unit_ s.ns s.heatSwept })) ∧
  (∀ (link p : Nat) (s S : State) (f : PendFault) (x : Walk), s.faults.find? (pageFault (p % 2 ^ 20) (fsvcPage s link)) = some f →
    walk s (p % 2 ^ 20) (fsvcPage s link * 4096) = (S, x) → x ≠ .unmapped →
    exec (.fsvcbRetry link p) s = .next (registerLog (releasePage { S with faults := S.faults.filter fun f => !pageFault (p % 2 ^ 20) (fsvcPage s link) f }
      (p % 2 ^ 20) (fsvcPage s link)))) ∧
  (∀ (link p : Nat) (s : State), exec (.fsvcbCancelPage link p) s = .next (cancelPage s (p % 2 ^ 20) (fsvcPage s link))) ∧
  (∀ (link p : Nat) (s : State), exec (.fsvcbCancelPasid link p) s =
    .next (((s.faults.filter fun f => f.pasid == p % 2 ^ 20).map PendFault.page).eraseDups.foldl (fun s n => cancelPage s (p % 2 ^ 20) n) s)) ∧
  (∀ (link p page : Nat) (s : State) (r : AtsRequest), (getLink s link).atsReqs.find? (fun r => r.pri && r.pasid == p && r.page == page) = some r →
    exec (.priResponse link p page true) s =
      .next (settleTeardowns (wakeAts ((waitedPages s link p page).foldl (fun s v => retryPage s p v) (dropReq s link r.id)) link p page)) ∧
    exec (.priResponse link p page false) s =
      .next (settleTeardowns (wakeAts (failRings ((waitedPages s link p page).foldl (fun s v => cancelPage s p v) (dropReq s link r.id)) link p page) link p page))) ∧
  (∀ (link id q : Nat) (s : State) (r : AtsRequest), (getLink s link).atsReqs.find? (fun r => r.id == id && !r.pri) = some r → r.gen = pasidGen s r.pasid →
    exec (.atsCompletion link id (some q)) s = .next (settleTeardowns (wakeAts (modLink (dropReq s link id) link
      fun l => { l with atsCache := ⟨r.pasid, r.page, q⟩ :: l.atsCache }) link r.pasid r.page))) ∧
  (∀ (link id : Nat) (s : State) (r : AtsRequest), (getLink s link).atsReqs.find? (fun r => r.id == id && !r.pri && decide (r.deadline ≤ s.ns)) = some r →
    exec (.atsCompletionTimeout link id) s = .next (settleTeardowns (wakeAts (dropReq s link id) link r.pasid r.page))) ∧
  (∀ (link p page : Nat) (s : State), exec (.atsInvalidationRequest link p page) s = .next (modLink s link
    fun l => { l with atsCache := l.atsCache.filter fun e => !(e.pasid == p && e.page == page), invDone := l.invDone ++ [(p, page)] })) ∧
  (∀ (link p : Nat) (s : State) (c : Context), bits (getLink s link).pstat.toNat 21 20 ≠ 1 → getCtx s (p % 2 ^ 20) = some c →
    ∃ S T, S = (modCtx s (p % 2 ^ 20) fun c => { c with teardown := c.teardown ++ [link], gen := c.gen + 1 }) ∧
      T = (S.queues.filter fun q => queueLink q.1 == link && Queue.pasid q.2 == p % 2 ^ 20).foldl (fun s q => stopQueue s q.1) S ∧
      exec (.pstopGo link p) s = .next (wakeAll (settleTeardowns { modLink T link (fun l => { l with
          atsCache := l.atsCache.filter fun e => e.pasid != p % 2 ^ 20, pstat := BitVec.ofNat 64 (p % 2 ^ 20 + 2 ^ 20) }) with
        tlb := T.tlb.filter fun e => e.pasid != p % 2 ^ 20 }))) ∧
  (∀ (s : State) (v : Service), answerOf s false = some v → ∃ t, exec .fwcallAnswer s = .next t ∧ Answered s t v (fwResult s v.svc.toNat)) ∧
  ∀ (s S : State) (v : Service) (x : Word), answerOf s true = some v → monService s v = (S, some x) → ∃ t, exec .moncallAnswer s = .next t ∧ Answered S t v x

/-- R70 to R79, R82 to R99: each of these completes. -/
def Obligations.PlacingAgentsComplete : Prop :=
  (∀ (s S : State) (c : Nat), dieIn s s.unit_ = true → s.warm.began = none → firstPlaced s s.unit_ (candidates s) = some (S, c) →
    (∀ x ∈ s.cores, coreDie x.1 = s.unit_ → ∀ e, startable s x.1 = some e → entryClass s e ≤ c) → exec .gangPlacement s = .next S) ∧
  (∀ (s : State) (u : List Workgroup) (r : List (List Workgroup)), s.warm.began = none → frozenUnits s s.unit_ = u :: r → canResume s u [] = true →
    exec .frozenGangResume s = .next (resumeUnit s u)) ∧
  (∀ (s S : State) (e f : DEntry), s.warm.began = none → startable s s.unit_ = some e → firstPlaced s (coreDie s.unit_) (candidates s) = none →
    popNewest s s.unit_ = (S, some f) → exec .dequeEntryStart s = .next (dequeRoom (startEntry S s.unit_ f) s.unit_)) ∧
  (∀ (s : State) (g : Gang) (x : Launch), getGang s s.unit_ = some g → getLaunch s g.launch = some x →
    (g.state = .retiring → g.orSent = none → g.orFault = false → exec .gangRetire s = .next (completionOr s g x)) ∧
    (∀ id, g.state = .retiring → g.orSent = some id → (∀ y ∈ s.stores, y.id ≠ id) → exec .gangRetire s = .next (gangRetired s g)) ∧
    (GangIdle s g → ∃ G, getGang (gangClosed s g) g.id = some G ∧ G.state = .retiring ∧
      exec .gangRetire s = .next (if G.killed || x.rcd.cmap == 0 then gangRetired (gangClosed s g) G else completionOr (gangClosed s g) G x))) ∧
  (∀ (die addr : Nat) (s : State), exec (.dependencyWatcherPrompt die addr) s =
    .next ((s.watchers.filter fun w => w.1 == die && w.2.1 == addr / 4096).foldl (fun s w => testLaunch s w.2.2 (dieCore die)) s)) ∧
  (∀ s : State, exec .dependencyRetest s = .next ((s.launches.filter fun x => !x.reg).foldl (fun s x => testLaunch s x.id (dieCore (nextDie s 0))) s)) ∧
  (∀ (core bin : Nat) (s : State) (b : Bin), (getCore s core).bins[bin]? = some b → b.held = false → b.opened + 2048 ≤ s.now →
    exec (.binTimeout core bin) s = .next (flushBin s core b.code b.gang).1) ∧
  (∀ s S : State, spillDue s s.unit_ = true → spillOldest s s.unit_ true = (S, true) → exec .spillRetry s = .next (dequeRoom S s.unit_)) ∧
  (∀ s : State, coreIdle s s.unit_ = true → s.warm.began = none →
    ((getCore s s.unit_).steal = .idle → exec .stealRequest s = .next (setSteal s s.unit_ (askNext s s.unit_ 0))) ∧
    ∀ n, (getCore s s.unit_).steal = .asking n → exec .stealRequest s = .next (setSteal s s.unit_ (askNext s s.unit_ n))) ∧
  (∀ (s : State) (v n : Nat), (getCore s s.unit_).steal = .waiting v n →
    (∀ x S e T, stealable s v s.unit_ = some x → takeEntry s v x = (S, some e) → pushEntry S s.unit_ e = (T, true) →
      exec .stealResponse s = .next (setSteal (dequeRoom T v) s.unit_ .idle)) ∧
    (∀ r S, stealable s v s.unit_ = none → splittable s v s.unit_ = some r → pushEntry s s.unit_ (splitRange r).2 = (S, true) →
      exec .stealResponse s = .next (setSteal (modCore S v fun c => { c with ranges := updIf (fun y => y.slot == r.slot) (fun _ => (splitRange r).1) c.ranges }) s.unit_ .idle)) ∧
    (stealable s v s.unit_ = none → splittable s v s.unit_ = none → exec .stealResponse s = .next (setSteal s s.unit_ (.asking (n + 1))))) ∧
  (∀ (s : State) (e : Nat), (getCore s s.unit_).steal = .backoff e → e ≤ s.now → exec .stealBackoffExpiry s = .next (setSteal s s.unit_ .idle)) ∧
  (∀ (core seg : Nat) (s S : State) (v : Workgroup), victimOf s core seg = some v → v.state = .frozen → segBusy s v seg = false → discards s (unitOf s v) = false →
    writeSave (writeBackAll s v) v seg (segPages - movedOf v seg) (movedOf v seg) = (S, segPages) →
    ∃ T, T = modWg S v.id (setSeg seg fun g => { g with saved := true, moved := 0 }) ∧
      exec (.segmentSaveComplete core seg) s = .next (wakeAll { T with wgs := updIf (claims core seg v.id) (setSeg seg fun g => { g with victim := none, saving := false }) T.wgs })) ∧
  (∀ (core seg wg : Nat) (s S : State) (w : Workgroup) (n : Nat), restoring s core seg wg = some w →
    (readSaves s w seg (segPages - movedOf w seg) (movedOf w seg) = (S, n, .good) →
      exec (.segmentRestore core seg wg) s = .next (wakeAll (modWg S w.id (setSeg seg fun g => { g with saved := false, saving := false, moved := 0 })))) ∧
    (readSaves s w seg (segPages - movedOf w seg) (movedOf w seg) = (S, n, .lost) →
      exec (.segmentRestore core seg wg) s = .next (wakeAll (kill S w.id 0x5A (w.rcb.saveBase + BitVec.ofNat 64 (seg * Config.segmentBytes + 4096 * n)))))) ∧
  (∀ (p : Nat) (a : Word) (s : State) (r : Region) (q : Nat), getRegion s p a = some r → r.exhausted = false → r.live = true → quotaNs r = some q → q ≤ r.charged →
    ∃ S, S = { s with regions := updIf (fun x => x.pasid == p && x.addr == a && x.live) (fun x => { x with exhausted := true }) s.regions } ∧
      exec (.budgetExhausted p a) s = .next { S with
        wgs := updIf (fun w => w.pasid == p && w.state == .resident && inSubtree S p a w.region) (fun w => { w with state := .held, frozenAt := s.now }) s.wgs }) ∧
  ∀ s : State, s.window + 10000000 ≤ s.ns →
    ∃ S, S = { s with window := s.ns / 10000000 * 10000000, regions := s.regions.map fun r => { r with rcb := r.pending.getD r.rcb, pending := none, charged := 0, exhausted := false } } ∧
      exec .budgetWindowBoundary s = .next (((s.wgs.filter fun w => w.state == .held).map (·.id)).foldl thaw S)

/-- R228. -/
def Obligations.Division : Prop :=
  (∀ (o : A2) (w64 u : Bool) (s : State), Issuing s → Ready s o.pg (pairSrcs o w64) o.d (wWords w64) →
    (∃ t out, exec (.idiv o w64 u) s = .next t ∧ WordLate s t o.pg (pairSrcs o w64) o.d (wWords w64) out ∧
      ∀ w x, ∃ q, IsQuotient u (wBits w64) (patA s (pairSrcs o w64) w64 w x) (patB s (pairSrcs o w64) w64 w x) q ∧
        out w x = natOut (wWords w64) q) ∧
    (∃ t out, exec (.irem o w64 u) s = .next t ∧ WordLate s t o.pg (pairSrcs o w64) o.d (wWords w64) out ∧
      ∀ w x, ∃ r, IsRemainder u (wBits w64) (patA s (pairSrcs o w64) w64 w x) (patB s (pairSrcs o w64) w64 w x) r ∧
        out w x = natOut (wWords w64) r)) ∧
  ∀ i a s w x, intSpec i = some a → (a.lane s w x).flags = 0 ∧ ((a.lane s w x).cause.isSome = true →
    (∃ c, (a.lane s w x).cause = some c ∧ c.code = 0x24) ∧
      ((∃ o l w64, i = .funnel o l w64) ∨ (∃ o w64 u, i = .bfe o w64 u) ∨ ∃ o w64, i = .bfi o w64))

/-- R287. -/
def Obligations.Shifts : Prop :=
  (∀ (o : A2) (w64 : Bool) (s : State), Issuing s → Ready s o.pg (shiftSrcs o w64) o.d (wWords w64) →
    ∀ i f, (i, f) ∈ [(Instr.shl o w64, shlBit), (.shr o w64, shrBit), (.shra o w64, shraBit), (.rotl o w64, rotlBit)] →
    ∃ t out, exec i s = .next t ∧ WordDone s t o.pg (shiftSrcs o w64) (some o.d) out ∧
      ∀ w x, ∃ r, HasBits (wBits w64) r (f (wBits w64) (patA s (shiftSrcs o w64) w64 w x) (patB s (shiftSrcs o w64) false w x)) ∧
        out w x = natOut (wWords w64) r) ∧
  ∀ (h : Half) (s : State) (w : Workgroup) (x : Thread) (v : List Opv) (f : Nat → Nat → Nat → Nat → Bool),
    (h.sop, f) ∈ [(Sop.shl, shlBit), (.shr, shrBit)] →
    ∃ r, HasBits 32 r (f 32 ((opv v 0).nat false) ((opv v 1).nat false)) ∧ halfOut h s w x v = natOut 1 r

/-- R227. -/
def Obligations.MinMax : Prop :=
  ∀ (o : A2) (m : FMod) (s : State), Issuing s → Ready s o.pg ([o.a, o.b].map (fSrc (.scalar (ffmt m.fmt)))) o.d 1 →
    ∀ i max prop, (i, max, prop) ∈ [(Instr.fmin o m, false, false), (.fmax o m, true, false), (.fminp o m, false, true), (.fmaxp o m, true, true)] →
    ∃ t out, exec i s = .next t ∧ WordDone s t o.pg ([o.a, o.b].map (fSrc (.scalar (ffmt m.fmt)))) (some o.d) out ∧
      ∀ w x, ∃ r, IsExtremum (ffmt m.fmt) max prop (fArg s ([o.a, o.b].map (fSrc (.scalar (ffmt m.fmt)))) m (m.aAbs, m.aNeg) 0 w x)
          (fArg s ([o.a, o.b].map (fSrc (.scalar (ffmt m.fmt)))) m (m.bAbs, m.bNeg) 1 w x) r ∧ (out w x).words = wordsOf 1 r

/-- R430. -/
def Obligations.ConstantTangents : Prop :=
  ∀ (s : State) (w : Workgroup) (x : Thread) (pops : List Nat) (o : Src) (k : Nat) (kind : OpK), IsConstant o.op →
    (∀ j n, tanOf (readSrc s w x pops o k kind).val j n = 0) ∧ ∀ n, ∀ l ∈ moveSh s w x n (readSrc s w x pops o k kind).val, ∀ y ∈ l, y = 0

/-- R161. -/
def Obligations.Predicates : Prop :=
  (∀ x : Thread, predBit x 7 = true ∧ (∀ b, setPred x 7 b = x) ∧
    ∀ n b, n < 7 → predBit (setPred x n b) n = b ∧ ∀ m, m < 8 → m ≠ n → predBit (setPred x n b) m = predBit x m) ∧
  ∀ i a s, intSpec i = some a → ((∃ o c w64 u, i = .icmp o c w64 u) ∨ ∃ pg pd pa pb pc t, i = .pbool3 pg pd pa pb pc t) → Issuing s → a.sound s →
    ∃ t, exec i s = .next t ∧ ∀ tid x w, Lane s tid x w → passes x a.pg = true → ∃ y, getT t tid = some y ∧
      ∃ n b, (a.lane s w x).preds = [(n, b)] ∧ ∀ m, m < 8 → predBit y m = if m = 7 then true else if m = n then b else predBit x m

/-- R44. -/
def Obligations.UpdateWindow : Prop :=
  (∀ (s : State) (image : Nat), s.fw.trial = .inTrial → exec (.firmwareUpdateRequest image) s = .next s) ∧
  (∀ (s : State) (image : Nat), s.fw.trial = .inTrial → exec (.monitorPatchRequest image) s = .next s) ∧
  ∀ (s : State) (v : Word), (∀ e, s.fw.trialEnd = some e → e ≤ s.ns) → (∀ e, s.fw.patchEnd = some e → e ≤ s.ns) → ∀ (monitor : Bool), exec (.fwcommit ⟨v, monitor⟩) s = .next s

/-- R166. -/
def Obligations.SourceStates : Prop :=
  ∀ (o : A1) (w64 : Bool) (s : State) (x : Thread) (w : Workgroup) (isO : Bool) (n : Nat), Solo s o.pg x w → HandlerFree w x →
    dualCause s w = [] → (dstCheck w x o.d (wWords w64)).1 = [] → Names w o.a.op isO n (wWords w64) →
    ((∀ r ∈ regRun isO x n (wWords w64), r.st = .full) →
      (readSrcs s w x [intSrc w64 o.a] []).causes = [] ∧ (readSrcs s w x [intSrc w64 o.a] []).wait = false ∧ Clean s w x [intSrc w64 o.a] ∧
      ∃ v, (readSrcs s w x [intSrc w64 o.a] []).vals = [v] ∧ v.words = (regRun isO x n (wWords w64)).map (·.val)) ∧
    (SomeIn (regRun isO x n (wWords w64)) .pending → ¬ SomeIn (regRun isO x n (wWords w64)) .dead → o.a.e = false →
      ∃ t, exec (.mov o w64) s = .next t ∧ t = { s with threads := t.threads } ∧ OneDone s t x (Waits s .reg x)) ∧
    (SomeIn (regRun isO x n (wWords w64)) .pending → o.a.e = true → ∃ t, exec (.mov o w64) s = .next t ∧ Trapped s t x w { code := 0x10 }) ∧
    (SomeIn (regRun isO x n (wWords w64)) .dead → ¬ (SomeIn (regRun isO x n (wWords w64)) .pending ∧ o.a.e = true) →
      ∃ t, exec (.mov o w64) s = .next t ∧ Trapped s t x w { code := 0x11 })

/-- R106, R335, R244, R247. -/
def Obligations.AddressTraps : Prop :=
  (∀ (m : MLoad) (s : State) (x : Thread) (w : Workgroup), Solo s m.pg x w → HandlerFree w x → Sound s w x (loadSrcs m) m.d m.w.k →
    Clean s w x (loadSrcs m) →
    ((loadEa m s w x).toNat % MWidth.bytes m.w ≠ 0 → ∃ t, exec (.ld m) s = .next t ∧ Trapped s t x w { code := 0x30, addr := loadEa m s w x }) ∧
    ((loadEa m s w x).toNat % MWidth.bytes m.w = 0 → 2 ^ 57 ≤ (loadEa m s w x).toNat → logged s x.tid (loadEa m s w x) = false →
      ∃ t, exec (.ld m) s = .next t ∧ Trapped s t x w { code := 0x42, addr := loadEa m s w x })) ∧
  ∀ (m : MStore) (s : State) (x : Thread) (w : Workgroup), Solo s m.pg x w → HandlerFree w x → Sound s w x (gstoreSrcs m) .zero 0 →
    (opv (readSrcs s w x (gstoreSrcs m) []).vals 0).poison = false →
    ((storeEa m s w x).toNat % MWidth.bytes m.w ≠ 0 → ∃ t, exec (.st m) s = .next t ∧ Trapped s t x w { code := 0x30, addr := storeEa m s w x }) ∧
    ((storeEa m s w x).toNat % MWidth.bytes m.w = 0 → 2 ^ 57 ≤ (storeEa m s w x).toNat →
      (Ord.rel m.ord = true → releasePending s x.tid m.scope = false) →
      ∃ t, exec (.st m) s = .next t ∧ Trapped s t x w { code := 0x42, addr := storeEa m s w x })

/-- R118, R119. -/
def Obligations.PageFaultHolds : Prop :=
  ∀ (m : MLoad) (s : State) (x : Thread) (w : Workgroup), Solo s m.pg x w → Sound s w x (loadSrcs m) m.d m.w.k → Clean s w x (loadSrcs m) →
    (loadEa m s w x).toNat % MWidth.bytes m.w = 0 → logged s x.tid (loadEa m s w x) = false →
    translate s x.tid.core w.pasid (loadEa m s w x).toNat ⟨true, false, false, x.pl⟩ = (s, .unmapped) →
    (s.faults.any fun f => f.die == coreDie x.tid.core && f.pasid == w.pasid && f.page == (loadEa m s w x).toNat / 4096 && f.write == false) = false →
    (s.faults.filter fun f => f.die == coreDie x.tid.core).length < Config.pendingFaults →
    ∃ t, exec (.ld m) s = .next t ∧
      t = { s with threads := t.threads, faults := s.faults ++ [⟨coreDie x.tid.core, w.pasid, (loadEa m s w x).toNat / 4096, false, (loadEa m s w x).toNat,
                     pageHost s x.tid.core w.pasid (loadEa m s w x).toNat⟩],
                   mem := t.mem, links := t.links, records := t.records, ids := t.ids } ∧
      OneDone s t x (Waits s (.fault ((loadEa m s w x).toNat / 4096) false) x)

/-- R243, R413 to R423. -/
def Obligations.PrivilegeTraps : Prop :=
  (∀ (i : Instr) (a : OneWord) (s : State) (x : Thread) (w : Workgroup), rootWord i = some a ∨ stateWord i = some a → x.pl < a.need →
    Solo s a.pg x w → HandlerFree w x → Sound s w x a.srcs a.d a.kd → ∃ t, exec i s = .next t ∧ Trapped s t x w { code := 0x05 }) ∧
  ∀ (pg : Guard) (s : State) (x : Thread) (w : Workgroup), x.pl < 1 → Solo s pg x w → HandlerFree w x → dualCause s w = [] →
    ∃ t, exec (.eret pg) s = .next t ∧ Trapped s t x w { code := 0x05 }
end

