-- ==== Sys2Proof/Laws/State.lean ====
section
/-! SUPPORT. What each update of the state leaves alone: one lemma for each field and update, by rfl. -/

namespace Sys2Proof.Machine

@[simp] theorem modT_now (s : State) (t : Tid) (f : Thread → Thread) : (modT s t f).now = s.now := rfl
@[simp] theorem modT_ns (s : State) (t : Tid) (f : Thread → Thread) : (modT s t f).ns = s.ns := rfl
@[simp] theorem modT_clkMhz (s : State) (t : Tid) (f : Thread → Thread) : (modT s t f).clkMhz = s.clkMhz := rfl
@[simp] theorem modT_powered (s : State) (t : Tid) (f : Thread → Thread) : (modT s t f).powered = s.powered := rfl
@[simp] theorem modT_freeCtr (s : State) (t : Tid) (f : Thread → Thread) : (modT s t f).freeCtr = s.freeCtr := rfl
@[simp] theorem modT_unit_ (s : State) (t : Tid) (f : Thread → Thread) : (modT s t f).unit_ = s.unit_ := rfl
@[simp] theorem modT_agenda (s : State) (t : Tid) (f : Thread → Thread) : (modT s t f).agenda = s.agenda := rfl
@[simp] theorem modT_ids (s : State) (t : Tid) (f : Thread → Thread) : (modT s t f).ids = s.ids := rfl
@[simp] theorem modT_cur (s : State) (t : Tid) (f : Thread → Thread) : (modT s t f).cur = s.cur := rfl
@[simp] theorem modT_groups (s : State) (t : Tid) (f : Thread → Thread) : (modT s t f).groups = s.groups := rfl
@[simp] theorem modT_warps (s : State) (t : Tid) (f : Thread → Thread) : (modT s t f).warps = s.warps := rfl
@[simp] theorem modT_wgs (s : State) (t : Tid) (f : Thread → Thread) : (modT s t f).wgs = s.wgs := rfl
@[simp] theorem modT_gangs (s : State) (t : Tid) (f : Thread → Thread) : (modT s t f).gangs = s.gangs := rfl
@[simp] theorem modT_launches (s : State) (t : Tid) (f : Thread → Thread) : (modT s t f).launches = s.launches := rfl
@[simp] theorem modT_regions (s : State) (t : Tid) (f : Thread → Thread) : (modT s t f).regions = s.regions := rfl
@[simp] theorem modT_contexts (s : State) (t : Tid) (f : Thread → Thread) : (modT s t f).contexts = s.contexts := rfl
@[simp] theorem modT_keys (s : State) (t : Tid) (f : Thread → Thread) : (modT s t f).keys = s.keys := rfl
@[simp] theorem modT_cores (s : State) (t : Tid) (f : Thread → Thread) : (modT s t f).cores = s.cores := rfl
@[simp] theorem modT_mem (s : State) (t : Tid) (f : Thread → Thread) : (modT s t f).mem = s.mem := rfl
@[simp] theorem modT_blocks (s : State) (t : Tid) (f : Thread → Thread) : (modT s t f).blocks = s.blocks := rfl
@[simp] theorem modT_dirty (s : State) (t : Tid) (f : Thread → Thread) : (modT s t f).dirty = s.dirty := rfl
@[simp] theorem modT_l1 (s : State) (t : Tid) (f : Thread → Thread) : (modT s t f).l1 = s.l1 := rfl
@[simp] theorem modT_tlb (s : State) (t : Tid) (f : Thread → Thread) : (modT s t f).tlb = s.tlb := rfl
@[simp] theorem modT_icache (s : State) (t : Tid) (f : Thread → Thread) : (modT s t f).icache = s.icache := rfl
@[simp] theorem modT_clb (s : State) (t : Tid) (f : Thread → Thread) : (modT s t f).clb = s.clb := rfl
@[simp] theorem modT_loads (s : State) (t : Tid) (f : Thread → Thread) : (modT s t f).loads = s.loads := rfl
@[simp] theorem modT_stores (s : State) (t : Tid) (f : Thread → Thread) : (modT s t f).stores = s.stores := rfl
@[simp] theorem modT_sideLog (s : State) (t : Tid) (f : Thread → Thread) : (modT s t f).sideLog = s.sideLog := rfl
@[simp] theorem modT_faults (s : State) (t : Tid) (f : Thread → Thread) : (modT s t f).faults = s.faults := rfl
@[simp] theorem modT_monitors (s : State) (t : Tid) (f : Thread → Thread) : (modT s t f).monitors = s.monitors := rfl
@[simp] theorem modT_engines (s : State) (t : Tid) (f : Thread → Thread) : (modT s t f).engines = s.engines := rfl
@[simp] theorem modT_streams (s : State) (t : Tid) (f : Thread → Thread) : (modT s t f).streams = s.streams := rfl
@[simp] theorem modT_claims (s : State) (t : Tid) (f : Thread → Thread) : (modT s t f).claims = s.claims := rfl
@[simp] theorem modT_compare (s : State) (t : Tid) (f : Thread → Thread) : (modT s t f).compare = s.compare := rfl
@[simp] theorem modT_values (s : State) (t : Tid) (f : Thread → Thread) : (modT s t f).values = s.values := rfl
@[simp] theorem modT_races (s : State) (t : Tid) (f : Thread → Thread) : (modT s t f).races = s.races := rfl
@[simp] theorem modT_syncs (s : State) (t : Tid) (f : Thread → Thread) : (modT s t f).syncs = s.syncs := rfl
@[simp] theorem modT_fenceVc (s : State) (t : Tid) (f : Thread → Thread) : (modT s t f).fenceVc = s.fenceVc := rfl
@[simp] theorem modT_bwords (s : State) (t : Tid) (f : Thread → Thread) : (modT s t f).bwords = s.bwords := rfl
@[simp] theorem modT_bupdates (s : State) (t : Tid) (f : Thread → Thread) : (modT s t f).bupdates = s.bupdates := rfl
@[simp] theorem modT_watchers (s : State) (t : Tid) (f : Thread → Thread) : (modT s t f).watchers = s.watchers := rfl
@[simp] theorem modT_queues (s : State) (t : Tid) (f : Thread → Thread) : (modT s t f).queues = s.queues := rfl
@[simp] theorem modT_links (s : State) (t : Tid) (f : Thread → Thread) : (modT s t f).links = s.links := rfl
@[simp] theorem modT_records (s : State) (t : Tid) (f : Thread → Thread) : (modT s t f).records = s.records := rfl
@[simp] theorem modT_hostReads (s : State) (t : Tid) (f : Thread → Thread) : (modT s t f).hostReads = s.hostReads := rfl
@[simp] theorem modT_fw (s : State) (t : Tid) (f : Thread → Thread) : (modT s t f).fw = s.fw := rfl
@[simp] theorem modT_services (s : State) (t : Tid) (f : Thread → Thread) : (modT s t f).services = s.services := rfl
@[simp] theorem modT_reports (s : State) (t : Tid) (f : Thread → Thread) : (modT s t f).reports = s.reports := rfl
@[simp] theorem modT_ports (s : State) (t : Tid) (f : Thread → Thread) : (modT s t f).ports = s.ports := rfl
@[simp] theorem modT_peerReads (s : State) (t : Tid) (f : Thread → Thread) : (modT s t f).peerReads = s.peerReads := rfl
@[simp] theorem modT_module_ (s : State) (t : Tid) (f : Thread → Thread) : (modT s t f).module_ = s.module_ := rfl
@[simp] theorem modT_domain (s : State) (t : Tid) (f : Thread → Thread) : (modT s t f).domain = s.domain := rfl
@[simp] theorem modT_reserve (s : State) (t : Tid) (f : Thread → Thread) : (modT s t f).reserve = s.reserve := rfl
@[simp] theorem modT_outstanding (s : State) (t : Tid) (f : Thread → Thread) : (modT s t f).outstanding = s.outstanding := rfl
@[simp] theorem modT_granted (s : State) (t : Tid) (f : Thread → Thread) : (modT s t f).granted = s.granted := rfl
@[simp] theorem modT_heatMs (s : State) (t : Tid) (f : Thread → Thread) : (modT s t f).heatMs = s.heatMs := rfl
@[simp] theorem modT_heatSwept (s : State) (t : Tid) (f : Thread → Thread) : (modT s t f).heatSwept = s.heatSwept := rfl
@[simp] theorem modT_memerr (s : State) (t : Tid) (f : Thread → Thread) : (modT s t f).memerr = s.memerr := rfl
@[simp] theorem modT_warm (s : State) (t : Tid) (f : Thread → Thread) : (modT s t f).warm = s.warm := rfl
@[simp] theorem modT_window (s : State) (t : Tid) (f : Thread → Thread) : (modT s t f).window = s.window := rfl

@[simp] theorem modWarp_now (s : State) (c k : Nat) (f : Warp → Warp) : (modWarp s c k f).now = s.now := rfl
@[simp] theorem modWarp_ns (s : State) (c k : Nat) (f : Warp → Warp) : (modWarp s c k f).ns = s.ns := rfl
@[simp] theorem modWarp_clkMhz (s : State) (c k : Nat) (f : Warp → Warp) : (modWarp s c k f).clkMhz = s.clkMhz := rfl
@[simp] theorem modWarp_powered (s : State) (c k : Nat) (f : Warp → Warp) : (modWarp s c k f).powered = s.powered := rfl
@[simp] theorem modWarp_freeCtr (s : State) (c k : Nat) (f : Warp → Warp) : (modWarp s c k f).freeCtr = s.freeCtr := rfl
@[simp] theorem modWarp_unit_ (s : State) (c k : Nat) (f : Warp → Warp) : (modWarp s c k f).unit_ = s.unit_ := rfl
@[simp] theorem modWarp_agenda (s : State) (c k : Nat) (f : Warp → Warp) : (modWarp s c k f).agenda = s.agenda := rfl
@[simp] theorem modWarp_ids (s : State) (c k : Nat) (f : Warp → Warp) : (modWarp s c k f).ids = s.ids := rfl
@[simp] theorem modWarp_cur (s : State) (c k : Nat) (f : Warp → Warp) : (modWarp s c k f).cur = s.cur := rfl
@[simp] theorem modWarp_groups (s : State) (c k : Nat) (f : Warp → Warp) : (modWarp s c k f).groups = s.groups := rfl
@[simp] theorem modWarp_threads (s : State) (c k : Nat) (f : Warp → Warp) : (modWarp s c k f).threads = s.threads := rfl
@[simp] theorem modWarp_wgs (s : State) (c k : Nat) (f : Warp → Warp) : (modWarp s c k f).wgs = s.wgs := rfl
@[simp] theorem modWarp_gangs (s : State) (c k : Nat) (f : Warp → Warp) : (modWarp s c k f).gangs = s.gangs := rfl
@[simp] theorem modWarp_launches (s : State) (c k : Nat) (f : Warp → Warp) : (modWarp s c k f).launches = s.launches := rfl
@[simp] theorem modWarp_regions (s : State) (c k : Nat) (f : Warp → Warp) : (modWarp s c k f).regions = s.regions := rfl
@[simp] theorem modWarp_contexts (s : State) (c k : Nat) (f : Warp → Warp) : (modWarp s c k f).contexts = s.contexts := rfl
@[simp] theorem modWarp_keys (s : State) (c k : Nat) (f : Warp → Warp) : (modWarp s c k f).keys = s.keys := rfl
@[simp] theorem modWarp_cores (s : State) (c k : Nat) (f : Warp → Warp) : (modWarp s c k f).cores = s.cores := rfl
@[simp] theorem modWarp_mem (s : State) (c k : Nat) (f : Warp → Warp) : (modWarp s c k f).mem = s.mem := rfl
@[simp] theorem modWarp_blocks (s : State) (c k : Nat) (f : Warp → Warp) : (modWarp s c k f).blocks = s.blocks := rfl
@[simp] theorem modWarp_dirty (s : State) (c k : Nat) (f : Warp → Warp) : (modWarp s c k f).dirty = s.dirty := rfl
@[simp] theorem modWarp_l1 (s : State) (c k : Nat) (f : Warp → Warp) : (modWarp s c k f).l1 = s.l1 := rfl
@[simp] theorem modWarp_tlb (s : State) (c k : Nat) (f : Warp → Warp) : (modWarp s c k f).tlb = s.tlb := rfl
@[simp] theorem modWarp_icache (s : State) (c k : Nat) (f : Warp → Warp) : (modWarp s c k f).icache = s.icache := rfl
@[simp] theorem modWarp_clb (s : State) (c k : Nat) (f : Warp → Warp) : (modWarp s c k f).clb = s.clb := rfl
@[simp] theorem modWarp_loads (s : State) (c k : Nat) (f : Warp → Warp) : (modWarp s c k f).loads = s.loads := rfl
@[simp] theorem modWarp_stores (s : State) (c k : Nat) (f : Warp → Warp) : (modWarp s c k f).stores = s.stores := rfl
@[simp] theorem modWarp_sideLog (s : State) (c k : Nat) (f : Warp → Warp) : (modWarp s c k f).sideLog = s.sideLog := rfl
@[simp] theorem modWarp_faults (s : State) (c k : Nat) (f : Warp → Warp) : (modWarp s c k f).faults = s.faults := rfl
@[simp] theorem modWarp_monitors (s : State) (c k : Nat) (f : Warp → Warp) : (modWarp s c k f).monitors = s.monitors := rfl
@[simp] theorem modWarp_engines (s : State) (c k : Nat) (f : Warp → Warp) : (modWarp s c k f).engines = s.engines := rfl
@[simp] theorem modWarp_streams (s : State) (c k : Nat) (f : Warp → Warp) : (modWarp s c k f).streams = s.streams := rfl
@[simp] theorem modWarp_claims (s : State) (c k : Nat) (f : Warp → Warp) : (modWarp s c k f).claims = s.claims := rfl
@[simp] theorem modWarp_compare (s : State) (c k : Nat) (f : Warp → Warp) : (modWarp s c k f).compare = s.compare := rfl
@[simp] theorem modWarp_values (s : State) (c k : Nat) (f : Warp → Warp) : (modWarp s c k f).values = s.values := rfl
@[simp] theorem modWarp_races (s : State) (c k : Nat) (f : Warp → Warp) : (modWarp s c k f).races = s.races := rfl
@[simp] theorem modWarp_syncs (s : State) (c k : Nat) (f : Warp → Warp) : (modWarp s c k f).syncs = s.syncs := rfl
@[simp] theorem modWarp_fenceVc (s : State) (c k : Nat) (f : Warp → Warp) : (modWarp s c k f).fenceVc = s.fenceVc := rfl
@[simp] theorem modWarp_bwords (s : State) (c k : Nat) (f : Warp → Warp) : (modWarp s c k f).bwords = s.bwords := rfl
@[simp] theorem modWarp_bupdates (s : State) (c k : Nat) (f : Warp → Warp) : (modWarp s c k f).bupdates = s.bupdates := rfl
@[simp] theorem modWarp_watchers (s : State) (c k : Nat) (f : Warp → Warp) : (modWarp s c k f).watchers = s.watchers := rfl
@[simp] theorem modWarp_queues (s : State) (c k : Nat) (f : Warp → Warp) : (modWarp s c k f).queues = s.queues := rfl
@[simp] theorem modWarp_links (s : State) (c k : Nat) (f : Warp → Warp) : (modWarp s c k f).links = s.links := rfl
@[simp] theorem modWarp_records (s : State) (c k : Nat) (f : Warp → Warp) : (modWarp s c k f).records = s.records := rfl
@[simp] theorem modWarp_hostReads (s : State) (c k : Nat) (f : Warp → Warp) : (modWarp s c k f).hostReads = s.hostReads := rfl
@[simp] theorem modWarp_fw (s : State) (c k : Nat) (f : Warp → Warp) : (modWarp s c k f).fw = s.fw := rfl
@[simp] theorem modWarp_services (s : State) (c k : Nat) (f : Warp → Warp) : (modWarp s c k f).services = s.services := rfl
@[simp] theorem modWarp_reports (s : State) (c k : Nat) (f : Warp → Warp) : (modWarp s c k f).reports = s.reports := rfl
@[simp] theorem modWarp_ports (s : State) (c k : Nat) (f : Warp → Warp) : (modWarp s c k f).ports = s.ports := rfl
@[simp] theorem modWarp_peerReads (s : State) (c k : Nat) (f : Warp → Warp) : (modWarp s c k f).peerReads = s.peerReads := rfl
@[simp] theorem modWarp_module_ (s : State) (c k : Nat) (f : Warp → Warp) : (modWarp s c k f).module_ = s.module_ := rfl
@[simp] theorem modWarp_domain (s : State) (c k : Nat) (f : Warp → Warp) : (modWarp s c k f).domain = s.domain := rfl
@[simp] theorem modWarp_reserve (s : State) (c k : Nat) (f : Warp → Warp) : (modWarp s c k f).reserve = s.reserve := rfl
@[simp] theorem modWarp_outstanding (s : State) (c k : Nat) (f : Warp → Warp) : (modWarp s c k f).outstanding = s.outstanding := rfl
@[simp] theorem modWarp_granted (s : State) (c k : Nat) (f : Warp → Warp) : (modWarp s c k f).granted = s.granted := rfl
@[simp] theorem modWarp_heatMs (s : State) (c k : Nat) (f : Warp → Warp) : (modWarp s c k f).heatMs = s.heatMs := rfl
@[simp] theorem modWarp_heatSwept (s : State) (c k : Nat) (f : Warp → Warp) : (modWarp s c k f).heatSwept = s.heatSwept := rfl
@[simp] theorem modWarp_memerr (s : State) (c k : Nat) (f : Warp → Warp) : (modWarp s c k f).memerr = s.memerr := rfl
@[simp] theorem modWarp_warm (s : State) (c k : Nat) (f : Warp → Warp) : (modWarp s c k f).warm = s.warm := rfl
@[simp] theorem modWarp_window (s : State) (c k : Nat) (f : Warp → Warp) : (modWarp s c k f).window = s.window := rfl

@[simp] theorem modWg_now (s : State) (n : Nat) (f : Workgroup → Workgroup) : (modWg s n f).now = s.now := rfl
@[simp] theorem modWg_ns (s : State) (n : Nat) (f : Workgroup → Workgroup) : (modWg s n f).ns = s.ns := rfl
@[simp] theorem modWg_clkMhz (s : State) (n : Nat) (f : Workgroup → Workgroup) : (modWg s n f).clkMhz = s.clkMhz := rfl
@[simp] theorem modWg_powered (s : State) (n : Nat) (f : Workgroup → Workgroup) : (modWg s n f).powered = s.powered := rfl
@[simp] theorem modWg_freeCtr (s : State) (n : Nat) (f : Workgroup → Workgroup) : (modWg s n f).freeCtr = s.freeCtr := rfl
@[simp] theorem modWg_unit_ (s : State) (n : Nat) (f : Workgroup → Workgroup) : (modWg s n f).unit_ = s.unit_ := rfl
@[simp] theorem modWg_agenda (s : State) (n : Nat) (f : Workgroup → Workgroup) : (modWg s n f).agenda = s.agenda := rfl
@[simp] theorem modWg_ids (s : State) (n : Nat) (f : Workgroup → Workgroup) : (modWg s n f).ids = s.ids := rfl
@[simp] theorem modWg_cur (s : State) (n : Nat) (f : Workgroup → Workgroup) : (modWg s n f).cur = s.cur := rfl
@[simp] theorem modWg_groups (s : State) (n : Nat) (f : Workgroup → Workgroup) : (modWg s n f).groups = s.groups := rfl
@[simp] theorem modWg_threads (s : State) (n : Nat) (f : Workgroup → Workgroup) : (modWg s n f).threads = s.threads := rfl
@[simp] theorem modWg_warps (s : State) (n : Nat) (f : Workgroup → Workgroup) : (modWg s n f).warps = s.warps := rfl
@[simp] theorem modWg_gangs (s : State) (n : Nat) (f : Workgroup → Workgroup) : (modWg s n f).gangs = s.gangs := rfl
@[simp] theorem modWg_launches (s : State) (n : Nat) (f : Workgroup → Workgroup) : (modWg s n f).launches = s.launches := rfl
@[simp] theorem modWg_regions (s : State) (n : Nat) (f : Workgroup → Workgroup) : (modWg s n f).regions = s.regions := rfl
@[simp] theorem modWg_contexts (s : State) (n : Nat) (f : Workgroup → Workgroup) : (modWg s n f).contexts = s.contexts := rfl
@[simp] theorem modWg_keys (s : State) (n : Nat) (f : Workgroup → Workgroup) : (modWg s n f).keys = s.keys := rfl
@[simp] theorem modWg_cores (s : State) (n : Nat) (f : Workgroup → Workgroup) : (modWg s n f).cores = s.cores := rfl
@[simp] theorem modWg_mem (s : State) (n : Nat) (f : Workgroup → Workgroup) : (modWg s n f).mem = s.mem := rfl
@[simp] theorem modWg_blocks (s : State) (n : Nat) (f : Workgroup → Workgroup) : (modWg s n f).blocks = s.blocks := rfl
@[simp] theorem modWg_dirty (s : State) (n : Nat) (f : Workgroup → Workgroup) : (modWg s n f).dirty = s.dirty := rfl
@[simp] theorem modWg_l1 (s : State) (n : Nat) (f : Workgroup → Workgroup) : (modWg s n f).l1 = s.l1 := rfl
@[simp] theorem modWg_tlb (s : State) (n : Nat) (f : Workgroup → Workgroup) : (modWg s n f).tlb = s.tlb := rfl
@[simp] theorem modWg_icache (s : State) (n : Nat) (f : Workgroup → Workgroup) : (modWg s n f).icache = s.icache := rfl
@[simp] theorem modWg_clb (s : State) (n : Nat) (f : Workgroup → Workgroup) : (modWg s n f).clb = s.clb := rfl
@[simp] theorem modWg_loads (s : State) (n : Nat) (f : Workgroup → Workgroup) : (modWg s n f).loads = s.loads := rfl
@[simp] theorem modWg_stores (s : State) (n : Nat) (f : Workgroup → Workgroup) : (modWg s n f).stores = s.stores := rfl
@[simp] theorem modWg_sideLog (s : State) (n : Nat) (f : Workgroup → Workgroup) : (modWg s n f).sideLog = s.sideLog := rfl
@[simp] theorem modWg_faults (s : State) (n : Nat) (f : Workgroup → Workgroup) : (modWg s n f).faults = s.faults := rfl
@[simp] theorem modWg_monitors (s : State) (n : Nat) (f : Workgroup → Workgroup) : (modWg s n f).monitors = s.monitors := rfl
@[simp] theorem modWg_engines (s : State) (n : Nat) (f : Workgroup → Workgroup) : (modWg s n f).engines = s.engines := rfl
@[simp] theorem modWg_streams (s : State) (n : Nat) (f : Workgroup → Workgroup) : (modWg s n f).streams = s.streams := rfl
@[simp] theorem modWg_claims (s : State) (n : Nat) (f : Workgroup → Workgroup) : (modWg s n f).claims = s.claims := rfl
@[simp] theorem modWg_compare (s : State) (n : Nat) (f : Workgroup → Workgroup) : (modWg s n f).compare = s.compare := rfl
@[simp] theorem modWg_values (s : State) (n : Nat) (f : Workgroup → Workgroup) : (modWg s n f).values = s.values := rfl
@[simp] theorem modWg_races (s : State) (n : Nat) (f : Workgroup → Workgroup) : (modWg s n f).races = s.races := rfl
@[simp] theorem modWg_syncs (s : State) (n : Nat) (f : Workgroup → Workgroup) : (modWg s n f).syncs = s.syncs := rfl
@[simp] theorem modWg_fenceVc (s : State) (n : Nat) (f : Workgroup → Workgroup) : (modWg s n f).fenceVc = s.fenceVc := rfl
@[simp] theorem modWg_bwords (s : State) (n : Nat) (f : Workgroup → Workgroup) : (modWg s n f).bwords = s.bwords := rfl
@[simp] theorem modWg_bupdates (s : State) (n : Nat) (f : Workgroup → Workgroup) : (modWg s n f).bupdates = s.bupdates := rfl
@[simp] theorem modWg_watchers (s : State) (n : Nat) (f : Workgroup → Workgroup) : (modWg s n f).watchers = s.watchers := rfl
@[simp] theorem modWg_queues (s : State) (n : Nat) (f : Workgroup → Workgroup) : (modWg s n f).queues = s.queues := rfl
@[simp] theorem modWg_links (s : State) (n : Nat) (f : Workgroup → Workgroup) : (modWg s n f).links = s.links := rfl
@[simp] theorem modWg_records (s : State) (n : Nat) (f : Workgroup → Workgroup) : (modWg s n f).records = s.records := rfl
@[simp] theorem modWg_hostReads (s : State) (n : Nat) (f : Workgroup → Workgroup) : (modWg s n f).hostReads = s.hostReads := rfl
@[simp] theorem modWg_fw (s : State) (n : Nat) (f : Workgroup → Workgroup) : (modWg s n f).fw = s.fw := rfl
@[simp] theorem modWg_services (s : State) (n : Nat) (f : Workgroup → Workgroup) : (modWg s n f).services = s.services := rfl
@[simp] theorem modWg_reports (s : State) (n : Nat) (f : Workgroup → Workgroup) : (modWg s n f).reports = s.reports := rfl
@[simp] theorem modWg_ports (s : State) (n : Nat) (f : Workgroup → Workgroup) : (modWg s n f).ports = s.ports := rfl
@[simp] theorem modWg_peerReads (s : State) (n : Nat) (f : Workgroup → Workgroup) : (modWg s n f).peerReads = s.peerReads := rfl
@[simp] theorem modWg_module_ (s : State) (n : Nat) (f : Workgroup → Workgroup) : (modWg s n f).module_ = s.module_ := rfl
@[simp] theorem modWg_domain (s : State) (n : Nat) (f : Workgroup → Workgroup) : (modWg s n f).domain = s.domain := rfl
@[simp] theorem modWg_reserve (s : State) (n : Nat) (f : Workgroup → Workgroup) : (modWg s n f).reserve = s.reserve := rfl
@[simp] theorem modWg_outstanding (s : State) (n : Nat) (f : Workgroup → Workgroup) : (modWg s n f).outstanding = s.outstanding := rfl
@[simp] theorem modWg_granted (s : State) (n : Nat) (f : Workgroup → Workgroup) : (modWg s n f).granted = s.granted := rfl
@[simp] theorem modWg_heatMs (s : State) (n : Nat) (f : Workgroup → Workgroup) : (modWg s n f).heatMs = s.heatMs := rfl
@[simp] theorem modWg_heatSwept (s : State) (n : Nat) (f : Workgroup → Workgroup) : (modWg s n f).heatSwept = s.heatSwept := rfl
@[simp] theorem modWg_memerr (s : State) (n : Nat) (f : Workgroup → Workgroup) : (modWg s n f).memerr = s.memerr := rfl
@[simp] theorem modWg_warm (s : State) (n : Nat) (f : Workgroup → Workgroup) : (modWg s n f).warm = s.warm := rfl
@[simp] theorem modWg_window (s : State) (n : Nat) (f : Workgroup → Workgroup) : (modWg s n f).window = s.window := rfl

@[simp] theorem modGang_now (s : State) (n : Nat) (f : Gang → Gang) : (modGang s n f).now = s.now := rfl
@[simp] theorem modGang_ns (s : State) (n : Nat) (f : Gang → Gang) : (modGang s n f).ns = s.ns := rfl
@[simp] theorem modGang_clkMhz (s : State) (n : Nat) (f : Gang → Gang) : (modGang s n f).clkMhz = s.clkMhz := rfl
@[simp] theorem modGang_powered (s : State) (n : Nat) (f : Gang → Gang) : (modGang s n f).powered = s.powered := rfl
@[simp] theorem modGang_freeCtr (s : State) (n : Nat) (f : Gang → Gang) : (modGang s n f).freeCtr = s.freeCtr := rfl
@[simp] theorem modGang_unit_ (s : State) (n : Nat) (f : Gang → Gang) : (modGang s n f).unit_ = s.unit_ := rfl
@[simp] theorem modGang_agenda (s : State) (n : Nat) (f : Gang → Gang) : (modGang s n f).agenda = s.agenda := rfl
@[simp] theorem modGang_ids (s : State) (n : Nat) (f : Gang → Gang) : (modGang s n f).ids = s.ids := rfl
@[simp] theorem modGang_cur (s : State) (n : Nat) (f : Gang → Gang) : (modGang s n f).cur = s.cur := rfl
@[simp] theorem modGang_groups (s : State) (n : Nat) (f : Gang → Gang) : (modGang s n f).groups = s.groups := rfl
@[simp] theorem modGang_threads (s : State) (n : Nat) (f : Gang → Gang) : (modGang s n f).threads = s.threads := rfl
@[simp] theorem modGang_warps (s : State) (n : Nat) (f : Gang → Gang) : (modGang s n f).warps = s.warps := rfl
@[simp] theorem modGang_wgs (s : State) (n : Nat) (f : Gang → Gang) : (modGang s n f).wgs = s.wgs := rfl
@[simp] theorem modGang_launches (s : State) (n : Nat) (f : Gang → Gang) : (modGang s n f).launches = s.launches := rfl
@[simp] theorem modGang_regions (s : State) (n : Nat) (f : Gang → Gang) : (modGang s n f).regions = s.regions := rfl
@[simp] theorem modGang_contexts (s : State) (n : Nat) (f : Gang → Gang) : (modGang s n f).contexts = s.contexts := rfl
@[simp] theorem modGang_keys (s : State) (n : Nat) (f : Gang → Gang) : (modGang s n f).keys = s.keys := rfl
@[simp] theorem modGang_cores (s : State) (n : Nat) (f : Gang → Gang) : (modGang s n f).cores = s.cores := rfl
@[simp] theorem modGang_mem (s : State) (n : Nat) (f : Gang → Gang) : (modGang s n f).mem = s.mem := rfl
@[simp] theorem modGang_blocks (s : State) (n : Nat) (f : Gang → Gang) : (modGang s n f).blocks = s.blocks := rfl
@[simp] theorem modGang_dirty (s : State) (n : Nat) (f : Gang → Gang) : (modGang s n f).dirty = s.dirty := rfl
@[simp] theorem modGang_l1 (s : State) (n : Nat) (f : Gang → Gang) : (modGang s n f).l1 = s.l1 := rfl
@[simp] theorem modGang_tlb (s : State) (n : Nat) (f : Gang → Gang) : (modGang s n f).tlb = s.tlb := rfl
@[simp] theorem modGang_icache (s : State) (n : Nat) (f : Gang → Gang) : (modGang s n f).icache = s.icache := rfl
@[simp] theorem modGang_clb (s : State) (n : Nat) (f : Gang → Gang) : (modGang s n f).clb = s.clb := rfl
@[simp] theorem modGang_loads (s : State) (n : Nat) (f : Gang → Gang) : (modGang s n f).loads = s.loads := rfl
@[simp] theorem modGang_stores (s : State) (n : Nat) (f : Gang → Gang) : (modGang s n f).stores = s.stores := rfl
@[simp] theorem modGang_sideLog (s : State) (n : Nat) (f : Gang → Gang) : (modGang s n f).sideLog = s.sideLog := rfl
@[simp] theorem modGang_faults (s : State) (n : Nat) (f : Gang → Gang) : (modGang s n f).faults = s.faults := rfl
@[simp] theorem modGang_monitors (s : State) (n : Nat) (f : Gang → Gang) : (modGang s n f).monitors = s.monitors := rfl
@[simp] theorem modGang_engines (s : State) (n : Nat) (f : Gang → Gang) : (modGang s n f).engines = s.engines := rfl
@[simp] theorem modGang_streams (s : State) (n : Nat) (f : Gang → Gang) : (modGang s n f).streams = s.streams := rfl
@[simp] theorem modGang_claims (s : State) (n : Nat) (f : Gang → Gang) : (modGang s n f).claims = s.claims := rfl
@[simp] theorem modGang_compare (s : State) (n : Nat) (f : Gang → Gang) : (modGang s n f).compare = s.compare := rfl
@[simp] theorem modGang_values (s : State) (n : Nat) (f : Gang → Gang) : (modGang s n f).values = s.values := rfl
@[simp] theorem modGang_races (s : State) (n : Nat) (f : Gang → Gang) : (modGang s n f).races = s.races := rfl
@[simp] theorem modGang_syncs (s : State) (n : Nat) (f : Gang → Gang) : (modGang s n f).syncs = s.syncs := rfl
@[simp] theorem modGang_fenceVc (s : State) (n : Nat) (f : Gang → Gang) : (modGang s n f).fenceVc = s.fenceVc := rfl
@[simp] theorem modGang_bwords (s : State) (n : Nat) (f : Gang → Gang) : (modGang s n f).bwords = s.bwords := rfl
@[simp] theorem modGang_bupdates (s : State) (n : Nat) (f : Gang → Gang) : (modGang s n f).bupdates = s.bupdates := rfl
@[simp] theorem modGang_watchers (s : State) (n : Nat) (f : Gang → Gang) : (modGang s n f).watchers = s.watchers := rfl
@[simp] theorem modGang_queues (s : State) (n : Nat) (f : Gang → Gang) : (modGang s n f).queues = s.queues := rfl
@[simp] theorem modGang_links (s : State) (n : Nat) (f : Gang → Gang) : (modGang s n f).links = s.links := rfl
@[simp] theorem modGang_records (s : State) (n : Nat) (f : Gang → Gang) : (modGang s n f).records = s.records := rfl
@[simp] theorem modGang_hostReads (s : State) (n : Nat) (f : Gang → Gang) : (modGang s n f).hostReads = s.hostReads := rfl
@[simp] theorem modGang_fw (s : State) (n : Nat) (f : Gang → Gang) : (modGang s n f).fw = s.fw := rfl
@[simp] theorem modGang_services (s : State) (n : Nat) (f : Gang → Gang) : (modGang s n f).services = s.services := rfl
@[simp] theorem modGang_reports (s : State) (n : Nat) (f : Gang → Gang) : (modGang s n f).reports = s.reports := rfl
@[simp] theorem modGang_ports (s : State) (n : Nat) (f : Gang → Gang) : (modGang s n f).ports = s.ports := rfl
@[simp] theorem modGang_peerReads (s : State) (n : Nat) (f : Gang → Gang) : (modGang s n f).peerReads = s.peerReads := rfl
@[simp] theorem modGang_module_ (s : State) (n : Nat) (f : Gang → Gang) : (modGang s n f).module_ = s.module_ := rfl
@[simp] theorem modGang_domain (s : State) (n : Nat) (f : Gang → Gang) : (modGang s n f).domain = s.domain := rfl
@[simp] theorem modGang_reserve (s : State) (n : Nat) (f : Gang → Gang) : (modGang s n f).reserve = s.reserve := rfl
@[simp] theorem modGang_outstanding (s : State) (n : Nat) (f : Gang → Gang) : (modGang s n f).outstanding = s.outstanding := rfl
@[simp] theorem modGang_granted (s : State) (n : Nat) (f : Gang → Gang) : (modGang s n f).granted = s.granted := rfl
@[simp] theorem modGang_heatMs (s : State) (n : Nat) (f : Gang → Gang) : (modGang s n f).heatMs = s.heatMs := rfl
@[simp] theorem modGang_heatSwept (s : State) (n : Nat) (f : Gang → Gang) : (modGang s n f).heatSwept = s.heatSwept := rfl
@[simp] theorem modGang_memerr (s : State) (n : Nat) (f : Gang → Gang) : (modGang s n f).memerr = s.memerr := rfl
@[simp] theorem modGang_warm (s : State) (n : Nat) (f : Gang → Gang) : (modGang s n f).warm = s.warm := rfl
@[simp] theorem modGang_window (s : State) (n : Nat) (f : Gang → Gang) : (modGang s n f).window = s.window := rfl

@[simp] theorem modLaunch_now (s : State) (n : Nat) (f : Launch → Launch) : (modLaunch s n f).now = s.now := rfl
@[simp] theorem modLaunch_ns (s : State) (n : Nat) (f : Launch → Launch) : (modLaunch s n f).ns = s.ns := rfl
@[simp] theorem modLaunch_clkMhz (s : State) (n : Nat) (f : Launch → Launch) : (modLaunch s n f).clkMhz = s.clkMhz := rfl
@[simp] theorem modLaunch_powered (s : State) (n : Nat) (f : Launch → Launch) : (modLaunch s n f).powered = s.powered := rfl
@[simp] theorem modLaunch_freeCtr (s : State) (n : Nat) (f : Launch → Launch) : (modLaunch s n f).freeCtr = s.freeCtr := rfl
@[simp] theorem modLaunch_unit_ (s : State) (n : Nat) (f : Launch → Launch) : (modLaunch s n f).unit_ = s.unit_ := rfl
@[simp] theorem modLaunch_agenda (s : State) (n : Nat) (f : Launch → Launch) : (modLaunch s n f).agenda = s.agenda := rfl
@[simp] theorem modLaunch_ids (s : State) (n : Nat) (f : Launch → Launch) : (modLaunch s n f).ids = s.ids := rfl
@[simp] theorem modLaunch_cur (s : State) (n : Nat) (f : Launch → Launch) : (modLaunch s n f).cur = s.cur := rfl
@[simp] theorem modLaunch_groups (s : State) (n : Nat) (f : Launch → Launch) : (modLaunch s n f).groups = s.groups := rfl
@[simp] theorem modLaunch_threads (s : State) (n : Nat) (f : Launch → Launch) : (modLaunch s n f).threads = s.threads := rfl
@[simp] theorem modLaunch_warps (s : State) (n : Nat) (f : Launch → Launch) : (modLaunch s n f).warps = s.warps := rfl
@[simp] theorem modLaunch_wgs (s : State) (n : Nat) (f : Launch → Launch) : (modLaunch s n f).wgs = s.wgs := rfl
@[simp] theorem modLaunch_gangs (s : State) (n : Nat) (f : Launch → Launch) : (modLaunch s n f).gangs = s.gangs := rfl
@[simp] theorem modLaunch_regions (s : State) (n : Nat) (f : Launch → Launch) : (modLaunch s n f).regions = s.regions := rfl
@[simp] theorem modLaunch_contexts (s : State) (n : Nat) (f : Launch → Launch) : (modLaunch s n f).contexts = s.contexts := rfl
@[simp] theorem modLaunch_keys (s : State) (n : Nat) (f : Launch → Launch) : (modLaunch s n f).keys = s.keys := rfl
@[simp] theorem modLaunch_cores (s : State) (n : Nat) (f : Launch → Launch) : (modLaunch s n f).cores = s.cores := rfl
@[simp] theorem modLaunch_mem (s : State) (n : Nat) (f : Launch → Launch) : (modLaunch s n f).mem = s.mem := rfl
@[simp] theorem modLaunch_blocks (s : State) (n : Nat) (f : Launch → Launch) : (modLaunch s n f).blocks = s.blocks := rfl
@[simp] theorem modLaunch_dirty (s : State) (n : Nat) (f : Launch → Launch) : (modLaunch s n f).dirty = s.dirty := rfl
@[simp] theorem modLaunch_l1 (s : State) (n : Nat) (f : Launch → Launch) : (modLaunch s n f).l1 = s.l1 := rfl
@[simp] theorem modLaunch_tlb (s : State) (n : Nat) (f : Launch → Launch) : (modLaunch s n f).tlb = s.tlb := rfl
@[simp] theorem modLaunch_icache (s : State) (n : Nat) (f : Launch → Launch) : (modLaunch s n f).icache = s.icache := rfl
@[simp] theorem modLaunch_clb (s : State) (n : Nat) (f : Launch → Launch) : (modLaunch s n f).clb = s.clb := rfl
@[simp] theorem modLaunch_loads (s : State) (n : Nat) (f : Launch → Launch) : (modLaunch s n f).loads = s.loads := rfl
@[simp] theorem modLaunch_stores (s : State) (n : Nat) (f : Launch → Launch) : (modLaunch s n f).stores = s.stores := rfl
@[simp] theorem modLaunch_sideLog (s : State) (n : Nat) (f : Launch → Launch) : (modLaunch s n f).sideLog = s.sideLog := rfl
@[simp] theorem modLaunch_faults (s : State) (n : Nat) (f : Launch → Launch) : (modLaunch s n f).faults = s.faults := rfl
@[simp] theorem modLaunch_monitors (s : State) (n : Nat) (f : Launch → Launch) : (modLaunch s n f).monitors = s.monitors := rfl
@[simp] theorem modLaunch_engines (s : State) (n : Nat) (f : Launch → Launch) : (modLaunch s n f).engines = s.engines := rfl
@[simp] theorem modLaunch_streams (s : State) (n : Nat) (f : Launch → Launch) : (modLaunch s n f).streams = s.streams := rfl
@[simp] theorem modLaunch_claims (s : State) (n : Nat) (f : Launch → Launch) : (modLaunch s n f).claims = s.claims := rfl
@[simp] theorem modLaunch_compare (s : State) (n : Nat) (f : Launch → Launch) : (modLaunch s n f).compare = s.compare := rfl
@[simp] theorem modLaunch_values (s : State) (n : Nat) (f : Launch → Launch) : (modLaunch s n f).values = s.values := rfl
@[simp] theorem modLaunch_races (s : State) (n : Nat) (f : Launch → Launch) : (modLaunch s n f).races = s.races := rfl
@[simp] theorem modLaunch_syncs (s : State) (n : Nat) (f : Launch → Launch) : (modLaunch s n f).syncs = s.syncs := rfl
@[simp] theorem modLaunch_fenceVc (s : State) (n : Nat) (f : Launch → Launch) : (modLaunch s n f).fenceVc = s.fenceVc := rfl
@[simp] theorem modLaunch_bwords (s : State) (n : Nat) (f : Launch → Launch) : (modLaunch s n f).bwords = s.bwords := rfl
@[simp] theorem modLaunch_bupdates (s : State) (n : Nat) (f : Launch → Launch) : (modLaunch s n f).bupdates = s.bupdates := rfl
@[simp] theorem modLaunch_watchers (s : State) (n : Nat) (f : Launch → Launch) : (modLaunch s n f).watchers = s.watchers := rfl
@[simp] theorem modLaunch_queues (s : State) (n : Nat) (f : Launch → Launch) : (modLaunch s n f).queues = s.queues := rfl
@[simp] theorem modLaunch_links (s : State) (n : Nat) (f : Launch → Launch) : (modLaunch s n f).links = s.links := rfl
@[simp] theorem modLaunch_records (s : State) (n : Nat) (f : Launch → Launch) : (modLaunch s n f).records = s.records := rfl
@[simp] theorem modLaunch_hostReads (s : State) (n : Nat) (f : Launch → Launch) : (modLaunch s n f).hostReads = s.hostReads := rfl
@[simp] theorem modLaunch_fw (s : State) (n : Nat) (f : Launch → Launch) : (modLaunch s n f).fw = s.fw := rfl
@[simp] theorem modLaunch_services (s : State) (n : Nat) (f : Launch → Launch) : (modLaunch s n f).services = s.services := rfl
@[simp] theorem modLaunch_reports (s : State) (n : Nat) (f : Launch → Launch) : (modLaunch s n f).reports = s.reports := rfl
@[simp] theorem modLaunch_ports (s : State) (n : Nat) (f : Launch → Launch) : (modLaunch s n f).ports = s.ports := rfl
@[simp] theorem modLaunch_peerReads (s : State) (n : Nat) (f : Launch → Launch) : (modLaunch s n f).peerReads = s.peerReads := rfl
@[simp] theorem modLaunch_module_ (s : State) (n : Nat) (f : Launch → Launch) : (modLaunch s n f).module_ = s.module_ := rfl
@[simp] theorem modLaunch_domain (s : State) (n : Nat) (f : Launch → Launch) : (modLaunch s n f).domain = s.domain := rfl
@[simp] theorem modLaunch_reserve (s : State) (n : Nat) (f : Launch → Launch) : (modLaunch s n f).reserve = s.reserve := rfl
@[simp] theorem modLaunch_outstanding (s : State) (n : Nat) (f : Launch → Launch) : (modLaunch s n f).outstanding = s.outstanding := rfl
@[simp] theorem modLaunch_granted (s : State) (n : Nat) (f : Launch → Launch) : (modLaunch s n f).granted = s.granted := rfl
@[simp] theorem modLaunch_heatMs (s : State) (n : Nat) (f : Launch → Launch) : (modLaunch s n f).heatMs = s.heatMs := rfl
@[simp] theorem modLaunch_heatSwept (s : State) (n : Nat) (f : Launch → Launch) : (modLaunch s n f).heatSwept = s.heatSwept := rfl
@[simp] theorem modLaunch_memerr (s : State) (n : Nat) (f : Launch → Launch) : (modLaunch s n f).memerr = s.memerr := rfl
@[simp] theorem modLaunch_warm (s : State) (n : Nat) (f : Launch → Launch) : (modLaunch s n f).warm = s.warm := rfl
@[simp] theorem modLaunch_window (s : State) (n : Nat) (f : Launch → Launch) : (modLaunch s n f).window = s.window := rfl

@[simp] theorem modCtx_now (s : State) (n : Nat) (f : Context → Context) : (modCtx s n f).now = s.now := rfl
@[simp] theorem modCtx_ns (s : State) (n : Nat) (f : Context → Context) : (modCtx s n f).ns = s.ns := rfl
@[simp] theorem modCtx_clkMhz (s : State) (n : Nat) (f : Context → Context) : (modCtx s n f).clkMhz = s.clkMhz := rfl
@[simp] theorem modCtx_powered (s : State) (n : Nat) (f : Context → Context) : (modCtx s n f).powered = s.powered := rfl
@[simp] theorem modCtx_freeCtr (s : State) (n : Nat) (f : Context → Context) : (modCtx s n f).freeCtr = s.freeCtr := rfl
@[simp] theorem modCtx_unit_ (s : State) (n : Nat) (f : Context → Context) : (modCtx s n f).unit_ = s.unit_ := rfl
@[simp] theorem modCtx_agenda (s : State) (n : Nat) (f : Context → Context) : (modCtx s n f).agenda = s.agenda := rfl
@[simp] theorem modCtx_ids (s : State) (n : Nat) (f : Context → Context) : (modCtx s n f).ids = s.ids := rfl
@[simp] theorem modCtx_cur (s : State) (n : Nat) (f : Context → Context) : (modCtx s n f).cur = s.cur := rfl
@[simp] theorem modCtx_groups (s : State) (n : Nat) (f : Context → Context) : (modCtx s n f).groups = s.groups := rfl
@[simp] theorem modCtx_threads (s : State) (n : Nat) (f : Context → Context) : (modCtx s n f).threads = s.threads := rfl
@[simp] theorem modCtx_warps (s : State) (n : Nat) (f : Context → Context) : (modCtx s n f).warps = s.warps := rfl
@[simp] theorem modCtx_wgs (s : State) (n : Nat) (f : Context → Context) : (modCtx s n f).wgs = s.wgs := rfl
@[simp] theorem modCtx_gangs (s : State) (n : Nat) (f : Context → Context) : (modCtx s n f).gangs = s.gangs := rfl
@[simp] theorem modCtx_launches (s : State) (n : Nat) (f : Context → Context) : (modCtx s n f).launches = s.launches := rfl
@[simp] theorem modCtx_regions (s : State) (n : Nat) (f : Context → Context) : (modCtx s n f).regions = s.regions := rfl
@[simp] theorem modCtx_keys (s : State) (n : Nat) (f : Context → Context) : (modCtx s n f).keys = s.keys := rfl
@[simp] theorem modCtx_cores (s : State) (n : Nat) (f : Context → Context) : (modCtx s n f).cores = s.cores := rfl
@[simp] theorem modCtx_mem (s : State) (n : Nat) (f : Context → Context) : (modCtx s n f).mem = s.mem := rfl
@[simp] theorem modCtx_blocks (s : State) (n : Nat) (f : Context → Context) : (modCtx s n f).blocks = s.blocks := rfl
@[simp] theorem modCtx_dirty (s : State) (n : Nat) (f : Context → Context) : (modCtx s n f).dirty = s.dirty := rfl
@[simp] theorem modCtx_l1 (s : State) (n : Nat) (f : Context → Context) : (modCtx s n f).l1 = s.l1 := rfl
@[simp] theorem modCtx_tlb (s : State) (n : Nat) (f : Context → Context) : (modCtx s n f).tlb = s.tlb := rfl
@[simp] theorem modCtx_icache (s : State) (n : Nat) (f : Context → Context) : (modCtx s n f).icache = s.icache := rfl
@[simp] theorem modCtx_clb (s : State) (n : Nat) (f : Context → Context) : (modCtx s n f).clb = s.clb := rfl
@[simp] theorem modCtx_loads (s : State) (n : Nat) (f : Context → Context) : (modCtx s n f).loads = s.loads := rfl
@[simp] theorem modCtx_stores (s : State) (n : Nat) (f : Context → Context) : (modCtx s n f).stores = s.stores := rfl
@[simp] theorem modCtx_sideLog (s : State) (n : Nat) (f : Context → Context) : (modCtx s n f).sideLog = s.sideLog := rfl
@[simp] theorem modCtx_faults (s : State) (n : Nat) (f : Context → Context) : (modCtx s n f).faults = s.faults := rfl
@[simp] theorem modCtx_monitors (s : State) (n : Nat) (f : Context → Context) : (modCtx s n f).monitors = s.monitors := rfl
@[simp] theorem modCtx_engines (s : State) (n : Nat) (f : Context → Context) : (modCtx s n f).engines = s.engines := rfl
@[simp] theorem modCtx_streams (s : State) (n : Nat) (f : Context → Context) : (modCtx s n f).streams = s.streams := rfl
@[simp] theorem modCtx_claims (s : State) (n : Nat) (f : Context → Context) : (modCtx s n f).claims = s.claims := rfl
@[simp] theorem modCtx_compare (s : State) (n : Nat) (f : Context → Context) : (modCtx s n f).compare = s.compare := rfl
@[simp] theorem modCtx_values (s : State) (n : Nat) (f : Context → Context) : (modCtx s n f).values = s.values := rfl
@[simp] theorem modCtx_races (s : State) (n : Nat) (f : Context → Context) : (modCtx s n f).races = s.races := rfl
@[simp] theorem modCtx_syncs (s : State) (n : Nat) (f : Context → Context) : (modCtx s n f).syncs = s.syncs := rfl
@[simp] theorem modCtx_fenceVc (s : State) (n : Nat) (f : Context → Context) : (modCtx s n f).fenceVc = s.fenceVc := rfl
@[simp] theorem modCtx_bwords (s : State) (n : Nat) (f : Context → Context) : (modCtx s n f).bwords = s.bwords := rfl
@[simp] theorem modCtx_bupdates (s : State) (n : Nat) (f : Context → Context) : (modCtx s n f).bupdates = s.bupdates := rfl
@[simp] theorem modCtx_watchers (s : State) (n : Nat) (f : Context → Context) : (modCtx s n f).watchers = s.watchers := rfl
@[simp] theorem modCtx_queues (s : State) (n : Nat) (f : Context → Context) : (modCtx s n f).queues = s.queues := rfl
@[simp] theorem modCtx_links (s : State) (n : Nat) (f : Context → Context) : (modCtx s n f).links = s.links := rfl
@[simp] theorem modCtx_records (s : State) (n : Nat) (f : Context → Context) : (modCtx s n f).records = s.records := rfl
@[simp] theorem modCtx_hostReads (s : State) (n : Nat) (f : Context → Context) : (modCtx s n f).hostReads = s.hostReads := rfl
@[simp] theorem modCtx_fw (s : State) (n : Nat) (f : Context → Context) : (modCtx s n f).fw = s.fw := rfl
@[simp] theorem modCtx_services (s : State) (n : Nat) (f : Context → Context) : (modCtx s n f).services = s.services := rfl
@[simp] theorem modCtx_reports (s : State) (n : Nat) (f : Context → Context) : (modCtx s n f).reports = s.reports := rfl
@[simp] theorem modCtx_ports (s : State) (n : Nat) (f : Context → Context) : (modCtx s n f).ports = s.ports := rfl
@[simp] theorem modCtx_peerReads (s : State) (n : Nat) (f : Context → Context) : (modCtx s n f).peerReads = s.peerReads := rfl
@[simp] theorem modCtx_module_ (s : State) (n : Nat) (f : Context → Context) : (modCtx s n f).module_ = s.module_ := rfl
@[simp] theorem modCtx_domain (s : State) (n : Nat) (f : Context → Context) : (modCtx s n f).domain = s.domain := rfl
@[simp] theorem modCtx_reserve (s : State) (n : Nat) (f : Context → Context) : (modCtx s n f).reserve = s.reserve := rfl
@[simp] theorem modCtx_outstanding (s : State) (n : Nat) (f : Context → Context) : (modCtx s n f).outstanding = s.outstanding := rfl
@[simp] theorem modCtx_granted (s : State) (n : Nat) (f : Context → Context) : (modCtx s n f).granted = s.granted := rfl
@[simp] theorem modCtx_heatMs (s : State) (n : Nat) (f : Context → Context) : (modCtx s n f).heatMs = s.heatMs := rfl
@[simp] theorem modCtx_heatSwept (s : State) (n : Nat) (f : Context → Context) : (modCtx s n f).heatSwept = s.heatSwept := rfl
@[simp] theorem modCtx_memerr (s : State) (n : Nat) (f : Context → Context) : (modCtx s n f).memerr = s.memerr := rfl
@[simp] theorem modCtx_warm (s : State) (n : Nat) (f : Context → Context) : (modCtx s n f).warm = s.warm := rfl
@[simp] theorem modCtx_window (s : State) (n : Nat) (f : Context → Context) : (modCtx s n f).window = s.window := rfl

@[simp] theorem modCore_now (s : State) (n : Nat) (f : Core → Core) : (modCore s n f).now = s.now := rfl
@[simp] theorem modCore_ns (s : State) (n : Nat) (f : Core → Core) : (modCore s n f).ns = s.ns := rfl
@[simp] theorem modCore_clkMhz (s : State) (n : Nat) (f : Core → Core) : (modCore s n f).clkMhz = s.clkMhz := rfl
@[simp] theorem modCore_powered (s : State) (n : Nat) (f : Core → Core) : (modCore s n f).powered = s.powered := rfl
@[simp] theorem modCore_freeCtr (s : State) (n : Nat) (f : Core → Core) : (modCore s n f).freeCtr = s.freeCtr := rfl
@[simp] theorem modCore_unit_ (s : State) (n : Nat) (f : Core → Core) : (modCore s n f).unit_ = s.unit_ := rfl
@[simp] theorem modCore_agenda (s : State) (n : Nat) (f : Core → Core) : (modCore s n f).agenda = s.agenda := rfl
@[simp] theorem modCore_ids (s : State) (n : Nat) (f : Core → Core) : (modCore s n f).ids = s.ids := rfl
@[simp] theorem modCore_cur (s : State) (n : Nat) (f : Core → Core) : (modCore s n f).cur = s.cur := rfl
@[simp] theorem modCore_groups (s : State) (n : Nat) (f : Core → Core) : (modCore s n f).groups = s.groups := rfl
@[simp] theorem modCore_threads (s : State) (n : Nat) (f : Core → Core) : (modCore s n f).threads = s.threads := rfl
@[simp] theorem modCore_warps (s : State) (n : Nat) (f : Core → Core) : (modCore s n f).warps = s.warps := rfl
@[simp] theorem modCore_wgs (s : State) (n : Nat) (f : Core → Core) : (modCore s n f).wgs = s.wgs := rfl
@[simp] theorem modCore_gangs (s : State) (n : Nat) (f : Core → Core) : (modCore s n f).gangs = s.gangs := rfl
@[simp] theorem modCore_launches (s : State) (n : Nat) (f : Core → Core) : (modCore s n f).launches = s.launches := rfl
@[simp] theorem modCore_regions (s : State) (n : Nat) (f : Core → Core) : (modCore s n f).regions = s.regions := rfl
@[simp] theorem modCore_contexts (s : State) (n : Nat) (f : Core → Core) : (modCore s n f).contexts = s.contexts := rfl
@[simp] theorem modCore_keys (s : State) (n : Nat) (f : Core → Core) : (modCore s n f).keys = s.keys := rfl
@[simp] theorem modCore_mem (s : State) (n : Nat) (f : Core → Core) : (modCore s n f).mem = s.mem := rfl
@[simp] theorem modCore_blocks (s : State) (n : Nat) (f : Core → Core) : (modCore s n f).blocks = s.blocks := rfl
@[simp] theorem modCore_dirty (s : State) (n : Nat) (f : Core → Core) : (modCore s n f).dirty = s.dirty := rfl
@[simp] theorem modCore_l1 (s : State) (n : Nat) (f : Core → Core) : (modCore s n f).l1 = s.l1 := rfl
@[simp] theorem modCore_tlb (s : State) (n : Nat) (f : Core → Core) : (modCore s n f).tlb = s.tlb := rfl
@[simp] theorem modCore_icache (s : State) (n : Nat) (f : Core → Core) : (modCore s n f).icache = s.icache := rfl
@[simp] theorem modCore_clb (s : State) (n : Nat) (f : Core → Core) : (modCore s n f).clb = s.clb := rfl
@[simp] theorem modCore_loads (s : State) (n : Nat) (f : Core → Core) : (modCore s n f).loads = s.loads := rfl
@[simp] theorem modCore_stores (s : State) (n : Nat) (f : Core → Core) : (modCore s n f).stores = s.stores := rfl
@[simp] theorem modCore_sideLog (s : State) (n : Nat) (f : Core → Core) : (modCore s n f).sideLog = s.sideLog := rfl
@[simp] theorem modCore_faults (s : State) (n : Nat) (f : Core → Core) : (modCore s n f).faults = s.faults := rfl
@[simp] theorem modCore_monitors (s : State) (n : Nat) (f : Core → Core) : (modCore s n f).monitors = s.monitors := rfl
@[simp] theorem modCore_engines (s : State) (n : Nat) (f : Core → Core) : (modCore s n f).engines = s.engines := rfl
@[simp] theorem modCore_streams (s : State) (n : Nat) (f : Core → Core) : (modCore s n f).streams = s.streams := rfl
@[simp] theorem modCore_claims (s : State) (n : Nat) (f : Core → Core) : (modCore s n f).claims = s.claims := rfl
@[simp] theorem modCore_compare (s : State) (n : Nat) (f : Core → Core) : (modCore s n f).compare = s.compare := rfl
@[simp] theorem modCore_values (s : State) (n : Nat) (f : Core → Core) : (modCore s n f).values = s.values := rfl
@[simp] theorem modCore_races (s : State) (n : Nat) (f : Core → Core) : (modCore s n f).races = s.races := rfl
@[simp] theorem modCore_syncs (s : State) (n : Nat) (f : Core → Core) : (modCore s n f).syncs = s.syncs := rfl
@[simp] theorem modCore_fenceVc (s : State) (n : Nat) (f : Core → Core) : (modCore s n f).fenceVc = s.fenceVc := rfl
@[simp] theorem modCore_bwords (s : State) (n : Nat) (f : Core → Core) : (modCore s n f).bwords = s.bwords := rfl
@[simp] theorem modCore_bupdates (s : State) (n : Nat) (f : Core → Core) : (modCore s n f).bupdates = s.bupdates := rfl
@[simp] theorem modCore_watchers (s : State) (n : Nat) (f : Core → Core) : (modCore s n f).watchers = s.watchers := rfl
@[simp] theorem modCore_queues (s : State) (n : Nat) (f : Core → Core) : (modCore s n f).queues = s.queues := rfl
@[simp] theorem modCore_links (s : State) (n : Nat) (f : Core → Core) : (modCore s n f).links = s.links := rfl
@[simp] theorem modCore_records (s : State) (n : Nat) (f : Core → Core) : (modCore s n f).records = s.records := rfl
@[simp] theorem modCore_hostReads (s : State) (n : Nat) (f : Core → Core) : (modCore s n f).hostReads = s.hostReads := rfl
@[simp] theorem modCore_fw (s : State) (n : Nat) (f : Core → Core) : (modCore s n f).fw = s.fw := rfl
@[simp] theorem modCore_services (s : State) (n : Nat) (f : Core → Core) : (modCore s n f).services = s.services := rfl
@[simp] theorem modCore_reports (s : State) (n : Nat) (f : Core → Core) : (modCore s n f).reports = s.reports := rfl
@[simp] theorem modCore_ports (s : State) (n : Nat) (f : Core → Core) : (modCore s n f).ports = s.ports := rfl
@[simp] theorem modCore_peerReads (s : State) (n : Nat) (f : Core → Core) : (modCore s n f).peerReads = s.peerReads := rfl
@[simp] theorem modCore_module_ (s : State) (n : Nat) (f : Core → Core) : (modCore s n f).module_ = s.module_ := rfl
@[simp] theorem modCore_domain (s : State) (n : Nat) (f : Core → Core) : (modCore s n f).domain = s.domain := rfl
@[simp] theorem modCore_reserve (s : State) (n : Nat) (f : Core → Core) : (modCore s n f).reserve = s.reserve := rfl
@[simp] theorem modCore_outstanding (s : State) (n : Nat) (f : Core → Core) : (modCore s n f).outstanding = s.outstanding := rfl
@[simp] theorem modCore_granted (s : State) (n : Nat) (f : Core → Core) : (modCore s n f).granted = s.granted := rfl
@[simp] theorem modCore_heatMs (s : State) (n : Nat) (f : Core → Core) : (modCore s n f).heatMs = s.heatMs := rfl
@[simp] theorem modCore_heatSwept (s : State) (n : Nat) (f : Core → Core) : (modCore s n f).heatSwept = s.heatSwept := rfl
@[simp] theorem modCore_memerr (s : State) (n : Nat) (f : Core → Core) : (modCore s n f).memerr = s.memerr := rfl
@[simp] theorem modCore_warm (s : State) (n : Nat) (f : Core → Core) : (modCore s n f).warm = s.warm := rfl
@[simp] theorem modCore_window (s : State) (n : Nat) (f : Core → Core) : (modCore s n f).window = s.window := rfl

@[simp] theorem modQueue_now (s : State) (n : Nat) (f : Queue → Queue) : (modQueue s n f).now = s.now := rfl
@[simp] theorem modQueue_ns (s : State) (n : Nat) (f : Queue → Queue) : (modQueue s n f).ns = s.ns := rfl
@[simp] theorem modQueue_clkMhz (s : State) (n : Nat) (f : Queue → Queue) : (modQueue s n f).clkMhz = s.clkMhz := rfl
@[simp] theorem modQueue_powered (s : State) (n : Nat) (f : Queue → Queue) : (modQueue s n f).powered = s.powered := rfl
@[simp] theorem modQueue_freeCtr (s : State) (n : Nat) (f : Queue → Queue) : (modQueue s n f).freeCtr = s.freeCtr := rfl
@[simp] theorem modQueue_unit_ (s : State) (n : Nat) (f : Queue → Queue) : (modQueue s n f).unit_ = s.unit_ := rfl
@[simp] theorem modQueue_agenda (s : State) (n : Nat) (f : Queue → Queue) : (modQueue s n f).agenda = s.agenda := rfl
@[simp] theorem modQueue_ids (s : State) (n : Nat) (f : Queue → Queue) : (modQueue s n f).ids = s.ids := rfl
@[simp] theorem modQueue_cur (s : State) (n : Nat) (f : Queue → Queue) : (modQueue s n f).cur = s.cur := rfl
@[simp] theorem modQueue_groups (s : State) (n : Nat) (f : Queue → Queue) : (modQueue s n f).groups = s.groups := rfl
@[simp] theorem modQueue_threads (s : State) (n : Nat) (f : Queue → Queue) : (modQueue s n f).threads = s.threads := rfl
@[simp] theorem modQueue_warps (s : State) (n : Nat) (f : Queue → Queue) : (modQueue s n f).warps = s.warps := rfl
@[simp] theorem modQueue_wgs (s : State) (n : Nat) (f : Queue → Queue) : (modQueue s n f).wgs = s.wgs := rfl
@[simp] theorem modQueue_gangs (s : State) (n : Nat) (f : Queue → Queue) : (modQueue s n f).gangs = s.gangs := rfl
@[simp] theorem modQueue_launches (s : State) (n : Nat) (f : Queue → Queue) : (modQueue s n f).launches = s.launches := rfl
@[simp] theorem modQueue_regions (s : State) (n : Nat) (f : Queue → Queue) : (modQueue s n f).regions = s.regions := rfl
@[simp] theorem modQueue_contexts (s : State) (n : Nat) (f : Queue → Queue) : (modQueue s n f).contexts = s.contexts := rfl
@[simp] theorem modQueue_keys (s : State) (n : Nat) (f : Queue → Queue) : (modQueue s n f).keys = s.keys := rfl
@[simp] theorem modQueue_cores (s : State) (n : Nat) (f : Queue → Queue) : (modQueue s n f).cores = s.cores := rfl
@[simp] theorem modQueue_mem (s : State) (n : Nat) (f : Queue → Queue) : (modQueue s n f).mem = s.mem := rfl
@[simp] theorem modQueue_blocks (s : State) (n : Nat) (f : Queue → Queue) : (modQueue s n f).blocks = s.blocks := rfl
@[simp] theorem modQueue_dirty (s : State) (n : Nat) (f : Queue → Queue) : (modQueue s n f).dirty = s.dirty := rfl
@[simp] theorem modQueue_l1 (s : State) (n : Nat) (f : Queue → Queue) : (modQueue s n f).l1 = s.l1 := rfl
@[simp] theorem modQueue_tlb (s : State) (n : Nat) (f : Queue → Queue) : (modQueue s n f).tlb = s.tlb := rfl
@[simp] theorem modQueue_icache (s : State) (n : Nat) (f : Queue → Queue) : (modQueue s n f).icache = s.icache := rfl
@[simp] theorem modQueue_clb (s : State) (n : Nat) (f : Queue → Queue) : (modQueue s n f).clb = s.clb := rfl
@[simp] theorem modQueue_loads (s : State) (n : Nat) (f : Queue → Queue) : (modQueue s n f).loads = s.loads := rfl
@[simp] theorem modQueue_stores (s : State) (n : Nat) (f : Queue → Queue) : (modQueue s n f).stores = s.stores := rfl
@[simp] theorem modQueue_sideLog (s : State) (n : Nat) (f : Queue → Queue) : (modQueue s n f).sideLog = s.sideLog := rfl
@[simp] theorem modQueue_faults (s : State) (n : Nat) (f : Queue → Queue) : (modQueue s n f).faults = s.faults := rfl
@[simp] theorem modQueue_monitors (s : State) (n : Nat) (f : Queue → Queue) : (modQueue s n f).monitors = s.monitors := rfl
@[simp] theorem modQueue_engines (s : State) (n : Nat) (f : Queue → Queue) : (modQueue s n f).engines = s.engines := rfl
@[simp] theorem modQueue_streams (s : State) (n : Nat) (f : Queue → Queue) : (modQueue s n f).streams = s.streams := rfl
@[simp] theorem modQueue_claims (s : State) (n : Nat) (f : Queue → Queue) : (modQueue s n f).claims = s.claims := rfl
@[simp] theorem modQueue_compare (s : State) (n : Nat) (f : Queue → Queue) : (modQueue s n f).compare = s.compare := rfl
@[simp] theorem modQueue_values (s : State) (n : Nat) (f : Queue → Queue) : (modQueue s n f).values = s.values := rfl
@[simp] theorem modQueue_races (s : State) (n : Nat) (f : Queue → Queue) : (modQueue s n f).races = s.races := rfl
@[simp] theorem modQueue_syncs (s : State) (n : Nat) (f : Queue → Queue) : (modQueue s n f).syncs = s.syncs := rfl
@[simp] theorem modQueue_fenceVc (s : State) (n : Nat) (f : Queue → Queue) : (modQueue s n f).fenceVc = s.fenceVc := rfl
@[simp] theorem modQueue_bwords (s : State) (n : Nat) (f : Queue → Queue) : (modQueue s n f).bwords = s.bwords := rfl
@[simp] theorem modQueue_bupdates (s : State) (n : Nat) (f : Queue → Queue) : (modQueue s n f).bupdates = s.bupdates := rfl
@[simp] theorem modQueue_watchers (s : State) (n : Nat) (f : Queue → Queue) : (modQueue s n f).watchers = s.watchers := rfl
@[simp] theorem modQueue_links (s : State) (n : Nat) (f : Queue → Queue) : (modQueue s n f).links = s.links := rfl
@[simp] theorem modQueue_records (s : State) (n : Nat) (f : Queue → Queue) : (modQueue s n f).records = s.records := rfl
@[simp] theorem modQueue_hostReads (s : State) (n : Nat) (f : Queue → Queue) : (modQueue s n f).hostReads = s.hostReads := rfl
@[simp] theorem modQueue_fw (s : State) (n : Nat) (f : Queue → Queue) : (modQueue s n f).fw = s.fw := rfl
@[simp] theorem modQueue_services (s : State) (n : Nat) (f : Queue → Queue) : (modQueue s n f).services = s.services := rfl
@[simp] theorem modQueue_reports (s : State) (n : Nat) (f : Queue → Queue) : (modQueue s n f).reports = s.reports := rfl
@[simp] theorem modQueue_ports (s : State) (n : Nat) (f : Queue → Queue) : (modQueue s n f).ports = s.ports := rfl
@[simp] theorem modQueue_peerReads (s : State) (n : Nat) (f : Queue → Queue) : (modQueue s n f).peerReads = s.peerReads := rfl
@[simp] theorem modQueue_module_ (s : State) (n : Nat) (f : Queue → Queue) : (modQueue s n f).module_ = s.module_ := rfl
@[simp] theorem modQueue_domain (s : State) (n : Nat) (f : Queue → Queue) : (modQueue s n f).domain = s.domain := rfl
@[simp] theorem modQueue_reserve (s : State) (n : Nat) (f : Queue → Queue) : (modQueue s n f).reserve = s.reserve := rfl
@[simp] theorem modQueue_outstanding (s : State) (n : Nat) (f : Queue → Queue) : (modQueue s n f).outstanding = s.outstanding := rfl
@[simp] theorem modQueue_granted (s : State) (n : Nat) (f : Queue → Queue) : (modQueue s n f).granted = s.granted := rfl
@[simp] theorem modQueue_heatMs (s : State) (n : Nat) (f : Queue → Queue) : (modQueue s n f).heatMs = s.heatMs := rfl
@[simp] theorem modQueue_heatSwept (s : State) (n : Nat) (f : Queue → Queue) : (modQueue s n f).heatSwept = s.heatSwept := rfl
@[simp] theorem modQueue_memerr (s : State) (n : Nat) (f : Queue → Queue) : (modQueue s n f).memerr = s.memerr := rfl
@[simp] theorem modQueue_warm (s : State) (n : Nat) (f : Queue → Queue) : (modQueue s n f).warm = s.warm := rfl
@[simp] theorem modQueue_window (s : State) (n : Nat) (f : Queue → Queue) : (modQueue s n f).window = s.window := rfl

@[simp] theorem modLink_now (s : State) (n : Nat) (f : Link → Link) : (modLink s n f).now = s.now := rfl
@[simp] theorem modLink_ns (s : State) (n : Nat) (f : Link → Link) : (modLink s n f).ns = s.ns := rfl
@[simp] theorem modLink_clkMhz (s : State) (n : Nat) (f : Link → Link) : (modLink s n f).clkMhz = s.clkMhz := rfl
@[simp] theorem modLink_powered (s : State) (n : Nat) (f : Link → Link) : (modLink s n f).powered = s.powered := rfl
@[simp] theorem modLink_freeCtr (s : State) (n : Nat) (f : Link → Link) : (modLink s n f).freeCtr = s.freeCtr := rfl
@[simp] theorem modLink_unit_ (s : State) (n : Nat) (f : Link → Link) : (modLink s n f).unit_ = s.unit_ := rfl
@[simp] theorem modLink_agenda (s : State) (n : Nat) (f : Link → Link) : (modLink s n f).agenda = s.agenda := rfl
@[simp] theorem modLink_ids (s : State) (n : Nat) (f : Link → Link) : (modLink s n f).ids = s.ids := rfl
@[simp] theorem modLink_cur (s : State) (n : Nat) (f : Link → Link) : (modLink s n f).cur = s.cur := rfl
@[simp] theorem modLink_groups (s : State) (n : Nat) (f : Link → Link) : (modLink s n f).groups = s.groups := rfl
@[simp] theorem modLink_threads (s : State) (n : Nat) (f : Link → Link) : (modLink s n f).threads = s.threads := rfl
@[simp] theorem modLink_warps (s : State) (n : Nat) (f : Link → Link) : (modLink s n f).warps = s.warps := rfl
@[simp] theorem modLink_wgs (s : State) (n : Nat) (f : Link → Link) : (modLink s n f).wgs = s.wgs := rfl
@[simp] theorem modLink_gangs (s : State) (n : Nat) (f : Link → Link) : (modLink s n f).gangs = s.gangs := rfl
@[simp] theorem modLink_launches (s : State) (n : Nat) (f : Link → Link) : (modLink s n f).launches = s.launches := rfl
@[simp] theorem modLink_regions (s : State) (n : Nat) (f : Link → Link) : (modLink s n f).regions = s.regions := rfl
@[simp] theorem modLink_contexts (s : State) (n : Nat) (f : Link → Link) : (modLink s n f).contexts = s.contexts := rfl
@[simp] theorem modLink_keys (s : State) (n : Nat) (f : Link → Link) : (modLink s n f).keys = s.keys := rfl
@[simp] theorem modLink_cores (s : State) (n : Nat) (f : Link → Link) : (modLink s n f).cores = s.cores := rfl
@[simp] theorem modLink_mem (s : State) (n : Nat) (f : Link → Link) : (modLink s n f).mem = s.mem := rfl
@[simp] theorem modLink_blocks (s : State) (n : Nat) (f : Link → Link) : (modLink s n f).blocks = s.blocks := rfl
@[simp] theorem modLink_dirty (s : State) (n : Nat) (f : Link → Link) : (modLink s n f).dirty = s.dirty := rfl
@[simp] theorem modLink_l1 (s : State) (n : Nat) (f : Link → Link) : (modLink s n f).l1 = s.l1 := rfl
@[simp] theorem modLink_tlb (s : State) (n : Nat) (f : Link → Link) : (modLink s n f).tlb = s.tlb := rfl
@[simp] theorem modLink_icache (s : State) (n : Nat) (f : Link → Link) : (modLink s n f).icache = s.icache := rfl
@[simp] theorem modLink_clb (s : State) (n : Nat) (f : Link → Link) : (modLink s n f).clb = s.clb := rfl
@[simp] theorem modLink_loads (s : State) (n : Nat) (f : Link → Link) : (modLink s n f).loads = s.loads := rfl
@[simp] theorem modLink_stores (s : State) (n : Nat) (f : Link → Link) : (modLink s n f).stores = s.stores := rfl
@[simp] theorem modLink_sideLog (s : State) (n : Nat) (f : Link → Link) : (modLink s n f).sideLog = s.sideLog := rfl
@[simp] theorem modLink_faults (s : State) (n : Nat) (f : Link → Link) : (modLink s n f).faults = s.faults := rfl
@[simp] theorem modLink_monitors (s : State) (n : Nat) (f : Link → Link) : (modLink s n f).monitors = s.monitors := rfl
@[simp] theorem modLink_engines (s : State) (n : Nat) (f : Link → Link) : (modLink s n f).engines = s.engines := rfl
@[simp] theorem modLink_streams (s : State) (n : Nat) (f : Link → Link) : (modLink s n f).streams = s.streams := rfl
@[simp] theorem modLink_claims (s : State) (n : Nat) (f : Link → Link) : (modLink s n f).claims = s.claims := rfl
@[simp] theorem modLink_compare (s : State) (n : Nat) (f : Link → Link) : (modLink s n f).compare = s.compare := rfl
@[simp] theorem modLink_values (s : State) (n : Nat) (f : Link → Link) : (modLink s n f).values = s.values := rfl
@[simp] theorem modLink_races (s : State) (n : Nat) (f : Link → Link) : (modLink s n f).races = s.races := rfl
@[simp] theorem modLink_syncs (s : State) (n : Nat) (f : Link → Link) : (modLink s n f).syncs = s.syncs := rfl
@[simp] theorem modLink_fenceVc (s : State) (n : Nat) (f : Link → Link) : (modLink s n f).fenceVc = s.fenceVc := rfl
@[simp] theorem modLink_bwords (s : State) (n : Nat) (f : Link → Link) : (modLink s n f).bwords = s.bwords := rfl
@[simp] theorem modLink_bupdates (s : State) (n : Nat) (f : Link → Link) : (modLink s n f).bupdates = s.bupdates := rfl
@[simp] theorem modLink_watchers (s : State) (n : Nat) (f : Link → Link) : (modLink s n f).watchers = s.watchers := rfl
@[simp] theorem modLink_queues (s : State) (n : Nat) (f : Link → Link) : (modLink s n f).queues = s.queues := rfl
@[simp] theorem modLink_records (s : State) (n : Nat) (f : Link → Link) : (modLink s n f).records = s.records := rfl
@[simp] theorem modLink_hostReads (s : State) (n : Nat) (f : Link → Link) : (modLink s n f).hostReads = s.hostReads := rfl
@[simp] theorem modLink_fw (s : State) (n : Nat) (f : Link → Link) : (modLink s n f).fw = s.fw := rfl
@[simp] theorem modLink_services (s : State) (n : Nat) (f : Link → Link) : (modLink s n f).services = s.services := rfl
@[simp] theorem modLink_reports (s : State) (n : Nat) (f : Link → Link) : (modLink s n f).reports = s.reports := rfl
@[simp] theorem modLink_ports (s : State) (n : Nat) (f : Link → Link) : (modLink s n f).ports = s.ports := rfl
@[simp] theorem modLink_peerReads (s : State) (n : Nat) (f : Link → Link) : (modLink s n f).peerReads = s.peerReads := rfl
@[simp] theorem modLink_module_ (s : State) (n : Nat) (f : Link → Link) : (modLink s n f).module_ = s.module_ := rfl
@[simp] theorem modLink_domain (s : State) (n : Nat) (f : Link → Link) : (modLink s n f).domain = s.domain := rfl
@[simp] theorem modLink_reserve (s : State) (n : Nat) (f : Link → Link) : (modLink s n f).reserve = s.reserve := rfl
@[simp] theorem modLink_outstanding (s : State) (n : Nat) (f : Link → Link) : (modLink s n f).outstanding = s.outstanding := rfl
@[simp] theorem modLink_granted (s : State) (n : Nat) (f : Link → Link) : (modLink s n f).granted = s.granted := rfl
@[simp] theorem modLink_heatMs (s : State) (n : Nat) (f : Link → Link) : (modLink s n f).heatMs = s.heatMs := rfl
@[simp] theorem modLink_heatSwept (s : State) (n : Nat) (f : Link → Link) : (modLink s n f).heatSwept = s.heatSwept := rfl
@[simp] theorem modLink_memerr (s : State) (n : Nat) (f : Link → Link) : (modLink s n f).memerr = s.memerr := rfl
@[simp] theorem modLink_warm (s : State) (n : Nat) (f : Link → Link) : (modLink s n f).warm = s.warm := rfl
@[simp] theorem modLink_window (s : State) (n : Nat) (f : Link → Link) : (modLink s n f).window = s.window := rfl

@[simp] theorem modPort_now (s : State) (n : Nat) (f : Port → Port) : (modPort s n f).now = s.now := rfl
@[simp] theorem modPort_ns (s : State) (n : Nat) (f : Port → Port) : (modPort s n f).ns = s.ns := rfl
@[simp] theorem modPort_clkMhz (s : State) (n : Nat) (f : Port → Port) : (modPort s n f).clkMhz = s.clkMhz := rfl
@[simp] theorem modPort_powered (s : State) (n : Nat) (f : Port → Port) : (modPort s n f).powered = s.powered := rfl
@[simp] theorem modPort_freeCtr (s : State) (n : Nat) (f : Port → Port) : (modPort s n f).freeCtr = s.freeCtr := rfl
@[simp] theorem modPort_unit_ (s : State) (n : Nat) (f : Port → Port) : (modPort s n f).unit_ = s.unit_ := rfl
@[simp] theorem modPort_agenda (s : State) (n : Nat) (f : Port → Port) : (modPort s n f).agenda = s.agenda := rfl
@[simp] theorem modPort_ids (s : State) (n : Nat) (f : Port → Port) : (modPort s n f).ids = s.ids := rfl
@[simp] theorem modPort_cur (s : State) (n : Nat) (f : Port → Port) : (modPort s n f).cur = s.cur := rfl
@[simp] theorem modPort_groups (s : State) (n : Nat) (f : Port → Port) : (modPort s n f).groups = s.groups := rfl
@[simp] theorem modPort_threads (s : State) (n : Nat) (f : Port → Port) : (modPort s n f).threads = s.threads := rfl
@[simp] theorem modPort_warps (s : State) (n : Nat) (f : Port → Port) : (modPort s n f).warps = s.warps := rfl
@[simp] theorem modPort_wgs (s : State) (n : Nat) (f : Port → Port) : (modPort s n f).wgs = s.wgs := rfl
@[simp] theorem modPort_gangs (s : State) (n : Nat) (f : Port → Port) : (modPort s n f).gangs = s.gangs := rfl
@[simp] theorem modPort_launches (s : State) (n : Nat) (f : Port → Port) : (modPort s n f).launches = s.launches := rfl
@[simp] theorem modPort_regions (s : State) (n : Nat) (f : Port → Port) : (modPort s n f).regions = s.regions := rfl
@[simp] theorem modPort_contexts (s : State) (n : Nat) (f : Port → Port) : (modPort s n f).contexts = s.contexts := rfl
@[simp] theorem modPort_keys (s : State) (n : Nat) (f : Port → Port) : (modPort s n f).keys = s.keys := rfl
@[simp] theorem modPort_cores (s : State) (n : Nat) (f : Port → Port) : (modPort s n f).cores = s.cores := rfl
@[simp] theorem modPort_mem (s : State) (n : Nat) (f : Port → Port) : (modPort s n f).mem = s.mem := rfl
@[simp] theorem modPort_blocks (s : State) (n : Nat) (f : Port → Port) : (modPort s n f).blocks = s.blocks := rfl
@[simp] theorem modPort_dirty (s : State) (n : Nat) (f : Port → Port) : (modPort s n f).dirty = s.dirty := rfl
@[simp] theorem modPort_l1 (s : State) (n : Nat) (f : Port → Port) : (modPort s n f).l1 = s.l1 := rfl
@[simp] theorem modPort_tlb (s : State) (n : Nat) (f : Port → Port) : (modPort s n f).tlb = s.tlb := rfl
@[simp] theorem modPort_icache (s : State) (n : Nat) (f : Port → Port) : (modPort s n f).icache = s.icache := rfl
@[simp] theorem modPort_clb (s : State) (n : Nat) (f : Port → Port) : (modPort s n f).clb = s.clb := rfl
@[simp] theorem modPort_loads (s : State) (n : Nat) (f : Port → Port) : (modPort s n f).loads = s.loads := rfl
@[simp] theorem modPort_stores (s : State) (n : Nat) (f : Port → Port) : (modPort s n f).stores = s.stores := rfl
@[simp] theorem modPort_sideLog (s : State) (n : Nat) (f : Port → Port) : (modPort s n f).sideLog = s.sideLog := rfl
@[simp] theorem modPort_faults (s : State) (n : Nat) (f : Port → Port) : (modPort s n f).faults = s.faults := rfl
@[simp] theorem modPort_monitors (s : State) (n : Nat) (f : Port → Port) : (modPort s n f).monitors = s.monitors := rfl
@[simp] theorem modPort_engines (s : State) (n : Nat) (f : Port → Port) : (modPort s n f).engines = s.engines := rfl
@[simp] theorem modPort_streams (s : State) (n : Nat) (f : Port → Port) : (modPort s n f).streams = s.streams := rfl
@[simp] theorem modPort_claims (s : State) (n : Nat) (f : Port → Port) : (modPort s n f).claims = s.claims := rfl
@[simp] theorem modPort_compare (s : State) (n : Nat) (f : Port → Port) : (modPort s n f).compare = s.compare := rfl
@[simp] theorem modPort_values (s : State) (n : Nat) (f : Port → Port) : (modPort s n f).values = s.values := rfl
@[simp] theorem modPort_races (s : State) (n : Nat) (f : Port → Port) : (modPort s n f).races = s.races := rfl
@[simp] theorem modPort_syncs (s : State) (n : Nat) (f : Port → Port) : (modPort s n f).syncs = s.syncs := rfl
@[simp] theorem modPort_fenceVc (s : State) (n : Nat) (f : Port → Port) : (modPort s n f).fenceVc = s.fenceVc := rfl
@[simp] theorem modPort_bwords (s : State) (n : Nat) (f : Port → Port) : (modPort s n f).bwords = s.bwords := rfl
@[simp] theorem modPort_bupdates (s : State) (n : Nat) (f : Port → Port) : (modPort s n f).bupdates = s.bupdates := rfl
@[simp] theorem modPort_watchers (s : State) (n : Nat) (f : Port → Port) : (modPort s n f).watchers = s.watchers := rfl
@[simp] theorem modPort_queues (s : State) (n : Nat) (f : Port → Port) : (modPort s n f).queues = s.queues := rfl
@[simp] theorem modPort_links (s : State) (n : Nat) (f : Port → Port) : (modPort s n f).links = s.links := rfl
@[simp] theorem modPort_records (s : State) (n : Nat) (f : Port → Port) : (modPort s n f).records = s.records := rfl
@[simp] theorem modPort_hostReads (s : State) (n : Nat) (f : Port → Port) : (modPort s n f).hostReads = s.hostReads := rfl
@[simp] theorem modPort_fw (s : State) (n : Nat) (f : Port → Port) : (modPort s n f).fw = s.fw := rfl
@[simp] theorem modPort_services (s : State) (n : Nat) (f : Port → Port) : (modPort s n f).services = s.services := rfl
@[simp] theorem modPort_reports (s : State) (n : Nat) (f : Port → Port) : (modPort s n f).reports = s.reports := rfl
@[simp] theorem modPort_peerReads (s : State) (n : Nat) (f : Port → Port) : (modPort s n f).peerReads = s.peerReads := rfl
@[simp] theorem modPort_module_ (s : State) (n : Nat) (f : Port → Port) : (modPort s n f).module_ = s.module_ := rfl
@[simp] theorem modPort_domain (s : State) (n : Nat) (f : Port → Port) : (modPort s n f).domain = s.domain := rfl
@[simp] theorem modPort_reserve (s : State) (n : Nat) (f : Port → Port) : (modPort s n f).reserve = s.reserve := rfl
@[simp] theorem modPort_outstanding (s : State) (n : Nat) (f : Port → Port) : (modPort s n f).outstanding = s.outstanding := rfl
@[simp] theorem modPort_granted (s : State) (n : Nat) (f : Port → Port) : (modPort s n f).granted = s.granted := rfl
@[simp] theorem modPort_heatMs (s : State) (n : Nat) (f : Port → Port) : (modPort s n f).heatMs = s.heatMs := rfl
@[simp] theorem modPort_heatSwept (s : State) (n : Nat) (f : Port → Port) : (modPort s n f).heatSwept = s.heatSwept := rfl
@[simp] theorem modPort_memerr (s : State) (n : Nat) (f : Port → Port) : (modPort s n f).memerr = s.memerr := rfl
@[simp] theorem modPort_warm (s : State) (n : Nat) (f : Port → Port) : (modPort s n f).warm = s.warm := rfl
@[simp] theorem modPort_window (s : State) (n : Nat) (f : Port → Port) : (modPort s n f).window = s.window := rfl

@[simp] theorem waitFor_now (s : State) (t : Tid) (w : WaitFor) : (waitFor s t w).now = s.now := rfl
@[simp] theorem waitFor_ns (s : State) (t : Tid) (w : WaitFor) : (waitFor s t w).ns = s.ns := rfl
@[simp] theorem waitFor_clkMhz (s : State) (t : Tid) (w : WaitFor) : (waitFor s t w).clkMhz = s.clkMhz := rfl
@[simp] theorem waitFor_powered (s : State) (t : Tid) (w : WaitFor) : (waitFor s t w).powered = s.powered := rfl
@[simp] theorem waitFor_freeCtr (s : State) (t : Tid) (w : WaitFor) : (waitFor s t w).freeCtr = s.freeCtr := rfl
@[simp] theorem waitFor_unit_ (s : State) (t : Tid) (w : WaitFor) : (waitFor s t w).unit_ = s.unit_ := rfl
@[simp] theorem waitFor_agenda (s : State) (t : Tid) (w : WaitFor) : (waitFor s t w).agenda = s.agenda := rfl
@[simp] theorem waitFor_ids (s : State) (t : Tid) (w : WaitFor) : (waitFor s t w).ids = s.ids := rfl
@[simp] theorem waitFor_cur (s : State) (t : Tid) (w : WaitFor) : (waitFor s t w).cur = s.cur := rfl
@[simp] theorem waitFor_groups (s : State) (t : Tid) (w : WaitFor) : (waitFor s t w).groups = s.groups := rfl
@[simp] theorem waitFor_warps (s : State) (t : Tid) (w : WaitFor) : (waitFor s t w).warps = s.warps := rfl
@[simp] theorem waitFor_wgs (s : State) (t : Tid) (w : WaitFor) : (waitFor s t w).wgs = s.wgs := rfl
@[simp] theorem waitFor_gangs (s : State) (t : Tid) (w : WaitFor) : (waitFor s t w).gangs = s.gangs := rfl
@[simp] theorem waitFor_launches (s : State) (t : Tid) (w : WaitFor) : (waitFor s t w).launches = s.launches := rfl
@[simp] theorem waitFor_regions (s : State) (t : Tid) (w : WaitFor) : (waitFor s t w).regions = s.regions := rfl
@[simp] theorem waitFor_contexts (s : State) (t : Tid) (w : WaitFor) : (waitFor s t w).contexts = s.contexts := rfl
@[simp] theorem waitFor_keys (s : State) (t : Tid) (w : WaitFor) : (waitFor s t w).keys = s.keys := rfl
@[simp] theorem waitFor_cores (s : State) (t : Tid) (w : WaitFor) : (waitFor s t w).cores = s.cores := rfl
@[simp] theorem waitFor_mem (s : State) (t : Tid) (w : WaitFor) : (waitFor s t w).mem = s.mem := rfl
@[simp] theorem waitFor_blocks (s : State) (t : Tid) (w : WaitFor) : (waitFor s t w).blocks = s.blocks := rfl
@[simp] theorem waitFor_dirty (s : State) (t : Tid) (w : WaitFor) : (waitFor s t w).dirty = s.dirty := rfl
@[simp] theorem waitFor_l1 (s : State) (t : Tid) (w : WaitFor) : (waitFor s t w).l1 = s.l1 := rfl
@[simp] theorem waitFor_tlb (s : State) (t : Tid) (w : WaitFor) : (waitFor s t w).tlb = s.tlb := rfl
@[simp] theorem waitFor_icache (s : State) (t : Tid) (w : WaitFor) : (waitFor s t w).icache = s.icache := rfl
@[simp] theorem waitFor_clb (s : State) (t : Tid) (w : WaitFor) : (waitFor s t w).clb = s.clb := rfl
@[simp] theorem waitFor_loads (s : State) (t : Tid) (w : WaitFor) : (waitFor s t w).loads = s.loads := rfl
@[simp] theorem waitFor_stores (s : State) (t : Tid) (w : WaitFor) : (waitFor s t w).stores = s.stores := rfl
@[simp] theorem waitFor_sideLog (s : State) (t : Tid) (w : WaitFor) : (waitFor s t w).sideLog = s.sideLog := rfl
@[simp] theorem waitFor_faults (s : State) (t : Tid) (w : WaitFor) : (waitFor s t w).faults = s.faults := rfl
@[simp] theorem waitFor_monitors (s : State) (t : Tid) (w : WaitFor) : (waitFor s t w).monitors = s.monitors := rfl
@[simp] theorem waitFor_engines (s : State) (t : Tid) (w : WaitFor) : (waitFor s t w).engines = s.engines := rfl
@[simp] theorem waitFor_streams (s : State) (t : Tid) (w : WaitFor) : (waitFor s t w).streams = s.streams := rfl
@[simp] theorem waitFor_claims (s : State) (t : Tid) (w : WaitFor) : (waitFor s t w).claims = s.claims := rfl
@[simp] theorem waitFor_compare (s : State) (t : Tid) (w : WaitFor) : (waitFor s t w).compare = s.compare := rfl
@[simp] theorem waitFor_values (s : State) (t : Tid) (w : WaitFor) : (waitFor s t w).values = s.values := rfl
@[simp] theorem waitFor_races (s : State) (t : Tid) (w : WaitFor) : (waitFor s t w).races = s.races := rfl
@[simp] theorem waitFor_syncs (s : State) (t : Tid) (w : WaitFor) : (waitFor s t w).syncs = s.syncs := rfl
@[simp] theorem waitFor_fenceVc (s : State) (t : Tid) (w : WaitFor) : (waitFor s t w).fenceVc = s.fenceVc := rfl
@[simp] theorem waitFor_bwords (s : State) (t : Tid) (w : WaitFor) : (waitFor s t w).bwords = s.bwords := rfl
@[simp] theorem waitFor_bupdates (s : State) (t : Tid) (w : WaitFor) : (waitFor s t w).bupdates = s.bupdates := rfl
@[simp] theorem waitFor_watchers (s : State) (t : Tid) (w : WaitFor) : (waitFor s t w).watchers = s.watchers := rfl
@[simp] theorem waitFor_queues (s : State) (t : Tid) (w : WaitFor) : (waitFor s t w).queues = s.queues := rfl
@[simp] theorem waitFor_links (s : State) (t : Tid) (w : WaitFor) : (waitFor s t w).links = s.links := rfl
@[simp] theorem waitFor_records (s : State) (t : Tid) (w : WaitFor) : (waitFor s t w).records = s.records := rfl
@[simp] theorem waitFor_hostReads (s : State) (t : Tid) (w : WaitFor) : (waitFor s t w).hostReads = s.hostReads := rfl
@[simp] theorem waitFor_fw (s : State) (t : Tid) (w : WaitFor) : (waitFor s t w).fw = s.fw := rfl
@[simp] theorem waitFor_services (s : State) (t : Tid) (w : WaitFor) : (waitFor s t w).services = s.services := rfl
@[simp] theorem waitFor_reports (s : State) (t : Tid) (w : WaitFor) : (waitFor s t w).reports = s.reports := rfl
@[simp] theorem waitFor_ports (s : State) (t : Tid) (w : WaitFor) : (waitFor s t w).ports = s.ports := rfl
@[simp] theorem waitFor_peerReads (s : State) (t : Tid) (w : WaitFor) : (waitFor s t w).peerReads = s.peerReads := rfl
@[simp] theorem waitFor_module_ (s : State) (t : Tid) (w : WaitFor) : (waitFor s t w).module_ = s.module_ := rfl
@[simp] theorem waitFor_domain (s : State) (t : Tid) (w : WaitFor) : (waitFor s t w).domain = s.domain := rfl
@[simp] theorem waitFor_reserve (s : State) (t : Tid) (w : WaitFor) : (waitFor s t w).reserve = s.reserve := rfl
@[simp] theorem waitFor_outstanding (s : State) (t : Tid) (w : WaitFor) : (waitFor s t w).outstanding = s.outstanding := rfl
@[simp] theorem waitFor_granted (s : State) (t : Tid) (w : WaitFor) : (waitFor s t w).granted = s.granted := rfl
@[simp] theorem waitFor_heatMs (s : State) (t : Tid) (w : WaitFor) : (waitFor s t w).heatMs = s.heatMs := rfl
@[simp] theorem waitFor_heatSwept (s : State) (t : Tid) (w : WaitFor) : (waitFor s t w).heatSwept = s.heatSwept := rfl
@[simp] theorem waitFor_memerr (s : State) (t : Tid) (w : WaitFor) : (waitFor s t w).memerr = s.memerr := rfl
@[simp] theorem waitFor_warm (s : State) (t : Tid) (w : WaitFor) : (waitFor s t w).warm = s.warm := rfl
@[simp] theorem waitFor_window (s : State) (t : Tid) (w : WaitFor) : (waitFor s t w).window = s.window := rfl

@[simp] theorem retire_now (s : State) (t : Tid) : (retire s t).now = s.now := rfl
@[simp] theorem retire_ns (s : State) (t : Tid) : (retire s t).ns = s.ns := rfl
@[simp] theorem retire_clkMhz (s : State) (t : Tid) : (retire s t).clkMhz = s.clkMhz := rfl
@[simp] theorem retire_powered (s : State) (t : Tid) : (retire s t).powered = s.powered := rfl
@[simp] theorem retire_freeCtr (s : State) (t : Tid) : (retire s t).freeCtr = s.freeCtr := rfl
@[simp] theorem retire_unit_ (s : State) (t : Tid) : (retire s t).unit_ = s.unit_ := rfl
@[simp] theorem retire_agenda (s : State) (t : Tid) : (retire s t).agenda = s.agenda := rfl
@[simp] theorem retire_ids (s : State) (t : Tid) : (retire s t).ids = s.ids := rfl
@[simp] theorem retire_cur (s : State) (t : Tid) : (retire s t).cur = s.cur := rfl
@[simp] theorem retire_groups (s : State) (t : Tid) : (retire s t).groups = s.groups := rfl
@[simp] theorem retire_warps (s : State) (t : Tid) : (retire s t).warps = s.warps := rfl
@[simp] theorem retire_wgs (s : State) (t : Tid) : (retire s t).wgs = s.wgs := rfl
@[simp] theorem retire_gangs (s : State) (t : Tid) : (retire s t).gangs = s.gangs := rfl
@[simp] theorem retire_launches (s : State) (t : Tid) : (retire s t).launches = s.launches := rfl
@[simp] theorem retire_regions (s : State) (t : Tid) : (retire s t).regions = s.regions := rfl
@[simp] theorem retire_contexts (s : State) (t : Tid) : (retire s t).contexts = s.contexts := rfl
@[simp] theorem retire_keys (s : State) (t : Tid) : (retire s t).keys = s.keys := rfl
@[simp] theorem retire_cores (s : State) (t : Tid) : (retire s t).cores = s.cores := rfl
@[simp] theorem retire_mem (s : State) (t : Tid) : (retire s t).mem = s.mem := rfl
@[simp] theorem retire_blocks (s : State) (t : Tid) : (retire s t).blocks = s.blocks := rfl
@[simp] theorem retire_dirty (s : State) (t : Tid) : (retire s t).dirty = s.dirty := rfl
@[simp] theorem retire_l1 (s : State) (t : Tid) : (retire s t).l1 = s.l1 := rfl
@[simp] theorem retire_tlb (s : State) (t : Tid) : (retire s t).tlb = s.tlb := rfl
@[simp] theorem retire_icache (s : State) (t : Tid) : (retire s t).icache = s.icache := rfl
@[simp] theorem retire_clb (s : State) (t : Tid) : (retire s t).clb = s.clb := rfl
@[simp] theorem retire_loads (s : State) (t : Tid) : (retire s t).loads = s.loads := rfl
@[simp] theorem retire_stores (s : State) (t : Tid) : (retire s t).stores = s.stores := rfl
@[simp] theorem retire_sideLog (s : State) (t : Tid) : (retire s t).sideLog = s.sideLog := rfl
@[simp] theorem retire_faults (s : State) (t : Tid) : (retire s t).faults = s.faults := rfl
@[simp] theorem retire_monitors (s : State) (t : Tid) : (retire s t).monitors = s.monitors := rfl
@[simp] theorem retire_engines (s : State) (t : Tid) : (retire s t).engines = s.engines := rfl
@[simp] theorem retire_streams (s : State) (t : Tid) : (retire s t).streams = s.streams := rfl
@[simp] theorem retire_claims (s : State) (t : Tid) : (retire s t).claims = s.claims := rfl
@[simp] theorem retire_compare (s : State) (t : Tid) : (retire s t).compare = s.compare := rfl
@[simp] theorem retire_values (s : State) (t : Tid) : (retire s t).values = s.values := rfl
@[simp] theorem retire_races (s : State) (t : Tid) : (retire s t).races = s.races := rfl
@[simp] theorem retire_syncs (s : State) (t : Tid) : (retire s t).syncs = s.syncs := rfl
@[simp] theorem retire_fenceVc (s : State) (t : Tid) : (retire s t).fenceVc = s.fenceVc := rfl
@[simp] theorem retire_bwords (s : State) (t : Tid) : (retire s t).bwords = s.bwords := rfl
@[simp] theorem retire_bupdates (s : State) (t : Tid) : (retire s t).bupdates = s.bupdates := rfl
@[simp] theorem retire_watchers (s : State) (t : Tid) : (retire s t).watchers = s.watchers := rfl
@[simp] theorem retire_queues (s : State) (t : Tid) : (retire s t).queues = s.queues := rfl
@[simp] theorem retire_links (s : State) (t : Tid) : (retire s t).links = s.links := rfl
@[simp] theorem retire_records (s : State) (t : Tid) : (retire s t).records = s.records := rfl
@[simp] theorem retire_hostReads (s : State) (t : Tid) : (retire s t).hostReads = s.hostReads := rfl
@[simp] theorem retire_fw (s : State) (t : Tid) : (retire s t).fw = s.fw := rfl
@[simp] theorem retire_services (s : State) (t : Tid) : (retire s t).services = s.services := rfl
@[simp] theorem retire_reports (s : State) (t : Tid) : (retire s t).reports = s.reports := rfl
@[simp] theorem retire_ports (s : State) (t : Tid) : (retire s t).ports = s.ports := rfl
@[simp] theorem retire_peerReads (s : State) (t : Tid) : (retire s t).peerReads = s.peerReads := rfl
@[simp] theorem retire_module_ (s : State) (t : Tid) : (retire s t).module_ = s.module_ := rfl
@[simp] theorem retire_domain (s : State) (t : Tid) : (retire s t).domain = s.domain := rfl
@[simp] theorem retire_reserve (s : State) (t : Tid) : (retire s t).reserve = s.reserve := rfl
@[simp] theorem retire_outstanding (s : State) (t : Tid) : (retire s t).outstanding = s.outstanding := rfl
@[simp] theorem retire_granted (s : State) (t : Tid) : (retire s t).granted = s.granted := rfl
@[simp] theorem retire_heatMs (s : State) (t : Tid) : (retire s t).heatMs = s.heatMs := rfl
@[simp] theorem retire_heatSwept (s : State) (t : Tid) : (retire s t).heatSwept = s.heatSwept := rfl
@[simp] theorem retire_memerr (s : State) (t : Tid) : (retire s t).memerr = s.memerr := rfl
@[simp] theorem retire_warm (s : State) (t : Tid) : (retire s t).warm = s.warm := rfl
@[simp] theorem retire_window (s : State) (t : Tid) : (retire s t).window = s.window := rfl

end Sys2Proof.Machine
end

