-- ==== Sys2Proof/Laws/Lanes.lean ====
section
/-! SUPPORT. How a word acts on its lanes: one lemma for each way, which says all that the shared operation does when every lane can go on. -/

namespace Sys2Proof.Machine

/-! ## Threads of a state -/

theorem getT_tid {s : State} {t : Tid} {x : Thread} (h : getT s t = some x) : x.tid = t := by
  have := List.find?_some h
  simpa using this

theorem find_updIf_self {l : List Thread} {t : Tid} {f : Thread → Thread} (hf : ∀ x, x.tid = t → (f x).tid = t) :
    (updIf (fun x => x.tid == t) f l).find? (fun x => x.tid == t) = (l.find? fun x => x.tid == t).map f := by
  induction l with
  | nil => rfl
  | cons y r ih =>
    by_cases h : y.tid = t
    · simp [updIf, h, hf y h]
    · have : (y.tid == t) = false := by simpa using h
      simp only [updIf, List.map_cons, this, List.find?_cons] at ih ⊢
      simpa [this] using ih

theorem find_updIf_ne {l : List Thread} {t u : Tid} {f : Thread → Thread} (hf : ∀ x, x.tid = t → (f x).tid = t) (hu : u ≠ t) :
    (updIf (fun x => x.tid == t) f l).find? (fun x => x.tid == u) = l.find? fun x => x.tid == u := by
  induction l with
  | nil => rfl
  | cons y r ih =>
    by_cases h : y.tid = t
    · have h1 : (y.tid == u) = false := by simp [h]; exact fun e => hu e.symm
      have h2 : ((f y).tid == u) = false := by simp [hf y h]; exact fun e => hu e.symm
      have h3 : (y.tid == t) = true := by simp [h]
      simp only [updIf, List.map_cons, h3, if_true, List.find?_cons, h1, h2] at ih ⊢
      exact ih
    · have : (y.tid == t) = false := by simpa using h
      simp only [updIf, List.map_cons, this, List.find?_cons] at ih ⊢
      by_cases h2 : (y.tid == u) = true
      · simp [h2]
      · simp only [Bool.not_eq_true] at h2
        simpa [h2] using ih

/-- The thread that an update names. -/
theorem getT_modT {s : State} {t : Tid} {f : Thread → Thread} (hf : ∀ x, x.tid = t → (f x).tid = t) :
    getT (modT s t f) t = (getT s t).map f := find_updIf_self hf

/-- Every other thread. -/
theorem getT_modT_ne {s : State} {t u : Tid} {f : Thread → Thread} (hf : ∀ x, x.tid = t → (f x).tid = t) (hu : u ≠ t) :
    getT (modT s t f) u = getT s u := find_updIf_ne hf hu

@[simp] theorem getWg_modT (s : State) (t : Tid) (f : Thread → Thread) (n : Nat) : getWg (modT s t f) n = getWg s n := rfl
@[simp] theorem getWarp_modT (s : State) (t : Tid) (f : Thread → Thread) (c k : Nat) : getWarp (modT s t f) c k = getWarp s c k := rfl
@[simp] theorem getWg_retire (s : State) (t : Tid) (n : Nat) : getWg (retire s t) n = getWg s n := rfl

/-! ## What a state of threads alone does not change -/

@[simp] theorem readSrc_threads (s : State) (ths : List Thread) (w : Workgroup) (t : Thread) (pops : List Nat) (x : Src) (k : Nat) (kd : OpK) :
    readSrc { s with threads := ths } w t pops x k kd = readSrc s w t pops x k kd := rfl

@[simp] theorem readSrcs_threads (s : State) (ths : List Thread) (w : Workgroup) (t : Thread) (l : List SrcSpec) (pops : List Nat) :
    readSrcs { s with threads := ths } w t l pops = readSrcs s w t l pops := by
  induction l generalizing pops with
  | nil => rfl
  | cons x r ih =>
    unfold readSrcs
    simp only [readSrc_threads, ih]

@[simp] theorem dualCause_threads (s : State) (ths : List Thread) (w : Workgroup) : dualCause { s with threads := ths } w = dualCause s w := rfl

/-- Registers enter the undo log only where a rollback or a replay may need them (R139). -/
theorem touchRegs_off {s : State} {w : Workgroup} (t : Tid) (l : List (Bool × Nat)) (h1 : w.rcb.rollback = false) (h2 : w.rcb.redund = 0) :
    touchRegs s w t l = s := by
  unfold touchRegs
  simp [h1, h2]

/-! ## What threads keep -/

@[simp] theorem advance_tid (g : Group) (n : Nat) (t : Thread) : (advance g n t).tid = t.tid := rfl
@[simp] theorem advance_run (g : Group) (n : Nat) (t : Thread) : (advance g n t).run = .ready := rfl
@[simp] theorem advance_wg (g : Group) (n : Nat) (t : Thread) : (advance g n t).wg = t.wg := rfl
@[simp] theorem advance_pc (g : Group) (n : Nat) (t : Thread) : (advance g n t).pc = g.next := rfl
@[simp] theorem advance_v (g : Group) (n : Nat) (t : Thread) : (advance g n t).v = t.v := rfl
@[simp] theorem advance_o (g : Group) (n : Nat) (t : Thread) : (advance g n t).o = t.o := rfl
@[simp] theorem advance_lr (g : Group) (n : Nat) (t : Thread) : (advance g n t).lr = t.lr := rfl
@[simp] theorem advance_p (g : Group) (n : Nat) (t : Thread) : (advance g n t).p = t.p := rfl

/-- A change of registers, predicates, queues, flags and clocks alone. -/
def SameThread (a b : Thread) : Prop :=
  b.tid = a.tid ∧ b.wg = a.wg ∧ b.run = a.run ∧ b.pc = a.pc ∧ b.depth = a.depth ∧ b.pl = a.pl ∧ b.links = a.links ∧ b.held = a.held ∧ b.trap = a.trap
    ∧ b.fdepth = a.fdepth

theorem SameThread.refl (a : Thread) : SameThread a a := ⟨rfl, rfl, rfl, rfl, rfl, rfl, rfl, rfl, rfl, rfl⟩

theorem SameThread.trans {a b c : Thread} (h : SameThread a b) (k : SameThread b c) : SameThread a c := by
  obtain ⟨h1, h2, h3, h4, h5, h6, h7, h8, h9, h10⟩ := h
  obtain ⟨k1, k2, k3, k4, k5, k6, k7, k8, k9, k10⟩ := k
  exact ⟨k1.trans h1, k2.trans h2, k3.trans h3, k4.trans h4, k5.trans h5, k6.trans h6, k7.trans h7, k8.trans h8, k9.trans h9, k10.trans h10⟩

theorem same_foldl {α : Type} (f : Thread → α → Thread) (hf : ∀ t a, SameThread t (f t a)) :
    ∀ (l : List α) (t : Thread), SameThread t (l.foldl f t)
  | [], t => SameThread.refl t
  | a :: l, t => (hf t a).trans (same_foldl f hf l (f t a))

theorem same_setV (t : Thread) (n : Nat) (r : Reg) : SameThread t (setV t n r) := SameThread.refl t
theorem same_setO (t : Thread) (n : Nat) (r : Reg) : SameThread t (setO t n r) := SameThread.refl t

theorem same_killReg (t : Thread) (r : Bool × Nat) : SameThread t (killReg t r) := by
  unfold killReg; split <;> exact SameThread.refl t

theorem same_setPred (t : Thread) (n : Nat) (b : Bool) : SameThread t (setPred t n b) := by
  unfold setPred; split <;> exact SameThread.refl t

theorem same_popQueues (t : Thread) (l : List Nat) : SameThread t (popQueues t l) := by
  unfold popQueues
  refine same_foldl _ (fun t a => ?_) l t
  exact SameThread.refl t

theorem same_joinTokens (t : Thread) (l : List Nat) : SameThread t (joinTokens t l) := by
  unfold joinTokens; split <;> exact SameThread.refl t

theorem same_takeSources (t : Thread) (l : List SrcSpec) (pops : List Nat) : SameThread t (takeSources t l pops) :=
  ((same_joinTokens t _).trans (same_popQueues _ _)).trans (same_foldl _ same_killReg _ _)

theorem same_writeDst (t : Thread) (d : Dst) (ws : List W32) (p : List Bool) (sh : List (List W32)) : SameThread t (writeDst t d ws p sh) := by
  unfold writeDst
  dsimp only
  split
  · exact same_foldl _ (fun t _ => same_setV t _ _) _ _
  · exact same_foldl _ (fun t _ => same_setO t _ _) _ _
  · exact SameThread.refl t

theorem same_pendDst (t : Thread) (d : Dst) (k : Nat) : SameThread t (pendDst t d k) := by
  unfold pendDst
  split
  · exact same_foldl _ (fun t _ => same_setV t _ _) _ _
  · exact same_foldl _ (fun t _ => same_setO t _ _) _ _
  · exact SameThread.refl t

theorem same_writeLr (t : Thread) (ws : List W32) (p : Bool) (sh : List (List W32)) : SameThread t (writeLr t ws p sh) := SameThread.refl t

theorem same_disturb (w : Workgroup) (t : Thread) (ws : List W32) (b : Bool) : SameThread t (disturb w t ws b).2 := by
  unfold disturb
  split
  · split <;> exact SameThread.refl t
  · dsimp only; split <;> exact SameThread.refl t

theorem same_aluThread (w : Workgroup) (t : Thread) (l : List SrcSpec) (pops : List Nat) (d : Option Dst) (o : AluOut) :
    SameThread t (aluThread w t l pops d o).2 := by
  have h1 := (same_takeSources t l pops).trans (same_disturb w (takeSources t l pops) o.words d.isSome)
  unfold aluThread
  cases d with
  | none => exact (h1.trans (same_foldl _ (fun t p => same_setPred t p.1 p.2) o.preds _)).trans (SameThread.refl _)
  | some d =>
    exact (((h1.trans (same_writeDst _ d _ _ _)).trans (same_writeLr _ _ _ _)).trans
      (same_foldl _ (fun t p => same_setPred t p.1 p.2) o.preds _)).trans (SameThread.refl _)

theorem same_lateThread (w : Workgroup) (t : Thread) (l : List SrcSpec) (pops : List Nat) (d : Dst) (k : Nat) (o : AluOut) :
    SameThread t (lateThread w t l pops d k o).2 :=
  (((same_takeSources t l pops).trans (same_pendDst _ d k)).trans (same_disturb w _ _ _)).trans (SameThread.refl _)

/-! ## Traps that nobody takes -/

theorem deliverTraps_nil (s : State) (pc : Word) (b : Bool) : deliverTraps s pc b [] = s := rfl
theorem settleTraps_nil (s : State) (pc : Word) (b : Bool) : settleTraps s pc b [] [] [] = s := rfl

theorem applyG_nil (s : State) (r : List Tid) : applyG s r [] = s := rfl

theorem applyG_inv (P : State → Prop) (hP : ∀ s c k f, P s → P (modWarp s c k f)) (s : State) (r : List Tid) (g : List (Tid × GWrite)) (h : P s) :
    P (applyG s r g) := by
  unfold applyG
  generalize hq : (fun (s : State) (e : Tid × GWrite) => _) = q
  have : ∀ (l : List (Tid × GWrite)) (s : State), P s → P (l.foldl q s) := by
    intro l
    induction l with
    | nil => exact fun _ h => h
    | cons a l ih =>
      intro s hs
      refine ih _ ?_
      subst hq
      dsimp only
      split
      · exact hP _ _ _ _ hs
      · exact hs
  exact this g s h

/-- Writes of uniform registers change nothing but the warps (R170). -/
theorem applyG_frame (s : State) (r : List Tid) (g : List (Tid × GWrite)) : applyG s r g = { s with warps := (applyG s r g).warps } :=
  applyG_inv (fun x => x = { s with warps := x.warps }) (fun x c k f h => by
    rw [h]; rfl) s r g rfl

theorem getT_applyG (s : State) (r : List Tid) (g : List (Tid × GWrite)) (t : Tid) : getT (applyG s r g) t = getT s t := by
  rw [applyG_frame]; rfl

/-! ## Lane by lane -/

/-- One lane that retires. -/
theorem perLane_retire {s s' : State} {pg : Guard} {f : State → Workgroup → Thread → State × LaneRes} {tid : Tid} {t : Thread} {w : Workgroup}
    {gw : List GWrite} (hc : s.cur.tids = [tid]) (ht : getT s tid = some t) (hr : t.run = .ready) (hp : passes t pg = true)
    (hw : getWg s t.wg = some w) (hf : f s w t = (s', .retire gw)) :
    perLane s pg f = applyG (retire s' tid) [tid] (gw.map fun x => (tid, x)) := by
  unfold perLane
  simp [hc, ht, hr, hp, hw, hf, settleTraps_nil, deliverTraps_nil]

/-- One lane whose guard fails passes the word (R156). -/
theorem perLane_skip {s : State} {pg : Guard} {f : State → Workgroup → Thread → State × LaneRes} {tid : Tid} {t : Thread}
    (hc : s.cur.tids = [tid]) (ht : getT s tid = some t) (hr : t.run = .ready) (hp : passes t pg = false) :
    perLane s pg f = retire s tid := by
  unfold perLane
  simp [hc, ht, hr, hp, settleTraps_nil, deliverTraps_nil, applyG_nil]

/-- One lane that traps on a cause that is no consumption of POISON (R133). -/
theorem perLane_trap {s s' : State} {pg : Guard} {f : State → Workgroup → Thread → State × LaneRes} {tid : Tid} {t : Thread} {w : Workgroup}
    {c : Cause} (hk : c.eaten = false) (hc : s.cur.tids = [tid]) (ht : getT s tid = some t) (hr : t.run = .ready) (hp : passes t pg = true)
    (hw : getWg s t.wg = some w) (hf : f s w t = (s', .trap c)) :
    perLane s pg f = deliverTraps s' (trapPc s.cur) s.cur.legacy [(tid, c)] := by
  unfold perLane
  simp only [hc, List.foldl_cons, List.foldl_nil, ht, hr, hp, hw, hf]
  simp [applyG_nil, deliverTraps_nil, settleTraps, hk]

/-- One lane that waits. -/
theorem perLane_wait {s s' : State} {pg : Guard} {f : State → Workgroup → Thread → State × LaneRes} {tid : Tid} {t : Thread} {w : Workgroup}
    {x : WaitFor} (hc : s.cur.tids = [tid]) (ht : getT s tid = some t) (hr : t.run = .ready) (hp : passes t pg = true)
    (hw : getWg s t.wg = some w) (hf : f s w t = (s', .wait x)) : perLane s pg f = waitFor s' tid x := by
  unfold perLane
  simp [hc, ht, hr, hp, hw, hf, settleTraps_nil, deliverTraps_nil, applyG_nil]

/-- One lane that branches. -/
theorem perLane_jump {s s' : State} {pg : Guard} {f : State → Workgroup → Thread → State × LaneRes} {tid : Tid} {t : Thread} {w : Workgroup}
    {pc : Word} (hc : s.cur.tids = [tid]) (ht : getT s tid = some t) (hr : t.run = .ready) (hp : passes t pg = true)
    (hw : getWg s t.wg = some w) (hf : f s w t = (s', .jump pc)) : perLane s pg f = modT s' tid (jumpTo pc s.now) := by
  unfold perLane
  simp [hc, ht, hr, hp, hw, hf, settleTraps_nil, deliverTraps_nil, applyG_nil]

/-- One lane whose action has settled it. -/
theorem perLane_gone {s s' : State} {pg : Guard} {f : State → Workgroup → Thread → State × LaneRes} {tid : Tid} {t : Thread} {w : Workgroup}
    (hc : s.cur.tids = [tid]) (ht : getT s tid = some t) (hr : t.run = .ready) (hp : passes t pg = true)
    (hw : getWg s t.wg = some w) (hf : f s w t = (s', .gone)) : perLane s pg f = s' := by
  unfold perLane
  simp [hc, ht, hr, hp, hw, hf, settleTraps_nil, deliverTraps_nil, applyG_nil]

/-- One lane that retires the word and then traps (R306). -/
theorem perLane_after {s s' : State} {pg : Guard} {f : State → Workgroup → Thread → State × LaneRes} {tid : Tid} {t : Thread} {w : Workgroup}
    {c : Cause} (hc : s.cur.tids = [tid]) (ht : getT s tid = some t) (hr : t.run = .ready) (hp : passes t pg = true)
    (hw : getWg s t.wg = some w) (hf : f s w t = (s', .after c)) :
    perLane s pg f = deliverTraps (retire s' tid) s.cur.next s.cur.legacy [(tid, c)] := by
  unfold perLane
  simp [hc, ht, hr, hp, hw, hf, settleTraps_nil, applyG_nil]

/-- A lane whose operands are sound goes on to the word's own action. -/
theorem withSrcs_ok {s : State} {w : Workgroup} {t : Thread} {l : List SrcSpec} {d : Dst} {kd : Nat} {extra : List Opv → List Cause}
    {go : List Opv → List Nat → State × LaneRes} (hu : dualCause s w = []) (he : extra (readSrcs s w t l []).vals = []) (hc : (readSrcs s w t l []).causes = []) (hw : (readSrcs s w t l []).wait = false)
    (hd : dstCheck w t d kd = ([], false)) :
    withSrcs s w t l d kd extra go = go (readSrcs s w t l []).vals (readSrcs s w t l []).pops := by
  unfold withSrcs
  simp [hu, he, hc, hw, hd, lowest, minBy]

/-! ## A whole group -/

/-- What one thread of a group is after a word that touches its own thread alone. -/
def laneAfter (s : State) (pg : Guard) (G : Workgroup → Thread → Thread) (w : Workgroup) (x : Thread) : Thread :=
  advance s.cur s.now (if passes x pg then G w x else x)

/-- The same state with other threads, loads on their way and last identifier. -/
def withLanes (s : State) (ths : List Thread) (lds : List OutLoad) (n : Nat) : State := { s with threads := ths, loads := lds, ids := n }

@[simp] theorem withLanes_cur (s : State) (ths : List Thread) (lds : List OutLoad) (n : Nat) : (withLanes s ths lds n).cur = s.cur := rfl
@[simp] theorem withLanes_now (s : State) (ths : List Thread) (lds : List OutLoad) (n : Nat) : (withLanes s ths lds n).now = s.now := rfl
@[simp] theorem withLanes_threads (s : State) (ths : List Thread) (lds : List OutLoad) (n : Nat) : (withLanes s ths lds n).threads = ths := rfl
@[simp] theorem getWg_withLanes (s : State) (ths : List Thread) (lds : List OutLoad) (n k : Nat) : getWg (withLanes s ths lds n) k = getWg s k := rfl
theorem getT_withLanes (s : State) (ths : List Thread) (l l' : List OutLoad) (n n' : Nat) (t : Tid) :
    getT (withLanes s ths l n) t = getT (withLanes s ths l' n') t := rfl

@[simp] theorem readSrcs_withLanes (s : State) (ths : List Thread) (lds : List OutLoad) (n : Nat) (w : Workgroup) (t : Thread) (l : List SrcSpec) (pops : List Nat) :
    readSrcs (withLanes s ths lds n) w t l pops = readSrcs s w t l pops := by
  induction l generalizing pops with
  | nil => rfl
  | cons x r ih =>
    unfold readSrcs
    have : ∀ k kd, readSrc (withLanes s ths lds n) w t pops x.src k kd = readSrc s w t pops x.src k kd := fun _ _ => rfl
    simp only [this, ih]

@[simp] theorem dualCause_withLanes (s : State) (ths : List Thread) (lds : List OutLoad) (n : Nat) (w : Workgroup) :
    dualCause (withLanes s ths lds n) w = dualCause s w := rfl

/-- The loads that the lanes of a list send one after the other, the last identifier being `n` before, and the last identifier after. -/
def sent (L : Nat → Workgroup → Thread → List OutLoad) (N : Workgroup → Thread → Nat) : Nat → List (Thread × Workgroup) → List OutLoad × Nat
  | n, [] => ([], n)
  | n, e :: r => (L n e.2 e.1 ++ (sent L N (n + N e.2 e.1) r).1, (sent L N (n + N e.2 e.1) r).2)

theorem sent_none (n : Nat) (l : List (Thread × Workgroup)) : sent (fun _ _ _ => []) (fun _ _ => 0) n l = ([], n) := by
  induction l with
  | nil => rfl
  | cons e r ih => simp [sent, ih]

/-- One load in each lane. -/
theorem sent_one (K : Nat → Workgroup → Thread → OutLoad) (n : Nat) (l : List (Thread × Workgroup)) :
    sent (fun n w x => [K (n + 1) w x]) (fun _ _ => 1) n l = (l.mapIdx fun i e => K (n + 1 + i) e.2 e.1, n + l.length) := by
  induction l generalizing n with
  | nil => rfl
  | cons e r ih =>
    simp only [sent, ih, List.mapIdx_cons, List.length_cons, List.singleton_append, Prod.mk.injEq, Nat.add_zero]
    refine ⟨?_, by omega⟩
    congr 1
    apply List.ext_getElem
    · simp
    · intro i h1 h2
      have : n + 1 + 1 + i = n + 1 + (i + 1) := by omega
      simp [this]

/-- A word that acts lane by lane and, in each lane, on the lane's own thread alone and on the late values it sends: every thread of the
group is as if it had issued alone, every other thread is untouched, and uniform registers take the writes of the lanes that pass the guard. -/
theorem perLane_sending {s : State} {pg : Guard} {f : State → Workgroup → Thread → State × LaneRes} (G : Workgroup → Thread → Thread)
    (W : Workgroup → Thread → List GWrite) (L : Nat → Workgroup → Thread → List OutLoad) (N : Workgroup → Thread → Nat) (hn : s.cur.tids.Nodup)
    (hx : ∀ tid ∈ s.cur.tids, ∃ x w, getT s tid = some x ∧ x.run = .ready ∧ getWg s x.wg = some w)
    (hG : ∀ w x, (G w x).tid = x.tid ∧ (G w x).run = x.run)
    (hf : ∀ ths lds n tid x w, tid ∈ s.cur.tids → getT s tid = some x → getWg s x.wg = some w → passes x pg = true →
      getT (withLanes s ths lds n) tid = some x →
      f (withLanes s ths lds n) w x
        = (withLanes s (modT (withLanes s ths lds n) tid (fun _ => G w x)).threads (lds ++ L n w x) (n + N w x), .retire (W w x))) :
    ∃ ths, perLane s pg f = applyG (withLanes s ths (s.loads ++ (sent L N s.ids (activeLanes s pg)).1) (sent L N s.ids (activeLanes s pg)).2)
        ((activeLanes s pg).map fun e => e.1.tid) ((activeLanes s pg).flatMap fun e => (W e.2 e.1).map fun y => (e.1.tid, y)) ∧
      (∀ tid ∈ s.cur.tids, ∀ x w, getT s tid = some x → getWg s x.wg = some w →
        getT { s with threads := ths } tid = some (laneAfter s pg G w x)) ∧
      ∀ u, u ∉ s.cur.tids → getT { s with threads := ths } u = getT s u := by
  unfold perLane
  generalize hq : (fun (a : LaneAcc) (tid : Tid) => _) = q
  let act := fun (l : List Tid) => l.filterMap fun tid => (getT s tid).bind fun t =>
    if passes t pg then (getWg s t.wg).map fun w => (t, w) else none
  have key : ∀ (l : List Tid) (a : LaneAcc) (ths : List Thread) (lds : List OutLoad) (n : Nat), l.Nodup → (∀ t ∈ l, t ∈ s.cur.tids) →
      a.s = withLanes s ths lds n → (∀ t ∈ l, getT a.s t = getT s t) → a.traps = [] → a.eaten = [] → a.kills = [] → a.after = [] →
      ∃ ths', (l.foldl q a).s = withLanes s ths' (lds ++ (sent L N n (act l)).1) (sent L N n (act l)).2 ∧
        (∀ t ∈ l, ∀ x w, getT s t = some x → getWg s x.wg = some w → getT { s with threads := ths' } t = some (laneAfter s pg G w x)) ∧
        (∀ u, u ∉ l → getT { s with threads := ths' } u = getT { s with threads := ths } u) ∧
        (l.foldl q a).traps = [] ∧ (l.foldl q a).eaten = [] ∧ (l.foldl q a).kills = [] ∧ (l.foldl q a).after = [] ∧
        (l.foldl q a).retired = a.retired ++ ((act l).map fun e => e.1.tid) ∧
        (l.foldl q a).gw = a.gw ++ ((act l).flatMap fun e => (W e.2 e.1).map fun y => (e.1.tid, y)) := by
    intro l
    induction l with
    | nil =>
      intro a ths lds n _ _ ha _ h1 h2 h3 h4
      exact ⟨ths, by simpa [act, sent] using ha, by simp, fun _ _ => rfl, h1, h2, h3, h4, by simp [act], by simp [act]⟩
    | cons t l ih =>
      intro a ths lds n hnd hl ha hg h1 h2 h3 h4
      obtain ⟨hnt, hnd'⟩ := List.nodup_cons.mp hnd
      obtain ⟨x, w, hxt, hxr, hxw⟩ := hx t (hl t List.mem_cons_self)
      have hat : getT a.s t = some x := (hg t List.mem_cons_self).trans hxt
      have htid : x.tid = t := getT_tid hxt
      have haw : getWg a.s x.wg = some w := by rw [ha]; exact hxw
      have hact : act (t :: l) = (if passes x pg then [(x, w)] else []) ++ act l := by
        by_cases hp : passes x pg = true <;> simp [act, hxt, hxw, hp]
      have hk : ∀ (c : Group) (m : Nat) (y : Thread), y.tid = t → (if (y.run == .killed) = true then y else advance c m y).tid = t := by
        intro c m y hy; split <;> simp [hy]
      -- the state after this lane
      have step : ∃ (ths1 : List Thread), (q a t).s = withLanes s ths1 (lds ++ (if passes x pg then L n w x else [])) (n + (if passes x pg then N w x else 0)) ∧
          getT { s with threads := ths1 } t = some (laneAfter s pg G w x) ∧
          (∀ u, u ≠ t → getT { s with threads := ths1 } u = getT { s with threads := ths } u) ∧
          (q a t).traps = [] ∧ (q a t).eaten = [] ∧ (q a t).kills = [] ∧ (q a t).after = [] ∧
          (q a t).retired = a.retired ++ (if passes x pg then [t] else []) ∧
          (q a t).gw = a.gw ++ (if passes x pg then (W w x).map fun y => (t, y) else []) := by
        subst hq
        by_cases hp : passes x pg = true
        · have hfx := hf ths lds n t x w (hl t List.mem_cons_self) hxt hxw hp (by rw [← ha]; exact hat)
          rw [← ha] at hfx
          have e1 : getT (modT a.s t fun _ => G w x) t = some (G w x) := by
            rw [getT_modT (fun _ _ => ((hG w x).1).trans htid), hat]; rfl
          refine ⟨(retire (modT a.s t fun _ => G w x) t).threads, ?_, ?_, ?_, ?_⟩
          · simp only [hat, hxr, hp, haw, hfx]
            simp only [bne_self_eq_false, Bool.not_true, if_true]
            simp only [ha]
            rfl
          · have e2 : getT (retire (modT a.s t fun _ => G w x) t) t = some (laneAfter s pg G w x) := by
              unfold retire
              rw [getT_modT (hk _ _), e1, Option.map_some, modT_cur, modT_now, ha, withLanes_cur, withLanes_now]
              have : ((G w x).run == Run.killed) = false := by rw [(hG w x).2, hxr]; rfl
              simp [this, laneAfter, hp]
            rw [← e2, ha]
            rfl
          · intro u hu
            have e3 : getT (retire (modT a.s t fun _ => G w x) t) u = getT a.s u := by
              unfold retire
              rw [getT_modT_ne (hk _ _) hu, getT_modT_ne (fun _ _ => ((hG w x).1).trans htid) hu]
            rw [ha] at e3 ⊢
            exact e3
          · simp only [hat, hxr, hp, haw, hfx]
            simp [h1, h2, h3, h4]
        · have hp' : passes x pg = false := by simpa using hp
          refine ⟨(retire a.s t).threads, ?_, ?_, ?_, ?_⟩
          · simp only [hat, hxr, hp']
            simp only [bne_self_eq_false, Bool.not_false, Bool.false_eq_true, if_true, if_false, List.append_nil, Nat.add_zero]
            simp only [ha]
            rfl
          · have e2 : getT (retire a.s t) t = some (laneAfter s pg G w x) := by
              unfold retire
              rw [getT_modT (hk _ _), hat, Option.map_some, ha, withLanes_cur, withLanes_now]
              have : (x.run == Run.killed) = false := by rw [hxr]; rfl
              simp [this, laneAfter, hp']
            rw [← e2, ha]
            rfl
          · intro u hu
            have e3 : getT (retire a.s t) u = getT a.s u := by
              unfold retire
              rw [getT_modT_ne (hk _ _) hu]
            rw [ha] at e3 ⊢
            exact e3
          · simp only [hat, hxr, hp']
            simp [h1, h2, h3, h4]
      obtain ⟨ths1, s1, s2, s3, s4, s5, s6, s7, s8, s9⟩ := step
      obtain ⟨ths', r1, r2, r3, r4, r5, r6, r7, r8, r9⟩ := ih (q a t) ths1 _ _ hnd' (fun u hu => hl u (List.mem_cons_of_mem _ hu)) s1
        (fun u hu => by
          have hne : u ≠ t := fun e => hnt (e ▸ hu)
          have := hg u (List.mem_cons_of_mem _ hu)
          rw [ha] at this
          rw [s1]
          exact (s3 u hne).trans this) s4 s5 s6 s7
      refine ⟨ths', ?_, ?_, ?_, r4, r5, r6, r7, ?_, ?_⟩
      · rw [List.foldl_cons, r1, hact]
        by_cases hp : passes x pg = true
        · simp [hp, sent]
        · simp [hp]
      · intro u hu y v hy hv
        rcases List.mem_cons.mp hu with rfl | hu'
        · rw [r3 u hnt, s2]
          have : y = x := by rw [hxt] at hy; exact (Option.some.inj hy).symm
          subst this
          have : v = w := by rw [hxw] at hv; exact (Option.some.inj hv).symm
          subst this
          rfl
        · exact r2 u hu' y v hy hv
      · intro u hu
        have hne : u ≠ t := fun e => hu (e ▸ List.mem_cons_self)
        rw [r3 u (fun h => hu (List.mem_cons_of_mem _ h)), s3 u hne]
      · rw [List.foldl_cons, r8, s8, hact]
        by_cases hp : passes x pg = true <;> simp [hp, htid]
      · rw [List.foldl_cons, r9, s9, hact]
        by_cases hp : passes x pg = true <;> simp [hp, htid]
  obtain ⟨ths, k1, k2, k3, k4, k5, k6, k7, k8, k9⟩ :=
    key s.cur.tids ⟨s, [], [], [], [], [], []⟩ s.threads s.loads s.ids hn (fun _ h => h) rfl (fun _ _ => rfl) rfl rfl rfl rfl
  refine ⟨ths, ?_, k2, fun u hu => k3 u hu⟩
  dsimp only
  rw [k1, k4, k5, k6, k7, k8, k9, settleTraps_nil, deliverTraps_nil]
  simp only [List.nil_append]
  rfl

/-- The same of a word that sends nothing. -/
theorem perLane_local {s : State} {pg : Guard} {f : State → Workgroup → Thread → State × LaneRes} (G : Workgroup → Thread → Thread)
    (W : Workgroup → Thread → List GWrite) (hn : s.cur.tids.Nodup)
    (hx : ∀ tid ∈ s.cur.tids, ∃ x w, getT s tid = some x ∧ x.run = .ready ∧ getWg s x.wg = some w)
    (hG : ∀ w x, (G w x).tid = x.tid ∧ (G w x).run = x.run)
    (hf : ∀ ths lds n tid x w, tid ∈ s.cur.tids → getT s tid = some x → getWg s x.wg = some w → passes x pg = true →
      f (withLanes s ths lds n) w x = (modT (withLanes s ths lds n) tid (fun _ => G w x), .retire (W w x))) :
    ∃ ths, perLane s pg f = applyG { s with threads := ths } ((activeLanes s pg).map fun e => e.1.tid)
        ((activeLanes s pg).flatMap fun e => (W e.2 e.1).map fun y => (e.1.tid, y)) ∧
      (∀ tid ∈ s.cur.tids, ∀ x w, getT s tid = some x → getWg s x.wg = some w →
        getT { s with threads := ths } tid = some (laneAfter s pg G w x)) ∧
      ∀ u, u ∉ s.cur.tids → getT { s with threads := ths } u = getT s u := by
  obtain ⟨ths, h1, h2, h3⟩ := perLane_sending (f := f) G W (fun _ _ _ => []) (fun _ _ => 0) hn hx hG (fun ths lds n tid x w h1 h2 h3 h4 _ => by
    rw [hf ths lds n tid x w h1 h2 h3 h4, List.append_nil, Nat.add_zero]
    rfl)
  refine ⟨ths, ?_, h2, h3⟩
  rw [h1, sent_none, List.append_nil]
  rfl

end Sys2Proof.Machine
end

