-- ==== Sys2Proof/Laws/Registers.lean ====
section
/-! SUPPORT. Sparse lists, registers and predicates: what a read finds after each kind of write. -/

namespace Sys2Proof.Machine

/-! ## Lists keyed by a number -/

theorem kfind_kset {α : Type} (k : Nat) (x : α) : ∀ l : List (Nat × α), kfind k (kset k x l) = some x
  | [] => by simp [kset, kfind]
  | (j, y) :: r => by
    unfold kset
    split
    · simp [kfind]
    · split
      · simp [kfind]
      · rename_i h1 h2
        simp only [kfind, if_neg (Ne.symm h2)]
        exact kfind_kset k x r

theorem kfind_kset_ne {α : Type} {k n : Nat} (x : α) (h : n ≠ k) : ∀ l : List (Nat × α), kfind n (kset k x l) = kfind n l
  | [] => by simp [kset, kfind, Ne.symm h]
  | (j, y) :: r => by
    unfold kset
    split
    · simp [kfind, Ne.symm h]
    · split
      · rename_i h1 h2
        subst h2
        simp [kfind, Ne.symm h]
      · simp only [kfind, kfind_kset_ne x h r]

theorem kfind_kdel {α : Type} (k : Nat) : ∀ l : List (Nat × α), kfind k (kdel k l) = none
  | [] => rfl
  | (j, y) :: r => by
    by_cases h : j = k
    · simpa [kdel, h] using kfind_kdel k r
    · have h' : (j != k) = true := by simpa using h
      simp only [kdel, List.filter_cons, h', if_true, kfind, if_neg h]
      exact kfind_kdel k r

theorem kfind_kdel_ne {α : Type} {k n : Nat} (h : n ≠ k) : ∀ l : List (Nat × α), kfind n (kdel k l) = kfind n l
  | [] => rfl
  | (j, y) :: r => by
    by_cases hj : j = k
    · subst hj
      have : kdel j ((j, y) :: r) = kdel j r := by simp [kdel]
      rw [this, kfind_kdel_ne h r, kfind, if_neg (Ne.symm h)]
    · have h' : (j != k) = true := by simpa using hj
      simp only [kdel, List.filter_cons, h', if_true, kfind]
      split
      · rfl
      · exact kfind_kdel_ne h r

@[simp] theorem kget_kset {α : Type} (d x : α) (k : Nat) (l : List (Nat × α)) : kget d k (kset k x l) = x := by
  simp [kget, kfind_kset]
theorem kget_kset_ne {α : Type} {k n : Nat} (d x : α) (h : n ≠ k) (l : List (Nat × α)) : kget d n (kset k x l) = kget d n l := by
  simp [kget, kfind_kset_ne x h]
@[simp] theorem kget_kdel {α : Type} (d : α) (k : Nat) (l : List (Nat × α)) : kget d k (kdel k l) = d := by
  simp [kget, kfind_kdel]
theorem kget_kdel_ne {α : Type} {k n : Nat} (d : α) (h : n ≠ k) (l : List (Nat × α)) : kget d n (kdel k l) = kget d n l := by
  simp [kget, kfind_kdel_ne h]

/-! ## A register of either file -/

/-- Register `n` of the o file or of the v file. -/
def regOf (t : Thread) (r : Bool × Nat) : Reg := if r.1 then oReg t r.2 else vReg t r.2

theorem regOf_setV (t : Thread) (n : Nat) (x : Reg) (r : Bool × Nat) : regOf (setV t n x) r = if r = (false, n) then x else regOf t r := by
  obtain ⟨b, k⟩ := r
  cases b
  · by_cases h : k = n
    · subst h; simp [regOf, setV, vReg]
    · simp [regOf, setV, vReg, h, kget_kset_ne]
  · simp [regOf, setV, oReg]

theorem regOf_setO (t : Thread) (n : Nat) (x : Reg) (r : Bool × Nat) : regOf (setO t n x) r = if r = (true, n) then x else regOf t r := by
  obtain ⟨b, k⟩ := r
  cases b
  · simp [regOf, setO, vReg]
  · by_cases h : k = n
    · subst h; simp [regOf, setO, oReg]
    · simp [regOf, setO, oReg, h, kget_kset_ne]

theorem regOf_killReg (t : Thread) (m r : Bool × Nat) : regOf (killReg t m) r = if r = m then regDead else regOf t r := by
  obtain ⟨b, k⟩ := r
  obtain ⟨c, j⟩ := m
  cases b <;> cases c
  · by_cases h : k = j
    · subst h; simp [regOf, killReg, vReg]
    · simp [regOf, killReg, vReg, h, kget_kdel_ne]
  · simp [regOf, killReg, vReg]
  · simp [regOf, killReg, oReg]
  · by_cases h : k = j
    · subst h; simp [regOf, killReg, oReg]
    · simp [regOf, killReg, oReg, h, kget_kdel_ne]

theorem regOf_kill (l : List (Bool × Nat)) (t : Thread) (r : Bool × Nat) :
    regOf (l.foldl killReg t) r = if l.contains r then regDead else regOf t r := by
  induction l generalizing t with
  | nil => simp
  | cons m l ih =>
    rw [List.foldl_cons, ih, regOf_killReg]
    by_cases h : r ∈ l
    · simp [h]
    · by_cases h2 : r = m <;> simp [h, h2]

/-- A thread whose registers are another's. -/
theorem regOf_congr {a b : Thread} (hv : a.v = b.v) (ho : a.o = b.o) (r : Bool × Nat) : regOf a r = regOf b r := by
  simp [regOf, vReg, oReg, hv, ho]

theorem popQueues_v (t : Thread) (l : List Nat) : (popQueues t l).v = t.v := by
  unfold popQueues
  induction l generalizing t with
  | nil => rfl
  | cons a l ih => rw [List.foldl_cons, ih]

theorem popQueues_o (t : Thread) (l : List Nat) : (popQueues t l).o = t.o := by
  unfold popQueues
  induction l generalizing t with
  | nil => rfl
  | cons a l ih => rw [List.foldl_cons, ih]

theorem joinTokens_v (t : Thread) (l : List Nat) : (joinTokens t l).v = t.v := by unfold joinTokens; split <;> rfl
theorem joinTokens_o (t : Thread) (l : List Nat) : (joinTokens t l).o = t.o := by unfold joinTokens; split <;> rfl

/-- The sources of a word, taken: its marks apply (R168). -/
theorem regOf_takeSources (t : Thread) (l : List SrcSpec) (pops : List Nat) (r : Bool × Nat) :
    regOf (takeSources t l pops) r = if (markedRegs l).contains r then regDead else regOf t r := by
  unfold takeSources
  rw [regOf_kill]
  split
  · rfl
  · exact regOf_congr (by rw [popQueues_v, joinTokens_v]) (by rw [popQueues_o, joinTokens_o]) r

/-- A run of writes of consecutive registers of one file. -/
theorem regOf_run (isO : Bool) (set : Thread → Nat → Reg → Thread)
    (hs : ∀ t n x r, regOf (set t n x) r = if r = (isO, n) then x else regOf t r) (m : Nat) (f : Nat → Reg) (k : Nat) (t : Thread) (r : Bool × Nat) :
    regOf ((List.range k).foldl (fun t i => set t (m + i) (f i)) t) r
      = if r.1 = isO ∧ m ≤ r.2 ∧ r.2 < m + k then f (r.2 - m) else regOf t r := by
  induction k with
  | zero => exact (if_neg fun h => absurd h.2.2 (by omega)).symm
  | succ k ih =>
    rw [List.range_succ, List.foldl_append, List.foldl_cons, List.foldl_nil, hs, ih]
    obtain ⟨b, n⟩ := r
    by_cases h1 : b = isO
    · subst h1
      by_cases h2 : n = m + k
      · subst h2; simp
      · have : (n = m + k) = False := by simpa using h2
        simp only [Prod.mk.injEq, true_and, this, if_false]
        by_cases h3 : m ≤ n ∧ n < m + k
        · rw [if_pos h3, if_pos ⟨h3.1, by omega⟩]
        · rw [if_neg h3, if_neg (by omega)]
    · simp [h1]

theorem regOf_writeDst (t : Thread) (d : Dst) (ws : List W32) (p : List Bool) (sh : List (List W32)) (r : Bool × Nat) :
    regOf (writeDst t d ws p sh) r = match dstWord d r.1 ws.length r.2 with
      | some i => ⟨if p.getD i false then .poison else .full, ws.getD i 0, shOf sh i⟩
      | none => regOf t r := by
  obtain ⟨b, n⟩ := r
  unfold writeDst
  cases d with
  | v m =>
    dsimp only
    rw [regOf_run false setV regOf_setV]
    cases b <;> simp only [dstWord]
    · by_cases h : m.toNat ≤ n ∧ n < m.toNat + ws.length
      · simp [h]
      · simp [h]
    · simp
  | o m =>
    dsimp only
    rw [regOf_run true setO regOf_setO]
    cases b <;> simp only [dstWord]
    · simp
    · by_cases h : m.toNat ≤ n ∧ n < m.toNat + ws.length
      · simp [h]
      · simp [h]
  | g m => cases b <;> rfl
  | lr => cases b <;> rfl
  | zero => cases b <;> rfl

theorem regOf_pendDst (t : Thread) (d : Dst) (k : Nat) (r : Bool × Nat) :
    regOf (pendDst t d k) r = match dstWord d r.1 k r.2 with
      | some _ => ⟨.pending, 0, []⟩
      | none => regOf t r := by
  obtain ⟨b, n⟩ := r
  unfold pendDst
  cases d with
  | v m =>
    dsimp only
    rw [regOf_run false setV regOf_setV m.toNat (fun _ => ⟨.pending, 0, []⟩)]
    cases b <;> simp only [dstWord]
    · by_cases h : m.toNat ≤ n ∧ n < m.toNat + k
      · simp [h]
      · simp [h]
    · simp
  | o m =>
    dsimp only
    rw [regOf_run true setO regOf_setO m.toNat (fun _ => ⟨.pending, 0, []⟩)]
    cases b <;> simp only [dstWord]
    · simp
    · by_cases h : m.toNat ≤ n ∧ n < m.toNat + k
      · simp [h]
      · simp [h]
  | g m => cases b <;> rfl
  | lr => cases b <;> rfl
  | zero => cases b <;> rfl

/-! ## Predicates and queues -/

theorem setPred_v (t : Thread) (n : Nat) (b : Bool) : (setPred t n b).v = t.v := by unfold setPred; split <;> rfl
theorem setPred_o (t : Thread) (n : Nat) (b : Bool) : (setPred t n b).o = t.o := by unfold setPred; split <;> rfl

theorem predBit_setPred (t : Thread) (k : Nat) (b : Bool) (n : Nat) (hn : n < 8) :
    predBit (setPred t k b) n = if n = 7 then true else if n = k then b else predBit t n := by
  unfold setPred predBit
  by_cases h7 : n = 7
  · simp [h7]
  · simp only [h7, if_false]
    by_cases hk : k < 7
    · simp only [hk, if_true]
      have hn7 : n < 7 := by omega
      rw [BitVec.getLsbD_or, BitVec.getLsbD_and, BitVec.getLsbD_not, BitVec.getLsbD_shiftLeft, BitVec.getLsbD_shiftLeft]
      by_cases h : n = k
      · subst h
        cases b
        · simp [hn7]
        · rw [Nat.sub_self]; simp [hn7]
      · by_cases h3 : n < k
        · simp [h3, hn7, h]
        · have h4 : k < n := by omega
          have e2 : (BitVec.ofNat 7 b.toNat).getLsbD (n - k) = false := by
            have : n - k ≠ 0 := by omega
            cases b
            · simp
            · simp [BitVec.getLsbD_one, this]
          have h5 : n - k ≠ 0 := by omega
          simp [h3, hn7, h, h5, e2]
    · have : n ≠ k := by omega
      simp [hk, this]

theorem predBit_setPreds (ps : List (Nat × Bool)) (t : Thread) (n : Nat) (hn : n < 8) :
    predBit (ps.foldl (fun t p => setPred t p.1 p.2) t) n = predAfter ps n (predBit t n) := by
  induction ps generalizing t with
  | nil =>
    simp only [List.foldl_nil, predAfter, List.reverse_nil, List.find?_nil, Option.map_none, Option.getD_none]
    split
    · rfl
    · have : n = 7 := by omega
      simp [this, predBit]
  | cons p ps ih =>
    rw [List.foldl_cons, ih, predBit_setPred _ _ _ _ hn]
    unfold predAfter
    by_cases h7 : n < 7
    · have : n ≠ 7 := by omega
      simp only [h7, if_true, this, if_false, List.reverse_cons, List.find?_append]
      cases h : ps.reverse.find? fun q => q.1 == n with
      | some q => simp
      | none =>
        simp only [Option.map_none, Option.getD_none, Option.none_or]
        by_cases hk : n = p.1
        · subst hk; simp
        · have : (p.1 == n) = false := by simpa using fun e => hk e.symm
          simp [this, hk]
    · simp [h7]

theorem preds_v (ps : List (Nat × Bool)) (t : Thread) : (ps.foldl (fun t p => setPred t p.1 p.2) t).v = t.v := by
  induction ps generalizing t with
  | nil => rfl
  | cons p ps ih => rw [List.foldl_cons, ih, setPred_v]
theorem preds_o (ps : List (Nat × Bool)) (t : Thread) : (ps.foldl (fun t p => setPred t p.1 p.2) t).o = t.o := by
  induction ps generalizing t with
  | nil => rfl
  | cons p ps ih => rw [List.foldl_cons, ih, setPred_o]

theorem popQueues_q (t : Thread) (l : List Nat) (n : Nat) : kget [] n (popQueues t l).q = (kget [] n t.q).drop (l.count n) := by
  unfold popQueues
  induction l generalizing t with
  | nil => simp
  | cons a l ih =>
    rw [List.foldl_cons, ih, List.count_cons]
    by_cases h : n = a
    · subst h
      simp
    · have : (a == n) = false := by simpa using fun e => h e.symm
      simp [kget_kset_ne _ _ h, this]

theorem killReg_q (t : Thread) (r : Bool × Nat) : (killReg t r).q = t.q := by unfold killReg; split <;> rfl
theorem killReg_p (t : Thread) (r : Bool × Nat) : (killReg t r).p = t.p := by unfold killReg; split <;> rfl

theorem kill_q (l : List (Bool × Nat)) (t : Thread) : (l.foldl killReg t).q = t.q := by
  induction l generalizing t with
  | nil => rfl
  | cons a l ih => rw [List.foldl_cons, ih, killReg_q]

theorem joinTokens_q (t : Thread) (l : List Nat) : (joinTokens t l).q = t.q := by unfold joinTokens; split <;> rfl

theorem takeSources_q (t : Thread) (l : List SrcSpec) (pops : List Nat) (n : Nat) :
    kget [] n (takeSources t l pops).q = (kget [] n t.q).drop (pops.count n) := by
  unfold takeSources
  rw [kill_q, popQueues_q, joinTokens_q]

/-! ## What a step of a thread may change -/

theorem Keeps.refl (x : Thread) : Keeps x x := rfl

theorem Keeps.trans {x y z : Thread} (h : Keeps x y) (k : Keeps y z) : Keeps x z := by
  unfold Keeps at *
  cases x; cases y; cases z
  simp only [Thread.mk.injEq] at *
  simp_all

theorem keeps_foldl {α : Type} (f : Thread → α → Thread) (hf : ∀ t a, Keeps t (f t a)) : ∀ (l : List α) (t : Thread), Keeps t (l.foldl f t)
  | [], t => Keeps.refl t
  | a :: l, t => (hf t a).trans (keeps_foldl f hf l (f t a))

theorem keeps_killReg (t : Thread) (r : Bool × Nat) : Keeps t (killReg t r) := by unfold killReg; split <;> rfl
theorem keeps_setPred (t : Thread) (n : Nat) (b : Bool) : Keeps t (setPred t n b) := by unfold setPred; split <;> rfl
theorem keeps_joinTokens (t : Thread) (l : List Nat) : Keeps t (joinTokens t l) := by unfold joinTokens; split <;> rfl
theorem keeps_popQueues (t : Thread) (l : List Nat) : Keeps t (popQueues t l) := by
  refine keeps_foldl _ (fun t a => ?_) l t
  rfl

theorem keeps_takeSources (t : Thread) (l : List SrcSpec) (pops : List Nat) : Keeps t (takeSources t l pops) :=
  ((keeps_joinTokens t _).trans (keeps_popQueues _ _)).trans (keeps_foldl _ keeps_killReg _ _)

theorem keeps_writeDst (t : Thread) (d : Dst) (ws : List W32) (p : List Bool) (sh : List (List W32)) : Keeps t (writeDst t d ws p sh) := by
  unfold writeDst
  dsimp only
  split
  · refine keeps_foldl _ (fun t a => ?_) _ _
    rfl
  · refine keeps_foldl _ (fun t a => ?_) _ _
    rfl
  · rfl

theorem keeps_pendDst (t : Thread) (d : Dst) (k : Nat) : Keeps t (pendDst t d k) := by
  unfold pendDst
  split
  · refine keeps_foldl _ (fun t a => ?_) _ _
    rfl
  · refine keeps_foldl _ (fun t a => ?_) _ _
    rfl
  · rfl

theorem keeps_advance (g : Group) (n : Nat) (t : Thread) : Keeps t (advance g n t) := rfl

theorem disturb_none {w : Workgroup} {t : Thread} (ws : List W32) (b : Bool) (ha : t.armed = none) (hw : w.role = .single) :
    disturb w t ws b = (ws, t) := by
  unfold disturb
  simp [ha, hw]

theorem takeSources_armed (t : Thread) (l : List SrcSpec) (pops : List Nat) : (takeSources t l pops).armed = t.armed := by
  have := keeps_takeSources t l pops
  unfold Keeps at this
  rw [this]

/-- The fields that the writing of a destination and of predicates leaves alone. -/
structure SameRest (a b : Thread) : Prop where
  lr : b.lr = a.lr
  lrPoison : b.lrPoison = a.lrPoison
  fstat : b.fstat = a.fstat
  rng : b.rng = a.rng
  tanrng : b.tanrng = a.tanrng
  q : b.q = a.q

theorem SameRest.refl (a : Thread) : SameRest a a := ⟨rfl, rfl, rfl, rfl, rfl, rfl⟩
theorem SameRest.trans {a b c : Thread} (h : SameRest a b) (k : SameRest b c) : SameRest a c :=
  ⟨k.lr.trans h.lr, k.lrPoison.trans h.lrPoison, k.fstat.trans h.fstat, k.rng.trans h.rng, k.tanrng.trans h.tanrng, k.q.trans h.q⟩

theorem rest_foldl {α : Type} (f : Thread → α → Thread) (hf : ∀ t a, SameRest t (f t a)) : ∀ (l : List α) (t : Thread), SameRest t (l.foldl f t)
  | [], t => SameRest.refl t
  | a :: l, t => (hf t a).trans (rest_foldl f hf l (f t a))

theorem rest_writeDst (t : Thread) (d : Dst) (ws : List W32) (p : List Bool) (sh : List (List W32)) : SameRest t (writeDst t d ws p sh) := by
  unfold writeDst
  dsimp only
  split
  · refine rest_foldl _ (fun t a => ?_) _ _
    exact ⟨rfl, rfl, rfl, rfl, rfl, rfl⟩
  · refine rest_foldl _ (fun t a => ?_) _ _
    exact ⟨rfl, rfl, rfl, rfl, rfl, rfl⟩
  · exact SameRest.refl _

theorem rest_pendDst (t : Thread) (d : Dst) (k : Nat) : SameRest t (pendDst t d k) := by
  unfold pendDst
  split
  · refine rest_foldl _ (fun t a => ?_) _ _
    exact ⟨rfl, rfl, rfl, rfl, rfl, rfl⟩
  · refine rest_foldl _ (fun t a => ?_) _ _
    exact ⟨rfl, rfl, rfl, rfl, rfl, rfl⟩
  · exact SameRest.refl _

theorem rest_setPreds (ps : List (Nat × Bool)) (t : Thread) : SameRest t (ps.foldl (fun t p => setPred t p.1 p.2) t) :=
  rest_foldl _ (fun t p => by unfold setPred; split <;> exact ⟨rfl, rfl, rfl, rfl, rfl, rfl⟩) ps t

theorem writeDst_p (t : Thread) (d : Dst) (ws : List W32) (p : List Bool) (sh : List (List W32)) : (writeDst t d ws p sh).p = t.p := by
  have : ∀ (f : Thread → Nat → Thread), (∀ t i, (f t i).p = t.p) → ∀ (l : List Nat) (t : Thread), (l.foldl f t).p = t.p := by
    intro f hf l
    induction l with
    | nil => exact fun _ => rfl
    | cons a l ih => exact fun t => (ih _).trans (hf t a)
  unfold writeDst
  dsimp only
  split
  · refine this _ (fun t a => ?_) _ _
    rfl
  · refine this _ (fun t a => ?_) _ _
    rfl
  · rfl

theorem pendDst_p (t : Thread) (d : Dst) (k : Nat) : (pendDst t d k).p = t.p := by
  have : ∀ (f : Thread → Nat → Thread), (∀ t i, (f t i).p = t.p) → ∀ (l : List Nat) (t : Thread), (l.foldl f t).p = t.p := by
    intro f hf l
    induction l with
    | nil => exact fun _ => rfl
    | cons a l ih => exact fun t => (ih _).trans (hf t a)
  unfold pendDst
  split
  · refine this _ (fun t a => ?_) _ _
    rfl
  · refine this _ (fun t a => ?_) _ _
    rfl
  · rfl

theorem kill_p (l : List (Bool × Nat)) (t : Thread) : (l.foldl killReg t).p = t.p := by
  induction l generalizing t with
  | nil => rfl
  | cons a l ih => rw [List.foldl_cons, ih, killReg_p]

theorem popQueues_p (t : Thread) (l : List Nat) : (popQueues t l).p = t.p := by
  unfold popQueues
  induction l generalizing t with
  | nil => rfl
  | cons a l ih => rw [List.foldl_cons, ih]

theorem takeSources_p (t : Thread) (l : List SrcSpec) (pops : List Nat) : (takeSources t l pops).p = t.p := by
  unfold takeSources
  rw [kill_p, popQueues_p]
  unfold joinTokens; split <;> rfl

/-- What the taking of sources leaves alone. -/
theorem rest_takeSources (t : Thread) (l : List SrcSpec) (pops : List Nat) :
    (takeSources t l pops).lr = t.lr ∧ (takeSources t l pops).lrPoison = t.lrPoison ∧ (takeSources t l pops).fstat = t.fstat
      ∧ (takeSources t l pops).rng = t.rng ∧ (takeSources t l pops).tanrng = t.tanrng := by
  have key : ∀ (a b : Thread), SameRest a b → b.lr = a.lr ∧ b.lrPoison = a.lrPoison ∧ b.fstat = a.fstat ∧ b.rng = a.rng ∧ b.tanrng = a.tanrng :=
    fun a b h => ⟨h.lr, h.lrPoison, h.fstat, h.rng, h.tanrng⟩
  have h1 : ∀ (m : List (Bool × Nat)) (t : Thread), SameRest t (m.foldl killReg t) :=
    fun m t => rest_foldl _ (fun t r => by unfold killReg; split <;> exact ⟨rfl, rfl, rfl, rfl, rfl, rfl⟩) m t
  have h2 : ∀ (m : List Nat) (t : Thread), (popQueues t m).lr = t.lr ∧ (popQueues t m).lrPoison = t.lrPoison ∧ (popQueues t m).fstat = t.fstat
      ∧ (popQueues t m).rng = t.rng ∧ (popQueues t m).tanrng = t.tanrng := by
    intro m
    unfold popQueues
    induction m with
    | nil => exact fun t => ⟨rfl, rfl, rfl, rfl, rfl⟩
    | cons a m ih => exact fun t => ih _
  have h3 : (joinTokens t (namedTokens l)).lr = t.lr ∧ (joinTokens t (namedTokens l)).lrPoison = t.lrPoison ∧ (joinTokens t (namedTokens l)).fstat = t.fstat
      ∧ (joinTokens t (namedTokens l)).rng = t.rng ∧ (joinTokens t (namedTokens l)).tanrng = t.tanrng := by
    unfold joinTokens; split <;> exact ⟨rfl, rfl, rfl, rfl, rfl⟩
  obtain ⟨a1, a2, a3, a4, a5⟩ := key _ _ (h1 (markedRegs l) (popQueues (joinTokens t (namedTokens l)) pops))
  obtain ⟨b1, b2, b3, b4, b5⟩ := h2 pops (joinTokens t (namedTokens l))
  obtain ⟨c1, c2, c3, c4, c5⟩ := h3
  exact ⟨a1.trans (b1.trans c1), a2.trans (b2.trans c2), a3.trans (b3.trans c3), a4.trans (b4.trans c4), a5.trans (b5.trans c5)⟩

/-! ## The thread after an ALU word -/

theorem AluDone.of_aluThread {s : State} {w : Workgroup} {x : Thread} (l : List SrcSpec) (pops : List Nat) (d : Option Dst) (o : AluOut)
    (ha : x.armed = none) (hw : w.role = .single) :
    AluDone s l pops d o x (advance s.cur s.now (aluThread w x l pops d o).2) := by
  have hd : disturb w (takeSources x l pops) o.words d.isSome = (o.words, takeSources x l pops) :=
    disturb_none _ _ (by rw [takeSources_armed, ha]) hw
  obtain ⟨r1, r2, r3, r4, r5⟩ := rest_takeSources x l pops
  let t3 : Thread := match d with
    | none => takeSources x l pops
    | some d => writeLr (writeDst (takeSources x l pops) d o.words o.bad o.sh) o.words (o.bad.any id) o.sh
  let t4 := o.preds.foldl (fun t p => setPred t p.1 p.2) t3
  have e : (aluThread w x l pops d o).2
      = { t4 with fstat := t4.fstat ||| o.flags, rng := o.rng.getD t4.rng, tanrng := o.tanrng.getD t4.tanrng } := by
    unfold aluThread
    rw [hd]
    cases d <;> rfl
  have h4 := rest_setPreds o.preds t3
  have kp : Keeps t3 t4 := keeps_foldl _ (fun t p => keeps_setPred t p.1 p.2) o.preds t3
  have k3 : Keeps x t3 := by
    cases d with
    | none => exact keeps_takeSources x l pops
    | some d => exact ((keeps_takeSources x l pops).trans (keeps_writeDst _ d _ _ _)).trans rfl
  have regs : ∀ r : Bool × Nat, regOf t4 r = regAfter l d o r.1 r.2 (regOf x r) := by
    intro r
    have e1 : regOf t4 r = regOf t3 r := regOf_congr (preds_v _ _) (preds_o _ _) r
    rw [e1]
    unfold regAfter
    cases d with
    | none => exact regOf_takeSources x l pops r
    | some d =>
      have e2 : regOf t3 r = regOf (writeDst (takeSources x l pops) d o.words o.bad o.sh) r := regOf_congr rfl rfl r
      rw [e2, regOf_writeDst, Option.bind_some]
      cases dstWord d r.1 o.words.length r.2 with
      | some i => rfl
      | none => exact regOf_takeSources x l pops r
  have p3 : t3.p = x.p := by
    cases d with
    | none => exact takeSources_p x l pops
    | some d => exact (writeDst_p _ d _ _ _).trans (takeSources_p x l pops)
  rw [e]
  refine ⟨⟨rfl, rfl, rfl⟩, (k3.trans kp).trans rfl, fun n => regs (false, n), fun n => regs (true, n), ?_, ?_, ?_, ?_, ?_, ?_, ?_⟩
  · refine h4.lr.trans ?_
    cases d with
    | none => exact r1
    | some d => rfl
  · refine h4.lrPoison.trans ?_
    cases d with
    | none => exact r2
    | some d => rfl
  · intro n hn
    have := predBit_setPreds o.preds t3 n hn
    have e3 : predBit t3 n = predBit x n := by unfold predBit; rw [p3]
    rw [e3] at this
    exact this
  · intro n
    have : t4.q = (takeSources x l pops).q := by
      refine h4.q.trans ?_
      cases d with
      | none => rfl
      | some d => exact (rest_writeDst _ d _ _ _).q
    show kget [] n t4.q = _
    rw [this, takeSources_q]
  · have : t4.fstat = x.fstat := by
      refine h4.fstat.trans ?_
      cases d with
      | none => exact r3
      | some d => exact (rest_writeDst _ d _ _ _).fstat.trans r3
    show t4.fstat ||| o.flags = _
    rw [this]
  · have : t4.rng = x.rng := by
      refine h4.rng.trans ?_
      cases d with
      | none => exact r4
      | some d => exact (rest_writeDst _ d _ _ _).rng.trans r4
    show o.rng.getD t4.rng = _
    rw [this]
  · have : t4.tanrng = x.tanrng := by
      refine h4.tanrng.trans ?_
      cases d with
      | none => exact r5
      | some d => exact (rest_writeDst _ d _ _ _).tanrng.trans r5
    show o.tanrng.getD t4.tanrng = _
    rw [this]

theorem LateDone.of_lateThread {s : State} {w : Workgroup} {x : Thread} (l : List SrcSpec) (pops : List Nat) (d : Dst) (kd : Nat) (o : AluOut)
    (ha : x.armed = none) (hw : w.role = .single) :
    (lateThread w x l pops d kd o).1 = o.words ∧ LateDone s l pops d kd o x (advance s.cur s.now (lateThread w x l pops d kd o).2) := by
  have hk := (keeps_takeSources x l pops).trans (keeps_pendDst (takeSources x l pops) d kd)
  have ha' : (pendDst (takeSources x l pops) d kd).armed = none := by
    unfold Keeps at hk
    rw [hk]
    exact ha
  have hd := disturb_none (w := w) o.words true ha' hw
  obtain ⟨r1, r2, r3, r4, r5⟩ := rest_takeSources x l pops
  have h4 := rest_pendDst (takeSources x l pops) d kd
  have regs : ∀ r : Bool × Nat, regOf (pendDst (takeSources x l pops) d kd) r = regPending l d kd r.1 r.2 (regOf x r) := by
    intro r
    rw [regOf_pendDst]
    unfold regPending
    cases dstWord d r.1 kd r.2 with
    | some i => rfl
    | none => exact regOf_takeSources x l pops r
  unfold lateThread
  rw [hd]
  refine ⟨rfl, ⟨rfl, rfl, rfl⟩, hk.trans rfl, fun n => regs (false, n), fun n => regs (true, n), h4.lr.trans r1, h4.lrPoison.trans r2,
    (pendDst_p _ _ _).trans (takeSources_p _ _ _), ?_, ?_, ?_, ?_⟩
  · intro n
    have := takeSources_q x l pops n
    rw [← h4.q] at this
    exact this
  · show (pendDst (takeSources x l pops) d kd).fstat ||| o.flags = _
    rw [h4.fstat, r3]
  · show o.rng.getD (pendDst (takeSources x l pops) d kd).rng = _
    rw [h4.rng, r4]
  · show o.tanrng.getD (pendDst (takeSources x l pops) d kd).tanrng = _
    rw [h4.tanrng, r5]

end Sys2Proof.Machine
end

