-- ==== Sys2Proof/Laws/Words.lean ====
section
/-! SUPPORT. What the shared operations of the computing words do to the whole machine: one lemma for each, which says all of it. -/

namespace Sys2Proof.Machine

/-! ## Lists without repeats -/

theorem inj_of_nodup_map {α β : Type} {f : α → β} : ∀ {l : List α}, (l.map f).Nodup → ∀ {a b : α}, a ∈ l → b ∈ l → f a = f b → a = b
  | c :: l, h, a, b, ha, hb, hf => by
    rw [List.map_cons, List.nodup_cons] at h
    rcases List.mem_cons.mp ha with rfl | ha'
    · rcases List.mem_cons.mp hb with rfl | hb'
      · rfl
      · exact absurd (List.mem_map.mpr ⟨b, hb', hf.symm⟩) h.1
    · rcases List.mem_cons.mp hb with rfl | hb'
      · exact absurd (List.mem_map.mpr ⟨a, ha', hf⟩) h.1
      · exact inj_of_nodup_map h.2 ha' hb' hf

theorem nodup_of_map {α β : Type} {f : α → β} : ∀ {l : List α}, (l.map f).Nodup → l.Nodup
  | [], _ => List.nodup_nil
  | a :: l, h => by
    rw [List.map_cons, List.nodup_cons] at h
    exact List.nodup_cons.mpr ⟨fun ha => h.1 (List.mem_map_of_mem ha), nodup_of_map h.2⟩

theorem nodup_map_of_inj {α β : Type} {f : α → β} (hf : ∀ a b, f a = f b → a = b) : ∀ {l : List α}, l.Nodup → (l.map f).Nodup
  | [], _ => List.nodup_nil
  | a :: l, h => by
    obtain ⟨h1, h2⟩ := List.nodup_cons.mp h
    rw [List.map_cons, List.nodup_cons]
    refine ⟨fun ha => ?_, nodup_map_of_inj hf h2⟩
    obtain ⟨b, hb, he⟩ := List.mem_map.mp ha
    exact h1 (hf _ _ he ▸ hb)

theorem flatMap_eq_of_mem {α β : Type} {f g : α → List β} : ∀ {l : List α}, (∀ a ∈ l, f a = g a) → l.flatMap f = l.flatMap g
  | [], _ => rfl
  | a :: l, h => by
    rw [List.flatMap_cons, List.flatMap_cons, h a List.mem_cons_self, flatMap_eq_of_mem fun b hb => h b (List.mem_cons_of_mem _ hb)]

/-! ## Uniform registers -/

theorem find_modWarp {l : List Warp} {c k c' k' : Nat} {f : Warp → Warp} (hf : ∀ w, (f w).core = w.core ∧ (f w).slot = w.slot) :
    (updIf (fun w => w.core == c && w.slot == k) f l).find? (fun w => w.core == c' && w.slot == k')
      = (l.find? fun w => w.core == c' && w.slot == k').map fun w => if c' = c ∧ k' = k then f w else w := by
  induction l with
  | nil => rfl
  | cons y r ih =>
    simp only [updIf, List.map_cons, List.find?_cons] at ih ⊢
    by_cases h : y.core = c' ∧ y.slot = k'
    · obtain ⟨rfl, rfl⟩ := h
      by_cases h2 : y.core = c ∧ y.slot = k
      · obtain ⟨rfl, rfl⟩ := h2
        simp [hf y]
      · have : (y.core == c && y.slot == k) = false := by simpa using h2
        simp [this, h2]
    · have h1 : (y.core == c' && y.slot == k') = false := by simpa using h
      have h2 : ((if (y.core == c && y.slot == k) = true then f y else y).core == c' && (if (y.core == c && y.slot == k) = true then f y else y).slot == k') = false := by
        split
        · rw [(hf y).1, (hf y).2]; exact h1
        · exact h1
      rw [h1, h2]
      exact ih

theorem getWarp_modWarp (s : State) (c k c' k' : Nat) (f : Warp → Warp) (hf : ∀ w, (f w).core = w.core ∧ (f w).slot = w.slot) :
    getWarp (modWarp s c k f) c' k' = (getWarp s c' k').map fun w => if c' = c ∧ k' = k then f w else w := find_modWarp hf

/-- The writes of uniform registers, one by one (R170). -/
theorem applyG_uniform (s : State) (r : List Tid) (gw : List (Tid × GWrite)) (hn : (gw.map fun e => (e.1, e.2.n)).Nodup) :
    UniformDone s (applyG s r gw) r gw := by
  intro c k wp hw
  unfold applyG
  generalize hq : (fun (s : State) (e : Tid × GWrite) => _) = q
  have hm : originMask (gw.foldl q s) r c k = originMask s r c k := by
    have := applyG_frame s r gw
    unfold applyG at this
    rw [hq] at this
    unfold originMask
    rw [this]
  rw [hm]
  have inj : ∀ e ∈ gw, ∀ e' ∈ gw, e.1 = e'.1 → e.2.n = e'.2.n → e = e' := fun e he e' he' h1 h2 =>
    inj_of_nodup_map hn he he' (by rw [h1, h2])
  have key : ∀ (l : List (Tid × GWrite)) (a : State) (wa : Warp), (∀ e ∈ l, e ∈ gw) → l.Nodup → a.threads = s.threads → getWarp a c k = some wa →
      wa = { wp with g := wa.g, gsh := wa.gsh, origin := wa.origin } →
      ∃ w', getWarp (l.foldl q a) c k = some w' ∧ w' = { wp with g := w'.g, gsh := w'.gsh, origin := w'.origin } ∧
        ∀ n, (∃ e ∈ l, gFirst gw c k n = some e ∧ kget 0 n w'.g = e.2.val ∧ kget [] n w'.gsh = e.2.sh ∧ kget (~~~(0 : Word)) n w'.origin = originMask s r c k)
          ∨ ((∀ e ∈ l, gFirst gw c k n ≠ some e) ∧ kget 0 n w'.g = kget 0 n wa.g ∧ kget [] n w'.gsh = kget [] n wa.gsh
            ∧ kget (~~~(0 : Word)) n w'.origin = kget (~~~(0 : Word)) n wa.origin) := by
    intro l
    induction l with
    | nil => exact fun a wa _ _ _ h1 h2 => ⟨wa, h1, h2, fun n => .inr ⟨by simp, rfl, rfl, rfl⟩⟩
    | cons e l ih =>
      intro a wa hl hnd ht hwa hwp
      obtain ⟨hne, hnd'⟩ := List.nodup_cons.mp hnd
      have heg := hl e List.mem_cons_self
      by_cases hfirst : (gFirst gw e.1.core e.1.slot e.2.n).map (·.1) = some e.1
      · -- this write counts
        have hself : gFirst gw e.1.core e.1.slot e.2.n = some e := by
          cases hg : gFirst gw e.1.core e.1.slot e.2.n with
          | none => rw [hg] at hfirst; cases hfirst
          | some x =>
            rw [hg] at hfirst
            have h1 : x.1 = e.1 := Option.some.inj hfirst
            have h2 := List.find?_some hg
            simp only [Bool.and_eq_true, beq_iff_eq] at h2
            rw [inj x (List.mem_of_find?_eq_some hg) e heg h1 h2.2]
        have hqe : q a e = modWarp a e.1.core e.1.slot fun w =>
            { w with g := kset e.2.n e.2.val w.g, gsh := kset e.2.n e.2.sh w.gsh, origin := kset e.2.n (originMask s r e.1.core e.1.slot) w.origin } := by
          subst hq
          dsimp only
          have : ((gw.find? fun x => x.1.core == e.1.core && x.1.slot == e.1.slot && x.2.n == e.2.n).map (·.1) == some e.1) = true := by
            have h := hfirst
            unfold gFirst at h
            simp [h]
          rw [if_pos this]
          unfold originMask
          rw [ht]
        rw [List.foldl_cons]
        by_cases hck : c = e.1.core ∧ k = e.1.slot
        · obtain ⟨rfl, rfl⟩ := hck
          have hw1 : getWarp (q a e) e.1.core e.1.slot = some { wa with g := kset e.2.n e.2.val wa.g, gsh := kset e.2.n e.2.sh wa.gsh, origin := kset e.2.n (originMask s r e.1.core e.1.slot) wa.origin } := by
            rw [hqe, getWarp_modWarp]
            · rw [hwa]; simp
            · exact fun w => ⟨rfl, rfl⟩
          obtain ⟨w', r1, r2, r3⟩ := ih (q a e) _ (fun x hx => hl x (List.mem_cons_of_mem _ hx)) hnd' (by rw [hqe]; exact ht) hw1 (by rw [hwp])
          refine ⟨w', r1, r2, fun n => ?_⟩
          rcases r3 n with ⟨x, hx, hx1⟩ | ⟨h1, h2, h3, h4⟩
          · exact .inl ⟨x, List.mem_cons_of_mem _ hx, hx1⟩
          · by_cases hn' : n = e.2.n
            · subst hn'
              refine .inl ⟨e, List.mem_cons_self, hself, ?_, ?_, ?_⟩
              · rw [h2]; simp
              · rw [h3]; simp
              · rw [h4]; simp
            · refine .inr ⟨?_, ?_, ?_, ?_⟩
              · intro x hx hc
                rcases List.mem_cons.mp hx with rfl | hx
                · have h5 := List.find?_some hc
                  simp only [Bool.and_eq_true, beq_iff_eq] at h5
                  exact hn' h5.2.symm
                · exact h1 x hx hc
              · rw [h2]; exact kget_kset_ne _ _ hn' _
              · rw [h3]; exact kget_kset_ne _ _ hn' _
              · rw [h4]; exact kget_kset_ne _ _ hn' _
        · have hw1 : getWarp (q a e) c k = some wa := by
            rw [hqe, getWarp_modWarp]
            · rw [hwa]; simp [hck]
            · exact fun w => ⟨rfl, rfl⟩
          obtain ⟨w', r1, r2, r3⟩ := ih (q a e) wa (fun x hx => hl x (List.mem_cons_of_mem _ hx)) hnd' (by rw [hqe]; exact ht) hw1 hwp
          refine ⟨w', r1, r2, fun n => ?_⟩
          rcases r3 n with ⟨x, hx, hx1⟩ | ⟨h1, h2⟩
          · exact .inl ⟨x, List.mem_cons_of_mem _ hx, hx1⟩
          · refine .inr ⟨?_, h2⟩
            intro x hx hc
            rcases List.mem_cons.mp hx with rfl | hx
            · have h5 := List.find?_some hc
              simp only [Bool.and_eq_true, beq_iff_eq] at h5
              exact hck ⟨h5.1.1.symm, h5.1.2.symm⟩
            · exact h1 x hx hc
      · have hqe : q a e = a := by
          subst hq
          dsimp only
          have : ¬((gw.find? fun x => x.1.core == e.1.core && x.1.slot == e.1.slot && x.2.n == e.2.n).map (·.1) == some e.1) = true := by
            have h := hfirst
            unfold gFirst at h
            simp [h]
          rw [if_neg this]
        rw [List.foldl_cons, hqe]
        obtain ⟨w', r1, r2, r3⟩ := ih a wa (fun x hx => hl x (List.mem_cons_of_mem _ hx)) hnd' ht hwa hwp
        refine ⟨w', r1, r2, fun n => ?_⟩
        rcases r3 n with ⟨x, hx, hx1⟩ | ⟨h1, h2⟩
        · exact .inl ⟨x, List.mem_cons_of_mem _ hx, hx1⟩
        · refine .inr ⟨?_, h2⟩
          intro x hx hc
          rcases List.mem_cons.mp hx with rfl | hx
          · have h5 := List.find?_some hc
            simp only [Bool.and_eq_true, beq_iff_eq] at h5
            refine hfirst ?_
            have : gFirst gw x.1.core x.1.slot x.2.n = some x := by
              rw [h5.1.1, h5.1.2, h5.2]; exact hc
            rw [this]; rfl
          · exact h1 x hx hc
  obtain ⟨w', r1, r2, r3⟩ := key gw s wp (fun _ h => h) (nodup_of_map hn) rfl hw rfl
  refine ⟨w', r1, r2, fun n => ?_⟩
  rcases r3 n with ⟨e, _, h1, h2⟩ | ⟨h1, h2⟩
  · rw [h1]; exact h2
  · cases hg : gFirst gw c k n with
    | none => exact h2
    | some x => exact absurd hg (h1 x (List.mem_of_find?_eq_some hg))

theorem activeLanes_mem {s : State} {pg : Guard} {x : Thread} {w : Workgroup} (h : (x, w) ∈ activeLanes s pg) :
    x.tid ∈ s.cur.tids ∧ getT s x.tid = some x ∧ passes x pg = true ∧ getWg s x.wg = some w := by
  unfold activeLanes at h
  obtain ⟨tid, ht, h⟩ := List.mem_filterMap.mp h
  cases hg : getT s tid with
  | none => rw [hg] at h; cases h
  | some y =>
    rw [hg, Option.bind_some] at h
    by_cases hp : passes y pg = true
    · rw [if_pos hp] at h
      cases hw : getWg s y.wg with
      | none => rw [hw] at h; cases h
      | some v =>
        rw [hw] at h
        have e := Option.some.inj h
        have e1 : y = x := congrArg Prod.fst e
        have e2 : v = w := congrArg Prod.snd e
        subst e1; subst e2
        have := getT_tid hg
        subst this
        exact ⟨ht, hg, hp, hw⟩
    · rw [if_neg hp] at h; cases h

theorem activeLanes_nodup {s : State} {pg : Guard} (h : s.cur.tids.Nodup) : ((activeLanes s pg).map fun e => e.1.tid).Nodup := by
  unfold activeLanes
  generalize s.cur.tids = l at h
  induction l with
  | nil => simp
  | cons t l ih =>
    obtain ⟨h1, h2⟩ := List.nodup_cons.mp h
    rw [List.filterMap_cons]
    split
    · exact ih h2
    · rename_i e he
      rw [List.map_cons, List.nodup_cons]
      refine ⟨?_, ih h2⟩
      intro hm
      obtain ⟨e', he', hte⟩ := List.mem_map.mp hm
      obtain ⟨u, hu, hue⟩ := List.mem_filterMap.mp he'
      have hid : ∀ (u : Tid) (e : Thread × Workgroup), ((getT s u).bind fun t => if passes t pg = true then Option.map (fun w => (t, w)) (getWg s t.wg) else none) = some e → e.1.tid = u := by
        intro u e h
        cases hg : getT s u with
        | none => rw [hg] at h; cases h
        | some y =>
          rw [hg, Option.bind_some] at h
          split at h
          · cases hw : getWg s y.wg with
            | none => rw [hw] at h; cases h
            | some v =>
              rw [hw] at h
              have e1 : y = e.1 := congrArg Prod.fst (Option.some.inj h)
              rw [← e1]; exact getT_tid hg
          · cases h
      rw [hid u e' hue, hid t e he] at hte
      exact h1 (hte ▸ hu)

theorem gOf_nodup {s : State} {pg : Guard} (d : Option Dst) (out : Workgroup → Thread → AluOut) (h : s.cur.tids.Nodup) :
    ((gOf s pg d out).map fun e => (e.1, e.2.n)).Nodup := by
  have hact := activeLanes_nodup (pg := pg) h
  unfold gOf
  generalize activeLanes s pg = l at hact
  induction l with
  | nil => simp
  | cons e l ih =>
    rw [List.map_cons, List.nodup_cons] at hact
    rw [List.flatMap_cons, List.map_append, List.nodup_append]
    refine ⟨?_, ih hact.2, ?_⟩
    · rw [List.map_map]
      cases d with
      | none => simp
      | some d =>
        cases d with
        | g n =>
          simp only [gWrites, List.map_map]
          refine nodup_map_of_inj (fun i j hij => ?_) List.nodup_range
          simpa using hij
        | v n => simp [gWrites]
        | o n => simp [gWrites]
        | lr => simp [gWrites]
        | zero => simp [gWrites]
    · intro a ha b hb hab
      obtain ⟨x, hx, rfl⟩ := List.mem_map.mp ha
      obtain ⟨y, hy, rfl⟩ := List.mem_map.mp hb
      obtain ⟨x', _, rfl⟩ := List.mem_map.mp hx
      obtain ⟨e', he', hy⟩ := List.mem_flatMap.mp hy
      obtain ⟨y', _, rfl⟩ := List.mem_map.mp hy
      have : e.1.tid = e'.1.tid := congrArg Prod.fst hab
      exact hact.1 (List.mem_map.mpr ⟨e', he', this.symm⟩)

/-! ## Words that act lane by lane -/

/-- A word that in each sound lane does what an ALU word with result `f` does. -/
theorem word_done {s : State} {pg : Guard} {l : List SrcSpec} {d : Option Dst} {g : State → Workgroup → Thread → State × LaneRes}
    {f : State → Workgroup → Thread → List Opv → AluOut} (hs : Issuing s)
    (hg : ∀ ths lds n tid x w, Lane s tid x w → passes x pg = true →
      g (withLanes s ths lds n) w x = aluRetire (withLanes s ths lds n) w x l (readSrcs s w x l []).pops d (f s w x (readSrcs s w x l []).vals))
    (hp : ∀ tid x w, Lane s tid x w → passes x pg = true → w.Plain ∧ x.armed = none) :
    WordDone s (perLane s pg g) pg l d fun w x => f s w x (readSrcs s w x l []).vals := by
  have hx : ∀ tid ∈ s.cur.tids, ∃ x w, getT s tid = some x ∧ x.run = .ready ∧ getWg s x.wg = some w := fun tid h => by
    obtain ⟨x, w, hl⟩ := hs.lanes tid h
    exact ⟨x, w, hl.thread, hl.ready, hl.group⟩
  let out := fun (w : Workgroup) (x : Thread) => f s w x (readSrcs s w x l []).vals
  let G := fun (w : Workgroup) (x : Thread) => (aluThread w x l (readSrcs s w x l []).pops d (out w x)).2
  let W := fun (w : Workgroup) (x : Thread) => match d with
    | none => []
    | some d => gWrites d (aluThread w x l (readSrcs s w x l []).pops (some d) (out w x)).1 (out w x).sh
  obtain ⟨ths, h1, h2, h3⟩ := perLane_local (s := s) (pg := pg) (f := g) G W hs.distinct hx
    (fun w x => by
      have := same_aluThread w x l (readSrcs s w x l []).pops d (out w x)
      exact ⟨this.1, this.2.2.1⟩)
    (fun ths lds n tid x w hm ht hw hpass => by
      have hl : Lane s tid x w := ⟨hm, ht, by obtain ⟨y, v, hy⟩ := hs.lanes tid hm; have := hy.thread.symm.trans ht; rw [← Option.some.inj this]; exact hy.ready, hw⟩
      rw [hg ths lds n tid x w hl hpass]
      obtain ⟨pl, _⟩ := hp tid x w hl hpass
      have htid := getT_tid ht
      subst htid
      unfold aluRetire
      dsimp only
      rw [touchRegs_off _ _ pl.rollback pl.redund]
      cases d <;> rfl)
  have hW : ((activeLanes s pg).flatMap fun e => (W e.2 e.1).map fun y => (e.1.tid, y)) = gOf s pg d out := by
    unfold gOf
    refine flatMap_eq_of_mem fun e he => ?_
    obtain ⟨x, w⟩ := e
    obtain ⟨m1, m2, m3, m4⟩ := activeLanes_mem he
    have hl : Lane s x.tid x w := ⟨m1, m2, by obtain ⟨y, v, hy⟩ := hs.lanes _ m1; have := hy.thread.symm.trans m2; rw [← Option.some.inj this]; exact hy.ready, m4⟩
    obtain ⟨pl, ha⟩ := hp _ x w hl m3
    cases d with
    | none => rfl
    | some d =>
      have hd : disturb w (takeSources x l (readSrcs s w x l []).pops) (out w x).words true = ((out w x).words, takeSources x l (readSrcs s w x l []).pops) :=
        disturb_none _ _ (by rw [takeSources_armed, ha]) pl.single
      simp only [W, aluThread, Option.isSome_some]
      rw [hd]
  rw [hW] at h1
  rw [h1]
  have hfr := applyG_frame { s with threads := ths } (activeTids s pg) (gOf s pg d out)
  refine ⟨?_, ?_, ?_, ?_⟩
  · unfold activeTids at hfr
    rw [hfr]
  · intro tid x w hl
    refine ⟨laneAfter s pg G w x, ?_, ?_⟩
    · rw [getT_applyG]
      exact h2 tid hl.member x w hl.thread hl.group
    · by_cases hpass : passes x pg = true
      · obtain ⟨pl, ha⟩ := hp tid x w hl hpass
        rw [if_pos hpass]
        unfold laneAfter
        rw [if_pos hpass]
        exact AluDone.of_aluThread l _ d _ ha pl.single
      · rw [if_neg hpass]
        unfold laneAfter Skipped
        rw [if_neg hpass]
  · intro u hu
    rw [getT_applyG]
    exact h3 u hu
  · exact applyG_uniform { s with threads := ths } (activeTids s pg) (gOf s pg d out) (gOf_nodup d out hs.distinct)

/-- A late value on its way belongs to the interval in which its thread issued it (R138, R167). -/
theorem sendLate_eq (s : State) (t : Tid) (d : Dst) (kind : OutKind) (ws : List FillWord) :
    sendLate s t d kind ws = { s with ids := s.ids + 1, loads := s.loads ++
      [⟨s.ids + 1, t, kind, destOf d, ws, false, false, none, none, 0, false, intervalOf s t, none, none, none⟩] } := rfl

/-- Clean operands raise no cause of POISON (R133). -/
theorem aluEat_clean (f : List Opv → AluOut) {v : List Opv} (h : v.any (·.poison) = false) : aluEat f v = [] := by
  unfold aluEat; simp [h]

/-- An ALU word. -/
theorem aluWord_done {s : State} {pg : Guard} {l : List SrcSpec} {d : Option Dst} {kd : Nat} {f : State → Workgroup → Thread → List Opv → AluOut}
    (hs : Issuing s) (hf : ∀ ths lds n w x v, f (withLanes s ths lds n) w x v = f s w x v)
    (hp : ∀ tid x w, Lane s tid x w → passes x pg = true → Sound s w x l (dstOr d) kd ∧ Clean s w x l ∧ (f s w x (readSrcs s w x l []).vals).cause = none) :
    WordDone s (aluWord s pg l d kd f) pg l d fun w x => f s w x (readSrcs s w x l []).vals := by
  refine word_done hs (fun ths lds n tid x w hl hpass => ?_) (fun tid x w hl hpass => ?_)
  · obtain ⟨so, cl, hc⟩ := hp tid x w hl hpass
    have cl' : (readSrcs s w x l []).vals.any (·.poison) = false := cl
    rw [withSrcs_ok (by simpa using so.dual) (aluEat_clean _ (by simpa using cl')) (by simpa using so.causes) (by simpa using so.full) so.dst]
    simp only [readSrcs_withLanes, hf, hc]
  · obtain ⟨so, _⟩ := hp tid x w hl hpass
    exact ⟨so.plain, so.armed⟩

/-- An ALU word with causes of its own (R319, R322). -/
theorem aluWordPre_done {s : State} {pg : Guard} {l : List SrcSpec} {d : Dst} {kd : Nat} {pre : Thread → List Cause}
    {f : State → Workgroup → Thread → List Opv → AluOut}
    (hs : Issuing s) (hf : ∀ ths lds n w x v, f (withLanes s ths lds n) w x v = f s w x v)
    (hp : ∀ tid x w, Lane s tid x w → passes x pg = true →
      Sound s w x l d kd ∧ Clean s w x l ∧ pre x = [] ∧ (f s w x (readSrcs s w x l []).vals).cause = none) :
    WordDone s (aluWordPre s pg l d kd pre f) pg l (some d) fun w x => f s w x (readSrcs s w x l []).vals := by
  refine word_done hs (fun ths lds n tid x w hl hpass => ?_) (fun tid x w hl hpass => ?_)
  · obtain ⟨so, cl, hpre, hc⟩ := hp tid x w hl hpass
    have cl' : (readSrcs s w x l []).vals.any (·.poison) = false := cl
    rw [withSrcs_ok (by simpa using so.dual) (by rw [hpre, aluEat_clean _ (by simpa using cl')]; rfl) (by simpa using so.causes) (by simpa using so.full) so.dst]
    simp only [readSrcs_withLanes, hf, hc]
  · obtain ⟨so, _⟩ := hp tid x w hl hpass
    exact ⟨so.plain, so.armed⟩

/-- No lane offers POISON to a g register. -/
theorem gPoison_none {s : State} {pg : Guard} {l : List SrcSpec} {d : Dst} {extra : State → Workgroup → Thread → List Cause}
    (hs : Issuing s) (hp : ∀ tid x w, Lane s tid x w → passes x pg = true → (readSrcs s w x l []).vals.any (·.poison) = false) :
    gPoison s pg l d extra = none := by
  unfold gPoison
  split
  · dsimp only
    generalize hc : List.filterMap _ s.cur.tids = can
    cases can with
    | nil => rfl
    | cons e r =>
      have hm : e ∈ List.filterMap (fun tid => (getT s tid).bind fun t => (getWg s t.wg).bind fun w =>
          if t.run == .ready && passes t pg && (extra s w t ++ (readSrcs s w t l []).causes).isEmpty && !(readSrcs s w t l []).wait
          then some (tid, (readSrcs s w t l []).vals.any (·.poison)) else none) s.cur.tids := by
        rw [hc]; exact List.mem_cons_self
      obtain ⟨tid, ht, he⟩ := List.mem_filterMap.mp hm
      obtain ⟨x, w, hl⟩ := hs.lanes tid ht
      rw [hl.thread, Option.bind_some, hl.group, Option.bind_some] at he
      split at he
      · rename_i hcond
        simp only [Bool.and_eq_true] at hcond
        have := hp tid x w hl hcond.1.1.2
        rw [this] at he
        have : e.2 = false := by rw [← Option.some.inj he]
        simp [this]
      · cases he
  · rfl

/-- A word that propagates POISON: a lane whose operand is POISON gets a POISON result, unless the destination is a uniform register (R133, R163). -/
theorem aluProp_done {s : State} {pg : Guard} {l : List SrcSpec} {d : Dst} {kd : Nat} {f : State → Workgroup → Thread → List Opv → AluOut}
    (hs : Issuing s) (hf : ∀ ths lds n w x v, f (withLanes s ths lds n) w x v = f s w x v)
    (hd : (∀ n, d ≠ .g n) ∨ ∀ tid x w, Lane s tid x w → passes x pg = true → Clean s w x l)
    (hp : ∀ tid x w, Lane s tid x w → passes x pg = true → Sound s w x l d kd ∧ (f s w x (readSrcs s w x l []).vals).cause = none) :
    WordDone s (aluProp s pg l d kd f) pg l (some d) fun w x =>
      { f s w x (readSrcs s w x l []).vals with bad := (opv (readSrcs s w x l []).vals 0).bad } := by
  have hb : gPoison s pg l d (fun s w _ => dualCause s w) = none := by
    rcases hd with hd | hd
    · unfold gPoison
      split
      · exact absurd rfl (hd _)
      · rfl
    · exact gPoison_none hs fun tid x w hl hpass => hd tid x w hl hpass
  unfold aluProp
  rw [hb]
  refine word_done (f := fun s w x v => { f s w x v with bad := (opv v 0).bad }) hs
    (fun ths lds n tid x w hl hpass => ?_) (fun tid x w hl hpass => ?_)
  · obtain ⟨so, hc⟩ := hp tid x w hl hpass
    rw [withSrcs_ok (by simpa using so.dual) rfl (by simpa using so.causes) (by simpa using so.full) so.dst]
    simp only [readSrcs_withLanes, hf, hc]
    unfold propRetire
    simp only [reduceCtorEq, if_false, Option.isSome_none, Bool.false_eq_true]
  · obtain ⟨so, _⟩ := hp tid x w hl hpass
    exact ⟨so.plain, so.armed⟩

/-- A word whose result is late. -/
theorem aluLate_done {s : State} {pg : Guard} {l : List SrcSpec} {d : Dst} {kd : Nat} {f : State → Workgroup → Thread → List Opv → AluOut}
    (hs : Issuing s) (hf : ∀ ths lds n w x v, f (withLanes s ths lds n) w x v = f s w x v)
    (hp : ∀ tid x w, Lane s tid x w → passes x pg = true → Sound s w x l d kd ∧ Clean s w x l ∧ (f s w x (readSrcs s w x l []).vals).cause = none) :
    WordLate s (aluLate s pg l d kd f) pg l d kd fun w x => f s w x (readSrcs s w x l []).vals := by
  have hx : ∀ tid ∈ s.cur.tids, ∃ x w, getT s tid = some x ∧ x.run = .ready ∧ getWg s x.wg = some w := fun tid h => by
    obtain ⟨x, w, hl⟩ := hs.lanes tid h
    exact ⟨x, w, hl.thread, hl.ready, hl.group⟩
  let out := fun (w : Workgroup) (x : Thread) => f s w x (readSrcs s w x l []).vals
  let G := fun (w : Workgroup) (x : Thread) => (lateThread w x l (readSrcs s w x l []).pops d kd (out w x)).2
  let K := fun (n : Nat) (w : Workgroup) (x : Thread) => lateLoad s d kd n x
      { out w x with words := (lateThread w x l (readSrcs s w x l []).pops d kd (out w x)).1 }
  have lane : ∀ tid x w, tid ∈ s.cur.tids → getT s tid = some x → getWg s x.wg = some w → Lane s tid x w := fun tid x w hm ht hw =>
    ⟨hm, ht, by obtain ⟨y, v, hy⟩ := hs.lanes tid hm; have := hy.thread.symm.trans ht; rw [← Option.some.inj this]; exact hy.ready, hw⟩
  obtain ⟨ths, h1, h2, h3⟩ := perLane_sending (s := s) (pg := pg) (f := fun s w t =>
    withSrcs s w t l d kd (aluEat (f s w t)) fun vals pops =>
      let o := f s w t vals
      match o.cause with
      | some c => (s, .trap c)
      | none =>
        let r := lateThread w t l pops d kd o
        let s := touchRegs (modT s t.tid fun _ => r.2) w t.tid (markedRegs l ++ dstRegs d kd)
        (sendLate s t.tid d .unit_ ((List.range kd).map fun i => ⟨r.1.getD i 0, false, shOf o.sh i⟩), .retire []))
    G (fun _ _ => []) (fun n w x => [K (n + 1) w x]) (fun _ _ => 1) hs.distinct hx
    (fun w x => by
      have := same_lateThread w x l (readSrcs s w x l []).pops d kd (out w x)
      exact ⟨this.1, this.2.2.1⟩)
    (fun ths lds n tid x w hm ht hw hpass hg => by
      obtain ⟨so, cl, hc⟩ := hp tid x w (lane tid x w hm ht hw) hpass
      dsimp only
      have cl' : (readSrcs s w x l []).vals.any (·.poison) = false := cl
      rw [withSrcs_ok (by simpa using so.dual) (aluEat_clean _ (by simpa using cl')) (by simpa using so.causes) (by simpa using so.full) so.dst]
      simp only [readSrcs_withLanes, hf, hc]
      have htid := getT_tid ht
      subst htid
      rw [touchRegs_off _ _ so.plain.rollback so.plain.redund]
      have hi : intervalOf (modT (withLanes s ths lds n) x.tid fun _ => G w x) x.tid = intervalOf s x.tid := by
        have hG := same_lateThread w x l (readSrcs s w x l []).pops d kd (out w x)
        unfold intervalOf
        rw [getT_modT (fun _ _ => hG.1), hg, ht]
        simp only [Option.map_some, Option.bind_some]
        show ((getWg s (G w x).wg).map _).getD 0 = _
        rw [show (G w x).wg = x.wg from hG.2.1]
      refine Prod.ext ?_ rfl
      rw [sendLate_eq]
      refine Eq.trans ?_ (show { modT (withLanes s ths lds n) x.tid (fun _ => G w x) with ids := n + 1, loads := lds ++ [K (n + 1) w x] } = _ from rfl)
      have hi' : intervalOf (modT (withLanes s ths lds n) x.tid fun _ =>
          (lateThread w x l (readSrcs s w x l []).pops d kd (f s w x (readSrcs s w x l []).vals)).2) x.tid = intervalOf s x.tid := hi
      rw [hi']
      rfl)
  have h0 : aluLate s pg l d kd f = _ := h1
  rw [h0, sent_one]
  have hgw : ((activeLanes s pg).flatMap fun e => (([] : List GWrite)).map fun y => (e.1.tid, y)) = [] := by simp
  rw [hgw, applyG_nil]
  have hK : ∀ e ∈ activeLanes s pg, ∀ n, K n e.2 e.1 = lateLoad s d kd n e.1 (out e.2 e.1) := by
    intro e he n
    obtain ⟨x, w⟩ := e
    obtain ⟨m1, m2, m3, m4⟩ := activeLanes_mem he
    obtain ⟨so, _⟩ := hp _ x w (lane _ x w m1 m2 m4) m3
    have := (LateDone.of_lateThread (s := s) l (readSrcs s w x l []).pops d kd (out w x) so.armed so.plain.single).1
    simp only [K, lateLoad, this]
  refine ⟨rfl, rfl, ?_, ?_, fun u hu => h3 u hu⟩
  · show s.loads ++ _ = _
    congr 1
    apply List.ext_getElem
    · simp
    · intro i i1 i2
      simp only [List.getElem_mapIdx]
      exact hK _ (List.getElem_mem _) _
  · intro tid x w hl
    refine ⟨laneAfter s pg G w x, h2 tid hl.member x w hl.thread hl.group, ?_⟩
    by_cases hpass : passes x pg = true
    · obtain ⟨so, _⟩ := hp tid x w hl hpass
      rw [if_pos hpass]
      unfold laneAfter
      rw [if_pos hpass]
      exact (LateDone.of_lateThread l _ d kd _ so.armed so.plain.single).2
    · rw [if_neg hpass]
      unfold laneAfter Skipped
      rw [if_neg hpass]

/-! ## Results do not depend on other threads -/

@[simp] theorem dualComps_withLanes (s : State) (ths : List Thread) (lds : List OutLoad) (n : Nat) (w : Workgroup) (x : Thread) :
    dualComps (withLanes s ths lds n) w x = dualComps s w x := rfl

@[simp] theorem moveSh_withLanes (s : State) (ths : List Thread) (lds : List OutLoad) (n : Nat) (w : Workgroup) (x : Thread) (k : Nat) (v : Opv) :
    moveSh (withLanes s ths lds n) w x k v = moveSh s w x k v := rfl

@[simp] theorem floatLane_withLanes (h : FShape) (rnd : Rnd) (mods : List (Bool × Bool)) (o : FOp) (s : State) (ths : List Thread) (lds : List OutLoad)
    (n : Nat) (w : Workgroup) (x : Thread) (v : List Opv) :
    floatLane h rnd mods o (withLanes s ths lds n) w x v = floatLane h rnd mods o s w x v := by
  unfold floatLane
  simp only [dualComps_withLanes]

/-- A floating word whose result is written at once. -/
theorem floatWord_done {s : State} {pg : Guard} {d : Dst} {srcs : List Src} {h : FShape} {rnd : Rnd} {mods : List (Bool × Bool)} {o : FOp}
    (hs : Issuing s) (ha : (floatSpec pg d srcs h rnd mods o).sound s) :
    WordDone s (floatWord s pg d srcs h rnd mods o) pg (srcs.map (fSrc h)) (some d) ((floatSpec pg d srcs h rnd mods o).lane s) :=
  aluWord_done hs (fun _ _ _ _ _ _ => floatLane_withLanes ..) fun tid x w hl hp => ⟨(ha tid x w hl hp).1, (ha tid x w hl hp).2.1, (ha tid x w hl hp).2.2.2⟩

/-- A floating word whose destination goes PENDING. -/
theorem floatLate_done {s : State} {pg : Guard} {d : Dst} {srcs : List Src} {h : FShape} {rnd : Rnd} {mods : List (Bool × Bool)} {o : FOp}
    (hs : Issuing s) (ha : (floatSpec pg d srcs h rnd mods o).sound s) :
    WordLate s (floatLate s pg d srcs h rnd mods o) pg (srcs.map (fSrc h)) d (fWords h.fmt) ((floatSpec pg d srcs h rnd mods o).lane s) :=
  aluLate_done hs (fun _ _ _ _ _ _ => floatLane_withLanes ..) fun tid x w hl hp => ⟨(ha tid x w hl hp).1, (ha tid x w hl hp).2.1, (ha tid x w hl hp).2.2.2⟩

/-! ## Words over the active lanes together (R325) -/

/-- The lanes of the group that fail the guard pass the word. -/
theorem retireIdle_spec {s : State} (pg : Guard) (hs : Issuing s) :
    ∃ ths, retireIdle s pg = { s with threads := ths } ∧
      (∀ tid x w, Lane s tid x w → getT { s with threads := ths } tid = some (if passes x pg then x else advance s.cur s.now x)) ∧
      ∀ u, u ∉ s.cur.tids → getT { s with threads := ths } u = getT s u := by
  unfold retireIdle
  generalize hq : (fun (s : State) (tid : Tid) => _) = q
  have key : ∀ (l : List Tid) (ths : List Thread), l.Nodup → (∀ t ∈ l, t ∈ s.cur.tids) → (∀ t ∈ l, getT { s with threads := ths } t = getT s t) →
      ∃ ths', l.foldl q { s with threads := ths } = { s with threads := ths' } ∧
        (∀ t ∈ l, ∀ x w, Lane s t x w → getT { s with threads := ths' } t = some (if passes x pg then x else advance s.cur s.now x)) ∧
        ∀ u, u ∉ l → getT { s with threads := ths' } u = getT { s with threads := ths } u := by
    intro l
    induction l with
    | nil => exact fun ths _ _ _ => ⟨ths, rfl, by simp, fun _ _ => rfl⟩
    | cons t l ih =>
      intro ths hnd hl hg
      obtain ⟨hnt, hnd'⟩ := List.nodup_cons.mp hnd
      obtain ⟨x, w, hx⟩ := hs.lanes t (hl t List.mem_cons_self)
      have hat : getT { s with threads := ths } t = some x := (hg t List.mem_cons_self).trans hx.thread
      have hk : ∀ y : Thread, y.tid = t → (if (y.run == .killed) = true then y else advance s.cur s.now y).tid = t := by
        intro y hy; split <;> simp [hy]
      have step : ∃ ths1 : List Thread, q { s with threads := ths } t = { s with threads := ths1 } ∧
          getT { s with threads := ths1 } t = some (if passes x pg then x else advance s.cur s.now x) ∧
          ∀ u, u ≠ t → getT { s with threads := ths1 } u = getT { s with threads := ths } u := by
        subst hq
        dsimp only
        rw [hat]
        by_cases hp : passes x pg = true
        · exact ⟨ths, by simp [hp], by simpa [hp] using hat, fun _ _ => rfl⟩
        · refine ⟨(retire { s with threads := ths } t).threads, ?_, ?_, ?_⟩
          · simp only [hp]; rfl
          · have e : getT (retire { s with threads := ths } t) t = some (advance s.cur s.now x) := by
              unfold retire
              rw [getT_modT hk, hat, Option.map_some]
              have : (x.run == Run.killed) = false := by rw [hx.ready]; rfl
              simp [this]
            rw [if_neg hp]
            exact e
          · intro u hu
            have e : getT (retire { s with threads := ths } t) u = getT { s with threads := ths } u := by
              unfold retire
              rw [getT_modT_ne hk hu]
            exact e
      obtain ⟨ths1, s1, s2, s3⟩ := step
      obtain ⟨ths', r1, r2, r3⟩ := ih ths1 hnd' (fun u hu => hl u (List.mem_cons_of_mem _ hu)) (fun u hu => by
        have hne : u ≠ t := fun e => hnt (e ▸ hu)
        rw [s3 u hne]
        exact hg u (List.mem_cons_of_mem _ hu))
      refine ⟨ths', by rw [List.foldl_cons, s1, r1], ?_, ?_⟩
      · intro u hu y v hy
        rcases List.mem_cons.mp hu with rfl | hu'
        · rw [r3 u hnt, s2]
          have : y = x := by have := hx.thread.symm.trans hy.thread; exact (Option.some.inj this).symm
          rw [this]
        · exact r2 u hu' y v hy
      · intro u hu
        have hne : u ≠ t := fun e => hu (e ▸ List.mem_cons_self)
        rw [r3 u (fun h => hu (List.mem_cons_of_mem _ h)), s3 u hne]
  obtain ⟨ths, k1, k2, k3⟩ := key s.cur.tids s.threads hs.distinct (fun _ h => h) (fun _ _ => rfl)
  exact ⟨ths, k1, fun tid x w hl => k2 tid hl.member x w hl, k3⟩

theorem lane_of_active {s : State} {pg : Guard} {x : Thread} {w : Workgroup} (hs : Issuing s) (h : (x, w) ∈ activeLanes s pg) :
    Lane s x.tid x w ∧ passes x pg = true := by
  obtain ⟨m1, m2, m3, m4⟩ := activeLanes_mem h
  refine ⟨⟨m1, m2, ?_, m4⟩, m3⟩
  obtain ⟨y, v, hy⟩ := hs.lanes _ m1
  have := hy.thread.symm.trans m2
  rw [← Option.some.inj this]
  exact hy.ready

theorem active_of_lane {s : State} {pg : Guard} {tid : Tid} {x : Thread} {w : Workgroup} (hl : Lane s tid x w) (hp : passes x pg = true) :
    (x, w) ∈ activeLanes s pg := by
  unfold activeLanes
  refine List.mem_filterMap.mpr ⟨tid, hl.member, ?_⟩
  rw [hl.thread, Option.bind_some, if_pos hp, hl.group]
  rfl

/-- The results of the active lanes, written (R326). -/
theorem crossWrite_done {s : State} {pg : Guard} {l : List SrcSpec} {d : Option Dst} {F : XLane → AluOut} (hs : Issuing s)
    (hp : ∀ tid x w, Lane s tid x w → passes x pg = true → w.Plain ∧ x.armed = none) :
    WordDone s (crossWrite (retireIdle s pg) l d (xLanes s pg l) F) pg l d fun w x =>
      F ⟨x, w, (readSrcs s w x l []).vals, (readSrcs s w x l []).pops⟩ := by
  obtain ⟨ths0, i1, i2, i3⟩ := retireIdle_spec pg hs
  rw [i1]
  let out := fun (w : Workgroup) (x : Thread) => F ⟨x, w, (readSrcs s w x l []).vals, (readSrcs s w x l []).pops⟩
  have hnd := activeLanes_nodup (pg := pg) hs.distinct
  unfold crossWrite
  generalize hq : (fun (a : LaneAcc) (x : XLane) => _) = q
  have key : ∀ (m : List (Thread × Workgroup)) (a : LaneAcc) (ths : List Thread), (m.map fun e => e.1.tid).Nodup → (∀ e ∈ m, e ∈ activeLanes s pg) →
      a.s = { s with threads := ths } → (∀ e ∈ m, getT a.s e.1.tid = some e.1) →
      ∃ ths', ((m.map fun e => (⟨e.1, e.2, (readSrcs s e.2 e.1 l []).vals, (readSrcs s e.2 e.1 l []).pops⟩ : XLane)).foldl q a).s = { s with threads := ths' } ∧
        (∀ e ∈ m, ∃ y, getT { s with threads := ths' } e.1.tid = some y ∧ AluDone s l (readSrcs s e.2 e.1 l []).pops d (out e.2 e.1) e.1 y) ∧
        (∀ u, u ∉ (m.map fun e => e.1.tid) → getT { s with threads := ths' } u = getT { s with threads := ths } u) ∧
        ((m.map fun e => (⟨e.1, e.2, (readSrcs s e.2 e.1 l []).vals, (readSrcs s e.2 e.1 l []).pops⟩ : XLane)).foldl q a).retired = a.retired ++ m.map (fun e => e.1.tid) ∧
        ((m.map fun e => (⟨e.1, e.2, (readSrcs s e.2 e.1 l []).vals, (readSrcs s e.2 e.1 l []).pops⟩ : XLane)).foldl q a).gw
          = a.gw ++ m.flatMap fun e => (match d with
            | none => []
            | some d => gWrites d (out e.2 e.1).words (out e.2 e.1).sh).map fun y => (e.1.tid, y) := by
    intro m
    induction m with
    | nil => exact fun a ths _ _ ha _ => ⟨ths, ha, by simp, fun _ _ => rfl, by simp, by simp⟩
    | cons e m ih =>
      intro a ths hnd hm ha hg
      rw [List.map_cons, List.nodup_cons] at hnd
      obtain ⟨x, w⟩ := e
      obtain ⟨hl, hpass⟩ := lane_of_active hs (hm _ List.mem_cons_self)
      obtain ⟨pl, harm⟩ := hp _ x w hl hpass
      have hat : getT a.s x.tid = some x := hg _ List.mem_cons_self
      have hd : disturb w (takeSources x l (readSrcs s w x l []).pops) (out w x).words d.isSome
          = ((out w x).words, takeSources x l (readSrcs s w x l []).pops) := disturb_none _ _ (by rw [takeSources_armed, harm]) pl.single
      have htid : (aluThread w x l (readSrcs s w x l []).pops d (out w x)).2.tid = x.tid := (same_aluThread w x l _ d _).1
      have hrun : (aluThread w x l (readSrcs s w x l []).pops d (out w x)).2.run = x.run := (same_aluThread w x l _ d _).2.2.1
      have hres : aluRetire a.s w x l (readSrcs s w x l []).pops d (out w x)
          = (modT a.s x.tid (fun _ => (aluThread w x l (readSrcs s w x l []).pops d (out w x)).2), .retire (match d with
            | none => []
            | some d => gWrites d (out w x).words (out w x).sh)) := by
        unfold aluRetire
        dsimp only
        rw [touchRegs_off _ _ pl.rollback pl.redund]
        have : (aluThread w x l (readSrcs s w x l []).pops d (out w x)).1 = (out w x).words := by
          unfold aluThread
          rw [hd]
        rw [this]
        all_goals (cases d <;> rfl)
      have hqa : q a ⟨x, w, (readSrcs s w x l []).vals, (readSrcs s w x l []).pops⟩
          = { a with s := retire (modT a.s x.tid fun _ => (aluThread w x l (readSrcs s w x l []).pops d (out w x)).2) x.tid,
                     retired := a.retired ++ [x.tid],
                     gw := a.gw ++ (match d with
                       | none => []
                       | some d => gWrites d (out w x).words (out w x).sh).map fun y => (x.tid, y) } := by
        subst hq
        dsimp only
        rw [hat]
        dsimp only
        have := hres
        simp only [out] at this
        rw [this]
      have hk : ∀ (c : Group) (n : Nat) (y : Thread), y.tid = x.tid → (if (y.run == .killed) = true then y else advance c n y).tid = x.tid := by
        intro c n y hy; split <;> simp [hy]
      let ths1 := (retire (modT a.s x.tid fun _ => (aluThread w x l (readSrcs s w x l []).pops d (out w x)).2) x.tid).threads
      have s1 : (q a ⟨x, w, (readSrcs s w x l []).vals, (readSrcs s w x l []).pops⟩).s = { s with threads := ths1 } := by
        rw [hqa]
        simp only [ths1, ha]
        rfl
      have s2 : getT { s with threads := ths1 } x.tid = some (advance s.cur s.now (aluThread w x l (readSrcs s w x l []).pops d (out w x)).2) := by
        have e : getT (retire (modT a.s x.tid fun _ => (aluThread w x l (readSrcs s w x l []).pops d (out w x)).2) x.tid) x.tid
            = some (advance s.cur s.now (aluThread w x l (readSrcs s w x l []).pops d (out w x)).2) := by
          unfold retire
          rw [getT_modT (hk _ _), getT_modT (fun _ _ => htid), hat, Option.map_some, Option.map_some, modT_cur, modT_now, ha]
          have : ((aluThread w x l (readSrcs s w x l []).pops d (out w x)).2.run == Run.killed) = false := by rw [hrun, hl.ready]; rfl
          simp [this]
        exact e
      have s3 : ∀ u, u ≠ x.tid → getT { s with threads := ths1 } u = getT { s with threads := ths } u := by
        intro u hu
        have e : getT (retire (modT a.s x.tid fun _ => (aluThread w x l (readSrcs s w x l []).pops d (out w x)).2) x.tid) u = getT a.s u := by
          unfold retire
          rw [getT_modT_ne (hk _ _) hu, getT_modT_ne (fun _ _ => htid) hu]
        rw [ha] at e
        simp only [ths1, ha]
        exact e
      obtain ⟨ths', r1, r2, r3, r4, r5⟩ := ih (q a ⟨x, w, (readSrcs s w x l []).vals, (readSrcs s w x l []).pops⟩) ths1 hnd.2
        (fun e he => hm e (List.mem_cons_of_mem _ he)) s1 (fun e he => by
          have hne : e.1.tid ≠ x.tid := fun h => hnd.1 (List.mem_map.mpr ⟨e, he, h⟩)
          have := hg e (List.mem_cons_of_mem _ he)
          rw [ha] at this
          rw [s1]
          exact (s3 _ hne).trans this)
      refine ⟨ths', by rw [List.map_cons, List.foldl_cons]; exact r1, ?_, ?_, ?_, ?_⟩
      · intro e he
        rcases List.mem_cons.mp he with rfl | he'
        · refine ⟨_, (r3 x.tid hnd.1).trans s2, AluDone.of_aluThread l _ d _ harm pl.single⟩
        · exact r2 e he'
      · intro u hu
        rw [List.map_cons, List.mem_cons, not_or] at hu
        rw [r3 u hu.2, s3 u hu.1]
      · rw [List.map_cons, List.foldl_cons, r4, hqa]
        simp
      · rw [List.map_cons, List.foldl_cons, r5, hqa]
        simp [List.flatMap_cons]
  obtain ⟨ths, k1, k2, k3, k4, k5⟩ := key (activeLanes s pg) ⟨{ s with threads := ths0 }, [], [], [], [], [], []⟩ ths0 hnd (fun _ h => h) rfl
    (fun e he => by
      obtain ⟨x, w⟩ := e
      obtain ⟨hl, hpass⟩ := lane_of_active hs he
      have := i2 _ x w hl
      rw [if_pos hpass] at this
      exact this)
  unfold xLanes
  dsimp only
  rw [k1, k4, k5, List.nil_append, List.nil_append]
  have hfr := applyG_frame { s with threads := ths } (activeTids s pg) (gOf s pg d out)
  refine ⟨?_, ?_, ?_, ?_⟩
  · have : ∀ t : State, t = { ({ s with threads := ths } : State) with warps := t.warps } → t = { s with threads := t.threads, warps := t.warps } := by
      intro t ht
      rw [ht]
    exact this _ hfr
  · intro tid x w hl
    by_cases hpass : passes x pg = true
    · obtain ⟨y, y1, y2⟩ := k2 (x, w) (active_of_lane hl hpass)
      have := getT_tid hl.thread
      subst this
      exact ⟨y, (getT_applyG ..).trans y1, by rw [if_pos hpass]; exact y2⟩
    · refine ⟨advance s.cur s.now x, (getT_applyG ..).trans ?_, by rw [if_neg hpass]; rfl⟩
      rw [k3 tid ?_]
      · have := i2 tid x w hl
        rw [if_neg hpass] at this
        exact this
      · intro hm
        obtain ⟨e, he, hte⟩ := List.mem_map.mp hm
        obtain ⟨y, v⟩ := e
        obtain ⟨hl', hp'⟩ := lane_of_active hs he
        have h1 := hl'.thread
        rw [show y.tid = tid from hte, hl.thread] at h1
        rw [← Option.some.inj h1] at hp'
        exact hpass hp'
  · intro u hu
    refine (getT_applyG ..).trans ((k3 u ?_).trans (i3 u hu))
    intro hm
    obtain ⟨e, he, hte⟩ := List.mem_map.mp hm
    obtain ⟨y, v⟩ := e
    exact hu (hte ▸ (activeLanes_mem he).1)
  · exact applyG_uniform { s with threads := ths } (activeTids s pg) (gOf s pg d out) (gOf_nodup d out hs.distinct)

/-- A word over the active lanes goes on to act once every active lane is sound and none offers POISON that the word consumes (R325). -/
theorem crossLane_sound {s : State} {pg : Guard} {l : List SrcSpec} {d : Dst} {kd prop : Nat} {check : State → XLane → Option Cause}
    {act : State → List XLane → State} (hs : Issuing s) (hne : activeLanes s pg ≠ [])
    (hp : ∀ tid x w, Lane s tid x w → passes x pg = true →
      Sound s w x l d kd ∧ ((readSrcs s w x l []).vals.drop prop).any (·.poison) = false ∧
        check s ⟨x, w, (readSrcs s w x l []).vals, (readSrcs s w x l []).pops⟩ = none) :
    crossLane s pg l d kd prop check act = act (retireIdle s pg) (xLanes s pg l) := by
  have hl : ∀ e ∈ activeLanes s pg, Sound s e.2 e.1 l d kd ∧ ((readSrcs s e.2 e.1 l []).vals.drop prop).any (·.poison) = false ∧
        check s ⟨e.1, e.2, (readSrcs s e.2 e.1 l []).vals, (readSrcs s e.2 e.1 l []).pops⟩ = none := by
    intro e he
    obtain ⟨x, w⟩ := e
    obtain ⟨h1, h2⟩ := lane_of_active hs he
    exact hp _ x w h1 h2
  unfold crossLane
  have h0 : (activeLanes s pg).isEmpty = false := by simpa using hne
  simp only [h0, Bool.false_eq_true, if_false, List.filterMap_map, List.map_map]
  have h1 : List.filterMap ((fun e : Thread × Workgroup × SrcsRead × List Cause × Bool =>
      (lowest (if (dualCause s e.2.1 ++ e.2.2.1.causes ++ e.2.2.2.1).isEmpty = true then []
        else dualCause s e.2.1 ++ e.2.2.1.causes ++ e.2.2.2.1 ++ poisonCauses [] (e.2.2.1.vals.drop prop))).map fun c => (e.1.tid, c)) ∘
      fun e : Thread × Workgroup => (e.1, e.2, readSrcs s e.2 e.1 l [], dstCheck e.2 e.1 d kd)) (activeLanes s pg) = [] := by
    refine List.filterMap_eq_nil_iff.mpr fun e he => ?_
    obtain ⟨so, _⟩ := hl e he
    simp [so.dual, so.causes, so.dst, lowest, minBy]
  have h2 : ((activeLanes s pg).map fun e : Thread × Workgroup => (e.1, e.2, readSrcs s e.2 e.1 l [], dstCheck e.2 e.1 d kd)).any
      (fun e => e.2.2.1.wait || e.2.2.2.2) = false := by
    rw [List.any_eq_false]
    intro e he
    obtain ⟨e', he', rfl⟩ := List.mem_map.mp he
    obtain ⟨so, _⟩ := hl e' he'
    simp [so.full, so.dst]
  simp only [h1, List.isEmpty_nil, Bool.not_true, Bool.false_eq_true, if_false, h2]
  have h3 : (List.map ((fun e : Thread × Workgroup × SrcsRead × List Cause × Bool => (⟨e.1, e.2.1, e.2.2.1.vals, e.2.2.1.pops⟩ : XLane)) ∘
      fun e => (e.1, e.2, readSrcs s e.2 e.1 l [], dstCheck e.2 e.1 d kd)) (activeLanes s pg)) = xLanes s pg l := rfl
  rw [h3]
  have h5 : List.filterMap ((fun x : XLane => (lowest ((check s x).toList ++ poisonCauses [] (x.vals.drop prop))).map fun c => (x.t.tid, c)) ∘
      (fun e : Thread × Workgroup × SrcsRead × List Cause × Bool => (⟨e.1, e.2.1, e.2.2.1.vals, e.2.2.1.pops⟩ : XLane)) ∘
      fun e : Thread × Workgroup => (e.1, e.2, readSrcs s e.2 e.1 l [], dstCheck e.2 e.1 d kd)) (activeLanes s pg) = [] := by
    refine List.filterMap_eq_nil_iff.mpr fun e he => ?_
    have hq : poisonCauses [] ((readSrcs s e.2 e.1 l []).vals.drop prop) = [] := by unfold poisonCauses; simp only [List.any_nil, (hl e he).2.1]; rfl
    simp only [Function.comp, (hl e he).2.2, hq]
    rfl
  exact if_neg fun h => absurd (h.symm.trans (congrArg (fun r => !r.isEmpty) h5)) (by decide)

/-- A cross-lane word whose action writes its lanes' results. -/
theorem cross_done {s : State} {pg : Guard} {l : List SrcSpec} {d : Option Dst} {kd prop : Nat} {act : State → List XLane → State}
    {F : State → List XLane → XLane → AluOut} (hs : Issuing s) (hne : activeLanes s pg ≠ [])
    (hp : ∀ tid x w, Lane s tid x w → passes x pg = true →
      Sound s w x l (dstOr d) kd ∧ ((readSrcs s w x l []).vals.drop prop).any (·.poison) = false)
    (ha : ∀ ths, act { s with threads := ths } (xLanes s pg l) = crossWrite { s with threads := ths } l d (xLanes s pg l) (F s (xLanes s pg l))) :
    WordDone s (crossLane s pg l (dstOr d) kd prop (fun _ _ => none) act) pg l d fun w x =>
      F s (xLanes s pg l) ⟨x, w, (readSrcs s w x l []).vals, (readSrcs s w x l []).pops⟩ := by
  rw [crossLane_sound hs hne fun tid x w hl h => ⟨(hp tid x w hl h).1, (hp tid x w hl h).2, rfl⟩]
  obtain ⟨ths, h1, _⟩ := retireIdle_spec pg hs
  rw [h1, ha ths, ← h1]
  exact crossWrite_done hs fun tid x w hl h => ⟨(hp tid x w hl h).1.plain, (hp tid x w hl h).1.armed⟩

theorem xLanes_head {s : State} {pg : Guard} {l : List SrcSpec} {y : XLane} (h : (xLanes s pg l).head? = some y) : y ∈ xLanes s pg l :=
  List.mem_of_mem_head? (by rw [h]; rfl)

/-- Words whose lanes receive other lanes' values write their results, unless a uniform register would receive POISON (R163). -/
theorem crossMove_clean {s : State} {l : List SrcSpec} {d : Dst} {lanes : List XLane} {F : XLane → AluOut}
    (h : (∃ n, d = .g n) → ∀ x ∈ lanes, (F x).bad.any id = false) : crossMove s l d lanes F = crossWrite s l (some d) lanes F := by
  unfold crossMove
  cases d with
  | g n =>
    cases hh : lanes.head? with
    | none => rfl
    | some x =>
      have := h ⟨n, rfl⟩ x (List.mem_of_mem_head? (by rw [hh]; rfl))
      simp [this]
  | v n => rfl
  | o n => rfl
  | lr => rfl
  | zero => rfl

/-- A lane of clean operands gives no POISON. -/
theorem fromLane_clean {s : State} {k : Nat} {lanes : List XLane} {x : XLane} {j : Int} (hx : x.vals.any (·.poison) = false)
    (h : ∀ y ∈ lanes, y.vals.any (·.poison) = false) : (fromLane s k lanes x j).bad.any id = false := by
  have key : ∀ y : XLane, y.vals.any (·.poison) = false → ((opv y.vals 0).bad.take k).any id = false := by
    intro y hy
    have h0 : (opv y.vals 0).bad.any id = false := ?_
    · rw [List.any_eq_false] at h0 ⊢
      exact fun b hb => h0 b (List.mem_of_mem_take hb)
    unfold opv
    cases hv : y.vals with
    | nil => rfl
    | cons a r =>
      rw [hv] at hy
      simp only [List.any_cons, Bool.or_eq_false_iff] at hy
      exact hy.1
  unfold fromLane
  dsimp only
  apply key
  split
  · cases hl : laneOf lanes j.toNat with
    | none => exact hx
    | some y => exact h y (List.mem_of_find?_eq_some hl)
  · exact hx

end Sys2Proof.Machine
end

