-- ==== Sys2Proof/Laws/Control.lean ====
section
/-! SUPPORT. Words whose lanes change only their own threads and then retire, branch or wait: one lemma for the whole group, and the control words through it. -/

namespace Sys2Proof.Machine

/-- What becomes of a thread with this result of its lane. -/
def laneEnd (s : State) (w : Workgroup) (y : Thread) : LaneRes → Thread
  | .jump pc => jumpTo pc s.now y
  | .wait z => { y with run := .waiting z, since := some (y.since.getD (wgClock s w)), retrying := retried y.retrying (wgClock s w) s.now z }
  | _ => advance s.cur s.now y

/-- A result that settles a lane without a trap. -/
def LaneRes.quiet : LaneRes → Prop
  | .retire gw => gw = []
  | .jump _ => True
  | .wait _ => True
  | _ => False

theorem LanesDone.mono {s t : State} {pg : Guard} {R R' : Workgroup → Thread → Thread → Prop} (h : LanesDone s t pg R)
    (hR : ∀ tid x w y, Lane s tid x w → passes x pg = true → R w x y → R' w x y) : LanesDone s t pg R' := by
  refine ⟨h.frame, fun tid x w hl => ?_, h.others⟩
  obtain ⟨y, h1, h2⟩ := h.lanes tid x w hl
  refine ⟨y, h1, ?_⟩
  by_cases hp : passes x pg = true
  · rw [if_pos hp] at h2 ⊢
    exact hR tid x w y hl hp h2
  · rw [if_neg hp] at h2 ⊢
    exact h2

/-- The same state with other threads. -/
def withThreads (s : State) (ths : List Thread) : State := { s with threads := ths }

@[simp] theorem withThreads_cur (s : State) (ths : List Thread) : (withThreads s ths).cur = s.cur := rfl
@[simp] theorem withThreads_now (s : State) (ths : List Thread) : (withThreads s ths).now = s.now := rfl
@[simp] theorem withThreads_threads (s : State) (ths : List Thread) : (withThreads s ths).threads = ths := rfl
@[simp] theorem getWg_withThreads (s : State) (ths : List Thread) (k : Nat) : getWg (withThreads s ths) k = getWg s k := rfl
@[simp] theorem readSrcs_withThreads (s : State) (ths : List Thread) (w : Workgroup) (t : Thread) (l : List SrcSpec) (pops : List Nat) :
    readSrcs (withThreads s ths) w t l pops = readSrcs s w t l pops := readSrcs_threads s ths w t l pops
@[simp] theorem modT_withThreads (s : State) (ths : List Thread) (t : Tid) (f : Thread → Thread) :
    modT (withThreads s ths) t f = withThreads s (modT (withThreads s ths) t f).threads := rfl

/-- A word that acts lane by lane, in each lane on the lane's own thread alone, and retires, branches or waits. -/
theorem perLane_moves {s : State} {pg : Guard} {f : State → Workgroup → Thread → State × LaneRes} (G : Workgroup → Thread → Thread)
    (R : Workgroup → Thread → LaneRes) (hs : Issuing s)
    (hG : ∀ tid x w, Lane s tid x w → passes x pg = true → (G w x).tid = tid ∧ (G w x).run = .ready ∧ (G w x).wg = x.wg ∧ (R w x).quiet)
    (hf : ∀ ths tid x w, Lane s tid x w → passes x pg = true → getT (withThreads s ths) tid = some x →
      ∃ ths', f (withThreads s ths) w x = (withThreads s ths', R w x) ∧ getT (withThreads s ths') tid = some (G w x) ∧
        ∀ u, u ≠ tid → getT (withThreads s ths') u = getT (withThreads s ths) u) :
    LanesDone s (perLane s pg f) pg fun w x y => y = laneEnd s w (G w x) (R w x) := by
  unfold perLane
  generalize hq : (fun (a : LaneAcc) (tid : Tid) => _) = q
  have key : ∀ (l : List Tid) (a : LaneAcc) (ths : List Thread), l.Nodup → (∀ t ∈ l, t ∈ s.cur.tids) → a.s = withThreads s ths →
      (∀ t ∈ l, getT a.s t = getT s t) → a.traps = [] → a.eaten = [] → a.kills = [] → a.after = [] → a.gw = [] →
      ∃ ths', (l.foldl q a).s = withThreads s ths' ∧
        (∀ t ∈ l, ∀ x w, Lane s t x w → getT (withThreads s ths') t = some (if passes x pg then laneEnd s w (G w x) (R w x) else advance s.cur s.now x)) ∧
        (∀ u, u ∉ l → getT (withThreads s ths') u = getT (withThreads s ths) u) ∧
        (l.foldl q a).traps = [] ∧ (l.foldl q a).eaten = [] ∧ (l.foldl q a).kills = [] ∧ (l.foldl q a).after = [] ∧ (l.foldl q a).gw = [] := by
    intro l
    induction l with
    | nil => exact fun a ths _ _ ha _ h1 h2 h3 h4 h5 => ⟨ths, ha, by simp, fun _ _ => rfl, h1, h2, h3, h4, h5⟩
    | cons t l ih =>
      intro a ths hnd hl ha hg h1 h2 h3 h4 h5
      obtain ⟨hnt, hnd'⟩ := List.nodup_cons.mp hnd
      obtain ⟨x, w, hx⟩ := hs.lanes t (hl t List.mem_cons_self)
      have hat : getT a.s t = some x := (hg t List.mem_cons_self).trans hx.thread
      have htid : x.tid = t := getT_tid hat
      have haw : getWg a.s x.wg = some w := by rw [ha]; exact hx.group
      have step : ∃ ths1, (q a t).s = withThreads s ths1 ∧
          getT (withThreads s ths1) t = some (if passes x pg then laneEnd s w (G w x) (R w x) else advance s.cur s.now x) ∧
          (∀ u, u ≠ t → getT (withThreads s ths1) u = getT (withThreads s ths) u) ∧
          (q a t).traps = [] ∧ (q a t).eaten = [] ∧ (q a t).kills = [] ∧ (q a t).after = [] ∧ (q a t).gw = [] := by
        subst hq
        have hk : ∀ (c : Group) (m : Nat) (y : Thread), y.tid = t → (if (y.run == .killed) = true then y else advance c m y).tid = t := by
          intro c m y hy; split <;> simp [hy]
        by_cases hp : passes x pg = true
        · obtain ⟨g1, g2, g3, g4⟩ := hG t x w hx hp
          obtain ⟨ths1, f1, f2, f3⟩ := hf ths t x w hx hp (by rw [← ha]; exact hat)
          rw [← ha] at f1
          have hready : (x.run != Run.ready) = false := by rw [hx.ready]; rfl
          simp only [hat, hready, hp, haw, f1, Bool.not_true, Bool.false_eq_true, if_false, if_true]
          have hnk : ((G w x).run == Run.killed) = false := by rw [g2]; rfl
          revert f1 g4
          cases hR : R w x with
          | retire gw =>
            intro g4 f1
            have g4' : gw = [] := g4
            subst g4'
            refine ⟨(retire (withThreads s ths1) t).threads, rfl, ?_, ?_, h1, h2, h3, h4, by simp [h5]⟩
            · have e : getT (retire (withThreads s ths1) t) t = some (advance s.cur s.now (G w x)) := by
                unfold retire
                rw [getT_modT (hk _ _), f2, Option.map_some, if_neg (by rw [hnk]; simp)]
                rfl
              exact e
            · intro u hu
              have e : getT (retire (withThreads s ths1) t) u = getT (withThreads s ths1) u := by
                unfold retire
                rw [getT_modT_ne (hk _ _) hu]
              exact e.trans (f3 u hu)
          | jump pc =>
            intro _ f1
            refine ⟨(modT (withThreads s ths1) t (jumpTo pc s.now)).threads, rfl, ?_, ?_, h1, h2, h3, h4, h5⟩
            · have e : getT (modT (withThreads s ths1) t (jumpTo pc s.now)) t = some (jumpTo pc s.now (G w x)) := by
                rw [getT_modT (f := jumpTo pc s.now) (fun _ h => h), f2]; rfl
              exact e
            · intro u hu
              have e : getT (modT (withThreads s ths1) t (jumpTo pc s.now)) u = getT (withThreads s ths1) u := getT_modT_ne (f := jumpTo pc s.now) (fun _ h => h) hu
              exact e.trans (f3 u hu)
          | wait z =>
            intro _ f1
            have hc : tidClock (withThreads s ths1) t = wgClock s w := by
              unfold tidClock
              rw [f2]
              simp only [Option.bind_some, g3, getWg_withThreads, hx.group]
              rfl
            refine ⟨(waitFor (withThreads s ths1) t z).threads, rfl, ?_, ?_, h1, h2, h3, h4, h5⟩
            · have e : getT (waitFor (withThreads s ths1) t z) t
                  = some { G w x with run := .waiting z, since := some ((G w x).since.getD (wgClock s w)), retrying := retried (G w x).retrying (wgClock s w) s.now z } := by
                unfold waitFor
                rw [hc]
                exact (getT_modT (f := fun x => { x with run := .waiting z, since := some (x.since.getD (wgClock s w)), retrying := retried x.retrying (wgClock s w) s.now z }) (fun _ h => h)).trans (by rw [f2]; rfl)
              exact e
            · intro u hu
              have e : getT (waitFor (withThreads s ths1) t z) u = getT (withThreads s ths1) u := by
                unfold waitFor
                exact getT_modT_ne (f := fun x => { x with run := .waiting z, since := some (x.since.getD (tidClock (withThreads s ths1) t)), retrying := retried x.retrying (tidClock (withThreads s ths1) t) s.now z }) (fun _ h => h) hu
              exact e.trans (f3 u hu)
          | _ => intro g4 _; exact absurd g4 (by intro h; exact h)
        · have hp' : passes x pg = false := by simpa using hp
          have hready : (x.run != Run.ready) = false := by rw [hx.ready]; rfl
          simp only [hat, hready, hp', Bool.not_false, Bool.false_eq_true, if_false, if_true]
          refine ⟨(retire (withThreads s ths) t).threads, by rw [ha]; rfl, ?_, ?_, h1, h2, h3, h4, h5⟩
          · have e : getT (retire (withThreads s ths) t) t = some (advance s.cur s.now x) := by
              unfold retire
              rw [getT_modT (hk _ _), ← ha, hat, Option.map_some, ha]
              have : (x.run == Run.killed) = false := by rw [hx.ready]; rfl
              simp [this]
            exact e
          · intro u hu
            have e : getT (retire (withThreads s ths) t) u = getT (withThreads s ths) u := by
              unfold retire
              rw [getT_modT_ne (hk _ _) hu]
            exact e
      obtain ⟨ths1, s1, s2, s3, s4, s5, s6, s7, s8⟩ := step
      obtain ⟨ths', r1, r2, r3, r4⟩ := ih (q a t) ths1 hnd' (fun u hu => hl u (List.mem_cons_of_mem _ hu)) s1
        (fun u hu => by
          have hne : u ≠ t := fun e => hnt (e ▸ hu)
          have := hg u (List.mem_cons_of_mem _ hu)
          rw [ha] at this
          rw [s1]
          exact (s3 u hne).trans this) s4 s5 s6 s7 s8
      refine ⟨ths', r1, ?_, ?_, r4⟩
      · intro u hu y v hy
        rcases List.mem_cons.mp hu with rfl | hu'
        · rw [r3 u hnt, s2]
          have e1 : y = x := Option.some.inj (hy.thread.symm.trans hx.thread)
          subst e1
          have e2 : v = w := Option.some.inj (hy.group.symm.trans hx.group)
          subst e2
          rfl
        · exact r2 u hu' y v hy
      · intro u hu
        have hne : u ≠ t := fun e => hu (e ▸ List.mem_cons_self)
        rw [r3 u (fun h => hu (List.mem_cons_of_mem _ h)), s3 u hne]
  obtain ⟨ths, k1, k2, k3, k4, k5, k6, k7, k8⟩ :=
    key s.cur.tids ⟨s, [], [], [], [], [], []⟩ s.threads hs.distinct (fun _ h => h) rfl (fun _ _ => rfl) rfl rfl rfl rfl rfl
  have hres : (applyG (s.cur.tids.foldl q ⟨s, [], [], [], [], [], []⟩).s (s.cur.tids.foldl q ⟨s, [], [], [], [], [], []⟩).retired
      (s.cur.tids.foldl q ⟨s, [], [], [], [], [], []⟩).gw) = withThreads s ths := by rw [k8, k1, applyG_nil]
  dsimp only
  rw [hres, k4, k5, k6, k7, settleTraps_nil, deliverTraps_nil]
  refine ⟨rfl, fun tid x w hl => ⟨_, k2 tid hl.member x w hl, ?_⟩, fun u hu => k3 u hu⟩
  by_cases hp : passes x pg = true
  · simp [hp]
  · simp [hp, Skipped]

/-! ## The taking of sources -/

/-- A change of registers, queues, clock and tokens alone. -/
def OnlyReads (t y : Thread) : Prop := y = { t with v := y.v, o := y.o, q := y.q, vc := y.vc, tokens := y.tokens }

theorem OnlyReads.trans {a b c : Thread} (h : OnlyReads a b) (k : OnlyReads b c) : OnlyReads a c := by
  unfold OnlyReads at *
  rw [h] at k
  exact k

theorem reads_foldl {α : Type} (f : Thread → α → Thread) (hf : ∀ t a, OnlyReads t (f t a)) : ∀ (l : List α) (t : Thread), OnlyReads t (l.foldl f t)
  | [], _ => rfl
  | a :: l, t => (hf t a).trans (reads_foldl f hf l (f t a))

theorem onlyReads_takeSources (t : Thread) (l : List SrcSpec) (pops : List Nat) : OnlyReads t (takeSources t l pops) := by
  unfold takeSources
  refine (OnlyReads.trans (b := joinTokens t (namedTokens l)) ?_ ?_).trans (reads_foldl _ (fun t r => by unfold killReg; split <;> rfl) _ _)
  · unfold joinTokens; split <;> rfl
  · unfold popQueues
    refine reads_foldl _ (fun t a => ?_) _ _
    rfl

theorem readDone_takeSources {x z y : Thread} (l : List SrcSpec) (pops : List Nat) (hz : z.v = x.v ∧ z.o = x.o ∧ z.q = x.q)
    (hy : y.v = (takeSources z l pops).v ∧ y.o = (takeSources z l pops).o ∧ y.q = (takeSources z l pops).q) : ReadDone l pops x y := by
  have e : ∀ r, regOf y r = if (markedRegs l).contains r then regDead else regOf x r := fun r => by
    rw [regOf_congr hy.1 hy.2.1 r, regOf_takeSources, regOf_congr hz.1 hz.2.1 r]
  refine ⟨fun n => e (false, n), fun n => e (true, n), fun n => ?_⟩
  rw [hy.2.2, takeSources_q, hz.2.2]

/-! ## Control words -/

/-- The thread of a control word before its sources are taken. -/
def controlThread (a : ControlSpec) (s : State) (x : Thread) : Thread := { x with depth := a.depth x, links := a.links s x }

/-- The result of the lane of a control word. -/
def Goes.res : Goes → LaneRes
  | .next => .retire []
  | .jump pc => .jump pc
  | .sleep u => .wait (.sleep u)

theorem poisonCauses_clean {ad : List Nat} {vals : List Opv} (h : vals.any (·.poison) = false) : poisonCauses ad vals = [] := by
  have hz : ∀ i, (vals.getD i Opv.zero).poison = false := by
    intro i
    rw [List.getD_eq_getElem?_getD]
    cases e : vals[i]? with
    | none => rfl
    | some v =>
      have := List.any_eq_false.mp h v (List.mem_of_getElem? e)
      simpa using this
  have h1 : (ad.any fun i => (vals.getD i Opv.zero).poison) = false := List.any_eq_false.mpr fun i _ => by rw [hz]; simp
  unfold poisonCauses
  rw [h1, h]
  rfl

theorem controlWord_done {s : State} {a : ControlSpec} {f : State → Workgroup → Thread → List Opv → State × LaneRes} (hs : Issuing s) (ha : a.sound s)
    (hf : ∀ ths tid x w, Lane s tid x w → passes x a.pg = true → getT (withThreads s ths) tid = some x → a.ok s x (readSrcs s w x a.srcs []).vals →
      ∃ ths', f (withThreads s ths) w x (readSrcs s w x a.srcs []).vals = (withThreads s ths', (a.goes s w x (readSrcs s w x a.srcs []).vals).res) ∧
        getT (withThreads s ths') tid = some (match a.goes s w x (readSrcs s w x a.srcs []).vals with | .sleep _ => x | _ => controlThread a s x) ∧
        ∀ u, u ≠ tid → getT (withThreads s ths') u = getT (withThreads s ths) u) :
    LanesDone s (controlWord s a.pg a.srcs f) a.pg (a.done s) := by
  let go := fun (w : Workgroup) (x : Thread) => a.goes s w x (readSrcs s w x a.srcs []).vals
  let G := fun (w : Workgroup) (x : Thread) => match go w x with
    | .sleep _ => x
    | _ => takeSources (controlThread a s x) a.srcs (readSrcs s w x a.srcs []).pops
  have hG : ∀ tid x w, Lane s tid x w → (G w x).tid = tid ∧ (G w x).run = .ready ∧ (G w x).wg = x.wg := by
    intro tid x w hl
    have h1 := same_takeSources (controlThread a s x) a.srcs (readSrcs s w x a.srcs []).pops
    have e : x.tid = tid := getT_tid hl.thread
    simp only [G]
    cases go w x with
    | sleep u => exact ⟨e, hl.ready, rfl⟩
    | next => exact ⟨h1.1.trans e, h1.2.2.1.trans hl.ready, h1.2.1⟩
    | jump pc => exact ⟨h1.1.trans e, h1.2.2.1.trans hl.ready, h1.2.1⟩
  have main := perLane_moves (s := s) (pg := a.pg) (f := fun s w t => withSrcs s w t a.srcs .zero 0 (poisonCauses [0]) fun vals pops =>
      match f s w t vals with
      | (s, .wait x) => (s, .wait x)
      | (s, .trap c) => (s, .trap c)
      | (s, .consume c) => (s, .consume c)
      | (s, .kill k a) => (s, .kill k a)
      | (s, r) => (touchRegs (modT s t.tid fun x => takeSources x a.srcs pops) w t.tid (markedRegs a.srcs), r)) G (fun w x => (go w x).res) hs
    (fun tid x w hl hp => ⟨(hG tid x w hl).1, (hG tid x w hl).2.1, (hG tid x w hl).2.2, by cases go w x <;> simp [Goes.res, LaneRes.quiet]⟩)
    (fun ths tid x w hl hp ht => by
      obtain ⟨pl, h0, h1, h2, h3, h4⟩ := ha tid x w hl hp
      obtain ⟨ths1, f1, f2, f3⟩ := hf ths tid x w hl hp ht h4
      have h0' : dualCause (withThreads s ths) w = [] := h0
      rw [withSrcs_ok h0' (poisonCauses_clean (by simpa [Clean] using h3)) (by simpa using h1) (by simpa using h2) rfl]
      simp only [readSrcs_withThreads]
      rw [f1]
      have hx : x.tid = tid := getT_tid ht
      subst hx
      have htk : ∀ y : Thread, y.tid = x.tid → (takeSources y a.srcs (readSrcs s w x a.srcs []).pops).tid = x.tid :=
        fun y hy => (same_takeSources y _ _).1.trans hy
      cases hgo : a.goes s w x (readSrcs s w x a.srcs []).vals with
      | sleep u =>
        rw [hgo] at f2
        exact ⟨ths1, by simp only [Goes.res, go, hgo], by simp only [G, go, hgo]; exact f2, f3⟩
      | next =>
        rw [hgo] at f2
        refine ⟨(modT (withThreads s ths1) x.tid fun y => takeSources y a.srcs (readSrcs s w x a.srcs []).pops).threads, ?_, ?_, ?_⟩
        · simp only [Goes.res, go, hgo]
          rw [touchRegs_off _ _ pl.rollback pl.redund]
          rfl
        · have e : getT (modT (withThreads s ths1) x.tid fun y => takeSources y a.srcs (readSrcs s w x a.srcs []).pops) x.tid
              = some (takeSources (controlThread a s x) a.srcs (readSrcs s w x a.srcs []).pops) := by rw [getT_modT htk, f2]; rfl
          simp only [G, go, hgo]
          exact e
        · exact fun u hu => (getT_modT_ne htk hu).trans (f3 u hu)
      | jump pc =>
        rw [hgo] at f2
        refine ⟨(modT (withThreads s ths1) x.tid fun y => takeSources y a.srcs (readSrcs s w x a.srcs []).pops).threads, ?_, ?_, ?_⟩
        · simp only [Goes.res, go, hgo]
          rw [touchRegs_off _ _ pl.rollback pl.redund]
          rfl
        · have e : getT (modT (withThreads s ths1) x.tid fun y => takeSources y a.srcs (readSrcs s w x a.srcs []).pops) x.tid
              = some (takeSources (controlThread a s x) a.srcs (readSrcs s w x a.srcs []).pops) := by rw [getT_modT htk, f2]; rfl
          simp only [G, go, hgo]
          exact e
        · exact fun u hu => (getT_modT_ne htk hu).trans (f3 u hu))
  refine main.mono fun tid x w y hl hp h2 => ?_
  have ho := onlyReads_takeSources (controlThread a s x) a.srcs (readSrcs s w x a.srcs []).pops
  unfold ControlSpec.done
  dsimp only
  cases hgo : a.goes s w x (readSrcs s w x a.srcs []).vals with
  | sleep u => rw [h2]; simp only [G, go, hgo, Goes.res, laneEnd, retried]
  | next =>
    simp only [G, go, hgo, Goes.res, laneEnd] at h2
    rw [h2]
    refine ⟨readDone_takeSources (z := controlThread a s x) _ _ ⟨rfl, rfl, rfl⟩ ⟨rfl, rfl, rfl⟩, ?_⟩
    unfold OnlyReads at ho
    rw [ho]
    rfl
  | jump pc =>
    simp only [G, go, hgo, Goes.res, laneEnd] at h2
    rw [h2]
    refine ⟨readDone_takeSources (z := controlThread a s x) _ _ ⟨rfl, rfl, rfl⟩ ⟨rfl, rfl, rfl⟩, ?_⟩
    unfold OnlyReads at ho
    rw [ho]
    rfl

end Sys2Proof.Machine
end

