-- ==== Sys2Proof/Laws/Memory.lean ====
section
/-! SUPPORT. The laws of memory: a read after a write, and the canonical form that every write keeps. -/

namespace Sys2Proof.Machine

theorem memWfFrom_mono {lo lo' : Nat} (h : lo' ≤ lo) : ∀ {m : List Host.Cell}, memWfFrom lo m = true → memWfFrom lo' m = true
  | [], _ => rfl
  | (a, b) :: r, hm => by
    simp only [memWfFrom, Bool.and_eq_true, decide_eq_true_eq] at hm ⊢
    exact ⟨⟨by omega, hm.1.2⟩, hm.2⟩

theorem setCell_wf {lo a : Nat} (b : Byte) (h : lo ≤ a) : ∀ {m : List Host.Cell}, memWfFrom lo m = true → memWfFrom lo (setCell a b m) = true
  | [], _ => by
    unfold setCell
    split
    · rfl
    · simp_all [memWfFrom]
  | (j, x) :: r, hm => by
    simp only [memWfFrom, Bool.and_eq_true, decide_eq_true_eq] at hm
    obtain ⟨⟨hj, hx⟩, hr⟩ := hm
    unfold setCell
    split
    · split
      · simp [memWfFrom, hj, hr, bne_iff_ne.mp hx]
      · rename_i h1 h2
        have hr' : memWfFrom (j + 1) r = true := hr
        simp only [memWfFrom, Bool.and_eq_true, decide_eq_true_eq]
        exact ⟨⟨h, bne_iff_ne.mpr h2⟩, ⟨by omega, hx⟩, hr'⟩
    · split
      · rename_i h1 h2
        subst h2
        split
        · exact memWfFrom_mono (by omega) hr
        · rename_i h3
          simp only [memWfFrom, Bool.and_eq_true, decide_eq_true_eq]
          exact ⟨⟨h, bne_iff_ne.mpr h3⟩, hr⟩
      · simp only [memWfFrom, Bool.and_eq_true, decide_eq_true_eq]
        exact ⟨⟨hj, hx⟩, setCell_wf b (by omega) hr⟩

/-- A write of one byte keeps the canonical form. -/
theorem Memory.wf_setCell {a : Nat} {b : Byte} {m : List Host.Cell} (h : Memory.wf m = true) : Memory.wf (setCell a b m) = true :=
  setCell_wf b (Nat.zero_le a) h

/-- So does a write of many. -/
theorem Memory.wf_setCells {cs m : List Host.Cell} (h : Memory.wf m = true) : Memory.wf (setCells cs m) = true := by
  unfold setCells
  induction cs generalizing m with
  | nil => exact h
  | cons c r ih => exact ih (Memory.wf_setCell h)

theorem Memory.wf_trimPad {l k : Nat} {m : List Host.Cell} (h : Memory.wf m = true) : Memory.wf (trimPad l k m) = true := by
  unfold trimPad
  split
  · exact Memory.wf_setCell h
  · exact h

theorem getCell_lt {lo a : Nat} (h : a < lo) : ∀ {m : List Host.Cell}, memWfFrom lo m = true → getCell a m = unlisted
  | [], _ => rfl
  | (j, x) :: r, hm => by
    simp only [memWfFrom, Bool.and_eq_true, decide_eq_true_eq] at hm
    unfold getCell
    rw [if_neg (by omega), if_pos (by omega)]

theorem getCell_setCell_from {lo : Nat} (a c : Nat) (b : Byte) :
    ∀ {m : List Host.Cell}, memWfFrom lo m = true → getCell c (setCell a b m) = if c = a then b else getCell c m
  | [], _ => by
    unfold setCell
    split <;> by_cases h : c = a <;> simp_all [getCell]
  | (j, x) :: r, hm => by
    simp only [memWfFrom, Bool.and_eq_true, decide_eq_true_eq] at hm
    obtain ⟨⟨hj, hx⟩, hr⟩ := hm
    unfold setCell
    split
    · rename_i h1
      split
      · by_cases h : c = a
        · subst h; simp [getCell, h1, Nat.ne_of_lt h1, *]
        · simp [h]
      · by_cases h : c = a
        · subst h; simp [getCell]
        · simp only [getCell, h, if_false]
          by_cases h3 : c < a
          · rw [if_pos h3, if_neg (by omega), if_pos (by omega)]
          · rw [if_neg h3]
    · split
      · rename_i h1 h2
        subst h2
        by_cases h : c = a
        · subst h
          split
          · rename_i h3; rw [if_pos rfl, h3]; exact getCell_lt (Nat.lt_succ_self _) hr
          · simp [getCell]
        · rw [if_neg h]
          split
          · simp only [getCell, if_neg h]
            by_cases h4 : c < a
            · rw [if_pos h4]; exact getCell_lt (by omega) hr
            · rw [if_neg h4]
          · simp only [getCell, if_neg h]
      · rename_i h1 h2
        simp only [getCell]
        by_cases h : c = j
        · subst h; rw [if_pos rfl, if_neg (by omega), if_pos rfl]
        · rw [if_neg h, if_neg h]
          by_cases h3 : c < j
          · rw [if_pos h3, if_pos h3, if_neg (by omega)]
          · rw [if_neg h3, if_neg h3, getCell_setCell_from a c b hr]

/-- A read after a write of one byte. -/
theorem getCell_setCell {m : List Host.Cell} (h : Memory.wf m = true) (a c : Nat) (b : Byte) :
    getCell c (setCell a b m) = if c = a then b else getCell c m := getCell_setCell_from a c b h

/-- A read outside the cells written. -/
theorem getCell_setCells_ne {cs m : List Host.Cell} (h : Memory.wf m = true) {c : Nat} (hc : ∀ e ∈ cs, e.1 ≠ c) :
    getCell c (setCells cs m) = getCell c m := by
  unfold setCells
  induction cs generalizing m with
  | nil => rfl
  | cons e r ih =>
    have h1 := ih (m := setCell e.1 e.2 m) (Memory.wf_setCell h) (fun x hx => hc x (List.mem_cons_of_mem _ hx))
    rw [List.foldl_cons, h1, getCell_setCell h, if_neg]
    exact fun he => hc e List.mem_cons_self he.symm

theorem mem_cellsAt {a : Nat} : ∀ {l : List Byte} {e : Host.Cell}, e ∈ cellsAt a l → a ≤ e.1 ∧ e.1 < a + l.length
  | [], _, h => by cases h
  | b :: r, e, h => by
    simp only [cellsAt, List.mem_cons] at h
    rcases h with rfl | h
    · simp
    · have := mem_cellsAt h
      simp only [List.length_cons]
      omega

/-- A read outside the bytes written from an address on. -/
theorem getCell_cellsAt_ne {m : List Host.Cell} (h : Memory.wf m = true) {a c : Nat} {l : List Byte} (hc : c < a ∨ a + l.length ≤ c) :
    getCell c (setCells (cellsAt a l) m) = getCell c m :=
  getCell_setCells_ne h fun e he hce => by have := mem_cellsAt he; omega

/-- A read of the bytes written from an address on. -/
theorem getCell_cellsAt : ∀ {l : List Byte} {m : List Host.Cell} (_ : Memory.wf m = true) {a i : Nat}, i < l.length →
    getCell (a + i) (setCells (cellsAt a l) m) = l.getD i 0
  | [], _, _, _, _, hi => by simp at hi
  | b :: r, m, h, a, i, hi => by
    have hs : setCells (cellsAt a (b :: r)) m = setCells (cellsAt (a + 1) r) (setCell a b m) := rfl
    rw [hs]
    cases i with
    | zero =>
      rw [getCell_cellsAt_ne (Memory.wf_setCell h) (by omega), Nat.add_zero, getCell_setCell h, if_pos rfl]
      rfl
    | succ i =>
      have hi' : i < r.length := by simpa using hi
      have := getCell_cellsAt (Memory.wf_setCell h (a := a) (b := b)) (a := a + 1) hi'
      rw [show a + (i + 1) = a + 1 + i by omega, this]
      rfl

/-- A run of bytes reads back what was written there. -/
theorem getCells_cellsAt {m : List Host.Cell} (h : Memory.wf m = true) (a : Nat) (l : List Byte) :
    getCells a l.length (setCells (cellsAt a l) m) = l := by
  induction l generalizing a m with
  | nil => rfl
  | cons b r ih =>
    have h0 : getCell a (setCells (cellsAt a (b :: r)) m) = b := by
      simpa using getCell_cellsAt h (l := b :: r) (a := a) (i := 0) (by simp)
    simp only [List.length_cons, getCells, h0]
    congr 1
    exact ih (Memory.wf_setCell h) (a + 1)

/-! ## HBM -/

theorem setBlock_frame (s : State) (k : Nat) (b : Block) : setBlock s k b = { s with blocks := (setBlock s k b).blocks } := by
  unfold setBlock; split <;> rfl

theorem setBlock_mem (s : State) (k : Nat) (b : Block) : (setBlock s k b).mem = s.mem := by rw [setBlock_frame]

theorem setBlock_same {s : State} {k : Nat} {b : Block} (h : getBlock s k = b) : setBlock s k b = s := by
  unfold setBlock; rw [if_pos h]

theorem countErr_mem (s : State) (d c : Nat) : (countErr s d c).mem = s.mem := rfl

theorem markDirty_frame (s : State) (k : Nat) : markDirty s k = { s with dirty := (markDirty s k).dirty } := by
  unfold markDirty; split <;> rfl

theorem markDirty_congr {s t : State} (h : t.dirty = s.dirty) (k : Nat) : (markDirty t k).dirty = (markDirty s k).dirty := by
  unfold markDirty
  rw [h]
  by_cases hc : s.dirty.contains k = true
  · rw [if_pos hc, if_pos hc, h]
  · rw [if_neg hc, if_neg hc]

/-- What a write of a block may change: memory, what stands beside it, its line, and an error count (R130, R135). -/
theorem putBlock_frame (s : State) (k : Nat) (c : List Host.Cell) (b : Block) : putBlock s k c b
    = { s with mem := trimPad b.layout k (setCells c s.mem), blocks := (putBlock s k c b).blocks, dirty := (putBlock s k c b).dirty,
               memerr := (putBlock s k c b).memerr } := by
  unfold putBlock
  dsimp only
  rw [setBlock_frame, markDirty_frame]
  split <;> rfl

theorem putBlock_mem (s : State) (k : Nat) (c : List Host.Cell) (b : Block) : (putBlock s k c b).mem = trimPad b.layout k (setCells c s.mem) := by
  rw [putBlock_frame]

theorem putBlock_wf (s : State) (k : Nat) (c : List Host.Cell) (b : Block) (h : Memory.wf s.mem = true) : Memory.wf (putBlock s k c b).mem = true := by
  rw [putBlock_mem]
  exact Memory.wf_trimPad (Memory.wf_setCells h)

/-- A write to HBM within a block leaves that block anew, and nothing else. -/
theorem writeHbm_put (s : State) (a : Nat) (l : List Byte) (y k : Nat) (p : Bool) : ∃ c b, writeHbm s a l y k p = putBlock s (a / 64) c b := by
  unfold writeHbm
  dsimp only
  generalize (if k = Config.noKey then 0 else k) = k'
  split
  · exact ⟨_, _, rfl⟩
  · split <;> exact ⟨_, _, rfl⟩

/-- A write to HBM changes memory, what stands beside it, lines and error counts, and nothing else. -/
theorem writeHbm_frame (s : State) (a : Nat) (l : List Byte) (y k : Nat) (p : Bool) : writeHbm s a l y k p
    = { s with mem := (writeHbm s a l y k p).mem, blocks := (writeHbm s a l y k p).blocks, dirty := (writeHbm s a l y k p).dirty,
               memerr := (writeHbm s a l y k p).memerr } := by
  obtain ⟨c, b, h⟩ := writeHbm_put s a l y k p
  rw [h, putBlock_frame]

/-- A write to HBM keeps the canonical form. -/
theorem writeHbm_wf (s : State) (a : Nat) (l : List Byte) (y k : Nat) (p : Bool) (h : Memory.wf s.mem = true) :
    Memory.wf (writeHbm s a l y k p).mem = true := by
  obtain ⟨c, b, e⟩ := writeHbm_put s a l y k p
  rw [e]
  exact putBlock_wf _ _ _ _ h

theorem foldl_inv {α β : Type} (P : β → Prop) (f : β → α → β) (hf : ∀ b a, P b → P (f b a)) :
    ∀ (l : List α) (b : β), P b → P (l.foldl f b)
  | [], _, h => h
  | a :: l, b, h => foldl_inv P f hf l (f b a) (hf b a h)

theorem writeHbmRange_wf (s : State) (a : Nat) (l : List Byte) (y k : Nat) (p : Bool) (h : Memory.wf s.mem = true) :
    Memory.wf (writeHbmRange s a l y k p).mem = true :=
  foldl_inv (fun x : State × List Byte => Memory.wf x.1.mem = true) _ (fun b _ hb => writeHbm_wf b.1 _ _ _ _ _ hb) _ _ h

/-- A read of HBM leaves memory alone. -/
theorem readHbm_mem (s : State) (a n y k : Nat) : (readHbm s a n y k).1.mem = s.mem := by
  unfold readHbm
  dsimp only
  split
  · rfl
  · split
    · rfl
    · split <;> rfl

theorem readHbmRange_mem (s : State) (a n y k : Nat) : (readHbmRange s a n y k).1.mem = s.mem :=
  foldl_inv (fun x : State × ByteRead => x.1.mem = s.mem) _ (fun b p hb => by
    show (readHbm b.1 p.1 p.2 y k).1.mem = s.mem
    rw [readHbm_mem, hb]) _ _ rfl

theorem heatUp_wf (s : State) (p : Nat) (w : Bool) (h : Memory.wf s.mem = true) : Memory.wf (heatUp s p w).mem = true := by
  unfold heatUp
  dsimp only
  generalize (if w then bits (getCell (p + 2) s.mem).toNat 3 2 else bits (getCell (p + 2) s.mem).toNat 1 0) = x
  split
  · exact h
  · exact writeHbm_wf _ _ _ _ _ _ h

theorem tlbFill_wf (s : State) (c p v : Nat) (l : Leaf) (e : Nat) (w : Bool) (h : Memory.wf s.mem = true) :
    Memory.wf (tlbFill s c p v l e w).mem = true := heatUp_wf _ _ _ h

/-- A read of HBM counts errors and changes nothing else (R135). -/
theorem readHbm_frame (s : State) (a n y k : Nat) : (readHbm s a n y k).1 = { s with memerr := (readHbm s a n y k).1.memerr } := by
  unfold readHbm
  dsimp only
  split
  · rfl
  · split
    · rfl
    · split <;> rfl

/-- A walk counts errors of the entries that it reads, and changes nothing else (R135). -/
theorem walkFrom_frame (va : Nat) : ∀ (level table : Nat) (s : State), (walkFrom s va level table).1 = { s with memerr := (walkFrom s va level table).1.memerr }
  | 0, table, s => by
    unfold walkFrom
    split
    · rfl
    · rename_i a _
      generalize hr : readHbm s a 16 0 0 = r
      have h := readHbm_frame s a 16 0 0
      rw [hr] at h
      obtain ⟨S, d⟩ := r
      dsimp only at h ⊢
      split
      · exact h
      · split
        · exact h
        · split
          · exact h
          · split <;> exact h
  | n + 1, table, s => by
    unfold walkFrom
    split
    · rfl
    · rename_i a _
      generalize hr : readHbm s a 16 0 0 = r
      have h := readHbm_frame s a 16 0 0
      rw [hr] at h
      obtain ⟨S, d⟩ := r
      dsimp only at h ⊢
      split
      · exact h
      · split
        · exact h
        · split
          · exact h
          · split
            · exact h
            · rename_i t _
              have h' := walkFrom_frame va n t S
              rw [h'] 
              rw [h]

theorem walk_frame (s : State) (p va : Nat) : (walk s p va).1 = { s with memerr := (walk s p va).1.memerr } := by
  unfold walk
  split
  · rfl
  · split
    · rfl
    · exact walkFrom_frame va 5 _ s

theorem walkFill_wf (s : State) (c p v : Nat) (n : Need) (h : Memory.wf s.mem = true) : Memory.wf (walkFill s c p v n).1.mem = true := by
  have hw : Memory.wf (walk s p v).1.mem = true := by rw [walk_frame]; exact h
  unfold walkFill
  generalize walk s p v = r at hw ⊢
  obtain ⟨S, d⟩ := r
  cases d with
  | leaf l e =>
    dsimp only
    split
    · exact tlbFill_wf _ _ _ _ _ _ _ hw
    · exact hw
  | _ => exact hw

theorem translate_wf (s : State) (c p v : Nat) (n : Need) (h : Memory.wf s.mem = true) : Memory.wf (translate s c p v n).1.mem = true := by
  unfold translate
  split
  · exact h
  · split
    · split
      · exact walkFill_wf _ _ _ _ _ h
      · exact h
    · exact walkFill_wf _ _ _ _ _ h

end Sys2Proof.Machine
end

