-- ==== Sys2Proof/Laws/Access.lean ====
section
/-! SUPPORT. One thread that accesses memory: how its word settles, and what translation, colours, reads and stores do for plain bytes. -/

namespace Sys2Proof.Machine

/-! ## The thread of a word at issue -/

theorem getT_frame {s t : State} (h : t.threads = s.threads) (u : Tid) : getT t u = getT s u := by
  unfold getT; rw [h]

/-- One lane that retires without uniform writes. -/
theorem Solo.retire {s s' : State} {pg : Guard} {x : Thread} {w : Workgroup} (h : Solo s pg x w)
    {f : State → Workgroup → Thread → State × LaneRes} (hf : f s w x = (s', .retire [])) :
    perLane s pg f = Sys2Proof.Machine.retire s' x.tid :=
  perLane_retire h.alone h.thread h.ready h.passes h.group hf

/-- The thread that a lane retires, and the others. -/
theorem oneDone_retire {s s' : State} {x z : Thread} {R : Thread → Prop} (h1 : getT s' x.tid = some z) (h2 : z.run = .ready)
    (h3 : ∀ u, u ≠ x.tid → getT s' u = getT s u) (hR : R (advance s'.cur s'.now z)) : OneDone s (Sys2Proof.Machine.retire s' x.tid) x R := by
  have hk : ∀ (y : Thread), y.tid = x.tid → (if (y.run == .killed) = true then y else advance s'.cur s'.now y).tid = x.tid := by
    intro y hy; split <;> simp [hy]
  refine ⟨⟨_, ?_, hR⟩, fun u hu => ?_⟩
  · unfold Sys2Proof.Machine.retire
    rw [getT_modT hk, h1, Option.map_some, if_neg (by rw [h2]; decide)]
  · unfold Sys2Proof.Machine.retire
    rw [getT_modT_ne hk hu]
    exact h3 u hu

theorem retire_fields (s : State) (t : Tid) : Sys2Proof.Machine.retire s t = { s with threads := (Sys2Proof.Machine.retire s t).threads } := rfl

theorem took_takeSources (s : State) (l : List SrcSpec) (pops : List Nat) (x : Thread) :
    Took s l pops x (advance s.cur s.now (takeSources x l pops)) := by
  have ho := onlyReads_takeSources x l pops
  refine ⟨⟨rfl, rfl, rfl⟩, readDone_takeSources (z := x) _ _ ⟨rfl, rfl, rfl⟩ ⟨rfl, rfl, rfl⟩, ?_⟩
  unfold OnlyReads at ho
  rw [ho]
  rfl

/-- The thread of a word whose result is on its way. -/
theorem awaits_pend {s : State} {w : Workgroup} {x : Thread} (l : List SrcSpec) (pops : List Nat) (d : Dst) (kd : Nat)
    (ha : x.armed = none) (hw : w.role = .single) :
    Awaits s l pops d kd x (advance s.cur s.now (pendDst (takeSources x l pops) d kd)) := by
  have h := LateDone.of_lateThread (s := s) (w := w) (x := x) l pops d kd { words := [] } ha hw
  have hp : (pendDst (takeSources x l pops) d kd).armed = none := by
    have := keeps_pendDst (takeSources x l pops) d kd
    unfold Keeps at this
    rw [this]
    exact (takeSources_armed x l pops).trans ha
  have e : (lateThread w x l pops d kd { words := [] }).2 = pendDst (takeSources x l pops) d kd := by
    unfold lateThread
    rw [disturb_none _ _ hp hw]
    have e0 : (pendDst (takeSources x l pops) d kd).fstat ||| (0 : Flags) = (pendDst (takeSources x l pops) d kd).fstat := BitVec.or_zero
    dsimp only
    rw [e0]
    rfl
  rw [e] at h
  exact h.2

theorem pend_ready (x : Thread) (l : List SrcSpec) (pops : List Nat) (d : Dst) (kd : Nat) (h : x.run = .ready) :
    (pendDst (takeSources x l pops) d kd).run = .ready :=
  (((same_takeSources x l pops).trans (same_pendDst _ d kd)).2.2.1).trans h

theorem pend_tid (x : Thread) (l : List SrcSpec) (pops : List Nat) (d : Dst) (kd : Nat) : (pendDst (takeSources x l pops) d kd).tid = x.tid :=
  ((same_takeSources x l pops).trans (same_pendDst _ d kd)).1

/-- A change of a thread within its workgroup keeps its interval. -/
theorem intervalOf_modT {s : State} {t : Tid} {f : Thread → Thread} (hf : ∀ x, (f x).tid = x.tid ∧ (f x).wg = x.wg) : intervalOf (modT s t f) t = intervalOf s t := by
  unfold intervalOf
  rw [getT_modT (fun x hx => (hf x).1.trans hx)]
  cases getT s t with
  | none => rfl
  | some x =>
    show (Option.map _ (getWg s (f x).wg)).getD 0 = _
    rw [(hf x).2]
    rfl

/-- A result goes on its way (R167). -/
theorem deliver_eq {s : State} {w : Workgroup} (t : Tid) (l : List SrcSpec) (pops : List Nat) (d : Dst) (kd : Nat) (kind : OutKind) (port : Option Nat)
    (addr : Word) (words : List FillWord) (ne : Bool) (hw : w.Plain) :
    deliver s w t l pops d kd kind port addr words ne
      = { s with threads := (modT s t fun x => pendDst (takeSources x l pops) d kd).threads, ids := s.ids + 1,
                 loads := s.loads ++ [{ id := s.ids + 1, tid := t, kind := kind, dest := destOf d, words := words, numerr := ne, dead := false,
                                        port := port, pop := none, addr := addr, sx := false, interval := intervalOf s t, line := none, tan := none, sync := none }] } := by
  unfold deliver newId
  dsimp only
  rw [touchRegs_off _ _ hw.rollback hw.redund, intervalOf_modT fun x => by
    have h := (same_takeSources x l pops).trans (same_pendDst _ d kd)
    exact ⟨h.1, h.2.1⟩]
  rfl

/-! ## Plain bytes -/

theorem accXlate_hit {s : State} {w : Workgroup} {x : Thread} {va : Word} {r wr : Bool} {lf : Leaf}
    (h : PageHit s x.tid.core w.pasid x.pl va r wr lf) (hk : lf.key = 0) : accXlate s w x va r wr false = (s, .ok lf (leafPa lf va.toNat)) := by
  obtain ⟨h1, ⟨e, h2, h3, h4⟩, h5, h6⟩ := h
  subst h3
  have hs : e.leaf.seenBy x.pl = e.leaf := by unfold Leaf.seenBy; rw [if_neg (by rw [hk]; simp)]
  have ht : translate s x.tid.core w.pasid va.toNat ⟨r, wr, false, x.pl⟩ = (s, .ok e.leaf (leafPa e.leaf va.toNat)) := by
    unfold translate
    rw [if_neg (by omega), h2]
    dsimp only
    rw [if_neg (by cases wr <;> simp_all)]
    unfold checked
    dsimp only
    rw [if_pos (by rw [h5, h6]; rfl), hs]
    rfl
  unfold accXlate
  rw [ht]

theorem coloursOf_none {lf : Leaf} (h1 : lf.stripe = 0) (h2 : lf.colour = 0) (va n : Nat) : coloursOf lf va n = [] := by
  have hc : ∀ a, colourAt lf a = 0 := fun a => by unfold colourAt; rw [if_pos h1, h2]
  have hz : ∀ l : List Nat, ((l.map fun i => colourAt lf (Nat.min (va + 64 * i) (va + n - 1))).eraseDups).filter (· != 0) = [] := by
    intro l
    rw [List.filter_eq_nil_iff]
    intro a ha
    have hm : a ∈ (l.map fun i => colourAt lf (Nat.min (va + 64 * i) (va + n - 1))) := List.mem_eraseDups.mp ha
    obtain ⟨i, _, rfl⟩ := List.mem_map.mp hm
    simp [hc]
  unfold coloursOf
  dsimp only
  rw [hz]
  rfl

theorem blockPieces_one {a n : Nat} (hn : 0 < n) (h : a % 64 + n ≤ 64) (k : Nat) : blockPieces (k + 2) a n = [(a, n)] := by
  have hm : Nat.min n (64 - a % 64) = n := Nat.min_eq_left (by omega)
  unfold blockPieces
  rw [if_neg (by omega)]
  dsimp only
  rw [hm, Nat.sub_self]
  unfold blockPieces
  rfl

theorem readHbmRange_plain {s : State} {a n : Nat} (hn : 0 < n) (h : a % 64 + n ≤ 64) (hb : getBlock s (a / 64) = Block.plain) :
    readHbmRange s a n 0 0 = (s, ⟨getCells a n s.mem, none, List.replicate n 0, [], false, false⟩) := by
  unfold readHbmRange
  rw [blockPieces_one hn h]
  simp only [List.foldl_cons, List.foldl_nil]
  unfold readHbm
  dsimp only
  rw [if_pos ⟨hb, rfl, rfl⟩]
  simp [maxClass]

theorem overlay_none {s : State} {t : Tid} (hs : ∀ y ∈ s.stores, y.core ≠ t.core) (hc : ∀ c ∈ s.compare, c.tid ≠ t) (a : Nat) (l : List Byte) :
    overlay s t a l = l := by
  unfold overlay
  have h1 : s.stores.filter (fun x => x.core == t.core) = [] := by
    rw [List.filter_eq_nil_iff]; intro y hy; simpa using hs y hy
  dsimp only
  rw [h1]
  generalize hg : List.filterMap _ s.compare = g
  have h2 : g = [] := by
    rw [← hg, List.filterMap_eq_nil_iff]
    intro c hc'
    have : (c.tid == t) = false := by simpa using hc c hc'
    simp [this]
  rw [h2]
  simp only [List.map_nil, List.nil_append, List.foldl_nil]
  apply List.ext_getElem
  · simp
  · intro i h1 h2
    simp at h1
    simp [h1]

theorem drainOverlap_none {s : State} {core : Nat} (hs : ∀ y ∈ s.stores, y.core ≠ core) (a n : Nat) : drainOverlap s core a n = s := by
  unfold drainOverlap
  have h1 : s.stores.filter (fun x => x.core == core && cellsTouch x.cells a n) = [] := by
    rw [List.filter_eq_nil_iff]; intro y hy
    have := hs y hy
    simp [this]
  rw [h1]
  rfl

/-- A fill of the L1 changes its lines alone, and every line that is new is the line filled (R203). -/
theorem l1Fill_frame (s : State) (core blk : Nat) (d : List Byte) (first : Bool) :
    ∃ l1', l1Fill s core blk d first = { s with l1 := l1' } ∧ ∀ y ∈ l1', y ∈ s.l1 ∨ (y.core = core ∧ y.block = blk) := by
  have hl : ∀ y ∈ (⟨core, blk, d, first⟩ : L1Line) :: s.l1.filter (fun x => !(x.core == core && x.block == blk)), y ∈ s.l1 ∨ (y.core = core ∧ y.block = blk) := by
    intro y hy
    rcases List.mem_cons.mp hy with rfl | hy
    · exact .inr ⟨rfl, rfl⟩
    · exact .inl (List.mem_filter.mp hy).1
  unfold l1Fill
  dsimp only
  split
  · exact ⟨_, rfl, hl⟩
  · split
    · exact ⟨_, rfl, hl⟩
    · exact ⟨_, rfl, fun y hy => hl y (List.mem_of_mem_erase hy)⟩

/-- A read of plain bytes that no line of the core's L1 holds: memory's own bytes; the line may be filled (R203). -/
theorem readPa_plain {s : State} {x : Thread} {w : Workgroup} {va : Word} {n : Nat} {r wr : Bool} {lf : Leaf} {a : Nat} (h : PlainBytes s x w va n r wr lf a) (hn : 0 < n) (poc : Bool) (cp : Cp)
  (hl : ∀ y ∈ s.l1, y.core = x.tid.core → y.block ≠ a / 64) :
  ∃ l1', readPa s w x lf (leafPa lf va.toNat) n va poc cp = ({ s with l1 := l1' }, .data ⟨getCells a n s.mem, none, List.replicate n 0, [], false, false⟩)
    ∧ ∀ y ∈ l1', y ∈ s.l1 ∨ (y.core = x.tid.core ∧ y.block = a / 64) := by
  have hl' : l1Find s x.tid.core (a / 64) = none := by
    unfold l1Find
    rw [List.find?_eq_none]; intro y hy
    simp only [Bool.and_eq_true, beq_iff_eq, not_and]
    exact hl y hy
  unfold readPa
  rw [h.home]
  dsimp only
  rw [hl', h.leaf.key, h.leaf.layout]
  simp only [Option.map_none, ite_self]
  have hr := readHbmRange_plain (s := s) hn h.fits h.block
  split
  · rename_i heq; cases heq
  · rw [hr]
    dsimp only
    rw [overlay_none h.stores h.compare]
    split
    · obtain ⟨l1', e, hl1⟩ := l1Fill_frame s x.tid.core (a / 64) (overlay s x.tid (a / 64 * 64) ‹_›) (cp == .st)
      exact ⟨l1', by rw [e], hl1⟩
    · exact ⟨s.l1, rfl, fun y hy => .inl hy⟩
  · rw [drainOverlap_none h.stores, hr]
    dsimp only
    rw [overlay_none h.stores h.compare]
    exact ⟨s.l1, rfl, fun y hy => .inl hy⟩

theorem hbm_reads {s : State} {x : Thread} {w : Workgroup} {va : Word} {n : Nat} {r wr : Bool} {lf : Leaf} {a : Nat} (h : PlainBytes s x w va n r wr lf a) :
    (∀ ord, atomicWidthBad s (leafPa lf va.toNat) n ord = false) ∧ locOf s w.pasid (leafPa lf va.toNat) = a ∧ coloursOf lf va.toNat n = [] ∧
      (∀ ord cs, isChecked lf w ord cs = false) := by
  refine ⟨fun ord => ?_, ?_, coloursOf_none h.leaf.stripe h.leaf.colour _ _, fun ord cs => ?_⟩
  · unfold atomicWidthBad homeClass
    rw [h.home]
    simp
  · unfold locOf canon
    rw [h.home]
    rfl
  · unfold isChecked
    rw [h.leaf.rc]
    rfl

/-- An operand of a clean lane. -/
theorem opv_clean {s : State} {w : Workgroup} {x : Thread} {l : List SrcSpec} (h : Clean s w x l) (i : Nat) : (opv (readSrcs s w x l []).vals i).poison = false := by
  unfold Clean at h
  unfold opv
  rw [List.any_eq_false] at h
  by_cases hi : i < (readSrcs s w x l []).vals.length
  · have := h _ (List.getElem_mem hi)
    simp [hi] ; simpa using this
  · simp [hi, Opv.zero, Opv.poison]
theorem dataFill_plain (n : Nat) (sx : Bool) (b : List Byte) : dataFill n sx ⟨b, b.map fun _ => false, false⟩ = (dataWords n sx b).map fun v => ⟨v, false, []⟩ := by
  unfold dataFill
  dsimp only
  apply List.ext_getElem
  · simp
  · intro i h1 h2
    simp at h1
    simp [h1, List.any_eq_false]
    all_goals
      intro y
      have := List.mem_of_mem_drop (List.mem_of_mem_take y)
      simp at this
theorem loadOrder_quiet (s : State) (t : Tid) (ord : Ord) (sc : Scope) (loc : Nat) (hs : ∀ e ∈ s.syncs, e.addr ≠ loc) :
   ∃ l1', loadOrder s t ord sc loc = { s with l1 := l1' } ∧ ∀ y ∈ l1', y ∈ s.l1 := by
  have h1 : s.syncs.filter (fun e => e.addr == loc) = [] := by
    rw [List.filter_eq_nil_iff]; intro e he; simpa using hs e he
  unfold loadOrder
  split
  · exact ⟨s.l1, rfl, fun _ h => h⟩
  · have h2 : syncRead s t loc (Ord.acq ord) sc = s := by
      unfold syncRead
      rw [h1]
      dsimp only
      split
      · rfl
      · simp
    rw [h2]
    split
    · unfold acquire
      split
      · exact ⟨_, rfl, fun y hy => (List.mem_filter.mp hy).1⟩
      · exact ⟨s.l1, rfl, fun _ h => h⟩
    · exact ⟨s.l1, rfl, fun _ h => h⟩


theorem took_vc (s : State) (l : List SrcSpec) (pops : List Nat) (x : Thread) (v : List (Nat × Nat)) :
    Took s l pops x (advance s.cur s.now (takeSources { x with vc := v } l pops)) := by
  have ho := onlyReads_takeSources { x with vc := v } l pops
  refine ⟨⟨rfl, rfl, rfl⟩, readDone_takeSources (z := { x with vc := v }) _ _ ⟨rfl, rfl, rfl⟩ ⟨rfl, rfl, rfl⟩, ?_⟩
  unfold OnlyReads at ho
  rw [ho]
  rfl

/-- A word that has changed only the clock of its thread, and then takes its sources and retires. -/
theorem oneDone_took {s s' : State} {x : Thread} {v : List (Nat × Nat)} {l : List SrcSpec} {pops : List Nat} (hr : x.run = .ready) (hc : s'.cur = s.cur) (hn : s'.now = s.now)
   (h1 : getT s' x.tid = some { x with vc := v }) (h2 : ∀ u, u ≠ x.tid → getT s' u = getT s u) :
   OneDone s (retire (modT s' x.tid fun y => takeSources y l pops) x.tid) x (Took s l pops x) := by
  have htk : ∀ y : Thread, y.tid = x.tid → (takeSources y l pops).tid = x.tid := fun y hy => (same_takeSources y l pops).1.trans hy
  refine oneDone_retire (z := takeSources { x with vc := v } l pops) ?_ ((same_takeSources _ l pops).2.2.1.trans hr) ?_ ?_
  · rw [getT_modT htk, h1]; rfl
  · exact fun u hu => (getT_modT_ne htk hu).trans (h2 u hu)
  · show Took s l pops x (advance s'.cur s'.now _)
    rw [hc, hn]
    exact took_vc s l pops x v

/-- A write within a block without layout, key, error or poison (R125). -/
theorem writeHbmRange_plain {s : State} {a : Nat} {bytes : List Byte} (h0 : 0 < bytes.length) (hn : bytes.length < 64) (h : a % 64 + bytes.length ≤ 64) (hb : getBlock s (a / 64) = Block.plain) :
   writeHbmRange s a bytes 0 0 false = { s with mem := setCells (cellsAt a bytes) s.mem, dirty := (markDirty s (a / 64)).dirty } := by
  unfold writeHbmRange
  rw [blockPieces_one h0 h]
  simp only [List.foldl_cons, List.foldl_nil]
  unfold writeHbm
  dsimp only
  rw [List.take_length, if_neg (by omega), hb, if_pos ⟨rfl, by decide, rfl, rfl, rfl, rfl⟩]
  unfold putBlock
  dsimp only
  rw [if_neg (by decide), markDirty_frame]
  have e : ∀ S : State, S.blocks = s.blocks → setBlock S (a / 64) { Block.plain with poison := false } = S := fun S hS => setBlock_same (by unfold getBlock at hb ⊢; rw [hS, hb]; rfl)
  refine (e _ (by rfl)).trans ?_
  have hd : ∀ m, (markDirty { s with mem := m } (a / 64)).dirty = (markDirty s (a / 64)).dirty := fun m => markDirty_congr (s := s) (t := { s with mem := m }) rfl _
  rw [hd]
  rfl
/-- The module's own HBM is no host memory. -/
theorem hbm_lt {self : Nat} {dom : List Nat} {pa a : Nat} (h : homeOf self dom pa = .hbm a) : isHostKey a = false := by
  have hs : ∀ off, stripedHome off < 2 ^ 44 := by
    intro off
    unfold stripedHome bits
    omega
  have ha : a < 2 ^ 44 := by
    unfold homeOf at h
    dsimp only at h
    split at h
    · rename_i hc
      split at h
      · cases h; omega
      · cases h
    · split at h
      · split at h
        · cases h; exact hs _
        · cases h
      · split at h
        · cases h
        · split at h
          · cases h
          · split at h
            · cases h
            · split at h
              · split at h
                · cases h; exact hs _
                · split at h <;> cases h
              · cases h
  unfold isHostKey
  simp
  omega
theorem leBytes_length (n x : Nat) : (leBytes n x).length = n := by
  induction n generalizing x with
  | zero => rfl
  | succ n ih => simp [leBytes, ih]
/-- A store's order effects: synchronisation records, and a new count of the thread's own clock where it releases (R206, R208). -/
theorem storeOrder_spec {s : State} {x : Thread} (ord : Ord) (sc : Scope) (loc : Nat) (hx : getT s x.tid = some x) :
    storeOrder s x.tid ord sc loc = { s with threads := (storeOrder s x.tid ord sc loc).threads, syncs := (storeOrder s x.tid ord sc loc).syncs } ∧
    ∃ v, getT (storeOrder s x.tid ord sc loc) x.tid = some { x with vc := v } ∧
      ∀ u, u ≠ x.tid → getT (storeOrder s x.tid ord sc loc) u = getT s u := by
  have hbv : ∀ s' : State, s'.threads = s.threads → ∃ v, getT (bumpVc s' x.tid) x.tid = some { x with vc := v } ∧ ∀ u, u ≠ x.tid → getT (bumpVc s' x.tid) u = getT s u := by
    intro s' h
    refine ⟨kset (Tid.key x.tid) (kget 0 (Tid.key x.tid) x.vc + 1) x.vc, ?_, ?_⟩
    · unfold bumpVc
      rw [getT_modT (f := fun y => { y with vc := kset (Tid.key x.tid) (kget 0 (Tid.key x.tid) y.vc + 1) y.vc }) (fun _ h => h), getT_frame h, hx]
      rfl
    · intro u hu
      unfold bumpVc
      exact (getT_modT_ne (f := fun y => { y with vc := kset (Tid.key x.tid) (kget 0 (Tid.key x.tid) y.vc + 1) y.vc }) (fun _ h => h) hu).trans (getT_frame h u)
  unfold storeOrder
  by_cases ho : (ord == .plain) = true
  · rw [if_pos ho]
    exact ⟨rfl, x.vc, hx, fun _ _ => rfl⟩
  · rw [if_neg ho]
    unfold syncWrite
    cases hr : Ord.rel ord
    · exact ⟨rfl, x.vc, hx, fun _ _ => rfl⟩
    · exact ⟨rfl, hbv _ rfl⟩


/-! ## Words that act once for their group -/

theorem Solo.active {s : State} {pg : Guard} {x : Thread} {w : Workgroup} (h : Solo s pg x w) : activeLanes s pg = [(x, w)] := by
  unfold activeLanes
  rw [h.alone]
  simp [h.thread, h.passes, h.group]

theorem Solo.idle {s : State} {pg : Guard} {x : Thread} {w : Workgroup} (h : Solo s pg x w) : retireIdle s pg = s := by
  unfold retireIdle
  rw [h.alone]
  simp [h.thread, h.passes]

/-- A word that acts once, in a group of one lane whose operands are sound. -/
theorem perGroup_solo {s : State} {pg : Guard} {x : Thread} {w : Workgroup} {extra : Thread → List Cause} {l : List SrcSpec} {d : Dst} {kd : Nat}
    {ad : List Nat} {act : State → Workgroup → Thread → List Opv → List Tid → State × GroupRes} (h : Solo s pg x w) (hu : dualCause s w = [])
    (he : extra x = []) (hc : (readSrcs s w x l []).causes = []) (hw : (readSrcs s w x l []).wait = false) (hd : dstCheck w x d kd = ([], false))
    (hp : poisonCauses ad (readSrcs s w x l []).vals = []) :
    perGroupWith s pg extra l d kd ad act =
      match act s w x (readSrcs s w x l []).vals [x.tid] with
      | (s', .retire) =>
        retire (touchRegs (modT s' x.tid fun t => takeKeeping (dstRegs d kd) t l (readSrcs s w x l []).pops) w x.tid (markedRegs l)) x.tid
      | (s', .trap c) => trapAll s' [x.tid] [(x.tid, c)] []
      | (s', .wait z) => waitFor s' x.tid z
      | (s', .eat c) => trapAll s' [x.tid] [(x.tid, c)] []
      | (s', .killAll k a) => settleTraps s' (trapPc s.cur) s.cur.legacy [] [] [(x.tid, { code := k, addr := a })]
      | (s', .settled) => s' := by
  generalize hA : act s w x (readSrcs s w x l []).vals [x.tid] = A
  obtain ⟨s', g⟩ := A
  unfold perGroupWith
  rw [h.active, h.idle]
  simp only [List.head?_cons, List.map_cons, List.map_nil, List.filterMap_cons, List.filterMap_nil, hu, he, hc, hw, hd, hp, lowest, minBy,
    beq_self_eq_true, if_true, List.append_nil, List.any_cons, List.any_nil, Bool.or_false, Option.map_none, List.isEmpty_nil, Bool.not_true,
    Bool.false_eq_true, if_false, hA]
  cases g <;> rfl

theorem poisonCause_clean {s : State} {w : Workgroup} {x : Thread} {l : List SrcSpec} (h : Clean s w x l) (ad : List Nat) :
    poisonCauses ad (readSrcs s w x l []).vals = [] := poisonCauses_clean h

/-- A base that is not POISON raises no cause. -/
theorem addrPoison_base {vals : List Opv} (h : (opv vals 0).poison = false) : addrPoison vals = [] := by
  unfold addrPoison
  refine poisonCauses_clean ?_
  cases vals with
  | nil => rfl
  | cons v l => simpa [opv] using h

theorem addrPoison_clean {s : State} {w : Workgroup} {x : Thread} {l : List SrcSpec} (h : Clean s w x l) : addrPoison (readSrcs s w x l []).vals = [] :=
  poisonCauses_clean (List.any_eq_false.mpr fun y hy => List.any_eq_false.mp h y (List.mem_of_mem_take hy))

/-! ## The scratchpad -/

theorem scrCauses_pad {s : State} {g : Workgroup} {a n : Nat} (h : PadBytes s g a n) (hn : 0 < n) : lowest (scrCauses g a n) = none ∧ scrAddr g a n = .pad a := by
  have h2 : scrAddr g a n = .pad a := by unfold scrAddr; rw [if_pos h.inside]
  refine ⟨?_, h2⟩
  unfold scrCauses
  dsimp only
  rw [h2, if_neg (by
    simp [h.aligned])]
  rfl

theorem scrRead_pad {s : State} {g : Workgroup} {a n : Nat} (h : PadBytes s g a n) (hn : 0 < n) (x : Thread) :
    scrRead s g x a n = (s, .data (padRead g a n).1 (padRead g a n).2) := by
  obtain ⟨h1, h2⟩ := scrCauses_pad h hn
  unfold scrRead
  rw [h1]
  dsimp only
  rw [h2]
  dsimp only
  have : fillChunk s g x a = (s, none) := by unfold fillChunk; rw [h.unbound]
  rw [this]
  dsimp only
  rw [h.known]
  rfl

theorem padWriteRange_one {s : State} {g : Workgroup} {a : Nat} {bytes : List Byte} (h : PadBytes s g a bytes.length) (h0 : 0 < bytes.length)
    (hf : a % 64 + bytes.length ≤ 64) (hl : bytes.length < 64) (p : Bool) :
    padWriteRange s g.id a bytes p true = modWg s g.id fun w => { w with
      pad := setCells (cellsAt a bytes) w.pad,
      padPoison := if p && !w.padPoison.contains (a / 64) then w.padPoison ++ [a / 64] else w.padPoison,
      chunks := updIf (fun c => c.index == a / 256) (fun c => { c with dirty := (c.dirty ++ dirtyIn c.index a bytes.length).eraseDups }) w.chunks } := by
  unfold padWriteRange
  rw [blockPieces_one h0 hf]
  simp only [List.foldl_cons, List.foldl_nil]
  unfold padWrite
  dsimp only
  have ht : touchGranule s g.id (a / 256) = s := by
    unfold touchGranule
    rw [h.known]
    simp [h.plain.rollback, h.plain.redund]
  rw [ht, List.take_length]
  simp only [if_true]
  simp only [show ¬(bytes.length = 64 ∧ a % 64 = 0) by omega, if_false]

theorem updIf_none {α : Type} {p : α → Bool} {f : α → α} {l : List α} (h : ∀ x ∈ l, p x = false) : updIf p f l = l := by
  unfold updIf
  conv => rhs; rw [← List.map_id l]
  apply List.map_congr_left
  intro x hx
  simp [h x hx]

theorem getWg_modWg (s : State) (k n : Nat) (f : Workgroup → Workgroup) (hf : ∀ w, (f w).id = w.id) :
    getWg (modWg s k f) n = (getWg s n).map fun w => if n = k then f w else w := by
  unfold getWg modWg
  dsimp only
  generalize s.wgs = l
  induction l with
  | nil => rfl
  | cons y r ih =>
    simp only [updIf, List.map_cons, List.find?_cons] at ih ⊢
    by_cases h : y.id = n
    · subst h
      by_cases h2 : y.id = k
      · simp [h2, hf y]
      · simp [h2]
    · have h1 : (y.id == n) = false := by simpa using h
      have h2 : ((if (y.id == k) = true then f y else y).id == n) = false := by
        split
        · rw [hf]; exact h1
        · exact h1
      rw [h1, h2]
      exact ih

theorem scrWrite_pad {s : State} {g : Workgroup} {a : Nat} {bytes : List Byte} (h : PadBytes s g a bytes.length) (h0 : 0 < bytes.length) (x : Thread) (p : Bool) :
    scrWrite s g x a bytes p = (padWriteRange s g.id a bytes p true, none) := by
  obtain ⟨h1, h2⟩ := scrCauses_pad h h0
  unfold scrWrite
  rw [h1]
  dsimp only
  rw [h2]
  dsimp only
  have : fillChunk s g x a = (s, none) := by unfold fillChunk; rw [h.unbound]
  rw [this]
  dsimp only
  have h3 : ((getWg s g.id).getD g) = g := by rw [h.known]; rfl
  rw [h3]
  have : chunkWritable s g x a = (s, none) := by unfold chunkWritable; rw [h.unbound]
  rw [this]

theorem padStored {s : State} {g : Workgroup} {a : Nat} {bytes : List Byte} (h : PadBytes s g a bytes.length) (h0 : 0 < bytes.length)
    (hf : a % 64 + bytes.length ≤ 64) (hl : bytes.length < 64) (p : Bool) :
    padWriteRange s g.id a bytes p true = { s with wgs := (padWriteRange s g.id a bytes p true).wgs } ∧
      PadStored s (padWriteRange s g.id a bytes p true) g a bytes p := by
  have e := padWriteRange_one h h0 hf hl p
  rw [e]
  refine ⟨rfl, ⟨{ g with pad := setCells (cellsAt a bytes) g.pad, padPoison := if p && !g.padPoison.contains (a / 64) then g.padPoison ++ [a / 64] else g.padPoison },
    ?_, rfl, rfl, fun c => ?_⟩, fun k hk => ?_⟩
  · refine (getWg_modWg s g.id _ _ (by intro w; rfl)).trans ?_
    rw [h.known, Option.map_some, if_pos rfl]
    rw [updIf_none (fun c hc => by simpa using h.unchunked c hc)]
  · by_cases hc : a ≤ c ∧ c < a + bytes.length
    · rw [if_pos hc]
      obtain ⟨i, rfl⟩ : ∃ i, c = a + i := ⟨c - a, by omega⟩
      rw [getCell_cellsAt h.form (by omega)]
      congr 1
      omega
    · rw [if_neg hc]
      exact getCell_cellsAt_ne h.form (by omega)
  · refine (getWg_modWg s g.id _ _ (by intro w; rfl)).trans ?_
    simp [hk]

/-- A lane whose value is on its way. -/
theorem oneDone_awaits {s s' : State} {w : Workgroup} {x : Thread} {l : List SrcSpec} {pops : List Nat} {d : Dst} {kd : Nat} (hx : getT s x.tid = some x)
    (hr : x.run = .ready) (ha : x.armed = none) (hw : w.role = .single) (hc : s'.cur = s.cur) (hn : s'.now = s.now)
    (ht : s'.threads = (modT s x.tid fun y => pendDst (takeSources y l pops) d kd).threads) :
    OneDone s (retire s' x.tid) x (Awaits s l pops d kd x) := by
  have htk : ∀ y : Thread, y.tid = x.tid → (pendDst (takeSources y l pops) d kd).tid = x.tid := fun y hy => (pend_tid y _ _ _ _).trans hy
  refine oneDone_retire (z := pendDst (takeSources x l pops) d kd) ?_ (pend_ready _ _ _ _ _ hr) (fun u hu => ?_) ?_
  · rw [getT_frame ht, getT_modT (f := fun y => pendDst (takeSources y l pops) d kd) htk, hx]; rfl
  · rw [getT_frame ht]
    exact getT_modT_ne htk hu
  · rw [hc, hn]
    exact awaits_pend _ _ _ _ ha hw

theorem scrPolicy_clean (s : State) (w : Workgroup) (a : Nat) (b : List Byte) : scrPolicy s w a b false = (s, .ok ⟨b, b.map fun _ => false, false⟩) := rfl

theorem padRead_clean {g : Workgroup} (h : g.padPoison = []) (a n : Nat) : padRead g a n = (getCells a n g.pad, false) := by
  unfold padRead
  rw [h]
  simp

/-- A state that differs in the clock of one thread only. -/
def VcOnly (s t : State) (x : Tid) : Prop :=
  t = { s with threads := t.threads } ∧ (∀ z, getT s x = some z → ∃ v, getT t x = some { z with vc := v }) ∧ ∀ u, u ≠ x → getT t u = getT s u

theorem VcOnly.refl (s : State) (x : Tid) : VcOnly s s x := ⟨rfl, fun z h => ⟨z.vc, h⟩, fun _ _ => rfl⟩

theorem VcOnly.trans {a b c : State} {x : Tid} (h : VcOnly a b x) (k : VcOnly b c x) : VcOnly a c x := by
  obtain ⟨h1, h2, h3⟩ := h
  obtain ⟨k1, k2, k3⟩ := k
  refine ⟨by rw [k1, h1], fun z hz => ?_, fun u hu => (k3 u hu).trans (h3 u hu)⟩
  obtain ⟨v, hv⟩ := h2 z hz
  obtain ⟨v', hv'⟩ := k2 _ hv
  exact ⟨v', hv'⟩

theorem vcOnly_modT (s : State) (x : Tid) (g : Thread → List (Nat × Nat)) : VcOnly s (modT s x fun y => { y with vc := g y }) x :=
  ⟨rfl, fun z hz => ⟨g z, by rw [getT_modT (f := fun y => { y with vc := g y }) (fun _ h => h), hz]; rfl⟩,
    fun u hu => getT_modT_ne (f := fun y => { y with vc := g y }) (fun _ h => h) hu⟩

theorem vcOnly_joins (x : Tid) (c : State → SyncLoc → Bool) : ∀ (l : List SyncLoc) (s : State), VcOnly s (l.foldl (fun s e => if c s e then joinVc s x e.vc else s) s) x
  | [], s => VcOnly.refl s x
  | e :: r, s => by
    rw [List.foldl_cons]
    refine VcOnly.trans ?_ (vcOnly_joins x c r _)
    split
    · exact vcOnly_modT s x _
    · exact VcOnly.refl s x

theorem leNat_leBytes : ∀ (l : List Byte), leBytes l.length (leNat l) = l
  | [] => rfl
  | b :: r => by
    have hb := b.isLt
    show BitVec.ofNat 8 (b.toNat + 256 * leNat r) :: leBytes r.length ((b.toNat + 256 * leNat r) / 256) = _
    rw [show (b.toNat + 256 * leNat r) / 256 = leNat r by omega, leNat_leBytes r]
    congr 1
    apply BitVec.eq_of_toNat_eq
    rw [BitVec.toNat_ofNat]
    omega

theorem getCells_length (a : Nat) : ∀ (n : Nat) (m : List Host.Cell), (getCells a n m).length = n := by
  intro n
  induction n generalizing a with
  | zero => intro m; rfl
  | succ n ih => intro m; simp [getCells, ih]

theorem getCells_getD (m : List Host.Cell) : ∀ (n a i : Nat), i < n → (getCells a n m).getD i 0 = getCell (a + i) m
  | n + 1, a, 0, _ => rfl
  | n + 1, a, i + 1, h => by
    show (getCells (a + 1) n m).getD i 0 = _
    rw [getCells_getD m n (a + 1) i (by omega)]
    congr 1
    omega

/-- Writing back the bytes that are there changes no byte. -/
theorem rewrite_same {m : List Host.Cell} (h : Memory.wf m = true) (a n c : Nat) : getCell c (setCells (cellsAt a (getCells a n m)) m) = getCell c m := by
  by_cases hc : a ≤ c ∧ c < a + n
  · obtain ⟨i, rfl⟩ : ∃ i, c = a + i := ⟨c - a, by omega⟩
    rw [getCell_cellsAt h (by rw [getCells_length]; omega), getCells_getD m n a i (by omega)]
  · exact getCell_cellsAt_ne h (by rw [getCells_length]; omega)

theorem readBlock_desc (d : BitVec 16) (blk data : Nat) : readBlock ⟨12, d, 0, false, 0, 0, false⟩ blk 12 0 data = ⟨data, d, [0, 0, 0, 0], false, false, false⟩ := by
  unfold readBlock readBlockRaw
  dsimp only
  rw [if_neg (by decide), if_neg (by decide), if_pos ⟨rfl, rfl, rfl, rfl⟩]
  rfl

theorem updIf_same {α : Type} {p : α → Bool} {f : α → α} {l : List α} (h : ∀ x ∈ l, p x = true → f x = x) : updIf p f l = l := by
  unfold updIf
  conv => rhs; rw [← List.map_id l]
  apply List.map_congr_left
  intro x hx
  split
  · exact h x hx (by assumption)
  · rfl

theorem takeSources_nil (x : Thread) : takeSources x [] [] = x := by
  unfold takeSources joinTokens namedTokens
  simp [popQueues, markedRegs]

theorem modT_take_nil (s : State) (t : Tid) : (modT s t fun y => takeSources y [] []) = s := by
  unfold modT
  rw [updIf_same fun y _ _ => takeSources_nil y]



/-- A word of one lane that changes the machine as `S` says, takes its sources and retires. -/
theorem Solo.took {s S : State} {pg : Guard} {x : Thread} {w : Workgroup} {f : State → Workgroup → Thread → State × LaneRes} {l : List SrcSpec} {pops : List Nat}
    {v : List (Nat × Nat)} {out : Host.Outcome State Fault Refusal} (h : Solo s pg x w) (ho : out = .next (perLane s pg f)) (hc : S.cur = s.cur) (hn : S.now = s.now)
    (h1 : getT S x.tid = some { x with vc := v }) (h2 : ∀ u, u ≠ x.tid → getT S u = getT s u)
    (hf : f s w x = (modT S x.tid fun y => takeSources y l pops, .retire [])) :
    ∃ t, out = .next t ∧ t = { S with threads := t.threads } ∧ OneDone s t x (Took s l pops x) := by
  refine ⟨_, ho, ?_⟩
  rw [h.retire hf]
  exact ⟨rfl, oneDone_took h.ready hc hn h1 h2⟩

/-- The same, threads untouched. -/
theorem Solo.took' {s S : State} {pg : Guard} {x : Thread} {w : Workgroup} {f : State → Workgroup → Thread → State × LaneRes} {l : List SrcSpec} {pops : List Nat}
    {out : Host.Outcome State Fault Refusal} (h : Solo s pg x w) (ho : out = .next (perLane s pg f)) (hc : S.cur = s.cur) (hn : S.now = s.now)
    (ht : S.threads = s.threads) (hf : f s w x = (modT S x.tid fun y => takeSources y l pops, .retire [])) :
    ∃ t, out = .next t ∧ t = { S with threads := t.threads } ∧ OneDone s t x (Took s l pops x) :=
  h.took ho hc hn (v := x.vc) ((getT_frame ht _).trans h.thread) (fun u _ => getT_frame ht u) hf

/-- A word whose only operand is a base address. -/
theorem Solo.addr {s S : State} {pg : Guard} {x : Thread} {w : Workgroup} {base : Src} {off : BitVec 20} {f : State → Workgroup → Thread → Word → State × Option LaneRes}
    {out : Host.Outcome State Fault Refusal} (h : Solo s pg x w) (so : Sound s w x [⟨base, 2, .int⟩] .zero 0) (hcl : Clean s w x [⟨base, 2, .int⟩])
    (ho : out = .next (addrWord s pg base off f)) (hc : S.cur = s.cur) (hn : S.now = s.now) (ht : S.threads = s.threads)
    (hf : f s w x (baseEa base off s w x) = (S, none)) :
    ∃ t, out = .next t ∧ t = { S with threads := t.threads } ∧ OneDone s t x (Took s [⟨base, 2, .int⟩] (readSrcs s w x [⟨base, 2, .int⟩] []).pops x) := by
  unfold addrWord at ho
  refine h.took' ho hc hn ht ?_
  rw [withSrcs_ok so.dual (addrPoison_clean hcl) so.causes so.full so.dst]
  rw [show globalEa (opv (readSrcs s w x [⟨base, 2, .int⟩] []).vals 0) off = baseEa base off s w x from rfl, hf]
  dsimp only
  rw [touchRegs_off _ _ so.plain.rollback so.plain.redund]

end Sys2Proof.Machine
end

