-- ==== Sys2Proof/Laws/OneThread.lean ====
section
/-! SUPPORT. One thread: what it holds after a word that acts on more than it, for words that act lane by lane and for words that act once. -/

namespace Sys2Proof.Machine

theorem regOf_takeKeeping (keep : List (Bool × Nat)) (t : Thread) (l : List SrcSpec) (pops : List Nat) (r : Bool × Nat) :
    regOf (takeKeeping keep t l pops) r = if ((markedRegs l).contains r && !keep.contains r) = true then regDead else regOf t r := by
  unfold takeKeeping
  rw [regOf_kill, regOf_congr (b := t) ((popQueues_v _ _).trans (joinTokens_v _ _)) ((popQueues_o _ _).trans (joinTokens_o _ _))]
  congr 1
  simp only [List.contains_iff_mem, List.mem_filter, Bool.and_eq_true, eq_iff_iff]

theorem takeKeeping_rest (keep : List (Bool × Nat)) (t : Thread) (l : List SrcSpec) (pops : List Nat) :
    takeKeeping keep t l pops = { t with
      v := (takeKeeping keep t l pops).v, o := (takeKeeping keep t l pops).o, q := (takeKeeping keep t l pops).q,
      vc := (takeKeeping keep t l pops).vc, tokens := (takeKeeping keep t l pops).tokens } := by
  have h : ∀ (m : List (Bool × Nat)) (y : Thread), m.foldl killReg y = { y with v := (m.foldl killReg y).v, o := (m.foldl killReg y).o } := by
    intro m
    induction m with
    | nil => exact fun _ => rfl
    | cons r m ih =>
      intro y
      rw [List.foldl_cons, ih]
      unfold killReg
      split <;> rfl
  unfold takeKeeping
  rw [h]
  have hq : ∀ (p : List Nat) (y : Thread), popQueues y p = { y with q := (popQueues y p).q, vc := (popQueues y p).vc } := by
    intro p
    unfold popQueues
    induction p with
    | nil => exact fun _ => rfl
    | cons a p ih => intro y; rw [List.foldl_cons, ih]
  rw [hq]
  unfold joinTokens
  split <;> rfl

theorem takeKeeping_q (keep : List (Bool × Nat)) (t : Thread) (l : List SrcSpec) (pops : List Nat) (n : Nat) :
    kget [] n (takeKeeping keep t l pops).q = (kget [] n t.q).drop (pops.count n) := by
  unfold takeKeeping
  rw [kill_q, popQueues_q, joinTokens_q]

theorem mem_dstRegs (d : Dst) (k : Nat) (r : Bool × Nat) : (dstRegs d k).contains r = (dstWord d r.1 k r.2).isSome := by
  obtain ⟨b, n⟩ := r
  have key : ∀ (c : Bool) (m : Nat), ((List.range k).map fun i => (c, m + i)).contains (b, n)
      = decide (b = c ∧ m ≤ n ∧ n < m + k) := by
    intro c m
    rw [Bool.eq_iff_iff]
    simp only [List.contains_iff_mem, List.mem_map, List.mem_range, Prod.mk.injEq, decide_eq_true_eq]
    constructor
    · rintro ⟨i, h1, rfl, rfl⟩
      exact ⟨rfl, by omega, by omega⟩
    · rintro ⟨rfl, h1, h2⟩
      exact ⟨n - m, by omega, rfl, by omega⟩
  cases d <;> cases b <;> simp only [dstRegs, dstWord, key, List.contains_nil, Option.isSome_none, true_and, false_and, decide_false, reduceCtorEq] <;>
    (split <;> simp_all)

/-- The thread after a word, from the thread just before it passes the word. -/
theorem oneAfter_mk {s : State} {l : List SrcSpec} {pops : List Nat} {d : Dst} {kd : Nat} {e : Ending} {f : Thread → Thread} {x z : Thread}
    (hr : ∀ r, regOf z r = regEnd l d kd e r.1 r.2 (regOf x r))
    (hlr : z.lr = lrEnd d e x.lr)
    (hq : ∀ n, kget [] n z.q = (kget [] n (f x).q).drop (pops.count n))
    (hrest : z = { f x with v := z.v, o := z.o, lr := z.lr, lrPoison := z.lrPoison, lrSh := z.lrSh, q := z.q, vc := z.vc, tokens := z.tokens }) :
    OneAfter s l pops d kd e f x (advance s.cur s.now z) := by
  refine ⟨⟨rfl, rfl, rfl⟩, fun n => hr (false, n), fun n => hr (true, n), hlr, hq, ?_⟩
  unfold advance
  rw [hrest]


theorem advance_keeping {s : State} {l : List SrcSpec} {pops : List Nat} {d : Dst} {kd : Nat} {e : Ending} {f : Thread → Thread} {x z : Thread}
    (hr : ∀ r, regOf z r = if (dstWord d r.1 kd r.2).isSome then regEnd l d kd e r.1 r.2 (regOf x r) else regOf x r)
    (he : ∀ ws, e = .wrote ws → ws.length = kd)
    (hlr : z.lr = lrEnd d e x.lr) (hq : z.q = (f x).q)
    (hrest : z = { f x with v := z.v, o := z.o, lr := z.lr, lrPoison := z.lrPoison, lrSh := z.lrSh, q := z.q, vc := z.vc, tokens := z.tokens }) :
    OneAfter s l pops d kd e f x (advance s.cur s.now (takeKeeping (dstRegs d kd) z l pops)) := by
  have h := takeKeeping_rest (dstRegs d kd) z l pops
  refine oneAfter_mk (fun r => ?_) ?_ (fun n => ?_) ?_
  · rw [regOf_takeKeeping, mem_dstRegs, hr r]
    cases hd : (dstWord d r.1 kd r.2).isSome with
    | true => simp
    | false =>
      have hn : dstWord d r.1 kd r.2 = none := by simpa using hd
      cases e with
      | pending => simp [regEnd, regPending, hn]
      | wrote ws =>
        have := he ws rfl
        subst this
        simp [regEnd, regAfter, hn]
  · rw [h]; exact hlr
  · rw [takeKeeping_q, hq]
  · rw [h, hrest]

/-! ## Uniform registers -/

theorem uniformDone_congr {a b t t' : State} {r : List Tid} {gw : List (Tid × GWrite)} (h : UniformDone a t r gw) (h1 : b.warps = a.warps) (h2 : t'.warps = t.warps)
    (h3 : gw ≠ [] → ∀ c k, originMask t' r c k = originMask t r c k) : UniformDone b t' r gw := by
  intro c k wp hw
  have e1 : getWarp b c k = getWarp a c k := by unfold getWarp; rw [h1]
  have e2 : getWarp t' c k = getWarp t c k := by unfold getWarp; rw [h2]
  rw [e1] at hw
  obtain ⟨wp', g1, g2, g3⟩ := h c k wp hw
  refine ⟨wp', e2.trans g1, g2, fun n => ?_⟩
  have := g3 n
  cases hf : gFirst gw c k n with
  | none => rw [hf] at this; exact this
  | some e =>
    rw [hf] at this
    have hne : gw ≠ [] := by intro h; rw [h] at hf; cases hf
    rw [h3 hne]
    exact this

theorem uniformDone_nil {a t : State} (r : List Tid) (h : t.warps = a.warps) : UniformDone a t r [] := by
  intro c k wp hw
  have e : getWarp t c k = getWarp a c k := by unfold getWarp; rw [h]
  exact ⟨wp, e.trans hw, rfl, fun n => ⟨rfl, rfl, rfl⟩⟩

/-- The origin mask counts a retired lane as live, however its thread changes. -/
theorem originMask_modT (s : State) (u : Tid) (f : Thread → Thread) (hf : ∀ y, y.tid = u → (f y).tid = u) {r : List Tid} (hr : u ∈ r) (c k : Nat) :
    originMask (modT s u f) r c k = originMask s r c k := by
  unfold originMask modT
  dsimp only
  congr 1
  rw [eq_iff_iff, List.all_filter, List.all_filter]
  unfold updIf
  rw [List.all_map]
  rw [← Bool.eq_iff_iff]
  congr 1
  funext y
  dsimp only [Function.comp_apply]
  by_cases hy : y.tid = u
  · rw [if_pos (by simpa using hy), hf y hy, hy]
    by_cases hc : u.core = c ∧ u.slot = k
    · have : (List.filter (fun v => v.core == c && v.slot == k) r).contains u = true := by
        rw [List.contains_iff_mem, List.mem_filter]
        exact ⟨hr, by simp [hc.1, hc.2]⟩
      rw [this]
      simp
    · have : (u.core == c && u.slot == k) = false := by simpa using hc
      rw [this]
      simp
  · rw [if_neg (by simpa using hy)]

/-! ## Words that act once -/

theorem OneWord.group {a : OneWord} {s S E : State} {x z : Thread} {w : Workgroup} {out : Host.Outcome State Fault Refusal} {extra : Thread → List Cause} {ad : List Nat}
    {act : State → Workgroup → Thread → List Opv → List Tid → State × GroupRes} (h : Solo s a.pg x w) (so : a.Sound s w x)
    (ho : out = .next (perGroupWith s a.pg extra a.srcs a.d a.kd ad act)) (he : extra x = [])
    (hE : a.effect s w x (readSrcs s w x a.srcs []).vals = E)
    (hact : act s w x (readSrcs s w x a.srcs []).vals [x.tid] = (S, .retire))
    (hm : S = { E with threads := S.threads, warps := S.warps })
    (hu : match a.ending s w x (readSrcs s w x a.srcs []).vals with
      | .pending => S.warps = E.warps
      | .wrote ws => UniformDone E S [x.tid] ((gWrites a.d ws []).map fun y => (x.tid, y)))
    (hc : E.cur = s.cur) (hn : E.now = s.now) (hz : getT S x.tid = some z) (hrun : z.run = .ready) (hoth : ∀ u, u ≠ x.tid → getT S u = getT E u)
    (hT : OneAfter s a.srcs (readSrcs s w x a.srcs []).pops a.d a.kd (a.ending s w x (readSrcs s w x a.srcs []).vals)
      (a.also s w x (readSrcs s w x a.srcs []).vals) x
      (advance s.cur s.now (takeKeeping (dstRegs a.d a.kd) z a.srcs (readSrcs s w x a.srcs []).pops))) :
    ∃ t, out = .next t ∧ a.Done s t w x := by
  subst hE
  have op := so.operands
  have htk : ∀ y : Thread, y.tid = x.tid → (takeKeeping (dstRegs a.d a.kd) y a.srcs (readSrcs s w x a.srcs []).pops).tid = x.tid := by
    intro y hy; rw [takeKeeping_rest]; exact hy
  have hrt : ∀ y : Thread, y.tid = x.tid → (if (y.run == .killed) = true then y else advance S.cur S.now y).tid = x.tid := by
    intro y hy; split <;> simp [hy]
  refine ⟨_, ho, ?_⟩
  rw [perGroup_solo h op.dual he op.causes op.full op.dst (poisonCause_clean so.clean ad), hact]
  dsimp only
  rw [touchRegs_off _ _ op.plain.rollback op.plain.redund]
  have hth : ∀ (V : State), V = retire (modT S x.tid fun t => takeKeeping (dstRegs a.d a.kd) t a.srcs (readSrcs s w x a.srcs []).pops) x.tid →
      V = { S with threads := V.threads } := fun V hV => by rw [hV]; rfl
  have hV := hth _ rfl
  refine ⟨?_, ?_, ?_⟩
  · rw [hV]
    dsimp only
    generalize (retire (modT S x.tid fun t => takeKeeping (dstRegs a.d a.kd) t a.srcs (readSrcs s w x a.srcs []).pops) x.tid).threads = T
    rw [hm]
  · cases hend : a.ending s w x (readSrcs s w x a.srcs []).vals with
    | pending => rw [hend] at hu; exact hu
    | wrote ws =>
      rw [hend] at hu
      refine uniformDone_congr hu rfl rfl fun _ c k => ?_
      unfold retire
      rw [originMask_modT _ _ _ (by intro y hy; exact hrt y hy) (by simp), originMask_modT _ _ _ htk (by simp)]
  · have hS : S.cur = s.cur ∧ S.now = s.now := by rw [hm]; exact ⟨hc, hn⟩
    have := oneDone_retire (s := a.effect s w x (readSrcs s w x a.srcs []).vals) (s' := modT S x.tid fun t => takeKeeping (dstRegs a.d a.kd) t a.srcs (readSrcs s w x a.srcs []).pops)
      (x := x) (z := takeKeeping (dstRegs a.d a.kd) z a.srcs (readSrcs s w x a.srcs []).pops)
      (R := OneAfter s a.srcs (readSrcs s w x a.srcs []).pops a.d a.kd (a.ending s w x (readSrcs s w x a.srcs []).vals) (a.also s w x (readSrcs s w x a.srcs []).vals) x)
      (by rw [getT_modT htk, hz]; rfl) (by rw [takeKeeping_rest]; exact hrun)
      (fun u hu => (getT_modT_ne htk hu).trans (hoth u hu))
      (by show OneAfter _ _ _ _ _ _ _ _ (advance S.cur S.now _); rw [hS.1, hS.2]; exact hT)
    exact this

/-- A word without a destination. -/
theorem OneWord.group_took {a : OneWord} {s E V : State} {x : Thread} {w : Workgroup} {v : List (Nat × Nat)} {out : Host.Outcome State Fault Refusal}
    {extra : Thread → List Cause} {ad : List Nat}
    {act : State → Workgroup → Thread → List Opv → List Tid → State × GroupRes} (h : Solo s a.pg x w) (so : a.Sound s w x)
    (ho : out = .next (perGroupWith s a.pg extra a.srcs a.d a.kd ad act)) (he : extra x = []) (hd : a.d = .zero) (hk : a.kd = 0)
    (hend : a.ending s w x (readSrcs s w x a.srcs []).vals = .wrote []) (halso : a.also s w x (readSrcs s w x a.srcs []).vals = id)
    (hE : a.effect s w x (readSrcs s w x a.srcs []).vals = E) (hact : act s w x (readSrcs s w x a.srcs []).vals [x.tid] = (V, .retire))
    (hV : V = { E with threads := V.threads }) (hc : E.cur = s.cur) (hn : E.now = s.now) (hz : getT V x.tid = some { x with vc := v })
    (hoth : ∀ u, u ≠ x.tid → getT V u = getT E u) :
    ∃ t, out = .next t ∧ a.Done s t w x := by
  refine OneWord.group (S := V) (z := { x with vc := v }) h so ho he hE hact (by rw [hV]) ?_ hc hn hz h.ready hoth ?_
  · rw [hend, hd]
    exact uniformDone_nil _ (by rw [hV])
  · rw [hend, halso, hd, hk]
    refine advance_keeping (fun r => ?_) (fun ws h => ?_) rfl rfl rfl
    · rw [if_neg (by simp [dstWord])]
      exact regOf_congr rfl rfl r
    · cases h; rfl

/-- A word whose destination goes PENDING. -/
theorem OneWord.group_pending {a : OneWord} {s E S : State} {x : Thread} {w : Workgroup} {v : List (Nat × Nat)} {out : Host.Outcome State Fault Refusal}
    {extra : Thread → List Cause} {ad : List Nat}
    {act : State → Workgroup → Thread → List Opv → List Tid → State × GroupRes} (h : Solo s a.pg x w) (so : a.Sound s w x)
    (ho : out = .next (perGroupWith s a.pg extra a.srcs a.d a.kd ad act)) (he : extra x = [])
    (hend : a.ending s w x (readSrcs s w x a.srcs []).vals = .pending) (halso : a.also s w x (readSrcs s w x a.srcs []).vals = id)
    (hE : a.effect s w x (readSrcs s w x a.srcs []).vals = E)
    (hact : act s w x (readSrcs s w x a.srcs []).vals [x.tid] = (modT { E with threads := S.threads } x.tid fun y => pendDst y a.d a.kd, .retire))
    (hc : E.cur = s.cur) (hn : E.now = s.now) (hz : getT S x.tid = some { x with vc := v }) (hoth : ∀ u, u ≠ x.tid → getT S u = getT E u) :
    ∃ t, out = .next t ∧ a.Done s t w x := by
  have hp : ∀ y : Thread, y.tid = x.tid → (pendDst y a.d a.kd).tid = x.tid := fun y hy => (same_pendDst y a.d a.kd).1.trans hy
  have hk := keeps_pendDst { x with vc := v } a.d a.kd
  unfold Keeps at hk
  have hr := rest_pendDst { x with vc := v } a.d a.kd
  refine OneWord.group (S := modT { E with threads := S.threads } x.tid fun y => pendDst y a.d a.kd) (z := pendDst { x with vc := v } a.d a.kd) h so ho he hE hact rfl ?_ hc hn ?_ ?_ ?_ ?_
  · rw [hend]; rfl
  · rw [getT_modT hp, getT_frame (s := S) (t := { E with threads := S.threads }) rfl, hz]; rfl
  · exact (same_pendDst { x with vc := v } a.d a.kd).2.2.1.trans h.ready
  · intro u hu
    rw [getT_modT_ne hp hu, getT_frame (s := S) (t := { E with threads := S.threads }) rfl]
    exact hoth u hu
  · rw [hend, halso]
    refine advance_keeping (fun r => ?_) (fun ws h => by cases h) ?_ hr.q ?_
    · rw [regOf_pendDst]
      cases hdw : dstWord a.d r.1 a.kd r.2 with
      | some i => simp [regEnd, regPending, hdw]
      | none => simp only [Option.isSome_none, Bool.false_eq_true, if_false]; exact regOf_congr rfl rfl r
    · rw [hr.lr]; unfold lrEnd; cases a.d <;> rfl
    · have hrest : pendDst { x with vc := v } a.d a.kd = { x with
          v := (pendDst { x with vc := v } a.d a.kd).v, o := (pendDst { x with vc := v } a.d a.kd).o, vc := v } := by
        unfold pendDst
        split
        · have : ∀ (l : List Nat) (y : Thread) (m : Nat), l.foldl (fun t i => setV t (m + i) ⟨.pending, 0, []⟩) y
              = { y with v := (l.foldl (fun t i => setV t (m + i) ⟨.pending, 0, []⟩) y).v } := by
            intro l
            induction l with
            | nil => exact fun _ _ => rfl
            | cons c l ih => intro y m; rw [List.foldl_cons, ih]; rfl
          rw [this]
        · have : ∀ (l : List Nat) (y : Thread) (m : Nat), l.foldl (fun t i => setO t (m + i) ⟨.pending, 0, []⟩) y
              = { y with o := (l.foldl (fun t i => setO t (m + i) ⟨.pending, 0, []⟩) y).o } := by
            intro l
            induction l with
            | nil => exact fun _ _ => rfl
            | cons c l ih => intro y m; rw [List.foldl_cons, ih]; rfl
          rw [this]
        · rfl
      rw [hrest]
      rfl

/-! ## Words that write without lr -/

theorem writePlain_rest (t : Thread) (d : Dst) (ws : List W32) :
    writePlain t d ws = { t with v := (writePlain t d ws).v, o := (writePlain t d ws).o, lr := (writePlain t d ws).lr, lrPoison := (writePlain t d ws).lrPoison,
                                 lrSh := (writePlain t d ws).lrSh } := by
  unfold writePlain
  split
  · rfl
  · unfold writeDst
    dsimp only
    split
    · have : ∀ (l : List Nat) (y : Thread) (m : Nat) (g : Nat → Reg), l.foldl (fun t i => setV t (m + i) (g i)) y
          = { y with v := (l.foldl (fun t i => setV t (m + i) (g i)) y).v } := by
        intro l
        induction l with
        | nil => exact fun _ _ _ => rfl
        | cons c l ih => intro y m g; rw [List.foldl_cons, ih]; rfl
      rw [this]
    · have : ∀ (l : List Nat) (y : Thread) (m : Nat) (g : Nat → Reg), l.foldl (fun t i => setO t (m + i) (g i)) y
          = { y with o := (l.foldl (fun t i => setO t (m + i) (g i)) y).o } := by
        intro l
        induction l with
        | nil => exact fun _ _ _ => rfl
        | cons c l ih => intro y m g; rw [List.foldl_cons, ih]; rfl
      rw [this]
    · rfl

theorem regOf_writePlain (t : Thread) (d : Dst) (ws : List W32) (r : Bool × Nat) :
    regOf (writePlain t d ws) r = match dstWord d r.1 ws.length r.2 with
      | some i => ⟨.full, ws.getD i 0, shOf [] i⟩
      | none => regOf t r := by
  unfold writePlain
  split
  · rename_i hd
    have : d = .lr := by simpa using hd
    subst this
    simp only [dstWord]
    exact regOf_congr rfl rfl r
  · rw [regOf_writeDst]
    cases dstWord d r.1 ws.length r.2 <;> simp

theorem writePlain_lr (t : Thread) (d : Dst) (ws : List W32) : (writePlain t d ws).lr = lrEnd d (.wrote ws) t.lr := by
  unfold writePlain
  cases d with
  | lr => rfl
  | _ => rw [if_neg (by simp)]; exact (rest_writeDst t _ ws [] []).lr

theorem gWrites_nodup (x : Tid) (d : Dst) (ws : List W32) (sh : List (List W32)) : (((gWrites d ws sh).map fun y => (x, y)).map fun e => (e.1, e.2.n)).Nodup := by
  unfold gWrites
  split
  · rw [List.map_map, List.map_map]
    refine List.Pairwise.map _ ?_ List.nodup_range
    intro a b hab h
    simp only [Function.comp_apply, Prod.mk.injEq, true_and] at h
    omega
  · exact List.nodup_nil

/-- A word that acts once and writes words to its destination. -/
theorem OneWord.group_wrote {a : OneWord} {s E S : State} {x : Thread} {w : Workgroup} {v : List (Nat × Nat)} {ws : List W32} {out : Host.Outcome State Fault Refusal}
    {extra : Thread → List Cause} {ad : List Nat}
    {act : State → Workgroup → Thread → List Opv → List Tid → State × GroupRes} (h : Solo s a.pg x w) (so : a.Sound s w x)
    (ho : out = .next (perGroupWith s a.pg extra a.srcs a.d a.kd ad act)) (he : extra x = []) (hlen : ws.length = a.kd)
    (hend : a.ending s w x (readSrcs s w x a.srcs []).vals = .wrote ws) (halso : a.also s w x (readSrcs s w x a.srcs []).vals = id)
    (hE : a.effect s w x (readSrcs s w x a.srcs []).vals = E)
    (hact : act s w x (readSrcs s w x a.srcs []).vals [x.tid] = (writeAll { E with threads := S.threads } w [x.tid] a.d ws, .retire))
    (hc : E.cur = s.cur) (hn : E.now = s.now) (hz : getT S x.tid = some { x with vc := v }) (hoth : ∀ u, u ≠ x.tid → getT S u = getT E u) :
    ∃ t, out = .next t ∧ a.Done s t w x := by
  have hp : ∀ y : Thread, y.tid = x.tid → (writePlain y a.d ws).tid = x.tid := fun y hy => by rw [writePlain_rest]; exact hy
  have hr := writePlain_rest { x with vc := v } a.d ws
  have hw : writeAll { E with threads := S.threads } w [x.tid] a.d ws
      = applyG (modT { E with threads := S.threads } x.tid fun y => writePlain y a.d ws) [x.tid] ((gWrites a.d ws []).map fun y => (x.tid, y)) := by
    unfold writeAll
    simp only [List.foldl_cons, List.foldl_nil, List.flatMap_cons, List.flatMap_nil, List.append_nil]
    rw [touchRegs_off _ _ so.operands.plain.rollback so.operands.plain.redund]
  rw [hw] at hact
  have hf := applyG_frame (modT { E with threads := S.threads } x.tid fun y => writePlain y a.d ws) [x.tid] ((gWrites a.d ws []).map fun y => (x.tid, y))
  have hu := applyG_uniform (modT { E with threads := S.threads } x.tid fun y => writePlain y a.d ws) [x.tid] ((gWrites a.d ws []).map fun y => (x.tid, y)) (gWrites_nodup _ _ _ _)
  generalize hA : applyG (modT { E with threads := S.threads } x.tid fun y => writePlain y a.d ws) [x.tid] ((gWrites a.d ws []).map fun y => (x.tid, y)) = A at hact hf hu
  have hthr : ∀ u, getT A u = getT (modT { E with threads := S.threads } x.tid fun y => writePlain y a.d ws) u := fun u => by rw [← hA, getT_applyG]
  refine OneWord.group (S := A) (z := writePlain { x with vc := v } a.d ws) h so ho he hE hact ?_ ?_ hc hn ?_ ?_ ?_ ?_
  · rw [hf]; rfl
  · rw [hend]
    exact uniformDone_congr hu rfl rfl fun _ _ _ => rfl
  · rw [hthr, getT_modT hp, getT_frame (s := S) (t := { E with threads := S.threads }) rfl, hz]; rfl
  · rw [hr]; exact h.ready
  · intro u hu
    rw [hthr, getT_modT_ne hp hu, getT_frame (s := S) (t := { E with threads := S.threads }) rfl]
    exact hoth u hu
  · rw [hend, halso]
    refine advance_keeping (fun r => ?_) (fun ws' h => by cases h; exact hlen) ?_ ?_ ?_
    · rw [regOf_writePlain, hlen]
      cases hdw : dstWord a.d r.1 a.kd r.2 with
      | some i => simp [regEnd, regAfter, hdw, hlen]
      | none => simp only [Option.isSome_none, Bool.false_eq_true, if_false]; exact regOf_congr rfl rfl r
    · exact writePlain_lr _ _ _
    · rw [hr]; rfl
    · rw [hr]; rfl

/-! ## Words that act lane by lane -/

theorem modT_frame {V E : State} (h : V = { E with threads := V.threads }) (t : Tid) (f : Thread → Thread) : modT V t f = { E with threads := (modT V t f).threads } := by
  have : ∀ T, ({ V with threads := T } : State) = { E with threads := T } := fun T => by rw [h]
  exact this _

/-- A lane that retires: its thread is `z` before it passes the word, and the machine beside it is `E`. -/
theorem OneWord.lane {a : OneWord} {s S E : State} {x z : Thread} {w : Workgroup} {gs : List GWrite} {out : Host.Outcome State Fault Refusal}
    {f : State → Workgroup → Thread → State × LaneRes} (h : Solo s a.pg x w)
    (ho : out = .next (perLane s a.pg f)) (hE : a.effect s w x (readSrcs s w x a.srcs []).vals = E)
    (hf : f s w x = (S, .retire gs)) (hm : S = { E with threads := S.threads })
    (hu : match a.ending s w x (readSrcs s w x a.srcs []).vals with
      | .pending => gs = []
      | .wrote ws => gs = gWrites a.d ws [])
    (hc : E.cur = s.cur) (hn : E.now = s.now) (hz : getT S x.tid = some z) (hrun : z.run = .ready) (hoth : ∀ u, u ≠ x.tid → getT S u = getT E u)
    (hT : OneAfter s a.srcs (readSrcs s w x a.srcs []).pops a.d a.kd (a.ending s w x (readSrcs s w x a.srcs []).vals)
      (a.also s w x (readSrcs s w x a.srcs []).vals) x (advance s.cur s.now z)) :
    ∃ t, out = .next t ∧ a.Done s t w x := by
  subst hE
  refine ⟨_, ho, ?_⟩
  rw [perLane_retire h.alone h.thread h.ready h.passes h.group hf]
  have hS : S.cur = s.cur ∧ S.now = s.now := by rw [hm]; exact ⟨hc, hn⟩
  have hth := oneDone_retire (s := a.effect s w x (readSrcs s w x a.srcs []).vals) (s' := S) (x := x) (z := z)
      (R := OneAfter s a.srcs (readSrcs s w x a.srcs []).pops a.d a.kd (a.ending s w x (readSrcs s w x a.srcs []).vals) (a.also s w x (readSrcs s w x a.srcs []).vals) x)
      hz hrun hoth (by show OneAfter _ _ _ _ _ _ _ _ (advance S.cur S.now _); rw [hS.1, hS.2]; exact hT)
  have hframe : ∀ V : State, V = retire S x.tid → V = { a.effect s w x (readSrcs s w x a.srcs []).vals with threads := V.threads } := fun V hV => by
    rw [hV, retire_fields]
    generalize (retire S x.tid).threads = T
    dsimp only
    rw [hm]
  have hV := hframe _ rfl
  generalize retire S x.tid = V at hth hV
  have hA := applyG_frame V [x.tid] (gs.map fun y => (x.tid, y))
  have hU : gs = [] ∨ (∃ ws, a.ending s w x (readSrcs s w x a.srcs []).vals = .wrote ws ∧ gs = gWrites a.d ws []) := by
    cases hend : a.ending s w x (readSrcs s w x a.srcs []).vals with
    | pending => rw [hend] at hu; exact .inl hu
    | wrote ws => rw [hend] at hu; exact .inr ⟨ws, rfl, hu⟩
  refine ⟨?_, ?_, ?_⟩
  · rw [hA]
    dsimp only
    generalize (applyG V [x.tid] (gs.map fun y => (x.tid, y))).warps = W
    rw [hV]
  · cases hend : a.ending s w x (readSrcs s w x a.srcs []).vals with
    | pending =>
      rw [hend] at hu
      subst hu
      show V.warps = _
      rw [hV]
    | wrote ws =>
      rw [hend] at hu
      subst hu
      exact uniformDone_congr (applyG_uniform V [x.tid] _ (gWrites_nodup _ _ _ _)) (by rw [hV]) rfl fun _ _ _ => rfl
  · refine ⟨?_, fun u hu => ?_⟩
    · obtain ⟨y, h1, h2⟩ := hth.mine
      exact ⟨y, by rw [getT_applyG]; exact h1, h2⟩
    · rw [getT_applyG]; exact hth.others u hu

/-- `f` changes only what no source or destination does, and reads only that. -/
def Aside (f : Thread → Thread) (x : Thread) : Prop :=
  ∀ y : Thread, y = { x with v := y.v, o := y.o, lr := y.lr, lrPoison := y.lrPoison, lrSh := y.lrSh, q := y.q, vc := y.vc, tokens := y.tokens } →
    f y = { f x with v := y.v, o := y.o, lr := y.lr, lrPoison := y.lrPoison, lrSh := y.lrSh, q := y.q, vc := y.vc, tokens := y.tokens }

theorem aside_id (x : Thread) : Aside id x := fun y h => h

theorem aside_setPred (n : Nat) (b : Bool) (x : Thread) : Aside (fun y => setPred y n b) x := by
  intro y h
  unfold setPred
  split
  · dsimp only; rw [h]
  · exact h

theorem takeSources_keeping (t : Thread) (l : List SrcSpec) (pops : List Nat) : takeSources t l pops = takeKeeping [] t l pops := by
  unfold takeSources takeKeeping
  rw [show (markedRegs l).filter (fun r => !List.contains [] r) = markedRegs l from List.filter_eq_self.mpr fun _ _ => rfl]

/-- A thread that takes its sources, writes its destination and is changed by `f`. -/
theorem oneAfter_plain {s : State} {l : List SrcSpec} {pops : List Nat} {d : Dst} {ws : List W32} {f : Thread → Thread} {x : Thread} {v : List (Nat × Nat)}
    (hf : Aside f x) (hq : (f x).q = x.q) :
    OneAfter s l pops d ws.length (.wrote ws) f x (advance s.cur s.now (f (writePlain (takeSources { x with vc := v } l pops) d ws))) := by
  have h1 := writePlain_rest (takeSources { x with vc := v } l pops) d ws
  have h2 := takeKeeping_rest [] { x with vc := v } l pops
  rw [← takeSources_keeping] at h2
  have e := hf (writePlain (takeSources { x with vc := v } l pops) d ws) (by rw [h1, h2])
  rw [e]
  refine oneAfter_mk (fun r => ?_) ?_ (fun n => ?_) ?_
  · refine (regOf_congr (b := writePlain (takeSources { x with vc := v } l pops) d ws) rfl rfl r).trans ?_
    rw [regOf_writePlain]
    rw [regOf_takeSources, regOf_congr (a := { x with vc := v }) (b := x) rfl rfl r]
    show _ = regAfter l (some d) { words := ws } r.1 r.2 (regOf x r)
    unfold regAfter
    rw [Option.bind_some]
    cases dstWord d r.1 ws.length r.2 <;> rfl
  · show (writePlain (takeSources { x with vc := v } l pops) d ws).lr = _
    rw [writePlain_lr, h2]
  · show kget [] n (writePlain (takeSources { x with vc := v } l pops) d ws).q = _
    rw [h1]
    show kget [] n (takeSources { x with vc := v } l pops).q = _
    rw [takeSources_q, hq]
  · rfl

/-- A lane that ends with a plain result. -/
theorem OneWord.lane_plain {a : OneWord} {s E V : State} {x : Thread} {w : Workgroup} {v : List (Nat × Nat)} {ws : List W32} {g : Thread → Thread}
    {out : Host.Outcome State Fault Refusal} {f : State → Workgroup → Thread → State × LaneRes} (h : Solo s a.pg x w)
    (ho : out = .next (perLane s a.pg f)) (hE : a.effect s w x (readSrcs s w x a.srcs []).vals = E)
    (hend : a.ending s w x (readSrcs s w x a.srcs []).vals = .wrote ws) (hlen : ws.length = a.kd)
    (halso : a.also s w x (readSrcs s w x a.srcs []).vals = g) (hg : Aside g x) (hgt : ∀ y, (g y).tid = y.tid ∧ (g y).run = y.run) (hq : (g x).q = x.q)
    (hf : f s w x = (modT V x.tid fun y => g (writePlain (takeSources y a.srcs (readSrcs s w x a.srcs []).pops) a.d ws), .retire (gWrites a.d ws [])))
    (hV : V = { E with threads := V.threads }) (hc : E.cur = s.cur) (hn : E.now = s.now) (hz : getT V x.tid = some { x with vc := v })
    (hoth : ∀ u, u ≠ x.tid → getT V u = getT E u) :
    ∃ t, out = .next t ∧ a.Done s t w x := by
  have hF : ∀ y : Thread, (g (writePlain (takeSources y a.srcs (readSrcs s w x a.srcs []).pops) a.d ws)).tid = y.tid
      ∧ (g (writePlain (takeSources y a.srcs (readSrcs s w x a.srcs []).pops) a.d ws)).run = y.run := by
    intro y
    have h2 := takeKeeping_rest [] y a.srcs (readSrcs s w x a.srcs []).pops
    rw [← takeSources_keeping] at h2
    rw [(hgt _).1, (hgt _).2, writePlain_rest, h2]
    exact ⟨rfl, rfl⟩
  have hT : ∀ y : Thread, y.tid = x.tid → (g (writePlain (takeSources y a.srcs (readSrcs s w x a.srcs []).pops) a.d ws)).tid = x.tid :=
    fun y hy => (hF y).1.trans hy
  refine OneWord.lane (z := g (writePlain (takeSources { x with vc := v } a.srcs (readSrcs s w x a.srcs []).pops) a.d ws)) h ho hE hf (modT_frame hV _ _) ?_ hc hn ?_ ?_ ?_ ?_
  · rw [hend]
  · rw [getT_modT hT, hz]; rfl
  · exact (hF _).2.trans h.ready
  · exact fun u hu => (getT_modT_ne hT hu).trans (hoth u hu)
  · rw [hend, halso, ← hlen]
    exact oneAfter_plain hg hq

/-- A lane without a destination. -/
theorem OneWord.lane_took {a : OneWord} {s E V : State} {x : Thread} {w : Workgroup} {v : List (Nat × Nat)} {g : Thread → Thread}
    {out : Host.Outcome State Fault Refusal} {f : State → Workgroup → Thread → State × LaneRes} (h : Solo s a.pg x w)
    (ho : out = .next (perLane s a.pg f)) (hE : a.effect s w x (readSrcs s w x a.srcs []).vals = E) (hd : a.d = .zero) (hk : a.kd = 0)
    (hend : a.ending s w x (readSrcs s w x a.srcs []).vals = .wrote [])
    (halso : a.also s w x (readSrcs s w x a.srcs []).vals = g) (hg : Aside g x) (hgt : ∀ y, (g y).tid = y.tid ∧ (g y).run = y.run) (hq : (g x).q = x.q)
    (hf : f s w x = (modT V x.tid fun y => g (takeSources y a.srcs (readSrcs s w x a.srcs []).pops), .retire []))
    (hV : V = { E with threads := V.threads }) (hc : E.cur = s.cur) (hn : E.now = s.now) (hz : getT V x.tid = some { x with vc := v })
    (hoth : ∀ u, u ≠ x.tid → getT V u = getT E u) :
    ∃ t, out = .next t ∧ a.Done s t w x := by
  refine OneWord.lane_plain h ho hE hend (by rw [hk]; rfl) halso hg hgt hq ?_ hV hc hn hz hoth
  rw [hf, hd]
  rfl

theorem pendDst_rest (t : Thread) (d : Dst) (k : Nat) : pendDst t d k = { t with v := (pendDst t d k).v, o := (pendDst t d k).o } := by
  unfold pendDst
  split
  · have : ∀ (l : List Nat) (y : Thread) (m : Nat), l.foldl (fun t i => setV t (m + i) ⟨.pending, 0, []⟩) y
        = { y with v := (l.foldl (fun t i => setV t (m + i) ⟨.pending, 0, []⟩) y).v } := by
      intro l
      induction l with
      | nil => exact fun _ _ => rfl
      | cons c l ih => intro y m; rw [List.foldl_cons, ih]; rfl
    rw [this]
  · have : ∀ (l : List Nat) (y : Thread) (m : Nat), l.foldl (fun t i => setO t (m + i) ⟨.pending, 0, []⟩) y
        = { y with o := (l.foldl (fun t i => setO t (m + i) ⟨.pending, 0, []⟩) y).o } := by
      intro l
      induction l with
      | nil => exact fun _ _ => rfl
      | cons c l ih => intro y m; rw [List.foldl_cons, ih]; rfl
    rw [this]
  · rfl

theorem oneAfter_pending {s : State} {l : List SrcSpec} {pops : List Nat} {d : Dst} {kd : Nat} {x : Thread} {v : List (Nat × Nat)} :
    OneAfter s l pops d kd .pending id x (advance s.cur s.now (pendDst (takeSources { x with vc := v } l pops) d kd)) := by
  have h1 := pendDst_rest (takeSources { x with vc := v } l pops) d kd
  have h2 := takeKeeping_rest [] { x with vc := v } l pops
  rw [← takeSources_keeping] at h2
  refine oneAfter_mk (fun r => ?_) ?_ (fun n => ?_) ?_
  · rw [regOf_pendDst]
    show _ = regPending l d kd r.1 r.2 (regOf x r)
    unfold regPending
    rw [regOf_takeSources, regOf_congr (a := { x with vc := v }) (b := x) rfl rfl r]
    all_goals (cases dstWord d r.1 kd r.2 <;> rfl)
  · rw [h1, h2]
    unfold lrEnd
    cases d <;> rfl
  · rw [h1]
    exact takeSources_q _ _ _ _
  · rw [h1, h2]
    rfl

/-- A lane whose destination goes PENDING. -/
theorem OneWord.lane_pending {a : OneWord} {s S E V : State} {x : Thread} {w : Workgroup} {v : List (Nat × Nat)}
    {out : Host.Outcome State Fault Refusal} {f : State → Workgroup → Thread → State × LaneRes} (h : Solo s a.pg x w)
    (ho : out = .next (perLane s a.pg f)) (hE : a.effect s w x (readSrcs s w x a.srcs []).vals = E)
    (hend : a.ending s w x (readSrcs s w x a.srcs []).vals = .pending) (halso : a.also s w x (readSrcs s w x a.srcs []).vals = id)
    (hf : f s w x = (S, .retire [])) (hm : S = { E with threads := S.threads })
    (hS : S.threads = (modT V x.tid fun y => pendDst (takeSources y a.srcs (readSrcs s w x a.srcs []).pops) a.d a.kd).threads)
    (hc : E.cur = s.cur) (hn : E.now = s.now) (hz : getT V x.tid = some { x with vc := v }) (hoth : ∀ u, u ≠ x.tid → getT V u = getT E u) :
    ∃ t, out = .next t ∧ a.Done s t w x := by
  have hT : ∀ y : Thread, y.tid = x.tid → (pendDst (takeSources y a.srcs (readSrcs s w x a.srcs []).pops) a.d a.kd).tid = x.tid :=
    fun y hy => (pend_tid y _ _ _ _).trans hy
  refine OneWord.lane (z := pendDst (takeSources { x with vc := v } a.srcs (readSrcs s w x a.srcs []).pops) a.d a.kd) h ho hE hf hm ?_ hc hn ?_ ?_ ?_ ?_
  · rw [hend]
  · rw [getT_frame hS, getT_modT (f := fun y => pendDst (takeSources y a.srcs (readSrcs s w x a.srcs []).pops) a.d a.kd) hT, hz]; rfl
  · exact pend_ready _ _ _ _ _ h.ready
  · intro u hu
    rw [getT_frame hS]
    exact (getT_modT_ne hT hu).trans (hoth u hu)
  · rw [hend, halso]
    exact oneAfter_pending

end Sys2Proof.Machine
end

