-- ==== Sys2Proof/Laws/Engines.lean ====
section
/-! SUPPORT. The engines: parts of a word that leave the threads alone, and operations that start. -/

namespace Sys2Proof.Machine

theorem Quiet.getT {s t : State} (h : Quiet s t) (u : Tid) : getT t u = getT s u := getT_frame h.threads u

/-- The frame of scratch writes: only workgroups change. -/
theorem touchGranule_frame (s : State) (id g : Nat) : touchGranule s id g = { s with wgs := (touchGranule s id g).wgs } := by
  unfold touchGranule
  split
  · rfl
  · split
    · rfl
    · split
      · rfl
      · split <;> rfl

theorem padWrite_frame (s : State) (id a : Nat) (b : List Byte) (p q : Bool) : padWrite s id a b p q = { s with wgs := (padWrite s id a b p q).wgs } := by
  unfold padWrite
  dsimp only
  have := touchGranule_frame s id (a / 256)
  unfold modWg
  rw [this]

theorem padWriteRange_frame (s : State) (id a : Nat) (b : List Byte) (p q : Bool) :
    padWriteRange s id a b p q = { s with wgs := (padWriteRange s id a b p q).wgs } := by
  unfold padWriteRange
  generalize blockPieces (b.length / 64 + 2) a b.length = l
  have : ∀ (l : List (Nat × Nat)) (acc : State × List Byte), acc.1 = { s with wgs := acc.1.wgs } →
      (l.foldl (fun (acc : State × List Byte) z => (padWrite acc.1 id z.1 (acc.2.take z.2) p q, acc.2.drop z.2)) acc).1
        = { s with wgs := (l.foldl (fun (acc : State × List Byte) z => (padWrite acc.1 id z.1 (acc.2.take z.2) p q, acc.2.drop z.2)) acc).1.wgs } := by
    intro l
    induction l with
    | nil => exact fun _ h => h
    | cons z l ih =>
      intro acc h
      rw [List.foldl_cons]
      refine ih _ ?_
      show padWrite acc.1 id z.1 _ p q = { s with wgs := (padWrite acc.1 id z.1 _ p q).wgs }
      rw [padWrite_frame, h]
  exact this l (s, b) rfl

theorem removeBinding_frame (s : State) (id : Nat) (b : Binding) : removeBinding s id b = { s with wgs := (removeBinding s id b).wgs } := by
  unfold removeBinding
  split
  · rfl
  · rename_i w _
    dsimp only
    generalize (List.filter (fun c => (decide (b.base ≤ c.index * 256) && decide (c.index * 256 < b.base + b.len)) && !c.filled) w.chunks) = l
    have : ∀ (l : List Chunk) (z : State), z = { s with wgs := z.wgs } →
        l.foldl (fun s c => padWriteRange s id (256 * c.index) (List.replicate 256 0) false false) z
          = { s with wgs := (l.foldl (fun s c => padWriteRange s id (256 * c.index) (List.replicate 256 0) false false) z).wgs } := by
      intro l
      induction l with
      | nil => exact fun _ h => h
      | cons c l ih =>
        intro z h
        rw [List.foldl_cons]
        refine ih _ ?_
        rw [padWriteRange_frame, h]
    have h := this l s rfl
    unfold modWg
    rw [h]

theorem startOp_single {s : State} {w : Workgroup} (h : w.role = .single) (x : Thread) (d : Dst) (g : Sig) (k : EngineKind) :
    startOp s w x [x.tid] d g k = (bumpVc (forked s w x d k) x.tid, none) := by
  unfold startOp
  rw [h]
  rfl

/-- What a fork leaves of its issuer's thread. -/
theorem forked_thread {s : State} {w : Workgroup} {x : Thread} {v : List (Nat × Nat)} (h : getT s x.tid = some { x with vc := v }) (d : Dst) (k : EngineKind) :
    ∃ v', getT (bumpVc (forked s w x d k) x.tid) x.tid = some { x with vc := v' } ∧ ∀ u, u ≠ x.tid → getT (bumpVc (forked s w x d k) x.tid) u = getT (forked s w x d k) u := by
  obtain ⟨h1, h2, h3⟩ := vcOnly_modT (forked s w x d k) x.tid fun y => kset (Tid.key x.tid) (kget 0 (Tid.key x.tid) y.vc + 1) y.vc
  obtain ⟨v', hv⟩ := h2 _ (show getT (forked s w x d k) x.tid = some { x with vc := v } from h)
  exact ⟨v', hv, h3⟩

theorem deliver_clean (s : State) {w : Workgroup} (h : w.Plain) (t : Tid) (l : List SrcSpec) (pops : List Nat) (d : Dst) (kd : Nat) (kind : OutKind) (port : Option Nat)
    (addr : Word) (words : List FillWord) (ne : Bool) (pop : Option (Nat × Nat)) :
    deliver s w t l pops d kd kind port addr words ne pop = { s with
      ids := s.ids + 1, threads := (modT s t fun x => pendDst (takeSources x l pops) d kd).threads,
      loads := s.loads ++ [{ id := s.ids + 1, tid := t, kind := kind, dest := destOf d, words := words, numerr := ne, dead := false, port := port, pop := pop, addr := addr, sx := false,
                             interval := intervalOf s t, line := none, tan := none, sync := none }] } := by
  unfold deliver
  dsimp only
  rw [touchRegs_off _ _ h.rollback h.redund, intervalOf_modT fun x => by
    have h := (same_takeSources x l pops).trans (same_pendDst _ d kd)
    exact ⟨h.1, h.2.1⟩]
  rfl

theorem queueValue_single (s : State) {w : Workgroup} (h : w.role = .single) (t : Tid) (ws : Option (List FillWord)) (a b : Bool) (n : Nat := 0) : queueValue s w t ws a b n = s := by
  unfold queueValue
  rw [h, if_pos (by decide)]

theorem sendRemq_threads (s : State) (op : EngineOp) (p : Nat) (T : List Thread) : sendRemq { s with threads := T } op p = { sendRemq s op p with threads := T } := by
  unfold sendRemq
  cases op.kind with
  | remq m core data src =>
    by_cases hm : m = s.module_ ∨ op.stop.isSome
    · show (if m = s.module_ ∨ op.stop.isSome then _ else _) = { (if m = s.module_ ∨ op.stop.isSome then _ else _ : State) with threads := T }
      rw [if_pos hm, if_pos hm]
    · show (if m = s.module_ ∨ op.stop.isSome then _ else _) = { (if m = s.module_ ∨ op.stop.isSome then _ else _ : State) with threads := T }
      rw [if_neg hm, if_neg hm]
      show (match route s with | none => _ | some q => _) = _
      cases route s <;> rfl
  | _ => rfl

theorem sendRemq_frame (s : State) (op : EngineOp) (p : Nat) : (sendRemq s op p).threads = s.threads ∧ (sendRemq s op p).cur = s.cur ∧ (sendRemq s op p).now = s.now := by
  unfold sendRemq
  split
  · split
    · exact ⟨rfl, rfl, rfl⟩
    · split <;> exact ⟨rfl, rfl, rfl⟩
  · exact ⟨rfl, rfl, rfl⟩

theorem find_updIf {l : List Thread} {t : Tid} {p : Thread → Bool} {f : Thread → Thread} (hf : ∀ x, (f x).tid = x.tid) :
    (updIf p f l).find? (fun x => x.tid == t) = (l.find? fun x => x.tid == t).map fun x => if p x then f x else x := by
  induction l with
  | nil => rfl
  | cons a l ih =>
    unfold updIf at ih ⊢
    rw [List.map_cons, List.find?_cons, List.find?_cons, ih]
    have : (if p a = true then f a else a).tid = a.tid := by split; exact hf a; rfl
    rw [this]
    cases a.tid == t <;> rfl

/-- The waiting thread that is woken. -/
theorem getT_wakeAll (s : State) (u : Tid) : getT (wakeAll s) u = (getT s u).map fun t => if (match t.run with
      | .waiting w => w.retest
      | _ => false) then { t with run := .ready, able := s.now } else t := find_updIf fun _ => rfl

theorem getT_wakeCore (s : State) (c : Nat) (u : Tid) : getT (wakeCore s c) u = (getT s u).map fun t => if t.tid.core == c && (match t.run with
      | .waiting w => w.retest
      | _ => false) then { t with run := .ready, able := s.now } else t := find_updIf fun _ => rfl

theorem wakeAll_ready {s : State} {u : Tid} {x : Thread} (h : getT s u = some x) (hr : x.run = .ready) : getT (wakeAll s) u = some x := by
  rw [getT_wakeAll, h, Option.map_some, hr]; rfl

theorem wakeCore_ready {s : State} {c : Nat} {u : Tid} {x : Thread} (h : getT s u = some x) (hr : x.run = .ready) : getT (wakeCore s c) u = some x := by
  rw [getT_wakeCore, h, Option.map_some, hr]; simp

theorem reedCause_held {s : State} {w : Workgroup} {t : Tid} (h : hasReed s w t = true) : reedCause s w t = [] := by
  unfold reedCause; rw [if_pos h]

/-- The token of one lane goes PENDING. -/
theorem pendAll_one (s : State) {w : Workgroup} (h : w.Plain) (t : Tid) (d : Dst) : pendAll s w [t] d = modT s t fun x => pendDst x d 2 := by
  unfold pendAll
  rw [List.foldl_cons, List.foldl_nil, touchRegs_off _ _ h.rollback h.redund]

/-- A matrix operation that starts. -/
theorem startMatrix_go {s : State} {w : Workgroup} (h : w.Plain) {x : Thread} {d : Dst} {m : MatOp} {extra : List Cause} {sc : Option Scope} (g : Sig)
    (hc : lowest (reedCause s w x.tid ++ matCauses w m ++ extra) = none) (hf : opsFull s x.tid.core = false)
    (hr : (sc.any fun y => releasePending s x.tid y) = false) :
    startMatrix s w x [x.tid] d m extra sc g = (modT (bumpVc (forked s w x d (.matrix m)) x.tid) x.tid fun y => pendDst y d 2, .retire) := by
  unfold startMatrix
  dsimp only
  rw [h.single, if_neg (by decide), hc]
  dsimp only
  rw [hf, if_neg (by decide), hr, if_neg (by decide), startOp_single h.single]
  dsimp only
  rw [pendAll_one _ h]

theorem spares_passReed {s : State} {x : Thread} (h : getT s x.tid = some x) (hr : x.run = .ready) (id : Nat) : Spares s (passReed s id) x := by
  unfold passReed
  split
  · exact ⟨h, rfl, rfl⟩
  · exact ⟨wakeCore_ready h hr, rfl, rfl⟩

theorem spares_askReed {s : State} {x : Thread} (h : getT s x.tid = some x) (hr : x.run = .ready) (id i : Nat) : Spares s (askReed s id i) x := by
  unfold askReed
  dsimp only
  split
  · exact ⟨h, rfl, rfl⟩
  · split
    · exact spares_passReed (s := modReed s id _) h hr id
    · exact ⟨h, rfl, rfl⟩

theorem spares_dropReed {s : State} {x : Thread} (h : getT s x.tid = some x) (hr : x.run = .ready) (id : Nat) : Spares s (dropReed s id) x := by
  unfold dropReed
  dsimp only
  split
  · exact spares_passReed (s := parkReed s id) h hr id
  · exact ⟨h, rfl, rfl⟩

/-- A word that acts once and changes its thread only aside of its registers. -/
theorem OneWord.group_also {a : OneWord} {s E V : State} {x : Thread} {w : Workgroup} {g : Thread → Thread} {v : List (Nat × Nat)}
    {out : Host.Outcome State Fault Refusal} {extra : Thread → List Cause} {ad : List Nat}
    {act : State → Workgroup → Thread → List Opv → List Tid → State × GroupRes} (h : Solo s a.pg x w) (so : a.Sound s w x)
    (ho : out = .next (perGroupWith s a.pg extra a.srcs a.d a.kd ad act)) (he : extra x = []) (hd : a.d = .zero) (hk : a.kd = 0)
    (hend : a.ending s w x (readSrcs s w x a.srcs []).vals = .wrote []) (halso : a.also s w x (readSrcs s w x a.srcs []).vals = g)
    (hgt : ∀ y, (g y).tid = y.tid ∧ (g y).run = y.run) (hg : Aside g x) (hq : (g x).q = x.q)
    (hE : a.effect s w x (readSrcs s w x a.srcs []).vals = E) (hact : act s w x (readSrcs s w x a.srcs []).vals [x.tid] = (modT V x.tid g, .retire))
    (hV : V = { E with threads := V.threads }) (hc : E.cur = s.cur) (hn : E.now = s.now) (hz : getT V x.tid = some { x with vc := v })
    (hoth : ∀ u, u ≠ x.tid → getT V u = getT E u) :
    ∃ t, out = .next t ∧ a.Done s t w x := by
  have hT : ∀ y : Thread, y.tid = x.tid → (g y).tid = x.tid := fun y hy => (hgt y).1.trans hy
  have hgv := hg { x with vc := v } rfl
  refine OneWord.group (S := modT V x.tid g) (z := g { x with vc := v }) h so ho he hE hact ?_ ?_ hc hn ?_ ((hgt _).2.trans h.ready)
    (fun u hu => (getT_modT_ne hT hu).trans (hoth u hu)) ?_
  · rw [modT_frame hV]
  · rw [hend, hd]
    exact uniformDone_nil _ (by rw [modT_frame hV])
  · rw [getT_modT hT, hz]; rfl
  · rw [hend, halso, hd, hk]
    refine advance_keeping (fun r => ?_) (fun ws h => by cases h; rfl) ?_ ?_ ?_
    · rw [if_neg (show ¬ (dstWord .zero r.1 0 r.2).isSome = true from Bool.false_ne_true)]
      exact regOf_congr (by rw [hgv]) (by rw [hgv]) r
    · rw [hgv]; rfl
    · rw [hgv]; exact hq.symm
    · rw [hgv]

end Sys2Proof.Machine
end

