-- ==== Sys2Proof/Laws/System.lean ====
section
/-! SUPPORT. Spawns, state words and services: what their parts leave. -/

namespace Sys2Proof.Machine

theorem spawnPred_facts (nb : Option (BitVec 3)) (b : Bool) (x : Thread) :
    (∀ y, (spawnPred nb b y).tid = y.tid ∧ (spawnPred nb b y).run = y.run) ∧ (∀ r, regOf (spawnPred nb b x) r = regOf x r) ∧ (spawnPred nb b x).lr = x.lr ∧
      Aside (spawnPred nb b) x ∧ (spawnPred nb b x).q = x.q := by
  cases nb with
  | none => exact ⟨fun _ => ⟨rfl, rfl⟩, fun _ => rfl, rfl, aside_id x, rfl⟩
  | some n =>
    refine ⟨fun y => ?_, fun r => ?_, ?_, aside_setPred _ _ _, ?_⟩ <;> unfold spawnPred setPred <;> dsimp only <;> split <;> first | exact ⟨rfl, rfl⟩ | rfl | exact regOf_congr rfl rfl r

theorem bumpVc_vc {s : State} {x : Thread} {v : List (Nat × Nat)} (h : getT s x.tid = some { x with vc := v }) : ∃ v', getT (bumpVc s x.tid) x.tid = some { x with vc := v' } ∧ ∀ u, u ≠ x.tid → getT (bumpVc s x.tid) u = getT s u := by
  refine ⟨kset (Tid.key x.tid) (kget 0 (Tid.key x.tid) v + 1) v, ?_, fun u hu => ?_⟩
  · unfold bumpVc
    rw [getT_modT (f := fun y => { y with vc := kset (Tid.key x.tid) (kget 0 (Tid.key x.tid) y.vc + 1) y.vc }) (fun _ h => h), h]
    rfl
  · exact getT_modT_ne (f := fun y => { y with vc := kset (Tid.key x.tid) (kget 0 (Tid.key x.tid) y.vc + 1) y.vc }) (fun _ h => h) hu

theorem Solo.issuing {s : State} {pg : Guard} {x : Thread} {w : Workgroup} (h : Solo s pg x w) : Issuing s := by
  refine ⟨by rw [h.alone]; simp, fun tid ht => ?_⟩
  rw [h.alone, List.mem_singleton] at ht
  subst ht
  exact ⟨x, w, by rw [h.alone]; exact List.mem_singleton_self _, h.thread, h.ready, h.group⟩

theorem taskCause_none {s : State} {w : Workgroup} {x : Thread} {k : Nat} (h1 : (taskKind s w k).isSome = true) (h2 : x.fdepth < 15) : kindCauses s w k [x] = [] := by
  unfold kindCauses
  rw [if_neg (by cases ht : taskKind s w k <;> simp_all), if_neg (by simp; omega)]
  rfl

theorem lanesPending_one {s : State} {w : Workgroup} {t : Tid} {sc : Scope} (h : releasePending s t sc = false) : lanesPending s w [t] sc = false := by
  unfold lanesPending; simp [h]

theorem crossWrite_one {V : State} {w : Workgroup} (hw : w.Plain) {x z : Thread} {l : List SrcSpec} {pops : List Nat} {v : List Opv} {P : List (Nat × Bool)} {g : Thread → Thread}
    (hV : getT V x.tid = some z) (hz : z.tid = x.tid) (ha : z.armed = none) (hP : ∀ y, P.foldl (fun t p => setPred t p.1 p.2) y = g y) :
    crossWrite V l none [⟨x, w, v, pops⟩] (fun _ => { words := [], preds := P }) = applyG (retire (modT V x.tid fun _ => g (takeSources z l pops)) x.tid) [x.tid] [] := by
  unfold crossWrite
  rw [List.foldl_cons, List.foldl_nil]
  dsimp only
  rw [hV]
  dsimp only
  unfold aluRetire aluThread
  dsimp only
  rw [disturb_none _ _ ((takeSources_armed _ _ _).trans ha) hw.single, touchRegs_off _ _ hw.rollback hw.redund]
  dsimp only [Option.getD_none]
  rw [hP, show ∀ q : Flags, q ||| 0 = q from fun q => BitVec.or_zero, hz]
  rfl

/-- A lane whose word ends with a plain result. -/
theorem OneWord.lane_retired {a : OneWord} {s E S : State} {x : Thread} {w : Workgroup} {ws : List W32} {g : Thread → Thread}
    {out : Host.Outcome State Fault Refusal} {f : State → Workgroup → Thread → State × LaneRes} (h : Solo s a.pg x w) (so : a.Sound s w x)
    (ho : out = .next (perLane s a.pg f)) (hE : a.effect s w x (readSrcs s w x a.srcs []).vals = E)
    (hend : a.ending s w x (readSrcs s w x a.srcs []).vals = .wrote ws) (hlen : ws.length = a.kd)
    (halso : a.also s w x (readSrcs s w x a.srcs []).vals = g) (hg : Aside g x) (hgt : ∀ y, (g y).tid = y.tid ∧ (g y).run = y.run) (hq : (g x).q = x.q)
    (hf : f s w x = plainRetire S w x.tid a.srcs (readSrcs s w x a.srcs []).pops a.d ws g)
    (hV : S = E) (hc : E.cur = s.cur) (hn : E.now = s.now) (hz : getT E x.tid = some x) :
    ∃ t, out = .next t ∧ a.Done s t w x := by
  subst hV
  refine OneWord.lane_plain (V := S) (v := x.vc) h ho hE hend hlen halso hg hgt hq ?_ rfl hc hn hz (fun _ _ => rfl)
  rw [hf]
  unfold plainRetire
  rw [touchRegs_off _ _ so.operands.plain.rollback so.operands.plain.redund]

theorem settleCopy_frame (s : State) (core n : Nat) :
    settleCopy s core n = { s with bwords := (settleCopy s core n).bwords, bupdates := (settleCopy s core n).bupdates } := by
  have h1 : ∀ (u : BUpdate) (c : Nat) (z : State), takeUpdate z c u = { z with bwords := (takeUpdate z c u).bwords, bupdates := (takeUpdate z c u).bupdates } := fun _ _ _ => rfl
  have h2 : ∀ (c : Nat) (l : List BUpdate) (z : State), l.foldl (fun s x => takeUpdate s c x) z
      = { z with bwords := (l.foldl (fun s x => takeUpdate s c x) z).bwords, bupdates := (l.foldl (fun s x => takeUpdate s c x) z).bupdates } := by
    intro c l
    induction l with
    | nil => exact fun _ => rfl
    | cons u l ih => intro z; rw [List.foldl_cons, ih, h1 u c z]
  unfold settleCopy
  generalize List.filter _ _ = l
  have : ∀ (l : List BUpdate) (z : State), z = { s with bwords := z.bwords, bupdates := z.bupdates } →
      l.foldl (fun s u => match execBroadcastWordCopyUpdate u.id core s with
        | .next s => s
        | _ => s) z = { s with
          bwords := (l.foldl (fun s u => match execBroadcastWordCopyUpdate u.id core s with | .next s => s | _ => s) z).bwords
          bupdates := (l.foldl (fun s u => match execBroadcastWordCopyUpdate u.id core s with | .next s => s | _ => s) z).bupdates } := by
    intro l
    induction l with
    | nil => exact fun _ h => h
    | cons u l ih =>
      intro z h
      rw [List.foldl_cons]
      refine ih _ ?_
      unfold execBroadcastWordCopyUpdate
      dsimp only
      split
      · exact h
      · rw [h2, h]
  exact this l s rfl

theorem privCause_ok {n : Nat} {x : Thread} (h : n ≤ x.pl) : privCause n x = [] := by
  unfold privCause; rw [if_neg (by omega)]


/-- A word that retires its thread from `z`. -/
theorem OneWord.retired {a : OneWord} {s S E : State} {x z : Thread} {w : Workgroup} {out : Host.Outcome State Fault Refusal}
    (ho : out = .next (retire S x.tid)) (hE : a.effect s w x (readSrcs s w x a.srcs []).vals = E)
    (hm : S = { E with threads := S.threads, warps := S.warps })
    (hu : match a.ending s w x (readSrcs s w x a.srcs []).vals with
      | .pending => S.warps = E.warps
      | .wrote ws => UniformDone E S [x.tid] ((gWrites a.d ws []).map fun y => (x.tid, y)))
    (hc : E.cur = s.cur) (hn : E.now = s.now) (hz : getT S x.tid = some z) (hrun : z.run = .ready) (hoth : ∀ u, u ≠ x.tid → getT S u = getT E u)
    (hT : OneAfter s a.srcs (readSrcs s w x a.srcs []).pops a.d a.kd (a.ending s w x (readSrcs s w x a.srcs []).vals)
      (a.also s w x (readSrcs s w x a.srcs []).vals) x (advance s.cur s.now z)) :
    ∃ t, out = .next t ∧ a.Done s t w x := by
  subst hE
  have hrt : ∀ y : Thread, y.tid = x.tid → (if (y.run == .killed) = true then y else advance S.cur S.now y).tid = x.tid := by
    intro y hy; split <;> simp [hy]
  refine ⟨_, ho, ?_⟩
  have hS : S.cur = s.cur ∧ S.now = s.now := by rw [hm]; exact ⟨hc, hn⟩
  refine ⟨?_, ?_, ?_⟩
  · rw [retire_fields]
    generalize (retire S x.tid).threads = T
    rw [hm]
  · cases hend : a.ending s w x (readSrcs s w x a.srcs []).vals with
    | pending => rw [hend] at hu; exact hu
    | wrote ws =>
      rw [hend] at hu
      refine uniformDone_congr hu rfl rfl fun _ c k => ?_
      unfold retire
      rw [originMask_modT _ _ _ (by intro y hy; exact hrt y hy) (by simp)]
  · exact oneDone_retire (s := a.effect s w x (readSrcs s w x a.srcs []).vals) (s' := S) (x := x) (z := z)
      (R := OneAfter s a.srcs (readSrcs s w x a.srcs []).pops a.d a.kd (a.ending s w x (readSrcs s w x a.srcs []).vals) (a.also s w x (readSrcs s w x a.srcs []).vals) x)
      hz hrun hoth (by show OneAfter _ _ _ _ _ _ _ _ (advance S.cur S.now z); rw [hS.1, hS.2]; exact hT)


theorem readSrcs_served (s : State) (v : List Service) (c : Nat) (w : Workgroup) (t : Thread) (l : List SrcSpec) (pops : List Nat) :
    readSrcs (acquire { s with services := v } c .dev) w t l pops = readSrcs s w t l pops := by
  induction l generalizing pops with
  | nil => rfl
  | cons x r ih =>
    unfold readSrcs
    have : ∀ k kd, readSrc (acquire { s with services := v } c .dev) w t pops x.src k kd = readSrc s w t pops x.src k kd := fun _ _ => rfl
    simp only [this, ih]

end Sys2Proof.Machine
end

