-- ==== Sys2Proof/Laws/Sync.lean ====
section
/-! SUPPORT. Laws of atomics, barriers, thread ends and traps. -/

namespace Sys2Proof.Machine

/-- Only the clock of `x`, synchronisation records and L1 lines have changed. -/
structure Ordered (s t : State) (x : Thread) : Prop where
  frame : t = { s with threads := t.threads, syncs := t.syncs, fenceVc := t.fenceVc, l1 := t.l1 }
  mine : ∃ v, getT t x.tid = some { x with vc := v }
  others : ∀ u, u ≠ x.tid → getT t u = getT s u

theorem Ordered.mapVc {s t : State} {x : Thread} (h : Ordered s t x) (g : List (Nat × Nat) → List (Nat × Nat)) :
    Ordered s (modT t x.tid fun y => { y with vc := g y.vc }) x := by
  obtain ⟨h1, ⟨v, h2⟩, h3⟩ := h
  refine ⟨?_, ⟨g v, ?_⟩, fun u hu => ?_⟩
  · show ({ t with threads := _ } : State) = _
    rw [h1]
    rfl
  · rw [getT_modT (f := fun y : Thread => { y with vc := g y.vc }) (fun _ h => h), h2]; rfl
  · exact (getT_modT_ne (f := fun y : Thread => { y with vc := g y.vc }) (fun _ h => h) hu).trans (h3 u hu)

theorem Ordered.setSync {s t : State} {x : Thread} (h : Ordered s t x) (a b : List SyncLoc) (c : List L1Line) :
    Ordered s { t with syncs := a, fenceVc := b, l1 := c } x := by
  obtain ⟨h1, h2, h3⟩ := h
  refine ⟨?_, h2, h3⟩
  rw [h1]

/-- The ordering effects of an atomic (R206 to R208). -/
theorem atomOrder_spec {s : State} {x : Thread} {v : List (Nat × Nat)} (f : TForm) (loc : Nat) (wrote : Bool) (hx : getT s x.tid = some { x with vc := v }) :
    Ordered s (atomOrder s x.tid f loc wrote) x := by
  have h0 : Ordered s s x := ⟨rfl, ⟨v, hx⟩, fun _ _ => rfl⟩
  have hfold : ∀ (l : List SyncLoc) (t : State), Ordered s t x →
      Ordered s (l.foldl (fun s e => if mutualScope s e.tid e.scope x.tid f.scope then joinVc s x.tid e.vc else s) t) x := by
    intro l
    induction l with
    | nil => exact fun _ h => h
    | cons e l ih =>
      intro t h
      rw [List.foldl_cons]
      refine ih _ ?_
      split
      · exact h.mapVc fun y => vcJoin y e.vc
      · exact h
  have h1 : Ordered s (syncRead s x.tid loc (Ord.acq f.ord) f.scope) x := by
    unfold syncRead
    dsimp only
    split
    · exact hfold _ _ h0
    · exact h0.setSync _ _ _
  have h2 : Ordered s (if wrote then syncWrite (syncRead s x.tid loc (Ord.acq f.ord) f.scope) x.tid loc (Ord.rel f.ord) true f.scope
      else syncRead s x.tid loc (Ord.acq f.ord) f.scope) x := by
    split
    · unfold syncWrite
      dsimp only
      split
      · exact (h1.setSync _ _ _).mapVc fun y => kset (Tid.key x.tid) (kget 0 (Tid.key x.tid) y + 1) y
      · exact h1.setSync _ _ _
    · exact h1
  unfold atomOrder
  dsimp only
  split
  · unfold acquire
    split
    · exact h2.setSync _ _ _
    · exact h2
  · exact h2

theorem rmwAt_plain {s : State} {x : Thread} {w : Workgroup} {va : Word} {ty : AType} {rd wr : Bool} {lf : Leaf} {a : Nat} {r : Rmw}
    (h : PlainBytes s x w va (AType.bytes ty) rd wr lf a) :
    rmwAt s w x.tid.core lf a va ty r false = (match Rmw.write ty (leNat (getCells a (AType.bytes ty) s.mem)) r with
      | none => s
      | some y => { s with mem := setCells (cellsAt a (leBytes (AType.bytes ty) y)) s.mem, dirty := (markDirty s (a / 64)).dirty },
      .old (leNat (getCells a (AType.bytes ty) s.mem)) false false (Rmw.write ty (leNat (getCells a (AType.bytes ty) s.mem)) r).isSome) := by
  have hn : 0 < AType.bytes ty ∧ AType.bytes ty < 64 := by cases ty <;> decide
  have hk := hbm_lt h.home
  unfold rmwAt
  dsimp only
  rw [drainOverlap_none h.stores, hk, if_neg (by decide), h.leaf.layout, h.leaf.key, readHbmRange_plain hn.1 h.fits h.block]
  dsimp only
  unfold applySev
  dsimp only
  rw [if_neg (by decide)]
  dsimp only
  have hb : ((getCells a (AType.bytes ty) s.mem).map fun _ => false).any (fun x => x) = false := by
    rw [List.any_eq_false]; intro y hy; simp at hy; simp [hy]
  rw [hb]
  cases hw : Rmw.write ty (leNat (getCells a (AType.bytes ty) s.mem)) r with
  | none => rfl
  | some y =>
    dsimp only
    have e := writeHbmRange_plain (s := syncClear s a (AType.bytes ty)) (a := a) (bytes := leBytes (AType.bytes ty) y) (by rw [leBytes_length]; exact hn.1)
      (by rw [leBytes_length]; exact hn.2) (by rw [leBytes_length]; exact h.fits) h.block
    unfold writeCanon
    dsimp only
    rw [hk, if_neg (by decide), leBytes_length, e, markDirty_congr (s := s) (t := syncClear s a (AType.bytes ty)) rfl]
    rfl

theorem oneAfter_also {s : State} {l : List SrcSpec} {pops : List Nat} {d : Dst} {kd : Nat} {x : Thread} {v : List (Nat × Nat)} {n : Nat} :
    OneAfter s l pops d kd .pending (fun y => { y with atoms := y.atoms + n }) x
      (advance s.cur s.now { pendDst (takeSources { x with vc := v } l pops) d kd with atoms := x.atoms + n }) := by
  have h1 := pendDst_rest (takeSources { x with vc := v } l pops) d kd
  have h2 := takeKeeping_rest [] { x with vc := v } l pops
  rw [← takeSources_keeping] at h2
  refine oneAfter_mk (fun r => ?_) ?_ (fun n => ?_) ?_
  · show regOf (pendDst (takeSources { x with vc := v } l pops) d kd) r = _
    rw [regOf_pendDst]
    show _ = regPending l d kd r.1 r.2 (regOf x r)
    unfold regPending
    rw [regOf_takeSources, regOf_congr (a := { x with vc := v }) (b := x) rfl rfl r]
    all_goals (cases dstWord d r.1 kd r.2 <;> rfl)
  · rw [h1, h2]
    unfold lrEnd
    cases d <;> rfl
  · rw [h1]
    exact takeSources_q _ _ _ _
  · rw [h1, h2]

theorem find_updIf_in {l : List Thread} {tids : List Tid} {f : Thread → Thread} (hf : ∀ x, (f x).tid = x.tid) (u : Tid) :
    (updIf (fun t => tids.contains t.tid) f l).find? (fun x => x.tid == u) = (l.find? fun x => x.tid == u).map fun x => if tids.contains u then f x else x := by
  unfold updIf
  induction l with
  | nil => rfl
  | cons y l ih =>
    rw [List.map_cons, List.find?_cons, List.find?_cons]
    have he : (if tids.contains y.tid = true then f y else y).tid = y.tid := by split <;> simp [hf]
    rw [he]
    by_cases h : (y.tid == u) = true
    · rw [h]
      have : y.tid = u := by simpa using h
      simp [this]
    · rw [Bool.not_eq_true] at h
      rw [h]
      exact ih

theorem departThread_tid (b : BarInst) (ws : List W32) (vc : List (Nat × Nat)) (now : Nat) (t : Thread) : (departThread b ws vc now t).tid = t.tid := by
  have h1 : (b.marks.foldl killReg (popQueues t b.pops)).tid = t.tid := ((same_popQueues t _).trans (same_foldl _ same_killReg _ _)).1
  unfold departThread
  dsimp only
  split
  · rw [writePlain_rest]; exact h1
  · exact h1

theorem kill_pop_rest (t : Thread) (m : List (Bool × Nat)) (l : List Nat) :
    m.foldl killReg (popQueues t l) = { t with v := (m.foldl killReg (popQueues t l)).v, o := (m.foldl killReg (popQueues t l)).o, q := (popQueues t l).q, vc := (popQueues t l).vc } := by
  have h1 : ∀ (l : List Nat) (t : Thread), popQueues t l = { t with q := (popQueues t l).q, vc := (popQueues t l).vc } := by
    intro l
    unfold popQueues
    induction l with
    | nil => exact fun _ => rfl
    | cons a l ih => intro t; rw [List.foldl_cons, ih]
  have h2 : ∀ (m : List (Bool × Nat)) (t : Thread), m.foldl killReg t = { t with v := (m.foldl killReg t).v, o := (m.foldl killReg t).o } := by
    intro m
    induction m with
    | nil => exact fun _ => rfl
    | cons a m ih =>
      intro t
      rw [List.foldl_cons, ih]
      unfold killReg
      split <;> rfl
  generalize hq : popQueues t l = p
  have e := h1 l t
  rw [hq] at e
  rw [h2 m p]
  generalize m.foldl killReg p = z
  rw [e]

/-- What a departing thread holds. -/
theorem departThread_departs {b : BarInst} {value : Nat} {vc : List (Nat × Nat)} {now : Nat} {y z : Thread}
    (hz : z = { departThread b (wordsOf b.words value) vc now y with injected := z.injected, atoms := z.atoms }) (hi : z.injected = false) (ha : z.atoms = 0) :
    Departs b value y z := by
  have hlen : (wordsOf b.words value).length = b.words := by unfold wordsOf; simp
  obtain ⟨K, hK⟩ : ∃ K, K = b.marks.foldl killReg (popQueues y b.pops) := ⟨_, rfl⟩
  obtain ⟨W, hW⟩ : ∃ W, W = if b.kind = .barp then writePlain K b.dst (wordsOf b.words value) else K := ⟨_, rfl⟩
  have hrest := kill_pop_rest y b.marks b.pops
  rw [← hK] at hrest
  have hWr : W = { K with v := W.v, o := W.o, lr := W.lr, lrPoison := W.lrPoison, lrSh := W.lrSh } := by
    rw [hW]; split
    · exact writePlain_rest _ _ _
    · rfl
  have hd : ∃ c, departThread b (wordsOf b.words value) vc now y = { W with pc := b.next, hdr := b.hdr, since := none, able := now, run := .ready, passed := false, vc := c } := by
    refine ⟨(departThread b (wordsOf b.words value) vc now y).vc, ?_⟩
    unfold departThread
    rw [hW, hK]
    by_cases hb : b.kind = .barp
    · simp [hb]
    · simp [hb]
  obtain ⟨c, hd⟩ := hd
  have hregK : ∀ r, regOf K r = if b.marks.contains r then regDead else regOf y r := by
    intro r
    rw [hK, regOf_kill, regOf_congr (b := y) (popQueues_v _ _) (popQueues_o _ _)]
  have hreg : ∀ r, regOf z r = regDepart b value r.1 r.2 (regOf y r) := by
    intro r
    rw [hz, hd]
    refine (regOf_congr (b := W) rfl rfl r).trans ?_
    unfold regDepart
    rw [hW]
    by_cases hb : b.kind = .barp
    · rw [if_pos hb, if_pos hb, regOf_writePlain, hlen, hregK]
      cases dstWord b.dst r.1 b.words r.2 <;> rfl
    · rw [if_neg hb, if_neg hb, hregK]
  refine ⟨by rw [hz, hd]; exact ⟨rfl, rfl, rfl⟩, fun n => hreg (false, n), fun n => hreg (true, n), ?_, fun n => ?_, ⟨hi, ha⟩, ?_⟩
  · rw [hz, hd]
    show W.lr = _
    rw [hW]
    by_cases hb : b.kind = .barp
    · rw [if_pos hb, writePlain_lr, show K.lr = y.lr by rw [hrest]]
      cases hdst : b.dst <;> simp [lrEnd, hb]
    · rw [if_neg hb, if_neg (by simp [hb]), hrest]
  · rw [hz, hd]
    show kget [] n W.q = _
    rw [hWr]
    show kget [] n K.q = _
    rw [hrest]
    exact popQueues_q _ _ _
  · rw [hz, hd]
    show W.p = _ ∧ W.depth = _ ∧ W.pl = _ ∧ W.held = _ ∧ W.fstat = _ ∧ W.trap = _
    rw [hWr]
    show K.p = _ ∧ K.depth = _ ∧ K.pl = _ ∧ K.held = _ ∧ K.fstat = _ ∧ K.trap = _
    rw [hrest]
    exact ⟨rfl, rfl, rfl, rfl, rfl, rfl⟩

theorem startEpoch_frame (s : State) (id : Nat) :
    startEpoch s id = { s with threads := (startEpoch s id).threads, wgs := (startEpoch s id).wgs, values := (startEpoch s id).values } := rfl

theorem startEpoch_thread (s : State) (id : Nat) (u : Tid) :
    getT (startEpoch s id) u = (getT s u).map fun t => if t.wg == id then { t with injected := false, atoms := 0 } else t := by
  show (updIf (fun t => t.wg == id) (fun t : Thread => { t with injected := false, atoms := 0 }) s.threads).find? (fun x => x.tid == u) = _
  unfold getT updIf
  induction s.threads with
  | nil => rfl
  | cons y l ih =>
    rw [List.map_cons, List.find?_cons, List.find?_cons]
    have he : (if (y.wg == id) = true then ({ y with injected := false, atoms := 0 } : Thread) else y).tid = y.tid := by split <;> rfl
    rw [he]
    cases (y.tid == u)
    · exact ih
    · rfl

theorem gWrites_flat_nodup (tids : List Tid) (h : tids.Nodup) (d : Dst) (ws : List W32) :
    ((tids.flatMap fun t => (gWrites d ws []).map fun g => (t, g)).map fun e => (e.1, e.2.n)).Nodup := by
  induction tids with
  | nil => exact List.nodup_nil
  | cons t l ih =>
    rw [List.flatMap_cons, List.map_append, List.nodup_append]
    obtain ⟨h1, h2⟩ := List.nodup_cons.mp h
    refine ⟨gWrites_nodup t d ws [], ih h2, ?_⟩
    intro e he e' he' hee
    simp only [List.map_map, List.mem_map, Function.comp] at he
    obtain ⟨_, _, rfl⟩ := he
    simp only [List.mem_map, List.mem_flatMap] at he'
    obtain ⟨q, ⟨u, hu, _, _, rfl⟩, rfl⟩ := he'
    exact h1 (by rw [show t = u from congrArg Prod.fst hee]; exact hu)

theorem startEpoch_group {s : State} {id : Nat} {g : Workgroup} (h : getWg s id = some g) :
    ∃ g', getWg (startEpoch s id) id = some g' ∧ g'.bar = g.bar ∧ g'.epoch.undo = [] ∧ g'.epoch.pinned = false ∧ g'.epoch.retries = 0 := by
  unfold startEpoch
  dsimp only
  rw [getWg_modWg]
  · show ∃ g', (getWg s id).map _ = _ ∧ _
    rw [h, Option.map_some, if_pos rfl]
    exact ⟨_, rfl, rfl, rfl, rfl, rfl⟩
  · exact fun _ => rfl

theorem originMask_epoch (s : State) (id : Nat) (r : List Tid) (c k : Nat) : originMask (startEpoch s id) r c k = originMask s r c k := by
  unfold originMask
  dsimp only
  have : (startEpoch s id).threads = s.threads.map fun t => if t.wg == id then { t with injected := false, atoms := 0 } else t := rfl
  rw [this]
  generalize s.threads = l
  rw [List.all_filter, List.all_filter, List.all_map]
  refine congrArg (fun f => if l.all f = true then _ else _) (funext fun x => ?_)
  simp only [Function.comp]
  split <;> rfl

theorem departThread_wg (b : BarInst) (ws : List W32) (vc : List (Nat × Nat)) (now : Nat) (t : Thread) : (departThread b ws vc now t).wg = t.wg := by
  have h1 : (b.marks.foldl killReg (popQueues t b.pops)).wg = t.wg := ((same_popQueues t _).trans (same_foldl _ same_killReg _ _)).2.1
  unfold departThread
  dsimp only
  split
  · rw [writePlain_rest]; exact h1
  · exact h1

theorem barDepart_completed {S : State} {w : Workgroup} {b : BarInst} (h : BarReady S w b) (vc : List (Nat × Nat)) : Completed S (barDepart S w.id vc) w b := by
  obtain ⟨tids, ht⟩ : ∃ tids, tids = b.arrived.map (·.tid) := ⟨_, rfl⟩
  obtain ⟨words, hws⟩ : ∃ words, words = wordsOf b.words (barValue S w b) := ⟨_, rfl⟩
  obtain ⟨S1, h1⟩ : ∃ S1 : State, S1 = { S with threads := updIf (fun t => tids.contains t.tid) (departThread b words vc S.now) S.threads } := ⟨_, rfl⟩
  obtain ⟨S2, h2⟩ : ∃ S2 : State, S2 = if b.kind == .barp then applyG S1 tids (tids.flatMap fun t => (gWrites b.dst words []).map fun g => (t, g)) else S1 := ⟨_, rfl⟩
  obtain ⟨S3, h3⟩ : ∃ S3 : State, S3 = if b.kind == .ckpt then S2 else acquire S2 w.core (barScope w b.kind) := ⟨_, rfl⟩
  have hT : barDepart S w.id vc = startEpoch (modWg S3 w.id fun w => { w with bar := none }) w.id := by
    unfold barDepart
    rw [h.group, Option.bind_some, h.begun, Option.map_some, h3, h2, h1, ht, hws]
  have f2 : S2 = { S1 with warps := S2.warps } := by
    rw [h2]; split
    · exact applyG_frame _ _ _
    · rfl
  have f3 : S3 = { S2 with l1 := S3.l1 } := by
    rw [h3]; split
    · rfl
    · unfold acquire; split <;> rfl
  have g3 : S3 = { S with threads := S1.threads, warps := S2.warps, l1 := S3.l1 } := by
    rw [f3]
    show ({ S2 with l1 := S3.l1 } : State) = _
    rw [f2, h1]
  have hth : ∀ u, getT S3 u = (getT S u).map fun y => if tids.contains u then departThread b words vc S.now y else y := by
    intro u
    rw [show getT S3 u = getT S1 u from getT_frame (by rw [g3]) u, h1]
    exact find_updIf_in (departThread_tid b words vc S.now) u
  rw [hT]
  refine ⟨?_, ?_, ?_, ?_, ?_⟩
  · rw [startEpoch_frame]
    show _ = ({ S with threads := _, wgs := _, warps := S3.warps, l1 := S3.l1, values := _ } : State)
    generalize startEpoch _ _ = T
    show ({ S3 with threads := _, wgs := _, values := _ } : State) = _
    rw [g3]
  · have e : getWg (modWg S3 w.id fun w => { w with bar := none }) w.id = some { w with bar := none } := by
      rw [getWg_modWg]
      · rw [show getWg S3 w.id = getWg S w.id by rw [g3]; rfl, h.group, Option.map_some, if_pos rfl]
      · exact fun _ => rfl
    obtain ⟨g, q1, q2, q3⟩ := startEpoch_group e
    exact ⟨g, q1, q2, q3⟩
  · intro a ha y hy
    have hin : tids.contains a.tid = true := by rw [ht]; simpa using ⟨a, ha, rfl⟩
    have hwg := h.own a ha y hy
    refine ⟨{ departThread b words vc S.now y with injected := false, atoms := 0 }, ?_, ?_⟩
    · rw [startEpoch_thread, show getT (modWg S3 w.id fun w => { w with bar := none }) a.tid = getT S3 a.tid from rfl, hth, hy]
      rw [Option.map_some, Option.map_some, if_pos hin]
      have : (departThread b words vc S.now y).wg = w.id := by rw [departThread_wg]; exact hwg
      rw [if_pos (by rw [this]; simp)]
    · exact departThread_departs (vc := vc) (now := S.now) (by rw [hws]) rfl rfl
  · intro u hu y hy
    have hin : tids.contains u = false := by rw [ht]; simpa using hu
    refine ⟨if y.wg == w.id then { y with injected := false, atoms := 0 } else y, ?_, ?_⟩
    · rw [startEpoch_thread, show getT (modWg S3 w.id fun w => { w with bar := none }) u = getT S3 u from rfl, hth, hy]
      rw [Option.map_some, Option.map_some, hin]
      rfl
    · split <;> rfl
  · have hwarp : (startEpoch (modWg S3 w.id fun w => { w with bar := none }) w.id).warps = S2.warps := by
      rw [startEpoch_frame]
      show S3.warps = _
      rw [g3]
    by_cases hb : b.kind = .barp
    · rw [if_pos hb]
      have hu := applyG_uniform S1 tids (tids.flatMap fun t => (gWrites b.dst words []).map fun g => (t, g)) (gWrites_flat_nodup tids (by rw [ht]; exact h.distinct) _ _)
      rw [← ht, ← hws]
      refine uniformDone_congr hu (by rw [h1]) ?_ ?_
      · rw [hwarp, h2, if_pos (by rw [hb]; decide)]
      · intro _ c k
        rw [originMask_epoch]
        have e : (modWg S3 w.id fun w => { w with bar := none }).threads = S1.threads := by
          show S3.threads = _
          rw [g3]
        have e2 : (applyG S1 tids (tids.flatMap fun t => (gWrites b.dst words []).map fun g => (t, g))).threads = S1.threads := by
          rw [applyG_frame]
        unfold originMask
        rw [e, e2]
    · rw [if_neg hb, hwarp, h2, if_neg (by simpa using hb), h1]

theorem barTry_open {S : State} {g : Workgroup} (h : ∀ v b, getWg S g.id = some v → v.bar = some b → barFull S v b.kind = false) : barTry S g.id = S := by
  unfold barTry
  cases hv : getWg S g.id with
  | none => rfl
  | some v =>
    rw [Option.bind_some]
    cases hb : v.bar with
    | none => rfl
    | some b =>
      rw [Option.map_some]
      dsimp only
      rw [h v b hv hb, if_pos (by simp)]

theorem barAll_open {S : State} (h : ∀ g ∈ S.wgs, ∀ b, g.bar = some b → barFull S g b.kind = false) : barAll S = S := by
  have : ∀ l : List Workgroup, l.foldl (fun s w => barTry s w.id) S = S := by
    intro l
    induction l with
    | nil => rfl
    | cons g l ih =>
      rw [List.foldl_cons, barTry_open]
      · exact ih
      · exact fun v b hv hb => h v (List.mem_of_find?_eq_some hv) b hb
  exact this _

theorem barAll_ready {S : State} {w : Workgroup} {b : BarInst} (h : BarReady S w b) : ∃ vc, barAll S = barDepart S w.id vc := by
  have hm : w ∈ S.wgs := List.mem_of_find?_eq_some h.group
  obtain ⟨vc, hvc⟩ : ∃ vc, barTry S w.id = barDepart S w.id vc := by
    unfold barTry
    rw [h.group, Option.bind_some, h.begun, Option.map_some]
    dsimp only
    rw [h.full, h.single, if_neg (by decide), if_pos (by decide), h.alone]
    exact ⟨_, rfl⟩
  refine ⟨vc, ?_⟩
  have hc := barDepart_completed h vc
  have hstay : barTry (barDepart S w.id vc) w.id = barDepart S w.id vc := by
    obtain ⟨g, h1, h2, -⟩ := hc.group
    exact barTry_open (g := w) fun v b' hv hb => by rw [h1] at hv; cases hv; rw [h2] at hb; cases hb
  have hids : ∀ g ∈ S.wgs.filter (fun w => w.bar.isSome), g.id = w.id := by
    intro g hg
    obtain ⟨h1, h2⟩ := List.mem_filter.mp hg
    refine Decidable.byContradiction fun hne => ?_
    rw [h.others g h1 hne] at h2
    exact absurd h2 (by decide)
  have hne : S.wgs.filter (fun w => w.bar.isSome) ≠ [] := by
    intro h0
    have : w ∈ S.wgs.filter fun w => w.bar.isSome := List.mem_filter.mpr ⟨hm, by rw [h.begun]; rfl⟩
    rw [h0] at this
    cases this
  have hrun : ∀ l : List Workgroup, (∀ g ∈ l, g.id = w.id) → l.foldl (fun s w => barTry s w.id) (barDepart S w.id vc) = barDepart S w.id vc := by
    intro l
    induction l with
    | nil => exact fun _ => rfl
    | cons g l ih =>
      intro hl
      rw [List.foldl_cons, hl g List.mem_cons_self, hstay]
      exact ih fun y hy => hl y (List.mem_cons_of_mem _ hy)
  unfold barAll
  generalize S.wgs.filter (fun w => w.bar.isSome) = l at hids hne
  cases l with
  | nil => exact absurd rfl hne
  | cons g l =>
    rw [List.foldl_cons, hids g List.mem_cons_self, hvc]
    exact hrun l fun y hy => hids y (List.mem_cons_of_mem _ hy)

theorem notHeldFor_run (t : Tid) (now : Nat) (x : Thread) : notHeldFor t now x = { x with run := (notHeldFor t now x).run, able := (notHeldFor t now x).able } := by
  unfold notHeldFor
  split
  · dsimp only
    split <;> rfl
  · rfl

theorem getT_releaseHeld (s : State) (t u : Tid) : getT (releaseHeld s t) u = (getT s u).map (notHeldFor t s.now) := by
  unfold releaseHeld getT
  dsimp only
  induction s.threads with
  | nil => rfl
  | cons y l ih =>
    rw [List.map_cons, List.find?_cons, List.find?_cons, show (notHeldFor t s.now y).tid = y.tid by rw [notHeldFor_run]]
    cases (y.tid == u)
    · exact ih
    · rfl

theorem releaseHeld_run (s : State) (t u : Tid) (y : Thread) (h : getT s u = some y) : ∃ z, getT (releaseHeld s t) u = some z ∧ z = { y with run := z.run, able := z.able } := by
  rw [getT_releaseHeld, h]
  exact ⟨_, rfl, notHeldFor_run _ _ _⟩

theorem releaseHeld_same (s : State) (t u : Tid) (y : Thread) (h : getT s u = some y) (hr : ∀ w, y.run ≠ .waiting w) : getT (releaseHeld s t) u = some y := by
  rw [getT_releaseHeld, h, Option.map_some]
  unfold notHeldFor
  split
  · rename_i l hl; exact absurd hl (hr _)
  · rfl

theorem wakeCore_run (s : State) (c : Nat) (u : Tid) (y : Thread) (h : getT s u = some y) : ∃ z, getT (wakeCore s c) u = some z ∧ z = { y with run := z.run, able := z.able } := by
  rw [getT_wakeCore, h, Option.map_some]
  refine ⟨_, rfl, ?_⟩
  split <;> split <;> rfl

theorem passReed_run (s : State) (id : Nat) (u : Tid) (y : Thread) (h : getT s u = some y) : ∃ z, getT (passReed s id) u = some z ∧ z = { y with run := z.run, able := z.able } := by
  unfold passReed
  split
  · exact ⟨y, h, rfl⟩
  · exact wakeCore_run _ _ _ _ h

theorem passReed_frame (s : State) (id : Nat) : passReed s id = { s with threads := (passReed s id).threads, wgs := (passReed s id).wgs } := by
  unfold passReed
  split <;> rfl

theorem passReed_done (s : State) (id : Nat) (u : Tid) (y : Thread) (h : getT s u = some y) (hr : ∀ w, y.run ≠ .waiting w) : getT (passReed s id) u = some y := by
  unfold passReed
  split
  · exact h
  · rw [getT_wakeCore]
    show (getT s u).map _ = _
    rw [h, Option.map_some]
    split
    · rename_i w hw; exact absurd hw (hr w)
    · rw [Bool.and_false]; rfl

theorem joinFold_frame (t : Tid) (c : State → SyncLoc → Bool) (l : List SyncLoc) (s : State) :
    l.foldl (fun s e => if c s e then joinVc s t e.vc else s) s = { s with threads := (l.foldl (fun s e => if c s e then joinVc s t e.vc else s) s).threads } := by
  induction l generalizing s with
  | nil => rfl
  | cons e l ih =>
    rw [List.foldl_cons, ih]
    by_cases h : c s e = true
    · rw [if_pos h]; rfl
    · rw [if_neg h]

theorem joinColour_frame (s : State) (t : Tid) (p : Nat) (c : BitVec 16) (sc : Scope) : joinColour s t p c sc = { s with threads := (joinColour s t p c sc).threads } :=
  joinFold_frame t (fun s e => mutualScope s e.tid e.scope t sc) _ s

theorem freeMonitor_frame (s : State) (p : Nat) (c : BitVec 16) :
    freeMonitor s p c = { s with threads := (freeMonitor s p c).threads, monitors := (freeMonitor s p c).monitors, l1 := (freeMonitor s p c).l1 } := by
  unfold freeMonitor
  split
  · rfl
  · split
    · rfl
    · unfold grantTo
      dsimp only
      rw [joinColour_frame]
      unfold acquire
      split <;> rfl

theorem releaseColour_frame (s : State) (p : Nat) (t : Tid) (c : BitVec 16) :
    releaseColour s p t c = { s with threads := (releaseColour s p t c).threads, monitors := (releaseColour s p t c).monitors, l1 := (releaseColour s p t c).l1,
                                      syncs := (releaseColour s p t c).syncs } := by
  unfold releaseColour
  dsimp only
  rw [freeMonitor_frame]
  rfl

theorem releaseFold_frame (p : Nat) (t : Tid) (cs : List (BitVec 16)) (s : State) :
    cs.foldl (fun s c => releaseColour s p t c) s = { s with
      threads := (cs.foldl (fun s c => releaseColour s p t c) s).threads, monitors := (cs.foldl (fun s c => releaseColour s p t c) s).monitors,
      l1 := (cs.foldl (fun s c => releaseColour s p t c) s).l1, syncs := (cs.foldl (fun s c => releaseColour s p t c) s).syncs } := by
  induction cs generalizing s with
  | nil => rfl
  | cons c cs ih =>
    rw [List.foldl_cons, ih]
    generalize cs.foldl _ (releaseColour s p t c) = S
    show ({ releaseColour s p t c with threads := S.threads, monitors := S.monitors, l1 := S.l1, syncs := S.syncs } : State) = _
    rw [releaseColour_frame]

theorem releaseAll_frame (s : State) (w : Workgroup) (t : Tid) (cs : List (BitVec 16)) :
    releaseAll s w t cs = { s with threads := (releaseAll s w t cs).threads, monitors := (releaseAll s w t cs).monitors, l1 := (releaseAll s w t cs).l1, wgs := (releaseAll s w t cs).wgs,
                                   syncs := (releaseAll s w t cs).syncs } := by
  unfold releaseAll
  split
  · rfl
  · rw [releaseFold_frame]; rfl

/-- The end of a thread. -/
theorem endThread_ended (s : State) (w : Workgroup) (x : Thread) : Ended s (releaseAll s w x.tid (x.held.map (·.1))) (endThread s w x) x := by
  obtain ⟨S, hS⟩ : ∃ S, S = releaseAll s w x.tid (x.held.map (·.1)) := ⟨_, rfl⟩
  have hcur : S.cur = s.cur := by rw [hS, releaseAll_frame]
  rw [← hS]
  let f : Thread → Thread := fun y => { y with run := .ended, pc := s.cur.pc, hdr := none, since := none, passed := false }
  obtain ⟨S1, h1⟩ : ∃ S1, S1 = releaseHeld (modT S x.tid f) x.tid := ⟨_, rfl⟩
  have hx : ∀ y, getT S x.tid = some y → getT S1 x.tid = some (f y) := by
    intro y hy
    rw [h1]
    refine releaseHeld_same _ _ _ _ ?_ (fun w => by intro h; cases h)
    rw [getT_modT (f := f) (fun _ h => h), hy]
    rfl
  have ho : ∀ u, u ≠ x.tid → ∀ y, getT S u = some y → ∃ z, getT S1 u = some z ∧ z = { y with run := z.run, able := z.able } := by
    intro u hu y hy
    rw [h1]
    exact releaseHeld_run _ _ _ _ (by rw [getT_modT_ne (f := f) (fun _ h => h) hu]; exact hy)
  have he : endThread s w x = S1 ∨ endThread s w x = passReed S1 w.id := by
    unfold endThread
    dsimp only
    rw [← hS, hcur, ← h1]
    split
    · exact .inr rfl
    · exact .inl rfl
  rcases he with he | he
  · rw [he]
    exact ⟨by rw [h1]; rfl, hx, ho⟩
  · rw [he]
    refine ⟨?_, fun y hy => passReed_done _ _ _ _ (hx y hy) (fun w => by intro h; cases h), fun u hu y hy => ?_⟩
    · rw [passReed_frame, h1]; rfl
    · obtain ⟨z, q1, q2⟩ := ho u hu y hy
      obtain ⟨z', q3, q4⟩ := passReed_run S1 w.id u z q1
      exact ⟨z', q3, by rw [q4, q2]⟩

/-- The record in which a release publishes its clock (R192). -/
def published (s : State) (p : Nat) (t : Tid) (c : BitVec 16) : State :=
  { s with syncs := (s.syncs.filter fun e => e.addr != colourLoc p c) ++ [⟨colourLoc p c, ((getMon s p c).map (·.scope)).getD .dev, t, vcOf s t⟩] }

theorem releaseColour_eq (s : State) (p : Nat) (t : Tid) (c : BitVec 16) :
    releaseColour s p t c = freeMonitor (bumpVc (modT (published s p t c) t fun x => { x with held := x.held.filter fun h => h.1 != c }) t) p c := rfl

/-- The monitors after a grant, and that no other thread is changed by it (R189). -/
theorem grantTo_spec (s : State) (m : Monitor) (w : Waiter) :
    (grantTo s m w).monitors = updIf (fun x => x.pasid == m.pasid && x.colour == m.colour)
      (fun m => { m with holder := some w.tid, count := m.count + 1, fifo := m.fifo.filter fun x => x.tid != w.tid }) s.monitors ∧
    ∀ u, u ≠ w.tid → getT (grantTo s m w) u = getT s u := by
  unfold grantTo
  dsimp only
  obtain ⟨S, hS⟩ : ∃ S, S = modMon s m.pasid m.colour fun m => { m with holder := some w.tid, count := m.count + 1, fifo := m.fifo.filter fun x => x.tid != w.tid } := ⟨_, rfl⟩
  obtain ⟨A, hA⟩ : ∃ A, A = acquire S w.core m.scope := ⟨_, rfl⟩
  have hm : A.monitors = S.monitors ∧ A.threads = S.threads := by
    rw [hA]; unfold acquire; split <;> exact ⟨rfl, rfl⟩
  rw [← hS, ← hA]
  refine ⟨?_, fun u hu => ?_⟩
  · show (joinColour A w.tid m.pasid m.colour m.scope).monitors = _
    rw [joinColour_frame]
    show A.monitors = _
    rw [hm.1, hS]
    rfl
  · refine (getT_modT_ne ?_ hu).trans ?_
    · exact fun y hy => hy
    have h := (vcOnly_joins w.tid (fun s e => mutualScope s e.tid e.scope w.tid m.scope) (A.syncs.filter fun e => e.addr == colourLoc m.pasid m.colour) A).2.2 u hu
    refine h.trans ?_
    rw [getT_frame hm.2, hS]
    rfl

/-- Released monitors are the thread's no longer (R190). -/
theorem releaseFold_kept (P : BitVec 16 → Prop) (p : Nat) (t : Tid) (cs : List (BitVec 16)) (s : State)
    (h1 : ∀ m ∈ s.monitors, m.holder = some t → m.pasid = p ∧ (m.colour ∈ cs ∨ P m.colour)) (h2 : ∀ m ∈ s.monitors, ∀ y ∈ m.fifo, y.tid ≠ t) :
    ∀ m ∈ (cs.foldl (fun s c => releaseColour s p t c) s).monitors, m.holder = some t → m.pasid = p ∧ P m.colour := by
  induction cs generalizing s with
  | nil =>
    intro m hm hh
    exact ⟨(h1 m hm hh).1, (h1 m hm hh).2.resolve_left (by simp)⟩
  | cons c cs ih =>
    rw [List.foldl_cons]
    have hq : ∀ m ∈ (releaseColour s p t c).monitors, (m.holder = some t → m.pasid = p ∧ (m.colour ∈ cs ∨ P m.colour)) ∧ ∀ y ∈ m.fifo, y.tid ≠ t := by
      rw [releaseColour_eq]
      obtain ⟨S, hS⟩ : ∃ S, S = bumpVc (modT (published s p t c) t fun x => { x with held := x.held.filter fun h => h.1 != c }) t := ⟨_, rfl⟩
      rw [← hS]
      have hM : ∀ m ∈ S.monitors, (m.holder = some t → m.pasid = p ∧ (m.colour ∈ c :: cs ∨ P m.colour)) ∧ ∀ y ∈ m.fifo, y.tid ≠ t := by
        intro m hm
        have hm' : m ∈ s.monitors := by rw [hS] at hm; exact hm
        exact ⟨h1 m hm', h2 m hm'⟩
      have hout : ∀ m ∈ S.monitors, (m.pasid == p && m.colour == c) = false → m.holder = some t → m.pasid = p ∧ (m.colour ∈ cs ∨ P m.colour) := by
        intro m hm hne hh
        obtain ⟨e1, e2⟩ := (hM m hm).1 hh
        rcases e2 with e2 | e2
        · rcases List.mem_cons.mp e2 with e2 | e2
          · rw [e1, e2] at hne; simp at hne
          · exact ⟨e1, .inl e2⟩
        · exact ⟨e1, .inr e2⟩
      unfold freeMonitor
      split
      · rename_i hn
        intro m hm
        refine ⟨hout m hm ?_, (hM m hm).2⟩
        have := List.find?_eq_none.mp hn m hm
        simpa using this
      · rename_i m0 hs
        have hm0 : m0 ∈ S.monitors := List.mem_of_find?_eq_some hs
        have hk : m0.pasid = p ∧ m0.colour = c := by have := List.find?_some hs; simpa using this
        split
        · intro m hm
          have hm' : m ∈ updIf (fun m => m.pasid == p && m.colour == c) (fun m => { m with holder := none }) S.monitors := (List.mem_filter.mp hm).1
          unfold updIf at hm'
          obtain ⟨m1, q1, rfl⟩ := List.mem_map.mp hm'
          split
          · exact ⟨(fun h => by cases h), (hM m1 q1).2⟩
          · rename_i hne
            exact ⟨hout m1 q1 (by simpa using hne), (hM m1 q1).2⟩
        · rename_i w0 rest hf
          have hw0 : w0.tid ≠ t := (hM m0 hm0).2 w0 (by rw [hf]; exact List.mem_cons_self)
          intro m hm
          have hm' : m ∈ updIf (fun m => m.pasid == p && m.colour == c) (fun m => { m with holder := some w0.tid, count := m.count + 1, fifo := m.fifo.filter fun x => x.tid != w0.tid }) S.monitors := by
            rw [(grantTo_spec S m0 w0).1, hk.1, hk.2] at hm
            exact hm
          unfold updIf at hm'
          obtain ⟨m1, q1, rfl⟩ := List.mem_map.mp hm'
          split
          · exact ⟨fun h => absurd (Option.some.inj h) hw0, fun y hy => (hM m1 q1).2 y (List.mem_filter.mp hy).1⟩
          · rename_i hne
            exact ⟨hout m1 q1 (by simpa using hne), (hM m1 q1).2⟩
    exact ih _ (fun m hm => (hq m hm).1) fun m hm => (hq m hm).2

theorem releaseFold_holds (p : Nat) (t : Tid) (cs : List (BitVec 16)) (s : State)
    (h1 : ∀ m ∈ s.monitors, m.holder = some t → m.pasid = p ∧ m.colour ∈ cs) (h2 : ∀ m ∈ s.monitors, ∀ y ∈ m.fifo, y.tid ≠ t) :
    HoldsNone (cs.foldl (fun s c => releaseColour s p t c) s) t :=
  fun m hm hh => (releaseFold_kept (fun _ => False) p t cs s (fun m hm hh => ⟨(h1 m hm hh).1, .inl (h1 m hm hh).2⟩) h2 m hm hh).2

theorem deliverTraps_one (s : State) (pc : Word) (b : Bool) (t : Tid) (c : Cause) : deliverTraps s pc b [(t, c)] = trapThread s t c pc b (laneMask [t]) := by
  unfold deliverTraps
  have e : sortBy id ((([(t, c)] : List (Tid × Cause)).map fun e => e.2.code).eraseDups) = [c.code] := by
    rw [List.map_cons, List.map_nil, List.eraseDups_cons, List.filter_nil, List.eraseDups_nil]; rfl
  rw [e]
  simp

theorem modT_oneDone {s : State} {x : Thread} (f : Thread → Thread) (h1 : getT s x.tid = some x) (hk : ∀ y, y.tid = x.tid → (f y).tid = x.tid) :
    modT s x.tid f = { s with threads := (modT s x.tid f).threads } ∧ OneDone s (modT s x.tid f) x fun y => y = f x :=
  ⟨rfl, ⟨f x, by rw [getT_modT hk, h1]; rfl, rfl⟩, fun _ hu => getT_modT_ne hk hu⟩

theorem unreserve_frame (s : State) (t : Tid) : unreserve s t = { s with monitors := (unreserve s t).monitors } := by
  unfold unreserve; split <;> rfl

/-- TAKING AN EXCEPTION: the thread enters its handler (R244). -/
theorem trapThread_enters {s : State} {x : Thread} {w : Workgroup} {c : Cause} {pc m : Word} {b : Bool} (h1 : getT s x.tid = some x) (h2 : x.run = .ready)
    (h3 : getWg s x.wg = some w) (h4 : HandlerFree w x) :
    trapThread s x.tid c pc b m = { s with threads := (trapThread s x.tid c pc b m).threads, monitors := (unreserve s x.tid).monitors } ∧
      OneDone s (trapThread s x.tid c pc b m) x fun y => y = inHandler s.now w.rcb.trapVec (trapSaved c pc b m x) x := by
  have e : trapThread s x.tid c pc b m = enterHandler (unreserve s x.tid) x.tid c pc b m w.rcb.trapVec := by
    have q1 : (w.rcb.trapVec == 0) = false := by rw [beq_eq_false_iff_ne]; exact h4.1
    have q2 := h4.2.2
    unfold trapThread
    rw [h1]
    dsimp only
    rw [h2, h3]
    dsimp only
    rw [q1]
    simp [h4.2.1, Nat.not_le.mpr q2]
  have hu := unreserve_frame s x.tid
  have h1' : getT (unreserve s x.tid) x.tid = some x := by rw [hu]; exact h1
  have hn : (unreserve s x.tid).now = s.now := by rw [hu]
  rw [e]
  unfold enterHandler
  obtain ⟨k1, ⟨y, k2, k3⟩, k4⟩ := modT_oneDone (s := unreserve s x.tid) (x := x) (h1 := h1') (hk := fun _ h => h) (f := fun y =>
    { y with
      trap := { inh := true, legacy := b, integ := c.integ, shadow := c.shadow, cause := BitVec.ofNat 8 c.code, addr := c.addr,
                mask := m, pc := pc, entryPc := pc, entryHdr := if y.pc == pc then y.hdr else none, aux := auxWord c, peer := c.peer, depth := y.depth, pl := y.pl }
      pl := 1
      depth := y.depth + 1
      pc := w.rcb.trapVec
      hdr := none
      legacy := false
      run := .ready
      since := none
      retrying := none
      able := (unreserve s x.tid).now })
  refine ⟨k1.trans (by rw [hu]), ⟨y, k2, ?_⟩, fun u hu' => (k4 u hu').trans (by rw [hu]; rfl)⟩
  rw [k3, hn]
  unfold inHandler trapSaved
  simp

theorem softWord {i : Instr} {pg : Guard} {c : Cause} (h : softCause i = some (pg, c)) (s : State) : exec i s = .next (controlWord s pg [] fun s _ _ _ => (s, .after c)) := by
  cases i <;> simp only [softCause, reduceCtorEq, Option.some.injEq, Prod.mk.injEq] at h
  · rw [← h.1, ← h.2]; rfl
  · rw [← h.1, ← h.2]; rfl

theorem retire_ready {s : State} {x : Thread} (h1 : getT s x.tid = some x) (h2 : x.run = .ready) :
    getT (retire s x.tid) x.tid = some (advance s.cur s.now x) ∧ ∀ u, u ≠ x.tid → getT (retire s x.tid) u = getT s u := by
  have hk : ∀ (y : Thread), y.tid = x.tid → (if (y.run == .killed) = true then y else advance s.cur s.now y).tid = x.tid := by
    intro y hy; split <;> simp [hy]
  unfold retire
  refine ⟨?_, fun u hu => getT_modT_ne hk hu⟩
  rw [getT_modT hk, h1, Option.map_some, if_neg (by rw [h2]; decide)]

theorem controlWord_nil {s s' : State} {w : Workgroup} {x : Thread} {r : LaneRes} (hd : dualCause s w = []) (h : s' = s) (hr : r = .retire [] ∨ (∃ c, r = .after c)) :
    withSrcs s w x [] .zero 0 (poisonCauses [0]) (fun vals pops =>
      match (s', r) with
      | (s, .wait x) => (s, .wait x)
      | (s, .trap c) => (s, .trap c)
      | (s, .consume c) => (s, .consume c)
      | (s, .kill k a) => (s, .kill k a)
      | (s, r) => (touchRegs (modT s x.tid fun x => takeSources x [] pops) w x.tid (markedRegs []), r)) = (s, r) := by
  rw [withSrcs_ok hd rfl rfl rfl rfl, h]
  have e : touchRegs (modT s x.tid fun y => takeSources y [] []) w x.tid [] = s := by
    rw [modT_take_nil]; unfold touchRegs; split <;> rfl
  rcases hr with hr | ⟨c, hr⟩
  · rw [hr]; exact congrArg (fun z => (z, LaneRes.retire [])) e
  · rw [hr]; exact congrArg (fun z => (z, LaneRes.after c)) e

theorem freeMonitor_fifo (s : State) (p : Nat) (c : BitVec 16) (t : Tid) (h : ∀ m ∈ s.monitors, ∀ y ∈ m.fifo, y.tid ≠ t) :
    (∀ m ∈ (freeMonitor s p c).monitors, ∀ y ∈ m.fifo, y.tid ≠ t) ∧ getT (freeMonitor s p c) t = getT s t := by
  unfold freeMonitor
  split
  · exact ⟨h, rfl⟩
  · rename_i m0 hs
    have hm0 : m0 ∈ s.monitors := List.mem_of_find?_eq_some hs
    split
    · refine ⟨fun m hm => ?_, rfl⟩
      have hm' : m ∈ updIf (fun m => m.pasid == p && m.colour == c) (fun m => { m with holder := none }) s.monitors := (List.mem_filter.mp hm).1
      unfold updIf at hm'
      obtain ⟨m1, q1, rfl⟩ := List.mem_map.mp hm'
      split <;> exact h m1 q1
    · rename_i w0 rest hf
      have hw0 : w0.tid ≠ t := h m0 hm0 w0 (by rw [hf]; exact List.mem_cons_self)
      refine ⟨fun m hm => ?_, ?_⟩
      · have hm' : m ∈ updIf (fun m => m.pasid == m0.pasid && m.colour == m0.colour) (fun m => { m with holder := some w0.tid, count := m.count + 1, fifo := m.fifo.filter fun x => x.tid != w0.tid }) s.monitors := by
          rw [(grantTo_spec s m0 w0).1] at hm
          exact hm
        unfold updIf at hm'
        obtain ⟨m1, q1, rfl⟩ := List.mem_map.mp hm'
        split
        · exact fun y hy => h m1 q1 y (List.mem_filter.mp hy).1
        · exact h m1 q1
      · exact (grantTo_spec s m0 w0).2 t fun e => hw0 e.symm

theorem releaseColour_thread (s : State) (p : Nat) (t : Tid) (c : BitVec 16) (x : Thread) (ht : getT s t = some x) (h : ∀ m ∈ s.monitors, ∀ y ∈ m.fifo, y.tid ≠ t) :
    (∀ m ∈ (releaseColour s p t c).monitors, ∀ y ∈ m.fifo, y.tid ≠ t) ∧
      ∃ vc, getT (releaseColour s p t c) t = some { x with held := x.held.filter fun h => h.1 != c, vc := vc } := by
  rw [releaseColour_eq]
  obtain ⟨S, hS⟩ : ∃ S, S = bumpVc (modT (published s p t c) t fun x => { x with held := x.held.filter fun h => h.1 != c }) t := ⟨_, rfl⟩
  rw [← hS]
  have hM : ∀ m ∈ S.monitors, ∀ y ∈ m.fifo, y.tid ≠ t := by
    intro m hm
    rw [hS] at hm
    exact h m hm
  obtain ⟨k1, k2⟩ := freeMonitor_fifo S p c t hM
  refine ⟨k1, ?_⟩
  rw [k2, hS]
  unfold bumpVc
  have e1 : getT (modT (published s p t c) t fun x => { x with held := x.held.filter fun h => h.1 != c }) t
      = some { x with held := x.held.filter fun h => h.1 != c } := by
    refine (getT_modT ?_).trans ?_
    · exact fun y hy => hy
    have : getT (published s p t c) t = some x := ht
    rw [this]
    rfl
  refine ⟨kset (Tid.key t) (kget 0 (Tid.key t) x.vc + 1) x.vc, ?_⟩
  refine (getT_modT ?_).trans ?_
  · exact fun y hy => hy
  rw [e1]
  rfl

theorem releaseFold_thread (p : Nat) (t : Tid) (cs : List (BitVec 16)) (s : State) (x : Thread) (ht : getT s t = some x)
    (h : ∀ m ∈ s.monitors, ∀ y ∈ m.fifo, y.tid ≠ t) :
    ∃ vc, getT (cs.foldl (fun s c => releaseColour s p t c) s) t = some { x with held := x.held.filter fun h => !cs.contains h.1, vc := vc } := by
  induction cs generalizing s x with
  | nil =>
    refine ⟨x.vc, ?_⟩
    have : x.held.filter (fun h => !([] : List (BitVec 16)).contains h.1) = x.held := List.filter_eq_self.mpr fun _ _ => rfl
    rw [this]
    exact ht
  | cons c cs ih =>
    obtain ⟨k1, vc, k2⟩ := releaseColour_thread s p t c x ht h
    obtain ⟨vc2, k3⟩ := ih _ _ k2 k1
    refine ⟨vc2, ?_⟩
    rw [List.foldl_cons, k3]
    dsimp only
    rw [List.filter_filter]
    have e : (fun h : BitVec 16 × Nat => !cs.contains h.1 && h.1 != c) = fun h => !(c :: cs).contains h.1 := by
      funext h
      rw [List.contains_cons, Bool.not_or, Bool.and_comm]
      rfl
    rw [e]

end Sys2Proof.Machine
end

