-- ==== Sys2Proof/Laws/Links.lean ====
section
/-! SUPPORT. The steps of the ports and the links: what the shared operations on ports leave, and how an arriving flit is sorted. -/

namespace Sys2Proof.Machine

theorem set_set {α : Type} (l : List α) (n : Nat) (x y : α) : (l.set n x).set n y = l.set n y := by
  induction l generalizing n with
  | nil => rfl
  | cons a l ih => cases n with
    | zero => rfl
    | succ n => exact congrArg (a :: ·) (ih n)

theorem modPort_getD (l : List Port) (n : Nat) (x : Port) (h : n < l.length) : (l.set n x).getD n Port.reset = x := by
  simp [List.getD, h]

/-- Two changes of one port. -/
theorem modPort_modPort (s : State) (p : Nat) (f g : Port → Port) : modPort (modPort s p f) p g = modPort s p fun x => g (f x) := by
  unfold modPort getPort
  dsimp only
  rw [set_set]
  by_cases h : p < s.ports.length
  · rw [modPort_getD _ _ _ h]
  · rw [List.set_eq_of_length_le (by omega), List.set_eq_of_length_le (by omega)]

theorem getPort_of_ne {s : State} {p : Nat} (f : Port → Port) (h : getPort s p ≠ Port.reset) : getPort (modPort s p f) p = f (getPort s p) := by
  unfold modPort getPort at *
  dsimp only
  by_cases hl : p < s.ports.length
  · exact modPort_getD _ _ _ hl
  · exact absurd (by simp [List.getD, List.getElem?_eq_none (Nat.not_lt.mp hl)]) h
theorem portIn_within {s : State} {p : Nat} {st : Train} {ns : Nat} (hp : p < 16) (hd : PortServes s p) (h : (getPort s p).within s st ns) : portIn s p st ns = true := by
  unfold PortServes at hd
  unfold portIn
  simp [hp, hd, h.1, h.2]

theorem portWithin_inTime {s : State} {p : Nat} {st : Train} {ns : Nat} (hp : p < 16) (hd : PortServes s p) (h : (getPort s p).inTime s st ns) : portWithin s p st ns = true := by
  unfold portWithin
  rw [portIn_within hp hd h.1]
  simp [h.2]

theorem sendTraining_told (s : State) (p : Nat) (b : FlitBody) : sendTraining s p b = modPort s p fun x => x.told b := rfl

theorem enter_modPort (s : State) (p : Nat) (f : Port → Port) (st : Train) : enter (modPort s p f) p st = modPort s p fun x => (f x).entering s st := by
  unfold enter; rw [modPort_modPort]; rfl

theorem toDetect_failed (s : State) (p : Nat) : toDetect s p = modPort s p fun x => x.failed s := rfl

theorem modPort_congr {s : State} {p : Nat} {f g : Port → Port} (h : f (getPort s p) = g (getPort s p)) : modPort s p f = modPort s p g := by
  unfold modPort; rw [h]

theorem slower_slowed (s : State) (p : Nat) (f : Port → Port) (h : getPort (modPort s p f) p = f (getPort s p)) :
    slower (modPort s p f) p = modPort s p fun x => (f x).slowed s := by
  unfold slower
  rw [h]
  split
  · rename_i hr
    rw [toDetect_failed, modPort_modPort]
    refine modPort_congr ?_
    unfold Port.slowed
    rw [if_pos hr]; rfl
  · rename_i hr
    rw [modPort_modPort, enter_modPort]
    refine modPort_congr ?_
    unfold Port.slowed
    rw [if_neg hr]

theorem endRound_round (s : State) (p : Nat) (good : Bool) (hm : ∀ f : Port → Port, getPort (modPort s p f) p = f (getPort s p)) :
    endRound s p good = modPort s p fun x => x.round s good := by
  unfold endRound
  dsimp only
  split
  · rename_i h
    rw [enter_modPort]; refine modPort_congr ?_; unfold Port.round; rw [if_pos h]
  · rename_i h
    split
    · rename_i h8
      rw [slower_slowed _ _ _ (hm _)]; refine modPort_congr ?_; unfold Port.round; rw [if_neg h, if_pos h8]
    · rename_i h8
      rw [enter_modPort, sendTraining_told, modPort_modPort]; refine modPort_congr ?_; unfold Port.round; rw [if_neg h, if_neg h8]

theorem sendNotice_noticed (s : State) (p : Nat) (f : Port → Port) (h : getPort (modPort s p f) p = f (getPort s p)) :
    sendNotice (modPort s p f) p = modPort s p fun x => (f x).noticed := by
  unfold sendNotice credit
  rw [h]
  split
  · rename_i hc; refine modPort_congr ?_; unfold Port.noticed; rw [if_pos hc]
  · rename_i hc; unfold sendFlit; rw [modPort_modPort]; refine modPort_congr ?_; unfold Port.noticed; rw [if_neg hc]

theorem quarantine_quarantined (s : State) (p why : Nat) (hm : ∀ f : Port → Port, getPort (modPort s p f) p = f (getPort s p)) :
    quarantine s p why = modPort s p fun x => x.quarantined s why := by
  unfold quarantine
  rw [enter_modPort, sendNotice_noticed _ _ _ (hm _)]
  rfl

theorem modPort_same (s : State) (p : Nat) : (modPort s p fun x => x) = s := by
  unfold modPort getPort
  have : s.ports.set p (s.ports.getD p Port.reset) = s.ports := by
    by_cases h : p < s.ports.length
    · simp [List.getD, h]
    · exact List.set_eq_of_length_le (by omega)
  rw [this]

theorem rxOf_deaf {s : State} {p : Nat} {f : Flit} (h : ¬ Listens s p) : rxOf s p f = .discard := by
  unfold rxOf
  dsimp only
  rw [if_pos]
  unfold Listens at h
  by_cases hp : p < 16
  · have h' : ¬ ((getPort s p).state = .active ∨ (getPort s p).state = .quarantine) := fun k => h ⟨hp, k⟩
    simp only [not_or] at h'
    simp [h'.1, h'.2]
  · simp [Nat.not_lt.mp hp]

/-- How a flit is sorted by a port that takes flits. -/
theorem rxOf_hears {s : State} {p : Nat} {f : Flit} (h : Listens s p) :
    rxOf s p f = if Flit.crcOk f = false then .missing
      else if (getPort s p).state = .quarantine ∧ f.vc ≠ 3 then .drop (f.seq == (getPort s p).rxSeq)
      else if f.seq ≠ (getPort s p).rxSeq then (if ahead s p f < 2 ^ 15 then .missing else .discard)
      else if 5 ≤ f.kind.toNat then .drop true else .accept := by
  unfold rxOf ahead
  dsimp only
  have h0 : (decide (16 ≤ p) || ((getPort s p).state != .active && (getPort s p).state != .quarantine)) = false := by
    rcases h.2 with e | e <;> rw [e] <;> simp [Nat.not_le.mpr h.1]
  rw [h0]
  simp only [Bool.false_eq_true, if_false, Bool.not_eq_true', Bool.and_eq_true, beq_iff_eq, bne_iff_ne, ne_eq, beq_eq_false_iff_ne]

theorem ahead_zero {s : State} {p : Nat} {f : Flit} : ahead s p f = 0 ↔ f.seq = (getPort s p).rxSeq := by
  unfold ahead
  constructor
  · intro h
    have : f.seq - (getPort s p).rxSeq = 0 := BitVec.eq_of_toNat_eq (by simpa using h)
    have h2 : f.seq = f.seq - (getPort s p).rxSeq + (getPort s p).rxSeq := (BitVec.sub_add_cancel _ _).symm
    rw [h2, this]
    simp
  · intro h; rw [h]; simp

theorem rxCount_counted (s : State) (p : Nat) (f : Flit) : rxCount s p f = modPort s p (Port.counted f) := by
  unfold rxCount
  refine congrArg (modPort s p) ?_
  funext x
  unfold Port.counted
  simp

theorem askReplay_asks (s : State) (p : Nat) (f : Flit) :
    askReplay s p f = if Flit.crcOk f = true ∧ (getPort s p).nak = some (getPort s p).rxSeq then s else modPort s p Port.asks := by
  unfold askReplay sendLater
  dsimp only
  rw [modPort_modPort]
  simp only [Bool.and_eq_true, beq_iff_eq]
  split
  · rfl
  · exact modPort_congr rfl

/-- A flit that is not accepted. -/
theorem rxLost_done {s t : State} {a : FlitTurn} (hr : rxOf s a.port a.flit ≠ .accept) (ht : t = rxLost s a.port a.flit (rxOf s a.port a.flit)) : FlitDone a s t := by
  subst ht
  by_cases hl : Listens s a.port
  · have e := rxOf_hears (f := a.flit) hl
    by_cases hc : Flit.crcOk a.flit = true
    · rw [if_neg (by rw [hc]; simp)] at e
      by_cases hq : (getPort s a.port).state = .quarantine ∧ a.flit.vc ≠ 3
      · rw [if_pos hq] at e
        rw [e]
        refine ⟨fun h => ?_, fun _ h => ?_, fun _ _ _ => ?_, fun h => absurd hq h.2.2.1, fun h => absurd hq h.2.2.1⟩
        · exact absurd hl (h.resolve_right fun h => h.2.1 hq)
        · exact absurd hq (h.resolve_left (by rw [hc]; simp)).1
        · unfold rxLost
          dsimp only
          by_cases hs : a.flit.seq = (getPort s a.port).rxSeq
          · rw [if_pos (by simpa using hs), rxCount_counted, modPort_modPort]
            refine modPort_congr ?_
            rw [if_pos hs]
          · rw [if_neg (by simpa using hs)]
            refine modPort_congr ?_
            rw [if_neg hs]
      · rw [if_neg hq] at e
        by_cases hs : a.flit.seq = (getPort s a.port).rxSeq
        · rw [if_neg (by simpa using hs)] at e
          have h0 := ahead_zero.mpr hs
          by_cases hk : 5 ≤ a.flit.kind.toNat
          · rw [if_pos hk] at e
            rw [e]
            refine ⟨fun h => ?_, fun _ h => ?_, fun _ _ h => absurd h hq, fun _ _ => ?_, fun _ h => absurd hk (Nat.not_le.mpr h)⟩
            · exact absurd (h.resolve_left fun h => h hl).2.2 (by rw [h0]; decide)
            · exact absurd (h.resolve_left (by rw [hc]; simp)).2.1 (by rw [h0]; decide)
            · unfold rxLost
              dsimp only
              rw [if_pos rfl, rxCount_counted, modPort_modPort]
          · rw [if_neg hk] at e; exact absurd e hr
        · rw [if_pos hs] at e
          have h0 : 0 < ahead s a.port a.flit := Nat.pos_of_ne_zero fun h => hs (ahead_zero.mp h)
          by_cases ha : ahead s a.port a.flit < 2 ^ 15
          · rw [if_pos ha] at e
            rw [e]
            refine ⟨fun h => ?_, fun _ _ => askReplay_asks _ _ _, fun _ _ h => absurd h hq, fun h => absurd h.2.2.2 hs, fun h => absurd h.2.2.2 hs⟩
            exact absurd (h.resolve_left fun h => h hl).2.2 (Nat.not_le.mpr ha)
          · rw [if_neg ha] at e
            rw [e]
            refine ⟨fun _ => rfl, fun _ h => ?_, fun _ _ h => absurd h hq, fun h => absurd h.2.2.2 hs, fun h => absurd h.2.2.2 hs⟩
            exact absurd (h.resolve_left (by rw [hc]; simp)).2.2 ha
    · have hc' : Flit.crcOk a.flit = false := by simpa using hc
      rw [if_pos hc'] at e
      rw [e]
      refine ⟨fun h => ?_, fun _ _ => askReplay_asks _ _ _, fun _ h => absurd h hc, fun h => absurd h.2.1 hc, fun h => absurd h.2.1 hc⟩
      exact absurd (h.resolve_left fun h => h hl).1 hc
  · rw [rxOf_deaf hl]
    exact ⟨fun _ => rfl, fun h => absurd h hl, fun h => absurd h hl, fun h => absurd h.1 hl, fun h => absurd h.1 hl⟩

/-- A flit that is accepted. -/
theorem rxTaken_done {s t : State} {a : FlitTurn} (hr : rxOf s a.port a.flit = .accept)
    (ht : (∀ k, a.lane = some k → a.flit.kind.toNat = k.1 ∧ a.flit.vc.toNat = k.2) → t = a.take (modPort s a.port (Port.counted a.flit)) a.flit.body) : FlitDone a s t := by
  by_cases hl : Listens s a.port
  · have e := rxOf_hears (f := a.flit) hl
    rw [hr] at e
    have hc : ¬ Flit.crcOk a.flit = false := fun h => by rw [if_pos h] at e; cases e
    rw [if_neg hc] at e
    have hq : ¬ ((getPort s a.port).state = .quarantine ∧ a.flit.vc ≠ 3) := fun h => by rw [if_pos h] at e; cases e
    rw [if_neg hq] at e
    have hs : a.flit.seq = (getPort s a.port).rxSeq := by
      refine Decidable.byContradiction fun h => ?_
      rw [if_pos h] at e
      split at e <;> cases e
    rw [if_neg (by simpa using hs)] at e
    have hk : ¬ 5 ≤ a.flit.kind.toNat := fun h => by rw [if_pos h] at e; cases e
    have h0 := ahead_zero.mpr hs
    refine ⟨fun h => ?_, fun _ h => ?_, fun _ _ h => absurd h hq, fun _ h => absurd h hk, fun _ _ h => ht h⟩
    · exact absurd (h.resolve_left fun h => h hl).2.2 (by rw [h0]; decide)
    · exact absurd (h.resolve_left hc).2.1 (by rw [h0]; decide)
  · rw [rxOf_deaf hl] at hr; cases hr

/-- A flit of a kind that names its channel. -/
theorem rx_done (s : State) (p : Nat) (f : Flit) (k v : Nat) (take : State → FlitBody → State) :
    FlitDone ⟨p, f, some (k, v), take⟩ s (rx s p f k v take) := by
  cases hr : rxOf s p f
  case accept =>
    refine rxTaken_done hr fun h => ?_
    unfold rx
    rw [hr]
    dsimp only
    rw [if_pos (h _ rfl), rxCount_counted]
  all_goals exact rxLost_done (by rw [hr]; simp) (by unfold rx; rw [hr])

theorem rx_take {take take' : State → FlitBody → State} (h : ∀ s b, take s b = take' s b) : take = take' := by
  funext s b; exact h s b

/-- Memory, its blocks, the error counters and the record of synchronisation are all that differ. -/
def MemOnly (s t : State) : Prop := t = { s with mem := t.mem, blocks := t.blocks, dirty := t.dirty, memerr := t.memerr, syncs := t.syncs }

theorem MemOnly.refl (s : State) : MemOnly s s := rfl

theorem MemOnly.trans {s t u : State} (h : MemOnly s t) (k : MemOnly t u) : MemOnly s u := by
  unfold MemOnly at *
  rw [k, h]

theorem setBlock_only (s : State) (b : Nat) (x : Block) : MemOnly s (setBlock s b x) := by
  unfold MemOnly; rw [setBlock_frame]

theorem countErr_only (s : State) (d c : Nat) : MemOnly s (countErr s d c) := rfl

theorem writeHbm_only (s : State) (a : Nat) (l : List Byte) (y k : Nat) (p : Bool) : MemOnly s (writeHbm s a l y k p) := by
  unfold MemOnly; rw [writeHbm_frame]

theorem writeHbmRange_only (s : State) (a : Nat) (l : List Byte) (y k : Nat) (p : Bool) : MemOnly s (writeHbmRange s a l y k p) := by
  unfold writeHbmRange
  generalize blockPieces _ _ _ = ps
  induction ps generalizing s l with
  | nil => rfl
  | cons q ps ih =>
    rw [List.foldl_cons]
    exact (writeHbm_only _ _ _ _ _ _).trans (ih _ _)

theorem writeCanon_only (s : State) (a : Nat) (l : List Byte) (y k : Nat) (p : Bool) : MemOnly s (writeCanon s a l y k p) := by
  unfold writeCanon
  dsimp only
  split
  · rfl
  · exact MemOnly.trans (t := syncClear s a l.length) rfl (writeHbmRange_only _ _ _ _ _ _)

theorem performStore_only (s : State) (x : OutStore) : MemOnly { s with stores := s.stores.filter fun y => y.id != x.id } (performStore s x) := by
  unfold performStore
  dsimp only
  split
  · rfl
  · exact writeCanon_only _ _ _ _ _ _

theorem performStores_only (l : List OutStore) (s : State) :
    MemOnly { s with stores := s.stores.filter fun y => !(l.map (·.id)).contains y.id } (l.foldl performStore s) := by
  induction l generalizing s with
  | nil =>
    have : s.stores.filter (fun y => !(([] : List OutStore).map (·.id)).contains y.id) = s.stores := List.filter_eq_self.mpr fun _ _ => rfl
    rw [this]
    rfl
  | cons x l ih =>
    rw [List.foldl_cons]
    have h1 := performStore_only s x
    have h2 := ih (performStore s x)
    have e : (performStore s x).stores = s.stores.filter fun y => y.id != x.id := by rw [h1]
    rw [e, List.filter_filter] at h2
    have e2 : (fun y : OutStore => !(l.map (·.id)).contains y.id && y.id != x.id) = fun y => !((x :: l).map (·.id)).contains y.id := by
      funext y
      rw [List.map_cons, List.contains_cons, Bool.not_or, Bool.and_comm]
      rfl
    rw [e2] at h2
    refine MemOnly.trans (t := { performStore s x with stores := s.stores.filter fun y => !((x :: l).map (·.id)).contains y.id }) ?_ h2
    unfold MemOnly at h1 ⊢
    rw [h1]

/-- Memory, the links and the records that wait are all that differ. -/
def RingOnly (s t : State) : Prop := t = { s with mem := t.mem, links := t.links, records := t.records, ids := t.ids }

theorem RingOnly.trans {s t u : State} (h : RingOnly s t) (k : RingOnly t u) : RingOnly s u := by
  unfold RingOnly at *
  rw [k, h]

theorem emit_only (s : State) (l : Nat) (e : Bool) (b : List Byte) : RingOnly s (emit s l e b) := by
  unfold emit
  dsimp only
  split
  · rfl
  · split
    · rfl
    · unfold putRecord
      dsimp only
      split
      · rfl
      · split
        · rfl
        · split
          · unfold atsAsk; split <;> rfl
          · rfl

theorem moduleEvent_only (s : State) (t c : Nat) : RingOnly s (moduleEvent s t c) := (emit_only _ _ _ _).trans (emit_only _ _ _ _)

theorem wakeLink_woken (s : State) (k : Nat) : LinkWoken s (wakeLink s k) k := by
  refine ⟨fun u x h => ?_, rfl⟩
  have : getT (wakeLink s k) u = (getT s u).map fun t => if (match t.run with
      | .waiting (.ats l _ _ _) => l == k
      | _ => false) then { t with run := .ready, able := s.now } else t := find_updIf fun _ => rfl
  rw [this, h, Option.map_some]
  refine congrArg some ?_
  cases x.run with
  | waiting w => cases w <;> simp
  | _ => simp

theorem getBlock_setBlock {s : State} {c : Nat} {b : Block} (hb : b ≠ Block.plain) (j : Nat) : getBlock (setBlock s c b) j = if j = c then b else getBlock s j := by
  unfold setBlock
  by_cases h : getBlock s c = b
  · rw [if_pos h]
    by_cases hj : j = c
    · rw [if_pos hj, hj, h]
    · rw [if_neg hj]
  · rw [if_neg h, if_neg hb]
    unfold getBlock
    dsimp only
    by_cases hj : j = c
    · rw [if_pos hj, hj, kget_kset]
    · rw [if_neg hj, kget_kset_ne _ _ hj]

/-- Lines that are abandoned: their blocks hold the poison pattern (R150). -/
theorem abandon_poison (l : List Nat) (s : State) :
    MemOnly s (l.foldl (fun s b => countErr (setBlock s b { getBlock s b with poison := true }) (dieOf (64 * b)) 3) s) ∧
    ∀ b, (b ∈ l ∨ (getBlock s b).poison = true) →
      (getBlock (l.foldl (fun s b => countErr (setBlock s b { getBlock s b with poison := true }) (dieOf (64 * b)) 3) s) b).poison = true := by
  induction l generalizing s with
  | nil => exact ⟨rfl, fun b h => h.resolve_left (by simp)⟩
  | cons c l ih =>
    rw [List.foldl_cons]
    obtain ⟨h1, h2⟩ := ih (countErr (setBlock s c { getBlock s c with poison := true }) (dieOf (64 * c)) 3)
    refine ⟨MemOnly.trans (MemOnly.trans (setBlock_only _ _ _) (countErr_only _ _ _)) h1, fun b hb => h2 b ?_⟩
    have e : ({ getBlock s c with poison := true } : Block) ≠ Block.plain := by
      intro h; have := congrArg Block.poison h; cases this
    have hg : getBlock (countErr (setBlock s c { getBlock s c with poison := true }) (dieOf (64 * c)) 3) b = if b = c then { getBlock s c with poison := true } else getBlock s b :=
      getBlock_setBlock e b
    rw [hg]
    by_cases hc : b = c
    · exact .inr (by rw [if_pos hc])
    · rw [if_neg hc]
      rcases hb with hb | hb
      · exact .inl ((List.mem_cons.mp hb).resolve_left hc)
      · exact .inr hb

theorem resetAge_of {s : State} {b n : Nat} (h1 : s.warm.began = some b) (h2 : b + n ≤ s.ns) : resetAge s n = true := by
  unfold resetAge; rw [h1]; simpa using h2

end Sys2Proof.Machine
end

