-- ==== Sys2Proof/Laws/Host.lean ====
section
/-! SUPPORT. The host's side: what queues hold after a write, a completion or an error, and what reads of packets leave alone. -/

namespace Sys2Proof.Machine

theorem getQueue_modQueue (s : State) (q : Nat) (f : Queue → Queue) : getQueue (modQueue s q f) q = f (getQueue s q) := by
  unfold getQueue modQueue; exact kget_kset _ _ _ _

theorem getQueue_ne {s : State} {q k : Nat} (f : Queue → Queue) (h : k ≠ q) : getQueue (modQueue s q f) k = getQueue s k := by
  unfold getQueue modQueue; exact kget_kset_ne _ _ h _

theorem settleQueue_settled (s : State) (q : Nat) : settleQueue s q = modQueue s q Queue.settled := by
  unfold settleQueue
  refine congrArg (modQueue s q) ?_
  funext x
  rfl

theorem modQueue_done (s : State) (q : Nat) (f : Queue → Queue) : QueueDone s (modQueue s q f) q (f (getQueue s q)) :=
  ⟨getQueue_modQueue _ _ _, fun _ h => getQueue_ne _ h, rfl⟩

theorem RingOnly.queue {s t : State} (h : RingOnly s t) (q : Nat) : getQueue t q = getQueue s q := by
  unfold RingOnly at h; rw [h]; rfl

theorem records_of {s E : State} {q : Nat} {f g : Queue → Queue} (h : RingOnly (modQueue s q f) E) : RecordsOnly s (modQueue E q g) := by
  unfold RingOnly at h
  unfold RecordsOnly
  rw [h]
  rfl

/-- A queue once a record about it has been written and its stop has been settled. -/
theorem emitted {s : State} {q : Nat} {f : Queue → Queue} {y : Queue} (l : Nat) (e : Bool) (b : List Byte) (hy : f (getQueue s q) = y) :
    let t := settleQueue (emit (modQueue s q f) l e b) q
    getQueue t q = y.settled ∧ (∀ k, k ≠ q → getQueue t k = getQueue s k) ∧ RecordsOnly s t := by
  dsimp only
  rw [settleQueue_settled]
  have he := emit_only (modQueue s q f) l e b
  refine ⟨?_, fun k hk => ?_, records_of he⟩
  · rw [getQueue_modQueue, he.queue q, getQueue_modQueue, hy]
  · rw [getQueue_ne _ hk, he.queue k, getQueue_ne _ hk]

/-- A completion (R56). -/
theorem completePacket_completes {s : State} {q : Nat} {p : Packet} (h : getPacket s q p.seq = some p) : Completes s (completePacket s q p.seq) q p := by
  unfold completePacket
  rw [h]
  dsimp only
  by_cases hf : p.flag 1 = true
  · rw [if_pos hf]
    obtain ⟨h1, h2, h3⟩ := emitted (s := s) (q := q) (f := fun x =>
        { x with packets := x.packets.filter fun y => y.seq != p.seq, lastFw := if p.kind = 5 then some p.seq else x.lastFw }) (queueLink q) true
      (recordBytes 4 0 q (getQueue s q).pasid p.named p.seq s.ns) rfl
    exact ⟨h1, h2, h3, fun h0 => by rw [hf] at h0; cases h0⟩
  · rw [if_neg hf, settleQueue_settled]
    refine ⟨?_, fun k hk => ?_, rfl, fun _ => rfl⟩
    · rw [getQueue_modQueue, getQueue_modQueue]
    · rw [getQueue_ne _ hk, getQueue_ne _ hk]

/-- A packet error (R57). -/
theorem failPacket_fails (s : State) (q : Nat) (seq : W32) (err : Nat) (addr : Word) : Fails s (failPacket s q seq err addr) q seq err := by
  unfold failPacket
  obtain ⟨h1, h2, h3⟩ := emitted (s := s) (q := q) (f := fun x =>
    { x with packets := x.packets.filter fun y => y.seq != seq, err := BitVec.ofNat 8 err, head := seq,
             state := if x.state = .disabled then .disabled else .error }) (queueLink q) false (recordBytes 1 err q (getQueue s q).pasid addr seq s.ns) rfl
  exact ⟨h1, h2, h3⟩

theorem packetAt_get {s : State} {q : Nat} {seq : W32} {k : Nat} {st : PktState} {p : Packet} (h : packetAt s q seq k st = some p) :
    getPacket s q seq = some p ∧ p.seq = seq := by
  unfold packetAt at h
  cases hg : getPacket s q seq with
  | none => rw [hg] at h; cases h
  | some p' =>
    rw [hg] at h
    simp only [Option.bind_some] at h
    split at h
    · cases h
      refine ⟨rfl, ?_⟩
      have := List.find?_some hg
      simpa using this
    · cases h

theorem completes_at {s S : State} {q : Nat} {seq : W32} {p : Packet} (hp : p.seq = seq) (h : getPacket S q seq = some p) : Completes S (completePacket S q seq) q p := by
  subst hp; exact completePacket_completes h

/-- What reads for packets may change. -/
def ReadOnly_ (s t : State) : Prop :=
  t = { s with mem := t.mem, memerr := t.memerr, freeCtr := t.freeCtr, links := t.links, ids := t.ids, records := t.records, ports := t.ports, peerReads := t.peerReads }

theorem ReadOnly_.trans {s t u : State} (h : ReadOnly_ s t) (k : ReadOnly_ t u) : ReadOnly_ s u := by
  unfold ReadOnly_ at *
  rw [k, h]

theorem RingOnly.read {s t : State} (h : RingOnly s t) : ReadOnly_ s t := by
  unfold RingOnly at h
  unfold ReadOnly_
  rw [h]

theorem readHbmRange_only (s : State) (a n y k : Nat) : ReadOnly_ s (readHbmRange s a n y k).1 := by
  unfold readHbmRange
  generalize blockPieces _ _ _ = ps
  generalize (⟨[], none, [], [], false, false⟩ : ByteRead) = r0
  induction ps generalizing s r0 with
  | nil => rfl
  | cons q ps ih =>
    rw [List.foldl_cons]
    have h1 : ReadOnly_ s (readHbm s q.1 q.2 y k).1 := by
      unfold readHbm
      dsimp only
      split
      · rfl
      · dsimp only
        split
        · rfl
        · split <;> rfl
    have h2 := ih (readHbm s q.1 q.2 y k).1
      ⟨r0.bytes ++ (readHbm s q.1 q.2 y k).2.bytes, maxClass r0.sev (readHbm s q.1 q.2 y k).2.sev, r0.affected ++ (if (readHbm s q.1 q.2 y k).2.affected.isEmpty then List.replicate q.2 0 else (readHbm s q.1 q.2 y k).2.affected),
        r0.blocks ++ (readHbm s q.1 q.2 y k).2.blocks, r0.integ || (readHbm s q.1 q.2 y k).2.integ, r0.badMac || (readHbm s q.1 q.2 y k).2.badMac⟩
    unfold ReadOnly_ at h1 h2 ⊢
    dsimp only
    rw [h2, h1]

theorem atsAsk_only (s : State) (l p g : Nat) : ReadOnly_ s (atsAsk s l p g) := by
  unfold atsAsk
  split <;> rfl

theorem readPeer_only (s : State) (who : PeerUser) (m off n : Nat) (keep : Bool) : ReadOnly_ s (readPeer s who m off n keep).1 := by
  unfold readPeer
  dsimp only
  split
  · split <;> first | rfl | (split <;> rfl)
  · split
    · rfl
    · split <;> rfl

theorem pktPolicy_only (s : State) (pasid c : Nat) (va : Word) (l : List Byte) (lost : Bool) : ReadOnly_ s (pktPolicy s pasid c va l lost).1 := by
  unfold pktPolicy
  dsimp only
  split
  · split <;> rfl
  · split
    · rfl
    · split
      · rfl
      · exact (emit_only _ _ _ _).read

theorem pktXlate_only (s : State) (pasid : Nat) (va : Word) (r w : Bool) : ReadOnly_ s (pktXlate s pasid va r w).1 := by
  unfold pktXlate
  have h : ReadOnly_ s (walk s pasid va.toNat).1 := by rw [walk_frame]; rfl
  split <;> rename_i x <;> rw [x] at h <;> exact h

theorem pktRead_only (s : State) (q : Nat) (seq : W32) (va : Word) (n : Nat) : ReadOnly_ s (pktRead s q seq va n).1 := by
  unfold pktRead
  dsimp only
  have hx := pktXlate_only s (getQueue s q).pasid va true false
  split <;> rename_i x <;> rw [x] at hx
  · exact hx
  · refine hx.trans ?_
    split
    · split <;> rename_i y
      · exact (by simpa using readHbmRange_only _ _ _ _ _ : ReadOnly_ _ _).trans (pktPolicy_only _ _ _ _ _ _)
      · exact readHbmRange_only _ _ _ _ _
    · split
      · exact pktPolicy_only _ _ _ _ _ _
      · split
        · rfl
        · exact atsAsk_only _ _ _ _
    · rename_i s1 _ _ _ m off _
      have hr := readPeer_only s1 (.packet q seq) m off n false
      split <;> rename_i y <;> rw [y] at hr
      · exact hr
      · exact hr.trans (pktPolicy_only _ _ _ _ _ _)
      · exact hr
    · rfl
    · rfl

theorem getPacket_read {s S : State} (h : ReadOnly_ s S) (q : Nat) (seq : W32) : getPacket S q seq = getPacket s q seq := by
  unfold ReadOnly_ at h
  rw [h]
  rfl

theorem drainContext_only (s : State) (pasid : Nat) : (drainContext s pasid).queues = s.queues := by
  unfold drainContext
  have := performStores_only (s.stores.filter fun x => x.pasid == pasid && x.port.isNone) s
  unfold MemOnly at this
  rw [this]

theorem getPacket_queues {s S : State} (h : S.queues = s.queues) (q : Nat) (seq : W32) : getPacket S q seq = getPacket s q seq := by
  unfold getPacket getQueue
  rw [h]
theorem Completes.of {S t : State} {q : Nat} {p p' : Packet} (h : Completes S t q p) (h1 : p'.seq = p.seq) (h2 : p'.bytes = p.bytes) : Completes S t q p' := by
  have hk : p'.kind = p.kind := by unfold Packet.kind; rw [h2]
  refine ⟨by rw [h1, hk]; exact h.queue, h.queues, h.machine, fun h0 => h.quiet ?_⟩
  unfold Packet.flag at h0 ⊢
  rw [← h2]; exact h0

theorem getPacket_modPacket {s : State} {q : Nat} {seq : W32} {p : Packet} {f : Packet → Packet} (hf : ∀ x, (f x).seq = x.seq) (h : getPacket s q seq = some p) :
    getPacket (modPacket s q seq f) q seq = some (f p) := by
  unfold getPacket at *
  unfold modPacket
  rw [getQueue_modQueue]
  dsimp only
  unfold updIf
  generalize (getQueue s q).packets = l at h ⊢
  induction l with
  | nil => cases h
  | cons x l ih =>
    rw [List.map_cons, List.find?_cons]
    rw [List.find?_cons] at h
    by_cases hx : (x.seq == seq) = true
    · rw [if_pos hx, show (f x).seq = x.seq from hf x, hx]
      rw [hx] at h
      cases h
      rfl
    · rw [if_neg hx]
      rw [Bool.not_eq_true] at hx
      rw [hx] at h ⊢
      exact ih h

theorem startPacket_begin (s : State) (q : Nat) (seq : W32) : startPacket s q seq = begin_ s q seq := rfl

theorem pollWaitv_polled {s : State} {q : Nat} {seq : W32} {p p' : Packet} (h : getPacket s q seq = some p') (hs : p.seq = seq) (hs' : p'.seq = seq) (hb : p.bytes = p'.bytes) :
    Polled s (pollWaitv s q seq p) q seq p := by
  intro S b bad J hr hJ
  unfold pollWaitv
  rw [hr]
  dsimp only
  have hS : getPacket J q seq = some p' := by
    have := getPacket_read (pktRead_only s q seq (p.addr 8) 8) q seq
    rw [hr] at this
    rw [hJ]
    unfold getPacket at this ⊢
    rw [getQueue_modQueue]
    exact this.trans h
  rw [← hJ]
  refine ⟨fun h0 hc => ?_, fun hc => ?_⟩
  · rw [if_pos (by rw [h0]; simpa using hc)]
    exact (completes_at (s := s) hs' hS).of (by rw [hs, hs']) hb
  · rw [if_neg (by rcases hc with hc | hc <;> simp [hc])]
    rw [hJ]; rfl

end Sys2Proof.Machine
end

