-- ==== Sys2Proof/Laws/Agents.lean ====
section
/-! SUPPORT. Laws/Agents: what filling a register, trapping a waiting thread and closing workgroups do. -/

namespace Sys2Proof.Machine

theorem modGang_get (s : State) (id : Nat) (f : Gang → Gang) (hf : ∀ g, (f g).id = g.id) : getGang (modGang s id f) id = (getGang s id).map f := by
  unfold getGang modGang
  dsimp only
  induction s.gangs with
  | nil => rfl
  | cons x l ih =>
    simp only [updIf, List.map_cons, List.find?_cons]
    by_cases h : x.id = id
    · simp [h, hf]
    · simp only [beq_iff_eq, h, if_false]
      have : (x.id == id) = false := by simpa using h
      simp only [this]
      simpa only [updIf, beq_iff_eq] using ih

theorem closeAll_gangs (l : List Workgroup) (s : State) : (l.foldl (fun s w => closeWg s w.id) s).gangs = s.gangs := by
  induction l generalizing s with
  | nil => rfl
  | cons x l ih => exact (ih (closeWg s x.id)).trans rfl

/-- TAKING AN EXCEPTION in a thread that waits or runs (R244). -/
theorem trapThread_inHandler {s : State} {x : Thread} {w : Workgroup} {c : Cause} {pc m : Word} {b : Bool} (h1 : getT s x.tid = some x) (h2 : x.run ≠ .killed)
    (h2' : x.run ≠ .ended) (h3 : getWg s x.wg = some w) (h4 : HandlerFree w x) :
    trapThread s x.tid c pc b m = { s with threads := (trapThread s x.tid c pc b m).threads, monitors := (unreserve s x.tid).monitors } ∧
      getT (trapThread s x.tid c pc b m) x.tid = some (inHandler s.now w.rcb.trapVec (trapSaved c pc b m x) x) ∧
      ∀ u, u ≠ x.tid → getT (trapThread s x.tid c pc b m) u = getT s u := by
  have e : trapThread s x.tid c pc b m = enterHandler (unreserve s x.tid) x.tid c pc b m w.rcb.trapVec := by
    have q1 : (w.rcb.trapVec == 0) = false := by rw [beq_eq_false_iff_ne]; exact h4.1
    have q2 := h4.2.2
    unfold trapThread
    rw [h1]
    dsimp only
    rw [if_neg (by simp [h2, h2']), h3]
    dsimp only
    rw [q1]
    simp [h4.2.1, Nat.not_le.mpr q2]
  have g : ∀ u, getT (unreserve s x.tid) u = getT s u := fun u => by rw [unreserve_frame]; rfl
  rw [e]
  refine ⟨?_, ?_, ?_⟩
  · have q := unreserve_frame s x.tid
    generalize unreserve s x.tid = U at q ⊢
    rw [q]; rfl
  · refine (getT_modT ?_).trans ?_
    · intro _ h; exact h
    rw [g, h1, Option.map_some]
    have hn : (unreserve s x.tid).now = s.now := by rw [unreserve_frame]
    unfold inHandler trapSaved
    simp [hn]
  · intro u hu
    refine (getT_modT_ne ?_ hu).trans (g u)
    exact fun _ h => h

/-- The trap of a waiting thread. -/
theorem trapWaiting_traps {s : State} {x : Thread} {w : Workgroup} {c : Cause} {f : WaitFor} (h : WaitsFree s x.tid x w f) :
    TrapsWaiting s (trapWaiting s x.tid c) w x x c := by
  obtain ⟨h1, h2, h3, h4⟩ := h
  have n1 : x.run ≠ .killed := by rw [h2]; exact fun h => Run.noConfusion h
  have n2 : x.run ≠ .ended := by rw [h2]; exact fun h => Run.noConfusion h
  unfold trapWaiting
  rw [h1]
  dsimp only
  have key : ∀ (S : State) (v : Workgroup), S.threads = s.threads → S = { s with claims := S.claims, wgs := S.wgs } → getWg S x.wg = some v → v.rcb = w.rcb →
      TrapsWaiting s (trapThread S x.tid c x.pc x.legacy (laneMask [x.tid])) w x x c := by
    intro S v k1 k2 k3 k4
    have hf : HandlerFree v x := by unfold HandlerFree; rw [k4]; exact h4
    have hx : getT S x.tid = some x := by unfold getT; rw [k1]; exact h1
    obtain ⟨e1, e2, e3⟩ := trapThread_inHandler (c := c) (pc := x.pc) (m := laneMask [x.tid]) (b := x.legacy) hx n1 n2 k3 hf
    have hn : S.now = s.now := by rw [k2]
    refine ⟨by rw [e2, k4, hn], fun u hu => ?_, ?_⟩
    · rw [e3 u hu]; unfold getT; rw [k1]
    · have aux : ∀ (A B : State) (cl wg th mo), A = { s with claims := cl, wgs := wg } → B = { A with threads := th, monitors := mo } → B = { s with threads := B.threads, monitors := B.monitors, claims := B.claims, wgs := B.wgs } := by
        intro A B cl wg th mo h1 h2; subst h1; subst h2; rfl
      exact aux _ _ _ _ _ _ k2 e1
  split
  · refine key _ { w with bar := w.bar.map fun b => { b with arrived := b.arrived.filter fun a => a.tid != x.tid } } rfl rfl ?_ rfl
    refine (getWg_modWg _ _ _ _ ?_).trans ?_
    · intro _; rfl
    · rw [h3, Option.map_some, if_pos rfl]
  · exact key _ w rfl rfl h3 rfl

theorem getT_leaveLists (s : State) (t u : Tid) : getT (leaveLists s t) u = getT s u := rfl

/-- A waiting thread leaves every list and traps. -/
theorem trapOut_traps {s : State} {x : Thread} {w : Workgroup} {c : Cause} {f : WaitFor} (h : WaitsFree s x.tid x w f) :
    TrapsWaiting s (trapOut s x.tid c) w x { x with notified := none } c := by
  unfold trapOut
  obtain ⟨S, hS⟩ : ∃ S, S = modT (leaveLists s x.tid) x.tid fun x => { x with notified := none } := ⟨_, rfl⟩
  rw [← hS]
  have g1 : getT S x.tid = some { x with notified := none } := by
    rw [hS]
    refine (getT_modT ?_).trans ?_
    · intro _ h; exact h
    rw [getT_leaveLists, h.1]; rfl
  have q : WaitsFree S ({ x with notified := none } : Thread).tid { x with notified := none } w f := by
    refine ⟨g1, h.2.1, ?_, h.2.2.2⟩
    rw [hS]; exact h.2.2.1
  have r := trapWaiting_traps (c := c) q
  refine ⟨?_, ?_, ?_⟩
  · refine r.thread.trans ?_
    rw [hS]; rfl
  · intro u hu
    refine (r.others u hu).trans ?_
    rw [hS]
    refine (getT_modT_ne ?_ hu).trans ?_
    · intro _ h; exact h
    rfl
  · refine r.machine.trans ?_
    rw [hS]; rfl

theorem touchFold_frame (id : Nat) (L : List Nat) (A : State) : ∃ g, L.foldl (fun s g => touchGranule s id g) A = { A with wgs := g } := by
  induction L generalizing A with
  | nil => exact ⟨A.wgs, rfl⟩
  | cons b L ih =>
    obtain ⟨g, h⟩ := ih (touchGranule A id b)
    refine ⟨g, ?_⟩
    rw [List.foldl_cons, h, touchGranule_frame]

theorem touchRegs_frame (s : State) (w : Workgroup) (t : Tid) (l : List (Bool × Nat)) : touchRegs s w t l = { s with wgs := (touchRegs s w t l).wgs } := by
  have e : ∃ g, touchRegs s w t l = { s with wgs := g } := by
    unfold touchRegs
    split
    · exact ⟨s.wgs, rfl⟩
    · dsimp only
      generalize ((getWarp s t.core t.slot).map (·.index)).getD 0 = wi
      induction l generalizing s with
      | nil => exact ⟨s.wgs, rfl⟩
      | cons r l ih =>
        rw [List.foldl_cons]
        obtain ⟨g, h⟩ := ih (if r.1 = true then s else (regGranules w.shadows wi r.2).foldl (fun s g => touchGranule s w.id g) s)
        refine ⟨g, h.trans ?_⟩
        split
        · rfl
        · obtain ⟨k, hk⟩ := touchFold_frame w.id (regGranules w.shadows wi r.2) s
          rw [hk]
  obtain ⟨g, h⟩ := e
  rw [h]

/-- What filling a destination does to a register. -/
theorem regOf_fillRegs (x : Thread) (d : Dest) (ws : List FillWord) (r : Bool × Nat) : regOf (fillRegs x d ws) r = filledReg d ws r.1 r.2 (regOf x r) := by
  unfold fillRegs filledReg
  cases d with
  | v k => exact (regOf_run false setV regOf_setV k (fun i => fillReg (ws.getD i ⟨0, false, []⟩)) ws.length x r).trans rfl
  | o k => exact (regOf_run true setO regOf_setO k (fun i => fillReg (ws.getD i ⟨0, false, []⟩)) ws.length x r).trans rfl
  | none => rfl

theorem fillRegs_rest (x : Thread) (d : Dest) (ws : List FillWord) : fillRegs x d ws = { x with v := (fillRegs x d ws).v, o := (fillRegs x d ws).o } := by
  unfold fillRegs
  have kv : ∀ (l : List Nat) (y : Thread) (m : Nat) (g : Nat → Reg), ∃ v, l.foldl (fun t i => setV t (m + i) (g i)) y = { y with v := v } := by
    intro l; induction l with
    | nil => intro y m g; exact ⟨y.v, rfl⟩
    | cons a l ih => intro y m g; obtain ⟨v, h⟩ := ih (setV y (m + a) (g a)) m g; exact ⟨v, h⟩
  have ko : ∀ (l : List Nat) (y : Thread) (m : Nat) (g : Nat → Reg), ∃ v, l.foldl (fun t i => setO t (m + i) (g i)) y = { y with o := v } := by
    intro l; induction l with
    | nil => intro y m g; exact ⟨y.o, rfl⟩
    | cons a l ih => intro y m g; obtain ⟨v, h⟩ := ih (setO y (m + a) (g a)) m g; exact ⟨v, h⟩
  cases d with
  | v k => obtain ⟨v, h⟩ := kv (List.range ws.length) x k (fun i => fillReg (ws.getD i ⟨0, false, []⟩)); dsimp only; rw [h]
  | o k => obtain ⟨v, h⟩ := ko (List.range ws.length) x k (fun i => fillReg (ws.getD i ⟨0, false, []⟩)); dsimp only; rw [h]
  | none => rfl

end Sys2Proof.Machine
end

