-- ==== Sys2Proof/Laws/Step.lean ====
section
/-! SUPPORT. Laws/Step: what a step does with an item of the agenda, in parts: a core's issue, the group that issues, the word that it runs. -/

namespace Sys2Proof.Machine

/-- A step at a core's issue is that issue (R103). -/
theorem step_issue (s : State) (core : Nat) (r : List Item) (hp : s.powered = true) (hw : s.warm.began = none) (ha : s.agenda = .issue core :: r) :
    step s = issueOn { s with agenda := r } core := by
  unfold step
  rw [ha, hp]
  simp only [Bool.true_or, if_true]
  unfold runItem
  dsimp only
  rw [hw]
  rfl

/-- The candidate that the arbiter chooses issues its word; then the cycle is over, unless its second word is still to come. -/
theorem issueOn_word (s : State) (core : Nat) (c : Cand) (more : Bool) (S : State) (g : Group) (hb : arbitrate (holdTable s core) core = some (c, more))
    (hg : groupOfCand (holdTable s core) core c = (S, some g)) : issueOn s core = thenState (issueWord S g) (afterWord core more g) := by
  unfold issueOn
  dsimp only
  rw [hb]
  dsimp only
  rw [hg]

/-- The instruction of a word is what the decoder reads from the words of the clause that are left. -/
theorem enterWord_decodes (S : State) (g : Group) : (enterWord S g).2 = (partsOf g.legacy g.cls (g.words.headD 0) g.words.tail).ins := rfl

/-- A word that decodes, with lanes that may issue it, runs its instruction. -/
theorem issueWord_runs (S : State) (g : Group) (E : State) (i : Instr) (h : enterWord S g = (E, .ok i)) (hn : E.cur.tids ≠ []) :
    issueWord S g = thenState (exec i E) fun s => leaveWord s g (isDpfx i) := by
  unfold issueWord
  rw [h]
  dsimp only
  rw [if_neg (by simpa using hn)]

/-- A word that no lane may issue is left as it was entered. -/
theorem issueWord_none (S : State) (g : Group) (E : State) (i : Instr) (h : enterWord S g = (E, .ok i)) (hn : E.cur.tids = []) : issueWord S g = .next E := by
  unfold issueWord
  rw [h]
  dsimp only
  rw [if_pos (by rw [hn]; rfl)]

theorem thenState_thenState (o : Host.Outcome State Fault Refusal) (f g : State → State) : thenState (thenState o f) g = thenState o fun x => g (f x) := by
  cases o <;> rfl

end Sys2Proof.Machine
end

