-- ==== Sys2Proof/Tests/Slice0.lean ====
section
/-! SUPPORT. Tests: decoding by words written out from the encoding tables, ill-formed terms, values that the spec gives, and for each statement with hypotheses a state and operands that meet them. -/

namespace Sys2Proof.Tests

set_option Elab.async false

open Sys2Proof Sys2Proof.Machine

/-! ## The laboratory: one workgroup of one thread on core 1, which stands at a word -/

def t0 : Tid := ⟨1, 0, 0⟩

/-- A page of the first 4 KiB of HBM at virtual address 0, for everyone. -/
def page0 : Leaf :=
  { level := 0, pa := 0, stripe := 0, colour := 0, key := 0, cp := 0, leg := false, tp := false, nr := false, rc := false, layout := 0, pl1 := false, x := true,
    w := true, r := true }

/-- Every v register from 0 to 63 is FULL and holds 1, but v32 to v35, which hold 0, v48, a descriptor of scale 127, v49, the cluster address of core 1, and v50, the length 256; o0 to o7 are FULL. -/
def th : Thread :=
  { newThread t0 1 64 0 ⟨0, [], 0, []⟩ 0 with
    v := (List.range 64).map fun i => (i, ⟨.full, if 32 ≤ i ∧ i < 36 then 0 else if i = 48 then 0x7F01 else if i = 49 then 0x40000000 else if i = 50 then 256 else 1, []⟩)
    o := (List.range 8).map fun i => (i, ⟨.full, 1, []⟩) }

def reg : Rcb := { Rcb.zero with trapVec := 0x800 }

def wg : Workgroup :=
  { id := 1, gang := 1, launch := 1, pasid := 1, region := 0x1000, index := 0, core := 1, role := .single, mate := 0, state := .resident, task := none,
    fromDeque := false, nwarps := 1, vregs := 64, shadows := 4, scratch := 4096, undoMax := 0, opUnits := 4, accs := 4, pooled := false, rcb := reg,
    segs := [], pad := [], padPoison := [], smap := [], chunks := [], bar := none, epoch := Epoch.empty,
    mx := ⟨none, 0, 0, [], [], [], ⟨none, 0, [], 0⟩⟩, gen := 0, placedAt := 0, frozenAt := 0, frozenFor := 0, rollbackDue := false }

def warp : Warp :=
  { core := 1, slot := 0, wg := 1, index := 0, g := [], gsh := [], origin := [], uchk := false, slip := 0, linkbase := 0xFFFFFFF8, ranged := false }

/-- A group of the one lane at the word at 8 of a clause of two words at 0. -/
def grp : Group := { Group.empty with core := 1, tids := [t0], words := [0, 0], pc := 8, next := 16 }

/-- The machine with workgroup `w` and thread `x` at issue. -/
def lab (w : Workgroup) (x : Thread) : State :=
  { State.reset with
    ids := 10, now := 100, ns := 100000000, cur := grp, threads := [x], warps := [warp], wgs := [w]
    contexts := [⟨1, some 0x100000, 0, 0, false, 0, []⟩], tlb := [⟨0, 1, 1, 0, page0, 0, true⟩]
    regions := [⟨1, 0x1000, reg, true, none, 0, false⟩] }

/-- What makes a thread and a workgroup the lane at issue. -/
def fits (w : Workgroup) (x : Thread) : Bool := x.tid == t0 && x.run == .ready && x.wg == 1 && w.id == 1

theorem lane_of {s : State} {w : Workgroup} {x : Thread} (hc : s.cur.tids = [t0]) (ht : s.threads = [x]) (hw : s.wgs = [w]) (h : fits w x = true)
    {tid : Tid} {y : Thread} {v : Workgroup} (hl : Lane s tid y v) : tid = t0 ∧ y = x ∧ v = w := by
  simp only [fits, Bool.and_eq_true, beq_iff_eq] at h
  obtain ⟨⟨⟨h1, h2⟩, h3⟩, h4⟩ := h
  have e : tid = t0 := by have := hl.member; rw [hc] at this; simpa using this
  have hy := hl.thread
  have hv := hl.group
  simp only [getT, ht, e, List.find?_cons, h1, beq_self_eq_true, Option.some.injEq] at hy
  subst hy
  simp only [getWg, hw, h3, List.find?_cons, h4, beq_self_eq_true, Option.some.injEq] at hv
  exact ⟨e, rfl, hv.symm⟩

theorem a_lane {s : State} {w : Workgroup} {x : Thread} (hc : s.cur.tids = [t0]) (ht : s.threads = [x]) (hw : s.wgs = [w]) (h : fits w x = true) : Lane s t0 x w := by
  simp only [fits, Bool.and_eq_true, beq_iff_eq] at h
  obtain ⟨⟨⟨h1, h2⟩, h3⟩, h4⟩ := h
  exact ⟨by simp [hc], by simp [getT, ht, h1], h2, by simp [getWg, hw, h3, h4]⟩

theorem an_issue {s : State} {w : Workgroup} {x : Thread} (hc : s.cur.tids = [t0]) (ht : s.threads = [x]) (hw : s.wgs = [w]) (h : fits w x = true) : Issuing s :=
  ⟨by simp [hc], fun tid hm => by rw [hc] at hm; have : tid = t0 := by simpa using hm
                                  subst this; exact ⟨x, w, a_lane hc ht hw h⟩⟩

theorem a_solo {s : State} {w : Workgroup} {x : Thread} (hc : s.cur.tids = [t0]) (ht : s.threads = [x]) (hw : s.wgs = [w]) (h : fits w x = true) {pg : Guard}
    (hp : passes x pg = true) : Solo s pg x w := by
  have l := a_lane hc ht hw h
  simp only [fits, Bool.and_eq_true, beq_iff_eq] at h
  exact ⟨by rw [hc, h.1.1.1], by rw [h.1.1.1]; exact l.thread, l.ready, l.group, hp⟩

/-- The operands of a word are sound in a lane. -/
def soundAt (s : State) (w : Workgroup) (x : Thread) (l : List SrcSpec) (d : Dst) (kd : Nat) : Bool :=
  !w.rcb.rollback && w.rcb.redund == 0 && w.role == .single && x.armed == none && decide (dualCause s w = [])
    && decide ((readSrcs s w x l []).causes = []) && !(readSrcs s w x l []).wait && decide (dstCheck w x d kd = ([], false))

theorem sound_of {s : State} {w : Workgroup} {x : Thread} {l : List SrcSpec} {d : Dst} {kd : Nat} (h : soundAt s w x l d kd = true) : Sound s w x l d kd := by
  simp only [soundAt, Bool.and_eq_true, Bool.not_eq_true', beq_iff_eq, decide_eq_true_eq] at h
  obtain ⟨⟨⟨⟨⟨⟨⟨h1, h2⟩, h3⟩, h4⟩, h5⟩, h6⟩, h7⟩, h8⟩ := h
  exact ⟨⟨h1, h2, h3⟩, h4, h5, h6, h7, h8⟩

def always : Guard := ⟨false, 7⟩
def v (n : BitVec 8) : Src := ⟨.v n, false, false⟩
def a1 : A1 := ⟨always, .v 8, v 0⟩
def a2 : A2 := ⟨always, .v 8, v 0, v 2⟩
def a3 : A3 := ⟨always, .v 8, v 0, v 2, v 4⟩
def p2 : P2 := ⟨always, 1, v 0, v 2⟩
def fm : FMod := ⟨false, false, false, false, false, .f32, .rn⟩

/-- The one lane of the laboratory. -/
def one : State := lab wg th

theorem one_lane {tid : Tid} {y : Thread} {u : Workgroup} (h : Lane one tid y u) : tid = t0 ∧ y = th ∧ u = wg := lane_of rfl rfl rfl (by decide +kernel) h
theorem one_issues : Issuing one := an_issue (w := wg) (x := th) rfl rfl rfl (by decide +kernel)
theorem one_solo : Solo one always th wg := a_solo rfl rfl rfl (by decide +kernel) rfl

/-! ## Witnesses: words that compute -/

def readyWord (a : WordSpec) : Bool :=
  soundAt one wg th a.srcs (dstOr a.d) a.kd && !((readSrcs one wg th a.srcs []).vals.any (·.poison)) && decide (a.pre one th = []) && decide ((a.lane one wg th).cause = none)

theorem ready_word {a : WordSpec} (h : readyWord a = true) : a.sound one := by
  intro tid x w hl _
  obtain ⟨rfl, rfl, rfl⟩ := one_lane hl
  simp only [readyWord, Bool.and_eq_true, Bool.not_eq_true', decide_eq_true_eq] at h
  exact ⟨sound_of h.1.1.1, h.1.1.2, h.1.2, h.2⟩

theorem some_of {α : Type} {o : Option α} {f : α → Bool} (h : o.any f = true) : ∃ a, o = some a ∧ f a = true := by
  cases o with
  | none => cases h
  | some a => exact ⟨a, rfl, h⟩

def intWords : List Instr :=
  [.iadd a2 true false true, .isub a2 false true false, .iaddc a2 1 false, .isubb a2 1 true, .ineg a1 false true, .iabs a1 true false, .imul a2 false,
   .imulhi a2 true true, .imad a3 false, .imin a2 false true, .imax a2 true false, .icmp p2 .lt false true, .and a2 false, .or a2 true, .xor a2 false,
   .not a1 false, .andn a2 true, .bool3 a3 0xE8 false, .shl a2 true, .shr a2 false, .shra a2 false, .rotl a2 true, .funnel a3 true false, .bfe a2 false true]
    ++ [.bfi a3 true, .popc a1 false, .clz a1 true, .ctz a1 false, .brev a1 true, .bpick a3, .lea a2 3 true, .sel a2 0 false true, .vadd2 a2 false true,
   .vsub2 a2 true false, .vmin2 a2 false, .vmax2 a2 true, .acsel2 a3 2, .dot4 a3 true false, .dot2 a3 false true, .cvti a1 .w32 .w8 true false true,
   .pbool3 always 1 2 3 4 0x80, .ptov a2 1 2 true, .vtop p2 3 false]

/-- IntegerWords. -/
theorem test_integer_words_complete : ∀ i ∈ intWords, ∃ a, intSpec i = some a ∧ Issuing one ∧ a.sound one := fun i hi => by
  have h : ∀ i ∈ intWords, (intSpec i).any readyWord = true := by decide +kernel
  obtain ⟨a, h1, h2⟩ := some_of (h i hi)
  exact ⟨a, h1, one_issues, ready_word h2⟩

def floatWords : List Instr :=
  [.fadd a2 fm, .fsub a2 { fm with rnd := .rs }, .fmul a2 fm, .ffma a3 { fm with bNeg := true }, .fmin a2 fm, .fmax a2 fm, .fminp a2 fm, .fmaxp a2 fm, .fcmp p2 .lt fm,
   .fclass a1 .f32, .fcopysgn a2 .f16, .frnd a1 fm, .hadd2 a2 { fm with fmt := .f16 }, .hmul2 a2 { fm with fmt := .bf16 }, .hfma2 a3 { fm with fmt := .f16 },
   .hmin2 a2 { fm with fmt := .f16 }, .hmax2 a2 { fm with fmt := .bf16 }, .hdot2 a3 { fm with fmt := .f16 }, .fcvt a1 .b64 .b32 .rn, .f2i a1 .b32 .rz true false,
   .i2f a1 .b16 .ru false true, .cvtq { a2 with b := v 48 } true, .cvtdq { a2 with b := v 48 } true, .amax a2 .bf16 false]

/-- FloatWords. -/
theorem test_float_words_complete : ∀ i ∈ floatWords, ∃ a, floatNow i = some a ∧ Issuing one ∧ a.sound one := fun i hi => by
  have h : ∀ i ∈ floatWords, (floatNow i).any readyWord = true := by decide +kernel
  obtain ⟨a, h1, h2⟩ := some_of (h i hi)
  exact ⟨a, h1, one_issues, ready_word h2⟩

def lateWords : List Instr :=
  [.idiv a2 false true, .irem a2 true false, .fdiv a2 fm, .fsqrt a1 fm, .frcp a1 fm, .frsq a1 fm, .fexp2 a1 fm, .flog2 a1 fm, .fsinpi a1 fm, .fcospi a1 fm,
   .ftanh a1 fm, .dadd a2 fm, .dmul a2 fm, .dfma a3 fm]

/-- LateWords. -/
theorem test_late_words_complete : ∀ i ∈ lateWords, ∃ a, lateSpec i = some a ∧ Issuing one ∧ a.sound one := fun i hi => by
  have h : ∀ i ∈ lateWords, (lateSpec i).any readyWord = true := by decide +kernel
  obtain ⟨a, h1, h2⟩ := some_of (h i hi)
  exact ⟨a, h1, one_issues, ready_word h2⟩

/-- Operands of words of two sources are ready: Division, Shifts, MinMax (the case of a zero divisor and of a shift by more than the width stand below). -/
theorem test_pairs_ready : Issuing one ∧ Ready one always (pairSrcs a2 true) a2.d (wWords true) ∧ Ready one always (shiftSrcs a2 false) a2.d (wWords false) ∧
    Ready one always ([a2.a, a2.b].map (fSrc (.scalar (ffmt fm.fmt)))) a2.d 1 := by
  refine ⟨one_issues, ?_, ?_, ?_⟩ <;> intro tid x w hl _ <;> obtain ⟨rfl, rfl, rfl⟩ := one_lane hl <;> exact ⟨sound_of (by decide +kernel), by unfold Clean; decide +kernel⟩

def readyCross (a : CrossSpec) : Bool :=
  decide (activeLanes one a.pg ≠ []) && soundAt one wg th a.srcs (dstOr a.d) a.kd && !((readSrcs one wg th a.srcs []).vals.any (·.poison))

theorem ready_cross {a : CrossSpec} (h : readyCross a = true) : a.sound one := by
  simp only [readyCross, Bool.and_eq_true, Bool.not_eq_true', decide_eq_true_eq] at h
  refine ⟨h.1.1, fun tid x w hl _ => ?_⟩
  obtain ⟨rfl, rfl, rfl⟩ := one_lane hl
  refine ⟨sound_of h.1.2, ?_, fun _ => h.2⟩
  have h2 := h.2
  rw [List.any_eq_false] at h2 ⊢
  exact fun y hy => h2 y (List.mem_of_mem_drop hy)

def crossWords : List Instr :=
  [.lanex a1 .rel (.reg (v 2)) false, .lanex a1 .xor (.width 1 false) true, .bcastl a1 none false, .bcastl a1 (some (v 2)) true, .pcensus always (.all 1) 2 false,
   .pcensus always (.any 1) 2 true, .pcensus always (.same 1) 2 false, .pcensus always (.mask (.v 8)) 2 false, .pcensus always (.count (.v 8)) 2 false, .actmask always (.v 8),
   .matchL a1 false true, .redls a1 .fadd .rn false false, .redls a1 .or .rn false true, .scan a1 .add .rn true true false, .redidx a2 true false true, .amax a2 .f32 true]

/-- CrossLaneWords. -/
theorem test_cross_lane_words_complete : ∀ i ∈ crossWords, ∃ a, crossSpec i = some a ∧ Issuing one ∧ a.sound one := fun i hi => by
  have h : ∀ i ∈ crossWords, (crossSpec i).any readyCross = true := by decide +kernel
  obtain ⟨a, h1, h2⟩ := some_of (h i hi)
  exact ⟨a, h1, one_issues, ready_cross h2⟩

/-! ## Witnesses: words that move values or control -/

/-- A thread two frames deep, with both return addresses on the chip. -/
def deep : Thread := { th with depth := 2, links := [(2, 0x48), (1, 0x28)] }
def twoDeep : State := lab wg deep

theorem deep_lane {tid : Tid} {y : Thread} {u : Workgroup} (h : Lane twoDeep tid y u) : tid = t0 ∧ y = deep ∧ u = wg := lane_of rfl rfl rfl (by decide +kernel) h
theorem deep_issues : Issuing twoDeep := an_issue (w := wg) (x := deep) rfl rfl rfl (by decide +kernel)

theorem control_of {a : ControlSpec} (h : soundAt twoDeep wg deep a.srcs .zero 0 = true) (h2 : (readSrcs twoDeep wg deep a.srcs []).vals.any (·.poison) = false)
    (h3 : a.ok twoDeep deep (readSrcs twoDeep wg deep a.srcs []).vals) : a.sound twoDeep := fun tid x w hl _ => by
  obtain ⟨rfl, rfl, rfl⟩ := deep_lane hl
  have h := sound_of h
  exact ⟨h.plain, h.dual, h.causes, h.full, h2, h3⟩

/-- ControlWords: each word of the family, the jump tables at an address that is a multiple of 8. -/
theorem test_control_words_complete : Issuing twoDeep ∧ ∀ i ∈ [Instr.nop always, .bra always .nz64 (v 0) 0xFFFFFFF8, .bra always .always (v 0) 8, .brx always true (v 32) 16,
    .brx always false (v 32) 0, .call always 0x18, .callx always false (v 32) 0, .callx always true (v 33) 64, .ret always, .retn always 2, .sleep always (v 0)],
    ∃ a, controlSpec i = some a ∧ a.sound twoDeep := by
  refine ⟨deep_issues, fun i hi => ?_⟩
  simp only [List.mem_cons, List.not_mem_nil, or_false] at hi
  rcases hi with rfl | rfl | rfl | rfl | rfl | rfl | rfl | rfl | rfl | rfl | rfl <;>
    refine ⟨_, rfl, control_of (by decide +kernel) (by decide +kernel) ?_⟩
  · trivial
  · trivial
  · trivial
  · show (xTarget _ _ _ _).toNat % 8 = 0; decide +kernel
  · show (xTarget _ _ _ _).toNat % 8 = 0; decide +kernel
  · show callOk deep; unfold callOk; decide +kernel
  · show callOk deep ∧ _; exact ⟨by unfold callOk; decide +kernel, by decide +kernel⟩
  · show callOk deep ∧ _; exact ⟨by unfold callOk; decide +kernel, by decide +kernel⟩
  · show retOk 1 deep; exact ⟨by decide, by decide, by decide +kernel, by decide +kernel⟩
  · show retOk 2 deep; exact ⟨by decide, by decide, by decide +kernel, by decide +kernel⟩
  · trivial

/-- MoveWords: MOV and both forms of TMOV; the bound of the shadows is met with the last component. -/
theorem test_moves_complete : Issuing one ∧ ((∀ n, a1.d ≠ .g n) ∨ ∀ tid x w, Lane one tid x w → passes x a1.pg = true → Clean one w x [intSrc true a1.a]) ∧
    (∀ tid x w, Lane one tid x w → passes x a1.pg = true → Sound one w x [intSrc true a1.a] a1.d (wWords true)) ∧
    (∀ tid x w, Lane one tid x w → passes x a1.pg = true → TmovSound one a1 4 0 true w x) ∧
    (∀ tid x w, Lane one tid x w → passes x a1.pg = true → TmovSound one a1 0 4 false w x) := by
  refine ⟨one_issues, .inl fun n => by decide +revert, ?_, ?_, ?_⟩ <;> intro tid x w hl _ <;> obtain ⟨rfl, rfl, rfl⟩ := one_lane hl
  · exact sound_of (by decide +kernel)
  · have h := sound_of (s := one) (w := wg) (x := th) (l := [intSrc true a1.a]) (d := a1.d) (kd := wWords true) (by decide +kernel)
    exact ⟨h.plain, h.armed, h.dual, h.causes, h.full, h.dst, by decide +kernel, by decide +kernel⟩
  · have h := sound_of (s := one) (w := wg) (x := th) (l := [intSrc false a1.a]) (d := a1.d) (kd := wWords false) (by decide +kernel)
    exact ⟨h.plain, h.armed, h.dual, h.causes, h.full, h.dst, by decide +kernel, by decide +kernel⟩

/-- PairWords: a half that reads what the other writes. -/
theorem test_pairs_complete : Issuing one ∧ ∀ tid x w, Lane one tid x w → PairSound one ⟨.iadd, 2, 0, 1⟩ ⟨.fmul, 3, 2, 2⟩ w x := by
  refine ⟨one_issues, fun tid x w hl => ?_⟩
  obtain ⟨rfl, rfl, rfl⟩ := one_lane hl
  have h := sound_of (s := one) (w := wg) (x := th) (l := halfSrcs ⟨.iadd, 2, 0, 1⟩ ++ halfSrcs ⟨.fmul, 3, 2, 2⟩) (d := .v 2) (kd := 1) (by decide +kernel)
  exact ⟨h.plain, h.armed, h.dual, h.causes, h.full, h.dst, by decide +kernel, .inr (by decide +kernel), .inr (by decide +kernel)⟩

/-! ## Witnesses: memory -/

theorem no_mem {α : Type} {l : List α} {P : α → Prop} (h : l = []) : ∀ y ∈ l, P y := by subst h; nofun

def hitAt (s : State) (core pasid pl : Nat) (va : Word) (r w : Bool) (lf : Leaf) : Bool :=
  decide (va.toNat < 2 ^ 57) && (tlbFind s core pasid va.toNat).any (fun e => e.leaf == lf && (!w || e.written)) && leafAllows lf ⟨r, w, false, pl⟩
    && paAllows s (leafPa lf va.toNat) pl

theorem hit_of {s : State} {core pasid pl : Nat} {va : Word} {r w : Bool} {lf : Leaf} (h : hitAt s core pasid pl va r w lf = true) : PageHit s core pasid pl va r w lf := by
  simp only [hitAt, Bool.and_eq_true, decide_eq_true_eq] at h
  obtain ⟨⟨⟨h1, h2⟩, h3⟩, h4⟩ := h
  obtain ⟨e, e1, e2⟩ := some_of h2
  simp only [Bool.and_eq_true, beq_iff_eq, Bool.or_eq_true, Bool.not_eq_true'] at e2
  exact ⟨h1, ⟨e, e1, e2.1, fun hw => by rcases e2.2 with h | h <;> simp_all⟩, h3, h4⟩

theorem plain_of {s : State} {x : Thread} {w : Workgroup} {va : Word} {n : Nat} {r wr : Bool} {lf : Leaf} {a : Nat}
    (h1 : (hitAt s x.tid.core w.pasid x.pl va r wr lf && !logged s x.tid va) = true)
    (h2 : lf.stripe = 0 ∧ lf.colour = 0 ∧ lf.tp = false ∧ lf.rc = false ∧ lf.nr = false ∧ lf.layout = 0 ∧ lf.key = 0)
    (h3 : homeOf s.module_ s.domain (leafPa lf va.toNat) = .hbm a) (h4 : a % 64 + n ≤ 64) (h5 : getBlock s (a / 64) = Block.plain) (h6 : s.stores = [] ∧ s.compare = []) :
    PlainBytes s x w va n r wr lf a := by
  rw [Bool.and_eq_true, Bool.not_eq_true'] at h1
  exact ⟨hit_of h1.1, ⟨h2.1, h2.2.1, h2.2.2.1, h2.2.2.2.1, h2.2.2.2.2.1, h2.2.2.2.2.2.1, h2.2.2.2.2.2.2⟩, h3, h4, h5, no_mem h6.1, h1.2, no_mem h6.2⟩

/-- Width, offset: an aligned load at the offset of the base register, which holds 0. -/
def ld0 (w : MWidth) (off : BitVec 20) : MLoad := ⟨always, .v 8, v 32, .thr, .plain, .ca, w, true, off⟩
def st0 (w : MWidth) (ord : Sys2Proof.Ord) (scope : Scope) (off : BitVec 20) : MStore := ⟨always, v 4, v 32, scope, ord, .ca, w, off⟩

/-- Loads: 128 bits at the end of a block, and one byte at an odd address. -/
theorem test_loads_complete : ∀ m ∈ [ld0 .w128 0x30, ld0 .w8 0x3F], Solo one m.pg th wg ∧ Sound one wg th (loadSrcs m) m.d m.w.k ∧ Clean one wg th (loadSrcs m) ∧
    (loadEa m one wg th).toNat % MWidth.bytes m.w = 0 ∧ (∃ a, PlainBytes one th wg (loadEa m one wg th) (MWidth.bytes m.w) true false page0 a ∧
      (∀ y ∈ one.l1, y.core = th.tid.core → y.block ≠ a / 64) ∧ ∀ e ∈ one.syncs, e.addr ≠ a) := by
  intro m hm
  simp only [List.mem_cons, List.not_mem_nil, or_false] at hm
  rcases hm with rfl | rfl
  · exact ⟨one_solo, sound_of (by decide +kernel), by unfold Clean; decide +kernel, by decide +kernel, 0x30, plain_of (by decide +kernel) (by decide) (by decide +kernel) (by decide) (by decide +kernel) (by decide), nofun, nofun⟩
  · exact ⟨one_solo, sound_of (by decide +kernel), by unfold Clean; decide +kernel, by decide +kernel, 0x3F, plain_of (by decide +kernel) (by decide) (by decide +kernel) (by decide) (by decide +kernel) (by decide), nofun, nofun⟩

/-- Stores: a plain one of 128 bits, and a release of the system scope. -/
theorem test_stores_complete : ∀ m ∈ [st0 .w128 .plain .thr 0x30, st0 .w64 .rel .sys 0x38], MemForm one ∧ Solo one m.pg th wg ∧ Sound one wg th (gstoreSrcs m) .zero 0 ∧
    (opv (readSrcs one wg th (gstoreSrcs m) []).vals 0).poison = false ∧ (storeData m one wg th).poison = false ∧ (storeEa m one wg th).toNat % MWidth.bytes m.w = 0 ∧
    releasePending one th.tid m.scope = false ∧ ∃ a, PlainBytes one th wg (storeEa m one wg th) (MWidth.bytes m.w) false true page0 a := by
  intro m hm
  simp only [List.mem_cons, List.not_mem_nil, or_false] at hm
  rcases hm with rfl | rfl
  · exact ⟨by unfold MemForm; decide +kernel, one_solo, sound_of (by decide +kernel), by decide +kernel, by decide +kernel, by decide +kernel, by decide +kernel, 0x30, plain_of (by decide +kernel) (by decide) (by decide +kernel) (by decide) (by decide +kernel) (by decide)⟩
  · exact ⟨by unfold MemForm; decide +kernel, one_solo, sound_of (by decide +kernel), by decide +kernel, by decide +kernel, by decide +kernel, by decide +kernel, 0x38, plain_of (by decide +kernel) (by decide) (by decide +kernel) (by decide) (by decide +kernel) (by decide)⟩

theorem pad_of {s : State} {g : Workgroup} {a n : Nat} (h1 : getWg s g.id = some g) (h2 : g.rcb.rollback = false ∧ g.rcb.redund = 0 ∧ g.role = .single)
    (h3 : a % n = 0 ∧ a + n ≤ g.scratch ∧ a + n ≤ 0x400000) (h4 : bindingAt g a = none ∧ g.chunks = [] ∧ Memory.wf g.pad = true) : PadBytes s g a n :=
  ⟨h1, ⟨h2.1, h2.2.1, h2.2.2⟩, h3.1, h3.2.1, h3.2.2, h4.1, by rw [h4.2.1]; nofun, h4.2.2⟩

/-- A gang of the one workgroup, so that a cluster address of member 0 names it. -/
def ganged : State := { one with gangs := [{ id := 1, launch := 1, index := 0, die := 0, cluster := 0, state := .placed, wgs := [1], killed := false, placedAt := 0, orFault := false, orSent := none, vc := [] }] }

def pad0 (cl : Bool) : MLoad := { ld0 .w32 0xFFC with base := if cl then v 49 else v 32 }
def padSt (cl : Bool) : MStore := { st0 .w32 .rel .wg 0xFFC with base := if cl then v 49 else v 32 }

/-- ScratchLoads and ScratchStores: the last bytes of the scratchpad, from the thread's own workgroup and by the cluster's way. -/
theorem test_scratch_completes : ∀ cl, Solo ganged always th wg ∧ Sound ganged wg th (padLoadSrcs (pad0 cl)) (.v 8) 1 ∧ Clean ganged wg th (padLoadSrcs (pad0 cl)) ∧
    padOf cl ganged wg th (padLoadEa (pad0 cl) ganged wg th) 4 = some (wg, 0xFFC) ∧ PadBytes ganged wg 0xFFC 4 ∧ wg.padPoison = [] ∧ (∀ e ∈ ganged.syncs, e.addr ≠ padLoc wg 0xFFC) ∧
    Sound ganged wg th (storeSrcs (padSt cl)) .zero 0 ∧ (opv (readSrcs ganged wg th (storeSrcs (padSt cl)) []).vals 0).poison = false ∧
    padOf cl ganged wg th (padStoreEa (padSt cl) ganged wg th) 4 = some (wg, 0xFFC) ∧ releasePending ganged th.tid (clScope .wg) = false := by
  intro cl
  cases cl <;>
    exact ⟨a_solo rfl rfl rfl (by decide +kernel) rfl, sound_of (by decide +kernel), by unfold Clean; decide +kernel, by decide +kernel,
      pad_of (by decide +kernel) (by decide) (by decide) (by decide +kernel), rfl, nofun, sound_of (by decide +kernel), by decide +kernel, by decide +kernel, by decide +kernel⟩

/-- CacheWords and Fence: CINVAL of a line and of the whole cache, PREF, and a fence of the widest scope. -/
theorem test_caches_and_fence_complete : Solo one always th wg ∧ Sound one wg th (cinvalSrcs (some (v 32))) .zero 0 ∧ Clean one wg th (cinvalSrcs (some (v 32))) ∧ Sound one wg th [] .zero 0 ∧
    (∃ e a, tlbFind one th.tid.core wg.pasid (baseEa (v 32) 0x80 one wg th).toNat = some e ∧ hbmOf one (leafPa e.leaf (baseEa (v 32) 0x80 one wg th).toNat) = some a) ∧
    PageHit one th.tid.core wg.pasid th.pl (baseEa (v 32) 0x80 one wg th) true false page0 ∧ PlainLeaf page0 ∧ homeOf 0 [] (leafPa page0 (baseEa (v 32) 0x80 one wg th).toNat) = .hbm 0x80 ∧
    releasePending one th.tid .sys = false :=
  ⟨one_solo, sound_of (by decide +kernel), by unfold Clean; decide +kernel, sound_of (by decide +kernel), ⟨⟨0, 1, 1, 0, page0, 0, true⟩, 0x80, by decide +kernel, by decide +kernel⟩, hit_of (by decide +kernel),
    ⟨rfl, rfl, rfl, rfl, rfl, rfl, rfl⟩, by decide +kernel, by decide +kernel⟩

/-- A page of layout 12, whose block 3 is described. -/
def page12 : Leaf := { page0 with layout := 12 }
def described : State := { one with tlb := [⟨0, 1, 1, 0, page12, 0, true⟩], blocks := [(3, ⟨12, 0x7F04, 0, false, 0, 0, false⟩)] }

/-- BlockDescriptors. -/
theorem test_descriptors_complete : Solo described always th wg ∧ Sound described wg th (loadSrcs (ld0 .w32 0xC0)) (.v 8) 1 ∧ Clean described wg th (loadSrcs (ld0 .w32 0xC0)) ∧
    (loadEa (ld0 .w32 0xC0) described wg th).toNat % 64 = 0 ∧ MemForm described ∧ Sound described wg th (descSrcs (st0 .w32 .plain .thr 0xC0)) .zero 0 ∧
    Clean described wg th (descSrcs (st0 .w32 .plain .thr 0xC0)) ∧ (storeEa { st0 .w32 .plain .thr 0xC0 with w := .w32 } described wg th).toNat % 64 = 0 ∧
    ∀ r wr va, va = 0xC0 → DescBytes described th wg va r wr page12 0xC0 0x7F04 := by
  refine ⟨a_solo rfl rfl rfl (by decide +kernel) rfl, sound_of (by decide +kernel), by unfold Clean; decide +kernel, by decide +kernel, by unfold MemForm; decide +kernel,
    sound_of (by decide +kernel), by unfold Clean; decide +kernel, by decide +kernel, ?_⟩
  intro r wr va hva
  subst hva
  exact ⟨hit_of (by cases r <;> cases wr <;> decide +kernel), rfl, rfl, rfl, rfl, rfl, by decide +kernel, by decide +kernel, by decide +kernel, nofun, by decide +kernel⟩

/-! ## Witnesses: engines, streams and the matrix engine -/

theorem oneword {a : OneWord} {s : State} {w : Workgroup} {x : Thread}
    (h : (soundAt s w x a.srcs a.d a.kd && !(readSrcs s w x a.srcs []).vals.any (·.poison) && decide (a.need ≤ x.pl)) = true)
    (own : a.ok s w x (readSrcs s w x a.srcs []).vals) : a.Sound s w x := by
  simp only [Bool.and_eq_true, Bool.not_eq_true', decide_eq_true_eq] at h
  exact ⟨sound_of h.1.1, h.1.2, h.2, own⟩

theorem left_of {α β γ : Type} {r : α × (β ⊕ γ)} {P : α → Prop} (h : r.2.isLeft = true) (p : P r.1) : ∃ a b, r = (a, .inl b) ∧ P a := by
  obtain ⟨a, b | c⟩ := r
  · exact ⟨a, b, rfl, p⟩
  · cases h

theorem quiet_of {s t : State} (h : t.threads = s.threads ∧ t.cur = s.cur ∧ t.now = s.now) : Quiet s t := ⟨h.1, h.2.1, h.2.2⟩

/-- ScratchMaps: a binding of 256 bytes at the end of the scratchpad, the removal of a clean one, and write back of one and of all. -/
def bound : Workgroup := { wg with smap := [⟨0, 0x400, 256⟩], chunks := [⟨0, true, [], false⟩] }
def binding : State := lab bound th
theorem bound_solo : Solo binding always th bound := a_solo rfl rfl rfl (by decide +kernel) rfl

theorem test_scratch_maps_complete : ((∃ a, scratchMapWord (.smap always (v 50) (v 32) (v 50)) = some a ∧ Solo one a.pg th wg ∧ a.Sound one wg th)) ∧
    ∀ i ∈ [Instr.sunmap always (v 32), .swb always none, .swb always (some (v 32))], ∃ a, scratchMapWord i = some a ∧ Solo binding a.pg th bound ∧ a.Sound binding bound th := by
  refine ⟨⟨_, rfl, one_solo, oneword (by decide +kernel) (by show smapCause _ _ _ _ = none; decide +kernel)⟩, fun i hi => ?_⟩
  simp only [List.mem_cons, List.not_mem_nil, or_false] at hi
  rcases hi with rfl | rfl | rfl <;>
    exact ⟨_, rfl, bound_solo, oneword (by decide +kernel) ⟨by decide +kernel, quiet_of (by decide +kernel)⟩⟩

/-- CopyWords: 256 bytes from global memory to the scratchpad; a gather and a scatter of one row. -/
def copyOp (dir : CopyDir) (dst src : Src) : CopyOp := ⟨always, .v 8, dst, src, v 50, false, false, false, .thr, dir⟩

def sides (c : CopyOp) (kl : Nat) (rows : Opv → Rows × Bool) : State × ((Side × Side) ⊕ LaneRes) :=
  let v := (readSrcs one wg th (copySrcs c kl) []).vals
  resolveBoth one wg th c (opv v 0) (opv v 1) (rows (opv v 2)).1 []

theorem copy_sound {c : CopyOp} {kl : Nat} {rows : Opv → Rows × Bool} (h1 : (soundAt one wg th (copySrcs c kl) c.d 2 && !(readSrcs one wg th (copySrcs c kl) []).vals.any (·.poison)) = true)
    (h2 : (rows (opv (readSrcs one wg th (copySrcs c kl) []).vals 2)).2 = false) (h3 : (sides c kl rows).2.isLeft = true)
    (h4 : ((sides c kl rows).1.threads = one.threads ∧ (sides c kl rows).1.cur = one.cur ∧ (sides c kl rows).1.now = one.now) ∧
      opsFull (sides c kl rows).1 th.tid.core = false ∧ releasePending (sides c kl rows).1 th.tid c.scope = false) : (copySpec c kl rows).Sound one wg th := by
  refine oneword (a := copySpec c kl rows) (by show (_ && decide (0 ≤ th.pl)) = true; rw [Bool.and_eq_true]; exact ⟨h1, by decide⟩) ⟨h2, ?_⟩
  obtain ⟨S, sd, e, h⟩ := left_of (P := fun S => (S.threads = one.threads ∧ S.cur = one.cur ∧ S.now = one.now) ∧ opsFull S th.tid.core = false ∧ releasePending S th.tid c.scope = false) h3 h4
  exact ⟨S, sd, e, quiet_of h.1, h.2.1, h.2.2⟩

theorem test_copies_complete : (copySpec (copyOp .g2s (v 32) (v 32)) 1 copyRows).Sound one wg th ∧
    (copySpec { copyOp .g2s (v 32) (v 32) with len := v 16 } 4 (rowDesc true)).Sound one wg th ∧ (copySpec { copyOp .s2g (v 32) (v 32) with len := v 16 } 4 (rowDesc false)).Sound one wg th := by
  refine ⟨copy_sound ?_ ?_ ?_ ?_, copy_sound ?_ ?_ ?_ ?_, copy_sound ?_ ?_ ?_ ?_⟩ <;> decide +kernel

/-- A stream descriptor of one element stands at address 0; a tile configuration of 32 by 32 by 32 in bfloat16 at 64. -/
def written : List Host.Cell := [(16, 1), (64, 1), (65, 1), (66, 32), (68, 1), (69, 1), (72, 1), (73, 0x7F)]

/-- The workgroup with the matrix engine configured, two slots and two tiles claimed, and the reed with its warp. -/
def tile32 : Tcsb := ⟨32, 32, 32, 1, 1, false, false, false, 0x7F01, 4096⟩
def reeds : Workgroup := { wg with mx := ⟨some tile32, 2, 2, [], [], [], ⟨some 0, 0, [], 0⟩⟩ }
def engines : State := { lab reeds th with mem := written }
theorem read_of {r : State × (List Byte ⊕ LaneRes)} {P : State → List Byte → Prop} (h : r.2.isLeft = true) (p : P r.1 (r.2.getLeft?.getD [])) : ∃ S b, r = (S, .inl b) ∧ P S b := by
  obtain ⟨S, b | c⟩ := r
  · exact ⟨S, b, rfl, p⟩
  · cases h

theorem engines_solo : Solo engines always th reeds := a_solo rfl rfl rfl (by decide +kernel) rfl

/-- EngineWords: one witness for each word; the copies stand above. -/
theorem test_engine_words_complete : ∀ i ∈ [Instr.xred { a3 with a := v 32, b := v 32, c := v 50 } true .f32 .add .dev, .remq { a2 with b := v 32 } true, .rqpop { a1 with a := v 32 } true,
    .rqpop { a1 with a := v 32 } false, .strm always (v 32) .ca 0 false .w32 3, .strmx always 3, .tchk always 1 (v 0)],
    ∃ a, engineWord i = some a ∧ Solo engines a.pg th reeds ∧ a.Sound engines reeds th := by
  intro i hi
  simp only [List.mem_cons, List.not_mem_nil, or_false] at hi
  rcases hi with rfl | rfl | rfl | rfl | rfl | rfl | rfl
  · exact ⟨_, rfl, engines_solo, oneword (by decide +kernel) ⟨_, _, by rfl, by decide +kernel, quiet_of (by decide +kernel), by decide +kernel, by decide +kernel⟩⟩
  · exact ⟨_, rfl, engines_solo, oneword (by decide +kernel) ⟨by decide +kernel, by decide +kernel, by decide +kernel, by decide +kernel⟩⟩
  · exact ⟨_, rfl, engines_solo, oneword (by decide +kernel) ⟨by decide +kernel, by decide +kernel⟩⟩
  · exact ⟨_, rfl, engines_solo, oneword (by decide +kernel) ⟨by decide +kernel, by decide +kernel⟩⟩
  · exact ⟨_, rfl, engines_solo, oneword (by decide +kernel) ⟨by decide +kernel, read_of (by decide +kernel) ⟨quiet_of (by decide +kernel), by decide +kernel, by decide +kernel⟩⟩⟩
  · exact ⟨_, rfl, engines_solo, oneword (by decide +kernel) trivial⟩
  · exact ⟨_, rfl, engines_solo, oneword (by decide +kernel) trivial⟩

def acc0 : AccOp := ⟨always, .v 8, v 32, v 0, none, true, true, .thr⟩

/-- MatrixWords: one witness for each word; slot and tile 1 are the last that are held. -/
theorem test_matrix_words_complete : ∀ i ∈ [Instr.mma a3, .mmaz a3, .mxt always (.v 8) (v 0) (v 0), .mperm { a3 with b := v 32 }, .mrred always (.v 8) (v 0) (v 0), .accz a1,
    .mtake always, .mpass always, .mdrop always, .mstat always (.v 8), .oclaim p2 true, .oclaim { p2 with a := v 32, b := v 32 } false, .orel always (v 0) (v 0)],
    ∃ a, matrixWord i = some a ∧ Solo engines a.pg th reeds ∧ a.Sound engines reeds th := by
  intro i hi
  simp only [List.mem_cons, List.not_mem_nil, or_false] at hi
  rcases hi with rfl | rfl | rfl | rfl | rfl | rfl | rfl | rfl | rfl | rfl | rfl | rfl | rfl
  · exact ⟨_, rfl, engines_solo, oneword (by decide +kernel) ⟨by decide +kernel, by decide +kernel, by decide +kernel⟩⟩
  · exact ⟨_, rfl, engines_solo, oneword (by decide +kernel) ⟨by decide +kernel, by decide +kernel, by decide +kernel⟩⟩
  · exact ⟨_, rfl, engines_solo, oneword (by decide +kernel) ⟨by decide +kernel, by decide +kernel, by decide +kernel⟩⟩
  · exact ⟨_, rfl, engines_solo, oneword (by decide +kernel) ⟨by decide +kernel, by decide +kernel, by decide +kernel⟩⟩
  · exact ⟨_, rfl, engines_solo, oneword (by decide +kernel) ⟨by decide +kernel, by decide +kernel, by decide +kernel⟩⟩
  · exact ⟨_, rfl, engines_solo, oneword (by decide +kernel) ⟨by decide +kernel, by decide +kernel, by decide +kernel⟩⟩
  · exact ⟨_, rfl, engines_solo, oneword (by decide +kernel) (.inl (by decide +kernel))⟩
  · exact ⟨_, rfl, engines_solo, oneword (by decide +kernel) (by show hasReed _ _ _ = true; decide +kernel)⟩
  · exact ⟨_, rfl, engines_solo, oneword (by decide +kernel) (by show hasReed _ _ _ = true; decide +kernel)⟩
  · exact ⟨_, rfl, engines_solo, oneword (by decide +kernel) trivial⟩
  · exact ⟨_, rfl, engines_solo, oneword (by decide +kernel) ⟨rfl, fun _ => by decide +kernel, .inl rfl⟩⟩
  · exact ⟨_, rfl, engines_solo, oneword (by decide +kernel) ⟨rfl, fun _ => by decide +kernel, .inr (by decide +kernel)⟩⟩
  · exact ⟨_, rfl, engines_solo, oneword (by decide +kernel) ⟨rfl, by decide +kernel, by decide +kernel, by decide +kernel⟩⟩

/-- A thread whose v34 and v35 hold the address of the tile configuration. -/
def configurer : Thread := { th with v := th.v.map fun r => if r.1 = 34 then (34, ⟨.full, 64, []⟩) else r }
def configures : State := { engines with threads := [configurer] }

/-- MatrixWords: ACCLD and ACCST with either side, and TCFG. -/
theorem test_matrix_memory_words_complete : ∀ i ∈ [Instr.accld acc0, .accst acc0, .accld { acc0 with s := false }, .tcfg always (v 34)],
    ∃ a, matrixWord i = some a ∧ Solo configures a.pg configurer reeds ∧ a.Sound configures reeds configurer := by
  intro i hi
  simp only [List.mem_cons, List.not_mem_nil, or_false] at hi
  rcases hi with rfl | rfl | rfl | rfl
  · exact ⟨_, rfl, a_solo rfl rfl rfl (by decide +kernel) rfl, oneword (by decide +kernel) ⟨by decide +kernel, by decide +kernel, _, by rfl, quiet_of (by decide +kernel), rfl, by decide +kernel, by decide +kernel⟩⟩
  · exact ⟨_, rfl, a_solo rfl rfl rfl (by decide +kernel) rfl, oneword (by decide +kernel) ⟨by decide +kernel, by decide +kernel, _, by rfl, quiet_of (by decide +kernel), rfl, by decide +kernel, by decide +kernel⟩⟩
  · exact ⟨_, rfl, a_solo rfl rfl rfl (by decide +kernel) rfl, oneword (by decide +kernel) ⟨by decide +kernel, by decide +kernel, _, by rfl, quiet_of (by decide +kernel), rfl, by decide +kernel, by decide +kernel⟩⟩
  · refine ⟨_, rfl, a_solo rfl rfl rfl (by decide +kernel) rfl, oneword (by decide +kernel) ⟨by decide +kernel, ?_⟩⟩
    obtain ⟨S, b, e, q, c, f⟩ := read_of (r := plainRead configures reeds configurer 64 32 32)
      (P := fun S b => (S.threads = configures.threads ∧ S.cur = configures.cur ∧ S.now = configures.now) ∧ parseTcsb b = some tile32 ∧ slotBusy S reeds.id = false)
      (by decide +kernel) (by decide +kernel)
    exact ⟨S, b, tile32, e, quiet_of q, c, f⟩

/-- A COPYM with a MMA after it. -/
def follows : State := { engines with cur := { grp with follow := some (.mma ⟨always, .zero, ⟨.int 1, false, false⟩, ⟨.int 1, false, false⟩, ⟨.int 1, false, false⟩⟩) } }

theorem test_copym_completes : ∃ a, matrixWord (.copym { copyOp .g2o (v 0) (v 32) with dst := v 0 }) = some a ∧ Solo follows a.pg th reeds ∧ a.Sound follows reeds th :=
  ⟨_, rfl, a_solo rfl rfl rfl (by decide +kernel) rfl, oneword (by decide +kernel) ⟨by decide +kernel, by decide +kernel, _, by rfl, by decide +kernel, _, _, by rfl, quiet_of (by decide +kernel), rfl,
    by decide +kernel, by decide +kernel⟩⟩

/-! ## Witnesses: tasks, colours, special registers, services -/

/-- A launch record of one gang of one warp in the laboratory's region. -/
def launchRecord : List Host.Cell := [(9, 0x10), (16, 1), (20, 1), (24, 1)]
def launch0 : Launch :=
  { id := 1, pasid := 1, rcd := launchOf (getCells 0 128 launchRecord), kinds := [⟨0x40, 16, 0, 0, 0, true⟩], packet := none, low := 1, taken := [], retired := 0, cut := false,
    done := false, skipDone := false, gen := 0, ready := [], reg := true, barred := [], vc := [] }
def range0 : LiveRange := ⟨0, { seq := 1, code := 0, kind := 2, taskKind := 0, recs := [], lo := 0, hi := 10, chunk := 3, launch := 1, gang := 1 }, 9, 0⟩
def tasks : State :=
  { one with
    launches := [launch0], mem := launchRecord, warps := [{ warp with ranged := true }], cores := [(1, { Core.idle with ranges := [range0] })] }
theorem tasks_solo : Solo tasks always th wg := a_solo rfl rfl rfl (by decide +kernel) rfl

theorem spares_of {s t : State} {x : Thread} (h : getT t x.tid = some x ∧ t.cur = s.cur ∧ t.now = s.now) : Spares s t x := h

/-- TaskWords: each spawn with its predicate and without, an empty range, the last chunk of a range, and LAUNCH. -/
theorem test_task_words_complete : ∀ i ∈ [Instr.spawn always none (v 32) (v 0), .spawn always (some 2) (v 32) (v 0), .spawnw always none 0 (v 0), .spawnw always (some 2) 0 (v 0),
    .spawnr always none 0 (v 32) (v 0) (v 32), .spawnr always (some 2) 0 (v 32) (v 32) (v 0), .tget always (.v 8), .launch always (v 32)],
    ∃ a, taskWord i = some a ∧ Solo tasks a.pg th wg ∧ a.Sound tasks wg th := by
  intro i hi
  simp only [List.mem_cons, List.not_mem_nil, or_false] at hi
  rcases hi with rfl | rfl | rfl | rfl | rfl | rfl | rfl | rfl
  · exact ⟨_, rfl, tasks_solo, oneword (by decide +kernel) ⟨by decide, by decide +kernel, by decide +kernel, .inr (by decide +kernel), spares_of (by decide +kernel)⟩⟩
  · exact ⟨_, rfl, tasks_solo, oneword (by decide +kernel) ⟨by decide, by decide +kernel, by decide +kernel, .inl rfl, spares_of (by decide +kernel)⟩⟩
  · exact ⟨_, rfl, tasks_solo, oneword (by decide +kernel) ⟨by decide +kernel, by decide, by decide +kernel, .inr (by decide +kernel), spares_of (by decide +kernel)⟩⟩
  · exact ⟨_, rfl, tasks_solo, oneword (by decide +kernel) ⟨by decide +kernel, by decide, by decide +kernel, .inl rfl, spares_of (by decide +kernel)⟩⟩
  · exact ⟨_, rfl, tasks_solo, oneword (by decide +kernel) ⟨by decide +kernel, by decide, by decide +kernel, fun _ => ⟨.inr (by decide +kernel), spares_of (by decide +kernel)⟩⟩⟩
  · exact ⟨_, rfl, tasks_solo, oneword (by decide +kernel) ⟨by decide +kernel, by decide, by decide +kernel, fun h => absurd h (by decide +kernel)⟩⟩
  · exact ⟨_, rfl, tasks_solo, oneword (by decide +kernel) ⟨by decide +kernel, by decide +kernel⟩⟩
  · refine ⟨_, rfl, tasks_solo, oneword (by decide +kernel) ⟨by decide +kernel, by decide +kernel, ?_⟩⟩
    refine read_of (by decide +kernel) ⟨by decide +kernel, read_of (by decide +kernel) ⟨.inl (by decide +kernel), by decide +kernel, spares_of (by decide +kernel)⟩⟩

/-- Thread and context with colour 5 held at depth 0. -/
def colour5 : Monitor := ⟨0, 1, 5, some t0, 1, .dev, false, [], [], []⟩
def holder : Thread := { th with held := [(5, 0)], passed := true, notified := some false, v := th.v.map fun r => if r.1 = 20 then (20, ⟨.full, 5, []⟩) else r }
def colours : State := { lab wg holder with monitors := [colour5] }
theorem colours_solo : Solo colours always holder wg := a_solo rfl rfl rfl (by decide +kernel) rfl

def answer (monitor : Bool) : Service := ⟨7, monitor, 0x01, 0, 0, [t0], some 9⟩
/-- A thread at PL1, whose request to the firmware is answered. -/
def handler1 : Thread := { th with pl := 1 }
def served1 : State := { lab wg handler1 with services := [answer false] }

/-- StateWords: one witness for each word, and the registers that need PL1. -/
theorem test_state_words_complete : (∃ a, stateWord (.setsr always 0x23 (v 32)) = some a ∧ Solo served1 a.pg handler1 wg ∧ a.Sound served1 wg handler1) ∧
    (∃ a, stateWord (.getsr always (.v 8) 0x26) = some a ∧ Solo served1 a.pg handler1 wg ∧ a.Sound served1 wg handler1) ∧ ∀ i ∈ [Instr.bwupd always 15 .max true (v 0), .bwrd always (.v 8) 15 6, .cwait { p2 with a := v 20 }, .cnotify always true (v 20), .cheld { a1 with a := v 20 },
    .getsr always (.v 8) 0x00, .getsr always (.v 8) 0x04, .setsr always 0x0E (v 0), .setsr always 0x0A (v 0)],
    ∃ a, stateWord i = some a ∧ Solo colours a.pg holder wg ∧ a.Sound colours wg holder := by
  refine ⟨⟨_, rfl, a_solo rfl rfl rfl (by decide +kernel) rfl, oneword (by decide +kernel) (by show srWritable _ = true; decide +kernel)⟩,
    ⟨_, rfl, a_solo rfl rfl rfl (by decide +kernel) rfl, oneword (by decide +kernel) (by show (srRead _ _ _ _).isSome = true; decide +kernel)⟩, fun i hi => ?_⟩
  simp only [List.mem_cons, List.not_mem_nil, or_false] at hi
  rcases hi with rfl | rfl | rfl | rfl | rfl | rfl | rfl | rfl | rfl
  · exact ⟨_, rfl, colours_solo, oneword (by decide +kernel) trivial⟩
  · exact ⟨_, rfl, colours_solo, oneword (by decide +kernel) trivial⟩
  · exact ⟨_, rfl, colours_solo, oneword (by decide +kernel) (by show holder.passed = true; rfl)⟩
  · refine ⟨_, rfl, colours_solo, oneword (by decide +kernel) ⟨by decide +kernel, by decide +kernel, fun m hm y hy => ?_⟩⟩
    have : some m = some colour5 := hm.symm.trans (by decide +kernel)
    cases this
    cases hy
  · exact ⟨_, rfl, colours_solo, oneword (by decide +kernel) trivial⟩
  · exact ⟨_, rfl, colours_solo, oneword (by decide +kernel) (by show (srRead _ _ _ _).isSome = true; decide +kernel)⟩
  · exact ⟨_, rfl, colours_solo, oneword (by decide +kernel) (by show (srRead _ _ _ _).isSome = true; decide +kernel)⟩
  · exact ⟨_, rfl, colours_solo, oneword (by decide +kernel) (by show srWritable _ = true; decide +kernel)⟩
  · exact ⟨_, rfl, colours_solo, oneword (by decide +kernel) (by show srWritable _ = true; decide +kernel)⟩

/-- A thread at PL2 whose requests to the firmware and to the monitor are answered. -/
def root2 : Thread := { th with pl := 2, passed := true }
def privileged : State := lab { wg with rcb := { reg with inject := true } } root2
def served2 : State := { privileged with services := [answer true] }
theorem privileged_solo : Solo privileged always root2 { wg with rcb := { reg with inject := true } } := a_solo rfl rfl rfl (by decide +kernel) rfl

/-- RootWords: services at the level that each needs, and the privileged words at PL2. -/
theorem test_root_words_complete :
    (∃ a, rootWord (.fwcall { a1 with a := v 0 } 0x01) = some a ∧ Solo served1 a.pg handler1 wg ∧ a.Sound served1 wg handler1) ∧
    (∀ svc ∈ [(0x01 : BitVec 8), 0x10], ∃ a, rootWord (.moncall a2 svc) = some a ∧ Solo served2 a.pg root2 { wg with rcb := { reg with inject := true } } ∧ a.Sound served2 { wg with rcb := { reg with inject := true } } root2) ∧
    ∀ i ∈ [Instr.icinv always none, .icinv always (some (v 32, v 0)), .tlbinv always .page (v 32) none, .tlbinv always .ctx (v 32) (some (v 0)), .tlbinv always .all (v 32) none,
      .fcxl always (v 0) (v 32), .finj always (v 0), .halt always, .cctl always none (v 0) (v 2), .cctl always (some (.v 8)) (v 0) (v 2)],
      ∃ a, rootWord i = some a ∧ Solo privileged a.pg root2 { wg with rcb := { reg with inject := true } } ∧ a.Sound privileged { wg with rcb := { reg with inject := true } } root2 := by
  refine ⟨⟨_, rfl, a_solo rfl rfl rfl (by decide +kernel) rfl, oneword (by decide +kernel) ⟨by decide +kernel, answer false, by decide +kernel, by decide +kernel⟩⟩, fun svc hs => ?_, fun i hi => ?_⟩
  · simp only [List.mem_cons, List.not_mem_nil, or_false] at hs
    rcases hs with rfl | rfl <;>
      exact ⟨_, rfl, a_solo rfl rfl rfl (by decide +kernel) rfl, oneword (by decide +kernel) ⟨by decide +kernel, answer true, by decide +kernel, by decide +kernel⟩⟩
  simp only [List.mem_cons, List.not_mem_nil, or_false] at hi
  rcases hi with rfl | rfl | rfl | rfl | rfl | rfl | rfl | rfl | rfl | rfl
  · exact ⟨_, rfl, privileged_solo, oneword (by decide +kernel) (by show releasePending _ _ _ = false; decide +kernel)⟩
  · exact ⟨_, rfl, privileged_solo, oneword (by decide +kernel) ⟨by decide +kernel, by decide +kernel⟩⟩
  · exact ⟨_, rfl, privileged_solo, oneword (by decide +kernel) ⟨by decide +kernel, by decide +kernel, spares_of (by decide +kernel)⟩⟩
  · exact ⟨_, rfl, privileged_solo, oneword (by decide +kernel) ⟨by decide +kernel, by decide +kernel, spares_of (by decide +kernel)⟩⟩
  · exact ⟨_, rfl, privileged_solo, oneword (by decide +kernel) ⟨by decide +kernel, by decide +kernel, spares_of (by decide +kernel)⟩⟩
  · exact ⟨_, rfl, privileged_solo, oneword (by decide +kernel) (spares_of (by decide +kernel))⟩
  · exact ⟨_, rfl, privileged_solo, oneword (by decide +kernel) (by show Rcb.inject _ = true; decide +kernel)⟩
  · exact ⟨_, rfl, privileged_solo, oneword (by decide +kernel) (by show root2.passed = true; rfl)⟩
  · exact ⟨_, rfl, privileged_solo, oneword (by decide +kernel) (spares_of (by decide +kernel))⟩
  · exact ⟨_, rfl, privileged_solo, oneword (by decide +kernel) trivial⟩

/-! ## Witnesses: atomics, barriers, thread ends, traps -/

def at0 (ty : AType) (op : AOp) : TAtom := ⟨always, .v 8, v 32, v 0, ty, 0, .dev, .acqrel, op⟩

/-- Atomics: a word, a reduction without ordering, a compare and swap of 64 bits, and an atomic of the scratchpad. -/
theorem test_atomics_complete : (∀ i ∈ [Instr.atom (at0 .f32 .add), .red { at0 .bf16x2 .min with d := .zero, ord := .plain }, .atomcas ⟨always, .v 8, v 32, v 0, v 2, .u64, .sys, .sc⟩],
      ∃ b, atomWord i 0 = some b ∧ Solo one b.pg th wg ∧ b.Sound one wg th) ∧ Solo one (at0 .s32 .exch).pg th wg ∧ (atomsWord (at0 .s32 .exch)).Sound one wg th := by
  refine ⟨fun i hi => ?_, one_solo, oneword (by decide +kernel) ⟨pad_of (by decide +kernel) (by decide) (by decide +kernel) (by decide +kernel), by decide +kernel, fun _ => by decide +kernel⟩⟩
  simp only [List.mem_cons, List.not_mem_nil, or_false] at hi
  rcases hi with rfl | rfl | rfl
  · exact ⟨_, rfl, one_solo, oneword (by decide +kernel) ⟨by decide +kernel, fun _ => by decide +kernel, page0, plain_of (by decide +kernel) (by decide) (by decide +kernel) (by decide +kernel) (by decide +kernel) (by decide)⟩⟩
  · exact ⟨_, rfl, one_solo, oneword (by decide +kernel) ⟨by decide +kernel, fun h => absurd h (by decide), page0, plain_of (by decide +kernel) (by decide) (by decide +kernel) (by decide +kernel) (by decide +kernel) (by decide)⟩⟩
  · exact ⟨_, rfl, one_solo, oneword (by decide +kernel) ⟨by decide +kernel, fun _ => by decide +kernel, page0, plain_of (by decide +kernel) (by decide) (by decide +kernel) (by decide +kernel) (by decide +kernel) (by decide)⟩⟩

/-- Barriers: the four words. -/
theorem test_barriers_complete : ∀ i ∈ [Instr.bar always, .gbar always, .ckpt always, .barp a1 .fmin .rn false true], ∃ a, barSpec i = some a ∧ Solo ganged a.pg th wg ∧ a.Sound ganged wg th := by
  intro i hi
  have hs : Solo ganged always th wg := a_solo rfl rfl rfl (by decide +kernel) rfl
  simp only [List.mem_cons, List.not_mem_nil, or_false] at hi
  rcases hi with rfl | rfl | rfl | rfl <;>
    exact ⟨_, rfl, hs, sound_of (by decide +kernel), by unfold Clean; decide +kernel, by decide +kernel, fun _ => by decide +kernel⟩

/-- Barriers: the instance that the one thread of a workgroup completes by its arrival. -/
def arrivedWg : Workgroup := { wg with bar := some (withArrival none (barInst one .bar) t0 0) }
def arrivedState : State := lab arrivedWg { th with run := .waiting .barrier }
theorem test_barrier_ready : ∃ b, BarReady arrivedState arrivedWg b := by
  refine ⟨withArrival none (barInst one .bar) t0 0, by decide +kernel, rfl, rfl, by decide +kernel, by decide +kernel, ?_, by decide +kernel, ?_⟩
  · intro g hg hne
    have : g = arrivedWg := by simpa [arrivedState, lab] using hg
    exact absurd (by rw [this]) hne
  · intro a ha y hy
    have ha : a.tid = t0 := by have : a ∈ (withArrival none (barInst one .bar) t0 0).arrived := ha; simp [withArrival, barInst] at this; rw [this]
    have : some y = some { th with run := .waiting .barrier } := by rw [← hy, ha]; decide +kernel
    cases this
    rfl

theorem free_of {w : Workgroup} {x : Thread} (h : (decide (w.rcb.trapVec ≠ 0) && !x.trap.inh && decide (x.depth < 255)) = true) : HandlerFree w x := by
  simp only [Bool.and_eq_true, decide_eq_true_eq, Bool.not_eq_true'] at h
  exact ⟨h.1.1, h.1.2, h.2⟩

/-- SoftTraps, YieldAndPrefix, PrivilegeTraps and SourceStates enter a handler here: at the deepest frame that leaves room for one. -/
def deepest : Thread := { th with depth := 254 }
def edge : State := lab wg deepest
theorem edge_solo : Solo edge always deepest wg := a_solo rfl rfl rfl (by decide +kernel) rfl
theorem test_traps_enter : (∀ i ∈ [Instr.bkpt always, .trap always 1023], ∃ c, softCause i = some (always, c)) ∧ Solo edge always deepest wg ∧ dualCause edge wg = [] ∧ HandlerFree wg deepest ∧
    Solo edge (pgOf 0x2C7A3D1CA3947000) deepest wg ∧ Solo edge (guardOf ((0 : Word).extractLsb' 47 4 ||| 7)) deepest wg ∧ deepest.pl < 1 ∧ dualCause edge wg = [] := by
  refine ⟨fun i hi => ?_, edge_solo, by decide +kernel, free_of (by decide +kernel), a_solo rfl rfl rfl (by decide +kernel) (by decide +kernel),
    a_solo rfl rfl rfl (by decide +kernel) (by decide +kernel), by decide, by decide +kernel⟩
  simp only [List.mem_cons, List.not_mem_nil, or_false] at hi
  rcases hi with rfl | rfl <;> exact ⟨_, rfl⟩

/-- YieldAndPrefix: a prefix with a word after it, and one at the end of its clause. -/
theorem test_prefix_cases : (curLast grp = false ∧ nextIsDpfx grp = false) ∧ curLast { grp with words := [0] } = true ∧ nextIsDpfx { grp with words := [0, 0xCA7A3D1CA394700F] } = true := by decide +kernel

/-- ThreadEnds and TrapReturns: a thread that holds a colour, and one in its handler two frames above the interrupted one. -/
def inTrap : Thread := { th with pl := 1, depth := 3, trap := { TrapState.clear with inh := true, depth := 2, pc := 0x20, pl := 0 }, held := [(5, 0)] }
def traps : State := { lab wg inTrap with monitors := [colour5] }
theorem test_ends_and_returns_complete : Solo traps always inTrap wg ∧ dualCause traps wg = [] ∧ colourReleaseReady traps inTrap.tid (inTrap.held.map (·.1)) = true ∧ HeldKnown traps wg inTrap ∧
    1 ≤ inTrap.pl ∧ inTrap.trap.inh = true ∧ colourReleaseReady traps inTrap.tid (coloursAbove inTrap inTrap.trap.depth) = true ∧ ∀ m ∈ traps.monitors, ∀ y ∈ m.fifo, y.tid ≠ inTrap.tid := by
  have hm : ∀ m ∈ traps.monitors, m = colour5 := fun m h => by simpa [traps] using h
  refine ⟨a_solo rfl rfl rfl (by decide +kernel) rfl, by decide +kernel, by decide +kernel, ⟨fun m h _ => ?_, fun m h y hy => ?_⟩, by decide, rfl, by decide +kernel, fun m h y hy => ?_⟩
  · rw [hm m h]; decide +kernel
  · rw [hm m h] at hy; cases hy
  · rw [hm m h] at hy; cases hy

/-! ## Witnesses: rules of single operands and addresses, traps of addresses, steps -/

/-- A thread with a PENDING register 12, a DEAD one 13, and v36, v37 = 2^57, the least address that is not canonical; v38, v39 = the unmapped page 16. -/
def mixed : Thread := { th with v := th.v.map fun r =>
  if r.1 = 12 then (12, ⟨.pending, 0, []⟩) else if r.1 = 13 then (13, ⟨.dead, 0, []⟩) else if r.1 = 36 then (36, ⟨.full, 0, []⟩) else if r.1 = 37 then (37, ⟨.full, 0x2000000, []⟩)
  else if r.1 = 38 then (38, ⟨.full, 0x10000, []⟩) else if r.1 = 39 then (39, ⟨.full, 0, []⟩) else r }
def states : State := lab wg mixed
theorem states_solo : Solo states always mixed wg := a_solo rfl rfl rfl (by decide +kernel) rfl

/-- SourceStates: a pair of FULL registers at the end of the window, a PENDING one, a DEAD one, and both. -/
theorem test_source_states_occur : HandlerFree wg mixed ∧ dualCause states wg = [] ∧ (dstCheck wg mixed (.v 8) 2).1 = [] ∧
    (Names wg (.v 62) false 62 2 ∧ ∀ r ∈ regRun false mixed 62 2, r.st = .full) ∧ (Names wg (.o 6) true 6 2 ∧ ∀ r ∈ regRun true mixed 6 2, r.st = .full) ∧
    (Names wg (.v 12) false 12 1 ∧ SomeIn (regRun false mixed 12 1) .pending ∧ ¬ SomeIn (regRun false mixed 12 1) .dead) ∧
    (Names wg (.v 13) false 13 1 ∧ SomeIn (regRun false mixed 13 1) .dead) ∧ Names wg (.v 12) false 12 2 ∧ SomeIn (regRun false mixed 12 2) .pending ∧ SomeIn (regRun false mixed 12 2) .dead := by
  have e : ∀ l : List Reg, ∀ st, l.any (fun r => r.st == st) = true → SomeIn l st := fun l st h => by
    rw [List.any_eq_true] at h; obtain ⟨r, hr, hs⟩ := h; exact ⟨r, hr, by simpa using hs⟩
  refine ⟨free_of (by decide +kernel), by decide +kernel, by decide +kernel, ⟨.inl ⟨62, rfl, rfl, rfl, by decide⟩, by decide +kernel⟩, ⟨.inr ⟨6, rfl, rfl, rfl⟩, by decide +kernel⟩,
    ⟨.inl ⟨12, rfl, rfl, rfl, by decide⟩, e _ _ (by decide +kernel), ?_⟩, ⟨.inl ⟨13, rfl, rfl, rfl, by decide⟩, e _ _ (by decide +kernel)⟩, .inl ⟨12, rfl, rfl, rfl, by decide⟩,
    e _ _ (by decide +kernel), e _ _ (by decide +kernel)⟩
  rintro ⟨r, hr, hs⟩
  have : ∀ r ∈ regRun false mixed 12 1, r.st = .pending := by decide +kernel
  rw [this r hr] at hs
  cases hs

def ldAt (b : BitVec 8) (w : MWidth) (off : BitVec 20) : MLoad := { ld0 w off with base := v b }
def stAt (b : BitVec 8) (w : MWidth) (off : BitVec 20) : MStore := { st0 w .rel .sys off with base := v b }

/-- AddressTraps: a misaligned address, and the least address beyond the canonical ones, of a load and of a store. -/
theorem test_bad_addresses_occur : HandlerFree wg mixed ∧
    (∀ m ∈ [ldAt 32 .w32 2, ldAt 36 .w64 0], Solo states m.pg mixed wg ∧ Sound states wg mixed (loadSrcs m) m.d m.w.k ∧ Clean states wg mixed (loadSrcs m)) ∧
    (loadEa (ldAt 32 .w32 2) states wg mixed).toNat % 4 ≠ 0 ∧ (loadEa (ldAt 36 .w64 0) states wg mixed).toNat = 2 ^ 57 ∧ logged states mixed.tid (2 ^ 57) = false ∧
    (∀ m ∈ [stAt 32 .w32 2, stAt 36 .w64 0], Solo states m.pg mixed wg ∧ Sound states wg mixed (gstoreSrcs m) .zero 0 ∧ (opv (readSrcs states wg mixed (gstoreSrcs m) []).vals 0).poison = false) ∧
    (storeEa (stAt 32 .w32 2) states wg mixed).toNat % 4 ≠ 0 ∧ (storeEa (stAt 36 .w64 0) states wg mixed).toNat = 2 ^ 57 ∧ releasePending states mixed.tid .sys = false := by
  refine ⟨free_of (by decide +kernel), fun m hm => ?_, by decide +kernel, by decide +kernel, by decide +kernel, fun m hm => ?_, by decide +kernel, by decide +kernel, by decide +kernel⟩
  · simp only [List.mem_cons, List.not_mem_nil, or_false] at hm
    rcases hm with rfl | rfl <;> exact ⟨states_solo, sound_of (by decide +kernel), by unfold Clean; decide +kernel⟩
  · simp only [List.mem_cons, List.not_mem_nil, or_false] at hm
    rcases hm with rfl | rfl <;> exact ⟨states_solo, sound_of (by decide +kernel), by decide +kernel⟩

/-- PageFaultHolds: a page that no TLB and no table maps. -/
theorem test_page_fault_occurs : Solo states always mixed wg ∧ Sound states wg mixed (loadSrcs (ldAt 38 .w32 4)) (.v 8) 1 ∧ Clean states wg mixed (loadSrcs (ldAt 38 .w32 4)) ∧
    (loadEa (ldAt 38 .w32 4) states wg mixed).toNat = 0x10004 ∧ logged states mixed.tid 0x10004 = false ∧ translate states 1 1 0x10004 ⟨true, false, false, 0⟩ = (states, .unmapped) ∧
    states.faults = [] ∧ 0 < Config.pendingFaults :=
  ⟨states_solo, sound_of (by decide +kernel), by unfold Clean; decide +kernel, by decide +kernel, by decide +kernel, by decide +kernel, rfl, by decide⟩

/-- PrivilegeTraps: a word of PL1 at PL0, a word of PL2 at PL1, and a register of the trap state at PL0. -/
theorem test_privilege_is_checked : (∃ a, rootWord (.icinv always none) = some a ∧ th.pl < a.need ∧ Solo one a.pg th wg ∧ Sound one wg th a.srcs a.d a.kd) ∧
    (∃ a, rootWord (.halt always) = some a ∧ handler1.pl < a.need ∧ Solo served1 a.pg handler1 wg ∧ Sound served1 wg handler1 a.srcs a.d a.kd) ∧
    (∃ a, stateWord (.getsr always (.v 8) 0x20) = some a ∧ th.pl < a.need ∧ Solo one a.pg th wg ∧ Sound one wg th a.srcs a.d a.kd) ∧ HandlerFree wg handler1 :=
  ⟨⟨_, rfl, by decide, one_solo, sound_of (by decide +kernel)⟩, ⟨_, rfl, by decide, a_solo rfl rfl rfl (by decide +kernel) rfl, sound_of (by decide +kernel)⟩,
    ⟨_, rfl, by decide, one_solo, sound_of (by decide +kernel)⟩, free_of (by decide +kernel)⟩

/-- ConstantTangents and UpdateWindow: an operand of each kind; a trial that runs, and a window that ends now. -/
theorem test_constants_and_windows : IsConstant .zero ∧ IsConstant .lit ∧ IsConstant (.int 15) ∧ IsConstant (.cst 15) ∧
    (∃ s : State, s.fw.trial = .inTrial) ∧ ∃ s : State, s.fw.trial = .inTrial ∧ s.fw.trialEnd = some s.ns ∧ ∀ e, s.fw.patchEnd = some e → e ≤ s.ns :=
  ⟨.inl rfl, .inr (.inl rfl), .inr (.inr (.inl ⟨15, rfl⟩)), .inr (.inr (.inr ⟨15, rfl⟩)), ⟨{ State.reset with fw := { Firmware.reset with trial := .inTrial } }, rfl⟩,
    ⟨{ State.reset with fw := { Firmware.reset with trial := .inTrial, trialEnd := some 0 } }, rfl, rfl, nofun⟩⟩

/-- Predicates: both words have a result in the laboratory. -/
theorem test_predicate_words : (∃ a, intSpec (.icmp p2 .lt false true) = some a ∧ a.sound one) ∧ ∃ a, intSpec (.pbool3 always 7 2 3 4 0x80) = some a ∧ a.sound one :=
  ⟨⟨_, rfl, ready_word (by decide +kernel)⟩, ⟨_, rfl, ready_word (by decide +kernel)⟩⟩

/-- Division, Shifts: every clause has operands: a zero divisor, the overflowing quotient, shifts by the width and past it. -/
theorem test_clauses_have_operands : Overflows false 32 0x80000000 0xFFFFFFFF ∧ ¬ Overflows true 32 0x80000000 0xFFFFFFFF ∧ IsQuotient false 32 0x80000000 0xFFFFFFFF 0x80000000 ∧
    IsQuotient false 32 7 0 0xFFFFFFFF ∧ IsRemainder false 32 7 0 7 ∧ HasBits 32 0 (shlBit 32 1 32) ∧ HasBits 32 0xFFFFFFFF (shraBit 32 0x80000000 40) ∧ HasBits 32 6 (rotlBit 32 0x80000001 34) := by
  refine ⟨by unfold Overflows; decide, by unfold Overflows; decide, ⟨by decide, fun h => absurd h (by decide), fun _ => by decide, fun _ h => absurd (by unfold Overflows; decide) h⟩,
    ⟨by decide, fun _ => by decide, fun h => absurd h (by unfold Overflows; decide), fun h => absurd rfl h⟩,
    ⟨by decide, fun _ => rfl, fun h => absurd h (by unfold Overflows; decide), fun h => absurd rfl h, fun h => absurd rfl h⟩, ⟨by decide, by decide⟩, ⟨by decide, by decide⟩, ⟨by decide, by decide⟩⟩

/-- MinMax: two NaNs, one NaN, two zeros of either sign. -/
theorem test_extremes : IsExtremum .b32 false false 0x7FC00001 0x7F800001 0x7FC00000 ∧ IsExtremum .b32 true false 0x7FC00001 0x3F800000 0x3F800000 ∧
    IsExtremum .b32 true true 0x3F800000 0x7FC00001 0x7FC00000 ∧ IsExtremum .b32 false false 0 0x80000000 0x80000000 ∧ IsExtremum .b32 true false 0 0x80000000 0 := by
  have h : ∀ (f : Fmt) (max prop : Bool) (a b r : Nat), (decide ((f.decode a).isNan = true → (f.decode b).isNan = true → r = f.nan) &&
      decide ((f.decode a).isNan = true → (f.decode b).isNan = false → r = if prop then f.nan else b) && decide ((f.decode a).isNan = false → (f.decode b).isNan = true → r = if prop then f.nan else a) &&
      decide ((f.decode a).isNan = false → (f.decode b).isNan = false → r = a ∨ r = b) && decide ((f.decode a).isNan = false → (f.decode b).isNan = false → ∀ c ∈ [a, b],
        (if max then (f.decode r).lt (f.decode c) else (f.decode c).lt (f.decode r)) = false) && decide ((f.decode a).isZero = true → (f.decode b).isZero = true →
        (f.decode r).sign = if max then (f.decode a).sign && (f.decode b).sign else (f.decode a).sign || (f.decode b).sign)) = true → IsExtremum f max prop a b r := by
    intro f max prop a b r h
    simp only [Bool.and_eq_true, decide_eq_true_eq] at h
    exact ⟨h.1.1.1.1.1, h.1.1.1.1.2, h.1.1.1.2, h.1.1.2, fun h1 h2 c hc => h.1.2 h1 h2 c (by simpa using hc), h.2⟩
  exact ⟨h _ _ _ _ _ _ (by decide +kernel), h _ _ _ _ _ _ (by decide +kernel), h _ _ _ _ _ _ (by decide +kernel), h _ _ _ _ _ _ (by decide +kernel), h _ _ _ _ _ _ (by decide +kernel)⟩

/-- A clause of one EXIT near the end of the first line of the page, and the thread at its header. -/
def code : List Host.Cell := setCells (cellsAt 0x28 (leBytes 8 (headerCode ⟨1, 0, 0, false, false, false, false, 0⟩).toNat ++ leBytes 8 0x767A3D1CA3947000)) []
def starter : Thread := { th with pc := 0x28 }
def runs : State := { lab wg starter with mem := code, agenda := [.issue 1] }

/-- ClauseIsMemoryBytes. -/
theorem test_clause_in_memory : CodeLine runs starter wg 0x28 page0 0 ∧ ∃ h, headerOf (codeWord runs 0 0x28) = some h ∧ 0x28 + 8 * h.count < 64 := by
  refine ⟨⟨fun y hy => ?_, by decide +kernel, ⟨rfl, rfl, rfl⟩, by decide +kernel, rfl, nofun⟩, _, by rfl, by decide⟩
  have h : ∀ n < 64, n < 2 ^ 57 ∧ tlbFind runs 1 1 n = some ⟨0, 1, 1, 0, page0, 0, true⟩ ∧ paAllows runs (leafPa page0 n) 0 = true ∧ homeOf 0 [] (leafPa page0 n / 64 * 64) = .hbm 0 := by decide +kernel
  have hy : y.toNat < 64 := by have : (0x28 : Word).toNat / 64 = 0 := by decide
                               omega
  obtain ⟨h1, h2, h3, h4⟩ := h _ hy
  exact ⟨h1, ⟨_, h2, rfl⟩, h3, h4⟩

/-- StepRunsDecoded: the step of that machine runs the EXIT. -/
theorem test_step_runs : runs.powered = true ∧ runs.warm.began = none ∧ runs.agenda = [.issue 1] ∧ ((bestCand { runs with agenda := [] } 1 (cands { runs with agenda := [] } 1)).any fun c =>
    match groupOfCand { runs with agenda := [] } 1 c with
    | (S, some g) => (match (partsOf g.legacy g.cls (g.words.headD 0) g.words.tail).ins with
      | .ok i => i == .exit always && (enterWord S g).1.cur.tids == [t0]
      | .error _ => false)
    | (_, none) => false) = true := ⟨rfl, rfl, rfl, by decide +kernel⟩

/-- The state a step answers, if it answers one. -/
def nextOf (o : Host.Outcome State Fault Refusal) : Option State := match o with
  | .next t => some t
  | _ => none

/-- StepKeeps and NoPower: the step of that machine is one, and ends its thread; a machine may be without power. -/
theorem test_step_goes_on : MemForm runs ∧ runs.ports.length = 16 ∧ ((nextOf (step runs)).any fun t => (getT t t0).all (fun x => x.run != .ready) && Memory.wf t.mem) = true ∧
    ∃ s : State, s.powered = false ∧ s.agenda = [] :=
  ⟨by unfold MemForm; decide +kernel, rfl, by decide +kernel, { State.reset with powered := false }, rfl, rfl⟩

/-! ## Witnesses: the steps of the ports, the links, the host and the firmware -/

/-- Port 0 in a state entered at time `since`, with credits, at ten seconds. -/
def portAt (st : Train) (since : Nat) : State :=
  { State.reset with ns := 10000000000, ports := { Port.reset with state := st, entered := since, credits := [8, 8, 8, 8] } :: List.replicate 15 Port.reset }

/-- Entered at time 0: every time-out is over. -/
def portIn (st : Train) : State := portAt st 0

/-- Entered just now. -/
def portNew (st : Train) : State := portAt st 10000000000

/-- The step of a port is due in `s`. -/
def PortDue (i : Instr) (s : State) : Prop := ∃ a, portTurn i = some a ∧ a.port s < 16 ∧ s.ports.length = 16 ∧ a.due s (getPort s (a.port s))

theorem serves (s : State) (p : Nat) (h : portDieIn s (portDie p) = true) : PortServes s p := h

/-- PortTraining: a success in time and a time-out of each state. -/
theorem test_training_is_due : PortDue .detect (portNew .detect) ∧ PortDue .detectRepeat (portIn .detect) ∧ PortDue .rateLock (portNew .rate) ∧ PortDue .rateTimeout (portIn .rate) ∧
    PortDue (.equaliseRound 0 true) (portNew .equalise) ∧ PortDue .equaliseTimeout (portIn .equalise) ∧ PortDue .deskew (portNew .deskew) ∧ PortDue .deskewTimeout (portIn .deskew) ∧
    PortDue (.slots 0 [1, 2, 1024, 4]) (portNew .slots) ∧ PortDue .slotsTimeout (portIn .slots) ∧ PortDue (.identity 0 ⟨[1], [2]⟩ [3] [4]) (portNew .identity) ∧ PortDue .identityTimeout (portIn .identity) :=
  ⟨⟨_, rfl, by decide, rfl, serves _ _ rfl, ⟨rfl, by decide⟩, rfl, rfl⟩, ⟨_, rfl, by decide, rfl, serves _ _ rfl, ⟨rfl, by decide⟩, rfl⟩,
    ⟨_, rfl, by decide, rfl, serves _ _ rfl, ⟨rfl, by decide⟩, by decide⟩, ⟨_, rfl, by decide, rfl, serves _ _ rfl, rfl, by decide⟩,
    ⟨_, rfl, by decide, rfl, serves _ _ rfl, ⟨rfl, by decide⟩, by decide⟩, ⟨_, rfl, by decide, rfl, serves _ _ rfl, rfl, by decide⟩,
    ⟨_, rfl, by decide, rfl, serves _ _ rfl, ⟨rfl, by decide⟩, by decide⟩, ⟨_, rfl, by decide, rfl, serves _ _ rfl, rfl, by decide⟩,
    ⟨_, rfl, by decide, rfl, serves _ _ rfl, ⟨rfl, by decide⟩, by decide⟩, ⟨_, rfl, by decide, rfl, serves _ _ rfl, rfl, by decide⟩,
    ⟨_, rfl, by decide, rfl, serves _ _ rfl, by decide +kernel, ⟨rfl, by decide⟩, by decide⟩, ⟨_, rfl, by decide, rfl, serves _ _ rfl, rfl, by decide⟩⟩

theorem test_port_events_are_due : PortDue .quarantineNoticeSend (portIn .quarantine) ∧ PortDue .quarantineNotice (portIn .active) ∧ PortDue (.replayRequest 0 3) (portIn .active) ∧
    PortDue .replayLimit { portIn .active with ports := { Port.reset with state := .active, replayFails := 17 } :: List.replicate 15 Port.reset } ∧ PortDue .linkLoss (portIn .active) ∧
    PortDue (.vlctlRetrain 0 1) (portIn .quarantine) ∧ PortDue (.vlctlDisable 0 2) (portIn .active) :=
  ⟨⟨_, rfl, by decide, rfl, serves _ _ rfl, rfl, by decide⟩, ⟨_, rfl, by decide, rfl, rfl, rfl⟩, ⟨_, rfl, by decide, rfl, .inl rfl⟩, ⟨_, rfl, by decide, rfl, rfl, by decide⟩, ⟨_, rfl, by decide, rfl, rfl⟩,
    ⟨_, rfl, by decide, rfl, rfl⟩, ⟨_, rfl, by decide, rfl, rfl, rfl, by decide⟩⟩

/-- The first flit of a channel and kind. -/
def flit (vc kind : Nat) (b : FlitBody) : Flit := makeFlit 0 vc kind [0, 0, 0, 0] b

theorem flit_ok (seq : BitVec 16) (vc kind : Nat) (c : List Nat) (b : FlitBody) : Flit.crcOk (makeFlit seq vc kind c b) = true := by
  simp only [Flit.crcOk, makeFlit, flitHead, beq_self_eq_true]

/-- Its check is one bit wrong. -/
def damaged (f : Flit) : Flit := { f with crc := f.crc ^^^ 1 }

theorem damaged_bad (vc kind : Nat) (b : FlitBody) : Flit.crcOk (damaged (flit vc kind b)) = false := by
  have h : ∀ x : Word, (x ^^^ 1 == x) = false := fun x => by
    rw [beq_eq_false_iff_ne]
    intro h
    have := congrArg (·.getLsbD 0) h
    simp at this
  exact h _

/-- The flit of `i` arrives in `s` and is taken. -/
def Takes (i : Instr) (s : State) : Prop := ∃ a, flitTurn i = some a ∧ Arrives s a.port a.flit ∧ a.flit.kind.toNat < 5 ∧
  ∀ k, a.lane = some k → a.flit.kind.toNat = k.1 ∧ a.flit.vc.toNat = k.2

/-- Flits: each kind is taken in an ACTIVE port, and in QUARANTINE on VC3 alone; an unknown kind, a damaged flit, a gap, a flit that has come before. -/
theorem test_flits_arrive : Takes (.requestFlit 0 (flit 0 0 (.load 1 0 4))) (portIn .active) ∧ Takes (.responseFlit 0 (flit 1 1 (.slotReturn 3))) (portIn .active) ∧
    Takes (.enqueueFlit 0 (flit 2 2 (.payload 1 1 7 [] false))) (portIn .active) ∧ Takes (.managementFlit 0 (flit 3 3 .notice)) (portIn .quarantine) ∧
    Takes (.idleFlit 0 (flit 0 4 .other)) (portIn .active) ∧ (Arrives (portIn .active) 0 (flit 0 9 .other) ∧ 5 ≤ (flit 0 9 .other).kind.toNat) ∧
    (Listens (portIn .quarantine) 0 ∧ Flit.crcOk (flit 0 0 (.load 1 0 4)) = true ∧ Quiet31 (portIn .quarantine) 0 (flit 0 0 (.load 1 0 4))) ∧ ¬ Listens (portIn .detect) 0 ∧
    (Listens (portIn .active) 0 ∧ Flit.crcOk (damaged (flit 0 0 .other)) = false) ∧
    (¬ Quiet31 (portIn .active) 0 (makeFlit 3 0 0 [] .other) ∧ ahead (portIn .active) 0 (makeFlit 3 0 0 [] .other) = 3) ∧
    ahead (portIn .active) 0 (makeFlit 0xFFFF 0 0 [] .other) = 65535 := by
  have l : Listens (portIn .active) 0 := ⟨by decide, .inl rfl⟩
  have q : ∀ f : Flit, ¬ Quiet31 (portIn .active) 0 f := fun f h => absurd h.1 (by decide)
  exact ⟨⟨_, rfl, ⟨l, flit_ok .., q _, rfl⟩, by decide +kernel, fun k hk => by cases hk; exact ⟨rfl, rfl⟩⟩, ⟨_, rfl, ⟨l, flit_ok .., q _, rfl⟩, by decide +kernel, fun k hk => by cases hk; exact ⟨rfl, rfl⟩⟩,
    ⟨_, rfl, ⟨l, flit_ok .., q _, rfl⟩, by decide +kernel, fun k hk => by cases hk; exact ⟨rfl, rfl⟩⟩,
    ⟨_, rfl, ⟨⟨by decide, .inr rfl⟩, flit_ok .., fun h => h.2 rfl, rfl⟩, by decide +kernel, fun k hk => by cases hk; exact ⟨rfl, rfl⟩⟩,
    ⟨_, rfl, ⟨l, flit_ok .., q _, rfl⟩, by decide +kernel, nofun⟩, ⟨⟨l, flit_ok .., q _, rfl⟩, by decide +kernel⟩,
    ⟨⟨by decide, .inr rfl⟩, flit_ok .., rfl, by decide⟩, fun h => by rcases h.2 with h | h <;> exact absurd h (by decide), ⟨l, damaged_bad ..⟩, ⟨q _, by decide +kernel⟩, by decide +kernel⟩

/-- The step of `i` is due in `s`. -/
def Due (f : Instr → Option Turn) (i : Instr) (s : State) : Prop := ∃ a, f i = some a ∧ a.due s

def land1 : State := modCore (portIn .active) 0 fun c =>
  { c with landingWait := [(0, ⟨1, 7, [], [], false⟩)] }
def resetting : State := { State.reset with ns := 10000000000, warm := ⟨1, 0, 0, 0, some 0, [], []⟩ }

/-- OutsideEvents. -/
theorem test_outside_is_due : Due outsideTurn .pcieLinkDown State.reset ∧ Due outsideTurn .pcieLinkUp State.reset ∧ Due outsideTurn .clockStepDown State.reset ∧
    Due outsideTurn .clockStepUp { State.reset with clkMhz := 775 } ∧ Due outsideTurn .remqPayloadLanding land1 ∧ Due outsideTurn (.powerGood ⟨0x3F, [], []⟩ 0 []) { State.reset with powered := false } ∧
    Due outsideTurn .powerRemoved State.reset ∧ Due outsideTurn (.warmReset 2 3 0 []) State.reset ∧ Due outsideTurn .warmResetWritebackDeadline resetting ∧ Due outsideTurn .warmResetComplete resetting :=
  ⟨⟨_, rfl, trivial⟩, ⟨_, rfl, rfl, rfl, rfl⟩, ⟨_, rfl, by decide⟩, ⟨_, rfl, by decide⟩, ⟨_, rfl, _, _, _, rfl, by decide +kernel⟩, ⟨_, rfl, rfl⟩, ⟨_, rfl, trivial⟩, ⟨_, rfl, rfl⟩,
    ⟨_, rfl, _, rfl, by decide⟩, ⟨_, rfl, _, rfl, by decide⟩⟩

/-! ### The host's side: a context whose tables at 0x100000 map the first 64 GiB of HBM at 0 -/

def tables : List Host.Cell :=
  setCells (cellsAt 0x100000 (leBytes 8 0x10100000001)) (setCells (cellsAt 0x101000 (leBytes 8 0x10200000001)) (setCells (cellsAt 0x102000 (leBytes 8 0x73)) []))

/-- A packet's 64 bytes: kind and flags, then the words at bytes 8, 16 and 24. -/
def packetBytes (k a b c : Nat) : List Byte := leBytes 8 k ++ leBytes 8 a ++ leBytes 8 b ++ leBytes 8 c ++ leBytes 32 0

def packet1 (st : PktState) (b : List Byte) : Packet := ⟨0, b, st, 0, 0, none, 0, false⟩

/-- Queue 0 of context 1 with one packet, which it has taken or which runs. -/
def holding (p : Packet) : State :=
  { State.reset with
    ns := 10000000000, mem := tables, contexts := [⟨1, some 0x100000, 0, 0, false, 0, []⟩]
    queues := [(0, ⟨0x10000, 0x1006, 1, 1, 0, 0, true, .running, 0, none, [], [p]⟩)] }

def queued (st : PktState) (b : List Byte) : State := holding (packet1 st b)

def dataIs (x : State × PktAccess) (p : List Byte → Bool → Bool) : Bool := match x.2 with
  | .data b k => p b k
  | _ => false

theorem data_of {x : State × PktAccess} {p : List Byte → Bool → Bool} (h : dataIs x p = true) : ∃ b k, x = (x.1, .data b k) ∧ p b k = true := by
  obtain ⟨s, a⟩ := x
  cases a with
  | data b k => exact ⟨b, k, rfl, h⟩
  | fail => exact absurd h (by simp [dataIs])
  | wait => exact absurd h (by simp [dataIs])

/-- Packets: one packet of each kind at each of its steps. -/
theorem test_packets_are_due : Due packetTurn (.nopPacket 0 0) (queued .taken (packetBytes 0 0 0 0)) ∧ Due packetTurn (.launchPacket 0 0) (queued .taken (packetBytes 1 0x2000 0 0)) ∧
    Due packetTurn (.dmaPacket 0 0) (queued .taken (packetBytes 2 0x2000 0x3000 64)) ∧ Due packetTurn (.dmaComplete 0 0) (queued .running (packetBytes 2 0x2000 0x3000 64)) ∧
    Due packetTurn (.waitvPacket 0 0) (queued .taken (packetBytes 3 0x2000 5 9)) ∧ Due packetTurn (.waitvPoll 0 0) (queued .running (packetBytes 3 0x2000 5 9)) ∧
    Due packetTurn (.waitvTimeout 0 0) (queued .running (packetBytes 3 0x2000 5 9)) ∧ Due packetTurn (.fencePacket 0 0) (queued .taken (packetBytes 6 0 0 0)) ∧
    Due packetTurn (.signalPacket 0 0) (queued .taken (packetBytes 4 0x2000 5 0)) ∧ Due packetTurn (.timestampPacket 0 0) (queued .taken (packetBytes 7 0x2000 0 0)) ∧
    Due packetTurn (.regionPacket 0 0) (queued .taken (packetBytes 5 0x2000 0x3000 0)) ∧
    Due packetTurn (.regionCommit 0 0) { queued .running (packetBytes 5 0x2000 0x3000 0) with fw := { Firmware.reset with hands := [(0, 0)] } } :=
  ⟨⟨_, rfl, _, rfl⟩, ⟨_, rfl, ⟨_, rfl⟩, by decide +kernel⟩, ⟨_, rfl, _, rfl⟩, ⟨_, rfl, _, rfl⟩, ⟨_, rfl, _, rfl⟩, ⟨_, rfl, _, rfl⟩, ⟨_, rfl, _, rfl, by decide, by decide⟩, ⟨_, rfl, _, by rfl⟩,
    ⟨_, rfl, _, by rfl⟩, ⟨_, rfl, _, by rfl⟩, ⟨_, rfl, ⟨_, rfl⟩, rfl⟩, ⟨_, rfl, _, rfl, by decide⟩⟩

/-- Their accesses give bytes: the record that a LAUNCH reads, the word that a WAITV reads, a SIGNAL's write and its add, a TIMESTAMP's write, the image that a commit reads; a LAUNCH of an empty record is
refused, as is the commit of an empty image; a DMA that has moved all, and a packet whose effect is made, complete. -/
theorem test_packets_reach_memory : dataIs (pktRead (queued .taken (packetBytes 1 0x2000 0 0)) 0 0 0x2000 128) (fun b bad => !launchOk (queued .taken (packetBytes 1 0x2000 0 0)) 1 none b && !bad) = true ∧
    dataIs (pktRead (queued .running (packetBytes 3 0x2000 5 9)) 0 0 0x2000 8) (fun b bad => leNat b == 0 && !bad) = true ∧
    Signalled (queued .taken (packetBytes 4 0x2000 5 0)) (pktWrite (queued .taken (packetBytes 4 0x2000 5 0)) 0 0 0x2000 (leBytes 8 5) false).1 0 0 (packet1 .taken (packetBytes 4 0x2000 5 0)) ∧
    Signalled (queued .taken (packetBytes 4 0x2000 5 1)) (pktWrite (queued .taken (packetBytes 4 0x2000 5 1)) 0 0 0x2000 (leBytes 8 5) false).1 0 0 (packet1 .taken (packetBytes 4 0x2000 5 1)) ∧
    dataIs (pktWrite (queued .taken (packetBytes 7 0x2000 0 0)) 0 0 0x2000 (leBytes 8 10000000000) false) (fun _ bad => !bad) = true ∧
    dataIs (pktRead (queued .running (packetBytes 5 0x2000 0x3000 0)) 0 0 0x2000 256) (fun b bad => !bad && !commitOk (queued .running (packetBytes 5 0x2000 0x3000 0)) 1 b 0x3000) = true ∧
    packetPending (queued .running []) 0 0 = false ∧ releaseAt (holding { packet1 .running (packetBytes 4 0x2000 5 0) with sent := true }) 0 0 4 ≠ none := by
  have w : ∀ c : Nat, c < 2 → dataIs (pktWrite (queued .taken (packetBytes 4 0x2000 5 c)) 0 0 0x2000 (leBytes 8 5) false) (fun _ _ => true) = true := by decide +kernel
  refine ⟨by decide +kernel, by decide +kernel, Or.inl ⟨by decide, ?_⟩, Or.inr (Or.inl ⟨rfl, fun m off h => absurd h ?_, ?_⟩), by decide +kernel, by decide +kernel, rfl, by decide⟩
  · obtain ⟨b, k, h, -⟩ := data_of (w 0 (by decide))
    exact ⟨b, k, h⟩
  · have h : (pktXlate (queued .taken (packetBytes 4 0x2000 5 1)) 1 0x2000 true true).2.map (fun x => homeOf 0 [] x.2) = some (.hbm 0x2000) := by decide +kernel
    intro e
    have e : some (Home.hbm 0x2000) = some (.peer m off) := h.symm.trans e
    cases e
  · obtain ⟨b, k, h, z⟩ := data_of (x := pktRead (queued .taken (packetBytes 4 0x2000 5 1)) 0 0 0x2000 8) (p := fun b k => leNat b == 0 && !k) (by decide +kernel)
    simp only [Bool.and_eq_true, beq_iff_eq, Bool.not_eq_true'] at z
    obtain ⟨d, j, g, -⟩ := data_of (w 1 (by decide))
    have r : (pktRead (queued .taken (packetBytes 4 0x2000 5 1)) 0 0 0x2000 8).1 = queued .taken (packetBytes 4 0x2000 5 1) := by decide +kernel
    refine ⟨queued .taken (packetBytes 4 0x2000 5 1), b, k, d, j, h.trans (Prod.ext r rfl), ?_⟩
    rw [z.1, z.2]
    exact g

/-- HostRegisters: a doorbell that rings within the ring and one past it, an enable that is taken and one that is refused, a reset; the conditions on a register's write. -/
theorem test_host_registers_differ : (queueTurn (.doorbell 0 0x41 0)).isSome = true ∧ ((queued .taken []).queues.map fun q => (Queue.rung (queued .taken []) 0 0x41 q.2).tail) = [0x41] ∧
    ((queued .taken []).queues.map fun q => ((Queue.rung (queued .taken []) 0 0x43 q.2).tail, (Queue.rung (queued .taken []) 0 0x43 q.2).badDb)) = [(1, 1)] ∧
    (Queue.enabled State.reset { Queue.off with base := 0x1000, cfg := 0x1006 }).state = .running ∧ (Queue.enabled State.reset { Queue.off with base := 0x1000, cfg := 0x1005 }).err = 0x0A ∧
    (Queue.wasReset { Queue.off with epoch := 3 }).epoch = 4 ∧ (Queue.stopped { Queue.off with state := .running }).state = .disabled ∧ State.reset.records = [] ∧ (getPort State.reset 15).state = .detect :=
  ⟨rfl, by decide +kernel, by decide +kernel, by decide +kernel, by decide +kernel, rfl, rfl, rfl, rfl⟩

/-- A queue whose ring lies at a bus address that link 0 has translated, with one NOP packet in it. -/
def ringing : State :=
  { State.reset with
    links := [{ Link.reset with atsCache := [⟨1, 0x10, 0x10⟩] }, Link.reset], contexts := [⟨1, some 0x100000, 0, 0, false, 0, []⟩]
    queues := [(0, ⟨0x10000, 0x1006, 0, 1, 0, 0, true, .running, 0, none, [], []⟩)] }

/-- FetcherAndReports. -/
theorem test_fetcher_has_work : portDieIn ringing ringing.unit_ = true ∧ (getLink (askRings ringing ringing.unit_) ringing.unit_).up = true ∧ (getLink ringing ringing.unit_).up = true ∧
    chooseQueue (askRings ringing ringing.unit_) ringing.unit_ = some 0 ∧ fetchable (askRings ringing ringing.unit_) 0 = some (List.replicate 64 0) ∧
    packetError ringing 1 (List.replicate 64 0) = none ∧ ringing.fw.identity = true :=
  ⟨rfl, by decide +kernel, rfl, by decide +kernel, by decide +kernel, by decide +kernel, rfl⟩

def FwDue (i : Instr) (f : Firmware) : Prop := ∃ a, fwTurn i = some a ∧ a.due State.reset f
def trying : Firmware := { Firmware.reset with slotA := { Firmware.reset.slotA with build := 7 }, trial := .inTrial, trialEnd := some 5 }
def patching : Firmware := { Firmware.reset with trial := .inTrial, patchNew := some ⟨3, 7, 0, 0, true⟩, patchEnd := some 5 }

/-- FirmwareSteps. -/
theorem test_firmware_is_due : FwDue (.firmwareUpdateRequest 3) Firmware.reset ∧ FwDue (.monitorPatchRequest 3) Firmware.reset ∧ FwDue (.fwcommit ⟨7, false⟩) trying ∧ FwDue (.fwcommit ⟨7, true⟩) patching ∧
    FwDue (.patchConfirmation 7 true true) patching ∧ FwDue .quiescentPoint { Firmware.reset with quiesce := some 9 } ∧ FwDue .quiescentTimeout { Firmware.reset with quiesce := some 0 } ∧
    FwDue .quiescentPoint { trying with quiesce := some 9, reverting := true } ∧ FwDue .quiescentTimeout { trying with quiesce := some 0, reverting := true } ∧
    FwDue .trialWatchdog { trying with trialEnd := some 0 } ∧ FwDue .trialWatchdog { patching with patchEnd := some 0 } :=
  ⟨⟨_, rfl, rfl⟩, ⟨_, rfl, rfl⟩, ⟨_, rfl, rfl, .inl ⟨rfl, ⟨_, rfl, by decide⟩, rfl⟩⟩, ⟨_, rfl, rfl, .inr ⟨_, rfl, ⟨_, rfl, by decide⟩, rfl, rfl⟩⟩,
    ⟨_, rfl, _, rfl, ⟨_, rfl, by decide⟩, rfl, rfl, rfl⟩, ⟨_, rfl, ⟨_, rfl, by decide⟩, rfl⟩, ⟨_, rfl, _, rfl, by decide⟩, ⟨_, rfl, ⟨_, rfl, by decide⟩, rfl⟩, ⟨_, rfl, _, rfl, by decide⟩,
    ⟨_, rfl, rfl, rfl, .inl ⟨rfl, _, rfl, by decide⟩⟩, ⟨_, rfl, rfl, rfl, .inr ⟨by decide, _, rfl, by decide⟩⟩⟩

/-! ## Witnesses: the steps of the timers, the units, the placers and the services -/

/-- The laboratory at cycle 2^40, its thread waiting since cycle 0. -/
def waits (f : WaitFor) : State :=
  { lab wg { th with run := .waiting f, since := some 0 } with now := 2 ^ 40, groups := [], tlb := [⟨0, 1, 1, 0, page0, 0, true⟩], mem := tables }

theorem waits_free (f : WaitFor) : WaitsFree (waits f) t0 { th with run := .waiting f, since := some 0 } wg f := ⟨rfl, rfl, rfl, free_of rfl⟩

/-- Its thread retries a colour request that it first made at cycle 0 and last at cycle 9. -/
def retrier : Thread := { th with run := .waiting (.colourRetry 5 0), retrying := some (5, 0, 9) }
def retries : State := { waits .resource with threads := [retrier] }

/-- Colour 5 in context 1: its FIFO and its condition list. -/
def mon (fifo cond : List Waiter) : Monitor := ⟨0, 1, 5, none, 0, .dev, false, fifo, cond, []⟩

/-- Timers. -/
theorem test_timers_are_due : Due timerTurn (.monitorGrant 1 5) { waits (.colour 5 0) with monitors := [mon [⟨t0, 1, 0, none, none⟩] []] } ∧ Due timerTurn (.colourRequestRetry t0) retries ∧
    Due timerTurn (.colourWaitTimeout t0) { waits (.colour 5 0) with monitors := [mon [⟨t0, 1, 0, none, none⟩] []] } ∧ Due timerTurn (.colourWaitTimeout t0) retries ∧
    Due timerTurn (.cwaitTimeout t0) { waits (.cond 5) with monitors := [mon [] [⟨t0, 1, 0, some 1, some 9⟩]] } ∧ Due timerTurn (.watchdog t0) (waits .resource) ∧
    Due timerTurn (.sleepExpiry t0) (waits (.sleep 9)) ∧ Due timerTurn (.spawnOverflow t0) (waits .push) ∧ Due timerTurn .haltWake (waits .halt) ∧
    Due timerTurn .reedHoldTimeout { lab { wg with mx := { wg.mx with reed := ⟨some 0, 0, [], 0⟩ } } th with now := 2 ^ 40, unit_ := 1 } :=
  ⟨⟨_, rfl, _, _, _, rfl, rfl, rfl⟩, ⟨_, rfl, _, _, _, rfl, rfl, fun r h => by cases h; decide⟩,
    ⟨_, rfl, _, wg, 5, 0, 0, by decide +kernel, .inl ⟨waits_free _, by decide +kernel⟩⟩, ⟨_, rfl, _, wg, 5, 0, 0, by decide +kernel, .inr ⟨⟨rfl, rfl, rfl, free_of rfl⟩, _, _, rfl⟩⟩,
    ⟨_, rfl, _, _, 9, rfl, rfl, by decide +kernel⟩, ⟨_, rfl, _, wg, _, 0, waits_free _, rfl, rfl, by decide +kernel⟩, ⟨_, rfl, _, 9, rfl, rfl, by decide +kernel⟩,
    ⟨_, rfl, _, wg, 0, waits_free _, rfl, by decide +kernel⟩, ⟨_, rfl, trivial⟩, ⟨_, rfl, _, 0, rfl, rfl, rfl, by decide +kernel⟩⟩

/-- A load of t0 that a fill answers. -/
def load1 : OutLoad := ⟨1, t0, .global, .v 8, [⟨7, false, []⟩], false, false, none, none, 0, false, 0, none, none, none⟩

/-- A stream of lane 0 over the bytes at 0x100. -/
def stream1 : Stream := ⟨1, 1, 1, t0, 0, [t0], [t0], 0x100, 8, [4], [8], .w64, false, .ca, [], 0, 0, none, none⟩

/-- An engine operation that moves 64 bytes from 0x100 to 0x200. -/
def copy1 : EngineOp := ⟨1, 1, 1, t0, [t0], 8, .none, .copy (.global 0x200 none) (.global 0x100 none) ⟨1, 64, 0, 0⟩ .sys none, .running, [], 0, [], none, 0, false, 0, []⟩

def logged1 : LogEntry := ⟨1, 1, t0, 1, 1, 0x1000, 0x100, .store [1, 2, 3, 4] false [], .sys, .rel, 0⟩

def isLine (x : State × Nat × FLine) : Bool := match x.2.2 with
  | .line _ => true
  | .stop _ => false

theorem line_of {x : State × Nat × FLine} (h : isLine x = true) : ∃ l, x = (x.1, x.2.1, .line l) := by
  obtain ⟨s, n, a⟩ := x
  cases a with
  | line l => exact ⟨l, rfl⟩
  | stop r => exact absurd h (by simp [isLine])

def isElem (x : State × ERead) : Bool := match x.2 with
  | .data .. => true
  | .stop _ => false

theorem elem_of {x : State × ERead} (h : isElem x = true) : ∃ b p bad z, x = (x.1, .data b p bad z) := by
  obtain ⟨s, a⟩ := x
  cases a with
  | data b p bad z => exact ⟨b, p, bad, z, rfl⟩
  | stop r => exact absurd h (by simp [isElem])

def isDone (x : State × Replayed) : Bool := match x.2 with
  | .done => true
  | _ => false

theorem done_of {x : State × Replayed} (h : isDone x = true) : x = (x.1, .done) := by
  obtain ⟨s, r⟩ := x
  cases r <;> simp_all [isDone]

/-- A pair whose second part is known. -/
theorem pair_of {α β : Type} {x : α × β} {b : β} (h : x.2 = b) : x = (x.1, b) := Prod.ext rfl h

/-- Units. -/
theorem test_units_are_due : Due unitTurn (.fill 1) { one with loads := [load1] } ∧ Due unitTurn (.storeAcknowledge 1) { one with stores := [⟨1, 1, t0, 1, [(0x100, 1)], false, 0, 0, none, 0x100, none, false⟩] } ∧
    Due unitTurn (.tableWalk 1 1 0x2000 false) (waits .resource) ∧ Due unitTurn (.icacheFill 1 0) one ∧ Due unitTurn (.streamElementDelivery 1) { one with streams := [stream1] } ∧
    Due unitTurn (.broadcastWordCopyUpdate 1 1) { one with bupdates := [⟨1, 0, .set, 7, 1, 9, [1]⟩] } ∧ Due unitTurn (.engineOperationComplete 1) { one with engines := [copy1] } ∧
    Due unitTurn (.engineHandleRecheck 1) { one with engines := [copy1] } ∧ Due unitTurn (.sideLogReplay 1 t0) { one with sideLog := [logged1] } ∧ Due unitTurn .heatSweep one := by
  refine ⟨⟨_, rfl, _, _, _, rfl, rfl, rfl, by decide, rfl⟩, ⟨_, rfl, _, rfl⟩, ⟨_, rfl, by decide, by decide +kernel, ?_⟩, ⟨_, rfl, ?_⟩, ⟨_, rfl, ?_⟩, ⟨_, rfl, _, rfl⟩, ⟨_, rfl, _, _, rfl, rfl, rfl, by decide, by decide⟩,
    ⟨_, rfl, _, _, rfl, rfl, rfl, by decide, by decide⟩, ⟨_, rfl, ?_⟩, ⟨_, rfl, by decide, by decide +kernel, by decide⟩⟩
  · exact ⟨(walk (waits .resource) 1 0x2000).1, ⟨3, 0, 0, 0, 0, 0, false, false, false, false, 0, false, true, true, true⟩, 0x102000, Prod.ext rfl (by decide +kernel), by decide +kernel, by decide +kernel⟩
  · obtain ⟨l, h⟩ := line_of (x := fetchLine one wg th 0) (by decide +kernel)
    exact ⟨th, wg, _, _, l, by decide +kernel, by decide +kernel, h⟩
  · obtain ⟨b, p, bad, z, h⟩ := elem_of (x := nextElem { one with streams := [stream1] } stream1 wg t0) (by decide +kernel)
    exact ⟨stream1, wg, t0, _, b, p, bad, z, by decide +kernel, by decide +kernel, ⟨⟨rfl, rfl, rfl⟩, ⟨by decide +kernel, by decide +kernel⟩, ⟨th, by decide +kernel, by decide +kernel⟩, by decide +kernel⟩, h⟩
  · exact ⟨logged1, wg, { one with sideLog := [logged1] }, page0, 0x100, _,
      by decide +kernel, by decide +kernel, by decide +kernel, done_of (by decide +kernel)⟩

/-- A launch of one gang of one workgroup of one warp. -/
def record1 : LaunchRec := ⟨0x2000, 0x1000, 1, 1, 1, 1, 1, 64, 0, false, false, 4096, 0, 0, 0, 0, 0, 0, 0, 0, none, none⟩
def launch1 : Launch := ⟨1, 1, record1, [], none, 0, [], 0, false, false, false, 0, [], true, [], []⟩
def gang1 : Gang := ⟨1, 1, 0, 0, 0, .placed, [1], false, 0, false, none, []⟩

/-- A machine without threads, whose region has room for every core. -/
def empty : State :=
  { State.reset with
    now := 2 ^ 20, ns := 10000000000, ids := 10, contexts := [⟨1, some 0x100000, 0, 0, false, 0, []⟩], mem := tables
    regions := [⟨1, 0x1000, { reg with ringBase := 0x8000, ringBytes := 0x100000 }, true, none, 0, false⟩], launches := [launch1] }

/-- A binned entry of the launch. -/
def entry1 : DEntry := ⟨1, 0x2000, 0, 0, [⟨0x2000, [], 0, 1, 1, []⟩], 0, 0, 0, 1, 1⟩
def ranged1 : DEntry := ⟨2, 0x2000, 2, 0, [], 0, 0x100, 16, 1, 1⟩
def at1 (c : Core) (s : State) : State := { s with cores := [(1, c)], unit_ := 1 }

/-- A frozen workgroup of which a saved segment's contents are to come back. -/
def frozen1 : Workgroup := { wg with state := .frozen }

def placed1 : State := { empty with gangs := [gang1], unit_ := 1 }

theorem idle_gang : GangIdle placed1 gang1 := ⟨rfl, fun w h => absurd h List.not_mem_nil, by decide +kernel⟩

/-- Placement of gangs and entries. -/
theorem test_placement_is_due : Due placeTurn .gangPlacement empty ∧ Due placeTurn .frozenGangResume { empty with wgs := [frozen1] } ∧
    Due placeTurn .dequeEntryStart (at1 { Core.idle with deque := [entry1] } { empty with launches := [{ launch1 with taken := [0] }] }) ∧
    Due placeTurn .gangRetire { empty with gangs := [{ gang1 with state := .retiring }], unit_ := 1 } ∧ Due placeTurn .gangRetire { empty with gangs := [{ gang1 with state := .retiring, orSent := some 4 }], unit_ := 1 } ∧
    Due placeTurn .gangRetire placed1 ∧
    Due placeTurn (.dependencyWatcherPrompt 0 0x5000) { empty with watchers := [(0, 5, 1)] } ∧ Due placeTurn .dependencyRetest { empty with launches := [{ launch1 with reg := false }] } ∧
    Due placeTurn (.binTimeout 1 0) (at1 { Core.idle with bins := [⟨0x2000, 1, [], 0, false⟩] } empty) := by
  refine ⟨⟨_, rfl, rfl, rfl, ?_⟩, ⟨_, rfl, rfl, ?_⟩, ⟨_, rfl, rfl, entry1, by decide +kernel, .inl (by decide +kernel), ?_⟩, ⟨_, rfl, _, _, rfl, rfl, .inl ⟨rfl, rfl, rfl⟩⟩,
    ⟨_, rfl, _, _, rfl, rfl, .inr (.inl ⟨4, rfl, rfl, fun y h => absurd h List.not_mem_nil⟩)⟩, ⟨_, rfl, _, _, rfl, rfl, .inr (.inr idle_gang)⟩, ⟨_, rfl, _, List.mem_singleton.mpr rfl, rfl, by decide⟩,
    ⟨_, rfl, _, List.mem_singleton.mpr rfl, rfl⟩, ⟨_, rfl, _, rfl, rfl, by decide⟩⟩
  · obtain ⟨⟨S, c⟩, h⟩ := Option.isSome_iff_exists.mp (by decide +kernel : (firstPlaced empty 0 (candidates empty)).isSome = true)
    exact ⟨S, c, h, fun x h => absurd h List.not_mem_nil⟩
  · exact Option.isSome_iff_exists.mp (by decide +kernel)
  · exact ⟨_, _, rfl⟩

/-- A unit that may resume stands at the head of those frozen. -/
theorem test_unit_resumes : frozenUnits { empty with wgs := [frozen1] } 0 = [[frozen1]] ∧ canResume { empty with wgs := [frozen1] } [frozen1] [] = true := by decide +kernel

def seg1 (w : Workgroup) (f : Seg) : State := { empty with wgs := [{ w with segs := [f] }, { wg with id := 2, state := .frozen }] }

/-- A save area of one segment, of which 31 pages of 32 have been read back; the last holds nothing, or a block in error. -/
def keeper : Workgroup := { wg with rcb := { reg with saveBase := 0, saveBytes := 0x20000 } }
def broken : State := { seg1 keeper ⟨0, none, true, true, 31⟩ with blocks := [(0x7C0, { Block.plain with poison := true })] }

def savesAre (x : State × Nat × SaveRead) (n : Nat) (lost : Bool) : Bool := match x with
  | (_, m, .good) => m == n && !lost
  | (_, m, .lost) => m == n && lost
  | _ => false

theorem saves_of {x : State × Nat × SaveRead} {n : Nat} {lost : Bool} (h : savesAre x n lost = true) : x = (x.1, n, if lost then .lost else .good) := by
  obtain ⟨s, m, r⟩ := x
  cases r <;> cases lost <;> simp_all [savesAre]

/-- Stealing, segments and budgets. -/
theorem test_stealing_is_due : Due placeTurn .spillRetry (at1 { Core.idle with deque := List.replicate 256 entry1, rings := [⟨1, 0x1000, 0x8000, 0x100000, 0, 0, [], [(0x108, 0)]⟩] } empty) ∧
    Due placeTurn .stealRequest (at1 Core.idle empty) ∧ Due placeTurn .stealRequest (at1 { Core.idle with steal := .asking 1 } empty) ∧
    Due placeTurn .stealResponse (at1 { Core.idle with steal := .waiting 2 0 } empty) ∧ Due placeTurn .stealBackoffExpiry (at1 { Core.idle with steal := .backoff 9 } empty) ∧
    Due placeTurn (.segmentSaveComplete 1 3) (seg1 wg ⟨3, some 2, false, true, 0⟩) ∧ Due placeTurn (.segmentRestore 1 0 1) (seg1 keeper ⟨0, none, true, true, 31⟩) ∧ Due placeTurn (.segmentRestore 1 0 1) broken ∧
    Due placeTurn (.budgetExhausted 1 0x1000) { empty with regions := [⟨1, 0x1000, { reg with quota := 5 }, true, none, 5000, false⟩] } ∧ Due placeTurn .budgetWindowBoundary empty := by
  refine ⟨⟨_, rfl, by decide +kernel, _, pair_of (by decide +kernel)⟩, ⟨_, rfl, by decide +kernel, rfl, .inl rfl⟩, ⟨_, rfl, by decide +kernel, rfl, .inr ⟨_, rfl⟩⟩,
    ⟨_, rfl, _, _, rfl, .inr (.inr ⟨by decide +kernel, by decide +kernel⟩)⟩, ⟨_, rfl, _, rfl, by decide⟩,
    ⟨_, rfl, { wg with id := 2, state := .frozen }, _, by decide +kernel, rfl, by decide +kernel, by decide +kernel, pair_of (by decide +kernel)⟩,
    ⟨_, rfl, _, _, _, _, by rfl, saves_of (n := 32) (lost := false) (by decide +kernel), nofun⟩,
    ⟨_, rfl, _, _, _, _, by rfl, saves_of (n := 31) (lost := true) (by decide +kernel), nofun⟩, ⟨_, rfl, _, _, rfl, rfl, rfl, rfl, by decide⟩, ⟨_, rfl, by decide⟩⟩

/-- What a victim of a theft holds decides the answer: an entry, a range to split, or nothing. -/
def victim1 (c : Core) : State := at1 { Core.idle with steal := .waiting 2 0 } empty |> fun s => { s with cores := s.cores ++ [(2, c)] }
def robbed : State := victim1 { Core.idle with deque := [entry1, entry1] }
def shared1 : State := victim1 { Core.idle with ranges := [⟨1, ranged1, 0, 0⟩] }

theorem test_thefts_differ : Due placeTurn .stealResponse robbed ∧ Due placeTurn .stealResponse shared1 ∧ (stealable robbed 2 1).isSome = true ∧ (stealable shared1 2 1).isNone = true ∧
    (splittable shared1 2 1).isSome = true := by
  have r : (stealable shared1 2 1).isNone = true := by decide +kernel
  have p : (splittable shared1 2 1).isSome = true := by decide +kernel
  refine ⟨⟨_, rfl, 2, 0, rfl, .inl ⟨.queued entry1, _, entry1, _, by rfl, rfl, pair_of (by decide +kernel)⟩⟩, ⟨_, rfl, 2, 0, rfl, .inr (.inl ?_)⟩, by rfl, r, p⟩
  obtain ⟨x, hx⟩ := Option.isSome_iff_exists.mp p
  have q : ∀ e, (pushEntry shared1 1 e).2 = true := fun e => by
    have h : (getCore shared1 1).deque.length < Config.dequeEntries := by decide
    rw [pushEntry, if_pos h]
  exact ⟨x, _, Option.isNone_iff_eq_none.mp r, hx, pair_of (q _)⟩

def service1 (monitor : Bool) (n : Byte) : State := { one with unit_ := 1, services := [⟨1, monitor, n, 0, 0, [t0], none⟩] }
def asked (pri : Bool) : State := { empty with links := [{ Link.reset with fsvca := 0x9000, atsReqs := [⟨1, 1, 9, 0, 5, pri⟩] }, Link.reset], faults := [⟨0, 1, 9, true, 0x9008, none⟩] }

/-- FaultAnswers: page 9 is mapped now, so that its retry ends the fault; page 16 MiB is not. -/
theorem test_answers_are_due : Due faultTurn (.fsvcbRetry 0 1) (asked true) ∧ Due faultTurn (.fsvcbCancelPage 0 1) (asked true) ∧ Due faultTurn (.fsvcbCancelPasid 0 1) (asked true) ∧
    Due faultTurn (.priResponse 0 1 9 true) (asked true) ∧ Due faultTurn (.atsCompletion 0 1 none) (asked false) ∧ Due faultTurn (.atsCompletionTimeout 0 1) (asked false) ∧
    Due faultTurn (.atsInvalidationRequest 0 1 9) State.reset ∧ Due faultTurn (.pstopGo 0 1) empty ∧ Due faultTurn .fwcallAnswer (service1 false 0) ∧ Due faultTurn .moncallAnswer (service1 true 1) ∧
    (asked false).contexts.map (fun c => (c.gen, pasidGen (asked false) 1)) = [(0, 0)] ∧ (walk (asked true) 1 0x9000).2 ≠ .unmapped ∧ (walk (asked true) 1 (2 ^ 50)).2 = .unmapped := by
  refine ⟨⟨_, rfl, _, rfl⟩, ⟨_, rfl, _, List.mem_singleton.mpr rfl, rfl, by decide +kernel⟩, ⟨_, rfl, _, List.mem_singleton.mpr rfl, rfl⟩, ⟨_, rfl, _, rfl⟩, ⟨_, rfl, _, rfl⟩, ⟨_, rfl, _, rfl⟩, ⟨_, rfl, trivial⟩,
    ⟨_, rfl, by decide +kernel, _, rfl⟩, ⟨_, rfl, _, rfl⟩, ⟨_, rfl, _, _, _, rfl, rfl⟩, by decide +kernel, by decide +kernel, by decide +kernel⟩

/-- ThreadAgentsComplete: a thread that holds no colour, and one in its handler above whose frame it holds none; the other clauses have their cases above, in Timers. -/
def ending : Thread := { th with pl := 1, depth := 3, trap := { TrapState.clear with inh := true, depth := 2, pc := 0x20, pl := 0 } }
theorem test_thread_agents_occur : Solo (lab wg ending) always ending wg ∧ dualCause (lab wg ending) wg = [] ∧ ending.held = [] ∧ 1 ≤ ending.pl ∧ ending.trap.inh = true ∧
    coloursAbove ending ending.trap.depth = [] :=
  ⟨a_solo rfl rfl rfl (by decide +kernel) rfl, by decide +kernel, rfl, by decide, rfl, rfl⟩

/-- UnitAgentsComplete and PlacingAgentsComplete: what their clauses ask beside the cases above, in Units, FaultAnswers and Placement. -/
theorem test_agents_occur : load1.dead = false ∧ th.run ≠ .killed ∧ wg.state ≠ .killed ∧ wg.state ≠ .ended ∧ ((asked false).links.map fun l => l.atsReqs.map fun r => decide (r.gen = pasidGen (asked false) r.pasid)) = [[true], []] ∧
    bits (getLink empty 0).pstat.toNat 21 20 ≠ 1 ∧ (getCtx empty 1).isSome = true ∧ (firstPlaced (at1 { Core.idle with deque := [entry1] } { empty with launches := [{ launch1 with taken := [0] }] }) 0
      (candidates (at1 { Core.idle with deque := [entry1] } { empty with launches := [{ launch1 with taken := [0] }] }))).isNone = true := by
  refine ⟨rfl, by decide, by decide, by decide, by decide +kernel, by decide +kernel, rfl, by decide +kernel⟩

/-! ## Decoding: a word for every kind of instruction, written out from the encoding tables -/

/-- The word decodes to the instruction, which is well formed and encodes as the word. -/
def reads (x : Word × List Word × Instr) : Bool := (match decodeWord x.1 x.2.1 with
  | .ok i => i == x.2.2
  | .error _ => false) && WellFormed x.2.2 && encode x.2.2 == some x.1

/-- Integer words, each written out field by field from the tables of R264 to R275 and of its instruction. -/
def wordsInteger : List (Word × List Word × Instr) :=
  [(0x007A3D1CA3947000, [], .nop ⟨false, 7⟩),
   (0x017A3410A3947200, [], .mov ⟨⟨false, 7⟩, .lr, ⟨.g 4, false, false⟩⟩ true),
   (0x02A0300802147380, [], .iadd ⟨⟨true, 2⟩, .v 6, ⟨.v 2, false, false⟩, ⟨.v 4, false, false⟩⟩ true true true),
   (0x03703008AF947080, [], .isub ⟨⟨false, 7⟩, .v 6, ⟨.v 2, false, false⟩, ⟨.int 15, false, false⟩⟩ false false true),
   (0x0470400002147203, [], .iaddc ⟨⟨false, 7⟩, .v 8, ⟨.v 0, false, false⟩, ⟨.v 4, false, false⟩⟩ 3 true),
   (0x057A3D2A03B47006, [], .isubb ⟨⟨false, 7⟩, .zero, ⟨.q 2, true, false⟩, ⟨.v 7, false, true⟩⟩ 6 false),
   (0x06703008A3947080, [], .ineg ⟨⟨false, 7⟩, .v 6, ⟨.v 2, false, false⟩⟩ false true),
   (0x07703008A3947200, [], .iabs ⟨⟨false, 7⟩, .v 6, ⟨.v 2, false, false⟩⟩ true false),
   (0x08703008B7147000, [], .imul ⟨⟨false, 7⟩, .v 6, ⟨.v 2, false, false⟩, ⟨.cst 14, false, false⟩⟩ false),
   (0x0970300802147300, [], .imulhi ⟨⟨false, 7⟩, .v 6, ⟨.v 2, false, false⟩, ⟨.v 4, false, false⟩⟩ true true),
   (0x0A70300802008000, [], .imad ⟨⟨false, 7⟩, .v 6, ⟨.v 2, false, false⟩, ⟨.v 4, false, false⟩, ⟨.v 8, false, false⟩⟩ false),
   (0x0B7A080802147100, [], .idiv ⟨⟨false, 7⟩, .o 1, ⟨.v 2, false, false⟩, ⟨.v 4, false, false⟩⟩ false true),
   (0x0C70300802147200, [], .irem ⟨⟨false, 7⟩, .v 6, ⟨.v 2, false, false⟩, ⟨.v 4, false, false⟩⟩ true false),
   (0x0D70300802147100, [], .imin ⟨⟨false, 7⟩, .v 6, ⟨.v 2, false, false⟩, ⟨.v 4, false, false⟩⟩ false true),
   (0x0E781508A3147200, [], .imax ⟨⟨false, 7⟩, .g 2, ⟨.o 2, false, false⟩, ⟨.lr, false, false⟩⟩ true false),
   (0x0F7C101404947104, [], .icmp ⟨⟨false, 7⟩, 2, ⟨.v 5, false, false⟩, ⟨.v 9, false, false⟩⟩ .gt false true),
   (0x1070300802147200, [], .and ⟨⟨false, 7⟩, .v 6, ⟨.v 2, false, false⟩, ⟨.v 4, false, false⟩⟩ true),
   (0x1170300802147000, [], .or ⟨⟨false, 7⟩, .v 6, ⟨.v 2, false, false⟩, ⟨.v 4, false, false⟩⟩ false),
   (0x1230300802147000, [], .xor ⟨⟨false, 3⟩, .v 6, ⟨.v 2, false, false⟩, ⟨.v 4, false, false⟩⟩ false),
   (0x13703008A3947200, [], .not ⟨⟨false, 7⟩, .v 6, ⟨.v 2, false, false⟩⟩ true),
   (0x1470300802147000, [], .andn ⟨⟨false, 7⟩, .v 6, ⟨.v 2, false, false⟩, ⟨.v 4, false, false⟩⟩ false),
   (0x15703008020082CA, [], .bool3 ⟨⟨false, 7⟩, .v 6, ⟨.v 2, false, false⟩, ⟨.v 4, false, false⟩, ⟨.v 8, false, false⟩⟩ 0xCA true),
   (0x1670300802947200, [], .shl ⟨⟨false, 7⟩, .v 6, ⟨.v 2, false, false⟩, ⟨.v 5, false, false⟩⟩ true),
   (0x1770300802147000, [], .shr ⟨⟨false, 7⟩, .v 6, ⟨.v 2, false, false⟩, ⟨.v 4, false, false⟩⟩ false),
   (0x1870300802147200, [], .shra ⟨⟨false, 7⟩, .v 6, ⟨.v 2, false, false⟩, ⟨.v 4, false, false⟩⟩ true),
   (0x1970300802147000, [], .rotl ⟨⟨false, 7⟩, .v 6, ⟨.v 2, false, false⟩, ⟨.v 4, false, false⟩⟩ false),
   (0x1A70300802008001, [], .funnel ⟨⟨false, 7⟩, .v 6, ⟨.v 2, false, false⟩, ⟨.v 4, false, false⟩, ⟨.v 8, false, false⟩⟩ true false),
   (0x1B70300802947300, [], .bfe ⟨⟨false, 7⟩, .v 6, ⟨.v 2, false, false⟩, ⟨.v 5, false, false⟩⟩ true true),
   (0x1C70300802009200, [], .bfi ⟨⟨false, 7⟩, .v 6, ⟨.v 2, false, false⟩, ⟨.v 4, false, false⟩, ⟨.v 9, false, false⟩⟩ true),
   (0x1D703008A3947200, [], .popc ⟨⟨false, 7⟩, .v 6, ⟨.v 2, false, false⟩⟩ true),
   (0x1E703008A3947000, [], .clz ⟨⟨false, 7⟩, .v 6, ⟨.v 2, false, false⟩⟩ false),
   (0x1F703008A3947000, [], .ctz ⟨⟨false, 7⟩, .v 6, ⟨.v 2, false, false⟩⟩ false),
   (0x20703008A3947200, [], .brev ⟨⟨false, 7⟩, .v 6, ⟨.v 2, false, false⟩⟩ true),
   (0x2170300802008000, [], .bpick ⟨⟨false, 7⟩, .v 6, ⟨.v 2, false, false⟩, ⟨.v 4, false, false⟩, ⟨.v 8, false, false⟩⟩),
   (0x2270300802947105, [], .lea ⟨⟨false, 7⟩, .v 6, ⟨.v 2, false, false⟩, ⟨.v 5, false, false⟩⟩ 5 true),
   (0x237030080214700A, [], .sel ⟨⟨false, 7⟩, .v 6, ⟨.v 2, false, false⟩, ⟨.v 4, false, false⟩⟩ 2 true false),
   (0x2470300802147180, [], .vadd2 ⟨⟨false, 7⟩, .v 6, ⟨.v 2, false, false⟩, ⟨.v 4, false, false⟩⟩ true true),
   (0x2570300802147080, [], .vsub2 ⟨⟨false, 7⟩, .v 6, ⟨.v 2, false, false⟩, ⟨.v 4, false, false⟩⟩ false true),
   (0x2670300802147100, [], .vmin2 ⟨⟨false, 7⟩, .v 6, ⟨.v 2, false, false⟩, ⟨.v 4, false, false⟩⟩ true),
   (0x2770300802147000, [], .vmax2 ⟨⟨false, 7⟩, .v 6, ⟨.v 2, false, false⟩, ⟨.v 4, false, false⟩⟩ false),
   (0x2870300802008005, [], .acsel2 ⟨⟨false, 7⟩, .v 6, ⟨.v 2, false, false⟩, ⟨.v 4, false, false⟩, ⟨.v 8, false, false⟩⟩ 5),
   (0x2970300802008100, [], .dot4 ⟨⟨false, 7⟩, .v 6, ⟨.v 2, false, false⟩, ⟨.v 4, false, false⟩, ⟨.v 8, false, false⟩⟩ true false),
   (0x2A70300802008080, [], .dot2 ⟨⟨false, 7⟩, .v 6, ⟨.v 2, false, false⟩, ⟨.v 4, false, false⟩, ⟨.v 8, false, false⟩⟩ false true),
   (0x2B703008A3947092, [], .cvti ⟨⟨false, 7⟩, .v 6, ⟨.v 2, false, false⟩⟩ .w32 .w8 true false true),
   (0x2B703008A3947107, [], .cvti ⟨⟨false, 7⟩, .v 6, ⟨.v 2, false, false⟩⟩ .w64 .w16 false true false)]

theorem test_decode_Integer : wordsInteger.all reads = true ∧ wordsInteger ≠ [] := ⟨by decide +kernel, nofun⟩


/-- Float words, each written out field by field from the tables of R264 to R275 and of its instruction. -/
def wordsFloat : List (Word × List Word × Instr) :=
  [(0x307030080214710C, [], .fadd ⟨⟨false, 7⟩, .v 6, ⟨.v 2, false, false⟩, ⟨.v 4, false, false⟩⟩ ⟨false, true, false, false, false, .f16, .rs⟩),
   (0x31703008021470A2, [], .fsub ⟨⟨false, 7⟩, .v 6, ⟨.v 2, false, false⟩, ⟨.v 4, false, false⟩⟩ ⟨false, false, true, false, true, .f32, .ru⟩),
   (0x32703008B7147053, [], .fmul ⟨⟨false, 7⟩, .v 6, ⟨.v 2, false, false⟩, ⟨.cst 14, false, false⟩⟩ ⟨false, false, false, true, false, .bf16, .rd⟩),
   (0x3370300802008201, [], .ffma ⟨⟨false, 7⟩, .v 6, ⟨.v 2, false, false⟩, ⟨.v 4, false, false⟩, ⟨.v 8, false, false⟩⟩ ⟨true, false, false, false, false, .f32, .rz⟩),
   (0x3470300802147020, [], .fmin ⟨⟨false, 7⟩, .v 6, ⟨.v 2, false, false⟩, ⟨.v 4, false, false⟩⟩ ⟨false, false, false, false, true, .f32, .rn⟩),
   (0x3570300802147010, [], .fmax ⟨⟨false, 7⟩, .v 6, ⟨.v 2, false, false⟩, ⟨.v 4, false, false⟩⟩ ⟨false, false, false, false, false, .bf16, .rn⟩),
   (0x3670300802147100, [], .fminp ⟨⟨false, 7⟩, .v 6, ⟨.v 2, false, false⟩, ⟨.v 4, false, false⟩⟩ ⟨false, true, false, false, false, .f32, .rn⟩),
   (0x3770300802147048, [], .fmaxp ⟨⟨false, 7⟩, .v 6, ⟨.v 2, false, false⟩, ⟨.v 4, false, false⟩⟩ ⟨false, false, false, true, false, .f16, .rn⟩),
   (0x387C20080214702F, [], .fcmp ⟨⟨false, 7⟩, 4, ⟨.v 2, false, false⟩, ⟨.v 4, false, false⟩⟩ .nan ⟨false, false, false, false, true, .f16, .rn⟩),
   (0x39703008A3947010, [], .fclass ⟨⟨false, 7⟩, .v 6, ⟨.v 2, false, false⟩⟩ .bf16),
   (0x3A70300802147008, [], .fcopysgn ⟨⟨false, 7⟩, .v 6, ⟨.v 2, false, false⟩, ⟨.v 4, false, false⟩⟩ .f16),
   (0x3B703008A394704B, [], .frnd ⟨⟨false, 7⟩, .v 6, ⟨.v 2, false, false⟩⟩ ⟨false, false, false, true, false, .f16, .rd⟩),
   (0x3C70300802147141, [], .fdiv ⟨⟨false, 7⟩, .v 6, ⟨.v 2, false, false⟩, ⟨.v 4, false, false⟩⟩ ⟨false, true, false, true, false, .f32, .rz⟩),
   (0x3D703008A3947000, [], .fsqrt ⟨⟨false, 7⟩, .v 6, ⟨.v 2, false, false⟩⟩ ⟨false, false, false, false, false, .f32, .rn⟩),
   (0x3E703008A3947041, [], .frcp ⟨⟨false, 7⟩, .v 6, ⟨.v 2, false, false⟩⟩ ⟨false, false, false, true, false, .f32, .rz⟩),
   (0x3F703008A3947002, [], .frsq ⟨⟨false, 7⟩, .v 6, ⟨.v 2, false, false⟩⟩ ⟨false, false, false, false, false, .f32, .ru⟩),
   (0x40703008A3947043, [], .fexp2 ⟨⟨false, 7⟩, .v 6, ⟨.v 2, false, false⟩⟩ ⟨false, false, false, true, false, .f32, .rd⟩),
   (0x41703008A3947024, [], .flog2 ⟨⟨false, 7⟩, .v 6, ⟨.v 2, false, false⟩⟩ ⟨false, false, false, false, true, .f32, .rs⟩),
   (0x42703008A3947060, [], .fsinpi ⟨⟨false, 7⟩, .v 6, ⟨.v 2, false, false⟩⟩ ⟨false, false, false, true, true, .f32, .rn⟩),
   (0x43703008A3947021, [], .fcospi ⟨⟨false, 7⟩, .v 6, ⟨.v 2, false, false⟩⟩ ⟨false, false, false, false, true, .f32, .rz⟩),
   (0x44703008A3947062, [], .ftanh ⟨⟨false, 7⟩, .v 6, ⟨.v 2, false, false⟩⟩ ⟨false, false, false, true, true, .f32, .ru⟩),
   (0x457030080214700A, [], .hadd2 ⟨⟨false, 7⟩, .v 6, ⟨.v 2, false, false⟩, ⟨.v 4, false, false⟩⟩ ⟨false, false, false, false, false, .f16, .ru⟩),
   (0x4670300802147110, [], .hmul2 ⟨⟨false, 7⟩, .v 6, ⟨.v 2, false, false⟩, ⟨.v 4, false, false⟩⟩ ⟨false, true, false, false, false, .bf16, .rn⟩),
   (0x477030080200820C, [], .hfma2 ⟨⟨false, 7⟩, .v 6, ⟨.v 2, false, false⟩, ⟨.v 4, false, false⟩, ⟨.v 8, false, false⟩⟩ ⟨true, false, false, false, false, .f16, .rs⟩),
   (0x4870300802147010, [], .hmin2 ⟨⟨false, 7⟩, .v 6, ⟨.v 2, false, false⟩, ⟨.v 4, false, false⟩⟩ ⟨false, false, false, false, false, .bf16, .rn⟩),
   (0x4970300802147088, [], .hmax2 ⟨⟨false, 7⟩, .v 6, ⟨.v 2, false, false⟩, ⟨.v 4, false, false⟩⟩ ⟨false, false, true, false, false, .f16, .rn⟩),
   (0x4A70300802008011, [], .hdot2 ⟨⟨false, 7⟩, .v 6, ⟨.v 2, false, false⟩, ⟨.v 4, false, false⟩, ⟨.v 8, false, false⟩⟩ ⟨false, false, false, false, false, .bf16, .rz⟩),
   (0x4B70300802147023, [], .dadd ⟨⟨false, 7⟩, .v 6, ⟨.v 2, false, false⟩, ⟨.v 4, false, false⟩⟩ ⟨false, false, false, false, true, .f32, .rd⟩),
   (0x4C70300802147100, [], .dmul ⟨⟨false, 7⟩, .v 6, ⟨.v 2, false, false⟩, ⟨.v 4, false, false⟩⟩ ⟨false, true, false, false, false, .f32, .rn⟩),
   (0x4D70300802008202, [], .dfma ⟨⟨false, 7⟩, .v 6, ⟨.v 2, false, false⟩, ⟨.v 4, false, false⟩, ⟨.v 8, false, false⟩⟩ ⟨true, false, false, false, false, .f32, .ru⟩),
   (0x4E703008A3947008, [], .fcvt ⟨⟨false, 7⟩, .v 6, ⟨.v 2, false, false⟩⟩ .b16 .b32 .rn),
   (0x4E703008A3947059, [], .fcvt ⟨⟨false, 7⟩, .v 6, ⟨.v 2, false, false⟩⟩ .b64 .bf16 .rz),
   (0x4F703008A3947039, [], .f2i ⟨⟨false, 7⟩, .v 6, ⟨.v 2, false, false⟩⟩ .b64 .rz true false),
   (0x4F703008A394704A, [], .f2i ⟨⟨false, 7⟩, .v 6, ⟨.v 2, false, false⟩⟩ .b16 .ru false true),
   (0x50703008A3947053, [], .i2f ⟨⟨false, 7⟩, .v 6, ⟨.v 2, false, false⟩⟩ .bf16 .rd false true),
   (0x50703008A3947024, [], .i2f ⟨⟨false, 7⟩, .v 6, ⟨.v 2, false, false⟩⟩ .b32 .rs true false),
   (0x5170300882147000, [], .cvtq ⟨⟨false, 7⟩, .v 6, ⟨.v 2, false, false⟩, ⟨.g 4, false, false⟩⟩ false),
   (0x5270300802147001, [], .cvtdq ⟨⟨false, 7⟩, .v 6, ⟨.v 2, false, false⟩, ⟨.v 4, false, false⟩⟩ true),
   (0x5370300802147028, [], .amax ⟨⟨false, 7⟩, .v 6, ⟨.v 2, false, false⟩, ⟨.v 4, false, false⟩⟩ .f16 true)]

theorem test_decode_Float : wordsFloat.all reads = true ∧ wordsFloat ≠ [] := ⟨by decide +kernel, nofun⟩


/-- CrossLane words, each written out field by field from the tables of R264 to R275 and of its instruction. -/
def wordsCrossLane : List (Word × List Word × Instr) :=
  [(0x6070300802947201, [], .lanex ⟨⟨false, 7⟩, .v 6, ⟨.v 2, false, false⟩⟩ .rel (.reg ⟨.v 5, false, false⟩) true),
   (0x60703008A394705F, [], .lanex ⟨⟨false, 7⟩, .v 6, ⟨.v 2, false, false⟩⟩ .rot (.width 3 true) false),
   (0x6170300802947000, [], .bcastl ⟨⟨false, 7⟩, .v 6, ⟨.v 2, false, false⟩⟩ (some ⟨.v 5, false, false⟩) false),
   (0x61703008A3947201, [], .bcastl ⟨⟨false, 7⟩, .v 6, ⟨.v 2, false, false⟩⟩ none true),
   (0x627C151CA394701D, [], .pcensus ⟨false, 7⟩ (.any 2) 5 true),
   (0x627C351CA3947001, [], .pcensus ⟨false, 7⟩ (.all 6) 1 false),
   (0x627C051CA3947023, [], .pcensus ⟨false, 7⟩ (.same 0) 3 false),
   (0x6270451CA3947031, [], .pcensus ⟨false, 7⟩ (.mask (.v 8)) 1 false),
   (0x62781D1CA3947042, [], .pcensus ⟨false, 7⟩ (.count (.g 3)) 2 false),
   (0x63703008A3947201, [], .matchL ⟨⟨false, 7⟩, .v 6, ⟨.v 2, false, false⟩⟩ true true),
   (0x64703008A3947041, [], .redls ⟨⟨false, 7⟩, .v 6, ⟨.v 2, false, false⟩⟩ .fadd .rz false false),
   (0x64703008A3947308, [], .redls ⟨⟨false, 7⟩, .v 6, ⟨.v 2, false, false⟩⟩ .min .rn true true),
   (0x6570300802147006, [], .redidx ⟨⟨false, 7⟩, .v 6, ⟨.v 2, false, false⟩, ⟨.v 4, false, false⟩⟩ true true false),
   (0x6570300802147101, [], .redidx ⟨⟨false, 7⟩, .v 6, ⟨.v 2, false, false⟩, ⟨.v 4, false, false⟩⟩ false false true),
   (0x66703008A39472E0, [], .scan ⟨⟨false, 7⟩, .v 6, ⟨.v 2, false, false⟩⟩ .fmaxp .rn false true true),
   (0x677C1D44AB954055, [], .pbool3 ⟨false, 7⟩ 3 1 7 4 0x55),
   (0x6870351C0494720A, [], .ptov ⟨⟨false, 7⟩, .v 6, ⟨.zero, false, false⟩, ⟨.v 9, false, false⟩⟩ 2 1 true),
   (0x697C101004947018, [], .vtop ⟨⟨false, 7⟩, 2, ⟨.v 4, false, false⟩, ⟨.v 9, false, false⟩⟩ 3 false),
   (0x6A78251CA3947000, [], .actmask ⟨false, 7⟩ (.g 4))]

theorem test_decode_CrossLane : wordsCrossLane.all reads = true ∧ wordsCrossLane ≠ [] := ⟨by decide +kernel, nofun⟩


/-- Control words, each written out field by field from the tables of R264 to R275 and of its instruction. -/
def wordsControl : List (Word × List Word × Instr) :=
  [(0x7070051CFFFFFFF0, [], .bra ⟨false, 7⟩ .always ⟨.zero, false, false⟩ 0xFFFFFFF0),
   (0x7096001000000020, [], .bra ⟨true, 1⟩ .z64 ⟨.v 4, false, false⟩ 0x20),
   (0x7072001400000008, [], .bra ⟨false, 7⟩ .z ⟨.v 5, false, false⟩ 8),
   (0x7075001000000008, [], .bra ⟨false, 7⟩ .nz64 ⟨.v 4, false, false⟩ 8),
   (0x7170001000000040, [], .brx ⟨false, 7⟩ false ⟨.v 4, false, false⟩ 0x40),
   (0x7171001400000040, [], .brx ⟨false, 7⟩ true ⟨.v 5, false, false⟩ 0x40),
   (0x7270051C00000018, [], .call ⟨false, 7⟩ 0x18),
   (0x73710414FFFFFFF8, [], .callx ⟨false, 7⟩ true ⟨.g 5, false, false⟩ 0xFFFFFFF8),
   (0x7370041800000008, [], .callx ⟨false, 7⟩ false ⟨.g 6, false, false⟩ 8),
   (0x747A3D1CA3947000, [], .ret ⟨false, 7⟩),
   (0x757A3D1CA39470FF, [], .retn ⟨false, 7⟩ 255),
   (0x769A3D1CA3947000, [], .exit ⟨true, 1⟩),
   (0x777A3D1CA3947000, [], .yield ⟨false, 7⟩),
   (0x787A380FA3947000, [], .sleep ⟨false, 7⟩ ⟨.v 3, true, true⟩),
   (0x797A3D1CA3947000, [], .bkpt ⟨false, 7⟩),
   (0x7A7A3D1CA39473FF, [], .trap ⟨false, 7⟩ 0x3FF)]

theorem test_decode_Control : wordsControl.all reads = true ∧ wordsControl ≠ [] := ⟨by decide +kernel, nofun⟩


/-- Memory words, each written out field by field from the tables of R264 to R275 and of its instruction. -/
def wordsMemory : List (Word × List Word × Instr) :=
  [(0x8070A408C93FFFFC, [], .ld ⟨⟨false, 7⟩, .v 20, ⟨.g 2, false, false⟩, .sys, .acq, .by, .w16, true, 0xffffc⟩),
   (0x80708018B687FFF0, [], .ld ⟨⟨false, 7⟩, .v 16, ⟨.v 6, false, false⟩, .dev, .sc, .st, .w128, false, 0x7fff0⟩),
   (0x817035108E780000, [], .st ⟨⟨false, 7⟩, ⟨.v 6, false, true⟩, ⟨.o 4, false, false⟩, .die, .rel, .st, .w64, 0x80000⟩),
   (0x8270380C00100005, [], .lds ⟨⟨false, 7⟩, .v 7, ⟨.v 3, false, false⟩, .thr, .plain, .ca, .w8, true, 0x5⟩),
   (0x8370451C44800100, [], .sts ⟨⟨false, 7⟩, ⟨.v 8, false, false⟩, ⟨.zero, false, false⟩, .wg, .rlx, .ca, .w128, 0x100⟩),
   (0x84703C0C68400008, [], .ldcl ⟨⟨false, 7⟩, .v 7, ⟨.g 3, false, false⟩, .cl, .acq, .ca, .w32, false, 0x8⟩),
   (0x8570480C74500008, [], .stcl ⟨⟨false, 7⟩, ⟨.v 9, false, true⟩, ⟨.v 3, false, false⟩, .cl, .sc, .ca, .w32, 0x8⟩),
   (0x8670381000200020, [], .ldbd ⟨⟨false, 7⟩, .v 7, ⟨.v 4, false, false⟩, .thr, .plain, .ca, .w16, false, 0x20⟩),
   (0x8770381000300020, [], .stbd ⟨⟨false, 7⟩, ⟨.v 7, false, true⟩, ⟨.v 4, false, false⟩, .thr, .plain, .ca, .w16, 0x20⟩),
   (0x887A3810020FFFC0, [], .pref ⟨false, 7⟩ ⟨.v 4, false, false⟩ .st 0xFFFC0),
   (0x897A381000000040, [], .cinval ⟨false, 7⟩ (some ⟨.v 4, false, false⟩) 64),
   (0x897A3D1C00200000, [], .cinval ⟨false, 7⟩ none 0),
   (0x8A7A380C02005000, [], .smap ⟨false, 7⟩ ⟨.v 3, false, false⟩ ⟨.v 4, false, false⟩ ⟨.v 5, false, false⟩),
   (0x8B7A380CA3947000, [], .sunmap ⟨false, 7⟩ ⟨.v 3, false, false⟩),
   (0x8C7A380CA3947000, [], .swb ⟨false, 7⟩ (some ⟨.v 3, false, false⟩)),
   (0x8C7A3D1CA3947000, [], .swb ⟨false, 7⟩ none),
   (0x8D703010040FFF41, [], .atom ⟨⟨false, 7⟩, .v 6, ⟨.v 4, false, false⟩, ⟨.v 8, false, false⟩, .s64, 0xff, .sys, .acqrel, .min⟩),
   (0x8D7038100499FEA7, [], .atom ⟨⟨false, 7⟩, .v 7, ⟨.v 4, false, false⟩, ⟨.v 9, false, false⟩, .bf16x2, 0x7f, .dev, .acq, .load⟩),
   (0x8E7030100400A2D5, [], .atomcas ⟨⟨false, 7⟩, .v 6, ⟨.v 4, false, false⟩, ⟨.v 8, false, false⟩, ⟨.v 10, false, false⟩, .f64, .dev, .sc⟩),
   (0x8F7A381004900A32, [], .red ⟨⟨false, 7⟩, .zero, ⟨.v 4, false, false⟩, ⟨.v 9, false, false⟩, .f32, 0x2, .die, .rel, .max⟩),
   (0x9070301404800D15, [], .atoms ⟨⟨false, 7⟩, .v 6, ⟨.v 5, false, false⟩, ⟨.v 9, false, false⟩, .u32, 0x3, .wg, .rlx, .xor⟩),
   (0x917A3D1CD0000000, [], .fence ⟨false, 7⟩ .acqrel .sys),
   (0x922A3D1CA3947000, [], .bar ⟨false, 2⟩),
   (0x93703008A3947242, [], .barp ⟨⟨false, 7⟩, .v 6, ⟨.v 2, false, false⟩⟩ .fadd .ru false true),
   (0x947A3D1CA3947000, [], .gbar ⟨false, 7⟩),
   (0x957A3D1CA3947000, [], .ckpt ⟨false, 7⟩)]

theorem test_decode_Memory : wordsMemory.all reads = true ∧ wordsMemory ≠ [] := ⟨by decide +kernel, nofun⟩


/-- Engines words, each written out field by field from the tables of R264 to R275 and of its instruction. -/
def wordsEngines : List (Word × List Word × Instr) :=
  [(0xA0703020058031B0, [], .copy ⟨⟨false, 7⟩, .v 6, ⟨.v 8, false, false⟩, ⟨.v 11, false, false⟩, ⟨.v 3, false, false⟩, true, true, false, .sys, .g2g⟩),
   (0xA07A382405003011, [], .copy ⟨⟨false, 7⟩, .zero, ⟨.v 9, false, false⟩, ⟨.v 10, false, false⟩, ⟨.v 3, false, false⟩, false, false, false, .wg, .g2s⟩),
   (0xA170354C05003004, [tableFollow], .copym ⟨⟨false, 7⟩, .v 6, ⟨.int 3, false, false⟩, ⟨.v 10, false, false⟩, ⟨.v 3, false, false⟩, false, false, false, .thr, .g2o⟩),
   (0xA27030240500C029, [], .gather ⟨⟨false, 7⟩, .v 6, ⟨.v 9, false, false⟩, ⟨.v 10, false, false⟩, ⟨.v 12, false, false⟩, false, false, false, .dev, .g2s⟩),
   (0xA37030240580C06A, [], .scatter ⟨⟨false, 7⟩, .v 6, ⟨.v 9, false, false⟩, ⟨.v 11, false, false⟩, ⟨.v 12, false, false⟩, false, false, true, .dev, .s2g⟩),
   (0xA470300C02947001, [], .remq ⟨⟨false, 7⟩, .v 6, ⟨.v 3, false, false⟩, ⟨.v 5, false, false⟩⟩ true),
   (0xA47A380C02947000, [], .remq ⟨⟨false, 7⟩, .zero, ⟨.v 3, false, false⟩, ⟨.v 5, false, false⟩⟩ false),
   (0xA5703008A3947001, [], .rqpop ⟨⟨false, 7⟩, .v 6, ⟨.v 2, false, false⟩⟩ true),
   (0xA670302005803255, [], .xred ⟨⟨false, 7⟩, .v 6, ⟨.v 8, false, false⟩, ⟨.v 11, false, false⟩, ⟨.v 3, false, false⟩⟩ true .u64 .xor .die),
   (0xA77A3828A3947273, [], .strm ⟨false, 7⟩ ⟨.v 10, false, false⟩ .st 1 true .w32 3),
   (0xA87A3D1CA3947006, [], .strmx ⟨false, 7⟩ 6),
   (0xA97C1020A3947000, [], .tchk ⟨false, 7⟩ 2 ⟨.v 8, false, false⟩)]

theorem test_decode_Engines : wordsEngines.all reads = true ∧ wordsEngines ≠ [] := ⟨by decide +kernel, nofun⟩


/-- MatrixWords words, each written out field by field from the tables of R264 to R275 and of its instruction. -/
def wordsMatrixWords : List (Word × List Word × Instr) :=
  [(0xB07A3820A3947000, [], .tcfg ⟨false, 7⟩ ⟨.v 8, false, false⟩),
   (0xB17C1D48A8947001, [], .oclaim ⟨⟨false, 7⟩, 3, ⟨.int 2, false, false⟩, ⟨.int 1, false, false⟩⟩ true),
   (0xB27A380C02947000, [], .orel ⟨false, 7⟩ ⟨.v 3, false, false⟩ ⟨.v 5, false, false⟩),
   (0xB3703540A8952000, [], .mma ⟨⟨false, 7⟩, .v 6, ⟨.int 0, false, false⟩, ⟨.int 1, false, false⟩, ⟨.int 2, false, false⟩⟩),
   (0xB47A380C02807000, [], .mmaz ⟨⟨false, 7⟩, .zero, ⟨.v 3, false, false⟩, ⟨.v 5, false, false⟩, ⟨.v 7, false, false⟩⟩),
   (0xB570300CA3807000, [], .mxt ⟨false, 7⟩ (.v 6) ⟨.v 3, false, false⟩ ⟨.v 7, false, false⟩),
   (0xB670300C02807000, [], .mperm ⟨⟨false, 7⟩, .v 6, ⟨.v 3, false, false⟩, ⟨.v 5, false, false⟩, ⟨.v 7, false, false⟩⟩),
   (0xB77A100CA3807000, [], .mrred ⟨false, 7⟩ (.o 2) ⟨.v 3, false, false⟩ ⟨.v 7, false, false⟩),
   (0xB87030200180A016, [], .accld ⟨⟨false, 7⟩, .v 6, ⟨.v 8, false, false⟩, ⟨.v 3, false, false⟩, some ⟨.v 10, false, false⟩, false, true, .dev⟩),
   (0xB97030240194700D, [], .accst ⟨⟨false, 7⟩, .v 6, ⟨.v 9, false, false⟩, ⟨.v 3, false, false⟩, none, true, false, .cl⟩),
   (0xBA70354CA3947000, [], .accz ⟨⟨false, 7⟩, .v 6, ⟨.int 3, false, false⟩⟩),
   (0xBB7A3D1CA3947000, [], .mtake ⟨false, 7⟩),
   (0xBC7A3D1CA3947000, [], .mpass ⟨false, 7⟩),
   (0xBD7A3D1CA3947000, [], .mdrop ⟨false, 7⟩),
   (0xBE783D1CA3947000, [], .mstat ⟨false, 7⟩ (.g 7))]

theorem test_decode_MatrixWords : wordsMatrixWords.all reads = true ∧ wordsMatrixWords ≠ [] := ⟨by decide +kernel, nofun⟩


/-- Tasks words, each written out field by field from the tables of R264 to R275 and of its instruction. -/
def wordsTasks : List (Word × List Word × Instr) :=
  [(0xC07A382006147000, [], .spawn ⟨false, 7⟩ none ⟨.v 8, false, false⟩ ⟨.v 12, false, false⟩),
   (0xC07C202006147001, [], .spawn ⟨false, 7⟩ (some 4) ⟨.v 8, false, false⟩ ⟨.v 12, false, false⟩),
   (0xC17C151C06147019, [], .spawnw ⟨false, 7⟩ (some 2) 9 ⟨.v 12, false, false⟩),
   (0xC27A382005003005, [], .spawnr ⟨false, 7⟩ none 5 ⟨.v 8, false, false⟩ ⟨.v 10, false, false⟩ ⟨.v 3, false, false⟩),
   (0xC370A51CA3947000, [], .tget ⟨false, 7⟩ (.v 20)),
   (0xC47A3820A3947000, [], .launch ⟨false, 7⟩ ⟨.v 8, false, false⟩),
   (0xC57A3820A394705B, [], .bwupd ⟨false, 7⟩ 11 .max true ⟨.v 8, false, false⟩),
   (0xC678251CA394704A, [], .bwrd ⟨false, 7⟩ (.g 4) 9 2),
   (0xC77C280C02947000, [], .cwait ⟨⟨false, 7⟩, 5, ⟨.v 3, false, false⟩, ⟨.v 5, false, false⟩⟩),
   (0xC87A380CA3947001, [], .cnotify ⟨false, 7⟩ true ⟨.v 3, false, false⟩),
   (0xC9703008A3947000, [], .cheld ⟨⟨false, 7⟩, .v 6, ⟨.v 2, false, false⟩⟩),
   (0xCA7A3D1CA3947009, [0], .dpfx 9),
   (0xCB703008A3947221, [], .tmov ⟨⟨false, 7⟩, .v 6, ⟨.v 2, false, false⟩⟩ 1 4 true)]

theorem test_decode_Tasks : wordsTasks.all reads = true ∧ wordsTasks ≠ [] := ⟨by decide +kernel, nofun⟩


/-- SystemWords words, each written out field by field from the tables of R264 to R275 and of its instruction. -/
def wordsSystemWords : List (Word × List Word × Instr) :=
  [(0xD070451CA3947024, [], .getsr ⟨false, 7⟩ (.v 8) 0x24),
   (0xD17A3C0CA3947012, [], .setsr ⟨false, 7⟩ 0x12 ⟨.g 3, false, false⟩),
   (0xD27A3D1CA3947000, [], .eret ⟨false, 7⟩),
   (0xD3703008A3947003, [], .fwcall ⟨⟨false, 7⟩, .v 6, ⟨.v 2, false, false⟩⟩ 3),
   (0xD470300802147013, [], .moncall ⟨⟨false, 7⟩, .v 6, ⟨.v 2, false, false⟩, ⟨.v 4, false, false⟩⟩ 0x13),
   (0xD57A382001947000, [], .icinv ⟨false, 7⟩ (some (⟨.v 8, false, false⟩, ⟨.v 3, false, false⟩))),
   (0xD57A3D1CA3947001, [], .icinv ⟨false, 7⟩ none),
   (0xD67A3820A3947000, [], .tlbinv ⟨false, 7⟩ .page ⟨.v 8, false, false⟩ none),
   (0xD67A3D1C01947001, [], .tlbinv ⟨false, 7⟩ .ctx ⟨.zero, false, false⟩ (some ⟨.v 3, false, false⟩)),
   (0xD67A3D1CA3947002, [], .tlbinv ⟨false, 7⟩ .all ⟨.zero, false, false⟩ none),
   (0xD77A380C04147000, [], .fcxl ⟨false, 7⟩ ⟨.v 3, false, false⟩ ⟨.v 8, false, false⟩),
   (0xD87A3820A3947000, [], .finj ⟨false, 7⟩ ⟨.v 8, false, false⟩),
   (0xD97A3D1CA3947000, [], .halt ⟨false, 7⟩),
   (0xDA70300C02947000, [], .cctl ⟨false, 7⟩ (some (.v 6)) ⟨.v 3, false, false⟩ ⟨.v 5, false, false⟩),
   (0xDA7A380C02947001, [], .cctl ⟨false, 7⟩ none ⟨.v 3, false, false⟩ ⟨.v 5, false, false⟩),
   (0xF0020141400D050F, [], .pairWord ⟨.iadd, 8, 5, 5⟩ ⟨.iadd, 13, 5, 15⟩),
   (0xF302014194090600, [], .pairWord ⟨.fmac, 8, 5, 6⟩ ⟨.mov, 9, 6, 0⟩),
   (0x2C00000000000000, [], .reservedOpcodeWord 0x2C00000000000000 false)]

theorem test_decode_SystemWords : wordsSystemWords.all reads = true ∧ wordsSystemWords ≠ [] := ⟨by decide +kernel, nofun⟩

/-- Words that the text of the spec encodes itself (R259, R269, R272, R279, R290, R294, R298, R327, R339, R405, R411, R421), and words that name the literal. -/
def wordsGiven : List (Word × List Word × Instr) :=
  [(0x01707FFCA3947000, [0x3E8], .mov ⟨always, .v 15, ⟨.lit, false, false⟩⟩ false), (0x2870300801804002, [], .acsel2 ⟨always, .v 6, v 2, v 3, v 4⟩ 2),
   (0x60708020A394700C, [], .lanex ⟨always, .v 16, v 8⟩ .abs (.width 1 false) false), (0x8070A40000400040, [], .ld ⟨always, .v 20, ⟨.g 0, false, false⟩, .thr, .plain, .ca, .w32, false, 0x40⟩),
   (0xC670651CA3947002, [], .bwrd always (.v 12) 0 2), (0xCB709820A3947001, [], .tmov ⟨always, .v 19, v 8⟩ 1 0 false), (0xF0020141400D050F, [], .pairWord ⟨.iadd, 8, 5, 5⟩ ⟨.iadd, 13, 5, 15⟩),
   (0x6870F51C0394720A, [], .ptov ⟨always, .v 30, ⟨.zero, false, false⟩, v 7⟩ 2 1 true), (0x6511902002947001, [], .redidx ⟨⟨false, 1⟩, .v 50, v 8, v 5⟩ false false false)]

theorem test_decode_given : wordsGiven.all reads = true ∧ wordsGiven ≠ [] := ⟨by decide +kernel, nofun⟩

/-- The header of the annotated kernel (R275), and a Flilith-2 word (R280) with its translation; a word outside its clause's class (R262). -/
theorem test_clauses_decode : headerOf 0xA000180000000000 = some ⟨1, 0, 1, true, false, false, false, 0⟩ ∧ headerOf 0xA0000C0000000000 = none ∧ headerOf 0xA060000000000000 = none ∧
    headerOf 0xB000000000000000 = none ∧ headerOf 0xA000000000000001 = none ∧ f2Word 0x301382010835A380 = 0x0270402106B47000 ∧
    (decodeInClause 0 0x8070A40000400040 []).toOption = none ∧ (decodeInClause 1 0x8070A40000400040 []).toOption.isSome = true ∧
    (decodeInClause 4 0x0270402106B47000 []).toOption = none ∧ (decodeInClause 4 0x007A3D1CA3947000 []).toOption = some (.nop always) := by decide +kernel

/-- Words that a decode rule refuses, and the code of the cause (R243, R258, R264 to R274). -/
def refusedWords : List (Word × List Word × Nat) :=
  [(0x0000000000000000, [], 0x01),
   (0x027C000802147000, [], 0x01),
   (0x0270300802147001, [], 0x01),
   (0x0270352002003000, [], 0x01),
   (0x0270300882D47000, [], 0x01),
   (0x0270380802147200, [], 0x01),
   (0x027037FCFF947000, [0], 0x01),
   (0x027037FC02147000, [], 0x06),
   (0x80703010E0400000, [], 0x04),
   (0x807030100C400000, [], 0x07),
   (0x8070401000A00000, [], 0x08),
   (0x8070301003400000, [], 0x09),
   (0x8270300C01400000, [], 0x01),
   (0x8070301000500000, [], 0x01),
   (0x80703810FFE00000, [], 0x04),
   (0x8D703010041C0290, [], 0x0E),
   (0x8D70301004000298, [], 0x0D),
   (0x8F7A381004100293, [], 0x0D),
   (0x8D70301004000280, [], 0x07),
   (0x7073001000000008, [], 0x0C),
   (0x7071001000000004, [], 0x01),
   (0x7070051C00000008, [0], 0x02),
   (0xD27A3D1CA3947000, [0], 0x02),
   (0xCA7A3D1CA3947001, [], 0x0B),
   (0xCA7A3D1CA3947001, [0xCA7A3D1CA3947001], 0x0B),
   (0xF0020141400C050F, [], 0x03),
   (0xF5420141400D050F, [], 0x0F)]

def refuses (x : Word × List Word × Nat) : Bool := match decodeWord x.1 x.2.1 with
  | .ok _ => false
  | .error c => c == x.2.2

theorem test_decode_refuses : refusedWords.all refuses = true ∧ refusedWords ≠ [] := ⟨by decide +kernel, nofun⟩

/-! ## Well-formedness: an ill-formed term for each check -/

def lit : Src := ⟨.lit, false, false⟩
def z : Src := ⟨.zero, false, false⟩
def gS (n : BitVec 6) : Src := ⟨.g n, false, false⟩
def cpy (d : CopyDir) (hs hd : Bool) : CopyOp := ⟨always, .v 8, v 2, v 4, v 12, false, hs, hd, .sys, d⟩

/-- Registers, flags, literals and destinations. -/
def badOperands : List Instr :=
  [.mov ⟨always, .v 3, v 2⟩ true, .mov ⟨always, .v 2, v 3⟩ true, .mov ⟨always, .o 5, v 2⟩ true, .mov ⟨always, .g 1, v 2⟩ true, .mov ⟨always, .v 2, ⟨.g 2, true, false⟩⟩ false,
   .mov ⟨always, .v 2, ⟨.q 2, false, true⟩⟩ false, .mov ⟨always, .v 2, ⟨.int 2, false, true⟩⟩ false, .iadd ⟨always, .v 2, lit, lit⟩ false false false, .idiv ⟨always, .g 2, v 2, v 4⟩ false false,
   .irem ⟨always, .lr, v 2, v 4⟩ false false, .shl ⟨always, .v 2, v 2, ⟨.g 1, false, true⟩⟩ false, .icmp ⟨always, 1, lit, lit⟩ .eq false false, .bfi ⟨always, .v 2, v 2, v 3, v 4⟩ true,
   .lea ⟨always, .v 2, v 3, v 4⟩ 0 false, .acsel2 ⟨always, .v 2, v 2, v 3, v 4⟩ 6, .cvti ⟨always, .v 3, v 2⟩ .w32 .w64 false false false, .ptov ⟨always, .v 2, v 2, v 4⟩ 5 3 false,
   .vtop ⟨always, 5, v 2, v 4⟩ 3 false, .actmask always (.v 3), .matchL ⟨always, .lr, v 2⟩ false false, .pcensus always (.mask (.v 3)) 0 false, .pcensus always (.count .lr) 0 false,
   .lanex ⟨always, .v 2, v 4⟩ .abs (.width 1 true) false, .lanex ⟨always, .v 2, lit⟩ .abs (.reg lit) false, .bcastl ⟨always, .v 2, lit⟩ (some lit) false, .redidx ⟨always, .v 3, v 2, v 4⟩ false false false,
   .redidx ⟨always, .v 2, v 2, v 4⟩ false true true, .pairWord ⟨.iadd, 8, 5, 5⟩ ⟨.iadd, 12, 5, 15⟩, .pairWord ⟨.fmul, 8, 5, 5⟩ ⟨.fmac, 13, 5, 15⟩, .pairWord ⟨.iadd, 8, 1, 2⟩ ⟨.iadd, 13, 3, 4⟩,
   .pairWord ⟨.iadd, 8, 1, 5⟩ ⟨.iadd, 14, 9, 1⟩, .pairWord ⟨.iadd, 8, 13, 5⟩ ⟨.iadd, 13, 5, 5⟩, .pairWord ⟨.mov, 8, 5, 1⟩ ⟨.iadd, 13, 5, 15⟩, .reservedOpcodeWord 0 false]

/-- Modifiers. -/
def badModifiers : List Instr :=
  [.fmin a2 { fm with rnd := .rz }, .fadd a2 { fm with cNeg := true }, .frnd a1 { fm with bAbs := true }, .fdiv a2 { fm with fmt := .f16 }, .hadd2 a2 fm, .dadd a2 { fm with fmt := .bf16 },
   .fcmp p2 .eq { fm with rnd := .ru }, .cvtq a2 false, .cvtdq ⟨always, .v 2, v 2, gS 3⟩ false, .redls a1 .add .rn true false, .redls a1 .min .rz false false, .scan a1 .fadd .rs false false false,
   .barp a1 .fmax .rn true false, .ld ⟨always, .v 8, v 2, .thr, .rel, .ca, .w32, false, 0⟩, .ld ⟨always, .v 8, v 2, .thr, .plain, .ca, .w32, true, 0⟩, .ld ⟨always, .g 8, v 2, .thr, .plain, .ca, .w32, false, 0⟩,
   .ld ⟨always, .v 8, ⟨.int 2, false, false⟩, .thr, .plain, .ca, .w32, false, 0⟩, .ld ⟨always, .v 10, v 2, .thr, .plain, .ca, .w128, false, 0⟩, .lds ⟨always, .v 8, v 2, .thr, .plain, .by, .w32, false, 0⟩,
   .ldbd ⟨always, .v 8, v 2, .thr, .plain, .ca, .w32, false, 0⟩, .st ⟨always, ⟨.v 8, true, false⟩, v 2, .thr, .plain, .ca, .w32, 0⟩, .st ⟨always, lit, v 2, .thr, .plain, .ca, .w32, 0⟩,
   .st ⟨always, v 8, v 2, .thr, .acq, .ca, .w32, 0⟩, .sts ⟨always, v 8, v 2, .thr, .plain, .st, .w32, 0⟩, .stbd ⟨always, v 8, v 2, .sys, .plain, .ca, .w16, 0⟩, .pref always (v 3) .ca 0,
   .cinval always none 8, .smap always (v 1) (v 3) (v 4), .sunmap always ⟨.q 1, false, true⟩, .swb always (some z), .fence always .plain .sys, .fence always .rlx .sys]

/-- Atomics, engines, matrix words, tasks and system words. -/
def badOthers : List Instr :=
  [.atom ⟨always, .v 8, v 2, v 4, .u32, 0, .dev, .plain, .add⟩, .atom ⟨always, .v 8, v 2, v 4, .f32, 0, .dev, .rlx, .and⟩, .atom ⟨always, .v 8, v 2, v 4, .u32, 0, .dev, .rel, .load⟩,
   .atoms ⟨always, .v 8, v 2, v 5, .u64, 0, .dev, .rlx, .add⟩, .atomcas ⟨always, .v 8, v 2, lit, lit, .u32, .dev, .rlx⟩, .red ⟨always, .v 8, v 2, v 4, .u32, 0, .dev, .rlx, .add⟩,
   .red ⟨always, .zero, v 2, v 4, .u32, 0, .dev, .rlx, .exch⟩, .red ⟨always, .zero, v 2, v 4, .u32, 0, .dev, .acq, .add⟩, .copy (cpy .g2s false true), .copy (cpy .s2g true false), .copym (cpy .g2s false false),
   .scatter { cpy .g2o false false with len := v 12 }, .gather { cpy .g2g false false with len := v 14 }, .copy { cpy .g2g false false with d := .v 9 }, .remq ⟨always, .v 8, v 2, v 4⟩ false,
   .rqpop ⟨always, .g 8, v 2⟩ false, .xred ⟨always, .v 8, v 2, v 4, v 5⟩ false .u32 .exch .dev, .xred ⟨always, .v 8, v 2, v 4, v 5⟩ false .f32 .or .dev, .strm always (v 3) .ca 0 false .w32 0,
   .tchk always 1 (gS 2), .tcfg always (v 3), .oclaim ⟨always, 1, lit, lit⟩ false, .orel always lit lit, .mma ⟨always, .v 9, v 1, v 2, v 3⟩, .mxt always (.g 2) (v 1) (v 2), .accz ⟨always, .v 9, v 1⟩,
   .accld ⟨always, .v 8, v 2, v 4, some z, false, false, .dev⟩, .accst ⟨always, .v 8, v 3, v 4, none, false, false, .dev⟩, .mstat always .lr, .spawn always none (v 2) (v 6), .spawnw always none 0 (v 6),
   .spawnr always none 0 (v 3) (v 4) (v 5), .tget always .zero, .tget always (.o 4), .launch always (v 3), .bwupd always 0 .min false (v 3), .bwrd always .lr 0 0, .cwait ⟨always, 1, lit, lit⟩,
   .cnotify always false ⟨.q 1, false, true⟩, .cheld ⟨always, .lr, v 2⟩, .tmov a1 5 0 false, .tmov ⟨always, .v 8, gS 2⟩ 1 0 false, .tmov ⟨always, .g 8, v 2⟩ 0 1 false, .getsr always .lr 0,
   .getsr always (.v 3) 0x08, .setsr always 0x20 (v 3), .fwcall ⟨always, .v 9, v 2⟩ 0, .moncall ⟨always, .v 8, v 2, v 3⟩ 1, .icinv always (some (v 3, v 4)), .tlbinv always .ctx (v 2) none,
   .tlbinv always .page (v 2) (some z), .fcxl always (v 2) (v 3), .finj always (v 3), .cctl always (some (.v 3)) (v 2) (v 4), .bra always .always (v 2) 8, .bra always .nz (v 2) 4, .bra always .nz lit 8,
   .bra always .nz64 (v 3) 8, .brx always false (v 3) 8, .call always 4, .callx always true lit 8, .retn always 0, .sleep always lit]

theorem test_ill_formed_refused : badOperands.any WellFormed = false ∧ badModifiers.any WellFormed = false ∧ badOthers.any WellFormed = false := by decide +kernel

/-! ## Values that the spec gives -/

/-- Registers of the one lane after `i`, which starts from these. -/
def after (i : Instr) (l : List (Nat × W32)) (r : List Nat) : List W32 :=
  match exec i (lab wg { th with v := th.v.map fun x => (x.1, ⟨.full, ((l.find? fun y => y.1 == x.1).map (·.2)).getD 0, []⟩) }) with
  | .next t => (getT t t0).elim [] fun x => r.map fun n => (vReg x n).val
  | _ => []

/-- R283 to R296: the examples of the text, and values worked out by hand from the tables. -/
theorem test_integer_values : after (.acsel2 ⟨always, .v 6, v 2, v 3, v 4⟩ 2) [(2, 0x50010), (3, 0x30007), (4, 0x40002)] [6] = [0x7000B] ∧
    after (.cvti ⟨always, .v 6, v 2⟩ .w32 .w8 true false false) [(2, 0xFFFFFED4)] [6] = [0xD4] ∧ after (.cvti ⟨always, .v 6, v 2⟩ .w32 .w8 true false true) [(2, 0xFFFFFED4)] [6] = [0] ∧
    after (.bpick ⟨always, .v 6, v 2, v 3, v 4⟩) [(2, 0x11223344), (4, 0x00010203)] [6] = [0x44332211] ∧ after (.bpick ⟨always, .v 6, v 2, v 3, v 4⟩) [(2, 0x1122F344), (4, 0x08080100)] [6] = [0xF344] ∧
    after (.bpick ⟨always, .v 6, v 2, v 3, v 4⟩) [(2, 0x1122F344), (4, 0x11110100)] [6] = [0xFFFFF344] ∧ after (.bool3 ⟨always, .v 6, v 2, v 3, v 4⟩ 0xCA false) [(2, 0xF0), (3, 0xCC), (4, 0xFF)] [6] = [0xCC] ∧
    after (.ineg ⟨always, .v 6, v 2⟩ false true) [(2, 0x80000000)] [6] = [0x7FFFFFFF] ∧ after (.imulhi ⟨always, .v 6, v 2, v 3⟩ false false) [(2, 0xFFFFFFFF), (3, 2)] [6] = [0xFFFFFFFF] ∧
    after (.shra ⟨always, .v 6, v 2, v 4⟩ true) [(3, 0x80000000), (4, 100)] [6, 7] = [0xFFFFFFFF, 0xFFFFFFFF] ∧ after (.funnel ⟨always, .v 6, v 2, v 3, v 4⟩ false false) [(2, 0x12345678), (3, 0x9ABCDEF0), (4, 8)] [6] = [0xF0123456] ∧
    after (.bfe ⟨always, .v 6, v 2, v 4⟩ false false) [(2, 0xF80), (4, 0x507)] [6] = [0xFFFFFFFF] ∧ after (.lea ⟨always, .v 6, v 2, v 4⟩ 2 false) [(2, 8), (4, 0xFFFFFFFF)] [6, 7] = [4, 0] ∧
    after (.vadd2 ⟨always, .v 6, v 2, v 3⟩ false true) [(2, 0x7FFF8000), (3, 0x1FFFF)] [6] = [0x7FFF8000] ∧ after (.dot4 ⟨always, .v 6, v 2, v 3, v 4⟩ false false) [(2, 0xFF000002), (3, 0x05000003), (4, 1)] [6] = [2] := by
  decide +kernel

/-- R225, R308 to R321. -/
theorem test_float_values : xorshift 1 = 0x00042021 ∧ after (.ffma ⟨always, .v 6, v 2, v 3, v 4⟩ { fm with bNeg := true, rnd := .rz }) [(2, 0x3FC00000), (3, 0x40000000), (4, 0x3F800000)] [6] = [0xC0000000] ∧
    after (.frnd ⟨always, .v 6, v 2⟩ fm) [(2, 0xBE99999A)] [6] = [0x80000000] ∧ after (.ffma ⟨always, .v 6, v 2, v 3, v 4⟩ fm) [(2, 0), (3, 0x7F800000), (4, 0x7FC12345)] [6] = [0x7FC00000] ∧
    after (.fclass ⟨always, .v 6, v 2⟩ .f32) [(2, 0x80000001)] [6] = [4] ∧ after (.i2f ⟨always, .v 6, v 2⟩ .b16 .rn false true) [(2, 65520)] [6] = [0x7C00] ∧
    after (.f2i ⟨always, .v 6, v 2⟩ .b32 .rz false true) [(2, 0xBF000000)] [6] = [0] ∧ after (.fmin ⟨always, .v 6, v 2, v 3⟩ fm) [(2, 0x7FC00000), (3, 0x40000000)] [6] = [0x40000000] ∧
    after (.fadd ⟨always, .v 6, v 2, ⟨.cst 14, false, false⟩⟩ fm) [] [6] = [0x40490FDB] ∧ after (.hadd2 ⟨always, .v 6, v 2, v 3⟩ { fm with fmt := .f16 }) [(2, 0x3C004000), (3, 0x3C003C00)] [6] = [0x40004200] := by
  decide +kernel

/-- The reset values that the spec gives (R5, R15 to R17, R41, R44, R135). -/
theorem test_reset_values : State.reset.clkMhz = 800 ∧ State.reset.now = 0 ∧ State.reset.heatMs = 10 ∧ State.reset.fw.trialS = 30 ∧ State.reset.fw.diesOk = 0xFFFF ∧ Config.modcap = 0x0320406033444230 ∧
    Config.modcap2 = 0x4040888888CCCD90 ∧ State.reset.ports.length = 16 ∧ Memory.wf State.reset.mem = true := by decide +kernel

/-- From reset, a placed word is the first to run: a MOV of the integer 5; the registers of a new thread are DEAD, so an IADD of them traps, and ends its thread where there is no handler (R166, R245). -/
theorem test_first_word : ((nextOf (step (State.reset.withFetchWord 64 0x01703554A3947000))).any fun t => t.threads.all fun x => x.lr == 5 && vReg x 6 == ⟨.full, 5, []⟩ && x.pc == 0x10) = true ∧
    ((nextOf (step (State.reset.withFetchWord 64 0x0270402106B47000))).any fun t => t.threads.all fun x => x.run == .killed) = true ∧
    decodeTableWord 64 0x0270402106B47000 = some (.iadd ⟨always, .v 8, ⟨.v 8, false, true⟩, ⟨.v 13, false, true⟩⟩ false false false) ∧
    decodeTableWord 64 0x2C00000000000000 = some (.reservedOpcodeWord 0x2C00000000000000 false) ∧ decodeTableWord 64 0 = none :=
  ⟨by decide +kernel, by decide +kernel, by decide +kernel, by decide +kernel, by decide +kernel⟩

end Sys2Proof.Tests
end

section
/-! PROOFS of the firmware family. A trial that is open refuses requests, and a window that has ended ignores FWCOMMIT. -/

namespace Sys2Proof.Machine

/-! ## Requests during a trial (R44) -/

theorem trialBusy_of_inTrial {f : Firmware} (h : f.trial = .inTrial) : trialBusy f = true := by
  simp [trialBusy, h]

theorem execFirmwareUpdateRequest_of_busy {s : State} (h : trialBusy s.fw = true) (image : Nat) :
    execFirmwareUpdateRequest image s = .next s := if_pos h

theorem execMonitorPatchRequest_of_busy {s : State} (h : trialBusy s.fw = true) (image : Nat) :
    execMonitorPatchRequest image s = .next s := if_pos h

/-! ## The window of a trial -/

/-- The window of a trial is the patch's or the image's, so it is over where both are. -/
theorem windowEnd_le {f : Firmware} {n : Nat} (ht : ∀ e, f.trialEnd = some e → e ≤ n) (hp : ∀ e, f.patchEnd = some e → e ≤ n) :
    ∀ e, windowEnd f = some e → e ≤ n := by
  unfold windowEnd
  cases f.patchNew with
  | some p => exact hp
  | none => exact ht

/-- Only the window of the trial that is open counts: the value, the writer and the other window do not. -/
theorem writeFwcommit_of_window_over {s : State} (h : ∀ e, windowEnd s.fw = some e → e ≤ s.ns) (v : Word) (monitor : Bool) :
    writeFwcommit s v monitor = s := by
  cases hn : s.fw.patchNew with
  | some p =>
    cases he : s.fw.patchEnd with
    | none => simp [writeFwcommit, hn, he]
    | some e =>
      have closed : ¬ s.ns < e := Nat.not_lt.mpr (h e (by simp [windowEnd, hn, he]))
      simp [writeFwcommit, hn, he, closed]
  | none =>
    cases he : s.fw.trialEnd with
    | none => simp [writeFwcommit, hn, he]
    | some e =>
      have closed : ¬ s.ns < e := Nat.not_lt.mpr (h e (by simp [windowEnd, hn, he]))
      simp [writeFwcommit, hn, he, closed]

/-! ## The arms of exec -/

theorem exec_firmwareUpdateRequest (image : Nat) (s : State) : exec (.firmwareUpdateRequest image) s = execFirmwareUpdateRequest image s := rfl

theorem exec_monitorPatchRequest (image : Nat) (s : State) : exec (.monitorPatchRequest image) s = execMonitorPatchRequest image s := rfl

theorem exec_fwcommit (w : FwWrite) (s : State) : exec (.fwcommit w) s = .next (writeFwcommit s w.value w.monitor) := rfl

/-- Settles O56: an open trial makes firmware busy, and a write meets no window that is still open. -/
theorem updateWindow : Obligations.UpdateWindow := by
  refine ⟨fun s image h => ?_, fun s image h => ?_, fun s v ht hp monitor => ?_⟩
  · rw [exec_firmwareUpdateRequest, execFirmwareUpdateRequest_of_busy (trialBusy_of_inTrial h)]
  · rw [exec_monitorPatchRequest, execMonitorPatchRequest_of_busy (trialBusy_of_inTrial h)]
  · rw [exec_fwcommit, writeFwcommit_of_window_over (windowEnd_le ht hp)]

end Sys2Proof.Machine
end

section
/-! PROOFS of the threads family. A predicate word writes the predicates its result lists, and p7 takes no write. -/

namespace Sys2Proof.Machine

/-! ## Reads and writes of predicates (R161) -/

@[simp] theorem predBit_seven (x : Thread) : predBit x 7 = true := if_pos rfl

@[simp] theorem setPred_seven (x : Thread) (b : Bool) : setPred x 7 b = x := if_neg (Nat.lt_irrefl 7)

theorem predBit_setPred_self (x : Thread) {n : Nat} (hn : n < 7) (b : Bool) : predBit (setPred x n b) n = b := by
  rw [predBit_setPred x n b n (Nat.lt_succ_of_lt hn), if_neg (Nat.ne_of_lt hn), if_pos rfl]

theorem predBit_setPred_ne (x : Thread) {n m : Nat} (hm : m < 8) (hne : m ≠ n) (b : Bool) : predBit (setPred x n b) m = predBit x m := by
  rw [predBit_setPred x n b m hm, if_neg hne]
  split
  case isTrue h7 => rw [h7, predBit_seven]
  case isFalse => rfl

theorem predAfter_singleton (n : Nat) (b old : Bool) {m : Nat} (hm : m < 8) :
    predAfter [(n, b)] m old = if m = 7 then true else if m = n then b else old := by
  unfold predAfter
  by_cases h7 : m = 7
  · rw [if_neg (by omega), if_pos h7]
  · rw [if_pos (by omega), if_neg h7]
    by_cases hn : m = n
    · simp [hn]
    · simp [hn, Ne.symm hn]

/-! ## Words whose only result is predicates -/

theorem predWord_done {s : State} {pg : Guard} {l : List SrcSpec} {f : Thread → List Opv → List (Nat × Bool)} (hs : Issuing s)
    (ha : (predWord pg l f).sound s) :
    WordDone s (aluWord s pg l none 0 fun _ _ x v => { words := [], preds := f x v }) pg l none ((predWord pg l f).lane s) :=
  aluWord_done hs (fun _ _ _ _ _ _ => rfl) fun tid x w hl hp => by
    obtain ⟨hsound, hclean, _, hcause⟩ := ha tid x w hl hp
    exact ⟨hsound, hclean, hcause⟩

/-- A compare and PBOOL3 are such words, with one predicate each (R285, R297). -/
theorem intSpec_onePred {i : Instr} {a : WordSpec} (ha : intSpec i = some a)
    (hi : (∃ o c w64 u, i = .icmp o c w64 u) ∨ ∃ pg pd pa pb pc t, i = .pbool3 pg pd pa pb pc t) :
    ∃ (pg : Guard) (l : List SrcSpec) (f : Thread → List Opv → Nat × Bool), a = predWord pg l (fun x v => [f x v]) ∧
      ∀ s, exec i s = .next (aluWord s pg l none 0 fun _ _ x v => { words := [], preds := [f x v] }) := by
  obtain ⟨o, c, w64, u, rfl⟩ | ⟨pg, pd, pa, pb, pc, t, rfl⟩ := hi
  · exact ⟨_, _, _, (Option.some.inj ha).symm, fun _ => rfl⟩
  · exact ⟨_, _, _, (Option.some.inj ha).symm, fun _ => rfl⟩

/-- An active lane after a word that writes one predicate. -/
theorem WordDone.predBit_of_singleton {s t : State} {pg : Guard} {l : List SrcSpec} {d : Option Dst} {out : Workgroup → Thread → AluOut}
    {tid : Tid} {x : Thread} {w : Workgroup} {n : Nat} {b : Bool} (h : WordDone s t pg l d out) (hl : Lane s tid x w) (hp : passes x pg = true)
    (he : (out w x).preds = [(n, b)]) :
    ∃ y, getT t tid = some y ∧ ∀ m, m < 8 → predBit y m = if m = 7 then true else if m = n then b else predBit x m := by
  obtain ⟨y, hy, hdone⟩ := h.lanes tid x w hl
  rw [if_pos hp] at hdone
  refine ⟨y, hy, fun m hm => ?_⟩
  rw [hdone.preds m hm, he, predAfter_singleton n b _ hm]

/-- Settles O55: a write of one predicate leaves the others and p7, and each of the two words makes one such write in every active lane. -/
theorem predicates : Obligations.Predicates := by
  refine ⟨fun x => ⟨predBit_seven x, setPred_seven x, fun n b hn => ⟨predBit_setPred_self x hn b, fun m hm hne => predBit_setPred_ne x hm hne b⟩⟩, ?_⟩
  intro i a s hspec hword hs hsound
  obtain ⟨pg, l, f, rfl, hexec⟩ := intSpec_onePred hspec hword
  refine ⟨_, hexec s, fun tid x w hl hp => ?_⟩
  obtain ⟨y, hy, hbits⟩ := (predWord_done hs hsound).predBit_of_singleton hl hp rfl
  exact ⟨y, hy, _, _, rfl, hbits⟩

end Sys2Proof.Machine
end

section
/-! PROOFS of the number formats family. Division truncates toward zero because its results have patterns of their own, but for one quotient; a minimum or
maximum is one of its operands by the order of exact values, with the zeros ordered by sign. -/

namespace Sys2Proof.Machine

/-! ## Patterns and the integers they stand for (R281) -/

/-- The integer `v` is the value of some pattern of `w` bits. -/
def HasPattern (u : Bool) (w : Nat) (v : Int) : Prop :=
  if u then 0 ≤ v ∧ v < 2 ^ w else -(2 ^ (w - 1)) ≤ v ∧ v < 2 ^ (w - 1)

theorem two_pow_eq_double {w : Nat} (hw : 0 < w) : (2 : Int) ^ w = 2 * 2 ^ (w - 1) := by
  rw [Int.mul_comm, ← Int.pow_succ, Nat.succ_eq_add_one, Nat.sub_add_cancel hw]

theorem two_pow_pos (w : Nat) : (0 : Int) < 2 ^ w := Int.pow_pos (by decide)

theorem natCast_wrap (w : Nat) (v : Int) : (wrap w v : Int) = v % 2 ^ w :=
  Int.toNat_of_nonneg (Int.emod_nonneg v (Int.ne_of_gt (two_pow_pos w)))

theorem wrap_lt (w : Nat) (v : Int) : wrap w v < 2 ^ w := by
  have h : (wrap w v : Int) < 2 ^ w := natCast_wrap w v ▸ Int.emod_lt_of_pos v (two_pow_pos w)
  exact_mod_cast h

theorem wrap_of_nonneg {w : Nat} {v : Int} (h0 : 0 ≤ v) (h : v < 2 ^ w) : (wrap w v : Int) = v := by
  rw [natCast_wrap, Int.emod_eq_of_lt h0 h]

theorem wrap_of_neg {w : Nat} {v : Int} (h0 : v < 0) (h : -(2 ^ w) ≤ v) : (wrap w v : Int) = v + 2 ^ w := by
  rw [natCast_wrap, ← Int.add_emod_right, Int.emod_eq_of_lt (by omega) (by omega)]

/-- The sign test of `sval`, on integers. -/
theorem sval_eq (w a : Nat) : sval w a = if (2 : Int) ^ (w - 1) ≤ a then (a : Int) - 2 ^ w else a := by
  unfold sval
  norm_cast

theorem hasPattern_ival (u : Bool) {w a : Nat} (hw : 0 < w) (ha : a < 2 ^ w) : HasPattern u w (ival u w a) := by
  have ha' : (a : Int) < 2 ^ w := by exact_mod_cast ha
  have hdouble := two_pow_eq_double hw
  cases u with
  | true => exact ⟨Int.natCast_nonneg a, ha'⟩
  | false =>
    simp only [HasPattern, ival, sval_eq, Bool.false_eq_true, if_false]
    split <;> omega

/-- A value with a pattern is not changed by wrapping. -/
theorem ival_wrap {u : Bool} {w : Nat} {v : Int} (hw : 0 < w) (h : HasPattern u w v) : ival u w (wrap w v) = v := by
  have hdouble := two_pow_eq_double hw
  cases u with
  | true => exact wrap_of_nonneg h.1 h.2
  | false =>
    obtain ⟨hlo, hhi⟩ : -(2 ^ (w - 1)) ≤ v ∧ v < 2 ^ (w - 1) := h
    simp only [ival, sval_eq, Bool.false_eq_true, if_false]
    by_cases h0 : 0 ≤ v
    · rw [wrap_of_nonneg h0 (by omega), if_neg (by omega)]
    · rw [wrap_of_neg (by omega) (by omega), if_pos (by omega)]
      omega

/-- The one value that wraps to another: 2^(w − 1) has the pattern of the least number. -/
theorem sval_wrap_two_pow {w : Nat} (hw : 0 < w) : sval w (wrap w (2 ^ (w - 1))) = -(2 ^ (w - 1)) := by
  have hdouble := two_pow_eq_double hw
  have hpos := two_pow_pos (w - 1)
  rw [sval_eq, wrap_of_nonneg (by omega) (by omega), if_pos (Int.le_refl _)]
  omega

/-! ## Quotients and remainders (R228) -/

theorem natAbs_tdiv_le_half (x : Int) {y : Int} (hy : 2 ≤ y.natAbs) : (x.tdiv y).natAbs ≤ x.natAbs / 2 := by
  rw [Int.natAbs_tdiv]
  exact Nat.div_le_div_left hy (by decide)

/-- Only a divisor of −1 can take a signed value out of its range: it negates, and the least number has no negative. -/
theorem hasPattern_tdiv_signed {w : Nat} {x y : Int} (hx : HasPattern false w x) (h : ¬ (x = -(2 ^ (w - 1)) ∧ y = -1)) :
    HasPattern false w (x.tdiv y) := by
  obtain ⟨hlo, hhi⟩ : -(2 ^ (w - 1)) ≤ x ∧ x < 2 ^ (w - 1) := hx
  show -(2 ^ (w - 1)) ≤ x.tdiv y ∧ x.tdiv y < 2 ^ (w - 1)
  have hpos := two_pow_pos (w - 1)
  obtain hy | rfl | rfl | rfl : 2 ≤ y.natAbs ∨ y = 0 ∨ y = 1 ∨ y = -1 := by omega
  · have hhalf := natAbs_tdiv_le_half x hy
    omega
  · rw [Int.tdiv_zero]
    omega
  · rw [Int.tdiv_one]
    omega
  · rw [Int.tdiv_neg, Int.tdiv_one]
    omega

/-- Every quotient but the overflowing one has a pattern. -/
theorem hasPattern_tdiv {u : Bool} {w a b : Nat} (hw : 0 < w) (ha : a < 2 ^ w) (h : ¬ Overflows u w a b) :
    HasPattern u w ((ival u w a).tdiv (ival u w b)) := by
  have hx := hasPattern_ival u hw ha
  cases u with
  | true => exact ⟨Int.tdiv_nonneg hx.1 (Int.natCast_nonneg b), Int.lt_of_le_of_lt (Int.tdiv_le_self _ hx.1) hx.2⟩
  | false => exact hasPattern_tdiv_signed hx fun ⟨hxm, hym⟩ => h ⟨rfl, hxm, hym⟩

/-- A remainder lies between 0 and the dividend. -/
theorem tmod_between (x y : Int) : 0 ≤ x.tmod y ∧ x.tmod y ≤ x ∨ x ≤ x.tmod y ∧ x.tmod y ≤ 0 := by
  have hle : (x.tmod y).natAbs ≤ x.natAbs := Int.natAbs_tmod x y ▸ Nat.mod_le ..
  obtain hx | hx := Int.le_total 0 x
  · have := Int.tmod_nonneg y hx
    omega
  · have := Int.tmod_nonneg y (Int.neg_nonneg_of_nonpos hx)
    rw [Int.neg_tmod] at this
    omega

theorem hasPattern_tmod {u : Bool} {w : Nat} {x : Int} (hx : HasPattern u w x) (y : Int) : HasPattern u w (x.tmod y) := by
  have hbetween := tmod_between x y
  have hpos := two_pow_pos (w - 1)
  cases u with
  | true =>
    obtain ⟨hlo, hhi⟩ : 0 ≤ x ∧ x < 2 ^ w := hx
    exact ⟨by omega, by omega⟩
  | false =>
    obtain ⟨hlo, hhi⟩ : -(2 ^ (w - 1)) ≤ x ∧ x < 2 ^ (w - 1) := hx
    exact ⟨by omega, by omega⟩

@[simp] theorem ival_zero (u : Bool) (w : Nat) : ival u w 0 = 0 := by
  have hpos : ¬ (2 : Int) ^ (w - 1) ≤ 0 := Int.not_le.mpr (two_pow_pos (w - 1))
  cases u with
  | true => rfl
  | false => simp [ival, sval_eq, hpos]

theorem divW_zero (u : Bool) (w a : Nat) : divW u w a 0 = 2 ^ w - 1 := if_pos rfl

theorem divW_of_ne_zero (u : Bool) (w a : Nat) {b : Nat} (hb : b ≠ 0) : divW u w a b = wrap w ((ival u w a).tdiv (ival u w b)) := if_neg hb

theorem remW_zero (u : Bool) (w a : Nat) : remW u w a 0 = a := if_pos rfl

theorem remW_of_ne_zero (u : Bool) (w a : Nat) {b : Nat} (hb : b ≠ 0) : remW u w a b = wrap w ((ival u w a).tmod (ival u w b)) := if_neg hb

theorem Overflows.ne_zero {u : Bool} {w a b : Nat} (h : Overflows u w a b) : b ≠ 0 := by
  rintro rfl
  obtain ⟨-, -, hb⟩ := h
  simp at hb

theorem divW_isQuotient (u : Bool) {w a b : Nat} (hw : 0 < w) (ha : a < 2 ^ w) : IsQuotient u w a b (divW u w a b) where
  pattern := by
    unfold divW
    split
    · have := Nat.two_pow_pos w
      omega
    · exact wrap_lt ..
  zero := fun hb => hb ▸ divW_zero u w a
  overflow := fun h => by
    rw [divW_of_ne_zero u w a h.ne_zero]
    obtain ⟨rfl, hx, hy⟩ := h
    rw [hx, hy, Int.tdiv_neg, Int.tdiv_one, Int.neg_neg]
    exact sval_wrap_two_pow hw
  trunc := fun hb h => by
    rw [divW_of_ne_zero u w a hb, ival_wrap hw (hasPattern_tdiv hw ha h)]

theorem ival_remW {u : Bool} {w a b : Nat} (hw : 0 < w) (ha : a < 2 ^ w) (hb : b ≠ 0) :
    ival u w (remW u w a b) = (ival u w a).tmod (ival u w b) := by
  rw [remW_of_ne_zero u w a hb, ival_wrap hw (hasPattern_tmod (hasPattern_ival u hw ha) _)]

theorem remW_isRemainder (u : Bool) {w a b : Nat} (hw : 0 < w) (ha : a < 2 ^ w) : IsRemainder u w a b (remW u w a b) where
  pattern := by
    unfold remW
    split
    · exact ha
    · exact wrap_lt ..
  zero := fun hb => hb ▸ remW_zero u w a
  overflow := fun h => by
    rw [remW_of_ne_zero u w a h.ne_zero]
    obtain ⟨rfl, hx, hy⟩ := h
    rw [hy, Int.tmod_neg, Int.tmod_one]
    simp [wrap]
  trunc := ival_remW hw ha
  sign := fun hb => by
    rw [ival_remW hw ha hb]
    have := tmod_between (ival u w a) (ival u w b)
    omega

/-! ## IDIV and IREM -/

theorem wBits_pos (w64 : Bool) : 0 < wBits w64 := by cases w64 <;> decide

theorem Opv.nat_lt (o : Opv) (w64 : Bool) : o.nat w64 < 2 ^ wBits w64 := by
  cases w64
  · exact o.w32.isLt
  · exact o.word.isLt

theorem exec_idiv (o : A2) (w64 u : Bool) (s : State) : exec (.idiv o w64 u) s = .next (divWord s o w64 (divW u)) := rfl

theorem exec_irem (o : A2) (w64 u : Bool) (s : State) : exec (.irem o w64 u) s = .next (divWord s o w64 (remW u)) := rfl

theorem divWord_late {s : State} {o : A2} {w64 : Bool} (f : Nat → Nat → Nat → Nat) (hs : Issuing s)
    (hr : Ready s o.pg (pairSrcs o w64) o.d (wWords w64)) :
    WordLate s (divWord s o w64 f) o.pg (pairSrcs o w64) o.d (wWords w64) fun w x =>
      natOut (wWords w64) (f (wBits w64) (patA s (pairSrcs o w64) w64 w x) (patB s (pairSrcs o w64) w64 w x)) :=
  aluLate_done hs (fun _ _ _ _ _ _ => rfl) fun tid x w hl hp => by
    obtain ⟨hsound, hclean⟩ := hr tid x w hl hp
    exact ⟨hsound, hclean, rfl⟩

/-! ## Flags and causes of integer words (R281 to R298) -/

/-- The words that take a field's place and length from an operand (R288). -/
def IsFieldWord (i : Instr) : Prop :=
  (∃ o l w64, i = .funnel o l w64) ∨ (∃ o w64 u, i = .bfe o w64 u) ∨ ∃ o w64, i = .bfi o w64

/-- A result with no flag and no cause. -/
def AluOut.Quiet (o : AluOut) : Prop := o.flags = 0 ∧ o.cause = none

/-- A field that fits gives its number, and one that does not the cause FIELD_RANGE: neither sets a flag. -/
theorem fieldOut_quiet_or_fieldRange (w64 : Bool) (n x : Nat) :
    (fieldOut w64 n x).Quiet ∨ fieldOut w64 n x = fieldRange n := by
  unfold fieldOut
  split
  · exact .inr rfl
  · exact .inl ⟨rfl, rfl⟩

/-- Every integer word is quiet in every lane, but for a field word whose field does not fit. -/
theorem intSpec_quiet_or_fieldRange {i : Instr} {a : WordSpec} (ha : intSpec i = some a) (s : State) (w : Workgroup) (x : Thread) :
    (a.lane s w x).Quiet ∨ IsFieldWord i ∧ ∃ n, a.lane s w x = fieldRange n := by
  unfold intSpec at ha
  split at ha
  case h_23 o l w64 =>
    obtain rfl := Option.some.inj ha
    exact (fieldOut_quiet_or_fieldRange ..).imp_right fun h => ⟨.inl ⟨o, l, w64, rfl⟩, _, h⟩
  case h_24 o w64 u =>
    obtain rfl := Option.some.inj ha
    exact (fieldOut_quiet_or_fieldRange ..).imp_right fun h => ⟨.inr (.inl ⟨o, w64, u, rfl⟩), _, h⟩
  case h_25 o w64 =>
    obtain rfl := Option.some.inj ha
    exact (fieldOut_quiet_or_fieldRange ..).imp_right fun h => ⟨.inr (.inr ⟨o, w64, rfl⟩), _, h⟩
  case h_44 => exact absurd ha nofun
  all_goals
    obtain rfl := Option.some.inj ha
    exact .inl ⟨rfl, rfl⟩

/-- Settles O51: quotient and remainder come back from their patterns, and of the integer words only field words have a cause. -/
theorem division : Obligations.Division := by
  refine ⟨fun o w64 u s hs hr => ⟨?_, ?_⟩, fun i a s w x ha => ?_⟩
  · refine ⟨_, _, exec_idiv o w64 u s, divWord_late (divW u) hs hr, fun w x => ⟨_, ?_, rfl⟩⟩
    exact divW_isQuotient u (wBits_pos w64) (Opv.nat_lt ..)
  · refine ⟨_, _, exec_irem o w64 u s, divWord_late (remW u) hs hr, fun w x => ⟨_, ?_, rfl⟩⟩
    exact remW_isRemainder u (wBits_pos w64) (Opv.nat_lt ..)
  · obtain ⟨hflags, hcause⟩ | ⟨hword, n, hout⟩ := intSpec_quiet_or_fieldRange ha s w x
    · exact ⟨hflags, fun h => by simp [hcause] at h⟩
    · rw [hout]
      exact ⟨rfl, fun _ => ⟨⟨_, rfl, rfl⟩, hword⟩⟩

/-! ## The order of exact values -/

theorem Num.lt_irrefl (x : Num) : x.lt x = false := by
  cases x with
  | nan s => rfl
  | inf s => exact Bool.and_not_self s
  | fin s n d => exact decide_eq_false (Int.lt_irrefl _)

theorem Num.lt_asymm {x y : Num} (h : x.lt y = true) : y.lt x = false := by
  cases x <;> cases y
  case fin.fin => exact decide_eq_false (Int.lt_asymm (of_decide_eq_true h))
  all_goals simp_all [Num.lt]

theorem Num.lt_of_zeros {x y : Num} (hx : x.isZero = true) (hy : y.isZero = true) : x.lt y = false := by
  cases x <;> cases y <;> simp_all [Num.isZero, Num.lt, sgn]

theorem Num.isNan_of_isZero {x : Num} (hx : x.isZero = true) : x.isNan = false := by
  cases x with
  | nan s => exact absurd hx nofun
  | inf s => rfl
  | fin s n d => rfl

/-! ## Which operand is taken (R227) -/

/-- Of two numbers a minimum or maximum takes the second: it lies beyond the first, or both are zeros and its sign does. -/
def takesSecond (max : Bool) (x y : Num) : Bool :=
  if max then x.lt y || (x.isZero && y.isZero && x.sign && !y.sign) else y.lt x || (x.isZero && y.isZero && !x.sign && y.sign)

theorem takesSecond_of_zeros (max : Bool) {x y : Num} (hx : x.isZero = true) (hy : y.isZero = true) :
    takesSecond max x y = if max then x.sign && !y.sign else !x.sign && y.sign := by
  simp [takesSecond, hx, hy, Num.lt_of_zeros]

theorem takesSecond_of_not_zeros (max : Bool) {x y : Num} (h : (x.isZero && y.isZero) = false) :
    takesSecond max x y = if max then x.lt y else y.lt x := by
  simp [takesSecond, h]

/-- The first operand does not lie beyond the second where the second is taken. -/
theorem not_beyond_of_takesSecond {max : Bool} {x y : Num} (h : takesSecond max x y = true) : (if max then y.lt x else x.lt y) = false := by
  cases hz : x.isZero && y.isZero
  case true =>
    obtain ⟨hx, hy⟩ := Bool.and_eq_true_iff.mp hz
    simp [Num.lt_of_zeros, hx, hy]
  case false =>
    rw [takesSecond_of_not_zeros max hz] at h
    cases max
    · exact Num.lt_asymm h
    · exact Num.lt_asymm h

/-- The second operand does not lie beyond the first where the first is taken. -/
theorem not_beyond_of_takesFirst {max : Bool} {x y : Num} (h : takesSecond max x y = false) : (if max then x.lt y else y.lt x) = false := by
  cases max
  · exact (Bool.or_eq_false_iff.mp h).1
  · exact (Bool.or_eq_false_iff.mp h).1

section
variable {f : Fmt} {max prop : Bool} {a b : Nat}

theorem pick_of_nans (ha : (f.decode a).isNan = true) (hb : (f.decode b).isNan = true) : pick f max prop a b = none := by
  simp [pick, ha, hb]

theorem pick_of_left_nan (ha : (f.decode a).isNan = true) (hb : (f.decode b).isNan = false) :
    pick f max prop a b = if prop then none else some true := by
  simp [pick, ha, hb]

theorem pick_of_right_nan (ha : (f.decode a).isNan = false) (hb : (f.decode b).isNan = true) :
    pick f max prop a b = if prop then none else some false := by
  simp [pick, ha, hb]

theorem pick_of_numbers (ha : (f.decode a).isNan = false) (hb : (f.decode b).isNan = false) :
    pick f max prop a b = some (takesSecond max (f.decode a) (f.decode b)) := by
  simp [pick, takesSecond, ha, hb]

end

/-- The pattern that a choice names. -/
def taken (f : Fmt) (a b : Nat) : Option Bool → Nat
  | none => f.nan
  | some false => a
  | some true => b

theorem taken_some (f : Fmt) (a b : Nat) (second : Bool) : taken f a b (some second) = if second then b else a := by
  cases second <;> rfl

/-- Of two zeros with signs `p` and `q` the greater is negative where both are, the lesser where one is. -/
theorem sign_of_zeros : ∀ max p q : Bool, (if if max then p && !q else !p && q then q else p) = if max then p && q else p || q := by
  decide

theorem fMinMax_bits (f : Fmt) (max prop : Bool) (r : RMode) (a b : Nat) :
    ((fMinMax f max prop).op r [a, b]).bits = taken f a b (pick f max prop a b) := rfl

theorem taken_pick_isExtremum (f : Fmt) (max prop : Bool) (a b : Nat) : IsExtremum f max prop a b (taken f a b (pick f max prop a b)) where
  bothNan ha hb := by rw [pick_of_nans ha hb]; rfl
  aNan ha hb := by rw [pick_of_left_nan ha hb]; cases prop <;> rfl
  bNan ha hb := by rw [pick_of_right_nan ha hb]; cases prop <;> rfl
  chosen ha hb := by
    rw [pick_of_numbers ha hb]
    rw [taken_some]
    split
    · exact .inr rfl
    · exact .inl rfl
  extreme ha hb := by
    rw [pick_of_numbers ha hb]
    cases h : takesSecond max (f.decode a) (f.decode b)
    case false =>
      rintro c (rfl | rfl)
      · simp [taken, Num.lt_irrefl]
      · exact not_beyond_of_takesFirst h
    case true =>
      rintro c (rfl | rfl)
      · exact not_beyond_of_takesSecond h
      · simp [taken, Num.lt_irrefl]
  zeros ha hb := by
    rw [pick_of_numbers (Num.isNan_of_isZero ha) (Num.isNan_of_isZero hb), takesSecond_of_zeros max ha hb]
    rw [taken_some, apply_ite f.decode, apply_ite Num.sign]
    exact sign_of_zeros ..

/-! ## Scalar floating words of two operands (R308 to R311) -/

theorem fWords_ffmt (m : FFmt) : fWords (ffmt m) = 1 := by cases m <;> rfl

theorem part_lt (f : Fmt) (x off : Nat) : part f x off < 2 ^ f.width := Nat.mod_lt _ (Nat.two_pow_pos _)

theorem part_of_lt {f : Fmt} {x : Nat} (h : x < 2 ^ f.width) : part f x 0 = x := by
  simp [part, Nat.mod_eq_of_lt h]

theorem signBit_lt (f : Fmt) : signBit f < 2 ^ f.width :=
  Nat.pow_lt_pow_right (by decide) (by unfold Fmt.width; omega)

theorem applyMod_lt {f : Fmt} {x : Nat} (m : Bool × Bool) (h : x < 2 ^ f.width) : applyMod f m x < 2 ^ f.width := by
  have habs : (if m.1 then x % signBit f else x) < 2 ^ f.width := by
    split
    · exact Nat.lt_of_le_of_lt (Nat.mod_le ..) h
    · exact h
  unfold applyMod
  dsimp only
  split
  · exact Nat.xor_lt_two_pow habs (signBit_lt f)
  · exact habs

theorem modWord_scalar (f : Fmt) (m : Bool × Bool) (x : Nat) : modWord (.scalar f) m x = applyMod f m (part f x 0) := by
  simp [modWord, FShape.scalar]

/-- A word of one value holds its operand as it stands. -/
theorem part_modWord_scalar (f : Fmt) (m : Bool × Bool) (x : Nat) : part f (modWord (.scalar f) m x) 0 = applyMod f m (part f x 0) := by
  rw [modWord_scalar, part_of_lt (applyMod_lt m (part_lt f x 0))]

theorem primal_scalar (f : Fmt) (rnd : Rnd) (o : FOp) (ops : List Nat) (st : W32) :
    (primal (.scalar f) rnd o ops st).y = (o.op (draw rnd st).1 (ops.map fun x => part f x 0)).bits := by
  simp [primal, FShape.scalar]

theorem wordsNat_take_one (v : Opv) : wordsNat (v.words.take 1) = v.nat false := by
  cases h : v.words <;> simp [wordsNat, Opv.nat, Opv.w32, h]

theorem floatLane_words (h : FShape) (rnd : Rnd) (mods : List (Bool × Bool)) (o : FOp) (s : State) (w : Workgroup) (x : Thread) (v : List Opv) :
    (floatLane h rnd mods o s w x v).words =
      wordsOf (fWords h.fmt) (primal h rnd o (List.zipWith (modWord h) mods (v.map fun y => wordsNat (y.words.take (fWords h.fmt)))) x.rng).y := by
  unfold floatLane
  split <;> rfl

theorem floatLane_cause (h : FShape) (rnd : Rnd) (mods : List (Bool × Bool)) (o : FOp) (s : State) (w : Workgroup) (x : Thread) (v : List Opv) :
    (floatLane h rnd mods o s w x v).cause = none := by
  unfold floatLane
  split <;> rfl

/-- A lane of a word of two operands, each of one value: the operation on the operands after their modifiers. -/
theorem floatLane_two_words {f : Fmt} (hf : fWords f = 1) (rnd : Rnd) (ma mb mc : Bool × Bool) (o : FOp) (s : State) (w : Workgroup) (x : Thread) (u v : Opv) :
    (floatLane (.scalar f) rnd [ma, mb, mc] o s w x [u, v]).words = wordsOf 1 (o.op (draw rnd x.rng).1
      [applyMod f ma (part f (u.nat false) 0), applyMod f mb (part f (v.nat false) 0)]).bits := by
  have hk : fWords (FShape.scalar f).fmt = 1 := hf
  rw [floatLane_words, hk, primal_scalar]
  simp only [List.map_cons, List.map_nil, List.zipWith_cons_cons, List.zipWith_nil_right, wordsNat_take_one, part_modWord_scalar]

theorem float2_lane_words (o : A2) (m : FMod) (f : Fmt → FOp) (s : State) (w : Workgroup) (x : Thread) :
    ((float2 o m f).lane s w x).words = wordsOf 1 ((f (ffmt m.fmt)).op (draw m.rnd x.rng).1
      [fArg s ([o.a, o.b].map (fSrc (.scalar (ffmt m.fmt)))) m (m.aAbs, m.aNeg) 0 w x,
        fArg s ([o.a, o.b].map (fSrc (.scalar (ffmt m.fmt)))) m (m.bAbs, m.bNeg) 1 w x]).bits :=
  floatLane_two_words (fWords_ffmt m.fmt) ..

theorem scalar2_done {s : State} {o : A2} {m : FMod} (f : Fmt → FOp) (hs : Issuing s)
    (hr : Ready s o.pg ([o.a, o.b].map (fSrc (.scalar (ffmt m.fmt)))) o.d 1) :
    WordDone s (scalar2 s o m f) o.pg ([o.a, o.b].map (fSrc (.scalar (ffmt m.fmt)))) (some o.d) ((float2 o m f).lane s) :=
  floatWord_done hs fun tid x w hl hp => by
    obtain ⟨hsound, hclean⟩ := hr tid x w hl hp
    rw [← fWords_ffmt m.fmt] at hsound
    exact ⟨hsound, hclean, rfl, floatLane_cause ..⟩

/-! ## FMIN, FMAX, FMINP and FMAXP -/

theorem exec_minMax {o : A2} {m : FMod} {i : Instr} {max prop : Bool} (s : State)
    (hi : (i, max, prop) ∈ [(Instr.fmin o m, false, false), (.fmax o m, true, false), (.fminp o m, false, true), (.fmaxp o m, true, true)]) :
    exec i s = .next (scalar2 s o m fun f => fMinMax f max prop) := by
  simp only [List.mem_cons, Prod.mk.injEq, List.not_mem_nil, or_false] at hi
  obtain ⟨rfl, rfl, rfl⟩ | ⟨rfl, rfl, rfl⟩ | ⟨rfl, rfl, rfl⟩ | ⟨rfl, rfl, rfl⟩ := hi <;> rfl

/-- Settles O53: the pattern taken is the extremum of the two operands, and each word writes it. -/
theorem minMax : Obligations.MinMax := by
  intro o m s hs hr i max prop hi
  refine ⟨_, _, exec_minMax s hi, scalar2_done _ hs hr, fun w x => ⟨_, ?_, float2_lane_words ..⟩⟩
  rw [fMinMax_bits]
  exact taken_pick_isExtremum ..

end Sys2Proof.Machine
end

section
/-! PROOFS of the integer control family. Each shift has its bits because its arithmetic moves bits: a product by 2^k up, a quotient by 2^k down, and the
floor of a signed value takes the sign along. -/

namespace Sys2Proof.Machine

/-! ## Bits of patterns -/

theorem bitAt_eq_testBit (x i : Nat) : bitAt x i = x.testBit i := Nat.testBit_eq_decide_div_mod_eq.symm

theorem bitAt_eq_false_of_lt {w a i : Nat} (ha : a < 2 ^ w) (hi : w ≤ i) : bitAt a i = false := by
  rw [bitAt_eq_testBit]
  exact Nat.testBit_lt_two_pow (Nat.lt_of_lt_of_le ha (Nat.pow_le_pow_right Nat.two_pos hi))

/-- A bit vector with these bits gives a pattern with them. -/
theorem hasBits_toNat {w : Nat} {x : BitVec w} {f : Nat → Bool} (h : ∀ i, i < w → x.getLsbD i = f i) : HasBits w x.toNat f :=
  ⟨x.isLt, fun i hi => by rw [bitAt_eq_testBit, BitVec.testBit_toNat, h i hi]⟩

theorem getLsbD_ofNat_eq_bitAt {w i : Nat} (a : Nat) (hi : i < w) : (BitVec.ofNat w a).getLsbD i = bitAt a i := by
  rw [BitVec.getLsbD_ofNat, decide_eq_true hi, Bool.true_and, bitAt_eq_testBit]

theorem msb_ofNat_eq_bitAt {w : Nat} (a : Nat) (hw : 0 < w) : (BitVec.ofNat w a).msb = bitAt a (w - 1) := by
  rw [BitVec.msb_eq_getLsbD_last, getLsbD_ofNat_eq_bitAt a (Nat.sub_one_lt_of_lt hw)]

/-! ## Logical shifts (R287) -/

theorem shlW_hasBits (w a k : Nat) : HasBits w (shlW w a k) (shlBit w a k) := by
  unfold shlW
  split
  case isTrue hk =>
    refine ⟨Nat.two_pow_pos w, fun i hi => ?_⟩
    simp [shlBit, bitAt_eq_testBit, Nat.not_le.mpr (Nat.lt_of_lt_of_le hi hk)]
  case isFalse =>
    refine ⟨Nat.mod_lt _ (Nat.two_pow_pos w), fun i hi => ?_⟩
    simp only [shlBit, bitAt_eq_testBit]
    rw [Nat.testBit_mod_two_pow, decide_eq_true hi, Bool.true_and, Nat.testBit_mul_two_pow]

theorem shrW_hasBits {w a : Nat} (ha : a < 2 ^ w) (k : Nat) : HasBits w (shrW w a k) (shrBit w a k) := by
  unfold shrW
  split
  case isTrue hk =>
    refine ⟨Nat.two_pow_pos w, fun i _ => ?_⟩
    simp [shrBit, bitAt_eq_testBit, Nat.not_lt.mpr (Nat.le_add_left_of_le hk)]
  case isFalse =>
    refine ⟨Nat.lt_of_le_of_lt (Nat.div_le_self ..) ha, fun i _ => ?_⟩
    have hquot : bitAt (a / 2 ^ k) i = bitAt a (i + k) := by rw [bitAt_eq_testBit, Nat.testBit_div_two_pow, bitAt_eq_testBit]
    rw [hquot, shrBit]
    by_cases hik : i + k < w
    · rw [decide_eq_true hik, Bool.true_and]
    · rw [bitAt_eq_false_of_lt ha (Nat.not_lt.mp hik), Bool.and_false]

/-! ## The arithmetic shift -/

/-- S of a pattern is the signed value of the bit vector. -/
theorem toInt_ofNat_eq_sval {w a : Nat} (hw : 0 < w) (ha : a < 2 ^ w) : (BitVec.ofNat w a).toInt = sval w a := by
  have hsign : 2 * a < 2 ^ w ↔ ¬ 2 ^ (w - 1) ≤ a := by
    rw [← Nat.two_pow_pred_mul_two hw]
    omega
  simp only [BitVec.toInt_eq_toNat_cond, BitVec.toNat_ofNat, Nat.mod_eq_of_lt ha, sval, hsign, ite_not, Int.natCast_pow, Int.cast_ofNat_Int]

theorem wrap_sval_div {w a : Nat} (hw : 0 < w) (ha : a < 2 ^ w) (m : Nat) :
    wrap w (sval w a / 2 ^ m) = ((BitVec.ofNat w a).sshiftRight m).toNat := by
  rw [BitVec.sshiftRight_eq, BitVec.toNat_ofInt, Int.shiftRight_eq_div_pow, toInt_ofNat_eq_sval hw ha]
  simp [wrap]

/-- A shift by more than the width is one by the width: the sign fills the word (R287). -/
theorem shraW_hasBits {w a : Nat} (hw : 0 < w) (ha : a < 2 ^ w) (k : Nat) : HasBits w (shraW w a k) (shraBit w a k) := by
  unfold shraW
  rw [wrap_sval_div hw ha]
  refine hasBits_toNat fun i hi => ?_
  rw [BitVec.getLsbD_sshiftRight, decide_eq_false (Nat.not_le.mpr hi), Bool.not_false, Bool.true_and, msb_ofNat_eq_bitAt a hw, shraBit]
  by_cases hik : i + k < w
  · have hk : ¬ w ≤ k := by omega
    rw [if_neg hk, if_pos (by omega), if_pos hik, Nat.add_comm, getLsbD_ofNat_eq_bitAt a hik]
  · rw [if_neg hik, if_neg (by split <;> omega)]

/-! ## The rotation -/

/-- The high `m` bits of a pattern. -/
theorem div_two_pow_lt {w m a : Nat} (hm : m ≤ w) (ha : a < 2 ^ w) : a / 2 ^ (w - m) < 2 ^ m := by
  rwa [Nat.div_lt_iff_lt_mul (Nat.two_pow_pos _), ← Nat.pow_add, Nat.add_sub_cancel' hm]

/-- A rotation puts the low bits of the pattern above its high ones. -/
theorem rotlW_eq_low_above_high {w : Nat} (hw : 0 < w) (a k : Nat) :
    rotlW w a k = 2 ^ (k % w) * (a % 2 ^ (w - k % w)) + a / 2 ^ (w - k % w) := by
  have hsplit : 2 ^ w = 2 ^ (k % w) * 2 ^ (w - k % w) := by rw [← Nat.pow_add, Nat.add_sub_cancel' (Nat.le_of_lt (Nat.mod_lt k hw))]
  rw [rotlW, Nat.mul_comm a, hsplit, Nat.mul_mod_mul_left]

theorem rotlW_lt {w a : Nat} (hw : 0 < w) (ha : a < 2 ^ w) (k : Nat) : rotlW w a k < 2 ^ w := by
  have hm : k % w ≤ w := Nat.le_of_lt (Nat.mod_lt k hw)
  have hhigh := div_two_pow_lt hm ha
  have hlow : a % 2 ^ (w - k % w) < 2 ^ (w - k % w) := Nat.mod_lt _ (Nat.two_pow_pos _)
  calc rotlW w a k = 2 ^ (k % w) * (a % 2 ^ (w - k % w)) + a / 2 ^ (w - k % w) := rotlW_eq_low_above_high hw a k
    _ < 2 ^ (k % w) * (a % 2 ^ (w - k % w) + 1) := by rw [Nat.mul_succ]; exact Nat.add_lt_add_left hhigh _
    _ ≤ 2 ^ (k % w) * 2 ^ (w - k % w) := Nat.mul_le_mul_left _ hlow
    _ = 2 ^ w := by rw [← Nat.pow_add, Nat.add_sub_cancel' hm]

theorem rotlW_hasBits {w a : Nat} (hw : 0 < w) (ha : a < 2 ^ w) (k : Nat) : HasBits w (rotlW w a k) (rotlBit w a k) := by
  have hm : k % w < w := Nat.mod_lt k hw
  refine ⟨rotlW_lt hw ha k, fun i hi => ?_⟩
  rw [rotlW_eq_low_above_high hw, rotlBit, bitAt_eq_testBit, bitAt_eq_testBit, Nat.testBit_two_pow_mul_add _ (div_two_pow_lt (Nat.le_of_lt hm) ha)]
  split
  case isTrue him =>
    have hstay : (i + (w - k % w)) % w = i + (w - k % w) := Nat.mod_eq_of_lt (by omega)
    rw [Nat.testBit_div_two_pow, hstay]
  case isFalse him =>
    have hback : (i + (w - k % w)) % w = i - k % w := by
      rw [show i + (w - k % w) = i - k % w + w by omega, Nat.add_mod_right]
      exact Nat.mod_eq_of_lt (by omega)
    rw [Nat.testBit_mod_two_pow, decide_eq_true (by omega), Bool.true_and, hback]

/-! ## The words and the halves -/

/-- Each shift gives a pattern with its bits, whatever the amount. -/
theorem shift_hasBits {o : A2} {w64 : Bool} {i : Instr} {f : Nat → Nat → Nat → Nat → Bool}
    (hi : (i, f) ∈ [(Instr.shl o w64, shlBit), (.shr o w64, shrBit), (.shra o w64, shraBit), (.rotl o w64, rotlBit)]) :
    ∃ op : Nat → Nat → Nat → Nat, (∀ s, exec i s = .next (aluShift s o w64 op)) ∧
      ∀ {w a : Nat}, 0 < w → a < 2 ^ w → ∀ k, HasBits w (op w a k) (f w a k) := by
  simp only [List.mem_cons, Prod.mk.injEq, List.not_mem_nil, or_false] at hi
  obtain ⟨rfl, rfl⟩ | ⟨rfl, rfl⟩ | ⟨rfl, rfl⟩ | ⟨rfl, rfl⟩ := hi
  · exact ⟨shlW, fun _ => rfl, fun _ _ => shlW_hasBits _ _⟩
  · exact ⟨shrW, fun _ => rfl, fun _ => shrW_hasBits⟩
  · exact ⟨shraW, fun _ => rfl, shraW_hasBits⟩
  · exact ⟨rotlW, fun _ => rfl, rotlW_hasBits⟩

theorem aluShift_done {s : State} {o : A2} {w64 : Bool} (f : Nat → Nat → Nat → Nat) (hs : Issuing s)
    (hr : Ready s o.pg (shiftSrcs o w64) o.d (wWords w64)) :
    WordDone s (aluShift s o w64 f) o.pg (shiftSrcs o w64) (some o.d) fun w x =>
      natOut (wWords w64) (f (wBits w64) (patA s (shiftSrcs o w64) w64 w x) (patB s (shiftSrcs o w64) false w x)) :=
  aluWord_done hs (fun _ _ _ _ _ _ => rfl) fun tid x w hl hp => by
    obtain ⟨hsound, hclean⟩ := hr tid x w hl hp
    exact ⟨hsound, hclean, rfl⟩

theorem halfOut_of_sopInt {h : Half} {v : List Opv} {r : Nat} (hmov : h.sop ≠ .mov)
    (hr : sopInt h.sop ((opv v 0).nat false) ((opv v 1).nat false) = some r) (s : State) (w : Workgroup) (x : Thread) :
    halfOut h s w x v = natOut 1 r := by
  unfold halfOut
  split
  case h_1 hm => exact absurd hm hmov
  case h_2 => rw [hr]; rfl

/-- Settles O52: the four words and the two halves write the number that the shift gives, and it has the bits of R287. -/
theorem shifts : Obligations.Shifts := by
  refine ⟨fun o w64 s hs hr i f hi => ?_, fun h s w x v f hf => ?_⟩
  · obtain ⟨op, hexec, hbits⟩ := shift_hasBits hi
    exact ⟨_, _, hexec s, aluShift_done op hs hr, fun w x => ⟨_, hbits (wBits_pos w64) (Opv.nat_lt ..) _, rfl⟩⟩
  · have ha : (opv v 0).nat false < 2 ^ 32 := Opv.nat_lt _ false
    simp only [List.mem_cons, Prod.mk.injEq, List.not_mem_nil, or_false] at hf
    obtain ⟨hsop, rfl⟩ | ⟨hsop, rfl⟩ := hf
    · exact ⟨_, shlW_hasBits .., halfOut_of_sopInt (by simp [hsop]) (by rw [hsop]; rfl) s w x⟩
    · exact ⟨_, shrW_hasBits ha _, halfOut_of_sopInt (by simp [hsop]) (by rw [hsop]; rfl) s w x⟩

end Sys2Proof.Machine
end

section
/-! PROOFS of the tangent program's family. A constant is read without shadow words, and a component that is not there reads as +0. -/

namespace Sys2Proof.Machine

/-! ## Constants (R271, R430) -/

/-- A constant is read as its words alone, with none of the shadow words that a register carries beside its own. -/
theorem readSrc_sh_of_isConstant {o : Src} (h : IsConstant o.op) (s : State) (w : Workgroup) (x : Thread) (pops : List Nat) (k : Nat) (kind : OpK) :
    (readSrc s w x pops o k kind).val.sh = [] := by
  obtain hzero | hlit | ⟨n, hint⟩ | ⟨n, hcst⟩ := h
  · simp only [readSrc, hzero]
  · simp only [readSrc, hlit]
  · simp only [readSrc, hint]
  · simp only [readSrc, hcst]

/-! ## Operands without shadow words -/

theorem tanOf_of_sh_nil {v : Opv} (h : v.sh = []) (j k : Nat) : tanOf v j k = 0 := by
  rw [tanOf, h, List.getD_nil, List.take_nil]
  rfl

/-- A move without dual components writes no tangent; with them, a component that is active reads past the end of the list, and one that is not is +0 already (R238). -/
theorem moveSh_of_sh_nil {v : Opv} (h : v.sh = []) (s : State) (w : Workgroup) (x : Thread) (n : Nat) :
    ∀ l ∈ moveSh s w x n v, ∀ y ∈ l, y = 0 := by
  intro l hl y hy
  simp only [moveSh] at hl
  split at hl
  case isTrue plain => exact absurd hl List.not_mem_nil
  case isFalse dual =>
    obtain ⟨j, -, rfl⟩ := List.mem_map.mp hl
    split at hy
    case isTrue active =>
      obtain ⟨i, -, rfl⟩ := List.mem_map.mp hy
      rw [h, List.getD_nil, List.getD_nil]
    case isFalse idle => exact absurd hy List.not_mem_nil

/-- Settles O54: a constant is read without shadow words, so that each component of its tangent, and each word a move takes from one, is +0. -/
theorem constantTangents : Obligations.ConstantTangents := by
  intro s w x pops o k kind h
  have bare := readSrc_sh_of_isConstant h s w x pops k kind
  exact ⟨tanOf_of_sh_nil bare, moveSh_of_sh_nil bare s w x⟩

end Sys2Proof.Machine
end

section
/-! PROOFS of the words that compute lane by lane. Each of them runs as its specification says in every lane that passes the guard, and a lane's result does
not depend on what the lanes before it did. -/

namespace Sys2Proof.Machine

/-! ## Words whose result is written at once (R281 to R324) -/

/-- The machine runs the word of `a` with the function `f`, which depends on no other lane and is that of `a` where the word begins. The causes that need no
operand are checked first where the word has any. -/
structure WordSpec.RunsBy (a : WordSpec) (s : State) (i : Instr) (f : State → Workgroup → Thread → List Opv → AluOut) : Prop where
  here : f s = a.out s
  apart : ∀ ths lds n w x v, f (withLanes s ths lds n) w x v = f s w x v
  runs : exec i s = .next (aluWord s a.pg a.srcs a.d a.kd f) ∨ ∃ d, a.d = some d ∧ exec i s = .next (aluWordPre s a.pg a.srcs d a.kd (a.pre s) f)

theorem WordSpec.RunsBy.done {a : WordSpec} {s : State} {i : Instr} {f : State → Workgroup → Thread → List Opv → AluOut} (h : a.RunsBy s i f)
    (hs : Issuing s) (ha : a.sound s) : ∃ t, exec i s = .next t ∧ WordDone s t a.pg a.srcs a.d (a.lane s) := by
  have hlane : a.lane s = fun w x => f s w x (readSrcs s w x a.srcs []).vals := by rw [h.here]; rfl
  obtain hexec | ⟨d, hd, hexec⟩ := h.runs
  · refine ⟨_, hexec, ?_⟩
    rw [hlane]
    refine aluWord_done hs h.apart fun tid x w hl hp => ?_
    obtain ⟨hsound, hclean, -, hcause⟩ := ha tid x w hl hp
    exact ⟨hsound, hclean, by rw [h.here]; exact hcause⟩
  · refine ⟨_, hexec, ?_⟩
    rw [hd, hlane]
    refine aluWordPre_done hs h.apart fun tid x w hl hp => ?_
    obtain ⟨hsound, hclean, hpre, hcause⟩ := ha tid x w hl hp
    rw [hd] at hsound
    exact ⟨hsound, hclean, hpre, by rw [h.here]; exact hcause⟩

theorem intSpec_runsBy {i : Instr} {a : WordSpec} (ha : intSpec i = some a) (s : State) : a.RunsBy s i a.out := by
  unfold intSpec at ha
  split at ha
  case h_44 => exact absurd ha nofun
  all_goals
    obtain rfl := Option.some.inj ha
    exact ⟨rfl, fun _ _ _ _ _ _ => rfl, .inl rfl⟩

/-- Settles O10: each of these words runs as its specification in every active lane. -/
theorem integerWords : Obligations.IntegerWords := fun _ _ s hspec hs hsound => (intSpec_runsBy hspec s).done hs hsound

theorem floatSpec_out_withLanes (pg : Guard) (d : Dst) (srcs : List Src) (h : FShape) (rnd : Rnd) (mods : List (Bool × Bool)) (o : FOp) (s : State)
    (ths : List Thread) (lds : List OutLoad) (n : Nat) (w : Workgroup) (x : Thread) (v : List Opv) :
    (floatSpec pg d srcs h rnd mods o).out (withLanes s ths lds n) w x v = (floatSpec pg d srcs h rnd mods o).out s w x v :=
  floatLane_withLanes h rnd mods o s ths lds n w x v

theorem floatSpec_runsBy {pg : Guard} {d : Dst} {srcs : List Src} {h : FShape} {rnd : Rnd} {mods : List (Bool × Bool)} {o : FOp} {s : State} {i : Instr}
    (hi : exec i s = .next (floatWord s pg d srcs h rnd mods o)) : (floatSpec pg d srcs h rnd mods o).RunsBy s i (floatLane h rnd mods o) where
  here := rfl
  apart := floatSpec_out_withLanes pg d srcs h rnd mods o s
  runs := .inl hi

/-- The conversions under a record look at the whole group for the block check, so their function is that of the state in which the word began (R322). -/
theorem convSpec_runsBy {o : A2} {desc quant : Bool} {f : TRec → EFmt → Thread → Nat → FRes × W32} {s : State} {i : Instr}
    (hi : exec i s = .next (convWord s o desc quant f)) : (convSpec o desc quant f).RunsBy s i fun _ => (convSpec o desc quant f).out s where
  here := rfl
  apart _ _ _ _ _ _ := rfl
  runs := .inr ⟨o.d, rfl, hi.trans rfl⟩

theorem floatNow_runsBy {i : Instr} {a : WordSpec} (ha : floatNow i = some a) (s : State) : ∃ f, a.RunsBy s i f := by
  unfold floatNow at ha
  split at ha
  case h_25 => exact absurd ha nofun
  case h_9 | h_10 | h_18 | h_20 | h_21 | h_24 =>
    obtain rfl := Option.some.inj ha
    exact ⟨_, rfl, fun _ _ _ _ _ _ => rfl, .inl rfl⟩
  case h_19 o _ _ _ =>
    obtain rfl := Option.some.inj ha
    exact ⟨_, rfl, fun _ _ _ _ _ _ => rfl, .inr ⟨o.d, rfl, rfl⟩⟩
  case h_22 | h_23 =>
    obtain rfl := Option.some.inj ha
    exact ⟨_, convSpec_runsBy rfl⟩
  all_goals
    obtain rfl := Option.some.inj ha
    exact ⟨_, floatSpec_runsBy rfl⟩

/-- Settles O11: each of these words runs as its specification in every active lane; only the conversions check a cause before the operands. -/
theorem floatWords : Obligations.FloatWords := fun _ _ s hspec hs hsound =>
  let ⟨_, h⟩ := floatNow_runsBy hspec s
  h.done hs hsound

/-! ## Words whose result comes later (R167) -/

/-- The function of a late word depends on no other lane, and the machine runs the word with it. -/
theorem lateSpec_runs {i : Instr} {a : WordSpec} (ha : lateSpec i = some a) (s : State) :
    exec i s = .next (aluLate s a.pg a.srcs (dstOr a.d) a.kd a.out) ∧ ∀ ths lds n w x v, a.out (withLanes s ths lds n) w x v = a.out s w x v := by
  unfold lateSpec at ha
  split at ha
  case h_1 | h_2 =>
    obtain rfl := Option.some.inj ha
    exact ⟨rfl, fun _ _ _ _ _ _ => rfl⟩
  case h_15 => exact absurd ha nofun
  all_goals
    obtain rfl := Option.some.inj ha
    exact ⟨rfl, floatSpec_out_withLanes _ _ _ _ _ _ _ s⟩

/-- Settles O12: each of these words runs as its specification in every active lane, and its value is on its way. -/
theorem lateWords : Obligations.LateWords := by
  intro i a s hspec hs ha
  obtain ⟨hexec, hlocal⟩ := lateSpec_runs hspec s
  refine ⟨_, hexec, aluLate_done hs hlocal fun tid x w hl hp => ?_⟩
  obtain ⟨hsound, hclean, -, hcause⟩ := ha tid x w hl hp
  exact ⟨hsound, hclean, hcause⟩

end Sys2Proof.Machine
end

section
/-! PROOFS of the cross-lane words. Each of them writes, in every active lane, a result from the operands of all of them; POISON reaches no uniform register. -/

namespace Sys2Proof.Machine

/-- Where the lanes are sound, the machine runs the word of `a` over them together and writes its result in each. -/
structure CrossSpec.RunsBy (a : CrossSpec) (s : State) (i : Instr) (act : State → List XLane → State) : Prop where
  runs : exec i s = .next (crossLane s a.pg a.srcs (dstOr a.d) a.kd a.prop (fun _ _ => none) act)
  writes : ∀ ths, act { s with threads := ths } (xLanes s a.pg a.srcs) =
    crossWrite { s with threads := ths } a.srcs a.d (xLanes s a.pg a.srcs) (a.out s (xLanes s a.pg a.srcs))

theorem CrossSpec.RunsBy.done {a : CrossSpec} {s : State} {i : Instr} {act : State → List XLane → State} (h : a.RunsBy s i act)
    (hs : Issuing s) (ha : a.sound s) : ∃ t, exec i s = .next t ∧ WordDone s t a.pg a.srcs a.d (a.lane s) := by
  obtain ⟨hactive, hlanes⟩ := ha
  refine ⟨_, h.runs, cross_done hs hactive (fun tid x w hl hp => ?_) h.writes⟩
  obtain ⟨hsound, hclean, -⟩ := hlanes tid x w hl hp
  exact ⟨hsound, hclean⟩

theorem xLanes_ne_nil {s : State} {pg : Guard} (h : activeLanes s pg ≠ []) (l : List SrcSpec) : xLanes s pg l ≠ [] := by
  simpa [xLanes] using h

/-- No lane offers POISON to a word that writes a uniform register (R163). -/
theorem CrossSpec.sound.clean {a : CrossSpec} {s : State} (ha : a.sound s) (hs : Issuing s) (hg : ∃ n, a.d = some (.g n)) :
    ∀ y ∈ xLanes s a.pg a.srcs, y.vals.any (·.poison) = false := by
  intro y hy
  obtain ⟨⟨x, w⟩, hmem, rfl⟩ := List.mem_map.mp hy
  obtain ⟨hl, hp⟩ := lane_of_active hs hmem
  exact (ha.2 _ _ _ hl hp).2.2 hg

/-- A word that moves values between lanes writes them as they are: none of them is POISON where that matters. -/
theorem crossMove_fromLane {s : State} {ths : List Thread} {l : List SrcSpec} {d : Dst} {lanes : List XLane} (k : Nat) (j : XLane → Int)
    (h : (∃ n, d = .g n) → ∀ y ∈ lanes, y.vals.any (·.poison) = false) :
    crossMove { s with threads := ths } l d lanes (fun x => fromLane { s with threads := ths } k lanes x (j x)) =
      crossWrite { s with threads := ths } l (some d) lanes fun x => fromLane s k lanes x (j x) :=
  crossMove_clean fun hg x hx => fromLane_clean (h hg x hx) (h hg)

/-- REDIDX alone asks whether some lane is active (R331). -/
theorem crossSpec_runsBy {i : Instr} {a : CrossSpec} (hspec : crossSpec i = some a) {s : State} (hs : Issuing s) (ha : a.sound s) :
    ∃ act, a.RunsBy s i act := by
  unfold crossSpec at hspec
  split at hspec
  case h_1 o mode off w64 =>
    obtain rfl := Option.some.inj hspec
    have clean (hg : ∃ n, o.d = .g n) := ha.clean hs (hg.imp fun _ hn => congrArg some hn)
    cases off with
    | _ => exact ⟨_, rfl, fun _ => crossMove_fromLane _ _ clean⟩
  case h_2 o b w64 =>
    obtain rfl := Option.some.inj hspec
    have clean (hg : ∃ n, o.d = .g n) := ha.clean hs (hg.imp fun _ hn => congrArg some hn)
    cases b with
    | _ => exact ⟨_, rfl, fun _ => crossMove_fromLane _ _ clean⟩
  case h_3 pg c n neg =>
    obtain rfl := Option.some.inj hspec
    cases c with
    | _ => exact ⟨_, rfl, fun _ => rfl⟩
  case h_8 o max f u =>
    obtain rfl := Option.some.inj hspec
    refine ⟨_, rfl, fun ths => ?_⟩
    obtain ⟨first, rest, hlanes⟩ := List.exists_cons_of_ne_nil (xLanes_ne_nil ha.1 _)
    dsimp only at hlanes ⊢
    rw [hlanes]
    rfl
  case h_10 => exact absurd hspec nofun
  all_goals
    obtain rfl := Option.some.inj hspec
    exact ⟨_, rfl, fun _ => rfl⟩

/-- Settles O13: each of these words writes its result over the active lanes, once none of them has a cause. -/
theorem crossLaneWords : Obligations.CrossLaneWords := fun _ _ _ hspec hs ha =>
  let ⟨_, h⟩ := crossSpec_runsBy hspec hs ha
  h.done hs ha

end Sys2Proof.Machine
end

section
/-! PROOFS of the control words. A lane keeps its thread, or has its depth and link stack changed where control goes elsewhere; no other thread is touched. -/

namespace Sys2Proof.Machine

/-! ## What a lane of a control word does to its thread -/

/-- A lane that leaves its machine as it is: the word only decides where control goes. -/
theorem done_of_still {i : Instr} {s : State} {a : ControlSpec} {f : State → Workgroup → Thread → List Opv → State × LaneRes} (hs : Issuing s) (ha : a.sound s)
    (hexec : exec i s = .next (controlWord s a.pg a.srcs f)) (hsame : ∀ x, controlThread a s x = x)
    (hf : ∀ ths w x v, a.ok s x v → f (withThreads s ths) w x v = (withThreads s ths, (a.goes s w x v).res)) :
    ∃ t, exec i s = .next t ∧ LanesDone s t a.pg (a.done s) := by
  refine ⟨_, hexec, controlWord_done hs ha fun ths tid x w _ _ hx hok => ⟨ths, hf ths w x _ hok, ?_, fun _ _ => rfl⟩⟩
  rw [hx, hsame x]
  split <;> rfl

/-- A lane that changes its own depth and link stack and jumps. -/
theorem done_of_jump {i : Instr} {s : State} {a : ControlSpec} {f : State → Workgroup → Thread → List Opv → State × LaneRes}
    (pc : Thread → List Opv → Word) (g : Thread → Thread → Thread) (hs : Issuing s) (ha : a.sound s)
    (hexec : exec i s = .next (controlWord s a.pg a.srcs f))
    (hgoes : ∀ w x v, a.goes s w x v = .jump (pc x v)) (hg : ∀ x, g x x = controlThread a s x) (htid : ∀ x y, (g x y).tid = y.tid)
    (hf : ∀ ths w x v, a.ok s x v → f (withThreads s ths) w x v = (modT (withThreads s ths) x.tid (g x), .jump (pc x v))) :
    ∃ t, exec i s = .next t ∧ LanesDone s t a.pg (a.done s) := by
  refine ⟨_, hexec, controlWord_done hs ha fun ths tid x w hl _ hx hok => ⟨(modT (withThreads s ths) x.tid (g x)).threads, ?_, ?_, fun u hu => ?_⟩⟩
  · rw [hf ths w x _ hok, hgoes]
    rfl
  · obtain rfl := getT_tid hl.thread
    rw [hgoes]
    have hmod : getT (modT (withThreads s ths) x.tid (g x)) x.tid = some (g x x) := by rw [getT_modT fun y hy => (htid x y).trans hy, hx]; rfl
    exact hmod.trans (congrArg some (hg x))
  · rw [← getT_tid hl.thread] at hu
    exact getT_modT_ne (fun y hy => (htid x y).trans hy) hu

/-! ## Calls and returns (R302, R303) -/

/-- The thread `y` after the call that `x` makes: the frames that `x` had stand below the new one. -/
def calledFrom (s : State) (x y : Thread) : Thread := { y with depth := y.depth + 1, links := (y.depth + 1, s.cur.pc + 8) :: x.links }

theorem callTo_of_callOk {x : Thread} (h : callOk x) (s : State) (w : Workgroup) (target : Word) :
    callTo s w x target = (modT s x.tid (calledFrom s x), .jump target) := by
  obtain ⟨hdepth, hlinks⟩ := h
  rw [callTo, if_neg (Nat.not_le.mpr hdepth), if_pos hlinks]
  rfl

/-- A thread after it returned over `n` frames. -/
def returnedOver (n : Nat) (x : Thread) : Thread := { x with depth := x.depth - n, links := x.links.filter fun l => decide (l.1 ≤ x.depth - n) }

theorem returnAddr_of_retOk {n : Nat} {x : Thread} (h : retOk n x) (s : State) (w : Workgroup) :
    returnAddr s w x (x.depth - n + 1) = (s, .inl (retAddr n x)) := by
  obtain ⟨-, -, hlink, -⟩ := h
  obtain ⟨l, hl⟩ := Option.isSome_iff_exists.mp hlink
  simp [returnAddr, retAddr, hl]

theorem returnOver_finish_of_retOk {n : Nat} {x : Thread} (h : retOk n x) (s : State) (w : Workgroup) :
    returnOver.finish w x n s = (modT s x.tid (returnedOver n), .jump (retAddr n x)) := by
  obtain ⟨-, -, -, hcolours⟩ := id h
  rw [returnOver.finish, returnAddr_of_retOk h]
  simp only [hcolours]
  rfl

theorem returnOver_of_retOk {n : Nat} {x : Thread} (h : retOk n x) (s : State) (w : Workgroup) :
    returnOver s w x n = (modT s x.tid (returnedOver n), .jump (retAddr n x)) := by
  obtain ⟨hopen, habove, hlink, -⟩ := id h
  obtain ⟨l, hl⟩ := Option.isSome_iff_exists.mp hlink
  have hframe : ¬ (x.trap.inh && decide (x.depth - n < x.trap.depth + 1)) = true := by
    simp only [Bool.and_eq_true, decide_eq_true_eq, not_and, Nat.not_lt]
    exact habove
  rw [returnOver, if_neg (Nat.not_lt.mpr hopen), if_neg hframe]
  dsimp only
  rw [hl]
  split
  case h_1 | h_2 => exact returnOver_finish_of_retOk h s w
  case h_3 => contradiction

theorem return_done {i : Instr} {s : State} {pg : Guard} {n : Nat} (hs : Issuing s) (ha : (retSpec pg n).sound s)
    (hexec : exec i s = .next (controlWord s pg [] fun s w t _ => returnOver s w t n)) :
    ∃ t, exec i s = .next t ∧ LanesDone s t (retSpec pg n).pg ((retSpec pg n).done s) :=
  done_of_jump (a := retSpec pg n) (fun x _ => retAddr n x) (fun _ => returnedOver n) hs ha hexec (fun _ _ _ => rfl) (fun _ => rfl) (fun _ _ => rfl)
    fun _ w _ _ hok => returnOver_of_retOk hok _ w

/-! ## The words -/

/-- NOP reads nothing, so that its lanes only pass it (R299). -/
theorem nop_done {s : State} {pg : Guard} (hs : Issuing s) (ha : ({ pg := pg } : ControlSpec).sound s) :
    LanesDone s (perLane s pg fun s w t => withSrcs s w t [] .zero 0 noCauses fun _ _ => (s, .retire [])) pg (({ pg := pg } : ControlSpec).done s) := by
  refine (perLane_moves (fun _ x => x) (fun _ _ => .retire []) hs (fun tid x w hl _ => ⟨getT_tid hl.thread, hl.ready, rfl, rfl⟩)
    fun ths tid x w hl hp hx => ⟨ths, ?_, hx, fun _ _ => rfl⟩).mono fun tid x w y _ _ hy => ?_
  · obtain ⟨-, hdual, hcauses, hfull, -⟩ := ha tid x w hl hp
    exact withSrcs_ok hdual rfl (by simpa using hcauses) (by simpa using hfull) rfl
  · rw [hy]
    exact ⟨readDone_takeSources (z := x) [] [] ⟨rfl, rfl, rfl⟩ (by rw [takeSources_nil]; exact ⟨rfl, rfl, rfl⟩), rfl⟩

/-- Settles O14: where the conditions of a word hold, its lanes keep their threads or change their own depth and links. -/
theorem controlWords : Obligations.ControlWords := by
  intro i a s hspec hs ha
  unfold controlSpec at hspec
  split at hspec
  case h_1 pg =>
    obtain rfl := Option.some.inj hspec
    exact ⟨_, rfl, nop_done hs ha⟩
  case h_2 pg mode b off =>
    obtain rfl := Option.some.inj hspec
    refine done_of_still hs ha rfl (fun _ => rfl) fun ths w x v _ => ?_
    dsimp only
    split <;> rfl
  case h_3 pg tab b off =>
    obtain rfl := Option.some.inj hspec
    exact done_of_still hs ha rfl (fun _ => rfl) fun _ _ _ _ hok => if_neg fun hn => hn hok
  case h_4 pg off =>
    obtain rfl := Option.some.inj hspec
    exact done_of_jump _ (calledFrom s) hs ha rfl (fun _ _ _ => rfl) (fun _ => rfl) (fun _ _ => rfl) fun _ w _ _ hok => callTo_of_callOk hok _ w _
  case h_5 pg tab b off =>
    obtain rfl := Option.some.inj hspec
    refine done_of_jump _ (calledFrom s) hs ha rfl (fun _ _ _ => rfl) (fun _ => rfl) (fun _ _ => rfl) fun _ w _ _ hok => ?_
    exact (if_neg fun hn => hn hok.2).trans (callTo_of_callOk hok.1 _ w _)
  case h_6 pg =>
    obtain rfl := Option.some.inj hspec
    exact return_done hs ha rfl
  case h_7 pg n =>
    obtain rfl := Option.some.inj hspec
    exact return_done hs ha rfl
  case h_8 pg b =>
    obtain rfl := Option.some.inj hspec
    refine done_of_still hs ha rfl (fun _ => rfl) fun ths w x v _ => ?_
    have hzero : Nat.min ((opv v 0).nat false) (2 ^ 20) = 0 ↔ (opv v 0).nat false = 0 := by
      simp
    simp only [hzero]
    split <;> rfl
  case h_9 => exact absurd hspec nofun

end Sys2Proof.Machine
end

section
/-! PROOFS of MOV, TMOV and the pair words. MOV and TMOV to the primal write as an ALU word does; TMOV to a tangent writes one component of each register; a pair
word reads both halves before either writes. -/

namespace Sys2Proof.Machine

/-! ## MOV, and TMOV to the primal (R285, R411) -/

/-- No POISON goes to a uniform register where the destination is none or no operand is POISON (R163). -/
theorem gPoison_none_of_clean {s : State} {pg : Guard} {l : List SrcSpec} {d : Dst} {extra : State → Workgroup → Thread → List Cause} (hs : Issuing s)
    (hd : (∀ n, d ≠ .g n) ∨ ∀ tid x w, Lane s tid x w → passes x pg = true → Clean s w x l) : gPoison s pg l d extra = none := by
  obtain hd | hclean := hd
  · unfold gPoison
    split
    · exact absurd rfl (hd _)
    · rfl
  · exact gPoison_none hs hclean

theorem propRetire_of_none (s : State) (w : Workgroup) (x : Thread) (l : List SrcSpec) (pops : List Nat) (d : Dst) (o : AluOut) :
    propRetire s w x l pops d none o = aluRetire s w x l pops (some d) o := rfl

theorem tmov_primal_done {o : A1} {js : BitVec 3} {w64 : Bool} {s : State} (hs : Issuing s)
    (hd : (∀ n, o.d ≠ .g n) ∨ ∀ tid x w, Lane s tid x w → passes x o.pg = true → Clean s w x [intSrc w64 o.a])
    (hp : ∀ tid x w, Lane s tid x w → passes x o.pg = true → TmovSound s o js 0 w64 w x) :
    ∃ t, exec (.tmov o js 0 w64) s = .next t ∧ WordDone s t o.pg [intSrc w64 o.a] (some o.d) (tmovOut o js w64 s) := by
  refine ⟨_, rfl, word_done (f := fun _ _ _ v => { words := compWords (opv v 0) js.toNat (wWords w64), bad := (opv v 0).bad }) hs
    (fun ths lds n tid x w hl hpass => ?_) fun tid x w hl hpass => ⟨(hp tid x w hl hpass).plain, (hp tid x w hl hpass).armed⟩⟩
  have h := hp tid x w hl hpass
  rw [gPoison_none_of_clean hs hd,
    withSrcs_ok (by simpa using h.dual) (by simp [h.shadows.1]) (by simpa using h.causes) (by simpa using h.full) h.dst]
  simp only [readSrcs_withLanes, if_true, propRetire_of_none]

theorem mov_done {o : A1} {w64 : Bool} {s : State} (hs : Issuing s)
    (hd : (∀ n, o.d ≠ .g n) ∨ ∀ tid x w, Lane s tid x w → passes x o.pg = true → Clean s w x [intSrc w64 o.a])
    (hp : ∀ tid x w, Lane s tid x w → passes x o.pg = true → Sound s w x [intSrc w64 o.a] o.d (wWords w64)) :
    ∃ t, exec (.mov o w64) s = .next t ∧ WordDone s t o.pg [intSrc w64 o.a] (some o.d) (movOut o w64 s) :=
  ⟨_, rfl, aluProp_done hs (fun _ _ _ _ _ _ => rfl) hd fun tid x w hl hpass => ⟨hp tid x w hl hpass, rfl⟩⟩

/-! ## TMOV to a tangent -/

/-- The thread `t` after component `j` of the registers of a destination is written, from what they held in `x`. -/
def writeTangent (x : Thread) (shadows : Nat) (d : Dst) (k j : Nat) (words : List W32) (bad : List Bool) (t : Thread) : Thread :=
  (List.range k).foldl (fun t i => match (dstRegs d k)[i]? with
    | none => t
    | some (isO, n) =>
      if isO then setO t n (setComp (regOf x (isO, n)) shadows j (words.getD i 0) (bad.getD i false))
      else setV t n (setComp (regOf x (isO, n)) shadows j (words.getD i 0) (bad.getD i false))) t

/-- A destination of registers is a run of one file, and its words are the places of the run. -/
structure IsRun (d : Dst) (isO : Bool) (m : Nat) : Prop where
  regs : ∀ k, dstRegs d k = (List.range k).map fun i => (isO, m + i)
  word : ∀ (k : Nat) (r : Bool × Nat), dstWord d r.1 k r.2 = if r.1 = isO ∧ m ≤ r.2 ∧ r.2 < m + k then some (r.2 - m) else none

theorem isRun_v (n : BitVec 8) : IsRun (.v n) false n.toNat where
  regs _ := rfl
  word k r := by
    obtain ⟨isO, n⟩ := r
    cases isO <;> simp [dstWord]

theorem isRun_o (n : BitVec 3) : IsRun (.o n) true n.toNat where
  regs _ := rfl
  word k r := by
    obtain ⟨isO, n⟩ := r
    cases isO <;> simp [dstWord]

theorem foldl_congr_mem {α β : Type} {f g : β → α → β} {l : List α} (h : ∀ b, ∀ a ∈ l, f b a = g b a) {b : β} : l.foldl f b = l.foldl g b := by
  induction l generalizing b with
  | nil => rfl
  | cons x l ih =>
    rw [List.foldl_cons, List.foldl_cons, h b x List.mem_cons_self, ih fun b a ha => h b a (List.mem_cons_of_mem _ ha)]

theorem foldl_fixed {α β : Type} {f : β → α → β} {l : List α} {b : β} (h : ∀ a, f b a = b) : l.foldl f b = b := by
  induction l with
  | nil => rfl
  | cons x l ih => rw [List.foldl_cons, h, ih]

theorem regOf_writeTangent_run {d : Dst} {isO : Bool} {m : Nat} (h : IsRun d isO m) (x : Thread) (shadows k j : Nat) (words : List W32) (bad : List Bool)
    (t : Thread) (r : Bool × Nat) :
    regOf (writeTangent x shadows d k j words bad t) r = match dstWord d r.1 k r.2 with
      | some i => setComp (regOf x r) shadows j (words.getD i 0) (bad.getD i false)
      | none => regOf t r := by
  have hrun : writeTangent x shadows d k j words bad t = (List.range k).foldl (fun t i => (if isO then setO else setV) t (m + i)
      (setComp (regOf x (isO, m + i)) shadows j (words.getD i 0) (bad.getD i false))) t := by
    refine foldl_congr_mem fun t i hi => ?_
    rw [h.regs, List.getElem?_map, List.getElem?_range (List.mem_range.mp hi)]
    cases isO <;> rfl
  have hset : ∀ t n y r, regOf ((if isO then setO else setV) t n y) r = if r = (isO, n) then y else regOf t r := by
    cases isO
    · exact regOf_setV
    · exact regOf_setO
  rw [hrun, regOf_run isO _ hset m (fun i => setComp (regOf x (isO, m + i)) shadows j (words.getD i 0) (bad.getD i false)), h.word]
  split
  case isTrue hr =>
    obtain ⟨hfile, hlo, -⟩ := hr
    rw [Nat.add_sub_cancel' hlo, ← hfile]
  case isFalse => rfl

theorem regOf_writeTangent (x : Thread) (shadows : Nat) (d : Dst) (k j : Nat) (words : List W32) (bad : List Bool) (t : Thread) (r : Bool × Nat) :
    regOf (writeTangent x shadows d k j words bad t) r = match dstWord d r.1 k r.2 with
      | some i => setComp (regOf x r) shadows j (words.getD i 0) (bad.getD i false)
      | none => regOf t r := by
  cases d with
  | v n => exact regOf_writeTangent_run (isRun_v n) ..
  | o n => exact regOf_writeTangent_run (isRun_o n) ..
  | g | lr | zero =>
    obtain ⟨isO, n⟩ := r
    cases isO <;> exact congrFun (congrArg regOf (foldl_fixed fun _ => rfl)) _

theorem keeps_writeTangent (x : Thread) (shadows : Nat) (d : Dst) (k j : Nat) (words : List W32) (bad : List Bool) (t : Thread) :
    Keeps t (writeTangent x shadows d k j words bad t) := by
  refine keeps_foldl _ (fun t i => ?_) _ _
  split
  · exact Keeps.refl t
  · split <;> rfl

theorem rest_writeTangent (x : Thread) (shadows : Nat) (d : Dst) (k j : Nat) (words : List W32) (bad : List Bool) (t : Thread) :
    SameRest t (writeTangent x shadows d k j words bad t) := by
  refine rest_foldl _ (fun t i => ?_) _ _
  split
  · exact SameRest.refl t
  · split <;> exact ⟨rfl, rfl, rfl, rfl, rfl, rfl⟩

theorem writeTangent_p (x : Thread) (shadows : Nat) (d : Dst) (k j : Nat) (words : List W32) (bad : List Bool) (t : Thread) :
    (writeTangent x shadows d k j words bad t).p = t.p := by
  refine List.foldlRecOn (motive := fun y : Thread => y.p = t.p) _ _ rfl fun y hy i _ => ?_
  split
  · exact hy
  · split <;> exact hy

/-- A lane's thread after TMOV to tangent `jd`: sources taken, the component written, lr written. -/
def tangentThread (o : A1) (js jd : BitVec 3) (w64 : Bool) (s : State) (w : Workgroup) (x : Thread) : Thread :=
  writeLr (writeTangent x w.shadows o.d (wWords w64) jd.toNat (tmovOut o js w64 s w x).words (tmovOut o js w64 s w x).bad
    (takeSources x [intSrc w64 o.a] (readSrcs s w x [intSrc w64 o.a] []).pops)) (tmovOut o js w64 s w x).words
    ((tmovOut o js w64 s w x).bad.any id) []

theorem same_writeTangent (x : Thread) (shadows : Nat) (d : Dst) (k j : Nat) (words : List W32) (bad : List Bool) (t : Thread) :
    SameThread t (writeTangent x shadows d k j words bad t) := by
  refine same_foldl _ (fun t i => ?_) _ _
  split
  · exact SameThread.refl t
  · split <;> exact SameThread.refl t

theorem same_tangentThread (o : A1) (js jd : BitVec 3) (w64 : Bool) (s : State) (w : Workgroup) (x : Thread) :
    SameThread x (tangentThread o js jd w64 s w x) :=
  ((same_takeSources x _ _).trans (same_writeTangent ..)).trans (same_writeLr ..)

theorem keeps_tangentThread (o : A1) (js jd : BitVec 3) (w64 : Bool) (s : State) (w : Workgroup) (x : Thread) :
    Keeps x (tangentThread o js jd w64 s w x) :=
  ((keeps_takeSources x _ _).trans (keeps_writeTangent ..)).trans rfl

theorem tangentDone_tangentThread (o : A1) (js jd : BitVec 3) (w64 : Bool) (s : State) (w : Workgroup) (x : Thread) :
    TangentDone s o js jd w64 w x (advance s.cur s.now (tangentThread o js jd w64 s w x)) := by
  obtain ⟨-, -, hfstat, hrng, htanrng⟩ := rest_takeSources x [intSrc w64 o.a] (readSrcs s w x [intSrc w64 o.a] []).pops
  have hrest := rest_writeTangent x w.shadows o.d (wWords w64) jd.toNat (tmovOut o js w64 s w x).words (tmovOut o js w64 s w x).bad
    (takeSources x [intSrc w64 o.a] (readSrcs s w x [intSrc w64 o.a] []).pops)
  have hregs (r : Bool × Nat) : regOf (tangentThread o js jd w64 s w x) r = regTangent [intSrc w64 o.a] o.d (wWords w64) w.shadows jd.toNat
      (tmovOut o js w64 s w x).words (tmovOut o js w64 s w x).bad r.1 r.2 (regOf x r) := by
    refine (regOf_congr rfl rfl r).trans ((regOf_writeTangent ..).trans ?_)
    unfold regTangent
    cases dstWord o.d r.1 (wWords w64) r.2 with
    | some i => rfl
    | none => exact regOf_takeSources ..
  exact ⟨⟨rfl, rfl, rfl⟩, (keeps_tangentThread o js jd w64 s w x).trans rfl, fun n => hregs (false, n), fun n => hregs (true, n), rfl, rfl,
    (writeTangent_p ..).trans (takeSources_p ..), hrest.fstat.trans hfstat, hrest.rng.trans hrng, hrest.tanrng.trans htanrng⟩

/-- The component of the destination may be written: the region declares it, and no register of it is DEAD (R411). -/
theorem TmovSound.noTangentCause {s : State} {o : A1} {js jd : BitVec 3} {w64 : Bool} {w : Workgroup} {x : Thread} (h : TmovSound s o js jd w64 w x) (hjd : jd ≠ 0) :
    ((if w.shadows < js.toNat ∨ w.shadows < jd.toNat then [{ code := 0x16 }] else []) ++
      if jd ≠ 0 ∧ (dstRegs o.d (wWords w64)).any fun r => (if r.1 then oReg x r.2 else vReg x r.2).st == .dead then [{ code := 0x11 }] else [] : List Cause) = [] := by
  obtain ⟨hjs, hjd'⟩ := h.shadows
  have live := h.live hjd
  rw [if_neg (by omega), if_neg]
  · rfl
  · simpa using fun _ => live

theorem tmov_tangent_done {o : A1} {js jd : BitVec 3} {w64 : Bool} {s : State} (hs : Issuing s) (hjd : jd ≠ 0)
    (hp : ∀ tid x w, Lane s tid x w → passes x o.pg = true → TmovSound s o js jd w64 w x) :
    ∃ t, exec (.tmov o js jd w64) s = .next t ∧ LanesDone s t o.pg (TangentDone s o js jd w64) := by
  refine ⟨_, rfl, (perLane_moves (tangentThread o js jd w64 s) (fun _ _ => .retire []) hs (fun tid x w hl _ => ?_) fun ths tid x w hl hpass hx => ?_).mono
    fun tid x w y _ _ hy => hy ▸ tangentDone_tangentThread o js jd w64 s w x⟩
  · obtain ⟨htid, hwg, hrun, -⟩ := same_tangentThread o js jd w64 s w x
    exact ⟨htid.trans (getT_tid hl.thread), hrun.trans hl.ready, hwg, rfl⟩
  · obtain rfl := getT_tid hl.thread
    have h := hp x.tid x w hl hpass
    have htid (y : Thread) (hy : y.tid = x.tid) : (tangentThread o js jd w64 s w x).tid = x.tid := (same_tangentThread o js jd w64 s w x).1
    refine ⟨(modT (withThreads s ths) x.tid fun _ => tangentThread o js jd w64 s w x).threads, ?_, ?_, ?_⟩
    · refine (withSrcs_ok (by exact h.dual) (by exact h.noTangentCause hjd) (by simpa using h.causes) (by simpa using h.full) h.dst).trans ?_
      rw [if_neg hjd, readSrcs_withThreads]
      dsimp only
      rw [disturb_none _ _ ((takeSources_armed ..).trans h.armed) h.plain.single, touchRegs_off _ _ h.plain.rollback h.plain.redund]
      rfl
    · exact (getT_modT htid).trans (by rw [hx]; rfl)
    · exact fun u hu => getT_modT_ne htid hu

/-- Settles O15. -/
theorem moveWords : Obligations.MoveWords :=
  ⟨fun _ _ _ hs hd hp => mov_done hs hd hp, fun _ _ _ _ hs hd hp => tmov_primal_done hs hd hp, fun _ _ _ _ _ hs hjd hp => tmov_tangent_done hs hjd hp⟩

/-! ## Pair words (R273) -/

/-- Every operand of a word has a value, as those of registers have. -/
def HaveWords (vals : List Opv) : Prop := ∀ v ∈ vals, v.words ≠ []

theorem HaveWords.opv {vals : List Opv} (h : HaveWords vals) (i : Nat) : (opv vals i).words ≠ [] := by
  unfold Machine.opv
  rw [List.getD_eq_getElem?_getD]
  cases hv : vals[i]? with
  | none => exact nofun
  | some v => exact h v (List.mem_of_getElem? hv)

theorem readSrc_v_words (s : State) (w : Workgroup) (x : Thread) (pops : List Nat) (n : BitVec 8) (e l : Bool) (k : Nat) (kind : OpK) :
    (readSrc s w x pops ⟨.v n, e, l⟩ k kind).val.words = (List.range k).map fun i => (vReg x (n.toNat + i)).val := by
  unfold readSrc
  dsimp only
  split <;> simp [readRegs]

theorem readSrcs_haveWords_of_regs (s : State) (w : Workgroup) (x : Thread) (ns : List (BitVec 8)) (pops : List Nat) :
    HaveWords (readSrcs s w x (ns.map fun n => ⟨⟨.v n, false, false⟩, 1, .int⟩) pops).vals := by
  induction ns generalizing pops with
  | nil => exact nofun
  | cons n ns ih =>
    intro v hv
    obtain rfl | hv := List.mem_cons.mp hv
    · rw [readSrc_v_words]
      exact nofun
    · exact ih _ v hv

/-- The values of half 0's registers stand before those of half 1's. -/
theorem pair_haveWords (h0 h1 : Half) (s : State) (w : Workgroup) (x : Thread) : HaveWords (readSrcs s w x (halfSrcs h0 ++ halfSrcs h1) []).vals := by
  rw [halfSrcs, halfSrcs, ← List.map_append]
  exact readSrcs_haveWords_of_regs s w x _ []

theorem fWords_sopFloat (p : Sop) : fWords (sopFloat p).1.fmt = 1 := by cases p <;> rfl

/-- A half's result is one word, whatever its operation. -/
theorem halfOut_one_word (h : Half) (s : State) (w : Workgroup) (x : Thread) {v : List Opv} (hv : HaveWords v) : (halfOut h s w x v).words.length = 1 := by
  unfold halfOut
  split
  · obtain ⟨y, ys, hy⟩ := List.exists_cons_of_ne_nil (hv.opv 0)
    simp [hy]
  · split
    · rfl
    · rw [floatLane_words, fWords_sopFloat]
      rfl

theorem pairOut0_one_word (h0 h1 : Half) (s : State) (w : Workgroup) (x : Thread) : (pairOut0 h0 h1 s w x).words.length = 1 :=
  halfOut_one_word _ _ _ _ fun v hv => pair_haveWords h0 h1 s w x v (List.mem_of_mem_take hv)

theorem pairOut1_one_word (h0 h1 : Half) (s : State) (w : Workgroup) (x : Thread) : (pairOut1 h0 h1 s w x).words.length = 1 :=
  halfOut_one_word _ _ _ _ fun v hv => pair_haveWords h0 h1 s w x v (List.mem_of_mem_drop hv)

/-- The write of one register's half. -/
def writeHalf (n : BitVec 8) (o : AluOut) (x : Thread) : Thread := writeDst x (.v n) o.words o.bad o.sh

theorem regOf_writeHalf {o : AluOut} (h : o.words.length = 1) (n : BitVec 8) (x : Thread) (r : Bool × Nat) :
    regOf (writeHalf n o x) r = if r = (false, n.toNat) then regHalf o else regOf x r := by
  rw [writeHalf, regOf_writeDst, h, (isRun_v n).word]
  by_cases hr : r = (false, n.toNat)
  · rw [hr]
    simp [regHalf]
  · have hrun : ¬ (r.1 = false ∧ n.toNat ≤ r.2 ∧ r.2 < n.toNat + 1) := fun ⟨hfile, hlo, hhi⟩ => hr (Prod.ext hfile (by simpa using Nat.le_antisymm (Nat.le_of_lt_succ hhi) hlo))
    rw [if_neg hrun, if_neg hr]

/-- The thread after a pair word: half 1 writes after half 0, and gives lr. -/
def pairThread (h0 h1 : Half) (s : State) (w : Workgroup) (x : Thread) : Thread :=
  let y := writeLr (writeHalf h1.d (pairOut1 h0 h1 s w x) (writeHalf h0.d (pairOut0 h0 h1 s w x) x)) (pairOut1 h0 h1 s w x).words
    ((pairOut1 h0 h1 s w x).bad.any id) (pairOut1 h0 h1 s w x).sh
  { y with fstat := y.fstat ||| (pairOut0 h0 h1 s w x).flags ||| (pairOut1 h0 h1 s w x).flags }

theorem same_pairThread (h0 h1 : Half) (s : State) (w : Workgroup) (x : Thread) : SameThread x (pairThread h0 h1 s w x) :=
  (same_writeDst x ..).trans (same_writeDst ..)

theorem regOf_pairThread (h0 h1 : Half) (s : State) (w : Workgroup) (x : Thread) (r : Bool × Nat) : regOf (pairThread h0 h1 s w x) r =
    if r = (false, h1.d.toNat) then regHalf (pairOut1 h0 h1 s w x) else if r = (false, h0.d.toNat) then regHalf (pairOut0 h0 h1 s w x) else regOf x r := by
  refine (regOf_congr (a := writeHalf h1.d (pairOut1 h0 h1 s w x) (writeHalf h0.d (pairOut0 h0 h1 s w x) x)) rfl rfl r).trans ?_
  rw [regOf_writeHalf (pairOut1_one_word ..), regOf_writeHalf (pairOut0_one_word ..)]

theorem pairDone_pairThread (h0 h1 : Half) (s : State) (w : Workgroup) (x : Thread) : PairDone s h0 h1 w x (advance s.cur s.now (pairThread h0 h1 s w x)) := by
  have hrest : SameRest x (writeHalf h1.d (pairOut1 h0 h1 s w x) (writeHalf h0.d (pairOut0 h0 h1 s w x) x)) := (rest_writeDst ..).trans (rest_writeDst ..)
  have hkeeps : Keeps x (writeHalf h1.d (pairOut1 h0 h1 s w x) (writeHalf h0.d (pairOut0 h0 h1 s w x) x)) := (keeps_writeDst ..).trans (keeps_writeDst ..)
  have hpreds : (writeHalf h1.d (pairOut1 h0 h1 s w x) (writeHalf h0.d (pairOut0 h0 h1 s w x) x)).p = x.p := (writeDst_p ..).trans (writeDst_p ..)
  have hregs := regOf_pairThread h0 h1 s w x
  unfold pairThread writeLr at hregs ⊢
  unfold advance
  refine ⟨⟨rfl, rfl, rfl⟩, hkeeps.trans rfl, fun n => ?_, fun n => ?_, rfl, ?_, hpreds, hrest.q, hrest.rng, hrest.tanrng⟩
  · exact (hregs (false, n)).trans (by simp [regOf])
  · exact (hregs (true, n)).trans (by simp [regOf])
  · exact congrArg (fun f => f ||| (pairOut0 h0 h1 s w x).flags ||| (pairOut1 h0 h1 s w x).flags) hrest.fstat

theorem poison_eaten {sop : Sop} {v : List Opv} (h : sop = .mov ∨ v.any (·.poison) = false) : (if sop == .mov then [] else poisonCauses [] v) = [] := by
  obtain rfl | hclean := h
  · rfl
  · rw [poisonCauses_clean hclean, ite_self]

/-- Settles O16: both halves read, half 0's registers first, and then half 0 writes before half 1. -/
theorem pairWords : Obligations.PairWords := by
  intro h0 h1 s hs hp
  refine ⟨_, rfl, (perLane_moves (pairThread h0 h1 s) (fun _ _ => .retire []) hs (fun tid x w hl _ => ?_) fun ths tid x w hl hpass hx => ?_).mono
    fun tid x w y _ _ hy => hy ▸ pairDone_pairThread h0 h1 s w x⟩
  · obtain ⟨htid, hwg, hrun, -⟩ := same_pairThread h0 h1 s w x
    exact ⟨htid.trans (getT_tid hl.thread), hrun.trans hl.ready, hwg, rfl⟩
  · obtain rfl := getT_tid hl.thread
    have h := hp x.tid x w hl
    have htid (y : Thread) (hy : y.tid = x.tid) : (pairThread h0 h1 s w x).tid = x.tid := (same_pairThread h0 h1 s w x).1
    refine ⟨(modT (withThreads s ths) x.tid fun _ => pairThread h0 h1 s w x).threads, ?_, ?_, ?_⟩
    · refine (withSrcs_ok (by exact h.dual) ?_ (by simpa using h.causes) (by simpa using h.full) h.dst0).trans ?_
      · rw [readSrcs_withThreads, h.dst1]
        dsimp only
        rw [poison_eaten h.clean0, poison_eaten h.clean1]
        rfl
      dsimp only
      rw [if_neg (by simp [h.dst1]), readSrcs_withThreads, disturb_none _ _ h.armed h.plain.single]
      dsimp only
      rw [disturb_none _ _ h.armed h.plain.single]
      dsimp only
      rw [touchRegs_off _ _ h.plain.rollback h.plain.redund]
      rfl
    · exact (getT_modT htid).trans (by rw [hx]; rfl)
    · exact fun u hu => getT_modT_ne htid hu

end Sys2Proof.Machine
end

section
/-! PROOFS of the memory words of one thread. On plain bytes nothing stands between the word and memory: its page translates, no colour, race check or error
holds it, so that its lane is the delivery or the write itself. -/

namespace Sys2Proof.Machine

/-! ## Loads (R337) -/

theorem MWidth.bytes_pos (m : MWidth) : 0 < MWidth.bytes m := by cases m <;> decide

theorem valuesFull_single (s : State) {w : Workgroup} (h : w.role = .single) : valuesFull s w = false := by simp [valuesFull, h]

/-- Bytes without an error pass the check of errors as they are. -/
theorem readPiece_plain {s : State} {x : Thread} {w : Workgroup} {va : Word} {n : Nat} {r wr : Bool} {lf : Leaf} {a : Nat}
    (h : PlainBytes s x w va n r wr lf a) (hn : 0 < n) (poc shadow : Bool) (cp : Cp) (hl : ∀ y ∈ s.l1, y.core = x.tid.core → y.block ≠ a / 64) :
    ∃ l1', readPiece s w x lf (leafPa lf va.toNat) n va poc shadow cp =
        ({ s with l1 := l1' }, .data ⟨getCells a n s.mem, (getCells a n s.mem).map fun _ => false, false⟩) ∧
      ∀ y ∈ l1', y ∈ s.l1 ∨ (y.core = x.tid.core ∧ y.block = a / 64) := by
  obtain ⟨l1', hread, hlines⟩ := readPa_plain h hn poc cp hl
  exact ⟨l1', by rw [readPiece, hread]; rfl, hlines⟩

theorem performLoad_plain {s : State} {x : Thread} {w : Workgroup} {m : MLoad} {lf : Leaf} {a : Nat} {ea : Word} (hw : w.Plain)
    (h : PlainBytes s x w ea (MWidth.bytes m.w) true false lf a) (hl : ∀ y ∈ s.l1, y.core = x.tid.core → y.block ≠ a / 64)
    (src : List SrcSpec) (pops : List Nat) :
    ∃ l1', performLoad s w x m src pops ea lf (leafPa lf ea.toNat) false = ({ s with
        l1 := l1', threads := (modT s x.tid fun y => pendDst (takeSources y src pops) m.d m.w.k).threads, ids := s.ids + 1,
        loads := s.loads ++ [onItsWay s (s.ids + 1) x .global m.d ea (dataWords (MWidth.bytes m.w) m.sx (getCells a (MWidth.bytes m.w) s.mem))] }, .retire []) ∧
      ∀ y ∈ l1', y ∈ s.l1 ∨ (y.core = x.tid.core ∧ y.block = a / 64) := by
  obtain ⟨l1', hread, hlines⟩ := readPiece_plain h (MWidth.bytes_pos m.w) (m.ord != .plain || false) false (effCp m.cp lf) hl
  refine ⟨l1', ?_, hlines⟩
  unfold performLoad
  simp only [h.leaf.tp, Bool.false_eq_true, if_false, xlateShadows, hread, readShadows, queueValue_single _ hw.single, deliver_eq _ _ _ _ _ _ _ _ _ _ hw,
    dataFill_plain]
  rfl

/-- An order adds at most an acquire: it can drop lines of L1, and a location without records joins no clock. -/
theorem orderedLoad_quiet (s : State) (t : Tid) (ord : Ord) (sc : Scope) (loc : Nat) (hs : ∀ e ∈ s.syncs, e.addr ≠ loc) :
    ∃ l1', (if awaits s t then s else loadOrder s t ord sc loc) = { s with l1 := l1' } ∧ ∀ y ∈ l1', y ∈ s.l1 := by
  split
  · exact ⟨s.l1, rfl, fun _ hy => hy⟩
  · exact loadOrder_quiet s t ord sc loc hs

/-- Once the page translates and neither width, colour nor record of races holds the access, the lane is the bytes that are served and their order. -/
theorem loadLane_served {s s1 : State} {x : Thread} {w : Workgroup} {m : MLoad} {lf : Leaf} {a : Nat} {pops : List Nat} {gone : List GWrite}
    (so : Sound s w x (loadSrcs m) m.d m.w.k) (hclean : Clean s w x (loadSrcs m)) (halign : (loadEa m s w x).toNat % MWidth.bytes m.w = 0)
    (h : PlainBytes s x w (loadEa m s w x) (MWidth.bytes m.w) true false lf a) (hpops : (readSrcs s w x (loadSrcs m) []).pops = pops)
    (hperform : performLoad s w x m (loadSrcs m) pops (loadEa m s w x) lf (leafPa lf (loadEa m s w x).toNat) false = (s1, .retire gone)) :
    loadLane s w x m = (if awaits s1 x.tid then s1 else loadOrder s1 x.tid m.ord m.scope a, .retire gone) := by
  obtain ⟨hwidth, hloc, hcolours, hchecked⟩ := hbm_reads h
  have drone : (w.role == .drone) = false := by rw [so.plain.single]; rfl
  have hxlate := accXlate_hit h.hit h.leaf.key
  have hlog := h.log
  have hfull := valuesFull_single s so.plain.single
  subst hpops
  unfold loadLane
  refine (withSrcs_ok so.dual (addrPoison_clean hclean) so.causes so.full so.dst).trans ?_
  simp only [loadEa, loadSrcs] at *
  simp only [halign, drone, hlog, hfull, hxlate, hwidth, hcolours, hchecked, hloc, holdAll, hperform, ne_eq, not_true, if_false, Bool.or_self,
    Bool.false_eq_true]

theorem loadLane_plain {s : State} {x : Thread} {w : Workgroup} {m : MLoad} {lf : Leaf} {a : Nat} (so : Sound s w x (loadSrcs m) m.d m.w.k)
    (hclean : Clean s w x (loadSrcs m)) (halign : (loadEa m s w x).toNat % MWidth.bytes m.w = 0)
    (h : PlainBytes s x w (loadEa m s w x) (MWidth.bytes m.w) true false lf a) (hl : ∀ y ∈ s.l1, y.core = x.tid.core → y.block ≠ a / 64)
    (hs : ∀ e ∈ s.syncs, e.addr ≠ a) :
    ∃ l1', loadLane s w x m = ({ s with
        l1 := l1', threads := (modT s x.tid fun y => pendDst (takeSources y (loadSrcs m) (readSrcs s w x (loadSrcs m) []).pops) m.d m.w.k).threads, ids := s.ids + 1,
        loads := s.loads ++ [onItsWay s (s.ids + 1) x .global m.d (loadEa m s w x)
          (dataWords (MWidth.bytes m.w) m.sx (getCells a (MWidth.bytes m.w) s.mem))] }, .retire []) ∧
      ∀ y ∈ l1', y ∈ s.l1 ∨ (y.core = x.tid.core ∧ y.block = a / 64) := by
  obtain ⟨l1', hperform, hlines⟩ := performLoad_plain so.plain h hl (loadSrcs m) (readSrcs s w x (loadSrcs m) []).pops
  obtain ⟨l1'', horder, hdropped⟩ := orderedLoad_quiet (performLoad s w x m (loadSrcs m) (readSrcs s w x (loadSrcs m) []).pops
    (loadEa m s w x) lf (leafPa lf (loadEa m s w x).toNat) false).1 x.tid m.ord m.scope a (by rw [hperform]; exact hs)
  rw [hperform] at horder hdropped
  exact ⟨l1'', by rw [loadLane_served so hclean halign h rfl hperform, horder], fun y hy => hlines y (hdropped y hy)⟩

/-- Settles O17: on plain bytes the lane of a load is the delivery of the bytes that memory holds. -/
theorem loads : Obligations.Loads := by
  intro m s x w lf a hsolo so hclean halign h hl hs
  obtain ⟨l1', hlane, hlines⟩ := loadLane_plain so hclean halign h hl hs
  refine ⟨_, congrArg Host.Outcome.next (hsolo.retire hlane), rfl, hlines, ?_⟩
  exact oneDone_awaits hsolo.thread hsolo.ready so.armed so.plain.single rfl rfl rfl

end Sys2Proof.Machine
end

section
/-! PROOFS of the stores of one thread (R338). -/

namespace Sys2Proof.Machine

theorem MWidth.bytes_lt (m : MWidth) : MWidth.bytes m < 64 := by cases m <;> decide

theorem dataBytes_length (n : Nat) (v : Opv) : (dataBytes n v).length = n := leBytes_length n _

/-- A system-scope store pins the interval of its workgroup (R141). -/
def pinnedFor (s : State) (w : Workgroup) (sc : Scope) : State := if sc = .sys then pin s w.id else s

theorem pinnedFor_frame (s : State) (w : Workgroup) (sc : Scope) :
    pinnedFor s w sc = { s with wgs := if sc = .sys then (pin s w.id).wgs else s.wgs } := by
  unfold pinnedFor
  split <;> rfl

/-- Where the bytes of a store go does not hang on the table of workgroups. -/
theorem PlainBytes.with_wgs {s : State} {x : Thread} {w : Workgroup} {va : Word} {n : Nat} {r wr : Bool} {lf : Leaf} {a : Nat}
    (h : PlainBytes s x w va n r wr lf a) (g : List Workgroup) : PlainBytes { s with wgs := g } x w va n r wr lf a where
  hit := ⟨h.hit.canonical, h.hit.entry, h.hit.allows, h.hit.reachable⟩
  leaf := h.leaf
  home := h.home
  fits := h.fits
  block := h.block
  stores := h.stores
  log := h.log
  compare := h.compare

theorem reach_plain {s : State} {x : Thread} {w : Workgroup} {va : Word} {n : Nat} {r wr : Bool} {lf : Leaf} {a : Nat}
    (h : PlainBytes s x w va n r wr lf a) (v : Word) : reach s w (leafPa lf va.toNat) v true = (s, .ready) := by
  unfold reach
  rw [h.home]

/-- A store to plain bytes of the own HBM goes out at once; its order then acts on the bytes' location. -/
theorem sendStore_plain {s : State} {x : Thread} {w : Workgroup} {va : Word} {n : Nat} {r wr : Bool} {lf : Leaf} {a : Nat}
    (h : PlainBytes s x w va n r wr lf a) (bytes : List Byte) (poison now : Bool) (sc : Scope) (ord : Ord) :
    sendStore s w x 0 0 (leafPa lf va.toNat) va bytes poison now sc ord =
      (storeOrder (putStore s w x.tid 0 0 (leafPa lf va.toNat) va bytes poison now) x.tid ord sc a, none) := by
  have hcanon : canon s w.pasid (leafPa lf va.toNat) = some a := by unfold canon; rw [h.home]
  unfold sendStore
  rw [reach_plain h]
  dsimp only
  rw [hcanon, Option.getD_some]

theorem putStore_inFlight {s : State} {x : Thread} {w : Workgroup} {va : Word} {n : Nat} {r wr : Bool} {lf : Leaf} {a : Nat}
    (h : PlainBytes s x w va n r wr lf a) (bytes : List Byte) (poison : Bool) :
    putStore s w x.tid 0 0 (leafPa lf va.toNat) va bytes poison false = { s with
      ids := s.ids + 1, l1 := (l1Update s x.tid.core a bytes poison).l1, stores := s.stores ++ [storeOut (s.ids + 1) x w a bytes poison va] } := by
  have hcanon : canon s w.pasid (leafPa lf va.toNat) = some a := by unfold canon; rw [h.home]
  unfold putStore
  rw [h.home, hcanon]
  rfl

theorem putStore_performed {s : State} {x : Thread} {w : Workgroup} {va : Word} {bytes : List Byte} {r wr : Bool} {lf : Leaf} {a : Nat}
    (h : PlainBytes s x w va bytes.length r wr lf a) (h0 : 0 < bytes.length) (hn : bytes.length < 64) :
    putStore s w x.tid 0 0 (leafPa lf va.toNat) va bytes false true = { s with
      mem := setCells (cellsAt a bytes) s.mem, syncs := (syncClear s a bytes.length).syncs, dirty := (markDirty s (a / 64)).dirty } := by
  have hcanon : canon s w.pasid (leafPa lf va.toNat) = some a := by unfold canon; rw [h.home]
  unfold putStore
  rw [h.home, hcanon]
  dsimp only
  rw [if_pos rfl, drainOverlap_none h.stores, writeCanon, hbm_lt h.home, if_neg (by simp), writeHbmRange_plain (s := syncClear s a bytes.length) h0 hn h.fits h.block,
    markDirty_congr (s := s) (t := syncClear s a bytes.length) rfl]
  rfl

/-- Bytes written over memory in its form are the stored bytes within, and the old ones outside. -/
theorem getCell_stored {m : List Host.Cell} (h : Memory.wf m = true) (a : Nat) (bytes : List Byte) (c : Nat) :
    getCell c (setCells (cellsAt a bytes) m) = if a ≤ c ∧ c < a + bytes.length then bytes.getD (c - a) 0 else getCell c m := by
  split
  next hc =>
    obtain ⟨i, rfl⟩ := Nat.exists_eq_add_of_le hc.1
    rw [getCell_cellsAt h (by omega), Nat.add_sub_cancel_left]
  next hc => exact getCell_cellsAt_ne h (by omega)

/-- Translation, width, colours and checks do not hold a store to plain bytes: its lane is the store sent out. -/
theorem storeLane_sent {s S : State} {x : Thread} {w : Workgroup} {m : MStore} {lf : Leaf} {a : Nat} (so : Sound s w x (gstoreSrcs m) .zero 0)
    (hbase : (opv (readSrcs s w x (gstoreSrcs m) []).vals 0).poison = false) (halign : (storeEa m s w x).toNat % MWidth.bytes m.w = 0)
    (hrel : Ord.rel m.ord = true → releasePending s x.tid m.scope = false) (h : PlainBytes s x w (storeEa m s w x) (MWidth.bytes m.w) false true lf a)
    (hsend : sendStore (pinnedFor s w m.scope) w x 0 0 (leafPa lf (storeEa m s w x).toNat) (storeEa m s w x)
      (dataBytes (MWidth.bytes m.w) (storeData m s w x)) (storeData m s w x).poison (m.ord != .plain) m.scope m.ord = (S, none)) :
    storeLane s w x m = (modT S x.tid fun y => takeSources y (gstoreSrcs m) (readSrcs s w x (gstoreSrcs m) []).pops, .retire []) := by
  obtain ⟨hwidth, -, hcolours, hchecked⟩ := hbm_reads h
  have drone : (w.role == .drone) = false := by rw [so.plain.single]; rfl
  have hxlate := accXlate_hit h.hit h.leaf.key
  have hwait : (Ord.rel m.ord && releasePending s x.tid m.scope) = false := by
    cases hr : Ord.rel m.ord
    · rfl
    · exact hrel hr
  have hlog : logged (pinnedFor s w m.scope) x.tid (storeEa m s w x) = false := by rw [pinnedFor_frame]; exact h.log
  have hperform : performSt s w x m (storeData m s w x) (storeEa m s w x) lf (leafPa lf (storeEa m s w x).toNat) [] false = (S, none) := by
    unfold performSt
    simp only [h.leaf.tp, h.leaf.nr, h.leaf.layout, h.leaf.key, xlateShadows, storeShadows, commitStore, so.plain.single, Bool.false_eq_true, if_false,
      Bool.or_false, Bool.false_or, beq_iff_eq]
    rw [← pinnedFor, hlog, hsend]
    rfl
  unfold storeLane
  refine (withSrcs_ok so.dual (addrPoison_base hbase) so.causes so.full so.dst).trans ?_
  simp only [storeEa, storeData, gstoreSrcs] at *
  simp only [halign, drone, hwait, hxlate, hwidth, hcolours, hchecked, holdAll, hperform, ne_eq, not_true, if_false, Bool.false_eq_true]
  rw [touchRegs_off _ _ so.plain.rollback so.plain.redund]

/-- A plain store is in flight with its bytes. -/
theorem store_plain {s : State} {x : Thread} {w : Workgroup} {m : MStore} {lf : Leaf} {a : Nat} (hsolo : Solo s m.pg x w)
    (so : Sound s w x (gstoreSrcs m) .zero 0) (hbase : (opv (readSrcs s w x (gstoreSrcs m) []).vals 0).poison = false) (hord : m.ord = .plain)
    (halign : (storeEa m s w x).toNat % MWidth.bytes m.w = 0) (h : PlainBytes s x w (storeEa m s w x) (MWidth.bytes m.w) false true lf a) :
    ∃ t, exec (.st m) s = .next t ∧ t = { s with
        threads := t.threads, wgs := if m.scope = .sys then (pin s w.id).wgs else s.wgs, ids := s.ids + 1
        l1 := (l1Update s x.tid.core a (dataBytes (MWidth.bytes m.w) (storeData m s w x)) (storeData m s w x).poison).l1
        stores := s.stores ++ [storeOut (s.ids + 1) x w a (dataBytes (MWidth.bytes m.w) (storeData m s w x)) (storeData m s w x).poison
          (storeEa m s w x)] } ∧
      OneDone s t x (Took s (gstoreSrcs m) (readSrcs s w x (gstoreSrcs m) []).pops x) := by
  have hrel : Ord.rel m.ord = true → releasePending s x.tid m.scope = false := fun hr => absurd hr (by rw [hord]; decide)
  have hsend : sendStore (pinnedFor s w m.scope) w x 0 0 (leafPa lf (storeEa m s w x).toNat) (storeEa m s w x) (dataBytes (MWidth.bytes m.w) (storeData m s w x))
      (storeData m s w x).poison (m.ord != .plain) m.scope m.ord = ({ s with
        wgs := if m.scope = .sys then (pin s w.id).wgs else s.wgs, ids := s.ids + 1
        l1 := (l1Update s x.tid.core a (dataBytes (MWidth.bytes m.w) (storeData m s w x)) (storeData m s w x).poison).l1
        stores := s.stores ++ [storeOut (s.ids + 1) x w a (dataBytes (MWidth.bytes m.w) (storeData m s w x)) (storeData m s w x).poison
          (storeEa m s w x)] }, none) := by
    rw [pinnedFor_frame, sendStore_plain (h.with_wgs _), hord, storeOrder, if_pos (by rfl)]
    exact congrArg (·, none) (putStore_inFlight (h.with_wgs _) _ _)
  have hlane := storeLane_sent so hbase halign hrel h hsend
  exact hsolo.took' (f := fun s w x => storeLane s w x m) rfl (by rfl) (by rfl) (by rfl) hlane

/-- An ordered store has written its bytes. -/
theorem store_ordered {s : State} {x : Thread} {w : Workgroup} {m : MStore} {lf : Leaf} {a : Nat} (hsolo : Solo s m.pg x w)
    (so : Sound s w x (gstoreSrcs m) .zero 0) (hbase : (opv (readSrcs s w x (gstoreSrcs m) []).vals 0).poison = false) (hord : m.ord ≠ .plain)
    (hdata : (storeData m s w x).poison = false)
    (halign : (storeEa m s w x).toNat % MWidth.bytes m.w = 0) (hrel : Ord.rel m.ord = true → releasePending s x.tid m.scope = false)
    (h : PlainBytes s x w (storeEa m s w x) (MWidth.bytes m.w) false true lf a) :
    ∃ t, exec (.st m) s = .next t ∧ t = { s with
        threads := t.threads, wgs := if m.scope = .sys then (pin s w.id).wgs else s.wgs
        mem := setCells (cellsAt a (dataBytes (MWidth.bytes m.w) (storeData m s w x))) s.mem
        syncs := t.syncs, dirty := (markDirty s (a / 64)).dirty } ∧
      OneDone s t x (Took s (gstoreSrcs m) (readSrcs s w x (gstoreSrcs m) []).pops x) := by
  generalize hbytes : dataBytes (MWidth.bytes m.w) (storeData m s w x) = bytes
  have hlen : bytes.length = MWidth.bytes m.w := hbytes ▸ dataBytes_length _ _
  have hnow : (m.ord != .plain) = true := bne_iff_ne.mpr hord
  have hS := h.with_wgs (if m.scope = .sys then (pin s w.id).wgs else s.wgs)
  rw [← pinnedFor_frame, ← hlen] at hS
  obtain ⟨hframe, v, hmine, hothers⟩ := storeOrder_spec (x := x) (s := { pinnedFor s w m.scope with
      mem := setCells (cellsAt a bytes) (pinnedFor s w m.scope).mem, syncs := (syncClear (pinnedFor s w m.scope) a bytes.length).syncs
      dirty := (markDirty (pinnedFor s w m.scope) (a / 64)).dirty }) m.ord m.scope a (by rw [pinnedFor_frame]; exact hsolo.thread)
  have hsend := sendStore_plain hS bytes false true m.scope m.ord
  rw [putStore_performed hS (hlen ▸ MWidth.bytes_pos _) (hlen ▸ MWidth.bytes_lt _)] at hsend
  have hdirty : (markDirty (pinnedFor s w m.scope) (a / 64)).dirty = (markDirty s (a / 64)).dirty := markDirty_congr (by rw [pinnedFor_frame]) _
  obtain ⟨t, hexec, ht, hdone⟩ := hsolo.took (f := fun s w x => storeLane s w x m) rfl (by rw [hframe, pinnedFor_frame]) (by rw [hframe, pinnedFor_frame])
    hmine (fun u hu => (hothers u hu).trans (by rw [pinnedFor_frame]; rfl))
    (storeLane_sent so hbase halign hrel h (by rw [hbytes, hdata, hnow]; exact hsend))
  refine ⟨t, hexec, ?_, hdone⟩
  rw [ht, hframe, hdirty, pinnedFor_frame]

/-- Settles O18: a plain store is in flight, an ordered one has written. -/
theorem stores : Obligations.Stores := by
  intro m s x w lf a hform hsolo so hbase hdata halign hrel h
  by_cases hord : m.ord = .plain
  · obtain ⟨t, hexec, ht, hdone⟩ := store_plain hsolo so hbase hord halign h
    exact ⟨t, hexec, hdone, by rw [ht], fun _ => by rw [ht], fun hne => absurd hord hne⟩
  · obtain ⟨t, hexec, ht, hdone⟩ := store_ordered hsolo so hbase hord (hdata.resolve_left hord) halign hrel h
    refine ⟨t, hexec, hdone, by rw [ht], fun he => absurd he hord, fun _ => ⟨by rw [ht], fun c => ?_⟩⟩
    rw [ht]
    exact getCell_stored hform a _ c

end Sys2Proof.Machine
end

section
/-! PROOFS of the scratch words and of FENCE (R339 to R341, R355). -/

namespace Sys2Proof.Machine

/-- A load from an unbound scratchpad without POISON is the delivery of its bytes. -/
theorem scrLoadFrom_pad {s : State} {x : Thread} {w g : Workgroup} {m : MLoad} {a : Nat} (hw : w.Plain) (kind : OutKind) (src : List SrcSpec)
    (pops : List Nat) (h : PadBytes s g a (MWidth.bytes m.w)) (hpoison : g.padPoison = []) (hs : ∀ e ∈ s.syncs, e.addr ≠ padLoc g a) :
    ∃ l1', scrLoadFrom s w g kind x m src pops a = ({ s with
        l1 := l1', threads := (modT s x.tid fun y => pendDst (takeSources y src pops) m.d m.w.k).threads, ids := s.ids + 1
        loads := s.loads ++ [onItsWay s (s.ids + 1) x kind m.d (BitVec.ofNat 64 a)
          (dataWords (MWidth.bytes m.w) m.sx (getCells a (MWidth.bytes m.w) g.pad))] }, .retire []) ∧ ∀ y ∈ l1', y ∈ s.l1 := by
  have hdeliver := deliver_eq (s := s) x.tid src pops m.d m.w.k kind none (BitVec.ofNat 64 a)
    (dataFill (MWidth.bytes m.w) m.sx ⟨getCells a (MWidth.bytes m.w) g.pad, (getCells a (MWidth.bytes m.w) g.pad).map fun _ => false, false⟩) false hw
  obtain ⟨l1', horder, hlines⟩ := loadOrder_quiet (deliver s w x.tid src pops m.d m.w.k kind none (BitVec.ofNat 64 a)
    (dataFill (MWidth.bytes m.w) m.sx ⟨getCells a (MWidth.bytes m.w) g.pad, (getCells a (MWidth.bytes m.w) g.pad).map fun _ => false, false⟩) false)
    x.tid m.ord (clScope m.scope) (padLoc g a) (by rw [hdeliver]; exact hs)
  refine ⟨l1', ?_, fun y hy => by have := hlines y hy; rw [hdeliver] at this; exact this⟩
  unfold scrLoadFrom
  simp only [scrRead_pad h (MWidth.bytes_pos _), padRead_clean hpoison, scrPolicy_clean, horder]
  rw [hdeliver, dataFill_plain]
  rfl

theorem lds_lane {s : State} {x : Thread} {w : Workgroup} {m : MLoad} (so : Sound s w x (padLoadSrcs m) m.d m.w.k) (hclean : Clean s w x (padLoadSrcs m)) :
    (withSrcs s w x [⟨m.base, 1, .int⟩] m.d m.w.k addrPoison fun vals pops =>
      scrLoadFrom s w w .scratch x m [⟨m.base, 1, .int⟩] pops (scratchEa (opv vals 0) m.off)) =
    scrLoadFrom s w w .scratch x m (padLoadSrcs m) (readSrcs s w x (padLoadSrcs m) []).pops (padLoadEa m s w x) :=
  withSrcs_ok so.dual (addrPoison_clean hclean) so.causes so.full so.dst

/-- The workgroup that an address in cluster memory names. -/
theorem clusterTarget_of_padOf {s : State} {w g : Workgroup} {x : Thread} {ea n a : Nat} (h : padOf true s w x ea n = some (g, a)) :
    clusterTarget s w x.tid ea n = .inl g ∧ ea % 2 ^ 30 = a := by
  unfold padOf at h
  rw [if_pos rfl] at h
  split at h
  next heq => cases h; exact ⟨heq, rfl⟩
  next => cases h

theorem padOf_own {s : State} {w g : Workgroup} {x : Thread} {ea n a : Nat} (h : padOf false s w x ea n = some (g, a)) : w = g ∧ ea = a := by
  cases h; exact ⟨rfl, rfl⟩

theorem ldcl_lane {s : State} {x : Thread} {w g : Workgroup} {m : MLoad} {a : Nat} (so : Sound s w x (padLoadSrcs m) m.d m.w.k)
    (hclean : Clean s w x (padLoadSrcs m)) (h : padOf true s w x (padLoadEa m s w x) (MWidth.bytes m.w) = some (g, a)) :
    (withSrcs s w x [⟨m.base, 1, .int⟩] m.d m.w.k addrPoison fun vals pops =>
      match clusterTarget s w x.tid (scratchEa (opv vals 0) m.off) (MWidth.bytes m.w) with
      | .inr c => (s, .trap c)
      | .inl g => scrLoadFrom s w g .cluster x m [⟨m.base, 1, .int⟩] pops (scratchEa (opv vals 0) m.off % 2 ^ 30)) =
    scrLoadFrom s w g .cluster x m (padLoadSrcs m) (readSrcs s w x (padLoadSrcs m) []).pops a := by
  obtain ⟨htarget, rfl⟩ := clusterTarget_of_padOf h
  refine (withSrcs_ok so.dual (addrPoison_clean hclean) so.causes so.full so.dst).trans ?_
  simp only [padLoadEa, padLoadSrcs] at *
  simp only [htarget]

/-- Settles O19: the word is the delivery of the bytes of the scratchpad that its address names. -/
theorem scratchLoads : Obligations.ScratchLoads := by
  intro cl m s x w g a hsolo so hclean hpad h hpoison hs
  obtain ⟨l1', hload, hlines⟩ := scrLoadFrom_pad so.plain (if cl then .cluster else .scratch) (padLoadSrcs m)
    (readSrcs s w x (padLoadSrcs m) []).pops h hpoison hs (x := x)
  have hexec : exec (if cl then .ldcl m else .lds m) s = .next (retire { s with
        l1 := l1', threads := (modT s x.tid fun y => pendDst (takeSources y (padLoadSrcs m) (readSrcs s w x (padLoadSrcs m) []).pops) m.d m.w.k).threads
        ids := s.ids + 1
        loads := s.loads ++ [onItsWay s (s.ids + 1) x (if cl then .cluster else .scratch) m.d (BitVec.ofNat 64 a)
          (dataWords (MWidth.bytes m.w) m.sx (getCells a (MWidth.bytes m.w) g.pad))] } x.tid) := by
    cases cl with
    | false =>
      obtain ⟨rfl, rfl⟩ := padOf_own hpad
      exact congrArg Host.Outcome.next (hsolo.retire ((lds_lane so hclean).trans hload))
    | true => exact congrArg Host.Outcome.next (hsolo.retire ((ldcl_lane so hclean hpad).trans hload))
  exact ⟨_, hexec, rfl, hlines, oneDone_awaits hsolo.thread hsolo.ready so.armed so.plain.single rfl rfl rfl⟩

/-- A store to an unbound scratchpad writes its bytes; its order acts on the location of the first. -/
theorem scrStoreTo_pad {s : State} {x : Thread} {w g : Workgroup} {m : MStore} {a : Nat} (hw : w.Plain) (pops : List Nat) (v : Opv)
    (h : PadBytes s g a (MWidth.bytes m.w)) (hrel : Ord.rel m.ord = true → releasePending s x.tid (clScope m.scope) = false) :
    scrStoreTo s w g x m pops v a = (modT (storeOrder (syncClear (padWriteRange s g.id a (dataBytes (MWidth.bytes m.w) v) v.poison true) (padLoc g a) (MWidth.bytes m.w))
      x.tid m.ord (clScope m.scope) (padLoc g a)) x.tid fun y => takeSources y (storeSrcs m) pops, .retire []) := by
  have hwait : (Ord.rel m.ord && releasePending s x.tid (clScope m.scope)) = false := by
    cases hr : Ord.rel m.ord
    · rfl
    · exact hrel hr
  have hwrite := scrWrite_pad ((dataBytes_length (MWidth.bytes m.w) v).symm ▸ h) ((dataBytes_length _ v).symm ▸ MWidth.bytes_pos m.w) x v.poison
  unfold scrStoreTo
  rw [hwait, if_neg (by simp)]
  simp only [hwrite]
  rw [touchRegs_off _ _ hw.rollback hw.redund]

theorem sts_lane {s : State} {x : Thread} {w : Workgroup} {m : MStore} (so : Sound s w x (storeSrcs m) .zero 0)
    (hbase : (opv (readSrcs s w x (storeSrcs m) []).vals 0).poison = false) :
    (withSrcs s w x (storeSrcs m) .zero 0 addrPoison fun vals pops => scrStoreTo s w w x m pops (opv vals 1) (scratchEa (opv vals 0) m.off)) =
    scrStoreTo s w w x m (readSrcs s w x (storeSrcs m) []).pops (padStoreData m s w x) (padStoreEa m s w x) :=
  withSrcs_ok so.dual (addrPoison_base hbase) so.causes so.full so.dst

theorem stcl_lane {s : State} {x : Thread} {w g : Workgroup} {m : MStore} {a : Nat} (so : Sound s w x (storeSrcs m) .zero 0)
    (hbase : (opv (readSrcs s w x (storeSrcs m) []).vals 0).poison = false)
    (h : padOf true s w x (padStoreEa m s w x) (MWidth.bytes m.w) = some (g, a)) :
    (withSrcs s w x (storeSrcs m) .zero 0 addrPoison fun vals pops =>
      match clusterTarget s w x.tid (scratchEa (opv vals 0) m.off) (MWidth.bytes m.w) with
      | .inr c => (s, .trap c)
      | .inl g => scrStoreTo s w g x m pops (opv vals 1) (scratchEa (opv vals 0) m.off % 2 ^ 30)) =
    scrStoreTo s w g x m (readSrcs s w x (storeSrcs m) []).pops (padStoreData m s w x) a := by
  obtain ⟨htarget, rfl⟩ := clusterTarget_of_padOf h
  refine (withSrcs_ok so.dual (addrPoison_base hbase) so.causes so.full so.dst).trans ?_
  unfold padStoreEa at htarget
  simp only [htarget]
  rfl

/-- Bytes aligned to their width lie in one 64-byte block. -/
theorem MWidth.fits_block {a : Nat} (m : MWidth) (h : a % MWidth.bytes m = 0) : a % 64 + MWidth.bytes m ≤ 64 := by
  cases m <;> simp only [MWidth.bytes] at h ⊢ <;> omega

theorem PadStored.of_wgs {s t u : State} {g : Workgroup} {a : Nat} {bytes : List Byte} {poison : Bool} (h : PadStored s t g a bytes poison)
    (hu : u.wgs = t.wgs) : PadStored s u g a bytes poison := by
  have hget : ∀ k, getWg u k = getWg t k := fun k => by unfold getWg; rw [hu]
  exact ⟨by rw [hget]; exact h.mine, fun k hk => by rw [hget]; exact h.others k hk⟩

/-- The lane of either scratch store, as a store to the scratchpad `g`. -/
theorem scratchStore_exec {cl : Bool} {m : MStore} {s S : State} {x : Thread} {w g : Workgroup} {a : Nat} {v : List (Nat × Nat)} (hsolo : Solo s m.pg x w)
    (so : Sound s w x (storeSrcs m) .zero 0) (hbase : (opv (readSrcs s w x (storeSrcs m) []).vals 0).poison = false)
    (hpad : padOf cl s w x (padStoreEa m s w x) (MWidth.bytes m.w) = some (g, a)) (hcur : S.cur = s.cur) (hnow : S.now = s.now)
    (hmine : getT S x.tid = some { x with vc := v }) (hothers : ∀ u, u ≠ x.tid → getT S u = getT s u)
    (hstore : scrStoreTo s w g x m (readSrcs s w x (storeSrcs m) []).pops (padStoreData m s w x) a =
      (modT S x.tid fun y => takeSources y (storeSrcs m) (readSrcs s w x (storeSrcs m) []).pops, .retire [])) :
    ∃ t, exec (if cl then .stcl m else .sts m) s = .next t ∧ t = { S with threads := t.threads } ∧
      OneDone s t x (Took s (storeSrcs m) (readSrcs s w x (storeSrcs m) []).pops x) := by
  cases cl with
  | false =>
    obtain ⟨rfl, rfl⟩ := padOf_own hpad
    exact hsolo.took (v := v) rfl hcur hnow hmine hothers ((sts_lane so hbase).trans hstore)
  | true => exact hsolo.took (v := v) rfl hcur hnow hmine hothers ((stcl_lane so hbase hpad).trans hstore)

/-- Settles O20: the word writes the scratchpad that its address names; its order changes clocks only. -/
theorem scratchStores : Obligations.ScratchStores := by
  intro cl m s x w g a hsolo so hbase hpad h hrel
  have hstore := scrStoreTo_pad (x := x) so.plain (readSrcs s w x (storeSrcs m) []).pops (padStoreData m s w x) h hrel
  have hlen := dataBytes_length (MWidth.bytes m.w) (padStoreData m s w x)
  obtain ⟨hframe, hstored⟩ := padStored (hlen.symm ▸ h) (hlen.symm ▸ MWidth.bytes_pos m.w) (hlen.symm ▸ MWidth.fits_block m.w h.aligned)
    (hlen.symm ▸ MWidth.bytes_lt m.w) (padStoreData m s w x).poison
  generalize padWriteRange s g.id a _ _ true = P at hframe hstored hstore
  obtain ⟨G, rfl⟩ : ∃ G, P = { s with wgs := G } := ⟨_, hframe⟩
  obtain ⟨horder, v, hmine, hothers⟩ := storeOrder_spec (s := syncClear { s with wgs := G } (padLoc g a) (MWidth.bytes m.w)) (x := x) m.ord
    (clScope m.scope) (padLoc g a) hsolo.thread
  obtain ⟨t, hexec, ht, hdone⟩ := scratchStore_exec hsolo so hbase hpad (by rw [horder]; rfl) (by rw [horder]; rfl) hmine hothers hstore
  have hwgs : t.wgs = G := by rw [ht, horder]; rfl
  exact ⟨t, hexec, by rw [ht, horder]; rfl, hstored.of_wgs hwgs, hdone⟩

theorem fenceAcquire_spec (s : State) (x : Tid) (sc : Scope) : ∃ u, VcOnly s u x ∧
    fenceAcquire s x sc = { u with l1 := if Scope.wide sc then s.l1.filter fun l => l.core != x.core else s.l1 } := by
  have hjoins := vcOnly_joins x (fun s e => mutualScope s e.tid e.scope x sc) (s.fenceVc.filter fun e => e.addr == readKey x) s
  refine ⟨_, hjoins, ?_⟩
  unfold fenceAcquire acquire
  dsimp only
  generalize List.foldl _ s _ = u at hjoins ⊢
  obtain ⟨hu, -, -⟩ := hjoins
  split <;> rw [hu]

/-- A release fence leaves the thread's clock among the fences and begins a new region of the thread. -/
theorem fenceRelease_eq {s : State} {x : Thread} (hx : getT s x.tid = some x) (sc : Scope) :
    fenceRelease s x.tid sc = { s with fenceVc := s.fenceVc ++ [⟨relKey x.tid, sc, x.tid, x.vc⟩], threads := (bumpVc s x.tid).threads } := by
  unfold fenceRelease vcOf
  rw [hx]
  rfl

theorem vcOnly_bumpVc (s : State) (x : Tid) : VcOnly s (bumpVc s x) x := vcOnly_modT s x _

/-- What an order adds to a fence's state: its threads differ from the old in the clock of `x` only. -/
theorem fence_state {s : State} {x : Thread} (hx : getT s x.tid = some x) (ord : Ord) (sc : Scope) :
    ∃ T, (let S := if Ord.rel ord then fenceRelease s x.tid sc else s
          if Ord.acq ord then fenceAcquire S x.tid sc else S) = { s with
        threads := T
        fenceVc := if Ord.rel ord then s.fenceVc ++ [⟨relKey x.tid, sc, x.tid, x.vc⟩] else s.fenceVc
        l1 := if Ord.acq ord && Scope.wide sc then s.l1.filter fun l => l.core != x.tid.core else s.l1 } ∧
      VcOnly s { s with threads := T } x.tid := by
  obtain ⟨R, hR, hRs⟩ : ∃ R, (if Ord.rel ord then fenceRelease s x.tid sc else s) = { s with
      threads := R, fenceVc := if Ord.rel ord then s.fenceVc ++ [⟨relKey x.tid, sc, x.tid, x.vc⟩] else s.fenceVc } ∧ VcOnly s { s with threads := R } x.tid := by
    cases Ord.rel ord
    · exact ⟨_, rfl, VcOnly.refl s x.tid⟩
    · exact ⟨_, fenceRelease_eq hx sc, vcOnly_bumpVc s x.tid⟩
  dsimp only
  rw [hR]
  cases Ord.acq ord
  · exact ⟨R, rfl, hRs⟩
  · obtain ⟨u, ⟨hu, hmine, hothers⟩, hacq⟩ := fenceAcquire_spec { s with
      threads := R, fenceVc := if Ord.rel ord then s.fenceVc ++ [⟨relKey x.tid, sc, x.tid, x.vc⟩] else s.fenceVc } x.tid sc
    refine ⟨u.threads, ?_, hRs.trans ⟨rfl, hmine, hothers⟩⟩
    rw [if_pos rfl, hacq, hu]
    cases Scope.wide sc <;> rfl

/-- Settles O22: a fence whose release is complete changes its thread's clock, the clocks left for later fences, and the core's L1. -/
theorem fence : Obligations.Fence := by
  intro pg ord sc s x w hsolo so hrel
  have hwait : (Ord.rel ord && releasePending s x.tid sc) = false := by
    cases hr : Ord.rel ord
    · rfl
    · exact hrel hr
  obtain ⟨T, hstate, -, hmine, hothers⟩ := fence_state hsolo.thread ord sc
  obtain ⟨v, hv⟩ := hmine x hsolo.thread
  refine hsolo.took (S := { s with
      threads := T, fenceVc := if Ord.rel ord then s.fenceVc ++ [⟨relKey x.tid, sc, x.tid, x.vc⟩] else s.fenceVc
      l1 := if Ord.acq ord && Scope.wide sc then s.l1.filter fun l => l.core != x.tid.core else s.l1 }) (v := v) rfl rfl rfl hv hothers ?_
  refine (withSrcs_ok so.dual rfl so.causes so.full so.dst).trans ?_
  rw [hwait, if_neg (by simp), modT_take_nil]
  exact congrArg (·, LaneRes.retire []) hstate

end Sys2Proof.Machine
end

section
/-! PROOFS of the cache words and of the block descriptors (R342 to R344). -/

namespace Sys2Proof.Machine

/-! ## Caches -/

theorem hbmOf_eq {s : State} {pa a : Nat} (h : hbmOf s pa = some a) : homeOf s.module_ s.domain pa = .hbm a := by
  unfold hbmOf at h
  split at h
  next heq => rw [heq]; split at h <;> simp_all
  next => cases h

theorem cinvalBlock_hit {s : State} {core pasid : Nat} {ea : Word} {e : TlbEntry} {a : Nat} (hentry : tlbFind s core pasid ea.toNat = some e)
    (hhome : homeOf s.module_ s.domain (leafPa e.leaf ea.toNat) = .hbm a) : cinvalBlock s core pasid ea = some (a / 64) := by
  have hcanon : canon s pasid (leafPa e.leaf ea.toNat) = some a := by unfold canon; rw [hhome]
  unfold cinvalBlock
  rw [hentry]
  dsimp only [Option.bind_some]
  rw [hhome, hcanon]
  rfl

/-- CINVAL without a base empties the core's L1, and with one drops the line of its block. -/
theorem cinval_done {pg : Guard} {base : Option Src} {off : BitVec 20} {s : State} {x : Thread} {w : Workgroup} {blk : Nat} (hsolo : Solo s pg x w)
    (so : Sound s w x (cinvalSrcs base) .zero 0) (hclean : Clean s w x (cinvalSrcs base))
    (hblk : ∀ b, base = some b → cinvalBlock s x.tid.core w.pasid (baseEa b off s w x) = some blk) :
    ∃ t, exec (.cinval pg base off) s = .next t ∧
      t = { s with threads := t.threads, l1 := s.l1.filter fun y => y.core != x.tid.core || (base.isSome && y.block != blk) } ∧
      OneDone s t x (Took s (cinvalSrcs base) (readSrcs s w x (cinvalSrcs base) []).pops x) := by
  cases base with
  | none =>
    refine hsolo.took' (S := { s with l1 := s.l1.filter fun y => y.core != x.tid.core || (Option.isSome (none : Option Src) && y.block != blk) }) rfl rfl rfl rfl ?_
    refine (withSrcs_ok so.dual rfl so.causes so.full so.dst).trans ?_
    simp only [Option.isSome_none, Bool.false_and, Bool.or_false]
    exact congrArg (·, LaneRes.retire []) (modT_take_nil _ x.tid).symm
  | some b =>
    refine hsolo.addr (S := { s with l1 := s.l1.filter fun y => y.core != x.tid.core || (Option.isSome (some b) && y.block != blk) }) so hclean rfl rfl rfl rfl ?_
    simp only [hblk b rfl, Option.isSome_some, Bool.true_and]

/-- A line that comes in while the region has room drops no other line. -/
theorem l1Fill_room {s : State} {core blk : Nat} {d : List Byte} {first : Bool} (hfind : l1Find s core blk = none)
    (hroom : (s.l1.filter fun y => y.core == core).length < Config.l1Lines) : (l1Fill s core blk d first).l1 = ⟨core, blk, d, first⟩ :: s.l1 := by
  have hkeep : (s.l1.filter fun y => !(y.core == core && y.block == blk)) = s.l1 :=
    List.filter_eq_self.mpr fun y hy => by simpa [Classical.or_iff_not_imp_left] using List.find?_eq_none.mp hfind y hy
  unfold l1Fill
  rw [hkeep]
  dsimp only
  rw [if_pos (by rw [List.filter_cons_of_pos (by simp)]; exact hroom)]

/-- A prefetch of a line of the own HBM can only bring in that line; with room in the region no line goes. -/
theorem prefLine_hbm {s : State} {x : Thread} {w : Workgroup} {lf : Leaf} {ea : Word} {pa a : Nat} (h : homeOf s.module_ s.domain pa = .hbm a) :
    ∃ l1', prefLine s w x lf pa ea = { s with l1 := l1' } ∧ (∀ y ∈ l1', y ∈ s.l1 ∨ (y.core = x.tid.core ∧ y.block = a / 64)) ∧
      ((s.l1.filter fun y => y.core == x.tid.core).length < Config.l1Lines → ∀ y ∈ s.l1, y ∈ l1') := by
  have hsame : ∃ l1', s = { s with l1 := l1' } ∧ (∀ y ∈ l1', y ∈ s.l1 ∨ (y.core = x.tid.core ∧ y.block = a / 64)) ∧
      ((s.l1.filter fun y => y.core == x.tid.core).length < Config.l1Lines → ∀ y ∈ s.l1, y ∈ l1') := ⟨s.l1, rfl, fun _ hy => .inl hy, fun _ _ hy => hy⟩
  unfold prefLine
  rw [h]
  dsimp only
  split
  next => exact hsame
  next hmiss =>
    split
    next d _ =>
      obtain ⟨l1', hfill, hlines⟩ := l1Fill_frame s x.tid.core (a / 64) (overlay s x.tid (a / 64 * 64) d) false
      refine ⟨l1', hfill, hlines, fun hroom y hy => ?_⟩
      have hfind : l1Find s x.tid.core (a / 64) = none := by
        cases hf : l1Find s x.tid.core (a / 64) <;> simp_all
      have hnew := l1Fill_room (d := overlay s x.tid (a / 64 * 64) d) (first := false) hfind hroom
      rw [hfill] at hnew
      dsimp only at hnew
      rw [hnew]
      exact List.mem_cons_of_mem _ hy
    next => exact hsame

theorem translate_hit {s : State} {w : Workgroup} {x : Thread} {va : Word} {r wr : Bool} {lf : Leaf} (h : PageHit s x.tid.core w.pasid x.pl va r wr lf)
    (hk : lf.key = 0) : translate s x.tid.core w.pasid va.toNat ⟨r, wr, false, x.pl⟩ = (s, .ok lf (leafPa lf va.toNat)) := by
  obtain ⟨hcanon, ⟨e, hentry, rfl, hwritten⟩, hallows, hreach⟩ := h
  have hseen : e.leaf.seenBy x.pl = e.leaf := by unfold Leaf.seenBy; rw [if_neg (by rw [hk]; simp)]
  unfold translate
  rw [if_neg (by omega), hentry]
  dsimp only
  rw [if_neg (by cases wr <;> simp_all)]
  unfold checked
  dsimp only
  rw [if_pos (by rw [hallows, hreach]; rfl), hseen]
  rfl

theorem prefLane_plain {s : State} {x : Thread} {w : Workgroup} {cp : Cp} {lf : Leaf} {ea : Word} {a : Nat} (hw : w.Plain)
    (hhit : PageHit s x.tid.core w.pasid x.pl ea true false lf) (hleaf : PlainLeaf lf) (h : homeOf s.module_ s.domain (leafPa lf ea.toNat) = .hbm a) :
    ∃ l1', prefLane s w x cp ea = ({ s with l1 := l1' }, none) ∧ (∀ y ∈ l1', y ∈ s.l1 ∨ (y.core = x.tid.core ∧ y.block = a / 64)) ∧
      ((s.l1.filter fun y => y.core == x.tid.core).length < Config.l1Lines → ∀ y ∈ s.l1, y ∈ l1') := by
  have drone : (w.role == .drone) = false := by rw [hw.single]; rfl
  obtain ⟨l1', hline, hfacts⟩ := prefLine_hbm (x := x) (w := w) (lf := lf) (ea := ea) h
  unfold prefLane
  simp only [drone, translate_hit hhit hleaf.key, coloursOf_none hleaf.stripe hleaf.colour, holdAll, Bool.false_eq_true, if_false]
  split
  · exact ⟨l1', by rw [hline], hfacts⟩
  · exact ⟨s.l1, rfl, fun _ hy => .inl hy, fun _ _ hy => hy⟩

/-- Settles O21: CINVAL drops the lines that it names, and PREF can bring in one. -/
theorem cacheWords : Obligations.CacheWords := by
  refine ⟨fun pg base off s x w blk hsolo so hclean hbase => cinval_done hsolo so hclean fun b hb => ?_,
    fun pg base cp off s x w lf a hsolo so hclean hhit hleaf hhome => ?_⟩
  · obtain ⟨e, a, hentry, hhome, rfl⟩ := hbase b hb
    exact cinvalBlock_hit hentry (hbmOf_eq hhome)
  · obtain ⟨l1', hlane, hlines, hroom⟩ := prefLane_plain (cp := cp) so.plain hhit hleaf hhome
    obtain ⟨t, hexec, ht, hdone⟩ := hsolo.addr (f := fun s w t ea => prefLane s w t cp ea) so hclean rfl (by rfl) (by rfl) (by rfl) hlane
    have hl1 : t.l1 = l1' := by rw [ht]
    exact ⟨t, hexec, by rw [ht], fun y hy => hlines y (hl1 ▸ hy), fun hr y hy => hl1.symm ▸ hroom hr y hy, hdone⟩

/-! ## Block descriptors -/

theorem DescBytes.hbm {s : State} {x : Thread} {w : Workgroup} {va : Word} {r wr : Bool} {lf : Leaf} {a : Nat} {d : BitVec 16}
    (h : DescBytes s x w va r wr lf a d) : hbmOf s (leafPa lf va.toNat) = some a := by
  unfold hbmOf
  rw [h.home]
  exact if_pos h.die

/-- The block as its own layout reads it: the data that stands there, without an error. -/
theorem DescBytes.readBlk {s : State} {x : Thread} {w : Workgroup} {va : Word} {r wr : Bool} {lf : Leaf} {a : Nat} {d : BitVec 16}
    (h : DescBytes s x w va r wr lf a d) : Machine.readBlk s (a / 64) lf.layout lf.key = ⟨blockData s.mem (a / 64), d, [0, 0, 0, 0], false, false, false⟩ := by
  unfold Machine.readBlk
  rw [h.block, h.layout, h.key]
  exact readBlock_desc d _ _

theorem seenClass_clean (data : Nat) (d : BitVec 16) : seenClass ⟨data, d, [0, 0, 0, 0], false, false, false⟩ allBits = none := by simp [seenClass]

theorem readDesc_clean {s : State} {x : Thread} {w : Workgroup} {va : Word} {r wr : Bool} {lf : Leaf} {a : Nat} {d : BitVec 16}
    (h : DescBytes s x w va r wr lf a d) : readDesc s a lf = (s, d, ⟨leBytes 2 d.toNat, none, [], [], false, false⟩) := by
  unfold readDesc
  rw [h.readBlk]
  simp only [seenClass_clean, Bool.false_eq_true, if_false, Option.isSome_none]

theorem leNat_two (d : BitVec 16) : leNat (leBytes 2 d.toNat) = d.toNat := by
  simp [leBytes, leNat]
  omega

theorem dataWords_desc (d : BitVec 16) : dataWords 2 false (leBytes 2 d.toNat) = [d.setWidth 32] := by
  unfold dataWords
  rw [if_pos (by decide), List.take_of_length_le (by simp [leBytes]), leNat_two]
  simp

theorem ldbdLane_clean {s : State} {x : Thread} {w : Workgroup} {m : MLoad} {lf : Leaf} {a : Nat} {d : BitVec 16} (so : Sound s w x (loadSrcs m) m.d 1)
    (hclean : Clean s w x (loadSrcs m)) (halign : (loadEa m s w x).toNat % 64 = 0) (h : DescBytes s x w (loadEa m s w x) true false lf a d) :
    ldbdLane s w x m = ({ s with
        threads := (modT s x.tid fun y => pendDst (takeSources y (loadSrcs m) (readSrcs s w x (loadSrcs m) []).pops) m.d 1).threads, ids := s.ids + 1
        loads := s.loads ++ [onItsWay s (s.ids + 1) x .global m.d (loadEa m s w x) [d.setWidth 32]] }, .retire []) := by
  have drone : (w.role == .drone) = false := by rw [so.plain.single]; rfl
  have hxlate := accXlate_hit h.hit h.key
  have hlog := h.log
  have hfull := valuesFull_single s so.plain.single
  have hlayout := h.layout
  have hcolours := coloursOf_none h.stripe h.colour (loadEa m s w x).toNat 64
  have hhbm := h.hbm
  have hread := readDesc_clean h
  have hdrain := drainOverlap_none h.stores (a / 64 * 64) 64
  unfold ldbdLane
  refine (withSrcs_ok so.dual (addrPoison_clean hclean) so.causes so.full so.dst).trans ?_
  simp only [loadEa, loadSrcs] at *
  simp only [halign, drone, hlog, hfull, hxlate, hlayout, hcolours, hhbm, hread, hdrain, holdAll, applySev, queueValue_single _ so.plain.single,
    deliver_eq _ _ _ _ _ _ _ _ _ _ so.plain, dataFill_plain, dataWords_desc, ne_eq, not_true, if_false, Bool.or_self, Bool.false_eq_true]
  rfl

/-- The cells that a descriptor's write puts back are those that stand there. -/
theorem blockData_cells (m : List Host.Cell) (blk : Nat) : leBytes 64 (blockData m blk) = getCells (64 * blk) 64 m := by
  have h := leNat_leBytes (getCells (64 * blk) 64 m)
  rwa [getCells_length] at h

theorem setBlock_congr {s t : State} (h : t.blocks = s.blocks) (k : Nat) (b : Block) : (setBlock t k b).blocks = (setBlock s k b).blocks := by
  unfold setBlock getBlock
  rw [h]
  split <;> simp only [h]

/-- A block put without poison, under a layout without pad bits. -/
theorem putBlock_clean (s : State) (k : Nat) (cells : List Host.Cell) {b : Block} (hpoison : b.poison = false) (hpad : sixBit b.layout = false) :
    putBlock s k cells b = { s with mem := setCells cells s.mem, dirty := (markDirty s k).dirty, blocks := (setBlock s k b).blocks } := by
  have htrim : trimPad b.layout k (setCells cells s.mem) = setCells cells s.mem := by rw [trimPad, hpad, if_neg (by simp)]
  have hdirty : (markDirty { s with mem := setCells cells s.mem } k).dirty = (markDirty s k).dirty := markDirty_congr (by rfl) k
  have hblocks := setBlock_congr (s := s) (t := markDirty { s with mem := setCells cells s.mem } k) (by rw [markDirty_frame]) k b
  unfold putBlock
  dsimp only
  rw [hpoison, if_neg (by simp), htrim, setBlock_frame, hblocks, markDirty_frame, hdirty]

theorem writeDesc_clean {s : State} {x : Thread} {w : Workgroup} {va : Word} {r wr : Bool} {lf : Leaf} {a : Nat} {d : BitVec 16}
    (h : DescBytes s x w va r wr lf a d) (new : BitVec 16) : writeDesc s a lf new false = { s with
      mem := setCells (cellsAt (64 * (a / 64)) (getCells (64 * (a / 64)) 64 s.mem)) s.mem, dirty := (markDirty s (a / 64)).dirty
      blocks := (setBlock s (a / 64) ⟨12, new, 0, false, 0, 0, false⟩).blocks } := by
  unfold writeDesc
  dsimp only
  rw [h.readBlk]
  dsimp only
  rw [seenClass_clean, blockData_cells, h.layout, h.key, Option.isSome_none, Bool.or_self]
  exact putBlock_clean s _ _ rfl rfl

theorem stbdLane_clean {s : State} {x : Thread} {w : Workgroup} {m : MStore} {lf : Leaf} {a : Nat} {d : BitVec 16} (so : Sound s w x (descSrcs m) .zero 0)
    (hclean : Clean s w x (descSrcs m)) (halign : (storeEa { m with w := .w32 } s w x).toNat % 64 = 0)
    (h : DescBytes s x w (storeEa { m with w := .w32 } s w x) false true lf a d) :
    stbdLane s w x m = (modT (writeDesc s a lf ((storeData { m with w := .w32 } s w x).w32.setWidth 16) false) x.tid fun y =>
      takeSources y (descSrcs m) (readSrcs s w x (descSrcs m) []).pops, .retire []) := by
  have drone : (w.role == .drone) = false := by rw [so.plain.single]; rfl
  have chanter : (w.role == .chanter) = false := by rw [so.plain.single]; rfl
  have hxlate := accXlate_hit h.hit h.key
  have hlog := h.log
  have hlayout := h.layout
  have hnr := h.nr
  have hcolours := coloursOf_none h.stripe h.colour (storeEa { m with w := .w32 } s w x).toNat 64
  have hhbm := h.hbm
  have hdrain := drainOverlap_none h.stores (a / 64 * 64) 64
  have hpoison := opv_clean hclean 1
  unfold stbdLane
  refine (withSrcs_ok so.dual (addrPoison_clean hclean) so.causes so.full so.dst).trans ?_
  simp only [storeEa, storeData, descSrcs, gstoreSrcs, MWidth.k] at *
  simp only [halign, drone, chanter, hlog, hxlate, hlayout, hnr, hcolours, hhbm, hdrain, hpoison, holdAll, ne_eq, not_true, if_false, Bool.or_self,
    Bool.false_eq_true]
  rw [touchRegs_off _ _ so.plain.rollback so.plain.redund]

/-- Settles O23: the descriptor goes on its way as it stands, or is set beside the block's data. -/
theorem blockDescriptors : Obligations.BlockDescriptors := by
  refine ⟨fun m s x w lf a d hsolo so hclean halign h => ?_, fun m s x w lf a d hform hsolo so hclean halign h => ?_⟩
  · exact ⟨_, congrArg Host.Outcome.next (hsolo.retire (f := fun s w t => ldbdLane s w t m) (ldbdLane_clean so hclean halign h)), rfl,
      oneDone_awaits hsolo.thread hsolo.ready so.armed so.plain.single rfl rfl rfl⟩
  · have hwrite := writeDesc_clean h ((storeData { m with w := .w32 } s w x).w32.setWidth 16)
    have hlane := stbdLane_clean so hclean halign h
    rw [hwrite] at hlane
    have hout : exec (.stbd m) s = .next (perLane s m.pg fun s w t => stbdLane s w t m) := rfl
    obtain ⟨t, hexec, ht, hdone⟩ := hsolo.took' (f := fun s w t => stbdLane s w t m) hout (by rfl) (by rfl) (by rfl) hlane
    refine ⟨t, hexec, by rw [ht], fun c => ?_, hdone⟩
    have hmem : t.mem = setCells (cellsAt (64 * (a / 64)) (getCells (64 * (a / 64)) 64 s.mem)) s.mem := by rw [ht]
    rw [hmem, rewrite_same hform]

end Sys2Proof.Machine
end

section
/-! PROOFS of the words of one thread that bind scratch, start engine operations or act on streams (R345 to R348, R361 to R379). -/

namespace Sys2Proof.Machine

theorem Quiet.refl (s : State) : Quiet s s := ⟨rfl, rfl, rfl⟩

/-- A word without destination whose effect leaves threads, group and clock alone. -/
theorem OneWord.group_quiet {a : OneWord} {s : State} {x : Thread} {w : Workgroup} {out : Host.Outcome State Fault Refusal}
    {extra : Thread → List Cause} {ad : List Nat} {act : State → Workgroup → Thread → List Opv → List Tid → State × GroupRes} (h : Solo s a.pg x w)
    (so : a.Sound s w x) (ho : out = .next (perGroupWith s a.pg extra a.srcs a.d a.kd ad act)) (he : extra x = []) (hd : a.d = .zero) (hk : a.kd = 0)
    (hend : a.ending s w x (readSrcs s w x a.srcs []).vals = .wrote []) (halso : a.also s w x (readSrcs s w x a.srcs []).vals = id)
    (hquiet : Quiet s (a.effect s w x (readSrcs s w x a.srcs []).vals))
    (hact : act s w x (readSrcs s w x a.srcs []).vals [x.tid] = (a.effect s w x (readSrcs s w x a.srcs []).vals, .retire)) :
    ∃ t, out = .next t ∧ a.Done s t w x :=
  OneWord.group_took h so ho he hd hk hend halso rfl hact rfl hquiet.cur hquiet.now (v := x.vc) ((hquiet.getT _).trans h.thread) fun _ _ => rfl

/-! ## The scratch map -/

theorem smap_done {pg : Guard} {p q r : Src} {a : OneWord} {s : State} {x : Thread} {w : Workgroup} (ha : scratchMapWord (.smap pg p q r) = some a)
    (hsolo : Solo s a.pg x w) (so : a.Sound s w x) : ∃ t, exec (.smap pg p q r) s = .next t ∧ a.Done s t w x := by
  cases ha
  refine OneWord.group_quiet hsolo so rfl rfl rfl rfl rfl rfl ⟨rfl, rfl, rfl⟩ ?_
  have hown := so.own
  dsimp only at hown ⊢
  rw [hown]

theorem removeBinding_quiet {s S : State} (h : Quiet s S) (id : Nat) (b : Binding) : Quiet s (removeBinding S id b) := by
  rw [removeBinding_frame]
  exact ⟨h.threads, h.cur, h.now⟩

theorem sunmap_done {pg : Guard} {p : Src} {a : OneWord} {s : State} {x : Thread} {w : Workgroup} (ha : scratchMapWord (.sunmap pg p) = some a)
    (hsolo : Solo s a.pg x w) (so : a.Sound s w x) : ∃ t, exec (.sunmap pg p) s = .next t ∧ a.Done s t w x := by
  cases ha
  have hown := so.own
  refine OneWord.group_quiet hsolo so rfl rfl rfl rfl rfl rfl ?_ ?_
  all_goals
    dsimp only at hown ⊢
    generalize (readSrcs s w x [⟨p, 1, .int⟩] []).vals = v at hown ⊢
    obtain ⟨hnone, hquiet⟩ := hown
  · cases namedBinding w v with
    | none => exact Quiet.refl s
    | some b => exact removeBinding_quiet hquiet w.id b
  · unfold writeBackNamed at hnone ⊢
    unfold namedBinding at hnone ⊢
    cases hfind : w.smap.find? fun b => b.base == (opv v 0).nat false with
    | none => rfl
    | some b =>
      rw [hfind] at hnone
      dsimp only at hnone ⊢
      rw [show writeBackBinding s w.id x b = ((writeBackBinding s w.id x b).1, none) from Prod.ext rfl hnone]

theorem groupOf_none {S : State × Option LaneRes} (h : S.2 = none) : groupOf S = (S.1, .retire) := by
  obtain ⟨s, r⟩ := S
  cases h
  rfl

theorem swb_done {pg : Guard} {p : Option Src} {a : OneWord} {s : State} {x : Thread} {w : Workgroup} (ha : scratchMapWord (.swb pg p) = some a)
    (hsolo : Solo s a.pg x w) (so : a.Sound s w x) : ∃ t, exec (.swb pg p) s = .next t ∧ a.Done s t w x := by
  cases p with
  | none =>
    cases ha
    exact OneWord.group_quiet hsolo so rfl rfl rfl rfl rfl rfl so.own.2 (groupOf_none so.own.1)
  | some p =>
    cases ha
    exact OneWord.group_quiet hsolo so rfl rfl rfl rfl rfl rfl so.own.2 (groupOf_none so.own.1)

/-- Settles O24: each word's own part is its effect. -/
theorem scratchMaps : Obligations.ScratchMaps := by
  intro i a s x w ha hsolo so
  cases i
  case smap => exact smap_done ha hsolo so
  case sunmap => exact sunmap_done ha hsolo so
  case swb => exact swb_done ha hsolo so
  all_goals cases ha

/-! ## Operations of the asynchronous engine -/

theorem poisonCauses_none {s : State} {w : Workgroup} {x : Thread} {l : List SrcSpec} (h : Clean s w x l) (ad : List Nat) :
    poisonCauses ad (readSrcs s w x l []).vals = [] := poisonCauses_clean h

/-- The lane that starts an operation and hands out its token. -/
theorem startOp_retire {S : State} {w : Workgroup} (hw : w.Plain) (x : Thread) (src : List SrcSpec) (pops : List Nat) (d : Dst) (g : Sig) (k : EngineKind) :
    (match startOp S w x [x.tid] d g k with
     | (s, some z) => (s, z)
     | (s, none) => tokenRetire s w x.tid src pops d) =
    (modT (bumpVc (forked S w x d k) x.tid) x.tid fun y => pendDst (takeSources y src pops) d 2, .retire []) := by
  rw [startOp_single hw.single]
  dsimp only
  unfold tokenRetire
  dsimp only
  rw [touchRegs_off _ _ hw.rollback hw.redund]

/-- A word whose lane forks one operation, after a part `S` that leaves the threads alone. -/
theorem OneWord.lane_forked {a : OneWord} {s S : State} {x : Thread} {w : Workgroup} {k : EngineKind} {out : Host.Outcome State Fault Refusal}
    {f : State → Workgroup → Thread → State × LaneRes} (h : Solo s a.pg x w) (ho : out = .next (perLane s a.pg f)) (hkd : a.kd = 2)
    (hE : a.effect s w x (readSrcs s w x a.srcs []).vals = forked S w x a.d k) (hend : a.ending s w x (readSrcs s w x a.srcs []).vals = .pending)
    (halso : a.also s w x (readSrcs s w x a.srcs []).vals = id) (hquiet : Quiet s S)
    (hf : f s w x = (modT (bumpVc (forked S w x a.d k) x.tid) x.tid fun y => pendDst (takeSources y a.srcs (readSrcs s w x a.srcs []).pops) a.d 2, .retire [])) :
    ∃ t, out = .next t ∧ a.Done s t w x := by
  obtain ⟨v, hmine, hothers⟩ := forked_thread (w := w) (v := x.vc) ((hquiet.getT _).trans h.thread) a.d k
  exact OneWord.lane_pending h ho hE hend halso hf rfl (by rw [hkd]) hquiet.cur hquiet.now hmine hothers

theorem forkWaits_single {s : State} {w : Workgroup} {t : Tid} {sc : Scope} (h : releasePending s t sc = false) : forkWaits s w t sc = false := by
  unfold forkWaits
  rw [h, Bool.and_false]

/-- The lane of a copy that starts: its operation is forked, and its token goes PENDING. -/
theorem copyWord_done {c : CopyOp} {kl : Nat} {rows : Opv → Rows × Bool} {s : State} {x : Thread} {w : Workgroup}
    {out : Host.Outcome State Fault Refusal} (hout : out = .next (copyWord s c kl rows)) (hsolo : Solo s c.pg x w) (so : (copySpec c kl rows).Sound s w x) :
    ∃ t, out = .next t ∧ (copySpec c kl rows).Done s t w x := by
  obtain ⟨op, clean, -, hrows, S, ⟨sd, sr⟩, hresolve, hquiet, hroom, hrel⟩ := so
  have drone : (w.role == .drone) = false := by rw [op.plain.single]; rfl
  have hpoison : poisonCauses [0, 1] (readSrcs s w x (copySrcs c kl) []).vals = [] := poisonCauses_clean clean
  change (rows (opv (readSrcs s w x (copySrcs c kl) []).vals 2)).2 = false at hrows
  change resolveBoth s w x c (opv (readSrcs s w x (copySrcs c kl) []).vals 0) (opv (readSrcs s w x (copySrcs c kl) []).vals 1)
    (rows (opv (readSrcs s w x (copySrcs c kl) []).vals 2)).1 [] = _ at hresolve
  have heffect : (copySpec c kl rows).effect s w x (readSrcs s w x (copySrcs c kl) []).vals =
      forked S w x c.d (.copy sd sr (rows (opv (readSrcs s w x (copySrcs c kl) []).vals 2)).1 c.scope none) := by
    simp only [copySpec, hresolve]
  unfold copyWord at hout
  refine OneWord.lane_forked (a := copySpec c kl rows) (S := S) hsolo hout rfl heffect rfl rfl hquiet ?_
  refine (withSrcs_ok (l := copySrcs c kl) op.dual rfl op.causes op.full op.dst).trans ?_
  change _ = (modT (bumpVc (forked S w x c.d _) x.tid) x.tid fun y => pendDst (takeSources y (copySrcs c kl) (readSrcs s w x (copySrcs c kl) []).pops) c.d 2, LaneRes.retire [])
  simp only [drone, hpoison, hrows, lengthCause, hresolve, hroom, forkWaits_single hrel, List.nil_append, Bool.false_and, Bool.false_eq_true, if_false]
  exact startOp_retire op.plain x _ _ _ _ _

/-- Settles O25: each lane's operation is forked, and its token handed out. -/
theorem copyWords : Obligations.CopyWords := by
  rintro i c kl rows (⟨rfl, rfl, rfl⟩ | ⟨rfl, rfl, rfl⟩ | ⟨rfl, rfl, rfl⟩) s x w hsolo so
  · exact copyWord_done rfl hsolo so
  · exact copyWord_done rfl hsolo so
  · exact copyWord_done rfl hsolo so

end Sys2Proof.Machine
end

section
/-! PROOFS of the engine words (R371 to R379). -/

namespace Sys2Proof.Machine

theorem tokenRetire_plain (s : State) {w : Workgroup} (hw : w.Plain) (t : Tid) (l : List SrcSpec) (pops : List Nat) (d : Dst) :
    tokenRetire s w t l pops d = (modT s t fun y => pendDst (takeSources y l pops) d 2, .retire []) := by
  unfold tokenRetire
  dsimp only
  rw [touchRegs_off _ _ hw.rollback hw.redund]

/-! ## XRED -/

def xredSrcs (o : A3) (s2g : Bool) : List SrcSpec := [⟨o.a, 2, .int⟩, ⟨o.b, if s2g then 1 else 2, .int⟩, ⟨o.c, 1, .int⟩]

/-- The lane of a reduction that starts: its operation is forked, the interval pinned, and its token goes PENDING. -/
theorem xred_done {o : A3} {s2g : Bool} {ty : AType} {aop : AOp} {scope : Scope} {a : OneWord} {s : State} {x : Thread} {w : Workgroup}
    {out : Host.Outcome State Fault Refusal} (hout : out = execXred o s2g ty aop scope s) (ha : engineWord (.xred o s2g ty aop scope) = some a)
    (hsolo : Solo s a.pg x w) (so : a.Sound s w x) : ∃ t, out = .next t ∧ a.Done s t w x := by
  cases ha
  obtain ⟨op, clean, -, S, cs, hcauses, hlow, hquiet, hroom, hrel⟩ := so
  have drone : (w.role == .drone) = false := by rw [op.plain.single]; rfl
  have single : (w.role == .single) = true := by rw [op.plain.single]; rfl
  have hpoison : poisonCauses [0, 1] (readSrcs s w x (xredSrcs o s2g) []).vals = [] := poisonCauses_clean clean
  change xredCauses s w x s2g ty aop (opv (readSrcs s w x (xredSrcs o s2g) []).vals 0).word (opv (readSrcs s w x (xredSrcs o s2g) []).vals 1)
    ((opv (readSrcs s w x (xredSrcs o s2g) []).vals 2).nat false) = _ at hcauses
  generalize hk : EngineKind.xred (opv (readSrcs s w x (xredSrcs o s2g) []).vals 0).word
    (if s2g then .scratch (opv (readSrcs s w x (xredSrcs o s2g) []).vals 1).w32.toNat else .global (opv (readSrcs s w x (xredSrcs o s2g) []).vals 1).word none)
    ((opv (readSrcs s w x (xredSrcs o s2g) []).vals 2).nat false) ty aop scope = k
  obtain ⟨v, hmine, hothers⟩ := forked_thread (w := w) (v := x.vc) ((hquiet.getT _).trans hsolo.thread) o.d k
  unfold execXred at hout
  refine OneWord.lane_pending (V := pin (bumpVc (forked S w x o.d k) x.tid) w.id) (E := pin (forked S w x o.d k) w.id)
    (S := modT (pin (bumpVc (forked S w x o.d k) x.tid) w.id) x.tid fun y => pendDst (takeSources y (xredSrcs o s2g) (readSrcs s w x (xredSrcs o s2g) []).pops) o.d 2)
    hsolo hout ?_ rfl rfl ?_ rfl rfl hquiet.cur hquiet.now hmine hothers
  · subst hk
    exact congrArg (fun S => pin (forked S w x o.d _) w.id) (congrArg Prod.fst hcauses)
  · refine (withSrcs_ok (l := xredSrcs o s2g) op.dual rfl op.causes op.full op.dst).trans ?_
    simp only [drone, hpoison, hcauses, hlow, hroom, forkWaits_single hrel, List.nil_append, Bool.false_and, Bool.false_eq_true, if_false,
      startOp_single op.plain.single, tokenRetire_plain _ op.plain, single, if_true, hk]
    rfl

/-! ## REMQ -/

theorem intervalOf_pin (s : State) (id : Nat) (t : Tid) : intervalOf (pin s id) t = intervalOf s t := by
  unfold intervalOf
  rw [show getT (pin s id) t = getT s t from rfl]
  cases getT s t with
  | none => rfl
  | some x =>
    have hget := getWg_modWg s id x.wg (fun w => { w with epoch := { w.epoch with pinned := true } }) (by intro w; rfl)
    rw [Option.bind_some, Option.bind_some, pin, hget]
    cases getWg s x.wg with
    | none => rfl
    | some g => dsimp only [Option.map_some]; split <;> rfl

/-- An operation made after the pin is the one made before. -/
theorem mkOp_pin (s : State) (w : Workgroup) (x : Thread) (tids : List Tid) (d : Dst) (k : EngineKind) (id n : Nat) :
    mkOp (pin s n) w x tids d k id = mkOp s w x tids d k id := by
  unfold mkOp
  rw [intervalOf_pin]
  rfl

/-- The start of an operation of a lone thread, with what the reading of its operands has met. -/
theorem startOp_affected {s : State} {w : Workgroup} (h : w.role = .single) (x : Thread) (d : Dst) (g : Sig) (k : EngineKind) (aff : List Nat) (stop : Option Nat) :
    startOp s w x [x.tid] d g k aff stop = (bumpVc { s with ids := s.ids + 1, engines := s.engines ++
      [{ mkOp s w x [x.tid] d k (s.ids + 1) with affected := aff, stop := stop }] } x.tid, none) := by
  unfold startOp
  rw [h]
  rfl

def remqSrcs (o : A2) : List SrcSpec := [⟨o.a, 1, .int⟩, ⟨o.b, 1, .int⟩]

/-- The machine with a started REMQ among its operations, its flit sent. -/
def remqSent (s : State) (w : Workgroup) (x : Thread) (d : Dst) (a : W32) (addr : Nat) : State :=
  let S := pin s w.id
  sendRemq { S with ids := S.ids + 1, engines := S.engines ++ [remqOp S w x d a addr] } (remqOp S w x d a addr) w.pasid

/-- The RCB in force hangs on the regions alone. -/
theorem effectiveFrom_congr {s t : State} (h : t.regions = s.regions) (pasid : Nat) :
    ∀ (fuel : Nat) (addr : Word), effectiveFrom t pasid fuel addr = effectiveFrom s pasid fuel addr
  | 0, _ => rfl
  | fuel + 1, addr => by
    have hget : getRegion t pasid addr = getRegion s pasid addr := by unfold getRegion; rw [h]
    unfold effectiveFrom
    rw [hget]
    split
    · rfl
    · split
      · rfl
      · rw [effectiveFrom_congr h pasid fuel]

theorem effective_congr {s t : State} (h : t.regions = s.regions) (pasid : Nat) (addr : Word) : effective t pasid addr = effective s pasid addr := by
  unfold effective
  rw [h, effectiveFrom_congr h]

/-- A pin does not change what the reading of a payload meets. -/
theorem remqOp_pin (s : State) (w : Workgroup) (x : Thread) (d : Dst) (a : W32) (addr n : Nat) : remqOp (pin s n) w x d a addr = remqOp s w x d a addr := by
  have hsource : sourceWord (pin s n) x.tid.core = sourceWord s x.tid.core := rfl
  have hdata : remqData (pin s n) w addr = remqData s w addr := by
    unfold remqData wgNow
    rw [effective_congr (s := s) (t := pin s n) rfl]
  unfold remqOp
  dsimp only
  rw [mkOp_pin, hsource, hdata]
  rfl

theorem remqSent_quiet (s : State) (w : Workgroup) (x : Thread) (d : Dst) (a : W32) (addr : Nat) : Quiet s (remqSent s w x d a addr) := by
  obtain ⟨hthreads, hcur, hnow⟩ := sendRemq_frame { pin s w.id with ids := (pin s w.id).ids + 1, engines := (pin s w.id).engines ++ [remqOp (pin s w.id) w x d a addr] }
    (remqOp (pin s w.id) w x d a addr) w.pasid
  exact ⟨hthreads, hcur, hnow⟩

theorem sendRemq_bumpVc (s : State) (op : EngineOp) (p : Nat) (t : Tid) : sendRemq (bumpVc s t) op p = bumpVc (sendRemq s op p) t := by
  have hframe : bumpVc s t = { s with threads := (bumpVc s t).threads } := rfl
  have hthreads : (bumpVc (sendRemq s op p) t).threads = (bumpVc s t).threads := by
    unfold bumpVc modT
    rw [(sendRemq_frame s op p).1]
  rw [hframe, sendRemq_threads, ← hthreads]
  rfl

/-- A REMQ that starts: its operation is among the engine's, its flit sent, and its token goes PENDING. -/
theorem remq_started {s : State} {w : Workgroup} (hw : w.Plain) (x : Thread) (d : Dst) (g : Sig) (a : W32) (addr : Nat) (src : List SrcSpec) (pops : List Nat) :
    (match startOp (pin s w.id) w x [x.tid] d g (.remq (bits a.toNat 19 11) (bits a.toNat 10 0) (remqData s w addr).1 (sourceWord s x.tid.core) (remqData s w addr).2.1)
        (remqData s w addr).2.2.1 (remqData s w addr).2.2.2 with
     | (s, some z) => (s, z)
     | (s, none) =>
       let s := match w.role, s.engines.getLast? with
         | .chanter, _ => s
         | _, some op => sendRemq s op w.pasid
         | _, none => s
       tokenRetire s w x.tid src pops d) =
    (modT (bumpVc (remqSent s w x d a addr) x.tid) x.tid fun y => pendDst (takeSources y src pops) d 2, .retire []) := by
  have hlast : (bumpVc { pin s w.id with ids := (pin s w.id).ids + 1, engines := (pin s w.id).engines ++ [remqOp s w x d a addr] } x.tid).engines.getLast? =
      some (remqOp s w x d a addr) := List.getLast?_concat
  have hop : ({ mkOp s w x [x.tid] d (.remq (bits a.toNat 19 11) (bits a.toNat 10 0) (remqData s w addr).1 (sourceWord s x.tid.core) (remqData s w addr).2.1)
      ((pin s w.id).ids + 1) with affected := (remqData s w addr).2.2.1, stop := (remqData s w addr).2.2.2 } : EngineOp) = remqOp s w x d a addr := rfl
  rw [startOp_affected hw.single, mkOp_pin, hop]
  dsimp only
  rw [hw.single, hlast]
  dsimp only
  rw [sendRemq_bumpVc, tokenRetire_plain _ hw, remqSent, remqOp_pin]

theorem remq_done {o : A2} {ack : Bool} {a : OneWord} {s : State} {x : Thread} {w : Workgroup} {out : Host.Outcome State Fault Refusal}
    (hout : out = execRemq o ack s) (ha : engineWord (.remq o ack) = some a) (hsolo : Solo s a.pg x w) (so : a.Sound s w x) :
    ∃ t, out = .next t ∧ a.Done s t w x := by
  cases ha
  obtain ⟨op, clean, -, hcause, hroom, hheld, hrel⟩ := so
  have hpoison : poisonCauses [1] (readSrcs s w x (remqSrcs o) []).vals = [] := poisonCauses_clean clean
  change lowest (remqCause s (opv (readSrcs s w x (remqSrcs o) []).vals 0).w32 (opv (readSrcs s w x (remqSrcs o) []).vals 1).w32.toNat w) = none at hcause
  change remqHeld s (bits (opv (readSrcs s w x (remqSrcs o) []).vals 0).w32.toNat 19 11) (bits (opv (readSrcs s w x (remqSrcs o) []).vals 0).w32.toNat 10 0) = false at hheld
  have hquiet := remqSent_quiet s w x (if ack then o.d else .zero) (opv (readSrcs s w x (remqSrcs o) []).vals 0).w32 (opv (readSrcs s w x (remqSrcs o) []).vals 1).w32.toNat
  obtain ⟨v, hmine, hothers⟩ := bumpVc_vc (v := x.vc) ((hquiet.getT _).trans hsolo.thread)
  unfold execRemq at hout
  generalize hE : remqSent s w x _ _ _ = E at hquiet hmine hothers
  refine OneWord.lane_pending (E := E) (S := modT (bumpVc E x.tid) x.tid fun y =>
    pendDst (takeSources y (remqSrcs o) (readSrcs s w x (remqSrcs o) []).pops) (if ack then o.d else .zero) 2) hsolo hout hE rfl rfl ?_ (by rfl) (by rfl) hquiet.cur hquiet.now hmine hothers
  refine (withSrcs_ok (l := remqSrcs o) op.dual rfl op.causes op.full op.dst).trans ?_
  simp only [hpoison, hcause, hroom, hheld, forkWaits_single hrel, List.nil_append, Bool.or_self, Bool.false_eq_true, if_false]
  rw [← hE]
  exact remq_started op.plain x _ _ _ _ _ _

end Sys2Proof.Machine
end

section
/-! PROOFS of RQPOP, the streams and TCHK (R373 to R379). -/

namespace Sys2Proof.Machine

/-! ## Intervals across writes of a scratchpad -/

/-- Every workgroup is in the same interval. -/
def SameIntervals (s t : State) : Prop := ∀ k, (getWg t k).map (·.epoch.number) = (getWg s k).map (·.epoch.number)

theorem SameIntervals.trans {s t u : State} (h : SameIntervals s t) (k : SameIntervals t u) : SameIntervals s u := fun n => (k n).trans (h n)

theorem sameIntervals_modWg (s : State) (k : Nat) {f : Workgroup → Workgroup} (hf : ∀ w, (f w).id = w.id ∧ (f w).epoch.number = w.epoch.number) :
    SameIntervals s (modWg s k f) := by
  intro n
  have hget := getWg_modWg s k n f fun w => (hf w).1
  rw [hget]
  cases getWg s n with
  | none => rfl
  | some w =>
    dsimp only [Option.map_some]
    split
    · exact congrArg some (hf w).2
    · rfl

theorem sameIntervals_touchGranule (s : State) (id g : Nat) : SameIntervals s (touchGranule s id g) := by
  unfold touchGranule
  split
  · exact fun _ => rfl
  · split
    · exact fun _ => rfl
    · split
      · exact fun _ => rfl
      · split
        · exact sameIntervals_modWg s id fun _ => ⟨rfl, rfl⟩
        · exact sameIntervals_modWg s id fun _ => ⟨rfl, rfl⟩

theorem sameIntervals_padWriteRange (s : State) (id a : Nat) (b : List Byte) (p q : Bool) : SameIntervals s (padWriteRange s id a b p q) := by
  unfold padWriteRange
  refine foldl_inv (fun acc : State × List Byte => SameIntervals s acc.1) _ (fun acc z h => h.trans ?_) _ _ fun _ => rfl
  exact (sameIntervals_touchGranule _ _ _).trans (sameIntervals_modWg _ _ fun _ => ⟨rfl, rfl⟩)

theorem intervalOf_sameIntervals {s t : State} (h : SameIntervals s t) {x : Thread} {v : List (Nat × Nat)} {u : Tid} (hs : getT s u = some x)
    (ht : getT t u = some { x with vc := v }) : intervalOf t u = intervalOf s u := by
  unfold intervalOf
  rw [hs, ht, Option.bind_some, Option.bind_some]
  exact congrArg (·.getD 0) (h x.wg)

/-! ## RQPOP -/

theorem sameIntervals_pin (s : State) (id : Nat) : SameIntervals s (pin s id) := sameIntervals_modWg s id fun _ => ⟨rfl, rfl⟩

/-- What taking a landing entry leaves: its bytes in the scratchpad, its clock joined, and the core's L1 emptied. -/
theorem takeLanding_facts (s : State) (w : Workgroup) (x : Tid) (addr : Nat) (e : Landing) :
    SameIntervals s (takeLanding s w x addr e) ∧ (takeLanding s w x addr e).cur = s.cur ∧ (takeLanding s w x addr e).now = s.now ∧
      (takeLanding s w x addr e).ids = s.ids ∧
      (∀ z, getT s x = some z → ∃ v, getT (takeLanding s w x addr e) x = some { z with vc := v }) ∧
      ∀ u, u ≠ x → getT (takeLanding s w x addr e) u = getT s u := by
  have hframe := padWriteRange_frame s w.id addr e.data e.poison false
  have hsame := sameIntervals_padWriteRange s w.id addr e.data e.poison false
  unfold takeLanding
  generalize padWriteRange s w.id addr e.data e.poison false = P at hframe hsame
  obtain ⟨G, rfl⟩ : ∃ G, P = { s with wgs := G } := ⟨_, hframe⟩
  obtain ⟨-, hmine, hothers⟩ := vcOnly_modT { s with wgs := G } x fun y => vcJoin y.vc e.vc
  exact ⟨hsame, rfl, rfl, rfl, hmine, hothers⟩

/-- What a machine with values in the same intervals, and at most the clock of `x` changed, agrees on with the one before. -/
structure Prepared (s P : State) (x : Thread) : Prop where
  intervals : SameIntervals s P
  cur : P.cur = s.cur
  now : P.now = s.now
  ids : P.ids = s.ids
  mine : ∃ v, getT P x.tid = some { x with vc := v }
  others : ∀ u, u ≠ x.tid → getT P u = getT s u

theorem prepared_pin {s : State} {x : Thread} (hx : getT s x.tid = some x) (id : Nat) : Prepared s (pin s id) x :=
  ⟨sameIntervals_pin s id, rfl, rfl, rfl, ⟨x.vc, hx⟩, fun _ _ => rfl⟩

theorem prepared_landing {s : State} {x : Thread} (hx : getT s x.tid = some x) (w : Workgroup) (id addr : Nat) (e : Landing) :
    Prepared s (takeLanding (dropLanding (pin s id) x.tid.core e) w x.tid addr e) x := by
  obtain ⟨hsame, hcur, hnow, hids, hmine, hothers⟩ := takeLanding_facts (dropLanding (pin s id) x.tid.core e) w x.tid addr e
  exact ⟨(sameIntervals_pin s id).trans hsame, hcur, hnow, hids, hmine x hx, hothers⟩

/-- The delivery of words to a destination, from a machine prepared for it: the value is among those on their way. -/
theorem deliver_prepared {s P : State} {x : Thread} (h : Prepared s P x) (hx : getT s x.tid = some x) {w : Workgroup} (hw : w.Plain) (l : List SrcSpec) (pops : List Nat)
    (d : Dst) (kd : Nat) (kind : OutKind) (addr : Word) (ws : List W32) (pop : Option (Nat × Nat)) :
    deliver P w x.tid l pops d kd kind none addr (ws.map fun v => ⟨v, false, []⟩) false pop =
      { sentValue P { onItsWay s (s.ids + 1) x kind d addr ws with pop := pop } with threads := (modT P x.tid fun x => pendDst (takeSources x l pops) d kd).threads } := by
  obtain ⟨vc, hmine⟩ := h.mine
  rw [deliver_clean P hw, intervalOf_sameIntervals h.intervals hx hmine, h.ids, sentValue, h.ids]
  rfl

/-- A word whose lane puts one value on its way, from a machine prepared for it. -/
theorem OneWord.lane_sent {a : OneWord} {s P : State} {x : Thread} {w : Workgroup} {l : OutLoad} {out : Host.Outcome State Fault Refusal}
    {f : State → Workgroup → Thread → State × LaneRes} (h : Solo s a.pg x w) (hprep : Prepared s P x) (ho : out = .next (perLane s a.pg f))
    (hE : a.effect s w x (readSrcs s w x a.srcs []).vals = sentValue P l) (hend : a.ending s w x (readSrcs s w x a.srcs []).vals = .pending)
    (halso : a.also s w x (readSrcs s w x a.srcs []).vals = id)
    (hf : f s w x = ({ sentValue P l with threads := (modT P x.tid fun y => pendDst (takeSources y a.srcs (readSrcs s w x a.srcs []).pops) a.d a.kd).threads }, .retire [])) :
    ∃ t, out = .next t ∧ a.Done s t w x := by
  obtain ⟨v, hmine⟩ := hprep.mine
  exact OneWord.lane_pending (V := P) h ho hE hend halso hf rfl rfl hprep.cur hprep.now hmine fun _ _ => rfl

def popSrcs (o : A1) : List SrcSpec := [⟨o.a, 1, .int⟩]

theorem rqpop_done {o : A1} {nb : Bool} {s : State} {x : Thread} {w : Workgroup} {out : Host.Outcome State Fault Refusal} (hout : out = execRqpop o nb s)
    (hsolo : Solo s o.pg x w) (so : (popSpec o nb).Sound s w x) : ∃ t, out = .next t ∧ (popSpec o nb).Done s t w x := by
  obtain ⟨op, clean, -, halign, hinside⟩ := so
  have drone : (w.role == .drone) = false := by rw [op.plain.single]; rfl
  have hfull := valuesFull_single s op.plain.single
  change (opv (readSrcs s w x (popSrcs o) []).vals 0).w32.toNat % 64 = 0 at halign
  change scratchBad w (opv (readSrcs s w x (popSrcs o) []).vals 0).w32.toNat ⟨1, 64, 64, 64⟩ 64 = false at hinside
  have hlane : ∀ go : List Opv → List Nat → State × LaneRes, withSrcs s w x (popSrcs o) o.d 1 addrPoison go =
      go (readSrcs s w x (popSrcs o) []).vals (readSrcs s w x (popSrcs o) []).pops := fun go => withSrcs_ok op.dual (addrPoison_clean clean) op.causes op.full op.dst
  unfold execRqpop at hout
  cases hpop : popEntry (pin s w.id) w x with
  | some e =>
    have hprep := prepared_landing hsolo.thread w w.id (opv (readSrcs s w x (popSrcs o) []).vals 0).w32.toNat e
    refine OneWord.lane_sent (a := popSpec o nb) hsolo hprep hout (l := onItsWay s (s.ids + 1) x .pop o.d
      (BitVec.ofNat 64 (opv (readSrcs s w x (popSrcs o) []).vals 0).w32.toNat) [e.source]) ?_ rfl rfl ?_
    · simp only [popSpec, hpop]
      rfl
    · refine (hlane _).trans ?_
      simp only [halign, hinside, drone, hfull, hpop, ne_eq, not_true, Bool.false_eq_true, if_false, queueValue_single _ op.plain.single]
      exact congrArg (·, LaneRes.retire []) (deliver_prepared hprep hsolo.thread op.plain _ _ _ _ _ _ [_] none)
  | none =>
    have hprep := prepared_pin hsolo.thread w.id
    cases nb with
    | true =>
      refine OneWord.lane_sent (a := popSpec o true) hsolo hprep hout (l := onItsWay s (s.ids + 1) x .pop o.d
        (BitVec.ofNat 64 (opv (readSrcs s w x (popSrcs o) []).vals 0).w32.toNat) [0xFFFFFFFF]) ?_ rfl rfl ?_
      · simp only [popSpec, hpop, if_true]
        rfl
      · refine (hlane _).trans ?_
        simp only [halign, hinside, drone, hfull, hpop, ne_eq, not_true, Bool.false_eq_true, if_false, if_true, queueValue_single _ op.plain.single]
        exact congrArg (·, LaneRes.retire []) (deliver_prepared hprep hsolo.thread op.plain _ _ _ _ _ _ [_] none)
    | false =>
      refine OneWord.lane_sent (a := popSpec o false) hsolo hprep hout (l := { onItsWay s (s.ids + 1) x .pop o.d
        (BitVec.ofNat 64 (opv (readSrcs s w x (popSrcs o) []).vals 0).w32.toNat) [0] with pop := some ((opv (readSrcs s w x (popSrcs o) []).vals 0).w32.toNat, w.pasid) }) ?_ rfl rfl ?_
      · simp only [popSpec, hpop, Bool.false_eq_true, if_false]
        rfl
      · refine (hlane _).trans ?_
        simp only [halign, hinside, drone, hfull, hpop, ne_eq, not_true, Bool.false_eq_true, if_false]
        exact congrArg (·, LaneRes.retire []) ((queueValue_single _ op.plain.single _ _ _ _ _).trans (deliver_prepared hprep hsolo.thread op.plain _ _ _ _ _ _ [_] _))

/-! ## Streams and TCHK -/

theorem strm_done {pg : Guard} {p : Src} {cp : Cp} {dims : BitVec 2} {sx : Bool} {ew : IWidth} {q : BitVec 3} {a : OneWord} {s : State} {x : Thread} {w : Workgroup}
    {out : Host.Outcome State Fault Refusal} (hout : out = execStrm pg p cp dims sx ew q s) (ha : engineWord (.strm pg p cp dims sx ew q) = some a)
    (hsolo : Solo s a.pg x w) (so : a.Sound s w x) : ∃ t, out = .next t ∧ a.Done s t w x := by
  cases ha
  have hown := so.own
  have drone : (w.role == .drone) = false := by rw [so.operands.plain.single]; rfl
  have chanter : (w.role == .chanter) = false := by rw [so.operands.plain.single]; rfl
  unfold execStrm at hout
  refine OneWord.group_quiet hsolo so hout rfl rfl rfl rfl rfl ?_ ?_
  all_goals
    dsimp only at hown ⊢
    generalize (readSrcs s w x [⟨p, 2, .int⟩] []).vals = v at hown ⊢
    obtain ⟨hrel, S, b, hread, hquiet, hbusy, hdesc⟩ := hown
    simp only [hread]
  · exact ⟨hquiet.threads, hquiet.cur, hquiet.now⟩
  · have hx : (getT S x.tid).getD x = x := by rw [hquiet.getT, hsolo.thread]; rfl
    simp only [drone, chanter, hrel, hbusy, hdesc, Bool.false_eq_true, if_false, newId, streamFrom]
    rw [show getT { S with ids := S.ids + 1 } x.tid = getT S x.tid from rfl, hx]

/-- The lane of a one-lane STRMX: whether its queue is bound. -/
def strmxMine (s : State) (x : Thread) (q : Nat) : List Tid := if (qBound s x.tid q).isSome then [x.tid] else []

theorem strmx_mine (s : State) (x : Thread) (q : Nat) : ([x.tid].filter fun t => (qBound s t q).isSome) = strmxMine s x q := by
  unfold strmxMine
  cases h : (qBound s x.tid q).isSome <;> simp [h]

/-- The thread whose queue an STRMX empties is not among those it wakes. -/
theorem strmx_threads {s : State} {x : Thread} (hx : getT s x.tid = some x) (hr : x.run = .ready) (q : Nat) (l : List Tid) :
    getT (wakeAll (unbindLanes (modT s x.tid fun y => { y with q := kset q [] y.q }) q l)) x.tid = some { x with q := kset q [] x.q } ∧
      ∀ u, u ≠ x.tid → getT (wakeAll (unbindLanes (modT s x.tid fun y => { y with q := kset q [] y.q }) q l)) u = getT (wakeAll (unbindLanes s q l)) u := by
  have htid : ∀ y : Thread, y.tid = x.tid → ({ y with q := kset q [] y.q } : Thread).tid = x.tid := fun _ h => h
  refine ⟨wakeAll_ready (x := { x with q := kset q [] x.q }) ?_ hr, fun u hu => ?_⟩
  · refine (getT_modT (s := s) (f := fun y => { y with q := kset q [] y.q }) htid).trans ?_
    rw [hx]
    rfl
  · have hne := getT_modT_ne (s := s) (f := fun y : Thread => { y with q := kset q [] y.q }) htid hu
    rw [getT_wakeAll, getT_wakeAll]
    exact congrArg (Option.map _) hne

theorem strmx_done {pg : Guard} {q : BitVec 3} {a : OneWord} {s : State} {x : Thread} {w : Workgroup} {out : Host.Outcome State Fault Refusal}
    (hout : out = execStrmx pg q s) (ha : engineWord (.strmx pg q) = some a) (hsolo : Solo s a.pg x w) (so : a.Sound s w x) :
    ∃ t, out = .next t ∧ a.Done s t w x := by
  cases ha
  unfold execStrmx at hout
  cases hbound : (qBound s x.tid q.toNat).isSome with
  | false =>
    refine OneWord.group_took (v := x.vc) (E := wakeAll (unbindLanes s q.toNat [])) (V := wakeAll (unbindLanes s q.toNat [])) hsolo so hout rfl rfl rfl rfl ?_ ?_ ?_ rfl rfl rfl
      (wakeAll_ready hsolo.thread hsolo.ready) fun _ _ => rfl
    · funext y; simp only [hbound, Bool.false_eq_true, if_false, id]
    · simp only [hbound, Bool.false_eq_true, if_false]
    · simp only [strmx_mine, strmxMine, hbound, Bool.false_eq_true, if_false, List.foldl_nil]
  | true =>
    obtain ⟨hmine, hothers⟩ := strmx_threads hsolo.thread hsolo.ready q.toNat [x.tid]
    refine OneWord.group (E := wakeAll (unbindLanes s q.toNat [x.tid])) hsolo so hout rfl ?_ ?_ rfl ?_ rfl rfl hmine hsolo.ready hothers ?_
    · simp only [hbound, if_true]
    · simp only [strmx_mine, strmxMine, hbound, if_true, List.foldl_cons, List.foldl_nil]
    · exact uniformDone_nil _ rfl
    · refine advance_keeping (fun r => ?_) (fun ws h => by cases h; rfl) rfl ?_ ?_
      · rw [if_neg (by simp [dstWord])]
        exact regOf_congr rfl rfl r
      · simp only [hbound, if_true]
      · simp only [hbound, if_true]

theorem tchk_done {pg : Guard} {pd : BitVec 3} {p : Src} {a : OneWord} {s : State} {x : Thread} {w : Workgroup} {out : Host.Outcome State Fault Refusal}
    (hout : out = execTchk pg pd p s) (ha : engineWord (.tchk pg pd p) = some a) (hsolo : Solo s a.pg x w) (so : a.Sound s w x) :
    ∃ t, out = .next t ∧ a.Done s t w x := by
  cases ha
  obtain ⟨op, clean, -, -⟩ := so
  obtain ⟨htid, -, -, haside, hq⟩ := spawnPred_facts (some pd) true x
  have hdual := op.dual
  have hcauses : (readSrcs s w x [⟨p, 2, .int⟩] []).causes = [] := op.causes
  have hwait : (readSrcs s w x [⟨p, 2, .int⟩] []).wait = false := op.full
  have hclean : (readSrcs s w x [⟨p, 2, .int⟩] []).vals.any (·.poison) = false := clean
  unfold execTchk at hout
  refine OneWord.lane_took (V := s) (v := x.vc) (g := fun y => setPred y pd.toNat true) hsolo hout rfl rfl rfl rfl rfl haside htid hq ?_ rfl rfl rfl hsolo.thread fun _ _ => rfl
  simp only [hdual, hcauses, hwait, hclean, List.append_nil, lowest, minBy, Bool.false_eq_true, if_false]
  rw [touchRegs_off _ _ op.plain.rollback op.plain.redund]

/-- Settles O26: each word's own part is its effect. -/
theorem engineWords : Obligations.EngineWords := by
  intro i a s x w ha hsolo so
  cases i
  case copy => cases ha; exact copyWord_done rfl hsolo so
  case gather => cases ha; exact copyWord_done rfl hsolo so
  case scatter => cases ha; exact copyWord_done rfl hsolo so
  case xred => exact xred_done rfl ha hsolo so
  case remq => exact remq_done rfl ha hsolo so
  case rqpop => cases ha; exact rqpop_done rfl hsolo so
  case strm => exact strm_done rfl ha hsolo so
  case strmx => exact strmx_done rfl ha hsolo so
  case tchk => exact tchk_done rfl ha hsolo so
  all_goals cases ha

end Sys2Proof.Machine
end

section
/-! PROOFS of the matrix words (R380 to R396). -/

namespace Sys2Proof.Machine

theorem Spares.refl {s : State} {x : Thread} (h : getT s x.tid = some x) : Spares s s x := ⟨h, rfl, rfl⟩

/-- A word without destination whose effect leaves its thread, the group and the clock alone. -/
theorem OneWord.group_spares {a : OneWord} {s : State} {x : Thread} {w : Workgroup} {out : Host.Outcome State Fault Refusal}
    {extra : Thread → List Cause} {ad : List Nat} {act : State → Workgroup → Thread → List Opv → List Tid → State × GroupRes} (h : Solo s a.pg x w)
    (so : a.Sound s w x) (ho : out = .next (perGroupWith s a.pg extra a.srcs a.d a.kd ad act)) (he : extra x = []) (hd : a.d = .zero) (hk : a.kd = 0)
    (hend : a.ending s w x (readSrcs s w x a.srcs []).vals = .wrote []) (halso : a.also s w x (readSrcs s w x a.srcs []).vals = id)
    (hspares : Spares s (a.effect s w x (readSrcs s w x a.srcs []).vals) x)
    (hact : act s w x (readSrcs s w x a.srcs []).vals [x.tid] = (a.effect s w x (readSrcs s w x a.srcs []).vals, .retire)) :
    ∃ t, out = .next t ∧ a.Done s t w x :=
  OneWord.group_took h so ho he hd hk hend halso rfl hact rfl hspares.2.1 hspares.2.2 (v := x.vc) hspares.1 fun _ _ => rfl

/-- A word of a group that forks one operation, after a part `S` that leaves the threads alone. -/
theorem OneWord.group_forked {a : OneWord} {s S : State} {x : Thread} {w : Workgroup} {k : EngineKind} {out : Host.Outcome State Fault Refusal}
    {extra : Thread → List Cause} {ad : List Nat} {act : State → Workgroup → Thread → List Opv → List Tid → State × GroupRes} (h : Solo s a.pg x w)
    (so : a.Sound s w x) (ho : out = .next (perGroupWith s a.pg extra a.srcs a.d a.kd ad act)) (he : extra x = []) (hkd : a.kd = 2)
    (hE : a.effect s w x (readSrcs s w x a.srcs []).vals = forked S w x a.d k) (hend : a.ending s w x (readSrcs s w x a.srcs []).vals = .pending)
    (halso : a.also s w x (readSrcs s w x a.srcs []).vals = id) (hquiet : Quiet s S)
    (hact : act s w x (readSrcs s w x a.srcs []).vals [x.tid] = (modT (bumpVc (forked S w x a.d k) x.tid) x.tid fun y => pendDst y a.d 2, .retire)) :
    ∃ t, out = .next t ∧ a.Done s t w x := by
  obtain ⟨v, hmine, hothers⟩ := forked_thread (w := w) (v := x.vc) ((hquiet.getT _).trans h.thread) a.d k
  rw [← hkd] at hact
  exact OneWord.group_pending (S := bumpVc (forked S w x a.d k) x.tid) h so ho he hend halso hE hact hquiet.cur hquiet.now hmine hothers

/-! ## Configuration and reed -/

theorem tcfg_done {pg : Guard} {p : Src} {a : OneWord} {s : State} {x : Thread} {w : Workgroup} {out : Host.Outcome State Fault Refusal} (hout : out = execTcfg pg p s)
    (ha : matrixWord (.tcfg pg p) = some a) (hsolo : Solo s a.pg x w) (so : a.Sound s w x) : ∃ t, out = .next t ∧ a.Done s t w x := by
  cases ha
  have hown := so.own
  have drone : (w.role == .drone) = false := by rw [so.operands.plain.single]; rfl
  unfold execTcfg at hout
  refine OneWord.group_spares hsolo so hout rfl rfl rfl rfl rfl ?_ ?_
  all_goals
    dsimp only at hown ⊢
    generalize (readSrcs s w x [⟨p, 2, .int⟩] []).vals = v at hown ⊢
    obtain ⟨hreed, S, b, c, hread, hquiet, hparse, hbusy⟩ := hown
    simp only [hread]
  · exact ⟨wakeCore_ready ((hquiet.getT _).trans hsolo.thread) hsolo.ready, hquiet.cur, hquiet.now⟩
  · simp only [drone, hreed, hparse, hbusy, Bool.not_true, Bool.false_eq_true, if_false]

theorem mtake_done {pg : Guard} {a : OneWord} {s : State} {x : Thread} {w : Workgroup} {out : Host.Outcome State Fault Refusal} (hout : out = execMtake pg s)
    (ha : matrixWord (.mtake pg) = some a) (hsolo : Solo s a.pg x w) (so : a.Sound s w x) : ∃ t, out = .next t ∧ a.Done s t w x := by
  cases ha
  have hown := so.own
  have drone : (w.role == .drone) = false := by rw [so.operands.plain.single]; rfl
  unfold execMtake at hout
  refine OneWord.group_spares hsolo so hout rfl rfl rfl rfl rfl ?_ ?_
  all_goals dsimp only at hown ⊢
  · split
    · exact Spares.refl hsolo.thread
    · exact spares_askReed hsolo.thread hsolo.ready _ _
  · cases hreed : hasReed s w x.tid with
    | true => simp only [drone, Bool.or_true, if_true]
    | false =>
      rw [hreed] at hown
      simp only [Bool.false_eq_true, false_or] at hown
      simp only [drone, hown, Bool.or_self, Bool.false_eq_true, if_false, if_true]

theorem mpass_done {pg : Guard} {a : OneWord} {s : State} {x : Thread} {w : Workgroup} {out : Host.Outcome State Fault Refusal} (hout : out = execMpass pg s)
    (ha : matrixWord (.mpass pg) = some a) (hsolo : Solo s a.pg x w) (so : a.Sound s w x) : ∃ t, out = .next t ∧ a.Done s t w x := by
  cases ha
  have hreed : hasReed s w x.tid = true := so.own
  have drone : (w.role == .drone) = false := by rw [so.operands.plain.single]; rfl
  unfold execMpass at hout
  refine OneWord.group_spares hsolo so hout rfl rfl rfl rfl rfl (spares_passReed hsolo.thread hsolo.ready _) ?_
  simp only [drone, hreed, Bool.not_true, Bool.false_eq_true, if_false]

theorem mdrop_done {pg : Guard} {a : OneWord} {s : State} {x : Thread} {w : Workgroup} {out : Host.Outcome State Fault Refusal} (hout : out = execMdrop pg s)
    (ha : matrixWord (.mdrop pg) = some a) (hsolo : Solo s a.pg x w) (so : a.Sound s w x) : ∃ t, out = .next t ∧ a.Done s t w x := by
  cases ha
  have hreed : hasReed s w x.tid = true := so.own
  have drone : (w.role == .drone) = false := by rw [so.operands.plain.single]; rfl
  unfold execMdrop at hout
  refine OneWord.group_spares hsolo so hout rfl rfl rfl rfl rfl (spares_dropReed hsolo.thread hsolo.ready _) ?_
  simp only [drone, hreed, Bool.not_true, Bool.false_eq_true, if_false]

/-! ## Claims -/

theorem claimDone_single (s : State) {w : Workgroup} (h : w.role = .single) (t : Tid) (pd : BitVec 3) (ok : Bool) :
    claimDone s w t [t] pd ok = (modT s t fun y => setPred y pd.toNat ok, .retire) := by
  unfold claimDone
  rw [queueValue_single s h]
  rfl

theorem claimNow_iff (s : State) (w : Workgroup) (x : Thread) (a b : Nat) : claimNow s w x a b = true ↔
    ((a = 0 ∧ b = 0) ∨ (!(w.pooled && overDecl w a b)) = true ∨
      ((!((s.claims.takeWhile fun c => !(c.wg == w.id && c.tids.contains x.tid)).any fun c => c.core == w.core)) = true ∧ claimFits s w a b = true)) := by
  unfold claimNow
  rw [Bool.or_eq_true, Bool.or_eq_true, Bool.and_eq_true, Bool.and_eq_true, beq_iff_eq, beq_iff_eq, or_assoc]

/-- What OCLAIM leaves beside the predicate: the claim granted, or nothing. -/
def claimed (s : State) (w : Workgroup) (x : Thread) (a b : Nat) : State :=
  if claimNow s w x a b then grantClaim { s with claims := s.claims.filter fun c => !(c.wg == w.id && c.tids.contains x.tid) } w.id a b else s

theorem claimed_quiet (s : State) (w : Workgroup) (x : Thread) (a b : Nat) : Quiet s (claimed s w x a b) := by
  unfold claimed
  split
  · exact ⟨rfl, rfl, rfl⟩
  · exact Quiet.refl s

theorem oclaim_done {o : P2} {nb : Bool} {a : OneWord} {s : State} {x : Thread} {w : Workgroup} {out : Host.Outcome State Fault Refusal}
    (hout : out = execOclaim o nb s) (ha : matrixWord (.oclaim o nb) = some a) (hsolo : Solo s a.pg x w) (so : a.Sound s w x) :
    ∃ t, out = .next t ∧ a.Done s t w x := by
  cases ha
  obtain ⟨hcfg, hdecl, hgo⟩ := so.own
  change w.mx.cfg.isSome = true at hcfg
  have drone : (w.role == .drone) = false := by rw [so.operands.plain.single]; rfl
  have hfull := valuesFull_single s so.operands.plain.single
  have hcfg' : w.mx.cfg.isNone = false := by rw [← Option.not_isSome, hcfg]; rfl
  unfold execOclaim at hout
  generalize hv : (readSrcs s w x [⟨o.a, 1, .int⟩, ⟨o.b, 1, .int⟩] []).vals = v at hdecl hgo
  have hdecl' : (!w.pooled && overDecl w ((opv v 0).nat false) ((opv v 1).nat false)) = false := by
    cases hp : w.pooled
    · exact hdecl hp
    · rfl
  obtain ⟨htid, -, -, haside, hq⟩ := spawnPred_facts (some o.pd) (claimNow s w x ((opv v 0).nat false) ((opv v 1).nat false)) x
  have hquiet := claimed_quiet s w x ((opv v 0).nat false) ((opv v 1).nat false)
  refine OneWord.group_also (v := x.vc) (g := fun y => setPred y o.pd.toNat (claimNow s w x ((opv v 0).nat false) ((opv v 1).nat false)))
    (E := claimed s w x ((opv v 0).nat false) ((opv v 1).nat false)) (V := claimed s w x ((opv v 0).nat false) ((opv v 1).nat false))
    hsolo so hout rfl rfl rfl rfl (by dsimp only; rw [hv]) htid haside hq (by dsimp only; rw [hv]; rfl) ?_ rfl hquiet.cur hquiet.now
    ((hquiet.getT _).trans hsolo.thread) fun _ _ => rfl
  dsimp only
  rw [hv]
  simp only [drone, hfull, hcfg', hdecl', Bool.false_eq_true, if_false]
  cases hnow : claimNow s w x ((opv v 0).nat false) ((opv v 1).nat false) with
  | true =>
    rw [if_pos ((claimNow_iff ..).mp hnow), claimDone_single _ so.operands.plain.single, claimed, hnow, if_pos rfl]
  | false =>
    have hnb : nb = true := hgo.resolve_right (by rw [hnow]; simp)
    rw [if_neg (fun h => by rw [(claimNow_iff ..).mpr h] at hnow; cases hnow), hnb, if_pos rfl, claimDone_single _ so.operands.plain.single, claimed, hnow,
      if_neg (by simp)]

theorem orel_done {pg : Guard} {p q : Src} {a : OneWord} {s : State} {x : Thread} {w : Workgroup} {out : Host.Outcome State Fault Refusal}
    (hout : out = execOrel pg p q s) (ha : matrixWord (.orel pg p q) = some a) (hsolo : Solo s a.pg x w) (so : a.Sound s w x) :
    ∃ t, out = .next t ∧ a.Done s t w x := by
  cases ha
  have hown := so.own
  have drone : (w.role == .drone) = false := by rw [so.operands.plain.single]; rfl
  unfold execOrel at hout
  refine OneWord.group_spares hsolo so hout rfl rfl rfl rfl rfl ⟨wakeCore_ready (s := releaseSlots s w.id _ _) hsolo.thread hsolo.ready, rfl, rfl⟩ ?_
  dsimp only at hown ⊢
  generalize (readSrcs s w x [⟨p, 1, .int⟩, ⟨q, 1, .int⟩] []).vals = v at hown
  obtain ⟨hcfg, hslots, htiles, huses⟩ := hown
  have hcfg' : w.mx.cfg.isNone = false := by rw [← Option.not_isSome, hcfg]; rfl
  simp only [drone, hcfg', huses, Nat.not_lt.mpr hslots, Nat.not_lt.mpr htiles, Bool.false_eq_true, if_false, or_self]

/-! ## Operations of the matrix engine -/

/-- A matrix operation whose slots and tiles are held is forked at once. -/
theorem matrix_forked {pg : Guard} {l : List Src} {d : Dst} {m : List Opv → MatOp} {s : State} {x : Thread} {w : Workgroup} {ad : List Nat}
    {g : List Opv → Sig} {out : Host.Outcome State Fault Refusal}
    (hout : out = .next (perGroup s pg (slotSrcs l) d 2 ad fun s w t v tids => startMatrix s w t tids d (m v) [] none (g v))) (hsolo : Solo s pg x w)
    (so : (matrixSpec pg l d m).Sound s w x) : ∃ t, out = .next t ∧ (matrixSpec pg l d m).Done s t w x := by
  obtain ⟨hreed, hcauses, hroom⟩ := so.own
  refine OneWord.group_forked (a := matrixSpec pg l d m) (S := s) hsolo so hout rfl rfl rfl rfl rfl (Quiet.refl s) ?_
  refine startMatrix_go so.operands.plain _ ?_ hroom rfl
  rw [reedCause_held hreed]
  exact congrArg (fun l => lowest ([] ++ l ++ [])) hcauses

theorem acc_done {o : AccOp} {load : Bool} {s : State} {x : Thread} {w : Workgroup} {out : Host.Outcome State Fault Refusal} (hout : out = .next (accWord o load s))
    (hsolo : Solo s o.pg x w) (so : (accSpec o load).Sound s w x) : ∃ t, out = .next t ∧ (accSpec o load).Done s t w x := by
  obtain ⟨hreed, hcauses, S, hacc, hquiet, hwarps, hroom, hrel⟩ := so.own
  have drone : (w.role == .drone) = false := by rw [so.operands.plain.single]; rfl
  change matCauses w (accKind o load w (readSrcs s w x (accSrcs o) []).vals) = [] at hcauses
  change accCauses s w x load o.s o.raw (accAddr o (readSrcs s w x (accSrcs o) []).vals) (accRec o w (readSrcs s w x (accSrcs o) []).vals) = (S, [], none) at hacc
  have hreed' : reedCause S w x.tid = [] := reedCause_held (by unfold hasReed warpIndex getWarp at hreed ⊢; rw [hwarps]; exact hreed)
  have heffect : (accSpec o load).effect s w x (readSrcs s w x (accSrcs o) []).vals =
      forked S w x o.d (.matrix (accKind o load w (readSrcs s w x (accSrcs o) []).vals)) := by
    simp only [accSpec, hacc]
  have hlow : lowest (reedCause S w x.tid ++ matCauses w (accKind o load w (readSrcs s w x (accSrcs o) []).vals) ++ []) = none := by rw [hreed', hcauses]; rfl
  have hrel' : ((some o.scope).any fun y => releasePending S x.tid y) = false := hrel
  unfold accWord at hout
  refine OneWord.group_forked (a := accSpec o load) (S := S) hsolo so hout rfl rfl heffect rfl rfl hquiet ?_
  change _ = (modT (bumpVc (forked S w x o.d _) x.tid) x.tid fun y => pendDst y o.d 2, GroupRes.retire)
  rw [show (accSpec o load).srcs = accSrcs o from rfl]
  simp only [drone, hacc, hlow, Bool.false_eq_true, if_false]
  exact startMatrix_go so.operands.plain _ hlow hroom hrel'

/-- The operation of a group that starts, its token PENDING in the group's one lane. -/
theorem startOp_group {S : State} {w : Workgroup} (hw : w.Plain) (x : Thread) (d : Dst) (g : Sig) (k : EngineKind) :
    (match startOp S w x [x.tid] d g k with
     | (s, some z) => groupOf (s, some z)
     | (s, none) => (pendAll s w [x.tid] d, .retire)) =
    (modT (bumpVc (forked S w x d k) x.tid) x.tid fun y => pendDst y d 2, .retire) := by
  rw [startOp_single hw.single]
  dsimp only
  rw [pendAll_one _ hw]

theorem copym_done {c : CopyOp} {a : OneWord} {s : State} {x : Thread} {w : Workgroup} {out : Host.Outcome State Fault Refusal} (hout : out = execCopym c s)
    (ha : matrixWord (.copym c) = some a) (hsolo : Solo s a.pg x w) (so : a.Sound s w x) : ∃ t, out = .next t ∧ a.Done s t w x := by
  cases ha
  obtain ⟨hreed, hrows, m, hfollow, hcauses, S, ⟨sd, sr⟩, hresolve, hquiet, hwarps, hroom, hrel⟩ := so.own
  have drone : (w.role == .drone) = false := by rw [so.operands.plain.single]; rfl
  change (copyRows (opv (readSrcs s w x (copySrcs c 1) []).vals 2)).2 = false at hrows
  change resolveBoth s w x c (opv (readSrcs s w x (copySrcs c 1) []).vals 0) (opv (readSrcs s w x (copySrcs c 1) []).vals 1)
    (copyRows (opv (readSrcs s w x (copySrcs c 1) []).vals 2)).1 [] = _ at hresolve
  unfold execCopym at hout
  refine OneWord.group_forked (S := S) (k := .copy sd sr (copyRows (opv (readSrcs s w x (copySrcs c 1) []).vals 2)).1 c.scope (some m)) hsolo so hout rfl rfl ?_ rfl rfl hquiet ?_
  · simp only [hresolve, hfollow]
  · simp only [hfollow, drone, hrows, reedCause_held hreed, hcauses, lengthCause, hresolve, hroom, hrel, List.append_nil, Bool.false_eq_true, if_false]
    exact startOp_group so.operands.plain x c.d _ _

theorem mstat_done {pg : Guard} {d : Dst} {a : OneWord} {s : State} {x : Thread} {w : Workgroup} {out : Host.Outcome State Fault Refusal} (hout : out = execMstat pg d s)
    (ha : matrixWord (.mstat pg d) = some a) (hsolo : Solo s a.pg x w) (so : a.Sound s w x) : ∃ t, out = .next t ∧ a.Done s t w x := by
  cases ha
  have drone : (w.role == .drone) = false := by rw [so.operands.plain.single]; rfl
  have hfull := valuesFull_single s so.operands.plain.single
  unfold execMstat at hout
  refine OneWord.group_wrote (v := x.vc) (S := s) (ws := [mstatWord s w x.tid]) hsolo so hout rfl rfl rfl rfl rfl ?_ rfl rfl hsolo.thread fun _ _ => rfl
  simp only [drone, hfull, queueValue_single _ so.operands.plain.single, Bool.false_eq_true, if_false]

/-- Settles O27: each word's own part is its effect. -/
theorem matrixWords : Obligations.MatrixWords := by
  intro i a s x w ha hsolo so
  cases i
  case tcfg => exact tcfg_done rfl ha hsolo so
  case mtake => exact mtake_done rfl ha hsolo so
  case mpass => exact mpass_done rfl ha hsolo so
  case mdrop => exact mdrop_done rfl ha hsolo so
  case oclaim => exact oclaim_done rfl ha hsolo so
  case orel => exact orel_done rfl ha hsolo so
  case mma => cases ha; exact matrix_forked rfl hsolo so
  case mmaz => cases ha; exact matrix_forked rfl hsolo so
  case mxt => cases ha; exact matrix_forked rfl hsolo so
  case mperm => cases ha; exact matrix_forked rfl hsolo so
  case mrred => cases ha; exact matrix_forked rfl hsolo so
  case accz => cases ha; exact matrix_forked rfl hsolo so
  case accld => cases ha; exact acc_done rfl hsolo so
  case accst => cases ha; exact acc_done rfl hsolo so
  case copym => exact copym_done rfl ha hsolo so
  case mstat => exact mstat_done rfl ha hsolo so
  all_goals cases ha

end Sys2Proof.Machine
end

section
/-! PROOFS of the task words (R398 to R404). -/

namespace Sys2Proof.Machine

/-! ## One push -/

/-- The machine after a push of a spawn word: the pusher's clock goes on where the push was made. -/
def afterPush (P : State × Bool) (x : Tid) : State := if P.2 then bumpVc P.1 x else P.1

/-- A push that is made, or that the word may leave unmade. -/
theorem spawnPush_single {s : State} {w : Workgroup} (hw : w.role = .single) (x : Thread) (nb : Bool) (g : Sig) (h : Held) (push : State → Nat → State × Bool)
    (hok : nb = true ∨ (push (pin s w.id) x.tid.core).2 = true) :
    spawnPush s w x nb g h push = (afterPush (push (pin s w.id) x.tid.core) x.tid, .done (push (pin s w.id) x.tid.core).2) := by
  unfold spawnPush afterPush
  rw [hw]
  dsimp only
  generalize push (pin s w.id) x.tid.core = P at hok ⊢
  obtain ⟨S, ok⟩ := P
  cases ok with
  | true => rfl
  | false =>
    have hnb : nb = true := hok.resolve_right (by simp)
    simp only [hnb, if_true, Bool.false_eq_true, if_false]

/-- A push changes its thread at most in its clock. -/
theorem afterPush_facts {s : State} {x : Thread} {P : State × Bool} (h : Spares s P.1 x) :
    afterPush P x.tid = { P.1 with threads := (afterPush P x.tid).threads } ∧ (∃ v, getT (afterPush P x.tid) x.tid = some { x with vc := v }) ∧
      ∀ u, u ≠ x.tid → getT (afterPush P x.tid) u = getT P.1 u := by
  obtain ⟨hx, -, -⟩ := h
  unfold afterPush
  cases P.2 with
  | true =>
    obtain ⟨v, hmine, hothers⟩ := bumpVc_vc (v := x.vc) hx
    exact ⟨rfl, ⟨v, hmine⟩, hothers⟩
  | false => exact ⟨rfl, ⟨x.vc, hx⟩, fun _ _ => rfl⟩

theorem spawnRetire_plain (s : State) {w : Workgroup} (hw : w.Plain) (t : Tid) (l : List SrcSpec) (pops : List Nat) (nb : Option (BitVec 3)) (ok : Bool) :
    spawnRetire s w t l pops nb ok = (modT s t fun y => spawnPred nb ok (takeSources y l pops), .retire []) := by
  unfold spawnRetire
  dsimp only
  rw [touchRegs_off _ _ hw.rollback hw.redund]
  cases nb <;> rfl

/-- The lane of a word that pushes once and retires. -/
theorem spawnPush_retire {s : State} {w : Workgroup} (hw : w.Plain) (x : Thread) (g : Sig) (h : Held) (l : List SrcSpec) (pops : List Nat) (nb : Option (BitVec 3))
    {push : State → Nat → State × Bool} {P : State × Bool} (hP : push (pin s w.id) x.tid.core = P) (hok : nb.isSome = true ∨ P.2 = true) :
    (match spawnPush s w x nb.isSome g h push with
     | (s, .stop z) => (s, z)
     | (s, .done ok) => spawnRetire s w x.tid l pops nb ok) =
    (modT (afterPush P x.tid) x.tid fun y => spawnPred nb P.2 (takeSources y l pops), .retire []) := by
  subst hP
  rw [spawnPush_single hw.single x _ _ _ _ hok]
  exact spawnRetire_plain _ hw _ _ _ _ _

/-! ## SPAWN -/

theorem spawn_done {pg : Guard} {nb : Option (BitVec 3)} {code args : Src} {a : OneWord} {s : State} {x : Thread} {w : Workgroup}
    {out : Host.Outcome State Fault Refusal} (hout : out = execSpawn pg nb code args s) (ha : taskWord (.spawn pg nb code args) = some a) (hsolo : Solo s a.pg x w)
    (so : a.Sound s w x) : ∃ t, out = .next t ∧ a.Done s t w x := by
  cases ha
  obtain ⟨op, clean, -, hdepth, halign, hrel, hpush, hspares⟩ := so
  have hpoison : poisonCauses [0] (readSrcs s w x (spawnSrcs code args) []).vals = [] := poisonCauses_clean clean
  dsimp only at halign hpush hspares
  generalize hv : (readSrcs s w x (spawnSrcs code args) []).vals = v at *
  obtain ⟨hframe, ⟨vc, hmine⟩, hothers⟩ := afterPush_facts hspares
  obtain ⟨htid, -, -, haside, hq⟩ := spawnPred_facts nb (spawned s w x v).2 x
  unfold execSpawn at hout
  refine OneWord.lane_took (E := (spawned s w x v).1) (V := afterPush (spawned s w x v) x.tid) (g := spawnPred nb (spawned s w x v).2) hsolo hout
    (by dsimp only; rw [hv]) rfl rfl rfl (by dsimp only; rw [hv]) haside htid hq ?_ hframe hspares.2.1 hspares.2.2 hmine hothers
  refine (withSrcs_ok (l := spawnSrcs code args) op.dual ?_ op.causes op.full op.dst).trans ?_
  · rw [hv, if_neg (by omega), if_neg (by omega), hpoison]
    rfl
  · rw [hv]
    simp only [hrel, op.plain.single, Bool.and_false, Bool.false_eq_true, if_false]
    exact spawnPush_retire op.plain x _ _ _ _ nb rfl hpush

/-! ## SPAWNW -/

theorem Solo.lane_eq {s : State} {pg : Guard} {x y : Thread} {w g : Workgroup} {t : Tid} (h : Solo s pg x w) (hl : Lane s t y g) : y = x ∧ g = w := by
  obtain ⟨hmem, hthread, -, hgroup⟩ := hl
  rw [h.alone, List.mem_singleton] at hmem
  subst hmem
  obtain rfl := Option.some.inj (h.thread.symm.trans hthread)
  exact ⟨rfl, Option.some.inj (hgroup.symm.trans h.group)⟩

/-- A cross-lane word of one lane acts on that lane. -/
theorem Solo.crossLane {s : State} {pg : Guard} {x : Thread} {w : Workgroup} {l : List SrcSpec} {prop : Nat} {check : State → XLane → Option Cause}
    {act : State → List XLane → State} (h : Solo s pg x w) (op : Sound s w x l .zero 0) (clean : Clean s w x l)
    (hcheck : check s ⟨x, w, (readSrcs s w x l []).vals, (readSrcs s w x l []).pops⟩ = none) :
    Machine.crossLane s pg l .zero 0 prop check act = act s [⟨x, w, (readSrcs s w x l []).vals, (readSrcs s w x l []).pops⟩] := by
  have hdrop : ((readSrcs s w x l []).vals.drop prop).any (·.poison) = false := by
    rw [List.any_eq_false]
    exact fun v hv => List.any_eq_false.mp clean v (List.mem_of_mem_drop hv)
  rw [crossLane_sound h.issuing (by rw [h.active]; simp) fun t y g hl _ => by
    obtain ⟨rfl, rfl⟩ := h.lane_eq hl
    exact ⟨op, hdrop, hcheck⟩, h.idle, xLanes, h.active]
  rfl

/-- The predicate that a spawn word writes, where its form names one. -/
def spawnPreds (nb : Option (BitVec 3)) (ok : Bool) : List (Nat × Bool) := match nb with
  | some n => [(n.toNat, ok)]
  | none => []

/-- A cross-lane word of one lane that writes at most a predicate, from a machine in which its thread has changed in its clock alone. -/
theorem OneWord.cross_pred {a : OneWord} {s E V : State} {x : Thread} {w : Workgroup} {v : List (Nat × Nat)} {nb : Option (BitVec 3)} {ok : Bool}
    {out : Host.Outcome State Fault Refusal} (h : Solo s a.pg x w) (so : a.Sound s w x) (hd : a.d = .zero) (hk : a.kd = 0)
    (hend : a.ending s w x (readSrcs s w x a.srcs []).vals = .wrote []) (halso : a.also s w x (readSrcs s w x a.srcs []).vals = spawnPred nb ok)
    (hE : a.effect s w x (readSrcs s w x a.srcs []).vals = E) (hV : V = { E with threads := V.threads }) (hc : E.cur = s.cur) (hn : E.now = s.now)
    (hz : getT V x.tid = some { x with vc := v }) (hoth : ∀ u, u ≠ x.tid → getT V u = getT E u)
    (ho : out = .next (crossWrite V a.srcs none [⟨x, w, (readSrcs s w x a.srcs []).vals, (readSrcs s w x a.srcs []).pops⟩] fun _ =>
      { words := [], preds := spawnPreds nb ok })) : ∃ t, out = .next t ∧ a.Done s t w x := by
  obtain ⟨htid, -, -, haside, hq⟩ := spawnPred_facts nb ok x
  have htake : ∀ y : Thread, y.tid = x.tid → ((spawnPred nb ok (takeSources { x with vc := v } a.srcs (readSrcs s w x a.srcs []).pops) : Thread)).tid = x.tid := by
    intro _ _
    rw [(htid _).1]
    exact (same_takeSources _ _ _).1
  rw [crossWrite_one so.operands.plain hz rfl so.operands.armed (g := spawnPred nb ok) (by intro y; cases nb <;> rfl), applyG_nil] at ho
  refine OneWord.retired (E := E) (z := spawnPred nb ok (takeSources { x with vc := v } a.srcs (readSrcs s w x a.srcs []).pops)) ho hE (by rw [modT_frame hV]) ?_ hc hn ?_ ?_ ?_ ?_
  · rw [hend, hd]
    exact uniformDone_nil _ (by rw [modT_frame hV])
  · rw [getT_modT htake, hz]
    rfl
  · rw [(htid _).2]
    exact (same_takeSources _ _ _).2.2.1.trans h.ready
  · exact fun u hu => (getT_modT_ne htake hu).trans (hoth u hu)
  · rw [hend, halso, hd, hk]
    exact oneAfter_plain (ws := []) (d := .zero) haside hq

/-- The push of a group's word that is made, or that the word may leave unmade, goes on to `fin`. -/
theorem spawnPush_cross {s : State} {w : Workgroup} (hw : w.Plain) (x : Thread) (g : Sig) (h : Held) (nb : Option (BitVec 3))
    {push : State → Nat → State × Bool} {P : State × Bool} (hP : push (pin s w.id) x.tid.core = P) (hok : nb.isSome = true ∨ P.2 = true)
    (wait : State → WaitFor → State) (kill : State → Nat → Word → State) (fin : State → Bool → State) :
    (match spawnPush s w x nb.isSome g h push with
     | (s, .stop (.wait z)) => wait s z
     | (s, .stop (.kill c a)) => kill s c a
     | (s, .stop _) => s
     | (s, .done ok) => fin s ok) = fin (afterPush P x.tid) P.2 := by
  subst hP
  rw [spawnPush_single hw.single x _ _ _ _ hok]

theorem spawnw_done {pg : Guard} {nb : Option (BitVec 3)} {k : BitVec 4} {args : Src} {a : OneWord} {s : State} {x : Thread} {w : Workgroup}
    {out : Host.Outcome State Fault Refusal} (hout : out = execSpawnw pg nb k args s) (ha : taskWord (.spawnw pg nb k args) = some a) (hsolo : Solo s a.pg x w)
    (so : a.Sound s w x) : ∃ t, out = .next t ∧ a.Done s t w x := by
  cases ha
  have hown := so.own
  dsimp only at hown
  generalize hv : (readSrcs s w x [⟨args, 4, .int⟩] []).vals = v at hown
  obtain ⟨hkind, hdepth, hrel, hpush, hspares⟩ := hown
  obtain ⟨hframe, ⟨vc, hmine⟩, hothers⟩ := afterPush_facts hspares
  have hcauses : lowest (kindCauses s w k.toNat ((activeLanes s pg).map (·.1))) = none := by
    rw [hsolo.active]
    exact congrArg lowest (taskCause_none hkind hdepth)
  refine OneWord.cross_pred (E := (pushEntry (pin s w.id) x.tid.core (warpEntry s w x k.toNat v)).1)
    (V := afterPush (pushEntry (pin s w.id) x.tid.core (warpEntry s w x k.toNat v)) x.tid) (nb := nb) (ok := (pushEntry (pin s w.id) x.tid.core (warpEntry s w x k.toNat v)).2)
    hsolo so rfl rfl rfl (by dsimp only; rw [hv]) (by dsimp only; rw [hv]) hframe hspares.2.1 hspares.2.2 hmine hothers ?_
  rw [hout, execSpawnw, hsolo.crossLane so.operands so.clean hcauses]
  simp only [List.head?_cons, List.map_cons, List.map_nil, lanesPending_one hrel, hv, Bool.false_eq_true, if_false]
  exact congrArg Host.Outcome.next (spawnPush_cross so.operands.plain x _ _ nb rfl hpush (fun s z => [x.tid].foldl (fun s t => waitFor s t z) s)
    (fun s c a => settleTraps s (trapPc s.cur) s.cur.legacy [] [] [(x.tid, { code := c, addr := a })]) (fun s ok => crossWrite s _ none _ fun _ => { words := [], preds := spawnPreds nb ok }))

/-! ## SPAWNR -/

theorem modT_id (s : State) (t : Tid) : modT s t id = s := by
  have h : updIf (fun x : Thread => x.tid == t) id s.threads = s.threads := updIf_same fun _ _ _ => rfl
  unfold modT
  rw [h]

/-- The predicate of a spawn word in the one lane of its group. -/
def groupPred (t : Tid) (nb : Option (BitVec 3)) (s : State) (ok : Bool) : State :=
  match nb with
  | some n => [t].foldl (fun s t => modT s t fun x => setPred x n.toNat ok) s
  | none => s

theorem groupPred_eq (s : State) (t : Tid) (nb : Option (BitVec 3)) (ok : Bool) : groupPred t nb s ok = modT s t (spawnPred nb ok) := by
  cases nb with
  | some n => rfl
  | none => exact (modT_id s t).symm

/-- The push of a group's word as the group goes on. -/
theorem spawnPush_group {s : State} {w : Workgroup} (hw : w.Plain) (x : Thread) (g : Sig) (h : Held) (nb : Option (BitVec 3))
    {push : State → Nat → State × Bool} {P : State × Bool} (hP : push (pin s w.id) x.tid.core = P) (hok : nb.isSome = true ∨ P.2 = true) (fin : State → Bool → State) :
    (match spawnPush s w x nb.isSome g h push with
     | (s, .stop z) => groupOf (s, some z)
     | (s, .done ok) => (fin s ok, .retire)) = (fin (afterPush P x.tid) P.2, .retire) := by
  subst hP
  rw [spawnPush_single hw.single x _ _ _ _ hok]

theorem spawnr_done {pg : Guard} {nb : Option (BitVec 3)} {k : BitVec 4} {lo hi chunk : Src} {a : OneWord} {s : State} {x : Thread} {w : Workgroup}
    {out : Host.Outcome State Fault Refusal} (hout : out = execSpawnr pg nb k lo hi chunk s) (ha : taskWord (.spawnr pg nb k lo hi chunk) = some a)
    (hsolo : Solo s a.pg x w) (so : a.Sound s w x) : ∃ t, out = .next t ∧ a.Done s t w x := by
  cases ha
  have hown := so.own
  dsimp only at hown
  generalize hv : (readSrcs s w x [⟨lo, 2, .int⟩, ⟨hi, 2, .int⟩, ⟨chunk, 1, .int⟩] []).vals = v at hown
  obtain ⟨hkind, hdepth, hrel, hpush⟩ := hown
  have hlanes : [x.tid].filterMap (getT s) = [x] := by simp [hsolo.thread]
  have hcauses : lowest (kindCauses s w k.toNat [x]) = none := congrArg lowest (taskCause_none hkind hdepth)
  unfold execSpawnr at hout
  by_cases hrange : (opv v 0).word.toNat < (opv v 1).word.toNat
  · generalize hP : pushEntry (pin s w.id) x.tid.core (rangeEntry s w x k.toNat v) = P at hpush
    obtain ⟨hok, hspares⟩ := hpush hrange
    obtain ⟨hframe, ⟨vc, hmine⟩, hothers⟩ := afterPush_facts hspares
    obtain ⟨htid, -, -, haside, hq⟩ := spawnPred_facts nb P.2 x
    refine OneWord.group_also (E := P.1) (V := afterPush P x.tid) hsolo so hout rfl rfl rfl rfl
      (by dsimp only; rw [hv, if_pos hrange, hP]) htid haside hq (by dsimp only; rw [hv, if_pos hrange, hP]) ?_ hframe hspares.2.1 hspares.2.2 hmine hothers
    dsimp only
    rw [hlanes, hv, hcauses]
    dsimp only
    rw [lanesPending_one hrel, if_neg (by simp), if_neg (by omega)]
    exact (spawnPush_group so.operands.plain x _ _ nb hP hok (groupPred x.tid nb)).trans (congrArg (·, GroupRes.retire) (groupPred_eq _ _ _ _))
  · obtain ⟨htid, -, -, haside, hq⟩ := spawnPred_facts nb true x
    refine OneWord.group_also (E := pin s w.id) (V := pin s w.id) (v := x.vc) hsolo so hout rfl rfl rfl rfl
      (by dsimp only; rw [hv, if_neg hrange]) htid haside hq (by dsimp only; rw [hv, if_neg hrange]) ?_ rfl rfl rfl hsolo.thread fun _ _ => rfl
    dsimp only
    rw [hlanes, hv, hcauses]
    dsimp only
    rw [lanesPending_one hrel, if_neg (by simp), if_pos (by omega)]
    exact congrArg (·, GroupRes.retire) (groupPred_eq (pin s w.id) x.tid nb true)

/-! ## TGET and LAUNCH -/

theorem tget_done {pg : Guard} {d : Dst} {a : OneWord} {s : State} {x : Thread} {w : Workgroup} {out : Host.Outcome State Fault Refusal} (hout : out = execTget pg d s)
    (ha : taskWord (.tget pg d) = some a) (hsolo : Solo s a.pg x w) (so : a.Sound s w x) : ∃ t, out = .next t ∧ a.Done s t w x := by
  cases ha
  obtain ⟨op, clean, -, hranged, hrange⟩ := so
  have drone : (w.role == .drone) = false := by rw [op.plain.single]; rfl
  have hfull := valuesFull_single s op.plain.single
  obtain ⟨r, hr⟩ := Option.isSome_iff_exists.mp hrange
  have hprep : Prepared s (modCore (pin s w.id) x.tid.core fun c => { c with
      ranges := updIf (fun y => y.slot == x.tid.slot) (fun y => { y with next := (nextChunk r).2 }) c.ranges }) x :=
    ⟨sameIntervals_pin s w.id, rfl, rfl, rfl, ⟨x.vc, hsolo.thread⟩, fun _ _ => rfl⟩
  unfold execTget at hout
  refine OneWord.lane_sent (l := onItsWay s (s.ids + 1) x .unit_ d 0 (wordsOf 2 (nextChunk r).1.toNat ++ wordsOf 2 (nextChunk r).2.toNat)) hsolo hprep hout
    (by simp only [hr]) rfl rfl ?_
  refine (withSrcs_ok (l := []) op.dual (if_pos hranged) op.causes op.full op.dst).trans ?_
  simp only [drone, hfull, hr, Bool.false_eq_true, if_false, queueValue_single _ op.plain.single]
  exact congrArg (·, LaneRes.retire []) (deliver_prepared hprep hsolo.thread op.plain _ _ _ _ _ _ _ none)

theorem launch_done {pg : Guard} {rec : Src} {a : OneWord} {s : State} {x : Thread} {w : Workgroup} {out : Host.Outcome State Fault Refusal}
    (hout : out = execLaunch pg rec s) (ha : taskWord (.launch pg rec) = some a) (hsolo : Solo s a.pg x w) (so : a.Sound s w x) : ∃ t, out = .next t ∧ a.Done s t w x := by
  cases ha
  have hown := so.own
  have drone : (w.role == .drone) = false := by rw [so.operands.plain.single]; rfl
  have chanter : (w.role == .chanter) = false := by rw [so.operands.plain.single]; rfl
  dsimp only at hown
  generalize hv : (readSrcs s w x [⟨rec, 2, .int⟩] []).vals = v at hown
  obtain ⟨hrel, halign, S, b, hread, hlaunch, S', kb, hkinds, htasks, hroom, hspares⟩ := hown
  obtain ⟨vc, hmine, hothers⟩ := bumpVc_vc (v := x.vc) hspares.1
  have hkinds' : (if (launchOf b).tasks == 0 then (S, Sum.inl []) else plainRead S w x (launchOf b).tasks 256 256) = (S', .inl kb) := hkinds
  have hbad : ((launchOf b).tasks != 0 && !kindsOk S' w.pasid (launchOf b).region kb) = false := by
    rcases htasks with h | h <;> simp [h]
  generalize hE : launched S' w x b kb = E at hspares hmine hothers
  unfold execLaunch at hout
  refine OneWord.group_took (E := E) (V := bumpVc E x.tid) hsolo so hout rfl rfl rfl rfl rfl ?_ ?_ rfl hspares.2.1 hspares.2.2 hmine hothers
  · simp only [hv, hread, hkinds, hE]
  · subst hE
    simp only [hv, hread, hlaunch, hkinds', hbad, hroom, halign, drone, chanter, lanesPending_one hrel, ne_eq, not_true, Bool.not_true, Bool.false_eq_true, if_false,
      List.foldl_cons, List.foldl_nil, launched]

/-- Settles O28: each word's own part is its effect. -/
theorem taskWords : Obligations.TaskWords := by
  intro i a s x w ha hsolo so
  cases i
  case spawn => exact spawn_done rfl ha hsolo so
  case spawnw => exact spawnw_done rfl ha hsolo so
  case spawnr => exact spawnr_done rfl ha hsolo so
  case tget => exact tget_done rfl ha hsolo so
  case launch => exact launch_done rfl ha hsolo so
  all_goals cases ha

end Sys2Proof.Machine
end
section
/-! PROOFS of the state words (R405 to R414) and of the services and privileged words (R416 to R423). -/

namespace Sys2Proof.Machine

/-! ## Broadcast words -/

theorem bwupd_done {pg : Guard} {n : BitVec 4} {op : BwOp} {die : Bool} {p : Src} {a : OneWord} {s : State} {x : Thread} {w : Workgroup}
    {out : Host.Outcome State Fault Refusal} (hout : out = execBwupd pg n op die p s) (ha : stateWord (.bwupd pg n op die p) = some a)
    (hsolo : Solo s a.pg x w) (so : a.Sound s w x) : ∃ t, out = .next t ∧ a.Done s t w x := by
  cases ha
  obtain ⟨opnd, clean, -, -⟩ := so
  have hrole := opnd.plain.single
  have hpoison := poisonCauses_none clean []
  unfold execBwupd at hout
  refine OneWord.lane_took (v := x.vc) (g := id)
    (V := startUpdate (pin s w.id) x.tid.core w.pasid n.toNat op die (opv (readSrcs s w x [⟨p, 2, .int⟩] []).vals 0).word)
    hsolo hout rfl rfl rfl rfl rfl (aside_id x) (fun _ => ⟨rfl, rfl⟩) rfl ?_ rfl rfl rfl hsolo.thread fun _ _ => rfl
  refine (withSrcs_ok (l := [⟨p, 2, .int⟩]) opnd.dual hpoison opnd.causes opnd.full opnd.dst).trans ?_
  simp only [hrole]
  rw [touchRegs_off _ _ opnd.plain.rollback opnd.plain.redund]
  rfl

theorem bwWords_length (s : State) (core pasid n : Nat) : ((bwWords s core pasid n).take 2).length = 2 := by
  unfold bwWords
  split
  · split <;> rfl
  · rfl

theorem bwrd_done {pg : Guard} {d : Dst} {n : BitVec 4} {p : BitVec 3} {a : OneWord} {s : State} {x : Thread} {w : Workgroup}
    {out : Host.Outcome State Fault Refusal} (hout : out = execBwrd pg d n p s) (ha : stateWord (.bwrd pg d n p) = some a)
    (hsolo : Solo s a.pg x w) (so : a.Sound s w x) : ∃ t, out = .next t ∧ a.Done s t w x := by
  cases ha
  have opnd := so.operands
  have drone : (w.role == .drone) = false := by rw [opnd.plain.single]; rfl
  have hframe := settleCopy_frame s x.tid.core n.toNat
  have hcur : (settleCopy s x.tid.core n.toNat).cur = s.cur := by rw [hframe]
  have hnow : (settleCopy s x.tid.core n.toNat).now = s.now := by rw [hframe]
  have hthread : getT (settleCopy s x.tid.core n.toNat) x.tid = some x := by rw [hframe]; exact hsolo.thread
  obtain ⟨htid, -, -, haside, hq⟩ := spawnPred_facts (some p) ((bwWords s x.tid.core w.pasid n.toNat).getD 2 0 != 0) x
  unfold execBwrd at hout
  refine OneWord.lane_retired (S := settleCopy s x.tid.core n.toNat) (ws := (bwWords s x.tid.core w.pasid n.toNat).take 2)
    (g := fun y => setPred y p.toNat ((bwWords s x.tid.core w.pasid n.toNat).getD 2 0 != 0)) hsolo so hout rfl rfl (bwWords_length _ _ _ _) rfl haside htid hq ?_ rfl
    hcur hnow hthread
  refine (withSrcs_ok (l := []) opnd.dual rfl opnd.causes opnd.full opnd.dst).trans ?_
  simp only [drone, valuesFull_single s opnd.plain.single, queueValue_single _ opnd.plain.single, Bool.false_eq_true, if_false]
  rfl

/-! ## Colour words -/

theorem cwait_done {o : P2} {a : OneWord} {s : State} {x : Thread} {w : Workgroup} {out : Host.Outcome State Fault Refusal} (hout : out = execCwait o s)
    (ha : stateWord (.cwait o) = some a) (hsolo : Solo s a.pg x w) (so : a.Sound s w x) : ∃ t, out = .next t ∧ a.Done s t w x := by
  cases ha
  have hown : x.passed = true := so.own
  have opnd := so.operands
  have drone : (w.role == .drone) = false := by rw [opnd.plain.single]; rfl
  have hpoison := poisonCauses_none so.clean []
  obtain ⟨htid, -, -, haside, hq⟩ := spawnPred_facts (some o.pd) (x.notified.getD true) x
  have haside' : Aside (fun y => { setPred y o.pd.toNat (x.notified.getD true) with notified := none }) x := by
    intro y hy
    exact congrArg (fun z : Thread => { z with notified := none }) (haside y hy)
  unfold execCwait at hout
  refine OneWord.lane_retired (S := s) (ws := []) (g := fun y => { setPred y o.pd.toNat (x.notified.getD true) with notified := none })
    hsolo so hout rfl rfl rfl rfl haside' htid hq ?_ rfl rfl rfl hsolo.thread
  refine (withSrcs_ok (l := [⟨o.a, 1, .int⟩, ⟨o.b, 1, .int⟩]) opnd.dual hpoison opnd.causes opnd.full opnd.dst).trans ?_
  simp only [drone, hown, queueValue_single _ opnd.plain.single, Bool.false_eq_true, if_false, if_true]

/-- A thread that does not wait for a condition of the colour is as before a notification, and the group at issue and the time are. -/
theorem notify_spares {s : State} {x : Thread} {pasid : Nat} {c : BitVec 16} {all : Bool} (hx : getT s x.tid = some x)
    (h : ∀ m, getMon s pasid c = some m → ∀ y ∈ m.cond, y.tid ≠ x.tid) : Spares s (notify s pasid c all) x := by
  unfold notify
  cases hm : getMon s pasid c with
  | none => exact Spares.refl hx
  | some m =>
    have hsub : ∀ y ∈ (if all = true then m.cond else m.cond.take 1), y.tid ≠ x.tid := by
      intro y hy
      refine h m hm y ?_
      split at hy
      · exact hy
      · exact List.mem_of_mem_take hy
    dsimp only
    generalize (if all = true then m.cond else m.cond.take 1) = l at hsub
    suffices ∀ (l : List Waiter) (z : State), (∀ y ∈ l, y.tid ≠ x.tid) → Spares s z x → Spares s (l.foldl (fun s y => moveWaiter s pasid c y true) z) x from
      this l s hsub (Spares.refl hx)
    intro l
    induction l with
    | nil => exact fun _ _ h => h
    | cons y l ih =>
      intro z hl ⟨hthread, hcur, hnow⟩
      refine ih _ (fun u hu => hl u (List.mem_cons_of_mem _ hu)) ⟨?_, hcur, hnow⟩
      exact (getT_modT_ne (f := fun x => { x with notified := some true, run := .waiting (.colour c 0) }) (fun _ h => h) (Ne.symm (hl y List.mem_cons_self))).trans hthread

theorem cnotify_done {pg : Guard} {all : Bool} {p : Src} {a : OneWord} {s : State} {x : Thread} {w : Workgroup} {out : Host.Outcome State Fault Refusal}
    (hout : out = execCnotify pg all p s) (ha : stateWord (.cnotify pg all p) = some a) (hsolo : Solo s a.pg x w) (so : a.Sound s w x) :
    ∃ t, out = .next t ∧ a.Done s t w x := by
  cases ha
  have hown := so.own
  have opnd := so.operands
  have drone : (w.role == .drone) = false := by rw [opnd.plain.single]; rfl
  have hpoison := poisonCauses_none so.clean []
  obtain ⟨hcolour, hheld, hcond⟩ := hown
  obtain ⟨hthread, hcur, hnow⟩ := notify_spares (s := pin s w.id) (all := all) hsolo.thread hcond
  have hcolour' := beq_eq_false_iff_ne.mpr hcolour
  unfold execCnotify at hout
  refine OneWord.lane_retired (S := notify (pin s w.id) w.pasid (colourOf (opv (readSrcs s w x [⟨p, 1, .int⟩] []).vals 0)) all) (ws := []) (g := id)
    hsolo so hout rfl rfl rfl rfl (aside_id x) (fun _ => ⟨rfl, rfl⟩) rfl ?_ rfl hcur hnow hthread
  refine (withSrcs_ok (l := [⟨p, 1, .int⟩]) opnd.dual hpoison opnd.causes opnd.full opnd.dst).trans ?_
  simp only [drone, hcolour', hheld, Bool.not_true, Bool.or_self, Bool.false_eq_true, if_false]

theorem cheld_done {o : A1} {a : OneWord} {s : State} {x : Thread} {w : Workgroup} {out : Host.Outcome State Fault Refusal} (hout : out = execCheld o s)
    (ha : stateWord (.cheld o) = some a) (hsolo : Solo s a.pg x w) (so : a.Sound s w x) : ∃ t, out = .next t ∧ a.Done s t w x := by
  cases ha
  have opnd := so.operands
  have drone : (w.role == .drone) = false := by rw [opnd.plain.single]; rfl
  have hpoison := poisonCauses_none so.clean []
  unfold execCheld at hout
  refine OneWord.lane_retired (S := s) (ws := [heldWord x (colourOf (opv (readSrcs s w x [⟨o.a, 1, .int⟩] []).vals 0))]) (g := id)
    hsolo so hout rfl rfl rfl rfl (aside_id x) (fun _ => ⟨rfl, rfl⟩) rfl ?_ rfl rfl rfl hsolo.thread
  refine (withSrcs_ok (l := [⟨o.a, 1, .int⟩]) opnd.dual hpoison opnd.causes opnd.full opnd.dst).trans ?_
  simp only [drone, valuesFull_single s opnd.plain.single, queueValue_single _ opnd.plain.single, Bool.false_eq_true, if_false]

/-! ## Special registers -/

theorem srPriv_ok {n : Nat} {x : Thread} (h : srNeed n ≤ x.pl) : srPriv n x = [] := by
  unfold srNeed at h
  unfold srPriv
  rw [if_neg]
  rintro ⟨hlo, hhi, hpl⟩
  rw [if_pos ⟨hlo, hhi⟩] at h
  omega

theorem getsr_done {pg : Guard} {d : Dst} {n : BitVec 8} {a : OneWord} {s : State} {x : Thread} {w : Workgroup} {out : Host.Outcome State Fault Refusal}
    (hout : out = execGetsr pg d n s) (ha : stateWord (.getsr pg d n) = some a) (hsolo : Solo s a.pg x w) (so : a.Sound s w x) :
    ∃ t, out = .next t ∧ a.Done s t w x := by
  cases ha
  have opnd := so.operands
  have hpriv : srPriv n.toNat x = [] := srPriv_ok so.level
  have hread : (srRead s w x n.toNat).isNone = false := by rw [Option.isNone_eq_false_iff]; exact so.own
  unfold execGetsr at hout
  refine OneWord.lane_retired (S := s) (ws := getsrWords s w x n) (g := id) hsolo so hout rfl rfl ?_ rfl (aside_id x) (fun _ => ⟨rfl, rfl⟩) rfl ?_ rfl rfl rfl hsolo.thread
  · exact (List.length_map _).trans List.length_range
  · exact withSrcs_ok (l := []) opnd.dual (by simp only [hpriv, hread, Bool.false_eq_true, if_false, List.append_nil]) opnd.causes opnd.full opnd.dst

theorem firstOfWarp_alone {s : State} {pg : Guard} {x : Thread} {w : Workgroup} (h : Solo s pg x w) : firstOfWarp s pg x.tid = true := by
  unfold firstOfWarp
  rw [h.alone]
  simp

/-- A write of a per-thread register touches none that a word's operands or place use. -/
theorem srWriteThread_facts (x : Thread) (n : Nat) (v : Word) :
    (∀ y, (srWriteThread y n v).tid = y.tid ∧ (srWriteThread y n v).run = y.run) ∧ Aside (fun y => srWriteThread y n v) x ∧ (srWriteThread x n v).q = x.q := by
  have hcases : (∀ y, srWriteThread y n v = { y with numerr := v.getLsbD 0 }) ∨ (∀ y, srWriteThread y n v = { y with fstat := v.setWidth 6 }) ∨
      (∀ y, srWriteThread y n v = { y with rng := oneIfZero (v.setWidth 32) }) ∨ (∀ y, srWriteThread y n v = { y with tanrng := oneIfZero (v.setWidth 32) }) ∨
      (∀ y, srWriteThread y n v = { y with trap := { y.trap with pc := v &&& 0xFFFFFFFFFFFFFFF8 } }) ∨ ∀ y, srWriteThread y n v = y := by
    unfold srWriteThread
    split <;> simp
  unfold Aside
  rcases hcases with h | h | h | h | h | h <;> simp only [h] <;> refine ⟨fun _ => ⟨trivial, trivial⟩, fun y hy => ?_, trivial⟩ <;> rw [hy]

theorem setsr_done {pg : Guard} {n : BitVec 8} {p : Src} {a : OneWord} {s : State} {x : Thread} {w : Workgroup} {out : Host.Outcome State Fault Refusal}
    (hout : out = execSetsr pg n p s) (ha : stateWord (.setsr pg n p) = some a) (hsolo : Solo s a.pg x w) (so : a.Sound s w x) :
    ∃ t, out = .next t ∧ a.Done s t w x := by
  cases ha
  have opnd := so.operands
  have hpriv : srPriv n.toNat x = [] := srPriv_ok so.level
  have hwritable : srWritable n.toNat = true := so.own
  have hpoison := poisonCauses_none so.clean []
  dsimp only at hpoison
  obtain ⟨htid, haside, hq⟩ := srWriteThread_facts x n.toNat (opv (readSrcs s w x [⟨p, k64 (sr64 n), .int⟩] []).vals 0).word
  have hframe : ∀ f : Warp → Warp, getT (if srWarp n.toNat then modWarp s x.tid.core x.tid.slot f else s) x.tid = some x ∧
      (if srWarp n.toNat then modWarp s x.tid.core x.tid.slot f else s).cur = s.cur ∧ (if srWarp n.toNat then modWarp s x.tid.core x.tid.slot f else s).now = s.now := by
    intro f
    split <;> exact ⟨hsolo.thread, rfl, rfl⟩
  obtain ⟨hthread, hcur, hnow⟩ := hframe fun y => srWriteWarp y n.toNat (opv (readSrcs s w x [⟨p, k64 (sr64 n), .int⟩] []).vals 0).word
  unfold execSetsr at hout
  refine OneWord.lane_retired (ws := []) (g := fun y => srWriteThread y n.toNat (opv (readSrcs s w x [⟨p, k64 (sr64 n), .int⟩] []).vals 0).word)
    hsolo so hout rfl rfl rfl rfl haside htid hq ?_ rfl hcur hnow hthread
  refine (withSrcs_ok (l := [⟨p, k64 (sr64 n), .int⟩]) opnd.dual ?_ opnd.causes opnd.full opnd.dst).trans ?_
  · simp only [hpriv, hwritable, hpoison, if_true, List.append_nil]
  · simp only [firstOfWarp_alone hsolo, Bool.and_true]

/-- Settles O29: each word's own part is its effect. -/
theorem stateWords : Obligations.StateWords := by
  intro i a s x w ha hsolo so
  cases i
  case bwupd => exact bwupd_done rfl ha hsolo so
  case bwrd => exact bwrd_done rfl ha hsolo so
  case cwait => exact cwait_done rfl ha hsolo so
  case cnotify => exact cnotify_done rfl ha hsolo so
  case cheld => exact cheld_done rfl ha hsolo so
  case getsr => exact getsr_done rfl ha hsolo so
  case setsr => exact setsr_done rfl ha hsolo so
  all_goals cases ha

/-! ## Services -/

/-- A lane that has taken its operands, written words to its destination and retired. -/
theorem OneWord.group_settled {a : OneWord} {s E : State} {x : Thread} {w : Workgroup} {ws : List W32} {out : Host.Outcome State Fault Refusal}
    (h : Solo s a.pg x w) (so : a.Sound s w x) (hE : a.effect s w x (readSrcs s w x a.srcs []).vals = E)
    (hend : a.ending s w x (readSrcs s w x a.srcs []).vals = .wrote ws) (hlen : ws.length = a.kd)
    (halso : a.also s w x (readSrcs s w x a.srcs []).vals = id)
    (ho : out = .next (retire (writeAll (modT E x.tid fun y => takeSources y a.srcs (readSrcs s w x a.srcs []).pops) w [x.tid] a.d ws) x.tid))
    (hc : E.cur = s.cur) (hn : E.now = s.now) (hz : getT E x.tid = some x) : ∃ t, out = .next t ∧ a.Done s t w x := by
  generalize hpops : (readSrcs s w x a.srcs []).pops = pops at ho
  have htake : ∀ y : Thread, y.tid = x.tid → (takeSources y a.srcs pops).tid = x.tid := fun y hy => (same_takeSources y a.srcs pops).1.trans hy
  have hwrite : ∀ y : Thread, y.tid = x.tid → (writePlain y a.d ws).tid = x.tid := fun y hy => by rw [writePlain_rest]; exact hy
  have hall : writeAll (modT E x.tid fun y => takeSources y a.srcs pops) w [x.tid] a.d ws =
      applyG (modT (modT E x.tid fun y => takeSources y a.srcs pops) x.tid fun y => writePlain y a.d ws) [x.tid] ((gWrites a.d ws []).map fun y => (x.tid, y)) := by
    unfold writeAll
    simp only [List.foldl_cons, List.foldl_nil, List.flatMap_cons, List.flatMap_nil, List.append_nil]
    rw [touchRegs_off _ _ so.operands.plain.rollback so.operands.plain.redund]
  rw [hall] at ho
  have hframe := applyG_frame (modT (modT E x.tid fun y => takeSources y a.srcs pops) x.tid fun y => writePlain y a.d ws) [x.tid]
    ((gWrites a.d ws []).map fun y => (x.tid, y))
  have huniform := applyG_uniform (modT (modT E x.tid fun y => takeSources y a.srcs pops) x.tid fun y => writePlain y a.d ws) [x.tid]
    ((gWrites a.d ws []).map fun y => (x.tid, y)) (gWrites_nodup _ _ _ _)
  have hthread : ∀ u, getT (applyG (modT (modT E x.tid fun y => takeSources y a.srcs pops) x.tid fun y => writePlain y a.d ws) [x.tid]
      ((gWrites a.d ws []).map fun y => (x.tid, y))) u = getT (modT (modT E x.tid fun y => takeSources y a.srcs pops) x.tid fun y => writePlain y a.d ws) u :=
    fun u => getT_applyG _ _ _ u
  generalize applyG (modT (modT E x.tid fun y => takeSources y a.srcs pops) x.tid fun y => writePlain y a.d ws) [x.tid]
    ((gWrites a.d ws []).map fun y => (x.tid, y)) = A at ho hframe huniform hthread
  refine OneWord.retired (S := A) (E := E) (z := writePlain (takeSources x a.srcs pops) a.d ws) ho hE ?_ ?_ hc hn ?_ ?_ (fun u hu => ?_) ?_
  · rw [hframe]
    rfl
  · rw [hend]
    exact uniformDone_congr huniform rfl rfl fun _ _ _ => rfl
  · rw [hthread, getT_modT hwrite, getT_modT htake, hz]
    rfl
  · rw [writePlain_rest]
    exact (same_takeSources x a.srcs pops).2.2.1.trans h.ready
  · rw [hthread, getT_modT_ne hwrite hu, getT_modT_ne htake hu]
  · rw [hend, halso, hpops, ← hlen]
    exact oneAfter_plain (v := x.vc) (aside_id x) rfl

theorem filter_contains_singleton {l : List Tid} {t : Tid} (h : l.count t = 1) : (l.filter fun u => [t].contains u) = [t] := by
  have heq : (fun u => [t].contains u) = fun u : Tid => u == t := by
    funext u
    rw [Bool.eq_iff_iff, List.contains_iff_mem, List.mem_singleton, beq_iff_eq]
  rw [heq, List.filter_beq, h]
  rfl

/-- The requests when lane `t` has left the answered request `v`. -/
def servicesWithout (s : State) (v : Service) (t : Tid) : List Service :=
  (updIf (fun y => y.id == v.id) (fun _ => { v with tids := v.tids.filter fun u => !([t].contains u) }) s.services).filter fun y => !y.tids.isEmpty

/-- The machine after the acquire with which a lane leaves its request. -/
def leftService (s : State) (v : Service) (t : Tid) : State := acquire { s with services := servicesWithout s v t } t.core .dev

theorem serviceDone_eq {s : State} {x : Thread} {v : Service} (h : answered s x = some v) (hcount : v.tids.count x.tid = 1) :
    serviceDone s x = leftService s v x.tid := by
  unfold serviceDone
  rw [h]
  dsimp only
  rw [filter_contains_singleton hcount]
  rfl

theorem serviceTake_left {s : State} {w : Workgroup} {x : Thread} (hx : getT s x.tid = some x) (hoff : w.rcb.rollback = false ∧ w.rcb.redund = 0)
    (l : List SrcSpec) (v : Service) : serviceTake (leftService s v x.tid) w l x.tid =
      modT (leftService s v x.tid) x.tid fun y => takeSources y l (readSrcs s w x l []).pops := by
  have hthread : getT (leftService s v x.tid) x.tid = some x := hx
  unfold serviceTake
  rw [hthread]
  dsimp only
  rw [touchRegs_off _ _ hoff.1 hoff.2]
  unfold leftService
  rw [readSrcs_served]

/-- The one lane of a group leaves its answered request with the result. -/
theorem finishService_one {s : State} {w : Workgroup} (hw : w.role = .single) {x : Thread} (hx : getT s x.tid = some x) (hoff : w.rcb.rollback = false ∧ w.rcb.redund = 0)
    (l : List SrcSpec) (d : Dst) (v : Service) (ans : Word) : finishService s w l d v [x.tid] ans =
      retire (writeAll (modT (leftService s v x.tid) x.tid fun y => takeSources y l (readSrcs s w x l []).pops) w [x.tid] d (wordsOf 2 ans.toNat)) x.tid := by
  unfold finishService
  simp only [List.foldl_cons, List.foldl_nil]
  rw [queueValue_single _ hw, ← serviceTake_left hx hoff]
  rfl

theorem service_done {pg : Guard} {monitor : Bool} {svc : BitVec 8} {extra : Thread → List Cause} {l : List SrcSpec} {d : Dst} {need : Nat} {known : Thread → Bool}
    {s : State} {x : Thread} {w : Workgroup} {out : Host.Outcome State Fault Refusal} (hout : out = .next (serviceWord s pg monitor svc extra l d))
    (hextra : extra x = []) (hsolo : Solo s pg x w) (so : (serviceSpec pg l d need known).Sound s w x) :
    ∃ t, out = .next t ∧ (serviceSpec pg l d need known).Done s t w x := by
  have opnd := so.operands
  have drone : (w.role == .drone) = false := by rw [opnd.plain.single]; rfl
  obtain ⟨-, v, hanswered, hcount⟩ := so.own
  have hdone := serviceDone_eq hanswered hcount
  have hcur : (serviceDone s x).cur = s.cur := by rw [hdone]; rfl
  have hnow : (serviceDone s x).now = s.now := by rw [hdone]; rfl
  have hthread : getT (serviceDone s x) x.tid = some x := by rw [hdone]; exact hsolo.thread
  refine OneWord.group_settled (ws := wordsOf 2 (v.answer.getD 0).toNat) hsolo so rfl ?_ ((List.length_map _).trans List.length_range) rfl ?_ ?_ ?_ ?_
  · exact congrArg (fun z => Ending.wrote (wordsOf 2 ((Option.bind z (·.answer)).getD 0).toNat)) hanswered
  · rw [hout]
    unfold serviceWord
    refine congrArg Host.Outcome.next ((perGroup_solo hsolo opnd.dual hextra opnd.causes opnd.full opnd.dst (poisonCause_clean so.clean [])).trans ?_)
    have hfind : s.services.find? (fun x_1 => x_1.answer.isSome && x_1.tids.any fun t => [x.tid].contains t) = some v := hanswered
    simp only [drone, Bool.false_eq_true, if_false, hfind, filter_contains_singleton hcount]
    rw [finishService_one opnd.plain.single hsolo.thread ⟨opnd.plain.rollback, opnd.plain.redund⟩, ← hdone]
    rfl
  · exact hcur
  · exact hnow
  · exact hthread

/-! ## Invalidations -/

theorem icinv_done {pg : Guard} {range : Option (Src × Src)} {a : OneWord} {s : State} {x : Thread} {w : Workgroup} {out : Host.Outcome State Fault Refusal}
    (hout : out = execIcinv pg range s) (ha : rootWord (.icinv pg range) = some a) (hsolo : Solo s a.pg x w) (so : a.Sound s w x) :
    ∃ t, out = .next t ∧ a.Done s t w x := by
  unfold execIcinv at hout
  cases range with
  | none =>
    cases ha
    have hrel : releasePending s x.tid .dev = false := so.own
    refine OneWord.group_spares hsolo so hout (privCause_ok so.level) rfl rfl rfl rfl ⟨hsolo.thread, rfl, rfl⟩ ?_
    simp only [lanesPending_one hrel, Option.isSome_none, Option.isNone_none, Bool.false_and, Bool.false_eq_true, if_false, if_true]
  | some range =>
    obtain ⟨base, len⟩ := range
    cases ha
    obtain ⟨hlen, hrel⟩ := so.own
    refine OneWord.group_spares hsolo so hout (privCause_ok so.level) rfl rfl rfl rfl ⟨hsolo.thread, rfl, rfl⟩ ?_
    have hlen' := beq_eq_false_iff_ne.mpr hlen
    simp only [hlen', lanesPending_one hrel, Option.isSome_some, Option.isNone_some, Bool.and_false, Bool.false_eq_true, if_false]

theorem invalidate_spares {s S : State} {x : Thread} (h : Spares s S x) (form : TlbForm) (pasid : Nat) (va : Word) : Spares s (invalidate S form pasid va) x := by
  cases form <;> exact h

theorem tlbinv_done {pg : Guard} {form : TlbForm} {p : Src} {q : Option Src} {a : OneWord} {s : State} {x : Thread} {w : Workgroup}
    {out : Host.Outcome State Fault Refusal} (hout : out = execTlbinv pg form p q s) (ha : rootWord (.tlbinv pg form p q) = some a)
    (hsolo : Solo s a.pg x w) (so : a.Sound s w x) : ∃ t, out = .next t ∧ a.Done s t w x := by
  cases ha
  obtain ⟨hrel, huse, hspares⟩ := so.own
  unfold execTlbinv at hout
  refine OneWord.group_spares hsolo so hout (privCause_ok so.level) rfl rfl rfl rfl (invalidate_spares hspares _ _ _) ?_
  simp only [lanesPending_one hrel, Bool.false_eq_true, if_false]
  rw [if_neg (by rw [Bool.not_eq_true]; exact huse)]
  rfl

/-! ## The privileged words -/

theorem fcxl_done {pg : Guard} {p q : Src} {a : OneWord} {s : State} {x : Thread} {w : Workgroup} {out : Host.Outcome State Fault Refusal}
    (hout : out = execFcxl pg p q s) (ha : rootWord (.fcxl pg p q) = some a) (hsolo : Solo s a.pg x w) (so : a.Sound s w x) :
    ∃ t, out = .next t ∧ a.Done s t w x := by
  cases ha
  exact OneWord.group_spares hsolo so hout (privCause_ok so.level) rfl rfl rfl rfl so.own rfl

theorem finj_done {pg : Guard} {p : Src} {a : OneWord} {s : State} {x : Thread} {w : Workgroup} {out : Host.Outcome State Fault Refusal}
    (hout : out = execFinj pg p s) (ha : rootWord (.finj pg p) = some a) (hsolo : Solo s a.pg x w) (so : a.Sound s w x) :
    ∃ t, out = .next t ∧ a.Done s t w x := by
  cases ha
  have hinject : w.rcb.inject = true := so.own
  have opnd := so.operands
  have drone : (w.role == .drone) = false := by rw [opnd.plain.single]; rfl
  have hpoison := poisonCauses_none so.clean []
  unfold execFinj at hout
  refine OneWord.lane_retired (S := s) (ws := []) (g := id) hsolo so hout rfl rfl rfl rfl (aside_id x) (fun _ => ⟨rfl, rfl⟩) rfl ?_ rfl rfl rfl hsolo.thread
  refine (withSrcs_ok (l := [⟨p, 2, .int⟩]) opnd.dual ?_ opnd.causes opnd.full opnd.dst).trans ?_
  · rw [hinject, if_pos rfl, hpoison]
    rfl
  · simp only [drone, Bool.false_and, Bool.false_eq_true, if_false]
    rfl

theorem halt_done {pg : Guard} {a : OneWord} {s : State} {x : Thread} {w : Workgroup} {out : Host.Outcome State Fault Refusal}
    (hout : out = execHalt pg s) (ha : rootWord (.halt pg) = some a) (hsolo : Solo s a.pg x w) (so : a.Sound s w x) : ∃ t, out = .next t ∧ a.Done s t w x := by
  cases ha
  have opnd := so.operands
  have hpassed : x.passed = true := so.own
  unfold execHalt at hout
  refine OneWord.retired (S := s) (E := s) (z := x) ?_ rfl rfl (uniformDone_nil _ rfl) rfl rfl hsolo.thread hsolo.ready (fun _ _ => rfl)
    (oneAfter_mk (fun _ => rfl) rfl (fun _ => rfl) rfl)
  rw [hout]
  refine congrArg Host.Outcome.next ((perGroup_solo hsolo opnd.dual (privCause_ok so.level) opnd.causes opnd.full opnd.dst (poisonCause_clean so.clean [])).trans ?_)
  simp only [List.foldl_cons, List.foldl_nil, hsolo.thread, Option.any_some, hpassed, if_true]

/-- A thread that holds no colour more is the same in its registers and place. -/
theorem unheld_eq (s : State) (p : Nat) (c : BitVec 16) (x y : Thread) : unheld s p c x y = { y with held := (unheld s p c x y).held } := by
  unfold unheld
  split <;> rfl

theorem cctl_done {pg : Guard} {d : Option Dst} {p q : Src} {a : OneWord} {s : State} {x : Thread} {w : Workgroup} {out : Host.Outcome State Fault Refusal}
    (hout : out = execCctl pg d p q s) (ha : rootWord (.cctl pg d p q) = some a) (hsolo : Solo s a.pg x w) (so : a.Sound s w x) :
    ∃ t, out = .next t ∧ a.Done s t w x := by
  unfold execCctl at hout
  cases d with
  | none =>
    cases ha
    obtain ⟨hthread, hcur, hnow⟩ := so.own
    have hx := unheld_eq s ((opv (readSrcs s w x [⟨p, 1, .int⟩, ⟨q, 1, .int⟩] []).vals 0).nat false % 2 ^ 20)
      (colourOf (opv (readSrcs s w x [⟨p, 1, .int⟩, ⟨q, 1, .int⟩] []).vals 1)) x x
    rw [congrArg Thread.tid hx] at hthread
    generalize hE : forceRelease s ((opv (readSrcs s w x [⟨p, 1, .int⟩, ⟨q, 1, .int⟩] []).vals 0).nat false % 2 ^ 20)
      (colourOf (opv (readSrcs s w x [⟨p, 1, .int⟩, ⟨q, 1, .int⟩] []).vals 1)) = E at hthread hcur hnow
    refine OneWord.group (S := E) (E := E) hsolo so hout (privCause_ok so.level) hE (congrArg (·, GroupRes.retire) hE) rfl (uniformDone_nil _ rfl) hcur hnow hthread ?_
      (fun _ _ => rfl) ?_
    · exact (congrArg Thread.run hx).trans hsolo.ready
    · refine advance_keeping (fun r => ?_) (fun ws h => by cases h; rfl) ?_ rfl rfl
      · rw [if_neg (show ¬ (dstWord .zero r.1 0 r.2).isSome = true from Bool.false_ne_true), hx]
        exact regOf_congr rfl rfl r
      · rw [hx]
        rfl
  | some d =>
    cases ha
    exact OneWord.group_wrote (S := s) (v := x.vc) hsolo so hout (privCause_ok so.level) ((List.length_map _).trans List.length_range) rfl rfl rfl rfl rfl rfl hsolo.thread
      fun _ _ => rfl

/-- Settles O30: each word's own part is its effect. -/
theorem rootWords : Obligations.RootWords := by
  intro i a s x w ha hsolo so
  cases i
  case fwcall o svc =>
    cases ha
    have hknown := so.own.1
    exact service_done rfl (if_pos hknown) hsolo so
  case moncall o svc =>
    cases ha
    have hknown : monServices.contains svc.toNat = true := so.own.1
    have hlevel : privCause (if 0x10 ≤ svc.toNat then 2 else 1) x = [] := privCause_ok so.level
    exact service_done rfl (by rw [hlevel, if_pos hknown]; rfl) hsolo so
  case icinv => exact icinv_done rfl ha hsolo so
  case tlbinv => exact tlbinv_done rfl ha hsolo so
  case fcxl => exact fcxl_done rfl ha hsolo so
  case finj => exact finj_done rfl ha hsolo so
  case halt => exact halt_done rfl ha hsolo so
  case cctl => exact cctl_done rfl ha hsolo so
  all_goals cases ha

end Sys2Proof.Machine
end
section
/-! PROOFS of the atomics (R350 to R353). -/

namespace Sys2Proof.Machine

/-! ## Global atomics -/

/-- An atomic on plain bytes is performed at once on the bytes themselves. -/
theorem performRmw_plain {s : State} {x : Thread} {w : Workgroup} {va : Word} {ty : AType} {rd wr : Bool} {lf : Leaf} {a : Nat} {r : Rmw}
    (h : PlainBytes s x w va (AType.bytes ty) rd wr lf a) : performRmw s w x lf (leafPa lf va.toNat) va ty r false =
      rmwAt s w x.tid.core lf a va ty r false := by
  have hcanon : canon s w.pasid (leafPa lf va.toNat) = some a := by unfold canon; rw [h.home]
  unfold performRmw homeClass
  rw [h.home]
  dsimp only
  rw [hcanon]

theorem rmwAt_written {s : State} {x : Thread} {w : Workgroup} {f : TForm} {va : Word} {rd wr : Bool} {lf : Leaf} {a : Nat} {r : Rmw}
    (h : PlainBytes s x w va (AType.bytes f.ty) rd wr lf a) : rmwAt s w x.tid.core lf a va f.ty r false =
      (atomWritten s f a r, .old (atomOld s f a) false false (Rmw.write f.ty (atomOld s f a) r).isSome) := rmwAt_plain h

theorem dualRmw_plain {lf : Leaf} (h : lf.tp = false) (ty : AType) (r : Rmw) : dualRmw ty lf r = false := by
  unfold dualRmw
  split
  · rw [h, Bool.false_and]
  · rfl

theorem tanWords_clean (w : Workgroup) (k old : Nat) : tanWords w k old false [] = (wordsOf k old).map fun v => ⟨v, false, []⟩ := by
  unfold tanWords wordsOf
  rw [List.map_map]
  refine List.map_congr_left fun i hi => ?_
  have hi' := List.mem_range.mp hi
  simp only [List.isEmpty_nil, if_true, Function.comp_apply, List.getD_eq_getElem?_getD, List.getElem?_map, List.getElem?_range hi', Option.map_some, Option.getD_some]

/-- The machine after an atomic on plain bytes, before its result goes. -/
def atomDone (s : State) (x : Thread) (f : TForm) (a : Nat) (r : Rmw) : State :=
  atomOrder (atomWritten s f a r) x.tid f a (Rmw.write f.ty (atomOld s f a) r).isSome

/-- What ends an atomic in its lane, where it is counted. -/
def atomEnded (S : State) (w : Workgroup) (x : Thread) (f : TForm) (pops : List Nat) (ea : Word) (words : List FillWord) : State × LaneRes :=
  if f.result then (noteAtom (endAtom S w x.tid f pops ea none words false).1 w x.tid (some words) false (endAtom S w x.tid f pops ea none words false).1.ids,
    (endAtom S w x.tid f pops ea none words false).2)
  else endAtom (noteAtom S w x.tid (some []) false) w x.tid f pops ea none [] false

theorem atomPerform_plain {s : State} {x : Thread} {w : Workgroup} {f : TForm} {va : Word} {rd wr : Bool} {lf : Leaf} {a : Nat} {r : Rmw} (pops : List Nat) (b : Opv)
    (h : PlainBytes s x w va (AType.bytes f.ty) rd wr lf a) : atomPerform s w x f pops r b va lf (leafPa lf va.toNat) [] [] =
      atomEnded (atomDone s x f a r) w x f pops va ((wordsOf (AType.k f.ty) (atomOld s f a)).map fun v => ⟨v, false, []⟩) := by
  obtain ⟨-, hloc, -, -⟩ := hbm_reads h
  unfold atomPerform
  simp only [performRmw_plain h, rmwAt_written h, rmwShadows, logShadows, hloc, Bool.or_false, tanWords_clean, Option.isSome_none, Option.map_none, Bool.false_eq_true,
    if_false, List.isEmpty_nil, Bool.not_true, List.foldl_nil]
  rfl

theorem atomAt_plain {s : State} {x : Thread} {w : Workgroup} {f : TForm} {va : Word} {rd wr : Bool} {lf : Leaf} {a : Nat} {r : Rmw} (hw : w.role = .single) (pops : List Nat)
    (b : Opv) (log : Option LogOp) (h : PlainBytes s x w va (AType.bytes f.ty) rd wr lf a) : atomAt s w x f pops r b va lf (leafPa lf va.toNat) log =
      atomPerform (pin s w.id) w x f pops r b va lf (leafPa lf va.toNat) [] [] := by
  have hsingle : (w.role == .single) = true := by rw [hw]; rfl
  unfold atomAt
  simp only [dualRmw_plain h.leaf.tp, Bool.false_eq_true, if_false, xlateShadows, reach_plain h, reachShadows, List.filter_nil, List.isEmpty_nil, Bool.not_true,
    Bool.and_false, Bool.false_and, List.head?_nil, ite_self, hsingle, if_true]

theorem atomLane_plain {s : State} {x : Thread} {w : Workgroup} {f : TForm} {lf : Leaf} {a : Nat} (rmw : List Opv → Rmw) (log : Opv → Option LogOp)
    (so : Sound s w x f.src f.d (if f.result then AType.k f.ty else 0)) (hclean : Clean s w x f.src)
    (halign : (atomEa f (readSrcs s w x f.src []).vals).toNat % AType.bytes f.ty = 0) (hrel : Ord.rel f.ord = true → releasePending s x.tid f.scope = false)
    (h : PlainBytes s x w (atomEa f (readSrcs s w x f.src []).vals) (AType.bytes f.ty) f.result true lf a) :
    atomLane s w x f rmw log = atomEnded (atomDone (pin s w.id) x f a (rmw (readSrcs s w x f.src []).vals)) w x f (readSrcs s w x f.src []).pops
      (atomEa f (readSrcs s w x f.src []).vals) ((wordsOf (AType.k f.ty) (atomOld s f a)).map fun v => ⟨v, false, []⟩) := by
  obtain ⟨-, -, hcolours, -⟩ := hbm_reads h
  have hsingle : (w.role == .single) = true := by rw [so.plain.single]; rfl
  have drone : (w.role == .drone) = false := by rw [so.plain.single]; rfl
  have hwait : (Ord.rel f.ord && releasePending s x.tid f.scope) = false := by
    cases hr : Ord.rel f.ord
    · rfl
    · exact hrel hr
  have hclass : ∀ r, classOk s (leafPa lf (atomEa f (readSrcs s w x f.src []).vals).toNat) f.ty r = true := fun r => by unfold classOk homeClass; rw [h.home]
  have hat := fun b op => atomAt_plain so.plain.single (r := rmw (readSrcs s w x f.src []).vals) (readSrcs s w x f.src []).pops b op h
  have hperform := fun b => atomPerform_plain (r := rmw (readSrcs s w x f.src []).vals) (readSrcs s w x f.src []).pops b (h.with_wgs (pin s w.id).wgs)
  have hxlate := accXlate_hit h.hit h.leaf.key
  have hlog := h.log
  unfold atomLane
  refine (withSrcs_ok so.dual (poisonCauses_none hclean [0]) so.causes so.full so.dst).trans ?_
  unfold atomEa at *
  simp only [halign, hsingle, drone, valuesFull_single s so.plain.single, hlog, hwait, hxlate, hclass, hcolours, holdAll, hat, ne_eq, not_true, if_false, if_true, Bool.or_self,
    Bool.and_false, Bool.not_true, Bool.false_eq_true]
  exact hperform _

/-- The orders of an atomic keep a machine prepared for a value. -/
theorem Prepared.atomOrder {s A : State} {x : Thread} (h : Prepared s A x) (f : TForm) (loc : Nat) (wrote : Bool) :
    Prepared s (atomOrder A x.tid f loc wrote) x := by
  obtain ⟨hsame, hcur, hnow, hids, ⟨v, hv⟩, hothers⟩ := h
  obtain ⟨hframe, hmine, hrest⟩ := atomOrder_spec f loc wrote hv
  generalize Sys2Proof.Machine.atomOrder A x.tid f loc wrote = S at *
  refine ⟨hsame.trans fun k => ?_, by rw [hframe]; exact hcur, by rw [hframe]; exact hnow, by rw [hframe]; exact hids, hmine, fun u hu => (hrest u hu).trans (hothers u hu)⟩
  rw [show getWg S k = getWg A k from by unfold getWg; rw [hframe]]

theorem prepared_atomDone {s : State} {x : Thread} (hx : getT s x.tid = some x) (id : Nat) (f : TForm) (a : Nat) (r : Rmw) :
    Prepared s (atomDone (pin s id) x f a r) x := by
  refine Prepared.atomOrder ?_ f a _
  have hpinned := prepared_pin hx id
  unfold atomWritten
  split
  · exact hpinned
  · exact ⟨hpinned.intervals, rfl, rfl, rfl, hpinned.mine, fun _ _ => rfl⟩

/-- The end of an atomic without a result: it is counted, and its sources are taken. -/
theorem atomEnded_plain {S : State} {w : Workgroup} (hw : w.Plain) (x : Thread) {f : TForm} (hf : f.result = false) (pops : List Nat) (ea : Word) (words : List FillWord) :
    atomEnded S w x f pops ea words = (modT (modT S x.tid fun y => { y with atoms := y.atoms + 1 }) x.tid fun y =>
      { takeSources y f.src pops with numerr := y.numerr || false }, .retire []) := by
  unfold atomEnded noteAtom endAtom
  rw [hf, queueValue_single _ hw.single]
  simp only [Bool.false_eq_true, if_false]
  rw [touchRegs_off _ _ hw.rollback hw.redund]

/-- The end of an atomic with a result: one value more is on its way, the destination is PENDING, and the atomic is counted. -/
theorem atomEnded_sent {s S : State} {x : Thread} (h : Prepared s S x) (hx : getT s x.tid = some x) {w : Workgroup} (hw : w.Plain) {f : TForm} (hf : f.result = true)
    (pops : List Nat) (ea : Word) (ws : List W32) : atomEnded S w x f pops ea (ws.map fun v => ⟨v, false, []⟩) =
      ({ sentValue S (onItsWay s (s.ids + 1) x .global f.d ea ws) with
        threads := (modT (modT S x.tid fun y => pendDst (takeSources y f.src pops) f.d (AType.k f.ty)) x.tid fun y => { y with atoms := y.atoms + 1 }).threads }, .retire []) := by
  have hdeliver : deliver S w x.tid f.src pops f.d (AType.k f.ty) .global none ea (ws.map fun v => ⟨v, false, []⟩) false =
      { sentValue S (onItsWay s (s.ids + 1) x .global f.d ea ws) with threads := (modT S x.tid fun y => pendDst (takeSources y f.src pops) f.d (AType.k f.ty)).threads } :=
    deliver_prepared h hx hw f.src pops f.d (AType.k f.ty) .global ea ws none
  unfold atomEnded noteAtom endAtom
  rw [hf]
  simp only [Option.isSome_none, Bool.false_eq_true, if_false, if_true, hdeliver]
  rw [queueValue_single (n := _) _ hw.single]
  rfl

theorem oneAfter_counted {s : State} {l : List SrcSpec} {pops : List Nat} {x : Thread} {v : List (Nat × Nat)} :
    OneAfter s l pops .zero 0 (.wrote []) (fun y => { y with atoms := y.atoms + 1 }) x
      (advance s.cur s.now { takeSources { x with vc := v, atoms := x.atoms + 1 } l pops with numerr := x.numerr || false }) := by
  have hafter := oneAfter_plain (s := s) (l := l) (pops := pops) (d := .zero) (ws := []) (f := id) (x := { x with atoms := x.atoms + 1 }) (v := v) (aside_id _) rfl
  have hrest := takeKeeping_rest [] { x with vc := v, atoms := x.atoms + 1 } l pops
  rw [← takeSources_keeping] at hrest
  have hnum : { takeSources { x with vc := v, atoms := x.atoms + 1 } l pops with numerr := x.numerr || false } = takeSources { x with vc := v, atoms := x.atoms + 1 } l pops := by
    rw [Bool.or_false, hrest]
  rw [hnum]
  exact ⟨hafter.past, hafter.vRegs, hafter.oRegs, hafter.lr, hafter.q, hafter.rest⟩

/-- A lane that counts an atomic without a result completes. -/
theorem OneWord.lane_counted {a : OneWord} {s S : State} {x : Thread} {w : Workgroup} {v : List (Nat × Nat)} {out : Host.Outcome State Fault Refusal}
    {f : State → Workgroup → Thread → State × LaneRes} (h : Solo s a.pg x w) (ho : out = .next (perLane s a.pg f))
    (hE : a.effect s w x (readSrcs s w x a.srcs []).vals = S) (hd : a.d = .zero) (hk : a.kd = 0)
    (hend : a.ending s w x (readSrcs s w x a.srcs []).vals = .wrote []) (halso : a.also s w x (readSrcs s w x a.srcs []).vals = fun y => { y with atoms := y.atoms + 1 })
    (hf : f s w x = (modT (modT S x.tid fun y => { y with atoms := y.atoms + 1 }) x.tid fun y =>
      { takeSources y a.srcs (readSrcs s w x a.srcs []).pops with numerr := y.numerr || false }, .retire []))
    (hc : S.cur = s.cur) (hn : S.now = s.now) (hz : getT S x.tid = some { x with vc := v }) : ∃ t, out = .next t ∧ a.Done s t w x := by
  have htake : ∀ y : Thread, y.tid = x.tid → ({ takeSources y a.srcs (readSrcs s w x a.srcs []).pops with numerr := y.numerr || false } : Thread).tid = x.tid :=
    fun y hy => (same_takeSources y a.srcs _).1.trans hy
  have hcount : ∀ y : Thread, y.tid = x.tid → ({ y with atoms := y.atoms + 1 } : Thread).tid = x.tid := fun _ hy => hy
  refine OneWord.lane (E := S) (z := { takeSources { x with vc := v, atoms := x.atoms + 1 } a.srcs (readSrcs s w x a.srcs []).pops with numerr := x.numerr || false })
    h ho hE hf rfl ?_ hc hn ?_ ((same_takeSources _ a.srcs _).2.2.1.trans h.ready) (fun u hu => (getT_modT_ne htake hu).trans (getT_modT_ne hcount hu)) ?_
  · rw [hend, hd]
    rfl
  · rw [getT_modT htake, getT_modT hcount, hz]
    rfl
  · rw [hend, halso, hd, hk]
    exact oneAfter_counted

/-- A lane that counts an atomic and sends its result completes. -/
theorem OneWord.lane_counted_sent {a : OneWord} {s S : State} {x : Thread} {w : Workgroup} {l : OutLoad} {out : Host.Outcome State Fault Refusal}
    {f : State → Workgroup → Thread → State × LaneRes} (h : Solo s a.pg x w) (hprep : Prepared s S x) (ho : out = .next (perLane s a.pg f))
    (hE : a.effect s w x (readSrcs s w x a.srcs []).vals = sentValue S l) (hend : a.ending s w x (readSrcs s w x a.srcs []).vals = .pending)
    (halso : a.also s w x (readSrcs s w x a.srcs []).vals = fun y => { y with atoms := y.atoms + 1 })
    (hf : f s w x = ({ sentValue S l with threads := (modT (modT S x.tid fun y => pendDst (takeSources y a.srcs (readSrcs s w x a.srcs []).pops) a.d a.kd) x.tid fun y =>
      { y with atoms := y.atoms + 1 }).threads }, .retire [])) : ∃ t, out = .next t ∧ a.Done s t w x := by
  obtain ⟨v, hmine⟩ := hprep.mine
  have hpend : ∀ y : Thread, y.tid = x.tid → (pendDst (takeSources y a.srcs (readSrcs s w x a.srcs []).pops) a.d a.kd).tid = x.tid := fun y hy => (pend_tid y _ _ _ _).trans hy
  have hcount : ∀ y : Thread, y.tid = x.tid → ({ y with atoms := y.atoms + 1 } : Thread).tid = x.tid := fun _ hy => hy
  refine OneWord.lane (E := sentValue S l) (z := { pendDst (takeSources { x with vc := v } a.srcs (readSrcs s w x a.srcs []).pops) a.d a.kd with atoms := x.atoms + 1 })
    h ho hE hf rfl ?_ hprep.cur hprep.now ?_ (pend_ready { x with vc := v } _ _ _ _ h.ready) ?_ ?_
  · rw [hend]
  · refine (getT_frame (s := modT (modT S x.tid fun y => pendDst (takeSources y a.srcs (readSrcs s w x a.srcs []).pops) a.d a.kd) x.tid fun y =>
      { y with atoms := y.atoms + 1 }) rfl x.tid).trans ?_
    rw [getT_modT hcount, getT_modT hpend, hmine]
    have hatoms : (pendDst (takeSources { x with vc := v } a.srcs (readSrcs s w x a.srcs []).pops) a.d a.kd).atoms = x.atoms := by
      rw [pendDst_rest, takeSources_keeping, takeKeeping_rest]
    exact congrArg (fun n => some { pendDst (takeSources { x with vc := v } a.srcs (readSrcs s w x a.srcs []).pops) a.d a.kd with atoms := n + 1 }) hatoms
  · intro u hu
    exact (getT_frame (s := modT (modT S x.tid fun y => pendDst (takeSources y a.srcs (readSrcs s w x a.srcs []).pops) a.d a.kd) x.tid fun y =>
      { y with atoms := y.atoms + 1 }) rfl u).trans ((getT_modT_ne hcount hu).trans (getT_modT_ne hpend hu))
  · rw [hend, halso]
    exact oneAfter_also

/-- What an atomic leaves in its lane completes the word. -/
theorem atomWord_done {z : AtomSpec} {a : Nat} {log : State → Workgroup → Thread → Opv → Option LogOp} {s : State} {x : Thread} {w : Workgroup} {out : Host.Outcome State Fault Refusal}
    (hd : z.form.result = false → z.form.d = .zero)
    (hout : out = .next (perLane s z.pg fun s w t => atomLane s w t z.form z.rmw (log s w t))) (hsolo : Solo s (z.word a).pg x w) (so : (z.word a).Sound s w x) :
    ∃ t, out = .next t ∧ (z.word a).Done s t w x := by
  obtain ⟨opnd, clean, -, halign, hrel, lf, hplain⟩ := so
  have hlane := atomLane_plain z.rmw (log s w x) opnd clean halign hrel hplain
  have hprep := prepared_atomDone hsolo.thread w.id z.form a (z.rmw (readSrcs s w x z.form.src []).vals)
  obtain ⟨v, hmine⟩ := hprep.mine
  have hE : (z.word a).effect s w x (readSrcs s w x (z.word a).srcs []).vals =
      if z.form.result then sentValue (atomDone (pin s w.id) x z.form a (z.rmw (readSrcs s w x z.form.src []).vals))
        (onItsWay s (s.ids + 1) x .global z.form.d (atomEa z.form (readSrcs s w x z.form.src []).vals) (wordsOf (AType.k z.form.ty) (atomOld s z.form a)))
      else atomDone (pin s w.id) x z.form a (z.rmw (readSrcs s w x z.form.src []).vals) := rfl
  generalize atomDone (pin s w.id) x z.form a (z.rmw (readSrcs s w x z.form.src []).vals) = S at hlane hprep hmine hE
  cases hresult : z.form.result with
  | true =>
    rw [atomEnded_sent hprep hsolo.thread opnd.plain hresult] at hlane
    refine OneWord.lane_counted_sent hsolo hprep hout (hE.trans (if_pos hresult)) (if_pos hresult) rfl (hlane.trans ?_)
    rw [show (z.word a).kd = AType.k z.form.ty from if_pos hresult]
    rfl
  | false =>
    rw [atomEnded_plain opnd.plain x hresult] at hlane
    exact OneWord.lane_counted (v := v) hsolo hout (hE.trans (if_neg (by simp [hresult]))) (hd hresult) (if_neg (by simp [hresult])) (if_neg (by simp [hresult])) rfl hlane
      hprep.cur hprep.now hmine

theorem atom_done {o : TAtom} {a : Nat} {b : OneWord} {s : State} {x : Thread} {w : Workgroup} {out : Host.Outcome State Fault Refusal} (hout : out = execAtom o s)
    (hb : atomWord (.atom o) a = some b) (hsolo : Solo s b.pg x w) (so : b.Sound s w x) : ∃ t, out = .next t ∧ b.Done s t w x := by
  cases hb
  unfold execAtom at hout
  exact atomWord_done (z := ⟨o.pg, tForm o true, fun v => .op o.aop (opVal o.ty (opv v 1))⟩) (fun h => by cases h) hout hsolo so

theorem red_done {o : TAtom} {a : Nat} {b : OneWord} {s : State} {x : Thread} {w : Workgroup} {out : Host.Outcome State Fault Refusal} (hout : out = execRed o s)
    (hb : atomWord (.red o) a = some b) (hsolo : Solo s b.pg x w) (so : b.Sound s w x) : ∃ t, out = .next t ∧ b.Done s t w x := by
  cases hb
  unfold execRed at hout
  exact atomWord_done (z := ⟨o.pg, tForm o false, fun v => .op o.aop (opVal o.ty (opv v 1))⟩) (fun _ => rfl) hout hsolo so

theorem atomcas_done {o : TCas} {a : Nat} {b : OneWord} {s : State} {x : Thread} {w : Workgroup} {out : Host.Outcome State Fault Refusal} (hout : out = execAtomcas o s)
    (hb : atomWord (.atomcas o) a = some b) (hsolo : Solo s b.pg x w) (so : b.Sound s w x) : ∃ t, out = .next t ∧ b.Done s t w x := by
  cases hb
  unfold execAtomcas at hout
  exact atomWord_done (z := ⟨o.pg, ⟨[⟨o.base, 2, .int⟩, ⟨o.b, AType.k o.ty, atomKind o.ty⟩, ⟨o.c, AType.k o.ty, atomKind o.ty⟩], o.d, o.ty, o.scope, o.ord, true, 0⟩,
      fun v => .cas (opVal o.ty (opv v 1)) (opVal o.ty (opv v 2))⟩) (fun h => by cases h) hout hsolo so

theorem globalAtomics {i : Instr} {a : Nat} {b : OneWord} {s : State} {x : Thread} {w : Workgroup} (hb : atomWord i a = some b) (hsolo : Solo s b.pg x w)
    (so : b.Sound s w x) : ∃ t, exec i s = .next t ∧ b.Done s t w x := by
  cases i
  case atom => exact atom_done rfl hb hsolo so
  case red => exact red_done rfl hb hsolo so
  case atomcas => exact atomcas_done rfl hb hsolo so
  all_goals cases hb

/-! ## Atomics of the scratchpad -/

theorem AType.bytes_pos (ty : AType) : 0 < AType.bytes ty := by cases ty <;> decide

theorem AType.fits_block {a : Nat} (ty : AType) (h : a % AType.bytes ty = 0) : a % 64 + AType.bytes ty ≤ 64 := by
  cases ty <;> simp only [AType.bytes] at h ⊢ <;> omega

/-- What an aligned scalar of an unmarked block reads as. -/
theorem padRead_unmarked {g : Workgroup} {a n : Nat} (hn : 0 < n) (hfits : a % 64 + n ≤ 64) (h : g.padPoison.contains (a / 64) = false) :
    padRead g a n = (getCells a n g.pad, false) := by
  have hone : (a + n - 1) / 64 + 1 - a / 64 = 1 := by omega
  unfold padRead
  rw [hone]
  simp only [List.range_one, List.any_cons, List.any_nil, Nat.add_zero, h, Bool.or_false]

/-- The write of a scalar to the thread's own scratchpad, where the operation writes. -/
def padAtomWritten (s : State) (w : Workgroup) (op : AOp) (a : Nat) (bytes : List Byte) : State :=
  if op = .load then s else padWriteRange s w.id a bytes false true

theorem padAtomWritten_writes (s : State) (w : Workgroup) (op : AOp) (a : Nat) (bytes : List Byte) :
    padAtomWritten s w op a bytes = if (op != .load) = true then padWriteRange s w.id a bytes false true else s := by
  unfold padAtomWritten
  by_cases h : op = .load
  · rw [if_pos h, if_neg (by simp [h])]
  · rw [if_neg h, if_pos (by simpa using h)]

theorem map_false_any (l : List Byte) : ((l.map fun _ => false).any fun x => x) = false := by
  induction l with
  | nil => rfl
  | cons b l ih => exact ih

theorem prepared_padAtom {s : State} {x : Thread} {w : Workgroup} (hx : getT s x.tid = some x) (op : AOp) {a : Nat} {bytes : List Byte} (h : PadBytes s w a bytes.length)
    (h0 : 0 < bytes.length) (hfits : a % 64 + bytes.length ≤ 64) (hlt : bytes.length < 64) : Prepared s (padAtomWritten s w op a bytes) x := by
  unfold padAtomWritten
  split
  · exact ⟨fun _ => rfl, rfl, rfl, rfl, ⟨x.vc, hx⟩, fun _ _ => rfl⟩
  · have hsame := sameIntervals_padWriteRange s w.id a bytes false true
    obtain ⟨hframe, -⟩ := padStored h h0 hfits hlt false
    generalize padWriteRange s w.id a bytes false true = P at hsame hframe
    refine ⟨hsame, by rw [hframe], by rw [hframe], by rw [hframe], ⟨x.vc, by rw [hframe]; exact hx⟩, fun u _ => by rw [hframe]; rfl⟩

theorem chunkWritable_unbound {w : Workgroup} {a : Nat} (h : bindingAt w a = none) (s : State) (x : Thread) : chunkWritable s w x a = (s, none) := by
  unfold chunkWritable
  rw [h]

theorem atoms_done {o : TAtom} {s : State} {x : Thread} {w : Workgroup} {out : Host.Outcome State Fault Refusal} (hout : out = execAtoms o s)
    (hsolo : Solo s o.pg x w) (so : (atomsWord o).Sound s w x) : ∃ t, out = .next t ∧ (atomsWord o).Done s t w x := by
  obtain ⟨opnd, clean, -, hpad, hmark, hrel⟩ := so
  dsimp only [atomsWord] at opnd clean hpad hmark hrel
  generalize hvals : (readSrcs s w x [⟨o.base, 1, .int⟩, ⟨o.b, AType.k o.ty, atomKind o.ty⟩] []).vals = vals at hpad hmark
  have hfits := AType.fits_block o.ty hpad.aligned
  have hlen : ∀ n, (leBytes (AType.bytes o.ty) n).length = AType.bytes o.ty := leBytes_length _
  have hwait : (Ord.rel o.ord && releasePending s x.tid (clScope o.scope)) = false := by
    cases hr : Ord.rel o.ord
    · rfl
    · exact hrel hr
  have hread := padRead_unmarked (AType.bytes_pos o.ty) hfits hmark
  have hbounds : (decide (w.scratch < atomsEa o vals + AType.bytes o.ty) || unfilled w (atomsEa o vals)) = false := by
    have hinside := hpad.inside
    unfold unfilled
    rw [hpad.unbound, decide_eq_false (by omega)]
    rfl
  have halign := hpad.aligned
  have hwritable := chunkWritable_unbound hpad.unbound s x
  have hold : leNat (getCells (atomsEa o vals) (AType.bytes o.ty) w.pad) = padAtomOld w o (atomsEa o vals) := by unfold padAtomOld; rw [hread]
  have hprep := fun n f loc wrote => Prepared.atomOrder (prepared_padAtom hsolo.thread o.aop (bytes := leBytes (AType.bytes o.ty) n) ((hlen n).symm ▸ hpad)
    ((hlen n).symm ▸ AType.bytes_pos o.ty) ((hlen n).symm ▸ hfits) ((hlen n).symm ▸ by cases o.ty <;> decide)) f loc wrote
  unfold execAtoms at hout
  refine OneWord.lane_sent (l := onItsWay s (s.ids + 1) x .atoms o.d (BitVec.ofNat 64 (atomsEa o vals)) (wordsOf (AType.k o.ty) (padAtomOld w o (atomsEa o vals))))
    hsolo (hprep (atomNew o.ty o.aop (padAtomOld w o (atomsEa o vals)) (opVal o.ty (opv vals 1)))
    ⟨[⟨o.base, 1, .int⟩, ⟨o.b, AType.k o.ty, atomKind o.ty⟩], o.d, o.ty, clScope o.scope, o.ord, true, o.off8⟩ (padLoc w (atomsEa o vals)) (o.aop != .load)) hout ?_ rfl rfl ?_
  · rw [← hvals]
    rfl
  · refine (withSrcs_ok (l := [⟨o.base, 1, .int⟩, ⟨o.b, AType.k o.ty, atomKind o.ty⟩]) opnd.dual (poisonCauses_none clean [0]) opnd.causes opnd.full opnd.dst).trans ?_
    unfold atomsEa at *
    simp only [hvals, halign, hbounds, hwait, hwritable, hread, ite_self, scrPolicy_clean, ne_eq, not_true, if_false, Bool.false_eq_true]
    rw [map_false_any, hold, ← padAtomWritten_writes, tanWords_clean]
    exact congrArg (·, LaneRes.retire []) (deliver_prepared (hprep _ _ _ _) hsolo.thread opnd.plain _ _ _ _ _ _ _ none)

/-- Settles O31: on plain bytes an atomic is its change of the location, its orders, and the old value on its way. -/
theorem atomics : Obligations.Atomics :=
  ⟨fun _ _ _ _ _ _ hb hsolo so => globalAtomics hb hsolo so, fun _ _ _ _ hsolo so => atoms_done rfl hsolo so⟩

end Sys2Proof.Machine
end
section
/-! PROOFS of the barrier words (R356 to R360), of software traps and of the words that give the issue slot away. -/

namespace Sys2Proof.Machine

/-! ## Arrivals -/

theorem Solo.known {s : State} {pg : Guard} {x : Thread} {w : Workgroup} (h : Solo s pg x w) : getWg s w.id = some w := by
  have hid : w.id = x.wg := by
    have := List.find?_some h.group
    simpa using this
  rw [hid]
  exact h.group

/-- The machine after one arrival at a barrier that `b` would begin. -/
def arrivedAt (s : State) (w : Workgroup) (t : Tid) (b : BarInst) (val : Word) : State :=
  waitFor (modWg s w.id fun w => { w with bar := some (withArrival w.bar b t val) }) t .barrier

theorem arrive_agreed {a : BarSpec} {s : State} {x : Thread} {w : Workgroup} (hknown : getWg s w.id = some w) (so : a.Sound s w x)
    (hkind : (a.inst s (readSrcs s w x a.srcs []).pops).kind = a.kind) (val : Word) :
    arrive s w x (a.inst s (readSrcs s w x a.srcs []).pops) val = (arrivedAt s w x.tid (a.inst s (readSrcs s w x a.srcs []).pops) val, .gone) := by
  have hwait : (a.kind != .ckpt && releasePending s x.tid (barScope w a.kind)) = false := by
    cases hk : a.kind != .ckpt
    · rfl
    · exact so.released (by simpa using hk)
  unfold arrive
  rw [hknown]
  simp only [Option.getD_some, so.agrees, Bool.not_true, Bool.false_eq_true, if_false, hkind, hwait]
  rfl

theorem getT_waitFor {s : State} {t : Tid} {x : Thread} (h : getT s t = some x) (w : WaitFor) : getT (waitFor s t w) t =
    some { x with run := .waiting w, since := some (x.since.getD (tidClock s t)), retrying := retried x.retrying (tidClock s t) s.now w } := by
  unfold waitFor
  rw [getT_modT (f := fun x => { x with run := .waiting w, since := some (x.since.getD (tidClock s t)), retrying := retried x.retrying (tidClock s t) s.now w }) (fun _ h => h), h]
  rfl

/-- An arrival changes its workgroup's barrier and makes its thread wait; `f` is what else of the thread the arrival changes. -/
theorem arrivedAt_arrived {a : BarSpec} {s : State} {x : Thread} {w : Workgroup} (hknown : getWg s w.id = some w) (hx : getT s x.tid = some x) {f : Thread → Thread}
    (hf : ∀ y : Thread, f y = { y with vc := (f y).vc, tokens := (f y).tokens }) :
    Arrived a s (modT (arrivedAt s w x.tid (a.inst s (readSrcs s w x a.srcs []).pops) (a.val (readSrcs s w x a.srcs []).vals)) x.tid f) w x := by
  have htid : ∀ y : Thread, y.tid = x.tid → (f y).tid = x.tid := fun y hy => by rw [hf]; exact hy
  have hwg : ∀ k, getWg (modT (arrivedAt s w x.tid (a.inst s (readSrcs s w x a.srcs []).pops) (a.val (readSrcs s w x a.srcs []).vals)) x.tid f) k = (getWg s k).map fun g =>
      if k = w.id then { g with bar := some (withArrival g.bar (a.inst s (readSrcs s w x a.srcs []).pops) x.tid (a.val (readSrcs s w x a.srcs []).vals)) } else g :=
    fun k => getWg_modWg s w.id k _ fun _ => rfl
  refine ⟨rfl, ?_, fun k hk => ?_, ⟨?_, fun u hu => ?_⟩⟩
  · rw [hwg, hknown, Option.map_some, if_pos rfl]
  · rw [hwg]
    cases getWg s k with
    | none => rfl
    | some g => rw [Option.map_some, if_neg hk]
  · have hwaits := getT_waitFor (s := modWg s w.id fun g => { g with bar := some (withArrival g.bar (a.inst s (readSrcs s w x a.srcs []).pops) x.tid
      (a.val (readSrcs s w x a.srcs []).vals)) }) (t := x.tid) (x := x) hx .barrier
    generalize tidClock _ x.tid = clock at hwaits
    refine ⟨_, (getT_modT htid).trans (congrArg (Option.map f) hwaits), ?_⟩
    rw [hf]
  · exact (getT_modT_ne htid hu).trans (getT_modT_ne (fun _ h => h) hu)

/-- What follows once the thread has arrived: instances complete, or nothing does. -/
theorem arrived_settles {a : BarSpec} {s S : State} {w : Workgroup} {x : Thread} {out : Host.Outcome State Fault Refusal} (hout : out = .next (barAll S))
    (h : Arrived a s S w x) : ∃ S t, out = .next t ∧ Arrived a s S w x ∧ ((∀ g ∈ S.wgs, ∀ b, g.bar = some b → barFull S g b.kind = false) → t = S) ∧
      ∀ g b, BarReady S g b → Completed S t g b := by
  refine ⟨S, _, hout, h, barAll_open, fun g b hready => ?_⟩
  obtain ⟨vc, hvc⟩ := barAll_ready hready
  rw [hvc]
  exact barDepart_completed hready vc

/-- A barrier word without an operand. -/
def plainBar (pg : Guard) (k : BarKind) : BarSpec := { pg := pg, kind := k, inst := fun s _ => barInst s k }

theorem plainBar_completes {pg : Guard} {k : BarKind} {s : State} {x : Thread} {w : Workgroup} {out : Host.Outcome State Fault Refusal} (hout : out = .next (barWord s pg k))
    (hsolo : Solo s pg x w) (so : (plainBar pg k).Sound s w x) : ∃ S t, out = .next t ∧ Arrived (plainBar pg k) s S w x ∧
      ((∀ g ∈ S.wgs, ∀ b, g.bar = some b → barFull S g b.kind = false) → t = S) ∧ ∀ g b, BarReady S g b → Completed S t g b := by
  have opnd := so.operands
  have harrived := arrivedAt_arrived (a := plainBar pg k) hsolo.known hsolo.thread (f := id) fun _ => rfl
  rw [modT_id] at harrived
  refine arrived_settles ?_ harrived
  rw [hout]
  refine congrArg (fun S => Host.Outcome.next (barAll S)) (perLane_gone hsolo.alone hsolo.thread hsolo.ready hsolo.passes hsolo.group ?_)
  exact (withSrcs_ok (l := []) opnd.dual rfl opnd.causes opnd.full opnd.dst).trans (arrive_agreed hsolo.known so rfl _)

theorem joinTokens_rest (t : Thread) (l : List Nat) : joinTokens t l = { t with vc := (joinTokens t l).vc, tokens := (joinTokens t l).tokens } := by
  unfold joinTokens
  split <;> rfl

theorem barp_completes {o : A1} {op : RedOp} {rnd : Rnd} {u w64 : Bool} {a : BarSpec} {s : State} {x : Thread} {w : Workgroup} {out : Host.Outcome State Fault Refusal}
    (hout : out = execBarp o op rnd u w64 s) (ha : barSpec (.barp o op rnd u w64) = some a) (hsolo : Solo s a.pg x w) (so : a.Sound s w x) :
    ∃ S t, out = .next t ∧ Arrived a s S w x ∧ ((∀ g ∈ S.wgs, ∀ b, g.bar = some b → barFull S g b.kind = false) → t = S) ∧ ∀ g b, BarReady S g b → Completed S t g b := by
  cases ha
  have opnd := so.operands
  have harrive := arrive_agreed hsolo.known so rfl (BitVec.ofNat 64 ((opv (readSrcs s w x [⟨o.a, wWords w64, redKind op w64⟩] []).vals 0).nat w64))
  have hcompare : ∀ (S : State) (width : Nat) (val : Word), barpCompare S w x width val = (S, none) := fun S width val => by unfold barpCompare; rw [opnd.plain.single]
  unfold execBarp at hout
  refine arrived_settles ?_ (arrivedAt_arrived hsolo.known hsolo.thread (f := fun y => joinTokens y (namedTokens [⟨o.a, wWords w64, redKind op w64⟩])) fun y => joinTokens_rest y _)
  rw [hout]
  refine congrArg (fun S => Host.Outcome.next (barAll S)) (perLane_gone hsolo.alone hsolo.thread hsolo.ready hsolo.passes hsolo.group ?_)
  refine (withSrcs_ok (l := [⟨o.a, wWords w64, redKind op w64⟩]) opnd.dual (poisonCauses_none so.clean []) opnd.causes opnd.full opnd.dst).trans ?_
  dsimp only at harrive ⊢
  rw [harrive]
  simp only [hcompare]

/-- Settles O32: a word of a barrier is an arrival, and then what completes. -/
theorem barriers : Obligations.Barriers := by
  intro i a s x w ha hsolo so
  cases i
  case bar pg => cases ha; exact plainBar_completes (k := .bar) rfl hsolo so
  case gbar pg => cases ha; exact plainBar_completes (k := .gbar) rfl hsolo so
  case ckpt pg => cases ha; exact plainBar_completes (k := .ckpt) rfl hsolo so
  case barp => exact barp_completes rfl ha hsolo so
  all_goals cases ha

/-! ## Traps of one thread -/

theorem unreserve_congr {s t : State} (h : t.monitors = s.monitors) (u : Tid) : (unreserve t u).monitors = (unreserve s u).monitors := by
  unfold unreserve
  rw [h]
  split
  · rfl
  · exact h

/-- A lone lane that traps enters its handler. -/
theorem lane_traps {s S : State} {pg : Guard} {x : Thread} {w : Workgroup} {c : Cause} {f : State → Workgroup → Thread → State × LaneRes} (h : Solo s pg x w)
    (hfree : HandlerFree w x) (hc : c.eaten = false) (hf : f s w x = (S, .trap c)) (hS : S = s) : perLane s pg f =
      { s with threads := (perLane s pg f).threads, monitors := (unreserve s x.tid).monitors } ∧
      OneDone s (perLane s pg f) x fun y => y = inHandler s.now w.rcb.trapVec (trapSaved c (trapPc s.cur) s.cur.legacy (laneMask [x.tid]) x) x := by
  subst hS
  rw [perLane_trap hc h.alone h.thread h.ready h.passes h.group hf, deliverTraps_one]
  exact trapThread_enters h.thread h.ready h.group hfree

/-- A lone lane that retires its word and then traps enters its handler past the word. -/
theorem lane_traps_after {s : State} {pg : Guard} {x : Thread} {w : Workgroup} {c : Cause} {f : State → Workgroup → Thread → State × LaneRes} (h : Solo s pg x w)
    (hfree : HandlerFree w x) (hf : f s w x = (s, .after c)) : perLane s pg f =
      { s with threads := (perLane s pg f).threads, monitors := (unreserve s x.tid).monitors } ∧
      OneDone s (perLane s pg f) x fun y =>
        y = inHandler s.now w.rcb.trapVec (trapSaved c s.cur.next s.cur.legacy (laneMask [x.tid]) (advance s.cur s.now x)) (advance s.cur s.now x) := by
  obtain ⟨hthread, hothers⟩ := retire_ready h.thread h.ready
  have henters := trapThread_enters (s := retire s x.tid) (x := advance s.cur s.now x) (w := w) (c := c) (pc := s.cur.next) (m := laneMask [x.tid]) (b := s.cur.legacy)
    hthread rfl h.group hfree
  rw [perLane_after h.alone h.thread h.ready h.passes h.group hf, deliverTraps_one]
  obtain ⟨hframe, ⟨y, hy, hin⟩, hrest⟩ := henters
  refine ⟨hframe.trans ?_, ⟨y, hy, hin⟩, fun u hu => (hrest u hu).trans (hothers u hu)⟩
  rw [← unreserve_congr (s := s) (t := retire s x.tid) rfl x.tid]
  rfl

/-- Settles O34: the lane of a software trap retires and traps, that of a reserved word traps at it. -/
theorem softTraps : Obligations.SoftTraps := by
  refine ⟨fun i pg c s x w hcause hsolo hdual hfree => ?_, fun b legacy s x w hsolo hfree => ?_⟩
  · exact ⟨_, softWord hcause s, lane_traps_after hsolo hfree (controlWord_nil hdual rfl (.inr ⟨c, rfl⟩))⟩
  · have hcur : Solo { s with cur := { s.cur with legacy := legacy } } (if legacy then guardOf (b.extractLsb' 47 4) else pgOf b) x w :=
      ⟨hsolo.alone, hsolo.thread, hsolo.ready, hsolo.group, hsolo.passes⟩
    obtain ⟨hframe, hdone⟩ := lane_traps hcur (c := { code := 0x00 }) (f := fun s _ _ => (s, .trap { code := 0x00 })) hfree rfl rfl rfl
    refine ⟨_, rfl, ?_, hdone.mine, hdone.others⟩
    rw [← unreserve_congr (s := s) (t := { s with cur := { s.cur with legacy := legacy } }) rfl x.tid]
    exact hframe

/-! ## The issue slot, and DPFX -/

theorem yield_done {pg : Guard} {s : State} {x : Thread} {w : Workgroup} {out : Host.Outcome State Fault Refusal} (hout : out = execYield pg s) (hsolo : Solo s pg x w)
    (hdual : dualCause s w = []) : ∃ t, out = .next t ∧ t = { s with threads := t.threads, cores := (yieldAt s x.tid.core s.cur.next x.depth).cores } ∧
      OneDone s t x fun y => y = advance s.cur s.now x := by
  obtain ⟨hmine, hothers⟩ := retire_ready hsolo.thread hsolo.ready
  unfold execYield at hout
  rw [hsolo.active, hsolo.retire (withSrcs_ok hdual rfl rfl rfl rfl)] at hout
  exact ⟨_, hout, rfl, ⟨_, hmine, rfl⟩, hothers⟩

theorem dpfx_done (mask : BitVec 4) (s : State) : ∃ t, execDpfx mask s = .next t ∧
    (curLast s.cur = false → nextIsDpfx s.cur = false → t = { s with cur := { s.cur with dual := some mask, dualPc := s.cur.pc } }) ∧
    (curLast s.cur = true ∨ nextIsDpfx s.cur = true → ∀ x w, Solo s { p := 7, neg := false } x w → HandlerFree w x →
      t = { s with threads := t.threads, monitors := (unreserve s x.tid).monitors } ∧
      OneDone s t x fun y => y = inHandler s.now w.rcb.trapVec (trapSaved { code := 0x0B } s.cur.pc s.cur.legacy (laneMask [x.tid]) x) x) := by
  refine ⟨_, rfl, fun hlast hnext => ?_, fun hbad x w hsolo hfree => ?_⟩
  · rw [hlast, hnext, if_neg (by simp)]
  · rw [if_pos (by simpa using hbad), hsolo.alone, List.map_cons, List.map_nil, deliverTraps_one]
    exact trapThread_enters hsolo.thread hsolo.ready hsolo.group hfree

/-- Settles O35: YIELD retires and marks its entry, DPFX marks the next word or traps. -/
theorem yieldAndPrefix : Obligations.YieldAndPrefix :=
  ⟨fun _ _ _ _ hsolo hdual => yield_done rfl hsolo hdual, dpfx_done⟩

end Sys2Proof.Machine
end
section
/-! PROOFS of what stops a lane before its word: the states of its registers (R166), addresses (R106, R335) and levels (R412, R415 to R423). -/

namespace Sys2Proof.Machine

/-! ## The lowest cause -/

theorem minBy_mem {α : Type} {f : α → Nat} {l : List α} {y : α} (h : minBy f l = some y) : y ∈ l := by
  induction l generalizing y with
  | nil => cases h
  | cons x l ih =>
    unfold minBy at h
    split at h
    next => cases h; exact List.mem_cons_self
    next z hz =>
      split at h
      · cases h; exact List.mem_cons_self
      · cases h; exact List.mem_cons_of_mem _ (ih hz)

/-- The cause of least code, where no other cause has that code. -/
theorem lowest_eq {l : List Cause} {c : Cause} (hmem : c ∈ l) (hmin : ∀ e ∈ l, e = c ∨ c.code < e.code) : lowest l = some c := by
  unfold lowest
  induction l with
  | nil => cases hmem
  | cons x l ih =>
    have hmin' : ∀ e ∈ l, e = c ∨ c.code < e.code := fun e he => hmin e (List.mem_cons_of_mem _ he)
    unfold minBy
    by_cases hc : c ∈ l
    · rw [ih hc hmin']
      dsimp only
      obtain rfl | hx := hmin x List.mem_cons_self
      · rw [if_pos (Nat.le_refl _)]
      · rw [if_neg (by omega)]
    · obtain rfl : c = x := (List.mem_cons.mp hmem).resolve_right hc
      cases hl : minBy (fun c => c.code) l with
      | none => rfl
      | some y =>
        have hy : y ∈ l := minBy_mem hl
        dsimp only
        rw [if_pos]
        obtain rfl | hlt := hmin' y hy
        · exact Nat.le_refl _
        · exact Nat.le_of_lt hlt

/-! ## Registers by state -/

theorem readSrc_names {w : Workgroup} {src : Src} {isO : Bool} {n k : Nat} (h : Names w src.op isO n k) (s : State) (x : Thread) (pops : List Nat) (kind : OpK) :
    readSrc s w x pops src k kind = readRegs (regRun isO x n k) src.e w.shadows := by
  obtain ⟨m, hop, rfl, rfl, hwindow⟩ | ⟨m, hop, rfl, rfl⟩ := h
  · have hin : ((List.range k).map (m.toNat + ·)).any (fun i => decide (w.vregs ≤ i)) = false := by
      simp only [List.any_map, List.any_eq_false, List.mem_range, Function.comp_apply, decide_eq_true_eq]
      omega
    unfold readSrc regRun
    simp only [hop, hin, Bool.false_eq_true, if_false, List.map_map]
    rfl
  · unfold readSrc regRun
    simp only [hop, if_true]

theorem readSrcs_names {w : Workgroup} {src : Src} {isO : Bool} {n k : Nat} (h : Names w src.op isO n k) (s : State) (x : Thread) (kind : OpK) :
    (readSrcs s w x [⟨src, k, kind⟩] []).vals = [(readRegs (regRun isO x n k) src.e w.shadows).val] ∧
    (readSrcs s w x [⟨src, k, kind⟩] []).causes = (readRegs (regRun isO x n k) src.e w.shadows).causes ∧
    (readSrcs s w x [⟨src, k, kind⟩] []).wait = (readRegs (regRun isO x n k) src.e w.shadows).wait := by
  unfold readSrcs
  dsimp only
  rw [readSrc_names h]
  exact ⟨rfl, List.append_nil _, Bool.or_false _⟩

/-- What a register raises when it is read. -/
def regCauses (e : Bool) (r : Reg) : List Cause :=
  match r.st with
  | .pending => if e then [{ code := 0x10 }] else []
  | .dead => [{ code := 0x11 }]
  | _ => []

theorem readRegs_causes (l : List Reg) (e : Bool) (comps : Nat) : (readRegs l e comps).causes = l.flatMap (regCauses e) := rfl

theorem readRegs_full {l : List Reg} (h : ∀ r ∈ l, r.st = .full) (e : Bool) (comps : Nat) :
    (readRegs l e comps).causes = [] ∧ (readRegs l e comps).wait = false ∧ (readRegs l e comps).val.poison = false := by
  refine ⟨?_, ?_, ?_⟩
  · rw [readRegs_causes, List.flatMap_eq_nil_iff]
    intro r hr
    unfold regCauses
    rw [h r hr]
  · have hnone : (l.any fun r => r.st == .pending) = false := List.any_eq_false.mpr fun r hr => by rw [h r hr]; decide
    unfold readRegs
    rw [hnone, Bool.and_false]
  · unfold readRegs Opv.poison
    refine List.any_eq_false.mpr fun b hb => ?_
    obtain ⟨r, hr, rfl⟩ := List.mem_map.mp hb
    rw [h r hr]
    decide

theorem readRegs_pending {l : List Reg} (h : SomeIn l .pending) (hdead : ¬ SomeIn l .dead) (comps : Nat) :
    (readRegs l false comps).causes = [] ∧ (readRegs l false comps).wait = true := by
  refine ⟨?_, ?_⟩
  · rw [readRegs_causes, List.flatMap_eq_nil_iff]
    intro r hr
    have hst : r.st ≠ .dead := fun hd => hdead ⟨r, hr, hd⟩
    unfold regCauses
    cases hr' : r.st with
    | dead => exact absurd hr' hst
    | pending => rfl
    | full => rfl
    | poison => rfl
  · obtain ⟨r, hr, hst⟩ := h
    have hsome : (l.any fun r => r.st == .pending) = true := List.any_eq_true.mpr ⟨r, hr, by rw [hst]; decide⟩
    unfold readRegs
    rw [hsome]
    rfl

theorem mem_regCauses {l : List Reg} {e : Bool} {c : Cause} : c ∈ l.flatMap (regCauses e) ↔
    (SomeIn l .pending ∧ e = true ∧ c = { code := 0x10 }) ∨ (SomeIn l .dead ∧ c = { code := 0x11 }) := by
  rw [List.mem_flatMap]
  constructor
  · rintro ⟨r, hr, hc⟩
    unfold regCauses at hc
    split at hc
    next hst =>
      split at hc
      next he => exact .inl ⟨⟨r, hr, hst⟩, he, List.mem_singleton.mp hc⟩
      next => cases hc
    next hst => exact .inr ⟨⟨r, hr, hst⟩, List.mem_singleton.mp hc⟩
    next => cases hc
  · rintro (⟨⟨r, hr, hst⟩, he, rfl⟩ | ⟨⟨r, hr, hst⟩, rfl⟩)
    · exact ⟨r, hr, by unfold regCauses; rw [hst, he]; exact List.mem_singleton_self _⟩
    · exact ⟨r, hr, by unfold regCauses; rw [hst]; exact List.mem_singleton_self _⟩

theorem lowest_regEmpty {l : List Reg} (h : SomeIn l .pending) : lowest (l.flatMap (regCauses true)) = some { code := 0x10 } := by
  refine lowest_eq (mem_regCauses.mpr (.inl ⟨h, rfl, rfl⟩)) fun e he => ?_
  obtain ⟨-, -, rfl⟩ | ⟨-, rfl⟩ := mem_regCauses.mp he
  · exact .inl rfl
  · exact .inr (by decide)

theorem lowest_regDead {l : List Reg} {e : Bool} (h : SomeIn l .dead) (hn : ¬ (SomeIn l .pending ∧ e = true)) : lowest (l.flatMap (regCauses e)) = some { code := 0x11 } := by
  refine lowest_eq (mem_regCauses.mpr (.inr ⟨h, rfl⟩)) fun c hc => ?_
  obtain ⟨hp, he, -⟩ | ⟨-, rfl⟩ := mem_regCauses.mp hc
  · exact absurd ⟨hp, he⟩ hn
  · exact .inl rfl

/-! ## MOV by the states of its source -/

/-- A lane with causes of its operands alone, or none, before its word's own action. -/
theorem withSrcs_stopped {s : State} {w : Workgroup} {x : Thread} {l : List SrcSpec} {d : Dst} {kd : Nat} (go : List Opv → List Nat → State × LaneRes)
    (hdual : dualCause s w = []) (hd : (dstCheck w x d kd).1 = []) : withSrcs s w x l d kd noCauses go =
      match lowest (readSrcs s w x l []).causes with
      | some c => (s, .trap c)
      | none => if (readSrcs s w x l []).wait || (dstCheck w x d kd).2 then (s, .wait .reg) else go (readSrcs s w x l []).vals (readSrcs s w x l []).pops := by
  unfold withSrcs
  generalize dstCheck w x d kd = checked at hd
  obtain ⟨dc, dw⟩ := checked
  obtain rfl : dc = [] := hd
  simp only [hdual, noCauses, List.nil_append, List.append_nil] <;> rfl

theorem waitFor_waits {s : State} {x : Thread} (h : getT s x.tid = some x) (f : WaitFor) :
    waitFor s x.tid f = { s with threads := (waitFor s x.tid f).threads } ∧ OneDone s (waitFor s x.tid f) x (Waits s f x) :=
  ⟨rfl, ⟨_, getT_waitFor h f, rfl⟩, fun _ hu => getT_modT_ne (fun _ h => h) hu⟩

/-- A lone lane that waits at its word. -/
theorem lane_waits {s : State} {pg : Guard} {x : Thread} {w : Workgroup} {z : WaitFor} {out : Host.Outcome State Fault Refusal}
    {f : State → Workgroup → Thread → State × LaneRes} (hsolo : Solo s pg x w) (hout : out = .next (perLane s pg f)) (hf : f s w x = (s, .wait z)) :
    ∃ t, out = .next t ∧ t = { s with threads := t.threads } ∧ OneDone s t x (Waits s z x) :=
  ⟨_, hout.trans (congrArg Host.Outcome.next (perLane_wait hsolo.alone hsolo.thread hsolo.ready hsolo.passes hsolo.group hf)), waitFor_waits hsolo.thread z⟩

/-- A lone lane that traps at its word. -/
theorem lane_trapped {s : State} {pg : Guard} {x : Thread} {w : Workgroup} {c : Cause} {out : Host.Outcome State Fault Refusal}
    {f : State → Workgroup → Thread → State × LaneRes} (hsolo : Solo s pg x w) (hfree : HandlerFree w x) (hout : out = .next (perLane s pg f)) (hc : c.eaten = false)
    (hf : f s w x = (s, .trap c)) : ∃ t, out = .next t ∧ Trapped s t x w c :=
  ⟨_, hout, lane_traps hsolo hfree hc hf rfl⟩

theorem mov_waits {o : A1} {w64 : Bool} {s : State} {x : Thread} {w : Workgroup} {out : Host.Outcome State Fault Refusal} (hout : out = execMov o w64 s)
    (hsolo : Solo s o.pg x w) (hdual : dualCause s w = []) (hdst : (dstCheck w x o.d (wWords w64)).1 = [])
    (hcauses : (readSrcs s w x [intSrc w64 o.a] []).causes = []) (hwait : (readSrcs s w x [intSrc w64 o.a] []).wait = true) :
    ∃ t, out = .next t ∧ t = { s with threads := t.threads } ∧ OneDone s t x (Waits s .reg x) := by
  unfold execMov aluProp at hout
  refine lane_waits hsolo hout ((withSrcs_stopped _ hdual hdst).trans ?_)
  rw [hcauses, hwait]
  rfl

theorem mov_traps {o : A1} {w64 : Bool} {c : Cause} {s : State} {x : Thread} {w : Workgroup} {out : Host.Outcome State Fault Refusal} (hout : out = execMov o w64 s)
    (hsolo : Solo s o.pg x w) (hfree : HandlerFree w x) (hdual : dualCause s w = []) (hdst : (dstCheck w x o.d (wWords w64)).1 = [])
    (hcauses : lowest (readSrcs s w x [intSrc w64 o.a] []).causes = some c) (hc : c.eaten = false) : ∃ t, out = .next t ∧ Trapped s t x w c := by
  unfold execMov aluProp at hout
  refine lane_trapped hsolo hfree hout hc ((withSrcs_stopped _ hdual hdst).trans ?_)
  rw [hcauses]

/-- Settles O57: MOV's one source reads its run of registers by their states. -/
theorem sourceStates : Obligations.SourceStates := by
  intro o w64 s x w isO n hsolo hfree hdual hdst hnames
  obtain ⟨hvals, hcauses, hwait⟩ := readSrcs_names hnames s x .int
  refine ⟨fun hfull => ?_, fun hpending hdead he => ?_, fun hpending he => ?_, fun hdead hn => ?_⟩
  · obtain ⟨hc, hw, hp⟩ := readRegs_full hfull o.a.e w.shadows
    refine ⟨hcauses.trans hc, hwait.trans hw, ?_, _, hvals, rfl⟩
    show (readSrcs s w x [intSrc w64 o.a] []).vals.any (·.poison) = false
    rw [show (readSrcs s w x [intSrc w64 o.a] []).vals = _ from hvals, List.any_cons, hp]
    rfl
  · obtain ⟨hc, hw⟩ := readRegs_pending hpending hdead w.shadows
    rw [he] at hcauses hwait
    exact mov_waits rfl hsolo hdual hdst (hcauses.trans hc) (hwait.trans hw)
  · rw [he] at hcauses
    exact mov_traps rfl hsolo hfree hdual hdst ((congrArg lowest hcauses).trans (lowest_regEmpty hpending)) rfl
  · exact mov_traps rfl hsolo hfree hdual hdst ((congrArg lowest hcauses).trans (lowest_regDead hdead hn)) rfl

/-! ## Addresses -/

theorem accXlate_high {va : Word} (h : 2 ^ 57 ≤ va.toNat) (s : State) (w : Workgroup) (x : Thread) (r wr : Bool) :
    accXlate s w x va r wr false = (s, .stop (.trap { code := 0x42, addr := va })) := by
  unfold accXlate translate
  rw [if_pos h]

theorem load_misaligned {m : MLoad} {s : State} {x : Thread} {w : Workgroup} (so : Sound s w x (loadSrcs m) m.d m.w.k) (clean : Clean s w x (loadSrcs m))
    (h : (loadEa m s w x).toNat % MWidth.bytes m.w ≠ 0) : loadLane s w x m = (s, .trap { code := 0x30, addr := loadEa m s w x }) := by
  unfold loadLane
  exact (withSrcs_ok so.dual (addrPoison_clean clean) so.causes so.full so.dst).trans (if_pos h)

theorem load_denied {m : MLoad} {s : State} {x : Thread} {w : Workgroup} (so : Sound s w x (loadSrcs m) m.d m.w.k) (clean : Clean s w x (loadSrcs m))
    (halign : (loadEa m s w x).toNat % MWidth.bytes m.w = 0) (hhigh : 2 ^ 57 ≤ (loadEa m s w x).toNat) (hlog : logged s x.tid (loadEa m s w x) = false) :
    loadLane s w x m = (s, .trap { code := 0x42, addr := loadEa m s w x }) := by
  have drone : (w.role == .drone) = false := by rw [so.plain.single]; rfl
  have hxlate := accXlate_high hhigh s w x true false
  unfold loadLane
  refine (withSrcs_ok so.dual (addrPoison_clean clean) so.causes so.full so.dst).trans ?_
  unfold loadEa loadSrcs at *
  simp only [halign, drone, valuesFull_single s so.plain.single, hlog, hxlate, ne_eq, not_true, if_false, Bool.or_self, Bool.false_eq_true]

theorem store_misaligned {m : MStore} {s : State} {x : Thread} {w : Workgroup} (so : Sound s w x (gstoreSrcs m) .zero 0)
    (hbase : (opv (readSrcs s w x (gstoreSrcs m) []).vals 0).poison = false) (h : (storeEa m s w x).toNat % MWidth.bytes m.w ≠ 0) :
    storeLane s w x m = (s, .trap { code := 0x30, addr := storeEa m s w x }) := by
  unfold storeLane
  exact (withSrcs_ok so.dual (addrPoison_base hbase) so.causes so.full so.dst).trans (if_pos h)

theorem store_denied {m : MStore} {s : State} {x : Thread} {w : Workgroup} (so : Sound s w x (gstoreSrcs m) .zero 0)
    (hbase : (opv (readSrcs s w x (gstoreSrcs m) []).vals 0).poison = false) (halign : (storeEa m s w x).toNat % MWidth.bytes m.w = 0)
    (hhigh : 2 ^ 57 ≤ (storeEa m s w x).toNat) (hrel : Ord.rel m.ord = true → releasePending s x.tid m.scope = false) :
    storeLane s w x m = (s, .trap { code := 0x42, addr := storeEa m s w x }) := by
  have drone : (w.role == .drone) = false := by rw [so.plain.single]; rfl
  have hxlate := accXlate_high hhigh s w x false true
  have hwait : (Ord.rel m.ord && releasePending s x.tid m.scope) = false := by
    cases hr : Ord.rel m.ord
    · rfl
    · exact hrel hr
  unfold storeLane
  refine (withSrcs_ok so.dual (addrPoison_base hbase) so.causes so.full so.dst).trans ?_
  unfold storeEa gstoreSrcs at *
  simp only [halign, drone, hwait, hxlate, ne_eq, not_true, if_false, Bool.false_eq_true]

/-- Settles O58: the lane traps before it reaches memory. -/
theorem addressTraps : Obligations.AddressTraps := by
  refine ⟨fun m s x w hsolo hfree so clean => ⟨fun h => ?_, fun halign hhigh hlog => ?_⟩, fun m s x w hsolo hfree so hbase => ⟨fun h => ?_, fun halign hhigh hrel => ?_⟩⟩
  · exact lane_trapped hsolo hfree rfl rfl (load_misaligned so clean h)
  · exact lane_trapped hsolo hfree rfl rfl (load_denied so clean halign hhigh hlog)
  · exact lane_trapped hsolo hfree rfl rfl (store_misaligned so hbase h)
  · exact lane_trapped hsolo hfree rfl rfl (store_denied so hbase halign hhigh hrel)

/-! ## Levels -/

theorem mem_poisonCauses {ad : List Nat} {vals : List Opv} {c : Cause} (h : c ∈ poisonCauses ad vals) : 0x12 ≤ c.code := by
  unfold poisonCauses at h
  split at h
  · obtain rfl := List.mem_singleton.mp h
    exact Nat.le_refl _
  · split at h
    · obtain rfl := List.mem_singleton.mp h
      decide
    · cases h

/-- A lone lane that traps among the lanes of a word that acts once. -/
theorem trapAll_one (s : State) (t : Tid) {c : Cause} (hc : c.eaten = false) : trapAll s [t] [(t, c)] [] = trapThread s t c (trapPc s.cur) s.cur.legacy (laneMask [t]) := by
  unfold trapAll settleTraps
  have hfree : ((getT s t).any fun _ => false) = false := by cases getT s t <;> rfl
  simp only [List.append_nil, List.map_cons, List.map_nil, List.contains_cons, beq_self_eq_true, Bool.true_or, Bool.not_true, List.filter_cons, Bool.false_eq_true, if_false,
    List.filter_nil, List.foldl_nil, hc, List.filterMap_nil, List.eraseDups_nil, List.contains_nil, hfree, Bool.not_false, if_true]
  exact deliverTraps_one s _ _ t c

/-- A word that acts once, below the level that it needs. -/
theorem group_trapped {s : State} {pg : Guard} {x : Thread} {w : Workgroup} {c : Cause} {rest : List Cause} {extra : Thread → List Cause} {l : List SrcSpec} {d : Dst} {kd : Nat}
    {ad : List Nat} {act : State → Workgroup → Thread → List Opv → List Tid → State × GroupRes} {out : Host.Outcome State Fault Refusal} (hsolo : Solo s pg x w)
    (hfree : HandlerFree w x) (so : Sound s w x l d kd) (hout : out = .next (perGroupWith s pg extra l d kd ad act)) (hextra : extra x = c :: rest)
    (hrest : ∀ e ∈ rest, c.code < e.code) (hcode : c.code < 0x12) (hc : c.eaten = false) : ∃ t, out = .next t ∧ Trapped s t x w c := by
  have hlowest : lowest (c :: (rest ++ poisonCauses ad (readSrcs s w x l []).vals)) = some c := by
    refine lowest_eq List.mem_cons_self fun e he => ?_
    obtain rfl | he := List.mem_cons.mp he
    · exact .inl rfl
    · refine .inr ?_
      obtain he | he := List.mem_append.mp he
      · exact hrest e he
      · exact Nat.lt_of_lt_of_le hcode (mem_poisonCauses he)
  have htrap : perGroupWith s pg extra l d kd ad act = trapThread s x.tid c (trapPc s.cur) s.cur.legacy (laneMask [x.tid]) := by
    unfold perGroupWith
    rw [hsolo.active, hsolo.idle]
    simp only [List.head?_cons, List.map_cons, List.map_nil, List.filterMap_cons, List.filterMap_nil, so.dual, hextra, so.causes, so.dst, List.nil_append, List.append_nil,
      List.isEmpty_cons, Bool.false_eq_true, if_false, List.cons_append, hlowest, Option.map_some, Bool.not_false, if_true]
    exact trapAll_one s x.tid hc
  refine ⟨_, hout, ?_⟩
  rw [htrap]
  exact trapThread_enters hsolo.thread hsolo.ready hsolo.group hfree

theorem privCause_below {n : Nat} {x : Thread} (h : x.pl < n) : privCause n x = [{ code := 0x05 }] := if_pos h

theorem srPriv_below {n : Nat} {x : Thread} (h : x.pl < srNeed n) : srPriv n x = [{ code := 0x05 }] := by
  unfold srNeed at h
  split at h
  next hn => exact if_pos ⟨hn.1, hn.2, by omega⟩
  next => omega

/-- A lane whose first cause is the least. -/
theorem withSrcs_trapped {s : State} {w : Workgroup} {x : Thread} {l : List SrcSpec} {d : Dst} {kd : Nat} {extra : List Opv → List Cause}
    (go : List Opv → List Nat → State × LaneRes) {c : Cause} {rest : List Cause} (so : Sound s w x l d kd) (hextra : extra (readSrcs s w x l []).vals = c :: rest)
    (hrest : ∀ e ∈ rest, c.code < e.code) : withSrcs s w x l d kd extra go = (s, .trap c) := by
  have hlowest : lowest (c :: rest) = some c := by
    refine lowest_eq List.mem_cons_self fun e he => ?_
    obtain rfl | he := List.mem_cons.mp he
    · exact .inl rfl
    · exact .inr (hrest e he)
  unfold withSrcs
  simp only [so.dual, hextra, so.causes, so.dst, List.nil_append, List.append_nil, hlowest]

theorem getsr_denied {pg : Guard} {d : Dst} {n : BitVec 8} {a : OneWord} {s : State} {x : Thread} {w : Workgroup} {out : Host.Outcome State Fault Refusal}
    (hout : out = execGetsr pg d n s) (ha : stateWord (.getsr pg d n) = some a) (hlow : x.pl < a.need) (hsolo : Solo s a.pg x w) (hfree : HandlerFree w x)
    (so : Sound s w x a.srcs a.d a.kd) : ∃ t, out = .next t ∧ Trapped s t x w { code := 0x05 } := by
  cases ha
  unfold execGetsr at hout
  refine lane_trapped hsolo hfree hout rfl (withSrcs_trapped (rest := if (srRead s w x n.toNat).isNone then [{ code := 0xB3 }] else []) _ so ?_ fun e he => ?_)
  · rw [srPriv_below hlow]
    rfl
  · split at he
    · rw [List.mem_singleton.mp he]
      decide
    · cases he

theorem setsr_denied {pg : Guard} {n : BitVec 8} {p : Src} {a : OneWord} {s : State} {x : Thread} {w : Workgroup} {out : Host.Outcome State Fault Refusal}
    (hout : out = execSetsr pg n p s) (ha : stateWord (.setsr pg n p) = some a) (hlow : x.pl < a.need) (hsolo : Solo s a.pg x w) (hfree : HandlerFree w x)
    (so : Sound s w x a.srcs a.d a.kd) : ∃ t, out = .next t ∧ Trapped s t x w { code := 0x05 } := by
  cases ha
  unfold execSetsr at hout
  refine lane_trapped hsolo hfree hout rfl (withSrcs_trapped (rest := (if srWritable n.toNat then [] else [{ code := 0xB3 }]) ++
    poisonCauses [] (readSrcs s w x [⟨p, k64 (sr64 n), .int⟩] []).vals) _ so ?_ fun e he => ?_)
  · rw [srPriv_below hlow]
    rfl
  · obtain he | he := List.mem_append.mp he
    · split at he
      · cases he
      · rw [List.mem_singleton.mp he]
        decide
    · exact Nat.lt_of_lt_of_le (by decide) (mem_poisonCauses he)

theorem stateWord_denied {i : Instr} {a : OneWord} {s : State} {x : Thread} {w : Workgroup} (ha : stateWord i = some a) (hlow : x.pl < a.need) (hsolo : Solo s a.pg x w)
    (hfree : HandlerFree w x) (so : Sound s w x a.srcs a.d a.kd) : ∃ t, exec i s = .next t ∧ Trapped s t x w { code := 0x05 } := by
  cases i
  case getsr => exact getsr_denied rfl ha hlow hsolo hfree so
  case setsr => exact setsr_denied rfl ha hlow hsolo hfree so
  all_goals cases ha <;> exact absurd hlow (Nat.not_lt_zero _)

theorem moncall_denied {o : A2} {svc : BitVec 8} {a : OneWord} {s : State} {x : Thread} {w : Workgroup} {out : Host.Outcome State Fault Refusal}
    (hout : out = execMoncall o svc s) (ha : rootWord (.moncall o svc) = some a) (hlow : x.pl < a.need) (hsolo : Solo s a.pg x w) (hfree : HandlerFree w x)
    (so : Sound s w x a.srcs a.d a.kd) : ∃ t, out = .next t ∧ Trapped s t x w { code := 0x05 } := by
  cases ha
  unfold execMoncall serviceWord at hout
  refine group_trapped (rest := if monServices.contains svc.toNat then [] else [{ code := 0xB2 }]) hsolo hfree so hout ?_ (fun e he => ?_) (by decide) rfl
  · have hpriv : privCause (if 0x10 ≤ svc.toNat then 2 else 1) x = [{ code := 0x05 }] := privCause_below hlow
    rw [hpriv]
    rfl
  · split at he
    · cases he
    · rw [List.mem_singleton.mp he]
      decide

theorem rootWord_denied {i : Instr} {a : OneWord} {s : State} {x : Thread} {w : Workgroup} (ha : rootWord i = some a) (hlow : x.pl < a.need) (hsolo : Solo s a.pg x w)
    (hfree : HandlerFree w x) (so : Sound s w x a.srcs a.d a.kd) : ∃ t, exec i s = .next t ∧ Trapped s t x w { code := 0x05 } := by
  have hnone : ∀ e ∈ ([] : List Cause), 0x05 < e.code := fun e he => by cases he
  cases i
  case fwcall => cases ha; exact absurd hlow (Nat.not_lt_zero _)
  case finj => cases ha; exact absurd hlow (Nat.not_lt_zero _)
  case moncall => exact moncall_denied rfl ha hlow hsolo hfree so
  case icinv pg range =>
    rcases range with _ | ⟨base, len⟩ <;> cases ha <;> exact group_trapped hsolo hfree so rfl (privCause_below hlow) hnone (by decide) rfl
  case tlbinv => cases ha; exact group_trapped hsolo hfree so rfl (privCause_below hlow) hnone (by decide) rfl
  case fcxl => cases ha; exact group_trapped hsolo hfree so rfl (privCause_below hlow) hnone (by decide) rfl
  case halt => cases ha; exact group_trapped hsolo hfree so rfl (privCause_below hlow) hnone (by decide) rfl
  case cctl pg d p q =>
    rcases d with _ | d <;> cases ha <;> exact group_trapped hsolo hfree so rfl (privCause_below hlow) hnone (by decide) rfl
  all_goals cases ha

theorem eret_denied {pg : Guard} {s : State} {x : Thread} {w : Workgroup} {out : Host.Outcome State Fault Refusal} (hout : out = execEret pg s) (hlow : x.pl < 1)
    (hsolo : Solo s pg x w) (hfree : HandlerFree w x) (hdual : dualCause s w = []) : ∃ t, out = .next t ∧ Trapped s t x w { code := 0x05 } := by
  have hinh : x.trap.inh = false := hfree.2.1
  unfold execEret at hout
  refine lane_trapped hsolo hfree hout rfl ?_
  unfold withSrcs
  simp only [hdual, privCause_below hlow, hinh, readSrcs, dstCheck, List.nil_append, List.append_nil, Bool.false_eq_true, if_false, List.cons_append]
  rfl

/-- Settles O60: PRIVILEGE is the least cause of every word that needs a level. -/
theorem privilegeTraps : Obligations.PrivilegeTraps :=
  ⟨fun _ _ _ _ _ ha hlow hsolo hfree so => ha.elim (rootWord_denied · hlow hsolo hfree so) (stateWord_denied · hlow hsolo hfree so),
    fun _ _ _ _ hlow hsolo hfree hdual => eret_denied rfl hlow hsolo hfree hdual⟩

end Sys2Proof.Machine
end
section
/-! PROOFS of the ports: their training (R28 to R34) and the flits that arrive (R22 to R26). -/

namespace Sys2Proof.Machine

/-! ## Training -/

/-- One of the sixteen ports reads back what it is changed to. -/
theorem getPort_modPort {s : State} {p : Nat} (hp : p < 16) (hports : s.ports.length = 16) (f : Port → Port) : getPort (modPort s p f) p = f (getPort s p) :=
  modPort_getD _ _ _ (by omega)

theorem port_detect (s : State) (hp : s.unit_ < 16) (hd : PortServes s s.unit_) (hin : (getPort s s.unit_).within s .detect 0) (hstuck : (getPort s s.unit_).stuck = false)
    (hdis : (getPort s s.unit_).disable = false) : execDetect s = .next (modPort s s.unit_ fun x => { x with rate112 := x.force112 }.entering s .rate) := by
  unfold execDetect
  simp only [portIn_within hp hd hin, hstuck, hdis, Bool.not_false, Bool.and_self, if_true, enter_modPort]

theorem port_detectRepeat (s : State) (hp : s.unit_ < 16) (hd : PortServes s s.unit_) (hin : (getPort s s.unit_).within s .detect 1000000)
    (hdis : (getPort s s.unit_).disable = false) : execDetectRepeat s = .next (modPort s s.unit_ fun x => x.entering s .detect) := by
  unfold execDetectRepeat
  simp only [portIn_within hp hd hin, hdis, Bool.not_false, Bool.and_self, if_true]
  rfl

theorem port_rateLock (s : State) (hp : s.unit_ < 16) (hd : PortServes s s.unit_) (hin : (getPort s s.unit_).inTime s .rate 2000000) :
    execRateLock s = .next (modPort s s.unit_ fun x => ({ x with eqRounds := 0 }.entering s .equalise).told (.preset 1)) := by
  unfold execRateLock
  rw [if_pos (portWithin_inTime hp hd hin), enter_modPort, sendTraining_told, modPort_modPort]

theorem slower_port (s : State) (p : Nat) (hp : p < 16) (hports : s.ports.length = 16) : slower s p = modPort s p fun x => x.slowed s := by
  have hsame := modPort_same s p
  have hslow := slower_slowed s p (fun x => x) (getPort_modPort hp hports _)
  rwa [hsame] at hslow

theorem port_deskew (s : State) (hp : s.unit_ < 16) (hd : PortServes s s.unit_) (hin : (getPort s s.unit_).inTime s .deskew 100000) :
    execDeskew s = .next (modPort s s.unit_ fun x => (x.entering s .slots).told (.counts ownSlots)) := by
  unfold execDeskew
  rw [if_pos (portWithin_inTime hp hd hin), sendTraining_told]
  unfold enter
  rw [modPort_modPort]
  rfl

/-! ## SLOTS -/

theorem freshChallenge_modPort (s : State) (p : Nat) (f : Port → Port) :
    freshChallenge (modPort s p f) = (modPort (freshChallenge s).1 p f, (freshChallenge s).2) := rfl

theorem beginIdentity_signed {s : State} {p : Nat} {f : Port → Port} (h : (signerDie s (portDie p)).isSome = true) :
    beginIdentity (modPort s p f) p = modPort (freshChallenge s).1 p fun x =>
      ({ f x with challenge := (freshChallenge s).2 }.entering s .identity).told (.identity Config.deviceChain (freshChallenge s).2) := by
  have hsigner : (signerDie (modPort s p f) (portDie p)).isNone = false := by rw [Option.isNone_eq_false_iff]; exact h
  unfold beginIdentity
  rw [hsigner, if_neg (by simp), freshChallenge_modPort]
  dsimp only
  rw [modPort_modPort, enter_modPort, sendTraining_told, modPort_modPort]
  rfl

theorem beginIdentity_unsigned {s : State} {p : Nat} {f : Port → Port} (h : (signerDie s (portDie p)).isSome = false) :
    beginIdentity (modPort s p f) p = modPort s p fun x => (f x).entering s .identity := by
  have hsigner : (signerDie (modPort s p f) (portDie p)).isNone = true := Option.isSome_eq_false_iff.mp h
  unfold beginIdentity
  rw [hsigner, if_pos rfl, enter_modPort]

theorem port_slots {s : State} {p : Nat} (counts : List Nat) (hp : p < 16) (hd : PortServes s p) (hin : (getPort s p).inTime s .slots 50000) :
    execSlots p counts s = .next (modPort (if slotsGood s p counts then (freshChallenge s).1 else s) p fun x => x.slotted s p counts) := by
  unfold execSlots
  rw [if_pos (portWithin_inTime hp hd hin)]
  refine congrArg Host.Outcome.next ?_
  unfold Port.slotted slotsGood
  cases hcounts : countsOk counts && countsOk ownSlots with
  | false =>
    rw [if_neg (by simp), if_neg (by simp)]
    refine modPort_congr ?_
    rw [if_neg (by simp), if_neg (by simp)]
    rfl
  | true =>
    cases hsigner : (signerDie s (portDie p)).isSome with
    | false =>
      rw [if_pos rfl, beginIdentity_unsigned hsigner, if_neg (by simp)]
      refine modPort_congr ?_
      rw [if_neg (by simp), if_pos rfl]
    | true =>
      rw [if_pos rfl, beginIdentity_signed hsigner, if_pos (by simp)]
      refine modPort_congr ?_
      rw [if_pos (by simp)]

/-! ## IDENTITY and QUARANTINE -/

theorem quarantine_modPort {s : State} {p : Nat} (hp : p < 16) (hports : s.ports.length = 16) (g : Port → Port) (why : Nat) :
    quarantine (modPort s p g) p why = modPort s p fun x => (g x).quarantined s why := by
  have hlen : (modPort s p g).ports.length = 16 := (List.length_set ..).trans hports
  rw [quarantine_quarantined _ _ _ (getPort_modPort hp hlen), modPort_modPort]
  rfl

theorem activate_modPort (s : State) (p : Nat) (g : Port → Port) : activate (modPort s p g) p = modPort s p fun x => (g x).active s := by
  unfold activate
  rw [modPort_modPort, enter_modPort]
  rfl

theorem modPort_ite (c : Prop) [Decidable c] (s : State) (p : Nat) (f g : Port → Port) :
    (if c then modPort s p f else modPort s p g) = modPort s p fun x => if c then f x else g x := by
  split <;> rfl

theorem port_identity {s : State} {p : Nat} (partner : Partner) (ed ml : List Byte) (hp : p < 16) (hports : s.ports.length = 16) (hd : PortServes s p)
    (hsigner : (signerDie s (portDie p)).isSome = true) (hin : (getPort s p).inTime s .identity 200000000) :
    execIdentity p partner ed ml s = .next (modPort s p fun x => x.identified s partner ed ml) := by
  unfold execIdentity
  rw [portWithin_inTime hp hd hin, hsigner, if_pos (by rfl)]
  refine congrArg Host.Outcome.next ?_
  dsimp only
  rw [sendTraining_told, quarantine_modPort hp hports, quarantine_modPort hp hports, quarantine_modPort hp hports, activate_modPort]
  simp only [Bool.not_eq_true', modPort_ite]
  exact modPort_congr rfl

theorem port_noticeSend {s : State} (hp : s.unit_ < 16) (hports : s.ports.length = 16) (hd : PortServes s s.unit_) (hin : (getPort s s.unit_).within s .quarantine 1000000) :
    execQuarantineNoticeSend s = .next (modPort s s.unit_ fun x => (x.entering s .quarantine).noticed) := by
  unfold execQuarantineNoticeSend enter
  rw [if_pos (portIn_within hp hd hin), sendNotice_noticed _ _ _ (getPort_modPort hp hports _)]
  rfl

theorem port_notice {s : State} (hp : s.unit_ < 16) (hactive : (getPort s s.unit_).state = .active) (hpeer : (getPort s s.unit_).peerQ = false) :
    execQuarantineNotice s = .next (failPort (modPort s s.unit_ fun x => { x with peerQ := true, outq := x.outq.filter fun m => m.1 == 3 }) s.unit_) := by
  unfold execQuarantineNotice takeNotice
  rw [if_pos hp, hactive, hpeer]
  rfl

/-! ## VLCTL -/

/-- A port that a register write has put into DETECT is not ACTIVE, whatever its number. -/
theorem detect_not_active (S : State) (p : Nat) (g : Port → Port) (h : ∀ x, (g x).state = .detect) : ((getPort (modPort S p g) p).state == .active) = false := by
  unfold getPort modPort
  by_cases hp : p < S.ports.length
  · rw [modPort_getD _ _ _ hp, h]
    rfl
  · rw [List.set_eq_of_length_le (Nat.not_lt.mp hp), List.getD_eq_getElem?_getD, List.getElem?_eq_none (Nat.not_lt.mp hp)]
    rfl

theorem fields_state {s : State} {p : Nat} (hp : p < 16) (hports : s.ports.length = 16) (v : Word) :
    (getPort (modPort s p fun x => { x with disable := v.getLsbD 1, force112 := v.getLsbD 2 }) p).state = (getPort s p).state := by
  rw [getPort_modPort hp hports]

/-- A port that a write of VLCTL disables leaves its state. -/
theorem writeVlctlFields_left {s : State} {p : Nat} {v : Word} (hp : p < 16) (hports : s.ports.length = 16) (hdis : v.getLsbD 1 = true) (hstate : (getPort s p).state ≠ .detect) :
    writeVlctlFields s p v = modPort (controlled s p v) p fun x =>
      { x with state := .detect, rate112 := false, peerQ := false, entered := (controlled s p v).ns, nak := none, outq := [] } := by
  have hfields := fields_state hp hports v
  have hleft : (v.getLsbD 1 && (getPort s p).state != .detect) = true := by rw [hdis, Bool.true_and, bne_iff_ne]; exact hstate
  unfold writeVlctlFields controlled
  dsimp only
  rw [hfields, hleft, if_pos rfl]
  simp only [beq_iff_eq]

theorem writeVlctlFields_stays {s : State} {p : Nat} {v : Word} (hp : p < 16) (hports : s.ports.length = 16) (h : v.getLsbD 1 = false ∨ (getPort s p).state = .detect) :
    writeVlctlFields s p v = modPort s p fun x => { x with disable := v.getLsbD 1, force112 := v.getLsbD 2 } := by
  have hfields := fields_state hp hports v
  have hstays : (v.getLsbD 1 && (getPort s p).state != .detect) = false := by
    rcases h with h | h
    · rw [h, Bool.false_and]
    · rw [h]
      exact Bool.and_false _
  unfold writeVlctlFields
  dsimp only
  rw [hfields, hstays, if_neg (by simp)]

theorem port_disable {s : State} {p : Nat} {v : Word} (hp : p < 16) (hports : s.ports.length = 16) (hdis : v.getLsbD 1 = true) (hretrain : v.getLsbD 0 = false)
    (hstate : (getPort s p).state ≠ .detect) : execVlctlDisable p v s = .next (modPort (controlled s p v) p fun x =>
      { x with state := .detect, rate112 := false, peerQ := false, entered := (controlled s p v).ns, nak := none, outq := [] }) := by
  unfold execVlctlDisable writeVlctl
  rw [if_pos ⟨hp, hdis⟩, hretrain, writeVlctlFields_left hp hports hdis hstate]
  rfl

theorem port_retrain {s : State} {p : Nat} {v : Word} (hp : p < 16) (hports : s.ports.length = 16) (hretrain : v.getLsbD 0 = true) :
    execVlctlRetrain p v s = .next (modPort (controlled s p v) p fun x => x.retrained (controlled s p v)) := by
  unfold execVlctlRetrain writeVlctl
  rw [if_pos ⟨hp, hretrain⟩]
  refine congrArg Host.Outcome.next ?_
  dsimp only
  rw [if_pos hretrain]
  by_cases h : v.getLsbD 1 = true ∧ (getPort s p).state ≠ .detect
  · rw [writeVlctlFields_left hp hports h.1 h.2]
    generalize controlled s p v = S
    unfold retrain
    dsimp only
    rw [detect_not_active S p _ fun _ => rfl, if_neg (by simp), modPort_modPort]
    rfl
  · have hstays : v.getLsbD 1 = false ∨ (getPort s p).state = .detect := by
      cases hd : v.getLsbD 1
      · exact .inl rfl
      · exact .inr (Decidable.byContradiction fun hne => h ⟨hd, hne⟩)
    have hfields := fields_state hp hports v
    rw [writeVlctlFields_stays hp hports hstays]
    unfold retrain controlled
    dsimp only
    rw [hfields]
    simp only [beq_iff_eq]
    rfl

/-! ## Every step that is due -/

/-- Settles O37: each step of a port that is due is one change of the port. -/
theorem portTraining : Obligations.PortTraining := by
  intro i a s ha hp hports hdue
  refine ⟨_, ?_, rfl⟩
  cases i
  case detect => cases ha; obtain ⟨hd, hin, hstuck, hdis⟩ := hdue; exact port_detect s hp hd hin hstuck hdis
  case detectRepeat => cases ha; obtain ⟨hd, hin, hdis⟩ := hdue; exact port_detectRepeat s hp hd hin hdis
  case rateLock => cases ha; obtain ⟨hd, hin⟩ := hdue; exact port_rateLock s hp hd hin
  case rateTimeout =>
    cases ha
    obtain ⟨hd, hin⟩ := hdue
    exact congrArg Host.Outcome.next ((if_pos (portIn_within hp hd hin)).trans (slower_port s s.unit_ hp hports))
  case equaliseRound p good =>
    cases ha
    obtain ⟨hd, hin⟩ := hdue
    exact congrArg Host.Outcome.next ((if_pos (portWithin_inTime hp hd hin)).trans (endRound_round s p good (getPort_modPort hp hports)))
  case equaliseTimeout =>
    cases ha
    obtain ⟨hd, hin⟩ := hdue
    exact congrArg Host.Outcome.next ((if_pos (portIn_within hp hd hin)).trans (endRound_round s s.unit_ false (getPort_modPort hp hports)))
  case deskew => cases ha; obtain ⟨hd, hin⟩ := hdue; exact port_deskew s hp hd hin
  case deskewTimeout => cases ha; obtain ⟨hd, hin⟩ := hdue; exact congrArg Host.Outcome.next (if_pos (portIn_within hp hd hin))
  case slots p counts => cases ha; obtain ⟨hd, hin⟩ := hdue; exact port_slots counts hp hd hin
  case slotsTimeout => cases ha; obtain ⟨hd, hin⟩ := hdue; exact congrArg Host.Outcome.next (if_pos (portIn_within hp hd hin))
  case identity p partner ed ml => cases ha; obtain ⟨hd, hsigner, hin⟩ := hdue; exact port_identity partner ed ml hp hports hd hsigner hin
  case identityTimeout =>
    cases ha
    obtain ⟨hd, hin⟩ := hdue
    exact congrArg Host.Outcome.next ((if_pos (portIn_within hp hd hin)).trans (quarantine_quarantined s s.unit_ 4 (getPort_modPort hp hports)))
  case quarantineNoticeSend => cases ha; obtain ⟨hd, hin⟩ := hdue; exact port_noticeSend hp hports hd hin
  case quarantineNotice =>
    cases ha
    obtain ⟨hactive, hpeer⟩ := hdue
    exact (port_notice hp hactive hpeer).trans (congrArg Host.Outcome.next (modPort_same _ _).symm)
  case replayRequest p seq => cases ha; exact congrArg Host.Outcome.next (if_pos ⟨hp, hdue⟩)
  case replayLimit => cases ha; obtain ⟨hactive, hfails⟩ := hdue; exact congrArg Host.Outcome.next (if_pos ⟨hp, hactive, hfails⟩)
  case linkLoss => cases ha; exact congrArg Host.Outcome.next (if_pos ⟨hp, hdue⟩)
  case vlctlRetrain p v => cases ha; exact port_retrain hp hports hdue
  case vlctlDisable p v => cases ha; obtain ⟨hdis, hretrain, hstate⟩ := hdue; exact port_disable hp hports hdis hretrain hstate
  all_goals cases ha

/-! ## Flits -/

theorem accepted_kind {s : State} {p : Nat} {f : Flit} (h : rxOf s p f = .accept) : f.kind.toNat < 5 := by
  by_cases hl : Listens s p
  · rw [rxOf_hears hl] at h
    split at h
    · cases h
    · split at h
      · cases h
      · split at h
        · split at h <;> cases h
        · split at h
          · cases h
          · omega
  · rw [rxOf_deaf hl] at h
    cases h

theorem idleFlit_done (p : Nat) (f : Flit) (s : State) : ∃ t, execIdleFlit p f s = .next t ∧ FlitDone ⟨p, f, none, fun s _ => s⟩ s t := by
  unfold execIdleFlit
  cases hr : rxOf s p f
  case accept => exact ⟨_, rfl, rxTaken_done hr fun _ => rxCount_counted s p f⟩
  all_goals exact ⟨_, rfl, rxLost_done (by rw [hr]; simp) (by rw [hr])⟩

theorem unknownKindFlit_done (p : Nat) (f : Flit) (s : State) : ∃ t, execUnknownKindFlit p f s = .next t ∧ FlitDone ⟨p, f, some (5, 0), fun s _ => s⟩ s t := by
  unfold execUnknownKindFlit
  cases hr : rxOf s p f
  case accept =>
    refine ⟨_, rfl, rxTaken_done hr fun hlane => ?_⟩
    have hkind := accepted_kind hr
    have hfive : f.kind.toNat = 5 := (hlane _ rfl).1
    omega
  all_goals exact ⟨_, rfl, rxLost_done (by rw [hr]; simp) (by rw [hr])⟩

theorem execEnqueueFlit_eq (p : Nat) (f : Flit) (s : State) : execEnqueueFlit p f s = .next (rx s p f 2 2 (enqueued p)) := by
  refine congrArg (fun take => Host.Outcome.next (rx s p f 2 2 take)) (rx_take fun s b => ?_)
  unfold enqueued
  cases b with
  | payload core pasid source data poison => simp only [List.isEmpty_iff]
  | _ => rfl

theorem execManagementFlit_eq (p : Nat) (f : Flit) (s : State) : execManagementFlit p f s = .next (rx s p f 3 3 (managed p)) := by
  refine congrArg (fun take => Host.Outcome.next (rx s p f 3 3 take)) (rx_take fun s b => ?_)
  unfold managed
  cases b with
  | domain self members out into => simp only [beq_iff_eq]
  | _ => rfl

/-- Settles O38: a flit is sorted, counted, and its body acts. -/
theorem flits : Obligations.Flits := by
  intro i a s ha
  cases i
  case requestFlit p f => cases ha; exact ⟨_, rfl, rx_done s p f 0 0 (served p)⟩
  case responseFlit p f => cases ha; exact ⟨_, rfl, rx_done s p f 1 1 (responded p)⟩
  case enqueueFlit p f => cases ha; exact ⟨_, execEnqueueFlit_eq p f s, rx_done s p f 2 2 (enqueued p)⟩
  case managementFlit p f => cases ha; exact ⟨_, execManagementFlit_eq p f s, rx_done s p f 3 3 (managed p)⟩
  case idleFlit p f => cases ha; exact idleFlit_done p f s
  case unknownKindFlit p f => cases ha; exact unknownKindFlit_done p f s
  all_goals cases ha

end Sys2Proof.Machine
end
section
/-! PROOFS of O42: the fetcher's turn and the attestation answer. -/

namespace Sys2Proof.Machine

theorem askRings_only (s : State) (link : Nat) : ReadOnly_ s (askRings s link) := by
  unfold askRings
  generalize s.queues = l
  induction l generalizing s with
  | nil => rfl
  | cons e l ih =>
    rw [List.foldl_cons]
    refine ReadOnly_.trans ?_ (ih _)
    dsimp only
    split
    · exact atsAsk_only _ _ _ _
    · rfl

theorem ReadOnly_.portDieIn {s t : State} (h : ReadOnly_ s t) (k : Nat) : portDieIn t k = portDieIn s k := by
  unfold ReadOnly_ at h
  rw [h]
  rfl

theorem fetcherUp_of {s : State} {link : Nat} (hdie : portDieIn s link = true) (hup : (getLink s link).up = true) : fetcherUp s link = true := by
  unfold fetcherUp
  rw [hdie, hup]
  rfl

/-- The packet that a turn takes stands in its queue, and fails there where it is in error (R53 to R57). -/
theorem takePacket_fetched (s : State) (q : Nat) (b : List Byte) : Fetched s (takePacket s q b) q b := by
  refine ⟨_, rfl, ?_⟩
  unfold takePacket
  have hwalks : ∀ p : Packet, (if (p.kind == 2 || p.kind == 5) = true then [p.addr 16] else []) = if p.kind = 2 ∨ p.kind = 5 then [p.addr 16] else [] := by
    intro p
    simp only [Bool.or_eq_true, beq_iff_eq]
  simp only [hwalks]
  unfold bodyWalks takenPacket
  generalize countWalks _ _ _ = T
  cases packetError T (getQueue s q).pasid b with
  | none => rfl
  | some e => exact failPacket_fails _ _ _ _ _

theorem fetcherTurn_fetches {s : State} {q : Nat} {b : List Byte} (hdie : portDieIn s s.unit_ = true) (hask : (getLink (askRings s s.unit_) s.unit_).up = true)
    (hup : (getLink s s.unit_).up = true) (hq : chooseQueue (askRings s s.unit_) s.unit_ = some q) (hb : fetchable (askRings s s.unit_) q = some b) :
    execFetcherTurn s = .next (takePacket (askRings s s.unit_) q b) := by
  have hrings : fetcherUp (askRings s s.unit_) s.unit_ = true := fetcherUp_of (((askRings_only s s.unit_).portDieIn s.unit_).trans hdie) hask
  unfold execFetcherTurn
  simp only [fetcherUp_of hdie hup, if_true, hq, hb, hrings]

theorem spdmRequest_attests {l : Nat} {r : SpdmAsk} {s : State} (hup : (getLink s l).up = true) (hid : s.fw.identity = true) :
    ∃ t, execSpdmRequest l r s = .next t ∧ Attested s t l r := by
  refine ⟨_, congrArg Host.Outcome.next (if_pos (by rw [hup, hid]; rfl)), signReport (measured s.fw l r.kind r.nonce), rfl, ?_⟩
  exact ⟨rfl, rfl, rfl, rfl, rfl, rfl, rfl, rfl, rfl, rfl, rfl⟩

/-- Settles O42: the turn takes the head packet of the chosen queue, and the report tells what runs. -/
theorem fetcherAndReports : Obligations.FetcherAndReports :=
  ⟨fun _ _ _ hdie hask hup hq hb => ⟨_, fetcherTurn_fetches hdie hask hup hq hb, takePacket_fetched _ _ _⟩,
    fun _ _ _ hup hid => spdmRequest_attests hup hid⟩

end Sys2Proof.Machine
end
section
/-! PROOFS of O46 and O50: the placers, the thieves, the dependency tests, the segments and the budgets complete with the next state of their rule. -/

namespace Sys2Proof.Machine

/-! ## Placing, resuming, starting (R77, R82, R87, R92, R95) -/

theorem nextPlaced_of_cold {s : State} (hcold : s.warm.began = none) (die : Nat) : nextPlaced s die = firstPlaced s die (candidates s) := by
  unfold nextPlaced
  rw [hcold]
  rfl

/-- The placer of a die takes the next gang where no core of the die starts work of a higher class. -/
theorem execGangPlacement_places {s S : State} {c : Nat} (hdie : dieIn s s.unit_ = true) (hcold : s.warm.began = none)
    (hp : firstPlaced s s.unit_ (candidates s) = some (S, c))
    (hle : ∀ x ∈ s.cores, coreDie x.1 = s.unit_ → ∀ e, startable s x.1 = some e → entryClass s e ≤ c) : execGangPlacement s = .next S := by
  have hnone : ((s.cores.filter fun x => coreDie x.1 == s.unit_).any fun x => (startable s x.1).any fun e => decide (c < entryClass s e)) = false := by
    rw [List.any_eq_false]
    intro x hx hany
    obtain ⟨hmem, hx'⟩ := List.mem_filter.mp hx
    cases he : startable s x.1 with
    | none => rw [he] at hany; cases hany
    | some e =>
      rw [he] at hany
      exact absurd (of_decide_eq_true hany) (Nat.not_lt.mpr (hle x hmem (eq_of_beq hx') e he))
  unfold execGangPlacement
  simp only [hdie, nextPlaced_of_cold hcold, hp, hnone, Bool.not_true, Bool.false_eq_true, if_false]

/-- The first unit that can resume does. -/
theorem execFrozenGangResume_resumes {s S : State} (hcold : s.warm.began = none) (h : (frozenUnits s s.unit_).findSome? (tryResume s) = some S) :
    execFrozenGangResume s = .next S := by
  unfold execFrozenGangResume
  rw [hcold, h]
  rfl

theorem tryResume_of_canResume {s : State} {u : List Workgroup} (h : canResume s u [] = true) : tryResume s u = some (resumeUnit s u) := if_pos h

theorem frozenUnits_first {s : State} {u : List Workgroup} {r : List (List Workgroup)} (hu : frozenUnits s s.unit_ = u :: r) (h : canResume s u [] = true) :
    (frozenUnits s s.unit_).findSome? (tryResume s) = some (resumeUnit s u) := by
  rw [hu, List.findSome?_cons, tryResume_of_canResume h]

/-- A core starts its newest entry where the next gang of its die is of a lower class, or there is none. -/
theorem execDequeEntryStart_starts {s S : State} {e f : DEntry} (hcold : s.warm.began = none) (he : startable s s.unit_ = some e)
    (hlt : ∀ T c, firstPlaced s (coreDie s.unit_) (candidates s) = some (T, c) → c < entryClass s e) (hpop : popNewest s s.unit_ = (S, some f)) :
    execDequeEntryStart s = .next (dequeRoom (startEntry S s.unit_ f) s.unit_) := by
  have hnone : ((nextPlaced s (coreDie s.unit_)).any fun p => decide (entryClass s e ≤ p.2)) = false := by
    rw [nextPlaced_of_cold hcold]
    cases hp : firstPlaced s (coreDie s.unit_) (candidates s) with
    | none => rfl
    | some p => exact decide_eq_false (Nat.not_le.mpr (hlt p.1 p.2 hp))
  unfold execDequeEntryStart
  simp only [hcold, he, hnone, hpop, Option.isSome_none, Bool.false_eq_true, if_false]

/-! ## Retirement (R79) -/

theorem execGangRetire_or {s : State} {g : Gang} {x : Launch} (hg : getGang s s.unit_ = some g) (hx : getLaunch s g.launch = some x)
    (hst : g.state = .retiring) (hs : g.orSent = none) (hf : g.orFault = false) : execGangRetire s = .next (completionOr s g x) := by
  unfold execGangRetire
  simp only [hg, hx, hst, hs, hf, beq_self_eq_true, if_true, Bool.false_eq_true, if_false]

theorem execGangRetire_acknowledged {s : State} {g : Gang} {x : Launch} {id : Nat} (hg : getGang s s.unit_ = some g) (hx : getLaunch s g.launch = some x)
    (hst : g.state = .retiring) (hs : g.orSent = some id) (hgone : ∀ y ∈ s.stores, y.id ≠ id) : execGangRetire s = .next (gangRetired s g) := by
  have hnone : (s.stores.any fun y => y.id == id) = false := by
    rw [List.any_eq_false]
    exact fun y hy h => hgone y hy (eq_of_beq h)
  unfold execGangRetire
  simp only [hg, hx, hst, hs, hnone, beq_self_eq_true, if_true, Bool.false_eq_true, if_false]

theorem wgs_modGang (s : State) (id : Nat) (f : Gang → Gang) : (modGang s id f).wgs = s.wgs := rfl

theorem wgBusy_modGang (s : State) (id : Nat) (f : Gang → Gang) : wgBusy (modGang s id f) = wgBusy s := rfl

theorem gangQueued_modGang (s : State) (id k : Nat) (f : Gang → Gang) : gangQueued (modGang s id f) k = gangQueued s k := rfl

theorem gangVc_modGang (s : State) (id k : Nat) (f : Gang → Gang) : gangVc (modGang s id f) k = gangVc s k := rfl

/-- The gang that is closed is there, and retires. -/
theorem gangClosed_retiring {s : State} {g : Gang} {k : Nat} (hg : getGang s k = some g) :
    ∃ G, getGang (gangClosed s g) g.id = some G ∧ G.state = .retiring := by
  have hid : g.id = k := by
    have := List.find?_some hg
    simpa using this
  subst hid
  refine ⟨{ g with state := .retiring, vc := vcJoin g.vc (gangVc s g.id) }, ?_, rfl⟩
  have hgangs : ∀ (S : State) (l : List Workgroup), getGang (wakeAll (l.foldl (fun s w => closeWg s w.id) S)) g.id = getGang S g.id := by
    intro S l
    exact congrArg (List.find? fun y => y.id == g.id) (closeAll_gangs l S)
  unfold gangClosed
  rw [hgangs, modGang_get _ _ _ fun y => by rfl, modGang_get _ _ _ fun y => by rfl, hg]
  rfl

/-- An idle gang has no warp of a task, and nothing busy. -/
theorem GangIdle.tasks {s : State} {g : Gang} (h : GangIdle s g) (p : Workgroup → Bool) :
    ((s.wgs.filter fun w => w.gang == g.id).filter fun w => w.fromDeque && p w) = [] := by
  rw [List.filter_eq_nil_iff]
  intro w hw
  obtain ⟨hmem, hgang⟩ := List.mem_filter.mp hw
  rw [(h.none w hmem (eq_of_beq hgang)).1]
  exact Bool.false_ne_true

theorem GangIdle.busy {s : State} {g : Gang} (h : GangIdle s g) : (s.wgs.filter fun w => w.gang == g.id).any (wgBusy s) = false := by
  rw [List.any_eq_false]
  intro w hw
  obtain ⟨hmem, hgang⟩ := List.mem_filter.mp hw
  rw [(h.none w hmem (eq_of_beq hgang)).2]
  exact Bool.false_ne_true

/-- An idle gang closes, then makes its completion OR or, where it was killed or has no bitmap, is retired. -/
theorem execGangRetire_idle {s : State} {g G : Gang} {x : Launch} (hg : getGang s s.unit_ = some g) (hx : getLaunch s g.launch = some x)
    (h : GangIdle s g) (hG : getGang (gangClosed s g) g.id = some G) :
    execGangRetire s = .next (if G.killed || x.rcd.cmap == 0 then gangRetired (gangClosed s g) G else completionOr (gangClosed s g) G x) := by
  have hret : (g.state == .retiring) = false := by rw [h.placed]; rfl
  have hpl : (g.state != .placed) = false := by rw [h.placed]; rfl
  unfold execGangRetire
  simp only [hg, hx, hret, hpl, Bool.and_assoc, h.tasks, List.map_nil, List.foldl_nil, List.isEmpty_nil, if_true, Bool.false_eq_true, if_false, wgs_modGang, wgBusy_modGang,
    gangQueued_modGang, gangVc_modGang, h.queued, h.busy, Bool.or_false]
  unfold gangClosed at hG ⊢
  generalize wakeAll _ = S at hG ⊢
  rw [hG]

/-! ## Bins, spills, thieves (R91, R97, R98, R99) -/

theorem execBinTimeout_flushes {s : State} {core bin : Nat} {b : Bin} (hb : (getCore s core).bins[bin]? = some b) (hheld : b.held = false)
    (hdue : b.opened + 2048 ≤ s.now) : execBinTimeout core bin s = .next (flushBin s core b.code b.gang).1 := by
  have hlate : decide (s.now < b.opened + Config.binCycles) = false := decide_eq_false (Nat.not_lt.mpr hdue)
  unfold execBinTimeout
  simp only [List.head?_drop, hb, hheld, hlate, Bool.or_false, Bool.false_eq_true, if_false]

theorem execSpillRetry_spills {s S : State} (hdue : spillDue s s.unit_ = true) (h : spillOldest s s.unit_ true = (S, true)) :
    execSpillRetry s = .next (dequeRoom S s.unit_) := by
  unfold execSpillRetry
  simp only [hdue, h, Bool.not_true, Bool.false_eq_true, if_false]

theorem execStealRequest_asks {s : State} (n : Nat) (hidle : coreIdle s s.unit_ = true) (hcold : s.warm.began = none)
    (hst : ((getCore s s.unit_).steal = .idle ∧ n = 0) ∨ (getCore s s.unit_).steal = .asking n) :
    execStealRequest s = .next (setSteal s s.unit_ (askNext s s.unit_ n)) := by
  unfold execStealRequest askNext
  simp only [hidle, hcold, List.head?_drop, Bool.not_true, Option.isSome_none, Bool.or_self, Bool.false_eq_true, if_false]
  rcases hst with ⟨hst, rfl⟩ | hst
  · rw [hst]
    cases (stealOrder s.unit_)[0]? <;> rfl
  · rw [hst]
    dsimp only
    cases (stealOrder s.unit_)[n]? <;> rfl

theorem execStealResponse_gives {s S T : State} {v n : Nat} {x : Loot} {e : DEntry} (hst : (getCore s s.unit_).steal = .waiting v n)
    (hx : stealable s v s.unit_ = some x) (ht : takeEntry s v x = (S, some e)) (hp : pushEntry S s.unit_ e = (T, true)) :
    execStealResponse s = .next (setSteal (dequeRoom T v) s.unit_ .idle) := by
  unfold execStealResponse
  simp only [hst, hx, ht, hp]

theorem execStealResponse_splits {s S : State} {v n : Nat} {r : LiveRange} (hst : (getCore s s.unit_).steal = .waiting v n)
    (hx : stealable s v s.unit_ = none) (hr : splittable s v s.unit_ = some r) (hp : pushEntry s s.unit_ (splitRange r).2 = (S, true)) :
    execStealResponse s = .next (setSteal (modCore S v fun c => { c with ranges := updIf (fun y => y.slot == r.slot) (fun _ => (splitRange r).1) c.ranges }) s.unit_ .idle) := by
  unfold execStealResponse
  simp only [hst, hx, hr, hp]

theorem execStealResponse_refuses {s : State} {v n : Nat} (hst : (getCore s s.unit_).steal = .waiting v n) (hx : stealable s v s.unit_ = none)
    (hr : splittable s v s.unit_ = none) : execStealResponse s = .next (setSteal s s.unit_ (.asking (n + 1))) := by
  unfold execStealResponse
  simp only [hst, hx, hr]

theorem execStealBackoffExpiry_ends {s : State} {e : Nat} (hst : (getCore s s.unit_).steal = .backoff e) (hdue : e ≤ s.now) :
    execStealBackoffExpiry s = .next (setSteal s s.unit_ .idle) := by
  unfold execStealBackoffExpiry
  simp only [hst, hdue, if_true]

/-! ## Segments (R85, R88) -/

/-- A victim's workgroup is one that the first workgroup with the claim names. -/
theorem victimOf_some {s : State} {core seg : Nat} {v : Workgroup} (h : victimOf s core seg = some v) :
    ∃ w, (s.wgs.find? fun w => w.core == core && (segOf w seg).any fun g => g.saving && g.victim.isSome) = some w ∧
      ((segOf w seg).bind (·.victim)).bind (getWg s) = some v := by
  unfold victimOf at h
  cases hf : s.wgs.find? fun w => w.core == core && (segOf w seg).any fun g => g.saving && g.victim.isSome with
  | none => rw [hf] at h; cases h
  | some w => rw [hf] at h; exact ⟨w, rfl, h⟩

theorem execSegmentSaveComplete_saves {s S : State} {core seg : Nat} {v : Workgroup} (hv : victimOf s core seg = some v) (hst : v.state = .frozen)
    (hbusy : segBusy s v seg = false) (hkeep : discards s (unitOf s v) = false)
    (hsave : writeSave (writeBackAll s v) v seg (segPages - movedOf v seg) (movedOf v seg) = (S, segPages)) :
    ∃ T, T = modWg S v.id (setSeg seg fun g => { g with saved := true, moved := 0 }) ∧
      execSegmentSaveComplete core seg s = .next (wakeAll { T with wgs := updIf (claims core seg v.id) (setSeg seg fun g => { g with victim := none, saving := false }) T.wgs }) := by
  obtain ⟨w, hw, hvw⟩ := victimOf_some hv
  refine ⟨_, rfl, ?_⟩
  have hfrozen : (v.state != .frozen) = false := by rw [hst]; rfl
  unfold movedOf at hsave
  unfold execSegmentSaveComplete
  simp only [hw, hvw, hfrozen, hbusy, hkeep, hsave, Nat.lt_irrefl, Bool.false_eq_true, if_false]
  rfl

theorem execSegmentRestore_good {s S : State} {core seg wg n : Nat} {w : Workgroup} (hw : restoring s core seg wg = some w)
    (hr : readSaves s w seg (segPages - movedOf w seg) (movedOf w seg) = (S, n, .good)) :
    execSegmentRestore core seg wg s = .next (wakeAll (modWg S w.id (setSeg seg fun g => { g with saved := false, saving := false, moved := 0 }))) := by
  unfold movedOf at hr
  unfold restoring at hw
  unfold execSegmentRestore
  simp only [hw, hr]

theorem execSegmentRestore_lost {s S : State} {core seg wg n : Nat} {w : Workgroup} (hw : restoring s core seg wg = some w)
    (hr : readSaves s w seg (segPages - movedOf w seg) (movedOf w seg) = (S, n, .lost)) :
    execSegmentRestore core seg wg s =
      .next (wakeAll (kill S w.id 0x5A (w.rcb.saveBase + BitVec.ofNat 64 (seg * Config.segmentBytes + 4096 * n)))) := by
  unfold movedOf at hr
  unfold restoring at hw
  unfold execSegmentRestore
  simp only [hw, hr]

/-! ## Budgets (R71 to R73) -/

theorem spent_of_quota {r : Region} {q : Nat} (hlive : r.live = true) (hq : quotaNs r = some q) (hle : q ≤ r.charged) : spent r = true := by
  unfold spent
  rw [hlive, hq]
  exact decide_eq_true hle

theorem execBudgetExhausted_holds {s : State} {p : Nat} {a : Word} {r : Region} {q : Nat} (hr : getRegion s p a = some r) (hex : r.exhausted = false)
    (hlive : r.live = true) (hq : quotaNs r = some q) (hle : q ≤ r.charged) :
    ∃ S, S = { s with regions := updIf (fun x => x.pasid == p && x.addr == a && x.live) (fun x => { x with exhausted := true }) s.regions } ∧
      execBudgetExhausted p a s = .next { S with
        wgs := updIf (fun w => w.pasid == p && w.state == .resident && inSubtree S p a w.region) (fun w => { w with state := .held, frozenAt := s.now }) s.wgs } := by
  refine ⟨_, rfl, ?_⟩
  unfold execBudgetExhausted
  simp only [hr, hex, spent_of_quota hlive hq hle, Bool.not_true, Bool.or_self, Bool.false_eq_true, if_false]

theorem execBudgetWindowBoundary_opens {s : State} (h : s.window + 10000000 ≤ s.ns) :
    ∃ S, S = { s with window := s.ns / 10000000 * 10000000, regions := s.regions.map fun r => { r with rcb := r.pending.getD r.rcb, pending := none, charged := 0, exhausted := false } } ∧
      execBudgetWindowBoundary s = .next (((s.wgs.filter fun w => w.state == .held).map (·.id)).foldl thaw S) :=
  ⟨_, rfl, if_neg (Nat.not_lt.mpr h)⟩

/-! ## The two obligations -/

/-- Settles O50, rule by rule. -/
theorem placingAgentsComplete : Obligations.PlacingAgentsComplete := by
  unfold Obligations.PlacingAgentsComplete
  refine ⟨?gangPlacement, ?frozenGangResume, ?dequeEntryStart, ?gangRetire, fun _ _ _ => rfl, fun _ => rfl, ?binTimeout, ?spillRetry, ?stealRequest, ?stealResponse,
    ?stealBackoff, ?segmentSave, ?segmentRestore, ?budgetExhausted, ?budgetWindow⟩
  case gangPlacement => exact fun _ _ _ hdie hcold hp hle => execGangPlacement_places hdie hcold hp hle
  case frozenGangResume => exact fun _ _ _ hcold hu hres => execFrozenGangResume_resumes hcold (frozenUnits_first hu hres)
  case dequeEntryStart =>
    intro s S e f hcold he hnone hpop
    exact execDequeEntryStart_starts hcold he (fun _ _ h => by rw [hnone] at h; cases h) hpop
  case gangRetire =>
    intro s g x hg hx
    refine ⟨execGangRetire_or hg hx, fun id => execGangRetire_acknowledged hg hx, fun hidle => ?_⟩
    obtain ⟨G, hG, hst⟩ := gangClosed_retiring hg
    exact ⟨G, hG, hst, execGangRetire_idle hg hx hidle hG⟩
  case binTimeout => exact fun _ _ _ _ hb hheld hdue => execBinTimeout_flushes hb hheld hdue
  case spillRetry => exact fun _ _ hdue h => execSpillRetry_spills hdue h
  case stealRequest =>
    exact fun _ hidle hcold => ⟨fun h => execStealRequest_asks 0 hidle hcold (.inl ⟨h, rfl⟩), fun n h => execStealRequest_asks n hidle hcold (.inr h)⟩
  case stealResponse =>
    exact fun _ _ _ hst => ⟨fun _ _ _ _ hx ht hp => execStealResponse_gives hst hx ht hp, fun _ _ hx hr hp => execStealResponse_splits hst hx hr hp,
      fun hx hr => execStealResponse_refuses hst hx hr⟩
  case stealBackoff => exact fun _ _ hst hdue => execStealBackoffExpiry_ends hst hdue
  case segmentSave => exact fun _ _ _ _ _ hv hst hbusy hkeep hsave => execSegmentSaveComplete_saves hv hst hbusy hkeep hsave
  case segmentRestore => exact fun _ _ _ _ _ _ _ hw => ⟨execSegmentRestore_good hw, execSegmentRestore_lost hw⟩
  case budgetExhausted => exact fun _ _ _ _ _ hr hex hlive hq hle => execBudgetExhausted_holds hr hex hlive hq hle
  case budgetWindow => exact fun _ h => execBudgetWindowBoundary_opens h

/-- A gang that is due retires as its rule says. -/
theorem gangRetire_due {s : State} {g : Gang} {x : Launch} (hg : getGang s s.unit_ = some g) (hx : getLaunch s g.launch = some x)
    (hdue : (g.state = .retiring ∧ g.orSent = none ∧ g.orFault = false) ∨ (∃ id, g.state = .retiring ∧ g.orSent = some id ∧ ∀ y ∈ s.stores, y.id ≠ id) ∨ GangIdle s g) :
    ∃ t, execGangRetire s = .next t ∧ (g.state = .retiring → g.orSent = none → t = completionOr s g x) ∧
      (g.state = .retiring → g.orSent ≠ none → t = gangRetired s g) ∧
      (GangIdle s g → ∃ G, getGang (gangClosed s g) g.id = some G ∧ G.state = .retiring ∧
        t = if G.killed || x.rcd.cmap == 0 then gangRetired (gangClosed s g) G else completionOr (gangClosed s g) G x) := by
  have hidle : GangIdle s g → g.state = .retiring → False := fun h hst => GangState.noConfusion (h.placed.symm.trans hst)
  rcases hdue with ⟨hst, hs, hf⟩ | ⟨id, hst, hs, hgone⟩ | h
  · exact ⟨_, execGangRetire_or hg hx hst hs hf, fun _ _ => rfl, fun _ hn => absurd hs hn, fun h => (hidle h hst).elim⟩
  · exact ⟨_, execGangRetire_acknowledged hg hx hst hs hgone, fun _ hn => (by rw [hs] at hn; cases hn), fun _ _ => rfl, fun h => (hidle h hst).elim⟩
  · obtain ⟨G, hG, hGst⟩ := gangClosed_retiring hg
    exact ⟨_, execGangRetire_idle hg hx h hG, fun hst => (hidle h hst).elim, fun hst => (hidle h hst).elim, fun _ => ⟨G, hG, hGst, rfl⟩⟩

/-- A thief whose request is answered. -/
theorem stealResponse_due {s : State} {v n : Nat} (hst : (getCore s s.unit_).steal = .waiting v n)
    (hdue : (∃ x S e T, stealable s v s.unit_ = some x ∧ takeEntry s v x = (S, some e) ∧ pushEntry S s.unit_ e = (T, true)) ∨
      (∃ r S, stealable s v s.unit_ = none ∧ splittable s v s.unit_ = some r ∧ pushEntry s s.unit_ (splitRange r).2 = (S, true)) ∨
      (stealable s v s.unit_ = none ∧ splittable s v s.unit_ = none)) :
    ∃ t, execStealResponse s = .next t ∧
      (∀ x S e T, stealable s v s.unit_ = some x → takeEntry s v x = (S, some e) → pushEntry S s.unit_ e = (T, true) → t = setSteal (dequeRoom T v) s.unit_ .idle) ∧
      (∀ r S, stealable s v s.unit_ = none → splittable s v s.unit_ = some r → pushEntry s s.unit_ (splitRange r).2 = (S, true) →
        t = setSteal (modCore S v fun c => { c with ranges := updIf (fun y => y.slot == r.slot) (fun _ => (splitRange r).1) c.ranges }) s.unit_ .idle) ∧
      (stealable s v s.unit_ = none → splittable s v s.unit_ = none → t = setSteal s s.unit_ (.asking (n + 1))) := by
  have key : ∃ t, execStealResponse s = .next t := by
    rcases hdue with ⟨x, S, e, T, hx, ht, hp⟩ | ⟨r, S, hx, hr, hp⟩ | ⟨hx, hr⟩
    · exact ⟨_, execStealResponse_gives hst hx ht hp⟩
    · exact ⟨_, execStealResponse_splits hst hx hr hp⟩
    · exact ⟨_, execStealResponse_refuses hst hx hr⟩
  obtain ⟨t, ht⟩ := key
  have eq_of : ∀ {u}, execStealResponse s = .next u → t = u := fun hu => Host.Outcome.next.inj (ht.symm.trans hu)
  exact ⟨t, ht, fun _ _ _ _ hx he hp => eq_of (execStealResponse_gives hst hx he hp), fun _ _ hx hr hp => eq_of (execStealResponse_splits hst hx hr hp),
    fun hx hr => eq_of (execStealResponse_refuses hst hx hr)⟩

/-- Settles O46: each turn that is due makes the step of its rule. -/
theorem placement : Obligations.Placement := by
  intro i a s ha hdue
  cases i
  case gangPlacement =>
    cases ha
    obtain ⟨hdie, hcold, S, c, hp, hle⟩ := hdue
    exact ⟨S, execGangPlacement_places hdie hcold hp hle, fun _ _ h => (Prod.mk.inj (Option.some.inj (hp.symm.trans h))).1⟩
  case frozenGangResume =>
    cases ha
    obtain ⟨hcold, S, hS⟩ := hdue
    exact ⟨S, execFrozenGangResume_resumes hcold hS, hS, fun _ _ hu hres => Option.some.inj (hS.symm.trans (frozenUnits_first hu hres))⟩
  case dequeEntryStart =>
    cases ha
    obtain ⟨hcold, e, he, hcls, S, f, hpop⟩ := hdue
    refine ⟨_, execDequeEntryStart_starts hcold he (fun T c h => ?_) hpop, fun S' f' h => ?_⟩
    · rcases hcls with hnone | ⟨T', c', h', hlt⟩
      · rw [hnone] at h; cases h
      · rw [h'] at h; cases h; exact hlt
    · rw [hpop] at h; cases h; rfl
  case gangRetire =>
    cases ha
    obtain ⟨g, x, hg, hx, h⟩ := hdue
    obtain ⟨t, ht, hafter⟩ := gangRetire_due hg hx h
    refine ⟨t, ht, fun g' x' hg' hx' => ?_⟩
    cases hg.symm.trans hg'
    cases hx.symm.trans hx'
    exact hafter
  case dependencyWatcherPrompt => cases ha; exact ⟨_, rfl, rfl⟩
  case dependencyRetest => cases ha; exact ⟨_, rfl, rfl⟩
  case binTimeout =>
    cases ha
    obtain ⟨b, hb, hheld, hlate⟩ := hdue
    refine ⟨_, execBinTimeout_flushes hb hheld hlate, fun b' hb' => ?_⟩
    rw [Option.some.inj (hb.symm.trans hb')]
  case spillRetry =>
    cases ha
    obtain ⟨hsp, S, hS⟩ := hdue
    refine ⟨_, execSpillRetry_spills hsp hS, fun S' hS' => ?_⟩
    rw [(Prod.mk.inj (hS.symm.trans hS')).1]
  case stealRequest =>
    cases ha
    obtain ⟨hidle, hcold, hst⟩ := hdue
    rcases hst with h | ⟨n, h⟩
    · exact ⟨_, execStealRequest_asks 0 hidle hcold (.inl ⟨h, rfl⟩), fun _ => rfl, fun k hk => by rw [h] at hk; cases hk⟩
    · exact ⟨_, execStealRequest_asks n hidle hcold (.inr h), fun hk => (by rw [h] at hk; cases hk), fun k hk => by rw [h] at hk; cases hk; rfl⟩
  case stealResponse =>
    cases ha
    obtain ⟨v, n, hst, h⟩ := hdue
    obtain ⟨t, ht, hafter⟩ := stealResponse_due hst h
    refine ⟨t, ht, fun v' n' hst' => ?_⟩
    cases hst.symm.trans hst'
    exact hafter
  case stealBackoffExpiry =>
    cases ha
    obtain ⟨e, hst, he⟩ := hdue
    exact ⟨_, execStealBackoffExpiry_ends hst he, rfl⟩
  case segmentSaveComplete =>
    cases ha
    obtain ⟨v, S, hv, hst, hbusy, hkeep, hsave⟩ := hdue
    obtain ⟨T, hT, h⟩ := execSegmentSaveComplete_saves hv hst hbusy hkeep hsave
    refine ⟨_, h, fun v' S' hv' hsave' => ?_⟩
    cases hv.symm.trans hv'
    cases hsave.symm.trans hsave'
    exact ⟨T, hT, rfl⟩
  case segmentRestore =>
    cases ha
    obtain ⟨w, S, n, r, hw, hr, hne⟩ := hdue
    cases r with
    | wait => exact absurd rfl hne
    | good =>
      refine ⟨_, execSegmentRestore_good hw hr, fun w' S' n' r' hw' hr' => ?_⟩
      cases hw.symm.trans hw'
      cases hr.symm.trans hr'
      exact ⟨fun _ => rfl, fun h => SaveRead.noConfusion h⟩
    | lost =>
      refine ⟨_, execSegmentRestore_lost hw hr, fun w' S' n' r' hw' hr' => ?_⟩
      cases hw.symm.trans hw'
      cases hr.symm.trans hr'
      exact ⟨fun h => SaveRead.noConfusion h, fun _ => rfl⟩
  case budgetExhausted =>
    cases ha
    obtain ⟨r, q, hr, hex, hlive, hq, hle⟩ := hdue
    obtain ⟨S, hS, h⟩ := execBudgetExhausted_holds hr hex hlive hq hle
    exact ⟨_, h, S, hS, rfl⟩
  case budgetWindowBoundary =>
    cases ha
    obtain ⟨S, hS, h⟩ := execBudgetWindowBoundary_opens hdue
    exact ⟨_, h, S, hS, rfl⟩
  all_goals cases ha

end Sys2Proof.Machine
end
section
/-! PROOFS of O47: fault service, translation answers, the go signal and service answers. -/

namespace Sys2Proof.Machine

/-! ## Fault service (R121) -/

theorem retryPage_unmapped {s S : State} {pasid page : Nat} {f : PendFault} (hf : s.faults.find? (pageFault pasid page) = some f)
    (hw : walk s pasid (page * 4096) = (S, .unmapped)) : retryPage s pasid page = faultRecord S pasid (faultCode f.write) (BitVec.ofNat 64 f.addr) := by
  unfold retryPage
  simp only [hf, hw]

theorem retryPage_mapped {s S : State} {pasid page : Nat} {f : PendFault} {x : Walk} (hf : s.faults.find? (pageFault pasid page) = some f)
    (hw : walk s pasid (page * 4096) = (S, x)) (hx : x ≠ .unmapped) :
    retryPage s pasid page = registerLog (releasePage { S with faults := S.faults.filter fun f => !pageFault pasid page f } pasid page) := by
  unfold retryPage
  simp only [hf, hw]

/-! ## Translation answers (R19, R20) -/

theorem execPriResponse_good {s : State} {link p page : Nat} {r : AtsRequest}
    (hr : (getLink s link).atsReqs.find? (fun r => r.pri && r.pasid == p && r.page == page) = some r) :
    execPriResponse link p page true s =
      .next (settleTeardowns (wakeAts ((waitedPages s link p page).foldl (fun s v => retryPage s p v) (dropReq s link r.id)) link p page)) := by
  unfold execPriResponse
  rw [hr]
  rfl

theorem execPriResponse_bad {s : State} {link p page : Nat} {r : AtsRequest}
    (hr : (getLink s link).atsReqs.find? (fun r => r.pri && r.pasid == p && r.page == page) = some r) :
    execPriResponse link p page false s =
      .next (settleTeardowns (wakeAts (failRings ((waitedPages s link p page).foldl (fun s v => cancelPage s p v) (dropReq s link r.id)) link p page) link p page)) := by
  unfold execPriResponse
  rw [hr]
  rfl

/-- What an answer to a request leaves, by the request's generation, the answer, and the room for a PRI request. -/
theorem execAtsCompletion_answers {s : State} {link id : Nat} {res : Option Nat} {r : AtsRequest}
    (hr : (getLink s link).atsReqs.find? (fun r => r.id == id && !r.pri) = some r) :
    ∃ t, execAtsCompletion link id res s = .next t ∧
      (r.gen ≠ pasidGen s r.pasid → t = settleTeardowns (wakeAts (dropReq s link id) link r.pasid r.page)) ∧
      (r.gen = pasidGen s r.pasid → ∀ q, res = some q →
        t = settleTeardowns (wakeAts (modLink (dropReq s link id) link fun l => { l with atsCache := ⟨r.pasid, r.page, q⟩ :: l.atsCache }) link r.pasid r.page)) ∧
      (r.gen = pasidGen s r.pasid → res = none → Config.priMax ≤ ((getLink s link).atsReqs.filter (·.pri)).length →
        t = settleTeardowns (wakeAts (dropReq s link id) link r.pasid r.page)) ∧
      (r.gen = pasidGen s r.pasid → res = none → ((getLink s link).atsReqs.filter (·.pri)).length < Config.priMax →
        t = settleTeardowns (wakeAts (modLink s link fun l => { l with atsReqs := updIf (fun y => y.id == id) (fun y => { y with pri := true }) l.atsReqs }) link r.pasid r.page)) := by
  unfold execAtsCompletion
  simp only [hr]
  by_cases hgen : r.gen = pasidGen s r.pasid
  · have hcur : (r.gen != pasidGen s r.pasid) = false := by rw [hgen]; exact bne_self_eq_false _
    simp only [hcur, Bool.false_eq_true, if_false]
    refine ⟨_, rfl, fun h => absurd hgen h, ?_⟩
    cases res with
    | some q => exact ⟨fun _ _ hq => (by cases hq; rfl), fun _ h => (by cases h), fun _ h => by cases h⟩
    | none =>
      refine ⟨fun _ _ h => (by cases h), fun _ _ hfull => ?_, fun _ _ hroom => ?_⟩
      · simp only [hfull, if_true]
      · simp only [Nat.not_le.mpr hroom, if_false]
  · have hold : (r.gen != pasidGen s r.pasid) = true := bne_iff_ne.mpr hgen
    simp only [hold, if_true]
    exact ⟨_, rfl, fun _ => rfl, fun h => absurd h hgen, fun h => absurd h hgen, fun h => absurd h hgen⟩

theorem execAtsCompletionTimeout_drops {s : State} {link id : Nat} {r : AtsRequest}
    (hr : (getLink s link).atsReqs.find? (fun r => r.id == id && !r.pri && decide (r.deadline ≤ s.ns)) = some r) :
    execAtsCompletionTimeout link id s = .next (settleTeardowns (wakeAts (dropReq s link id) link r.pasid r.page)) := by
  unfold execAtsCompletionTimeout
  rw [hr]

/-- The go signal, where no teardown of the link is in progress and the context is known (R62, R63). -/
theorem execPstopGo_begins {s : State} {link p : Nat} {c : Context} (hfree : bits (getLink s link).pstat.toNat 21 20 ≠ 1) (hc : getCtx s (p % 2 ^ 20) = some c) :
    ∃ S T, S = (modCtx s (p % 2 ^ 20) fun c => { c with teardown := c.teardown ++ [link], gen := c.gen + 1 }) ∧
      T = (S.queues.filter fun q => queueLink q.1 == link && Queue.pasid q.2 == p % 2 ^ 20).foldl (fun s q => stopQueue s q.1) S ∧
      execPstopGo link p s = .next (wakeAll (settleTeardowns { modLink T link (fun l => { l with
            atsCache := l.atsCache.filter fun e => e.pasid != p % 2 ^ 20, pstat := BitVec.ofNat 64 (p % 2 ^ 20 + 2 ^ 20) }) with
          tlb := T.tlb.filter fun e => e.pasid != p % 2 ^ 20 })) := by
  refine ⟨_, _, rfl, rfl, ?_⟩
  unfold execPstopGo
  simp only [hfree, hc, Option.isSome_some, if_true, if_false]

/-! ## Service answers (R416, R417) -/

theorem answer_answered (s : State) (v : Service) (x : Word) : Answered s (answer s v x) v x := by
  refine ⟨rfl, fun u y hy => ?_, rfl⟩
  have h := find_updIf (l := s.threads) (t := u) (p := fun t => t.run == .waiting (.service v.id)) (f := fun t => { t with run := .ready, able := s.now }) fun _ => rfl
  refine h.trans ?_
  rw [show s.threads.find? _ = some y from hy]
  simp only [Option.map_some, beq_iff_eq]

theorem execFwcallAnswer_answers {s : State} {v : Service} (hv : answerOf s false = some v) :
    execFwcallAnswer s = .next (answer s v (fwResult s v.svc.toNat)) := by
  have hfind : (s.services.find? fun v => v.id == s.unit_ && !v.monitor && v.answer.isNone) = some v := by
    rw [← hv]
    exact congrArg (fun p => s.services.find? p) (funext fun v => by cases v.monitor <;> rfl)
  unfold execFwcallAnswer
  rw [hfind]

theorem execMoncallAnswer_answers {s S : State} {v : Service} {x : Word} (hv : answerOf s true = some v) (hm : monService s v = (S, some x)) :
    execMoncallAnswer s = .next (answer S v x) := by
  have hfind : (s.services.find? fun v => v.id == s.unit_ && v.monitor && v.answer.isNone) = some v := by
    rw [← hv]
    exact congrArg (fun p => s.services.find? p) (funext fun v => by cases v.monitor <;> rfl)
  unfold execMoncallAnswer
  simp only [hfind, hm]

/-! ## The obligation -/

/-- Settles O47: each answer that is due makes the step of its rule. -/
theorem faultAnswers : Obligations.FaultAnswers := by
  intro i a s ha hdue
  cases i
  case fsvcbRetry link p =>
    cases ha
    obtain ⟨f, hf⟩ := hdue
    refine ⟨_, rfl, fun f' S x hf' hw => ?_⟩
    cases hf.symm.trans hf'
    exact ⟨fun hx => retryPage_unmapped hf (by rw [← hx]; exact hw), fun hx => retryPage_mapped hf hw hx⟩
  case fsvcbCancelPage => cases ha; exact ⟨_, rfl, rfl⟩
  case fsvcbCancelPasid => cases ha; exact ⟨_, rfl, rfl⟩
  case priResponse link p page good =>
    cases ha
    obtain ⟨r, hr⟩ := hdue
    cases good with
    | true =>
      refine ⟨_, execPriResponse_good hr, fun r' hr' => ?_⟩
      cases hr.symm.trans hr'
      exact ⟨fun _ => rfl, fun h => by cases h⟩
    | false =>
      refine ⟨_, execPriResponse_bad hr, fun r' hr' => ?_⟩
      cases hr.symm.trans hr'
      exact ⟨fun h => (by cases h), fun _ => rfl⟩
  case atsCompletion link id res =>
    cases ha
    obtain ⟨r, hr⟩ := hdue
    obtain ⟨t, ht, hafter⟩ := execAtsCompletion_answers (res := res) hr
    refine ⟨t, ht, fun r' hr' => ?_⟩
    cases hr.symm.trans hr'
    exact hafter
  case atsCompletionTimeout link id =>
    cases ha
    obtain ⟨r, hr⟩ := hdue
    refine ⟨_, execAtsCompletionTimeout_drops hr, fun r' hr' => ?_⟩
    cases hr.symm.trans hr'
    rfl
  case atsInvalidationRequest => cases ha; exact ⟨_, rfl, rfl⟩
  case pstopGo link p =>
    cases ha
    obtain ⟨hfree, c, hc⟩ := hdue
    obtain ⟨S, T, hS, hT, h⟩ := execPstopGo_begins hfree hc
    exact ⟨_, h, S, T, hS, hT, rfl⟩
  case fwcallAnswer =>
    cases ha
    obtain ⟨v, hv⟩ := hdue
    refine ⟨_, execFwcallAnswer_answers hv, fun v' hv' => ?_⟩
    cases hv.symm.trans hv'
    exact answer_answered _ _ _
  case moncallAnswer =>
    cases ha
    obtain ⟨v, S, x, hv, hm⟩ := hdue
    refine ⟨_, execMoncallAnswer_answers hv hm, fun v' S' x' hv' hm' => ?_⟩
    cases hv.symm.trans hv'
    cases hm.symm.trans hm'
    exact answer_answered _ _ _
  all_goals cases ha

end Sys2Proof.Machine
end
section
/-! PROOFS of the tier 1 statements: the machine after reset, a module without power, known encodings, and the step that issues a word. -/

namespace Sys2Proof.Machine

/-! ## Reset and power (R17, R22, R27) -/

theorem getPort_reset {p : Nat} (hp : p < 16) : getPort State.reset p = Port.reset := by
  unfold getPort State.reset
  rw [List.getD_eq_getElem?_getD, List.getElem?_replicate]
  exact congrArg (fun o : Option Port => o.getD Port.reset) (if_pos hp)

theorem getLink_reset (k : Nat) : getLink State.reset k = Link.reset := by
  unfold getLink State.reset
  match k with
  | 0 => rfl
  | 1 => rfl
  | _ + 2 => rfl

/-- Settles O6, field by field. -/
theorem resetState : Obligations.ResetState := by
  refine ⟨rfl, rfl, rfl, rfl, rfl, rfl, rfl, rfl, rfl, rfl, rfl, fun q => ⟨rfl, rfl, rfl, rfl, rfl, rfl⟩, fun k => ?links, fun p hp => ?ports, rfl, rfl, rfl, rfl, rfl, rfl⟩
  case links => rw [getLink_reset]; exact ⟨rfl, rfl⟩
  case ports => rw [getPort_reset hp]; rfl

/-- Settles O7: no byte is listed, and the ports are sixteen copies of one. -/
theorem keptAtReset : Obligations.KeptAtReset := ⟨rfl, List.length_replicate⟩

theorem step_without_power {s : State} (hp : s.powered = false) (ha : ∀ x r, s.agenda = x :: r → restoresPower x = false) : step s = .fault .noPower := by
  unfold step
  cases h : s.agenda with
  | nil => simp only [hp, Bool.false_eq_true, if_false]
  | cons x r => simp only [hp, ha x r h, Bool.or_self, Bool.false_eq_true, if_false]

/-- Power comes back with its event, also during a warm reset. -/
theorem step_powerGood {s : State} {r : List Item} {steps : BringSteps} {stackFail : BitVec 16} {bridgeFail : List (Nat × Nat)} {n : Nat}
    (ha : s.agenda = .event (.powerGood steps stackFail bridgeFail) n :: r) : ∃ t, step s = .next t := by
  have hrun : ∀ S : State, ∃ t, runEvent S (.powerGood steps stackFail bridgeFail) n = .next t := by
    intro S
    unfold runEvent
    split
    · exact ⟨_, rfl⟩
    · exact ⟨_, rfl⟩
  unfold step
  rw [ha]
  simp only [restoresPower, Bool.or_true, if_true]
  exact hrun _

/-- Settles O9: the one item that acts without power is the one that restores it. -/
theorem noPower : Obligations.NoPower := ⟨fun _ hp ha => step_without_power hp ha, fun _ _ _ _ _ _ _ ha => step_powerGood ha⟩

/-! ## Known encodings -/

/-- Settles O3: each word is read as its instruction. -/
theorem decodeKnownWords : Obligations.DecodeKnownWords := by
  refine ⟨?_, ?_, ?_, ?_, ?_, ?_, ?_, ?_, ?_, ?_, ?_, ?_, ?_, ?_, ?_⟩ <;> rfl

/-! ## The step that issues a word -/

/-- Settles O1: a core's issue is the chosen group's word, what follows the word, and the cycle's end. -/
theorem stepRunsDecoded : Obligations.StepRunsDecoded := by
  intro s A S E core r c more g i hp hw ha hA hb hg hi hE
  subst hA
  have henter : enterWord S g = (E, .ok i) := Prod.ext hE ((enterWord_decodes S g).trans hi)
  have hstep : step s = thenState (issueWord S g) (afterWord core more g) := by
    rw [step_issue s core r hp hw ha]
    exact issueOn_word _ core c more S g hb hg
  refine ⟨fun hn => ?_, fun hn => ?_⟩
  · rw [hstep, issueWord_runs S g E i henter hn, thenState_thenState]
  · rw [hstep, issueWord_none S g E i henter hn]
    rfl

end Sys2Proof.Machine
end
section
/-! PROOFS of O2: a clause of one line comes from the memory under it. -/

namespace Sys2Proof.Machine

theorem getCells_map (m : List Host.Cell) (n a : Nat) : getCells a n m = (List.range n).map fun j => getCell (a + j) m := by
  apply List.ext_getElem
  · rw [getCells_length, List.length_map, List.length_range]
  · intro i h _
    have hi : i < n := by rw [getCells_length] at h; exact h
    have hget := getCells_getD m n a i hi
    rw [List.getD_eq_getElem?_getD, List.getElem?_eq_getElem h] at hget
    rw [List.getElem_map, List.getElem_range]
    exact hget

/-- A part of a run of bytes is the run of its own addresses. -/
theorem slice_getCells {m : List Host.Cell} {a n o k : Nat} (h : o + k ≤ n) : slice o k (getCells a n m) = getCells (a + o) k m := by
  rw [getCells_map m k (a + o)]
  unfold slice
  refine List.map_congr_left fun j hj => ?_
  have hj' := List.mem_range.mp hj
  rw [getCells_getD m n a (o + j) (by omega), Nat.add_assoc]

/-! ## The line (R105, R132) -/

/-- The line at `a` as the cluster of the thread keeps it. -/
def heldLine (s : State) (x : Thread) (a : Nat) : ILine := ⟨clusterId x.tid.core, a / 64, false, getCells a 64 s.mem⟩

/-- The word at a byte of the line that is held. -/
theorem heldLine_word (s : State) (x : Thread) {a o : Nat} (h : o + 8 ≤ 64) : BitVec.ofNat 64 (field (heldLine s x a).data o 8) = codeWord s a o := by
  unfold field heldLine codeWord
  dsimp only
  rw [slice_getCells h]

/-- The machine after the fill of the line. -/
def lineFilled (s : State) (x : Thread) (a : Nat) : State := { s with icache := heldLine s x a :: s.icache }

section
variable {s : State} {x : Thread} {w : Workgroup} {va v : Word} {lf : Leaf} {a : Nat}

theorem CodeLine.translate (h : CodeLine s x w va lf a) (ic : List ILine) (hv : v.toNat / 64 = va.toNat / 64) :
    translate { s with icache := ic } x.tid.core w.pasid v.toNat ⟨false, false, true, x.pl⟩ = ({ s with icache := ic }, .ok lf (leafPa lf v.toNat)) := by
  obtain ⟨hcanon, ⟨e, hentry, rfl⟩, hreach, -⟩ := h.mapped v hv
  have hseen : e.leaf.seenBy x.pl = e.leaf := by unfold Leaf.seenBy; rw [if_neg (by rw [h.plain.2.2]; simp)]
  have hentry' : tlbFind { s with icache := ic } x.tid.core w.pasid v.toNat = some e := hentry
  have hreach' : paAllows { s with icache := ic } (leafPa e.leaf v.toNat) x.pl = true := hreach
  unfold Machine.translate
  rw [if_neg (by omega), hentry']
  dsimp only
  rw [Bool.false_and, Bool.false_and, if_neg Bool.false_ne_true]
  unfold checked
  rw [if_pos (by rw [h.allows, hreach']; rfl), hseen]
  rfl

theorem CodeLine.lineBlock (h : CodeLine s x w va lf a) (ic : List ILine) (hv : v.toNat / 64 = va.toNat / 64) :
    lineBlock { s with icache := ic } w.pasid (leafPa lf v.toNat) = some (a / 64) := by
  obtain ⟨-, -, -, hhome⟩ := h.mapped v hv
  unfold Machine.lineBlock canon
  have hhome' : homeOf ({ s with icache := ic } : State).module_ ({ s with icache := ic } : State).domain (leafPa lf v.toNat / 64 * 64) = .hbm a := hhome
  rw [hhome']
  rfl

/-- The line is read without error. -/
theorem CodeLine.readLine (h : CodeLine s x w va lf a) (hv : v.toNat / 64 = va.toNat / 64) :
    readLine s w x lf (leafPa lf v.toNat) v = (s, .ok (some (a / 64), getCells a 64 s.mem)) := by
  obtain ⟨-, -, -, hhome⟩ := h.mapped v hv
  obtain ⟨-, hlayout, hkey⟩ := h.plain
  have hrange := readHbmRange_plain (s := s) (a := a) (n := 64) (by decide) (Nat.le_of_eq (by rw [h.aligned])) h.block
  have hclean : ((getCells a 64 s.mem).map fun _ => false).any (fun b => b) = false := by
    rw [List.any_eq_false]
    intro b hb
    obtain ⟨_, -, rfl⟩ := List.mem_map.mp hb
    exact Bool.false_ne_true
  unfold Machine.readLine
  rw [hhome]
  dsimp only
  rw [hlayout, hkey, hrange]
  unfold codeBytes applySev
  simp only [hclean, Bool.false_eq_true, if_false]
  rfl

/-- The first word of the line is a miss, which fills the line. -/
theorem CodeLine.fetchLine_miss (h : CodeLine s x w va lf a) (hv : v.toNat / 64 = va.toNat / 64) :
    fetchLine s w x v = (lineFilled s x a, 1, .line (heldLine s x a)) := by
  have htr := h.translate s.icache hv
  have hcold : (s.icache.find? fun y => y.cluster == clusterId x.tid.core && some y.block == Machine.lineBlock s w.pasid (leafPa lf v.toNat)) = none := by
    rw [List.find?_eq_none]
    intro y hy hc
    rw [Bool.and_eq_true, beq_iff_eq] at hc
    exact h.cold y hy hc.1
  have hmine : (s.icache.filter fun y => y.cluster == clusterId x.tid.core && y.block != a / 64) = [] := by
    rw [List.filter_eq_nil_iff]
    intro y hy hc
    rw [Bool.and_eq_true, beq_iff_eq] at hc
    exact h.cold y hy hc.1
  have hothers : (s.icache.filter fun y => y.cluster != clusterId x.tid.core) = s.icache :=
    List.filter_eq_self.mpr fun y hy => bne_iff_ne.mpr (h.cold y hy)
  unfold fetchLine
  rw [show Machine.translate s x.tid.core w.pasid v.toNat ⟨false, false, true, x.pl⟩ = (s, .ok lf (leafPa lf v.toNat)) from htr]
  dsimp only
  rw [hcold, ite_self, h.readLine hv]
  unfold keepLine lineFilled heldLine
  dsimp only
  rw [hmine, hothers, h.plain.1]
  rfl

/-- The line is then found. -/
theorem CodeLine.fetchLine_hit (h : CodeLine s x w va lf a) (hv : v.toNat / 64 = va.toNat / 64) :
    fetchLine (lineFilled s x a) w x v = (lineFilled s x a, 0, .line (heldLine s x a)) := by
  have htr := h.translate (heldLine s x a :: s.icache) hv
  have hblock := h.lineBlock (heldLine s x a :: s.icache) hv
  have hkey : ¬ lf.key = Config.noKey := by rw [h.plain.2.2]; decide
  unfold fetchLine lineFilled
  rw [htr]
  dsimp only
  rw [if_neg hkey, hblock, List.find?_cons]
  unfold heldLine
  dsimp only
  rw [beq_self_eq_true, beq_self_eq_true]
  rfl

/-! ## Its words -/

theorem CodeLine.fetchWord_first (h : CodeLine s x w va lf a) (hv : v.toNat / 64 = va.toNat / 64) (ho : v.toNat % 64 + 8 ≤ 64) :
    fetchWord w x ⟨s, 0, [], [], none⟩ v = ⟨lineFilled s x a, 1, [codeWord s a (v.toNat % 64)], [heldLine s x a], none⟩ := by
  unfold fetchWord
  rw [h.fetchLine_miss hv]
  dsimp only
  rw [heldLine_word s x ho]
  rfl

theorem CodeLine.fetchWord_next (h : CodeLine s x w va lf a) (m : Nat) (ws : List Word) (hv : v.toNat / 64 = va.toNat / 64) (ho : v.toNat % 64 + 8 ≤ 64) :
    fetchWord w x ⟨lineFilled s x a, m, ws, [heldLine s x a], none⟩ v =
      ⟨lineFilled s x a, m, ws ++ [codeWord s a (v.toNat % 64)], [heldLine s x a], none⟩ := by
  have hin : [heldLine s x a].contains (heldLine s x a) = true := by simp
  unfold fetchWord
  rw [h.fetchLine_hit hv]
  dsimp only
  rw [heldLine_word s x ho, hin]
  rfl

/-- The words at a list of places of the line, one after the other. -/
theorem CodeLine.fetchWords (h : CodeLine s x w va lf a) (m : Nat) (place : Nat → Word) (l : List Nat) (ws : List Word)
    (hl : ∀ i ∈ l, (place i).toNat / 64 = va.toNat / 64 ∧ (place i).toNat % 64 + 8 ≤ 64) :
    l.foldl (fun f i => fetchWord w x f (place i)) ⟨lineFilled s x a, m, ws, [heldLine s x a], none⟩ =
      ⟨lineFilled s x a, m, ws ++ l.map fun i => codeWord s a ((place i).toNat % 64), [heldLine s x a], none⟩ := by
  induction l generalizing ws with
  | nil => rw [List.foldl_nil, List.map_nil, List.append_nil]
  | cons i l ih =>
    obtain ⟨hv, ho⟩ := hl i List.mem_cons_self
    rw [List.foldl_cons, h.fetchWord_next m ws hv ho, ih _ fun j hj => hl j (List.mem_cons_of_mem _ hj), List.map_cons, List.append_assoc]
    rfl

/-! ## The clause -/

/-- Word `i + 1` of a clause that lies in one line. -/
theorem clause_place (h : CodeLine s x w va lf a) {n i : Nat} (hal : va.toNat % 8 = 0) (hfit : va.toNat % 64 + 8 * n < 64) (hi : i < n) :
    (va + BitVec.ofNat 64 (8 * (i + 1))).toNat / 64 = va.toNat / 64 ∧
      (va + BitVec.ofNat 64 (8 * (i + 1))).toNat % 64 = va.toNat % 64 + 8 * (i + 1) := by
  have hcanon := (h.mapped va rfl).1
  have hnat : (va + BitVec.ofNat 64 (8 * (i + 1))).toNat = va.toNat + 8 * (i + 1) := by
    rw [BitVec.toNat_add, BitVec.toNat_ofNat, Nat.add_mod_mod]
    exact Nat.mod_eq_of_lt (by omega)
  rw [hnat]
  omega

/-- The clause in one line. -/
theorem fetchClause_line (h : CodeLine s x w va lf a) {hd : Header} (hal : va.toNat % 8 = 0) (hh : headerOf (codeWord s a (va.toNat % 64)) = some hd)
    (hfit : va.toNat % 64 + 8 * hd.count < 64) : ∃ m ws, fetchClause s w x va = (⟨lineFilled s x a, m, ws, [heldLine s x a], none⟩,
      .clause ⟨(List.range hd.count).map fun i => codeWord s a (va.toNat % 64 + 8 * (i + 1)), hd.cls, hd.wait, hd.yield, false, hd.pf.toNat⟩) := by
  have hplace : ∀ i ∈ List.range hd.count, (va + BitVec.ofNat 64 (8 * (i + 1))).toNat / 64 = va.toNat / 64 ∧
      (va + BitVec.ofNat 64 (8 * (i + 1))).toNat % 64 + 8 ≤ 64 := by
    intro i hi
    obtain ⟨hline, hoff⟩ := clause_place h hal hfit (List.mem_range.mp hi)
    have := List.mem_range.mp hi
    exact ⟨hline, by rw [hoff]; omega⟩
  have hwords : ((List.range hd.count).map fun i => codeWord s a ((va + BitVec.ofNat 64 (8 * (i + 1))).toNat % 64)) =
      (List.range hd.count).map fun i => codeWord s a (va.toNat % 64 + 8 * (i + 1)) := by
    refine List.map_congr_left fun i hi => ?_
    rw [(clause_place h hal hfit (List.mem_range.mp hi)).2]
  refine ⟨1, codeWord s a (va.toNat % 64) :: (List.range hd.count).map fun i => codeWord s a (va.toNat % 64 + 8 * (i + 1)), ?_⟩
  have hfetch := h.fetchWords 1 (fun i => va + BitVec.ofNat 64 (8 * (i + 1))) (List.range hd.count) [codeWord s a (va.toNat % 64)] hplace
  rw [hwords] at hfetch
  have honce : fetchClauseOnce s w x va = (⟨lineFilled s x a, 1, codeWord s a (va.toNat % 64) :: (List.range hd.count).map fun i => codeWord s a (va.toNat % 64 + 8 * (i + 1)),
      [heldLine s x a], none⟩, .clause ⟨(List.range hd.count).map fun i => codeWord s a (va.toNat % 64 + 8 * (i + 1)), hd.cls, hd.wait, hd.yield, false, hd.pf.toNat⟩) := by
    unfold fetchClauseOnce
    rw [h.fetchWord_first rfl (by omega)]
    dsimp only
    rw [if_neg (by exact Bool.false_ne_true), List.headD_cons, hh]
    dsimp only
    rw [hfetch]
    rfl
  unfold fetchClause
  rw [honce]
  rfl

end

/-- Settles O2: the header and the words are the ones that stand in the line. -/
theorem clauseIsMemoryBytes : Obligations.ClauseIsMemoryBytes := by
  intro s x w hdr lf a hd h hal hh hfit
  obtain ⟨m, ws, hfetch⟩ := fetchClause_line h hal hh hfit
  exact ⟨_, hfetch, rfl⟩

end Sys2Proof.Machine
end
section
/-! PROOFS of O4 and O5, part 1: what the fields of a coded word are, and which fields the checks accept. -/

namespace Sys2Proof
-- One declaration after another, as in the Tests: the large proofs run side by side ask for too much memory.
set_option Elab.async false
open BitVec hiding and_assoc

/-! ## Codes of operands and predicates (R158, R270) -/

theorem Opd.fits_o {n : BitVec 3} {k : Nat} (h : (Opd.o n).fits k = true) (hk : 0 < k) : n.toNat < 6 := by
  simp only [Opd.fits, Bool.and_eq_true, decide_eq_true_eq] at h
  omega

theorem Dst.fits_o {n : BitVec 3} {k : Nat} (h : (Dst.o n).fits k = true) (hk : 0 < k) : n.toNat < 6 := by
  simp only [Dst.fits, Bool.and_eq_true, decide_eq_true_eq] at h
  omega

theorem opdOf_v : ∀ n : BitVec 8, opdOf (opdCode (.v n)) = some (.v n) := by decide +kernel
theorem opdOf_g : ∀ n : BitVec 6, opdOf (opdCode (.g n)) = some (.g n) := by decide
theorem opdOf_o : ∀ n : BitVec 3, n.toNat < 6 → opdOf (opdCode (.o n)) = some (.o n) := by decide
theorem opdOf_q : ∀ n : BitVec 3, opdOf (opdCode (.q n)) = some (.q n) := by decide
theorem opdOf_int : ∀ n : BitVec 4, opdOf (opdCode (.int n)) = some (.int n) := by decide
theorem opdOf_cst : ∀ n : BitVec 4, opdOf (opdCode (.cst n)) = some (.cst n) := by decide

/-- An operand that fits a number of registers is read back from its code. -/
theorem opdOf_opdCode {op : Opd} {k : Nat} (h : op.fits k = true) (hk : 0 < k) : opdOf (opdCode op) = some op := by
  cases op with
  | v n => exact opdOf_v n
  | g n => exact opdOf_g n
  | o n => exact opdOf_o n (Opd.fits_o h hk)
  | lr => rfl
  | zero => rfl
  | q n => exact opdOf_q n
  | int n => exact opdOf_int n
  | cst n => exact opdOf_cst n
  | lit => rfl

theorem srcCode_op (s : Src) : (srcCode s).extractLsb' 2 9 = opdCode s.op := by
  unfold srcCode
  iterate 2 rw [extractLsb'_append_eq_of_le (by decide)]
  exact extractLsb'_eq_self

theorem getLsbD_ofBool_zero (b : Bool) : (BitVec.ofBool b).getLsbD 0 = b := by cases b <;> rfl

theorem srcCode_e (s : Src) : (srcCode s).getLsbD 1 = s.e := by
  unfold srcCode
  rw [getLsbD_append, if_neg (by decide), getLsbD_append, if_pos (by decide)]
  exact getLsbD_ofBool_zero _

theorem srcCode_l (s : Src) : (srcCode s).getLsbD 0 = s.l := by
  unfold srcCode
  rw [getLsbD_append, if_pos (by decide)]
  exact getLsbD_ofBool_zero _

theorem srcOf_srcCode {s : Src} {k : Nat} (h : s.op.fits k = true) (hk : 0 < k) : srcOf (srcCode s) = some s := by
  unfold srcOf
  rw [srcCode_op, opdOf_opdCode h hk, srcCode_e, srcCode_l]
  rfl

theorem Src.wf_fits {s : Src} {k : Nat} (h : s.wf k = true) : s.op.fits k = true := (Bool.and_eq_true_iff.mp h).2

theorem srcAt_srcCode {s : Src} {k : Nat} (h : s.wf k = true) (hk : 0 < k) : srcAt (srcCode s) = s := by
  unfold srcAt
  rw [srcOf_srcCode (Src.wf_fits h) hk]
  rfl

theorem badSrc_srcCode {s : Src} {k : Nat} (h : s.wf k = true) (hk : 0 < k) : badSrc k (srcCode s) = false := by
  unfold badSrc
  rw [srcOf_srcCode (Src.wf_fits h) hk]
  dsimp only
  rw [h]
  rfl

theorem isLitField_srcCode (s : Src) : isLitField (srcCode s) = s.op.isLit := by
  unfold isLitField
  rw [srcCode_op]
  cases s.op with
  | v n => revert n; decide +kernel
  | g n => revert n; decide
  | o n => revert n; decide
  | q n => revert n; decide
  | int n => revert n; decide
  | cst n => revert n; decide
  | lr => rfl
  | zero => rfl
  | lit => rfl

theorem isLitField_unused : isLitField unusedSrc = false := rfl

theorem opdCode_dst (d : Dst) : dstCode d = opdCode (match d with
    | .v n => .v n
    | .g n => .g n
    | .o n => .o n
    | .lr => .lr
    | .zero => .zero) := by cases d <;> rfl

theorem dstOf_dstCode {d : Dst} {k : Nat} (h : d.fits k = true) (hk : 0 < k) : dstOf (dstCode d) = some d := by
  cases d with
  | v n => unfold dstOf; rw [opdCode_dst]; dsimp only; rw [opdOf_v]
  | g n => unfold dstOf; rw [opdCode_dst]; dsimp only; rw [opdOf_g]
  | o n => unfold dstOf; rw [opdCode_dst]; dsimp only; rw [opdOf_o n (Dst.fits_o h hk)]
  | lr => rfl
  | zero => rfl

theorem dstAt_dstCode {d : Dst} {k : Nat} (h : d.fits k = true) (hk : 0 < k) : dstAt (dstCode d) = d := by
  unfold dstAt
  rw [dstOf_dstCode h hk]
  rfl

theorem badDst_dstCode {d : Dst} {k : Nat} {ok : Dst → Bool} (h : d.fits k = true) (hk : 0 < k) (hok : ok d = true) : badDst ok (dstCode d) = false := by
  unfold badDst
  rw [dstOf_dstCode h hk]
  dsimp only
  rw [hok]
  rfl

theorem Dst.late_fits {d : Dst} {k : Nat} (h : d.late k = true) : d.fits k = true := by
  cases d with
  | v n => exact h
  | g n => cases h
  | o n => exact h
  | lr => rfl
  | zero => rfl

theorem Dst.vog_fits {d : Dst} {k : Nat} (h : d.vog k = true) : d.fits k = true := by
  cases d with
  | v n => exact h
  | g n => exact h
  | o n => exact h
  | lr => rfl
  | zero => rfl

theorem Dst.strict_fits {d : Dst} {k : Nat} (h : d.strict k = true) : d.fits k = true := by
  cases d with
  | v n => exact h
  | g n => exact h
  | o n => exact h
  | lr => rfl
  | zero => rfl

theorem predOf_predCode : ∀ p : BitVec 3, predOf (predCode p) = some p := by decide

theorem predAt_predCode (p : BitVec 3) : predAt (predCode p) = p := by
  unfold predAt
  rw [predOf_predCode]
  rfl

theorem badPred_predCode (p : BitVec 3) : badPred (predCode p) = false := by
  unfold badPred
  rw [predOf_predCode]
  rfl

theorem guardOf_guardCode (g : Guard) : guardOf (guardCode g) = g := by
  obtain ⟨neg, p⟩ := g
  revert neg p
  decide

theorem k64_pos (b : Bool) : 0 < k64 b := by cases b <;> decide

/-! ## Fields of a word of format A (R264) -/

theorem fOp_eq (w : Word) : fOp w = (w.extractLsb' 56 8).toNat := by
  have h := w.isLt
  unfold fOp
  rw [BitVec.toNat_ushiftRight, BitVec.extractLsb'_toNat, Nat.mod_eq_of_lt]
  rw [Nat.shiftRight_eq_div_pow]
  omega

section
variable (op : BitVec 8) (pg : Guard) (d : BitVec 9) (sa sb sc : BitVec 11) (m : BitVec 10)

theorem fOp_encA : fOp (encA op pg d sa sb sc m) = op.toNat := by
  rw [fOp_eq]
  refine congrArg BitVec.toNat (a₂ := op) ?_
  unfold encA
  iterate 6 rw [extractLsb'_append_eq_of_le (by decide)]
  exact extractLsb'_eq_self

theorem fPg_encA : fPg (encA op pg d sa sb sc m) = guardCode pg := by
  unfold fPg encA
  iterate 5 rw [extractLsb'_append_eq_of_le (by decide)]
  exact extractLsb'_append_eq_right

theorem pgOf_encA : pgOf (encA op pg d sa sb sc m) = pg := by
  unfold pgOf
  rw [fPg_encA, guardOf_guardCode]

theorem fD_encA : fD (encA op pg d sa sb sc m) = d := by
  unfold fD encA
  iterate 4 rw [extractLsb'_append_eq_of_le (by decide)]
  exact extractLsb'_append_eq_right

theorem fSa_encA : fSa (encA op pg d sa sb sc m) = sa := by
  unfold fSa encA
  iterate 3 rw [extractLsb'_append_eq_of_le (by decide)]
  exact extractLsb'_append_eq_right

theorem fSb_encA : fSb (encA op pg d sa sb sc m) = sb := by
  unfold fSb encA
  iterate 2 rw [extractLsb'_append_eq_of_le (by decide)]
  exact extractLsb'_append_eq_right

theorem fSc_encA : fSc (encA op pg d sa sb sc m) = sc := by
  unfold fSc encA
  rw [extractLsb'_append_eq_of_le (by decide)]
  exact extractLsb'_append_eq_right

theorem fMod_encA : fMod (encA op pg d sa sb sc m) = m := by
  unfold fMod encA
  exact extractLsb'_append_eq_right

end

/-! ## Checks (R8, R264, R269) -/

/-- The lowest cause of a list, or of what stands before it. -/
def lowestFrom (m : Option Nat) (l : List (Bool × Nat)) : Option Nat :=
  l.foldl (fun m c => if c.1 then (match m with | none => some c.2 | some x => some (Nat.min x c.2)) else m) m

theorem lowest_eq_from (l : List (Bool × Nat)) : lowest l = lowestFrom none l := rfl

theorem lowestFrom_none_iff {l : List (Bool × Nat)} {m : Option Nat} : lowestFrom m l = none ↔ m = none ∧ ∀ c ∈ l, c.1 = false := by
  induction l generalizing m with
  | nil => exact ⟨fun h => ⟨h, fun _ hc => absurd hc List.not_mem_nil⟩, fun h => h.1⟩
  | cons c l ih =>
    rw [List.forall_mem_cons]
    refine Iff.trans ih ?_
    dsimp only
    by_cases hc : c.1 = true
    · rw [if_pos hc]
      cases m <;> simp [hc]
    · rw [if_neg hc]
      simp [hc]

/-- A word is read where none of its causes holds. -/
theorem chk_ok_iff {l : List (Bool × Nat)} {i j : Instr} : chk l i = .ok j ↔ i = j ∧ ∀ c ∈ l, c.1 = false := by
  have hlow : lowest l = none ↔ ∀ c ∈ l, c.1 = false := by
    rw [lowest_eq_from, lowestFrom_none_iff]
    exact ⟨fun h => h.2, fun h => ⟨rfl, h⟩⟩
  rw [← hlow]
  unfold chk
  cases lowest l with
  | none => simp
  | some c => simp

theorem chk_clear {l : List (Bool × Nat)} {i : Instr} (h : ∀ c ∈ l, c.1 = false) : chk l i = .ok i := chk_ok_iff.mpr ⟨rfl, h⟩

/-- At most one field names the literal, and a word stands there for it. -/
theorem litChk_clear_iff {rest : List Word} {fs : List (BitVec 11)} :
    (∀ c ∈ litChk rest fs, c.1 = false) ↔ (fs.filter isLitField).length ≤ 1 ∧ (rest = [] → fs.filter isLitField = []) := by
  unfold litChk
  cases rest with
  | nil => simp
  | cons x r => simp

/-- The code of a source that a word has or leaves unused. -/
def codeOf (o : Option Src) : BitVec 11 := o.elim unusedSrc srcCode

/-- The source fits the `k` registers that the word reads there; 0 where it has none. -/
def FitsAt (k : Nat) : Option Src → Prop
  | none => k = 0
  | some s => 0 < k ∧ s.wf k = true

theorem srcAt_codeOf {k : Nat} {s : Src} (h : FitsAt k (some s)) : srcAt (srcCode s) = s := srcAt_srcCode h.2 h.1

theorem unused_codeOf {k : Nat} {o : Option Src} (h : FitsAt k o) : (if k == 0 then codeOf o != unusedSrc else badSrc k (codeOf o)) = false := by
  cases o with
  | none =>
    obtain rfl : k = 0 := h
    rfl
  | some s =>
    obtain ⟨hk, hs⟩ := h
    rw [if_neg (by rw [beq_iff_eq]; omega)]
    exact badSrc_srcCode hs hk

theorem lit_codeOf (l : List (Option Src)) : ((l.map codeOf).filter isLitField).length = ((l.flatMap Option.toList).filter fun s => s.op.isLit).length := by
  induction l with
  | nil => rfl
  | cons o l ih =>
    rw [List.map_cons, List.flatMap_cons, List.filter_append, List.length_append, List.filter_cons, ← ih]
    cases o with
    | none => rw [show isLitField (codeOf none) = false from rfl]; simp
    | some s =>
      rw [show isLitField (codeOf (some s)) = s.op.isLit from isLitField_srcCode s]
      by_cases hs : s.op.isLit = true
      · simp [hs, Nat.add_comm]
      · simp [hs]

section
variable {op : BitVec 8} {pg : Guard} {d : BitVec 9} {a b c : Option Src} {m : BitVec 10} {rest : List Word} {ka kb kc : Nat} {bd bm : Bool} {i : Instr}

theorem badSrcs_encA (ha : FitsAt ka a) (hb : FitsAt kb b) (hc : FitsAt kc c) :
    badSrcs (encA op pg d (codeOf a) (codeOf b) (codeOf c) m) ka kb kc = false := by
  unfold badSrcs
  dsimp only
  rw [fSa_encA, fSb_encA, fSc_encA, unused_codeOf ha, unused_codeOf hb, unused_codeOf hc]
  rfl

/-- A word of format A whose operands fit, with a word after it, has no cause but its destination's and its modifiers'. -/
theorem aChk_clear (hrest : rest ≠ []) (hd : bd = false) (ha : FitsAt ka a) (hb : FitsAt kb b) (hc : FitsAt kc c)
    (hlit : oneLit (a.toList ++ b.toList ++ c.toList) = true) (hm : bm = false) :
    ∀ x ∈ aChk (encA op pg d (codeOf a) (codeOf b) (codeOf c) m) rest bd ka kb kc bm, x.1 = false := by
  have hlits : ∀ x ∈ litChk rest [codeOf a, codeOf b, codeOf c], x.1 = false := by
    refine litChk_clear_iff.mpr ⟨?_, fun h => absurd h hrest⟩
    rw [show [codeOf a, codeOf b, codeOf c] = [a, b, c].map codeOf from rfl, lit_codeOf]
    unfold oneLit at hlit
    simpa using hlit
  unfold aChk
  rw [fSa_encA, fSb_encA, fSc_encA, badSrcs_encA ha hb hc, hd, hm]
  intro x hx
  rcases List.mem_append.mp hx with hx | hx
  · exact hlits x hx
  · obtain rfl := List.mem_singleton.mp hx
    rfl

end

end Sys2Proof
end
section
/-! PROOFS of O4 and O5, part 2: the mod field of each word, coded and read back. -/

namespace Sys2Proof
-- One declaration after another, as in the Tests: the large proofs run side by side ask for too much memory.
set_option Elab.async false
open BitVec hiding and_assoc

/-! ## The codes of the modifiers -/

theorem fmodOf_fmodCode (m : FMod) : fmodOf (fmodCode m) = some m := by
  obtain ⟨cNeg, bNeg, bAbs, aNeg, aAbs, fmt, rnd⟩ := m
  cases fmt <;> cases rnd <;> revert cNeg bNeg bAbs aNeg aAbs <;> decide

theorem fmodAt_fmodCode (m : FMod) : fmodAt (fmodCode m) = m := by
  unfold fmodAt
  rw [fmodOf_fmodCode]
  rfl

theorem badFMod_fmodCode {ok : FMod → Bool} {m : FMod} (h : ok m = true) : badFMod ok (fmodCode m) = false := by
  unfold badFMod
  rw [fmodOf_fmodCode]
  dsimp only
  rw [h]
  rfl

/-- FCMP's condition stands where the rounding of the other words does. -/
theorem mod_fcmp (c : FCond) {m : FMod} (h : m.rnd = .rn) :
    (fmodCode m ||| (fcondCode c).setWidth 10) &&& 0x3F8 = fmodCode m ∧ fcondOf ((fmodCode m ||| (fcondCode c).setWidth 10).setWidth 3) = c := by
  obtain ⟨cNeg, bNeg, bAbs, aNeg, aAbs, fmt, rnd⟩ := m
  obtain rfl : rnd = .rn := h
  cases fmt <;> cases c <;> revert cNeg bNeg bAbs aNeg aAbs <;> decide

/-! ## The mod field of the integer words (R281) -/

theorem mod_none (mask : BitVec 10) : ((0 : BitVec 10) &&& ~~~mask != 0) = false := by
  exact congrArg (fun x : BitVec 10 => x != 0) BitVec.zero_and

theorem mod_plain : ((modI false false false 0) &&& ~~~0x000 != 0) = false := rfl

theorem mod_w : ∀ w64 : Bool, let m := modI w64 false false 0; (m &&& ~~~0x200 != 0) = false ∧ m.getLsbD 9 = w64 := by decide

theorem mod_wus : ∀ w64 u sat : Bool, let m := modI w64 u sat 0;
    (m &&& ~~~0x380 != 0) = false ∧ m.getLsbD 9 = w64 ∧ m.getLsbD 8 = u ∧ m.getLsbD 7 = sat := by decide

theorem mod_wu : ∀ w64 u : Bool, let m := modI w64 u false 0; (m &&& ~~~0x300 != 0) = false ∧ m.getLsbD 9 = w64 ∧ m.getLsbD 8 = u := by decide

theorem mod_ws : ∀ w64 sat : Bool, let m := modI w64 false sat 0; (m &&& ~~~0x280 != 0) = false ∧ m.getLsbD 9 = w64 ∧ m.getLsbD 7 = sat := by decide

theorem mod_us : ∀ u sat : Bool, let m := modI false u sat 0; (m &&& ~~~0x180 != 0) = false ∧ m.getLsbD 8 = u ∧ m.getLsbD 7 = sat := by decide

theorem mod_u : ∀ u : Bool, let m := modI false u false 0; (m &&& ~~~0x100 != 0) = false ∧ m.getLsbD 8 = u := by decide

theorem mod_wn : ∀ (w64 : Bool) (n : BitVec 3), let m := modI w64 false false (n.setWidth 7);
    (m &&& ~~~0x207 != 0) = false ∧ m.getLsbD 9 = w64 ∧ m.setWidth 3 = n := by decide

theorem mod_un : ∀ (u : Bool) (n : BitVec 3), let m := modI false u false (n.setWidth 7);
    (m &&& ~~~0x107 != 0) = false ∧ m.getLsbD 8 = u ∧ m.setWidth 3 = n := by decide

theorem mod_wl : ∀ w64 l : Bool, let m := modI w64 false false ((BitVec.ofBool l).setWidth 7);
    (m &&& ~~~0x201 != 0) = false ∧ m.getLsbD 9 = w64 ∧ m.getLsbD 0 = l := by decide

theorem mod_icmp (w64 u : Bool) (c : ICond) : let m := modI w64 u false ((icondCode c).setWidth 7);
    (m &&& ~~~0x307 != 0) = false ∧ m.getLsbD 9 = w64 ∧ m.getLsbD 8 = u ∧ icondOf (m.setWidth 3) = some c := by
  cases c <;> revert w64 u <;> decide

theorem mod_bool3 : ∀ (w64 : Bool) (t : BitVec 8), let m : BitVec 10 := BitVec.ofBool w64 ++ (0 : BitVec 1) ++ t;
    (m &&& ~~~0x2FF != 0) = false ∧ m.getLsbD 9 = w64 ∧ m.setWidth 8 = t := by decide +kernel

theorem mod_sel : ∀ (w64 neg : Bool) (n : BitVec 3), let m := modI w64 false false ((BitVec.ofBool neg ++ n).setWidth 7);
    (m &&& ~~~0x20F != 0) = false ∧ m.getLsbD 9 = w64 ∧ m.getLsbD 3 = neg ∧ m.setWidth 3 = n := by decide

theorem mod_cvti (du su sat : Bool) (src dst : IWidth) : let m := modI false su sat ((BitVec.ofBool du ++ iwCode dst ++ iwCode src).setWidth 7);
    (m &&& ~~~0x19F != 0) = false ∧ m.getLsbD 8 = su ∧ m.getLsbD 7 = sat ∧ m.getLsbD 4 = du ∧ iwOf (m.extractLsb' 2 2) = dst ∧ iwOf (m.setWidth 2) = src := by
  cases src <;> cases dst <;> revert du su sat <;> decide

theorem mod_pair : ∀ (w64 : Bool) (c n : BitVec 3), let m := modI w64 false false ((c ++ n).setWidth 7);
    (m &&& ~~~0x23F != 0) = false ∧ m.getLsbD 9 = w64 ∧ m.extractLsb' 3 3 = c ∧ m.setWidth 3 = n := by decide

theorem mod_vtop : ∀ (w64 : Bool) (c : BitVec 3), let m := modI w64 false false ((c ++ (0 : BitVec 3)).setWidth 7);
    (m &&& ~~~0x238 != 0) = false ∧ m.getLsbD 9 = w64 ∧ m.extractLsb' 3 3 = c := by decide

/-! ## The mod field of the cross-lane words -/

theorem mod_lanex_reg (w64 : Bool) (mode : LaneMode) : let m := modI w64 false false ((laneModeCode mode).setWidth 7);
    (m &&& ~~~0x27F != 0) = false ∧ m.getLsbD 9 = w64 ∧ m.getLsbD 2 = false ∧ (m &&& 0x078 != 0) = false ∧ m.getLsbD 6 = false ∧
      laneModeOf (m.setWidth 2) = mode := by
  cases mode <;> revert w64 <;> decide

theorem mod_lanex_width (w64 neg : Bool) (k : BitVec 3) (mode : LaneMode) :
    let m := modI w64 false false ((BitVec.ofBool neg ++ k ++ (1 : BitVec 1) ++ laneModeCode mode).setWidth 7);
    (m &&& ~~~0x27F != 0) = false ∧ m.getLsbD 9 = w64 ∧ m.getLsbD 2 = true ∧ m.getLsbD 6 = neg ∧ m.extractLsb' 3 3 = k ∧ laneModeOf (m.setWidth 2) = mode ∧
      m.getLsbD 0 = (mode == .rel || mode == .rot) := by
  cases mode <;> revert w64 neg k <;> decide

theorem mod_bcastl : ∀ w64 none_ : Bool, let m := modI w64 false false (if none_ then 1 else 0);
    (m &&& ~~~0x201 != 0) = false ∧ m.getLsbD 9 = w64 ∧ m.getLsbD 0 = none_ := by decide

theorem mod_pcensus : ∀ (mode : BitVec 3) (neg : Bool) (n : BitVec 3), let m : BitVec 10 := (mode ++ BitVec.ofBool neg ++ n).setWidth 10;
    (m &&& ~~~0x07F != 0) = false ∧ m.extractLsb' 4 3 = mode ∧ m.getLsbD 3 = neg ∧ m.setWidth 3 = n := by decide

theorem mod_red (w64 u : Bool) (op : RedOp) (rnd : Rnd) : let m := modI w64 u false ((redOpCode op ++ rndCode rnd).setWidth 7);
    (m &&& ~~~0x37F != 0) = false ∧ m.getLsbD 9 = w64 ∧ m.getLsbD 8 = u ∧ redOpOf (m.extractLsb' 3 4) = some op ∧ rndOf (m.setWidth 3) = some rnd := by
  cases op <;> cases rnd <;> revert w64 u <;> decide

theorem mod_scan (w64 u excl : Bool) (op : RedOp) (rnd : Rnd) : let m := modI w64 u excl ((redOpCode op ++ rndCode rnd).setWidth 7);
    m.getLsbD 9 = w64 ∧ m.getLsbD 8 = u ∧ m.getLsbD 7 = excl ∧ redOpOf (m.extractLsb' 3 4) = some op ∧ rndOf (m.setWidth 3) = some rnd := by
  cases op <;> cases rnd <;> revert w64 u excl <;> decide

theorem mod_redidx : ∀ max f u : Bool, let m := modI false u false ((BitVec.ofBool f ++ BitVec.ofBool max ++ BitVec.ofBool (!max)).setWidth 7);
    (m &&& ~~~0x107 != 0) = false ∧ m.getLsbD 8 = u ∧ m.getLsbD 0 = !max ∧ m.getLsbD 1 = max ∧ m.getLsbD 2 = f := by decide

/-! ## The mod field of the conversions (R319 to R323) -/

theorem mod_fmt (fmt : FFmt) : let m : BitVec 10 := (ffmtCode fmt).setWidth 10 <<< 3;
    (m &&& ~~~0x018 != 0) = false ∧ ffmtOf (m.extractLsb' 3 2) = some fmt := by cases fmt <;> decide

theorem mod_fcvt (src dst : CFmt) (rnd : Rnd) : let m : BitVec 10 := (cfmtCode src ++ cfmtCode dst ++ rndCode rnd).setWidth 10;
    (m &&& ~~~0x07F != 0) = false ∧ cfmtOf (m.extractLsb' 3 2) = dst ∧ cfmtOf (m.extractLsb' 5 2) = src ∧ rndOf (m.setWidth 3) = some rnd := by
  cases src <;> cases dst <;> cases rnd <;> decide

theorem mod_f2i (du d64 : Bool) (src : CFmt) (rnd : Rnd) : let m : BitVec 10 := (BitVec.ofBool du ++ BitVec.ofBool d64 ++ cfmtCode src ++ rndCode rnd).setWidth 10;
    (m &&& ~~~0x07F != 0) = false ∧ cfmtOf (m.extractLsb' 3 2) = src ∧ m.getLsbD 5 = d64 ∧ m.getLsbD 6 = du ∧ rndOf (m.setWidth 3) = some rnd := by
  cases src <;> cases rnd <;> revert du d64 <;> decide

theorem mod_amax (lanes : Bool) (fmt : FFmt) : let m : BitVec 10 := (BitVec.ofBool lanes ++ ffmtCode fmt ++ (0 : BitVec 3)).setWidth 10;
    (m &&& ~~~0x038 != 0) = false ∧ ffmtOf (m.extractLsb' 3 2) = some fmt ∧ m.getLsbD 5 = lanes := by
  cases fmt <;> revert lanes <;> decide

/-! ## Fields that stand alone -/

theorem mod_bit : ∀ b : Bool, let m : BitVec 10 := (BitVec.ofBool b).setWidth 10; (m &&& ~~~0x001 != 0) = false ∧ m.getLsbD 0 = b := by decide

theorem mod_ite (b : Bool) : ((if b then 1 else 0 : BitVec 10) &&& ~~~0x001 != 0) = false ∧ (if b then 1 else 0 : BitVec 10).getLsbD 0 = b := by
  cases b <;> decide

theorem mod_3 : ∀ n : BitVec 3, let m : BitVec 10 := n.setWidth 10; (m &&& ~~~0x007 != 0) = false ∧ m.setWidth 3 = n := by decide

theorem mod_4 : ∀ n : BitVec 4, let m : BitVec 10 := n.setWidth 10; (m &&& ~~~0x00F != 0) = false ∧ m.setWidth 4 = n := by decide

theorem mod_8 : ∀ n : BitVec 8, let m : BitVec 10 := n.setWidth 10; (m &&& ~~~0x0FF != 0) = false ∧ m.setWidth 8 = n ∧ (m == 0) = (n == 0) := by decide +kernel

theorem mod_10 : ∀ n : BitVec 10, (n &&& ~~~0x3FF != 0) = false := by decide +kernel

/-! ## The mod field of the engine, matrix, task and system words -/

theorem mod_copy (hoff hsrc hdst : Bool) (scope : Scope) (dir : CopyDir) :
    let m : BitVec 10 := (0 : BitVec 1) ++ BitVec.ofBool hoff ++ BitVec.ofBool hsrc ++ BitVec.ofBool hdst ++ scopeCode scope ++ dirCode dir;
    (m &&& ~~~0x1FF != 0) = false ∧ m.getLsbD 8 = hoff ∧ m.getLsbD 7 = hsrc ∧ m.getLsbD 6 = hdst ∧ scopeOf (m.extractLsb' 3 3) = some scope ∧
      dirOf (m.setWidth 3) = some dir := by
  cases scope <;> cases dir <;> revert hoff hsrc hdst <;> decide

theorem mod_xred (scope : Scope) (aop : AOp) (ty : AType) (s2g : Bool) : let m : BitVec 10 := scopeCode scope ++ aopCode aop ++ atypeCode ty ++ BitVec.ofBool s2g;
    m.getLsbD 0 = s2g ∧ atypeOf ((m.extractLsb' 1 3).setWidth 4) = some ty ∧ m.extractLsb' 4 3 = aopCode aop ∧ scopeOf (m.extractLsb' 7 3) = some scope := by
  cases scope <;> cases aop <;> cases ty <;> revert s2g <;> decide

theorem aopOf_aopCode (aop : AOp) : aopOf ((aopCode aop).setWidth 4) = some aop := by cases aop <;> rfl

theorem mod_strm (cp : Cp) (dims : BitVec 2) (sx : Bool) (ew : IWidth) (q : BitVec 3) : let m : BitVec 10 := cpCode cp ++ dims ++ BitVec.ofBool sx ++ iwCode ew ++ q;
    cpOf (m.extractLsb' 8 2) = some cp ∧ m.extractLsb' 6 2 = dims ∧ m.getLsbD 5 = sx ∧ iwOf (m.extractLsb' 3 2) = ew ∧ m.setWidth 3 = q := by
  cases cp <;> cases ew <;> revert dims sx q <;> decide

theorem mod_acc (scope : Scope) (raw s : Bool) : let m : BitVec 10 := (scopeCode scope ++ BitVec.ofBool raw ++ BitVec.ofBool s).setWidth 10;
    (m &&& ~~~0x01F != 0) = false ∧ m.getLsbD 0 = s ∧ m.getLsbD 1 = raw ∧ scopeOf (m.extractLsb' 2 3) = some scope := by
  cases scope <;> revert raw s <;> decide

theorem mod_spawn : ∀ (nb : Bool) (k : BitVec 4), let m : BitVec 10 := (BitVec.ofBool nb ++ k).setWidth 10;
    (m &&& ~~~0x01F != 0) = false ∧ m.getLsbD 4 = nb ∧ m.setWidth 4 = k := by decide

theorem mod_bwupd (die : Bool) (op : BwOp) (w : BitVec 4) : let m : BitVec 10 := (BitVec.ofBool die ++ bwCode op ++ w).setWidth 10;
    (m &&& ~~~0x07F != 0) = false ∧ m.setWidth 4 = w ∧ bwOf (m.extractLsb' 4 2) = some op ∧ m.getLsbD 6 = die := by
  cases op <;> revert die w <;> decide

theorem mod_bwrd : ∀ (w : BitVec 4) (n : BitVec 3), let m : BitVec 10 := (w ++ n).setWidth 10;
    (m &&& ~~~0x07F != 0) = false ∧ m.extractLsb' 3 4 = w ∧ m.setWidth 3 = n := by decide

theorem mod_tlbinv (form : TlbForm) : let m : BitVec 10 := (tlbFormCode form).setWidth 10;
    (m &&& ~~~0x003 != 0) = false ∧ tlbFormOf (m.setWidth 2) = some form := by cases form <;> decide

end Sys2Proof
end
section
/-! PROOFS of O4, part 3: the integer, floating-point and cross-lane words are read back. -/

namespace Sys2Proof
-- One declaration after another, as in the Tests: the large proofs run side by side ask for too much memory.
set_option Elab.async false
open BitVec hiding and_assoc

/-! ## Words of format A with their operands -/

section
variable (op : BitVec 8) (pg : Guard) (d : BitVec 9) (sa sb sc : BitVec 11) (m : BitVec 10)

theorem badMod_encA (mask : BitVec 10) : badMod (encA op pg d sa sb sc m) mask = (m &&& ~~~mask != 0) := by
  unfold badMod
  rw [fMod_encA]

theorem m9_encA : m9 (encA op pg d sa sb sc m) = m.getLsbD 9 := by
  unfold m9
  rw [fMod_encA]

theorem m8_encA : m8 (encA op pg d sa sb sc m) = m.getLsbD 8 := by
  unfold m8
  rw [fMod_encA]

theorem m7_encA : m7 (encA op pg d sa sb sc m) = m.getLsbD 7 := by
  unfold m7
  rw [fMod_encA]

theorem noD_encA : noD (encA op pg d sa sb sc m) = (d != unusedDst) := by
  unfold noD
  rw [fD_encA]

theorem badP_encA (p : BitVec 3) : badP (encA op pg (predCode p) sa sb sc m) = false := by
  unfold badP
  rw [fD_encA]
  exact badPred_predCode p

theorem badD_encA {o : Dst} {k : Nat} (h : o.fits k = true) (hk : 0 < k) : badD (encA op pg (dstCode o) sa sb sc m) k = false := by
  unfold badD
  rw [fD_encA]
  exact badDst_dstCode h hk h

theorem badLate_encA {o : Dst} {k : Nat} (h : o.late k = true) (hk : 0 < k) : badLate (encA op pg (dstCode o) sa sb sc m) k = false := by
  unfold badLate
  rw [fD_encA]
  exact badDst_dstCode (Dst.late_fits h) hk h

theorem badVog_encA {o : Dst} {k : Nat} (h : o.vog k = true) (hk : 0 < k) : badVog (encA op pg (dstCode o) sa sb sc m) k = false := by
  unfold badVog
  rw [fD_encA]
  exact badDst_dstCode (Dst.vog_fits h) hk h

end

/-- The words after a word that is no control word and no COPYM: one, of zeros. -/
theorem tableRest_one {w : Word} (h : ((0x70 ≤ fOp w && fOp w ≤ 0x76) || fOp w == 0xD2 || fOp w == 0xA1) = false) : tableRest w = [0] := by
  rw [Bool.or_eq_false_iff] at h
  unfold tableRest
  dsimp only
  rw [h.1, h.2]
  rfl

section
variable {op : BitVec 8} {pg : Guard} {d : BitVec 9} {sa sb sc : BitVec 11} {m : BitVec 10}

theorem tableRest_encA (h : ((0x70 ≤ op.toNat && op.toNat ≤ 0x76) || op.toNat == 0xD2 || op.toNat == 0xA1) = false) :
    tableRest (encA op pg d sa sb sc m) = [0] := tableRest_one (by rw [fOp_encA]; exact h)

end

section
variable {op : BitVec 8} {pg : Guard} {d : BitVec 9} {a b c : Option Src} {m : BitVec 10} {ka kb kc : Nat} {bd bm : Bool} {i : Instr}

/-- A word of format A whose operands fit, with a word after it, is read where its destination and its modifiers are. -/
theorem aWord_read (ha : FitsAt ka a) (hb : FitsAt kb b) (hc : FitsAt kc c) (hlit : oneLit (a.toList ++ b.toList ++ c.toList) = true)
    (hd : bd = false) (hm : bm = false) : chk (aChk (encA op pg d (codeOf a) (codeOf b) (codeOf c) m) [0] bd ka kb kc bm) i = .ok i :=
  chk_clear (aChk_clear (List.cons_ne_nil _ _) hd ha hb hc hlit hm)

end

section
variable {op : BitVec 8} {pg : Guard} {d : BitVec 9} {sb sc : BitVec 11} {m : BitVec 10} {kd ka kb kc : Nat} {i : Instr}

theorem A1.wf_d {o : A1} (h : o.wf kd ka = true) : o.d.fits kd = true := (Bool.and_eq_true_iff.mp h).1

theorem A1.wf_a {o : A1} (h : o.wf kd ka = true) : o.a.wf ka = true := (Bool.and_eq_true_iff.mp h).2

theorem A2.wf_iff {o : A2} : o.wf kd ka kb = true ↔ o.d.fits kd = true ∧ o.a.wf ka = true ∧ o.b.wf kb = true ∧ oneLit [o.a, o.b] = true := by
  simp only [A2.wf, Bool.and_eq_true, and_assoc]

theorem A2.wf_d {o : A2} (h : o.wf kd ka kb = true) : o.d.fits kd = true := (A2.wf_iff.mp h).1

theorem A3.wf_iff {o : A3} :
    o.wf kd ka kb kc = true ↔ o.d.fits kd = true ∧ o.a.wf ka = true ∧ o.b.wf kb = true ∧ o.c.wf kc = true ∧ oneLit [o.a, o.b, o.c] = true := by
  simp only [A3.wf, Bool.and_eq_true, and_assoc]

theorem A3.wf_d {o : A3} (h : o.wf kd ka kb kc = true) : o.d.fits kd = true := (A3.wf_iff.mp h).1

theorem P2.wf_iff {o : P2} : o.wf ka kb = true ↔ o.a.wf ka = true ∧ o.b.wf kb = true ∧ oneLit [o.a, o.b] = true := by
  simp only [P2.wf, Bool.and_eq_true, and_assoc]

theorem a1Of_encA {o : A1} (h : o.wf kd ka = true) (hd : 0 < kd) (ha : 0 < ka) :
    a1Of (encA op o.pg (dstCode o.d) (srcCode o.a) sb sc m) = o := by
  unfold a1Of
  rw [pgOf_encA, fD_encA, fSa_encA, dstAt_dstCode (A1.wf_d h) hd, srcAt_srcCode (A1.wf_a h) ha]

theorem a2Of_encA {o : A2} (h : o.wf kd ka kb = true) (hd : 0 < kd) (ha : 0 < ka) (hb : 0 < kb) :
    a2Of (encA op o.pg (dstCode o.d) (srcCode o.a) (srcCode o.b) sc m) = o := by
  obtain ⟨h1, h2, h3, -⟩ := A2.wf_iff.mp h
  unfold a2Of
  rw [pgOf_encA, fD_encA, fSa_encA, fSb_encA, dstAt_dstCode h1 hd, srcAt_srcCode h2 ha, srcAt_srcCode h3 hb]

theorem a3Of_encA {o : A3} (h : o.wf kd ka kb kc = true) (hd : 0 < kd) (ha : 0 < ka) (hb : 0 < kb) (hc : 0 < kc) :
    a3Of (encA op o.pg (dstCode o.d) (srcCode o.a) (srcCode o.b) (srcCode o.c) m) = o := by
  obtain ⟨h1, h2, h3, h4, -⟩ := A3.wf_iff.mp h
  unfold a3Of
  rw [pgOf_encA, fD_encA, fSa_encA, fSb_encA, fSc_encA, dstAt_dstCode h1 hd, srcAt_srcCode h2 ha, srcAt_srcCode h3 hb, srcAt_srcCode h4 hc]

theorem p2Of_encA {o : P2} (h : o.wf ka kb = true) (ha : 0 < ka) (hb : 0 < kb) :
    p2Of (encA op o.pg (predCode o.pd) (srcCode o.a) (srcCode o.b) sc m) = o := by
  obtain ⟨h1, h2, -⟩ := P2.wf_iff.mp h
  unfold p2Of
  rw [pgOf_encA, fD_encA, fSa_encA, fSb_encA, predAt_predCode, srcAt_srcCode h1 ha, srcAt_srcCode h2 hb]

theorem oneLit_one (s : Src) : oneLit [s] = true := by
  unfold oneLit
  rw [List.filter_cons]
  split <;> rfl

/-- A word without operands is read. -/
theorem a0_read : chk (aChk (encA op pg d unusedSrc unusedSrc unusedSrc m) [0] false 0 0 0 false) i = .ok i :=
  aWord_read (a := none) (b := none) (c := none) rfl rfl rfl rfl rfl rfl

/-- A word of one operand is read. -/
theorem a1_read {s : Src} (h : s.wf ka = true) (ha : 0 < ka) :
    chk (aChk (encA op pg d (srcCode s) unusedSrc unusedSrc m) [0] false ka 0 0 false) i = .ok i :=
  aWord_read (a := some s) (b := none) (c := none) ⟨ha, h⟩ rfl rfl (oneLit_one _) rfl rfl

/-- A word of two operands is read. -/
theorem a2_read {s t : Src} (h : s.wf ka = true ∧ t.wf kb = true ∧ oneLit [s, t] = true) (ha : 0 < ka) (hb : 0 < kb) :
    chk (aChk (encA op pg d (srcCode s) (srcCode t) unusedSrc m) [0] false ka kb 0 false) i = .ok i :=
  aWord_read (a := some s) (b := some t) (c := none) ⟨ha, h.1⟩ ⟨hb, h.2.1⟩ rfl h.2.2 rfl rfl

/-- A word of three operands is read. -/
theorem a3_read {s t u : Src} (h : s.wf ka = true ∧ t.wf kb = true ∧ u.wf kc = true ∧ oneLit [s, t, u] = true) (ha : 0 < ka) (hb : 0 < kb) (hc : 0 < kc) :
    chk (aChk (encA op pg d (srcCode s) (srcCode t) (srcCode u) m) [0] false ka kb kc false) i = .ok i :=
  aWord_read (a := some s) (b := some t) (c := some u) ⟨ha, h.1⟩ ⟨hb, h.2.1⟩ ⟨hc, h.2.2.1⟩ h.2.2.2 rfl rfl

end

theorem IWidth.k_pos (x : IWidth) : 0 < x.k := by cases x <;> decide

/-- The decoder reads the instruction back from its word. -/
def ReadsBack (i : Instr) : Prop := ∀ w, encode i = some w → decodeWord w (tableRest w) = .ok i

/-! ## Integer words -/

/-- A predicate named as a source is the integer specifier of its number (R297). -/
def predSrc (p : BitVec 3) : Src := ⟨.int (p.setWidth 4), false, false⟩

theorem pSrcCode_eq : ∀ p : BitVec 3, pSrcCode p = srcCode (predSrc p) := by decide

theorem badPSrc_pSrcCode : ∀ p : BitVec 3, badPSrc (pSrcCode p) = false := by decide

theorem pSrcAt_pSrcCode : ∀ p : BitVec 3, pSrcAt (pSrcCode p) = p := by decide

/-- The integer words: each has its mod field read back, its operands, and nothing else. -/
theorem integer_readsBack {i : Instr} {a : Machine.WordSpec} (ha : Machine.intSpec i = some a) (hwf : WellFormed i = true) : ReadsBack i := by
  intro w hw
  cases i
  case iadd o w64 u sat | isub o w64 u sat =>
    cases hw
    have hk := k64_pos w64
    obtain ⟨hm, h9, h8, h7⟩ := mod_wus w64 u sat
    rw [tableRest_encA rfl]
    simp only [decodeWord, decodeMap0, fOp_encA, BitVec.reduceToNat, Nat.reduceDiv, m9_encA, m8_encA, m7_encA, badMod_encA, a2Of_encA hwf hk hk hk, badD_encA _ _ _ _ _ _ (A2.wf_d hwf) hk, hm, h9, h8, h7]
    exact a2_read (A2.wf_iff.mp hwf).2 hk hk
  case iaddc o n w64 | isubb o n w64 =>
    cases hw
    have hk := k64_pos w64
    obtain ⟨hm, h9, hn⟩ := mod_wn w64 n
    rw [tableRest_encA rfl]
    simp only [decodeWord, decodeMap0, fOp_encA, BitVec.reduceToNat, Nat.reduceDiv, m9_encA, fMod_encA, badMod_encA, a2Of_encA hwf hk hk hk, badD_encA _ _ _ _ _ _ (A2.wf_d hwf) hk, hm, h9, hn]
    exact a2_read (A2.wf_iff.mp hwf).2 hk hk
  case ineg o w64 sat | iabs o w64 sat =>
    cases hw
    have hk := k64_pos w64
    obtain ⟨hm, h9, h7⟩ := mod_ws w64 sat
    rw [tableRest_encA rfl]
    simp only [decodeWord, decodeMap0, fOp_encA, BitVec.reduceToNat, Nat.reduceDiv, m9_encA, m7_encA, badMod_encA, a1Of_encA hwf hk hk, badD_encA _ _ _ _ _ _ (A1.wf_d hwf) hk, hm, h9, h7]
    exact a1_read (A1.wf_a hwf) hk
  case imul o w64 =>
    cases hw
    have hk := k64_pos w64
    obtain ⟨hm, h9⟩ := mod_w w64
    rw [tableRest_encA rfl]
    simp only [decodeWord, decodeMap0, fOp_encA, BitVec.reduceToNat, Nat.reduceDiv, m9_encA, badMod_encA, a2Of_encA hwf hk hk hk, badD_encA _ _ _ _ _ _ (A2.wf_d hwf) hk, hm, h9]
    exact a2_read (A2.wf_iff.mp hwf).2 hk hk
  case and o w64 | or o w64 | xor o w64 | andn o w64 =>
    cases hw
    have hk := k64_pos w64
    obtain ⟨hm, h9⟩ := mod_w w64
    rw [tableRest_encA rfl]
    simp only [decodeWord, decodeMap1, fOp_encA, BitVec.reduceToNat, Nat.reduceDiv, m9_encA, badMod_encA, a2Of_encA hwf hk hk hk, badD_encA _ _ _ _ _ _ (A2.wf_d hwf) hk, hm, h9]
    exact a2_read (A2.wf_iff.mp hwf).2 hk hk
  case imulhi o w64 u | imin o w64 u | imax o w64 u =>
    cases hw
    have hk := k64_pos w64
    obtain ⟨hm, h9, h8⟩ := mod_wu w64 u
    rw [tableRest_encA rfl]
    simp only [decodeWord, decodeMap0, fOp_encA, BitVec.reduceToNat, Nat.reduceDiv, m9_encA, m8_encA, badMod_encA, a2Of_encA hwf hk hk hk, badD_encA _ _ _ _ _ _ (A2.wf_d hwf) hk, hm, h9, h8]
    exact a2_read (A2.wf_iff.mp hwf).2 hk hk
  case imad o w64 =>
    cases hw
    have hk := k64_pos w64
    obtain ⟨hm, h9⟩ := mod_w w64
    rw [tableRest_encA rfl]
    simp only [decodeWord, decodeMap0, fOp_encA, BitVec.reduceToNat, Nat.reduceDiv, m9_encA, badMod_encA, a3Of_encA hwf hk hk hk hk, badD_encA _ _ _ _ _ _ (A3.wf_d hwf) hk, hm, h9]
    exact a3_read (A3.wf_iff.mp hwf).2 hk hk hk
  case icmp o c w64 u =>
    cases hw
    have hk := k64_pos w64
    obtain ⟨hm, h9, h8, hc⟩ := mod_icmp w64 u c
    rw [tableRest_encA rfl]
    simp only [decodeWord, decodeMap0, fOp_encA, BitVec.reduceToNat, Nat.reduceDiv, m9_encA, m8_encA, fMod_encA, badMod_encA, badP_encA, p2Of_encA hwf hk hk, Option.isNone_some, Option.getD_some, Bool.or_self, hm, h9, h8, hc]
    exact a2_read (P2.wf_iff.mp hwf) hk hk
  case not o w64 | popc o w64 | clz o w64 | ctz o w64 | brev o w64 =>
    cases hw
    have hk := k64_pos w64
    obtain ⟨hm, h9⟩ := mod_w w64
    rw [tableRest_encA rfl]
    simp only [decodeWord, decodeMap1, decodeMap2, fOp_encA, BitVec.reduceToNat, Nat.reduceDiv, m9_encA, badMod_encA, a1Of_encA hwf hk hk, badD_encA _ _ _ _ _ _ (A1.wf_d hwf) hk, hm, h9]
    exact a1_read (A1.wf_a hwf) hk
  case bool3 o t w64 =>
    cases hw
    have hk := k64_pos w64
    obtain ⟨hm, h9, ht⟩ := mod_bool3 w64 t
    rw [tableRest_encA rfl]
    simp only [decodeWord, decodeMap1, fOp_encA, BitVec.reduceToNat, Nat.reduceDiv, m9_encA, fMod_encA, badMod_encA, a3Of_encA hwf hk hk hk hk, badD_encA _ _ _ _ _ _ (A3.wf_d hwf) hk, hm, h9, ht]
    exact a3_read (A3.wf_iff.mp hwf).2 hk hk hk
  case shl o w64 | shr o w64 | shra o w64 | rotl o w64 =>
    cases hw
    have hk := k64_pos w64
    obtain ⟨hm, h9⟩ := mod_w w64
    rw [tableRest_encA rfl]
    simp only [decodeWord, decodeMap1, fOp_encA, BitVec.reduceToNat, Nat.reduceDiv, m9_encA, badMod_encA, a2Of_encA hwf hk hk Nat.one_pos, badD_encA _ _ _ _ _ _ (A2.wf_d hwf) hk, hm, h9]
    exact a2_read (A2.wf_iff.mp hwf).2 hk Nat.one_pos
  case funnel o l w64 =>
    cases hw
    have hk := k64_pos w64
    obtain ⟨hm, h9, hl⟩ := mod_wl w64 l
    rw [tableRest_encA rfl]
    simp only [decodeWord, decodeMap1, fOp_encA, BitVec.reduceToNat, Nat.reduceDiv, m9_encA, fMod_encA, badMod_encA, a3Of_encA hwf hk hk hk Nat.one_pos, badD_encA _ _ _ _ _ _ (A3.wf_d hwf) hk, hm, h9, hl]
    exact a3_read (A3.wf_iff.mp hwf).2 hk hk Nat.one_pos
  case bfe o w64 u =>
    cases hw
    have hk := k64_pos w64
    obtain ⟨hm, h9, h8⟩ := mod_wu w64 u
    rw [tableRest_encA rfl]
    simp only [decodeWord, decodeMap1, fOp_encA, BitVec.reduceToNat, Nat.reduceDiv, m9_encA, m8_encA, badMod_encA, a2Of_encA hwf hk hk Nat.one_pos, badD_encA _ _ _ _ _ _ (A2.wf_d hwf) hk, hm, h9, h8]
    exact a2_read (A2.wf_iff.mp hwf).2 hk Nat.one_pos
  case bfi o w64 =>
    cases hw
    have hk := k64_pos w64
    obtain ⟨hm, h9⟩ := mod_w w64
    rw [tableRest_encA rfl]
    simp only [decodeWord, decodeMap1, fOp_encA, BitVec.reduceToNat, Nat.reduceDiv, m9_encA, badMod_encA, a3Of_encA hwf hk hk hk Nat.one_pos, badD_encA _ _ _ _ _ _ (A3.wf_d hwf) hk, hm, h9]
    exact a3_read (A3.wf_iff.mp hwf).2 hk hk Nat.one_pos
  case bpick o =>
    cases hw
    rw [tableRest_encA rfl]
    simp only [decodeWord, decodeMap2, fOp_encA, BitVec.reduceToNat, Nat.reduceDiv, badMod_encA, mod_plain, a3Of_encA hwf Nat.one_pos Nat.one_pos Nat.one_pos Nat.one_pos, badD_encA _ _ _ _ _ _ (A3.wf_d hwf) Nat.one_pos]
    exact a3_read (A3.wf_iff.mp hwf).2 Nat.one_pos Nat.one_pos Nat.one_pos
  case lea o s u =>
    cases hw
    obtain ⟨hm, h8, hs⟩ := mod_un u s
    rw [tableRest_encA rfl]
    simp only [decodeWord, decodeMap2, fOp_encA, BitVec.reduceToNat, Nat.reduceDiv, m8_encA, fMod_encA, badMod_encA, a2Of_encA hwf Nat.two_pos Nat.two_pos Nat.one_pos, badD_encA _ _ _ _ _ _ (A2.wf_d hwf) Nat.two_pos, hm, h8, hs]
    exact a2_read (A2.wf_iff.mp hwf).2 Nat.two_pos Nat.one_pos
  case sel o n neg w64 =>
    cases hw
    have hk := k64_pos w64
    obtain ⟨hm, h9, hneg, hn⟩ := mod_sel w64 neg n
    rw [tableRest_encA rfl]
    simp only [decodeWord, decodeMap2, fOp_encA, BitVec.reduceToNat, Nat.reduceDiv, m9_encA, fMod_encA, badMod_encA, a2Of_encA hwf hk hk hk, badD_encA _ _ _ _ _ _ (A2.wf_d hwf) hk, hm, h9, hneg, hn]
    exact a2_read (A2.wf_iff.mp hwf).2 hk hk
  case vadd2 o u sat | vsub2 o u sat =>
    cases hw
    obtain ⟨hm, h8, h7⟩ := mod_us u sat
    rw [tableRest_encA rfl]
    simp only [decodeWord, decodeMap2, fOp_encA, BitVec.reduceToNat, Nat.reduceDiv, m8_encA, m7_encA, badMod_encA, a2Of_encA hwf Nat.one_pos Nat.one_pos Nat.one_pos, badD_encA _ _ _ _ _ _ (A2.wf_d hwf) Nat.one_pos, hm, h8, h7]
    exact a2_read (A2.wf_iff.mp hwf).2 Nat.one_pos Nat.one_pos
  case vmin2 o u | vmax2 o u =>
    cases hw
    obtain ⟨hm, h8⟩ := mod_u u
    rw [tableRest_encA rfl]
    simp only [decodeWord, decodeMap2, fOp_encA, BitVec.reduceToNat, Nat.reduceDiv, m8_encA, badMod_encA, a2Of_encA hwf Nat.one_pos Nat.one_pos Nat.one_pos, badD_encA _ _ _ _ _ _ (A2.wf_d hwf) Nat.one_pos, hm, h8]
    exact a2_read (A2.wf_iff.mp hwf).2 Nat.one_pos Nat.one_pos
  case acsel2 o n =>
    cases hw
    obtain ⟨hwf, hn5⟩ := Bool.and_eq_true_iff.mp hwf
    have hle : decide (5 < n.toNat) = false := decide_eq_false (Nat.not_lt.mpr (of_decide_eq_true hn5))
    obtain ⟨hm, hn⟩ := mod_3 n
    rw [tableRest_encA rfl]
    simp only [decodeWord, decodeMap2, fOp_encA, BitVec.reduceToNat, Nat.reduceDiv, fMod_encA, badMod_encA, hle, Bool.or_self, a3Of_encA hwf Nat.one_pos Nat.one_pos Nat.one_pos Nat.one_pos, badD_encA _ _ _ _ _ _ (A3.wf_d hwf) Nat.one_pos, hm, hn]
    exact a3_read (A3.wf_iff.mp hwf).2 Nat.one_pos Nat.one_pos Nat.one_pos
  case dot4 o u sat | dot2 o u sat =>
    cases hw
    obtain ⟨hm, h8, h7⟩ := mod_us u sat
    rw [tableRest_encA rfl]
    simp only [decodeWord, decodeMap2, fOp_encA, BitVec.reduceToNat, Nat.reduceDiv, m8_encA, m7_encA, badMod_encA, a3Of_encA hwf Nat.one_pos Nat.one_pos Nat.one_pos Nat.one_pos, badD_encA _ _ _ _ _ _ (A3.wf_d hwf) Nat.one_pos, hm, h8, h7]
    exact a3_read (A3.wf_iff.mp hwf).2 Nat.one_pos Nat.one_pos Nat.one_pos
  case cvti o src dst du su sat =>
    cases hw
    obtain ⟨hm, h8, h7, h4, hdst, hsrc⟩ := mod_cvti du su sat src dst
    rw [tableRest_encA rfl]
    simp only [decodeWord, decodeMap2, fOp_encA, BitVec.reduceToNat, Nat.reduceDiv, m8_encA, m7_encA, fMod_encA, badMod_encA, a1Of_encA hwf (IWidth.k_pos dst) (IWidth.k_pos src), badD_encA _ _ _ _ _ _ (A1.wf_d hwf) (IWidth.k_pos dst), hm, h8, h7, h4, hdst, hsrc]
    exact a1_read (A1.wf_a hwf) (IWidth.k_pos src)
  case pbool3 pg pd pa pb pc t =>
    cases hw
    obtain ⟨hm, ht, -⟩ := mod_8 t
    rw [tableRest_encA rfl]
    simp only [decodeWord, decodeMap6, fOp_encA, BitVec.reduceToNat, Nat.reduceDiv, pgOf_encA, fD_encA, fSa_encA, fSb_encA, fSc_encA, fMod_encA, badMod_encA, badP_encA, predAt_predCode, badPSrc_pSrcCode, pSrcAt_pSrcCode, Bool.or_self, hm, ht]
    rw [pSrcCode_eq, pSrcCode_eq, pSrcCode_eq]
    exact a3_read (s := predSrc pa) (t := predSrc pb) (u := predSrc pc) ⟨rfl, rfl, rfl, rfl⟩ Nat.one_pos Nat.one_pos Nat.one_pos
  case ptov o n c w64 =>
    cases hw
    have hk := k64_pos w64
    obtain ⟨hwf, hsum⟩ := Bool.and_eq_true_iff.mp hwf
    have hle : decide (7 < n.toNat + c.toNat) = false := decide_eq_false (Nat.not_lt.mpr (of_decide_eq_true hsum))
    obtain ⟨hm, h9, hc, hn⟩ := mod_pair w64 c n
    rw [tableRest_encA rfl]
    simp only [decodeWord, decodeMap6, fOp_encA, BitVec.reduceToNat, Nat.reduceDiv, m9_encA, fMod_encA, badMod_encA, hle, Bool.or_self, a2Of_encA hwf hk hk Nat.one_pos, badD_encA _ _ _ _ _ _ (A2.wf_d hwf) hk, hm, h9, hc, hn]
    exact a2_read (A2.wf_iff.mp hwf).2 hk Nat.one_pos
  case vtop o c w64 =>
    cases hw
    have hk := k64_pos w64
    obtain ⟨hwf, hsum⟩ := Bool.and_eq_true_iff.mp hwf
    have hle : decide (7 < o.pd.toNat + c.toNat) = false := decide_eq_false (Nat.not_lt.mpr (of_decide_eq_true hsum))
    obtain ⟨hm, h9, hc⟩ := mod_vtop w64 c
    rw [tableRest_encA rfl]
    simp only [decodeWord, decodeMap6, fOp_encA, BitVec.reduceToNat, Nat.reduceDiv, m9_encA, fMod_encA, fD_encA, badMod_encA, badP_encA, predAt_predCode, p2Of_encA hwf hk Nat.one_pos, hle, Bool.or_self, hm, h9, hc]
    exact a2_read (P2.wf_iff.mp hwf) hk Nat.one_pos
  all_goals cases ha

end Sys2Proof
end
section
/-! PROOFS of O4, part 4: the floating-point, cross-lane and move words are read back. -/

namespace Sys2Proof
-- One declaration after another, as in the Tests: the large proofs run side by side ask for too much memory.
set_option Elab.async false
open BitVec hiding and_assoc

/-! ## Words with a floating-point mod field -/

section
variable {op : BitVec 8} {m : FMod} {bd : Bool} {k : Nat} {ok : FMod → Bool}

theorem f1_read {o : A1} {f : A1 → FMod → Instr} (ho : o.wf k k = true) (hk : 0 < k) (hd : bd = false) (hm : ok m = true) :
    let w := encA op o.pg (dstCode o.d) (srcCode o.a) unusedSrc unusedSrc (fmodCode m)
    chk (aChk w [0] bd k 0 0 (badFMod ok (fmodCode m))) (f (a1Of w) (fmodAt (fmodCode m))) = .ok (f o m) := by
  dsimp only
  rw [badFMod_fmodCode hm, fmodAt_fmodCode, a1Of_encA ho hk hk, hd]
  exact a1_read (A1.wf_a ho) hk

theorem f2_read {o : A2} {f : A2 → FMod → Instr} (ho : o.wf k k k = true) (hk : 0 < k) (hd : bd = false) (hm : ok m = true) :
    let w := encA op o.pg (dstCode o.d) (srcCode o.a) (srcCode o.b) unusedSrc (fmodCode m)
    chk (aChk w [0] bd k k 0 (badFMod ok (fmodCode m))) (f (a2Of w) (fmodAt (fmodCode m))) = .ok (f o m) := by
  dsimp only
  rw [badFMod_fmodCode hm, fmodAt_fmodCode, a2Of_encA ho hk hk hk, hd]
  exact a2_read (A2.wf_iff.mp ho).2 hk hk

theorem f3_read {o : A3} {f : A3 → FMod → Instr} (ho : o.wf k k k k = true) (hk : 0 < k) (hd : bd = false) (hm : ok m = true) :
    let w := encA op o.pg (dstCode o.d) (srcCode o.a) (srcCode o.b) (srcCode o.c) (fmodCode m)
    chk (aChk w [0] bd k k k (badFMod ok (fmodCode m))) (f (a3Of w) (fmodAt (fmodCode m))) = .ok (f o m) := by
  dsimp only
  rw [badFMod_fmodCode hm, fmodAt_fmodCode, a3Of_encA ho hk hk hk hk, hd]
  exact a3_read (A3.wf_iff.mp ho).2 hk hk hk

end

theorem FMod.rn_of_wf {m : FMod} {a b c : Bool} (h : m.wf a b c false = true) : m.rnd = .rn := by
  unfold FMod.wf at h
  rw [Bool.and_eq_true, Bool.false_or, beq_iff_eq] at h
  exact h.2

theorem CFmt.k_pos (x : CFmt) : 0 < x.k := by cases x <;> decide

theorem and_true_of {b : Bool} (h : b = true) : (b && true) = true := by
  rw [h]
  rfl

/-- A CVTQ or CVTDQ record operand is a g register and reads back as one. -/
theorem isG_srcCode {s : Src} (h : s.wf 2 = true) (hg : (match s.op with | .g _ => true | _ => false) = true) : isG (srcCode s) = true := by
  obtain ⟨op, e, l⟩ := s
  unfold isG
  rw [srcOf_srcCode (Src.wf_fits h) Nat.two_pos]
  cases op with
  | g n => rfl
  | _ => cases hg

/-! ## Floating-point words -/

/-- AMAX is read back. -/
theorem amax_readsBack {o : A2} {fmt : FFmt} {lanes : Bool} (hwf : WellFormed (.amax o fmt lanes) = true) : ReadsBack (.amax o fmt lanes) := by
  intro w hw
  cases hw
  obtain ⟨hm, hf, h5⟩ := mod_amax lanes fmt
  rw [tableRest_encA rfl]
  simp only [decodeWord, decodeMap5, fOp_encA, BitVec.reduceToNat, Nat.reduceDiv, fMod_encA, badMod_encA, a2Of_encA hwf Nat.one_pos Nat.one_pos Nat.one_pos, badD_encA _ _ _ _ _ _ (A2.wf_d hwf) Nat.one_pos, Option.isNone_some, Option.getD_some, Bool.or_self, hm, hf, h5]
  exact a2_read (A2.wf_iff.mp hwf).2 Nat.one_pos Nat.one_pos

/-- The floating-point words with an immediate result: the mod field of R308, or a format, is read back. -/
theorem float_readsBack {i : Instr} {a : Machine.WordSpec} (ha : Machine.floatNow i = some a) (hwf : WellFormed i = true) : ReadsBack i := by
  intro w hw
  cases i
  case fadd o m | fsub o m | fmul o m | fmin o m | fmax o m | fminp o m | fmaxp o m =>
    cases hw
    obtain ⟨ho, hm⟩ := Bool.and_eq_true_iff.mp hwf
    rw [tableRest_encA rfl]
    simp only [decodeWord, decodeMap3, fOp_encA, BitVec.reduceToNat, Nat.reduceDiv, fMod_encA]
    exact f2_read ho Nat.one_pos (badD_encA _ _ _ _ _ _ (A2.wf_d ho) Nat.one_pos) (and_true_of hm)
  case ffma o m =>
    cases hw
    obtain ⟨ho, hm⟩ := Bool.and_eq_true_iff.mp hwf
    rw [tableRest_encA rfl]
    simp only [decodeWord, decodeMap3, fOp_encA, BitVec.reduceToNat, Nat.reduceDiv, fMod_encA]
    exact f3_read ho Nat.one_pos (badD_encA _ _ _ _ _ _ (A3.wf_d ho) Nat.one_pos) (and_true_of hm)
  case fcmp o c m =>
    cases hw
    obtain ⟨ho, hm⟩ := Bool.and_eq_true_iff.mp hwf
    obtain ⟨hf, hc⟩ := mod_fcmp c (FMod.rn_of_wf hm)
    rw [tableRest_encA rfl]
    simp only [decodeWord, decodeMap3, fOp_encA, BitVec.reduceToNat, Nat.reduceDiv, fMod_encA, badP_encA, p2Of_encA ho Nat.one_pos Nat.one_pos, hf, hc, fmodAt_fmodCode, badFMod_fmodCode hm]
    exact a2_read (P2.wf_iff.mp ho) Nat.one_pos Nat.one_pos
  case fclass o fmt =>
    cases hw
    obtain ⟨hm, hf⟩ := mod_fmt fmt
    rw [tableRest_encA rfl]
    simp only [decodeWord, decodeMap3, fOp_encA, BitVec.reduceToNat, Nat.reduceDiv, fMod_encA, badMod_encA, a1Of_encA hwf Nat.one_pos Nat.one_pos, badD_encA _ _ _ _ _ _ (A1.wf_d hwf) Nat.one_pos, Option.isNone_some, Option.getD_some, Bool.or_self, hm, hf]
    exact a1_read (A1.wf_a hwf) Nat.one_pos
  case fcopysgn o fmt =>
    cases hw
    obtain ⟨hm, hf⟩ := mod_fmt fmt
    rw [tableRest_encA rfl]
    simp only [decodeWord, decodeMap3, fOp_encA, BitVec.reduceToNat, Nat.reduceDiv, fMod_encA, badMod_encA, a2Of_encA hwf Nat.one_pos Nat.one_pos Nat.one_pos, badD_encA _ _ _ _ _ _ (A2.wf_d hwf) Nat.one_pos, Option.isNone_some, Option.getD_some, Bool.or_self, hm, hf]
    exact a2_read (A2.wf_iff.mp hwf).2 Nat.one_pos Nat.one_pos
  case frnd o m =>
    cases hw
    obtain ⟨ho, hm⟩ := Bool.and_eq_true_iff.mp hwf
    rw [tableRest_encA rfl]
    simp only [decodeWord, decodeMap3, fOp_encA, BitVec.reduceToNat, Nat.reduceDiv, fMod_encA]
    exact f1_read ho Nat.one_pos (badD_encA _ _ _ _ _ _ (A1.wf_d ho) Nat.one_pos) (and_true_of hm)
  case hadd2 o m | hmul2 o m | hmin2 o m | hmax2 o m =>
    cases hw
    obtain ⟨hom, hh⟩ := Bool.and_eq_true_iff.mp hwf
    obtain ⟨ho, hm⟩ := Bool.and_eq_true_iff.mp hom
    rw [tableRest_encA rfl]
    simp only [decodeWord, decodeMap4, fOp_encA, BitVec.reduceToNat, Nat.reduceDiv, fMod_encA]
    exact f2_read ho Nat.one_pos (badD_encA _ _ _ _ _ _ (A2.wf_d ho) Nat.one_pos) (Bool.and_eq_true_iff.mpr ⟨hm, hh⟩)
  case hfma2 o m | hdot2 o m =>
    cases hw
    obtain ⟨hom, hh⟩ := Bool.and_eq_true_iff.mp hwf
    obtain ⟨ho, hm⟩ := Bool.and_eq_true_iff.mp hom
    rw [tableRest_encA rfl]
    simp only [decodeWord, decodeMap4, fOp_encA, BitVec.reduceToNat, Nat.reduceDiv, fMod_encA]
    exact f3_read ho Nat.one_pos (badD_encA _ _ _ _ _ _ (A3.wf_d ho) Nat.one_pos) (Bool.and_eq_true_iff.mpr ⟨hm, hh⟩)
  case fcvt o dst src rnd =>
    cases hw
    obtain ⟨hm, hdst, hsrc, hr⟩ := mod_fcvt src dst rnd
    rw [tableRest_encA rfl]
    simp only [decodeWord, decodeMap4, fOp_encA, BitVec.reduceToNat, Nat.reduceDiv, fMod_encA, badMod_encA, a1Of_encA hwf (CFmt.k_pos dst) (CFmt.k_pos src), badD_encA _ _ _ _ _ _ (A1.wf_d hwf) (CFmt.k_pos dst), Option.isNone_some, Option.getD_some, Bool.or_self, hm, hdst, hsrc, hr]
    exact a1_read (A1.wf_a hwf) (CFmt.k_pos src)
  case f2i o src rnd d64 du =>
    cases hw
    have hk := k64_pos d64
    obtain ⟨hm, hsrc, h5, h6, hr⟩ := mod_f2i du d64 src rnd
    rw [tableRest_encA rfl]
    simp only [decodeWord, decodeMap4, fOp_encA, BitVec.reduceToNat, Nat.reduceDiv, fMod_encA, badMod_encA, a1Of_encA hwf hk (CFmt.k_pos src), badD_encA _ _ _ _ _ _ (A1.wf_d hwf) hk, Option.isNone_some, Option.getD_some, Bool.or_self, hm, hsrc, h5, h6, hr]
    exact a1_read (A1.wf_a hwf) (CFmt.k_pos src)
  case i2f o dst rnd s64 su =>
    cases hw
    have hk := k64_pos s64
    obtain ⟨hm, hdst, h5, h6, hr⟩ := mod_f2i su s64 dst rnd
    rw [tableRest_encA rfl]
    simp only [decodeWord, decodeMap5, fOp_encA, BitVec.reduceToNat, Nat.reduceDiv, fMod_encA, badMod_encA, a1Of_encA hwf (CFmt.k_pos dst) hk, badD_encA _ _ _ _ _ _ (A1.wf_d hwf) (CFmt.k_pos dst), Option.isNone_some, Option.getD_some, Bool.or_self, hm, hdst, h5, h6, hr]
    exact a1_read (A1.wf_a hwf) hk
  case cvtq o desc | cvtdq o desc =>
    cases hw
    obtain ⟨hm, h0⟩ := mod_bit desc
    rw [tableRest_encA rfl]
    simp only [decodeWord, decodeMap5, fOp_encA, BitVec.reduceToNat, Nat.reduceDiv, fMod_encA, fSb_encA, badMod_encA, hm, h0]
    cases desc with
    | true =>
      have ho : o.wf 1 1 1 = true := hwf
      rw [a2Of_encA ho Nat.one_pos Nat.one_pos Nat.one_pos, badD_encA _ _ _ _ _ _ (A2.wf_d ho) Nat.one_pos]
      exact a2_read (A2.wf_iff.mp ho).2 Nat.one_pos Nat.one_pos
    | false =>
      obtain ⟨ho, hg⟩ := Bool.and_eq_true_iff.mp hwf
      rw [a2Of_encA ho Nat.one_pos Nat.one_pos Nat.two_pos, badD_encA _ _ _ _ _ _ (A2.wf_d ho) Nat.one_pos, isG_srcCode (A2.wf_iff.mp ho).2.2.1 hg]
      exact a2_read (A2.wf_iff.mp ho).2 Nat.one_pos Nat.two_pos
  case amax => exact amax_readsBack hwf w hw
  all_goals cases ha

/-- The words whose result comes late: their destination is one that waits. -/
theorem late_readsBack {i : Instr} {a : Machine.WordSpec} (ha : Machine.lateSpec i = some a) (hwf : WellFormed i = true) : ReadsBack i := by
  intro w hw
  cases i
  case idiv o w64 u | irem o w64 u =>
    cases hw
    have hk := k64_pos w64
    obtain ⟨ho, hl⟩ := Bool.and_eq_true_iff.mp hwf
    obtain ⟨hm, h9, h8⟩ := mod_wu w64 u
    rw [tableRest_encA rfl]
    simp only [decodeWord, decodeMap0, fOp_encA, BitVec.reduceToNat, Nat.reduceDiv, m9_encA, m8_encA, badMod_encA, a2Of_encA ho hk hk hk, badLate_encA _ _ _ _ _ _ hl hk, hm, h9, h8]
    exact a2_read (A2.wf_iff.mp ho).2 hk hk
  case fdiv o m =>
    cases hw
    obtain ⟨holm, h32⟩ := Bool.and_eq_true_iff.mp hwf
    obtain ⟨hol, hm⟩ := Bool.and_eq_true_iff.mp holm
    obtain ⟨ho, hl⟩ := Bool.and_eq_true_iff.mp hol
    rw [tableRest_encA rfl]
    simp only [decodeWord, decodeMap3, fOp_encA, BitVec.reduceToNat, Nat.reduceDiv, fMod_encA]
    exact f2_read ho Nat.one_pos (badLate_encA _ _ _ _ _ _ hl Nat.one_pos) (Bool.and_eq_true_iff.mpr ⟨hm, h32⟩)
  case fsqrt o m | frcp o m | frsq o m | fexp2 o m | flog2 o m | fsinpi o m | fcospi o m | ftanh o m =>
    cases hw
    obtain ⟨holm, h32⟩ := Bool.and_eq_true_iff.mp hwf
    obtain ⟨hol, hm⟩ := Bool.and_eq_true_iff.mp holm
    obtain ⟨ho, hl⟩ := Bool.and_eq_true_iff.mp hol
    rw [tableRest_encA rfl]
    simp only [decodeWord, decodeMap3, decodeMap4, fOp_encA, BitVec.reduceToNat, Nat.reduceDiv, fMod_encA]
    exact f1_read ho Nat.one_pos (badLate_encA _ _ _ _ _ _ hl Nat.one_pos) (Bool.and_eq_true_iff.mpr ⟨hm, h32⟩)
  case dadd o m | dmul o m =>
    cases hw
    obtain ⟨holm, h32⟩ := Bool.and_eq_true_iff.mp hwf
    obtain ⟨hol, hm⟩ := Bool.and_eq_true_iff.mp holm
    obtain ⟨ho, hl⟩ := Bool.and_eq_true_iff.mp hol
    rw [tableRest_encA rfl]
    simp only [decodeWord, decodeMap4, fOp_encA, BitVec.reduceToNat, Nat.reduceDiv, fMod_encA]
    exact f2_read ho Nat.two_pos (badLate_encA _ _ _ _ _ _ hl Nat.two_pos) (Bool.and_eq_true_iff.mpr ⟨hm, h32⟩)
  case dfma o m =>
    cases hw
    obtain ⟨holm, h32⟩ := Bool.and_eq_true_iff.mp hwf
    obtain ⟨hol, hm⟩ := Bool.and_eq_true_iff.mp holm
    obtain ⟨ho, hl⟩ := Bool.and_eq_true_iff.mp hol
    rw [tableRest_encA rfl]
    simp only [decodeWord, decodeMap4, fOp_encA, BitVec.reduceToNat, Nat.reduceDiv, fMod_encA]
    exact f3_read ho Nat.two_pos (badLate_encA _ _ _ _ _ _ hl Nat.two_pos) (Bool.and_eq_true_iff.mpr ⟨hm, h32⟩)
  all_goals cases ha

/-! ## Cross-lane words -/

theorem neg_width_allowed {neg : Bool} {mode : LaneMode} (h : (!neg || mode == .rel || mode == .rot) = true) : (neg && !(mode == .rel || mode == .rot)) = false := by
  cases neg with
  | false => rfl
  | true =>
    rw [Bool.true_and, Bool.not_eq_false']
    exact h

/-- LANEX is read back, with its offset in a register or in the mod field. -/
theorem lanex_readsBack {o : A1} {mode : LaneMode} {off : LaneOff} {w64 : Bool} (hwf : WellFormed (.lanex o mode off w64) = true) :
    ReadsBack (.lanex o mode off w64) := by
  intro w hw
  have hk := k64_pos w64
  obtain ⟨ho, hoff⟩ := Bool.and_eq_true_iff.mp hwf
  cases off with
  | reg b =>
    cases hw
    obtain ⟨hb, hlit⟩ := Bool.and_eq_true_iff.mp hoff
    obtain ⟨hm, h9, h2, hz, h6, hmode⟩ := mod_lanex_reg w64 mode
    rw [tableRest_encA rfl]
    simp only [decodeWord, decodeMap6, fOp_encA, BitVec.reduceToNat, Nat.reduceDiv, m9_encA, fMod_encA, fSb_encA, badMod_encA, a1Of_encA ho hk hk, badD_encA _ _ _ _ _ _ (A1.wf_d ho) hk, hm, h9, h2, hz, h6, hmode,
      Bool.and_false, Bool.false_and, Bool.or_self, Bool.false_eq_true, if_false, srcAt_srcCode hb Nat.one_pos]
    exact a2_read ⟨A1.wf_a ho, hb, hlit⟩ hk Nat.one_pos
  | width k neg =>
    cases hw
    obtain ⟨hm, h9, h2, h6, hkk, hmode, h0⟩ := mod_lanex_width w64 neg k mode
    have hneg : (neg && !(mode == .rel || mode == .rot)) = false := neg_width_allowed hoff
    rw [tableRest_encA rfl]
    simp only [decodeWord, decodeMap6, fOp_encA, BitVec.reduceToNat, Nat.reduceDiv, m9_encA, fMod_encA, badMod_encA, a1Of_encA ho hk hk, badD_encA _ _ _ _ _ _ (A1.wf_d ho) hk, hm, h9, h2, h6, hkk, hmode, h0, hneg,
      Bool.not_true, Bool.false_and, Bool.or_self, if_true]
    exact a1_read (A1.wf_a ho) hk

/-- BCASTL is read back, with or without the lane it names. -/
theorem bcastl_readsBack {o : A1} {b : Option Src} {w64 : Bool} (hwf : WellFormed (.bcastl o b w64) = true) : ReadsBack (.bcastl o b w64) := by
  intro w hw
  have hk := k64_pos w64
  obtain ⟨ho, hb⟩ := Bool.and_eq_true_iff.mp hwf
  obtain ⟨hm, h9, h0⟩ := mod_bcastl w64 b.isNone
  cases b with
  | none =>
    cases hw
    rw [tableRest_encA rfl]
    simp only [Option.isNone_none, if_true] at hm h9 h0
    simp only [decodeWord, decodeMap6, fOp_encA, BitVec.reduceToNat, Nat.reduceDiv, m9_encA, fMod_encA, badMod_encA, a1Of_encA ho hk hk, badD_encA _ _ _ _ _ _ (A1.wf_d ho) hk, Option.isNone_none, if_true, hm, h9, h0]
    exact a1_read (A1.wf_a ho) hk
  | some b =>
    cases hw
    obtain ⟨hbw, hlit⟩ := Bool.and_eq_true_iff.mp hb
    rw [tableRest_encA rfl]
    simp only [Option.isNone_some, Bool.false_eq_true, if_false] at hm h9 h0
    simp only [decodeWord, decodeMap6, fOp_encA, BitVec.reduceToNat, Nat.reduceDiv, m9_encA, fMod_encA, fSb_encA, badMod_encA, a1Of_encA ho hk hk, badD_encA _ _ _ _ _ _ (A1.wf_d ho) hk, Option.isNone_some, Option.elim_some,
      Bool.false_eq_true, if_false, hm, h9, h0, srcAt_srcCode hbw Nat.one_pos]
    exact a2_read ⟨A1.wf_a ho, hbw, hlit⟩ hk Nat.one_pos

/-- PCENSUS is read back: the mode says whether its destination is a predicate or a register. -/
theorem pcensus_readsBack {pg : Guard} {c : Census} {n : BitVec 3} {neg : Bool} (hwf : WellFormed (.pcensus pg c n neg) = true) : ReadsBack (.pcensus pg c n neg) := by
  intro w hw
  cases hw
  obtain ⟨hm, hmode, h3, hn⟩ := mod_pcensus (censusMode c) neg n
  rw [tableRest_encA rfl]
  simp only [decodeWord, decodeMap6, fOp_encA, BitVec.reduceToNat, Nat.reduceDiv]
  simp only [fMod_encA, badMod_encA, pgOf_encA, hm, hmode, h3, hn, censusPred, censusOf]
  cases c with
  | all p | any p | same p =>
    simp only [censusMode, censusDst, fD_encA, predAt_predCode, badP_encA]
    exact a0_read
  | mask d =>
    simp only [censusMode, censusDst, fD_encA, dstAt_dstCode (Dst.vog_fits hwf) Nat.two_pos]
    exact (congrArg (fun b => chk (aChk _ _ b 0 0 0 false) _) (badVog_encA _ _ _ _ _ _ hwf Nat.two_pos)).trans a0_read
  | count d =>
    simp only [censusMode, censusDst, fD_encA, dstAt_dstCode (Dst.vog_fits hwf) Nat.one_pos]
    exact (congrArg (fun b => chk (aChk _ _ b 0 0 0 false) _) (badVog_encA _ _ _ _ _ _ hwf Nat.one_pos)).trans a0_read

/-- The cross-lane words. -/
theorem cross_readsBack {i : Instr} {a : Machine.CrossSpec} (ha : Machine.crossSpec i = some a) (hwf : WellFormed i = true) : ReadsBack i := by
  cases i
  case lanex => exact lanex_readsBack hwf
  case bcastl => exact bcastl_readsBack hwf
  case pcensus => exact pcensus_readsBack hwf
  case amax => exact amax_readsBack hwf
  case actmask pg d =>
    intro w hw
    cases hw
    rw [tableRest_encA rfl]
    simp only [decodeWord, decodeMap6, fOp_encA, BitVec.reduceToNat, Nat.reduceDiv, pgOf_encA, fD_encA, badMod_encA, mod_none, badVog_encA _ _ _ _ _ _ hwf Nat.two_pos, dstAt_dstCode (Dst.vog_fits hwf) Nat.two_pos]
    exact a0_read
  case matchL o f w64 =>
    intro w hw
    cases hw
    have hk := k64_pos w64
    obtain ⟨hd, hs⟩ := Bool.and_eq_true_iff.mp hwf
    have ho : o.wf 2 (k64 w64) = true := Bool.and_eq_true_iff.mpr ⟨Dst.vog_fits hd, hs⟩
    obtain ⟨hm, h9, h0⟩ := mod_wl w64 f
    rw [tableRest_encA rfl]
    simp only [decodeWord, decodeMap6, fOp_encA, BitVec.reduceToNat, Nat.reduceDiv, m9_encA, fMod_encA, badMod_encA, a1Of_encA ho Nat.two_pos hk, badVog_encA _ _ _ _ _ _ hd Nat.two_pos, hm, h9, h0]
    exact a1_read hs hk
  case redls o op rnd u w64 =>
    intro w hw
    cases hw
    have hk := k64_pos w64
    obtain ⟨ho, hop⟩ := Bool.and_eq_true_iff.mp hwf
    obtain ⟨hm, h9, h8, hr, hrnd⟩ := mod_red w64 u op rnd
    rw [tableRest_encA rfl]
    simp only [decodeWord, decodeMap6, fOp_encA, BitVec.reduceToNat, Nat.reduceDiv, m9_encA, m8_encA, fMod_encA, badMod_encA, a1Of_encA ho hk hk, badD_encA _ _ _ _ _ _ (A1.wf_d ho) hk, Option.isNone_some, Option.getD_some,
      Bool.or_self, Bool.not_true, hm, h9, h8, hr, hrnd, hop]
    exact a1_read (A1.wf_a ho) hk
  case scan o op rnd u excl w64 =>
    intro w hw
    cases hw
    have hk := k64_pos w64
    obtain ⟨ho, hop⟩ := Bool.and_eq_true_iff.mp hwf
    obtain ⟨h9, h8, h7, hr, hrnd⟩ := mod_scan w64 u excl op rnd
    rw [tableRest_encA rfl]
    simp only [decodeWord, decodeMap6, fOp_encA, BitVec.reduceToNat, Nat.reduceDiv, m9_encA, m8_encA, m7_encA, fMod_encA, a1Of_encA ho hk hk, badD_encA _ _ _ _ _ _ (A1.wf_d ho) hk, Option.isNone_some, Option.getD_some,
      Bool.or_self, Bool.not_true, h9, h8, h7, hr, hrnd, hop]
    exact a1_read (A1.wf_a ho) hk
  case redidx o max f u =>
    intro w hw
    cases hw
    simp only [WellFormed, Bool.and_eq_true] at hwf
    obtain ⟨⟨⟨⟨hd, h1⟩, h2⟩, hlit⟩, hfu⟩ := hwf
    have ho : o.wf 2 1 1 = true := A2.wf_iff.mpr ⟨Dst.vog_fits hd, h1, h2, hlit⟩
    have hfu' : (f && u) = false := (Bool.not_eq_true' _).mp hfu
    have hmax : ((!max) == max) = false := by cases max <;> rfl
    obtain ⟨hm, h8, h0, h1', h2'⟩ := mod_redidx max f u
    rw [tableRest_encA rfl]
    simp only [decodeWord, decodeMap6, fOp_encA, BitVec.reduceToNat, Nat.reduceDiv]
    simp only [m8_encA, fMod_encA, badMod_encA, a2Of_encA ho Nat.two_pos Nat.one_pos Nat.one_pos, badVog_encA _ _ _ _ _ _ hd Nat.two_pos, hm, h8, h0, h1', h2',
      hfu', hmax, Bool.or_self]
    exact a2_read ⟨h1, h2, hlit⟩ Nat.one_pos Nat.one_pos
  all_goals cases ha

/-! ## Moves -/

theorem mov_readsBack {o : A1} {w64 : Bool} (hwf : WellFormed (.mov o w64) = true) : ReadsBack (.mov o w64) := by
  intro w hw
  cases hw
  have hk := k64_pos w64
  obtain ⟨hm, h9⟩ := mod_w w64
  rw [tableRest_encA rfl]
  simp only [decodeWord, decodeMap0, fOp_encA, BitVec.reduceToNat, Nat.reduceDiv, m9_encA, badMod_encA, a1Of_encA hwf hk hk, badD_encA _ _ _ _ _ _ (A1.wf_d hwf) hk, hm, h9]
  exact a1_read (A1.wf_a hwf) hk

/-- The registers that carry components (R411), as a source and as a destination. -/
theorem badTmov_encA {op : BitVec 8} {o : A1} {js jd : BitVec 3} {w64 : Bool} (hwf : WellFormed (.tmov o js jd w64) = true) :
    badTmov (encA op o.pg (dstCode o.d) (srcCode o.a) unusedSrc unusedSrc (modI w64 false false ((jd ++ js).setWidth 7))) = false := by
  simp only [WellFormed, Bool.and_eq_true, Bool.or_eq_true, decide_eq_true_eq] at hwf
  obtain ⟨⟨⟨⟨ho, hjs⟩, hjd⟩, ha⟩, hd⟩ := hwf
  have hk := k64_pos w64
  obtain ⟨-, -, hc, hn⟩ := mod_pair w64 jd js
  unfold badTmov
  simp only [fMod_encA, fSa_encA, fD_encA, hc, hn, srcOf_srcCode (Src.wf_fits (A1.wf_a ho)) hk, dstOf_dstCode (A1.wf_d ho) hk, Bool.or_eq_false_iff, Bool.and_eq_false_iff,
    decide_eq_false_iff_not, Nat.not_lt, bne_eq_false_iff_eq, Bool.not_eq_false']
  refine ⟨⟨⟨hjs, hjd⟩, ?_⟩, ?_⟩
  · refine ha.imp beq_iff_eq.mp fun h => ?_
    obtain ⟨pg, d, ⟨op, e, l⟩⟩ := o
    cases op with
    | v n => rfl
    | o n => rfl
    | _ => cases h
  · refine hd.imp beq_iff_eq.mp fun h => ?_
    obtain ⟨pg, d, a⟩ := o
    cases d with
    | v n => rfl
    | o n => rfl
    | _ => cases h

theorem tmov_readsBack {o : A1} {js jd : BitVec 3} {w64 : Bool} (hwf : WellFormed (.tmov o js jd w64) = true) : ReadsBack (.tmov o js jd w64) := by
  intro w hw
  cases hw
  have hk := k64_pos w64
  have hbad := badTmov_encA (op := 0xCB) hwf
  simp only [WellFormed, Bool.and_eq_true] at hwf
  obtain ⟨⟨⟨⟨ho, -⟩, -⟩, -⟩, -⟩ := hwf
  obtain ⟨hm, h9, hc, hn⟩ := mod_pair w64 jd js
  rw [tableRest_encA rfl]
  simp only [decodeWord, decodeMapC, fOp_encA, BitVec.reduceToNat, Nat.reduceDiv, m9_encA, fMod_encA, badMod_encA, hbad, Bool.or_self, a1Of_encA ho hk hk, badD_encA _ _ _ _ _ _ (A1.wf_d ho) hk, hm, h9, hc, hn]
  exact a1_read (A1.wf_a ho) hk

end Sys2Proof
end
section
/-! PROOFS of O4, part 5: the control words are read back. -/

namespace Sys2Proof
-- One declaration after another, as in the Tests: the large proofs run side by side ask for too much memory.
set_option Elab.async false
open BitVec hiding and_assoc

/-! ## Fields of a word of format B (R268) -/

section
variable (op : BitVec 8) (pg : Guard) (mode : BitVec 4) (sa : BitVec 11) (off : W32)

theorem fOp_encB : fOp (encB op pg mode sa off) = op.toNat := by
  rw [fOp_eq]
  refine congrArg BitVec.toNat (a₂ := op) ?_
  unfold encB
  iterate 5 rw [extractLsb'_append_eq_of_le (by decide)]
  exact extractLsb'_eq_self

theorem pgOf_encB : pgOf (encB op pg mode sa off) = pg := by
  unfold pgOf fPg encB
  iterate 4 rw [extractLsb'_append_eq_of_le (by decide)]
  rw [extractLsb'_append_eq_right, guardOf_guardCode]

theorem fMode_encB : fMode (encB op pg mode sa off) = mode := by
  unfold fMode encB
  iterate 3 rw [extractLsb'_append_eq_of_le (by decide)]
  exact extractLsb'_append_eq_right

theorem zeroField_encB : (encB op pg mode sa off).extractLsb' 43 5 = 0 := by
  unfold encB
  iterate 2 rw [extractLsb'_append_eq_of_le (by decide)]
  exact extractLsb'_append_eq_right

theorem fSa_encB : fSa (encB op pg mode sa off) = sa := by
  unfold fSa encB
  rw [extractLsb'_append_eq_of_le (by decide)]
  exact extractLsb'_append_eq_right

theorem fOff_encB : fOff (encB op pg mode sa off) = off := by
  unfold fOff encB
  exact setWidth_append_eq_right

/-- A control word ends its clause. -/
theorem tableRest_last {w : Word} (h : ((0x70 ≤ fOp w && fOp w ≤ 0x76) || fOp w == 0xD2) = true) : tableRest w = [] := by
  unfold tableRest
  exact if_pos h

end

section
variable {op : BitVec 8} {pg : Guard} {mode : BitVec 4} {sa : BitVec 11} {off : W32} {i : Instr}

theorem tableRest_encB (h : ((0x70 ≤ op.toNat && op.toNat ≤ 0x76) || op.toNat == 0xD2) = true) : tableRest (encB op pg mode sa off) = [] :=
  tableRest_last (by rw [fOp_encB]; exact h)

/-- A word of format B with an aligned offset that ends its clause is read where its own causes do not hold. -/
theorem bWord_read {l : List (Bool × Nat)} (ho : (off.toNat % 8 == 0) = true) (h : ∀ c ∈ l, c.1 = false) : chk (bChk (encB op pg mode sa off) [] ++ l) i = .ok i := by
  refine chk_clear fun c hc => ?_
  rcases List.mem_append.mp hc with hc | hc
  · unfold bChk at hc
    rw [zeroField_encB, fOff_encB] at hc
    rcases List.mem_cons.mp hc with rfl | hc
    · exact bne_eq_false_iff_eq.mpr (beq_iff_eq.mp ho)
    · obtain rfl := List.mem_singleton.mp hc
      rfl
  · exact h c hc

/-- A word without operands that ends its clause is read. -/
theorem aLast_read {d : BitVec 9} {m : BitVec 10} :
    chk (aChk (encA op pg d unusedSrc unusedSrc unusedSrc m) [] false 0 0 0 false ++ [(!([] : List Word).isEmpty, cClause)]) i = .ok i := by
  unfold aChk badSrcs
  dsimp only
  rw [fSa_encA, fSb_encA, fSc_encA]
  rfl

theorem tableRest_encA_last {d : BitVec 9} {sb sc : BitVec 11} {m : BitVec 10} (h : ((0x70 ≤ op.toNat && op.toNat ≤ 0x76) || op.toNat == 0xD2) = true) :
    tableRest (encA op pg d sa sb sc m) = [] := tableRest_last (by rw [fOp_encA]; exact h)

end

theorem braMode_code (mode : BraMode) : braModeOf (braModeCode mode) = some mode ∧ braK (braModeCode mode) = (if mode == .nz64 || mode == .z64 then 2 else 1) ∧
    (braModeCode mode == 0) = (mode == .always) := by cases mode <;> decide

theorem tab_code (tab : Bool) : decide (1 < (if tab then 1 else 0 : BitVec 4).toNat) = false ∧ ((if tab then 1 else 0 : BitVec 4) == 1) = tab := by cases tab <;> decide

theorem noLit_one {s : Src} (h : noLit [s] = true) : s.op.isLit = false := by
  rw [noLit, List.all_cons, List.all_nil, Bool.and_true] at h
  exact (Bool.not_eq_true' _).mp h

theorem braK_pos (mode : BraMode) : 0 < (if mode == .nz64 || mode == .z64 then 2 else 1) := by cases mode <;> decide

theorem tab_pos (tab : Bool) : 0 < (if tab then 1 else 2) := by cases tab <;> decide

/-- The branches and calls of format B, and the words of format A that end a clause. -/
theorem control_readsBack {i : Instr} {a : Machine.ControlSpec} (ha : Machine.controlSpec i = some a) (hwf : WellFormed i = true) : ReadsBack i := by
  intro w hw
  cases i
  case nop pg =>
    cases hw
    rw [tableRest_encA rfl]
    simp only [decodeWord, decodeMap0, fOp_encA, BitVec.reduceToNat, Nat.reduceDiv, noD_encA, pgOf_encA, badMod_encA, mod_none]
    exact a0_read
  case bra pg mode a off =>
    cases hw
    simp only [WellFormed, Bool.and_eq_true] at hwf
    obtain ⟨⟨⟨hs, hlit⟩, hz⟩, ho⟩ := hwf
    obtain ⟨hmode, hk, h0⟩ := braMode_code mode
    have hun : (mode == .always && srcCode a != unusedSrc) = false := by
      rcases Bool.or_eq_true_iff.mp hz with h | h
      · rw [(bne_iff_ne.mp h : mode ≠ .always) |> beq_eq_false_iff_ne.mpr, Bool.false_and]
      · rw [beq_iff_eq.mp h]
        exact Bool.and_false _
    rw [tableRest_encB rfl]
    simp only [decodeWord, decodeMap7, fOp_encB, BitVec.reduceToNat, Nat.reduceDiv, pgOf_encB, fMode_encB, fSa_encB, fOff_encB, hmode, hk, h0, hun, Option.isNone_some, Option.getD_some,
      srcAt_srcCode hs (braK_pos mode), badSrc_srcCode hs (braK_pos mode), isLitField_srcCode, noLit_one hlit, Bool.or_self]
    exact bWord_read ho (by simp)
  case brx pg tab a off | callx pg tab a off =>
    cases hw
    simp only [WellFormed, Bool.and_eq_true] at hwf
    obtain ⟨⟨hs, hlit⟩, ho⟩ := hwf
    obtain ⟨hm, h1⟩ := tab_code tab
    rw [tableRest_encB rfl]
    simp only [decodeWord, decodeMap7, fOp_encB, BitVec.reduceToNat, Nat.reduceDiv, pgOf_encB, fMode_encB, fSa_encB, fOff_encB, hm, h1,
      srcAt_srcCode hs (tab_pos tab), badSrc_srcCode hs (tab_pos tab), isLitField_srcCode, noLit_one hlit, Bool.or_self]
    exact bWord_read ho (by simp)
  case call pg off =>
    cases hw
    rw [tableRest_encB rfl]
    simp only [decodeWord, decodeMap7, fOp_encB, BitVec.reduceToNat, Nat.reduceDiv, pgOf_encB, fMode_encB, fSa_encB, fOff_encB]
    exact bWord_read hwf (by simp)
  case ret pg =>
    cases hw
    rw [tableRest_encA_last rfl]
    simp only [decodeWord, decodeMap7, fOp_encA, BitVec.reduceToNat, Nat.reduceDiv, noD_encA, pgOf_encA, badMod_encA, mod_none]
    exact aLast_read
  case retn pg n =>
    cases hw
    obtain ⟨hm, hn, h0⟩ := mod_8 n
    rw [tableRest_encA_last rfl]
    simp only [decodeWord, decodeMap7, fOp_encA, BitVec.reduceToNat, Nat.reduceDiv, noD_encA, pgOf_encA, fMod_encA, badMod_encA, hm, hn, h0, beq_eq_false_iff_ne.mpr (bne_iff_ne.mp hwf), Bool.or_self]
    exact aLast_read
  case sleep pg a =>
    cases hw
    obtain ⟨hs, hlit⟩ := Bool.and_eq_true_iff.mp hwf
    rw [tableRest_encA rfl]
    simp only [decodeWord, decodeMap7, fOp_encA, BitVec.reduceToNat, Nat.reduceDiv, noD_encA, pgOf_encA, fSa_encA, badMod_encA, mod_none, srcAt_srcCode hs Nat.one_pos, isLitField_srcCode,
      noLit_one hlit, Bool.or_self]
    exact a1_read hs Nat.one_pos
  all_goals cases ha

/-- The words without operands that no specification of control covers: EXIT, YIELD, BKPT and ERET. -/
theorem exit_readsBack (pg : Guard) : ReadsBack (.exit pg) := by
  intro w hw
  cases hw
  rw [tableRest_encA_last rfl]
  simp only [decodeWord, decodeMap7, fOp_encA, BitVec.reduceToNat, Nat.reduceDiv, noD_encA, pgOf_encA, badMod_encA, mod_none]
  exact aLast_read

theorem eret_readsBack (pg : Guard) : ReadsBack (.eret pg) := by
  intro w hw
  cases hw
  rw [tableRest_encA_last rfl]
  simp only [decodeWord, decodeMapD, fOp_encA, BitVec.reduceToNat, Nat.reduceDiv, noD_encA, pgOf_encA, badMod_encA, mod_none]
  exact aLast_read

theorem yield_readsBack (pg : Guard) : ReadsBack (.yield pg) := by
  intro w hw
  cases hw
  rw [tableRest_encA rfl]
  simp only [decodeWord, decodeMap7, fOp_encA, BitVec.reduceToNat, Nat.reduceDiv, noD_encA, pgOf_encA, badMod_encA, mod_none]
  exact a0_read

theorem bkpt_readsBack (pg : Guard) : ReadsBack (.bkpt pg) := by
  intro w hw
  cases hw
  rw [tableRest_encA rfl]
  simp only [decodeWord, decodeMap7, fOp_encA, BitVec.reduceToNat, Nat.reduceDiv, noD_encA, pgOf_encA, badMod_encA, mod_none]
  exact a0_read

theorem trap_readsBack (pg : Guard) (imm : BitVec 10) : ReadsBack (.trap pg imm) := by
  intro w hw
  cases hw
  rw [tableRest_encA rfl]
  simp only [decodeWord, decodeMap7, fOp_encA, BitVec.reduceToNat, Nat.reduceDiv, noD_encA, pgOf_encA, fMod_encA, badMod_encA, mod_10]
  exact a0_read

theorem dpfx_readsBack (mask : BitVec 4) : ReadsBack (.dpfx mask) := by
  intro w hw
  cases hw
  obtain ⟨hm, hn⟩ := mod_4 mask
  rw [tableRest_encA rfl]
  simp only [decodeWord, decodeMapC, fOp_encA, BitVec.reduceToNat, Nat.reduceDiv, noD_encA, fPg_encA, fMod_encA, badMod_encA, hm, hn]
  refine chk_clear fun c hc => ?_
  rcases List.mem_append.mp hc with hc | hc
  · exact aChk_clear (a := none) (b := none) (c := none) (List.cons_ne_nil _ _) rfl rfl rfl rfl rfl rfl c hc
  · obtain rfl := List.mem_singleton.mp hc
    rfl

end Sys2Proof
end
section
/-! PROOFS of O4, part 6: the memory, scratch and barrier words are read back. -/

namespace Sys2Proof
-- One declaration after another, as in the Tests: the large proofs run side by side ask for too much memory.
set_option Elab.async false
open BitVec hiding and_assoc and_self

/-! ## Codes of scopes, orders, policies and widths -/

theorem scopeOf_scopeCode (x : Scope) : scopeOf (scopeCode x) = some x := by cases x <;> rfl

theorem scopeAt_scopeCode (x : Scope) : scopeAt (scopeCode x) = x := by cases x <;> rfl

theorem scopeCode_ne_seven (x : Scope) : (scopeCode x == 7) = false := by cases x <;> rfl

theorem ordAt_ordCode (x : Ord) : ordAt (ordCode x) = x := by cases x <;> rfl

theorem cpAt_cpCode (x : Cp) : cpAt (cpCode x) = x := by cases x <;> rfl

theorem cpCode_ne_three (x : Cp) : (cpCode x == 3) = false := by cases x <;> rfl

theorem mwAt_mwCode (x : MWidth) : mwAt (mwCode x) = x := by cases x <;> rfl

theorem mwCode_known (x : MWidth) : (!([0, 1, 2, 3, 4].contains (mwCode x).toNat)) = false := by cases x <;> rfl

theorem MWidth.k_pos (x : MWidth) : 0 < x.k := by cases x <;> decide

theorem AType.k_pos (x : AType) : 0 < x.k := by cases x <;> decide

theorem atypeOf_atypeCode (x : AType) : atypeOf ((atypeCode x).setWidth 4) = some x := by cases x <;> rfl

/-- The orders a load, a store, an atomic word, a reduction or a fence takes. -/
theorem loadOrd {x : Ord} (h : (x == .plain || x == .rlx || x == .acq || x == .sc) = true) : (!([0, 1, 2, 5].contains (ordCode x).toNat)) = false := by
  revert h
  cases x <;> decide

theorem storeOrd {x : Ord} (h : (x == .plain || x == .rlx || x == .rel || x == .sc) = true) : (!([0, 1, 3, 5].contains (ordCode x).toNat)) = false := by
  revert h
  cases x <;> decide

theorem atomOrd {x : Ord} (h : (x != .plain) = true) : (!([1, 2, 3, 4, 5].contains (ordCode x).toNat)) = false := by
  revert h
  cases x <;> decide

theorem redOrd {x : Ord} (h : (x == .rlx || x == .rel || x == .sc) = true) : (!([1, 3, 5].contains (ordCode x).toNat)) = false := by
  revert h
  cases x <;> decide

theorem fenceOrd {x : Ord} (h : (x == .acq || x == .rel || x == .acqrel || x == .sc) = true) : (!([2, 3, 4, 5].contains (ordCode x).toNat)) = false := by
  revert h
  cases x <;> decide

theorem Src.base_wf {s : Src} {k : Nat} (h : s.base k = true) : s.wf k = true := (Bool.and_eq_true_iff.mp h).1

theorem badBase_srcCode {s : Src} {k : Nat} (h : s.base k = true) (hk : 0 < k) : badBase k (srcCode s) = false := by
  unfold badBase
  rw [srcOf_srcCode (Src.wf_fits (Src.base_wf h)) hk]
  dsimp only
  rw [h]
  rfl

/-- A base register is no literal. -/
theorem isLit_of_base {s : Src} {k : Nat} (h : s.base k = true) : s.op.isLit = false := by
  obtain ⟨op, e, l⟩ := s
  cases op with
  | lit => cases (Bool.and_eq_true_iff.mp h).2
  | _ => rfl

/-! ## Fields of a word of format M (R265) -/

section
variable (op : BitVec 8) (pg : Guard) (d : BitVec 9) (sa : BitVec 11) (scope ord : BitVec 3) (cp : BitVec 2) (wd : BitVec 3) (sx : BitVec 1) (off : BitVec 20)

theorem fOp_encM : fOp (encM op pg d sa scope ord cp wd sx off) = op.toNat := by
  rw [fOp_eq]
  refine congrArg BitVec.toNat (a₂ := op) ?_
  unfold encM
  iterate 9 rw [extractLsb'_append_eq_of_le (by decide)]
  exact extractLsb'_eq_self

theorem pgOf_encM : pgOf (encM op pg d sa scope ord cp wd sx off) = pg := by
  unfold pgOf fPg encM
  iterate 8 rw [extractLsb'_append_eq_of_le (by decide)]
  rw [extractLsb'_append_eq_right, guardOf_guardCode]

theorem fD_encM : fD (encM op pg d sa scope ord cp wd sx off) = d := by
  unfold fD encM
  iterate 7 rw [extractLsb'_append_eq_of_le (by decide)]
  exact extractLsb'_append_eq_right

theorem fSa_encM : fSa (encM op pg d sa scope ord cp wd sx off) = sa := by
  unfold fSa encM
  iterate 6 rw [extractLsb'_append_eq_of_le (by decide)]
  exact extractLsb'_append_eq_right

theorem fScope_encM : fScope (encM op pg d sa scope ord cp wd sx off) = scope := by
  unfold fScope encM
  iterate 5 rw [extractLsb'_append_eq_of_le (by decide)]
  exact extractLsb'_append_eq_right

theorem fOrd_encM : fOrd (encM op pg d sa scope ord cp wd sx off) = ord := by
  unfold fOrd encM
  iterate 4 rw [extractLsb'_append_eq_of_le (by decide)]
  exact extractLsb'_append_eq_right

theorem fCp_encM : fCp (encM op pg d sa scope ord cp wd sx off) = cp := by
  unfold fCp encM
  iterate 3 rw [extractLsb'_append_eq_of_le (by decide)]
  exact extractLsb'_append_eq_right

theorem fW_encM : fW (encM op pg d sa scope ord cp wd sx off) = wd := by
  unfold fW encM
  iterate 2 rw [extractLsb'_append_eq_of_le (by decide)]
  exact extractLsb'_append_eq_right

theorem fSx_encM : fSx (encM op pg d sa scope ord cp wd sx off) = sx.getLsbD 0 := by
  unfold fSx encM
  rw [getLsbD_append, if_neg (by decide), getLsbD_append, if_pos (by decide)]

theorem fOff20_encM : fOff20 (encM op pg d sa scope ord cp wd sx off) = off := by
  unfold fOff20 encM
  exact setWidth_append_eq_right

theorem badOrd_encM (l : List Nat) : badOrd (encM op pg d sa scope ord cp wd sx off) l = !l.contains ord.toNat := by
  unfold badOrd
  rw [fOrd_encM]

theorem badWidth_encM (l : List Nat) : badWidth (encM op pg d sa scope ord cp wd sx off) l = !l.contains wd.toNat := by
  unfold badWidth
  rw [fW_encM]

theorem noD_encM : noD (encM op pg d sa scope ord cp wd sx off) = (d != unusedDst) := by
  unfold noD
  rw [fD_encM]

end

section
variable {op : BitVec 8} {pg : Guard} {d : BitVec 9} {sa : BitVec 11} {scope ord : BitVec 3} {cp : BitVec 2} {wd : BitVec 3} {sx : BitVec 1} {off : BitVec 20}

theorem tableRest_encM (h : ((0x70 ≤ op.toNat && op.toNat ≤ 0x76) || op.toNat == 0xD2 || op.toNat == 0xA1) = false) :
    tableRest (encM op pg d sa scope ord cp wd sx off) = [0] := tableRest_one (by rw [fOp_encM]; exact h)

end

/-! ## Loads and stores -/

section
variable {op : BitVec 8} {kb : Nat} {cz : Bool}

theorem MLoad.wf_iff {m : MLoad} : m.wf kb cz = true ↔ m.d.late m.w.k = true ∧ m.base.base kb = true ∧
    (m.ord == .plain || m.ord == .rlx || m.ord == .acq || m.ord == .sc) = true ∧ (!m.sx || m.w.narrow) = true ∧ (!cz || m.cp == .ca) = true := by
  simp only [MLoad.wf, Bool.and_eq_true, and_assoc]

theorem MStore.wf_iff {m : MStore} : m.wf kb cz = true ↔ m.data.wf m.w.k = true ∧ (!m.data.e) = true ∧ (!m.data.op.isLit) = true ∧ m.base.base kb = true ∧
    (m.ord == .plain || m.ord == .rlx || m.ord == .rel || m.ord == .sc) = true ∧ (!cz || m.cp == .ca) = true := by
  simp only [MStore.wf, Bool.and_eq_true, and_assoc]

/-- The operands of a load are read back. -/
theorem mLoadOf_encLd {m : MLoad} (h : m.wf kb cz = true) (hk : 0 < kb) : mLoadOf (encLd op m) = m := by
  obtain ⟨hd, hb, -⟩ := MLoad.wf_iff.mp h
  unfold mLoadOf encLd
  rw [pgOf_encM, fD_encM, fSa_encM, fScope_encM, fOrd_encM, fCp_encM, fW_encM, fSx_encM, fOff20_encM, scopeAt_scopeCode, ordAt_ordCode, cpAt_cpCode, mwAt_mwCode,
    getLsbD_ofBool_zero, dstAt_dstCode (Dst.late_fits hd) (MWidth.k_pos _), srcAt_srcCode (Src.base_wf hb) hk]

/-- A load of a well-formed operand record has none of the causes of its fields (R265). -/
theorem load_clear {m : MLoad} (h : m.wf kb cz = true) (hk : 0 < kb) : let w := encLd op m
    badOrd w [0, 1, 2, 5] = false ∧ badWidth w [0, 1, 2, 3, 4] = false ∧ (fCp w == 3) = false ∧ (fScope w == 7) = false ∧
      (badBase kb (fSa w) || badDst (Dst.late (mwAt (fW w)).k) (fD w) || ((fSx w) && !(mwAt (fW w)).narrow)) = false := by
  obtain ⟨hd, hb, ho, hsx, -⟩ := MLoad.wf_iff.mp h
  have hn : (m.sx && !m.w.narrow) = false := by
    rw [← Bool.not_eq_true', Bool.not_and, Bool.not_not]
    exact hsx
  unfold encLd
  simp only [badOrd_encM, badWidth_encM, fCp_encM, fScope_encM, fSa_encM, fW_encM, fD_encM, fSx_encM, getLsbD_ofBool_zero, loadOrd ho, mwCode_known, cpCode_ne_three, scopeCode_ne_seven,
    badBase_srcCode hb hk, mwAt_mwCode, badDst_dstCode (Dst.late_fits hd) (MWidth.k_pos _) hd, hn, Bool.or_self, and_self]

theorem stData_encSt {m : MStore} (h : m.data.wf m.w.k = true) (he : (!m.data.e) = true) : stData (encSt op m) = some m.data := by
  unfold stData encSt
  rw [fD_encM, fSx_encM, getLsbD_ofBool_zero, opdOf_opdCode (Src.wf_fits h) (MWidth.k_pos _)]
  obtain ⟨pg, ⟨o, e, l⟩, _⟩ := m
  obtain rfl : e = false := (Bool.not_eq_true' _).mp he
  rfl

/-- The operands of a store are read back. -/
theorem mStoreOf_encSt {m : MStore} (h : m.wf kb cz = true) (hk : 0 < kb) : mStoreOf (encSt op m) = m := by
  obtain ⟨hd, he, -, hb, -⟩ := MStore.wf_iff.mp h
  unfold mStoreOf
  rw [stData_encSt hd he]
  unfold encSt
  rw [pgOf_encM, fSa_encM, fScope_encM, fOrd_encM, fCp_encM, fW_encM, fOff20_encM, scopeAt_scopeCode, ordAt_ordCode, cpAt_cpCode, mwAt_mwCode, srcAt_srcCode (Src.base_wf hb) hk]
  rfl

/-- A store of a well-formed operand record has none of the causes of its fields (R265). -/
theorem store_clear {m : MStore} (h : m.wf kb cz = true) (hk : 0 < kb) : let w := encSt op m
    badOrd w [0, 1, 3, 5] = false ∧ badWidth w [0, 1, 2, 3, 4] = false ∧ (fCp w == 3) = false ∧ (fScope w == 7) = false ∧
      (badBase kb (fSa w) || badStData w) = false := by
  obtain ⟨hd, he, hl, hb, ho, -⟩ := MStore.wf_iff.mp h
  have hdata : badStData (encSt op m) = false := by
    unfold badStData
    rw [stData_encSt hd he]
    unfold encSt
    dsimp only
    rw [fW_encM, mwAt_mwCode, hd, (Bool.not_eq_true' _).mp hl]
    rfl
  dsimp only
  rw [hdata]
  unfold encSt
  simp only [badOrd_encM, badWidth_encM, fCp_encM, fScope_encM, fSa_encM, storeOrd ho, mwCode_known, cpCode_ne_three, scopeCode_ne_seven, badBase_srcCode hb hk, Bool.or_self, and_self]

theorem fCp_ca {x : Cp} (h : (!true || x == .ca) = true) : (cpCode x != 0) = false := by
  revert h
  cases x <;> decide

end

theorem fOp_encLd (op : BitVec 8) (m : MLoad) : fOp (encLd op m) = op.toNat := fOp_encM ..
theorem fOp_encSt (op : BitVec 8) (m : MStore) : fOp (encSt op m) = op.toNat := fOp_encM ..
theorem fCp_encLd (op : BitVec 8) (m : MLoad) : fCp (encLd op m) = cpCode m.cp := fCp_encM ..
theorem fCp_encSt (op : BitVec 8) (m : MStore) : fCp (encSt op m) = cpCode m.cp := fCp_encM ..

/-- A word is read where its five causes do not hold. -/
theorem fiveChk_read {a b c d e : Bool} {i : Instr} {ca cb cc cd ce : Nat} (h : a = false ∧ b = false ∧ c = false ∧ d = false ∧ e = false) :
    chk [(a, ca), (b, cb), (c, cc), (d, cd), (e, ce)] i = .ok i := by
  obtain ⟨rfl, rfl, rfl, rfl, rfl⟩ := h
  rfl

/-- The loads and stores of memory and of the scratchpads. -/
theorem ld_readsBack {m : MLoad} (hwf : WellFormed (.ld m) = true) : ReadsBack (.ld m) := by
  intro w hw
  cases hw
  rw [tableRest_one (by rw [fOp_encLd]; rfl)]
  simp only [decodeWord, decodeMap8, fOp_encLd, BitVec.reduceToNat, Nat.reduceDiv, mLoadOf_encLd hwf Nat.two_pos]
  exact fiveChk_read (load_clear hwf Nat.two_pos)

theorem st_readsBack {m : MStore} (hwf : WellFormed (.st m) = true) : ReadsBack (.st m) := by
  intro w hw
  cases hw
  rw [tableRest_one (by rw [fOp_encSt]; rfl)]
  simp only [decodeWord, decodeMap8, fOp_encSt, BitVec.reduceToNat, Nat.reduceDiv, mStoreOf_encSt hwf Nat.two_pos]
  exact fiveChk_read (store_clear hwf Nat.two_pos)

theorem scratchLoad_clear {op : BitVec 8} {m : MLoad} (h : m.wf 1 true = true) : let w := encLd op m
    badOrd w [0, 1, 2, 5] = false ∧ badWidth w [0, 1, 2, 3, 4] = false ∧ (fCp w == 3) = false ∧ (fScope w == 7) = false ∧
      (badBase 1 (fSa w) || badDst (Dst.late (mwAt (fW w)).k) (fD w) || ((fSx w) && !(mwAt (fW w)).narrow) || fCp w != 0) = false := by
  obtain ⟨ho, hw, hc, hs, hx⟩ := load_clear (op := op) h Nat.one_pos
  obtain ⟨-, -, -, -, hca⟩ := MLoad.wf_iff.mp h
  exact ⟨ho, hw, hc, hs, Bool.or_eq_false_iff.mpr ⟨hx, by rw [fCp_encLd]; exact fCp_ca hca⟩⟩

theorem scratchStore_clear {op : BitVec 8} {m : MStore} (h : m.wf 1 true = true) : let w := encSt op m
    badOrd w [0, 1, 3, 5] = false ∧ badWidth w [0, 1, 2, 3, 4] = false ∧ (fCp w == 3) = false ∧ (fScope w == 7) = false ∧
      (badBase 1 (fSa w) || badStData w || fCp w != 0) = false := by
  obtain ⟨ho, hw, hc, hs, hx⟩ := store_clear (op := op) h Nat.one_pos
  obtain ⟨-, -, -, -, -, hca⟩ := MStore.wf_iff.mp h
  exact ⟨ho, hw, hc, hs, Bool.or_eq_false_iff.mpr ⟨hx, by rw [fCp_encSt]; exact fCp_ca hca⟩⟩

theorem lds_readsBack {m : MLoad} (hwf : WellFormed (.lds m) = true) : ReadsBack (.lds m) := by
  intro w hw
  cases hw
  rw [tableRest_one (by rw [fOp_encLd]; rfl)]
  simp only [decodeWord, decodeMap8, fOp_encLd, BitVec.reduceToNat, Nat.reduceDiv, mLoadOf_encLd hwf Nat.one_pos]
  exact fiveChk_read (scratchLoad_clear hwf)

theorem ldcl_readsBack {m : MLoad} (hwf : WellFormed (.ldcl m) = true) : ReadsBack (.ldcl m) := by
  intro w hw
  cases hw
  rw [tableRest_one (by rw [fOp_encLd]; rfl)]
  simp only [decodeWord, decodeMap8, fOp_encLd, BitVec.reduceToNat, Nat.reduceDiv, mLoadOf_encLd hwf Nat.one_pos]
  exact fiveChk_read (scratchLoad_clear hwf)

theorem sts_readsBack {m : MStore} (hwf : WellFormed (.sts m) = true) : ReadsBack (.sts m) := by
  intro w hw
  cases hw
  rw [tableRest_one (by rw [fOp_encSt]; rfl)]
  simp only [decodeWord, decodeMap8, fOp_encSt, BitVec.reduceToNat, Nat.reduceDiv, mStoreOf_encSt hwf Nat.one_pos]
  exact fiveChk_read (scratchStore_clear hwf)

theorem stcl_readsBack {m : MStore} (hwf : WellFormed (.stcl m) = true) : ReadsBack (.stcl m) := by
  intro w hw
  cases hw
  rw [tableRest_one (by rw [fOp_encSt]; rfl)]
  simp only [decodeWord, decodeMap8, fOp_encSt, BitVec.reduceToNat, Nat.reduceDiv, mStoreOf_encSt hwf Nat.one_pos]
  exact fiveChk_read (scratchStore_clear hwf)

theorem ldbd_readsBack {m : MLoad} (hwf : WellFormed (.ldbd m) = true) : ReadsBack (.ldbd m) := by
  intro w hw
  cases hw
  obtain ⟨hm, hdesc⟩ := Bool.and_eq_true_iff.mp hwf
  obtain ⟨hd, hb, -⟩ := MLoad.wf_iff.mp hm
  rw [tableRest_one (by rw [fOp_encLd]; rfl)]
  simp only [decodeWord, decodeMap8, fOp_encLd, BitVec.reduceToNat, Nat.reduceDiv, mLoadOf_encLd hm Nat.two_pos]
  simp only [MLoad.isDesc, Bool.and_eq_true, beq_iff_eq] at hdesc
  obtain ⟨⟨⟨⟨ho, hw⟩, hs⟩, hc⟩, hx⟩ := hdesc
  simp only [encLd, badOrd_encM, badWidth_encM, fCp_encM, fScope_encM, fSa_encM, fW_encM, fD_encM, fSx_encM, ho, hs, hc, (Bool.not_eq_true' _).mp hx, mwAt_mwCode,
    badBase_srcCode hb Nat.two_pos, badDst_dstCode (Dst.late_fits hd) (MWidth.k_pos _) hd]
  exact fiveChk_read ⟨rfl, by rw [hw]; rfl, rfl, rfl, rfl⟩

theorem stbd_readsBack {m : MStore} (hwf : WellFormed (.stbd m) = true) : ReadsBack (.stbd m) := by
  intro w hw
  cases hw
  obtain ⟨hm, hdesc⟩ := Bool.and_eq_true_iff.mp hwf
  obtain ⟨-, -, -, -, hx⟩ := store_clear (op := 0x87) hm Nat.two_pos
  rw [tableRest_one (by rw [fOp_encSt]; rfl)]
  simp only [decodeWord, decodeMap8, fOp_encSt, BitVec.reduceToNat, Nat.reduceDiv, mStoreOf_encSt hm Nat.two_pos]
  simp only [MStore.isDesc, Bool.and_eq_true, beq_iff_eq] at hdesc
  obtain ⟨⟨⟨ho, hw⟩, hs⟩, hc⟩ := hdesc
  rw [hx]
  simp only [encSt, badOrd_encM, badWidth_encM, fCp_encM, fScope_encM, ho, hs, hc, hw]
  exact fiveChk_read ⟨rfl, rfl, rfl, rfl, rfl⟩

/-! ## Cache words and fences -/

theorem pref_readsBack {pg : Guard} {base : Src} {cp : Cp} {off : BitVec 20} (hwf : WellFormed (.pref pg base cp off) = true) : ReadsBack (.pref pg base cp off) := by
  intro w hw
  cases hw
  have hb : base.base 2 = true := hwf
  rw [tableRest_encM rfl]
  simp only [decodeWord, decodeMap8, fOp_encM, BitVec.reduceToNat, Nat.reduceDiv, badOrd_encM, badWidth_encM, fCp_encM, fScope_encM, fSa_encM, fSx_encM, fOff20_encM, pgOf_encM, noD_encM,
    cpAt_cpCode, cpCode_ne_three, badBase_srcCode hb Nat.two_pos, srcAt_srcCode (Src.base_wf hb) Nat.two_pos]
  exact fiveChk_read ⟨rfl, rfl, rfl, rfl, rfl⟩

theorem cinval_readsBack {pg : Guard} {base : Option Src} {off : BitVec 20} (hwf : WellFormed (.cinval pg base off) = true) : ReadsBack (.cinval pg base off) := by
  intro w hw
  cases base with
  | none =>
    cases hw
    obtain rfl : off = 0 := beq_iff_eq.mp hwf
    rw [tableRest_encM rfl]
    simp only [decodeWord, decodeMap8, fOp_encM, BitVec.reduceToNat, Nat.reduceDiv, badOrd_encM, badWidth_encM, fCp_encM, fScope_encM, fSa_encM, fSx_encM, fW_encM, fOff20_encM, pgOf_encM, noD_encM]
    exact fiveChk_read ⟨rfl, rfl, rfl, rfl, rfl⟩
  | some b =>
    cases hw
    have hb : b.base 2 = true := hwf
    rw [tableRest_encM rfl]
    simp only [decodeWord, decodeMap8, fOp_encM, BitVec.reduceToNat, Nat.reduceDiv, badOrd_encM, badWidth_encM, fCp_encM, fScope_encM, fSa_encM, fSx_encM, fW_encM, fOff20_encM, pgOf_encM, noD_encM,
      Option.elim_some, badBase_srcCode hb Nat.two_pos, srcAt_srcCode (Src.base_wf hb) Nat.two_pos]
    exact fiveChk_read ⟨rfl, rfl, rfl, rfl, rfl⟩

theorem fence_readsBack {pg : Guard} {ord : Ord} {scope : Scope} (hwf : WellFormed (.fence pg ord scope) = true) : ReadsBack (.fence pg ord scope) := by
  intro w hw
  cases hw
  rw [tableRest_encM rfl]
  simp only [decodeWord, decodeMap9, fOp_encM, BitVec.reduceToNat, Nat.reduceDiv, badOrd_encM, badWidth_encM, fCp_encM, fScope_encM, fSa_encM, fSx_encM, fOrd_encM, fOff20_encM, pgOf_encM, noD_encM,
    ordAt_ordCode, scopeAt_scopeCode, scopeCode_ne_seven, fenceOrd hwf]
  exact fiveChk_read ⟨rfl, rfl, rfl, rfl, rfl⟩

/-! ## Atomic words of format T (R266, R267) -/

section
variable (op : BitVec 8) (t : TAtom)

theorem fOp_encT : fOp (encT op t) = op.toNat := by
  rw [fOp_eq]
  refine congrArg BitVec.toNat (a₂ := op) ?_
  unfold encT
  iterate 9 rw [extractLsb'_append_eq_of_le (by decide)]
  exact extractLsb'_eq_self

theorem pgOf_encT : pgOf (encT op t) = t.pg := by
  unfold pgOf fPg encT
  iterate 8 rw [extractLsb'_append_eq_of_le (by decide)]
  rw [extractLsb'_append_eq_right, guardOf_guardCode]

theorem fD_encT : fD (encT op t) = dstCode t.d := by
  unfold fD encT
  iterate 7 rw [extractLsb'_append_eq_of_le (by decide)]
  exact extractLsb'_append_eq_right

theorem fSa_encT : fSa (encT op t) = srcCode t.base := by
  unfold fSa encT
  iterate 6 rw [extractLsb'_append_eq_of_le (by decide)]
  exact extractLsb'_append_eq_right

theorem fSb_encT : fSb (encT op t) = srcCode t.b := by
  unfold fSb encT
  iterate 5 rw [extractLsb'_append_eq_of_le (by decide)]
  exact extractLsb'_append_eq_right

theorem tTy_encT : tTy (encT op t) = atypeCode t.ty := by
  unfold tTy encT
  iterate 4 rw [extractLsb'_append_eq_of_le (by decide)]
  exact extractLsb'_append_eq_right

theorem tOff8_encT : tOff8 (encT op t) = t.off8 := by
  unfold tOff8 encT
  iterate 3 rw [extractLsb'_append_eq_of_le (by decide)]
  exact extractLsb'_append_eq_right

theorem tScope_encT : tScope (encT op t) = scopeCode t.scope := by
  unfold tScope encT
  iterate 2 rw [extractLsb'_append_eq_of_le (by decide)]
  exact extractLsb'_append_eq_right

theorem tOrd_encT : tOrd (encT op t) = ordCode t.ord := by
  unfold tOrd encT
  rw [extractLsb'_append_eq_of_le (by decide)]
  exact extractLsb'_append_eq_right

theorem tAop_encT : tAop (encT op t) = (aopCode t.aop).setWidth 4 := by
  unfold tAop encT
  exact setWidth_append_eq_right

theorem tType_encT : tType (encT op t) = t.ty := by
  unfold tType
  rw [tTy_encT, atypeOf_atypeCode]
  rfl

theorem badAop_encT (h : t.aop.allows t.ty = true) : badAop (encT op t) = false := by
  unfold badAop
  rw [tAop_encT, aopOf_aopCode, tType_encT]
  dsimp only
  rw [h]
  rfl

theorem tAtomOf_encT {k : Nat} (hd : t.d.fits t.ty.k = true) (hb : t.base.base k = true) (hk : 0 < k) (h : t.b.wf t.ty.k = true) : tAtomOf (encT op t) = t := by
  unfold tAtomOf
  rw [pgOf_encT, fD_encT, fSa_encT, fSb_encT, tType_encT, tOff8_encT, tScope_encT, tOrd_encT, tAop_encT, aopOf_aopCode, scopeAt_scopeCode, ordAt_ordCode,
    dstAt_dstCode hd (AType.k_pos _), srcAt_srcCode (Src.base_wf hb) hk, srcAt_srcCode h (AType.k_pos _)]
  rfl

end

/-- A word with one source that may be the literal has none of its causes with a word after it. -/
theorem litChk_one {s : Src} {x : Word} : ∀ c ∈ litChk [x] [srcCode s], c.1 = false := by
  refine litChk_clear_iff.mpr ⟨List.length_filter_le _ _, fun h => absurd h (List.cons_ne_nil _ _)⟩

theorem aopCode_seven (a : AOp) : ((aopCode a).setWidth 4 == (7 : BitVec 4)) = (a == .load) := by cases a <;> rfl

theorem aopCode_six (a : AOp) : ((aopCode a).setWidth 4 == (6 : BitVec 4)) = (a == .exch) := by cases a <;> rfl

/-- The load of the atomics takes no release (R267). -/
theorem atomLoadOrd {aop : AOp} {x : Ord} (hx : (x != .plain) = true) (h : (aop != .load || x == .rlx || x == .acq || x == .sc) = true) :
    (aop == .load && (ordCode x == 3 || ordCode x == 4)) = false := by
  revert hx h
  cases aop <;> cases x <;> decide

/-- The atomics that return the old value: `k` registers hold the address. -/
theorem atom_clear {op : BitVec 8} {t : TAtom} {k : Nat} (hk : 0 < k)
    (hwf : (t.d.late t.ty.k && t.base.base k && t.b.wf t.ty.k && t.ord != .plain && t.aop.allows t.ty && (t.aop != .load || t.ord == .rlx || t.ord == .acq || t.ord == .sc)) = true) :
    let w := encT op t
    tAtomOf w = t ∧ ∀ c ∈ litChk [(0 : Word)] [fSb w] ++ [((atypeOf ((tTy w).setWidth 4)).isNone, cType), (badAop w, cAop),
      (!([1, 2, 3, 4, 5].contains (tOrd w).toNat), cOrder), (tAop w == 7 && (tOrd w == 3 || tOrd w == 4), cOrder), (tScope w == 7, cScope),
      (badDst (Dst.late (tType w).k) (fD w) || badBase k (fSa w) || badSrc (tType w).k (fSb w), cOperand)], c.1 = false := by
  simp only [Bool.and_eq_true] at hwf
  obtain ⟨⟨⟨⟨⟨hd, hb⟩, hs⟩, ho⟩, ha⟩, hl⟩ := hwf
  refine ⟨tAtomOf_encT op t (Dst.late_fits hd) hb hk hs, List.forall_mem_append.mpr ⟨?_, ?_⟩⟩
  · rw [fSb_encT]
    exact litChk_one
  · rw [badAop_encT op t ha, tTy_encT, tOrd_encT, tScope_encT, tAop_encT, aopCode_seven, tType_encT, fD_encT, fSa_encT, fSb_encT, atypeOf_atypeCode, atomOrd ho, atomLoadOrd ho hl, scopeCode_ne_seven,
      badDst_dstCode (Dst.late_fits hd) (AType.k_pos _) hd, badBase_srcCode hb hk, badSrc_srcCode hs (AType.k_pos _)]
    simp

theorem atom_readsBack {t : TAtom} (hwf : WellFormed (.atom t) = true) : ReadsBack (.atom t) := by
  intro w hw
  cases hw
  obtain ⟨ht, hc⟩ := atom_clear (op := 0x8D) Nat.two_pos hwf
  rw [tableRest_one (by rw [fOp_encT]; rfl)]
  simp only [decodeWord, decodeMap8, fOp_encT, BitVec.reduceToNat, Nat.reduceDiv, ht]
  exact chk_clear hc

theorem atoms_readsBack {t : TAtom} (hwf : WellFormed (.atoms t) = true) : ReadsBack (.atoms t) := by
  intro w hw
  cases hw
  obtain ⟨ht, hc⟩ := atom_clear (op := 0x90) Nat.one_pos hwf
  rw [tableRest_one (by rw [fOp_encT]; rfl)]
  simp only [decodeWord, decodeMap9, fOp_encT, BitVec.reduceToNat, Nat.reduceDiv, ht]
  exact chk_clear hc

theorem red_readsBack {t : TAtom} (hwf : WellFormed (.red t) = true) : ReadsBack (.red t) := by
  intro w hw
  cases hw
  simp only [WellFormed, Bool.and_eq_true] at hwf
  obtain ⟨⟨⟨⟨⟨⟨hd, hb⟩, hs⟩, ha⟩, hex⟩, hld⟩, ho⟩ := hwf
  have hz : t.d = .zero := beq_iff_eq.mp hd
  have hfit : t.d.fits t.ty.k = true := by rw [hz]; rfl
  rw [tableRest_one (by rw [fOp_encT]; rfl)]
  simp only [decodeWord, decodeMap8, fOp_encT, BitVec.reduceToNat, Nat.reduceDiv, tAtomOf_encT 0x8F t hfit hb Nat.two_pos hs]
  refine chk_clear (List.forall_mem_append.mpr ⟨?_, ?_⟩)
  · rw [fSb_encT]
    exact litChk_one
  · rw [badAop_encT _ t ha, tTy_encT, tOrd_encT, tScope_encT, tAop_encT, aopCode_seven, aopCode_six, tType_encT, fSa_encT, fSb_encT, atypeOf_atypeCode, redOrd ho, scopeCode_ne_seven, noD, fD_encT, hz,
      badBase_srcCode hb Nat.two_pos, badSrc_srcCode hs (AType.k_pos _), beq_eq_false_iff_ne.mpr (bne_iff_ne.mp hex), beq_eq_false_iff_ne.mpr (bne_iff_ne.mp hld)]
    simp [dstCode, unusedDst]

/-- The word of ATOMCAS, which has the type where the others have the operation. -/
def encCas (t : TCas) : Word :=
  0x8E#8 ++ guardCode t.pg ++ dstCode t.d ++ srcCode t.base ++ srcCode t.b ++ srcCode t.c ++ scopeCode t.scope ++ ordCode t.ord ++ ((atypeCode t.ty).setWidth 4 : BitVec 4)

section
variable (t : TCas)

theorem fOp_encCas : fOp (encCas t) = 0x8E := by
  rw [fOp_eq]
  refine congrArg BitVec.toNat (a₂ := 0x8E#8) ?_
  unfold encCas
  iterate 8 rw [extractLsb'_append_eq_of_le (by decide)]
  exact extractLsb'_eq_self

theorem pgOf_encCas : pgOf (encCas t) = t.pg := by
  unfold pgOf fPg encCas
  iterate 7 rw [extractLsb'_append_eq_of_le (by decide)]
  rw [extractLsb'_append_eq_right, guardOf_guardCode]

theorem fD_encCas : fD (encCas t) = dstCode t.d := by
  unfold fD encCas
  iterate 6 rw [extractLsb'_append_eq_of_le (by decide)]
  exact extractLsb'_append_eq_right

theorem fSa_encCas : fSa (encCas t) = srcCode t.base := by
  unfold fSa encCas
  iterate 5 rw [extractLsb'_append_eq_of_le (by decide)]
  exact extractLsb'_append_eq_right

theorem fSb_encCas : fSb (encCas t) = srcCode t.b := by
  unfold fSb encCas
  iterate 4 rw [extractLsb'_append_eq_of_le (by decide)]
  exact extractLsb'_append_eq_right

theorem fSc_encCas : fSc (encCas t) = srcCode t.c := by
  unfold fSc encCas
  iterate 3 rw [extractLsb'_append_eq_of_le (by decide)]
  exact extractLsb'_append_eq_right

theorem tScope_encCas : tScope (encCas t) = scopeCode t.scope := by
  unfold tScope encCas
  iterate 2 rw [extractLsb'_append_eq_of_le (by decide)]
  exact extractLsb'_append_eq_right

theorem tOrd_encCas : tOrd (encCas t) = ordCode t.ord := by
  unfold tOrd encCas
  rw [extractLsb'_append_eq_of_le (by decide)]
  exact extractLsb'_append_eq_right

theorem tAop_encCas : tAop (encCas t) = (atypeCode t.ty).setWidth 4 := by
  unfold tAop encCas
  exact setWidth_append_eq_right

theorem casType_encCas : casType (encCas t) = t.ty := by
  unfold casType
  rw [tAop_encCas, atypeOf_atypeCode]
  rfl

end

theorem litChk_two {s t : Src} {x : Word} (h : oneLit [s, t] = true) : ∀ c ∈ litChk [x] [srcCode s, srcCode t], c.1 = false := by
  refine litChk_clear_iff.mpr ⟨?_, fun h => absurd h (List.cons_ne_nil _ _)⟩
  have hl := lit_codeOf [some s, some t]
  simp only [List.map_cons, List.map_nil, codeOf, Option.elim_some, List.flatMap_cons, List.flatMap_nil, Option.toList_some, List.append_nil, List.singleton_append] at hl
  rw [hl]
  exact of_decide_eq_true h

theorem atomcas_readsBack {t : TCas} (hwf : WellFormed (.atomcas t) = true) : ReadsBack (.atomcas t) := by
  intro w hw
  obtain rfl : encCas t = w := Option.some.inj hw
  simp only [WellFormed, Bool.and_eq_true] at hwf
  obtain ⟨⟨⟨⟨⟨hd, hb⟩, hs⟩, hc⟩, ho⟩, hlit⟩ := hwf
  have ht : tCasOf (encCas t) = t := by
    unfold tCasOf
    rw [pgOf_encCas, fD_encCas, fSa_encCas, fSb_encCas, fSc_encCas, casType_encCas, tScope_encCas, tOrd_encCas, scopeAt_scopeCode, ordAt_ordCode,
      dstAt_dstCode (Dst.late_fits hd) (AType.k_pos _), srcAt_srcCode (Src.base_wf hb) Nat.two_pos, srcAt_srcCode hs (AType.k_pos _), srcAt_srcCode hc (AType.k_pos _)]
  rw [tableRest_one (by rw [fOp_encCas]; rfl)]
  simp only [decodeWord, decodeMap8, fOp_encCas, Nat.reduceDiv, ht]
  refine chk_clear (List.forall_mem_append.mpr ⟨?_, ?_⟩)
  · rw [fSb_encCas, fSc_encCas]
    exact litChk_two hlit
  · rw [tAop_encCas, tOrd_encCas, tScope_encCas, casType_encCas, fD_encCas, fSa_encCas, fSb_encCas, fSc_encCas, atypeOf_atypeCode, atomOrd ho, scopeCode_ne_seven,
      badDst_dstCode (Dst.late_fits hd) (AType.k_pos _) hd, badBase_srcCode hb Nat.two_pos, badSrc_srcCode hs (AType.k_pos _), badSrc_srcCode hc (AType.k_pos _)]
    simp

/-! ## Scratch maps and barriers -/

theorem smap_readsBack {pg : Guard} {a b c : Src} (hwf : WellFormed (.smap pg a b c) = true) : ReadsBack (.smap pg a b c) := by
  intro w hw
  cases hw
  simp only [WellFormed, Bool.and_eq_true] at hwf
  obtain ⟨⟨⟨ha, hb⟩, hc⟩, hlit⟩ := hwf
  rw [tableRest_encA rfl]
  simp only [decodeWord, decodeMap8, fOp_encA, BitVec.reduceToNat, Nat.reduceDiv, noD_encA, pgOf_encA, fSa_encA, fSb_encA, fSc_encA, badMod_encA, mod_none, srcAt_srcCode ha Nat.one_pos,
    srcAt_srcCode hb Nat.two_pos, srcAt_srcCode hc Nat.one_pos]
  exact a3_read ⟨ha, hb, hc, hlit⟩ Nat.one_pos Nat.two_pos Nat.one_pos

theorem sunmap_readsBack {pg : Guard} {a : Src} (hwf : WellFormed (.sunmap pg a) = true) : ReadsBack (.sunmap pg a) := by
  intro w hw
  cases hw
  have ha : a.wf 1 = true := hwf
  rw [tableRest_encA rfl]
  simp only [decodeWord, decodeMap8, fOp_encA, BitVec.reduceToNat, Nat.reduceDiv, noD_encA, pgOf_encA, fSa_encA, badMod_encA, mod_none, srcAt_srcCode ha Nat.one_pos]
  exact a1_read ha Nat.one_pos

theorem opdCode_zero {o : Opd} {k : Nat} (h : o.fits k = true) (hk : 0 < k) (hz : opdCode o = 0x147) : o = .zero := by
  have hr := opdOf_opdCode h hk
  rw [hz] at hr
  exact (Option.some.inj hr).symm

/-- A source other than the zero register has not the code of an unused field. -/
theorem srcCode_used {s : Src} {k : Nat} (h : s.wf k = true) (hk : 0 < k) (hz : (s.op != .zero) = true) : (srcCode s == unusedSrc) = false := by
  refine beq_eq_false_iff_ne.mpr fun he => bne_iff_ne.mp hz (opdCode_zero (Src.wf_fits h) hk ?_)
  rw [← srcCode_op, he]
  rfl

theorem swb_readsBack {pg : Guard} {a : Option Src} (hwf : WellFormed (.swb pg a) = true) : ReadsBack (.swb pg a) := by
  intro w hw
  cases a with
  | none =>
    cases hw
    rw [tableRest_encA rfl]
    simp only [decodeWord, decodeMap8, fOp_encA, BitVec.reduceToNat, Nat.reduceDiv, noD_encA, pgOf_encA, fSa_encA, badMod_encA, mod_none]
    exact a1_read (s := zSrc) rfl Nat.one_pos
  | some a =>
    cases hw
    obtain ⟨ha, hz⟩ := Bool.and_eq_true_iff.mp hwf
    rw [tableRest_encA rfl]
    simp only [decodeWord, decodeMap8, fOp_encA, BitVec.reduceToNat, Nat.reduceDiv, noD_encA, pgOf_encA, fSa_encA, badMod_encA, mod_none, Option.elim_some, srcAt_srcCode ha Nat.one_pos,
      srcCode_used ha Nat.one_pos hz]
    exact a1_read ha Nat.one_pos

theorem barp_readsBack {o : A1} {op : RedOp} {rnd : Rnd} {u w64 : Bool} (hwf : WellFormed (.barp o op rnd u w64) = true) : ReadsBack (.barp o op rnd u w64) := by
  intro w hw
  cases hw
  have hk := k64_pos w64
  obtain ⟨ho, hop⟩ := Bool.and_eq_true_iff.mp hwf
  obtain ⟨hm, h9, h8, hr, hrnd⟩ := mod_red w64 u op rnd
  rw [tableRest_encA rfl]
  simp only [decodeWord, decodeMap9, fOp_encA, BitVec.reduceToNat, Nat.reduceDiv, m9_encA, m8_encA, fMod_encA, badMod_encA, a1Of_encA ho hk hk, badD_encA _ _ _ _ _ _ (A1.wf_d ho) hk,
    Option.isNone_some, Option.getD_some, Bool.or_self, Bool.not_true, hm, h9, h8, hr, hrnd, hop]
  exact a1_read (A1.wf_a ho) hk

theorem bar_readsBack (pg : Guard) : ReadsBack (.bar pg) := by
  intro w hw
  cases hw
  rw [tableRest_encA rfl]
  simp only [decodeWord, decodeMap9, fOp_encA, BitVec.reduceToNat, Nat.reduceDiv, noD_encA, pgOf_encA, badMod_encA, mod_none]
  exact a0_read

theorem gbar_readsBack (pg : Guard) : ReadsBack (.gbar pg) := by
  intro w hw
  cases hw
  rw [tableRest_encA rfl]
  simp only [decodeWord, decodeMap9, fOp_encA, BitVec.reduceToNat, Nat.reduceDiv, noD_encA, pgOf_encA, badMod_encA, mod_none]
  exact a0_read

theorem ckpt_readsBack (pg : Guard) : ReadsBack (.ckpt pg) := by
  intro w hw
  cases hw
  rw [tableRest_encA rfl]
  simp only [decodeWord, decodeMap9, fOp_encA, BitVec.reduceToNat, Nat.reduceDiv, noD_encA, pgOf_encA, badMod_encA, mod_none]
  exact a0_read

end Sys2Proof
end
section
/-! PROOFS of O4, part 7: the engine, matrix and task words are read back. -/

namespace Sys2Proof
-- One declaration after another, as in the Tests: the large proofs run side by side ask for too much memory.
set_option Elab.async false
open BitVec hiding and_assoc and_self

/-! ## Engine words -/

theorem litChk_three {s t u : Src} {rest : List Word} (hr : rest ≠ []) (h : oneLit [s, t, u] = true) : ∀ c ∈ litChk rest [srcCode s, srcCode t, srcCode u], c.1 = false := by
  refine litChk_clear_iff.mpr ⟨?_, fun h => absurd h hr⟩
  have hl := lit_codeOf [some s, some t, some u]
  simp only [List.map_cons, List.map_nil, codeOf, Option.elim_some, List.flatMap_cons, List.flatMap_nil, Option.toList_some, List.append_nil, List.singleton_append] at hl
  rw [hl]
  exact of_decide_eq_true h

theorem sideK_pos (g h : Bool) : 0 < sideK g h := by cases g <;> cases h <;> decide

theorem rowK_pos (rows : Bool) : 0 < (if rows then 4 else 1) := by cases rows <;> decide

section
variable {op : BitVec 8} {c : CopyOp} {rows : Bool}

theorem CopyOp.wf_iff : c.wf rows = true ↔ c.d.late 2 = true ∧ c.dst.wf (sideK c.dir.dstGlobal c.hdst) = true ∧ c.src.wf (sideK c.dir.srcGlobal c.hsrc) = true ∧
    c.len.wf (if rows then 4 else 1) = true ∧ oneLit [c.dst, c.src, c.len] = true ∧ (!c.hdst || c.dir.dstGlobal) = true ∧ (!c.hsrc || c.dir.srcGlobal) = true := by
  simp only [CopyOp.wf, Bool.and_eq_true, and_assoc]

theorem fOp_encCopy : fOp (encCopy op c) = op.toNat := fOp_encA ..

theorem copyOf_encCopy (h : c.wf rows = true) : copyOf (encCopy op c) = c := by
  obtain ⟨hd, hdst, hsrc, hlen, -⟩ := CopyOp.wf_iff.mp h
  obtain ⟨-, h8, h7, h6, hs, hdir⟩ := mod_copy c.hoff c.hsrc c.hdst c.scope c.dir
  unfold copyOf encCopy
  dsimp only
  rw [pgOf_encA, fD_encA, fSa_encA, fSb_encA, fSc_encA, fMod_encA, h8, h7, h6, scopeAt, hs, hdir, dstAt_dstCode (Dst.late_fits hd) Nat.two_pos, srcAt_srcCode hdst (sideK_pos _ _),
    srcAt_srcCode hsrc (sideK_pos _ _), srcAt_srcCode hlen (rowK_pos rows)]
  rfl

/-- A handle on a side that is no global address is refused, and no other. -/
theorem handle_allowed {h g : Bool} (hw : (!h || g) = true) : (h && !g) = false := by
  rw [← Bool.not_eq_true', Bool.not_and, Bool.not_not]
  exact hw

theorem badCopy_encCopy (h : c.wf rows = true) : badCopy rows (encCopy op c) = false := by
  obtain ⟨hd, hdst, hsrc, hlen, -, hh1, hh2⟩ := CopyOp.wf_iff.mp h
  unfold badCopy
  rw [copyOf_encCopy h]
  unfold encCopy
  dsimp only
  rw [fD_encA, fSa_encA, fSb_encA, fSc_encA, badDst_dstCode (Dst.late_fits hd) Nat.two_pos hd, badSrc_srcCode hdst (sideK_pos _ _), badSrc_srcCode hsrc (sideK_pos _ _),
    badSrc_srcCode hlen (rowK_pos rows), handle_allowed hh1, handle_allowed hh2]
  rfl

/-- A copy with well-formed operands has no cause of its fields (R366 to R369). -/
theorem copy_clear {rest : List Word} {extra : Bool} (hr : rest ≠ []) (h : c.wf rows = true) (hx : extra = false) : let w := encCopy op c
    ∀ x ∈ litChk rest [fSa w, fSb w, fSc w] ++ [((scopeOf ((fMod w).extractLsb' 3 3)).isNone, cScope),
      ((dirOf ((fMod w).setWidth 3)).isNone || badMod w 0x1FF || badCopy rows w || extra, cOperand)], x.1 = false := by
  obtain ⟨hm, -, -, -, hs, hdir⟩ := mod_copy c.hoff c.hsrc c.hdst c.scope c.dir
  refine List.forall_mem_append.mpr ⟨?_, ?_⟩
  · unfold encCopy
    rw [fSa_encA, fSb_encA, fSc_encA]
    exact litChk_three hr (CopyOp.wf_iff.mp h).2.2.2.2.1
  · rw [badCopy_encCopy h, hx]
    unfold encCopy
    rw [badMod_encA, fMod_encA, hm, hs, hdir]
    simp

end

theorem copy_readsBack {c : CopyOp} (hwf : WellFormed (.copy c) = true) : ReadsBack (.copy c) := by
  intro w hw
  cases hw
  rw [tableRest_one (by rw [fOp_encCopy]; rfl)]
  simp only [decodeWord, decodeMapA, fOp_encCopy, BitVec.reduceToNat, Nat.reduceDiv, copyOf_encCopy hwf]
  rw [← Bool.or_false (_ || badCopy false _)]
  exact chk_clear (copy_clear (List.cons_ne_nil _ _) hwf rfl)

theorem gather_readsBack {c : CopyOp} (hwf : WellFormed (.gather c) = true) : ReadsBack (.gather c) := by
  intro w hw
  cases hw
  rw [tableRest_one (by rw [fOp_encCopy]; rfl)]
  simp only [decodeWord, decodeMapA, fOp_encCopy, BitVec.reduceToNat, Nat.reduceDiv, copyOf_encCopy hwf]
  rw [← Bool.or_false (_ || badCopy true _)]
  exact chk_clear (copy_clear (List.cons_ne_nil _ _) hwf rfl)

theorem scatter_readsBack {c : CopyOp} (hwf : WellFormed (.scatter c) = true) : ReadsBack (.scatter c) := by
  intro w hw
  cases hw
  obtain ⟨hc, hslot⟩ := Bool.and_eq_true_iff.mp hwf
  rw [tableRest_one (by rw [fOp_encCopy]; rfl)]
  simp only [decodeWord, decodeMapA, fOp_encCopy, BitVec.reduceToNat, Nat.reduceDiv, copyOf_encCopy hc]
  exact chk_clear (copy_clear (List.cons_ne_nil _ _) hc ((Bool.not_eq_true' _).mp hslot))

/-- The table's follow-on is a word that a COPYM accepts. -/
theorem followWordOk_table : followWordOk tableFollow = true := by decide +kernel

/-- A COPYM is read with its follow-on after it, and its literal before that. -/
theorem tableRest_copym {w : Word} (h : fOp w = 0xA1) : tableRest w ≠ [] ∧ followOk w (tableRest w) = true := by
  unfold tableRest followOk followOn
  simp only [h]
  by_cases hl : (isLitField (fSa w) || isLitField (fSb w) || isLitField (fSc w)) = true
  · simp [hl, followWordOk_table]
  · simp [hl, followWordOk_table]

theorem copym_readsBack {c : CopyOp} (hwf : WellFormed (.copym c) = true) : ReadsBack (.copym c) := by
  intro w hw
  cases hw
  obtain ⟨hc, hslot⟩ := Bool.and_eq_true_iff.mp hwf
  obtain ⟨hr, hf⟩ := tableRest_copym (w := encCopy 0xA1 c) fOp_encCopy
  simp only [decodeWord, decodeMapA, fOp_encCopy, BitVec.reduceToNat, Nat.reduceDiv, copyOf_encCopy hc, hf]
  refine chk_clear fun x hx => ?_
  rw [List.append_cons, List.append_cons] at hx
  rcases List.mem_append.mp hx with hx | hx
  · refine copy_clear (op := 0xA1) (extra := !c.dir.dstSlot) hr hc (by rw [hslot]; rfl) x ?_
    rwa [List.append_assoc, List.singleton_append] at hx
  · obtain rfl := List.mem_singleton.mp hx
    rfl

theorem remq_readsBack {o : A2} {ack : Bool} (hwf : WellFormed (.remq o ack) = true) : ReadsBack (.remq o ack) := by
  intro w hw
  cases hw
  simp only [WellFormed, Bool.and_eq_true] at hwf
  obtain ⟨⟨⟨⟨hd, hz⟩, ha⟩, hb⟩, hlit⟩ := hwf
  have ho : o.wf 2 1 1 = true := A2.wf_iff.mpr ⟨Dst.late_fits hd, ha, hb, hlit⟩
  obtain ⟨hm, h0⟩ := mod_bit ack
  have hdst : (if ack = true then badLate (encA 0xA4 o.pg (dstCode o.d) (srcCode o.a) (srcCode o.b) unusedSrc ((BitVec.ofBool ack).setWidth 10)) 2
      else (dstCode o.d != unusedDst)) = false := by
    cases ack with
    | true => exact badLate_encA _ _ _ _ _ _ hd Nat.two_pos
    | false => exact (by rw [beq_iff_eq.mp hz]; rfl)
  rw [tableRest_encA rfl]
  simp only [decodeWord, decodeMapA, fOp_encA, BitVec.reduceToNat, Nat.reduceDiv, fMod_encA, noD_encA, badMod_encA, a2Of_encA ho Nat.two_pos Nat.one_pos Nat.one_pos, hm, h0, hdst]
  exact a2_read ⟨ha, hb, hlit⟩ Nat.one_pos Nat.one_pos

theorem rqpop_readsBack {o : A1} {nb : Bool} (hwf : WellFormed (.rqpop o nb) = true) : ReadsBack (.rqpop o nb) := by
  intro w hw
  cases hw
  obtain ⟨hd, ha⟩ := Bool.and_eq_true_iff.mp hwf
  have ho : o.wf 1 1 = true := Bool.and_eq_true_iff.mpr ⟨Dst.late_fits hd, ha⟩
  obtain ⟨hm, h0⟩ := mod_bit nb
  rw [tableRest_encA rfl]
  simp only [decodeWord, decodeMapA, fOp_encA, BitVec.reduceToNat, Nat.reduceDiv, fMod_encA, badMod_encA, a1Of_encA ho Nat.one_pos Nat.one_pos, badLate_encA _ _ _ _ _ _ hd Nat.one_pos, hm, h0]
  exact a1_read ha Nat.one_pos

/-- XRED combines by the operations below EXCH. -/
theorem xredAop {a : AOp} (hx : (a != .exch) = true) (hl : (a != .load) = true) : decide (5 < (aopCode a).toNat) = false := by
  revert hx hl
  cases a <;> decide

theorem s2gK_pos (s2g : Bool) : 0 < (if s2g then 1 else 2) := by cases s2g <;> decide

theorem xred_readsBack {o : A3} {s2g : Bool} {ty : AType} {aop : AOp} {scope : Scope} (hwf : WellFormed (.xred o s2g ty aop scope) = true) :
    ReadsBack (.xred o s2g ty aop scope) := by
  intro w hw
  cases hw
  simp only [WellFormed, Bool.and_eq_true] at hwf
  obtain ⟨⟨⟨⟨⟨⟨⟨hd, ha⟩, hb⟩, hc⟩, hlit⟩, hal⟩, hex⟩, hld⟩ := hwf
  have hk := s2gK_pos s2g
  have ho : o.wf 2 2 (if s2g then 1 else 2) 1 = true := A3.wf_iff.mpr ⟨Dst.late_fits hd, ha, hb, hc, hlit⟩
  obtain ⟨h0, hty, haop, hs⟩ := mod_xred scope aop ty s2g
  rw [tableRest_encA rfl]
  simp only [decodeWord, decodeMapA, fOp_encA, BitVec.reduceToNat, Nat.reduceDiv]
  simp only [fMod_encA, a3Of_encA ho Nat.two_pos Nat.two_pos hk Nat.one_pos, badLate_encA _ _ _ _ _ _ hd Nat.two_pos, h0, hty, haop, hs, scopeAt, aopOf_aopCode,
    xredAop hex hld, hal, Option.isNone_some, Option.getD_some, Bool.not_true, Bool.or_self]
  refine chk_clear (List.forall_mem_append.mpr ⟨?_, by simp⟩)
  exact aChk_clear (a := some o.a) (b := some o.b) (c := some o.c) (List.cons_ne_nil _ _) rfl ⟨Nat.two_pos, ha⟩ ⟨hk, hb⟩ ⟨Nat.one_pos, hc⟩ hlit rfl

theorem strm_readsBack {pg : Guard} {a : Src} {cp : Cp} {dims : BitVec 2} {sx : Bool} {ew : IWidth} {q : BitVec 3} (hwf : WellFormed (.strm pg a cp dims sx ew q) = true) :
    ReadsBack (.strm pg a cp dims sx ew q) := by
  intro w hw
  cases hw
  have ha : a.wf 2 = true := hwf
  obtain ⟨hcp, hdims, h5, hew, hq⟩ := mod_strm cp dims sx ew q
  rw [tableRest_encA rfl]
  simp only [decodeWord, decodeMapA, fOp_encA, BitVec.reduceToNat, Nat.reduceDiv, noD_encA, pgOf_encA, fSa_encA, fMod_encA, srcAt_srcCode ha Nat.two_pos, cpAt, hcp, hdims, h5, hew, hq,
    Option.isNone_some, Option.getD_some]
  refine chk_clear (List.forall_mem_append.mpr ⟨?_, by simp⟩)
  exact aChk_clear (a := some a) (b := none) (c := none) (List.cons_ne_nil _ _) rfl ⟨Nat.two_pos, ha⟩ rfl rfl (oneLit_one _) rfl

theorem strmx_readsBack (pg : Guard) (q : BitVec 3) : ReadsBack (.strmx pg q) := by
  intro w hw
  cases hw
  obtain ⟨hm, hq⟩ := mod_3 q
  rw [tableRest_encA rfl]
  simp only [decodeWord, decodeMapA, fOp_encA, BitVec.reduceToNat, Nat.reduceDiv, noD_encA, pgOf_encA, fMod_encA, badMod_encA, hm, hq]
  exact a0_read

theorem tchk_readsBack {pg : Guard} {pd : BitVec 3} {a : Src} (hwf : WellFormed (.tchk pg pd a) = true) : ReadsBack (.tchk pg pd a) := by
  intro w hw
  cases hw
  have ht : a.token = true := hwf
  have ha : a.wf 2 = true := (Bool.and_eq_true_iff.mp ht).1
  have hbad : badToken (srcCode a) = false := by
    unfold badToken
    rw [srcOf_srcCode (Src.wf_fits ha) Nat.two_pos]
    exact (Bool.not_eq_false' (b := a.token)).mpr ht
  rw [tableRest_encA rfl]
  simp only [decodeWord, decodeMapA, fOp_encA, BitVec.reduceToNat, Nat.reduceDiv, pgOf_encA, fD_encA, fSa_encA, badP_encA, badMod_encA, mod_none, hbad, predAt_predCode, srcAt_srcCode ha Nat.two_pos, Bool.or_self]
  exact a1_read ha Nat.two_pos

/-! ## Matrix words -/

theorem tcfg_readsBack {pg : Guard} {a : Src} (hwf : WellFormed (.tcfg pg a) = true) : ReadsBack (.tcfg pg a) := by
  intro w hw
  cases hw
  have ha : a.wf 2 = true := hwf
  rw [tableRest_encA rfl]
  simp only [decodeWord, decodeMapB, fOp_encA, BitVec.reduceToNat, Nat.reduceDiv, noD_encA, pgOf_encA, fSa_encA, badMod_encA, mod_none, srcAt_srcCode ha Nat.two_pos]
  exact a1_read ha Nat.two_pos

theorem oclaim_readsBack {o : P2} {nb : Bool} (hwf : WellFormed (.oclaim o nb) = true) : ReadsBack (.oclaim o nb) := by
  intro w hw
  cases hw
  obtain ⟨hm, h0⟩ := mod_bit nb
  rw [tableRest_encA rfl]
  simp only [decodeWord, decodeMapB, fOp_encA, BitVec.reduceToNat, Nat.reduceDiv, fMod_encA, badMod_encA, badP_encA, p2Of_encA hwf Nat.one_pos Nat.one_pos, hm, h0]
  exact a2_read (P2.wf_iff.mp hwf) Nat.one_pos Nat.one_pos

theorem orel_readsBack {pg : Guard} {a b : Src} (hwf : WellFormed (.orel pg a b) = true) : ReadsBack (.orel pg a b) := by
  intro w hw
  cases hw
  simp only [WellFormed, Bool.and_eq_true] at hwf
  obtain ⟨⟨ha, hb⟩, hlit⟩ := hwf
  rw [tableRest_encA rfl]
  simp only [decodeWord, decodeMapB, fOp_encA, BitVec.reduceToNat, Nat.reduceDiv, noD_encA, pgOf_encA, fSa_encA, fSb_encA, badMod_encA, mod_none, srcAt_srcCode ha Nat.one_pos, srcAt_srcCode hb Nat.one_pos]
  exact a2_read ⟨ha, hb, hlit⟩ Nat.one_pos Nat.one_pos

/-- MMA, MMAZ and MPERM: three operands and a token. -/
theorem mma_readsBack {i : Instr} {o : A3} (hi : i = .mma o ∨ i = .mmaz o ∨ i = .mperm o) (hwf : WellFormed i = true) : ReadsBack i := by
  intro w hw
  rcases hi with rfl | rfl | rfl <;>
  · cases hw
    obtain ⟨hd, ho⟩ := Bool.and_eq_true_iff.mp hwf
    rw [tableRest_encA rfl]
    simp only [decodeWord, decodeMapB, fOp_encA, BitVec.reduceToNat, Nat.reduceDiv, badMod_encA, mod_none, a3Of_encA ho Nat.two_pos Nat.one_pos Nat.one_pos Nat.one_pos,
      badLate_encA _ _ _ _ _ _ hd Nat.two_pos]
    exact a3_read (A3.wf_iff.mp ho).2 Nat.one_pos Nat.one_pos Nat.one_pos

/-- MXT and MRRED: two operands, in the first and third place, and a token. -/
theorem mxt_readsBack {i : Instr} {pg : Guard} {d : Dst} {a c : Src} (hi : i = .mxt pg d a c ∨ i = .mrred pg d a c) (hwf : WellFormed i = true) : ReadsBack i := by
  intro w hw
  rcases hi with rfl | rfl <;>
  · cases hw
    simp only [WellFormed, Bool.and_eq_true] at hwf
    obtain ⟨⟨⟨hd, ha⟩, hc⟩, hlit⟩ := hwf
    rw [tableRest_encA rfl]
    simp only [decodeWord, decodeMapB, fOp_encA, BitVec.reduceToNat, Nat.reduceDiv, pgOf_encA, fD_encA, fSa_encA, fSc_encA, badMod_encA, mod_none, dstAt_dstCode (Dst.late_fits hd) Nat.two_pos,
      srcAt_srcCode ha Nat.one_pos, srcAt_srcCode hc Nat.one_pos, badLate_encA _ _ _ _ _ _ hd Nat.two_pos]
    exact aWord_read (a := some a) (b := none) (c := some c) ⟨Nat.one_pos, ha⟩ rfl ⟨Nat.one_pos, hc⟩ hlit rfl rfl

theorem sK_pos (s : Bool) : 0 < (if s then 1 else 2) := by cases s <;> decide

section
variable {op : BitVec 8} {o : AccOp}

theorem AccOp.wf_iff : o.wf = true ↔ o.d.late 2 = true ∧ o.a.wf (if o.s then 1 else 2) = true ∧ o.tile.wf 1 = true ∧
    (match o.c with | none => true | some c => c.wf 2 && c.op != .zero) = true ∧ oneLit (o.a :: o.tile :: o.c.toList) = true := by
  simp only [AccOp.wf, Bool.and_eq_true, and_assoc] <;> rfl

/-- The word of ACCLD and ACCST. -/
def encAcc (op : BitVec 8) (o : AccOp) : Word :=
  encA op o.pg (dstCode o.d) (srcCode o.a) (srcCode o.tile) (o.c.elim unusedSrc srcCode) ((scopeCode o.scope ++ BitVec.ofBool o.raw ++ BitVec.ofBool o.s).setWidth 10)

theorem fOp_encAcc : fOp (encAcc op o) = op.toNat := fOp_encA ..

/-- The third operand of an accumulator word: none, or a pair that is not the zero register. -/
theorem accC_unused (h : (match o.c with | none => true | some c => c.wf 2 && c.op != .zero) = true) : (codeOf o.c == unusedSrc) = o.c.isNone := by
  obtain ⟨pg, d, a, tile, c, s, raw, scope⟩ := o
  cases c with
  | none => rfl
  | some c =>
    obtain ⟨hc, hz⟩ := Bool.and_eq_true_iff.mp h
    exact srcCode_used hc Nat.two_pos hz

theorem accC_fits (h : (match o.c with | none => true | some c => c.wf 2 && c.op != .zero) = true) :
    FitsAt (if o.c.isNone = true then 0 else 2) o.c ∧ (if o.c.isNone = true then none else some (srcAt (codeOf o.c))) = o.c := by
  obtain ⟨pg, d, a, tile, c, s, raw, scope⟩ := o
  cases c with
  | none => exact ⟨rfl, rfl⟩
  | some c =>
    obtain ⟨hc, -⟩ := Bool.and_eq_true_iff.mp h
    exact ⟨⟨Nat.two_pos, hc⟩, congrArg some (srcAt_srcCode hc Nat.two_pos)⟩

theorem accOf_encAcc (h : o.wf = true) : accOf (encAcc op o) = o := by
  obtain ⟨hd, ha, ht, hc, -⟩ := AccOp.wf_iff.mp h
  obtain ⟨-, h0, h1, hs⟩ := mod_acc o.scope o.raw o.s
  unfold accOf encAcc
  dsimp only
  rw [show o.c.elim unusedSrc srcCode = codeOf o.c from rfl, pgOf_encA, fD_encA, fSa_encA, fSb_encA, fSc_encA, fMod_encA, h0, h1, scopeAt, hs, dstAt_dstCode (Dst.late_fits hd) Nat.two_pos,
    srcAt_srcCode ha (sK_pos _), srcAt_srcCode ht Nat.one_pos, accC_unused hc, (accC_fits hc).2]
  rfl

/-- The accumulator words have none of their causes with a word after them. -/
theorem acc_clear (h : o.wf = true) : let w := encAcc op o
    ∀ x ∈ aChk w [0] (badLate w 2) (if (fMod w).getLsbD 0 then 1 else 2) 1 (if fSc w == unusedSrc then 0 else 2) (badMod w 0x01F) ++
      [((scopeOf ((fMod w).extractLsb' 2 3)).isNone, cScope)], x.1 = false := by
  obtain ⟨hd, ha, ht, hc, hlit⟩ := AccOp.wf_iff.mp h
  obtain ⟨hm, h0, -, hs⟩ := mod_acc o.scope o.raw o.s
  unfold encAcc
  dsimp only
  rw [show o.c.elim unusedSrc srcCode = codeOf o.c from rfl, badLate_encA _ _ _ _ _ _ hd Nat.two_pos, fMod_encA, fSc_encA, badMod_encA, h0, hm, hs, accC_unused hc]
  refine List.forall_mem_append.mpr ⟨?_, by simp⟩
  exact aChk_clear (a := some o.a) (b := some o.tile) (c := o.c) (List.cons_ne_nil _ _) rfl ⟨sK_pos _, ha⟩ ⟨Nat.one_pos, ht⟩ (accC_fits hc).1 hlit rfl

end

theorem accld_readsBack {o : AccOp} (hwf : WellFormed (.accld o) = true) : ReadsBack (.accld o) := by
  intro w hw
  obtain rfl : encAcc 0xB8 o = w := Option.some.inj hw
  rw [tableRest_one (by rw [fOp_encAcc]; rfl)]
  simp only [decodeWord, decodeMapB, fOp_encAcc, BitVec.reduceToNat, Nat.reduceDiv, accOf_encAcc hwf]
  exact chk_clear (acc_clear hwf)

theorem accst_readsBack {o : AccOp} (hwf : WellFormed (.accst o) = true) : ReadsBack (.accst o) := by
  intro w hw
  obtain rfl : encAcc 0xB9 o = w := Option.some.inj hw
  rw [tableRest_one (by rw [fOp_encAcc]; rfl)]
  simp only [decodeWord, decodeMapB, fOp_encAcc, BitVec.reduceToNat, Nat.reduceDiv, accOf_encAcc hwf]
  exact chk_clear (acc_clear hwf)

theorem accz_readsBack {o : A1} (hwf : WellFormed (.accz o) = true) : ReadsBack (.accz o) := by
  intro w hw
  cases hw
  obtain ⟨hd, ha⟩ := Bool.and_eq_true_iff.mp hwf
  have ho : o.wf 2 1 = true := Bool.and_eq_true_iff.mpr ⟨Dst.late_fits hd, ha⟩
  rw [tableRest_encA rfl]
  simp only [decodeWord, decodeMapB, fOp_encA, BitVec.reduceToNat, Nat.reduceDiv, badMod_encA, mod_none, a1Of_encA ho Nat.two_pos Nat.one_pos, badLate_encA _ _ _ _ _ _ hd Nat.two_pos]
  exact a1_read ha Nat.one_pos

/-- MTAKE, MPASS and MDROP have no operand. -/
theorem reed_readsBack {i : Instr} {pg : Guard} (hi : i = .mtake pg ∨ i = .mpass pg ∨ i = .mdrop pg) : ReadsBack i := by
  intro w hw
  rcases hi with rfl | rfl | rfl <;>
  · cases hw
    rw [tableRest_encA rfl]
    simp only [decodeWord, decodeMapB, fOp_encA, BitVec.reduceToNat, Nat.reduceDiv, noD_encA, pgOf_encA, badMod_encA, mod_none]
    exact a0_read

theorem mstat_readsBack {pg : Guard} {d : Dst} (hwf : WellFormed (.mstat pg d) = true) : ReadsBack (.mstat pg d) := by
  intro w hw
  cases hw
  rw [tableRest_encA rfl]
  simp only [decodeWord, decodeMapB, fOp_encA, BitVec.reduceToNat, Nat.reduceDiv, pgOf_encA, fD_encA, badMod_encA, mod_none, dstAt_dstCode (Dst.vog_fits hwf) Nat.one_pos,
    badVog_encA _ _ _ _ _ _ hwf Nat.one_pos]
  exact a0_read

/-! ## Task words -/

theorem nb_destination (nb : Option (BitVec 3)) :
    (if nb.isSome = true then badPred (nb.elim unusedDst predCode) else (nb.elim unusedDst predCode != unusedDst)) = false ∧
      (if nb.isSome = true then some (predAt (nb.elim unusedDst predCode)) else none) = nb := by
  cases nb with
  | none => exact ⟨rfl, rfl⟩
  | some p => exact ⟨badPred_predCode p, congrArg some (predAt_predCode p)⟩

theorem spawn_readsBack {pg : Guard} {nb : Option (BitVec 3)} {code args : Src} (hwf : WellFormed (.spawn pg nb code args) = true) : ReadsBack (.spawn pg nb code args) := by
  intro w hw
  cases hw
  simp only [WellFormed, Bool.and_eq_true] at hwf
  obtain ⟨⟨hc, ha⟩, hlit⟩ := hwf
  obtain ⟨hm, h0⟩ := mod_ite nb.isSome
  obtain ⟨hd, hnb⟩ := nb_destination nb
  rw [tableRest_encA rfl]
  simp only [decodeWord, decodeMapC, fOp_encA, BitVec.reduceToNat, Nat.reduceDiv]
  simp only [noD, badP, pgOf_encA, fD_encA, fSa_encA, fSb_encA, fMod_encA, badMod_encA, hm, h0, hd, hnb, srcAt_srcCode hc Nat.two_pos, srcAt_srcCode ha (Nat.succ_pos 3)]
  exact a2_read ⟨hc, ha, hlit⟩ Nat.two_pos (Nat.succ_pos 3)

theorem spawnw_readsBack {pg : Guard} {nb : Option (BitVec 3)} {k : BitVec 4} {args : Src} (hwf : WellFormed (.spawnw pg nb k args) = true) : ReadsBack (.spawnw pg nb k args) := by
  intro w hw
  cases hw
  have ha : args.wf 4 = true := hwf
  obtain ⟨hm, h4, hk⟩ := mod_spawn nb.isSome k
  obtain ⟨hd, hnb⟩ := nb_destination nb
  rw [tableRest_encA rfl]
  simp only [decodeWord, decodeMapC, fOp_encA, BitVec.reduceToNat, Nat.reduceDiv]
  simp only [noD, badP, pgOf_encA, fD_encA, fSb_encA, fMod_encA, badMod_encA, hm, h4, hk, hd, hnb, srcAt_srcCode ha (Nat.succ_pos 3)]
  exact aWord_read (a := none) (b := some args) (c := none) rfl ⟨Nat.succ_pos 3, ha⟩ rfl (oneLit_one _) rfl rfl

theorem spawnr_readsBack {pg : Guard} {nb : Option (BitVec 3)} {k : BitVec 4} {lo hi chunk : Src} (hwf : WellFormed (.spawnr pg nb k lo hi chunk) = true) :
    ReadsBack (.spawnr pg nb k lo hi chunk) := by
  intro w hw
  cases hw
  simp only [WellFormed, Bool.and_eq_true] at hwf
  obtain ⟨⟨⟨hl, hh⟩, hc⟩, hlit⟩ := hwf
  obtain ⟨hm, h4, hk⟩ := mod_spawn nb.isSome k
  obtain ⟨hd, hnb⟩ := nb_destination nb
  rw [tableRest_encA rfl]
  simp only [decodeWord, decodeMapC, fOp_encA, BitVec.reduceToNat, Nat.reduceDiv]
  simp only [noD, badP, pgOf_encA, fD_encA, fSa_encA, fSb_encA, fSc_encA, fMod_encA, badMod_encA, hm, h4, hk, hd, hnb, srcAt_srcCode hl Nat.two_pos, srcAt_srcCode hh Nat.two_pos, srcAt_srcCode hc Nat.one_pos]
  exact a3_read ⟨hl, hh, hc, hlit⟩ Nat.two_pos Nat.two_pos Nat.one_pos

theorem tget_readsBack {pg : Guard} {d : Dst} (hwf : WellFormed (.tget pg d) = true) : ReadsBack (.tget pg d) := by
  intro w hw
  cases hw
  have hd : d.fits 4 = true := Dst.late_fits (Bool.and_eq_true_iff.mp hwf).1
  rw [tableRest_encA rfl]
  simp only [decodeWord, decodeMapC, fOp_encA, BitVec.reduceToNat, Nat.reduceDiv, pgOf_encA, fD_encA, badMod_encA, mod_none, dstAt_dstCode hd (Nat.succ_pos 3)]
  rw [badDst_dstCode (ok := fun d => d.late 4 && d != .zero) hd (Nat.succ_pos 3) hwf]
  exact a0_read

theorem launch_readsBack {pg : Guard} {r : Src} (hwf : WellFormed (.launch pg r) = true) : ReadsBack (.launch pg r) := by
  intro w hw
  cases hw
  have hr : r.wf 2 = true := hwf
  rw [tableRest_encA rfl]
  simp only [decodeWord, decodeMapC, fOp_encA, BitVec.reduceToNat, Nat.reduceDiv, noD_encA, pgOf_encA, fSa_encA, badMod_encA, mod_none, srcAt_srcCode hr Nat.two_pos]
  exact a1_read hr Nat.two_pos

end Sys2Proof
end
section
/-! PROOFS of O4, part 8: the state and system words, pair words and reserved words are read back; the settlement of O4. -/

namespace Sys2Proof
-- One declaration after another, as in the Tests: the large proofs run side by side ask for too much memory.
set_option Elab.async false
open BitVec hiding and_assoc and_self

/-! ## Broadcast, colour and register words -/

theorem bwupd_readsBack {pg : Guard} {n : BitVec 4} {op : BwOp} {die : Bool} {a : Src} (hwf : WellFormed (.bwupd pg n op die a) = true) : ReadsBack (.bwupd pg n op die a) := by
  intro w hw
  cases hw
  have ha : a.wf 2 = true := hwf
  obtain ⟨hm, hn, hop, h6⟩ := mod_bwupd die op n
  rw [tableRest_encA rfl]
  simp only [decodeWord, decodeMapC, fOp_encA, BitVec.reduceToNat, Nat.reduceDiv]
  simp only [noD_encA, pgOf_encA, fSa_encA, fMod_encA, badMod_encA, hm, hn, hop, h6, Option.isNone_some, Option.getD_some, Bool.or_self, srcAt_srcCode ha Nat.two_pos]
  exact a1_read ha Nat.two_pos

theorem bwrd_readsBack {pg : Guard} {d : Dst} {n : BitVec 4} {p : BitVec 3} (hwf : WellFormed (.bwrd pg d n p) = true) : ReadsBack (.bwrd pg d n p) := by
  intro w hw
  cases hw
  obtain ⟨hm, hn, hp⟩ := mod_bwrd n p
  rw [tableRest_encA rfl]
  simp only [decodeWord, decodeMapC, fOp_encA, BitVec.reduceToNat, Nat.reduceDiv]
  simp only [pgOf_encA, fD_encA, fMod_encA, badMod_encA, hm, hn, hp, dstAt_dstCode (Dst.vog_fits hwf) Nat.two_pos, badVog_encA _ _ _ _ _ _ hwf Nat.two_pos]
  exact a0_read

theorem cwait_readsBack {o : P2} (hwf : WellFormed (.cwait o) = true) : ReadsBack (.cwait o) := by
  intro w hw
  cases hw
  rw [tableRest_encA rfl]
  simp only [decodeWord, decodeMapC, fOp_encA, BitVec.reduceToNat, Nat.reduceDiv]
  simp only [badMod_encA, mod_none, badP_encA, p2Of_encA hwf Nat.one_pos Nat.one_pos]
  exact a2_read (P2.wf_iff.mp hwf) Nat.one_pos Nat.one_pos

theorem cnotify_readsBack {pg : Guard} {all : Bool} {a : Src} (hwf : WellFormed (.cnotify pg all a) = true) : ReadsBack (.cnotify pg all a) := by
  intro w hw
  cases hw
  have ha : a.wf 1 = true := hwf
  obtain ⟨hm, h0⟩ := mod_ite all
  rw [tableRest_encA rfl]
  simp only [decodeWord, decodeMapC, fOp_encA, BitVec.reduceToNat, Nat.reduceDiv]
  simp only [noD_encA, pgOf_encA, fSa_encA, fMod_encA, badMod_encA, hm, h0, srcAt_srcCode ha Nat.one_pos]
  exact a1_read ha Nat.one_pos

theorem cheld_readsBack {o : A1} (hwf : WellFormed (.cheld o) = true) : ReadsBack (.cheld o) := by
  intro w hw
  cases hw
  obtain ⟨hd, ha⟩ := Bool.and_eq_true_iff.mp hwf
  have ho : o.wf 1 1 = true := Bool.and_eq_true_iff.mpr ⟨Dst.vog_fits hd, ha⟩
  rw [tableRest_encA rfl]
  simp only [decodeWord, decodeMapC, fOp_encA, BitVec.reduceToNat, Nat.reduceDiv]
  simp only [badMod_encA, mod_none, a1Of_encA ho Nat.one_pos Nat.one_pos, badVog_encA _ _ _ _ _ _ hd Nat.one_pos]
  exact a1_read ha Nat.one_pos

theorem getsr_readsBack {pg : Guard} {d : Dst} {n : BitVec 8} (hwf : WellFormed (.getsr pg d n) = true) : ReadsBack (.getsr pg d n) := by
  intro w hw
  cases hw
  have hk := k64_pos (sr64 n)
  have hd : d.fits (k64 (sr64 n)) = true := Dst.strict_fits hwf
  obtain ⟨hm, hn, -⟩ := mod_8 n
  rw [tableRest_encA rfl]
  simp only [decodeWord, decodeMapD, fOp_encA, BitVec.reduceToNat, Nat.reduceDiv]
  simp only [pgOf_encA, fD_encA, fMod_encA, badMod_encA, hm, hn, dstAt_dstCode hd hk, badDst_dstCode (ok := Dst.strict (k64 (sr64 n))) hd hk hwf]
  exact a0_read

theorem setsr_readsBack {pg : Guard} {n : BitVec 8} {a : Src} (hwf : WellFormed (.setsr pg n a) = true) : ReadsBack (.setsr pg n a) := by
  intro w hw
  cases hw
  have hk := k64_pos (sr64 n)
  have ha : a.wf (k64 (sr64 n)) = true := hwf
  obtain ⟨hm, hn, -⟩ := mod_8 n
  rw [tableRest_encA rfl]
  simp only [decodeWord, decodeMapD, fOp_encA, BitVec.reduceToNat, Nat.reduceDiv]
  simp only [noD_encA, pgOf_encA, fSa_encA, fMod_encA, badMod_encA, hm, hn, srcAt_srcCode ha hk]
  exact a1_read ha hk

/-! ## Services, invalidations and privileged words -/

theorem fwcall_readsBack {o : A1} {svc : BitVec 8} (hwf : WellFormed (.fwcall o svc) = true) : ReadsBack (.fwcall o svc) := by
  intro w hw
  cases hw
  obtain ⟨hd, ha⟩ := Bool.and_eq_true_iff.mp hwf
  have ho : o.wf 2 2 = true := Bool.and_eq_true_iff.mpr ⟨Dst.late_fits hd, ha⟩
  obtain ⟨hm, hn, -⟩ := mod_8 svc
  rw [tableRest_encA rfl]
  simp only [decodeWord, decodeMapD, fOp_encA, BitVec.reduceToNat, Nat.reduceDiv]
  simp only [fMod_encA, badMod_encA, a1Of_encA ho Nat.two_pos Nat.two_pos, badLate_encA _ _ _ _ _ _ hd Nat.two_pos, hm, hn]
  exact a1_read ha Nat.two_pos

theorem moncall_readsBack {o : A2} {svc : BitVec 8} (hwf : WellFormed (.moncall o svc) = true) : ReadsBack (.moncall o svc) := by
  intro w hw
  cases hw
  simp only [WellFormed, Bool.and_eq_true] at hwf
  obtain ⟨⟨⟨hd, ha⟩, hb⟩, hlit⟩ := hwf
  have ho : o.wf 2 2 2 = true := A2.wf_iff.mpr ⟨Dst.late_fits hd, ha, hb, hlit⟩
  obtain ⟨hm, hn, -⟩ := mod_8 svc
  rw [tableRest_encA rfl]
  simp only [decodeWord, decodeMapD, fOp_encA, BitVec.reduceToNat, Nat.reduceDiv]
  simp only [fMod_encA, badMod_encA, a2Of_encA ho Nat.two_pos Nat.two_pos Nat.two_pos, badLate_encA _ _ _ _ _ _ hd Nat.two_pos, hm, hn]
  exact a2_read ⟨ha, hb, hlit⟩ Nat.two_pos Nat.two_pos

theorem icinv_readsBack {pg : Guard} {r : Option (Src × Src)} (hwf : WellFormed (.icinv pg r) = true) : ReadsBack (.icinv pg r) := by
  intro w hw
  cases r with
  | none =>
    cases hw
    rw [tableRest_encA rfl]
    simp only [decodeWord, decodeMapD, fOp_encA, BitVec.reduceToNat, Nat.reduceDiv]
    simp only [noD_encA, pgOf_encA, fMod_encA, badMod_encA, Option.isNone_none]
    exact a0_read
  | some r =>
    obtain ⟨a, n⟩ := r
    cases hw
    simp only [WellFormed, Bool.and_eq_true] at hwf
    obtain ⟨⟨ha, hn⟩, hlit⟩ := hwf
    obtain ⟨hm, h0⟩ := mod_ite false
    rw [tableRest_encA rfl]
    simp only [decodeWord, decodeMapD, fOp_encA, BitVec.reduceToNat, Nat.reduceDiv]
    simp only [noD_encA, pgOf_encA, fSa_encA, fSb_encA, fMod_encA, badMod_encA, Option.isNone_some, Option.elim_some, hm, h0, srcAt_srcCode ha Nat.two_pos, srcAt_srcCode hn Nat.one_pos]
    exact a2_read ⟨ha, hn, hlit⟩ Nat.two_pos Nat.one_pos

/-- The second operand of TLBINV: none, or one that is not the zero register. -/
theorem tlbB_code {b : Option Src} {a : Src} (h : (match b with | none => true | some b => b.wf 1 && b.op != .zero && oneLit [a, b]) = true) :
    (codeOf b == unusedSrc) = b.isNone ∧ FitsAt (if b.isNone = true then 0 else 1) b ∧ (if b.isNone = true then none else some (srcAt (codeOf b))) = b ∧
      oneLit ([a] ++ b.toList) = true := by
  cases b with
  | none => exact ⟨rfl, rfl, rfl, oneLit_one a⟩
  | some b =>
    obtain ⟨hbz, hlit⟩ := Bool.and_eq_true_iff.mp h
    obtain ⟨hb, hz⟩ := Bool.and_eq_true_iff.mp hbz
    exact ⟨srcCode_used hb Nat.one_pos hz, ⟨Nat.one_pos, hb⟩, congrArg some (srcAt_srcCode hb Nat.one_pos), hlit⟩

/-- The first operand of TLBINV: a pair where it names a page, unused elsewhere. -/
theorem tlbA_code {form : TlbForm} {a : Src} (h : (if form == .page then a.wf 2 else a == ⟨.zero, false, false⟩) = true) :
    srcAt (srcCode a) = a ∧ ∃ x : Option Src, srcCode a = codeOf x ∧ FitsAt (if form == .page then 2 else 0) x ∧ (x = some a ∨ x = none) := by
  by_cases hp : (form == .page) = true
  · rw [if_pos hp] at h
    rw [if_pos hp]
    exact ⟨srcAt_srcCode h Nat.two_pos, some a, rfl, ⟨Nat.two_pos, h⟩, .inl rfl⟩
  · rw [if_neg hp] at h
    rw [if_neg hp]
    obtain rfl := beq_iff_eq.mp h
    exact ⟨rfl, none, rfl, rfl, .inr rfl⟩

theorem tlbinv_readsBack {pg : Guard} {form : TlbForm} {a : Src} {b : Option Src} (hwf : WellFormed (.tlbinv pg form a b) = true) : ReadsBack (.tlbinv pg form a b) := by
  intro w hw
  cases hw
  obtain ⟨ha, hb⟩ := Bool.and_eq_true_iff.mp hwf
  obtain ⟨hun, hfit, hsome, hlit⟩ := tlbB_code (a := a) hb
  obtain ⟨hat, x, hx, hxfit, hxa⟩ := tlbA_code ha
  obtain ⟨hm, hform⟩ := mod_tlbinv form
  have hlit' : oneLit (x.toList ++ b.toList ++ (none : Option Src).toList) = true := by
    rw [Option.toList_none, List.append_nil]
    rcases hxa with rfl | rfl
    · exact hlit
    · cases b with
      | none => rfl
      | some b => exact oneLit_one b
  rw [tableRest_encA rfl]
  simp only [decodeWord, decodeMapD, fOp_encA, BitVec.reduceToNat, Nat.reduceDiv]
  rw [show b.elim unusedSrc srcCode = codeOf b from rfl]
  simp only [noD_encA, pgOf_encA, fSa_encA, fSb_encA, fMod_encA, badMod_encA, hm, hform, Option.isNone_some, Option.getD_some, Bool.or_self, hat, hun, hsome]
  rw [hx]
  exact aWord_read (c := none) hxfit hfit rfl hlit' rfl rfl

theorem fcxl_readsBack {pg : Guard} {a b : Src} (hwf : WellFormed (.fcxl pg a b) = true) : ReadsBack (.fcxl pg a b) := by
  intro w hw
  cases hw
  simp only [WellFormed, Bool.and_eq_true] at hwf
  obtain ⟨⟨ha, hb⟩, hlit⟩ := hwf
  rw [tableRest_encA rfl]
  simp only [decodeWord, decodeMapD, fOp_encA, BitVec.reduceToNat, Nat.reduceDiv]
  simp only [noD_encA, pgOf_encA, fSa_encA, fSb_encA, badMod_encA, mod_none, srcAt_srcCode ha Nat.one_pos, srcAt_srcCode hb Nat.two_pos]
  exact a2_read ⟨ha, hb, hlit⟩ Nat.one_pos Nat.two_pos

theorem finj_readsBack {pg : Guard} {a : Src} (hwf : WellFormed (.finj pg a) = true) : ReadsBack (.finj pg a) := by
  intro w hw
  cases hw
  have ha : a.wf 2 = true := hwf
  rw [tableRest_encA rfl]
  simp only [decodeWord, decodeMapD, fOp_encA, BitVec.reduceToNat, Nat.reduceDiv]
  simp only [noD_encA, pgOf_encA, fSa_encA, badMod_encA, mod_none, srcAt_srcCode ha Nat.two_pos]
  exact a1_read ha Nat.two_pos

theorem halt_readsBack (pg : Guard) : ReadsBack (.halt pg) := by
  intro w hw
  cases hw
  rw [tableRest_encA rfl]
  simp only [decodeWord, decodeMapD, fOp_encA, BitVec.reduceToNat, Nat.reduceDiv]
  simp only [noD_encA, pgOf_encA, badMod_encA, mod_none]
  exact a0_read

theorem cctl_readsBack {pg : Guard} {d : Option Dst} {a b : Src} (hwf : WellFormed (.cctl pg d a b) = true) : ReadsBack (.cctl pg d a b) := by
  intro w hw
  obtain ⟨hdab, hlit⟩ := Bool.and_eq_true_iff.mp hwf
  obtain ⟨hda, hb⟩ := Bool.and_eq_true_iff.mp hdab
  obtain ⟨hd, ha⟩ := Bool.and_eq_true_iff.mp hda
  cases d with
  | none =>
    cases hw
    rw [tableRest_encA rfl]
    simp only [decodeWord, decodeMapD, fOp_encA, BitVec.reduceToNat, Nat.reduceDiv]
    simp only [noD_encA, pgOf_encA, fSa_encA, fSb_encA, fMod_encA, badMod_encA, Option.isNone_none, srcAt_srcCode ha Nat.one_pos, srcAt_srcCode hb Nat.one_pos]
    exact a2_read ⟨ha, hb, hlit⟩ Nat.one_pos Nat.one_pos
  | some d =>
    cases hw
    obtain ⟨hm, h0⟩ := mod_ite false
    rw [tableRest_encA rfl]
    simp only [decodeWord, decodeMapD, fOp_encA, BitVec.reduceToNat, Nat.reduceDiv]
    simp only [pgOf_encA, fD_encA, fSa_encA, fSb_encA, fMod_encA, badMod_encA, Option.isNone_some, Option.elim_some, hm, h0, dstAt_dstCode (Dst.vog_fits hd) Nat.two_pos,
      badVog_encA _ _ _ _ _ _ hd Nat.two_pos, srcAt_srcCode ha Nat.one_pos, srcAt_srcCode hb Nat.one_pos]
    exact a2_read ⟨ha, hb, hlit⟩ Nat.one_pos Nat.one_pos

/-! ## Pair words (R272, R273) -/

theorem sopOf_sopCode (x : Sop) : sopOf (sopCode x) = some x := by cases x <;> rfl

theorem sop_halfCode (h : Half) : (halfCode h).extractLsb' 24 6 = sopCode h.sop := by
  unfold halfCode
  iterate 3 rw [extractLsb'_append_eq_of_le (by decide)]
  exact extractLsb'_eq_self

theorem halfOf_halfCode (h : Half) : halfOf (halfCode h) = h := by
  have hd : (halfCode h).extractLsb' 16 8 = h.d := by
    unfold halfCode
    iterate 2 rw [extractLsb'_append_eq_of_le (by decide)]
    exact extractLsb'_append_eq_right
  have ha : (halfCode h).extractLsb' 8 8 = h.a := by
    unfold halfCode
    rw [extractLsb'_append_eq_of_le (by decide)]
    exact extractLsb'_append_eq_right
  have hb : (halfCode h).extractLsb' 0 8 = h.b := by
    unfold halfCode
    exact extractLsb'_append_eq_right
  unfold halfOf
  rw [sop_halfCode, sopOf_sopCode, hd, ha, hb]
  rfl

theorem sopBad_halfCode (h : Half) : sopBad (halfCode h) = false := by
  unfold sopBad
  rw [sop_halfCode, sopOf_sopCode]
  rfl

theorem halfReads_halfCode (h : Half) : halfReads (halfCode h) = h.reads := by
  unfold halfReads
  rw [sopBad_halfCode, halfOf_halfCode]
  rfl

section
variable (h0 h1 : Half)

/-- A pair word. -/
def encPair : Word := 0xF#4 ++ halfCode h0 ++ halfCode h1

theorem half0_encPair : (encPair h0 h1).extractLsb' 30 30 = halfCode h0 := by
  unfold encPair
  rw [extractLsb'_append_eq_of_le (by decide)]
  exact extractLsb'_append_eq_right

theorem half1_encPair : (encPair h0 h1).extractLsb' 0 30 = halfCode h1 := by
  unfold encPair
  exact extractLsb'_append_eq_right

theorem top_encPair : (encPair h0 h1).extractLsb' 60 4 = 0xF := by
  unfold encPair
  iterate 2 rw [extractLsb'_append_eq_of_le (by decide)]
  exact extractLsb'_eq_self

theorem fOp_encPair : fOp (encPair h0 h1) / 16 = 0xF := by
  have h := congrArg BitVec.toNat (top_encPair h0 h1)
  rw [extractLsb'_toNat, Nat.shiftRight_eq_div_pow] at h
  have hlt := (encPair h0 h1).isLt
  rw [fOp_eq, extractLsb'_toNat, Nat.shiftRight_eq_div_pow]
  have h15 : (0xF : BitVec 4).toNat = 15 := rfl
  omega

end

theorem pairWord_readsBack {h0 h1 : Half} (hwf : WellFormed (.pairWord h0 h1) = true) : ReadsBack (.pairWord h0 h1) := by
  intro w hw
  obtain rfl : encPair h0 h1 = w := Option.some.inj hw
  simp only [WellFormed, Bool.and_eq_true] at hwf
  obtain ⟨⟨h0w, h1w⟩, hp⟩ := hwf
  have hbroken : pairBad (h0.sop.mult && h1.sop.mult) h0.d.toNat h1.d.toNat h0.reads h1.reads = false := (Bool.not_eq_true' _).mp hp
  simp only [decodeWord, fOp_encPair, decodePair, half0_encPair, half1_encPair, sopBad_halfCode, halfOf_halfCode, halfReads_halfCode, Bool.or_self, Bool.not_false, Bool.true_and,
    h0w, h1w, Bool.not_true, hbroken]
  rfl

/-! ## Reserved words (R275, R279) -/

section
variable {w : Word} {rest : List Word}

theorem decodeMap2_reserved (h : 0x2C ≤ fOp w) : decodeMap2 w rest = .ok (.reservedOpcodeWord w false) := by
  unfold decodeMap2
  split
  case h_13 => rfl
  all_goals omega

theorem decodeMap5_reserved (h : 0x54 ≤ fOp w) : decodeMap5 w rest = .ok (.reservedOpcodeWord w false) := by
  unfold decodeMap5
  split
  case h_5 => rfl
  all_goals omega

theorem decodeMap6_reserved (h : 0x6B ≤ fOp w) : decodeMap6 w rest = .ok (.reservedOpcodeWord w false) := by
  unfold decodeMap6
  split
  case h_12 => rfl
  all_goals omega

theorem decodeMap7_reserved (h : 0x7B ≤ fOp w) : decodeMap7 w rest = .ok (.reservedOpcodeWord w false) := by
  unfold decodeMap7
  split
  case h_12 => rfl
  all_goals omega

theorem decodeMap9_reserved (h : 0x96 ≤ fOp w) : decodeMap9 w rest = .ok (.reservedOpcodeWord w false) := by
  unfold decodeMap9
  split
  case h_7 => rfl
  all_goals omega

theorem decodeMapA_reserved (h : 0xAA ≤ fOp w) : decodeMapA w rest = .ok (.reservedOpcodeWord w false) := by
  unfold decodeMapA
  split
  case h_11 => rfl
  all_goals omega

theorem decodeMapB_reserved (h : fOp w = 0xBF) : decodeMapB w rest = .ok (.reservedOpcodeWord w false) := by
  unfold decodeMapB
  split
  case h_16 => rfl
  all_goals omega

theorem decodeMapC_reserved (h : 0xCC ≤ fOp w) : decodeMapC w rest = .ok (.reservedOpcodeWord w false) := by
  unfold decodeMapC
  split
  case h_13 => rfl
  all_goals omega

theorem decodeMapD_reserved (h : 0xDB ≤ fOp w) : decodeMapD w rest = .ok (.reservedOpcodeWord w false) := by
  unfold decodeMapD
  split
  case h_12 => rfl
  all_goals omega

/-- The opcodes that the map leaves free are read as reserved words. -/
theorem decodeWord_reserved (h : reservedOp (fOp w) = true) : decodeWord w rest = .ok (.reservedOpcodeWord w false) := by
  simp only [reservedOp, Bool.or_eq_true, Bool.and_eq_true, decide_eq_true_eq, beq_iff_eq] at h
  unfold decodeWord
  rcases h with (((((((h | h) | h) | h) | h) | h) | h) | h) | h
  · rw [show fOp w / 16 = 0x2 by omega]
    exact decodeMap2_reserved h.1
  · rw [show fOp w / 16 = 0x5 by omega]
    exact decodeMap5_reserved h.1
  · rw [show fOp w / 16 = 0x6 by omega]
    exact decodeMap6_reserved h.1
  · rw [show fOp w / 16 = 0x7 by omega]
    exact decodeMap7_reserved h.1
  · rw [show fOp w / 16 = 0x9 by omega]
    exact decodeMap9_reserved h.1
  · rw [show fOp w / 16 = 0xA by omega]
    exact decodeMapA_reserved h.1
  · rw [show fOp w / 16 = 0xB by omega]
    exact decodeMapB_reserved h
  · rw [show fOp w / 16 = 0xC by omega]
    exact decodeMapC_reserved h.1
  · by_cases hd : fOp w ≤ 0xDF
    · rw [show fOp w / 16 = 0xD by omega]
      exact decodeMapD_reserved h.1
    · rw [show fOp w / 16 = 0xE by omega]
      rfl

end

theorem reservedOpcodeWord_readsBack {b : Word} (hwf : WellFormed (.reservedOpcodeWord b false) = true) : ReadsBack (.reservedOpcodeWord b false) := by
  intro w hw
  cases hw
  refine decodeWord_reserved ?_
  rw [fOp_eq]
  exact hwf

theorem f2Illegal_iff : ∀ n < 256, f2Illegal n = reservedF2 n := by decide +kernel

/-- A reserved Flilith-2 word is read back by the Flilith-2 decoder. -/
theorem decodeLegacy_reserved {cls : Nat} {b : Word} {rest : List Word} (hwf : WellFormed (.reservedOpcodeWord b true) = true) :
    decodeLegacy cls b rest = .ok (.reservedOpcodeWord b true) := by
  have h : reservedF2 (b.extractLsb' 51 8).toNat = true := hwf
  unfold decodeLegacy
  rw [f2Op, f2Illegal_iff _ (b.extractLsb' 51 8).isLt, h]
  rfl

/-- Every well-formed instruction that has a word is read back from it, but for a reserved Flilith-2 word. -/
theorem wellFormed_readsBack {i : Instr} (hwf : WellFormed i = true) (hl : ∀ b, i ≠ .reservedOpcodeWord b true) : ReadsBack i := by
  cases i
  case iadd | isub | iaddc | isubb | ineg | iabs | imul | imulhi | imad | imin | imax | icmp | and | or | xor | not | andn | bool3 | shl | shr | shra | rotl | funnel | bfe | bfi | popc | clz
      | ctz | brev | bpick | lea | sel | vadd2 | vsub2 | vmin2 | vmax2 | acsel2 | dot4 | dot2 | cvti | pbool3 | ptov | vtop => exact integer_readsBack rfl hwf
  case fadd | fsub | fmul | ffma | fmin | fmax | fminp | fmaxp | fcmp | fclass | fcopysgn | frnd | hadd2 | hmul2 | hfma2 | hmin2 | hmax2 | hdot2 | fcvt | f2i | i2f | cvtq | cvtdq =>
    exact float_readsBack rfl hwf
  case idiv | irem | fdiv | fsqrt | frcp | frsq | fexp2 | flog2 | fsinpi | fcospi | ftanh | dadd | dmul | dfma => exact late_readsBack rfl hwf
  case lanex | bcastl | pcensus | matchL | redls | redidx | scan | actmask => exact cross_readsBack rfl hwf
  case nop | bra | brx | call | callx | ret | retn | sleep => exact control_readsBack rfl hwf
  case amax => exact amax_readsBack hwf
  case mov => exact mov_readsBack hwf
  case tmov => exact tmov_readsBack hwf
  case exit => exact exit_readsBack _
  case eret => exact eret_readsBack _
  case yield => exact yield_readsBack _
  case bkpt => exact bkpt_readsBack _
  case trap => exact trap_readsBack _ _
  case dpfx => exact dpfx_readsBack _
  case ld => exact ld_readsBack hwf
  case st => exact st_readsBack hwf
  case lds => exact lds_readsBack hwf
  case sts => exact sts_readsBack hwf
  case ldcl => exact ldcl_readsBack hwf
  case stcl => exact stcl_readsBack hwf
  case ldbd => exact ldbd_readsBack hwf
  case stbd => exact stbd_readsBack hwf
  case pref => exact pref_readsBack hwf
  case cinval => exact cinval_readsBack hwf
  case fence => exact fence_readsBack hwf
  case atom => exact atom_readsBack hwf
  case atoms => exact atoms_readsBack hwf
  case atomcas => exact atomcas_readsBack hwf
  case red => exact red_readsBack hwf
  case smap => exact smap_readsBack hwf
  case sunmap => exact sunmap_readsBack hwf
  case swb => exact swb_readsBack hwf
  case bar => exact bar_readsBack _
  case gbar => exact gbar_readsBack _
  case ckpt => exact ckpt_readsBack _
  case barp => exact barp_readsBack hwf
  case copy => exact copy_readsBack hwf
  case copym => exact copym_readsBack hwf
  case gather => exact gather_readsBack hwf
  case scatter => exact scatter_readsBack hwf
  case remq => exact remq_readsBack hwf
  case rqpop => exact rqpop_readsBack hwf
  case xred => exact xred_readsBack hwf
  case strm => exact strm_readsBack hwf
  case strmx => exact strmx_readsBack _ _
  case tchk => exact tchk_readsBack hwf
  case tcfg => exact tcfg_readsBack hwf
  case oclaim => exact oclaim_readsBack hwf
  case orel => exact orel_readsBack hwf
  case mma => exact mma_readsBack (.inl rfl) hwf
  case mmaz => exact mma_readsBack (.inr (.inl rfl)) hwf
  case mperm => exact mma_readsBack (.inr (.inr rfl)) hwf
  case mxt => exact mxt_readsBack (.inl rfl) hwf
  case mrred => exact mxt_readsBack (.inr rfl) hwf
  case accld => exact accld_readsBack hwf
  case accst => exact accst_readsBack hwf
  case accz => exact accz_readsBack hwf
  case mtake => exact reed_readsBack (.inl rfl)
  case mpass => exact reed_readsBack (.inr (.inl rfl))
  case mdrop => exact reed_readsBack (.inr (.inr rfl))
  case mstat => exact mstat_readsBack hwf
  case spawn => exact spawn_readsBack hwf
  case spawnw => exact spawnw_readsBack hwf
  case spawnr => exact spawnr_readsBack hwf
  case tget => exact tget_readsBack hwf
  case launch => exact launch_readsBack hwf
  case bwupd => exact bwupd_readsBack hwf
  case bwrd => exact bwrd_readsBack hwf
  case cwait => exact cwait_readsBack hwf
  case cnotify => exact cnotify_readsBack hwf
  case cheld => exact cheld_readsBack hwf
  case getsr => exact getsr_readsBack hwf
  case setsr => exact setsr_readsBack hwf
  case fwcall => exact fwcall_readsBack hwf
  case moncall => exact moncall_readsBack hwf
  case icinv => exact icinv_readsBack hwf
  case tlbinv => exact tlbinv_readsBack hwf
  case fcxl => exact fcxl_readsBack hwf
  case finj => exact finj_readsBack hwf
  case halt => exact halt_readsBack _
  case cctl => exact cctl_readsBack hwf
  case pairWord => exact pairWord_readsBack hwf
  case reservedOpcodeWord b leg =>
    cases leg with
    | false => exact reservedOpcodeWord_readsBack hwf
    | true => exact absurd rfl (hl b)
  all_goals
    intro w hw
    cases hw

/-- Every instruction but the steps of other agents has a word. -/
theorem encode_isSome_or_isEvent (i : Instr) : ((encode i).isSome || i.isEvent) = true := by
  cases i
  case lanex o mode off w64 => cases off <;> rfl
  all_goals rfl

theorem encode_of_not_event {i : Instr} (h : i.isEvent = false) : ∃ w, encode i = some w := by
  have hs := encode_isSome_or_isEvent i
  rw [h, Bool.or_false] at hs
  exact Option.isSome_iff_exists.mp hs

/-- Settles O4: each family of words is read back from its fields, the reserved opcodes by the free places of the map. -/
theorem encodeDecode : Obligations.EncodeDecode := by
  unfold Obligations.EncodeDecode
  exact ⟨fun i w hwf hw hl => wellFormed_readsBack hwf hl w hw, fun _ hwf => decodeLegacy_reserved hwf, fun _ _ h => encode_of_not_event h⟩

end Sys2Proof
end
section
/-! PROOFS of O5, part 1: what the checks of a word say of its fields. -/

namespace Sys2Proof
-- One declaration after another, as in the Tests: the large proofs run side by side ask for too much memory.
set_option Elab.async false
open BitVec hiding and_assoc and_self or_assoc

/-! ## Fields that a check accepts -/

/-- A word that the decoder may answer: well formed and no step of another agent. -/
def Settled (i : Instr) : Prop := WellFormed i = true ∧ i.isEvent = false

section
variable {k : Nat} {f : BitVec 11} {d : BitVec 9}

theorem dst_of_badDst {ok : Dst → Bool} (h : badDst ok d = false) : ok (dstAt d) = true := by
  unfold badDst at h
  unfold dstAt
  cases hd : dstOf d with
  | none => rw [hd] at h; cases h
  | some x =>
    rw [hd] at h
    exact (Bool.not_eq_false' (b := ok x)).mp h

/-- A field that a check has read as a source. -/
theorem srcOf_of_badSrc (h : badSrc k f = false) : ∃ s, srcOf f = some s ∧ s.wf k = true := by
  unfold badSrc at h
  cases hf : srcOf f with
  | none => rw [hf] at h; cases h
  | some s =>
    rw [hf] at h
    exact ⟨s, rfl, (Bool.not_eq_false' (b := s.wf k)).mp h⟩

theorem srcAt_of_some {s : Src} (h : srcOf f = some s) : srcAt f = s := by
  unfold srcAt
  rw [h]
  rfl

theorem src_of_badSrc (h : badSrc k f = false) : (srcAt f).wf k = true := by
  obtain ⟨s, hs, hw⟩ := srcOf_of_badSrc h
  rw [srcAt_of_some hs]
  exact hw

theorem base_of_badBase (h : badBase k f = false) : (srcAt f).base k = true := by
  unfold badBase at h
  cases hf : srcOf f with
  | none => rw [hf] at h; cases h
  | some s =>
    rw [hf] at h
    rw [srcAt_of_some hf]
    exact (Bool.not_eq_false' (b := s.base k)).mp h

theorem isLit_of_opdOf : ∀ n : BitVec 9, ((opdOf n).elim true fun op => (n == 0x1FF) == op.isLit) = true := by decide +kernel

theorem isLitField_of_some {s : Src} (h : srcOf f = some s) : isLitField f = s.op.isLit := by
  unfold srcOf at h
  obtain ⟨op, hop, rfl⟩ := Option.map_eq_some_iff.mp h
  have hn := isLit_of_opdOf (f.extractLsb' 2 9)
  rw [hop] at hn
  exact beq_iff_eq.mp hn

/-- Sources of which one field at most names the literal do so once at most (R269). -/
theorem oneLit_of_fields {fs gs : List (BitVec 11)} (h : (fs.filter isLitField).length ≤ 1) (hsub : gs.Sublist fs) (hg : ∀ g ∈ gs, ∃ s, srcOf g = some s) :
    oneLit (gs.map srcAt) = true := by
  have hlen : ∀ l : List (BitVec 11), (∀ g ∈ l, ∃ s, srcOf g = some s) → ((l.map srcAt).filter fun s => s.op.isLit).length = (l.filter isLitField).length := by
    intro l hl
    rw [List.filter_map, List.length_map]
    refine congrArg List.length (List.filter_congr fun g hgm => ?_)
    obtain ⟨s, hs⟩ := hl g hgm
    rw [isLitField_of_some hs]
    exact congrArg (fun x : Src => x.op.isLit) (srcAt_of_some hs)
  unfold oneLit
  rw [hlen gs hg]
  exact decide_eq_true (Nat.le_trans (hsub.filter _).length_le h)

end

/-! ## Words of format A -/

section
variable {w : Word} {rest : List Word} {bd bm : Bool} {ka kb kc kd : Nat} {i j : Instr}

/-- A word of format A that is read: its destination, its modifiers and its sources are accepted, and one field at most names the literal. -/
theorem aChk_ok (h : chk (aChk w rest bd ka kb kc bm) i = .ok j) : i = j ∧ bd = false ∧ bm = false ∧
    (if ka == 0 then fSa w != unusedSrc else badSrc ka (fSa w)) = false ∧ (if kb == 0 then fSb w != unusedSrc else badSrc kb (fSb w)) = false ∧
    (if kc == 0 then fSc w != unusedSrc else badSrc kc (fSc w)) = false ∧ ([fSa w, fSb w, fSc w].filter isLitField).length ≤ 1 := by
  obtain ⟨hi, hc⟩ := chk_ok_iff.mp h
  obtain ⟨hlit, hall⟩ := List.forall_mem_append.mp hc
  have hd := hall _ (List.mem_singleton.mpr rfl)
  simp only [Bool.or_eq_false_iff, badSrcs] at hd
  obtain ⟨⟨hbd, ⟨ha, hb⟩, hcc⟩, hbm⟩ := hd
  exact ⟨hi, hbd, hbm, ha, hb, hcc, (litChk_clear_iff.mp hlit).1⟩

/-- More causes after those of format A. -/
theorem chk_append_ok {l m : List (Bool × Nat)} (h : chk (l ++ m) i = .ok j) : chk l i = .ok j ∧ ∀ c ∈ m, c.1 = false := by
  obtain ⟨hi, hc⟩ := chk_ok_iff.mp h
  obtain ⟨hl, hm⟩ := List.forall_mem_append.mp hc
  exact ⟨chk_ok_iff.mpr ⟨hi, hl⟩, hm⟩

theorem src_of_one {k : Nat} {f : BitVec 11} (hk : 0 < k) (h : (if k == 0 then f != unusedSrc else badSrc k f) = false) : badSrc k f = false := by
  rwa [if_neg (by rw [beq_iff_eq]; omega)] at h

theorem read_of_bad {k : Nat} {f : BitVec 11} (h : badSrc k f = false) : ∃ s, srcOf f = some s := by
  obtain ⟨s, hs, -⟩ := srcOf_of_badSrc h
  exact ⟨s, hs⟩

theorem a0_ok (h : chk (aChk w rest bd 0 kb kc bm) i = .ok j) : i = j ∧ bd = false ∧ bm = false := by
  obtain ⟨hi, hd, hm, -⟩ := aChk_ok h
  exact ⟨hi, hd, hm⟩

theorem s1_ok (h : chk (aChk w rest bd ka kb kc bm) i = .ok j) (ha : 0 < ka) : i = j ∧ bd = false ∧ bm = false ∧ (srcAt (fSa w)).wf ka = true := by
  obtain ⟨hi, hd, hm, hsa, -⟩ := aChk_ok h
  exact ⟨hi, hd, hm, src_of_badSrc (src_of_one ha hsa)⟩

theorem s2_ok (h : chk (aChk w rest bd ka kb kc bm) i = .ok j) (ha : 0 < ka) (hb : 0 < kb) : i = j ∧ bd = false ∧ bm = false ∧
    (srcAt (fSa w)).wf ka = true ∧ (srcAt (fSb w)).wf kb = true ∧ oneLit [srcAt (fSa w), srcAt (fSb w)] = true := by
  obtain ⟨hi, hd, hm, hsa, hsb, -, hlit⟩ := aChk_ok h
  have hsa := src_of_one ha hsa
  have hsb := src_of_one hb hsb
  refine ⟨hi, hd, hm, src_of_badSrc hsa, src_of_badSrc hsb, oneLit_of_fields (gs := [fSa w, fSb w]) hlit (by simp) ?_⟩
  simp [read_of_bad hsa, read_of_bad hsb]

theorem s13_ok (h : chk (aChk w rest bd ka kb kc bm) i = .ok j) (ha : 0 < ka) (hc : 0 < kc) : i = j ∧ bd = false ∧ bm = false ∧
    (srcAt (fSa w)).wf ka = true ∧ (srcAt (fSc w)).wf kc = true ∧ oneLit [srcAt (fSa w), srcAt (fSc w)] = true := by
  obtain ⟨hi, hd, hm, hsa, -, hsc, hlit⟩ := aChk_ok h
  have hsa := src_of_one ha hsa
  have hsc := src_of_one hc hsc
  refine ⟨hi, hd, hm, src_of_badSrc hsa, src_of_badSrc hsc, oneLit_of_fields (gs := [fSa w, fSc w]) hlit (by simp) ?_⟩
  simp [read_of_bad hsa, read_of_bad hsc]

theorem s3_ok (h : chk (aChk w rest bd ka kb kc bm) i = .ok j) (ha : 0 < ka) (hb : 0 < kb) (hc : 0 < kc) : i = j ∧ bd = false ∧ bm = false ∧
    (srcAt (fSa w)).wf ka = true ∧ (srcAt (fSb w)).wf kb = true ∧ (srcAt (fSc w)).wf kc = true ∧ oneLit [srcAt (fSa w), srcAt (fSb w), srcAt (fSc w)] = true := by
  obtain ⟨hi, hd, hm, hsa, hsb, hsc, hlit⟩ := aChk_ok h
  have hsa := src_of_one ha hsa
  have hsb := src_of_one hb hsb
  have hsc := src_of_one hc hsc
  refine ⟨hi, hd, hm, src_of_badSrc hsa, src_of_badSrc hsb, src_of_badSrc hsc, oneLit_of_fields (gs := [fSa w, fSb w, fSc w]) hlit (List.Sublist.refl _) ?_⟩
  simp [read_of_bad hsa, read_of_bad hsb, read_of_bad hsc]

/-! The operand records of the words: a destination with one, two or three sources, and a predicate with two. -/

theorem a1_ok (h : chk (aChk w rest (badD w kd) ka kb kc bm) i = .ok j) (ha : 0 < ka) : i = j ∧ bm = false ∧ (a1Of w).wf kd ka = true := by
  obtain ⟨hi, hd, hm, hsa⟩ := s1_ok h ha
  exact ⟨hi, hm, Bool.and_eq_true_iff.mpr ⟨dst_of_badDst hd, hsa⟩⟩

theorem a2_ok (h : chk (aChk w rest (badD w kd) ka kb kc bm) i = .ok j) (ha : 0 < ka) (hb : 0 < kb) : i = j ∧ bm = false ∧ (a2Of w).wf kd ka kb = true := by
  obtain ⟨hi, hd, hm, hs⟩ := s2_ok h ha hb
  exact ⟨hi, hm, A2.wf_iff.mpr ⟨dst_of_badDst hd, hs⟩⟩

theorem a3_ok (h : chk (aChk w rest (badD w kd) ka kb kc bm) i = .ok j) (ha : 0 < ka) (hb : 0 < kb) (hc : 0 < kc) :
    i = j ∧ bm = false ∧ (a3Of w).wf kd ka kb kc = true := by
  obtain ⟨hi, hd, hm, hs⟩ := s3_ok h ha hb hc
  exact ⟨hi, hm, A3.wf_iff.mpr ⟨dst_of_badDst hd, hs⟩⟩

theorem p2_ok (h : chk (aChk w rest bd ka kb kc bm) i = .ok j) (ha : 0 < ka) (hb : 0 < kb) : i = j ∧ bm = false ∧ (p2Of w).wf ka kb = true := by
  obtain ⟨hi, -, hm, hs⟩ := s2_ok h ha hb
  exact ⟨hi, hm, P2.wf_iff.mpr hs⟩

/-- A destination that waits for a late result fits its registers. -/
theorem late_ok (h : badLate w kd = false) : (dstAt (fD w)).late kd = true ∧ (dstAt (fD w)).fits kd = true := by
  have hl : (dstAt (fD w)).late kd = true := dst_of_badDst h
  exact ⟨hl, Dst.late_fits hl⟩

theorem a1Late_ok (h : chk (aChk w rest (badLate w kd) ka kb kc bm) i = .ok j) (ha : 0 < ka) :
    i = j ∧ bm = false ∧ (a1Of w).wf kd ka = true ∧ (a1Of w).d.late kd = true := by
  obtain ⟨hi, hd, hm, hsa⟩ := s1_ok h ha
  exact ⟨hi, hm, Bool.and_eq_true_iff.mpr ⟨(late_ok hd).2, hsa⟩, (late_ok hd).1⟩

theorem a2Late_ok (h : chk (aChk w rest (badLate w kd) ka kb kc bm) i = .ok j) (ha : 0 < ka) (hb : 0 < kb) :
    i = j ∧ bm = false ∧ (a2Of w).wf kd ka kb = true ∧ (a2Of w).d.late kd = true := by
  obtain ⟨hi, hd, hm, hs⟩ := s2_ok h ha hb
  exact ⟨hi, hm, A2.wf_iff.mpr ⟨(late_ok hd).2, hs⟩, (late_ok hd).1⟩

theorem a3Late_ok (h : chk (aChk w rest (badLate w kd) ka kb kc bm) i = .ok j) (ha : 0 < ka) (hb : 0 < kb) (hc : 0 < kc) :
    i = j ∧ bm = false ∧ (a3Of w).wf kd ka kb kc = true ∧ (a3Of w).d.late kd = true := by
  obtain ⟨hi, hd, hm, hs⟩ := s3_ok h ha hb hc
  exact ⟨hi, hm, A3.wf_iff.mpr ⟨(late_ok hd).2, hs⟩, (late_ok hd).1⟩

end

/-- A floating-point mod field that the word accepts (R308). -/
theorem fmod_of_badFMod {ok : FMod → Bool} {m : BitVec 10} (h : badFMod ok m = false) : ok (fmodAt m) = true := by
  unfold badFMod at h
  unfold fmodAt
  cases hm : fmodOf m with
  | none => rw [hm] at h; cases h
  | some x =>
    rw [hm] at h
    exact (Bool.not_eq_false' (b := ok x)).mp h

/-! ## Opcodes that the map leaves free (R275) -/

theorem reservedOp_iff {n : Nat} : reservedOp n = true ↔ (0x2C ≤ n ∧ n ≤ 0x2F) ∨ (0x54 ≤ n ∧ n ≤ 0x5F) ∨ (0x6B ≤ n ∧ n ≤ 0x6F) ∨ (0x7B ≤ n ∧ n ≤ 0x7F) ∨
    (0x96 ≤ n ∧ n ≤ 0x9F) ∨ (0xAA ≤ n ∧ n ≤ 0xAF) ∨ n = 0xBF ∨ (0xCC ≤ n ∧ n ≤ 0xCF) ∨ (0xDB ≤ n ∧ n ≤ 0xEF) := by
  simp only [reservedOp, Bool.or_eq_true, Bool.and_eq_true, decide_eq_true_eq, beq_iff_eq, or_assoc]

theorem reserved_settled {w : Word} {i : Instr} (h : Except.ok (ε := Nat) (Instr.reservedOpcodeWord w false) = .ok i) (hr : reservedOp (fOp w) = true) : Settled i := by
  cases h
  rw [fOp_eq] at hr
  exact ⟨hr, rfl⟩

end Sys2Proof
end
section
/-! PROOFS of O5, part 2: what the first seven parts of the opcode map answer is well formed. -/

namespace Sys2Proof
-- One declaration after another, as in the Tests: the large proofs run side by side ask for too much memory.
set_option Elab.async false
open BitVec hiding and_assoc and_self or_assoc

section
variable {w : Word} {rest : List Word} {i : Instr}

theorem map0_settled (h : decodeMap0 w rest = .ok i) (hop : fOp w / 16 = 0) : Settled i := by
  unfold decodeMap0 at h
  have hk := k64_pos (m9 w)
  split at h
  case h_1 =>
    obtain ⟨rfl, -⟩ := a0_ok h
    exact ⟨rfl, rfl⟩
  case h_2 | h_7 | h_8 =>
    obtain ⟨rfl, -, ho⟩ := a1_ok h hk
    exact ⟨ho, rfl⟩
  case h_3 | h_4 | h_5 | h_6 | h_9 | h_10 | h_14 | h_15 =>
    obtain ⟨rfl, -, ho⟩ := a2_ok h hk hk
    exact ⟨ho, rfl⟩
  case h_11 =>
    obtain ⟨rfl, -, ho⟩ := a3_ok h hk hk hk
    exact ⟨ho, rfl⟩
  case h_12 | h_13 =>
    obtain ⟨rfl, -, ho⟩ := a2Late_ok h hk hk
    exact ⟨Bool.and_eq_true_iff.mpr ho, rfl⟩
  case h_16 =>
    obtain ⟨rfl, -, ho⟩ := p2_ok h hk hk
    exact ⟨ho, rfl⟩
  case h_17 =>
    refine reserved_settled h (reservedOp_iff.mpr ?_)
    simp only [imp_false] at *
    omega

theorem map1_settled (h : decodeMap1 w rest = .ok i) (hop : fOp w / 16 = 1) : Settled i := by
  unfold decodeMap1 at h
  have hk := k64_pos (m9 w)
  split at h
  case h_1 | h_2 | h_3 | h_5 =>
    obtain ⟨rfl, -, ho⟩ := a2_ok h hk hk
    exact ⟨ho, rfl⟩
  case h_4 | h_14 | h_15 | h_16 =>
    obtain ⟨rfl, -, ho⟩ := a1_ok h hk
    exact ⟨ho, rfl⟩
  case h_6 =>
    obtain ⟨rfl, -, ho⟩ := a3_ok h hk hk hk
    exact ⟨ho, rfl⟩
  case h_7 | h_8 | h_9 | h_10 | h_12 =>
    obtain ⟨rfl, -, ho⟩ := a2_ok h hk Nat.one_pos
    exact ⟨ho, rfl⟩
  case h_11 | h_13 =>
    obtain ⟨rfl, -, ho⟩ := a3_ok h hk hk Nat.one_pos
    exact ⟨ho, rfl⟩
  case h_17 =>
    refine reserved_settled h (reservedOp_iff.mpr ?_)
    simp only [imp_false] at *
    omega

theorem map2_settled (h : decodeMap2 w rest = .ok i) (hop : fOp w / 16 = 2) : Settled i := by
  unfold decodeMap2 at h
  have hk := k64_pos (m9 w)
  split at h
  case h_1 =>
    obtain ⟨rfl, -, ho⟩ := a1_ok h hk
    exact ⟨ho, rfl⟩
  case h_2 | h_10 | h_11 =>
    obtain ⟨rfl, -, ho⟩ := a3_ok h Nat.one_pos Nat.one_pos Nat.one_pos
    exact ⟨ho, rfl⟩
  case h_3 =>
    obtain ⟨rfl, -, ho⟩ := a2_ok h Nat.two_pos Nat.one_pos
    exact ⟨ho, rfl⟩
  case h_4 =>
    obtain ⟨rfl, -, ho⟩ := a2_ok h hk hk
    exact ⟨ho, rfl⟩
  case h_5 | h_6 | h_7 | h_8 =>
    obtain ⟨rfl, -, ho⟩ := a2_ok h Nat.one_pos Nat.one_pos
    exact ⟨ho, rfl⟩
  case h_9 =>
    obtain ⟨rfl, hm, ho⟩ := a3_ok h Nat.one_pos Nat.one_pos Nat.one_pos
    have hn := of_decide_eq_false (Bool.or_eq_false_iff.mp hm).2
    exact ⟨Bool.and_eq_true_iff.mpr ⟨ho, decide_eq_true (Nat.not_lt.mp hn)⟩, rfl⟩
  case h_12 =>
    obtain ⟨rfl, -, ho⟩ := a1_ok h (IWidth.k_pos _)
    exact ⟨ho, rfl⟩
  case h_13 =>
    refine reserved_settled h (reservedOp_iff.mpr ?_)
    simp only [imp_false] at *
    omega

/-- Well-formed operands and modifiers in the order in which WellFormed asks for them. -/
theorem wf_mod {o m x : Bool} (ho : o = true) (h : (m && x) = true) : (o && m && x) = true := by
  rw [ho, Bool.true_and]
  exact h

theorem wf_late_mod {o l m x : Bool} (ho : o = true ∧ l = true) (h : (m && x) = true) : (o && l && m && x) = true := by
  rw [ho.1, ho.2, Bool.true_and, Bool.true_and]
  exact h

theorem map3_settled (h : decodeMap3 w rest = .ok i) (hop : fOp w / 16 = 3) : Settled i := by
  unfold decodeMap3 at h
  split at h
  case h_1 | h_2 | h_3 | h_5 | h_6 | h_7 | h_8 =>
    obtain ⟨rfl, hm, ho⟩ := a2_ok h Nat.one_pos Nat.one_pos
    exact ⟨Bool.and_eq_true_iff.mpr ⟨ho, (Bool.and_eq_true_iff.mp (fmod_of_badFMod hm)).1⟩, rfl⟩
  case h_4 =>
    obtain ⟨rfl, hm, ho⟩ := a3_ok h Nat.one_pos Nat.one_pos Nat.one_pos
    exact ⟨Bool.and_eq_true_iff.mpr ⟨ho, (Bool.and_eq_true_iff.mp (fmod_of_badFMod hm)).1⟩, rfl⟩
  case h_9 =>
    obtain ⟨rfl, hm, ho⟩ := p2_ok h Nat.one_pos Nat.one_pos
    exact ⟨Bool.and_eq_true_iff.mpr ⟨ho, fmod_of_badFMod hm⟩, rfl⟩
  case h_10 =>
    obtain ⟨rfl, -, ho⟩ := a1_ok h Nat.one_pos
    exact ⟨ho, rfl⟩
  case h_11 =>
    obtain ⟨rfl, -, ho⟩ := a2_ok h Nat.one_pos Nat.one_pos
    exact ⟨ho, rfl⟩
  case h_12 =>
    obtain ⟨rfl, hm, ho⟩ := a1_ok h Nat.one_pos
    exact ⟨Bool.and_eq_true_iff.mpr ⟨ho, (Bool.and_eq_true_iff.mp (fmod_of_badFMod hm)).1⟩, rfl⟩
  case h_13 =>
    obtain ⟨rfl, hm, ho⟩ := a2Late_ok h Nat.one_pos Nat.one_pos
    exact ⟨wf_late_mod ho (fmod_of_badFMod hm), rfl⟩
  case h_14 | h_15 | h_16 =>
    obtain ⟨rfl, hm, ho⟩ := a1Late_ok h Nat.one_pos
    exact ⟨wf_late_mod ho (fmod_of_badFMod hm), rfl⟩
  case h_17 =>
    refine reserved_settled h (reservedOp_iff.mpr ?_)
    simp only [imp_false] at *
    omega

theorem map4_settled (h : decodeMap4 w rest = .ok i) (hop : fOp w / 16 = 4) : Settled i := by
  unfold decodeMap4 at h
  split at h
  case h_1 | h_2 | h_3 | h_4 | h_5 =>
    obtain ⟨rfl, hm, ho⟩ := a1Late_ok h Nat.one_pos
    exact ⟨wf_late_mod ho (fmod_of_badFMod hm), rfl⟩
  case h_6 | h_7 | h_9 | h_10 =>
    obtain ⟨rfl, hm, ho⟩ := a2_ok h Nat.one_pos Nat.one_pos
    exact ⟨wf_mod ho (fmod_of_badFMod hm), rfl⟩
  case h_8 | h_11 =>
    obtain ⟨rfl, hm, ho⟩ := a3_ok h Nat.one_pos Nat.one_pos Nat.one_pos
    exact ⟨wf_mod ho (fmod_of_badFMod hm), rfl⟩
  case h_12 | h_13 =>
    obtain ⟨rfl, hm, ho⟩ := a2Late_ok h Nat.two_pos Nat.two_pos
    exact ⟨wf_late_mod ho (fmod_of_badFMod hm), rfl⟩
  case h_14 =>
    obtain ⟨rfl, hm, ho⟩ := a3Late_ok h Nat.two_pos Nat.two_pos Nat.two_pos
    exact ⟨wf_late_mod ho (fmod_of_badFMod hm), rfl⟩
  case h_15 =>
    obtain ⟨rfl, -, ho⟩ := a1_ok h (CFmt.k_pos _)
    exact ⟨ho, rfl⟩
  case h_16 =>
    obtain ⟨rfl, -, ho⟩ := a1_ok h (CFmt.k_pos _)
    exact ⟨ho, rfl⟩
  case h_17 =>
    refine reserved_settled h (reservedOp_iff.mpr ?_)
    simp only [imp_false] at *
    omega

/-- A CVTQ or CVTDQ record operand, which reads as a g register, is one. -/
theorem isG_op {f : BitVec 11} (h : isG f = true) : (match (srcAt f).op with | .g _ => true | _ => false) = true := by
  unfold isG at h
  unfold srcAt
  cases hf : srcOf f with
  | none => rw [hf] at h; cases h
  | some s =>
    rw [hf] at h
    obtain ⟨op, e, l⟩ := s
    cases op with
    | g n => rfl
    | _ => cases h

/-- CVTQ and CVTDQ: a descriptor register, or a pair of g registers. -/
theorem cvtq_wf {desc bm : Bool} {j : Instr} {kc : Nat} (h : chk (aChk w rest (badD w 1) 1 (if desc then 1 else 2) kc (bm || (!desc && !isG (fSb w)))) i = .ok j) :
    i = j ∧ (if desc then (a2Of w).wf 1 1 1 else (a2Of w).wf 1 1 2 && (match (a2Of w).b.op with | .g _ => true | _ => false)) = true := by
  obtain ⟨hi, hm, ho⟩ := a2_ok h Nat.one_pos (s2gK_pos desc)
  refine ⟨hi, ?_⟩
  cases desc with
  | true => exact ho
  | false =>
    have hg : isG (fSb w) = true := (Bool.not_eq_false' (b := isG (fSb w))).mp (Bool.or_eq_false_iff.mp hm).2
    exact Bool.and_eq_true_iff.mpr ⟨ho, isG_op hg⟩

theorem map5_settled (h : decodeMap5 w rest = .ok i) (hop : fOp w / 16 = 5) : Settled i := by
  unfold decodeMap5 at h
  split at h
  case h_1 =>
    obtain ⟨rfl, -, ho⟩ := a1_ok h (k64_pos _)
    exact ⟨ho, rfl⟩
  case h_2 | h_3 =>
    obtain ⟨rfl, ho⟩ := cvtq_wf h
    exact ⟨ho, rfl⟩
  case h_4 =>
    obtain ⟨rfl, -, ho⟩ := a2_ok h Nat.one_pos Nat.one_pos
    exact ⟨ho, rfl⟩
  case h_5 =>
    refine reserved_settled h (reservedOp_iff.mpr ?_)
    simp only [imp_false] at *
    omega

/-- LANEX: an offset in a register, or in the mod field with a mode that has a direction. -/
theorem lanex_settled {bm bz : Bool} {reg neg low w64 : Bool} {mode : LaneMode} {n : BitVec 3} {j : Instr} (hmode : low = (mode == .rel || mode == .rot))
    (h : chk (aChk w rest (badD w (k64 w64)) (k64 w64) (if reg then 0 else 1) 0 (bm || bz || (neg && !low)))
      (.lanex (a1Of w) mode (if reg then .width n neg else .reg (srcAt (fSb w))) w64) = .ok j) : Settled j := by
  have hk := k64_pos w64
  cases reg with
  | true =>
    obtain ⟨rfl, hm, ho⟩ := a1_ok h hk
    refine ⟨Bool.and_eq_true_iff.mpr ⟨ho, ?_⟩, rfl⟩
    have hneg := (Bool.or_eq_false_iff.mp hm).2
    rw [hmode] at hneg
    change (!neg || mode == .rel || mode == .rot) = true
    rw [Bool.or_assoc]
    cases neg with
    | false => rfl
    | true => exact (Bool.not_eq_false' (b := mode == .rel || mode == .rot)).mp hneg
  | false =>
    obtain ⟨rfl, hd, -, ha, hb, hlit⟩ := s2_ok h hk Nat.one_pos
    have ho : (a1Of w).wf (k64 w64) (k64 w64) = true := Bool.and_eq_true_iff.mpr ⟨dst_of_badDst hd, ha⟩
    exact ⟨Bool.and_eq_true_iff.mpr ⟨ho, Bool.and_eq_true_iff.mpr ⟨hb, hlit⟩⟩, rfl⟩

/-- The modes of LANEX with a direction have an odd code. -/
theorem laneMode_low : ∀ m : BitVec 10, m.getLsbD 0 = (laneModeOf (m.setWidth 2) == .rel || laneModeOf (m.setWidth 2) == .rot) := by decide +kernel

theorem bcastl_settled {none_ w64 bm : Bool} {j : Instr}
    (h : chk (aChk w rest (badD w (k64 w64)) (k64 w64) (if none_ then 0 else 1) 0 bm) (.bcastl (a1Of w) (if none_ then none else some (srcAt (fSb w))) w64) = .ok j) : Settled j := by
  have hk := k64_pos w64
  cases none_ with
  | true =>
    obtain ⟨rfl, -, ho⟩ := a1_ok h hk
    exact ⟨Bool.and_eq_true_iff.mpr ⟨ho, rfl⟩, rfl⟩
  | false =>
    obtain ⟨rfl, hd, -, ha, hb, hlit⟩ := s2_ok h hk Nat.one_pos
    have ho : (a1Of w).wf (k64 w64) (k64 w64) = true := Bool.and_eq_true_iff.mpr ⟨dst_of_badDst hd, ha⟩
    exact ⟨Bool.and_eq_true_iff.mpr ⟨ho, Bool.and_eq_true_iff.mpr ⟨hb, hlit⟩⟩, rfl⟩

/-- The destination of a PCENSUS fits its mode. -/
theorem censusOf_wf (h : (if censusPred w then badP w else badVog w (if ((fMod w).extractLsb' 4 3) == 3 then 2 else 1)) = false) (pg : Guard) (n : BitVec 3) (neg : Bool) :
    WellFormed (.pcensus pg (censusOf w) n neg) = true := by
  unfold censusOf
  generalize hm : (fMod w).extractLsb' 4 3 = m at h ⊢
  dsimp only
  by_cases h0 : (m == 0) = true
  · rw [if_pos h0]
    rfl
  rw [if_neg h0]
  by_cases h1 : (m == 1) = true
  · rw [if_pos h1]
    rfl
  rw [if_neg h1]
  by_cases h2 : (m == 2) = true
  · rw [if_pos h2]
    rfl
  rw [if_neg h2]
  have hge : ∀ m : BitVec 3, ¬ (m == 0) = true → ¬ (m == 1) = true → ¬ (m == 2) = true → decide (m.toNat < 3) = false := by decide
  have hc : censusPred w = false := by
    unfold censusPred
    rw [hm]
    exact hge m h0 h1 h2
  rw [if_neg (by rw [hc]; exact Bool.false_ne_true)] at h
  by_cases h3 : (m == 3) = true
  · rw [if_pos h3] at h ⊢
    exact dst_of_badDst (ok := Dst.vog 2) h
  · rw [if_neg h3] at h ⊢
    exact dst_of_badDst (ok := Dst.vog 1) h

theorem map6_settled (h : decodeMap6 w rest = .ok i) (hop : fOp w / 16 = 6) : Settled i := by
  unfold decodeMap6 at h
  have hk := k64_pos (m9 w)
  split at h
  case h_1 => exact lanex_settled (laneMode_low (fMod w)) h
  case h_2 => exact bcastl_settled h
  case h_3 =>
    obtain ⟨rfl, hd, -⟩ := a0_ok h
    exact ⟨censusOf_wf hd _ _ _, rfl⟩
  case h_4 =>
    obtain ⟨rfl, hd, -, ha⟩ := s1_ok h hk
    exact ⟨Bool.and_eq_true_iff.mpr ⟨dst_of_badDst (ok := Dst.vog 2) hd, ha⟩, rfl⟩
  case h_5 =>
    obtain ⟨rfl, hm, ho⟩ := a1_ok h hk
    exact ⟨Bool.and_eq_true_iff.mpr ⟨ho, (Bool.not_eq_false' (b := RedOp.wf _ _ _)).mp (Bool.or_eq_false_iff.mp hm).2⟩, rfl⟩
  case h_6 =>
    obtain ⟨rfl, hd, hm, ha, hb, hlit⟩ := s2_ok h Nat.one_pos Nat.one_pos
    have hv : (dstAt (fD w)).vog 2 = true := dst_of_badDst (ok := Dst.vog 2) hd
    refine ⟨?_, rfl⟩
    simp only [WellFormed, a2Of, hv, ha, hb, hlit, Bool.true_and, (Bool.or_eq_false_iff.mp hm).2, Bool.not_false]
  case h_7 =>
    obtain ⟨rfl, hm, ho⟩ := a1_ok h hk
    exact ⟨Bool.and_eq_true_iff.mpr ⟨ho, (Bool.not_eq_false' (b := RedOp.wf _ _ _)).mp (Bool.or_eq_false_iff.mp hm).2⟩, rfl⟩
  case h_8 =>
    obtain ⟨rfl, -⟩ := s1_ok h Nat.one_pos
    exact ⟨rfl, rfl⟩
  case h_9 =>
    obtain ⟨rfl, hm, ho⟩ := a2_ok h hk Nat.one_pos
    have hn := of_decide_eq_false (Bool.or_eq_false_iff.mp hm).2
    exact ⟨Bool.and_eq_true_iff.mpr ⟨ho, decide_eq_true (Nat.not_lt.mp hn)⟩, rfl⟩
  case h_10 =>
    obtain ⟨rfl, hm, ho⟩ := p2_ok h hk Nat.one_pos
    have hn := of_decide_eq_false (Bool.or_eq_false_iff.mp hm).2
    exact ⟨Bool.and_eq_true_iff.mpr ⟨ho, decide_eq_true (Nat.not_lt.mp hn)⟩, rfl⟩
  case h_11 =>
    obtain ⟨rfl, hd, -⟩ := a0_ok h
    exact ⟨dst_of_badDst (ok := Dst.vog 2) hd, rfl⟩
  case h_12 =>
    refine reserved_settled h (reservedOp_iff.mpr ?_)
    simp only [imp_false] at *
    omega

end

end Sys2Proof
end
section
/-! PROOFS of O5, part 3: what the control, memory and barrier parts of the opcode map answer is well formed. -/

namespace Sys2Proof
-- One declaration after another, as in the Tests: the large proofs run side by side ask for too much memory.
set_option Elab.async false
open BitVec hiding and_assoc and_self or_assoc

/-! ## Codes that a check accepts -/

theorem braMode_of_code : ∀ n : BitVec 4, (braModeOf n).isNone = false →
    braK n = (if (braModeOf n).getD .always == .nz64 || (braModeOf n).getD .always == .z64 then 2 else 1) ∧ ((braModeOf n).getD .always == .always) = (n == 0) := by decide

theorem braK_of_code_pos : ∀ n : BitVec 4, 0 < braK n := by decide

theorem low8_ne_zero : ∀ m : BitVec 10, (m &&& ~~~0x0FF != 0) = false → (m == 0) = false → (m.setWidth 8 != 0) = true := by decide +kernel

theorem ordAt_load : ∀ n : BitVec 3, (!([0, 1, 2, 5].contains n.toNat)) = false → (ordAt n == .plain || ordAt n == .rlx || ordAt n == .acq || ordAt n == .sc) = true := by decide

theorem ordAt_store : ∀ n : BitVec 3, (!([0, 1, 3, 5].contains n.toNat)) = false → (ordAt n == .plain || ordAt n == .rlx || ordAt n == .rel || ordAt n == .sc) = true := by decide

theorem ordAt_fence : ∀ n : BitVec 3, (!([2, 3, 4, 5].contains n.toNat)) = false → (ordAt n == .acq || ordAt n == .rel || ordAt n == .acqrel || ordAt n == .sc) = true := by decide

theorem ordAt_atom : ∀ n : BitVec 3, (!([1, 2, 3, 4, 5].contains n.toNat)) = false → (ordAt n != .plain) = true := by decide

theorem ordAt_red : ∀ n : BitVec 3, (!([1, 3, 5].contains n.toNat)) = false → (ordAt n == .rlx || ordAt n == .rel || ordAt n == .sc) = true := by decide

theorem ordAt_plain : ∀ n : BitVec 3, (!([0].contains n.toNat)) = false → (ordAt n == .plain) = true := by decide

theorem mwAt_w16 : ∀ n : BitVec 3, (!([1].contains n.toNat)) = false → (mwAt n == .w16) = true := by decide

theorem cpAt_ca : ∀ n : BitVec 2, (n != 0) = false → (cpAt n == .ca) = true := by decide

theorem scopeAt_thr : ∀ n : BitVec 3, (n != 0) = false → (scopeAt n == .thr) = true := by decide

theorem atomLoad_of_code : ∀ (n : BitVec 4) (o : BitVec 3), (!([1, 2, 3, 4, 5].contains o.toNat)) = false → (n == 7 && (o == 3 || o == 4)) = false →
    ((aopOf n).getD .add != .load || ordAt o == .rlx || ordAt o == .acq || ordAt o == .sc) = true := by decide

theorem redAop_of_code : ∀ n : BitVec 4, (n == 6) = false → (n == 7) = false → ((aopOf n).getD .add != .exch) = true ∧ ((aopOf n).getD .add != .load) = true := by decide

theorem unused_of_zero : ∀ f : BitVec 11, srcOf f = some zSrc → f = unusedSrc := by decide +kernel

theorem isLit_of_badSrc {k : Nat} {f : BitVec 11} (h : badSrc k f = false) : (srcAt f).op.isLit = isLitField f := by
  obtain ⟨s, hs, -⟩ := srcOf_of_badSrc h
  rw [srcAt_of_some hs, isLitField_of_some hs]

/-- A source in a field that is in use is not the zero register. -/
theorem used_ne_zero {k : Nat} {f : BitVec 11} (h : badSrc k f = false) (hf : (f == unusedSrc) = false) : ((srcAt f).op != .zero) = true := by
  obtain ⟨⟨op, e, l⟩, hs, hw⟩ := srcOf_of_badSrc h
  rw [srcAt_of_some hs]
  refine bne_iff_ne.mpr ?_
  rintro rfl
  obtain ⟨hle, -⟩ := Bool.and_eq_true_iff.mp hw
  obtain ⟨hl, he⟩ := Bool.and_eq_true_iff.mp hle
  obtain rfl : l = false := (Bool.not_eq_true' _).mp hl
  obtain rfl : e = false := (Bool.not_eq_true' _).mp he
  exact beq_eq_false_iff_ne.mp hf (unused_of_zero f hs)

theorem implies_of_and_not {a b : Bool} (h : (a && !b) = false) : (!a || b) = true := by
  cases a with
  | false => rfl
  | true => exact (Bool.not_eq_false' (b := b)).mp h

/-! ## Control words -/

section
variable {w : Word} {rest : List Word} {i j : Instr}

/-- A word of format B that is read has an aligned offset and none of its own causes. -/
theorem bChk_ok {l : List (Bool × Nat)} (h : chk (bChk w rest ++ l) i = .ok j) : i = j ∧ ((fOff w).toNat % 8 == 0) = true ∧ ∀ c ∈ l, c.1 = false := by
  obtain ⟨hb, hl⟩ := chk_append_ok h
  obtain ⟨hi, hc⟩ := chk_ok_iff.mp hb
  have hz := (Bool.or_eq_false_iff.mp (hc _ (List.mem_cons_self ..))).2
  exact ⟨hi, beq_iff_eq.mpr (bne_eq_false_iff_eq.mp hz), hl⟩

theorem bra_settled (h : chk (bChk w rest ++ [((braModeOf (fMode w)).isNone, cMode),
      (badSrc (braK (fMode w)) (fSa w) || isLitField (fSa w) || (fMode w == 0 && fSa w != unusedSrc), cOperand)])
      (.bra (pgOf w) ((braModeOf (fMode w)).getD .always) (srcAt (fSa w)) (fOff w)) = .ok j) : Settled j := by
  obtain ⟨rfl, ho, hl⟩ := bChk_ok h
  simp only [List.forall_mem_cons, Bool.or_eq_false_iff] at hl
  obtain ⟨hmode, ⟨⟨hs, hlit⟩, hun⟩, -⟩ := hl
  obtain ⟨hk, h0⟩ := braMode_of_code _ hmode
  have hwf := src_of_badSrc hs
  rw [hk] at hwf
  have hzero : ((braModeOf (fMode w)).getD .always != .always || srcAt (fSa w) == ⟨.zero, false, false⟩) = true := by
    rw [bne, h0]
    cases hf : fMode w == 0 with
    | false => rfl
    | true =>
      rw [hf, Bool.true_and] at hun
      rw [bne_eq_false_iff_eq.mp hun]
      rfl
  refine ⟨?_, rfl⟩
  simp only [WellFormed, Bool.and_eq_true]
  exact ⟨⟨⟨hwf, by rw [noLit, List.all_cons, isLit_of_badSrc hs, hlit]; rfl⟩, hzero⟩, ho⟩

/-- BRX and CALLX: a table or a target, no literal. -/
theorem table_ok (h : chk (bChk w rest ++ [(decide (1 < (fMode w).toNat), cMode),
      (badSrc (if fMode w == 1 then 1 else 2) (fSa w) || isLitField (fSa w), cOperand)]) i = .ok j) : i = j ∧
    ((srcAt (fSa w)).wf (if fMode w == 1 then 1 else 2) && noLit [srcAt (fSa w)] && (fOff w).toNat % 8 == 0) = true := by
  obtain ⟨hi, ho, hl⟩ := bChk_ok h
  simp only [List.forall_mem_cons, Bool.or_eq_false_iff] at hl
  obtain ⟨-, ⟨hs, hlit⟩, -⟩ := hl
  refine ⟨hi, ?_⟩
  rw [noLit, List.all_cons, isLit_of_badSrc hs, hlit, src_of_badSrc hs, ho]
  rfl

theorem map7_settled (h : decodeMap7 w rest = .ok i) (hop : fOp w / 16 = 7) : Settled i := by
  unfold decodeMap7 at h
  split at h
  case h_1 => exact bra_settled h
  case h_2 | h_3 =>
    obtain ⟨rfl, ho⟩ := table_ok h
    exact ⟨ho, rfl⟩
  case h_4 =>
    obtain ⟨rfl, ho, -⟩ := bChk_ok h
    exact ⟨ho, rfl⟩
  case h_5 | h_7 =>
    obtain ⟨rfl, -⟩ := a0_ok (chk_append_ok h).1
    exact ⟨rfl, rfl⟩
  case h_6 =>
    obtain ⟨rfl, -, hm⟩ := a0_ok (chk_append_ok h).1
    obtain ⟨hm, h0⟩ := Bool.or_eq_false_iff.mp hm
    exact ⟨low8_ne_zero _ hm h0, rfl⟩
  case h_8 | h_10 | h_11 =>
    obtain ⟨rfl, -⟩ := a0_ok h
    exact ⟨rfl, rfl⟩
  case h_9 =>
    obtain ⟨hi, -, hm, hs, -⟩ := aChk_ok h
    subst hi
    refine ⟨Bool.and_eq_true_iff.mpr ⟨src_of_badSrc hs, ?_⟩, rfl⟩
    rw [noLit, List.all_cons, isLit_of_badSrc hs, (Bool.or_eq_false_iff.mp hm).2]
    rfl
  case h_12 =>
    refine reserved_settled h (reservedOp_iff.mpr ?_)
    simp only [imp_false] at *
    omega

/-! ## Loads and stores -/

theorem five_ok {a b c d e : Bool} {ca cb cc cd ce : Nat} (h : chk [(a, ca), (b, cb), (c, cc), (d, cd), (e, ce)] i = .ok j) :
    i = j ∧ a = false ∧ b = false ∧ c = false ∧ d = false ∧ e = false := by
  obtain ⟨hi, hc⟩ := chk_ok_iff.mp h
  simp only [List.forall_mem_cons] at hc
  obtain ⟨ha, hb, hcc, hd, he, -⟩ := hc
  exact ⟨hi, ha, hb, hcc, hd, he⟩

/-- The fields of a load make a well-formed operand record (R265). -/
theorem mLoadOf_wf {k : Nat} {cz : Bool} (ho : badOrd w [0, 1, 2, 5] = false)
    (hx : (badBase k (fSa w) || badDst (Dst.late (mwAt (fW w)).k) (fD w) || (fSx w && !(mwAt (fW w)).narrow)) = false) (hc : (!cz || cpAt (fCp w) == .ca) = true) :
    (mLoadOf w).wf k cz = true := by
  simp only [Bool.or_eq_false_iff] at hx
  obtain ⟨⟨hb, hd⟩, hsx⟩ := hx
  exact MLoad.wf_iff.mpr ⟨dst_of_badDst hd, base_of_badBase hb, ordAt_load _ ho, implies_of_and_not hsx, hc⟩

/-- The data register of a store: no literal, and the E flag has no place in the word. -/
theorem stData_of_bad (h : badStData w = false) : ((stData w).getD zSrc).wf (mwAt (fW w)).k = true ∧ (!((stData w).getD zSrc).e) = true ∧
    (!((stData w).getD zSrc).op.isLit) = true := by
  unfold badStData at h
  cases hs : stData w with
  | none => rw [hs] at h; cases h
  | some s =>
    rw [hs] at h
    obtain ⟨hw, hl⟩ := Bool.or_eq_false_iff.mp h
    obtain ⟨op, -, rfl⟩ := Option.map_eq_some_iff.mp hs
    exact ⟨(Bool.not_eq_false' (b := Src.wf _ _)).mp hw, rfl, by rw [Option.getD_some, hl]; rfl⟩

theorem mStoreOf_wf {k : Nat} {cz : Bool} (ho : badOrd w [0, 1, 3, 5] = false) (hx : (badBase k (fSa w) || badStData w) = false)
    (hc : (!cz || cpAt (fCp w) == .ca) = true) : (mStoreOf w).wf k cz = true := by
  obtain ⟨hb, hd⟩ := Bool.or_eq_false_iff.mp hx
  obtain ⟨hw, he, hl⟩ := stData_of_bad hd
  exact MStore.wf_iff.mpr ⟨hw, he, hl, base_of_badBase hb, ordAt_store _ ho, hc⟩

theorem ordZero_sub : ∀ n : BitVec 3, (!([0].contains n.toNat)) = false → (!([0, 1, 2, 5].contains n.toNat)) = false ∧ (!([0, 1, 3, 5].contains n.toNat)) = false := by decide

theorem ldbd_wf (h : chk [(badOrd w [0], cOrder), (badWidth w [1], cWidth), (fCp w == 3, cCache), (fScope w == 7, cScope),
      (badBase 2 (fSa w) || badDst (Dst.late (mwAt (fW w)).k) (fD w) || fSx w || fCp w != 0 || fScope w != 0, cOperand)] i = .ok j) :
    i = j ∧ ((mLoadOf w).wf 2 true && (mLoadOf w).isDesc) = true := by
  obtain ⟨hi, ho, hw, -, -, hx⟩ := five_ok h
  simp only [Bool.or_eq_false_iff] at hx
  obtain ⟨⟨⟨⟨hb, hd⟩, hsx⟩, hcp⟩, hsc⟩ := hx
  refine ⟨hi, Bool.and_eq_true_iff.mpr ⟨mLoadOf_wf (ordZero_sub _ ho).1 ?_ (cpAt_ca _ hcp), ?_⟩⟩
  · rw [hb, hd, hsx]
    rfl
  · simp only [MLoad.isDesc, mLoadOf, ordAt_plain _ ho, mwAt_w16 _ hw, cpAt_ca _ hcp, scopeAt_thr _ hsc, hsx, Bool.true_and, Bool.not_false]

theorem stbd_wf (h : chk [(badOrd w [0], cOrder), (badWidth w [1], cWidth), (fCp w == 3, cCache), (fScope w == 7, cScope),
      (badBase 2 (fSa w) || badStData w || fCp w != 0 || fScope w != 0, cOperand)] i = .ok j) : i = j ∧ ((mStoreOf w).wf 2 true && (mStoreOf w).isDesc) = true := by
  obtain ⟨hi, ho, hw, -, -, hx⟩ := five_ok h
  simp only [Bool.or_eq_false_iff] at hx
  obtain ⟨⟨⟨hb, hd⟩, hcp⟩, hsc⟩ := hx
  refine ⟨hi, Bool.and_eq_true_iff.mpr ⟨mStoreOf_wf (ordZero_sub _ ho).2 (by rw [hb, hd]; rfl) (cpAt_ca _ hcp), ?_⟩⟩
  simp only [MStore.isDesc, mStoreOf, ordAt_plain _ ho, mwAt_w16 _ hw, cpAt_ca _ hcp, scopeAt_thr _ hsc, Bool.true_and]

/-- CINVAL names a line, or all of them with a zero offset. -/
theorem cinval_settled {a b c d x : Bool} {ca cb cc cd ce : Nat}
    (h : chk [(a, ca), (b, cb), (c, cc), (d, cd), ((if fW w == 1 then fSa w != unusedSrc || fOff20 w != 0 else badBase 2 (fSa w)) || x, ce)]
      (.cinval (pgOf w) (if fW w == 1 then none else some (srcAt (fSa w))) (fOff20 w)) = .ok j) : Settled j := by
  obtain ⟨rfl, -, -, -, -, hx⟩ := five_ok h
  replace hx := (Bool.or_eq_false_iff.mp hx).1
  refine ⟨?_, rfl⟩
  cases hw : fW w == 1 with
  | true =>
    rw [hw] at hx
    exact beq_iff_eq.mpr (bne_eq_false_iff_eq.mp (Bool.or_eq_false_iff.mp hx).2)
  | false =>
    rw [hw] at hx
    exact base_of_badBase hx

theorem swb_settled {bd bm : Bool} {kb kc : Nat}
    (h : chk (aChk w rest bd 1 kb kc bm) (.swb (pgOf w) (if fSa w == unusedSrc then none else some (srcAt (fSa w)))) = .ok j) : Settled j := by
  obtain ⟨hi, -, -, hs, -⟩ := aChk_ok h
  subst hi
  refine ⟨?_, rfl⟩
  cases hu : fSa w == unusedSrc with
  | true => rfl
  | false => exact Bool.and_eq_true_iff.mpr ⟨src_of_badSrc hs, used_ne_zero hs hu⟩

/-! ## Atomic words -/

theorem allows_of_badAop (h : badAop w = false) : ((aopOf (tAop w)).getD .add).allows (tType w) = true := by
  unfold badAop at h
  cases ha : aopOf (tAop w) with
  | none => rw [ha] at h; cases h
  | some a =>
    rw [ha] at h
    exact (Bool.not_eq_false' (b := AOp.allows _ _)).mp h

theorem atom_wf {k : Nat} {cs : Bool} {x y z u v p : Nat} (h : chk (litChk rest [fSb w] ++ [((atypeOf ((tTy w).setWidth 4)).isNone, x), (badAop w, y),
      (!([1, 2, 3, 4, 5].contains (tOrd w).toNat), z), (tAop w == 7 && (tOrd w == 3 || tOrd w == 4), u), (cs, v),
      (badDst (Dst.late (tType w).k) (fD w) || badBase k (fSa w) || badSrc (tType w).k (fSb w), p)]) i = .ok j) : i = j ∧
    (let t := tAtomOf w
     t.d.late t.ty.k && t.base.base k && t.b.wf t.ty.k && t.ord != .plain && t.aop.allows t.ty && (t.aop != .load || t.ord == .rlx || t.ord == .acq || t.ord == .sc)) = true := by
  obtain ⟨hl, hc⟩ := chk_append_ok h
  simp only [List.forall_mem_cons, Bool.or_eq_false_iff] at hc
  obtain ⟨-, ha, ho, hld, -, ⟨⟨hd, hb⟩, hs⟩, -⟩ := hc
  refine ⟨(chk_ok_iff.mp hl).1, ?_⟩
  simp only [Bool.and_eq_true]
  exact ⟨⟨⟨⟨⟨dst_of_badDst hd, base_of_badBase hb⟩, src_of_badSrc hs⟩, ordAt_atom _ ho⟩, allows_of_badAop ha⟩, atomLoad_of_code _ _ ho hld⟩

theorem red_settled {cs : Bool} {x y z v p : Nat} (h : chk (litChk rest [fSb w] ++ [((atypeOf ((tTy w).setWidth 4)).isNone, x), (badAop w || tAop w == 6 || tAop w == 7, y),
      (!([1, 3, 5].contains (tOrd w).toNat), z), (cs, v), (noD w || badBase 2 (fSa w) || badSrc (tType w).k (fSb w), p)]) (.red (tAtomOf w)) = .ok j) : Settled j := by
  obtain ⟨hl, hc⟩ := chk_append_ok h
  simp only [List.forall_mem_cons, Bool.or_eq_false_iff] at hc
  obtain ⟨-, ⟨⟨ha, h6⟩, h7⟩, ho, -, ⟨⟨hd, hb⟩, hs⟩, -⟩ := hc
  obtain ⟨hex, hld⟩ := redAop_of_code _ h6 h7
  obtain rfl := (chk_ok_iff.mp hl).1
  have hz : ((tAtomOf w).d == .zero) = true := by
    unfold tAtomOf
    dsimp only
    rw [bne_eq_false_iff_eq.mp hd]
    rfl
  refine ⟨?_, rfl⟩
  simp only [WellFormed, Bool.and_eq_true]
  exact ⟨⟨⟨⟨⟨⟨hz, base_of_badBase hb⟩, src_of_badSrc hs⟩, allows_of_badAop ha⟩, hex⟩, hld⟩, ordAt_red _ ho⟩

theorem atomcas_settled {cs : Bool} {x z v p : Nat} (h : chk (litChk rest [fSb w, fSc w] ++ [((atypeOf (tAop w)).isNone, x), (!([1, 2, 3, 4, 5].contains (tOrd w).toNat), z),
      (cs, v), (badDst (Dst.late (casType w).k) (fD w) || badBase 2 (fSa w) || badSrc (casType w).k (fSb w) || badSrc (casType w).k (fSc w), p)]) (.atomcas (tCasOf w)) = .ok j) :
    Settled j := by
  obtain ⟨hl, hc⟩ := chk_append_ok h
  simp only [List.forall_mem_cons, Bool.or_eq_false_iff] at hc
  obtain ⟨-, ho, -, ⟨⟨⟨hd, hb⟩, hs⟩, hsc⟩, -⟩ := hc
  obtain ⟨hi, hlc⟩ := chk_ok_iff.mp hl
  subst hi
  have hlit : oneLit [srcAt (fSb w), srcAt (fSc w)] = true :=
    oneLit_of_fields (gs := [fSb w, fSc w]) (litChk_clear_iff.mp hlc).1 (List.Sublist.refl _) (by simp [read_of_bad hs, read_of_bad hsc])
  refine ⟨?_, rfl⟩
  simp only [WellFormed, Bool.and_eq_true]
  exact ⟨⟨⟨⟨⟨dst_of_badDst hd, base_of_badBase hb⟩, src_of_badSrc hs⟩, src_of_badSrc hsc⟩, ordAt_atom _ ho⟩, hlit⟩

theorem map8_settled (h : decodeMap8 w rest = .ok i) (hop : fOp w / 16 = 8) : Settled i := by
  unfold decodeMap8 at h
  split at h
  case h_1 =>
    obtain ⟨rfl, ho, -, -, -, hx⟩ := five_ok h
    exact ⟨mLoadOf_wf ho hx rfl, rfl⟩
  case h_2 =>
    obtain ⟨rfl, ho, -, -, -, hx⟩ := five_ok h
    exact ⟨mStoreOf_wf ho hx rfl, rfl⟩
  case h_3 | h_5 =>
    obtain ⟨rfl, ho, -, -, -, hx⟩ := five_ok h
    obtain ⟨hx, hcp⟩ := Bool.or_eq_false_iff.mp hx
    exact ⟨mLoadOf_wf ho hx (cpAt_ca _ hcp), rfl⟩
  case h_4 | h_6 =>
    obtain ⟨rfl, ho, -, -, -, hx⟩ := five_ok h
    obtain ⟨hx, hcp⟩ := Bool.or_eq_false_iff.mp hx
    exact ⟨mStoreOf_wf ho hx (cpAt_ca _ hcp), rfl⟩
  case h_7 =>
    obtain ⟨rfl, ho⟩ := ldbd_wf h
    exact ⟨ho, rfl⟩
  case h_8 =>
    obtain ⟨rfl, ho⟩ := stbd_wf h
    exact ⟨ho, rfl⟩
  case h_9 =>
    obtain ⟨rfl, -, -, -, -, hx⟩ := five_ok h
    simp only [Bool.or_eq_false_iff] at hx
    obtain ⟨⟨⟨hb, -⟩, -⟩, -⟩ := hx
    exact ⟨base_of_badBase hb, rfl⟩
  case h_10 =>
    simp only [Bool.or_assoc] at h
    exact cinval_settled h
  case h_11 =>
    obtain ⟨rfl, -, -, ha, hb, hc, hlit⟩ := s3_ok h Nat.one_pos Nat.two_pos Nat.one_pos
    refine ⟨?_, rfl⟩
    simp only [WellFormed, Bool.and_eq_true]
    exact ⟨⟨⟨ha, hb⟩, hc⟩, hlit⟩
  case h_12 =>
    obtain ⟨rfl, -, -, ha⟩ := s1_ok h Nat.one_pos
    exact ⟨ha, rfl⟩
  case h_13 => exact swb_settled h
  case h_14 =>
    obtain ⟨rfl, ho⟩ := atom_wf h
    exact ⟨ho, rfl⟩
  case h_15 => exact atomcas_settled h
  case h_16 => exact red_settled h
  case h_17 =>
    refine reserved_settled h (reservedOp_iff.mpr ?_)
    simp only [imp_false] at *
    omega

theorem map9_settled (h : decodeMap9 w rest = .ok i) (hop : fOp w / 16 = 9) : Settled i := by
  unfold decodeMap9 at h
  have hk := k64_pos (m9 w)
  split at h
  case h_1 =>
    obtain ⟨rfl, ho⟩ := atom_wf h
    exact ⟨ho, rfl⟩
  case h_2 =>
    obtain ⟨rfl, ho, -⟩ := five_ok h
    exact ⟨ordAt_fence _ ho, rfl⟩
  case h_3 | h_5 | h_6 =>
    obtain ⟨rfl, -⟩ := a0_ok h
    exact ⟨rfl, rfl⟩
  case h_4 =>
    obtain ⟨rfl, hm, ho⟩ := a1_ok h hk
    exact ⟨Bool.and_eq_true_iff.mpr ⟨ho, (Bool.not_eq_false' (b := RedOp.wf _ _ _)).mp (Bool.or_eq_false_iff.mp hm).2⟩, rfl⟩
  case h_7 =>
    refine reserved_settled h (reservedOp_iff.mpr ?_)
    simp only [imp_false] at *
    omega

end

end Sys2Proof
end
section
/-! PROOFS of O5, part 4: what the engine, matrix, task and system parts of the opcode map answer is well formed; the settlement of O5. -/

namespace Sys2Proof
-- One declaration after another, as in the Tests: the large proofs run side by side ask for too much memory.
set_option Elab.async false
open BitVec hiding and_assoc and_self or_assoc

/-! ## Engine words -/

section
variable {w : Word} {rest : List Word} {i j : Instr}

/-- The fields of a copy make a well-formed operand record (R366 to R369). -/
theorem copyOf_wf {rows : Bool} (hlit : ([fSa w, fSb w, fSc w].filter isLitField).length ≤ 1) (h : badCopy rows w = false) : (copyOf w).wf rows = true := by
  simp only [badCopy, Bool.or_eq_false_iff] at h
  obtain ⟨⟨⟨⟨⟨hd, hdst⟩, hsrc⟩, hlen⟩, hh1⟩, hh2⟩ := h
  have hone : oneLit [srcAt (fSa w), srcAt (fSb w), srcAt (fSc w)] = true :=
    oneLit_of_fields (gs := [fSa w, fSb w, fSc w]) hlit (List.Sublist.refl _) (by simp [read_of_bad hdst, read_of_bad hsrc, read_of_bad hlen])
  exact CopyOp.wf_iff.mpr ⟨dst_of_badDst hd, src_of_badSrc hdst, src_of_badSrc hsrc, src_of_badSrc hlen, hone, implies_of_and_not hh1, implies_of_and_not hh2⟩

/-- What the check of a word of the copy family says. -/
theorem copy_ok {bs bx : Bool} {more : List (Bool × Nat)} {x y : Nat}
    (h : chk (litChk rest [fSa w, fSb w, fSc w] ++ (bs, x) :: (bx, y) :: more) i = .ok j) :
    i = j ∧ ([fSa w, fSb w, fSc w].filter isLitField).length ≤ 1 ∧ bx = false := by
  obtain ⟨hl, hc⟩ := chk_append_ok h
  simp only [List.forall_mem_cons] at hc
  obtain ⟨-, hx, -⟩ := hc
  obtain ⟨hi, hlc⟩ := chk_ok_iff.mp hl
  exact ⟨hi, (litChk_clear_iff.mp hlc).1, hx⟩

theorem remq_settled {bm : Bool} {kc : Nat} {ack : Bool} (h : chk (aChk w rest (if ack then badLate w 2 else noD w) 1 1 kc bm) (.remq (a2Of w) ack) = .ok j) : Settled j := by
  obtain ⟨rfl, hd, -, ha, hb, hlit⟩ := s2_ok h Nat.one_pos Nat.one_pos
  refine ⟨?_, rfl⟩
  have hdst : ((dstAt (fD w)).late 2 = true ∧ (ack || dstAt (fD w) == .zero) = true) := by
    cases ack with
    | true => exact ⟨dst_of_badDst (ok := Dst.late 2) hd, rfl⟩
    | false =>
      have hu : fD w = unusedDst := bne_eq_false_iff_eq.mp hd
      rw [hu]
      exact ⟨rfl, rfl⟩
  simp only [WellFormed, Bool.and_eq_true]
  exact ⟨⟨⟨hdst, ha⟩, hb⟩, hlit⟩

/-- XRED combines by the operations below EXCH. -/
theorem xredAop_of_code : ∀ n : BitVec 3, decide (5 < n.toNat) = false →
    ((aopOf (n.setWidth 4)).getD .add != .exch) = true ∧ ((aopOf (n.setWidth 4)).getD .add != .load) = true := by decide

theorem xred_settled {s2g bt bs : Bool} {n : BitVec 3} {ty : AType} {sc : Scope} {x y z : Nat}
    (h : chk (aChk w rest (badLate w 2) 2 (if s2g then 1 else 2) 1 false ++ [(bt, x), (decide (5 < n.toNat) || !((aopOf (n.setWidth 4)).getD .add).allows ty, y), (bs, z)])
      (.xred (a3Of w) s2g ty ((aopOf (n.setWidth 4)).getD .add) sc) = .ok j) : Settled j := by
  obtain ⟨hl, hc⟩ := chk_append_ok h
  simp only [List.forall_mem_cons, Bool.or_eq_false_iff] at hc
  obtain ⟨-, ⟨h5, hal⟩, -⟩ := hc
  obtain ⟨rfl, hd, -, ha, hb, hcc, hlit⟩ := s3_ok hl Nat.two_pos (s2gK_pos s2g) Nat.one_pos
  obtain ⟨hex, hld⟩ := xredAop_of_code n h5
  refine ⟨?_, rfl⟩
  simp only [WellFormed, Bool.and_eq_true]
  exact ⟨⟨⟨⟨⟨⟨⟨dst_of_badDst (ok := Dst.late 2) hd, ha⟩, hb⟩, hcc⟩, hlit⟩, (Bool.not_eq_false' (b := AOp.allows _ _)).mp hal⟩, hex⟩, hld⟩

theorem token_of_badToken {f : BitVec 11} (h : badToken f = false) : (srcAt f).token = true := by
  unfold badToken at h
  cases hf : srcOf f with
  | none => rw [hf] at h; cases h
  | some s =>
    rw [hf] at h
    rw [srcAt_of_some hf]
    exact (Bool.not_eq_false' (b := s.token)).mp h

theorem mapA_settled (h : decodeMapA w rest = .ok i) (hop : fOp w / 16 = 0xA) : Settled i := by
  unfold decodeMapA at h
  split at h
  case h_1 =>
    obtain ⟨rfl, hlit, hx⟩ := copy_ok h
    exact ⟨copyOf_wf hlit (Bool.or_eq_false_iff.mp hx).2, rfl⟩
  case h_2 =>
    obtain ⟨rfl, hlit, hx⟩ := copy_ok h
    obtain ⟨hx, hslot⟩ := Bool.or_eq_false_iff.mp hx
    exact ⟨Bool.and_eq_true_iff.mpr ⟨copyOf_wf hlit (Bool.or_eq_false_iff.mp hx).2, (Bool.not_eq_false' (b := CopyDir.dstSlot _)).mp hslot⟩, rfl⟩
  case h_3 =>
    obtain ⟨rfl, hlit, hx⟩ := copy_ok h
    exact ⟨copyOf_wf hlit (Bool.or_eq_false_iff.mp hx).2, rfl⟩
  case h_4 =>
    obtain ⟨rfl, hlit, hx⟩ := copy_ok h
    obtain ⟨hx, hslot⟩ := Bool.or_eq_false_iff.mp hx
    exact ⟨Bool.and_eq_true_iff.mpr ⟨copyOf_wf hlit (Bool.or_eq_false_iff.mp hx).2, by rw [hslot]; rfl⟩, rfl⟩
  case h_5 => exact remq_settled h
  case h_6 =>
    obtain ⟨rfl, hd, -, ha⟩ := s1_ok h Nat.one_pos
    exact ⟨Bool.and_eq_true_iff.mpr ⟨dst_of_badDst (ok := Dst.late 1) hd, ha⟩, rfl⟩
  case h_7 => exact xred_settled h
  case h_8 =>
    obtain ⟨rfl, -, -, ha⟩ := s1_ok (chk_append_ok h).1 Nat.two_pos
    exact ⟨ha, rfl⟩
  case h_9 =>
    obtain ⟨rfl, -⟩ := a0_ok h
    exact ⟨rfl, rfl⟩
  case h_10 =>
    obtain ⟨rfl, hd, -⟩ := s1_ok h Nat.two_pos
    exact ⟨token_of_badToken (Bool.or_eq_false_iff.mp hd).2, rfl⟩
  case h_11 =>
    refine reserved_settled h (reservedOp_iff.mpr ?_)
    simp only [imp_false] at *
    omega

/-! ## Matrix words -/

/-- A third operand that may be left out: unused, or a pair that is not the zero register. -/
theorem optional_source {k : Nat} {f : BitVec 11} (hk : 0 < k) (h : (if (if f == unusedSrc then 0 else k) == 0 then f != unusedSrc
    else badSrc (if f == unusedSrc then 0 else k) f) = false) : (f == unusedSrc) = true ∨ ((f == unusedSrc) = false ∧ badSrc k f = false) := by
  cases hu : f == unusedSrc with
  | true => exact .inl rfl
  | false =>
    rw [hu] at h
    exact .inr ⟨rfl, src_of_one hk h⟩

theorem accOf_wf {bm : Bool} (h : chk (aChk w rest (badLate w 2) (if (fMod w).getLsbD 0 then 1 else 2) 1 (if fSc w == unusedSrc then 0 else 2) bm) i = .ok j) :
    i = j ∧ (accOf w).wf = true := by
  obtain ⟨hi, hd, -, ha, hb, hc, hlit⟩ := aChk_ok h
  have ha := src_of_one (sK_pos _) ha
  have hb := src_of_one Nat.one_pos hb
  refine ⟨hi, AccOp.wf_iff.mpr ⟨dst_of_badDst (ok := Dst.late 2) hd, src_of_badSrc ha, src_of_badSrc hb, ?_⟩⟩
  unfold accOf
  dsimp only
  rcases optional_source Nat.two_pos hc with hu | ⟨hu, hc⟩
  · rw [if_pos hu]
    exact ⟨rfl, oneLit_of_fields (gs := [fSa w, fSb w]) hlit (by simp) (by simp [read_of_bad ha, read_of_bad hb])⟩
  · rw [if_neg (by rw [hu]; exact Bool.false_ne_true)]
    exact ⟨Bool.and_eq_true_iff.mpr ⟨src_of_badSrc hc, used_ne_zero hc hu⟩,
      oneLit_of_fields (gs := [fSa w, fSb w, fSc w]) hlit (List.Sublist.refl _) (by simp [read_of_bad ha, read_of_bad hb, read_of_bad hc])⟩

theorem mapB_settled (h : decodeMapB w rest = .ok i) (hop : fOp w / 16 = 0xB) : Settled i := by
  unfold decodeMapB at h
  split at h
  case h_1 =>
    obtain ⟨rfl, -, -, ha⟩ := s1_ok h Nat.two_pos
    exact ⟨ha, rfl⟩
  case h_2 =>
    obtain ⟨rfl, -, ho⟩ := p2_ok h Nat.one_pos Nat.one_pos
    exact ⟨ho, rfl⟩
  case h_3 =>
    obtain ⟨rfl, -, -, ha, hb, hlit⟩ := s2_ok h Nat.one_pos Nat.one_pos
    exact ⟨Bool.and_eq_true_iff.mpr ⟨Bool.and_eq_true_iff.mpr ⟨ha, hb⟩, hlit⟩, rfl⟩
  case h_4 | h_5 | h_6 =>
    obtain ⟨rfl, -, ho, hd⟩ := a3Late_ok h Nat.one_pos Nat.one_pos Nat.one_pos
    exact ⟨Bool.and_eq_true_iff.mpr ⟨hd, ho⟩, rfl⟩
  case h_7 | h_8 =>
    obtain ⟨rfl, hd, -, ha, hc, hlit⟩ := s13_ok h Nat.one_pos Nat.one_pos
    have hl : (dstAt (fD w)).late 2 = true := dst_of_badDst (ok := Dst.late 2) hd
    refine ⟨?_, rfl⟩
    simp only [WellFormed, Bool.and_eq_true]
    exact ⟨⟨⟨hl, ha⟩, hc⟩, hlit⟩
  case h_9 | h_10 =>
    obtain ⟨rfl, ho⟩ := accOf_wf (chk_append_ok h).1
    exact ⟨ho, rfl⟩
  case h_11 =>
    obtain ⟨rfl, hd, -, ha⟩ := s1_ok h Nat.one_pos
    exact ⟨Bool.and_eq_true_iff.mpr ⟨dst_of_badDst (ok := Dst.late 2) hd, ha⟩, rfl⟩
  case h_12 | h_13 | h_14 =>
    obtain ⟨rfl, -⟩ := a0_ok h
    exact ⟨rfl, rfl⟩
  case h_15 =>
    obtain ⟨rfl, hd, -⟩ := a0_ok h
    exact ⟨dst_of_badDst (ok := Dst.vog 1) hd, rfl⟩
  case h_16 =>
    refine reserved_settled h (reservedOp_iff.mpr ?_)
    simp only [imp_false] at *
    omega

/-! ## Task, broadcast and register words -/

/-- TMOV: components of registers that carry them (R411). -/
theorem tmov_settled {bm w64 : Bool} {kb kc : Nat} (h : chk (aChk w rest (badD w (k64 w64)) (k64 w64) kb kc (bm || badTmov w))
      (.tmov (a1Of w) ((fMod w).setWidth 3) ((fMod w).extractLsb' 3 3) w64) = .ok j) : Settled j := by
  obtain ⟨rfl, hm, ho⟩ := a1_ok h (k64_pos w64)
  have hb := (Bool.or_eq_false_iff.mp hm).2
  simp only [badTmov, Bool.or_eq_false_iff] at hb
  obtain ⟨⟨⟨hjs, hjd⟩, ha⟩, hd⟩ := hb
  refine ⟨?_, rfl⟩
  simp only [WellFormed, Bool.and_eq_true]
  refine ⟨⟨⟨⟨ho, decide_eq_true (Nat.not_lt.mp (of_decide_eq_false hjs))⟩, decide_eq_true (Nat.not_lt.mp (of_decide_eq_false hjd))⟩, ?_⟩, ?_⟩
  · cases hz : (fMod w).setWidth 3 == (0 : BitVec 3) with
    | true => rfl
    | false =>
      rw [bne, hz, Bool.not_false, Bool.true_and, Bool.not_eq_false'] at ha
      cases hs : srcOf (fSa w) with
      | none => rw [hs] at ha; cases ha
      | some s =>
        rw [hs] at ha
        unfold a1Of
        rw [srcAt_of_some hs]
        obtain ⟨op, e, l⟩ := s
        cases op with
        | v n => rfl
        | o n => rfl
        | _ => cases ha
  · cases hz : (fMod w).extractLsb' 3 3 == (0 : BitVec 3) with
    | true => rfl
    | false =>
      rw [bne, hz, Bool.not_false, Bool.true_and, Bool.not_eq_false'] at hd
      unfold a1Of dstAt
      cases hs : dstOf (fD w) with
      | none => rw [hs] at hd; cases hd
      | some d =>
        rw [hs] at hd
        cases d with
        | v n => rfl
        | o n => rfl
        | _ => cases hd

theorem mapC_settled (h : decodeMapC w rest = .ok i) (hop : fOp w / 16 = 0xC) : Settled i := by
  unfold decodeMapC at h
  split at h
  case h_1 =>
    obtain ⟨rfl, -, -, ha, hb, hlit⟩ := s2_ok h Nat.two_pos (Nat.succ_pos 3)
    exact ⟨Bool.and_eq_true_iff.mpr ⟨Bool.and_eq_true_iff.mpr ⟨ha, hb⟩, hlit⟩, rfl⟩
  case h_2 =>
    obtain ⟨hi, -, -, -, hb, -⟩ := aChk_ok h
    subst hi
    exact ⟨src_of_badSrc (src_of_one (Nat.succ_pos 3) hb), rfl⟩
  case h_3 =>
    obtain ⟨rfl, -, -, ha, hb, hc, hlit⟩ := s3_ok h Nat.two_pos Nat.two_pos Nat.one_pos
    refine ⟨?_, rfl⟩
    simp only [WellFormed, Bool.and_eq_true]
    exact ⟨⟨⟨ha, hb⟩, hc⟩, hlit⟩
  case h_4 =>
    obtain ⟨rfl, hd, -⟩ := a0_ok h
    exact ⟨dst_of_badDst (ok := fun d => d.late 4 && d != .zero) hd, rfl⟩
  case h_5 | h_6 =>
    obtain ⟨rfl, -, -, ha⟩ := s1_ok h Nat.two_pos
    exact ⟨ha, rfl⟩
  case h_7 =>
    obtain ⟨rfl, hd, -⟩ := a0_ok h
    exact ⟨dst_of_badDst (ok := Dst.vog 2) hd, rfl⟩
  case h_8 =>
    obtain ⟨rfl, -, ho⟩ := p2_ok h Nat.one_pos Nat.one_pos
    exact ⟨ho, rfl⟩
  case h_9 =>
    obtain ⟨rfl, -, -, ha⟩ := s1_ok h Nat.one_pos
    exact ⟨ha, rfl⟩
  case h_10 =>
    obtain ⟨rfl, hd, -, ha⟩ := s1_ok h Nat.one_pos
    exact ⟨Bool.and_eq_true_iff.mpr ⟨dst_of_badDst (ok := Dst.vog 1) hd, ha⟩, rfl⟩
  case h_11 =>
    obtain ⟨rfl, -⟩ := a0_ok (chk_append_ok h).1
    exact ⟨rfl, rfl⟩
  case h_12 => exact tmov_settled h
  case h_13 =>
    refine reserved_settled h (reservedOp_iff.mpr ?_)
    simp only [imp_false] at *
    omega

/-! ## System words -/

theorem icinv_settled {all bd bm : Bool} (h : chk (aChk w rest bd (if all then 0 else 2) (if all then 0 else 1) 0 bm)
      (.icinv (pgOf w) (if all then none else some (srcAt (fSa w), srcAt (fSb w)))) = .ok j) : Settled j := by
  cases all with
  | true =>
    obtain ⟨rfl, -⟩ := a0_ok h
    exact ⟨rfl, rfl⟩
  | false =>
    obtain ⟨rfl, -, -, ha, hb, hlit⟩ := s2_ok h Nat.two_pos Nat.one_pos
    exact ⟨Bool.and_eq_true_iff.mpr ⟨Bool.and_eq_true_iff.mpr ⟨ha, hb⟩, hlit⟩, rfl⟩

theorem tlbForm_of_code : ∀ n : BitVec 2, (tlbFormOf n).isNone = false → (tlbFormOf n == some .page) = ((tlbFormOf n).getD .page == .page) := by decide

theorem tlbinv_settled {bd bm : Bool} {n : BitVec 2} (h : chk (aChk w rest bd (if tlbFormOf n == some .page then 2 else 0) (if fSb w == unusedSrc then 0 else 1) 0 (bm || (tlbFormOf n).isNone))
      (.tlbinv (pgOf w) ((tlbFormOf n).getD .page) (srcAt (fSa w)) (if fSb w == unusedSrc then none else some (srcAt (fSb w)))) = .ok j) : Settled j := by
  obtain ⟨hi, -, hm, ha, hb, -, hlit⟩ := aChk_ok h
  subst hi
  rw [tlbForm_of_code n (Bool.or_eq_false_iff.mp hm).2] at ha
  have hform : (if (tlbFormOf n).getD .page == .page then (srcAt (fSa w)).wf 2 else srcAt (fSa w) == ⟨.zero, false, false⟩) = true ∧ ∃ s, srcOf (fSa w) = some s := by
    cases hp : (tlbFormOf n).getD .page == .page with
    | true =>
      rw [hp] at ha
      exact ⟨src_of_badSrc (src_of_one Nat.two_pos ha), read_of_bad (src_of_one Nat.two_pos ha)⟩
    | false =>
      rw [hp] at ha
      rw [bne_eq_false_iff_eq.mp ha]
      exact ⟨rfl, zSrc, rfl⟩
  refine ⟨Bool.and_eq_true_iff.mpr ⟨hform.1, ?_⟩, rfl⟩
  rcases optional_source Nat.one_pos hb with hu | ⟨hu, hb⟩
  · rw [if_pos hu]
  · rw [if_neg (by rw [hu]; exact Bool.false_ne_true)]
    have hone : oneLit [srcAt (fSa w), srcAt (fSb w)] = true := oneLit_of_fields (gs := [fSa w, fSb w]) hlit (by simp) (by simp [hform.2, read_of_bad hb])
    exact Bool.and_eq_true_iff.mpr ⟨Bool.and_eq_true_iff.mpr ⟨src_of_badSrc hb, used_ne_zero hb hu⟩, hone⟩

theorem cctl_settled {inject bm : Bool} {kc : Nat} (h : chk (aChk w rest (if inject then noD w else badVog w 2) 1 1 kc bm)
      (.cctl (pgOf w) (if inject then none else some (dstAt (fD w))) (srcAt (fSa w)) (srcAt (fSb w))) = .ok j) : Settled j := by
  obtain ⟨rfl, hd, -, ha, hb, hlit⟩ := s2_ok h Nat.one_pos Nat.one_pos
  refine ⟨?_, rfl⟩
  simp only [WellFormed, Bool.and_eq_true]
  refine ⟨⟨⟨?_, ha⟩, hb⟩, hlit⟩
  cases inject with
  | true => rfl
  | false => exact dst_of_badDst (ok := Dst.vog 2) hd

theorem mapD_settled (h : decodeMapD w rest = .ok i) (hop : fOp w / 16 = 0xD) : Settled i := by
  unfold decodeMapD at h
  split at h
  case h_1 =>
    obtain ⟨rfl, hd, -⟩ := a0_ok h
    exact ⟨dst_of_badDst hd, rfl⟩
  case h_2 =>
    obtain ⟨rfl, -, -, ha⟩ := s1_ok h (k64_pos _)
    exact ⟨ha, rfl⟩
  case h_3 =>
    obtain ⟨rfl, -⟩ := a0_ok (chk_append_ok h).1
    exact ⟨rfl, rfl⟩
  case h_4 =>
    obtain ⟨rfl, hd, -, ha⟩ := s1_ok h Nat.two_pos
    exact ⟨Bool.and_eq_true_iff.mpr ⟨dst_of_badDst (ok := Dst.late 2) hd, ha⟩, rfl⟩
  case h_5 =>
    obtain ⟨rfl, hd, -, ha, hb, hlit⟩ := s2_ok h Nat.two_pos Nat.two_pos
    have hl : (dstAt (fD w)).late 2 = true := dst_of_badDst (ok := Dst.late 2) hd
    refine ⟨?_, rfl⟩
    simp only [WellFormed, Bool.and_eq_true]
    exact ⟨⟨⟨hl, ha⟩, hb⟩, hlit⟩
  case h_6 => exact icinv_settled h
  case h_7 => exact tlbinv_settled h
  case h_8 =>
    obtain ⟨rfl, -, -, ha, hb, hlit⟩ := s2_ok h Nat.one_pos Nat.two_pos
    exact ⟨Bool.and_eq_true_iff.mpr ⟨Bool.and_eq_true_iff.mpr ⟨ha, hb⟩, hlit⟩, rfl⟩
  case h_9 =>
    obtain ⟨rfl, -, -, ha⟩ := s1_ok h Nat.two_pos
    exact ⟨ha, rfl⟩
  case h_10 =>
    obtain ⟨rfl, -⟩ := a0_ok h
    exact ⟨rfl, rfl⟩
  case h_11 => exact cctl_settled h
  case h_12 =>
    refine reserved_settled h (reservedOp_iff.mpr ?_)
    simp only [imp_false] at *
    omega

/-! ## Pair words and the whole map -/

theorem pair_settled (h : decodePair w = .ok i) : Settled i := by
  obtain ⟨rfl, hc⟩ := chk_ok_iff.mp h
  simp only [List.forall_mem_cons, Bool.or_eq_false_iff] at hc
  obtain ⟨⟨h0, h1⟩, ⟨hw0, hw1⟩, hp, -⟩ := hc
  refine ⟨?_, rfl⟩
  simp only [halfReads, h0, h1, Bool.or_self, Bool.not_false, Bool.true_and, Bool.false_eq_true, if_false, Bool.not_eq_false'] at hw0 hw1 hp
  simp only [WellFormed, pairBroken, hw0, hw1, hp, Bool.not_false, Bool.and_self]

theorem decodeWord_settled (h : decodeWord w rest = .ok i) : Settled i := by
  unfold decodeWord at h
  split at h
  case h_1 hop => exact map0_settled h hop
  case h_2 hop => exact map1_settled h hop
  case h_3 hop => exact map2_settled h hop
  case h_4 hop => exact map3_settled h hop
  case h_5 hop => exact map4_settled h hop
  case h_6 hop => exact map5_settled h hop
  case h_7 hop => exact map6_settled h hop
  case h_8 hop => exact map7_settled h hop
  case h_9 hop => exact map8_settled h hop
  case h_10 hop => exact map9_settled h hop
  case h_11 hop => exact mapA_settled h hop
  case h_12 hop => exact mapB_settled h hop
  case h_13 hop => exact mapC_settled h hop
  case h_14 hop => exact mapD_settled h hop
  case h_15 hop => exact pair_settled h
  case h_16 =>
    have hlt : fOp w < 256 := by
      rw [fOp_eq]
      exact BitVec.isLt _
    refine reserved_settled h (reservedOp_iff.mpr ?_)
    simp only [imp_false] at *
    omega

end

/-- Settles O5: the checks of each part of the opcode map are those that WellFormed makes. -/
theorem decodeWellFormed : Obligations.DecodeWellFormed := by
  unfold Obligations.DecodeWellFormed
  exact fun _ _ _ h => decodeWord_settled h

end Sys2Proof
end
section
/-! PROOFS of O8, part 1: the invariant, and the ways in which the model composes changes of the state. -/

namespace Sys2Proof.Machine
-- One declaration after another, as in the Tests: less memory.
set_option Elab.async false

/-! For each function `f` of the model that answers a state, `f_kept` says that it keeps the invariant: definitionally where it leaves memory
and ports alone, and from the lemmas of the functions it is made of elsewhere. -/

/-- The invariant of StepKeeps: memory in canonical form and sixteen ports. -/
def Kept (s : State) : Prop := Memory.wf s.mem = true ∧ s.ports.length = 16

/-- An outcome keeps the invariant where it is a next state. -/
def KeptO (o : Host.Outcome State Fault Refusal) : Prop := ∀ t, o = .next t → Kept t

theorem keptO_next {s : State} : KeptO (.next s) ↔ Kept s := by
  unfold KeptO
  exact ⟨fun h => h s rfl, fun h t ht => Host.Outcome.next.inj ht ▸ h⟩

theorem keptO_fault {f : Fault} : KeptO (.fault f) := fun _ h => nomatch h

theorem keptO_refused {r : Refusal} : KeptO (.refused r) := fun _ h => nomatch h

/-- A state that differs in other fields keeps the invariant. -/
theorem Kept.of_eq {s t : State} (h : Kept s) (hm : t.mem = s.mem) (hp : t.ports = s.ports) : Kept t := by
  unfold Kept
  rw [hm, hp]
  exact h

theorem Kept.of_fst_eq {α : Type} {x : State × α} {t : State} {r : α} (h : Kept x.1) (e : x = (t, r)) : Kept t := by
  rw [e] at h
  exact h

theorem keptO_ite {p : Prop} [Decidable p] {o o' : Host.Outcome State Fault Refusal} (ho : KeptO o) (ho' : KeptO o') : KeptO (if p then o else o') := by
  split
  · exact ho
  · exact ho'

theorem ite_kept {p : Prop} [Decidable p] (hs : Kept s) (ht : Kept t) : Kept (if p then s else t) := by
  split
  · exact hs
  · exact ht

/-- An attempt, and the state it falls back to. -/
theorem getD_kept {o : Option State} (ho : ∀ t, o = some t → Kept t) (h : Kept s) : Kept (o.getD s) := by
  cases o with
  | none => exact h
  | some t => exact ho t rfl

section
variable {α β : Type} {l : List α}

theorem foldl_kept {f : State → α → State} {s : State} (hf : ∀ s a, Kept s → Kept (f s a)) (h : Kept s) : Kept (l.foldl f s) := foldl_inv Kept _ hf _ _ h

theorem foldl_fst_kept {f : State × β → α → State × β} {p : State × β} (hf : ∀ p a, Kept p.1 → Kept (f p a).1) (h : Kept p.1) : Kept (l.foldl f p).1 :=
  foldl_inv (fun p : State × β => Kept p.1) _ hf _ _ h

end

theorem fw_kept {fw : Firmware} (h : Kept s) : Kept { s with fw := fw } := h

/-! ## Memory (assumption log 1) -/

theorem setCells_kept {s : State} {l : List Host.Cell} (h : Kept s) : Kept { s with mem := setCells l s.mem } := ⟨Memory.wf_setCells h.1, h.2⟩

/-- A write to a block: its cells, and the padding of its layout. -/
theorem trimPad_kept {s : State} {y k : Nat} {l : List Host.Cell} (h : Kept s) : Kept { s with mem := trimPad y k (setCells l s.mem) } :=
  ⟨Memory.wf_trimPad (Memory.wf_setCells h.1), h.2⟩

end Sys2Proof.Machine
end
section
/-! PROOFS of O8, part 2: the operations on the state. -/

namespace Sys2Proof.Machine
-- One declaration after another, as in the Tests: less memory.
set_option Elab.async false

theorem modT_kept (h : Kept s) : Kept (modT s t f) := h

theorem modWarp_kept (h : Kept s) : Kept (modWarp s k slot f) := h

theorem modWg_kept (h : Kept s) : Kept (modWg s i f) := h

theorem modGang_kept (h : Kept s) : Kept (modGang s i f) := h

theorem modLaunch_kept (h : Kept s) : Kept (modLaunch s i f) := h

theorem modCtx_kept (h : Kept s) : Kept (modCtx s pasid f) := h

theorem modCore_kept (h : Kept s) : Kept (modCore s n f) := h

theorem modQueue_kept (h : Kept s) : Kept (modQueue s q f) := h

theorem modLink_kept (h : Kept s) : Kept (modLink s l f) := h

theorem modPort_kept (h : Kept s) : Kept (modPort s p f) := by
  grind [modPort, Kept]

theorem newId_kept (h : Kept s) : Kept (newId s).1 := h

theorem freeValue_kept (h : Kept s) : Kept (freeValue s).1 := h

theorem freeBytes_kept (h : Kept s) : Kept (freeBytes s n).1 := h

theorem atsAsk_kept (h : Kept s) : Kept (atsAsk s link pasid page) := by
  grind [atsAsk, modLink_kept, newId_kept]

theorem putRecord_kept (h : Kept s) : Kept (putRecord s x).1 := by
  grind [putRecord, atsAsk_kept, modLink_kept, Kept, Memory.wf_setCells]

theorem emit_kept (h : Kept s) : Kept (emit s link event bytes) := by
  grind [emit, putRecord_kept, Kept]

theorem flushRecords_kept (h : Kept s) : Kept (flushRecords s) := by
  grind [flushRecords, putRecord_kept, foldl_kept, Kept]

theorem faultRecord_kept (h : Kept s) : Kept (faultRecord s pasid code addr) := by
  grind [faultRecord, emit_kept]

theorem moduleEvent_kept (h : Kept s) : Kept (moduleEvent s type_ code) := by
  grind [moduleEvent, emit_kept]

theorem wakeCore_kept (h : Kept s) : Kept (wakeCore s k) := h

theorem wakeAll_kept (h : Kept s) : Kept (wakeAll s) := h

theorem waitFor_kept (h : Kept s) : Kept (waitFor s t w) := h

theorem acquire_kept (h : Kept s) : Kept (acquire s k sc) := by
  grind [acquire, Kept]

theorem joinVc_kept (h : Kept s) : Kept (joinVc s t vc) := h

theorem bumpVc_kept (h : Kept s) : Kept (bumpVc s t) := h

theorem modMon_kept (h : Kept s) : Kept (modMon s pasid c f) := h

theorem sweepMonitors_kept (h : Kept s) : Kept (sweepMonitors s) := h

theorem joinColour_kept (h : Kept s) : Kept (joinColour s t pasid c sc) := by
  grind [joinColour, joinVc_kept, foldl_kept]

theorem grantTo_kept (h : Kept s) : Kept (grantTo s m w) := by
  grind [grantTo, acquire_kept, joinColour_kept, modMon_kept, modT_kept]

theorem freeMonitor_kept (h : Kept s) : Kept (freeMonitor s pasid c) := by
  grind [freeMonitor, grantTo_kept, modMon_kept, sweepMonitors_kept]

theorem dropMonitor_kept (h : Kept s) : Kept (dropMonitor s pasid c) := by
  grind [dropMonitor, freeMonitor_kept, Kept]

theorem releaseColour_kept (h : Kept s) : Kept (releaseColour s pasid t c) := by
  grind [releaseColour, bumpVc_kept, freeMonitor_kept, modT_kept, Kept]

theorem leaveLists_kept (h : Kept s) : Kept (leaveLists s t) := h

theorem releaseHeld_kept (h : Kept s) : Kept (releaseHeld s t) := h

theorem startEpoch_kept (h : Kept s) : Kept (startEpoch s i) := h

theorem pin_kept (h : Kept s) : Kept (pin s i) := h

theorem touchGranule_kept (h : Kept s) : Kept (touchGranule s i g) := by
  grind [touchGranule, modWg_kept]

theorem passReed_kept (h : Kept s) : Kept (passReed s i) := by
  grind [passReed, modWg_kept, wakeCore_kept]

theorem dropWg_kept (h : Kept s) : Kept (dropWg s i keepLog) := by
  grind [dropWg, dropMonitor_kept, leaveLists_kept, modT_kept, modWg_kept, releaseHeld_kept, wakeAll_kept, foldl_kept, Kept]

theorem endWg_kept (h : Kept s) : Kept (endWg s i) := by
  grind [endWg, dropWg_kept, modGang_kept]

theorem killScoped_kept (h : Kept s) : Kept (killScoped s w scope) := by
  grind [killScoped, endWg_kept, foldl_kept, Kept]

theorem kill_kept (h : Kept s) : Kept (kill s i cause addr) := by
  grind [kill, faultRecord_kept, killScoped_kept]

theorem doRollback_kept (h : Kept s) : Kept (doRollback s i) := by
  grind [doRollback, kill_kept, modWg_kept, Kept]

theorem settleRollback_kept (h : Kept s) : Kept (settleRollback s i) := by
  grind [settleRollback, doRollback_kept, wakeAll_kept, foldl_kept]

theorem dueRollback_kept (h : Kept s) : Kept (dueRollback s i) := by
  grind [dueRollback, modWg_kept, Kept]

theorem startRollback_kept (h : Kept s) : Kept (startRollback s i) := by
  grind [startRollback, dueRollback_kept, settleRollback_kept, foldl_kept]

theorem enterHandler_kept (h : Kept s) : Kept (enterHandler s t c pc legacy mask vec) := h

theorem unreserve_kept (h : Kept s) : Kept (unreserve s t) := by
  grind [unreserve, sweepMonitors_kept, Kept]

theorem doubleTrap_kept (h : Kept s) : Kept (doubleTrap s t wg c) := by
  grind [doubleTrap, kill_kept, modT_kept]

theorem trapThread_kept (h : Kept s) : Kept (trapThread s t c pc legacy mask) := by
  grind [trapThread, doubleTrap_kept, enterHandler_kept, kill_kept, unreserve_kept]

theorem deliverTraps_kept (h : Kept s) : Kept (deliverTraps s pc legacy l) := by
  grind [deliverTraps, trapThread_kept, foldl_kept]

theorem trapWaiting_kept (h : Kept s) : Kept (trapWaiting s t c) := by
  grind [trapWaiting, modWg_kept, trapThread_kept, Kept]

theorem returnFromTrap_kept (h : Kept s) : Kept (returnFromTrap s pasid t) := by
  grind [returnFromTrap, modT_kept, releaseColour_kept, releaseHeld_kept, foldl_kept]

end Sys2Proof.Machine
end
section
/-! PROOFS of O8, part 3: translation, and the operands of words. -/

namespace Sys2Proof.Machine
-- One declaration after another, as in the Tests: less memory.
set_option Elab.async false

theorem setBlock_kept (h : Kept s) : Kept (setBlock s blk b) := by
  grind [setBlock, Kept]

theorem countErr_kept (h : Kept s) : Kept (countErr s die c) := h

theorem markDirty_kept (h : Kept s) : Kept (markDirty s blk) := by
  grind [markDirty, Kept]

theorem putBlock_kept (h : Kept s) : Kept (putBlock s blk cells b) := by
  have hb : Kept (setBlock (markDirty { s with mem := trimPad b.layout blk (setCells cells s.mem) } blk) blk b) :=
    setBlock_kept (markDirty_kept (trimPad_kept h))
  grind [putBlock, countErr_kept]

theorem writeHbm_kept (h : Kept s) : Kept (writeHbm s a bytes layout key poisoned) := by
  grind [writeHbm, putBlock_kept]

theorem writeHbmRange_kept (h : Kept s) : Kept (writeHbmRange s a bytes layout key poisoned) := by
  grind [writeHbmRange, writeHbm_kept, foldl_fst_kept]

theorem readHbm_kept (h : Kept s) : Kept (readHbm s a n layout key).1 := by
  grind [readHbm, countErr_kept]

theorem readHbmRange_kept (h : Kept s) : Kept (readHbmRange s a n layout key).1 := by
  grind [readHbmRange, readHbm_kept, foldl_fst_kept]

theorem walkFrom_kept (h : Kept s) : Kept (walkFrom s va level table).1 := by
  induction level generalizing s table with
  | zero => grind [walkFrom, readHbm_kept]
  | succ n ih => grind [walkFrom, readHbm_kept]

theorem walk_kept (h : Kept s) : Kept (walk s pasid va).1 := by
  grind [walk, walkFrom_kept]

theorem heatUp_kept (h : Kept s) : Kept (heatUp s pte write) := by
  grind [heatUp, writeHbm_kept]

theorem tlbFill_kept (h : Kept s) : Kept (tlbFill s k pasid va l pte write) := by
  grind [tlbFill, heatUp_kept, Kept]

theorem walkFill_kept (h : Kept s) : Kept (walkFill s k pasid va n).1 := by
  grind [walkFill, tlbFill_kept, walk_kept]

theorem translate_kept (h : Kept s) : Kept (translate s k pasid va n).1 := by
  grind [translate, walkFill_kept]

theorem hostXlate_kept (h : Kept s) : Kept (hostXlate s link pasid bus).1 := by
  grind [hostXlate, atsAsk_kept]

theorem raiseFault_kept (h : Kept s) : Kept (raiseFault s k pasid va write).1 := by
  grind [raiseFault, faultRecord_kept, Kept]

theorem touchRegs_kept (h : Kept s) : Kept (touchRegs s w t regs) := by
  grind [touchRegs, touchGranule_kept, foldl_kept]

theorem sendLate_kept (h : Kept s) : Kept (sendLate s t d kind words) := h

theorem retire_kept (h : Kept s) : Kept (retire s t) := h

theorem applyG_kept (h : Kept s) : Kept (applyG s retired gw) := by
  grind [applyG, modWarp_kept, foldl_kept]

theorem settleTraps_kept (h : Kept s) : Kept (settleTraps s pc legacy traps eaten kills) := by
  grind [settleTraps, deliverTraps_kept, kill_kept, startRollback_kept, foldl_kept]

theorem foldl_laneAcc_kept {α : Type} {l : List α} {f : LaneAcc → α → LaneAcc} {a : LaneAcc} (hf : ∀ a x, Kept a.s → Kept (f a x).s) (h : Kept a.s) :
    Kept (l.foldl f a).s := foldl_inv (fun a : LaneAcc => Kept a.s) _ hf _ _ h

theorem perLane_kept (h : Kept s) (hf : ∀ s w t, Kept s → Kept (f s w t).1) : Kept (perLane s pg f) := by
  refine deliverTraps_kept (settleTraps_kept (applyG_kept (foldl_laneAcc_kept (fun a tid ha => ?_) h)))
  grind [retire_kept, waitFor_kept, modT_kept]

theorem withSrcs_kept (h : Kept s) (hgo : ∀ vals pops, Kept (go vals pops).1) : Kept (withSrcs s w t l d kd extra go).1 := by
  grind [withSrcs]

theorem aluRetire_kept (h : Kept s) : Kept (aluRetire s w t l pops d o).1 := touchRegs_kept (modT_kept h)

theorem aluWord_kept (h : Kept s) : Kept (aluWord s pg l d kd f) := by
  grind [aluWord, aluRetire_kept, perLane_kept, withSrcs_kept]

theorem propRetire_kept (h : Kept s) : Kept (propRetire s w t l pops d bad o).1 := by
  grind [propRetire, aluRetire_kept]

theorem aluProp_kept (h : Kept s) : Kept (aluProp s pg l d kd f) := by
  grind [aluProp, perLane_kept, propRetire_kept, withSrcs_kept]

theorem aluLate_kept (h : Kept s) : Kept (aluLate s pg l d kd f) := by
  grind [aluLate, modT_kept, perLane_kept, sendLate_kept, touchRegs_kept, withSrcs_kept]

theorem retireIdle_kept (h : Kept s) : Kept (retireIdle s pg) := by
  grind [retireIdle, retire_kept, foldl_kept]

theorem trapAll_kept (h : Kept s) : Kept (trapAll s all traps eaten) := by
  grind [trapAll, settleTraps_kept, waitFor_kept, foldl_kept]

theorem crossLane_kept (h : Kept s) (hact : ∀ a y, Kept a → Kept (act a y)) : Kept (crossLane s pg l d kd prop check act) := by
  grind [crossLane, retireIdle_kept, trapAll_kept, waitFor_kept, foldl_kept]

theorem crossWrite_kept (h : Kept s) : Kept (crossWrite s l d lanes f) := by
  grind [crossWrite, aluRetire_kept, retire_kept, applyG_kept, foldl_laneAcc_kept]

theorem perGroupWith_kept (h : Kept s) (hact : ∀ a y z u v, Kept a → Kept (act a y z u v).1) : Kept (perGroupWith s pg extra l d kd ad act) := by
  grind [perGroupWith, modT_kept, retire_kept, retireIdle_kept, settleTraps_kept, touchRegs_kept, trapAll_kept, waitFor_kept, foldl_kept]

theorem perGroup_kept (h : Kept s) (hact : ∀ a y z u v, Kept a → Kept (act a y z u v).1) : Kept (perGroup s pg l d kd ad act) := by
  grind [perGroup, perGroupWith_kept]

theorem writeAll_kept (h : Kept s) : Kept (writeAll s w tids d words) := by
  grind [writeAll, applyG_kept, modT_kept, touchRegs_kept, foldl_kept]

end Sys2Proof.Machine
end
section
/-! PROOFS of O8, part 4: arithmetic and the cross-lane words. -/

namespace Sys2Proof.Machine
-- One declaration after another, as in the Tests: less memory.
set_option Elab.async false

theorem alu1_kept (h : Kept s) : Kept (alu1 s o w64 f) := by
  grind [alu1, aluWord_kept]

theorem alu2_kept (h : Kept s) : Kept (alu2 s o w64 f) := by
  grind [alu2, aluWord_kept]

theorem alu3_kept (h : Kept s) : Kept (alu3 s o w64 f) := by
  grind [alu3, aluWord_kept]

theorem aluShift_kept (h : Kept s) : Kept (aluShift s o w64 f) := by
  grind [aluShift, aluWord_kept]

theorem aluPacked_kept (h : Kept s) : Kept (aluPacked s o f) := by
  grind [aluPacked, aluWord_kept]

theorem execNop_kept (h : Kept s) : KeptO (execNop pg s) := by
  grind [execNop, perLane_kept, withSrcs_kept, keptO_next]

theorem execMov_kept (h : Kept s) : KeptO (execMov o w64 s) := by
  grind [execMov, aluProp_kept, keptO_next]

theorem execIadd_kept (h : Kept s) : KeptO (execIadd o w64 u sat s) := by
  grind [execIadd, alu2_kept, keptO_next]

theorem execIsub_kept (h : Kept s) : KeptO (execIsub o w64 u sat s) := by
  grind [execIsub, alu2_kept, keptO_next]

theorem carryWord_kept (h : Kept s) : Kept (carryWord s o n w64 f) := by
  grind [carryWord, aluWord_kept]

theorem execIaddc_kept (h : Kept s) : KeptO (execIaddc o n w64 s) := by
  grind [execIaddc, carryWord_kept, keptO_next]

theorem execIsubb_kept (h : Kept s) : KeptO (execIsubb o n w64 s) := by
  grind [execIsubb, carryWord_kept, keptO_next]

theorem execIneg_kept (h : Kept s) : KeptO (execIneg o w64 sat s) := by
  grind [execIneg, alu1_kept, keptO_next]

theorem execIabs_kept (h : Kept s) : KeptO (execIabs o w64 sat s) := by
  grind [execIabs, alu1_kept, keptO_next]

theorem execImul_kept (h : Kept s) : KeptO (execImul o w64 s) := by
  grind [execImul, alu2_kept, keptO_next]

theorem execImulhi_kept (h : Kept s) : KeptO (execImulhi o w64 u s) := by
  grind [execImulhi, alu2_kept, keptO_next]

theorem execImad_kept (h : Kept s) : KeptO (execImad o w64 s) := by
  grind [execImad, alu3_kept, keptO_next]

theorem divWord_kept (h : Kept s) : Kept (divWord s o w64 f) := by
  grind [divWord, aluLate_kept]

theorem execIdiv_kept (h : Kept s) : KeptO (execIdiv o w64 u s) := by
  grind [execIdiv, divWord_kept, keptO_next]

theorem execIrem_kept (h : Kept s) : KeptO (execIrem o w64 u s) := by
  grind [execIrem, divWord_kept, keptO_next]

theorem execImin_kept (h : Kept s) : KeptO (execImin o w64 u s) := by
  grind [execImin, alu2_kept, keptO_next]

theorem execImax_kept (h : Kept s) : KeptO (execImax o w64 u s) := by
  grind [execImax, alu2_kept, keptO_next]

theorem execIcmp_kept (h : Kept s) : KeptO (execIcmp o c w64 u s) := by
  grind [execIcmp, aluWord_kept, keptO_next]

theorem execAnd_kept (h : Kept s) : KeptO (execAnd o w64 s) := by
  grind [execAnd, alu2_kept, keptO_next]

theorem execOr_kept (h : Kept s) : KeptO (execOr o w64 s) := by
  grind [execOr, alu2_kept, keptO_next]

theorem execXor_kept (h : Kept s) : KeptO (execXor o w64 s) := by
  grind [execXor, alu2_kept, keptO_next]

theorem execNot_kept (h : Kept s) : KeptO (execNot o w64 s) := by
  grind [execNot, alu1_kept, keptO_next]

theorem execAndn_kept (h : Kept s) : KeptO (execAndn o w64 s) := by
  grind [execAndn, alu2_kept, keptO_next]

theorem execBool3_kept (h : Kept s) : KeptO (execBool3 o t w64 s) := by
  grind [execBool3, alu3_kept, keptO_next]

theorem execShl_kept (h : Kept s) : KeptO (execShl o w64 s) := by
  grind [execShl, aluShift_kept, keptO_next]

theorem execShr_kept (h : Kept s) : KeptO (execShr o w64 s) := by
  grind [execShr, aluShift_kept, keptO_next]

theorem execShra_kept (h : Kept s) : KeptO (execShra o w64 s) := by
  grind [execShra, aluShift_kept, keptO_next]

theorem execRotl_kept (h : Kept s) : KeptO (execRotl o w64 s) := by
  grind [execRotl, aluShift_kept, keptO_next]

theorem execFunnel_kept (h : Kept s) : KeptO (execFunnel o l w64 s) := by
  grind [execFunnel, aluWord_kept, keptO_next]

theorem execBfe_kept (h : Kept s) : KeptO (execBfe o w64 u s) := by
  grind [execBfe, aluWord_kept, keptO_next]

theorem execBfi_kept (h : Kept s) : KeptO (execBfi o w64 s) := by
  grind [execBfi, aluWord_kept, keptO_next]

theorem execPopc_kept (h : Kept s) : KeptO (execPopc o w64 s) := by
  grind [execPopc, alu1_kept, keptO_next]

theorem execClz_kept (h : Kept s) : KeptO (execClz o w64 s) := by
  grind [execClz, alu1_kept, keptO_next]

theorem execCtz_kept (h : Kept s) : KeptO (execCtz o w64 s) := by
  grind [execCtz, alu1_kept, keptO_next]

theorem execBrev_kept (h : Kept s) : KeptO (execBrev o w64 s) := by
  grind [execBrev, alu1_kept, keptO_next]

theorem execBpick_kept (h : Kept s) : KeptO (execBpick o s) := by
  grind [execBpick, alu3_kept, keptO_next]

theorem execLea_kept (h : Kept s) : KeptO (execLea o k u s) := by
  grind [execLea, aluWord_kept, keptO_next]

theorem execSel_kept (h : Kept s) : KeptO (execSel o n neg w64 s) := by
  grind [execSel, aluWord_kept, keptO_next]

theorem execVadd2_kept (h : Kept s) : KeptO (execVadd2 o u sat s) := by
  grind [execVadd2, aluPacked_kept, keptO_next]

theorem execVsub2_kept (h : Kept s) : KeptO (execVsub2 o u sat s) := by
  grind [execVsub2, aluPacked_kept, keptO_next]

theorem execVmin2_kept (h : Kept s) : KeptO (execVmin2 o u s) := by
  grind [execVmin2, aluPacked_kept, keptO_next]

theorem execVmax2_kept (h : Kept s) : KeptO (execVmax2 o u s) := by
  grind [execVmax2, aluPacked_kept, keptO_next]

theorem execAcsel2_kept (h : Kept s) : KeptO (execAcsel2 o n s) := by
  grind [execAcsel2, aluWord_kept, keptO_next]

theorem dotWord_kept (h : Kept s) : Kept (dotWord s o u sat k eb n) := by
  grind [dotWord, aluWord_kept]

theorem execDot4_kept (h : Kept s) : KeptO (execDot4 o u sat s) := by
  grind [execDot4, dotWord_kept, keptO_next]

theorem execDot2_kept (h : Kept s) : KeptO (execDot2 o u sat s) := by
  grind [execDot2, dotWord_kept, keptO_next]

theorem execCvti_kept (h : Kept s) : KeptO (execCvti o src dst du su sat s) := by
  grind [execCvti, aluWord_kept, keptO_next]

theorem execPbool3_kept (h : Kept s) : KeptO (execPbool3 pg pd pa pb pc t s) := by
  grind [execPbool3, aluWord_kept, keptO_next]

theorem execPtov_kept (h : Kept s) : KeptO (execPtov o n c w64 s) := by
  grind [execPtov, aluWord_kept, keptO_next]

theorem execVtop_kept (h : Kept s) : KeptO (execVtop o c w64 s) := by
  grind [execVtop, aluWord_kept, keptO_next]

theorem floatWord_kept (h : Kept s) : Kept (floatWord s pg d srcs x rnd mods o) := by
  grind [floatWord, aluWord_kept]

theorem floatLate_kept (h : Kept s) : Kept (floatLate s pg d srcs x rnd mods o) := by
  grind [floatLate, aluLate_kept]

theorem scalar2_kept (h : Kept s) : Kept (scalar2 s o m f) := by
  grind [scalar2, floatWord_kept]

theorem execFadd_kept (h : Kept s) : KeptO (execFadd o m s) := by
  grind [execFadd, scalar2_kept, keptO_next]

theorem execFsub_kept (h : Kept s) : KeptO (execFsub o m s) := by
  grind [execFsub, scalar2_kept, keptO_next]

theorem execFmul_kept (h : Kept s) : KeptO (execFmul o m s) := by
  grind [execFmul, scalar2_kept, keptO_next]

theorem execFfma_kept (h : Kept s) : KeptO (execFfma o m s) := by
  grind [execFfma, floatWord_kept, keptO_next]

theorem execFmin_kept (h : Kept s) : KeptO (execFmin o m s) := by
  grind [execFmin, scalar2_kept, keptO_next]

theorem execFmax_kept (h : Kept s) : KeptO (execFmax o m s) := by
  grind [execFmax, scalar2_kept, keptO_next]

theorem execFminp_kept (h : Kept s) : KeptO (execFminp o m s) := by
  grind [execFminp, scalar2_kept, keptO_next]

theorem execFmaxp_kept (h : Kept s) : KeptO (execFmaxp o m s) := by
  grind [execFmaxp, scalar2_kept, keptO_next]

theorem execFcmp_kept (h : Kept s) : KeptO (execFcmp o c m s) := by
  grind [execFcmp, aluWord_kept, keptO_next]

theorem execFclass_kept (h : Kept s) : KeptO (execFclass o fmt s) := by
  grind [execFclass, aluWord_kept, keptO_next]

theorem execFcopysgn_kept (h : Kept s) : KeptO (execFcopysgn o fmt s) := by
  grind [execFcopysgn, floatWord_kept, keptO_next]

theorem execFrnd_kept (h : Kept s) : KeptO (execFrnd o m s) := by
  grind [execFrnd, floatWord_kept, keptO_next]

theorem execFdiv_kept (h : Kept s) : KeptO (execFdiv o m s) := by
  grind [execFdiv, floatLate_kept, keptO_next]

theorem specialWord_kept (h : Kept s) : Kept (specialWord s o m f) := by
  grind [specialWord, floatLate_kept]

theorem execFsqrt_kept (h : Kept s) : KeptO (execFsqrt o m s) := by
  grind [execFsqrt, specialWord_kept, keptO_next]

theorem execFrcp_kept (h : Kept s) : KeptO (execFrcp o m s) := by
  grind [execFrcp, specialWord_kept, keptO_next]

theorem execFrsq_kept (h : Kept s) : KeptO (execFrsq o m s) := by
  grind [execFrsq, specialWord_kept, keptO_next]

theorem execFexp2_kept (h : Kept s) : KeptO (execFexp2 o m s) := by
  grind [execFexp2, specialWord_kept, keptO_next]

theorem execFlog2_kept (h : Kept s) : KeptO (execFlog2 o m s) := by
  grind [execFlog2, specialWord_kept, keptO_next]

theorem execFsinpi_kept (h : Kept s) : KeptO (execFsinpi o m s) := by
  grind [execFsinpi, specialWord_kept, keptO_next]

theorem execFcospi_kept (h : Kept s) : KeptO (execFcospi o m s) := by
  grind [execFcospi, specialWord_kept, keptO_next]

theorem execFtanh_kept (h : Kept s) : KeptO (execFtanh o m s) := by
  grind [execFtanh, specialWord_kept, keptO_next]

theorem halves2_kept (h : Kept s) : Kept (halves2 s o m f) := by
  grind [halves2, floatWord_kept]

theorem execHadd2_kept (h : Kept s) : KeptO (execHadd2 o m s) := by
  grind [execHadd2, halves2_kept, keptO_next]

theorem execHmul2_kept (h : Kept s) : KeptO (execHmul2 o m s) := by
  grind [execHmul2, halves2_kept, keptO_next]

theorem execHfma2_kept (h : Kept s) : KeptO (execHfma2 o m s) := by
  grind [execHfma2, floatWord_kept, keptO_next]

theorem execHmin2_kept (h : Kept s) : KeptO (execHmin2 o m s) := by
  grind [execHmin2, halves2_kept, keptO_next]

theorem execHmax2_kept (h : Kept s) : KeptO (execHmax2 o m s) := by
  grind [execHmax2, halves2_kept, keptO_next]

theorem execHdot2_kept (h : Kept s) : KeptO (execHdot2 o m s) := by
  grind [execHdot2, aluWord_kept, keptO_next]

theorem execDadd_kept (h : Kept s) : KeptO (execDadd o m s) := by
  grind [execDadd, floatLate_kept, keptO_next]

theorem execDmul_kept (h : Kept s) : KeptO (execDmul o m s) := by
  grind [execDmul, floatLate_kept, keptO_next]

theorem execDfma_kept (h : Kept s) : KeptO (execDfma o m s) := by
  grind [execDfma, floatLate_kept, keptO_next]

theorem aluWordPre_kept (h : Kept s) : Kept (aluWordPre s pg l d kd pre f) := by
  grind [aluWordPre, aluRetire_kept, perLane_kept, withSrcs_kept]

theorem execFcvt_kept (h : Kept s) : KeptO (execFcvt o dst src rnd s) := by
  grind [execFcvt, aluWordPre_kept, keptO_next]

theorem execF2i_kept (h : Kept s) : KeptO (execF2i o src rnd d64 du s) := by
  grind [execF2i, aluWord_kept, keptO_next]

theorem execI2f_kept (h : Kept s) : KeptO (execI2f o dst rnd s64 su s) := by
  grind [execI2f, aluWord_kept, keptO_next]

theorem convWord_kept (h : Kept s) : Kept (convWord s o desc quant f) := by
  grind [convWord, aluWordPre_kept]

theorem execCvtq_kept (h : Kept s) : KeptO (execCvtq o desc s) := by
  grind [execCvtq, convWord_kept, keptO_next]

theorem execCvtdq_kept (h : Kept s) : KeptO (execCvtdq o desc s) := by
  grind [execCvtdq, convWord_kept, keptO_next]

theorem execPairWord_kept (h : Kept s) : KeptO (execPairWord h0 h1 s) := by
  grind [execPairWord, modT_kept, perLane_kept, touchRegs_kept, withSrcs_kept, keptO_next]

theorem crossMove_kept (h : Kept s) : Kept (crossMove s l d lanes f) := by
  unfold crossMove
  grind [crossWrite_kept, trapAll_kept]

theorem execLanex_kept (h : Kept s) : KeptO (execLanex o mode off w64 s) := by
  unfold execLanex
  grind [crossLane_kept, crossMove_kept, keptO_next]

theorem execBcastl_kept (h : Kept s) : KeptO (execBcastl o b w64 s) := by
  unfold execBcastl
  grind [crossLane_kept, crossMove_kept, keptO_next]

theorem execPcensus_kept (h : Kept s) : KeptO (execPcensus pg c n neg s) := by
  unfold execPcensus
  grind [crossLane_kept, crossWrite_kept, keptO_next]

theorem execActmask_kept (h : Kept s) : KeptO (execActmask pg d s) := by
  unfold execActmask
  grind [crossLane_kept, crossWrite_kept, keptO_next]

theorem execMatchL_kept (h : Kept s) : KeptO (execMatchL o f w64 s) := by
  unfold execMatchL
  grind [crossLane_kept, crossWrite_kept, keptO_next]

theorem execRedls_kept (h : Kept s) : KeptO (execRedls o op rnd u w64 s) := by
  unfold execRedls
  grind [crossLane_kept, crossWrite_kept, keptO_next]

theorem execScan_kept (h : Kept s) : KeptO (execScan o op rnd u excl w64 s) := by
  unfold execScan
  grind [crossLane_kept, crossWrite_kept, keptO_next]

theorem execRedidx_kept (h : Kept s) : KeptO (execRedidx o mx f u s) := by
  unfold execRedidx
  grind [crossLane_kept, crossWrite_kept, keptO_next]

theorem execAmax_kept (h : Kept s) : KeptO (execAmax o fmt lanes_ s) := by
  unfold execAmax
  grind [aluWord_kept, crossLane_kept, crossWrite_kept, keptO_next]

theorem execTmov_kept (h : Kept s) : KeptO (execTmov o js jd w64 s) := by
  unfold execTmov
  grind [modT_kept, perLane_kept, propRetire_kept, retire_kept, touchRegs_kept, withSrcs_kept, keptO_next]

end Sys2Proof.Machine
end
section
/-! PROOFS of O8, part 5: the fabric, the firmware and the registers. -/

namespace Sys2Proof.Machine
-- One declaration after another, as in the Tests: less memory.
set_option Elab.async false

theorem sendFlit_kept (h : Kept s) : Kept (sendFlit s p vc kind body) := by
  grind [sendFlit, modPort_kept]

theorem sendLater_kept (h : Kept s) : Kept (sendLater s p vc kind body) := by
  grind [sendLater, modPort_kept]

theorem sendTraining_kept (h : Kept s) : Kept (sendTraining s p body) := by
  grind [sendTraining, modPort_kept]

theorem sendRequest_kept (h : Kept s) : Kept (sendRequest s p vc kind body r) := by
  grind [sendRequest, modPort_kept, sendFlit_kept]

theorem readPeer_kept (h : Kept s) : Kept (readPeer s who m off n keep).1 := by
  grind [readPeer, newId_kept, sendRequest_kept, Kept]

theorem dropReads_kept (h : Kept s) : Kept (dropReads s who) := h

theorem answerRead_kept (h : Kept s) : Kept (answerRead s i data) := h

theorem noData_kept (h : Kept s) : Kept (noData s pol n).1 := by
  grind [noData, freeValue_kept, foldl_fst_kept]

theorem sev3Words_kept (h : Kept s) : Kept (sev3Words s w n).1 := by
  grind [sev3Words, noData_kept]

theorem structLost_kept (h : Kept s) : Kept (structLost s k n loc).1 := by
  grind [structLost, noData_kept]

theorem structData_kept (h : Kept s) : Kept (structData s k key loc r).1 := by
  grind [structData, faultRecord_kept]

theorem structRead_kept (h : Kept s) : Kept (structRead s k va n).1 := by
  grind [structRead, hostXlate_kept, readHbmRange_kept, readPeer_kept, structData_kept, structLost_kept, translate_kept]

theorem fillPlace_kept (h : Kept s) : Kept (fillPlace s i ws numerr) := h

theorem settlePlace_kept (h : Kept s) : Kept (settlePlace s i) := by
  grind [settlePlace, fillPlace_kept]

theorem loadCame_kept (h : Kept s) : Kept (loadCame s i) := by
  grind [loadCame, settlePlace_kept, Kept]

theorem killOrRoll_kept (h : Kept s) : Kept (killOrRoll s w cause addr) := by
  grind [killOrRoll, kill_kept, startRollback_kept]

theorem failLoad_kept (h : Kept s) : Kept (failLoad s i) := by
  unfold failLoad
  grind [killOrRoll_kept, loadCame_kept, sev3Words_kept, Kept]

theorem reportDomain_kept (h : Kept s) : Kept (reportDomain s pasid t wg code addr) := by
  grind [reportDomain, faultRecord_kept, kill_kept]

theorem failRed_kept (h : Kept s) : Kept (failRed s t addr) := by
  grind [failRed, killOrRoll_kept, modT_kept]

theorem failXred_kept (h : Kept s) : Kept (failXred s i addr) := h

theorem failStore_kept (h : Kept s) : Kept (failStore s i) := by
  grind [failStore, failRed_kept, failXred_kept, faultRecord_kept, reportDomain_kept, Kept]

theorem failPeer_kept (h : Kept s) : Kept (failPeer s r) := by
  unfold failPeer
  grind [answerRead_kept, failLoad_kept, failStore_kept, Kept]

theorem failPort_kept (h : Kept s) : Kept (failPort s p) := by
  grind [failPort, failPeer_kept, modPort_kept, wakeAll_kept, foldl_kept]

theorem toDetect_kept (h : Kept s) : Kept (toDetect s p) := by
  grind [toDetect, modPort_kept]

theorem loseLink_kept (h : Kept s) : Kept (loseLink s p) := by
  grind [loseLink, failPort_kept, toDetect_kept]

theorem retrain_kept (h : Kept s) : Kept (retrain s p) := by
  grind [retrain, failPort_kept, modPort_kept]

theorem writeVlctlFields_kept (h : Kept s) : Kept (writeVlctlFields s p v) := by
  grind [writeVlctlFields, failPort_kept, modPort_kept]

theorem writeVlctl_kept (h : Kept s) : Kept (writeVlctl s p v) := by
  grind [writeVlctl, retrain_kept, writeVlctlFields_kept]

theorem setTrial_kept (h : Kept s) : Kept (setTrial s t) := by
  grind [setTrial, moduleEvent_kept, Kept]

theorem writeFwctl_kept (h : Kept s) : Kept (writeFwctl s v) := by
  grind [writeFwctl, Kept]

theorem settlePatch_kept (h : Kept s) : Kept (settlePatch s) := by
  grind [settlePatch, setTrial_kept, Kept]

theorem writeFwcommit_kept (h : Kept s) : Kept (writeFwcommit s v monitor) := by
  grind [writeFwcommit, setTrial_kept, settlePatch_kept, Kept]

theorem execFwcommit_kept (h : Kept s) : KeptO (execFwcommit w s) := by
  grind [execFwcommit, writeFwcommit_kept, keptO_next]

theorem execFirmwareUpdateRequest_kept (h : Kept s) : KeptO (execFirmwareUpdateRequest image s) := by
  grind [execFirmwareUpdateRequest, setTrial_kept, Kept, keptO_next]

theorem restartQueues_kept (h : Kept s) : Kept (restartQueues s held) := by
  grind [restartQueues, modQueue_kept, foldl_kept]

theorem replayHandoff_kept (h : Kept s) : Kept (replayHandoff s) := by
  grind [replayHandoff, restartQueues_kept, Kept]

theorem switchBack_kept (h : Kept s) : Kept (switchBack s) := by
  grind [switchBack, replayHandoff_kept, setTrial_kept, Kept]

theorem switchImages_kept (h : Kept s) : Kept (switchImages s) := by
  grind [switchImages, setTrial_kept, switchBack_kept, Kept]

theorem execQuiescentPoint_kept (h : Kept s) : KeptO (execQuiescentPoint s) := by
  grind [execQuiescentPoint, switchImages_kept, keptO_next]

theorem execQuiescentTimeout_kept (h : Kept s) : KeptO (execQuiescentTimeout s) := by
  grind [execQuiescentTimeout, switchImages_kept, Kept, keptO_next]

theorem stopCommands_kept (h : Kept s) : Kept (stopCommands s) := by
  grind [stopCommands, setTrial_kept, Kept]

theorem execTrialWatchdog_kept (h : Kept s) : KeptO (execTrialWatchdog s) := by
  grind [execTrialWatchdog, stopCommands_kept, Kept, keptO_next]

theorem endTrial_kept (h : Kept s) : Kept (endTrial s) := by
  grind [endTrial, stopCommands_kept, switchBack_kept]

theorem execMonitorPatchRequest_kept (h : Kept s) : KeptO (execMonitorPatchRequest image s) := by
  grind [execMonitorPatchRequest, setTrial_kept, Kept, keptO_next]

theorem execPatchConfirmation_kept (h : Kept s) : KeptO (execPatchConfirmation build sigEd sigMl s) := by
  grind [execPatchConfirmation, settlePatch_kept, Kept, keptO_next]

theorem execSpdmRequest_kept (h : Kept s) : KeptO (execSpdmRequest link request s) := by
  grind [execSpdmRequest, Kept, keptO_next]

theorem writeHeatctl_kept (h : Kept s) : Kept (writeHeatctl s v) := by
  grind [writeHeatctl, Kept]

theorem writeMemerr_kept (h : Kept s) : Kept (writeMemerr s die v) := by
  grind [writeMemerr, Kept]

theorem regWrite_kept (h : Kept s) : Kept (regWrite s off v monitor) := by
  grind [regWrite, writeFwcommit_kept, writeFwctl_kept, writeHeatctl_kept, writeMemerr_kept, writeVlctl_kept]

theorem regWriteBytes_kept (h : Kept s) : Kept (regWriteBytes s off l monitor) := by
  grind [regWriteBytes, regWrite_kept, foldl_kept]

end Sys2Proof.Machine
end
section
/-! PROOFS of O8, part 6: the accesses to memory. -/

namespace Sys2Proof.Machine
-- One declaration after another, as in the Tests: less memory.
set_option Elab.async false

theorem accXlate_kept (h : Kept s) : Kept (accXlate s w t va r wr shadow).1 := by
  grind [accXlate, translate_kept]

theorem hold_kept (h : Kept s) : Kept (hold s w t va write).1 := by
  grind [hold, raiseFault_kept]

theorem syncRead_kept (h : Kept s) : Kept (syncRead s t addr acq sc) := by
  grind [syncRead, joinVc_kept, foldl_kept, Kept]

theorem syncWrite_kept (h : Kept s) : Kept (syncWrite s t addr rel rmw sc) := by
  grind [syncWrite, bumpVc_kept, Kept]

theorem syncClear_kept (h : Kept s) : Kept (syncClear s a n) := h

theorem storeOrder_kept (h : Kept s) : Kept (storeOrder s t ord sc loc) := by
  grind [storeOrder, syncWrite_kept]

theorem structSync_kept (h : Kept s) : Kept (structSync s t numerr loc) := by
  grind [structSync, acquire_kept, modT_kept, syncRead_kept]

theorem structStop_kept (h : Kept s) : Kept (structStop s w t va arg₁).1 := by
  unfold structStop
  grind [hold_kept]

theorem clbFill_kept (h : Kept s) : Kept (clbFill s cl pasid c e) := h

theorem clbRead_kept (h : Kept s) : Kept (clbRead s w t c va).1 := by
  grind [clbRead, clbFill_kept, structRead_kept, structStop_kept, structSync_kept]

theorem pushHeld_kept (h : Kept s) : Kept (pushHeld s t pasid c sc) := by
  grind [pushHeld, acquire_kept, joinColour_kept, modT_kept]

theorem holdOne_kept (h : Kept s) : Kept (holdOne s w t c va).1 := by
  unfold holdOne
  repeat' split
  all_goals grind [clbRead_kept, modMon_kept, pin_kept, pushHeld_kept, Kept]

theorem holdAll_kept (h : Kept s) : Kept (holdAll s w t va l).1 := by
  induction l generalizing s with
  | nil => exact h
  | cons c l ih => grind [holdAll, holdOne_kept]

theorem purgeRaces_kept (h : Kept s) : Kept (purgeRaces s pasid) := h

theorem raceWords_kept (h : Kept s) : Kept (raceWords s k pasid region va write me vc l).1 := by
  induction l generalizing s with
  | nil => exact h
  | cons wd l ih => grind [raceWords, purgeRaces_kept, Kept]

theorem raceThread_kept (h : Kept s) : Kept (raceThread s w t va a n write).1 := by
  grind [raceThread, raceWords_kept]

theorem writeCanon_kept (h : Kept s) : Kept (writeCanon s a bytes layout key poison) := by
  grind [writeCanon, syncClear_kept, writeHbmRange_kept, Kept, Memory.wf_setCells]

theorem performStore_kept (h : Kept s) : Kept (performStore s x) := by
  grind [performStore, writeCanon_kept, Kept]

theorem drainOverlap_kept (h : Kept s) : Kept (drainOverlap s k a n) := by
  grind [drainOverlap, performStore_kept, foldl_kept]

theorem l1Update_kept (h : Kept s) : Kept (l1Update s k a bytes poison) := h

theorem l1Fill_kept (h : Kept s) : Kept (l1Fill s k blk data first) := by
  grind [l1Fill, Kept]

theorem readPa_kept (h : Kept s) : Kept (readPa s w t l pa n va poc cp).1 := by
  grind [readPa, drainOverlap_kept, hold_kept, hostXlate_kept, l1Fill_kept, readHbmRange_kept]

theorem applySev_kept (h : Kept s) : Kept (applySev s w key va shadow r).1 := by
  grind [applySev, faultRecord_kept]

theorem applyNoData_kept (h : Kept s) : Kept (applyNoData s w va n).1 := by
  grind [applyNoData, sev3Words_kept]

theorem peerData_kept (h : Kept s) : Kept (peerData s w t m off n va).1 := by
  grind [peerData, applyNoData_kept, readPeer_kept]

theorem reach_kept (h : Kept s) : Kept (reach s w pa va wr).1 := by
  grind [reach, hostXlate_kept]

theorem putStore_kept (h : Kept s) : Kept (putStore s w t layout key pa va bytes poison now) := by
  grind [putStore, drainOverlap_kept, l1Update_kept, newId_kept, regWriteBytes_kept, sendRequest_kept, writeCanon_kept, Kept]

theorem lostStore_kept (h : Kept s) : Kept (lostStore s w t pa va).1 := by
  grind [lostStore, modT_kept, reportDomain_kept]

theorem enterLog_kept (h : Kept s) : Kept (enterLog s w t va op sc ord fault).1 := by
  grind [enterLog, newId_kept, raiseFault_kept, Kept]

theorem queueValue_kept (h : Kept s) : Kept (queueValue s w t words numerr atomic load) := by
  grind [queueValue, Kept]

theorem takeValue_kept (h : Kept s) (he : takeValue s w t = some out) : Kept out.1 := by
  simp only [takeValue] at he
  split at he
  · cases he
  · obtain ⟨ws, -, rfl⟩ := Option.map_eq_some_iff.mp he
    exact h

theorem takeAtom_kept (h : Kept s) : Kept (takeAtom s w v) := by
  grind [takeAtom, Kept]

theorem compareEnter_kept (h : Kept s) (he : compareEnter s w t g c e = some out) : Kept out := by
  grind [compareEnter, modT_kept, newId_kept, Kept]

theorem compareMatch_kept (h : Kept s) : Kept (compareMatch s w t g).1 := by
  grind [compareMatch, modT_kept, wakeAll_kept, Kept]

theorem sendStore_kept (h : Kept s) : Kept (sendStore s w t layout key pa va bytes poison now sc ord).1 := by
  grind [sendStore, enterLog_kept, lostStore_kept, putStore_kept, reach_kept, storeOrder_kept]

theorem commitStore_kept (h : Kept s) : Kept (commitStore s w t l pa va bytes poison now c sc ord).1 := by
  grind [commitStore, compareEnter_kept, sendStore_kept]

theorem commitLog_kept (h : Kept s) : Kept (commitLog s w t va width data op c sc ord fault).1 := by
  grind [commitLog, compareEnter_kept, enterLog_kept]

theorem performHeldStore_kept (h : Kept s) : Kept (performHeldStore s w ct e).1 := by
  unfold performHeldStore
  grind [enterLog_kept, sendStore_kept]

theorem droneStore_kept (h : Kept s) : Kept (droneStore s w t va width data).1 := by
  grind [droneStore, compareMatch_kept, performHeldStore_kept, Kept]

theorem readPaRange_kept (h : Kept s) : Kept (readPaRange s w t l pa n va poc cp).1 := by
  grind [readPaRange, readPa_kept, foldl_fst_kept]

end Sys2Proof.Machine
end
section
/-! PROOFS of O8, part 7: scratch memory, barriers and control. -/

namespace Sys2Proof.Machine
-- One declaration after another, as in the Tests: less memory.
set_option Elab.async false

theorem aliasWrite_kept (h : Kept s) : Kept (aliasWrite s w comp warp n lane words poison) := by
  grind [aliasWrite, modT_kept, touchGranule_kept, foldl_kept]

theorem padWrite_kept (h : Kept s) : Kept (padWrite s i a bytes poison local_) := by
  grind [padWrite, modWg_kept, touchGranule_kept]

theorem padWriteRange_kept (h : Kept s) : Kept (padWriteRange s i a bytes poison local_) := by
  grind [padWriteRange, padWrite_kept, foldl_fst_kept]

theorem putChunk_kept (h : Kept s) : Kept (putChunk s i c d) := by
  grind [putChunk, modWg_kept, padWrite_kept, foldl_kept]

theorem chunkData_kept (h : Kept s) : Kept (chunkData s w t l pa va).1 := by
  grind [chunkData, applyNoData_kept, applySev_kept, peerData_kept, readPaRange_kept]

theorem fillChunk_kept (h : Kept s) : Kept (fillChunk s w t a).1 := by
  unfold fillChunk
  grind [accXlate_kept, chunkData_kept, hold_kept, modT_kept, putChunk_kept, Kept]

theorem chunkWritable_kept (h : Kept s) : Kept (chunkWritable s w t a).1 := by
  grind [chunkWritable, accXlate_kept, hold_kept]

theorem writeBackRun_kept (h : Kept s) : Kept (writeBackRun s w t va bytes poison).1 := by
  grind [writeBackRun, accXlate_kept, commitLog_kept, commitStore_kept, droneStore_kept, pin_kept]

theorem writeBackChunk_kept (h : Kept s) : Kept (writeBackChunk s i t b c).1 := by
  grind [writeBackChunk, modWg_kept, pin_kept, writeBackRun_kept, foldl_fst_kept]

theorem writeBackBinding_kept (h : Kept s) : Kept (writeBackBinding s i t b).1 := by
  grind [writeBackBinding, writeBackChunk_kept, foldl_fst_kept]

theorem scrRead_kept (h : Kept s) : Kept (scrRead s w t a n).1 := by
  grind [scrRead, fillChunk_kept]

theorem scrWrite_kept (h : Kept s) : Kept (scrWrite s w t a bytes poison).1 := by
  grind [scrWrite, aliasWrite_kept, chunkWritable_kept, fillChunk_kept, padWriteRange_kept]

theorem returnAddr_kept (h : Kept s) : Kept (returnAddr s w t j).1 := by
  grind [returnAddr, scrRead_kept]

theorem barDepart_kept (h : Kept s) : Kept (barDepart s i vc) := by
  grind [barDepart, acquire_kept, applyG_kept, modWg_kept, startEpoch_kept, Kept]

theorem redundancyMismatch_kept (h : Kept s) : Kept (redundancyMismatch s w) := by
  grind [redundancyMismatch, kill_kept, startRollback_kept]

theorem barTry_kept (h : Kept s) : Kept (barTry s i) := by
  grind [barTry, barDepart_kept, redundancyMismatch_kept, foldl_kept]

theorem barAll_kept (h : Kept s) : Kept (barAll s) := by
  grind [barAll, barTry_kept, foldl_kept]

theorem arrive_kept (h : Kept s) : Kept (arrive s w t b val).1 := by
  grind [arrive, modWg_kept, waitFor_kept]

theorem barpCompare_kept (h : Kept s) : Kept (barpCompare s w t width val).1 := by
  grind [barpCompare, compareEnter_kept, compareMatch_kept]

theorem barWord_kept (h : Kept s) : Kept (barWord s pg k) := by
  grind [barWord, arrive_kept, barAll_kept, perLane_kept, withSrcs_kept]

theorem execBar_kept (h : Kept s) : KeptO (execBar pg s) := by
  grind [execBar, barWord_kept, keptO_next]

theorem execGbar_kept (h : Kept s) : KeptO (execGbar pg s) := by
  grind [execGbar, barWord_kept, keptO_next]

theorem execCkpt_kept (h : Kept s) : KeptO (execCkpt pg s) := by
  grind [execCkpt, barWord_kept, keptO_next]

theorem execBarp_kept (h : Kept s) : KeptO (execBarp o op rnd u w64 s) := by
  grind [execBarp, arrive_kept, barAll_kept, barpCompare_kept, modT_kept, perLane_kept, withSrcs_kept, keptO_next]

theorem controlWord_kept (h : Kept s) (hf : ∀ a y z u, Kept a → Kept (f a y z u).1) : Kept (controlWord s pg l f) := by
  grind [controlWord, modT_kept, perLane_kept, touchRegs_kept, withSrcs_kept]

theorem execBra_kept (h : Kept s) : KeptO (execBra pg mode a off s) := by
  grind [execBra, controlWord_kept, keptO_next]

theorem execBrx_kept (h : Kept s) : KeptO (execBrx pg tab a off s) := by
  grind [execBrx, controlWord_kept, keptO_next]

theorem callTo_kept (h : Kept s) : Kept (callTo s w t target).1 := by
  grind [callTo, modT_kept, scrWrite_kept]

theorem execCall_kept (h : Kept s) : KeptO (execCall pg off s) := by
  grind [execCall, callTo_kept, controlWord_kept, keptO_next]

theorem execCallx_kept (h : Kept s) : KeptO (execCallx pg tab a off s) := by
  grind [execCallx, callTo_kept, controlWord_kept, keptO_next]

theorem releaseAll_kept (h : Kept s) : Kept (releaseAll s w t cs) := by
  grind [releaseAll, pin_kept, releaseColour_kept, foldl_kept]

theorem returnOver_finish_kept (h : Kept s) : Kept (returnOver.finish w t n s).1 := by
  grind [returnOver.finish, modT_kept, returnAddr_kept, releaseAll_kept]

theorem returnOver_kept (h : Kept s) : Kept (returnOver s w t n).1 := by
  unfold returnOver
  repeat' split
  all_goals grind [returnOver_finish_kept]

theorem execRet_kept (h : Kept s) : KeptO (execRet pg s) := by
  grind [execRet, controlWord_kept, returnOver_kept, keptO_next]

theorem execRetn_kept (h : Kept s) : KeptO (execRetn pg n s) := by
  grind [execRetn, controlWord_kept, returnOver_kept, keptO_next]

theorem endThread_kept (h : Kept s) : Kept (endThread s w t) := by
  grind [endThread, modT_kept, passReed_kept, releaseAll_kept, releaseHeld_kept]

theorem execExit_kept (h : Kept s) : KeptO (execExit pg s) := by
  grind [execExit, barAll_kept, controlWord_kept, endThread_kept, keptO_next]

theorem yieldAt_kept (h : Kept s) : Kept (yieldAt s k pc depth) := h

theorem execYield_kept (h : Kept s) : KeptO (execYield pg s) := by
  grind [execYield, perLane_kept, withSrcs_kept, yieldAt_kept, foldl_kept, keptO_next]

theorem execSleep_kept (h : Kept s) : KeptO (execSleep pg a s) := by
  grind [execSleep, controlWord_kept, keptO_next]

theorem execBkpt_kept (h : Kept s) : KeptO (execBkpt pg s) := by
  grind [execBkpt, controlWord_kept, keptO_next]

theorem execTrap_kept (h : Kept s) : KeptO (execTrap pg imm s) := by
  grind [execTrap, controlWord_kept, keptO_next]

end Sys2Proof.Machine
end
section
/-! PROOFS of O8, part 8: the words of memory and the atomics. -/

namespace Sys2Proof.Machine
-- One declaration after another, as in the Tests: less memory.
set_option Elab.async false

theorem deliver_kept (h : Kept s) : Kept (deliver s w t l pops d kd kind port addr words numerr pop sx line sync) := by
  grind [deliver, modT_kept, newId_kept, touchRegs_kept, Kept]

theorem readPiece_kept (h : Kept s) : Kept (readPiece s w t l pa n va poc shadow cp).1 := by
  grind [readPiece, applyNoData_kept, applySev_kept, readPa_kept]

theorem xlateShadows_kept (h : Kept s) : Kept (xlateShadows s w t wr l).1 := by
  induction l generalizing s with
  | nil => exact h
  | cons x l ih =>
    simp only [xlateShadows]
    repeat' split
    all_goals grind [accXlate_kept]

theorem readShadows_kept (h : Kept s) : Kept (readShadows s w t n sx poc cp ws l).1 := by
  induction l generalizing s ws with
  | nil => exact h
  | cons x l ih => grind [readShadows, readPiece_kept, peerData_kept]

theorem loadPeer_kept (h : Kept s) : Kept (loadPeer s w t m src pops ea pa off poc cp).1 := by
  grind [loadPeer, applyNoData_kept, deliver_kept, hold_kept, queueValue_kept, reach_kept, sendRequest_kept]

theorem performLoad_kept (h : Kept s) : Kept (performLoad s w t m src pops ea l pa checked₁).1 := by
  simp only [performLoad]
  repeat' split
  all_goals grind [deliver_kept, hold_kept, loadPeer_kept, peerData_kept, queueValue_kept, readPiece_kept, readShadows_kept, xlateShadows_kept]

theorem loadOrder_kept (h : Kept s) : Kept (loadOrder s t ord sc loc) := by
  grind [loadOrder, acquire_kept, syncRead_kept]

theorem loadLane_kept (h : Kept s) : Kept (loadLane s w t m).1 := by
  simp only [loadLane]
  refine withSrcs_kept h fun vals pops => ?_
  repeat' split
  all_goals grind [accXlate_kept, deliver_kept, hold_kept, holdAll_kept, loadOrder_kept, performLoad_kept, raceThread_kept, → takeValue_kept]

theorem execLd_kept (h : Kept s) : KeptO (execLd m s) := by
  grind [execLd, loadLane_kept, perLane_kept, keptO_next]

theorem storeShadows_kept (h : Kept s) : Kept (storeShadows s w t n v sc ord l shs).1 := by
  induction l generalizing s with
  | nil => exact h
  | cons x l ih => grind [storeShadows, pin_kept, commitLog_kept, commitStore_kept]

theorem performSt_kept (h : Kept s) : Kept (performSt s w t m v ea l pa cs checked₁).1 := by
  grind [performSt, commitLog_kept, commitStore_kept, hold_kept, pin_kept, storeShadows_kept, xlateShadows_kept]

theorem storeLane_kept (h : Kept s) : Kept (storeLane s w t m).1 := by
  simp only [storeLane]
  repeat' split
  all_goals grind [accXlate_kept, commitLog_kept, droneStore_kept, holdAll_kept, modT_kept, performSt_kept, pin_kept, raceThread_kept, touchRegs_kept, withSrcs_kept]

theorem execSt_kept (h : Kept s) : KeptO (execSt m s) := by
  grind [execSt, perLane_kept, storeLane_kept, keptO_next]

theorem scrPolicy_kept (h : Kept s) : Kept (scrPolicy s w a bytes poisoned).1 := by
  grind [scrPolicy, applySev_kept]

theorem scrLoadFrom_kept (h : Kept s) : Kept (scrLoadFrom s w tgt kind t m src pops a).1 := by
  grind [scrLoadFrom, deliver_kept, loadOrder_kept, scrPolicy_kept, scrRead_kept]

theorem execLds_kept (h : Kept s) : KeptO (execLds m s) := by
  grind [execLds, perLane_kept, scrLoadFrom_kept, withSrcs_kept, keptO_next]

theorem scrStoreTo_kept (h : Kept s) : Kept (scrStoreTo s w tgt t m pops v a).1 := by
  grind [scrStoreTo, modT_kept, scrWrite_kept, storeOrder_kept, syncClear_kept, touchRegs_kept]

theorem execSts_kept (h : Kept s) : KeptO (execSts m s) := by
  grind [execSts, perLane_kept, scrStoreTo_kept, withSrcs_kept, keptO_next]

theorem execLdcl_kept (h : Kept s) : KeptO (execLdcl m s) := by
  grind [execLdcl, perLane_kept, scrLoadFrom_kept, withSrcs_kept, keptO_next]

theorem execStcl_kept (h : Kept s) : KeptO (execStcl m s) := by
  grind [execStcl, perLane_kept, scrStoreTo_kept, withSrcs_kept, keptO_next]

theorem readDesc_kept (h : Kept s) : Kept (readDesc s a l).1 := by
  grind [readDesc, countErr_kept]

theorem writeDesc_kept (h : Kept s) : Kept (writeDesc s a l d poison) := by
  grind [writeDesc, putBlock_kept]

theorem ldbdLane_kept (h : Kept s) : Kept (ldbdLane s w t m).1 := by
  simp only [ldbdLane]
  refine withSrcs_kept h fun vals pops => ?_
  repeat' split
  all_goals grind [accXlate_kept, applySev_kept, deliver_kept, drainOverlap_kept, freeValue_kept, hold_kept, holdAll_kept, queueValue_kept, readDesc_kept, → takeValue_kept]

theorem execLdbd_kept (h : Kept s) : KeptO (execLdbd m s) := by
  grind [execLdbd, ldbdLane_kept, perLane_kept, keptO_next]

theorem stbdLane_kept (h : Kept s) : Kept (stbdLane s w t m).1 := by
  simp only [stbdLane]
  repeat' split
  all_goals grind [accXlate_kept, commitLog_kept, drainOverlap_kept, droneStore_kept, holdAll_kept, modT_kept, pin_kept, touchRegs_kept, withSrcs_kept, writeDesc_kept]

theorem execStbd_kept (h : Kept s) : KeptO (execStbd m s) := by
  grind [execStbd, perLane_kept, stbdLane_kept, keptO_next]

theorem prefPeer_kept (h : Kept s) : Kept (prefPeer s t pa off ea) := by
  grind [prefPeer, newId_kept, sendRequest_kept, Kept]

theorem prefLine_kept (h : Kept s) : Kept (prefLine s w t l pa ea) := by
  grind [prefLine, hostXlate_kept, l1Fill_kept, prefPeer_kept]

theorem prefLane_kept (h : Kept s) : Kept (prefLane s w t cp ea).1 := by
  grind [prefLane, holdAll_kept, prefLine_kept, translate_kept]

theorem addrWord_kept (h : Kept s) (hf : ∀ a y z u, Kept a → Kept (f a y z u).1) : Kept (addrWord s pg base off f) := by
  grind [addrWord, modT_kept, perLane_kept, touchRegs_kept, withSrcs_kept]

theorem execPref_kept (h : Kept s) : KeptO (execPref pg base cp off s) := by
  grind [execPref, addrWord_kept, prefLane_kept, keptO_next]

theorem execCinval_kept (h : Kept s) : KeptO (execCinval pg base off s) := by
  unfold execCinval
  grind [addrWord_kept, perLane_kept, withSrcs_kept, Kept, keptO_next]

theorem groupOf_kept (h : Kept x.1) : Kept (groupOf x).1 := by
  unfold groupOf
  split <;> exact h

theorem execSmap_kept (h : Kept s) : KeptO (execSmap pg a b c s) := by
  grind [execSmap, modWg_kept, perGroup_kept, keptO_next]

theorem removeBinding_kept (h : Kept s) : Kept (removeBinding s i b) := by
  grind [removeBinding, modWg_kept, padWriteRange_kept, foldl_kept]

theorem execSunmap_kept (h : Kept s) : KeptO (execSunmap pg a s) := by
  grind [execSunmap, groupOf_kept, perGroup_kept, removeBinding_kept, writeBackBinding_kept, keptO_next]

theorem writeBackFrom_kept (h : Kept s) : Kept (writeBackFrom s w t a).1 := by
  grind [writeBackFrom, writeBackBinding_kept, foldl_fst_kept]

theorem execSwb_kept (h : Kept s) : KeptO (execSwb pg a s) := by
  unfold execSwb
  grind [groupOf_kept, perGroup_kept, writeBackFrom_kept, keptO_next]

theorem rmwAt_kept (h : Kept s) : Kept (rmwAt s w k l a va ty r shadow).1 := by
  grind [rmwAt, applySev_kept, drainOverlap_kept, readHbmRange_kept, writeCanon_kept, Kept]

theorem performRmw_kept (h : Kept s) : Kept (performRmw s w t l pa va ty r shadow).1 := by
  grind [performRmw, applyNoData_kept, rmwAt_kept]

theorem rmwShadows_kept (h : Kept s) : Kept (rmwShadows s w t ty b d l).1 := by
  induction l generalizing s d with
  | nil => exact h
  | cons x l ih => grind [rmwShadows, performRmw_kept]

theorem noteAtom_kept (h : Kept s) : Kept (noteAtom s w t words numerr load) := by
  grind [noteAtom, modT_kept, queueValue_kept]

theorem endAtom_kept (h : Kept s) : Kept (endAtom s w t f pops addr port words numerr sync).1 := by
  grind [endAtom, deliver_kept, modT_kept, touchRegs_kept]

theorem atomOrder_kept (h : Kept s) : Kept (atomOrder s t f loc wrote) := by
  grind [atomOrder, acquire_kept, syncRead_kept, syncWrite_kept]

theorem logShadows_kept (h : Kept s) : Kept (logShadows s w t f b l).1 := by
  induction l generalizing s with
  | nil => exact h
  | cons x l ih => grind [logShadows, enterLog_kept]

theorem reachShadows_kept (h : Kept s) : Kept (reachShadows s w l).1 := by
  induction l generalizing s with
  | nil => exact h
  | cons x l ih => grind [reachShadows, reach_kept]

/-- What is undone takes the memory of the state before, and the ports of the state after. -/
theorem unperformed_kept (h : Kept s) (h0 : Kept s0) : Kept (unperformed s0 s) := ⟨h0.1, h.2⟩

theorem sendRed_kept (h : Kept s) : Kept (sendRed s w t l ea p off ty r) := by
  grind [sendRed, modPort_kept, newId_kept, sendLater_kept, Kept]

theorem sendTan_kept (h : Kept s) : Kept (sendTan s w t main ty b x) := by
  grind [sendTan, modPort_kept, newId_kept, sendLater_kept, Kept]

theorem logRed_kept (h : Kept s) : Kept (logRed s w t f pops ea op fault).1 := by
  grind [logRed, endAtom_kept, enterLog_kept, noteAtom_kept, pin_kept]

theorem atomPerform_kept (h : Kept s) : Kept (atomPerform s w t f pops r b ea l pa shs away).1 := by
  grind [atomPerform, atomOrder_kept, endAtom_kept, logShadows_kept, noteAtom_kept, performRmw_kept, rmwShadows_kept, sendRed_kept, sendRequest_kept, sendTan_kept, unperformed_kept, foldl_kept]

theorem atomAt_kept (h : Kept s) : Kept (atomAt s w t f pops r b ea l pa log).1 := by
  unfold atomAt
  grind [atomPerform_kept, hold_kept, logRed_kept, pin_kept, reach_kept, reachShadows_kept, xlateShadows_kept]

theorem atomTaken_kept (h : Kept s) : Kept (atomTaken s w t f pops ea v).1 := by
  grind [atomTaken, endAtom_kept, modT_kept, takeAtom_kept]

theorem atomLane_kept (h : Kept s) : Kept (atomLane s w t f rmw log).1 := by
  simp only [atomLane]
  repeat' split
  all_goals grind [accXlate_kept, atomAt_kept, atomTaken_kept, hold_kept, holdAll_kept, logRed_kept, withSrcs_kept]

theorem execAtom_kept (h : Kept s) : KeptO (execAtom o s) := by
  grind [execAtom, atomLane_kept, perLane_kept, keptO_next]

theorem execRed_kept (h : Kept s) : KeptO (execRed o s) := by
  grind [execRed, atomLane_kept, perLane_kept, keptO_next]

theorem execAtomcas_kept (h : Kept s) : KeptO (execAtomcas o s) := by
  grind [execAtomcas, atomLane_kept, perLane_kept, keptO_next]

theorem execAtoms_kept (h : Kept s) : KeptO (execAtoms o s) := by
  grind [execAtoms, atomOrder_kept, chunkWritable_kept, deliver_kept, padWriteRange_kept, perLane_kept, scrPolicy_kept, withSrcs_kept, keptO_next]

theorem fenceRelease_kept (h : Kept s) : Kept (fenceRelease s t sc) := h

theorem fenceAcquire_kept (h : Kept s) : Kept (fenceAcquire s t sc) := by
  grind [fenceAcquire, acquire_kept, joinVc_kept, foldl_kept]

theorem execFence_kept (h : Kept s) : KeptO (execFence pg ord scope s) := by
  grind [execFence, fenceAcquire_kept, fenceRelease_kept, perLane_kept, withSrcs_kept, keptO_next]

end Sys2Proof.Machine
end
section
/-! PROOFS of O8, part 9: engines and streams. -/

namespace Sys2Proof.Machine
-- One declaration after another, as in the Tests: less memory.
set_option Elab.async false

theorem fillImage_kept (h : Kept s) : Kept (fillImage s t interval f) := by
  grind [fillImage, modWg_kept]

theorem finishOp_kept (h : Kept s) : Kept (finishOp s op status) := by
  grind [finishOp, dropReads_kept, fillImage_kept, modT_kept, touchRegs_kept, wakeCore_kept, foldl_kept, Kept]

theorem handleSide_kept (h : Kept s) : Kept (handleSide s w t x off lo₁ hi₁ write).1 := by
  grind [handleSide, structRead_kept, structStop_kept, structSync_kept]

theorem resolveSide_kept (h : Kept s) : Kept (resolveSide s w t k hoff write v rows stride).1 := by
  unfold resolveSide
  grind [handleSide_kept]

theorem firstByte_kept (h : Kept s) : Kept (firstByte s w t va write).1 := by
  unfold firstByte
  grind [accXlate_kept]

theorem startOp_kept (h : Kept s) : Kept (startOp s w t tids d g kind aff stop).1 := by
  grind [startOp, bumpVc_kept, → compareEnter_kept, compareMatch_kept, newId_kept, Kept]

theorem tokenRetire_kept (h : Kept s) : Kept (tokenRetire s w t l pops d).1 := by
  grind [tokenRetire, modT_kept, touchRegs_kept]

theorem resolveBoth_kept (h : Kept s) : Kept (resolveBoth s w t c vd vs rows extra).1 := by
  grind [resolveBoth, firstByte_kept, resolveSide_kept]

theorem copyWord_kept (h : Kept s) : Kept (copyWord s c kl rows) := by
  grind [copyWord, perLane_kept, resolveBoth_kept, startOp_kept, tokenRetire_kept, withSrcs_kept]

theorem execCopy_kept (h : Kept s) : KeptO (execCopy c s) := by
  grind [execCopy, copyWord_kept, keptO_next]

theorem execGather_kept (h : Kept s) : KeptO (execGather c s) := by
  grind [execGather, copyWord_kept, keptO_next]

theorem execScatter_kept (h : Kept s) : KeptO (execScatter c s) := by
  grind [execScatter, copyWord_kept, keptO_next]

theorem xredCauses_kept (h : Kept s) : Kept (xredCauses s w t s2g ty aop dst src len).1 := by
  grind [xredCauses, firstByte_kept]

theorem execXred_kept (h : Kept s) : KeptO (execXred o s2g ty aop scope s) := by
  grind [execXred, perLane_kept, pin_kept, startOp_kept, tokenRetire_kept, withSrcs_kept, xredCauses_kept, keptO_next]

theorem engineRace_kept (h : Kept s) : Kept (engineRace s w op l va loc n write).1 := by
  grind [engineRace, raceWords_kept]

theorem engineSev_kept (h : Kept s) : Kept (engineSev s w op key va r).1 := by
  grind [engineSev, faultRecord_kept, Kept]

theorem engineXlate_kept (h : Kept s) : Kept (engineXlate s w op va r wr).1 := by
  grind [engineXlate, translate_kept]

theorem engineLost_kept (h : Kept s) : Kept (engineLost s w k block).1 := by
  grind [engineLost, sev3Words_kept]

theorem readGlobal_kept (h : Kept s) : Kept (readGlobal s w op va n sh).1 := by
  unfold readGlobal
  grind [drainOverlap_kept, engineLost_kept, engineRace_kept, engineSev_kept, engineXlate_kept, hostXlate_kept, readHbmRange_kept, readPeer_kept]

theorem sendPeerStore_kept (h : Kept s) : Kept (sendPeerStore s w op p va body red) := by
  grind [sendPeerStore, newId_kept, sendRequest_kept, Kept]

theorem writeGlobal_kept (h : Kept s) : Kept (writeGlobal s w op va bytes poison sh).1 := by
  unfold writeGlobal
  grind [drainOverlap_kept, engineRace_kept, engineXlate_kept, hostXlate_kept, pin_kept, regWriteBytes_kept, reportDomain_kept, sendPeerStore_kept, writeCanon_kept]

theorem opAcquire_kept (h : Kept s) : Kept (opAcquire s op loc) := h

theorem recheck_kept (h : Kept s) : Kept (recheck s w op sd).1 := by
  unfold recheck
  grind [opAcquire_kept, structRead_kept, Kept]

theorem putSlot_kept (h : Kept s) : Kept (putSlot s i comp n off bytes poison) := h

theorem slotShadows_kept (h : Kept s) : Kept (slotShadows s w op src va n off k bad l).1 := by
  induction l generalizing s bad with
  | nil => exact h
  | cons x l ih =>
    simp only [slotShadows]
    repeat' split
    all_goals grind [engineXlate_kept, putSlot_kept, readGlobal_kept]

theorem readSide_kept (h : Kept s) : Kept (readSide s w op src pos k).1 := by
  unfold readSide
  grind [engineSev_kept, readGlobal_kept]

theorem copyPiece_kept (h : Kept s) : Kept (copyPiece s w op dst src rows).1 := by
  have hr {b : Bool} {sd : Side} {s : State} (h : Kept s) : Kept (if b then recheck s w op sd else (s, none)).1 := by
    grind [recheck_kept]
  simp only [copyPiece]
  split
  · exact h
  · have h2 := hr (b := (dueChecks op dst src rows).2) (sd := src) (hr (b := (dueChecks op dst src rows).1) (sd := dst) h)
    revert h2
    generalize (if (dueChecks op dst src rows).2 = true then _ else _) = x
    intro h2
    repeat' split
    all_goals grind [readSide_kept, writeGlobal_kept, padWriteRange_kept, modWg_kept, putSlot_kept, slotShadows_kept]

theorem xredAt_kept (h : Kept s) : Kept (xredAt s w op l a dp ty aop b p bad).1 := by
  grind [xredAt, putBlock_kept, rmwAt_kept]

theorem xredPiece_kept (h : Kept s) : Kept (xredPiece s w op dst src len ty aop).1 := by
  simp only [xredPiece]
  repeat' split
  all_goals grind [engineXlate_kept, hostXlate_kept, readSide_kept, sendPeerStore_kept, xredAt_kept]

theorem enginePiece_kept (h : Kept s) : Kept (enginePiece s w op).1 := by
  grind [enginePiece, copyPiece_kept, xredPiece_kept]

theorem modOp_kept (h : Kept s) : Kept (modOp s i f) := h

theorem engineRun_kept (h : Kept s) : Kept (engineRun once fuel s i).1 := by
  induction fuel generalizing s with
  | zero => exact h
  | succ n ih =>
    simp only [engineRun]
    repeat' split
    all_goals grind [enginePiece_kept, dropReads_kept, modOp_kept]

theorem dropL1_kept (h : Kept s) : Kept (dropL1 s k) := h

theorem sendRemq_kept (h : Kept s) : Kept (sendRemq s op pasid) := by
  grind [sendRemq, sendRequest_kept, Kept]

theorem execRemq_kept (h : Kept s) : KeptO (execRemq o ak s) := by
  unfold execRemq
  grind [perLane_kept, pin_kept, sendRemq_kept, startOp_kept, tokenRetire_kept, withSrcs_kept, keptO_next]

theorem takeLanding_kept (h : Kept s) : Kept (takeLanding s w t addr l) := by
  grind [takeLanding, acquire_kept, joinVc_kept, padWriteRange_kept]

theorem dropLanding_kept (h : Kept s) : Kept (dropLanding s k l) := h

theorem servePops_kept (h : Kept s) : Kept (servePops s k) := by
  grind [servePops, dropLanding_kept, fillPlace_kept, takeLanding_kept, foldl_kept, Kept]

theorem execRqpop_kept (h : Kept s) : KeptO (execRqpop o nb s) := by
  grind [execRqpop, deliver_kept, dropLanding_kept, padWriteRange_kept, perLane_kept, pin_kept, queueValue_kept, takeLanding_kept, → takeValue_kept, withSrcs_kept, keptO_next]

theorem execTchk_kept (h : Kept s) : KeptO (execTchk pg pd a s) := by
  grind [execTchk, modT_kept, perLane_kept, touchRegs_kept, keptO_next]

theorem plainRead_kept (h : Kept s) : Kept (plainRead s w t va n align).1 := by
  simp only [plainRead]
  repeat' split
  all_goals grind [accXlate_kept, applyNoData_kept, applySev_kept, hold_kept, holdAll_kept, modT_kept, peerData_kept, raceThread_kept, readPaRange_kept]

theorem execStrm_kept (h : Kept s) : KeptO (execStrm pg a cp dims sx ew q s) := by
  grind [execStrm, → compareEnter_kept, compareMatch_kept, groupOf_kept, newId_kept, perGroup_kept, plainRead_kept, Kept, keptO_next]

theorem unbindLanes_kept (h : Kept s) : Kept (unbindLanes s q ts) := h

theorem execStrmx_kept (h : Kept s) : KeptO (execStrmx pg q s) := by
  grind [execStrmx, modT_kept, perGroup_kept, unbindLanes_kept, wakeAll_kept, foldl_kept, keptO_next]

theorem modStream_kept (h : Kept s) : Kept (modStream s i f) := h

theorem stopStream_kept (h : Kept s) : Kept (stopStream s x a c) := h

theorem pushElem_kept (h : Kept s) : Kept (pushElem s w x t b poison numerr) := by
  grind [pushElem, modStream_kept, modT_kept, unbindLanes_kept, wakeCore_kept, foldl_kept]

theorem deliverElem_kept (h : Kept s) : Kept (deliverElem s w x) := by
  grind [deliverElem, dropReads_kept, killOrRoll_kept, modStream_kept, pushElem_kept, raiseFault_kept, readGlobal_kept, startRollback_kept, stopStream_kept, unbindLanes_kept]

theorem execStreamElementDelivery_kept (h : Kept s) : KeptO (execStreamElementDelivery i s) := by
  grind [execStreamElementDelivery, deliverElem_kept, keptO_next]

end Sys2Proof.Machine
end
section
/-! PROOFS of O8, part 10: the matrix words and launches. -/

namespace Sys2Proof.Machine
-- One declaration after another, as in the Tests: less memory.
set_option Elab.async false

theorem modReed_kept (h : Kept s) : Kept (modReed s i f) := h

theorem askReed_kept (h : Kept s) : Kept (askReed s id₁ i) := by
  grind [askReed, modReed_kept, passReed_kept]

theorem execMtake_kept (h : Kept s) : KeptO (execMtake pg s) := by
  grind [execMtake, askReed_kept, perGroup_kept, keptO_next]

theorem execMpass_kept (h : Kept s) : KeptO (execMpass pg s) := by
  grind [execMpass, passReed_kept, perGroup_kept, keptO_next]

theorem parkReed_kept (h : Kept s) : Kept (parkReed s i) := h

theorem dropReed_kept (h : Kept s) : Kept (dropReed s i) := by
  grind [dropReed, parkReed_kept, passReed_kept]

theorem execMdrop_kept (h : Kept s) : KeptO (execMdrop pg s) := by
  grind [execMdrop, dropReed_kept, perGroup_kept, keptO_next]

theorem execTcfg_kept (h : Kept s) : KeptO (execTcfg pg a s) := by
  grind [execTcfg, groupOf_kept, modWg_kept, perGroup_kept, plainRead_kept, wakeCore_kept, keptO_next]

theorem grantClaim_kept (h : Kept s) : Kept (grantClaim s i a b) := h

theorem refuseClaims_kept (h : Kept s) : Kept (refuseClaims fuel s k) := by
  induction fuel generalizing s with
  | zero => exact h
  | succ n ih =>
    simp only [refuseClaims]
    repeat' split
    all_goals grind [deliverTraps_kept, Kept]

theorem claimDone_kept (h : Kept s) : Kept (claimDone s w t tids pd ok).1 := by
  grind [claimDone, modT_kept, queueValue_kept, foldl_kept]

theorem execOclaim_kept (h : Kept s) : KeptO (execOclaim o nb s) := by
  grind [execOclaim, claimDone_kept, grantClaim_kept, modT_kept, perGroup_kept, refuseClaims_kept, → takeValue_kept, waitFor_kept, foldl_kept, Kept, keptO_next]

theorem releaseSlots_kept (h : Kept s) : Kept (releaseSlots s i sl ti) := h

theorem execOrel_kept (h : Kept s) : KeptO (execOrel pg a b s) := by
  grind [execOrel, perGroup_kept, releaseSlots_kept, wakeCore_kept, keptO_next]

theorem pendAll_kept (h : Kept s) : Kept (pendAll s w tids d) := by
  grind [pendAll, modT_kept, touchRegs_kept, foldl_kept]

theorem startMatrix_kept (h : Kept s) : Kept (startMatrix s w t tids d m extra sc g).1 := by
  grind [startMatrix, groupOf_kept, pendAll_kept, startOp_kept]

theorem execMma_kept (h : Kept s) : KeptO (execMma o s) := by
  grind [execMma, perGroup_kept, startMatrix_kept, keptO_next]

theorem execMmaz_kept (h : Kept s) : KeptO (execMmaz o s) := by
  grind [execMmaz, perGroup_kept, startMatrix_kept, keptO_next]

theorem execMxt_kept (h : Kept s) : KeptO (execMxt pg d a c s) := by
  grind [execMxt, perGroup_kept, startMatrix_kept, keptO_next]

theorem execMperm_kept (h : Kept s) : KeptO (execMperm o s) := by
  grind [execMperm, perGroup_kept, startMatrix_kept, keptO_next]

theorem execMrred_kept (h : Kept s) : KeptO (execMrred pg d a c s) := by
  grind [execMrred, perGroup_kept, startMatrix_kept, keptO_next]

theorem execAccz_kept (h : Kept s) : KeptO (execAccz o s) := by
  grind [execAccz, perGroup_kept, startMatrix_kept, keptO_next]

theorem accCauses_kept (h : Kept s) : Kept (accCauses s w t load scr raw addr rec_).1 := by
  grind [accCauses, firstByte_kept]

theorem accWord_kept (h : Kept s) : Kept (accWord o load s) := by
  grind [accWord, accCauses_kept, groupOf_kept, perGroup_kept, startMatrix_kept]

theorem execAccld_kept (h : Kept s) : KeptO (execAccld o s) := by
  grind [execAccld, accWord_kept, keptO_next]

theorem execAccst_kept (h : Kept s) : KeptO (execAccst o s) := by
  grind [execAccst, accWord_kept, keptO_next]

theorem execCopym_kept (h : Kept s) : KeptO (execCopym c s) := by
  unfold execCopym
  grind [groupOf_kept, pendAll_kept, perGroup_kept, resolveBoth_kept, startOp_kept, keptO_next]

theorem execMstat_kept (h : Kept s) : KeptO (execMstat pg d s) := by
  grind [execMstat, perGroup_kept, queueValue_kept, → takeValue_kept, writeAll_kept, keptO_next]

theorem setAcc_kept (h : Kept s) : Kept (setAcc s i acc) := h

theorem readTile_kept (h : Kept s) : Kept (readTile conv sh fuel s w op scr a n).1 := by
  induction fuel generalizing s a n with
  | zero => exact h
  | succ m ih =>
    have hr (k : Nat) : Kept (if scr then readSide s w op (.scratch 0) a k else readGlobal s w op a k sh).1 := by
      grind [readSide_kept, readGlobal_kept]
    simp only [readTile]
    repeat' split
    all_goals grind [modOp_kept]

theorem writeTile_kept (h : Kept s) : Kept (writeTile sh fuel s w op scr a b).1 := by
  induction fuel generalizing s a b with
  | zero => exact h
  | succ m ih =>
    simp only [writeTile]
    repeat' split
    all_goals grind [padWriteRange_kept, writeGlobal_kept]

theorem accOut_kept (h : Kept s) : Kept (accOut s c raw r x).1 := by
  grind [accOut, freeValue_kept]

theorem tileShadow_kept (h : Kept s) : Kept (tileShadow s w op scr a wr).1 := by
  grind [tileShadow, engineXlate_kept]

theorem accldComp_kept (h : Kept s) : Kept (accldComp s w op c comp a scr tile r raw).1 := by
  grind [accldComp, readTile_kept, setAcc_kept]

theorem accstComp_kept (h : Kept s) : Kept (accstComp s w op c comp a scr tile r raw).1 := by
  grind [accstComp, accOut_kept, writeTile_kept, foldl_fst_kept]

theorem accldRun_kept (h : Kept s) : Kept (accldRun s w op c a scr t r raw).1 := by
  grind [accldRun, accldComp_kept, setAcc_kept, tileShadow_kept, foldl_fst_kept]

theorem accstRun_kept (h : Kept s) : Kept (accstRun s w op c a scr t r raw).1 := by
  grind [accstRun, accstComp_kept, tileShadow_kept, foldl_fst_kept]

theorem permVector_kept (h : Kept s) : Kept (permVector s w op c m).1 := by
  unfold permVector
  grind [readTile_kept]

theorem matrixRun_kept (h : Kept s) : Kept (matrixRun s w op m).1 := by
  grind [matrixRun, accldRun_kept, accstRun_kept, permVector_kept, setAcc_kept]

theorem commitTree_kept (h : Kept s) : Kept (commitTree s pasid image target link) := by
  grind [commitTree, modCtx_kept, Kept]

theorem refuseWord_kept (h : Kept s) : Kept (refuseWord s i pasid code va) := by
  grind [refuseWord, faultRecord_kept, modLaunch_kept]

theorem readBitmap_kept (h : Kept s) : Kept (readBitmap s x k va).1 := by
  grind [readBitmap, raiseFault_kept, refuseWord_kept, structRead_kept]

theorem testGang_kept (h : Kept s) : Kept (testGang s x k g) := by
  grind [testGang, modLaunch_kept, readBitmap_kept, foldl_fst_kept]

theorem testLaunch_kept (h : Kept s) : Kept (testLaunch s i k) := by
  grind [testLaunch, testGang_kept, foldl_kept]

theorem registerDeps_kept (h : Kept s) : Kept (registerDeps s x).1 := by
  grind [registerDeps, walk_kept, foldl_fst_kept, Kept]

theorem countWalks_kept (h : Kept s) : Kept (countWalks s pasid vas) := by
  grind [countWalks, walk_kept, foldl_kept]

theorem startLaunch_kept (h : Kept s) : Kept (startLaunch s pasid r kinds packet vc).1 := by
  grind [startLaunch, newId_kept, registerDeps_kept, testLaunch_kept, Kept]

end Sys2Proof.Machine
end
section
/-! PROOFS of O8, part 11: the queues of the host, and tasks. -/

namespace Sys2Proof.Machine
-- One declaration after another, as in the Tests: less memory.
set_option Elab.async false

theorem writeQbase_kept (h : Kept s) : Kept (writeQbase s q v) := by
  grind [writeQbase, modQueue_kept]

theorem writeQcfg_kept (h : Kept s) : Kept (writeQcfg s q v) := by
  grind [writeQcfg, modQueue_kept]

theorem settleQueue_kept (h : Kept s) : Kept (settleQueue s q) := h

theorem resetQueue_kept (h : Kept s) : Kept (resetQueue s q) := h

theorem enableQueue_kept (h : Kept s) : Kept (enableQueue s q) := h

theorem stopQueue_kept (h : Kept s) : Kept (stopQueue s q) := h

theorem disableQueue_kept (h : Kept s) : Kept (disableQueue s q) := h

theorem onQueue_kept (h : Kept s) (hf : ∀ a y, Kept a → Kept (f a y)) : Kept (onQueue s q f) := by
  grind [onQueue]

theorem execQctlReset_kept (h : Kept s) : KeptO (execQctlReset w s) := by
  grind [execQctlReset, disableQueue_kept, enableQueue_kept, onQueue_kept, resetQueue_kept, keptO_next]

theorem execQctlEnableSet_kept (h : Kept s) : KeptO (execQctlEnableSet q s) := by
  grind [execQctlEnableSet, enableQueue_kept, onQueue_kept, keptO_next]

theorem execQctlEnableClear_kept (h : Kept s) : KeptO (execQctlEnableClear q s) := by
  grind [execQctlEnableClear, disableQueue_kept, onQueue_kept, keptO_next]

theorem ringDoorbell_kept (h : Kept s) : Kept (ringDoorbell s q t) := h

theorem execDoorbell_kept (h : Kept s) : KeptO (execDoorbell q value offset s) := by
  grind [execDoorbell, onQueue_kept, ringDoorbell_kept, keptO_next]

theorem hostRead_kept (h : Kept s) : Kept (hostRead s link bar off) := h

theorem modPacket_kept (h : Kept s) : Kept (modPacket s q seq f) := h

theorem completePacket_kept (h : Kept s) : Kept (completePacket s q seq) := by
  grind [completePacket, emit_kept, modQueue_kept, settleQueue_kept]

theorem failPacket_kept (h : Kept s) : Kept (failPacket s q seq err addr) := by
  grind [failPacket, emit_kept, modQueue_kept, settleQueue_kept]

theorem failQueue_kept (h : Kept s) : Kept (failQueue s q err addr) := by
  grind [failQueue, emit_kept, modQueue_kept]

theorem finishPacket_kept (h : Kept s) : Kept (finishPacket s q seq) := by
  grind [finishPacket, completePacket_kept, modQueue_kept]

theorem pktXlate_kept (h : Kept s) : Kept (pktXlate s pasid va r w).1 := by
  grind [pktXlate, walk_kept]

theorem askRings_kept (h : Kept s) : Kept (askRings s link) := by
  grind [askRings, atsAsk_kept, foldl_kept]

theorem takePacket_kept (h : Kept s) : Kept (takePacket s q b) := by
  grind [takePacket, countWalks_kept, failPacket_kept, modLink_kept, modQueue_kept]

theorem execFetcherTurn_kept (h : Kept s) : KeptO (execFetcherTurn s) := by
  grind [execFetcherTurn, askRings_kept, takePacket_kept, keptO_next]

theorem startPacket_kept (h : Kept s) : Kept (startPacket s q seq) := h

theorem drainContext_kept (h : Kept s) : Kept (drainContext s pasid) := by
  grind [drainContext, performStore_kept, foldl_kept]

theorem pktPolicy_kept (h : Kept s) : Kept (pktPolicy s pasid c va l lost).1 := by
  grind [pktPolicy, faultRecord_kept, freeBytes_kept]

theorem pktRead_kept (h : Kept s) : Kept (pktRead s q seq va n).1 := by
  grind [pktRead, atsAsk_kept, pktPolicy_kept, pktXlate_kept, readHbmRange_kept, readPeer_kept]

theorem pktSend_kept (h : Kept s) : Kept (pktSend s q seq pasid p va body) := by
  grind [pktSend, newId_kept, sendRequest_kept, Kept]

theorem pktStore_kept (h : Kept s) : Kept (pktStore s q seq va l pa b poison monitor).1 := by
  grind [pktStore, atsAsk_kept, faultRecord_kept, pktSend_kept, regWriteBytes_kept, writeCanon_kept]

theorem pktWrite_kept (h : Kept s) : Kept (pktWrite s q seq va b poison).1 := by
  grind [pktWrite, pktStore_kept, pktXlate_kept]

theorem execNopPacket_kept (h : Kept s) : KeptO (execNopPacket q seq s) := by
  grind [execNopPacket, completePacket_kept, keptO_next]

theorem execLaunchPacket_kept (h : Kept s) : KeptO (execLaunchPacket q seq s) := by
  grind [execLaunchPacket, countWalks_kept, failPacket_kept, modPacket_kept, pktRead_kept, startLaunch_kept, startPacket_kept, keptO_next]

theorem execDmaPacket_kept (h : Kept s) : KeptO (execDmaPacket q seq s) := by
  grind [execDmaPacket, startPacket_kept, keptO_next]

theorem dmaRun_kept (h : Kept s) : Kept (dmaRun fuel s q seq p) := by
  induction fuel generalizing s p with
  | zero => exact h
  | succ n ih =>
    simp only [dmaRun]
    repeat' split
    all_goals grind [finishPacket_kept, pktRead_kept, failPacket_kept, pktWrite_kept, modPacket_kept]

theorem execDmaComplete_kept (h : Kept s) : KeptO (execDmaComplete q seq s) := by
  grind [execDmaComplete, dmaRun_kept, keptO_next]

theorem pollWaitv_kept (h : Kept s) : Kept (pollWaitv s q seq p) := by
  grind [pollWaitv, completePacket_kept, failPacket_kept, modPacket_kept, modQueue_kept, pktRead_kept]

theorem execWaitvPacket_kept (h : Kept s) : KeptO (execWaitvPacket q seq s) := by
  grind [execWaitvPacket, pollWaitv_kept, startPacket_kept, keptO_next]

theorem execWaitvPoll_kept (h : Kept s) : KeptO (execWaitvPoll q seq s) := by
  grind [execWaitvPoll, pollWaitv_kept, keptO_next]

theorem execWaitvTimeout_kept (h : Kept s) : KeptO (execWaitvTimeout q seq s) := by
  grind [execWaitvTimeout, failPacket_kept, keptO_next]

theorem publish_kept (h : Kept s) : Kept (publish s q va sc) := by
  grind [publish, Kept]

theorem signalEffect_kept (h : Kept s) : Kept (signalEffect s q seq p).1 := by
  simp only [signalEffect]
  split
  · split
    · split
      · exact faultRecord_kept h
      · split
        · exact h
        · dsimp only
          exact pktSend_kept h
    · have hr := pktRead_kept (q := q) (seq := seq) (va := p.addr 8) (n := 8) h
      generalize pktRead s q seq (p.addr 8) 8 = x at hr ⊢
      split
      · exact pktWrite_kept hr
      · exact hr
  · exact pktWrite_kept h

theorem execSignalPacket_kept (h : Kept s) : KeptO (execSignalPacket q seq s) := by
  grind [execSignalPacket, drainContext_kept, failPacket_kept, finishPacket_kept, publish_kept, signalEffect_kept, keptO_next]

theorem execFencePacket_kept (h : Kept s) : KeptO (execFencePacket q seq s) := by
  grind [execFencePacket, completePacket_kept, drainContext_kept, keptO_next]

theorem execTimestampPacket_kept (h : Kept s) : KeptO (execTimestampPacket q seq s) := by
  grind [execTimestampPacket, drainContext_kept, failPacket_kept, finishPacket_kept, pktWrite_kept, publish_kept, keptO_next]

theorem execRegionPacket_kept (h : Kept s) : KeptO (execRegionPacket q seq s) := by
  grind [execRegionPacket, startPacket_kept, Kept, keptO_next]

theorem readImage_kept (h : Kept s) : Kept (readImage s q seq va).1 := by
  grind [readImage, pktRead_kept]

theorem handDone_kept (h : Kept s) : Kept (handDone s q seq) := by
  grind [handDone, Kept]

theorem execRegionCommit_kept (h : Kept s) : KeptO (execRegionCommit q seq s) := by
  simp only [execRegionCommit, keptO_next]
  split
  · exact h
  · split
    · exact h
    · split
      · split
        · exact h
        · exact completePacket_kept (handDone_kept h)
      · split
        case h_1 e => exact (readImage_kept h).of_fst_eq e
        case h_2 e => exact failPacket_kept (handDone_kept ((readImage_kept h).of_fst_eq e))
        case h_3 e =>
          have hr := (readImage_kept h).of_fst_eq e
          split
          · split
            case h_1 e2 => exact (pktStore_kept hr).of_fst_eq e2
            case h_2 e2 => exact failPacket_kept (handDone_kept ((pktStore_kept hr).of_fst_eq e2))
            case h_3 e2 =>
              have hc := (pktStore_kept hr).of_fst_eq e2
              split
              · exact fw_kept (commitTree_kept hc)
              · exact completePacket_kept (fw_kept (commitTree_kept hc))
          · exact failPacket_kept (handDone_kept hr)

theorem putRing_kept (h : Kept s) : Kept (putRing s k r) := h

theorem slotAt_kept (h : Kept s) : Kept (slotAt s k pasid gen va).1 := by
  grind [slotAt, hostXlate_kept, translate_kept]

theorem sendTable_kept (h : Kept s) : Kept (sendTable s k pasid p off va bytes) := by
  grind [sendTable, newId_kept, sendRequest_kept, Kept]

theorem spilled_kept (h : Kept s) : Kept (spilled s k r e page) := h

theorem blockPage_kept (h : Kept s) : Kept (blockPage s k r page) := by
  grind [blockPage, faultRecord_kept, putRing_kept]

theorem spillOldest_kept (h : Kept s) : Kept (spillOldest s k retry).1 := by
  grind [spillOldest, blockPage_kept, modCore_kept, sendTable_kept, slotAt_kept, spilled_kept, writeCanon_kept]

theorem pushEntry_kept (h : Kept s) : Kept (pushEntry s k e).1 := by
  grind [pushEntry, modCore_kept, spillOldest_kept]

theorem unspill_kept (h : Kept s) : Kept (unspill s k x).1 := by
  grind [unspill, putRing_kept, structRead_kept]

theorem setBin_kept (h : Kept s) : Kept (setBin s k code gang f) := h

theorem flushBin_kept (h : Kept s) : Kept (flushBin s k code gang).1 := by
  grind [flushBin, modCore_kept, pushEntry_kept, setBin_kept]

theorem flushHeld_kept (h : Kept s) : Kept (flushHeld s k) := by
  grind [flushHeld, flushBin_kept, foldl_kept]

theorem deposit_kept (h : Kept s) : Kept (deposit s k r).1 := by
  grind [deposit, flushBin_kept, flushHeld_kept, modCore_kept, setBin_kept]

theorem spawnRetire_kept (h : Kept s) : Kept (spawnRetire s w t l pops nb ok).1 := by
  grind [spawnRetire, modT_kept, touchRegs_kept]

theorem spawnPush_kept (h : Kept s) (hpush : ∀ a y, Kept a → Kept (push a y).1) : Kept (spawnPush s w t nb g x push).1 := by
  grind [spawnPush, bumpVc_kept, → compareEnter_kept, compareMatch_kept, pin_kept, queueValue_kept, → takeValue_kept]

theorem execSpawn_kept (h : Kept s) : KeptO (execSpawn pg nb code args s) := by
  grind [execSpawn, deposit_kept, perLane_kept, spawnPush_kept, spawnRetire_kept, withSrcs_kept, keptO_next]

theorem execSpawnw_kept (h : Kept s) : KeptO (execSpawnw pg nb k args s) := by
  grind [execSpawnw, crossLane_kept, crossWrite_kept, pushEntry_kept, settleTraps_kept, spawnPush_kept, waitFor_kept, foldl_kept, keptO_next]

theorem execSpawnr_kept (h : Kept s) : KeptO (execSpawnr pg nb k lo₁ hi₁ chunk s) := by
  unfold execSpawnr
  grind [groupOf_kept, modT_kept, perGroup_kept, pin_kept, pushEntry_kept, spawnPush_kept, foldl_kept, keptO_next]

theorem execTget_kept (h : Kept s) : KeptO (execTget pg d s) := by
  grind [execTget, deliver_kept, modCore_kept, perLane_kept, pin_kept, queueValue_kept, → takeValue_kept, withSrcs_kept, keptO_next]

theorem execLaunch_kept (h : Kept s) : KeptO (execLaunch pg rec s) := by
  simp only [execLaunch]
  refine keptO_next.mpr (perGroup_kept h fun s w t vals tids hs => ?_)
  repeat' split
  all_goals grind [bumpVc_kept, → compareEnter_kept, compareMatch_kept, countWalks_kept, groupOf_kept, pin_kept, plainRead_kept, startLaunch_kept, foldl_kept]

end Sys2Proof.Machine
end
section
/-! PROOFS of O8, part 12: placing, stealing and faults. -/

namespace Sys2Proof.Machine
-- One declaration after another, as in the Tests: less memory.
set_option Elab.async false

theorem chargeTime_kept (h : Kept s) : Kept (chargeTime s dt) := h

theorem execBudgetExhausted_kept (h : Kept s) : KeptO (execBudgetExhausted pasid rcb s) := by
  grind [execBudgetExhausted, Kept, keptO_next]

theorem thaw_kept (h : Kept s) : Kept (thaw s i) := by
  grind [thaw, modWg_kept, settleRollback_kept, Kept]

theorem execBudgetWindowBoundary_kept (h : Kept s) : KeptO (execBudgetWindowBoundary s) := by
  grind [execBudgetWindowBoundary, thaw_kept, foldl_kept, Kept, keptO_next]

theorem formWg_kept (h : Kept s) : Kept (formWg s x k role mate segs).1 := h

theorem formPair_kept (h : Kept s) : Kept (formPair s x k).1 := by
  grind [formPair, formWg_kept, modWg_kept]

theorem closeWg_kept (h : Kept s) : Kept (closeWg s i) := h

theorem discardUnit_kept (h : Kept s) : Kept (discardUnit s u) := by
  grind [discardUnit, closeWg_kept, dropWg_kept, modGang_kept, modLaunch_kept, wakeAll_kept, foldl_kept, Kept]

theorem writeBackAll_kept (h : Kept s) : Kept (writeBackAll s w) := by
  grind [writeBackAll, writeBackBinding_kept, foldl_kept]

theorem settleUnit_kept (h : Kept s) : Kept (settleUnit s u) := by
  grind [settleUnit, discardUnit_kept, writeBackAll_kept, foldl_kept]

theorem settleFrozen_kept (h : Kept s) : Kept (settleFrozen s k) := by
  grind [settleFrozen, settleUnit_kept, foldl_kept]

theorem freezeUnit_kept (h : Kept s) : Kept (freezeUnit s u) := by
  grind [freezeUnit, settleUnit_kept, Kept]

theorem placeOn_kept (h : Kept s) : Kept (placeOn s x g cores₁) := by
  grind [placeOn, formPair_kept, modGang_kept, modLaunch_kept, newId_kept, foldl_kept, Kept]

theorem tryPlace_kept (h : Kept s) (he : tryPlace s die x g = some out) : Kept out := by
  have hv (v : List (List Workgroup)) : Kept (v.foldl freezeUnit s) := foldl_kept (fun _ _ => freezeUnit_kept) h
  have hp {t : State} {p : List Nat → Bool} {q : Option (List Nat)} (ht : Kept t)
      (hq : (q.bind fun cores => if p cores then some (placeOn t x g cores) else none) = some out) : Kept out := by
    obtain ⟨cores, -, hc⟩ := Option.bind_eq_some_iff.mp hq
    split at hc
    · exact Option.some.inj hc ▸ placeOn_kept ht
    · cases hc
  simp only [tryPlace] at he
  split at he
  · exact Option.some.inj he ▸ modLaunch_kept h
  · split at he
    · cases he
    · split at he
      · exact hp h he
      · split at he
        · cases he
        · exact hp (hv _) he

theorem firstPlaced_kept (h : Kept s) (he : firstPlaced s die l = some out) : Kept out.1 := by
  induction l with
  | nil => cases he
  | cons y l ih =>
    unfold firstPlaced at he
    grind [→ tryPlace_kept]

theorem popNewest_kept (h : Kept s) : Kept (popNewest s k).1 := by
  grind [popNewest, modCore_kept, unspill_kept]

theorem startEntry_kept (h : Kept s) : Kept (startEntry s k e) := by
  grind [startEntry, acquire_kept, formPair_kept, modCore_kept]

theorem dequeRoom_kept (h : Kept s) : Kept (dequeRoom s k) := by
  grind [dequeRoom, flushHeld_kept, wakeCore_kept]

theorem nextPlaced_kept (h : Kept s) (he : nextPlaced s die = some out) : Kept out.1 := by
  unfold nextPlaced at he
  grind [→ firstPlaced_kept]

theorem execDequeEntryStart_kept (h : Kept s) : KeptO (execDequeEntryStart s) := by
  grind [execDequeEntryStart, dequeRoom_kept, popNewest_kept, startEntry_kept, keptO_next]

theorem execGangPlacement_kept (h : Kept s) : KeptO (execGangPlacement s) := by
  grind [execGangPlacement, → nextPlaced_kept, keptO_next]

theorem resumeUnit_kept (h : Kept s) : Kept (resumeUnit s u) := by
  grind [resumeUnit, modWg_kept, thaw_kept, foldl_kept]

theorem tryResume_kept (h : Kept s) (he : tryResume s u = some out) : Kept out := by
  have hv (v : List (List Workgroup)) : Kept (v.foldl freezeUnit s) := foldl_kept (fun _ _ => freezeUnit_kept) h
  simp only [tryResume] at he
  split at he
  · exact Option.some.inj he ▸ resumeUnit_kept h
  · split at he
    · cases he
    · obtain ⟨v, -, rfl⟩ := Option.map_eq_some_iff.mp he
      exact resumeUnit_kept (hv v)

theorem execFrozenGangResume_kept (h : Kept s) : KeptO (execFrozenGangResume s) := by
  unfold execFrozenGangResume
  rw [keptO_next]
  split
  · exact h
  · cases hr : (frozenUnits s s.unit_).findSome? (tryResume s) with
    | none => exact h
    | some t =>
      obtain ⟨u, -, hu⟩ := List.exists_of_findSome?_eq_some hr
      exact tryResume_kept h hu

theorem settleLaunch_kept (h : Kept s) : Kept (settleLaunch s x) := by
  grind [settleLaunch, completePacket_kept, modLaunch_kept, wakeAll_kept, Kept]

theorem settleLaunches_kept (h : Kept s) : Kept (settleLaunches s) := by
  grind [settleLaunches, settleLaunch_kept, foldl_kept]

theorem gangRetired_kept (h : Kept s) : Kept (gangRetired s g) := by
  grind [gangRetired, modGang_kept, modLaunch_kept, settleLaunches_kept]

theorem orAt_kept (h : Kept s) : Kept (orAt s g x l a bit).1 := by
  grind [orAt, readHbmRange_kept, writeCanon_kept, Kept]

theorem completionOr_kept (h : Kept s) : Kept (completionOr s g x) := by
  simp only [completionOr]
  repeat' split
  all_goals grind [faultRecord_kept, gangRetired_kept, hostXlate_kept, modGang_kept, newId_kept, orAt_kept, raiseFault_kept, sendRequest_kept, translate_kept, Kept]

theorem execGangRetire_kept (h : Kept s) : KeptO (execGangRetire s) := by
  unfold execGangRetire
  repeat' split
  all_goals grind [closeWg_kept, completionOr_kept, gangRetired_kept, modGang_kept, wakeAll_kept, foldl_kept, keptO_next]

theorem execDependencyWatcherPrompt_kept (h : Kept s) : KeptO (execDependencyWatcherPrompt die addr s) := by
  grind [execDependencyWatcherPrompt, testLaunch_kept, foldl_kept, keptO_next]

theorem execDependencyRetest_kept (h : Kept s) : KeptO (execDependencyRetest s) := by
  grind [execDependencyRetest, testLaunch_kept, foldl_kept, keptO_next]

theorem execBinTimeout_kept (h : Kept s) : KeptO (execBinTimeout k bin s) := by
  grind [execBinTimeout, flushBin_kept, keptO_next]

theorem execSpillRetry_kept (h : Kept s) : KeptO (execSpillRetry s) := by
  grind [execSpillRetry, dequeRoom_kept, spillOldest_kept, keptO_next]

theorem execSpawnOverflow_kept (h : Kept s) : KeptO (execSpawnOverflow t s) := by
  grind [execSpawnOverflow, trapWaiting_kept, keptO_next]

theorem setSteal_kept (h : Kept s) : Kept (setSteal s k x) := h

theorem execStealRequest_kept (h : Kept s) : KeptO (execStealRequest s) := by
  grind [execStealRequest, setSteal_kept, keptO_next]

theorem execStealBackoffExpiry_kept (h : Kept s) : KeptO (execStealBackoffExpiry s) := by
  grind [execStealBackoffExpiry, setSteal_kept, keptO_next]

theorem takeEntry_kept (h : Kept s) : Kept (takeEntry s victim x).1 := by
  unfold takeEntry
  grind [modCore_kept, unspill_kept]

theorem execStealResponse_kept (h : Kept s) : KeptO (execStealResponse s) := by
  unfold execStealResponse
  grind [dequeRoom_kept, modCore_kept, pushEntry_kept, setSteal_kept, takeEntry_kept, keptO_next]

theorem registerLog_kept (h : Kept s) : Kept (registerLog s) := by
  grind [registerLog, raiseFault_kept, walk_kept, foldl_kept]

theorem releasePage_kept (h : Kept s) : Kept (releasePage s pasid page) := by
  grind [releasePage, testLaunch_kept, wakeAll_kept, foldl_kept, Kept]

theorem retryPage_kept (h : Kept s) : Kept (retryPage s pasid page) := by
  grind [retryPage, faultRecord_kept, registerLog_kept, releasePage_kept, walk_kept, Kept]

theorem killEach_kept (h : Kept s) : Kept (killEach s l done₁) := by
  induction l generalizing s done₁ with
  | nil => exact h
  | cons y l ih =>
    simp only [killEach]
    repeat' split
    all_goals grind [faultRecord_kept, kill_kept]

theorem cancelPage_kept (h : Kept s) : Kept (cancelPage s pasid page) := by
  grind [cancelPage, faultRecord_kept, gangRetired_kept, killEach_kept, registerLog_kept, wakeAll_kept, foldl_kept, Kept]

theorem cancelPasid_kept (h : Kept s) : Kept (cancelPasid s pasid) := by
  grind [cancelPasid, cancelPage_kept, foldl_kept]

theorem execFsvcbRetry_kept (h : Kept s) : KeptO (execFsvcbRetry link pasid s) := by
  grind [execFsvcbRetry, retryPage_kept, keptO_next]

theorem execFsvcbCancelPage_kept (h : Kept s) : KeptO (execFsvcbCancelPage link pasid s) := by
  grind [execFsvcbCancelPage, cancelPage_kept, keptO_next]

theorem execFsvcbCancelPasid_kept (h : Kept s) : KeptO (execFsvcbCancelPasid _link pasid s) := by
  grind [execFsvcbCancelPasid, cancelPasid_kept, keptO_next]

theorem execTableWalk_kept (h : Kept s) : KeptO (execTableWalk k pasid va write s) := by
  grind [execTableWalk, translate_kept, keptO_next]

theorem replayStore_kept (h : Kept s) : Kept (replayStore s w t e l pa va bytes poison).1 := by
  grind [replayStore, lostStore_kept, pin_kept, putStore_kept, reach_kept, storeOrder_kept]

theorem replayTangent_kept (h : Kept s) : Kept (replayTangent s w t e va op) := h

theorem replayRed_kept (h : Kept s) : Kept (replayRed s w t e l pa ty r).1 := by
  grind [replayRed, modT_kept, performRmw_kept, pin_kept, reach_kept, sendRed_kept, syncWrite_kept]

theorem replayOn_kept (h : Kept s) : Kept (replayOn s w t e l pa).1 := by
  grind [replayOn, pin_kept, replayRed_kept, replayStore_kept, replayTangent_kept, writeDesc_kept, foldl_kept]

theorem replayEntry_kept (h : Kept s) : Kept (replayEntry s w t e) := by
  grind [replayEntry, raiseFault_kept, replayOn_kept, reportDomain_kept, translate_kept, wakeCore_kept, Kept]

theorem execSideLogReplay_kept (h : Kept s) : KeptO (execSideLogReplay k t s) := by
  grind [execSideLogReplay, replayEntry_kept, Kept, keptO_next]

theorem wakeAts_kept (h : Kept s) : Kept (wakeAts s link pasid page) := by
  grind [wakeAts, flushRecords_kept, wakeAll_kept, Kept]

theorem dropReq_kept (h : Kept s) : Kept (dropReq s link i) := h

theorem settleTeardown_kept (h : Kept s) : Kept (settleTeardown s link) := by
  grind [settleTeardown, emit_kept, modCtx_kept, modLink_kept]

theorem settleTeardowns_kept (h : Kept s) : Kept (settleTeardowns s) := by
  grind [settleTeardowns, settleTeardown_kept]

theorem execAtsCompletion_kept (h : Kept s) : KeptO (execAtsCompletion link i result s) := by
  grind [execAtsCompletion, dropReq_kept, modLink_kept, settleTeardowns_kept, wakeAts_kept, keptO_next]

theorem execAtsCompletionTimeout_kept (h : Kept s) : KeptO (execAtsCompletionTimeout link i s) := by
  grind [execAtsCompletionTimeout, dropReq_kept, settleTeardowns_kept, wakeAts_kept, keptO_next]

theorem failRings_kept (h : Kept s) : Kept (failRings s link pasid page) := by
  grind [failRings, failQueue_kept, foldl_kept]

theorem execPriResponse_kept (h : Kept s) : KeptO (execPriResponse link pasid page success s) := by
  grind [execPriResponse, cancelPage_kept, dropReq_kept, failRings_kept, retryPage_kept, settleTeardowns_kept, wakeAts_kept, foldl_kept, keptO_next]

theorem execAtsInvalidationRequest_kept (h : Kept s) : KeptO (execAtsInvalidationRequest link pasid page s) := by
  grind [execAtsInvalidationRequest, modLink_kept, keptO_next]

theorem execPstopGo_kept (h : Kept s) : KeptO (execPstopGo link pasid s) := by
  grind [execPstopGo, modCtx_kept, modLink_kept, settleTeardowns_kept, stopQueue_kept, wakeAll_kept, foldl_kept, Kept, keptO_next]

end Sys2Proof.Machine
end
section
/-! PROOFS of O8, part 13: system words and events. -/

namespace Sys2Proof.Machine
-- One declaration after another, as in the Tests: less memory.
set_option Elab.async false

theorem takeUpdate_kept (h : Kept s) : Kept (takeUpdate s k u) := h

theorem execBroadcastWordCopyUpdate_kept (h : Kept s) : KeptO (execBroadcastWordCopyUpdate i k s) := by
  grind [execBroadcastWordCopyUpdate, takeUpdate_kept, foldl_kept, keptO_next]

theorem startUpdate_kept (h : Kept s) : Kept (startUpdate s k pasid w op die v) := h

theorem execBwupd_kept (h : Kept s) : KeptO (execBwupd pg w op die a s) := by
  grind [execBwupd, → compareEnter_kept, compareMatch_kept, modT_kept, perLane_kept, pin_kept, startUpdate_kept, touchRegs_kept, withSrcs_kept, keptO_next]

theorem settleCopy_kept (h : Kept s) : Kept (settleCopy s k w) := by
  grind [settleCopy, execBroadcastWordCopyUpdate_kept, foldl_kept, KeptO]

theorem plainRetire_kept (h : Kept s) : Kept (plainRetire s w t l pops d words f).1 := by
  grind [plainRetire, modT_kept, touchRegs_kept]

theorem execBwrd_kept (h : Kept s) : KeptO (execBwrd pg d w n s) := by
  grind [execBwrd, perLane_kept, plainRetire_kept, queueValue_kept, settleCopy_kept, → takeValue_kept, withSrcs_kept, keptO_next]

theorem reserveEntry_kept (h : Kept s) : Kept (reserveEntry s pasid c t) := h

theorem joinCond_kept (h : Kept s) : Kept (joinCond s w t c timeout) := by
  grind [joinCond, modMon_kept, releaseColour_kept]

theorem execCwait_kept (h : Kept s) : KeptO (execCwait o s) := by
  simp only [execCwait]
  refine keptO_next.mpr (perLane_kept h fun s w t hs => ?_)
  repeat' split
  all_goals grind [joinCond_kept, pin_kept, plainRetire_kept, queueValue_kept, reserveEntry_kept, → takeValue_kept, withSrcs_kept]

theorem moveWaiter_kept (h : Kept s) : Kept (moveWaiter s pasid c y notified) := h

theorem notify_kept (h : Kept s) : Kept (notify s pasid c all) := by
  grind [notify, moveWaiter_kept, foldl_kept]

theorem execCnotify_kept (h : Kept s) : KeptO (execCnotify pg all a s) := by
  grind [execCnotify, notify_kept, perLane_kept, pin_kept, plainRetire_kept, withSrcs_kept, keptO_next]

theorem execCheld_kept (h : Kept s) : KeptO (execCheld o s) := by
  grind [execCheld, perLane_kept, plainRetire_kept, queueValue_kept, → takeValue_kept, withSrcs_kept, keptO_next]

theorem execDpfx_kept (h : Kept s) : KeptO (execDpfx mask s) := by
  grind [execDpfx, deliverTraps_kept, Kept, keptO_next]

theorem execGetsr_kept (h : Kept s) : KeptO (execGetsr pg d n s) := by
  grind [execGetsr, perLane_kept, plainRetire_kept, withSrcs_kept, keptO_next]

theorem execSetsr_kept (h : Kept s) : KeptO (execSetsr pg n a s) := by
  grind [execSetsr, modWarp_kept, perLane_kept, plainRetire_kept, withSrcs_kept, keptO_next]

theorem execEret_kept (h : Kept s) : KeptO (execEret pg s) := by
  grind [execEret, perLane_kept, pin_kept, returnFromTrap_kept, withSrcs_kept, keptO_next]

theorem serviceTake_kept (h : Kept s) : Kept (serviceTake s w l t) := by
  grind [serviceTake, modT_kept, touchRegs_kept]

theorem takeAll_kept (h : Kept s) (he : takeAll s w l = some out) : Kept out.1 := by
  induction l generalizing s out with
  | nil => exact Option.some.inj he ▸ h
  | cons t l ih =>
    simp only [takeAll] at he
    split at he
    · cases he
    · next e =>
      obtain ⟨x, hx, rfl⟩ := Option.map_eq_some_iff.mp he
      exact ih (out := x) (takeValue_kept h e) hx

theorem finishService_kept (h : Kept s) : Kept (finishService s w l d v ts ans) := by
  grind [finishService, acquire_kept, queueValue_kept, retire_kept, serviceTake_kept, writeAll_kept, foldl_kept, Kept]

theorem serviceWord_kept (h : Kept s) : Kept (serviceWord s pg monitor svc extra l d) := by
  grind [serviceWord, finishService_kept, newId_kept, perGroupWith_kept, pin_kept, → takeAll_kept, writeAll_kept, Kept]

theorem execFwcall_kept (h : Kept s) : KeptO (execFwcall o svc s) := by
  grind [execFwcall, serviceWord_kept, keptO_next]

theorem execMoncall_kept (h : Kept s) : KeptO (execMoncall o svc s) := by
  grind [execMoncall, serviceWord_kept, keptO_next]

theorem answer_kept (h : Kept s) : Kept (answer s v x) := h

theorem execFwcallAnswer_kept (h : Kept s) : KeptO (execFwcallAnswer s) := by
  grind [execFwcallAnswer, answer_kept, keptO_next]

theorem ensureCtx_kept (h : Kept s) : Kept (ensureCtx s pasid) := by
  grind [ensureCtx, Kept]

theorem commitRoot_kept (h : Kept s) : Kept (commitRoot s pasid root).1 := by
  grind [commitRoot, ensureCtx_kept, modCtx_kept]

theorem verifySlot_kept (h : Kept s) : Kept (verifySlot s slot).1 := by
  grind [verifySlot, Kept]

theorem programKey_kept (h : Kept s) : Kept (programKey s key pasid).1 := by
  grind [programKey, ensureCtx_kept, modCtx_kept, Kept]

theorem commitImage_kept (h : Kept s) : Kept (commitImage s v pasid b).1 := by
  unfold commitImage
  grind [commitTree_kept, faultRecord_kept, hostXlate_kept, regWriteBytes_kept, sendTable_kept, writeCanon_kept, Kept]

theorem monService_kept (h : Kept s) : Kept (monService s v).1 := by
  grind [monService, commitImage_kept, commitRoot_kept, freeValue_kept, programKey_kept, structRead_kept, verifySlot_kept]

theorem execMoncallAnswer_kept (h : Kept s) : KeptO (execMoncallAnswer s) := by
  grind [execMoncallAnswer, answer_kept, monService_kept, keptO_next]

theorem dropCode_kept (h : Kept s) : Kept (dropCode s pasid a len) := h

theorem execIcinv_kept (h : Kept s) : KeptO (execIcinv pg range s) := by
  unfold execIcinv
  grind [dropCode_kept, perGroupWith_kept, Kept, keptO_next]

theorem drainFor_kept (h : Kept s) : Kept (drainFor s form pasid) := by
  unfold drainFor
  grind [drainContext_kept, foldl_kept]

theorem invalidate_kept (h : Kept s) : Kept (invalidate s form pasid va) := by
  unfold invalidate
  grind [Kept]

theorem execTlbinv_kept (h : Kept s) : KeptO (execTlbinv pg form a b s) := by
  unfold execTlbinv
  grind [drainFor_kept, invalidate_kept, perGroupWith_kept, keptO_next]

theorem execFcxl_kept (h : Kept s) : KeptO (execFcxl pg a b s) := by
  grind [execFcxl, cancelPage_kept, perGroupWith_kept, keptO_next]

theorem execFinj_kept (h : Kept s) : KeptO (execFinj pg a s) := by
  grind [execFinj, perLane_kept, plainRetire_kept, withSrcs_kept, keptO_next]

theorem execHalt_kept (h : Kept s) : KeptO (execHalt pg s) := by
  grind [execHalt, perGroupWith_kept, retire_kept, waitFor_kept, foldl_kept, keptO_next]

theorem execHaltWake_kept (h : Kept s) : KeptO (execHaltWake s) := by
  grind [execHaltWake, Kept, keptO_next]

theorem forceRelease_kept (h : Kept s) : Kept (forceRelease s pasid c) := by
  grind [forceRelease, dropMonitor_kept, modT_kept]

theorem execCctl_kept (h : Kept s) : KeptO (execCctl pg d a b s) := by
  grind [execCctl, forceRelease_kept, perGroupWith_kept, writeAll_kept, keptO_next]

theorem fillLoad_kept (h : Kept s) : Kept (fillLoad s l) := by
  grind [fillLoad, fillImage_kept, modT_kept, touchRegs_kept, wakeCore_kept, Kept]

theorem execFill_kept (h : Kept s) : KeptO (execFill i s) := by
  grind [execFill, fillLoad_kept, keptO_next]

theorem ackStore_kept (h : Kept s) : Kept (ackStore s x) := by
  grind [ackStore, performStore_kept, wakeAll_kept, foldl_kept]

theorem execStoreAcknowledge_kept (h : Kept s) : KeptO (execStoreAcknowledge i s) := by
  grind [execStoreAcknowledge, ackStore_kept, keptO_next]

theorem endOp_kept (h : Kept s) : Kept (endOp s op status) := by
  grind [endOp, barAll_kept, dropL1_kept, finishOp_kept, modOp_kept, settleFrozen_kept, settleRollback_kept]

theorem markPoison_kept (h : Kept s) : Kept (markPoison s op) := by
  grind [markPoison, modT_kept, foldl_kept]

theorem haltOp_kept (h : Kept s) : Kept (haltOp s op w e) := by
  unfold haltOp
  grind [endOp_kept, killOrRoll_kept, modOp_kept, raiseFault_kept, startRollback_kept]

theorem runMatrix_kept (h : Kept s) : Kept (runMatrix s w op m own) := by
  grind [runMatrix, endOp_kept, haltOp_kept, markPoison_kept, matrixRun_kept, modOp_kept]

theorem landHere_kept (h : Kept s) : Kept (landHere s op pasid k src data poison) := by
  grind [landHere, endOp_kept, modCore_kept, modOp_kept, servePops_kept, wakeCore_kept]

theorem runOp_kept (h : Kept s) : Kept (runOp s w op once) := by
  grind [runOp, endOp_kept, engineRun_kept, haltOp_kept, landHere_kept, runMatrix_kept]

theorem engineTurn_kept (h : Kept s) : Kept (engineTurn s i once) := by
  grind [engineTurn, endOp_kept, runOp_kept]

theorem execEngineOperationComplete_kept (h : Kept s) : KeptO (execEngineOperationComplete i s) := by
  grind [execEngineOperationComplete, engineTurn_kept, keptO_next]

theorem execEngineHandleRecheck_kept (h : Kept s) : KeptO (execEngineHandleRecheck i s) := by
  grind [execEngineHandleRecheck, engineTurn_kept, keptO_next]

theorem execMonitorGrant_kept (h : Kept s) : KeptO (execMonitorGrant pasid colour s) := by
  grind [execMonitorGrant, freeMonitor_kept, keptO_next]

theorem execColourRequestRetry_kept (h : Kept s) : KeptO (execColourRequestRetry t s) := by
  grind [execColourRequestRetry, modT_kept, keptO_next]

theorem trapOut_kept (h : Kept s) : Kept (trapOut s t c) := by
  grind [trapOut, leaveLists_kept, modT_kept, trapWaiting_kept]

theorem execColourWaitTimeout_kept (h : Kept s) : KeptO (execColourWaitTimeout t s) := by
  grind [execColourWaitTimeout, trapOut_kept, keptO_next]

theorem execCwaitTimeout_kept (h : Kept s) : KeptO (execCwaitTimeout t s) := by
  grind [execCwaitTimeout, freeMonitor_kept, moveWaiter_kept, keptO_next]

theorem execWatchdog_kept (h : Kept s) : KeptO (execWatchdog t s) := by
  grind [execWatchdog, barAll_kept, trapOut_kept, keptO_next]

theorem execSleepExpiry_kept (h : Kept s) : KeptO (execSleepExpiry t s) := by
  grind [execSleepExpiry, modT_kept, keptO_next]

theorem reedTimeout_kept (h : Kept s) : Kept (reedTimeout s w warp) := by
  grind [reedTimeout, modT_kept, modWg_kept, trapOut_kept, foldl_kept]

theorem execReedHoldTimeout_kept (h : Kept s) : KeptO (execReedHoldTimeout s) := by
  grind [execReedHoldTimeout, barAll_kept, reedTimeout_kept, keptO_next]

theorem writeSave_kept (h : Kept s) : Kept (writeSave s w seg n i).1 := by
  induction n generalizing s i with
  | zero => exact h
  | succ n ih =>
    simp only [writeSave]
    repeat' split
    all_goals grind [freeBytes_kept, slotAt_kept, writeCanon_kept, sendTable_kept]

theorem readSave_kept (h : Kept s) : Kept (readSave s w va).1 := by
  grind [readSave, hostXlate_kept, readHbmRange_kept, readPeer_kept, translate_kept]

theorem readSaves_kept (h : Kept s) : Kept (readSaves s w seg n i).1 := by
  induction n generalizing s i with
  | zero => exact h
  | succ n ih =>
    simp only [readSaves]
    repeat' split
    all_goals grind [readSave_kept]

theorem execSegmentSaveComplete_kept (h : Kept s) : KeptO (execSegmentSaveComplete k seg s) := by
  grind [execSegmentSaveComplete, modWg_kept, settleUnit_kept, wakeAll_kept, writeBackAll_kept, writeSave_kept, Kept, keptO_next]

theorem execSegmentRestore_kept (h : Kept s) : KeptO (execSegmentRestore k seg wg s) := by
  grind [execSegmentRestore, kill_kept, modWg_kept, readSaves_kept, wakeAll_kept, keptO_next]

theorem fadeHeat_kept (h : Kept s) : Kept (fadeHeat s pte) := by
  grind [fadeHeat, Kept, Memory.wf_setCell]

theorem execHeatSweep_kept (h : Kept s) : KeptO (execHeatSweep s) := by
  grind [execHeatSweep, fadeHeat_kept, foldl_kept, Kept, keptO_next]

end Sys2Proof.Machine
end
section
/-! PROOFS of O8, part 14: links, segments and the fetch of clauses. -/

namespace Sys2Proof.Machine
-- One declaration after another, as in the Tests: less memory.
set_option Elab.async false

theorem modRing_kept (h : Kept s) : Kept (modRing s link event f) := h

theorem writeRingCfg_kept (h : Kept s) : Kept (writeRingCfg s link event v) := by
  grind [writeRingCfg, flushRecords_kept, modRing_kept]

theorem writeRingBase_kept (h : Kept s) : Kept (writeRingBase s link event v) := h

theorem writeRingHead_kept (h : Kept s) : Kept (writeRingHead s link event v) := h

theorem execRegisterWrite_kept (h : Kept s) : KeptO (execRegisterWrite r value s) := by
  unfold execRegisterWrite
  grind [modLink_kept, writeFwctl_kept, writeHeatctl_kept, writeMemerr_kept, writeQbase_kept, writeQcfg_kept, writeRingBase_kept, writeRingCfg_kept, writeRingHead_kept, writeVlctlFields_kept, keptO_next]

theorem execVlctlRetrain_kept (h : Kept s) : KeptO (execVlctlRetrain port value s) := by
  grind [execVlctlRetrain, writeVlctl_kept, keptO_next]

theorem execVlctlDisable_kept (h : Kept s) : KeptO (execVlctlDisable port value s) := by
  grind [execVlctlDisable, writeVlctl_kept, keptO_next]

theorem wakeLink_kept (h : Kept s) : Kept (wakeLink s link) := h

theorem execPcieLinkDown_kept (h : Kept s) : KeptO (execPcieLinkDown s) := by
  grind [execPcieLinkDown, modLink_kept, wakeLink_kept, keptO_next]

theorem execPcieLinkUp_kept (h : Kept s) : KeptO (execPcieLinkUp s) := by
  grind [execPcieLinkUp, flushRecords_kept, modLink_kept, wakeLink_kept, keptO_next]

theorem ltssmTo_kept (h : Kept s) : Kept (ltssmTo s link st width₁ gen) := h

theorem setIde_kept (h : Kept s) : Kept (setIde s link stream key) := h

theorem setTdisp_kept (h : Kept s) : Kept (setTdisp s link pasid on) := h

theorem enter_kept (h : Kept s) : Kept (enter s p st) := by
  grind [enter, modPort_kept]

theorem slower_kept (h : Kept s) : Kept (slower s p) := by
  grind [slower, enter_kept, modPort_kept, toDetect_kept]

theorem execDetect_kept (h : Kept s) : KeptO (execDetect s) := by
  grind [execDetect, enter_kept, modPort_kept, keptO_next]

theorem execDetectRepeat_kept (h : Kept s) : KeptO (execDetectRepeat s) := by
  grind [execDetectRepeat, enter_kept, keptO_next]

theorem execRateLock_kept (h : Kept s) : KeptO (execRateLock s) := by
  grind [execRateLock, enter_kept, modPort_kept, sendTraining_kept, keptO_next]

theorem execRateTimeout_kept (h : Kept s) : KeptO (execRateTimeout s) := by
  grind [execRateTimeout, slower_kept, keptO_next]

theorem endRound_kept (h : Kept s) : Kept (endRound s p good) := by
  grind [endRound, enter_kept, modPort_kept, sendTraining_kept, slower_kept]

theorem execEqualiseRound_kept (h : Kept s) : KeptO (execEqualiseRound port good s) := by
  grind [execEqualiseRound, endRound_kept, keptO_next]

theorem execEqualiseTimeout_kept (h : Kept s) : KeptO (execEqualiseTimeout s) := by
  grind [execEqualiseTimeout, endRound_kept, keptO_next]

theorem execDeskew_kept (h : Kept s) : KeptO (execDeskew s) := by
  grind [execDeskew, enter_kept, sendTraining_kept, keptO_next]

theorem execDeskewTimeout_kept (h : Kept s) : KeptO (execDeskewTimeout s) := by
  grind [execDeskewTimeout, toDetect_kept, keptO_next]

theorem freshChallenge_kept (h : Kept s) : Kept (freshChallenge s).1 := h

theorem beginIdentity_kept (h : Kept s) : Kept (beginIdentity s p) := by
  grind [beginIdentity, enter_kept, freshChallenge_kept, modPort_kept, sendTraining_kept]

theorem execSlots_kept (h : Kept s) : KeptO (execSlots port counts s) := by
  grind [execSlots, beginIdentity_kept, modPort_kept, toDetect_kept, keptO_next]

theorem execSlotsTimeout_kept (h : Kept s) : KeptO (execSlotsTimeout s) := by
  grind [execSlotsTimeout, toDetect_kept, keptO_next]

theorem sendNotice_kept (h : Kept s) : Kept (sendNotice s p) := by
  grind [sendNotice, sendFlit_kept]

theorem quarantine_kept (h : Kept s) : Kept (quarantine s p why) := by
  grind [quarantine, enter_kept, modPort_kept, sendNotice_kept]

theorem activate_kept (h : Kept s) : Kept (activate s p) := by
  grind [activate, enter_kept, modPort_kept]

theorem execIdentity_kept (h : Kept s) : KeptO (execIdentity port partner ed ml s) := by
  grind [execIdentity, activate_kept, quarantine_kept, sendTraining_kept, keptO_next]

theorem execIdentityTimeout_kept (h : Kept s) : KeptO (execIdentityTimeout s) := by
  grind [execIdentityTimeout, quarantine_kept, keptO_next]

theorem execQuarantineNoticeSend_kept (h : Kept s) : KeptO (execQuarantineNoticeSend s) := by
  grind [execQuarantineNoticeSend, enter_kept, sendNotice_kept, keptO_next]

theorem takeNotice_kept (h : Kept s) : Kept (takeNotice s p) := by
  grind [takeNotice, failPort_kept, modPort_kept]

theorem execQuarantineNotice_kept (h : Kept s) : KeptO (execQuarantineNotice s) := by
  grind [execQuarantineNotice, takeNotice_kept, keptO_next]

theorem rxCount_kept (h : Kept s) : Kept (rxCount s p f) := by
  grind [rxCount, modPort_kept]

theorem askReplay_kept (h : Kept s) : Kept (askReplay s p f) := by
  grind [askReplay, modPort_kept, sendLater_kept]

theorem rxLost_kept (h : Kept s) : Kept (rxLost s p f r) := by
  unfold rxLost
  grind [askReplay_kept, modPort_kept, rxCount_kept]

theorem rx_kept (h : Kept s) (htake : ∀ a y, Kept a → Kept (take a y)) : Kept (rx s p f kind vc take) := by
  grind [rx, rxCount_kept, rxLost_kept]

theorem peerAnswer_kept (h : Kept s) : Kept (peerAnswer s b).1 := by
  unfold peerAnswer
  grind [readHbmRange_kept, writeCanon_kept]

theorem execRequestFlit_kept (h : Kept s) : KeptO (execRequestFlit port f s) := by
  grind [execRequestFlit, peerAnswer_kept, rx_kept, sendLater_kept, keptO_next]

theorem dropOutstanding_kept (h : Kept s) : Kept (dropOutstanding s p r) := by
  grind [dropOutstanding, modPort_kept]

theorem answerSync_kept (h : Kept s) : Kept (answerSync s t y old) := by
  grind [answerSync, acquire_kept, syncRead_kept, syncWrite_kept, wakeCore_kept]

theorem answerLoad_kept (h : Kept s) : Kept (answerLoad s i data) := by
  unfold answerLoad
  grind [answerSync_kept, l1Fill_kept, loadCame_kept, Kept]

theorem takeResponse_kept (h : Kept s) : Kept (takeResponse s p i data ok) := by
  grind [takeResponse, answerLoad_kept, answerRead_kept, dropOutstanding_kept, failLoad_kept, failStore_kept, wakeAll_kept, Kept]

theorem takeSlot_kept (h : Kept s) : Kept (takeSlot s p m) := by
  grind [takeSlot, dropOutstanding_kept, endOp_kept, modOp_kept, wakeAll_kept, Kept]

theorem execResponseFlit_kept (h : Kept s) : KeptO (execResponseFlit port f s) := by
  grind [execResponseFlit, rx_kept, takeResponse_kept, takeSlot_kept, keptO_next]

theorem landPayload_kept (h : Kept s) (he : landPayload s port k l = some out) : Kept out := by
  grind [landPayload, modCore_kept, sendLater_kept, servePops_kept, wakeCore_kept]

theorem execEnqueueFlit_kept (h : Kept s) : KeptO (execEnqueueFlit port f s) := by
  refine keptO_next.mpr (rx_kept h fun s b hs => ?_)
  have hl {p k l s'} (h' : Kept s') : Kept ((landPayload s p k l).getD s') := getD_kept (fun _ => landPayload_kept hs) h'
  grind [modCore_kept]

theorem execRemqPayloadLanding_kept (h : Kept s) : KeptO (execRemqPayloadLanding s) := by
  simp only [execRemqPayloadLanding, keptO_next]
  split
  · exact h
  · refine getD_kept (fun t ht => ?_) h
    obtain ⟨u, hu, rfl⟩ := Option.map_eq_some_iff.mp ht
    exact modCore_kept (landPayload_kept h hu)

theorem configureDomain_kept (h : Kept s) : Kept (configureDomain s self members out into) := by
  grind [configureDomain, wakeAll_kept, Kept]

theorem replayFrom_kept (h : Kept s) : Kept (replayFrom s port seq) := by
  grind [replayFrom, modPort_kept]

theorem execManagementFlit_kept (h : Kept s) : KeptO (execManagementFlit port f s) := by
  grind [execManagementFlit, configureDomain_kept, replayFrom_kept, rx_kept, takeNotice_kept, keptO_next]

theorem execIdleFlit_kept (h : Kept s) : KeptO (execIdleFlit port f s) := by
  grind [execIdleFlit, rxCount_kept, rxLost_kept, keptO_next]

theorem execUnknownKindFlit_kept (h : Kept s) : KeptO (execUnknownKindFlit port f s) := by
  grind [execUnknownKindFlit, rxLost_kept, keptO_next]

theorem sendIdle_kept (h : Kept s) : Kept (sendIdle s p) := by
  grind [sendIdle, sendFlit_kept]

theorem linkAck_kept (h : Kept s) : Kept (linkAck s p seq) := by
  grind [linkAck, modPort_kept, wakeAll_kept]

theorem linkTake_kept (h : Kept s) : Kept (linkTake s p) := by
  grind [linkTake, modPort_kept]

theorem execReplayRequest_kept (h : Kept s) : KeptO (execReplayRequest port seq s) := by
  grind [execReplayRequest, replayFrom_kept, keptO_next]

theorem execReplayLimit_kept (h : Kept s) : KeptO (execReplayLimit s) := by
  grind [execReplayLimit, loseLink_kept, keptO_next]

theorem execLinkLoss_kept (h : Kept s) : KeptO (execLinkLoss s) := by
  grind [execLinkLoss, loseLink_kept, keptO_next]

theorem execClockStepDown_kept (h : Kept s) : KeptO (execClockStepDown s) := by
  grind [execClockStepDown, Kept, keptO_next]

theorem execClockStepUp_kept (h : Kept s) : KeptO (execClockStepUp s) := by
  grind [execClockStepUp, Kept, keptO_next]

theorem memWfFrom_filter {p : Host.Cell → Bool} {lo : Nat} {m : List Host.Cell} (h : memWfFrom lo m = true) : memWfFrom lo (m.filter p) = true := by
  induction m generalizing lo with
  | nil => rfl
  | cons c r ih =>
    simp only [memWfFrom, Bool.and_eq_true, decide_eq_true_eq] at h
    obtain ⟨⟨hc, hb⟩, hr⟩ := h
    rw [List.filter_cons]
    split
    · simp only [memWfFrom, Bool.and_eq_true, decide_eq_true_eq]
      exact ⟨⟨hc, hb⟩, ih hr⟩
    · exact memWfFrom_mono (by omega) (ih hr)

/-- Of the memory only the host's part outlives a loss of power; the ports are those of the reset. -/
theorem unpowered_kept (h : Kept s) : Kept (unpowered s on) := ⟨memWfFrom_filter h.1, (by decide : State.reset.ports.length = 16)⟩

theorem execPowerGood_kept (h : Kept s) : KeptO (execPowerGood steps stackFail bridgeFail s) := by
  grind [execPowerGood, unpowered_kept, Kept, keptO_next]

theorem execPowerRemoved_kept (h : Kept s) : KeptO (execPowerRemoved s) := by
  grind [execPowerRemoved, unpowered_kept, keptO_next]

theorem execWarmReset_kept (h : Kept s) : KeptO (execWarmReset cause die lost stuck s) := by
  grind [execWarmReset, moduleEvent_kept, performStore_kept, foldl_kept, Kept, keptO_next]

theorem abandonLines_kept (h : Kept s) : Kept (abandonLines s) := by
  grind [abandonLines, countErr_kept, setBlock_kept, foldl_kept, Kept]

theorem execWarmResetWritebackDeadline_kept (h : Kept s) : KeptO (execWarmResetWritebackDeadline s) := by
  grind [execWarmResetWritebackDeadline, abandonLines_kept, keptO_next]

theorem restartLaunch_kept (h : Kept s) : Kept (restartLaunch s x) := by
  grind [restartLaunch, failQueue_kept, modLaunch_kept, modQueue_kept, Kept]

theorem dropCtx_kept (h : Kept s) : Kept (dropCtx pasid ls ws s) := h

theorem interruptCtx_kept (h : Kept s) : Kept (interruptCtx s pasid) := by
  grind [interruptCtx, dropCtx_kept, dropWg_kept, failQueue_kept, modQueue_kept, restartLaunch_kept, foldl_kept]

theorem resetCaches_kept (h : Kept s) : Kept (resetCaches s) := h

theorem execWarmResetComplete_kept (h : Kept s) : KeptO (execWarmResetComplete s) := by
  grind [execWarmResetComplete, abandonLines_kept, endTrial_kept, interruptCtx_kept, resetCaches_kept, settleLaunches_kept, wakeAll_kept, foldl_kept, Kept, keptO_next]

theorem claimSeg_kept (h : Kept s) : Kept (claimSeg s x) := h

theorem claimAll_kept (h : Kept s) : Kept (claimAll s ts i) := by
  grind [claimAll, claimSeg_kept, waitFor_kept, foldl_kept]

theorem codeBytes_kept (h : Kept s) : Kept (codeBytes s w t layout key va r).1 := by
  grind [codeBytes, applySev_kept, modT_kept]

theorem codeLost_kept (h : Kept s) : Kept (codeLost s w va).1 := by
  grind [codeLost, applyNoData_kept]

theorem readLine_kept (h : Kept s) : Kept (readLine s w t l pa va).1 := by
  grind [readLine, codeBytes_kept, codeLost_kept, hold_kept, hostXlate_kept, readHbmRange_kept, readPeer_kept]

theorem keepLine_kept (h : Kept s) : Kept (keepLine s x) := h

theorem fetchLine_kept (h : Kept s) : Kept (fetchLine s w t va).1 := by
  grind [fetchLine, hold_kept, keepLine_kept, readLine_kept, translate_kept]

theorem execReservedOpcodeWord_kept (h : Kept s) : KeptO (execReservedOpcodeWord w legacy s) := by
  grind [execReservedOpcodeWord, perLane_kept, Kept, keptO_next]

theorem fetchStop_kept (h : Kept s) : Kept (fetchStop s hdr ts r) := by
  unfold fetchStop
  grind [deliverTraps_kept, settleTraps_kept, waitFor_kept, foldl_kept]

theorem countSlips_kept (h : Kept s) : Kept (countSlips s k e n) := by
  grind [countSlips, Kept]

theorem execIcacheFill_kept (h : Kept s) : KeptO (execIcacheFill k va s) := by
  grind [execIcacheFill, countSlips_kept, fetchLine_kept, waitFor_kept, keptO_next]

theorem prefetchCode_kept (h : Kept s) : Kept (prefetchCode s w t va) := by
  grind [prefetchCode, fetchLine_kept, Kept]

/-! ### Fetching carries the state -/

theorem fetchWord_kept {a : Fetching} (h : Kept a.s) : Kept (fetchWord w t a va).s := by
  grind [fetchWord, fetchLine_kept]

theorem foldl_fetching_kept {α : Type} {l : List α} {f : Fetching → α → Fetching} {a : Fetching} (hf : ∀ a x, Kept a.s → Kept (f a x).s) (h : Kept a.s) :
    Kept (l.foldl f a).s := foldl_inv (fun a : Fetching => Kept a.s) _ hf _ _ h

theorem legacyWords_kept {a : Fetching} (h : Kept a.s) : Kept (legacyWords w t fuel a va cs).1.s := by
  induction fuel generalizing a va cs with
  | zero => exact h
  | succ n ih =>
    simp only [legacyWords]
    repeat' split
    all_goals grind [fetchWord_kept]

theorem fetchClauseOnce_kept (h : Kept s) : Kept (fetchClauseOnce s w t hdr).1.s := by
  have ha := fetchWord_kept (w := w) (t := t) (a := ⟨s, 0, [], [], none⟩) (va := hdr) h
  simp only [fetchClauseOnce]
  repeat' split
  all_goals grind [fetchWord_kept, legacyWords_kept, foldl_fetching_kept]

theorem fetchClause_kept (h : Kept s) : Kept (fetchClause s w t hdr).1.s := by
  simp only [fetchClause]
  split
  · exact fetchClauseOnce_kept h
  · exact fetchClauseOnce_kept ((fetchClauseOnce_kept h).of_eq rfl rfl)

theorem formGroup_kept (h : Kept s) : Kept (formGroup s k e) := by
  simp only [formGroup]
  split
  · exact h
  · split
    · exact h
    · have hc {w t hdr n} : Kept (countSlips (fetchClause s w t hdr).1.s k e n) := countSlips_kept (fetchClause_kept h)
      split
      · exact fetchStop_kept hc
      · exact fetchStop_kept hc
      · have hl {α : Type} {w t hdr n h' ts r} {l : List α} {f : α → Tid} :
            Kept (l.foldl (fun s t => waitFor s (f t) .clause) (fetchStop (countSlips (fetchClause s w t hdr).1.s k e n) h' ts r)) :=
          foldl_kept (fun _ _ hs => waitFor_kept hs) (fetchStop_kept hc)
        refine ite_kept (fetchStop_kept (fetchStop_kept hc)) (ite_kept hl ?_)
        exact Kept.of_eq (foldl_kept (fun _ _ hs => modT_kept hs) (dropReads_kept (ite_kept (prefetchCode_kept hl) hl))) rfl rfl

theorem groupOfCand_kept (h : Kept s) : Kept (groupOfCand s k c).1 := by
  unfold groupOfCand
  grind [formGroup_kept]

theorem decodeTrap_kept (h : Kept s) : Kept (decodeTrap s w c) := by
  grind [decodeTrap, perLane_kept]

theorem beforeWord_kept (h : Kept s) : Kept (beforeWord s) := by
  grind [beforeWord, settleTraps_kept, Kept]

theorem holdSync_kept (h : Kept s) : Kept (holdSync s ts) := by
  grind [holdSync, waitFor_kept, foldl_kept]

theorem enterClaims_kept (h : Kept s) : Kept (enterClaims s w ins) := by
  unfold enterClaims
  grind [claimAll_kept]

theorem enterWord_kept (h : Kept s) : Kept (enterWord s g).1 := by
  grind [enterWord, beforeWord_kept, enterClaims_kept, holdSync_kept, Kept]

theorem leaveWord_kept (h : Kept s) : Kept (leaveWord s g dpfx) := by
  grind [leaveWord, settleFrozen_kept, yieldAt_kept, foldl_kept, Kept]

theorem endSlot_kept (h : Kept s) : Kept (endSlot s k more g dpfx).1 := by
  grind [endSlot, modCore_kept]

end Sys2Proof.Machine
end
section
/-! PROOFS of O8, part 15: the instructions, and the step. -/

namespace Sys2Proof.Machine
-- One declaration after another, as in the Tests: less memory.
set_option Elab.async false

/-- One lemma for each constructor. -/
theorem exec_kept (h : Kept s) : (i : Instr) → KeptO (exec i s)
  | .nop .. => execNop_kept h
  | .mov .. => execMov_kept h
  | .iadd .. => execIadd_kept h
  | .isub .. => execIsub_kept h
  | .iaddc .. => execIaddc_kept h
  | .isubb .. => execIsubb_kept h
  | .ineg .. => execIneg_kept h
  | .iabs .. => execIabs_kept h
  | .imul .. => execImul_kept h
  | .imulhi .. => execImulhi_kept h
  | .imad .. => execImad_kept h
  | .idiv .. => execIdiv_kept h
  | .irem .. => execIrem_kept h
  | .imin .. => execImin_kept h
  | .imax .. => execImax_kept h
  | .icmp .. => execIcmp_kept h
  | .and .. => execAnd_kept h
  | .or .. => execOr_kept h
  | .xor .. => execXor_kept h
  | .not .. => execNot_kept h
  | .andn .. => execAndn_kept h
  | .bool3 .. => execBool3_kept h
  | .shl .. => execShl_kept h
  | .shr .. => execShr_kept h
  | .shra .. => execShra_kept h
  | .rotl .. => execRotl_kept h
  | .funnel .. => execFunnel_kept h
  | .bfe .. => execBfe_kept h
  | .bfi .. => execBfi_kept h
  | .popc .. => execPopc_kept h
  | .clz .. => execClz_kept h
  | .ctz .. => execCtz_kept h
  | .brev .. => execBrev_kept h
  | .bpick .. => execBpick_kept h
  | .lea .. => execLea_kept h
  | .sel .. => execSel_kept h
  | .vadd2 .. => execVadd2_kept h
  | .vsub2 .. => execVsub2_kept h
  | .vmin2 .. => execVmin2_kept h
  | .vmax2 .. => execVmax2_kept h
  | .acsel2 .. => execAcsel2_kept h
  | .dot4 .. => execDot4_kept h
  | .dot2 .. => execDot2_kept h
  | .cvti .. => execCvti_kept h
  | .fadd .. => execFadd_kept h
  | .fsub .. => execFsub_kept h
  | .fmul .. => execFmul_kept h
  | .ffma .. => execFfma_kept h
  | .fmin .. => execFmin_kept h
  | .fmax .. => execFmax_kept h
  | .fminp .. => execFminp_kept h
  | .fmaxp .. => execFmaxp_kept h
  | .fcmp .. => execFcmp_kept h
  | .fclass .. => execFclass_kept h
  | .fcopysgn .. => execFcopysgn_kept h
  | .frnd .. => execFrnd_kept h
  | .fdiv .. => execFdiv_kept h
  | .fsqrt .. => execFsqrt_kept h
  | .frcp .. => execFrcp_kept h
  | .frsq .. => execFrsq_kept h
  | .fexp2 .. => execFexp2_kept h
  | .flog2 .. => execFlog2_kept h
  | .fsinpi .. => execFsinpi_kept h
  | .fcospi .. => execFcospi_kept h
  | .ftanh .. => execFtanh_kept h
  | .hadd2 .. => execHadd2_kept h
  | .hmul2 .. => execHmul2_kept h
  | .hfma2 .. => execHfma2_kept h
  | .hmin2 .. => execHmin2_kept h
  | .hmax2 .. => execHmax2_kept h
  | .hdot2 .. => execHdot2_kept h
  | .dadd .. => execDadd_kept h
  | .dmul .. => execDmul_kept h
  | .dfma .. => execDfma_kept h
  | .fcvt .. => execFcvt_kept h
  | .f2i .. => execF2i_kept h
  | .i2f .. => execI2f_kept h
  | .cvtq .. => execCvtq_kept h
  | .cvtdq .. => execCvtdq_kept h
  | .amax .. => execAmax_kept h
  | .lanex .. => execLanex_kept h
  | .bcastl .. => execBcastl_kept h
  | .pcensus .. => execPcensus_kept h
  | .matchL .. => execMatchL_kept h
  | .redls .. => execRedls_kept h
  | .redidx .. => execRedidx_kept h
  | .scan .. => execScan_kept h
  | .pbool3 .. => execPbool3_kept h
  | .ptov .. => execPtov_kept h
  | .vtop .. => execVtop_kept h
  | .actmask .. => execActmask_kept h
  | .bra .. => execBra_kept h
  | .brx .. => execBrx_kept h
  | .call .. => execCall_kept h
  | .callx .. => execCallx_kept h
  | .ret .. => execRet_kept h
  | .retn .. => execRetn_kept h
  | .exit .. => execExit_kept h
  | .yield .. => execYield_kept h
  | .sleep .. => execSleep_kept h
  | .bkpt .. => execBkpt_kept h
  | .trap .. => execTrap_kept h
  | .ld .. => execLd_kept h
  | .st .. => execSt_kept h
  | .lds .. => execLds_kept h
  | .sts .. => execSts_kept h
  | .ldcl .. => execLdcl_kept h
  | .stcl .. => execStcl_kept h
  | .ldbd .. => execLdbd_kept h
  | .stbd .. => execStbd_kept h
  | .pref .. => execPref_kept h
  | .cinval .. => execCinval_kept h
  | .smap .. => execSmap_kept h
  | .sunmap .. => execSunmap_kept h
  | .swb .. => execSwb_kept h
  | .atom .. => execAtom_kept h
  | .atomcas .. => execAtomcas_kept h
  | .red .. => execRed_kept h
  | .atoms .. => execAtoms_kept h
  | .fence .. => execFence_kept h
  | .bar .. => execBar_kept h
  | .barp .. => execBarp_kept h
  | .gbar .. => execGbar_kept h
  | .ckpt .. => execCkpt_kept h
  | .copy .. => execCopy_kept h
  | .copym .. => execCopym_kept h
  | .gather .. => execGather_kept h
  | .scatter .. => execScatter_kept h
  | .remq .. => execRemq_kept h
  | .rqpop .. => execRqpop_kept h
  | .xred .. => execXred_kept h
  | .strm .. => execStrm_kept h
  | .strmx .. => execStrmx_kept h
  | .tchk .. => execTchk_kept h
  | .tcfg .. => execTcfg_kept h
  | .oclaim .. => execOclaim_kept h
  | .orel .. => execOrel_kept h
  | .mma .. => execMma_kept h
  | .mmaz .. => execMmaz_kept h
  | .mxt .. => execMxt_kept h
  | .mperm .. => execMperm_kept h
  | .mrred .. => execMrred_kept h
  | .accld .. => execAccld_kept h
  | .accst .. => execAccst_kept h
  | .accz .. => execAccz_kept h
  | .mtake .. => execMtake_kept h
  | .mpass .. => execMpass_kept h
  | .mdrop .. => execMdrop_kept h
  | .mstat .. => execMstat_kept h
  | .spawn .. => execSpawn_kept h
  | .spawnw .. => execSpawnw_kept h
  | .spawnr .. => execSpawnr_kept h
  | .tget .. => execTget_kept h
  | .launch .. => execLaunch_kept h
  | .bwupd .. => execBwupd_kept h
  | .bwrd .. => execBwrd_kept h
  | .cwait .. => execCwait_kept h
  | .cnotify .. => execCnotify_kept h
  | .cheld .. => execCheld_kept h
  | .dpfx .. => execDpfx_kept h
  | .tmov .. => execTmov_kept h
  | .getsr .. => execGetsr_kept h
  | .setsr .. => execSetsr_kept h
  | .eret .. => execEret_kept h
  | .fwcall .. => execFwcall_kept h
  | .moncall .. => execMoncall_kept h
  | .icinv .. => execIcinv_kept h
  | .tlbinv .. => execTlbinv_kept h
  | .fcxl .. => execFcxl_kept h
  | .finj .. => execFinj_kept h
  | .halt .. => execHalt_kept h
  | .cctl .. => execCctl_kept h
  | .pairWord .. => execPairWord_kept h
  | .fill .. => execFill_kept h
  | .storeAcknowledge .. => execStoreAcknowledge_kept h
  | .tableWalk .. => execTableWalk_kept h
  | .engineOperationComplete .. => execEngineOperationComplete_kept h
  | .engineHandleRecheck .. => execEngineHandleRecheck_kept h
  | .streamElementDelivery .. => execStreamElementDelivery_kept h
  | .monitorGrant .. => execMonitorGrant_kept h
  | .colourRequestRetry .. => execColourRequestRetry_kept h
  | .colourWaitTimeout .. => execColourWaitTimeout_kept h
  | .cwaitTimeout .. => execCwaitTimeout_kept h
  | .watchdog .. => execWatchdog_kept h
  | .sleepExpiry .. => execSleepExpiry_kept h
  | .spawnOverflow .. => execSpawnOverflow_kept h
  | .binTimeout .. => execBinTimeout_kept h
  | .segmentSaveComplete .. => execSegmentSaveComplete_kept h
  | .segmentRestore .. => execSegmentRestore_kept h
  | .budgetExhausted .. => execBudgetExhausted_kept h
  | .dependencyWatcherPrompt .. => execDependencyWatcherPrompt_kept h
  | .icacheFill .. => execIcacheFill_kept h
  | .sideLogReplay .. => execSideLogReplay_kept h
  | .fsvcbRetry .. => execFsvcbRetry_kept h
  | .fsvcbCancelPage .. => execFsvcbCancelPage_kept h
  | .fsvcbCancelPasid link _ => execFsvcbCancelPasid_kept (_link := link) h
  | .priResponse .. => execPriResponse_kept h
  | .atsCompletion .. => execAtsCompletion_kept h
  | .atsCompletionTimeout .. => execAtsCompletionTimeout_kept h
  | .doorbell .. => execDoorbell_kept h
  | .qctlReset .. => execQctlReset_kept h
  | .qctlEnableSet .. => execQctlEnableSet_kept h
  | .qctlEnableClear .. => execQctlEnableClear_kept h
  | .nopPacket .. => execNopPacket_kept h
  | .launchPacket .. => execLaunchPacket_kept h
  | .dmaPacket .. => execDmaPacket_kept h
  | .dmaComplete .. => execDmaComplete_kept h
  | .waitvPacket .. => execWaitvPacket_kept h
  | .waitvPoll .. => execWaitvPoll_kept h
  | .waitvTimeout .. => execWaitvTimeout_kept h
  | .signalPacket .. => execSignalPacket_kept h
  | .regionPacket .. => execRegionPacket_kept h
  | .regionCommit .. => execRegionCommit_kept h
  | .fencePacket .. => execFencePacket_kept h
  | .timestampPacket .. => execTimestampPacket_kept h
  | .pstopGo .. => execPstopGo_kept h
  | .fwcommit .. => execFwcommit_kept h
  | .firmwareUpdateRequest .. => execFirmwareUpdateRequest_kept h
  | .monitorPatchRequest .. => execMonitorPatchRequest_kept h
  | .patchConfirmation .. => execPatchConfirmation_kept h
  | .spdmRequest .. => execSpdmRequest_kept h
  | .vlctlRetrain .. => execVlctlRetrain_kept h
  | .vlctlDisable .. => execVlctlDisable_kept h
  | .registerWrite .. => execRegisterWrite_kept h
  | .powerGood .. => execPowerGood_kept h
  | .equaliseRound .. => execEqualiseRound_kept h
  | .slots .. => execSlots_kept h
  | .identity .. => execIdentity_kept h
  | .requestFlit .. => execRequestFlit_kept h
  | .responseFlit .. => execResponseFlit_kept h
  | .enqueueFlit .. => execEnqueueFlit_kept h
  | .managementFlit .. => execManagementFlit_kept h
  | .idleFlit .. => execIdleFlit_kept h
  | .replayRequest .. => execReplayRequest_kept h
  | .warmReset .. => execWarmReset_kept h
  | .broadcastWordCopyUpdate .. => execBroadcastWordCopyUpdate_kept h
  | .reservedOpcodeWord .. => execReservedOpcodeWord_kept h
  | .unknownKindFlit .. => execUnknownKindFlit_kept h
  | .atsInvalidationRequest .. => execAtsInvalidationRequest_kept h
  | .pcieLinkUp => execPcieLinkUp_kept h
  | .detect => execDetect_kept h
  | .detectRepeat => execDetectRepeat_kept h
  | .rateLock => execRateLock_kept h
  | .rateTimeout => execRateTimeout_kept h
  | .equaliseTimeout => execEqualiseTimeout_kept h
  | .deskew => execDeskew_kept h
  | .deskewTimeout => execDeskewTimeout_kept h
  | .slotsTimeout => execSlotsTimeout_kept h
  | .identityTimeout => execIdentityTimeout_kept h
  | .quarantineNoticeSend => execQuarantineNoticeSend_kept h
  | .quarantineNotice => execQuarantineNotice_kept h
  | .remqPayloadLanding => execRemqPayloadLanding_kept h
  | .replayLimit => execReplayLimit_kept h
  | .linkLoss => execLinkLoss_kept h
  | .pcieLinkDown => execPcieLinkDown_kept h
  | .haltWake => execHaltWake_kept h
  | .spillRetry => execSpillRetry_kept h
  | .dequeEntryStart => execDequeEntryStart_kept h
  | .stealRequest => execStealRequest_kept h
  | .stealResponse => execStealResponse_kept h
  | .stealBackoffExpiry => execStealBackoffExpiry_kept h
  | .gangPlacement => execGangPlacement_kept h
  | .frozenGangResume => execFrozenGangResume_kept h
  | .heatSweep => execHeatSweep_kept h
  | .fetcherTurn => execFetcherTurn_kept h
  | .fwcallAnswer => execFwcallAnswer_kept h
  | .moncallAnswer => execMoncallAnswer_kept h
  | .gangRetire => execGangRetire_kept h
  | .dependencyRetest => execDependencyRetest_kept h
  | .reedHoldTimeout => execReedHoldTimeout_kept h
  | .budgetWindowBoundary => execBudgetWindowBoundary_kept h
  | .quiescentPoint => execQuiescentPoint_kept h
  | .quiescentTimeout => execQuiescentTimeout_kept h
  | .trialWatchdog => execTrialWatchdog_kept h
  | .clockStepDown => execClockStepDown_kept h
  | .clockStepUp => execClockStepUp_kept h
  | .warmResetWritebackDeadline => execWarmResetWritebackDeadline_kept h
  | .warmResetComplete => execWarmResetComplete_kept h
  | .powerRemoved => execPowerRemoved_kept h

theorem settle_kept (h : Kept s) : Kept (settle s) := by
  grind [settle, barAll_kept, flushRecords_kept, settleLaunches_kept, settleTeardowns_kept]

theorem passTime_kept (h : Kept s) : Kept (passTime s n) := h

theorem thenState_kept (ho : KeptO o) (hf : ∀ t, Kept t → Kept (f t)) : KeptO (thenState o f) := by
  cases o with
  | next s => exact keptO_next.mpr (hf s (keptO_next.mp ho))
  | fault x => exact keptO_fault
  | refused x => exact keptO_refused

theorem issueWord_kept (h : Kept s) : KeptO (issueWord s g) := by
  have he := enterWord_kept (g := g) h
  simp only [issueWord]
  split
  · exact keptO_next.mpr he
  · split
    · exact keptO_next.mpr (leaveWord_kept (decodeTrap_kept he))
    · exact thenState_kept (exec_kept he _) fun _ ht => leaveWord_kept ht

theorem holdTable_kept (h : Kept s) : Kept (holdTable s k) := h

theorem endCycle_kept (h : Kept s) : Kept (endCycle s k) := by
  grind [endCycle, modCore_kept, passTime_kept, settle_kept, Kept]

theorem afterWord_kept (h : Kept s) : Kept (afterWord k more g s) := by
  grind [afterWord, endSlot_kept, passTime_kept, settle_kept]

theorem issueOn_kept (h : Kept s) : KeptO (issueOn s k) := by
  have ht := holdTable_kept (k := k) h
  simp only [issueOn]
  split
  · exact keptO_next.mpr (ite_kept (endCycle_kept ht) ht)
  · split
    case h_1 e => exact keptO_next.mpr (settle_kept (passTime_kept ((groupOfCand_kept ht).of_fst_eq e)))
    case h_2 e => exact thenState_kept (issueWord_kept ((groupOfCand_kept ht).of_fst_eq e)) fun _ hw => afterWord_kept hw

theorem runEvent_kept (h : Kept s) : KeptO (runEvent s i u) := by
  have hu : Kept { s with unit_ := u } := h.of_eq rfl rfl
  exact keptO_ite (keptO_next.mpr h) (thenState_kept (exec_kept hu i) fun _ ht => settle_kept ht)

theorem regError_kept (h : Kept s) : Kept (regError s t n) := by
  grind [regError, freeValue_kept, modT_kept, settleTraps_kept, Kept]

theorem earlyWriteBack_kept (h : Kept s) : Kept (earlyWriteBack s wg chunk) := by
  grind [earlyWriteBack, writeBackChunk_kept]

theorem firmwareThread_kept (h : Kept s) : Kept (firmwareThread s die pl pasid pc) := by
  grind [firmwareThread, formWg_kept, Kept]

theorem runItem_kept (h : Kept s) : (x : Item) → KeptO (runItem s x)
  | .event .. => runEvent_kept h
  | .issue _ => keptO_ite (keptO_next.mpr h) (issueOn_kept h)
  | .advance _ => keptO_next.mpr (settle_kept (passTime_kept h))
  | .hostWrite .. => keptO_next.mpr (ite_kept (setCells_kept (syncClear_kept h)) h)
  | .media .. => keptO_next.mpr (setBlock_kept h)
  | .regEcc .. => keptO_next.mpr (settle_kept (regError_kept h))
  | .evictL1 .. | .evictTlb _ | .evictClb .. | .evictIcache .. | .evictDie _ | .handoffByte .. => keptO_next.mpr (h.of_eq rfl rfl)
  | .writeBack .. => keptO_next.mpr (settle_kept (earlyWriteBack_kept h))
  | .undoEcc _ => keptO_next.mpr (modWg_kept h)
  | .hostRead .. => keptO_next.mpr (hostRead_kept h)
  | .linkAck .. => keptO_next.mpr (linkAck_kept h)
  | .linkTake _ => keptO_next.mpr (linkTake_kept h)
  | .linkIdle _ => keptO_next.mpr (sendIdle_kept h)
  | .ltssm .. => keptO_next.mpr (ltssmTo_kept h)
  | .ideKey .. => keptO_next.mpr (setIde_kept h)
  | .tdisp .. => keptO_next.mpr (setTdisp_kept h)
  | .devCtl2 .. => keptO_next.mpr (modLink_kept h)
  | .firmwareThread .. => keptO_next.mpr (ite_kept h (firmwareThread_kept h))

theorem firstTurn_kept (h : Kept s) (he : firstTurn s l = some out) : Kept out := by
  induction l with
  | nil => cases he
  | cons x l ih =>
    have hx := runEvent_kept (i := x.1) (u := x.2) h
    unfold firstTurn at he
    split at he
    · next e =>
      split at he
      · exact ih he
      · exact Option.some.inj he ▸ hx _ e
    · exact ih he

theorem defaultTurn_kept (h : Kept s) : KeptO (defaultTurn s) := by
  have hf {l t} (e : firstTurn s l = some t) : KeptO (.next t) := keptO_next.mpr (firstTurn_kept h e)
  have hi : KeptO (.next (settle (passTime s 1))) := keptO_next.mpr (settle_kept (passTime_kept h))
  simp only [defaultTurn]
  repeat' split
  all_goals grind [issueOn_kept]

theorem step_kept (h : Kept s) : KeptO (step s) := by
  unfold step
  split
  · exact keptO_ite (defaultTurn_kept h) keptO_fault
  · next x r _ =>
    have hr : Kept { s with agenda := r } := h.of_eq rfl rfl
    exact keptO_ite (runItem_kept hr x) keptO_fault

/-- Settles O8: every function of the model that answers a state keeps memory in canonical form and the sixteen ports
(the lemmas `…_kept`), and a step is made of them. -/
theorem stepKeeps : Obligations.StepKeeps := fun _ t hm hp => step_kept ⟨hm, hp⟩ t

end Sys2Proof.Machine
end
